-- ==== Sys2Proof/Word.lean ====
section
/-! DEFINITION. Words and bytes of Adeur 3.1, the plainest arithmetic on them, and the type of sparse tables. -/

namespace Sys2Proof

/-- A byte of a fabric packet, tile or image. -/
abbrev Byte := BitVec 8

/-- A 32-bit register word (R54, R365). -/
abbrev Word := BitVec 32

/-- A table keyed by number. Canonical form: keys strictly rising, no entry equal to what an unlisted key reads as. -/
abbrev Tab (α : Type) := List (Nat × α)

/-- Bits [hi:lo] of a number, both ends included (R4). -/
def bits (w hi lo : Nat) : Nat := w / 2 ^ lo % 2 ^ (hi - lo + 1)

/-- Bit `i` of a number (R4). -/
def bit (w i : Nat) : Bool := w / 2 ^ i % 2 == 1

end Sys2Proof
end

