-- ==== Sys2Proof/Syntax.lean ====
section
/-! DEFINITION. The commands of the block: one constructor of `Instr` per row of spec/opcode_table.json.
The table gives the rows no bits and no fields; the operands are the values that the rule of the row names
(assumption log 2). -/

namespace Sys2Proof

/-- The two management ports (R45). -/
inductive MPort where
  | mpa | mpb
  deriving DecidableEq, Repr

/-- An access that the other management port presents in the same MGCLK cycle (R47): address, byte enables, direction, data. -/
structure Rival where
  addr : Nat
  be : Nat
  write : Bool
  wdata : BitVec 64
  deriving DecidableEq, Repr

/-- A management port that presents an access, with the access of the other port in the same MGCLK cycle, if any (R47). -/
structure Claim where
  port : MPort
  rival : Option Rival
  deriving DecidableEq, Repr

/-- The name of a queue: a domain queue Q#n or a cell queue CQn (Table 0-6). -/
inductive QRef where
  | dom (qid : Nat)
  | cell (n : Nat)
  deriving DecidableEq, Repr

/-- One of the 258 admin rings (R99). -/
inductive AdminRing where
  | mga | mgb
  | dom (d : Nat)
  deriving DecidableEq, Repr

/-- A credited outbound channel of a data port (R339). -/
inductive Chan where
  | txReq | txCpl
  deriving DecidableEq, Repr

/-- How a read ended: its bytes, its bytes with poison, an error completion, or DPT_RD_TMO (R93, R97, R338). -/
inductive ReadResult where
  | data (bs : List Byte)
  | poison (bs : List Byte)
  | error
  | timeout
  deriving DecidableEq, Repr

/-- A tile fault that the block's own checks find while a completion's tiles pass through a mover (R137, R287). -/
inductive TileFault where
  | none
  | readLane (loc : Nat)   -- with the reorder location the tile came from (R288)
  | reshape | writeLane
  | pool (f : Nat) -- a tile read from the staging pool for FIFO f fails (R222, R287)
  | crossing     -- a tile that crossed a Square half fails at its receiving check (R288)
  deriving DecidableEq, Repr

/-- A level on an input pin behind its two-flop synchroniser, and the MCLK cycles in a row for which it has stood there (R158,
R210). -/
structure PinSample where
  level : Bool
  held : Nat
  deriving DecidableEq, Repr

/-- The sample of the pin of unit or line `n` (R158, R210). -/
structure PinAt where
  n : Nat
  pin : PinSample
  deriving DecidableEq, Repr

/-- What one filtered cycle of PH_A and PH_B brings (R158, R159). -/
inductive QuadEdge where
  | forward | reverse
  | both         -- A and B change in the same filtered cycle: QUAD_ERR
  deriving DecidableEq, Repr

/-- A change of PH_A and PH_B, with the MCLK cycles in a row for which the new levels have stood (R158). -/
structure QuadStep where
  edge : QuadEdge
  held : Nat
  deriving DecidableEq, Repr

/-- The level an accepted request-line input takes (R210). -/
inductive LineEdge where
  | active | inactive
  deriving DecidableEq, Repr

/-- The line a WAIT waits on: a wired line RL or a virtual line VRL (Table 4-3). -/
inductive LineRef where
  | wired (n : Nat)
  | virt (v : Nat)
  deriving DecidableEq, Repr

/-- A word offered on an input stream port (Table 10-2): 16 bytes, parity failures, ILAST, INB. -/
structure StreamWord where
  bytes : List Byte
  parityBad : Bool
  last : Bool
  inb : Nat
  withdrawn : Bool   -- SP_IVALID fell before the word transferred (R224)
  deriving DecidableEq, Repr

/-- An inbound packet of RX_INB as the host switch presents it (Table 15-3). -/
structure InPkt where
  isWrite : Bool
  badHeader : Bool     -- reserved TYPE, wrong beat count, or not MRD / MWR (R338)
  noCredit : Bool      -- a beat was presented without a credit (R339)
  addr : Nat           -- ADDR, 64 bits
  len : Nat
  dom : Nat
  tag : Nat
  gen : Nat
  poison : Bool
  relay : Bool
  relayInst : Nat      -- LEN[37:32] of a relay write (R337)
  relayCell : Bool
  relayQid : Nat
  data : List Byte
  deriving DecidableEq, Repr

/-- A completion of RX_CPL (Table 15-3). -/
structure Cpl where
  badHeader : Bool
  tag : Nat
  gen : Nat
  cstat : Nat
  offset : Nat
  last : Bool
  poison : Bool
  data : List Byte
  deriving DecidableEq, Repr

/-- What the start-up self-test found (R37): the FAIL bits of LDR_BIST and the failing tiles of the two counted stores. -/
structure BistResult where
  fail : BitVec 24
  chervilTiles : List Nat
  poolTiles : List Nat
  deriving DecidableEq, Repr

/-- What a scrub read of one context tile found (R289). -/
inductive ScrubResult where
  | clean
  | badA | badB | badBoth
  deriving DecidableEq, Repr

/-- The commands, in the order of spec/opcode_table.json. -/
inductive Instr where
  -- clocks and resets
  | powerOnReset (testMode : Nat)
  | portReset (p : MPort)
  | clockMeasurement (mclkKHz mgclkKHz : Nat)
  | refclkLost
  | mgclkGap
  -- loader
  | nvmSettleDone
  | hdrReadDone (copyA copyB : List Byte)
  | hdrRetry
  | verifyDone (secs alt : List (List Byte))
  | powerAck (d : Nat)
  | pwrTimeout (d : Nat)
  | selftestDone (r : BistResult)
  | applyDone (secs alt : List (List Byte))
  | reload (p : MPort)
  | warm (p : MPort)
  | warmRestartDone (storeOk : Bool)
  | nvRead (p : MPort) (data : List Byte)
  | nvErase (p : MPort)
  | nvProgram (p : MPort)
  | nvStatusPoll (busy : Bool) (readBack : List Byte)
  -- register access
  | registerWrite (c : Claim) (addr be : Nat) (wdata : BitVec 64)
  | keyUnlock (p : MPort) (value : Word)
  | keyUnlockLapse (p : MPort)
  | semAcquire (c : Claim) (n : Nat)
  | semRelease (p : MPort) (n : Nat)
  | semForce (p : MPort) (n : Nat)
  | mbxSelWrite (p : MPort) (cls index : Nat)
  | mbxCapture (p : MPort)
  | mbxBackingReadDone (p : MPort) (r : ReadResult)
  | mbxTimeout (p : MPort)
  | mbxLastWordRead (p : MPort)
  | evtStatRead (p : MPort) (g : Nat)
  | evtAck (p : MPort) (g seq mask : Nat)
  | updArm (p : MPort) (source pu : Nat) (driveOut : Bool)
  | updGo (p : MPort)
  | updStbIn
  | updStrobeMsg (tag size : Nat)
  | updPhasePoint
  | updTimeout
  -- admin rings and commands
  | adminNudge (d hdrDom size value : Nat)
  | adminCplReturn (d hdrDom size value : Nat)
  | adminPoll (d : Nat)
  | adminRingReadDone (d : Nat) (r : ReadResult)
  | mgSubmit (p : MPort) (b : Bool)
  | mgPop (p : MPort) (b : Bool)
  | createQueue (r : AdminRing)
  | destroyQueue (r : AdminRing)
  | modifyQueue (r : AdminRing)
  | stopQueue (r : AdminRing)
  | resumeQueue (r : AdminRing)
  | pinQueue (r : AdminRing)
  | unpinQueue (r : AdminRing)
  | queryQueue (r : AdminRing)
  | createEventRing (r : AdminRing)
  | destroyEventRing (r : AdminRing)
  | adminNop (r : AdminRing)
  | stopDomain (r : AdminRing)
  | resumeDomain (r : AdminRing)
  | stopMover (r : AdminRing)
  | resumeMover (r : AdminRing)
  | stopPort (r : AdminRing)
  | resumePort (r : AdminRing)
  | stopInstance (r : AdminRing)
  | resumeInstance (r : AdminRing)
  | setQuota (r : AdminRing)
  | resetDomain (r : AdminRing)
  | contextWaitTimeout (r : AdminRing)
  -- rings and descriptors
  | nudge (q : QRef) (hdrDom size value : Nat)
  | pollDue (q : QRef)
  | ringTileArrival (port tag gen : Nat) (r : ReadResult)
  | localBufferFill (q : QRef)
  | chainTimeout (q : QRef)
  -- binding and spill
  | bindQueue (q : QRef)
  | bindIdle (q : QRef)
  | bindPreempt
  | spillDone (q : QRef)
  | refillDone (q : QRef) (r : ReadResult)
  -- movers and ports
  | entryStart (m b : Nat)
  | readCompletion (port : Nat) (c : Cpl) (f : TileFault)
  | readTimeoutSweep (port : Nat) (overdue : List Nat)
  | tagRejoin (port tag : Nat)
  | packetAccepted (port : Nat) (ch : Chan) (crd : Nat)
  | flushReadCompletion (port tag gen : Nat) (r : ReadResult)
  | tokenReturn (port tok : Nat) (lost : Bool)
  | tokenTimeout (port tok : Nat)
  -- phase units and windows
  | phaseCount (u : Nat) (e : QuadStep)
  | indexPulse (x : PinAt)
  | phasePulse (x : PinAt)
  | fabricTimeValid (t : Nat)
  | phaseLossTimeout (u : Nat)
  | coastLimitExpiry (u : Nat)
  | puRestart (p : MPort) (u : Nat)
  | windowArm (m b : Nat)
  | windowOpen (m b : Nat)
  | windowLate (m b : Nat)
  | phaseLostHalt (m b : Nat)
  -- aligned gather and scatter
  | planArm (m b : Nat)
  | alignedTargetLaunch (m b i : Nat)
  | snapTargetTimeout (m b : Nat)
  | latencyProbe (i : Nat)
  | latencyRecordAging (i : Nat) (long : Bool)
  | latencyTrackingStop (i : Nat)
  | tgtLatInval (p : MPort) (i : Nat)
  | backgroundAging (q : QRef)
  -- request lines
  | rlCapture (x : PinAt)
  | rlRelease (x : PinAt)
  | rlHoldTimeout (n : Nat)
  | captureConsumed (l : LineRef)
  | rlnClear (p : MPort) (n : Nat)
  | rlnSwreq (p : MPort) (n : Nat)
  | rlnModeWrite (p : MPort) (n : Nat) (w : Word)
  | rlnVrlRaise (p : MPort) (v n : Nat)
  | vrlMessage (v hdrDom size value : Nat)
  -- staging FIFOs and stream ports
  | sfEnable (p : MPort) (f : Nat) (w : Word)
  | sfDisable (p : MPort) (f : Nat)
  | sfCloseDone (f : Nat)
  | flush (p : MPort) (f : Nat)
  | dropRem (p : MPort) (f : Nat)
  | closeTail (p : MPort) (f : Nat)
  | spWordIn (n : Nat) (w : StreamWord)
  | spWordOut (n : Nat) (damage : Bool)
  | staleTail (f : Nat)
  | spClkMeasure (n kHz : Nat)
  | spStall (n : Nat)
  -- stops and quiescing
  | stopPointReached (q : QRef)
  | stopPhaseReached (q : QRef)
  | queueStopped (q : QRef)
  | movRetire (p : MPort) (m : Nat)
  | moverRetired (m : Nat)
  | dptDrain (p : MPort) (mask : Nat)
  | portIdle (port : Nat)
  -- interrupts and vectors
  | moderationTimeout (q : QRef)
  | messageCoalesceEnd (v : Nat)
  | domSleepWrite (p : MPort) (j : Nat) (w : Word)
  | vecLoad (p : MPort)
  | vecStore (p : MPort)
  | eventRingReturn (d hdrDom size value : Nat)
  -- mover, port and link failures
  | moverHeartbeatTimeout (m : Nat)
  | moverWatchdogTimeout (m : Nat)
  | movFail (m cause : Nat)
  | failoverResume (q : QRef)
  | portStuck (port : Nat)
  | portLost (port : Nat)
  | portUp (port : Nat)
  | linkDown (n : Nat) (cto : Bool)
  | linkUp (n : Nat)
  | linkCtoRecovery (n : Nat)
  | contextScrub (q : QRef) (tile : Nat) (r : ScrubResult)
  | internal (unit : Nat)
  -- slots
  | slotPresenceAccepted (s : Nat)
  | slotPresenceSeen (s : Nat)
  | slotAbsenceAccepted (s : Nat)
  | slotPgAccepted (s : Nat)
  | slotPgLost (s : Nat)
  | slotFaultInput (s : Nat)
  | slotRampTimeout (s : Nat)
  | slotSettleDone (s : Nat)
  | slotTokenReadDone (s : Nat) (r : ReadResult)
  | slotDischargeDone (s : Nat)
  | passDamaged (s : Nat)
  | slotHoldExpiry (s : Nat)
  | sltOnWrite (p : MPort) (s : Nat) (on : Bool)
  | sltSvcClear (p : MPort) (s : Nat)
  | sltSvcExpire (p : MPort) (s : Nat)
  -- Borage and monitors
  | borageEpoch (freeze : Bool)
  | supFreezeWrite (p : MPort) (frozen : Bool)
  | supRestore (p : MPort)
  | supRingEnable (p : MPort) (w : Word)
  | supRingRetWrite (p : MPort) (w : Word)
  | tempSample (i code : Nat)
  | tempStale (i : Nat)
  | thermalShed (q : QRef)
  | roWindow (d count : Nat)
  | roFastWindow (d count : Nat)
  -- service
  | movSvcTest (p : MPort) (m : Nat) (spare : Bool)
  | movSvcPowerDown (p : MPort) (m : Nat)
  | movSvcPowerUp (p : MPort) (m : Nat) (spare : Bool)
  | moverSelftestDone (m fail : Nat)
  | ctxwRebuildTest (p : MPort) (bankB : Bool)
  | ctxwRebuildCopy (p : MPort) (bankB : Bool)
  | ctxwRebuildDone (pass : Bool) (lost : List QRef)
  -- power, inbound, tunnel and relay
  | powerAsk (d : Nat) (retention : Bool)
  | powerAckLost (d : Nat)
  | inboundPacket (port : Nat) (k : InPkt)
  | tunnelAccess (port : Nat) (k : InPkt)
  | relayWrite (port : Nat) (k : InPkt)
  | relayRingWrite (port : Nat)
  | refclkReturn
  | slotSettleLinkTimeout (s : Nat)
  | squareHalfFailure (half : Nat)
  | squareHalfSelftestDone (half : Nat) (mapped : List Nat) (pass : Bool)   -- mapped: 4096 * port of the half + location
  | powerDownAck (d : Nat)
  | dataCreditReturn (port : Nat) (ch : Chan) (crd : Nat)
  | phaseTickEstimate (u : Nat)
  deriving DecidableEq, Repr

end Sys2Proof
end

