-- ==== Sys2Proof/Config.lean ====
section
/-! DEFINITION. What the spec leaves open: constants without a body, so that nothing can be proved of their values.
Each is applied to the counter `Blk.freeNo`, which the command that uses one advances (assumption log 6). -/

namespace Sys2Proof

/-- A byte of an entry's source that the entry's own destination overlaps: it may be read before or after the
overlapping write (R145). -/
opaque Config.freeByte : Nat → Byte

/-- A number for which the spec states no value (assumption log 6 names each use). -/
opaque Config.freeNat : Nat → Nat

end Sys2Proof
end

