-- ==== Sys2Proof/Machine/State.lean ====
section
/-! DEFINITION. The state of the block as plain data: every register, buffer, counter, mode and pin the spec names,
the queue of waiting commands, the closed reasons a step can stop, and the state after power-on reset. Each field's
docstring names the rule that gives it; the reset value of a field the spec names without one is logged (log 3). -/

namespace Sys2Proof.Machine

/-! ## Queues and descriptors -/

/-- Queue states of Table 5-7 (R111). -/
inductive QPhase where
  | free | idle | bound | spilling | spilled | refilling | stopping | stopped | halted | lost | destroying
  deriving DecidableEq, Repr

/-- Stop modes (R243). -/
inductive StopMode where
  | pause | drain | atPhase | abort | disable
  deriving DecidableEq, Repr

/-- One stop in force: its mode and, for STOP_AT_PHASE, its unit and phase (Table 5-4, R247). -/
structure Stop where
  mode : StopMode
  pu : Nat
  cyc : Nat
  pos : Nat
  deriving DecidableEq, Repr

/-- A decoded descriptor (Tables 4-1, 4-2). `raw` keeps the 64 bytes. -/
structure Desc where
  raw : List Byte
  kind : Nat
  own : Bool
  first : Bool
  last : Bool
  fence : Bool
  irq : Bool
  durable : Bool
  norepSrc : Bool
  norepDst : Bool
  path : Nat
  reshape : Nat
  win : Bool
  dcrcEn : Bool
  resv : Nat
  dcrc : Nat
  cookie : Nat
  src : Nat
  dst : Nat
  len : Nat
  aux : Nat
  deriving DecidableEq, Repr

/-- A phase: CYC, POS, FRAC (R160). -/
structure Phase where
  cyc : Nat
  pos : Nat
  frac : Nat
  deriving DecidableEq, Repr

/-- A resolved launch window (R167): half open, with the LATE field and the HOLD_NEXT moves made (R172). -/
structure Window where
  unit : Nat
  openAt : Phase
  closeAt : Phase
  late : Nat
  holds : Nat
  deriving DecidableEq, Repr

/-- Progress mark (Table 6-5, R148). -/
structure Mark where
  seq : Nat := 0
  active : Bool := false
  pos : Nat := 0
  srcOfs : Nat := 0
  dstOfs : Nat := 0
  ports : Nat := 0
  frag : Nat := 0
  fragOfs : Nat := 0
  deriving DecidableEq, Repr

/-- Queue configuration, context tile 0 (R12, Tables 2-8 and 5-6). WEIGHT and BURST of a cell queue are registers. -/
structure QCfg where
  ringBase : Nat := 0
  ringExp : Nat := 4
  cplAddr : Nat := 0
  dom : Nat := 0
  poll : Nat := 0
  vec : Nat := 0
  novec : Bool := false
  chainTmo : Nat := 0
  duplex : Bool := false
  ownback : Bool := false
  adminMark : Bool := false
  pollPhase : Bool := false
  pollPu : Nat := 0
  home : Option Nat := none
  poisonStop : Bool := false
  pin : Bool := false
  qweight : Nat := 1
  sclass : Nat := 0
  modCount : Nat := 0
  modMode : Nat := 0
  modPu : Nat := 0
  sleepHold : Bool := false
  modTime : Nat := 0
  pref : Nat := 0
  deriving DecidableEq, Repr

/-- What a HALT, LOST or NOTICE record says of an entry (Tables 12-3, 13-2); INFO as 28 bytes from 0x24. -/
structure Report where
  rtype : Nat
  status : Nat
  detail : Nat
  pos : Nat
  cookie : Nat
  srcOfs : Nat
  dstOfs : Nat
  info : List Byte
  deriving DecidableEq, Repr

/-- A (port, path) pair written since the last publication (PAIRS, R93, R147). -/
structure Pair where
  port : Nat
  path : Nat
  lastAddr : Nat
  needFlush : Bool
  deriving DecidableEq, Repr

/-- An entry that has retired and is not yet covered by a publication (R92, R146). -/
structure Retired where
  pos : Nat
  last : Bool
  irq : Bool
  ownByte : Nat             -- byte 0x01 as Chervil read it (R82)
  endLine : Option Nat      -- wired line whose RL_END the publication drives (R213)
  notices : List Report
  first : Bool
  norep : Bool               -- some byte of it is not repeatable (R7)
  win : Option Window        -- its resolved window (R173)
  ports : Nat                -- data ports it has written, one bit for each (Table 6-5)
  deriving DecidableEq, Repr

/-- Where a queue stands between a retired chain and its published head index (R92, R93). -/
inductive PubStage where
  | none
  | mark (target : Nat)                    -- the retire mark is to be accepted by both banks (R149)
  | flushing (target outstanding : Nat)
  | flipping (target : Nat) (left : List Nat)   -- positions whose flips are not yet accepted
  | word (target : Nat)                    -- completion word waiting or presented
  deriving DecidableEq, Repr

/-- Where a stopping, halting or destroyed queue stands (R244, R245, R250, R95). -/
inductive EndStage where
  | none
  | draining        -- waits for its stop point
  | settling        -- stop point reached; flush reads of PAUSE outstanding
  | publishing      -- waits for the publication due
  | notice          -- waits for its notice record to be written
  deriving DecidableEq, Repr

/-- The run state of a queue, context tile 1 and the scheduler's record of it (R12, R111). -/
structure QRun where
  phase : QPhase := .free
  head : Nat := 0                 -- position of the published head index
  tail : Nat := 0                 -- known tail (R88)
  fetched : Nat := 0              -- one past the last entry passed to a local buffer (fetch index)
  retiredTo : Nat := 0            -- RETIRED_TO of Table 6-2
  pubcount : Nat := 0
  mark : Mark := {}
  markCrc : Nat := 0xFFFFFFFF     -- CHECK's CRC-32C register at the mark (R124, R148)
  pauseMark : Bool := false       -- the mark is a pause mark (R245)
  bytesMoved : Nat := 0
  rtail : Nat := 0                -- relay tail (R363)
  nudgeTail : Option Nat := none  -- held TAIL of a spilled queue (R87)
  firstNudge : Bool := false      -- cell queue: first nudge seen (R81)
  polling : Bool := false         -- Chervil polls the ring (R81)
  nospill : Bool := false
  backSlot : Option Nat := none
  lastStatus : Nat := 0
  poisonCount : Nat := 0
  snapSeq : Nat := 0
  prevLast : Bool := true         -- the previous entry passed to the buffer carried LAST, or none did (R83)
  chainTimer : Bool := false      -- chain timer running (R84)
  chainFirst : Nat := 0           -- position of FIRST of the chain being fetched
  deriving DecidableEq, Repr

/-! ## Packets -/

/-- What a packet of the block is for: how its completion, acceptance or loss is handled (R304, Table 13-9). -/
inductive Purpose where
  | ring (q : QRef) (pos : Nat)                       -- Chervil's read of one ring tile
  | data (m pos seq : Nat) (q : QRef)                 -- an entry's read
  | dataTo (m pos dest ofs : Nat) (q : QRef)          -- an entry's write to destination dest at offset ofs
  | check (m pos : Nat) (q : QRef)                    -- CHECK result
  | record (m pos ofs : Nat) (q : QRef)               -- SNAP record
  | target (m pos i : Nat) (q : QRef)                 -- aligned target
  | flush (q : QRef)                                  -- flush read for a publication (R93)
  | fence (m : Nat) (q : QRef)                      -- flush read for FENCE, PAUSE or PAIRS
  | failover (m : Nat)                                -- failover flush read (R292)
  | msgFlush (id : Nat)                               -- flush read in front of a message (R279)
  | probe (range : Nat)
  | refill (q : QRef)
  | mailbox (p : MPort)
  | admin (d : Nat)
  | adminFlush (d : Nat)                              -- flush read that settles a completion entry (R104)
  | token (slot : Nat)                                -- identity token read (R308)
  | word (q : QRef) (target : Nat)                    -- completion word
  | firstWord (q : QRef)                              -- HEAD 0 word of creation or first nudge (R81, R91)
  | flip (q : QRef) (pos : Nat)
  | spill (q : QRef) (tile : Nat)
  | event (d : Nat)
  | ringZero (d : Nat)                                -- zeroing write of CREATE_EVENT_RING
  | message (v dom : Nat)
  | adminCpl (d : Nat)
  | adminWord (d : Nat)
  | decision
  | decisionZero
  | relayRing (q : QRef)                              -- relayed descriptor written to its ring
  | tunnel (p : MPort)                                -- completion answering a tunnel read
  | reject                                            -- completion answering a refused inbound read
  deriving DecidableEq, Repr

/-- Service classes (Table 9-1). -/
inductive Svc where
  | gated | ctrl | cell | express | standard | bulk | background
  deriving DecidableEq, Repr

/-- A packet of TX_REQ or TX_CPL (Table 15-3). -/
structure Pkt where
  isWrite : Bool
  addr : Nat
  len : Nat
  data : List Byte
  dom : Nat
  path : Nat
  ask : Nat                            -- CTRL PATH asked for; 0 takes the default path (R118)
  tag : Nat
  gen : Nat
  tok : Nat
  poison : Bool
  cstat : Nat
  relay : Option (Nat × Nat × Bool)   -- QID, target INSTANCE and CELL of a relay write (R127)
  svc : Svc
  order : Nat                          -- order of presentation to the arbiter (R198)
  since : Nat                          -- MCLK cycle of that presentation (R194, R198)
  mover : Option Nat
  purpose : Purpose
  second : Bool                        -- presented once more after a loss (Table 13-9)
  tagged : Bool                        -- a read that holds its tag (R23)
  cookie : Nat                         -- COOKIE of the entry a write belongs to (Table 12-3)
  crcs : List Nat                      -- CRC-32C of each tile of a write (R9, R10)
  deriving DecidableEq, Repr

/-! ## Queue state -/

/-- Interrupt moderation of a queue (R277, R280, R281). -/
structure QMod where
  count : Nat := 0
  timer : Bool := false
  timerAt : Nat := 0                   -- fabric time at which the timer started
  held : Bool := false
  resend : Bool := false               -- a rewritten completion word covers a signalled IRQ entry (R279)
  last : Option (Nat × Pkt) := none    -- the last accepted completion word and its port (R279)
  irqWords : List Nat := []            -- targets of accepted words that covered an IRQ entry, until settled (R279)
  deriving DecidableEq, Repr

/-- Quantities of a queue that the block gathers over an epoch (R311, Table 14-1). -/
structure QEpoch where
  polls : Nat := 0
  empty : Nat := 0                     -- polls that found no new owned entry
  big : Nat := 0                       -- polls that found more than 8
  idleRun : Nat := 0                   -- polls in a row that found none; goes on over epochs (R313)
  poll : Bool := false                 -- a poll is open: its reads are still to end
  found : Nat := 0                     -- new owned entries the open poll has found
  late : Bool := false                 -- a late judgement or a JMISS
  nudged : Bool := false
  underrun : Bool := false
  unused : Nat := 0                    -- copies dropped without use, refetches after an OWN mismatch
  executed : Nat := 0
  deriving DecidableEq, Repr

/-- A copy of a ring entry in Chervil, tagged with its full position (R89): its bytes, the CRC-32C the port gave the tile (R9),
and the Chervil tile that holds it (R288). -/
structure Copy where
  pos : Nat
  bytes : List Byte
  crc : Nat
  loc : Nat
  deriving DecidableEq, Repr

/-- A queue: its context and what Chervil and the scheduler keep for it. -/
structure Queue where
  cfg : QCfg := {}
  run : QRun := {}
  mod : QMod := {}
  poll : Nat := 0                              -- interval code in force (R313)
  pref : Nat := 0                              -- prefetch depth in force (R314)
  latePoll : Nat := 0                          -- polls counted late (R86)
  pollAt : Option Nat := none                  -- fabric time of its last poll read (R86)
  ep : QEpoch := {}                            -- what the epoch has shown of the queue so far (Table 14-1)
  cache : List Copy := []                      -- Chervil copies (R89)
  recheck : Option (Nat × Nat) := none         -- position and CRC of a first DCRC mismatch (R77)
  unpub : List Retired := []                   -- retired, unpublished entries in ring order
  pub : PubStage := .none
  words : Nat := 0                             -- completion words not yet accepted (R94)
  flush : List Pair := []                      -- pending_flush (R93)
  ports : Nat := 0                             -- ports written by an entry that left execution before it retired (Table 6-5)
  sinceFence : List Pair := []                 -- paths written since the last FENCE-kind entry (R85)
  stop : Option Stop := none                   -- queue-level stop (R243)
  acting : Option Stop := none                 -- the stop a STOPPING or STOPPED queue acts on (R253)
  notice : Option Report := none               -- notice due after the publication of ABORT or DISABLE (R248, R249)
  ending : EndStage := .none
  report : Option Report := none               -- HALT record due after the publication (R95)
  dying : Bool := false                        -- DESTROY_QUEUE accepted (Table 5-7)
  heldSlot : Option Nat := none                -- HELD under R309, and by which slot
  holding : Option Nat := none                 -- to be held by this slot at its stop point (R309)
  pausedNorep : Bool := false                  -- the entry at the pause mark is not repeatable (R7)
  lostWrite : Option Nat := none               -- chain FIRST to run again from (R305)
  afterCovered : Bool := false                 -- covered halt: the head index stays (R305)
  unshadowed : Bool := false                   -- duplex queue without a live shadow (R152)
  newRoute : List (Nat × Nat) := []            -- egresses that had to leave their port: no entry starts on them before head passes (R257)
  keepPort : List (Nat × Nat) := []            -- egresses that return to a port, with the port still used (R208)
  keepPath : List (Nat × Option Nat) := []     -- ports whose chosen path changed, with the path still used (R208)
  deferred : List (Nat × List Byte) := []      -- MODIFY_QUEUE masks and parameters waiting for an entry to end (R14)
  lastOwned : Nat := 0                         -- order number of its most recent owned entry (R360)
  deriving DecidableEq, Repr

/-! ## Mover execution -/

/-- An entry in a local buffer (R88, R167), with the CRC-32C its tile carries (R10). -/
structure LEntry where
  pos : Nat
  desc : Desc
  win : Option Window
  crc : Nat
  deriving DecidableEq, Repr

/-- A fragment, or a job of INDIRECT (Table 4-6, R71). -/
structure Frag where
  src : Nat
  dst : Nat
  len : Nat
  norep : Bool
  deriving DecidableEq, Repr

/-- A read request of an entry, in issue order (R133); `got` its bytes by offset with their poison. -/
structure RdReq where
  seq : Nat
  addr : Nat
  len : Nat
  port : Nat
  path : Nat
  isList : Bool                    -- fragment list, job table or target table tile
  got : List (Byte × Bool)         -- its bytes, once the request is complete
  rel : Nat                        -- bytes released to the read lane
  done : Bool
  retried : Bool                   -- retried under R300
  reread : Bool                    -- read once more under R287
  deriving DecidableEq, Repr

/-- A target of a SNAP or ASCAT plan (R184-R188). -/
structure PlanTarget where
  addr : Nat
  len : Nat
  required : Bool
  range : Nat
  port : Nat
  lat : Nat            -- L_i, qns
  jit : Nat            -- J_i, qns
  cycle : Nat          -- c_i
  qual : Nat           -- Table 8-6
  noLat : Bool         -- its record was not VALID (R184)
  status : Nat         -- status of a missing or poisoned target (R189)
  held : Option (Nat × Pkt)   -- port and packet of its request, a SNAP's with its tag, until presented (R183)
  launched : Option Nat   -- cycle of presentation, from the release cycle
  returned : Option Nat   -- cycle of the last byte
  got : List (Nat × Byte × Bool)
  done : Bool
  deriving DecidableEq, Repr

/-- The plan of an aligned entry (R183). -/
structure Plan where
  arrive : Nat
  align : Nat                 -- A, qns
  targets : List PlanTarget
  armed : Bool
  armSeq : Nat                -- order in which plans were armed (R185)
  release : Option Nat        -- MCLK cycle of the release
  releaseFt : Nat             -- fabric time of the release cycle, ns
  lastStatus : Nat            -- status of the first failed REQUIRED target (R189)
  deriving DecidableEq, Repr

/-- Stage of an entry in execution. -/
inductive ExStage where
  | list        -- reads its list, table or command data first
  | armed       -- waits in a launch gate (R170)
  | waiting     -- WAIT, a FIFO side, a FENCE, a plan
  | running
  | done        -- every read returned, every write accepted
  deriving DecidableEq, Repr

/-- An entry in execution (R114, Table 6-2). Offsets count bytes of the entry. -/
structure Exec where
  pos : Nat
  desc : Desc
  win : Option Window
  tcrc : Nat                    -- CRC-32C of its descriptor tile (R10)
  stage : ExStage
  launched : Bool               -- its first request has been presented (R169)
  gatedFirst : Bool             -- that request is a GATED one (R171, R216)
  gate : Option (Nat × Option Pkt)  -- the armed first request: port, and for a read its packet with its tag (R170)
  due : Option (Nat × Bool)     -- cycle in which OPEN found it not armed, and whether its gate was full (R170)
  nextSeq : Nat
  reads : List RdReq            -- outstanding or unreleased, in issue order
  srcIss : Nat                  -- source bytes whose reads have been issued
  srcOfs : Nat                  -- source bytes consumed (SRC_OFS)
  buf : List (Byte × Bool)      -- released source bytes not yet reshaped, with poison
  out : List (Byte × Bool)      -- reshaped bytes not yet presented
  dstPres : Nat                 -- destination bytes presented to every destination
  wr : List (Nat × Nat × Nat)   -- writes not yet accepted: destination, offset, bytes
  pairs : List Pair             -- pairs the entry has written (R93)
  ports : Nat                   -- data ports it has written, one bit for each (Table 6-5)
  frags : List Frag
  listIss : Nat                 -- list or table bytes asked for
  listBuf : List Byte           -- list or table bytes released
  crc : Nat                     -- CHECK's CRC-32C register
  crcMark : Nat                 -- the same at the last multiple of 4,096 source bytes (R148)
  resultDone : Bool             -- CHECK result, SNAP record or header handled
  markAt : Nat                  -- accepted bytes at the last progress mark
  stopAt : Bool                 -- no further read is issued (R244)
  fifoTiles : Nat               -- FIFO tiles taken or written (R221)
  fifoFreed : Nat               -- bytes of its FIFO tiles the rewind mark has passed (R238)
  pktLen : Option Nat           -- packet-mode FIFO_OUT: data bytes of its packet once known
  plan : Option Plan
  fenceWait : Bool
  fenced : Bool                 -- the flush reads of DURABLE_ALL have been issued (R85)
  poisoned : Bool
  poisonTile : Nat              -- tile of the entry in which its first poisoned byte lies (Table 13-2)
  poisonPort : Option Nat       -- port the first poisoned source tile came in on (Table 13-2)
  dead : Bool                   -- the entry has failed or is dropped: what returns is discarded (R95)
  notices : List Report         -- notices due after its publication
  endLine : Option Nat          -- wired line whose capture a WAIT has consumed (R213)
  record : List (Byte × Bool)   -- SNAP: the record once its writing has begun, to repeat after a failover (R191)
  bad : Option (Nat × List Byte)  -- aligned entry: status and INFO it will halt with (R178, R189)
  deriving DecidableEq, Repr

/-- One of the 64 binding places of a mover (R115, Table 6-2). -/
structure Binding where
  q : QRef
  shadow : Bool                 -- shadow binding of a duplex queue (R150)
  since : Nat                   -- order in which it was bound (R205)
  lbuf : List LEntry
  exec : List Exec              -- at most two, older first (R114)
  plans : List Exec             -- aligned entries of the local buffer that hold a plan (R183)
  credits : Nat                 -- CELL credits of the round (R196)
  turn : Nat                    -- entries left in its turn (R196)
  flushOut : Nat                -- flush reads outstanding for FENCE, PAUSE or the PAIRS limit
  rd : Nat                      -- tiles its read lane took in this epoch (R153, R203)
  wr : Nat                      -- tiles its write lane gave in this epoch (R153, R203)
  served : Nat                  -- MCLK cycle of its last service by the generator (R194)
  recs : List (Nat × Pkt)       -- shadow: records of the writes not yet accepted, with their port and tiles (R150)
  moving : Option Nat           -- mover this binding is to move to (R16, R260)
  preempt : Bool                -- chosen by R205
  deriving DecidableEq, Repr

/-- Mover states of Table 6-6 (R154). -/
inductive MovState where
  | off | test | spare | active | quiescing | retired | failed
  deriving DecidableEq, Repr

/-- A deficit round robin over domains and, within each, over its queues (R197, R198). -/
structure Drr where
  turn : Nat := 0                -- domain holding the turn
  dom : Tab Int := []            -- deficits of domains
  qTurn : Tab Nat := []          -- queue holding the turn, by domain
  q : Tab Int := []              -- deficits of queues, by queue ID
  deriving DecidableEq, Repr

/-- A mover: state, cause, bindings and counters (R154, Tables 13-8, 17-7). -/
structure Mover where
  state : MovState := .off
  cause : Nat := 0
  bind : Tab (Option Binding) := []
  roleSpare : Bool := false      -- ROLE of the service command in progress
  dataFailAt : Option Nat := none  -- fabric time of the last reshape or write-lane DATA_CRC (R288)
  retiredCnt : Nat := 0
  wrCrc : Nat := 0
  rdCrc : Nat := 0
  parity : Nat := 0
  tests : Nat := 0
  epRd : Nat := 0                -- tiles of the epoch so far, shadow bindings included (Table 14-1)
  epWr : Nat := 0
  loadRd : Nat := 0              -- tiles per µs of the last epoch
  loadWr : Nat := 0
  drr : Drr := {}                -- STANDARD and BULK bindings (R197)
  turnAt : Option Nat := none    -- binding place in its CELL turn (R196)
  bytesRd : Nat := 0             -- mailbox class 0x03, 72 bits
  bytesWr : Nat := 0
  rrExp : Nat := 0               -- round-robin position of EXPRESS (R195)
  rrBg : Nat := 0                -- round-robin position of BACKGROUND (R195)
  winUsed : Nat := 0             -- domain cycles served in the 64-cycle window (R195)
  thrHalf : Bool := false        -- STANDARD was served in the last domain cycle (T2, Table 14-5)
  stop : Option Stop := none     -- mover-level stop (R256)
  stopped : List QRef := []      -- queues its stop reached
  t4held : Bool := false         -- spare held in RETIRED at T4 (Table 14-5)
  flushWait : List (Nat × Nat) := []   -- failover flush reads outstanding, as (port, path) (R292)
  deriving DecidableEq, Repr

/-! ## Data ports -/

/-- A read tag (R130). -/
structure TagRec where
  gen : Nat := 0
  inUse : Bool := false
  withheld : Bool := false
  addr : Nat := 0
  len : Nat := 0
  path : Nat := 0
  tiles : Nat := 0
  got : List (Nat × Byte × Bool) := []
  purpose : Purpose := .reject
  retried : Bool := false
  since : Nat := 0                       -- MCLK cycle of its presentation (R180)
  crcs : List (Nat × Nat) := []          -- complete tiles in the reorder buffer: number in the request, CRC-32C (R132)
  deriving DecidableEq, Repr

/-- A record of a held write token (R304). -/
structure TokRec where
  tok : Nat
  pkt : Pkt
  accepted : Bool
  early : Option Bool                  -- a return that came before the acceptance (R341): lost or not
  deriving DecidableEq, Repr

/-- Statistics of a (port, path) pair (Table 17-8, R315). -/
structure PathStat where
  rtt : Nat := 0
  retries : Nat := 0
  betterFor : Nat := 0       -- epochs the path has been 12.5 % better than the current one
  retryEpochs : Nat := 0     -- epochs in a row with retried reads
  epRtt : Nat := 0           -- of the epoch so far: round trips of completed reads, their number, reads retried
  epReads : Nat := 0
  epRetries : Nat := 0
  deriving DecidableEq, Repr

/-- A relay-buffer place (R363). -/
structure Relay where
  q : QRef
  desc : List Byte
  seq : Nat          -- order in which places were taken
  waited : Bool
  written : Bool
  deriving DecidableEq, Repr

/-- Counters of a data port (Tables 13-13, 15-5, 17-8). -/
structure PortCnt where
  lateCpl : Nat := 0
  badCpl : Nat := 0
  tagWait : Nat := 0
  tokWait : Nat := 0
  wlost : Nat := 0
  retries : Nat := 0
  credOvf : Nat := 0
  nocred : Nat := 0
  tokTmo : Nat := 0
  tokBad : Nat := 0
  inbBad : Nat := 0
  deriving DecidableEq, Repr

/-- A data port (R130-R136, R302, R303, R339). -/
structure Port where
  up : Bool := false
  epTag : Nat := 0                       -- DPT_TAG_WAIT cycles of the epoch so far (Table 14-1)
  lost : Bool := false
  lostByHalf : Bool := false             -- declared under R288, not by DP_UP
  stuck : Bool := false
  idle : Bool := false                   -- IDLE of DPT_DRAIN_STAT
  stop : Option Stop := none             -- port-level stop (R257)
  stopped : Bool := false
  reached : List QRef := []              -- queues its stop reached
  tags : Tab TagRec := []
  nextTok : Nat := 0
  toks : List TokRec := []
  wait : List Pkt := []                  -- at the arbiter of TX_REQ
  pres : List Pkt := []                  -- granted, not accepted, oldest first
  cplWait : List Pkt := []
  cplPres : List Pkt := []
  hdrCr : Nat := 0
  dataCr : Nat := 0
  cplHdrCr : Nat := 0
  cplDataCr : Nat := 0
  inbWait : List InPkt := []             -- RX_INB packets received whose credits are withheld, oldest first (R362, R363)
  txHdr : Nat := 0                       -- header of the last packet granted on TX_REQ (R337)
  cplHdr : Nat := 0                      -- the same of TX_CPL
  txStarted : Bool := false              -- a packet has been presented on TX_REQ since DP_UP rose (log 8)
  cplStarted : Bool := false             -- the same of TX_CPL
  bytesRd : Nat := 0                     -- mailbox class 0x04, 72 bits
  bytesWr : Nat := 0
  beats : Nat := 0                       -- beats left of the packet in progress
  robMapped : List Nat := []             -- reorder locations mapped out (R288)
  robSuspect : List Nat := []            -- locations that failed once
  paths : Tab PathStat := []
  chosen : Option Nat := none            -- path Borage put in place of the default path (R315); none: the default
  relays : List Relay := []
  gate : List (Nat × Nat) := []          -- launch gate: (mover, place), at most 16 (R170)
  drr : Drr := {}                        -- STANDARD and BULK packets (R198)
  cnt : PortCnt := {}
  deriving DecidableEq, Repr

/-! ## Phase units, request lines, FIFOs -/

/-- Phase unit states of Table 7-3 (R162). -/
inductive PuState where
  | off | acquire | locked | coast | fallback | lost
  deriving DecidableEq, Repr

/-- A phase unit (R160-R165, Table 7-4); its configuration lies in the register file. -/
structure PhaseUnit where
  state : PuState := .off
  ph : Phase := ⟨0, 0, 0⟩
  inc : Nat := 0
  reverse : Bool := false
  indexed : Bool := false
  firstIndex : Bool := true            -- the next index is applied whatever its slip (R163)
  firstPulse : Bool := false           -- the next pulse is the first after COAST or FALLBACK (R163)
  fwdRun : Nat := 0                    -- forward counts since the last reverse one (R161)
  stamps : List Nat := []              -- MCLK cycles of the last accepted counts or pulses, newest first
  slipErr : Nat := 0
  early : Nat := 0
  overspeed : Nat := 0
  quadErr : Nat := 0
  quadInCycle : Nat := 0               -- QUAD_ERR within this cycle of the unit (Table 7-2)
  wraps : Nat := 0                     -- POS wraps since an accepted index
  inRef : Nat := 0                     -- counts in this REFCLK period (Table 7-2)
  late : Nat := 0
  jmiss : Nat := 0
  lastSlip : Nat := 0
  fbAcc : Nat := 0                     -- FALLBACK: part of a FRAC unit not yet applied, in 10^-9
  fbAt : Nat := 0                      -- FALLBACK: fabric time in ps up to which the word has advanced
  ticked : Bool := false               -- a tick fell since queues last looked (R175)
  deriving DecidableEq, Repr

/-- Request-line states of Table 9-3. -/
inductive LineState where
  | off | idle | pending | acked | fault
  deriving DecidableEq, Repr

/-- A wired request line (R211, R212). -/
structure Line where
  state : LineState := .off
  pend : Nat := 0
  rateErr : Nat := 0
  overrun : Nat := 0
  stale : Nat := 0
  stuck : Nat := 0
  breaches : Nat := 0                  -- rate breaches in the present 1 ms period
  input : Bool := false                -- RL_REQ is active as the filter accepted it, after POL (R210)
  bySw : Bool := false                 -- the pending level is a software request
  ack : Bool := false                  -- RL_ACK high (LEVEL)
  ackDue : Nat := 0                    -- RL_ACK pulses due (R211)
  endDue : Nat := 0                    -- RL_END pulses due (R213)
  lastAt : Option Nat := none          -- MCLK cycle of the last accepted assertion
  given : Option Nat := none           -- waiter the pending capture goes to (R215, R217)
  usedAt : Option Nat := none          -- MCLK cycle of the last consumption (R215)
  ackAt : Option Nat := none           -- MCLK cycle in which the RL_ACK pulse under way began
  endAt : Option Nat := none           -- the same for RL_END
  deriving DecidableEq, Repr

/-- A virtual request line (R214). -/
structure VLine where
  pend : Nat := 0
  drops : Nat := 0
  given : Option Nat := none           -- waiter the oldest pending raise goes to (R215, R217)
  usedAt : Option Nat := none          -- MCLK cycle of the last consumption (R215)
  deriving DecidableEq, Repr

/-- A waiter on a request line (R215). -/
structure Waiter where
  line : LineRef
  m : Nat
  b : Nat
  q : QRef
  seq : Nat
  cycle : Nat                          -- MCLK cycle in which it became a waiter
  deriving DecidableEq, Repr

/-- An entry (queue, position) that waits for a side of a FIFO, and the MCLK cycle in which it reached it (R221). -/
structure SideWait where
  entry : QRef × Nat
  cycle : Nat
  deriving DecidableEq, Repr

/-- FIFO states of Table 10-1. -/
inductive FifoState where
  | off | run | held | closing
  deriving DecidableEq, Repr

/-- A tile in a staging FIFO (R225, R230): data bytes with valid ones only. -/
structure FTile where
  bytes : List Byte
  poison : Bool
  header : Bool                        -- reserved header tile of a packet
  committed : Bool                     -- visible to the consumer (R240)
  pkt : Nat                            -- PSEQ of its packet
  split : Bool                         -- in the marked list: the rest of the tile is still unread
  tail : Bool                          -- closed as a stale tail (R234)
  loc : Nat                            -- tile of the FIFO's ring of extents that holds it (R222)
  crc : Nat                            -- CRC-32C it received as it entered the pool (R9, R132)
  seen : Bool                          -- read at the pool: its CRC has been checked (R226)
  bad : Bool                           -- that check failed
  deriving DecidableEq, Repr

/-- A packet of a packet-mode FIFO (Table 10-5). -/
structure Packet where
  pseq : Nat
  plen : Nat
  tFirst : Nat
  tLast : Nat
  done : Bool
  poison : Bool
  dropped : Bool
  stale : Bool
  oversize : Bool
  origin : Nat
  deriving DecidableEq, Repr

/-- A staging FIFO (R219-R240). -/
structure Fifo where
  state : FifoState := .off
  extents : List Nat := []
  suspect : List Nat := []             -- extents that await map-out
  unread : List FTile := []
  marked : List FTile := []            -- read, before the rewind mark (R238)
  nextLoc : Nat := 0                   -- tile of the ring that the next tile takes
  part : List (Byte × Bool) := []      -- tile assembly: each byte, and whether its word was poisoned
  pkts : List Packet := []             -- packets not wholly consumed, oldest first
  openPkt : Bool := false
  skip : Bool := false                 -- discard words up to and including ILAST
  pseq : Nat := 0
  xoff : Bool := false
  markLost : Bool := false
  pktsDone : Nat := 0
  poisoned : Nat := 0
  crcErr : Nat := 0
  dropped : Nat := 0
  closed : Nat := 0
  forced : Nat := 0                    -- bytes freed ahead of the rewind mark (R239)
  producer : Option (QRef × Nat) := none   -- entry (queue, position) holding the producer side (R221)
  consumer : Option (QRef × Nat) := none
  prodWait : List SideWait := []         -- entries in the order in which they reached the side (R221)
  consWait : List SideWait := []
  deriving DecidableEq, Repr

/-- A stream port (R224-R228, Table 10-7). -/
structure SPort where
  mhz : Nat := 0
  range : Bool := false
  idle : Bool := false
  xbuf : List StreamWord := []         -- crossing buffer, oldest first; `parityBad` is the poison bit of a word
  wp : Nat := 0                        -- words filled and words emptied, modulo 128 (R228)
  rp : Nat := 0
  wpGray : Nat := 0                    -- the same in Gray code, each in its own clock domain
  rpGray : Nat := 0
  fill1 : Nat := 0                     -- the filling side's pointer in the two flops of the emptying side's clock
  fill2 : Nat := 0
  empty1 : Nat := 0                    -- the emptying side's pointer in the two flops of the filling side's clock
  empty2 : Nat := 0
  ready : Bool := false                -- SP_IREADY or SP_OVALID as the last SPn_CLK edge left it
  clkAcc : Nat := 0                    -- part of an SPn_CLK period gone by, in units of 1e-6 of it
  parity : Nat := 0
  short : Nat := 0
  withdraw : Nat := 0
  tmo : Nat := 0
  deriving DecidableEq, Repr

/-! ## Slots, latency records, domains -/

/-- Slot states of Table 13-11. -/
inductive SlotState where
  | empty | debounce | ramp | settle | ready | held | failedAtInsertion | discharge | off | passDamaged | faulted
  deriving DecidableEq, Repr

/-- A slot (R306-R310, Table 13-12); SLT_CFG and SLT_IDOFS lie in the register file. -/
structure Slot where
  state : SlotState := .empty
  prsnt : Bool := false                -- presence as accepted
  pg : Bool := false
  flt : Bool := false
  vsns : Bool := false
  pwrEn : Bool := false                -- SLT_PWR_EN
  seenPresent : Bool := false
  lostPresence : Bool := false         -- presence lost since READY
  hold : Bool := false                 -- hold running (R309)
  wasReady : Bool := false
  inserts : Nat := 0
  bounce : Nat := 0
  held : List QRef := []               -- queues held, oldest first
  token : Option Nat := none           -- stored identity token
  tokenRead : Bool := false            -- token read outstanding
  settled : Bool := false              -- SETTLE_MS has elapsed in SETTLE
  tokenEnd : Option ReadResult := none -- end of the token read while REFCLK is lost: it acts when REFCLK returns (R19)
  onWritten : Bool := false            -- SLT_CFG was written while REFCLK is lost
  deriving DecidableEq, Repr

/-- A latency record (R179-R181). -/
structure LatRec where
  tracked : Bool := false
  valid : Bool := false
  stale : Bool := false
  est : Nat := 0
  samples : List Nat := []             -- last 64 samples, newest first
  count : Nat := 0                     -- samples modulo 2^16
  since : Nat := 0                     -- samples since tracking began or the last invalidation
  burst : Nat := 0                     -- probes of the eight-probe burst left
  ask : Bool := false                  -- a probe waits for the poll budget (R86, R179)
  deriving DecidableEq, Repr

/-- An event ring (R267-R271). -/
structure EvRing where
  base : Nat
  exp : Nat
  vec : Nat
  wpos : Nat
  rpos : Nat
  deriving DecidableEq, Repr

/-- A loss run of an event ring (R271, Table 12-5). -/
structure LossRun where
  count : Nat
  firstSeq : Nat
  firstTime : Nat
  lastTime : Nat
  firstStatus : Nat
  lastStatus : Nat
  halts : Nat
  deriving DecidableEq, Repr

/-- What Lovage and the event logic keep for a domain (R99-R105, R267-R273). -/
structure Domain where
  quota : Nat := 0
  started : Bool := false              -- first nudge seen (R102)
  served : Bool := false               -- the checks of R105 passed at the last nudge
  cmdPos : Nat := 0                    -- next command position
  retPos : Nat := 0                    -- completion-return position r
  cplPos : Nat := 0                    -- completion entries written
  headPos : Nat := 0                   -- published command head
  pubcount : Nat := 0
  tailPos : Nat := 0                   -- last nudged TAIL position
  stalled : Bool := false              -- R104
  reading : Bool := false              -- command read outstanding
  ask : Bool := false                  -- a command read waits for the one outstanding or for the poll budget (R86, R102)
  fetched : Option (List Byte) := none -- owned command ready to start
  win : Bool := false                  -- ring refused under R105
  lostCpl : Bool := false              -- second loss: written again at the next nudge (Table 13-9)
  ring : Option EvRing := none
  rseq : Nat := 0
  loss : Option LossRun := none
  total : Nat := 0
  lostCnt : Nat := 0                   -- EVT_RING_STAT.LOST
  full : Bool := false
  stop : Option Stop := none           -- domain-level stop
  bytes : Nat := 0                     -- mailbox class 0x05, 72 bits
  cplPkt : Option Pkt := none          -- admin completion entry awaiting its settling (R104)
  deriving DecidableEq, Repr

/-- What an admin command in progress waits for (Table 5-4, Table 5-8, R360). -/
inductive JobWait where
  | word         -- CREATE_QUEUE: the acceptance of the completion word
  | state        -- a transient state or a refill of its queue ends
  | context      -- a resident context
  | free         -- its queue, or every queue of its domain, is FREE
  | zeroes       -- the zeroing writes of CREATE_EVENT_RING
  | turn         -- a command started earlier that acts on its domain (R100)
  deriving DecidableEq, Repr

/-- An admin command in progress (R99, R40). -/
structure AdminJob where
  ring : AdminRing
  cmd : List Byte
  wait : JobWait                -- what it waits for
  qid : Nat
  cell : Bool
  dom : Nat
  left : Nat                    -- writes or queues still awaited
  done : Nat                    -- queues destroyed
  tried : Bool                  -- a refill for the command has begun (Table 5-8)
  made : Option QCfg            -- configuration of the queue being created
  enable : Bool                 -- its ENABLE
  slot : Option Nat             -- the backing slot taken for it
  deriving DecidableEq, Repr

/-- An on-die management admin ring (R106). -/
structure MgRing where
  slots : List (List Byte) := []       -- commands waiting, oldest first, at most 16
  cpls : List (List Byte) := []        -- completions waiting, oldest first, at most 16
  refused : Bool := false
  deriving DecidableEq, Repr

/-! ## Image, loader, management side -/

/-- IDENT (Table 2-4). -/
structure Ident where
  inst : Nat := 0
  spareMask : Nat := 0
  moverOff : Nat := 0
  mewsTiles : Nat := 0
  portEn : Nat := 0
  bist : Bool := false
  frozen : Bool := false
  backBase : Nat := 0
  backCtx : Nat := 0
  backDom : Nat := 0
  mps : Nat := 128               -- maximum payload, bytes (R119)
  mrrs : Nat := 128              -- maximum read request, bytes
  boundary : Nat := 4096         -- line no request crosses, bytes
  deriving DecidableEq, Repr

/-- DOMAIN entry (Table 2-5). -/
structure DomEntry where
  adminBase : Nat
  enable : Bool
  adminExp : Nat
  winFirst : Nat
  winCount : Nat
  share : Nat
  adminVec : Nat
  adminCpl : Nat
  quota : Nat
  deriving DecidableEq, Repr

/-- WINDOW entry (Table 2-6). -/
structure WinEntry where
  base : Nat
  pages : Nat
  read : Bool
  write : Bool
  deriving DecidableEq, Repr

/-- TARGET entry (Table 2-7). -/
structure Target where
  base : Nat
  pages : Nat
  slot : Nat
  slotValid : Bool
  egress : Nat
  norep : Bool
  path : Nat
  deriving DecidableEq, Repr

/-- CELLQ entry (Table 2-8). -/
structure CellEntry where
  cfg : QCfg
  enable : Bool
  weight : Nat
  burst : Nat
  home : Nat
  deriving DecidableEq, Repr

/-- PHASE entry (Table 2-9). -/
structure PhaseEntry where
  source : Nat
  loss : Nat
  refUnit : Nat
  filter : Nat
  modulus : Nat
  num : Nat
  den : Nat
  lossTmo : Nat
  coast : Nat
  deriving DecidableEq, Repr

/-- POLICY (Table 2-10). -/
structure Policy where
  pollMin : Nat := 0
  pollMax : Nat := 0
  prefMin : Nat := 0
  prefMax : Nat := 0
  thrMax : Nat := 0
  rebalance : Bool := false
  pathChange : Bool := false
  pollBudget : Nat := 0
  rebalGap : Nat := 0
  deriving DecidableEq, Repr

/-- The sections of an image (R31, Table 2-3). -/
structure Image where
  ident : Ident := {}
  domains : List DomEntry := []
  windows : List WinEntry := []
  targets : List Target := []
  cells : List CellEntry := []
  phases : List PhaseEntry := []
  policy : Policy := {}
  sempage : List Nat := []
  bytes : Nat := 0              -- B of R41: total LENGTH of the applied sections
  deriving DecidableEq, Repr

/-- A directory entry (Table 2-2). -/
structure DirEntry where
  typ : Nat
  optional : Bool
  offset : Nat
  length : Nat
  crc : Nat
  deriving DecidableEq, Repr

/-- What HDR keeps of a copy whose header and directory are valid (R29, R30). -/
structure CopyHdr where
  seq : Nat
  build : Nat
  spiMode : Nat
  spiDiv : Nat
  skipped : Nat
  dir : List DirEntry
  deriving DecidableEq, Repr

/-- Loader states of Table 2-11. -/
inductive LdrState where
  | reset | wait | hdr | choose | verify | power | selftest | apply | ready | safe | warmrst | nvop | reload
  deriving DecidableEq, Repr

/-- A flash operation of an NV command (R43): erase, program and poll, as issued on the SPI pins. -/
structure NvOp where
  opcode : Nat
  addr : Nat
  data : List Byte
  from_ : LdrState              -- the state it came from
  polls : Nat                   -- status polls made, one each 10 µs
  owner : Nat
  deriving DecidableEq, Repr

/-- A command that the loader sends to the flash (R34, R43, R351): opcode, address where it has one, bytes read or written,
data lines, and the SPI clock as MGCLK / `div`. -/
structure SpiCmd where
  opcode : Nat
  addr : Option Nat
  len : Nat
  lines : Nat
  div : Nat
  deriving DecidableEq, Repr

/-- The image loader (R34-R44, Tables 2-16 to 2-18). -/
structure Loader where
  state : LdrState := .reset
  err : Nat := 0
  copyUsed : Nat := 0
  safe : Bool := false
  reasonA : Nat := 0
  reasonB : Nat := 0
  skipped : Nat := 0
  bootCount : Nat := 0
  busy : Bool := false
  owner : Nat := 0
  opcode : Nat := 0
  seqA : Nat := 0
  seqB : Nat := 0
  build : Nat := 0
  imageSeq : Nat := 0                  -- IMAGE_SEQ in use (Table 3-9)
  bist : Nat := 0
  hdrA : Option CopyHdr := none
  hdrB : Option CopyHdr := none
  refusedA : Bool := false
  refusedB : Bool := false
  blankRepeats : Nat := 0
  blankWait : Bool := false            -- the 1 ms wait of a blank HDR runs
  useB : Bool := false                 -- the chosen copy
  mixed : Bool := false                -- R33 took a section from the other copy
  altSecs : List Bool := []            -- per directory entry: R33 took it from the other copy in VERIFY
  staged : Option Image := none        -- image that passed VERIFY
  groupAt : Nat := 0                   -- power group requested in POWER
  missed : List Nat := []              -- domains without an acknowledge in POWER (R36)
  warmDue : Bool := false              -- a warm restart of R286 waits for the flash operation under way to end
  nv : Option NvOp := none
  wpN : Bool := false                  -- NVM_WP_N
  spi : List SpiCmd := []              -- flash commands of the present or last loader action, oldest first (R43, R351)
  store : Option Image := none         -- retained image store (R39)
  deriving DecidableEq, Repr

/-- An access-log record (Table 3-11). -/
structure AlogRec where
  addr : Nat
  kind : Nat
  port : Nat
  size : Nat
  write : Bool
  sub : Nat
  stamp : Nat
  deriving DecidableEq, Repr

/-- Mailbox states of Table 3-7. -/
inductive MbxState where
  | idle | fetch | valid | error
  deriving DecidableEq, Repr

/-- The mailbox of one port (R63, Table 3-8). -/
structure Mailbox where
  state : MbxState := .idle
  sel : Nat := 0
  err : Nat := 0
  cls : Nat := 0
  words : Nat := 0
  value : Nat := 0
  backing : Bool := false       -- a backing-slot read is outstanding
  deriving DecidableEq, Repr

/-- Where the answer of a tunnel access goes (R362). -/
structure TunnelBack where
  isRead : Bool
  port : Nat
  tag : Nat
  gen : Nat
  addr : Nat
  len : Nat
  deriving DecidableEq, Repr

/-- An answer of a management port (R46, R348); `tunnel` for an access that came through the tunnel. -/
structure Answer where
  data : BitVec 64
  err : Bool
  tunnel : Option TunnelBack
  deriving DecidableEq, Repr

/-- What is held separately for one management port (R45). -/
structure PortSide where
  outstanding : List Answer := []      -- answers not yet returned, oldest first, at most four
  returned : Option Answer := none     -- the last answer returned
  remain : Nat := 0                    -- MGCLK cycles of the live unlock (R65)
  mbx : Mailbox := {}
  evtCount : Tab Nat := []             -- events since its last EVT_STAT read; unlisted reads 256 (R64)
  ackStale : Nat := 0
  deriving DecidableEq, Repr

/-- An event group (R264). -/
structure EvGroup where
  seq : Nat := 0
  pending : Nat := 0
  occ : Nat := 0
  deriving DecidableEq, Repr

/-- A vector-table entry (R274). -/
structure Vector4 where
  addr : Nat := 0
  data : Nat := 0
  dom : Nat := 0
  valid : Bool := false
  mask : Bool := false
  pend : Bool := false
  deriving DecidableEq, Repr

/-! ## Supervisor, monitors, units of the block -/

/-- The decision ring and the counts of Borage (R319, R320). -/
structure DecRing where
  wpos : Nat := 0
  dseq : Nat := 0
  zeroLeft : Nat := 0           -- zero writes not yet accepted
  runLost : Nat := 0            -- records lost in the open run
  runOpen : Bool := false
  badcfg : Bool := false
  lost : Nat := 0
  decisions : Nat := 0
  deriving DecidableEq, Repr

/-- A temperature input (R322, Table 14-4). -/
structure TempIn where
  codes : List Nat := []        -- last three codes, newest first
  level : Nat := 0
  fault : Bool := false
  stale : Bool := false
  deriving DecidableEq, Repr

/-- A ring-oscillator monitor (R326). -/
structure RoMon where
  ref : Nat := 0
  refSet : Bool := false
  count : Nat := 0
  high : Nat := 0               -- consecutive windows above the HIGH bound
  low : Nat := 0                -- consecutive windows below the WARN bound
  ok : Nat := 0                 -- consecutive windows at or above it
  crit : Nat := 0               -- consecutive fast windows below the CRIT bound
  warn : Bool := false          -- T2 wanted
  critAt : Nat := 0             -- CRIT value in force when REF was set (R327)
  critKHz : Nat := 0            -- MCLK when REF was set, to which the CRIT bound is scaled (R326)
  deriving DecidableEq, Repr

/-- Borage (R311-R325). -/
structure Super where
  applied : Nat := 0
  want : Nat := 0
  perfTarget : Nat := 7
  perfReq : Nat := 7
  dec : DecRing := {}
  temps : Tab TempIn := []
  mons : Tab RoMon := []
  moved : Tab Nat := []         -- epoch in which each domain queue was last moved (R206)
  epoch : Nat := 0
  epochAt : Nat := 0            -- MCLK cycle in which the epoch began
  deriving DecidableEq, Repr

/-- The context banks (R13, R289, R329). -/
structure Banks where
  aOut : Bool := false
  bOut : Bool := false
  lost : Nat := 0
  repA : Nat := 0
  repB : Nat := 0
  secA : List Nat := []         -- times of the repairs of bank A within the last second, ns
  secB : List Nat := []
  busy : Bool := false
  done : Bool := false
  pass : Bool := false
  bank : Bool := false
  op : Nat := 0
  err : Nat := 0
  progress : Nat := 0
  mirror : Bool := false        -- writes go to both banks during a COPY
  deriving DecidableEq, Repr

/-- A power domain's handshake (R352). -/
structure PowDom where
  req : Bool := false
  ack : Bool := false
  ret : Bool := false           -- in retention
  going : Bool := false         -- power-down in progress
  retAsk : Bool := false        -- the granted ask is for retention
  deriving DecidableEq, Repr

/-- Power-page counters (Table 17-10) and the pins of R352. -/
structure Power where
  doms : Tab PowDom := []
  refused : Nat := 0
  timeouts : Nat := 0
  last : Nat := 0
  refusePulse : List Nat := []  -- domains whose ask has been refused in the present MGCLK cycle (R352)
  downs : List Nat := []        -- domains the block is still to power down, in that order (R20, R34)
  deriving DecidableEq, Repr

/-- Clocks and time (R18, R19, R343). -/
structure Clock where
  cycle : Nat := 0              -- MCLK cycles since power-on reset
  mclkKHz : Nat := 1000000      -- last measurement
  mgclkKHz : Nat := 250000
  mclkOk : Bool := false        -- a whole measurement within 0.6 to 1.2 GHz (R333)
  rangePause : Bool := false    -- the block's own MCLK PAUSE (R19)
  refLost : Bool := false
  mgStopped : Bool := false
  ft : Nat := 0                 -- own fabric time, ns
  ftPs : Nat := 0               -- its part below one ns, in ps
  ftSeen : Bool := false        -- FT_VALID has been high
  mgPs : Nat := 0
  refPs : Nat := 0
  refMs : Nat := 0              -- REFCLK edges of the present 1 ms period (R212)
  slowEpoch : Nat := 0
  deriving DecidableEq, Repr

/-- The service command of MOV_SVC (Table 14-8). -/
structure MovSvc where
  busy : Bool := false
  done : Bool := false
  pass : Bool := false
  mover : Nat := 0
  err : Nat := 0
  fail : Nat := 0
  op : Nat := 0
  deriving DecidableEq, Repr

/-- Counters of the mover page that belong to no single mover (Tables 9-5, 13-8, 16-4). -/
structure MovPage where
  bindWait : Nat := 0
  failures : Nat := 0
  takeovers : Nat := 0
  resumes : Nat := 0
  repeated : Nat := 0
  ctxWait : Nat := 0
  evict : Nat := 0
  svc : MovSvc := {}
  deriving DecidableEq, Repr

/-- A message that waits for the flush read of the write it announces (R279); domain 256 names a group message. -/
structure MsgWait where
  id : Nat
  v : Nat
  dom : Nat
  pkt : Pkt
  deriving DecidableEq, Repr

/-- An entry tile in the Mews (R361). -/
structure MewsTile where
  q : QRef
  pos : Nat
  deriving DecidableEq, Repr

/-- A vector in the microsecond after its message (R278); domain 256 names a group message. -/
structure Coalesce where
  v : Nat
  dom : Nat
  more : Bool                     -- a further cause fell in the period
  after : Option (Nat × Pkt)      -- the write the latest cause announces
  deriving DecidableEq, Repr

/-- A queue that a failed mover left to be resumed from its mark (R294): its entry at the mark, and how far the failed mover
had read and presented it. -/
structure Fover where
  q : QRef
  mover : Nat
  ex : Option Exec
  hiSrc : Nat
  hiDst : Nat
  deriving DecidableEq, Repr

/-- A read of a ring that waits for the poll budget (R86): its queue, the tail position of a nudge, and when it fell due. -/
structure PollWait where
  q : QRef
  nudge : Option Nat
  isNudge : Bool
  due : Nat
  deriving DecidableEq, Repr

/-- Chervil, scheduler and Lovage state that belongs to no single queue. -/
structure Sched where
  nudged : List Nat := []                  -- nudge bitmap: domain queues with their bit set, oldest first (R17)
  refilling : List Nat := []               -- refills running, at most 64 (R98)
  ctxWaiters : List Nat := []              -- refills that wait for a context (R360)
  bindList : List QRef := []               -- R205
  bindSeq : Nat := 0
  ownedSeq : Nat := 0
  waiters : List Waiter := []
  waitSeq : Nat := 0
  mews : List MewsTile := []               -- entry tiles, oldest first
  vrlDrops : Nat := 0                      -- doorbell writes to virtual lines dropped and counted (R214)
  nudgeDrops : Nat := 0                    -- doorbell writes dropped and counted (R87, R103, R250, R270)
  chervilMapped : List Nat := []           -- Chervil tiles mapped out (R288, Table 2-14)
  chervilSuspect : List Nat := []          -- Chervil tiles that have failed once (R288)
  cacheMax : Nat := 0                      -- most cache tiles in use in the epoch (Table 14-1)
  pollWin : Nat := 0                       -- microsecond in which the reads of `pollUsed` were made (R86)
  pollUsed : Nat := 0                      -- polls and nudge-driven reads of that microsecond
  pollWait : List PollWait := []           -- reads that wait for the poll budget (R86)
  pollsMade : Nat := 0                     -- polls and nudge-driven reads of the epoch (Table 14-1)
  pollsDelayed : Nat := 0                  -- those delayed beyond their interval
  jobs : List AdminJob := []               -- commands in progress (R99)
  rr : Nat := 0                            -- round-robin position over domain rings (R99)
  aged : List QRef := []                   -- BACKGROUND bindings to be served once as STANDARD (R194)
  instStop : Option Stop := none           -- instance-level software stop
  critPause : Bool := false                -- PAUSE of R286 or of a CRIT breach of PD1 or PD2
  parityAt : Option Nat := none            -- time of the last control-plane mismatch that led to a warm restart (R286)
  lostCells : Tab Nat := []                -- PD0 copy of the last accepted completion word of each cell queue (R290)
  warmJobs : List AdminJob := []           -- commands a warm restart interrupted (R40)
  armSeq : Nat := 0
  coalesce : List Coalesce := []           -- vectors in their 1 µs period (R278)
  msgWait : List MsgWait := []             -- messages behind a flush read (R279)
  msgSeq : Nat := 0
  fovers : List Fover := []                -- queues that wait for FAILOVER_RESUME
  backUsed : List Nat := []                -- backing slots taken
  deriving DecidableEq, Repr

/-- A SHD write whose answer its port has not received: it stays pending at a strobe (R59). `ahead` counts the answers of the
port up to and including its own. -/
structure ShdWrite where
  port : MPort
  addr : Nat
  value : Nat
  ahead : Nat
  deriving DecidableEq, Repr

/-- The update logic (R59-R61). -/
structure Upd where
  count : Nat := 0
  timeout : Bool := false
  late : Bool := false
  stbOut : Nat := 0             -- MCLK cycles left of the UPD_STB_OUT pulse (R60)
  stbAt : Option Nat := none    -- MCLK cycle of the last rising edge of UPD_STB_IN (R350)
  deriving DecidableEq, Repr

/-- Debug trace (R372). -/
structure Trace where
  words : Tab Nat := []
  count : Nat := 0
  missed : Nat := 0
  next : Nat := 0
  due : List (Nat × Nat × Nat) := []   -- events of the present MGCLK cycle: kind, object, word
  held : Bool := false                 -- FREEZE as the present MGCLK cycle began
  deriving DecidableEq, Repr

/-- Staging pool (R222). -/
structure Pool where
  mapped : List Nat := []       -- extents mapped out
  off : Bool := false           -- out of service (Table 2-13, Table 2-14)
  deriving DecidableEq, Repr

/-- The vector page's state outside the register file (Table 12-7). -/
structure VecPage where
  table : Tab Vector4 := []
  refused : Bool := false
  err : Nat := 0
  stagedPend : Bool := false
  deriving DecidableEq, Repr

/-- PD0 registers and the management side. -/
structure Mgmt where
  a : PortSide := {}
  b : PortSide := {}
  lastLoser : MPort := .mpa          -- port that lost the last contest; MPA wins the first (R47)
  alog : Tab AlogRec := []
  alogPtr : Nat := 0
  sems : Tab (Option MPort) := []
  groups : Tab EvGroup := []
  wo1 : List Nat := []               -- WO1 registers written (R66)
  deriving DecidableEq, Repr

/-- The block: everything the spec gives it but the queue of waiting commands. -/
structure Blk where
  clock : Clock := {}
  power : Power := {}
  ldr : Loader := {}
  image : Option Image := none
  regs : Tab Nat := []               -- register file: active values by address; unlisted reads the reset value (R368)
  shadow : Tab (Nat × Nat) := []     -- pending shadow value and byte-lane mask by address (R59)
  inShadow : List ShdWrite := []     -- SHD writes still in progress, oldest first (R59)
  mg : Mgmt := {}
  upd : Upd := {}
  sched : Sched := {}
  mga : MgRing := {}
  mgb : MgRing := {}
  domains : Tab Domain := []
  queues : Tab Queue := []           -- domain queues by QID
  cells : Tab Queue := []            -- cell queues
  movers : Tab Mover := []
  movp : MovPage := {}
  activeSet : List Nat := []         -- movers of the active set (Tables 2-4, 2-14)
  standIn : Tab (Option Nat) := []   -- the mover promoted in a failed mover's place (R202, R293)
  ports : Tab Port := []
  links : List Nat := []             -- links up
  ctoLinks : List Nat := []          -- links down by a credit timeout alone (R342)
  halfFailed : List Nat := []        -- Square halves out of service: 0 A, 1 B (R288)
  halfTest : List Nat := []          -- Square halves in their power-up self-test (R330)
  halfIdle : List Nat := []          -- HALF_IDLE bits set (R258)
  halfFails : List (Nat × Nat × Nat) := []  -- tiles that failed after crossing a half: half, mover, fabric time (R288)
  pus : Tab PhaseUnit := []
  lines : Tab Line := []
  vlines : Tab VLine := []
  fifos : Tab Fifo := []
  sports : Tab SPort := []
  pool : Pool := {}
  slots : Tab Slot := []
  lats : Tab LatRec := []
  pfail : Nat := 0
  vec : VecPage := {}
  sup : Super := {}
  banks : Banks := {}
  relayDrops : Nat := 0
  relayWaits : Nat := 0
  rerouted : List Nat := []          -- TARGET entries moved off their EGRESS (R209)
  trace : Trace := {}
  order : Nat := 0                   -- presentation order of packets (R198)
  relaySeq : Nat := 0               -- order of relay-buffer places taken (R363)
  freeNo : Nat := 0                  -- the model's own: number of the next free value (log 6)
  deriving DecidableEq, Repr

/-- Reasons a step stops with a fault. No command of the spec stops the block: no meaning raises one. -/
inductive Fault where
  /-- A TEST_MODE other than 0b00 was sampled: the block then behaves as the integrator's scan and test flow sets,
  which the spec does not give (R335). Raised by every command but power-on reset while such a mode is in force. Safe. -/
  | testMode
  deriving DecidableEq, Repr

/-- Reasons a command is refused. -/
inductive Refusal where
  /-- A command without a meaning yet; raised by `exec` only. Safe. -/
  | notModelled (mnemonic : String)
  deriving DecidableEq, Repr

/-- The levels of the output pins (Tables 15-10, 15-11); bit n of a mask is the pin's bit n. -/
structure Pins where
  irqOut : Nat := 0             -- IRQ_OUT[7:0]
  sltPwrEn : Nat := 0           -- SLT_PWR_EN[31:0]
  rlAck : Nat := 0              -- RL_ACK[63:0]
  rlEnd : Nat := 0              -- RL_END[63:0]
  sfXoff : Nat := 0             -- SF_XOFF[31:0]
  spReady : Nat := 0            -- SP_IREADY[7:0]
  spValid : Nat := 0            -- SP_OVALID[7:0]
  pwrReq : Nat := 0             -- PWR_REQ[25:1]
  pwrRefuse : Nat := 0          -- PWR_REFUSE[25:1]
  perfReq : Nat := 7            -- PWR_PERF_REQ[2:0]
  nvmWpN : Bool := false        -- NVM_WP_N
  updStbOut : Bool := false     -- UPD_STB_OUT
  deriving DecidableEq, Repr

/-- The state: the block, the block as the SLOW copies captured it at the last REFCLK edge (R62), the TEST_MODE sampled at power-on
reset (R335), the output pins, and the waiting commands. -/
structure State where
  core : Blk
  slow : Blk
  testMode : Nat
  pins : Pins
  pending : List Instr
  deriving DecidableEq, Repr

/-- The machine right after power-on reset (R332, R349, R368): every field at its reset value, nothing waiting. -/
def State.reset : State := { core := {}, slow := {}, testMode := 0, pins := {}, pending := [] }

end Sys2Proof.Machine
end

