-- ==== Sys2Proof/WellFormed.lean ====
section
/-! DEFINITION. Which commands are well formed: every operand names something the block has (R8, R11, R45, R51,
R99, R130, R160, R178, R210, R214, R219, R224, R306, R322, R326). An ill-formed command names nothing and has no
effect (assumption log 2). -/

namespace Sys2Proof

/-- Domain queues have 18-bit numbers, cell queues are 0 to 63 (R11, Table 0-6). -/
def QRef.wf : QRef → Bool
  | .dom n => n < 2 ^ 18
  | .cell n => n < 64

/-- An access of the other port fits the address space and its eight byte enables (R45, R50). -/
def rivalWf : Option Rival → Bool
  | some r => r.addr < 2 ^ 20 && r.be < 256
  | none => true

/-- 256 domain rings beside MGA and MGB (R99). -/
def AdminRing.wf : AdminRing → Bool
  | .dom d => d < 256
  | .mga | .mgb => true

/-- 64 wired and 4,096 virtual lines (R210, R214). -/
def LineRef.wf : LineRef → Bool
  | .wired n => n < 64
  | .virt v => v < 4096

/-- The bytes of a read result fill whole bytes only by type; nothing else to check. -/
def ReadResult.bytes : ReadResult → List Byte
  | .data bs | .poison bs => bs
  | .error | .timeout => []

/-- A stream word has 16 bytes, and INB is a 4-bit field: its valid bytes less one (Table 10-2). -/
def StreamWord.wf (w : StreamWord) : Bool := w.bytes.length == 16 && w.inb < 16

/-- A header's fields fit their widths (Table 15-3). -/
def InPkt.wf (k : InPkt) : Bool :=
  k.addr < 2 ^ 64 && k.dom < 256 && k.tag < 1024 && k.gen < 4 && k.relayInst < 64 && k.relayQid < 2 ^ 18

/-- A completion's fields fit their widths (Table 15-3). -/
def Cpl.wf (c : Cpl) : Bool := c.tag < 1024 && c.gen < 4 && c.cstat < 8 && c.offset < 4096

/-- Every operand of the command names something the block has. -/
def Instr.wf : Instr → Bool
  | .powerOnReset t => t < 4
  | .powerAck d | .pwrTimeout d | .powerAckLost d | .powerDownAck d | .powerAsk d _ => d < 26
  | .registerWrite c a be _ => a < 2 ^ 20 && be < 256 && rivalWf c.rival
  | .semAcquire c n => n < 64 && rivalWf c.rival
  | .semRelease _ n | .semForce _ n => n < 64
  | .mbxSelWrite _ c i => c < 256 && i < 2 ^ 18
  | .evtStatRead _ g => g < 64
  | .evtAck _ g q m => g < 64 && q < 256 && m < 2 ^ 16
  | .updArm _ src u _ => src < 4 && u < 16
  | .adminNudge d _ _ v | .adminCplReturn d _ _ v | .eventRingReturn d _ _ v => d < 256 && v < 2 ^ 32
  | .adminPoll d | .adminRingReadDone d _ => d < 256
  | .createQueue r | .destroyQueue r | .modifyQueue r | .stopQueue r | .resumeQueue r | .pinQueue r | .unpinQueue r
  | .queryQueue r | .createEventRing r | .destroyEventRing r | .adminNop r | .stopDomain r | .resumeDomain r
  | .stopMover r | .resumeMover r | .stopPort r | .resumePort r | .stopInstance r | .resumeInstance r | .setQuota r
  | .resetDomain r | .contextWaitTimeout r => r.wf
  | .nudge q _ _ v => q.wf && v < 2 ^ 32
  | .pollDue q | .localBufferFill q | .chainTimeout q | .bindQueue q | .bindIdle q | .spillDone q | .refillDone q _
  | .backgroundAging q | .stopPointReached q | .stopPhaseReached q | .queueStopped q | .moderationTimeout q
  | .failoverResume q | .thermalShed q => q.wf
  | .contextScrub q t _ => q.wf && t < 2
  | .ringTileArrival p t g _ | .flushReadCompletion p t g _ => p < 8 && t < 1024 && g < 4
  | .entryStart m b | .windowArm m b | .windowOpen m b | .windowLate m b | .phaseLostHalt m b | .planArm m b
  | .snapTargetTimeout m b => m < 18 && b < 64
  | .alignedTargetLaunch m b i => m < 18 && b < 64 && i < 64
  | .readCompletion p c _ => p < 8 && c.wf
  | .readTimeoutSweep p ts => p < 8 && ts.all (· < 1024)
  | .tagRejoin p t => p < 8 && t < 1024
  | .packetAccepted p _ _ | .portIdle p | .portStuck p | .portLost p | .portUp p | .relayRingWrite p
  | .dataCreditReturn p _ _ => p < 8
  | .tokenReturn p t _ | .tokenTimeout p t => p < 8 && t < 4096
  | .indexPulse x | .phasePulse x => x.n < 16
  | .phaseCount u _ | .phaseLossTimeout u | .coastLimitExpiry u | .puRestart _ u
  | .phaseTickEstimate u => u < 16
  | .fabricTimeValid t => t < 2 ^ 64
  | .latencyProbe i | .latencyRecordAging i _ | .latencyTrackingStop i | .tgtLatInval _ i => i < 1024
  | .rlCapture x | .rlRelease x => x.n < 64
  | .rlHoldTimeout n | .rlnClear _ n | .rlnSwreq _ n => n < 64
  | .rlnModeWrite _ n w => n < 64 && w.toNat < 2 ^ 32
  | .captureConsumed l => l.wf
  | .rlnVrlRaise _ v n => v < 4096 && n < 256
  | .vrlMessage v _ _ x => v < 4096 && x < 2 ^ 32
  | .sfEnable _ f _ | .sfDisable _ f | .sfCloseDone f | .flush _ f | .dropRem _ f | .closeTail _ f | .staleTail f =>
      f < 32
  | .spWordIn n w => n < 8 && w.wf
  | .spWordOut n _ | .spStall n | .spClkMeasure n _ => n < 8
  | .movRetire _ m | .moverRetired m | .moverHeartbeatTimeout m | .moverWatchdogTimeout m | .movSvcTest _ m _
  | .movSvcPowerDown _ m | .movSvcPowerUp _ m _ | .moverSelftestDone m _ => m < 18
  | .movFail m c => m < 18 && c < 16
  | .dptDrain _ k => k < 256
  | .messageCoalesceEnd v => v < 4096
  | .domSleepWrite _ j _ => j < 8
  | .linkDown n _ | .linkUp n | .linkCtoRecovery n => n < 40
  | .internal u => u < 256
  | .slotPresenceAccepted s | .slotPresenceSeen s | .slotAbsenceAccepted s | .slotPgAccepted s | .slotPgLost s
  | .slotFaultInput s | .slotRampTimeout s | .slotSettleDone s | .slotTokenReadDone s _ | .slotDischargeDone s
  | .passDamaged s | .slotHoldExpiry s | .sltOnWrite _ s _ | .sltSvcClear _ s | .sltSvcExpire _ s
  | .slotSettleLinkTimeout s => s < 32
  | .tempSample i c => i < 4 && c < 1024
  | .tempStale i => i < 4
  | .roWindow d c | .roFastWindow d c => d < 26 && c < 2 ^ 16
  | .inboundPacket p k | .tunnelAccess p k | .relayWrite p k => p < 8 && k.wf
  | .squareHalfFailure h => h < 2
  | .squareHalfSelftestDone h m _ => h < 2 && m.all (· < 16384)
  | .portReset _ | .clockMeasurement _ _ | .refclkLost | .mgclkGap | .nvmSettleDone | .hdrReadDone _ _ | .hdrRetry
  | .verifyDone _ _ | .selftestDone _ | .applyDone _ _ | .reload _ | .warm _ | .warmRestartDone _ | .nvRead _ _
  | .nvErase _ | .nvProgram _ | .nvStatusPoll _ _ | .keyUnlock _ _ | .keyUnlockLapse _ | .mbxCapture _
  | .mbxBackingReadDone _ _ | .mbxTimeout _ | .mbxLastWordRead _ | .updGo _ | .updStbIn | .updStrobeMsg _ _
  | .updPhasePoint | .updTimeout | .mgSubmit _ _ | .mgPop _ _ | .bindPreempt | .vecLoad _ | .vecStore _
  | .borageEpoch _ | .supFreezeWrite _ _ | .supRestore _ | .supRingEnable _ _ | .supRingRetWrite _ _
  | .ctxwRebuildTest _ _ | .ctxwRebuildCopy _ _ | .ctxwRebuildDone _ _ | .refclkReturn => true

end Sys2Proof
end

