-- ==== Sys2Proof/Machine/Ops.lean ====
section
/-! DEFINITION. The named operations shared by every family: sparse tables, bytes and CRCs, access to the units of
the block, target ranges, windows and routes, packets with their tags and tokens, event sources, messages and event
records. -/

namespace Sys2Proof

/-- Number of a queue within its kind. -/
def QRef.num : QRef → Nat
  | .dom n => n
  | .cell n => n

/-- The queue is a cell queue. -/
def QRef.isCell : QRef → Bool
  | .dom _ => false
  | .cell _ => true

end Sys2Proof

namespace Sys2Proof.Machine
open Sys2Proof

/-! ## Sparse tables -/

/-- What key `n` reads as in a table whose unlisted keys read `d`. -/
def tabGet {α : Type} (d : α) : Tab α → Nat → α
  | [], _ => d
  | (k, v) :: t, n => if k = n then v else tabGet d t n

/-- List key `n` at `x` in front of the first higher key. -/
def tabPut {α : Type} : Tab α → Nat → α → Tab α
  | [], n, x => [(n, x)]
  | (k, v) :: t, n, x => if n < k then (n, x) :: (k, v) :: t else (k, v) :: tabPut t n x

/-- The table with key `n` set to `x`, kept in the canonical form: sorted, and listing no key at its unlisted value. -/
def tabSet {α : Type} [DecidableEq α] (d : α) (t : Tab α) (n : Nat) (x : α) : Tab α :=
  let t := t.filter fun e => e.1 != n
  if x = d then t else tabPut t n x

/-- Change every listed entry; one that becomes the unlisted value is no longer listed. -/
def tabMap {α : Type} [DecidableEq α] (d : α) (f : Nat → α → α) (t : Tab α) : Tab α :=
  t.filterMap fun (k, v) => if f k v = d then none else some (k, f k v)

/-- Every key of the table lies above `n`, keys rise strictly, and no key is listed at its unlisted value. -/
def tabOkAbove {α : Type} [DecidableEq α] (d : α) : Nat → Tab α → Bool
  | _, [] => true
  | lo, (k, v) :: t => decide (lo ≤ k) && decide (v ≠ d) && tabOkAbove d (k + 1) t

/-- The canonical form of a table. -/
def tabOk {α : Type} [DecidableEq α] (d : α) (t : Tab α) : Bool := tabOkAbove d 0 t

/-- The first number from `i` upward, in `fuel` tries, that satisfies `p`. -/
def firstFrom (p : Nat → Bool) : Nat → Nat → Option Nat
  | 0, _ => none
  | fuel + 1, i => if p i then some i else firstFrom p fuel (i + 1)

/-- The list with one more element unless it holds it. -/
def addOnce {α : Type} [DecidableEq α] (x : α) (l : List α) : List α := if l.contains x then l else l ++ [x]

/-- Apply `f` for every element, from the first. -/
def forEach {α σ : Type} (l : List α) (f : α → σ → σ) (s : σ) : σ := l.foldl (fun s a => f a s) s

/-! ## Bytes and fields -/

/-- A little-endian number (R4). -/
def le (bs : List Byte) : Nat := bs.foldr (fun b n => b.toNat + 256 * n) 0

/-- `n` bytes, least significant first (R4). -/
def leBytes : Nat → Nat → List Byte
  | 0, _ => []
  | n + 1, w => BitVec.ofNat 8 w :: leBytes n (w / 256)

/-- `n` bytes from offset `o`. -/
def slice (bs : List Byte) (o n : Nat) : List Byte := (bs.drop o).take n

/-- The little-endian number of `n` bytes at offset `o`; bytes beyond the end read zero. -/
def leAt (bs : List Byte) (o n : Nat) : Nat := le (slice bs o n)

/-- The bytes with `new` laid over them from offset `o`. -/
def patch (bs : List Byte) (o : Nat) (new : List Byte) : List Byte :=
  bs.take o ++ new ++ bs.drop (o + new.length)

/-- One if the flag is set. -/
def b1 (x : Bool) : Nat := if x then 1 else 0

/-- Put `v` at bit `lo`, `n` bits wide. -/
def fld (v lo n : Nat) : Nat := v % 2 ^ n * 2 ^ lo

/-- A number of `w` bits read as a signed one. -/
def signed (w v : Nat) : Int := if v < 2 ^ (w - 1) then (v : Int) else (v : Int) - (2 ^ w : Nat)

/-- Add one modulo `2 ^ w`. -/
def incr (w n : Nat) : Nat := (n + 1) % 2 ^ w

/-- Add one, saturating at `m`. -/
def satInc (m n : Nat) : Nat := if n < m then n + 1 else m

/-- One step of a reflected CRC with polynomial `poly` (bit-reversed). -/
def crcBits (poly : Nat) : Nat → Nat → Nat
  | 0, c => c
  | n + 1, c => crcBits poly n (if c % 2 = 1 then Nat.xor (c / 2) poly else c / 2)

/-- Feed bytes to a reflected 32-bit CRC register. -/
def crcFeed (poly : Nat) (c : Nat) (bs : List Byte) : Nat :=
  bs.foldl (fun c b => crcBits poly 8 (Nat.xor c b.toNat)) c

/-- CRC-32 of the image (R28). -/
def crc32 (bs : List Byte) : Nat := Nat.xor (crcFeed 0xEDB88320 0xFFFFFFFF bs) 0xFFFFFFFF

/-- CRC-32C of tiles and of CHECK (R132, R124); `crc32cFeed` runs its register. -/
def crc32cFeed (c : Nat) (bs : List Byte) : Nat := crcFeed 0x82F63B78 c bs

/-- The finished CRC-32C (R132). -/
def crc32c (bs : List Byte) : Nat := Nat.xor (crc32cFeed 0xFFFFFFFF bs) 0xFFFFFFFF

/-- The valid mask of a tile whose 64 bytes all carry data (R132). -/
def fullMask : Nat := 2 ^ 64 - 1

/-- The CRC-32C of a tile (R9, R132): its 64 data bytes, those without data held as zero, then its 8-byte valid mask. -/
def tileCrc (bs : List Byte) (mask : Nat) : Nat := crc32c ((bs ++ List.replicate 64 0#8).take 64 ++ leBytes 8 mask)

/-- CRC-32C of each tile that bytes touch, the first of them `o` bytes into its tile. -/
def tileCrcsFrom : Nat → Nat → List Byte → List Nat
  | 0, _, _ => []
  | fuel + 1, o, bs =>
    if bs.isEmpty then []
    else
      let l := bs.take (64 - o)
      tileCrc (List.replicate o 0#8 ++ l) ((2 ^ l.length - 1) * 2 ^ o) :: tileCrcsFrom fuel 0 (bs.drop (64 - o))

/-- CRC-32C of each tile of bytes at an address (R9). -/
def tileCrcs (a : Nat) (bs : List Byte) : List Nat := tileCrcsFrom (bs.length + 1) (a % 64) bs

/-- One byte of CRC-16, polynomial 0x1021, no reflection (R76). -/
def crc16Bits : Nat → Nat → Nat
  | 0, c => c
  | n + 1, c =>
    crc16Bits n (if c / 2 ^ 15 % 2 = 1 then Nat.xor (c * 2 % 2 ^ 16) 0x1021 else c * 2 % 2 ^ 16)

/-- CRC-16 of R76. -/
def crc16 (bs : List Byte) : Nat := bs.foldl (fun c b => crc16Bits 8 (Nat.xor c (b.toNat * 256))) 0xFFFF

/-! ## The units of the block -/

/-- The queue a name stands for. -/
def Blk.queue (b : Blk) : QRef → Queue
  | .dom n => tabGet {} b.queues n
  | .cell n => tabGet {} b.cells n

/-- Replace a queue. -/
def Blk.setQueue (b : Blk) (q : QRef) (x : Queue) : Blk :=
  match q with
  | .dom n => { b with queues := tabSet {} b.queues n x }
  | .cell n => { b with cells := tabSet {} b.cells n x }

/-- Change a queue. -/
def Blk.modQueue (b : Blk) (q : QRef) (f : Queue → Queue) : Blk := b.setQueue q (f (b.queue q))

/-- Change the run state of a queue. -/
def Blk.modRun (b : Blk) (q : QRef) (f : QRun → QRun) : Blk := b.modQueue q fun x => { x with run := f x.run }

/-- A mover. -/
def Blk.mover (b : Blk) (m : Nat) : Mover := tabGet {} b.movers m

/-- Change a mover. -/
def Blk.modMover (b : Blk) (m : Nat) (f : Mover → Mover) : Blk :=
  { b with movers := tabSet {} b.movers m (f (b.mover m)) }

/-- A data port. -/
def Blk.port (b : Blk) (p : Nat) : Port := tabGet {} b.ports p

/-- The mover that holds mover `m`'s place: itself, or one promoted for it or for its stand-in (R202, R293). -/
def Blk.placeOf (b : Blk) : Nat → Nat → Nat
  | 0, m => m
  | n + 1, m =>
    if (b.mover m).state = .active then m
    else match tabGet none b.standIn m with
      | some s => b.placeOf n s
      | none => m

/-- Change a data port. -/
def Blk.modPort (b : Blk) (p : Nat) (f : Port → Port) : Blk :=
  { b with ports := tabSet {} b.ports p (f (b.port p)) }

/-- Change a data port's counters. -/
def Blk.modCnt (b : Blk) (p : Nat) (f : PortCnt → PortCnt) : Blk :=
  b.modPort p fun x => { x with cnt := f x.cnt }

/-- A domain. -/
def Blk.domain (b : Blk) (d : Nat) : Domain := tabGet {} b.domains d

/-- Change a domain. -/
def Blk.modDomain (b : Blk) (d : Nat) (f : Domain → Domain) : Blk :=
  { b with domains := tabSet {} b.domains d (f (b.domain d)) }

/-- A phase unit. -/
def Blk.pu (b : Blk) (u : Nat) : PhaseUnit := tabGet {} b.pus u

/-- Change a phase unit. -/
def Blk.modPu (b : Blk) (u : Nat) (f : PhaseUnit → PhaseUnit) : Blk :=
  { b with pus := tabSet {} b.pus u (f (b.pu u)) }

/-- A wired request line. -/
def Blk.line (b : Blk) (n : Nat) : Line := tabGet {} b.lines n

/-- Change a wired request line. -/
def Blk.modLine (b : Blk) (n : Nat) (f : Line → Line) : Blk :=
  { b with lines := tabSet {} b.lines n (f (b.line n)) }

/-- A virtual request line. -/
def Blk.vline (b : Blk) (v : Nat) : VLine := tabGet {} b.vlines v

/-- Change a virtual request line. -/
def Blk.modVline (b : Blk) (v : Nat) (f : VLine → VLine) : Blk :=
  { b with vlines := tabSet {} b.vlines v (f (b.vline v)) }

/-- A staging FIFO. -/
def Blk.fifo (b : Blk) (n : Nat) : Fifo := tabGet {} b.fifos n

/-- Change a staging FIFO. -/
def Blk.modFifo (b : Blk) (n : Nat) (f : Fifo → Fifo) : Blk :=
  { b with fifos := tabSet {} b.fifos n (f (b.fifo n)) }

/-- A stream port. -/
def Blk.sport (b : Blk) (n : Nat) : SPort := tabGet {} b.sports n

/-- Change a stream port. -/
def Blk.modSport (b : Blk) (n : Nat) (f : SPort → SPort) : Blk :=
  { b with sports := tabSet {} b.sports n (f (b.sport n)) }

/-- A slot. -/
def Blk.slot (b : Blk) (n : Nat) : Slot := tabGet {} b.slots n

/-- Change a slot. -/
def Blk.modSlot (b : Blk) (n : Nat) (f : Slot → Slot) : Blk :=
  { b with slots := tabSet {} b.slots n (f (b.slot n)) }

/-- A latency record. -/
def Blk.lat (b : Blk) (n : Nat) : LatRec := tabGet {} b.lats n

/-- Change a latency record. -/
def Blk.modLat (b : Blk) (n : Nat) (f : LatRec → LatRec) : Blk :=
  { b with lats := tabSet {} b.lats n (f (b.lat n)) }

/-- What is held for one management port. -/
def Blk.side (b : Blk) : MPort → PortSide
  | .mpa => b.mg.a
  | .mpb => b.mg.b

/-- Change what is held for one management port. -/
def Blk.modSide (b : Blk) (p : MPort) (f : PortSide → PortSide) : Blk :=
  match p with
  | .mpa => { b with mg := { b.mg with a := f b.mg.a } }
  | .mpb => { b with mg := { b.mg with b := f b.mg.b } }

/-- The code of a management port: 1 MPA, 2 MPB (Table 3-11). -/
def mportCode : MPort → Nat
  | .mpa => 1
  | .mpb => 2

/-- The management port of a code. -/
def mportOf (n : Nat) : MPort := if n = 2 then .mpb else .mpa

/-- Change the scheduler's state. -/
def Blk.modSched (b : Blk) (f : Sched → Sched) : Blk := { b with sched := f b.sched }

/-- The binding at place `k` of mover `m`. -/
def Blk.binding (b : Blk) (m k : Nat) : Option Binding := tabGet none (b.mover m).bind k

/-- Put a binding, or none, at a place. -/
def Blk.setBinding (b : Blk) (m k : Nat) (x : Option Binding) : Blk :=
  b.modMover m fun v => { v with bind := tabSet none v.bind k x }

/-- Change the binding at a place, if one is there. -/
def Blk.modBinding (b : Blk) (m k : Nat) (f : Binding → Binding) : Blk :=
  match b.binding m k with
  | some x => b.setBinding m k (some (f x))
  | none => b

/-- Change the entry in execution that names position `pos` at a binding. -/
def Blk.modExec (b : Blk) (m k pos : Nat) (f : Exec → Exec) : Blk :=
  let g := fun (e : Exec) => if e.pos = pos then f e else e
  b.modBinding m k fun x => { x with exec := x.exec.map g, plans := x.plans.map g }

/-- The bindings of a mover with their places. -/
def Mover.places (v : Mover) : List (Nat × Binding) :=
  v.bind.filterMap fun (k, x) => x.map fun y => (k, y)

/-- The active (not shadow) binding of a queue: its mover and place. -/
def Blk.boundAt (b : Blk) (q : QRef) : Option (Nat × Nat) :=
  b.movers.findSome? fun (m, v) =>
    (v.places.find? fun (_, x) => decide (x.q = q) && !x.shadow).map fun (k, _) => (m, k)

/-- The shadow binding of a queue. -/
def Blk.shadowAt (b : Blk) (q : QRef) : Option (Nat × Nat) :=
  b.movers.findSome? fun (m, v) =>
    (v.places.find? fun (_, x) => decide (x.q = q) && x.shadow).map fun (k, _) => (m, k)

/-- Tiles the lanes of a queue's binding took or gave; those of its shadow carry the same (R150, R153). -/
def Blk.countTiles (b : Blk) (q : QRef) (rd wr : Nat) : Blk :=
  let up := fun (b : Blk) (at_ : Option (Nat × Nat)) => match at_ with
    | some (m, k) => (b.modBinding m k fun x => { x with rd := x.rd + rd, wr := x.wr + wr }).modMover m fun v =>
        { v with epRd := v.epRd + rd, epWr := v.epWr + wr }
    | none => b
  up (up b (b.boundAt q)) (b.shadowAt q)

/-- Every queue that exists: cell queues first, then domain queues, ascending. -/
def Blk.allQueues (b : Blk) : List QRef :=
  (b.cells.filterMap fun (n, x) => if x.run.phase = .free then none else some (QRef.cell n))
    ++ (b.queues.filterMap fun (n, x) => if x.run.phase = .free then none else some (QRef.dom n))

/-- The queue exists. -/
def Blk.exists? (b : Blk) (q : QRef) : Bool := decide ((b.queue q).run.phase ≠ .free)

/-! ## Registers -/

/-- The reset value of a stored register, by its address (R368): every field the maps give a number other than zero. -/
def regDefault (a : Nat) : Nat :=
  if a / 0x1000 = 0x05 then
    (if a < 0x5080 then 0x60640000 else if a = 0x5300 then 0x14320A14 else 0)
  else if a / 0x1000 = 0x0D then
    (if a % 0x40 = 0x04 then 0x00024400 else if a % 0x40 = 0x18 then 0x40 else 0)
  else if a / 0x1000 = 0x12 then
    (if 0x12300 ≤ a ∧ a < 0x12320 then 8 + Nat.xor ((a - 0x12300) / 4) 4
     else if a = 0x12330 then 100 else if a = 0x12334 then 50 else if a = 0x12380 then 0x8000FF00 else 0)
  else if a / 0x1000 = 0x14 then
    (if a = 0x14000 then 7 else if a = 0x14018 then 0x10000
     else if 0x14020 ≤ a ∧ a < 0x14030 then 0x002053FE
     else if a = 0x14040 then 0x000D1A0D else if a = 0x14044 then 10 else if a = 0x14048 then 0x700 else 0)
  else if a = 0x0E300 then 1000
  else if a = 0x11200 then 0x00320A08
  else if a = 0x13000 then 64
  else if a = 0x15000 then 0x00130064
  else 0

/-- The stored value of the register at a plain-view address. -/
def Blk.reg (b : Blk) (a : Nat) : Nat := tabGet (regDefault a) b.regs a

/-- Store a register. -/
def Blk.setReg (b : Blk) (a v : Nat) : Blk := { b with regs := tabSet (regDefault a) b.regs a v }

/-- A field of a stored register. -/
def Blk.regF (b : Blk) (a hi lo : Nat) : Nat := bits (b.reg a) hi lo

/-- Replace bits [hi:lo] of a word. -/
def putBits (w hi lo v : Nat) : Nat :=
  w - bits w hi lo * 2 ^ lo + v % 2 ^ (hi - lo + 1) * 2 ^ lo

/-- Store a field of a register. -/
def Blk.setRegF (b : Blk) (a hi lo v : Nat) : Blk := b.setReg a (putBits (b.reg a) hi lo v)

/-! ## Power, image and service -/

/-- Power domain `d` is powered: PD0 always, any other from its acknowledge until it is asked down (R20, R352). -/
def Blk.on (b : Blk) (d : Nat) : Bool :=
  d == 0 || (let x := tabGet {} b.power.doms d; x.req && x.ack && !x.going)

/-- The applied image; an empty one before APPLY. -/
def Blk.img (b : Blk) : Image := b.image.getD {}

/-- The DOMAIN entry of an enabled domain (R31, R32). -/
def Blk.domEntry (b : Blk) (d : Nat) : Option DomEntry :=
  match b.img.domains[d]? with
  | some e => if e.enable then some e else none
  | none => none

/-- The loader is in READY, or in a command begun there (Table 2-11). -/
def Blk.ready (b : Blk) : Bool :=
  match b.ldr.state with
  | .ready | .warmrst => true
  | .nvop => decide ((b.ldr.nv.map (·.from_)) = some LdrState.ready)
  | _ => false

/-- The loader is in SAFE, or in an NV command begun there (R38). -/
def Blk.inSafe (b : Blk) : Bool :=
  match b.ldr.state with
  | .safe => true
  | .nvop => decide ((b.ldr.nv.map (·.from_)) = some LdrState.safe)
  | _ => false

/-- Power domain of a mover (Table 1-4). -/
def moverPd (m : Nat) : Nat := 8 + m

/-- Power domain of a data port (Table 1-4). -/
def portPd (p : Nat) : Nat := if p < 4 then 3 else 4

/-- The port can carry traffic at all: enabled by the image, its half powered and in service (R8, Table 2-13). -/
def Blk.portPowered (b : Blk) (p : Nat) : Bool :=
  decide (p < 8) && bit b.img.ident.portEn p && b.on (portPd p) && !(b.halfFailed.contains (p / 4))

/-- The port is in service for R209: up, not lost, stuck, draining or STOPPED (R257, R261, R302, R303). -/
def Blk.inService (b : Blk) (p : Nat) : Bool :=
  let x := b.port p
  b.portPowered p && x.up && !x.lost && !x.stuck && !(bit (b.reg 0x12320) p) && !x.stopped

/-! ## Windows, target ranges and routes -/

/-- The windows of a domain with the rights asked for. -/
def Blk.windowsOf (b : Blk) (d : Nat) (rd wr : Bool) : List WinEntry :=
  match b.domEntry d with
  | some e => ((b.img.windows.drop e.winFirst).take e.winCount).filter fun w =>
      (!rd || w.read) && (!wr || w.write)
  | none => []

/-- How far from `a` the segments (base, end) reach without a gap. -/
def reachFrom (segs : List (Nat × Nat)) : Nat → Nat → Nat
  | 0, a => a
  | fuel + 1, a =>
    let a' := segs.foldl (fun m (lo, hi) => if lo ≤ a ∧ a < hi then max m hi else m) a
    if a' = a then a else reachFrom segs fuel a'

/-- `len` bytes from `a` lie in the segments and do not pass 2^64 (R117). -/
def covered (segs : List (Nat × Nat)) (a len : Nat) : Bool :=
  decide (a + len ≤ 2 ^ 64) && (len == 0 || decide (a + len ≤ reachFrom segs (segs.length + 1) a))

/-- The range lies in the domain's windows; the rights of overlapping windows combine (Table 2-6, R117). -/
def Blk.winOk (b : Blk) (d a len : Nat) (rd wr : Bool) : Bool :=
  let seg := fun (w : WinEntry) => (w.base, w.base + w.pages * 4096)
  (!rd || covered ((b.windowsOf d true false).map seg) a len)
    && (!wr || covered ((b.windowsOf d false true).map seg) a len)

/-- The TARGET range that covers an address (R118). -/
def Blk.rangeOf (b : Blk) (a : Nat) : Option (Nat × Target) :=
  (b.img.targets.zipIdx.find? fun (t, _) => decide (t.base ≤ a) && decide (a < t.base + t.pages * 4096)).map
    fun (t, i) => (i, t)

/-- The whole range lies inside TARGET ranges (R118). -/
def Blk.rangesCover (b : Blk) (a len : Nat) : Bool :=
  covered (b.img.targets.map fun t => (t.base, t.base + t.pages * 4096)) a len

/-- The link of a target range (R299). -/
def linkOf (t : Target) : Nat := if t.slotValid then t.slot else 32 + t.egress

/-- The port may carry this range's traffic: in service, and for host memory its host link not down (R299). -/
def Blk.carries (b : Blk) (host : Bool) (p : Nat) : Bool :=
  b.inService p && (!host || b.links.contains (32 + p))

/-- The port a range leaves on: EGRESS, or under R209 ALT, then the lowest port in service of the same half, then of
the other half; EGRESS when none is in service. -/
def Blk.egressOf (b : Blk) (host : Bool) (e : Nat) : Nat :=
  if b.carries host e then e
  else
    let r := b.reg (0x12300 + 4 * e)
    let alt := bits r 2 0
    if bit r 3 && b.carries host alt then alt
    else
      let half := e / 4 * 4
      match firstFrom (b.carries host) 4 half with
      | some p => p
      | none => (firstFrom (b.carries host) 4 (4 - half)).getD e

/-- The port a range leaves on. -/
def Blk.egress (b : Blk) (t : Target) : Nat := b.egressOf (!t.slotValid) t.egress

/-- What decides the port of a range: its EGRESS, and whether it is host memory (R209, R299). -/
def Target.routeKey (t : Target) : Nat := t.egress + 8 * b1 (!t.slotValid)

/-- The port that ranges of a key leave on. -/
def Blk.keyPort (b : Blk) (k : Nat) : Nat := b.egressOf (decide (8 ≤ k)) (k % 8)

/-- The port that ranges of a key leave on for a queue: one still used before the traffic returns to another (R208). -/
def Blk.keyPortOf (b : Blk) (q : QRef) (k : Nat) : Nat :=
  match (b.queue q).keepPort.find? fun x => x.1 == k with
  | some x => if b.carries (decide (8 ≤ k)) x.2 then x.2 else b.keyPort k
  | none => b.keyPort k

/-- The path of a request: CTRL PATH, or for PATH 0 the path Borage chose for the port, else the range's default
(R118, R208). -/
def Blk.pathOf (b : Blk) (t : Target) (p path : Nat) : Nat :=
  if path ≠ 0 then path else ((b.port p).chosen).getD t.path

/-- The route of an address: port, path and range index; none where no range covers it. -/
def Blk.route (b : Blk) (a path : Nat) : Option (Nat × Nat × Nat) :=
  (b.rangeOf a).map fun (i, t) => let p := b.egress t; (p, b.pathOf t p path, i)

/-- The route of an address for a queue: a changed path of a port, or a changed port, does not apply yet to a queue that keeps the
old one (R208). -/
def Blk.routeOf (b : Blk) (q : QRef) (a path : Nat) : Option (Nat × Nat × Nat) :=
  (b.rangeOf a).map fun (i, t) =>
    let p := b.keyPortOf q t.routeKey
    match (b.queue q).keepPath.find? fun k => k.1 == p with
    | some k => (p, if path ≠ 0 then path else k.2.getD t.path, i)
    | none => (p, b.pathOf t p path, i)

/-! ## Time -/

/-- Fabric time, ns (R343). -/
def Blk.now (b : Blk) : Nat := b.clock.ft

/-- A fresh free value: its number, and the block with the counter advanced (assumption log 6). -/
def Blk.fresh (b : Blk) : Nat × Blk := (b.freeNo, { b with freeNo := b.freeNo + 1 })

/-! ## Debug trace -/

/-- A trace event falls in the present MGCLK cycle; FREEZE holds the trace from the cycle after its write (R372). -/
def Blk.traceEv (b : Blk) (kind : Nat) (cell : Bool) (detail obj : Nat) : Blk :=
  let c := b.reg 0x17000
  if bit c 31 && !(bit c 30 && b.trace.held) && bit c kind then
    let w := fld kind 29 3 + fld (b1 cell) 28 1 + fld detail 20 8 + fld obj 0 18
    { b with trace := { b.trace with due := b.trace.due ++ [(kind, obj, w)] } }
  else b

/-- Write one trace word at NEXT. -/
def Trace.put (t : Trace) (w : Nat) : Trace :=
  { t with words := tabSet 0 t.words t.next w, next := (t.next + 1) % 192, count := incr 16 t.count }

/-- Put a trace event in its place: ascending kind, then ascending object, then as they came (R372). -/
def traceIns (x : Nat × Nat × Nat) : List (Nat × Nat × Nat) → List (Nat × Nat × Nat)
  | [] => [x]
  | y :: t => if x.1 < y.1 ∨ (x.1 = y.1 ∧ x.2.1 < y.2.1) then x :: y :: t else y :: traceIns x t

/-- An MGCLK cycle ends: the trace writes the first four of its events and counts the rest in MISSED (R372). -/
def Trace.edge (t : Trace) (freeze : Bool) : Trace :=
  let l := t.due.foldl (fun l x => traceIns x l) []
  let t := (l.take 4).foldl (fun (t : Trace) x => t.put x.2.2) t
  { t with missed := (t.missed + (l.length - 4)) % 256, due := [], held := freeze }

/-- Record a trace event about a queue. -/
def Blk.traceQ (b : Blk) (kind : Nat) (q : QRef) (detail : Nat) : Blk := b.traceEv kind q.isCell detail q.num

/-! ## Tags, tokens and packets -/

/-- Tiles a request of `len` bytes at `a` touches (R121). -/
def tilesOf (a len : Nat) : Nat := if len = 0 then 0 else (a + len - 1) / 64 - a / 64 + 1

/-- Beats of a packet (R336): one for each 64 B block its bytes touch, one without data. -/
def Pkt.beats (k : Pkt) : Nat := if k.data.isEmpty then 1 else max 1 (tilesOf k.addr k.data.length)

/-- Data credits a packet needs (R339): none for MRD and CPL. -/
def Pkt.dataCredits (k : Pkt) : Nat := if k.data.isEmpty then 0 else k.beats

/-- Reorder tiles reserved at a port (R23). -/
def Port.tilesUsed (x : Port) : Nat := x.tags.foldl (fun n (_, t) => if t.inUse then n + t.tiles else n) 0

/-- Reorder tiles free at a port: 4,096 less those reserved and those mapped out (R130, R288). -/
def Port.robFree (x : Port) : Nat := 4096 - x.robMapped.length - x.tilesUsed

/-- The lowest free tag of a port (R130). -/
def Port.freeTag (x : Port) : Option Nat :=
  firstFrom (fun t => let r := tabGet {} x.tags t; !r.inUse && !r.withheld) 1024 0

/-- A tag is freed: its generation advances, its tiles are free (R130). -/
def TagRec.freed (r : TagRec) : TagRec := { gen := incr 2 r.gen }

/-- Free tag `t` of a port; an abandoned tag stays out of use (R130). -/
def Port.freeTagAt (x : Port) (t : Nat) (withheld : Bool) : Port :=
  { x with tags := tabSet {} x.tags t { (tabGet {} x.tags t).freed with withheld := withheld } }

/-- Tags on the free list. -/
def Port.tagsFree (x : Port) : Nat := 1024 - x.tags.foldl (fun n (_, t) => if t.inUse || t.withheld then n + 1 else n) 0

/-- A tag and the tiles of a request are free (R23, R135). -/
def Port.canRead (x : Port) (a len : Nat) : Bool := x.freeTag.isSome && decide (tilesOf a len ≤ x.robFree)

/-- Give a read packet its tag and its reorder tiles (R23). -/
def Port.takeTag (x : Port) (k : Pkt) : Port × Pkt :=
  match x.freeTag with
  | some t =>
    if tilesOf k.addr k.len ≤ x.robFree then
      let r : TagRec := tabGet {} x.tags t
      let r' := { r with inUse := true, addr := k.addr, len := k.len, path := k.path, tiles := tilesOf k.addr k.len,
                         got := [], crcs := [], purpose := k.purpose, retried := false }
      ({ x with tags := tabSet {} x.tags t r' }, { k with tag := t, gen := r.gen, tagged := true })
    else (x, k)
  | none => (x, k)

/-- The next write token is not held (R136). -/
def Port.tokFree (x : Port) : Bool := !(x.toks.any fun r => r.tok == x.nextTok)

/-- The channel holds the credits a packet needs (R339). -/
def Port.credited (x : Port) (k : Pkt) : Bool := decide (1 ≤ x.hdrCr) && decide (k.dataCredits ≤ x.dataCr)

/-- The packet can be granted now: credits, for a read its tag, for a write its token (R136, R339). -/
def Port.grantable (x : Port) (k : Pkt) : Bool :=
  x.credited k && (if k.isWrite then x.tokFree else k.tagged || x.canRead k.addr k.len)

/-- Grant a packet of TX_REQ: it takes its credits, a read its tag, a write the next token and its record (R304). -/
def Port.grant (x : Port) (k : Pkt) : Port :=
  let (x, k) := if k.isWrite || k.tagged then (x, k) else x.takeTag k
  let k := if k.isWrite then { k with tok := x.nextTok } else k
  let x := { x with hdrCr := x.hdrCr - 1, dataCr := x.dataCr - k.dataCredits, beats := k.beats, txStarted := true,
                    idle := false, pres := x.pres ++ [k] }
  if k.isWrite then
    { x with nextTok := (x.nextTok + 1) % 4096, toks := x.toks ++ [⟨k.tok, k, false, none⟩] }
  else x

/-- The tiles of a write pass the check just before its payload leaves without its CRC (R10). -/
def Pkt.sound (k : Pkt) : Bool := !k.isWrite || k.crcs == tileCrcs k.addr k.data

/-- The header of a packet of TX_REQ (R337, Table 15-3); a relay write sends QID, INSTANCE and CELL in place of INST and LEN. -/
def Pkt.header (k : Pkt) (inst : Nat) : Nat :=
  let dest := match k.relay with
    | some (qid, i, cell) => fld qid 45 18 + fld (b1 cell) 38 1 + fld i 32 6 + fld 1 5 1
    | none => fld inst 45 6 + fld k.len 32 13
  fld k.addr 64 64 + dest + fld k.dom 24 8 + fld k.path 20 4
    + (if k.isWrite then fld k.tok 8 12 else fld k.gen 18 2 + fld k.tag 8 10) + fld (b1 k.poison) 4 1 + b1 k.isWrite

/-- The header of a completion of TX_CPL (R337): it carries its request's last byte, and begins at its first. -/
def Pkt.cplHeader (k : Pkt) : Nat :=
  fld 1 45 1 + fld k.data.length 32 13 + fld k.gen 18 2 + fld k.tag 8 10 + fld k.cstat 6 2 + (if k.data.isEmpty then 2 else 3)

/-- Grant packet `k` at port `p`, whose state is `x` but for the grant; a read notes the cycle (R180). A write whose tiles fail
the check leaves with the fabric poison bit (DESIGN CHOICE: the spec names no effect there, assumption log 29). -/
def Blk.grantPkt (b : Blk) (p : Nat) (x : Port) (k : Pkt) : Blk :=
  let x := x.grant { k with poison := k.poison || !k.sound }
  let x := match x.pres.getLast? with
    | some k' =>
      let x := { x with txHdr := k'.header b.img.ident.inst }
      if k'.isWrite then x
      else { x with tags := tabSet {} x.tags k'.tag { (tabGet {} x.tags k'.tag) with since := b.clock.cycle } }
    | none => x
  b.modPort p fun _ => x

/-- COOKIE of the entry that a write belongs to, while its queue holds the entry's copy (Table 12-3). -/
def Blk.cookieOf (b : Blk) (u : Purpose) : Nat :=
  let at_ := fun (q : QRef) (pos : Nat) =>
    match (b.queue q).cache.find? fun c => c.pos == pos with | some c => leAt c.bytes 6 2 | none => 0
  match u with
  | .dataTo _ pos _ _ q | .check _ pos q | .record _ pos _ q | .flip q pos => at_ q pos
  | _ => 0

/-- Hand a packet to a port's arbiter. A GATED packet is granted in the cycle of its release (R199) at a packet boundary, if it
can be. -/
def Blk.present (b : Blk) (p : Nat) (k : Pkt) : Blk :=
  let k := { k with order := b.order, since := b.clock.cycle, crcs := if k.isWrite then tileCrcs k.addr k.data else []
                    cookie := if k.cookie = 0 then b.cookieOf k.purpose else k.cookie }
  let b := { b with order := b.order + 1 }
  let (x, k) := if k.isWrite || k.tagged then (b.port p, k) else (b.port p).takeTag k
  if k.svc = .gated && x.beats == 0 && x.grantable k then b.grantPkt p x k
  else b.modPort p fun _ => { x with wait := x.wait ++ [k], idle := false }

/-- A packet with nothing filled in. -/
def pkt0 : Pkt :=
  { isWrite := false, addr := 0, len := 0, data := [], dom := 0, path := 0, ask := 0, tag := 0, gen := 0, tok := 0,
    poison := false, cstat := 0, relay := none, svc := .ctrl, order := 0, since := 0, mover := none, purpose := .reject,
    second := false, tagged := false, cookie := 0, crcs := [] }

/-- Present a read of `len` bytes at `a` for domain `d`; nothing where no range covers it. -/
def Blk.sendRead (b : Blk) (a len d path : Nat) (purpose : Purpose) : Blk :=
  match b.route a path with
  | some (p, path', _) => b.present p { pkt0 with addr := a, len := len, dom := d, path := path', ask := path, purpose := purpose }
  | none => b

/-- Present a posted write of class CTRL; nothing where no range covers it. -/
def Blk.sendWrite (b : Blk) (a : Nat) (data : List Byte) (d path : Nat) (purpose : Purpose) (second : Bool) : Blk :=
  match b.route a path with
  | some (p, path', _) => b.present p { pkt0 with isWrite := true, addr := a, len := data.length, data := data,
                                                  dom := d, path := path', ask := path, purpose := purpose,
                                                  second := second }
  | none => b

/-- A flush read: a zero-length read on a given pair, its address aligned to 4 B (R93, R337). -/
def Blk.sendFlush (b : Blk) (port path a d : Nat) (purpose : Purpose) : Blk :=
  b.present port { pkt0 with addr := a / 4 * 4, dom := d, path := path, purpose := purpose }

/-! ## Event sources and messages -/

/-- Apply one event of a source: PENDING, SEQ, EVT_OCC and each port's count (R64, R264). -/
def Blk.markEvent (b : Blk) (g i : Nat) : Blk :=
  let x := tabGet {} b.mg.groups g
  let x' := { x with seq := incr 8 x.seq, pending := Nat.lor x.pending (2 ^ i), occ := incr 32 x.occ }
  let b := { b with mg := { b.mg with groups := tabSet {} b.mg.groups g x' } }
  let up := fun (s : PortSide) => { s with evtCount := tabSet 256 s.evtCount g (satInc 256 (tabGet 256 s.evtCount g)) }
  (b.modSide .mpa up).modSide .mpb up

/-- The vector-table entry (R274). -/
def Blk.vector (b : Blk) (v : Nat) : Vector4 := tabGet {} b.vec.table v

/-- Change a vector-table entry. -/
def Blk.modVector (b : Blk) (v : Nat) (f : Vector4 → Vector4) : Blk :=
  { b with vec := { b.vec with table := tabSet {} b.vec.table v (f (b.vector v)) } }

/-- Count a dropped message (R275). -/
def Blk.vecErr (b : Blk) : Blk := { b with vec := { b.vec with err := incr 16 b.vec.err } }

/-- Present the message of a vector, second or first time (R275). -/
def Blk.postMsg (b : Blk) (v dom : Nat) (second : Bool) : Blk :=
  let e := b.vector v
  b.sendWrite e.addr (leBytes 4 e.data) e.dom 0 (.message v dom) second

/-- Present a message behind the write it announces: at once on the same pair, else behind a flush read (R279). -/
def Blk.orderMsg (b : Blk) (v dom : Nat) (after : Option (Nat × Pkt)) : Blk :=
  match after with
  | none => b.postMsg v dom false
  | some (port, k) =>
    match b.route (b.vector v).addr 0 with
    | some (p, path, _) =>
      if p = port ∧ path = k.path then b.postMsg v dom false
      else
        let id := b.sched.msgSeq
        (b.modSched fun s => { s with msgSeq := id + 1, msgWait := s.msgWait ++ [⟨id, v, dom, k⟩] }).sendFlush
          port k.path k.addr k.dom (.msgFlush id)
    | none => b.postMsg v dom false

/-- A message falls due (R275): dropped and counted, with `err` raising VEC_ERR; held in PEND; or presented. -/
def Blk.dueWith (err : Blk → Blk) (b : Blk) (v dom : Nat) (after : Option (Nat × Pkt)) : Blk :=
  let e := b.vector v
  if !e.valid || (dom ≠ 256 && e.dom ≠ dom) then err b.vecErr
  else if e.mask then b.modVector v fun e => { e with pend := true }
  else b.orderMsg v dom after

/-- The vector is in the microsecond after a message of the domain (R278). -/
def Blk.coalescing (b : Blk) (v dom : Nat) : Bool := b.sched.coalesce.any fun c => c.v == v && c.dom == dom

/-- A cause of a coalescing message: the message, or a mark for the end of the running microsecond (R278). -/
def Blk.causeWith (err : Blk → Blk) (b : Blk) (v dom : Nat) (after : Option (Nat × Pkt)) : Blk :=
  if b.coalescing v dom then
    b.modSched fun s => { s with coalesce := s.coalesce.map fun c =>
      if c.v = v ∧ c.dom = dom then { c with more := true, after := after } else c }
  else
    let b := b.modSched fun s => { s with coalesce := s.coalesce ++ [⟨v, dom, false, none⟩] }
    b.dueWith err v dom after

/-- An event of source `i` of group `g` (R264), with the group's message under R265 and R278. A dropped message raises
VEC_ERR in turn, whose own message coalesces; the first argument bounds that chain. -/
def Blk.raiseN : Nat → Blk → Nat → Nat → Blk
  | 0, b, g, i => b.markEvent g i
  | n + 1, b, g, i =>
    let b := b.markEvent g i
    let r := b.reg (0x3400 + 4 * g)
    if bit r 31 && bit (b.reg (0x3300 + 4 * g)) i && b.on 1 then
      b.causeWith (fun b => Blk.raiseN n b 0 13) (bits r 27 16) 256 none
    else b

/-- Raise event source `i` of group `g`. -/
def Blk.raise (b : Blk) (g i : Nat) : Blk := Blk.raiseN 4 b g i

/-- A cause of an event-ring, admin-ring or group message. -/
def Blk.cause (b : Blk) (v dom : Nat) (after : Option (Nat × Pkt)) : Blk :=
  b.causeWith (fun b => b.raise 0 13) v dom after

/-- A message falls due without coalescing: a queue's message, a STORE, the end of a microsecond. -/
def Blk.due (b : Blk) (v dom : Nat) (after : Option (Nat × Pkt)) : Blk :=
  b.dueWith (fun b => b.raise 0 13) v dom after

/-- Drop a message and count it (R275). -/
def Blk.dropMsg (b : Blk) : Blk := b.vecErr.raise 0 13

/-- Member `i` of a source family that starts in group `g` (R263). -/
def Blk.raiseAt (b : Blk) (g i : Nat) : Blk := b.raise (g + i / 16) (i % 16)

/-- Domain `d` is asleep (Table 12-7). -/
def Blk.asleep (b : Blk) (d : Nat) : Bool := bit (b.reg (0xB020 + 4 * (d / 32))) (d % 32)

/-- A message of a domain's event ring or admin ring, with DOM_WAKE while the domain sleeps (R278, R280). -/
def Blk.domCause (b : Blk) (v d : Nat) (after : Option (Nat × Pkt)) : Blk :=
  let b := if b.asleep d && !b.coalescing v d then b.raiseAt 48 d else b
  b.cause v d after

/-! ## Event records -/

/-- OBJ of a record that names a queue (Table 12-3). -/
def objOf : QRef → Nat
  | .dom n => n
  | .cell n => 2 ^ 30 + n

/-- The 64 bytes of an event record (Table 12-3). -/
def recordBytes (rtype phase status detail obj pos cookie src dst time rseq : Nat) (info : List Byte) : List Byte :=
  leBytes 1 rtype ++ leBytes 1 phase ++ leBytes 1 status ++ leBytes 1 detail ++ leBytes 4 obj ++ leBytes 4 pos
    ++ leBytes 2 cookie ++ leBytes 2 0 ++ leBytes 4 src ++ leBytes 4 dst ++ leBytes 8 time ++ leBytes 4 rseq
    ++ (info ++ leBytes 28 0).take 28

/-- Lap parity of a position in a ring of `size` entries (R78). -/
def lapOf (pos size : Nat) : Nat := if pos % (2 * size) < size then 1 else 0

/-- Room for a record at the write position (R271). -/
def EvRing.room (r : EvRing) : Bool :=
  let size := 2 ^ r.exp
  decide ((r.wpos + 2 * size - r.rpos) % (2 * size) < size)

/-- Write 64 bytes at the ring's write position and advance it (R267, R268). -/
def Blk.putRecord (b : Blk) (d : Nat) (mk : Nat → List Byte) : Blk :=
  match (b.domain d).ring with
  | some r =>
    let size := 2 ^ r.exp
    let b := b.modDomain d fun x => { x with ring := some { r with wpos := (r.wpos + 1) % (2 * size) } }
    b.sendWrite (r.base + 64 * (r.wpos % size)) (mk (lapOf r.wpos size)) d 0 (.event d) false
  | none => b

/-- A record finds no room: it is lost and opens or lengthens the loss run (R271). -/
def Blk.loseRecord (b : Blk) (d rseq status rtype : Nat) : Blk :=
  let x := b.domain d
  let isHalt := rtype = 1 ∨ rtype = 3
  let run : LossRun := match x.loss with
    | some l => { l with count := l.count + 1, lastTime := b.now, lastStatus := status,
                         halts := if isHalt then satInc 65535 l.halts else l.halts }
    | none => ⟨1, rseq, b.now, b.now, status, status, if isHalt then 1 else 0⟩
  let first := x.loss.isNone
  let b := b.modDomain d fun x => { x with loss := some run, total := incr 32 x.total, lostCnt := incr 16 x.lostCnt,
                                           full := true }
  if first then b.raiseAt 32 d else b

/-- The OVERFLOW record that ends a loss run (Tables 12-4 and 12-5). -/
def Blk.overflowRecord (b : Blk) (d : Nat) (l : LossRun) : Blk :=
  let info := leBytes 4 l.count ++ leBytes 8 l.firstTime ++ leBytes 8 l.lastTime ++ leBytes 1 l.firstStatus
    ++ leBytes 1 l.lastStatus ++ leBytes 2 l.halts ++ leBytes 4 (b.domain d).total
  let t := b.now
  (b.putRecord d fun ph => recordBytes 4 ph 0x60 0 0 0 0 0 0 t l.firstSeq info).modDomain d fun x =>
    { x with loss := none }

/-- Generate an event record of domain `d` (R268, R269, R271). Its RSEQ is the number of records generated for the
domain before it. DEDUCED: assumption log 9. -/
def Blk.genRecord (b : Blk) (d : Nat) (q : QRef) (r : Report) : Blk :=
  let rseq := (b.domain d).rseq
  let b := b.modDomain d fun x => { x with rseq := incr 32 rseq }
  let t := b.now
  let put := fun (b : Blk) => (b.putRecord d fun ph =>
    recordBytes r.rtype ph r.status r.detail (objOf q) r.pos r.cookie r.srcOfs r.dstOfs t rseq r.info).modDomain d
      fun x => { x with full := false }
  match (b.domain d).ring with
  | some e =>
    if e.room then
      match (b.domain d).loss with
      | some l =>
        let b := b.overflowRecord d l
        match (b.domain d).ring with
        | some e' => if e'.room then put b else b.loseRecord d rseq r.status r.rtype
        | none => b
      | none => put b
    else b.loseRecord d rseq r.status r.rtype
  | none => b.loseRecord d rseq r.status r.rtype

end Sys2Proof.Machine
end

