-- ==== Sys2Proof/Machine/Operands.lean ====
section
/-! DEFINITION. The operand forms of descriptors: fields, form check, DCRC, reshape codes, and where the bytes of an
entry lie. -/

namespace Sys2Proof.Machine
open Sys2Proof

/-! ## Kinds -/

/-- KIND codes (Table 4-3). -/
def kCopy : Nat := 0x01
def kStride : Nat := 0x02
def kGather : Nat := 0x03
def kScatter : Nat := 0x04
def kFill : Nat := 0x05
def kCheck : Nat := 0x06
def kMcast : Nat := 0x07
def kSnap : Nat := 0x08
def kAscat : Nat := 0x09
def kWait : Nat := 0x0A
def kRelay : Nat := 0x0B
def kFence : Nat := 0x0C
def kNop : Nat := 0x0D
def kIndirect : Nat := 0x0E
def kFifoIn : Nat := 0x10
def kFifoOut : Nat := 0x11

/-- The 64 bytes of a tile, decoded (Tables 4-1 and 4-2). Missing bytes read zero. -/
def decodeDesc (bs : List Byte) : Desc :=
  let c := leAt bs 0 8
  { raw := bs, kind := bits c 7 0, own := bit c 8, first := bit c 9, last := bit c 10, fence := bit c 11,
    irq := bit c 12, durable := bit c 13, norepSrc := bit c 14, norepDst := bit c 15, path := bits c 19 16,
    reshape := bits c 23 20, win := bit c 24, dcrcEn := bit c 25, resv := bits c 31 26, dcrc := bits c 47 32,
    cookie := bits c 63 48, src := leAt bs 8 8, dst := leAt bs 16 8, len := leAt bs 24 4, aux := leAt bs 28 4 }

/-- The DCRC of a descriptor: bytes 4 and 5 and OWN taken as zero (R76). -/
def descCrc (bs : List Byte) : Nat :=
  let b1' := BitVec.ofNat 8 (leAt bs 1 1 / 2 * 2)
  crc16 (slice bs 0 1 ++ [b1'] ++ slice bs 2 2 ++ [0, 0] ++ slice bs 6 58)

/-- DCRC matches, or is not asked for (R77). -/
def dcrcOk (d : Desc) : Bool := !d.dcrcEn || decide (descCrc d.raw = d.dcrc)

/-- Input group size of a RESHAPE code; 0 for a reserved one (Table 4-7). -/
def groupIn (code : Nat) : Nat :=
  match code with
  | 0 => 1 | 1 => 5 | 2 => 3 | 3 => 8 | 4 => 4 | 5 => 2 | 6 => 4 | 7 => 8 | _ => 0

/-- Output group size of a RESHAPE code (Table 4-7). -/
def groupOut (code : Nat) : Nat :=
  match code with
  | 0 => 1 | 1 => 8 | 2 => 4 | 3 => 5 | 4 => 3 | 5 => 2 | 6 => 4 | 7 => 8 | _ => 1

/-- Bytes that `n` source bytes become (R75). -/
def outLen (code n : Nat) : Nat := if groupIn code = 0 then n else n / groupIn code * groupOut code

/-- Source bytes that `n` output bytes stand for, whole groups only. -/
def inLen (code n : Nat) : Nat := n / groupOut code * groupIn code

/-- Kinds of Table 4-3. -/
def kindKnown (k : Nat) : Bool := (1 ≤ k && k ≤ 0x0E) || k == 0x10 || k == 0x11

/-- Kinds whose WIN column reads "no". -/
def winForbidden (k : Nat) : Bool := k == kStride || k == kFence || k == kIndirect

/-- Kinds whose WIN column reads "required". -/
def winRequired (k : Nat) : Bool := k == kSnap || k == kAscat

/-- Kinds that allow RESHAPE. -/
def reshapeAllowed (k : Nat) : Bool :=
  [kCopy, kStride, kGather, kScatter, kMcast, kFifoIn, kFifoOut].contains k

/-- Kinds that move data: LEN 0 is invalid on them. -/
def dataKind (k : Nat) : Bool :=
  [kCopy, kStride, kGather, kScatter, kFill, kCheck, kMcast, kAscat, kIndirect, kFifoIn, kFifoOut].contains k

/-- Counts of a STRIDE entry (Table 4-5). -/
def strideCnt (d : Desc) (i : Nat) : Nat :=
  match i with
  | 0 => bits d.aux 15 0 | 1 => bits d.aux 31 16 | 2 => leAt d.raw 0x20 2 | _ => leAt d.raw 0x22 2

/-- Source stride of dimension 1 to 3 (Table 4-5). -/
def srcStride (d : Desc) (i : Nat) : Int := signed 32 (leAt d.raw (0x20 + 4 * i) 4)

/-- Destination stride of dimension 1 to 3 (Table 4-5). -/
def dstStride (d : Desc) (i : Nat) : Int := signed 32 (leAt d.raw (0x2C + 4 * i) 4)

/-- LEN keeps the rule of its kind and of its RESHAPE code (R71, R73, R75, R140). -/
def lenOk (d : Desc) : Bool :=
  !(dataKind d.kind && d.len == 0)
    && !(d.kind == kRelay && d.len != 64)
    && !(d.kind == kStride && d.len != strideCnt d 0 * strideCnt d 1 * strideCnt d 2 * strideCnt d 3)
    && (d.reshape == 0 || d.len % groupIn d.reshape == 0)
    && !(d.kind == kStride && d.reshape != 0 && strideCnt d 0 % groupIn d.reshape != 0)

/-- No field of Tables 4-3 to 4-7 holds a value marked invalid. -/
def fieldsOk (d : Desc) : Bool :=
  let n := bits d.aux 15 0
  !((d.kind == kGather || d.kind == kScatter || d.kind == kIndirect) && n == 0)
    && !(d.kind == kMcast && (bits d.aux 3 0 == 0 || 8 < bits d.aux 3 0 || (3 < bits d.aux 3 0 && !(bit d.aux 4))))
    && !(d.kind == kFifoOut && bits d.aux 1 0 == 3)
    && !(d.kind == kWait && (bits d.aux 1 0 == 3 || (bits d.aux 1 0 == 1 && 63 < bits d.aux 15 4)
          || (bits d.aux 1 0 == 0 && !d.win)))
    && !(d.kind == kIndirect && !([1, 5, 6].contains (leAt d.raw 0x20 1)))
    && !(d.win && (bits (leAt d.raw 0x3A 1) 5 4 == 3 || bits (leAt d.raw 0x3A 1) 7 6 == 3))

/-- The form check of R70, in its order: the REASON of Table 13-2 that fails first. `indirectOk` says whether the queue
accepts INDIRECT; `prevLast` whether the previous entry carried LAST or none came before (R83). -/
def formReason (d : Desc) (indirectOk prevLast : Bool) : Option Nat :=
  if !kindKnown d.kind then some 1
  else if d.resv ≠ 0 then some 2
  else if (d.win && winForbidden d.kind) || (!d.win && winRequired d.kind) then some 3
  else if (d.reshape ≠ 0 && !reshapeAllowed d.kind) || groupIn d.reshape = 0 then some 4
  else if !lenOk d then some 5
  else if !fieldsOk d then some 6
  else if d.kind = kIndirect && !indirectOk then some 7
  else if d.first ≠ prevLast then some 8
  else none

/-! ## Reshape -/

/-- Split a packed number into `n` words of `w` bits, each widened to two bytes (codes 0x1, 0x2). -/
def unpackWords (w : Nat) : Nat → Nat → List Byte
  | 0, _ => []
  | n + 1, g => leBytes 2 (g % 2 ^ w) ++ unpackWords w n (g / 2 ^ w)

/-- Pack words of two bytes into `w` bits each (codes 0x3, 0x4). -/
def packWords (w : Nat) : List Byte → Nat
  | a :: c :: t => (a.toNat + 256 * c.toNat) % 2 ^ w + 2 ^ w * packWords w t
  | _ => 0

/-- One output group (Table 6-4). -/
def reshapeGroup (code : Nat) (g : List Byte) : List Byte :=
  match code with
  | 1 => unpackWords 10 4 (le g)
  | 2 => unpackWords 12 2 (le g)
  | 3 => leBytes 5 (packWords 10 g)
  | 4 => leBytes 3 (packWords 12 g)
  | 5 | 6 | 7 => g.reverse
  | _ => g

/-- Reshape the whole groups at the front of a stream with poison marks; what is left is an unfinished group. -/
def reshapeStream (code : Nat) : Nat → List (Byte × Bool) → List (Byte × Bool) × List (Byte × Bool)
  | 0, l => ([], l)
  | fuel + 1, l =>
    let n := groupIn code
    if code = 0 then (l, [])
    else if l.length < n then ([], l)
    else
      let g := l.take n
      let p := g.any (·.2)
      let (o, r) := reshapeStream code fuel (l.drop n)
      ((reshapeGroup code (g.map (·.1))).map (fun x => (x, p)) ++ o, r)

/-! ## Where the bytes of an entry lie -/

/-- An address as 64 bits. -/
def addr64 (x : Int) : Nat := (x % (2 ^ 64 : Nat)).toNat

/-- Address of row `r` of a STRIDE side, rows counted with i1 fastest (R73). -/
def rowAddr (base : Nat) (st : Nat → Int) (c1 c2 r : Nat) : Nat :=
  let i1 := r % c1
  let i2 := r / c1 % c2
  let i3 := r / c1 / c2
  addr64 ((base : Int) + (i1 : Int) * st 1 + (i2 : Int) * st 2 + (i3 : Int) * st 3)

/-- Bytes from row `r` on that join end to end, at least up to `want` (Table 6-3). -/
def joinRows (rowLen : Nat) (at_ : Nat → Nat) (rows want : Nat) : Nat → Nat → Nat → Nat
  | 0, _, acc => acc
  | fuel + 1, r, acc =>
    if want ≤ acc ∨ rows ≤ r + 1 then acc
    else if at_ (r + 1) = at_ r + rowLen then joinRows rowLen at_ rows want fuel (r + 1) (acc + rowLen)
    else acc

/-- Address and contiguous length at offset `o` of a STRIDE side with rows of `rowLen` bytes. -/
def strideAt (d : Desc) (base : Nat) (st : Nat → Int) (rowLen o : Nat) : Nat × Nat :=
  let c1 := strideCnt d 1
  let c2 := strideCnt d 2
  let rows := c1 * c2 * strideCnt d 3
  let r := o / rowLen
  let at_ := rowAddr base st c1 c2
  (at_ r + o % rowLen, joinRows rowLen at_ rows 8192 8192 r (rowLen - o % rowLen))

/-- The fragment that holds offset `o` of the concatenated fragments: its index, the fragment and the offset in it. -/
def fragAt (side : Frag → Nat) : List Frag → Nat → Nat → Option (Nat × Nat × Nat)
  | [], _, _ => none
  | f :: t, i, o => if o < f.len then some (i, side f + o, f.len - o) else fragAt side t (i + 1) (o - f.len)

/-- Destination of an entry with several: destination `k` of MCAST or FIFO_OUT (Table 4-3). -/
def extraDst (e : Exec) (k : Nat) : Nat :=
  if e.desc.kind = kMcast && bit e.desc.aux 4 then ((e.frags[k]?).map (·.dst)).getD 0
  else if k = 0 then e.desc.dst else if k = 1 then leAt e.desc.raw 0x20 8 else leAt e.desc.raw 0x28 8

/-- How many destinations an entry has (R122, R129). -/
def dstCount (d : Desc) : Nat :=
  if d.kind = kMcast then bits d.aux 3 0 else if d.kind = kFifoOut then 1 + bits d.aux 1 0 else 1

/-- Address and contiguous length of the source at offset `o` (R141). -/
def srcAt (e : Exec) (o : Nat) : Option (Nat × Nat) :=
  let d := e.desc
  if d.len ≤ o then none
  else if d.kind = kStride then some (strideAt d d.src (srcStride d) (strideCnt d 0) o)
  else if d.kind = kGather || d.kind = kIndirect then (fragAt (·.src) e.frags 0 o).map fun (_, a, n) => (a, n)
  else some (d.src + o, d.len - o)

/-- Address and contiguous length of destination `k` at output offset `o`, of `total` output bytes (R141). -/
def dstAt (e : Exec) (total k o : Nat) : Option (Nat × Nat) :=
  let d := e.desc
  if total ≤ o then none
  else if d.kind = kStride then some (strideAt d d.dst (dstStride d) (outLen d.reshape (strideCnt d 0)) o)
  else if d.kind = kScatter || d.kind = kIndirect then (fragAt (·.dst) e.frags 0 o).map fun (_, a, n) => (a, n)
  else some (extraDst e k + o, total - o)

/-- The bounding box of a STRIDE side: its lowest address and its length (R117). -/
def strideBox (d : Desc) (base : Nat) (st : Nat → Int) (rowLen : Nat) : Int × Nat :=
  let ext := fun i => ((strideCnt d i : Int) - 1) * st i
  let lo := min 0 (ext 1) + min 0 (ext 2) + min 0 (ext 3)
  let hi := max 0 (ext 1) + max 0 (ext 2) + max 0 (ext 3)
  ((base : Int) + lo, (hi - lo).toNat + rowLen)

/-- Length of the first request of a run of `len` bytes at `a` (R119). -/
def Blk.cutLen (b : Blk) (a len limit : Nat) : Nat :=
  let bd := b.img.ident.boundary
  let line := (a / bd + 1) * bd
  let tend := match b.rangeOf a with
    | some (_, t) => t.base + t.pages * 4096
    | none => line
  min (min (limit - a % 64) (min line tend - a)) len

end Sys2Proof.Machine
end

