-- ==== Sys2Proof/Machine/Queue.lean ====
section
/-! DEFINITION. Queues: positions, Chervil's reads and copies, settling and publication, interrupt requests,
halting, stops, binding. -/

namespace Sys2Proof.Machine
open Sys2Proof

/-! ## Positions -/

/-- Entries of the ring. -/
def Queue.size (x : Queue) : Nat := 2 ^ x.cfg.ringExp

/-- Positions run modulo twice the size (R78). -/
def Queue.span (x : Queue) : Nat := 2 * x.size

/-- `a - b` modulo the span. -/
def Queue.dist (x : Queue) (a b : Nat) : Nat := (a % x.span + x.span - b % x.span) % x.span

/-- The position after `p`. -/
def Queue.next (x : Queue) (p : Nat) : Nat := (p + 1) % x.span

/-- Address of the entry at a position (R78). -/
def Queue.entryAddr (x : Queue) (p : Nat) : Nat := x.cfg.ringBase + 64 * (p % x.size)

/-- OWN of an entry the block owns at a position (R79, R82). -/
def Queue.expectedOwn (x : Queue) (p : Nat) : Bool := x.cfg.ownback || lapOf p x.size == 1

/-- Chervil's copy at a position (R89). -/
def Queue.copyAt (x : Queue) (p : Nat) : Option (List Byte) := (x.cache.find? fun c => c.pos == p).map (·.bytes)

/-- Drop the copy at a position. -/
def Queue.dropCopy (x : Queue) (p : Nat) : Queue := { x with cache := x.cache.filter fun c => c.pos != p }

/-- Store a copy in Chervil tile `loc`, with the CRC-32C its port computed (R9). -/
def Queue.putCopy (x : Queue) (p loc : Nat) (bs : List Byte) : Queue :=
  { x with cache := ⟨p, bs, tileCrc bs fullMask, loc⟩ :: (x.dropCopy p).cache }

/-- The tile's CRC-32C matches (R10). -/
def Copy.ok (c : Copy) : Bool := c.crc == tileCrc c.bytes fullMask

/-- OWN of a copy. -/
def ownOf (bs : List Byte) : Bool := bit (leAt bs 1 1) 0

/-- The copy at a position as a read of its tile gives it: none where the CRC fails, since the entry is then read again from
its ring (R10, R285). -/
def Queue.goodAt (x : Queue) (p : Nat) : Option (List Byte) := ((x.cache.find? fun c => c.pos == p).filter Copy.ok).map (·.bytes)

/-- The copy shows that the block owns the entry at its position (R79, R89). -/
def Queue.owned (x : Queue) (p : Nat) : Bool :=
  match x.goodAt p with
  | some c => ownOf c == x.expectedOwn p
  | none => false

/-- The position lies between the head index and the known tail (R88). -/
def Queue.known (x : Queue) (p : Nat) : Bool := decide (x.dist p x.run.head < x.dist x.run.tail x.run.head)

/-! ## Changes of configuration (R14, Table 5-4) -/

/-- Apply the masked settings of MODIFY_QUEUE; `now` picks the moderation fields, which take effect at once, or the
others (R14, R277). POLL and PREF restart the queue's adaptation (R318). -/
def Queue.modify (x : Queue) (mask : Nat) (p : List Byte) (now : Bool) : Queue :=
  let c := x.cfg
  let flags := leAt p 0x28 4
  if now then
    if bit mask 5 then
      let m := leAt p 0x31 1
      { x with cfg := { c with modCount := leAt p 0x30 1, modMode := bits m 1 0, modPu := bits m 5 2, sleepHold := bit m 6,
                               modTime := leAt p 0x32 2 } }
    else x
  else
    let c := if bit mask 0 then { c with poll := leAt p 0x22 2 } else c
    let c := if bit mask 1 then { c with vec := bits (leAt p 0x24 2) 11 0, novec := bit flags 17 } else c
    let c := if bit mask 2 then { c with chainTmo := leAt p 0x26 2 } else c
    let c := if bit mask 3 then { c with pref := leAt p 0x21 1 } else c
    let c := if bit mask 4 then { c with qweight := leAt p 0x2C 1 } else c
    let c := if bit mask 6 then { c with poisonStop := bit flags 14 } else c
    { x with cfg := c, poll := if bit mask 0 then c.poll else x.poll, pref := if bit mask 3 then c.pref else x.pref }

/-- The deferred changes take effect in order: the entry in execution has ended (R14). -/
def Queue.applyDeferred (x : Queue) : Queue :=
  { x.deferred.foldl (fun x (mask, p) => x.modify mask p false) x with deferred := [] }

/-! ## Stops in force -/

/-- Strength of a stop mode (R253). -/
def StopMode.strength : StopMode → Nat
  | .atPhase => 1 | .drain => 2 | .pause => 3 | .abort => 4 | .disable => 5

/-- A plain stop of a mode. -/
def stopOf (m : StopMode) : Stop := ⟨m, 0, 0, 0⟩

/-- The stronger of two stops; the first where they are equal. -/
def stronger (a c : Option Stop) : Option Stop :=
  match a, c with
  | some x, some y => if x.mode.strength < y.mode.strength then some y else some x
  | none, y => y
  | x, none => x

/-- The strongest stop at any level that holds the queue (R253, Table 11-1, R19, R286). -/
def Blk.levels (b : Blk) (q : QRef) : Option Stop :=
  let x := b.queue q
  let movs := b.movers.foldl (fun a (_, v) => if v.stopped.contains q then stronger a v.stop else a) none
  let ports := b.ports.foldl (fun a (_, v) => if v.reached.contains q then stronger a v.stop else a) none
  let own := if b.clock.rangePause || b.sched.critPause then some (stopOf .pause) else none
  stronger (stronger (stronger x.stop (b.domain x.cfg.dom).stop) (stronger movs ports))
    (stronger b.sched.instStop own)

/-- The stop a queue acts on: a stop it has begun to act on is never weakened (R253). -/
def Blk.stopOn (b : Blk) (q : QRef) : Option Stop := stronger (b.queue q).acting (b.levels q)

/-- A stop above queue level holds the queue (R252). -/
def Blk.heldAbove (b : Blk) (q : QRef) : Bool :=
  let x := b.queue q
  (b.domain x.cfg.dom).stop.isSome || b.movers.any (fun (_, v) => v.stop.isSome && v.stopped.contains q)
    || b.ports.any (fun (_, v) => v.stop.isSome && v.reached.contains q)
    || b.sched.instStop.isSome || b.clock.rangePause || b.sched.critPause

/-! ## Chervil -/

/-- Chervil may read the ring: its domains powered, no warm restart, the queue neither stopped nor spilled (R39, R250). -/
def Blk.mayFetch (b : Blk) (q : QRef) : Bool :=
  let x := b.queue q
  decide (b.ldr.state ≠ .warmrst) && b.on 1 && b.on 2 && x.run.polling
    && (match x.run.phase with | .idle | .bound | .stopping => true | _ => false)

/-- Positions of a run of consecutive slots that does not pass the ring's end. -/
def runLen (x : Queue) : List Nat → Nat → Nat
  | [], _ => 0
  | p :: t, want => if p = want then (if (p + 1) % x.size = 0 then 1 else 1 + runLen x t (x.next p)) else 0

/-- Split positions into runs of consecutive slots (R89). -/
def posRuns (x : Queue) : Nat → List Nat → List (Nat × Nat)
  | 0, _ => []
  | _, [] => []
  | fuel + 1, p :: t =>
    let n := 1 + (if (p + 1) % x.size = 0 then 0 else runLen x t (x.next p))
    (p, n) :: posRuns x fuel (t.drop (n - 1))

/-- Read `n` slots from position `p`, cut under the port limits (R89, R119). -/
def Blk.readSlots (b : Blk) (q : QRef) : Nat → Nat → Nat → Blk
  | 0, _, _ => b
  | fuel + 1, p, n =>
    if n = 0 then b
    else
      let x := b.queue q
      let a := x.entryAddr p
      let k := max 1 (min n (b.cutLen a (64 * n) b.img.ident.mrrs / 64))
      Blk.readSlots (b.sendRead a (64 * k) x.cfg.dom 0 (.ring q p)) q fuel ((p + k) % x.span) (n - k)

/-- The prefetch depth in force: PREF_MAX for a cell queue, PREF_MIN for a domain queue at T3 and above (R314, R324). -/
def Blk.depthOf (b : Blk) (q : QRef) : Nat :=
  if q.isCell then b.img.policy.prefMax else if 3 ≤ b.sup.applied then b.img.policy.prefMin else (b.queue q).pref

/-! ## Chervil's tiles (R3, R15, R285, R288) -/

/-- Change what the epoch has shown of a queue. -/
def Blk.modEp (b : Blk) (q : QRef) (f : QEpoch → QEpoch) : Blk := b.modQueue q fun x => { x with ep := f x.ep }

/-- A poll ends with what it found (Table 14-1). -/
def QEpoch.pollEnd (e : QEpoch) : QEpoch :=
  { e with empty := e.empty + b1 (e.found == 0), big := e.big + b1 (decide (8 < e.found))
           idleRun := if e.found = 0 then e.idleRun + 1 else 0, poll := false, found := 0 }

/-- Some read of the queue's ring waits at a port or is out. -/
def Blk.ringOut (b : Blk) (q : QRef) : Bool :=
  let mine := fun (u : Purpose) => match u with | .ring q' _ => q' == q | _ => false
  b.ports.any fun (_, v) => v.wait.any (fun k => mine k.purpose) || v.tags.any fun (_, t) => t.inUse && mine t.purpose

/-- The queue's open poll ends once no read of its ring is out. -/
def Blk.pollCheck (b : Blk) (q : QRef) : Blk :=
  if (b.queue q).ep.poll && !b.ringOut q then b.modEp q QEpoch.pollEnd else b

/-- The copies of every queue. -/
def Blk.copies (b : Blk) : List (QRef × Copy) :=
  (b.cells.flatMap fun (n, x) => x.cache.map fun c => (QRef.cell n, c))
    ++ b.queues.flatMap fun (n, x) => x.cache.map fun c => (QRef.dom n, c)

/-- The copy occupies a pinned tile of the Mews, not one of the cache (R15, R361). -/
def Blk.pinned (b : Blk) (q : QRef) (p : Nat) : Bool := b.sched.mews.any fun t => t.q == q && t.pos == p

/-- Cache tiles: 16,384 less the Mews's share and those mapped out (R3, R15, R288). -/
def Blk.cacheTiles (b : Blk) : Nat := 16384 - b.img.ident.mewsTiles - b.sched.chervilMapped.length

/-- Cache tiles in use. -/
def Blk.cacheUsed (b : Blk) : Nat := (b.copies.filter fun (q, c) => !b.pinned q c.pos).length

/-- The copy that gives its tile up when the cache is full: one beyond its queue's known tail, else a known one that no local
buffer has taken. The spec names no choice: DESIGN CHOICE, log 29. -/
def Blk.cacheVictim (b : Blk) : Option (QRef × Copy) :=
  let free := b.copies.filter fun (q, c) => !b.pinned q c.pos
  (free.find? fun (q, c) => !(b.queue q).known c.pos).orElse fun _ =>
    free.find? fun (q, c) => let x := b.queue q; decide (x.dist x.run.fetched x.run.head ≤ x.dist c.pos x.run.head)

/-- A Chervil tile for one more copy; none where the cache is full of copies that local buffers have taken. -/
def Blk.takeTile (b : Blk) : Option (Nat × Blk) :=
  if b.cacheUsed < b.cacheTiles then
    let used := b.copies.map (·.2.loc) ++ b.sched.chervilMapped
    (firstFrom (fun l => !used.contains l) 16384 0).map fun l => (l, b)
  else b.cacheVictim.map fun (q, c) => (c.loc, (b.modQueue q fun x => x.dropCopy c.pos).modEp q fun e => { e with unused := e.unused + 1 })

/-- Note the cache tiles in use, for the least free count of the epoch (Table 14-1). -/
def Blk.noteCache (b : Blk) : Blk := b.modSched fun s => { s with cacheMax := max s.cacheMax b.cacheUsed }

/-- A Chervil tile has failed its CRC: the copy is dropped, and a tile that fails twice is mapped out with CHERVIL_TILE (R285,
R288). -/
def Blk.badCopy (b : Blk) (q : QRef) (c : Copy) : Blk :=
  let b := b.modQueue q fun x => x.dropCopy c.pos
  if b.sched.chervilSuspect.contains c.loc then
    (b.modSched fun s => { s with chervilSuspect := s.chervilSuspect.filter (· != c.loc)
                                  chervilMapped := addOnce c.loc s.chervilMapped }).raise 5 4
  else b.modSched fun s => { s with chervilSuspect := addOnce c.loc s.chervilSuspect }

/-- The copies of the queue whose tiles fail are dropped before its ring is read (R285). -/
def Blk.dropBad (b : Blk) (q : QRef) : Blk :=
  ((b.queue q).cache.filter fun c => !c.ok).foldl (fun b c => b.badCopy q c) b

/-! ## Reads of a ring -/

/-- Read every slot that a poll, or a nudge with its tail position, wants and no usable copy is held for (R86, R89). -/
def Blk.ringRead (b : Blk) (q : QRef) (nudge : Option Nat) : Blk :=
    let b := b.dropBad q
    let x := b.queue q
    let room := x.size - x.dist x.run.tail x.run.head
    let want := match nudge with
      | some t => if x.dist t x.run.tail ≤ room then max 1 (x.dist t x.run.tail) else 1
      | none => 1
    let n := min (min (want + b.depthOf q) room) 64
    let unfetched := if x.known x.run.fetched then x.dist x.run.tail x.run.fetched else 0
    let known := (List.range unfetched).map fun i => (x.run.fetched + i) % x.span
    let spec := (List.range n).map fun i => (x.run.tail + i) % x.span
    (posRuns x 128 ((known ++ spec).filter fun p => !x.owned p)).foldl (fun b (p, k) => b.readSlots q 64 p k) b

/-- The poll budget of this microsecond allows one more read (R86). That POLL_BUDGET million reads a second are counted as
POLL_BUDGET reads in each microsecond of fabric time is a DESIGN CHOICE (log 29). -/
def Blk.pollMay (b : Blk) : Bool :=
  b.sched.pollWin != b.now / 1000 || decide (b.sched.pollUsed < max 1 b.img.policy.pollBudget)

/-- A read is counted against the budget (R86, R102). -/
def Blk.pollSpent (b : Blk) : Blk :=
  let t := b.now / 1000
  b.modSched fun s => { s with pollUsed := if s.pollWin = t then s.pollUsed + 1 else 1, pollWin := t }

/-- A read is counted, and the queue's nudge bit is done with (R17, R86). -/
def Blk.pollCount (b : Blk) (q : QRef) (isNudge : Bool) : Blk :=
  b.pollSpent.modSched fun s => { s with
    pollsMade := s.pollsMade + b1 (!isNudge)
    nudged := match q with | .dom i => s.nudged.filter (· != i) | .cell _ => s.nudged }

/-- Make a read that the budget allows. -/
def Blk.pollNow (b : Blk) (q : QRef) (nudge : Option Nat) (isNudge : Bool) : Blk :=
  let b := b.pollCount q isNudge
  let b := if isNudge then b
    else (b.modQueue q fun x => { x with pollAt := some b.now }).modEp q fun e => let e := if e.poll then e.pollEnd else e; { e with polls := e.polls + 1, poll := true, found := 0 }
  (b.ringRead q nudge).pollCheck q

/-- A read joins those that wait for the budget: a queue has at most one, and a nudge makes it nudge-driven (R86, R90). -/
def Blk.pollLater (b : Blk) (q : QRef) (nudge : Option Nat) (isNudge : Bool) : Blk :=
  if b.sched.pollWait.any fun w => w.q == q then
    b.modSched fun s => { s with pollWait := s.pollWait.map fun w =>
      if w.q = q ∧ isNudge then { w with nudge := nudge, isNudge := true } else w }
  else b.modSched fun s => { s with pollWait := s.pollWait ++ [⟨q, nudge, isNudge, b.now⟩] }

/-- A poll falls due, or a nudge makes Chervil read (R86, R89): now, or when the budget allows it. -/
def Blk.chervilRead (b : Blk) (q : QRef) (nudge : Option Nat) (isNudge : Bool) : Blk :=
  if !b.mayFetch q then b
  else if b.pollMay && b.sched.pollWait.isEmpty then b.pollNow q nudge isNudge
  else b.pollLater q nudge isNudge

/-- The interval code a queue is polled with: from T2 upwards an idle domain queue polls at POLL_MAX (R324, Table 14-5). -/
def Blk.pollCode (b : Blk) (q : QRef) : Nat :=
  let x := b.queue q
  if !q.isCell && decide (2 ≤ b.sup.applied) && decide (x.run.phase = .idle) then b.img.policy.pollMax else x.poll

/-- Poll interval of a queue, ns (R86). -/
def Blk.pollNs (b : Blk) (q : QRef) : Nat := (b.pollCode q + 1) * 32

/-- Throttling has stretched the interval of the queue, and it has not passed since its last poll read (R324). -/
def Blk.pollEarly (b : Blk) (q : QRef) : Bool :=
  let x := b.queue q
  match x.pollAt with
  | some t => b.pollCode q != x.poll && decide (t ≤ b.now) && decide (b.now < t + b.pollNs q)
  | none => false

/-- The read to be served next: nudge-driven ones, then cell queues, then domain queues, each in order of due time (R86). -/
def Sched.nextPoll (s : Sched) : Option PollWait :=
  ((s.pollWait.find? (·.isNudge)).orElse fun _ => s.pollWait.find? (·.q.isCell)).orElse fun _ => s.pollWait.head?

/-- Serve the waiting reads that the budget allows; one delayed by more than its queue's interval is counted late (R86). -/
def Blk.servePolls : Nat → Blk → Blk
  | 0, b => b
  | n + 1, b =>
    match (if b.pollMay then b.sched.nextPoll else none) with
    | some w =>
      let b := b.modSched fun s => { s with pollWait := s.pollWait.filter fun y => y.q != w.q }
      let late := !w.isNudge && decide (b.pollNs w.q < b.now - w.due)
      let b := if late then (b.modQueue w.q fun x => { x with latePoll := x.latePoll + 1 }).modSched fun s =>
        { s with pollsDelayed := s.pollsDelayed + 1 } else b
      Blk.servePolls n (if b.mayFetch w.q then b.pollNow w.q w.nudge w.isNudge else b)
    | none => b

/-- Advance the known tail over owned copies; the chain timer of R84 follows it. -/
def Queue.advanceTail (x : Queue) : Nat → Queue
  | 0 => x
  | fuel + 1 =>
    match x.goodAt x.run.tail with
    | some c =>
      if ownOf c = x.expectedOwn x.run.tail ∧ x.dist x.run.tail x.run.head < x.size then
        let d := decodeDesc c
        let first := if x.run.chainTimer then x.run.chainFirst else x.run.tail
        Queue.advanceTail { x with run := { x.run with tail := x.next x.run.tail, chainTimer := !d.last,
                                                       chainFirst := first } } fuel
      else x
    | none => x

/-- A tile that arrives for a position is of use: its slot is within the ring ahead of the head index; and where the entry is
known already, no owned copy of it is held and the tile shows it owned (R77, R88, R90). -/
def Queue.wants (x : Queue) (p : Nat) (bs : List Byte) : Bool :=
  decide (x.dist p x.run.head < x.size) && (!x.known p || (!x.owned p && ownOf bs == x.expectedOwn p))

/-- The queue becomes `y`, whose known tail may have moved on: it is then the most lately owned (R360), and what its epoch shows of
it is noted, an underrun where a local buffer stood empty while the ring held owned entries not yet known (Table 14-1). -/
def Blk.ringGrows (b : Blk) (q : QRef) (y : Queue) : Blk :=
  let x := b.queue q
  let dry := match b.boundAt q with
    | some (m, k) => (((b.binding m k).map (·.lbuf)).getD []).isEmpty && x.run.fetched == x.run.tail
    | none => false
  let y := if y.run.tail ≠ x.run.tail then { y with lastOwned := b.sched.ownedSeq + 1 } else y
  let b := if y.run.tail ≠ x.run.tail then b.modSched fun s => { s with ownedSeq := s.ownedSeq + 1 } else b
  let n := x.dist y.run.tail x.run.tail
  ((b.setQueue q y).modEp q fun e =>
    { e with found := if e.poll then e.found + n else e.found, underrun := e.underrun || (dry && decide (0 < n)) }).noteCache

/-- An old copy in the place of a tile that arrives was refetched after an OWN mismatch. -/
def Blk.makePlace (b : Blk) (q : QRef) (p : Nat) : Blk :=
  let refetch := (b.queue q).cache.any fun c => c.pos == p
  b.modQueue q fun x => { x.dropCopy p with ep := { x.ep with unused := x.ep.unused + b1 refetch } }

/-- One tile arrives for a position: the copy is kept and the known tail advances (R89). -/
def Blk.tileArrived (b : Blk) (q : QRef) (p : Nat) (bs : List Byte) : Blk :=
  if b.mayFetch q && (b.queue q).wants p bs then
    match (b.makePlace q p).takeTile with
    | none => b.makePlace q p
    | some (loc, b) =>
      let x := b.queue q
      b.ringGrows q ((x.putCopy p loc bs).advanceTail (x.size + 1))
  else b

/-- The 64 B pieces of a ring read, in position order. -/
def Blk.tilesArrived (b : Blk) (q : QRef) : Nat → Nat → List Byte → Blk
  | 0, _, _ => b
  | fuel + 1, p, bs =>
    if bs.length < 64 then b
    else Blk.tilesArrived (b.tileArrived q p (bs.take 64)) q fuel ((b.queue q).next p) (bs.drop 64)

/-- A ring read ends (R77, R89): its tiles arrive, or nothing is supplied and a re-read of R77 starts afresh. -/
def Blk.ringReadDone (b : Blk) (q : QRef) (p : Nat) (r : ReadResult) : Blk :=
  let fresh := fun (x : Queue) => if (x.recheck.map (·.1)) = some p then { x with recheck := none } else x
  let b := match r with
    | .data bs => b.tilesArrived q 64 p bs
    | _ => b.modQueue q fresh
  b.pollCheck q

/-! ## Settling and publication -/

/-- The pair of a queue's completion word (R93). -/
def Blk.cplPair (b : Blk) (q : QRef) : Nat × Nat :=
  match b.routeOf q (b.queue q).cfg.cplAddr 0 with
  | some (p, path, _) => (p, path)
  | none => (0, 0)

/-- Add a written pair, keeping the last address and any need of a flush (R93). -/
def addPair (l : List Pair) (k : Pair) : List Pair :=
  if l.any fun y => y.port == k.port && y.path == k.path then
    l.map fun y => if y.port = k.port ∧ y.path = k.path then
      { y with lastAddr := k.lastAddr, needFlush := y.needFlush || k.needFlush } else y
  else l ++ [k]

/-- The completion word for a head position (Table 4-8). -/
def cplWordBytes (size head pubcount : Nat) : List Byte :=
  leBytes 4 (head % size + 65536 * lapOf head size) ++ leBytes 4 pubcount

/-- Put the completion word of `target` before its port: it replaces one still waiting, else PUBCOUNT advances
(R91, R94). -/
def Blk.presentWord (b : Blk) (q : QRef) (target : Nat) : Blk :=
  let x := b.queue q
  let isWord := fun (k : Pkt) => match k.purpose with | .word q' _ => decide (q' = q) | _ => false
  match b.ports.find? fun (_, v) => v.wait.any isWord with
  | some (p, _) =>
    let upd := fun (k : Pkt) =>
      if isWord k then { k with data := cplWordBytes x.size target x.run.pubcount, purpose := .word q target } else k
    (b.modPort p fun v => { v with wait := v.wait.map upd }).modQueue q fun x => { x with pub := .none }
  | none =>
    let c := incr 32 x.run.pubcount
    let b := b.modQueue q fun x => { x with pub := .none, words := x.words + 1, run := { x.run with pubcount := c } }
    match b.routeOf q x.cfg.cplAddr 0 with
    | some (p, path, _) =>
      b.present p { pkt0 with isWrite := true, addr := x.cfg.cplAddr, len := 8, data := cplWordBytes x.size target c,
                              dom := x.cfg.dom, path := path, purpose := .word q target }
    | none => b

/-- The head position of a completion word of the queue. -/
def wordTarget (q : QRef) (k : Pkt) : Option Nat :=
  match k.purpose with
  | .word q' t => if q' = q then some t else none
  | _ => none

/-- The head position that the completion words put before their port so far will have published. -/
def Blk.pubBase (b : Blk) (q : QRef) : Nat :=
  let x := b.queue q
  let further := fun (n : Nat) (t : Nat) => if x.dist n x.run.head < x.dist t x.run.head then t else n
  b.ports.foldl (fun n (_, v) => ((v.pres ++ v.wait).filterMap (wordTarget q)).foldl further n) x.run.head

/-- Flips of an OWNBACK queue, then the word (R82, R92); an entry's flip is written once. -/
def Blk.publishFlips (b : Blk) (q : QRef) (target : Nat) : Blk :=
  let x := b.queue q
  let base := b.pubBase q
  let cov := x.unpub.filter fun r =>
    decide (x.dist base x.run.head ≤ x.dist r.pos x.run.head) && decide (x.dist r.pos x.run.head < x.dist target x.run.head)
  if x.cfg.ownback && !cov.isEmpty then
    let b := b.modQueue q fun x => { x with pub := .flipping target (cov.map (·.pos)) }
    cov.foldl (fun b r => b.sendWrite (x.entryAddr r.pos + 1) (leBytes 1 (r.ownByte / 2 * 2)) x.cfg.dom 0
      (.flip q r.pos) false) b
  else b.presentWord q target

/-- The last chain end among retired entries: the position one past it (R83). -/
def Queue.chainEnd (x : Queue) : Option Nat :=
  (x.unpub.foldl (fun a r => if r.last then some r.pos else a) none).map x.next

/-- The queue has lost its context and is on its way to LOST: it publishes nothing more (R290). -/
def Queue.losing (x : Queue) : Bool := (x.report.map (·.rtype)) == some 3

/-- Publish the retired whole chains that no word put before the port covers, if none is being published already (R92,
R93, R94). -/
def Blk.tryPublish (b : Blk) (q : QRef) : Blk :=
  let x := b.queue q
  match x.pub, (if x.afterCovered || x.losing then none else x.chainEnd.filter fun t => t != b.pubBase q) with
  | .none, some target =>
    let fl := x.flush.filter fun k => k.needFlush || b.cplPair q != (k.port, k.path)
    let b := b.modQueue q fun x => { x with flush := [] }
    if fl.isEmpty then b.publishFlips q target
    else
      let b := b.modQueue q fun x => { x with pub := .flushing target fl.length }
      fl.foldl (fun b k => b.sendFlush k.port k.path k.lastAddr x.cfg.dom (.flush q)) b
  | _, _ => b

/-! ## Interrupt requests of queues -/

/-- A message of the queue falls due (R277, R280): presented behind `after`, or held while its domain sleeps. -/
def Blk.queueMsg (b : Blk) (q : QRef) (after : Option (Nat × Pkt)) : Blk :=
  let x := b.queue q
  let after := match after with | some a => some a | none => x.mod.last
  let b := b.modQueue q fun x => { x with mod := { x.mod with count := 0, timer := false } }
  if b.asleep x.cfg.dom then
    if x.cfg.sleepHold then b.modQueue q fun x => { x with mod := { x.mod with held := true } }
    else (b.raiseAt 48 x.cfg.dom).due x.cfg.vec x.cfg.dom after
  else b.due x.cfg.vec x.cfg.dom after

/-- A phase unit gives ticks: neither OFF, ACQUIRE nor LOST (R175, R277). -/
def PhaseUnit.ticks (u : PhaseUnit) : Bool :=
  match u.state with
  | .locked | .coast | .fallback => true
  | _ => false

/-- The count rule of Table R277 is met. -/
def Queue.modDue (x : Queue) : Bool := decide (max 1 x.cfg.modCount ≤ x.mod.count)

/-- The time rule of R277 is met at fabric time `now`. -/
def Queue.modLate (x : Queue) (now : Nat) : Bool :=
  x.mod.timer && decide (x.cfg.modTime ≠ 0) && decide (x.mod.timerAt + 1000 * x.cfg.modTime ≤ now)

/-- A request of weight `w` (R276, R277): moderation decides whether a message falls due. -/
def Blk.queueIrq (b : Blk) (q : QRef) (w : Nat) (after : Option (Nat × Pkt)) : Blk :=
  let x := b.queue q
  if x.cfg.novec || w = 0 then b
  else if x.cfg.modMode = 0 then b.queueMsg q after
  else
    let starts := !x.mod.timer && decide (x.cfg.modTime ≠ 0)
    let y := { x.mod with count := x.mod.count + w, timer := x.mod.timer || starts
                          timerAt := if starts then b.now else x.mod.timerAt }
    let b := b.modQueue q fun x => { x with mod := y }
    if x.cfg.modMode = 2 && (b.pu x.cfg.modPu).ticks then b
    else if (b.queue q).modDue then b.queueMsg q after else b

/-! ## Binding places -/

/-- A free binding place of a mover. -/
def Mover.freePlace (v : Mover) : Option Nat := firstFrom (fun k => (tabGet none v.bind k).isNone) 64 0

/-- The other mover of a pair (R11). -/
def partner (m : Nat) : Nat := if m % 2 = 0 then m + 1 else m - 1

/-- The mover is powered and ACTIVE with a free place. -/
def Blk.canTake (b : Blk) (m : Nat) : Bool :=
  b.on (moverPd m) && decide ((b.mover m).state = .active) && (b.mover m).freePlace.isSome

/-- The least-loaded mover that satisfies `p`; ties go to the lowest number (R203). -/
def Blk.leastLoaded (b : Blk) (p : Nat → Bool) : Option Nat :=
  (List.range 18).foldl (fun best m =>
    if p m then
      match best with
      | some m' =>
        let load := fun (i : Nat) => (b.mover i).loadRd + (b.mover i).loadWr
        if load m < load m' then some m else some m'
      | none => some m
    else best) none

/-- The mover a cell queue is bound to: HOME, or the one in its place (R202, R256). -/
def Blk.cellMover (b : Blk) (home : Nat) : Option Nat :=
  let own := b.placeOf 18 home
  if (b.mover own).state = .active then (if b.canTake own then some own else none)
  else if (b.mover (partner home)).state = .active then
    (if b.canTake (partner home) then some (partner home) else none)
  else b.leastLoaded b.canTake

/-- The mover a queue is bound to and whether with a shadow (R202, R203). -/
def Blk.chooseMover (b : Blk) (q : QRef) : Option (Nat × Bool) :=
  let x := b.queue q
  let pairOk := fun m => b.canTake m && b.canTake (partner m)
  match q with
  | .cell _ => (b.cellMover (x.cfg.home.getD 0)).map fun m => (m, x.cfg.duplex && b.canTake (partner m))
  | .dom _ =>
    if x.cfg.duplex then
      match x.cfg.home with
      | some h =>
        if pairOk h then some (h, true)
        else match b.leastLoaded pairOk with
          | some m => some (m, true)
          | none => if b.canTake h then some (h, false) else (b.leastLoaded b.canTake).map fun m => (m, false)
      | none => match b.leastLoaded pairOk with
          | some m => some (m, true)
          | none => (b.leastLoaded b.canTake).map fun m => (m, false)
    else
      match x.cfg.home with
      | some h => if b.canTake h then some (h, false) else (b.leastLoaded b.canTake).map fun m => (m, false)
      | none => (b.leastLoaded b.canTake).map fun m => (m, false)

/-- An empty binding of a queue. -/
def newBinding (q : QRef) (shadow : Bool) (since : Nat) : Binding :=
  { q := q, shadow := shadow, since := since, lbuf := [], exec := [], plans := [], credits := 0, turn := 0,
    flushOut := 0, rd := 0, wr := 0, served := 0, recs := [], moving := none, preempt := false }

/-- Bind a queue to mover `m`, and its shadow to the partner (R150, R202, R203, Table 5-7). -/
def Blk.bindTo (b : Blk) (q : QRef) (m : Nat) (shadow : Bool) : Blk :=
  let n := b.sched.bindSeq
  let b := b.modSched fun s => { s with bindSeq := n + 1, bindList := s.bindList.filter (· != q) }
  let b := match (b.mover m).freePlace with
    | some k => b.setBinding m k (some { newBinding q false n with served := b.clock.cycle })
    | none => b
  let b := if shadow then
      match (b.mover (partner m)).freePlace with
      | some k => b.setBinding (partner m) k (some (newBinding q true n))
      | none => b
    else b
  let b := b.modQueue q fun x => { x with
    run := { x.run with phase := .bound, fetched := x.run.retiredTo,
                        prevLast := (x.unpub.getLast?.map (·.last)).getD true },
    unshadowed := x.cfg.duplex && !shadow }
  b.traceQ 0 q m

/-- A binding of a domain queue has moved to another mover: its REBAL_GAP runs from here (R206). -/
def Blk.noteMove (b : Blk) (q : QRef) : Blk :=
  match q with
  | .dom n => { b with sup := { b.sup with moved := tabSet 0 b.sup.moved n b.sup.epoch } }
  | .cell _ => b

/-- A mover that has become ACTIVE takes the shadows of the duplex queues that its partner runs unshadowed (R152). -/
def Blk.reShadow (b : Blk) (m : Nat) : Blk :=
  ((b.mover (partner m)).places).foldl (fun b (_, x) =>
    if x.shadow || !(b.queue x.q).cfg.duplex || (b.shadowAt x.q).isSome || !b.canTake m then b
    else match (b.mover m).freePlace with
      | some k =>
        let n := b.sched.bindSeq
        let b := (b.modSched fun s => { s with bindSeq := n + 1 }).setBinding m k (some (newBinding x.q true n))
        b.modQueue x.q fun y => { y with unshadowed := false }
      | none => b) b

/-- The queue may be bound: IDLE, not HELD, not halting; a domain queue needs work (R203, R309). -/
def Blk.bindable (b : Blk) (q : QRef) : Bool :=
  let x := b.queue q
  decide (x.run.phase = .idle) && x.heldSlot.isNone && x.report.isNone && !x.dying
    && (q.isCell || decide (x.run.tail ≠ x.run.head) || x.lostWrite.isSome)

/-- Bind the queue, or put it at the end of the bind list (R203, R205). -/
def Blk.bindOrWait (b : Blk) (q : QRef) : Blk :=
  if !b.bindable q then b
  else match b.chooseMover q with
    | some (m, sh) => b.bindTo q m sh
    | none =>
      if b.sched.bindList.contains q then b
      else
        let b := b.modSched fun s => { s with bindList := s.bindList ++ [q] }
        { b with movp := { b.movp with bindWait := incr 32 b.movp.bindWait } }

/-- A place of mover `m` is free: the first waiting queue that the mover can take is bound (R205). -/
def Blk.serveBindList (b : Blk) (m : Nat) : Blk :=
  match b.sched.bindList.find? fun q => b.bindable q && decide ((b.chooseMover q).map (·.1) = some m) with
  | some q => b.bindOrWait q
  | none => b

/-- Free the binding place and the shadow of a queue; its unexecuted entries stay Chervil's (R16, R204). -/
def Blk.freeBinding (b : Blk) (q : QRef) (toMover : Nat) : Blk :=
  let shadowMover := (b.shadowAt q).map (·.1)
  let b := match b.shadowAt q with
    | some (m, k) => b.setBinding m k none
    | none => b
  match b.boundAt q with
  | some (m, k) =>
    let b := b.setBinding m k none
    let b := b.modQueue q fun x => { x.applyDeferred with run := { x.run with fetched := x.run.retiredTo } }
    let b := (b.traceQ 1 q toMover).serveBindList m
    -- the place of the shadow is free as well (R205)
    match shadowMover with
    | some sm => b.serveBindList sm
    | none => b
  | none => b

/-- A queue leaves its waiter lists (R217). -/
def Blk.dropWaiters (b : Blk) (q : QRef) : Blk :=
  b.modSched fun s => { s with waiters := s.waiters.filter fun w => w.q != q }

/-- Give back the places an entry holds in launch gates (R255). -/
def Blk.dropGate (b : Blk) (m k : Nat) : Blk :=
  { b with ports := tabMap {} (fun _ v => { v with gate := v.gate.filter fun g => g != (m, k) }) b.ports }

/-! ## The Mews -/

/-- Mews tiles in use: a hold tile for each held queue and the entry tiles (R361). -/
def Blk.holdTiles (b : Blk) : Nat := (b.allQueues.filter fun q => (b.queue q).heldSlot.isSome).length

/-- Tiles of the Mews (R15). -/
def Blk.mewsSize (b : Blk) : Nat := b.img.ident.mewsTiles

/-- Make room for one Mews tile: the oldest entry tile is evicted and its copy dropped (R361). -/
def Blk.mewsRoom (b : Blk) : Blk :=
  if b.holdTiles + b.sched.mews.length < b.mewsSize then b
  else match b.sched.mews with
    | t :: rest =>
      let b := b.modSched fun s => { s with mews := rest }
      let b := { b with movp := { b.movp with evict := incr 8 b.movp.evict } }
      b.modQueue t.q fun x => x.dropCopy t.pos
    | [] => b

/-- Return an entry to the Mews as an entry tile (R361). -/
def Blk.toMews (b : Blk) (q : QRef) (pos : Nat) : Blk :=
  let b := b.mewsRoom
  if b.holdTiles + b.sched.mews.length < b.mewsSize then
    b.modSched fun s => { s with mews := s.mews.filter (fun t => t != ⟨q, pos⟩) ++ [⟨q, pos⟩] }
  else b

/-- Return the local-buffer entries of a queue to the Mews (R245, R248, R309). -/
def Blk.lbufToMews (b : Blk) (q : QRef) : Blk :=
  match b.boundAt q with
  | some (m, k) =>
    let l := ((b.binding m k).map (·.lbuf)).getD []
    let b := l.foldl (fun b e => b.toMews q e.pos) b
    b.modBinding m k fun x => { x with lbuf := [], plans := [] }
  | none => b

/-! ## Ending a queue: halts -/

/-- INFO bytes from fields (offset from 0x24, bytes, value). -/
def infoOf (fs : List (Nat × Nat × Nat)) : List Byte :=
  fs.foldl (fun bs (o, n, v) => patch bs o (leBytes n v)) (leBytes 28 0)

/-- A queue is to halt: its report is kept until its earlier whole chains are published (R95). Entries behind the
failed one leave the local buffer. -/
def Blk.haltWith (b : Blk) (q : QRef) (r : Report) : Blk :=
  if (b.queue q).report.isSome then b
  else b.modQueue q fun x => { x with report := some r, ending := .draining }

/-- Reset a queue's fetching to its head index (R88, R111). -/
def Queue.rewind (x : Queue) : Queue :=
  { x with unpub := [], flush := [],
           run := { x.run with tail := x.run.head, fetched := x.run.head, retiredTo := x.run.head,
                               prevLast := true, chainTimer := false } }

/-- Nothing of the queue is in execution, unsettled or unpublished that will still be published (R95, R250). -/
def Blk.quiet (b : Blk) (q : QRef) : Bool :=
  let x := b.queue q
  decide (x.pub = .none) && x.words == 0 && x.chainEnd.isNone
    && (match b.boundAt q with
        | some (m, k) => match b.binding m k with
          | some y => y.lbuf.isEmpty && y.exec.isEmpty && y.flushOut == 0
          | none => true
        | none => true)

/-- A queue is no longer HELD by a slot (R309). -/
def Blk.unhold (b : Blk) (q : QRef) : Blk :=
  match (b.queue q).heldSlot with
  | some s => (b.modQueue q fun x => { x with heldSlot := none }).modSlot s fun v => { v with held := v.held.filter (· != q) }
  | none => b

/-- A queue enters LOST with its record (R269, Table 5-7). -/
def Blk.loseQueue (b : Blk) (q : QRef) (status : Nat) (info : List Byte) : Blk :=
  let x := b.queue q
  let b := b.genRecord x.cfg.dom q { rtype := 3, status := status, detail := 0, pos := x.run.head, cookie := 0, srcOfs := 0,
                                     dstOfs := 0, info := info }
  let b := (b.unhold q).modQueue q fun x => { x.rewind with
    cache := [], report := none, notice := none, ending := .none, acting := none, holding := none,
    lostWrite := none, afterCovered := false,
    run := { x.rewind.run with phase := .lost, lastStatus := status, polling := false, pauseMark := false } }
  match q with
  | .dom n => b.modSched fun s => { s with nudged := s.nudged.filter (· != n), mews := s.mews.filter fun t => t.q != q,
                                           bindList := s.bindList.filter (· != q) }
  | .cell _ => b.modSched fun s => { s with mews := s.mews.filter fun t => t.q != q, bindList := s.bindList.filter (· != q) }

/-- A halting queue whose earlier chains are published writes its record and enters HALTED (R95, Table 5-7). -/
def Blk.haltCheck (b : Blk) (q : QRef) : Blk :=
  let x := b.queue q
  match x.report with
  | some r =>
    if r.rtype = 3 then
      -- a queue that loses its context: once its binding has stopped (R290)
      let busy := match b.boundAt q with
        | some (m, k) => ((b.binding m k).map fun y => !y.exec.isEmpty || decide (0 < y.flushOut)).getD false
        | none => (false : Bool)
      if busy = true then b else ((b.freeBinding q 31).dropWaiters q).loseQueue q r.status r.info
    else if decide (x.run.phase = .halted) || decide (x.run.phase = .lost) || !b.quiet q then b
    else
      let b := b.genRecord x.cfg.dom q r
      let b := b.freeBinding q 31
      let b := (b.dropWaiters q).unhold q
      let b := b.modQueue q fun x =>
        let y := if x.afterCovered then x else x.rewind
        { y with report := none, ending := .none, recheck := none, holding := none,
                 lostWrite := none, afterCovered := false,
                 run := { y.run with phase := .halted, lastStatus := r.status, pauseMark := false,
                                     tail := y.run.head, fetched := y.run.head, retiredTo := y.run.head,
                                     chainTimer := false, prevLast := true,
                                     mark := { y.run.mark with active := false, pos := y.run.head } } }
      b.traceQ 4 q r.status
  | none => b

/-- A HALT report. -/
def haltReport (status pos cookie srcOfs dstOfs : Nat) (info : List Byte) : Report :=
  { rtype := 1, status := status, detail := 0, pos := pos, cookie := cookie, srcOfs := srcOfs, dstOfs := dstOfs,
    info := info }

/-- A NOTICE report. -/
def noticeReport (status detail pos cookie srcOfs dstOfs : Nat) (info : List Byte) : Report :=
  { rtype := 2, status := status, detail := detail, pos := pos, cookie := cookie, srcOfs := srcOfs,
    dstOfs := dstOfs, info := info }

end Sys2Proof.Machine
end

