-- ==== Sys2Proof/Machine/Phase.lean ====
section
/-! DEFINITION. Phase units (R157-R166, R175, R176): the phase word, rate, states, corrections, ticks, and the
resolving of windows (R167). -/

namespace Sys2Proof.Machine
open Sys2Proof

/-! ## Registers of a unit (Table 7-4) -/

/-- Register `k` of unit `u`. -/
def puA (u k : Nat) : Nat := 0x0D000 + 0x40 * u + 4 * k

/-- SOURCE of a unit; 6 and 7 act as OFF. -/
def Blk.puSource (b : Blk) (u : Nat) : Nat :=
  let s := b.regF (puA u 0) 2 0
  if 5 < s then 0 else s

/-- LOSS of a unit: 0 FREEZE, 1 COAST, 2 FALLBACK; 3 acts as FREEZE. -/
def Blk.puLoss (b : Blk) (u : Nat) : Nat := let l := b.regF (puA u 0) 5 4; if l = 3 then 0 else l

/-- REF_UNIT of a unit. -/
def Blk.puRef (b : Blk) (u : Nat) : Nat := b.regF (puA u 0) 11 8

/-- MODULUS of a unit; 0 means 2^24 (R160). -/
def Blk.puModulus (b : Blk) (u : Nat) : Nat := let m := b.regF (puA u 2) 23 0; if m = 0 then 2 ^ 24 else m

/-- 2^RATE_SHIFT of a unit; values above 8 act as 8. -/
def Blk.puRuns (b : Blk) (u : Nat) : Nat := 2 ^ min 8 (b.regF (puA u 1) 11 8)

/-- STABLE of a unit: the length of its stability filter (R158). -/
def Blk.puStable (b : Blk) (u : Nat) : Nat := b.regF (puA u 1) 3 0

/-- The stability filter lets a level through: it has stood for STABLE + 1 cycles (R158, R210). -/
def pinStable (pin : PinSample) (n : Nat) : Bool := decide (n + 1 ≤ pin.held)

/-- The level is the active one under PU_CFG.POL: high when POL is 0 (R159). -/
def Blk.puActive (b : Blk) (u : Nat) (pin : PinSample) : Bool := pin.level != bit (b.reg (puA u 1)) 5

/-- Z_EN of a unit. -/
def Blk.puZ (b : Blk) (u : Nat) : Bool := bit (b.reg (puA u 1)) 4

/-! ## The phase word -/

/-- `a` is at or past `c` (R166). -/
def atOrPast (a c : Phase) : Bool :=
  let d := (a.cyc + 2 ^ 24 - c.cyc % 2 ^ 24) % 2 ^ 24
  if d ≠ 0 then decide (d < 2 ^ 23)
  else if a.pos ≠ c.pos then decide (c.pos < a.pos) else decide (c.frac ≤ a.frac)

/-- The phase word as 64 bits (R7). -/
def Phase.word (p : Phase) : Nat := p.cyc % 2 ^ 24 * 2 ^ 40 + p.pos % 2 ^ 24 * 2 ^ 16 + p.frac % 2 ^ 16

/-- Linear position within the cycles, in FRAC units (R160). -/
def Phase.lin (p : Phase) (modulus : Nat) : Nat := (p.cyc * modulus + p.pos) * 2 ^ 16 + p.frac

/-- The phase of a linear position (R160). -/
def Phase.ofLin (t modulus : Nat) : Phase :=
  ⟨t / 2 ^ 16 / modulus % 2 ^ 24, t / 2 ^ 16 % modulus, t % 2 ^ 16⟩

/-- Moving forward from `a` to `c` passes a POS that is a multiple of `step`; a step of 0 is one tick per cycle
(R175). -/
def passes (a c : Phase) (modulus step : Nat) : Bool :=
  let d := (c.cyc + 2 ^ 24 - a.cyc % 2 ^ 24) % 2 ^ 24
  let st := if step = 0 then modulus else step
  decide (2 ^ 23 > d) && (decide (0 < d) || decide (a.pos / st < c.pos / st))

/-- The state lets windows open and close and gives ticks (R162, R175). -/
def Blk.puOpen (b : Blk) (u : Nat) : Bool := (b.pu u).ticks

/-! ## Ticks -/

/-- A tick of unit `u` (R175): the polls of the queues that poll on it, and phase moderation of those whose requests
wait for it (R277). -/
def Blk.phaseTick (b : Blk) (u : Nat) : Blk :=
  forEach b.allQueues (fun q b =>
    let x := b.queue q
    let b := if x.cfg.pollPhase && x.cfg.pollPu == u then b.chervilRead q none false else b
    if x.cfg.modMode = 2 && x.cfg.modPu == u && decide (0 < x.mod.count) && !q.isCell then b.queueMsg q none
    else b) b

/-- Let a unit's word move: a forward move may give a tick, at once for a real event (`now`), else when the
PHASE_TICK_ESTIMATE event of the tick is served. -/
def Blk.puMove (b : Blk) (u : Nat) (p : Phase) (forward now : Bool) : Blk :=
  let x := b.pu u
  let m := b.puModulus u
  let wrapped := decide (x.ph.cyc ≠ p.cyc)
  let tick := forward && x.ticks && passes x.ph p m (b.regF (puA u 8) 23 0)
  let miss := wrapped && b.puSource u == 1 && b.puZ u && x.wraps + 1 == 2
  let wraps := if wrapped then (if miss then 0 else x.wraps + 1) else x.wraps
  let b := b.modPu u fun x => { x with ph := p, wraps := wraps, early := if miss then incr 8 x.early else x.early,
                                       quadInCycle := if wrapped then 0 else x.quadInCycle,
                                       ticked := x.ticked || (tick && !now) }
  if tick && now then b.phaseTick u else b

/-! ## State changes (Table 7-3) -/

/-- Fabric time in ps. -/
def Clock.ftPsTotal (c : Clock) : Nat := c.ft * 1000 + c.ftPs

/-- Enter a state; each transition raises PU_STATE (R162). A RESTART of a unit that is in ACQUIRE already is no transition
(DESIGN CHOICE: assumption log 29). The first index after ACQUIRE, COAST or FALLBACK is applied whatever its slip (R163), and the
first pulse after COAST or FALLBACK is corrected, whatever state the unit reaches before it. -/
def Blk.puEnter (b : Blk) (u : Nat) (st : PuState) : Blk :=
  let old := (b.pu u).state
  if old = st then b
  else
    let away := decide (old = .coast) || decide (old = .fallback)
    let go := decide (st = .coast) || decide (st = .fallback)
    let acq := decide (st = .acquire)
    let free := acq || go || (away && decide (st = .locked))
    let t := b.clock.ftPsTotal
    (b.modPu u fun x => { x with
      state := st
      indexed := if acq then false else x.indexed
      stamps := if acq then [] else x.stamps
      firstIndex := x.firstIndex || free
      firstPulse := x.firstPulse || go
      fwdRun := if acq then 0 else x.fwdRun
      fbAcc := 0
      fbAt := t }).raiseAt 8 u

/-- Loss of a unit under its loss mode; only a LOCKED unit leaves its state (Table 7-3). -/
def Blk.puLose1 (b : Blk) (u : Nat) : Blk :=
  if (b.pu u).state ≠ .locked then b
  else match b.puLoss u with
    | 1 => b.puEnter u .coast
    | 2 => b.puEnter u (if b.puSource u = 4 then .coast else .fallback)
    | _ => b.puEnter u .lost

/-- The RATIO units that name `u` as their reference. -/
def Blk.puDeps (b : Blk) (u : Nat) : List Nat :=
  (List.range 16).filter fun v => v != u && b.puSource v == 5 && b.puRef v == u && decide ((b.pu v).state ≠ .off)

/-- The word of a RATIO unit from its reference (R160). -/
def Blk.ratioWord (b : Blk) (v : Nat) : Phase :=
  let u := b.puRef v
  let r := b.reg (puA v 3)
  Phase.ofLin ((b.pu u).ph.lin (b.puModulus u) * bits r 15 0 / max 1 (bits r 31 16)) (b.puModulus v)

/-- Increment per MCLK cycle (R161): measured; one count per ns of fabric time on FABTIME; the reference's times the
ratio on RATIO (DEDUCED: assumption log 10). -/
def Blk.puIncN : Nat → Blk → Nat → Nat
  | 0, b, u => (b.pu u).inc
  | n + 1, b, u =>
    if b.puSource u = 4 then 2 ^ 16 * 1000000 / b.clock.mclkKHz
    else if b.puSource u = 5 then
      let r := b.reg (puA u 3)
      Blk.puIncN n b (b.puRef u) * bits r 15 0 / max 1 (bits r 31 16)
    else (b.pu u).inc

/-- INC of a unit as PU_RATE and the arming rule use it: a unit that coasts or falls back keeps its last INC. -/
def Blk.puInc (b : Blk) (u : Nat) : Nat :=
  match (b.pu u).state with
  | .coast | .fallback | .lost => (b.pu u).inc
  | _ => b.puIncN 16 u

/-- Count a breach and raise PU_INPUT (R159). -/
def Blk.puBreach (b : Blk) (u : Nat) (f : PhaseUnit → PhaseUnit) : Blk := (b.modPu u f).raiseAt 7 u

/-- Loss of one unit: the last INC is kept for COAST and FALLBACK. -/
def Blk.puDrop (b : Blk) (u : Nat) : Blk :=
  if (b.pu u).state ≠ .locked then b
  else
    let inc := b.puInc u
    (b.modPu u fun x => { x with inc := inc }).puLose1 u

/-- RATIO units follow a reference that has moved or changed state (R160, R162): its entry into LOST is a breach and their Loss
(Table 7-2). A reference that is LOCKED, COAST or FALLBACK leads them out of ACQUIRE, and out of COAST, FALLBACK and LOST too, for
which Table 7-3 names no event on RATIO (DESIGN CHOICE: assumption log 29). -/
def Blk.puFollow : Nat → Blk → Nat → Bool → Blk
  | 0, b, _, _ => b
  | n + 1, b, u, now =>
    forEach (b.puDeps u) (fun v b =>
      let st := (b.pu u).state
      let b :=
        if st = .lost then (if (b.pu v).state = .locked then (b.puBreach v id).puDrop v else b)
        else if b.puOpen u then
          let b := if (b.pu v).state = .lost then b.puEnter v .acquire else b
          match (b.pu v).state with
          | .acquire | .coast | .fallback => b.puEnter v .locked
          | _ => b
        else b
      let b := if (b.pu v).state = .locked then b.puMove v (b.ratioWord v) true now else b
      Blk.puFollow n b v now) b

/-- Enter a state and let the dependent units follow. -/
def Blk.puGo (b : Blk) (u : Nat) (st : PuState) : Blk := (b.puEnter u st).puFollow 16 u true

/-- Loss of a unit (Table 7-3); the units that follow it see it. -/
def Blk.puLose (b : Blk) (u : Nat) : Blk := if (b.pu u).state ≠ .locked then b else (b.puDrop u).puFollow 16 u true

/-- A unit enters ACQUIRE by configuration or RESTART; FABTIME and RATIO lock at once where their condition holds. -/
def Blk.puAcquire (b : Blk) (u : Nat) (keep : Bool) : Blk :=
  let b := b.modPu u fun x => { x with ph := if keep then x.ph else ⟨0, 0, 0⟩, stamps := [], inc := if keep then x.inc
                                       else 0, indexed := false, firstIndex := true, wraps := 0, quadInCycle := 0,
                                       fwdRun := 0, reverse := if keep then x.reverse else false,
                                       firstPulse := keep && x.firstPulse }
  let b := b.puEnter u .acquire
  let lock := (b.puSource u == 4 && b.clock.ftSeen) || (b.puSource u == 5 && b.puOpen (b.puRef u))
  if lock then b.puGo u .locked else b.puFollow 16 u true

/-- A unit is turned OFF. -/
def Blk.puOff (b : Blk) (u : Nat) : Blk := b.puGo u .off

/-! ## Rate -/

/-- Note the time of an accepted count or pulse. -/
def PhaseUnit.stamp (x : PhaseUnit) (now : Nat) : PhaseUnit := { x with stamps := (now :: x.stamps).take 257 }

/-- Interval spanned by the last `n` accepted counts or pulses, once there are that many (R161). -/
def PhaseUnit.interval (x : PhaseUnit) (n : Nat) : Option Nat :=
  match x.stamps.head?, x.stamps[n]? with
  | some a, some c => some (a - c)
  | _, _ => none

/-- INC from the last 2^RATE_SHIFT intervals (R161); `per` is 1 on QUAD and MODULUS on LINESYNC and MAINS. -/
def Blk.puMeasure (b : Blk) (u per : Nat) : Blk :=
  match (b.pu u).interval (b.puRuns u) with
  | some i => b.modPu u fun x => { x with inc := b.puRuns u * per * 2 ^ 16 / max 1 i }
  | none => b

/-- ACQUIRE ends when the intervals are measured and, with Z_EN on QUAD, an index has been accepted. -/
def Blk.puTryLock (b : Blk) (u : Nat) : Blk :=
  let x := b.pu u
  if x.state = .acquire && (x.interval (b.puRuns u)).isSome && (b.puSource u != 1 || !b.puZ u || x.indexed) then
    b.puGo u .locked
  else b

/-- The first legal count or pulse leads out of COAST, FALLBACK and LOST (Table 7-3). -/
def Blk.puLegal (b : Blk) (u : Nat) : Blk :=
  match (b.pu u).state with
  | .coast | .fallback => b.puGo u .locked
  | .lost => (b.puEnter u .acquire).puFollow 16 u true
  | _ => b

/-! ## QUAD -/

/-- One count forward (R160). -/
def Phase.up (p : Phase) (m : Nat) : Phase :=
  if p.pos + 1 < m then ⟨p.cyc, p.pos + 1, 0⟩ else ⟨(p.cyc + 1) % 2 ^ 24, 0, 0⟩

/-- One count back (R160). -/
def Phase.down (p : Phase) (m : Nat) : Phase :=
  if 0 < p.pos then ⟨p.cyc, p.pos - 1, 0⟩ else ⟨(p.cyc + 2 ^ 24 - 1) % 2 ^ 24, m - 1, 0⟩

/-- One accepted count on QUAD (R159-R162). The third count of a REFCLK period is the OVERSPEED breach, counted once a period; it
and the ones behind it are applied, but are no legal counts. -/
def Blk.quadCount (b : Blk) (u : Nat) (rev : Bool) : Blk :=
  let m := b.puModulus u
  let past := decide (2 ≤ (b.pu u).inRef) && !b.clock.refLost
  let b := if past then b else b.puLegal u
  let x := b.pu u
  let p := if rev then x.ph.down m else x.ph.up m
  let fast := past && x.inRef == 2
  let b := b.modPu u fun x =>
    { x.stamp b.clock.cycle with reverse := rev, fwdRun := if rev then 0 else x.fwdRun + 1, inRef := x.inRef + 1 }
  let b := (b.puMove u p (!rev) true).puMeasure u 1
  let b := (b.puFollow 16 u true).puTryLock u
  let b := if fast then b.puBreach u fun x => { x with overspeed := incr 8 x.overspeed } else b
  if past then b.puLose u else b

/-- A and B change in the same filtered cycle (Table 7-2). -/
def Blk.quadBoth (b : Blk) (u : Nat) : Blk :=
  let b := b.puBreach u fun x => { x with quadErr := incr 8 x.quadErr, quadInCycle := x.quadInCycle + 1 }
  if b.regF (puA u 1) 15 12 < (b.pu u).quadInCycle then b.puLose u else b

/-- The unit takes counts or pulses: it is not OFF and its domain is powered. -/
def Blk.puTakes (b : Blk) (u src : Nat) : Bool :=
  b.on 1 && b.puSource u == src && decide ((b.pu u).state ≠ .off)

/-- PHASE_COUNT (R158, R160): PH_A and PH_B with an edge, and how many MCLK cycles the new levels stand; the stability filter
drops what is shorter than STABLE + 1. -/
def phaseCountB (u : Nat) (e : QuadEdge) (held : Nat) (b : Blk) : Blk :=
  if !b.puTakes u 1 || decide (held < b.puStable u + 1) then b
  else match e with
    | .forward => b.quadCount u false
    | .reverse => b.quadCount u true
    | .both => b.quadBoth u

/-! ## Corrections -/

/-- The nearest boundary and the signed slip (R163). -/
def Phase.nearest (p : Phase) (m : Nat) : Phase × Int :=
  if m ≤ 2 * p.pos then (⟨(p.cyc + 1) % 2 ^ 24, 0, 0⟩, (p.pos : Int) - (m : Int)) else (⟨p.cyc, 0, 0⟩, (p.pos : Int))

/-- A correction to the nearest boundary; a step to the coming boundary is a forward one (R163, R164), and no POS wrap without
an index (Table 7-2). -/
def Blk.puCorrect (b : Blk) (u : Nat) : Blk :=
  let (p, slip) := (b.pu u).ph.nearest (b.puModulus u)
  let b := b.modPu u fun x => { x with wraps := 0 }
  let b := b.puMove u p (decide (slip < 0)) true
  b.modPu u fun x => { x with lastSlip := (slip % (2 ^ 16 : Nat)).toNat }

/-- INDEX_PULSE (R163): an active edge of PH_Z, accepted once the filter lets its level through (R158). In LOST it is ignored: the
estimate of a LOST unit holds still (R162; DESIGN CHOICE: assumption log 29). -/
def indexPulseB (u : Nat) (pin : PinSample) (b : Blk) : Blk :=
  if !(b.puTakes u 1 && b.puZ u && pinStable pin (b.puStable u) && b.puActive u pin) || decide ((b.pu u).state = .lost) then b
  else
    let x := b.pu u
    let (_, slip) := x.ph.nearest (b.puModulus u)
    if !x.firstIndex && decide (b.regF (puA u 6) 15 0 < slip.natAbs) then
      (b.puBreach u fun x => { x with slipErr := incr 8 x.slipErr }).puLose u
    else
      let b := b.puCorrect u
      let away := decide (x.state = .coast) || decide (x.state = .fallback)
      let b := b.modPu u fun x => { x with indexed := true, firstIndex := away, wraps := 0 }
      (b.puFollow 16 u true).puTryLock u

/-! ## LINESYNC and MAINS -/

/-- A pulse comes earlier than the period estimate allows (Table 7-2). -/
def Blk.puEarly (b : Blk) (u : Nat) : Bool :=
  let x := b.pu u
  match x.interval (b.puRuns u), x.stamps.head? with
  | some i, some last =>
    let k := 2 ^ (b.regF (puA u 1) 18 16 + 2)
    -- (now - last) < (1 - 1/k) * i / runs
    x.ticks && decide ((b.clock.cycle - last) * k * b.puRuns u < (k - 1) * i)
  | _, _ => false

/-- PHASE_PULSE (R160): an active edge of PH_A on LINESYNC or MAINS, accepted once the filter lets its level through (R158). -/
def phasePulseB (u : Nat) (pin : PinSample) (b : Blk) : Blk :=
  if !((b.puTakes u 2 || b.puTakes u 3) && pinStable pin (b.puStable u) && b.puActive u pin) then b
  else if b.puEarly u then b.puBreach u fun x => { x with early := incr 8 x.early }
  else
    let b := b.puLegal u
    let b := b.modPu u fun x => x.stamp b.clock.cycle
    let b := if (b.pu u).firstPulse then (b.puCorrect u).modPu u fun x => { x with firstPulse := false }
      else
        let p := (b.pu u).ph
        b.puMove u ⟨(p.cyc + 1) % 2 ^ 24, 0, 0⟩ true true
    ((b.puMeasure u (b.puModulus u)).puFollow 16 u true).puTryLock u

/-! ## FABTIME -/

/-- The word of a FABTIME unit at fabric time `t` (R160). -/
def fabWord (t m : Nat) : Phase := ⟨t / m % 2 ^ 24, t % m, 0⟩

/-- FABRIC_TIME_VALID (R159, R343): one cycle with FT_VALID high. A value 0 to 1,000 ns ahead of the block's own time
since the last valid one is legal. -/
def fabricTimeValidB (t : Nat) (b : Blk) : Blk :=
  let bad := b.clock.ftSeen && (decide (t < b.clock.ft) || decide (b.clock.ft + 1000 < t))
  let b := { b with clock := { b.clock with ft := t, ftPs := 0, ftSeen := true } }
  if !b.on 1 then b
  else forEach ((List.range 16).filter fun u => b.puSource u == 4 && decide ((b.pu u).state ≠ .off)) (fun u b =>
    let w := fabWord t (b.puModulus u)
    if bad then
      let b := (b.puBreach u id).puLose u
      if (b.pu u).ticks then (b.puMove u w true true).puFollow 16 u true else b
    else
      let b := if (b.pu u).state = .lost then b.puEnter u .acquire else b
      let b := match (b.pu u).state with
        | .acquire | .coast | .fallback => b.puEnter u .locked
        | _ => b
      (b.puMove u w true true).puFollow 16 u true) b

/-! ## Timers -/

/-- PHASE_LOSS_TIMEOUT (Table 7-2): a LOSS_TIMEOUT of 0 disables it, and it stands still while REFCLK is lost. -/
def phaseLossTimeoutB (u : Nat) (b : Blk) : Blk :=
  if b.on 1 && decide (b.reg (puA u 4) ≠ 0) && !b.clock.refLost && b.puSource u != 5 then b.puLose u else b

/-- COAST_LIMIT_EXPIRY (Table 7-3): COAST_LIMIT REFCLK cycles in COAST have passed. With a limit of 0 it comes in the first REFCLK
cycle (Table 7-4), although R159 says of both timers that 0 disables them (DESIGN CHOICE: assumption log 29). -/
def coastLimitExpiryB (u : Nat) (b : Blk) : Blk :=
  if b.on 1 && decide ((b.pu u).state = .coast) && !b.clock.refLost then b.puGo u .lost else b

/-- PHASE_TICK_ESTIMATE (R175): the tick of an estimate that passed a multiple between real counts is served. -/
def phaseTickEstimateB (u : Nat) (b : Blk) : Blk :=
  if (b.pu u).ticked && b.on 1 then
    let b := b.modPu u fun x => { x with ticked := false }
    if (b.pu u).ticks then b.phaseTick u else b
  else b

/-! ## The estimate in one MCLK cycle (R161, R162) -/

/-- What a unit in FALLBACK has advanced since it was last looked at, in 10^-9 FRAC units: fabric time at PU_FB_RATE, or at the last
INC scaled by MCLK cycles per fabric nanosecond (R162). Fabric time that steps back advances nothing. -/
def Blk.fallStep (b : Blk) (u : Nat) : Nat :=
  let x := b.pu u
  let r := b.reg (puA u 10)
  let d := b.clock.ftPsTotal - x.fbAt
  let khz := if b.clock.mclkKHz = 0 then 1000000 else b.clock.mclkKHz
  x.fbAcc + (if r = 0 then x.inc * khz * d else r * d * 1000000)

/-- One MCLK cycle for a unit that interpolates by itself; RATIO units follow their reference. A QUAD unit
whose last motion was reverse stands still in COAST, as R161 interpolates forward only, and advances in FALLBACK, for which
the spec gives no direction (DESIGN CHOICE: assumption log 29). -/
def Blk.puCycle (b : Blk) (u : Nat) : Blk :=
  let x := b.pu u
  let m := b.puModulus u
  let src := b.puSource u
  let by_ := fun (n : Nat) => Phase.ofLin (x.ph.lin m + n) m
  match x.state with
  | .locked =>
    if src = 1 then
      if x.reverse || x.fwdRun < b.puRuns u then b
      else b.modPu u fun x => { x with ph := { x.ph with frac := min 0xFFFF (x.ph.frac + x.inc) } }
    else if src = 2 || src = 3 then
      let here := x.ph.pos * 2 ^ 16 + x.ph.frac
      let t := min (here + x.inc) (m * 2 ^ 16 - 1)
      b.puMove u ⟨x.ph.cyc, t / 2 ^ 16, t % 2 ^ 16⟩ true false
    else if src = 4 then b.puMove u (fabWord b.clock.ft m) true false
    else b
  | .coast =>
    if src = 4 then b.puMove u (fabWord b.clock.ft m) true false
    else if src = 1 && x.reverse then b
    else b.puMove u (by_ x.inc) true false
  | .fallback =>
    let t := b.fallStep u
    let at_ := b.clock.ftPsTotal
    (b.puMove u (by_ (t / 10 ^ 9)) true false).modPu u fun x => { x with fbAcc := t % 10 ^ 9, fbAt := at_ }
  | _ => b

/-- One MCLK cycle for all units, references before the units that follow them. -/
def Blk.phaseCycle (b : Blk) : Blk :=
  forEach ((List.range 16).filter fun u => decide ((b.pu u).state ≠ .off)) (fun u b =>
    (b.puCycle u).puFollow 16 u false) b

/-! ## Configuration at APPLY and at a strobe (R157, R162, R176) -/

/-- Units with a SOURCE enter ACQUIRE with the phase word 0 (APPLY). -/
def Blk.puApply (b : Blk) : Blk :=
  forEach (List.range 16) (fun u b => if b.puSource u = 0 then b else b.puAcquire u false) b

/-- Following REF_UNIT from `u` comes back to `u` within `n` steps over RATIO units. -/
def Blk.inLoop (b : Blk) (u : Nat) : Nat → Nat → Bool
  | 0, _ => false
  | n + 1, v => b.puSource v == 5 && (let r := b.puRef v; r == u || Blk.inLoop b u n r)

/-- What a strobe does to the units whose registers it changed; `old` is the block before the strobe. -/
def Blk.puStrobe (b old : Blk) : Blk :=
  let loop := (List.range 16).filter fun u => b.inLoop u 16 u
  let b := if loop.isEmpty then b
    else (loop.foldl (fun b u => b.setRegF (puA u 0) 11 8 (old.puRef u)) b).raise 1 0
  let b := forEach (List.range 16) (fun u b =>
    if b.puSource u = 5 && b.regF (puA u 3) 31 16 = 0 && (old.shadow.any fun (a, _, _) => a == puA u 3) then
      (b.setRegF (puA u 3) 31 16 (old.regF (puA u 3) 31 16)).raise 1 0
    else b) b
  forEach (List.range 16) (fun u b =>
    if b.puSource u = 0 then (if (b.pu u).state = .off then b else b.puOff u)
    else if b.puSource u ≠ old.puSource u || b.puRef u ≠ old.puRef u || b.puModulus u ≠ old.puModulus u
        || (b.pu u).state = .off then
      b.puAcquire u false
    else b) b

/-- PU_RESTART (Table 7-3): RESTART is ignored in OFF. -/
def Blk.puRestart (b : Blk) (u : Nat) : Blk := if (b.pu u).state = .off then b else b.puAcquire u true

/-! ## Windows (R72, R167) -/

/-- A packed 5-byte window phase: 16-bit cycle and POS (R72). -/
def winOpen (d : Desc) : Nat × Nat := (leAt d.raw 0x33 2, leAt d.raw 0x30 3)

/-- CLOSE of the window field. -/
def winClose (d : Desc) : Nat × Nat := (leAt d.raw 0x38 2, leAt d.raw 0x35 3)

/-- WCTRL of the window field. -/
def winCtrl (d : Desc) : Nat := leAt d.raw 0x3A 1

/-- UNIT of the window field. -/
def winUnit (d : Desc) : Nat := bits (winCtrl d) 3 0

/-- Resolve the window of an entry against its unit's estimate; none is DESC_FORMAT (R167). -/
def Blk.resolveWindow (b : Blk) (d : Desc) : Option Window :=
  let u := winUnit d
  let now := (b.pu u).ph
  let m := b.puModulus u
  let (oc, op) := winOpen d
  let (cc, cp) := winClose d
  let mode := bits (winCtrl d) 5 4
  let span := (cc + 2 ^ 16 - oc) % 2 ^ 16
  let mk := fun (c s : Nat) =>
    some (⟨u, ⟨c % 2 ^ 24, op, 0⟩, ⟨(c + s) % 2 ^ 24, cp, 0⟩, bits (winCtrl d) 7 6, 0⟩ : Window)
  if m ≤ op ∨ m ≤ cp then none
  else if mode = 1 then
    if op = cp then none
    else
      let wrap := decide (cp < op)
      let c := if wrap && decide (now.pos < cp) then now.cyc + 2 ^ 24 - 1
        else if !wrap && decide (cp ≤ now.pos) then now.cyc + 1 else now.cyc
      mk c (b1 wrap)
  else if 2 ^ 15 ≤ span ∨ (span = 0 ∧ cp ≤ op) then none
  else if mode = 2 then mk (now.cyc + oc) span
  else
    let k := (oc + 2 ^ 24 - now.cyc) % 2 ^ 16
    mk (if k < 2 ^ 15 then now.cyc + k else now.cyc + 2 ^ 24 + k - 2 ^ 16) span

end Sys2Proof.Machine
end

