-- ==== Sys2Proof/Machine/Lines.lean ====
section
/-! DEFINITION. Request lines (R210-R217, Tables 9-3, 9-4 and 9-6): captures, handshakes, virtual lines. -/

namespace Sys2Proof.Machine
open Sys2Proof

/-- RLN_CFG of a line. -/
def Blk.rlCfg (b : Blk) (n : Nat) : Nat := b.reg (0x0E000 + 4 * n)

/-- MODE of a line: 0 OFF, 1 LEVEL, 2 EDGE, 3 COUNT. -/
def Blk.rlMode (b : Blk) (n : Nat) : Nat := bits (b.rlCfg n) 1 0

/-- A line enters FAULT: captures dropped, RL_ACK low, RL_FAULT raised (Table 9-3). -/
def Blk.rlFault (b : Blk) (n : Nat) : Blk :=
  (b.modLine n fun x => { x with state := .fault, pend := 0, ack := false, bySw := false, given := none }).raiseAt 13 n

/-- The line takes events: its domain is powered and the line is neither OFF nor in FAULT. -/
def Blk.rlTakes (b : Blk) (n : Nat) : Bool :=
  b.on 1 && (match (b.line n).state with | .idle | .pending | .acked => true | _ => false)

/-- The level as RLN_CFG.POL makes it: active or not (R210). -/
def Blk.rlLevel (b : Blk) (n : Nat) (pin : PinSample) : Bool := pin.level != bit (b.rlCfg n) 2

/-- STABLE of RLN_CFG. -/
def Blk.rlStable (b : Blk) (n : Nat) : Nat := bits (b.rlCfg n) 15 12

/-- The estimate still lies before CLOSE of a waiter's window, if it has one (R217). -/
def Blk.waiterInTime (b : Blk) (w : Waiter) : Bool :=
  match b.binding w.m w.b with
  | some x => match x.exec.findSome? fun e => if e.desc.kind = kWait then e.win else none with
    | some win => !(atOrPast (b.pu win.unit).ph win.closeAt)
    | none => true
  | none => false

/-- The waiters of a line, oldest first. -/
def Blk.waitersOn (b : Blk) (l : LineRef) : List Waiter := b.sched.waiters.filter fun w => w.line == l

/-- Captures of a line are dropped at the OPEN of its oldest waiter (R217): each counts in STALE of a wired line. -/
def Blk.dropCaptures (b : Blk) (l : LineRef) : Blk :=
  match l with
  | .wired n =>
    if (b.line n).state = .pending then
      b.modLine n fun x => { x with pend := 0, state := .idle, given := none, stale := (x.stale + x.pend) % 16 }
    else b
  | .virt v => b.modVline v fun x => { x with pend := 0, given := none }

/-- A capture in time goes to a waiter of the queue (R217). -/
def Blk.captureGiven (b : Blk) (q : QRef) : Bool :=
  (b.sched.waiters.filter fun z => z.q == q).any fun z => match z.line with
    | .wired n => (b.line n).given == some z.seq
    | .virt v => (b.vline v).given == some z.seq

/-- The waiter a capture made now goes to (R215, R217). -/
def Blk.givenTo (b : Blk) (n : Nat) : Option Nat :=
  match (b.line n).given with
  | some s => some s
  | none => ((b.waitersOn (.wired n)).find? b.waiterInTime).map (·.seq)

/-- A rate breach: RATE_ERR, RL_RATE, and FAULT past ERR_LIM breaches in 1 ms (R212). -/
def Blk.rlBreach (b : Blk) (n : Nat) : Blk :=
  let b := (b.modLine n fun x => { x with rateErr := incr 8 x.rateErr, breaches := x.breaches + 1 }).raiseAt 17 n
  let lim := bits (b.rlCfg n) 23 20
  if lim ≠ 0 ∧ lim < (b.line n).breaches then b.rlFault n else b

/-- Less than `gap` MCLK cycles have passed since the last accepted assertion (Table 9-4); a gap of 0 is none. -/
def Line.tooSoon (x : Line) (now gap : Nat) : Bool :=
  match x.lastAt with
  | some t => decide (now - t < gap)
  | none => false

/-- One accepted active edge or level, from the pin or from RLN_SWREQ (Table 9-3). -/
def Blk.rlActive (b : Blk) (n : Nat) (sw : Bool) : Blk :=
  let x := b.line n
  if x.tooSoon b.clock.cycle (bits (b.rlCfg n) 31 24 * 16) then b.rlBreach n
  else
    let b := b.modLine n fun x => { x with lastAt := some b.clock.cycle }
    let g := b.givenTo n
    match x.state, b.rlMode n with
    | .idle, _ => b.modLine n fun x => { x with state := .pending, pend := 1, bySw := sw, given := g }
    | .pending, 2 => b.modLine n fun x => { x with overrun := incr 4 x.overrun }
    | .pending, 3 =>
      if x.pend < 255 then b.modLine n fun x => { x with pend := x.pend + 1 }
      else b.modLine n fun x => { x with overrun := incr 4 x.overrun }
    | _, _ => b

/-- RL_CAPTURE: an active edge or level on RL_REQ, accepted once the filter lets it through (R210, R211); a level accepted already
is no further edge. -/
def rlCaptureB (n : Nat) (pin : PinSample) (b : Blk) : Blk :=
  if !pinStable pin (b.rlStable n) || !b.rlLevel n pin || (b.line n).input then b
  else
    let b := b.modLine n fun x => { x with input := true }
    if b.rlTakes n then b.rlActive n false else b

/-- RL_RELEASE: RL_REQ is accepted inactive, once the filter lets it through (R210, R211). -/
def rlReleaseB (n : Nat) (pin : PinSample) (b : Blk) : Blk :=
  if !pinStable pin (b.rlStable n) || b.rlLevel n pin then b else
  let b := b.modLine n fun x => { x with input := false }
  if b.rlTakes n && b.rlMode n == 1 then
    match (b.line n).state with
    | .pending =>
      if (b.line n).bySw then b else b.modLine n fun x => { x with state := .idle, pend := 0, given := none }
    | .acked => b.modLine n fun x => { x with state := .idle, ack := false }
    | _ => b
  else b

/-- RL_HOLD_TIMEOUT (R212): HOLD_TMO 0 sets none, and the timer stands while REFCLK is lost. -/
def rlHoldTimeoutB (n : Nat) (b : Blk) : Blk :=
  if !(b.rlTakes n && (b.line n).input && !b.clock.refLost && decide (b.regF 0x0E300 15 0 ≠ 0)) then b
  else if b.rlMode n = 1 then (if (b.line n).state = .acked then b.rlFault n else b)
  else b.modLine n fun x => { x with stuck := incr 4 x.stuck }

/-- RLN_CLEAR: a line leaves FAULT while RL_REQ is inactive (Table 9-3). -/
def Blk.rlClear (b : Blk) (n : Nat) : Blk :=
  if (b.line n).state = .fault && !(b.line n).input then b.modLine n fun x => { x with state := .idle, breaches := 0 }
  else b

/-- RLN_SWREQ: one accepted active edge or level by software (R211). -/
def Blk.rlSwreq (b : Blk) (n : Nat) : Blk := if b.rlTakes n then b.rlActive n true else b

/-- A write of RLN_CFG with the change of MODE (Table 9-3). -/
def Blk.rlCfgWrite (b : Blk) (n w : Nat) : Blk :=
  let old := b.rlMode n
  let b := b.setReg (0x0E000 + 4 * n) (w - bits w 11 4 * 16)
  let new := bits w 1 0
  if new = old then b
  else b.modLine n fun x => { x with state := if new = 0 then .off else .idle, pend := 0, ack := false, ackDue := 0,
                                     endDue := 0, ackAt := none, endAt := none, bySw := false, given := none }

/-- Raise a virtual line by `n`; what passes 255 counts in its drops (R214). The oldest raise goes to the waiter of this cycle
(R215, R217). -/
def Blk.vrlAdd (b : Blk) (v n : Nat) : Blk :=
  let g := ((b.waitersOn (.virt v)).find? b.waiterInTime).map (·.seq)
  b.modVline v fun x => { x with given := if x.pend = 0 ∨ x.given = none then g else x.given, pend := min 255 (x.pend + n), drops := (x.drops + (x.pend + n - 255)) % 256 }

/-- VRL_MESSAGE (R214): a 4 B doorbell write raises a virtual line, or is dropped with VRL_DROP. -/
def vrlMessageB (v hdrDom size value : Nat) (b : Blk) : Blk :=
  if !b.on 1 then b
  else
    let own := b.reg (0x0E200 + 4 * (v / 64))
    let ok := bit own 9 && (bit own 8 || bits own 7 0 == hdrDom)
    let n := bits value 7 0
    if n = 0 || size ≠ 4 || !ok then (b.modSched fun s => { s with vrlDrops := incr 32 s.vrlDrops }).raise 0 12
    else b.vrlAdd v n

/-- A capture of a wired line is consumed (Table 9-3): RL_ACK rises on LEVEL, a pulse falls due otherwise. -/
def Blk.rlConsume (b : Blk) (n : Nat) : Blk :=
  let level := b.rlMode n == 1
  let now := b.clock.cycle
  b.modLine n fun x =>
    let left := x.pend - 1
    if level then
      { x with state := .acked, pend := 0, ack := true, bySw := false, given := none, usedAt := some now }
    else { x with state := if left = 0 then .idle else .pending, pend := left, given := none, usedAt := some now,
                  ackDue := satInc 255 x.ackDue }

/-- An RL_END pulse falls due on a line with END_EN (R213). -/
def Blk.rlEnd (b : Blk) (n : Nat) : Blk :=
  if bit (b.rlCfg n) 3 then b.modLine n fun x => { x with endDue := satInc 255 x.endDue } else b

/-- A raise of a virtual line is consumed (R214). -/
def Blk.vrlConsume (b : Blk) (v : Nat) : Blk :=
  let now := b.clock.cycle
  b.modVline v fun x => { x with pend := x.pend - 1, given := none, usedAt := some now }

/-- One MCLK cycle of the pulse outputs of a line (R211, R213): a pulse of `w` cycles high and as many low, the next one right
behind it; the counts hold the pulses that wait. -/
def Line.pulse (x : Line) (now w : Nat) : Line :=
  let run := fun (due : Nat) (at_ : Option Nat) => match at_ with
    | some t => if now - t < 2 * w then (due, some t) else if 0 < due then (due - 1, some now) else (0, none)
    | none => if 0 < due then (due - 1, some now) else (0, none)
  let (a, aAt) := run x.ackDue x.ackAt
  let (e, eAt) := run x.endDue x.endAt
  { x with ackDue := a, ackAt := aAt, endDue := e, endAt := eAt }

/-- Half a period of the pulse outputs of line `n`, MCLK cycles: ACK_W (R211). -/
def Blk.rlWidth (b : Blk) (n : Nat) : Nat := (bits (b.rlCfg n) 19 16 + 1) * 8

/-- A pulse that began in cycle `at_` is high in cycle `now` (R211). -/
def pulseHigh (at_ : Option Nat) (now w : Nat) : Bool := match at_ with | some t => decide (now - t < w) | none => false

/-- A LEVEL handshake whose request is low ends: a software request is withdrawn when it is consumed (R211). -/
def Line.ackEnds (x : Line) (level : Bool) : Line :=
  if level ∧ x.state = .acked ∧ x.input = false then { x with state := .idle, ack := false } else x

/-- One MCLK cycle of all lines. -/
def Blk.lineCycle (b : Blk) : Blk :=
  { b with lines := tabMap {} (fun n x =>
      (x.ackEnds (b.rlMode n == 1)).pulse b.clock.cycle (b.rlWidth n)) b.lines }

end Sys2Proof.Machine
end

