-- ==== Sys2Proof/Machine/Fifo.lean ====
section
/-! DEFINITION. Staging FIFOs and stream ports (R219-R242): extents, states, tile assembly, packets, watermarks,
discarding, the rewind mark, and the stream-port inputs. -/

namespace Sys2Proof.Machine
open Sys2Proof

/-! ## Registers (Tables 10-6 and 10-7) -/

/-- Register `k` of FIFO `f`. -/
def sfA (f k : Nat) : Nat := 0x0F000 + 0x20 * f + 4 * k

/-- SF_CFG of a FIFO. -/
def Blk.sfCfg (b : Blk) (f : Nat) : Nat := b.reg (sfA f 0)

/-- PACKET mode. -/
def Blk.sfPacket (b : Blk) (f : Nat) : Bool := bit (b.sfCfg f) 8

/-- CUT. -/
def Blk.sfCut (b : Blk) (f : Nat) : Bool := bit (b.sfCfg f) 9

/-- RWMODE FOLLOW (R239). -/
def Blk.sfFollow (b : Blk) (f : Nat) : Bool := bit (b.sfCfg f) 10

/-- COMMIT MARK (R240). -/
def Blk.sfCommitMark (b : Blk) (f : Nat) : Bool := bit (b.sfCfg f) 11

/-- The input stream port of a FIFO, if it has one. -/
def Blk.sfIn (b : Blk) (f : Nat) : Option Nat := if bit (b.sfCfg f) 3 then some (bits (b.sfCfg f) 2 0) else none

/-- The output stream port of a FIFO, if it has one. -/
def Blk.sfOut (b : Blk) (f : Nat) : Option Nat := if bit (b.sfCfg f) 7 then some (bits (b.sfCfg f) 6 4) else none

/-- SF_SP_CFG of a stream port. -/
def Blk.spCfg (b : Blk) (n : Nat) : Nat := b.reg (0x10000 + 4 * n)

/-- The FIFO in RUN or HELD names the port on the side asked for. -/
def Blk.sfOfPort (b : Blk) (n : Nat) (input : Bool) : Option Nat :=
  (List.range 32).find? fun f =>
    (match (b.fifo f).state with | .run | .held => true | _ => false)
      && (if input then b.sfIn f else b.sfOut f) == some n

/-- An enabled FIFO names the port (R219, R242). -/
def Blk.spNamed (b : Blk) (n : Nat) : Bool :=
  (List.range 32).any fun f => bit (b.sfCfg f) 31 && (b.sfIn f == some n || b.sfOut f == some n)

/-! ## Occupancy -/

/-- Tiles a FIFO can hold (R222). -/
def Fifo.capacity (x : Fifo) : Nat := 16 * x.extents.length

/-- MARKED tiles; a piece whose rest is still unread counts with the unread ones. -/
def Fifo.markedN (x : Fifo) : Nat := (x.marked.filter fun t => !t.split).length

/-- Occupancy in tiles (R233). -/
def Fifo.occ (x : Fifo) : Nat := x.unread.length + x.markedN

/-- Bytes of a list of tiles. -/
def tileBytes (l : List FTile) : Nat := l.foldl (fun n t => n + t.bytes.length) 0

/-- The hysteresis of R233 with its events and the virtual line of R235: judged at the end of each MCLK cycle. -/
def Blk.sfLevel (b : Blk) (f : Nat) : Blk :=
  let x := b.fifo f
  let wm := b.reg (sfA f 2)
  let hwm := bits wm 31 16
  let lwm := min (bits wm 15 0) (hwm - 1)
  let nt := b.reg (sfA f 3)
  match x.state with
  | .run | .held =>
    if hwm = 0 then b.modFifo f fun x => { x with xoff := false }
    else if !x.xoff && decide (hwm ≤ x.occ) then
      let b := (b.modFifo f fun x => { x with xoff := true }).raiseAt 21 f
      if bit nt 31 && bit nt 28 then b.vrlAdd (bits nt 27 16) 1 else b
    else if x.xoff && decide (x.occ ≤ lwm) then (b.modFifo f fun x => { x with xoff := false }).raiseAt 23 f
    else b
  | _ => b

/-- A packet completed, or a tail closed: the virtual line of R235. -/
def Blk.sfNotify (b : Blk) (f : Nat) : Blk :=
  let nt := b.reg (sfA f 3)
  if bit nt 31 && bit nt 29 then b.vrlAdd (bits nt 27 16) 1 else b

/-- The producer needs a tile (R239): true when one is free, or FOLLOW frees the oldest marked one; else HELD. -/
def Blk.sfNeedTile (b : Blk) (f : Nat) : Bool × Blk :=
  let x := b.fifo f
  if x.occ < x.capacity then (true, b)
  else match b.sfFollow f, x.marked with
    | true, t :: rest =>
      let drop := if t.split then rest.drop 1 else rest
      let n := t.bytes.length + (if t.split then tileBytes (rest.take 1) else 0)
      let b := (b.modFifo f fun x => { x with marked := drop, markLost := true, forced := x.forced + n }).raiseAt 27 f
      (decide ((b.fifo f).occ < x.capacity), b)
    | _, _ =>
      if x.state = .run then (false, (b.modFifo f fun x => { x with state := .held }).raiseAt 25 f) else (false, b)

/-- A tile has been freed: HELD returns to RUN (Table 10-1). -/
def Blk.sfFreed (b : Blk) (f : Nat) : Blk :=
  let x := b.fifo f
  if x.state = .held && decide (x.occ < x.capacity) then b.modFifo f fun x => { x with state := .run } else b

/-! ## Packets (R230, Table 10-5) -/

/-- The header of a packet: `moved` and TRUNC for the written form. -/
def Packet.header (p : Packet) (moved : Nat) (trunc : Bool) : List Byte :=
  leBytes 4 p.plen ++ leBytes 4 moved ++ leBytes 8 p.tFirst ++ leBytes 8 p.tLast ++ leBytes 4 p.pseq
    ++ leBytes 2 (b1 p.done + 2 * b1 p.poison + 4 * b1 trunc + 8 * b1 p.dropped + 16 * b1 p.stale + 32 * b1 p.oversize)
    ++ leBytes 1 p.origin ++ leBytes 33 0

/-- Change the open packet, the newest one. -/
def Fifo.modOpen (x : Fifo) (g : Packet → Packet) : Fifo :=
  { x with pkts := x.pkts.zipIdx.map fun (p, i) => if i + 1 = x.pkts.length then g p else p }

/-- CRC-32C of a tile of the pool over its valid bytes and their mask (R132). -/
def poolCrc (bs : List Byte) : Nat := tileCrc bs (2 ^ bs.length - 1)

/-- A tile enters the pool at the next place of the FIFO's ring, with its CRC-32C (R222, R229). -/
def Fifo.addTile (x : Fifo) (bs : List Byte) (poison header committed : Bool) (pkt : Nat) (tail : Bool) : Fifo :=
  { x with unread := x.unread ++ [⟨bs, poison, header, committed, pkt, false, tail, x.nextLoc, poolCrc bs, false, false⟩]
           nextLoc := (x.nextLoc + 1) % max 1 x.capacity }

/-- Begin a packet: the next tile is reserved for its header; false when none is free. -/
def Blk.sfBegin (b : Blk) (f origin : Nat) (committed : Bool) : Bool × Blk :=
  let (ok, b) := b.sfNeedTile f
  if !ok then (false, b)
  else
    let t := b.now
    let x := b.fifo f
    let p : Packet := ⟨x.pseq, 0, t, t, false, false, false, false, false, origin⟩
    (true, b.modFifo f fun x => { (x.addTile [] false true committed x.pseq false) with
      pkts := x.pkts ++ [p], openPkt := true, pseq := incr 32 x.pseq })

/-- Move the bytes in assembly into the pool as a tile. -/
def Fifo.pushPart (x : Fifo) (n : Nat) (committed tail : Bool) : Fifo :=
  if x.part.isEmpty then x
  else
    let l := x.part.take n
    let bad := l.any (·.2)
    let y := { (x.addTile (l.map (·.1)) bad false committed (x.pseq - 1) tail) with part := x.part.drop n }
    if x.openPkt then y.modOpen fun p => { p with poison := p.poison || bad } else y

/-- End the open packet: its partial tile closes and its header shows DONE (R230, R232, R234). -/
def Blk.sfEnd (b : Blk) (f : Nat) (stale big : Bool) : Blk :=
  let b := b.modFifo f fun x =>
    let y := (x.pushPart 64 true false).modOpen fun p => { p with done := true, stale := stale, oversize := big }
    { y with openPkt := false, pktsDone := incr 16 x.pktsDone }
  b.sfNotify f

/-- Data tiles of the open packet in the FIFO. -/
def Fifo.openTiles (x : Fifo) : Nat :=
  ((x.unread ++ x.marked).filter fun t => !t.header && t.pkt + 1 == x.pseq).length

/-! ## Words into tile assembly -/

/-- One word enters assembly; false when the FIFO holds it (R225, R229, R230, R232). -/
def Blk.sfWord (b : Blk) (f : Nat) (w : StreamWord) (origin : Nat) : Bool × Blk :=
  let x := b.fifo f
  let data := if w.last then w.bytes.take (w.inb + 1) else w.bytes
  if x.skip then (true, b.modFifo f fun x => { x with skip := !w.last })
  else
    let pk := b.sfPacket f
    let (ok, b) := if pk && !x.openPkt then b.sfBegin f origin true else (true, b)
    if !ok then (false, b)
    else
      let x := b.fifo f
      let fresh := x.part.isEmpty || decide (64 < x.part.length + data.length)
      let big := pk && !b.sfCut f && fresh && decide (x.capacity ≤ x.openTiles + 1)
      if big then
        let b := b.sfEnd f false true
        (true, b.modFifo f fun x => { x with dropped := incr 8 x.dropped, closed := incr 8 x.closed, skip := !w.last })
      else
        let (ok, b) := if fresh then b.sfNeedTile f else (true, b)
        if !ok then (false, b)
        else
          let t := b.now
          let b := b.modFifo f fun x =>
            let y := { x with part := x.part ++ data.map fun c => (c, w.parityBad)
                              poisoned := if w.parityBad then incr 8 x.poisoned else x.poisoned }
            let y := if pk then y.modOpen fun p => { p with plen := p.plen + data.length, tLast := t } else y
            if 64 ≤ y.part.length then y.pushPart 64 true false else y
          (true, if pk && w.last then b.sfEnd f false false else b)

/-! ## Words out of the pool to a stream port -/

/-- Bytes at the front of the FIFO that make one output word, and whether it is the last word of a packet or a stale tail; none
when no word is ready (R225). -/
def Blk.sfOutWord (b : Blk) (f : Nat) : Option (List Byte × Bool) :=
  let x := b.fifo f
  let vis := x.unread.filter fun t => t.committed && !t.header
  if b.sfPacket f then
    match x.pkts with
    | p :: _ =>
      if !p.done && !b.sfCut f then none
      else
        let bs := ((vis.filter fun t => t.pkt == p.pseq).map fun t => t.bytes).flatten
        if bs.length ≤ 16 && p.done then (if bs.isEmpty then none else some (bs, true))
        else if 16 < bs.length then some (bs.take 16, false)
        else none
    | [] => none
  else
    match vis with
    | t :: _ =>
      let bs := (vis.map fun t => t.bytes).flatten
      if t.tail && decide (t.bytes.length ≤ 16) then some (t.bytes, true)
      else if 16 ≤ bs.length then some (bs.take 16, false)
      else none
    | [] => none

/-- The tiles that hold the next `n` data bytes are read at the pool: each is checked against its CRC-32C once, and the places of
those that fail are answered (R222, R226). -/
def checkTiles : List FTile → Nat → List FTile × List Nat
  | [], _ => ([], [])
  | t :: rest, n =>
    if n = 0 then (t :: rest, [])
    else if t.header then (t :: (checkTiles rest n).1, (checkTiles rest n).2)
    else
      let fails := !t.seen && t.crc != poolCrc t.bytes
      let r := checkTiles rest (n - t.bytes.length)
      ({ t with seen := true, bad := t.bad || fails } :: r.1, if fails then t.loc :: r.2 else r.2)

/-- One of the next `n` data bytes comes from a tile with a poison tag or one that failed its check (R226). -/
def frontBad : List FTile → Nat → Bool
  | [], _ => false
  | t :: rest, n =>
    if n = 0 then false
    else if t.header then frontBad rest n
    else t.poison || t.bad || frontBad rest (n - t.bytes.length)

/-- The pool tile at place `loc` of a FIFO's ring fails its CRC: SF_CRC, POOL_TILE, the extent that holds it suspect (R222,
R288). -/
def Blk.sfBadTile (b : Blk) (f loc : Nat) : Blk :=
  ((b.modFifo f fun x => { x with crcErr := incr 8 x.crcErr
                                  suspect := addOnce (x.extents.getD (loc / 16) 0) x.suspect }).raiseAt 29 f).raise 5 5

/-- Drop `n` unread data bytes from the front; header tiles met on the way go with them. -/
def dropBytes : List FTile → Nat → List FTile
  | [], _ => []
  | t :: rest, n =>
    if t.header then (if n = 0 then t :: rest else dropBytes rest n)
    else if n = 0 then t :: rest
    else if t.bytes.length ≤ n then dropBytes rest (n - t.bytes.length)
    else { t with bytes := t.bytes.drop n } :: rest

/-! ## The crossing buffers (R228) -/

/-- Gray code of a pointer. -/
def grayOf (n : Nat) : Nat := Nat.xor n (n / 2)

/-- The pointer a Gray code of 7 bits stands for. -/
def grayNum (g : Nat) : Nat := (List.range 7).foldl (fun r k => Nat.xor r (g / 2 ^ k)) 0

/-- How far pointer `x` is ahead of pointer `y`, modulo 128. -/
def ahead (x y : Nat) : Nat := (x + 128 - y % 128) % 128

/-- Words the filling side counts as present: it sees the emptying side's pointer late. -/
def SPort.fillCount (x : SPort) : Nat := ahead x.wp (grayNum x.empty2)

/-- Words the emptying side counts as present: it sees the filling side's pointer late. -/
def SPort.takeCount (x : SPort) : Nat := ahead (grayNum x.fill2) x.rp

/-- A word is put into the buffer. -/
def SPort.put (x : SPort) (w : StreamWord) : SPort := { x with xbuf := x.xbuf ++ [w], wp := (x.wp + 1) % 128 }

/-- `n` words leave the buffer. -/
def SPort.take (x : SPort) (n : Nat) : SPort := { x with xbuf := x.xbuf.drop n, rp := (x.rp + n) % 128 }

/-- An edge of the filling side's clock: its pointer in Gray code, the other one through its two flops. -/
def SPort.fillEdge (x : SPort) : SPort := { x with wpGray := grayOf x.wp, empty1 := x.rpGray, empty2 := x.empty1 }

/-- An edge of the emptying side's clock. -/
def SPort.takeEdge (x : SPort) : SPort := { x with rpGray := grayOf x.rp, fill1 := x.wpGray, fill2 := x.fill1 }

/-- The buffer empty, with every pointer and flop at 0. -/
def SPort.cleared (x : SPort) : SPort :=
  { x with xbuf := [], wp := 0, rp := 0, wpGray := 0, rpGray := 0, fill1 := 0, fill2 := 0, empty1 := 0, empty2 := 0, ready := false }

/-- SPn is enabled in a direction, PD7 is powered, and no clock breach is in force (Table 10-3). -/
def Blk.spOn (b : Blk) (n : Nat) (out : Bool) : Bool :=
  b.on 7 && bit (b.spCfg n) 31 && bit (b.spCfg n) 30 == out && !(b.sport n).range

/-- The port serves a FIFO in CLOSING (R223). -/
def Blk.spClosing (b : Blk) (n : Nat) : Bool :=
  (List.range 32).any fun f => decide ((b.fifo f).state = .closing) && (b.sfIn f == some n || b.sfOut f == some n)

/-- SP_IREADY of an input port or SP_OVALID of an output port: what its last edge left, held low while the port may not move a
word (R223, R224, Table 10-3). -/
def Blk.spPin (b : Blk) (n : Nat) (out : Bool) : Bool := (b.sport n).ready && b.spOn n out && !b.spClosing n

/-- An edge of SPn_CLK at an input port: the word offered with SP_IREADY high transfers, and SP_IREADY follows the room (R224,
R228). -/
def Blk.spInEdge (b : Blk) (n : Nat) (w : Option StreamWord) : Blk :=
  let may := b.spOn n false && !b.spClosing n
  let pin := b.spPin n false
  b.modSport n fun x =>
    let y := match w with | some w => if pin then x.put w else x | none => x
    { y.fillEdge with ready := may && decide (y.fillCount < 64) }

/-- An edge of SPn_CLK at an output port: with SP_OVALID and SP_OREADY high the word goes to the peripheral, and SP_OVALID follows
the words seen (R224, R228). -/
def Blk.spOutEdge (b : Blk) (n : Nat) (take : Bool) : Blk :=
  let may := b.spOn n true && !b.spClosing n
  let go := b.spPin n true && take
  b.modSport n fun x =>
    let y := if go then x.take 1 else x
    { y.takeEdge with ready := may && decide (0 < y.takeCount) }

/-- An MCLK edge at the core side of an input port: a word that is seen goes into tile assembly while the FIFO takes it, and is
discarded in CLOSING (R223, R228). -/
def Blk.spCoreIn (b : Blk) (n : Nat) : Blk :=
  let seen := decide (0 < (b.sport n).takeCount)
  let (gone, b) := match b.sfOfPort n true, (b.sport n).xbuf with
    | some f, w :: _ => if seen then b.sfWord f w n else (false, b)
    | none, _ :: _ => (seen && b.spClosing n, b)
    | _, [] => (false, b)
  b.modSport n fun x => (if gone then x.take 1 else x).takeEdge

/-- A packet with nothing of it left to send leaves the FIFO with its header tile. -/
def Blk.sfSpent (b : Blk) (f : Nat) : Blk :=
  match b.sfPacket f, (b.fifo f).pkts with
  | true, p :: rest =>
    if p.done && !(b.fifo f).unread.any (fun t => !t.header && t.pkt == p.pseq) then
      (b.modFifo f fun x => { x with unread := x.unread.filter (fun t => t.pkt != p.pseq), pkts := rest }).sfFreed f
    else b
  | _, _ => b

/-- An MCLK edge at the core side of an output port: one word of pool tiles is put into the buffer while there is room. A word of
a tile with a poison tag or a failed check goes with every parity bit inverted (R225, R226, R228). -/
def Blk.spCoreOut (b : Blk) (n : Nat) : Blk :=
  let room := decide ((b.sport n).fillCount < 64)
  match b.sfOfPort n false with
  | none => b.modSport n SPort.fillEdge
  | some f =>
    match room, b.sfOutWord f with
    | true, some (bs, last) =>
      let r := checkTiles (b.fifo f).unread bs.length
      let b := r.2.foldl (fun b loc => b.sfBadTile f loc) (b.modFifo f fun x => { x with unread := r.1 })
      let w : StreamWord := ⟨bs, frontBad r.1 bs.length, last, bs.length - 1, false⟩
      let b := b.modFifo f fun x =>
        { x with unread := dropBytes x.unread bs.length, pkts := if last && b.sfPacket f then x.pkts.drop 1 else x.pkts }
      (b.sfFreed f).modSport n fun x => (x.put w).fillEdge
    | _, _ => (b.sfSpent f).modSport n SPort.fillEdge

/-- The stream ports over one MCLK cycle of `ps`: the core side of each enabled one, and the SPn_CLK edges that fall into the cycle
by its last measurement, at which no peripheral offers or takes a word (DESIGN CHOICE: assumption log 29). -/
def Blk.spCycle (b : Blk) (ps : Nat) : Blk :=
  if !b.on 7 then b
  else (List.range 8).foldl (fun b n =>
    if !bit (b.spCfg n) 31 then b
    else
      let out := bit (b.spCfg n) 30
      let b := if out then b.spCoreOut n else b.spCoreIn n
      let acc := (b.sport n).clkAcc + (b.sport n).mhz * ps
      let b := b.modSport n fun x => { x with clkAcc := acc % 1000000 }
      let edge := fun (b : Blk) => if out then b.spOutEdge n false else b.spInEdge n none
      if acc < 1000000 then b else if acc < 2000000 then edge b else edge (edge b)) b

/-- The hysteresis of every FIFO at the end of an MCLK cycle (R233). -/
def Blk.sfLevels (b : Blk) : Blk := b.fifos.foldl (fun b x => b.sfLevel x.1) b

/-! ## Enable, disable, commands -/

/-- A write of SF_CFG (R219, R222, R223, R241). -/
def Blk.sfCfgWrite (b : Blk) (f w : Nat) : Blk :=
  let old := b.sfCfg f
  let w := w - bits w 30 24 * 2 ^ 24 - bits w 15 13 * 2 ^ 13
  if bit old 31 then
    if bit w 31 then b
    else
      let b := (b.setReg (sfA f 0) (old - 2 ^ 31)).modFifo f fun x =>
        { x with state := if x.state = .off then .off else .closing, xoff := decide (x.state ≠ .off) }
      -- the consumer port sends nothing further (R223)
      match b.sfOut f with
      | some n => b.modSport n SPort.cleared
      | none => b
  else if !bit w 31 then b.setReg (sfA f 0) w
  else
    let b := b.setReg (sfA f 0) (w - 2 ^ 31)
    let okPort := fun (side : Option Nat) (out : Bool) => match side with
      | none => true
      | some n => bit (b.spCfg n) 31 && bit (b.spCfg n) 30 == out && !b.spNamed n
    let same := match b.sfIn f, b.sfOut f with | some i, some o => i == o | _, _ => false
    if (b.fifo f).state ≠ .off || !okPort (b.sfIn f) false || !okPort (b.sfOut f) true || same then b.raise 1 1
    else
      let n := bits (b.reg (sfA f 1)) 11 0
      let used := b.fifos.flatMap fun (_, x) => x.extents
      let free := (List.range 2048).filter fun e => !(used.contains e) && !(b.pool.mapped.contains e)
      if n < 8 || 2048 < n || free.length < n || b.pool.off then b.raise 1 2
      else
        let b := b.setReg (sfA f 0) w
        b.modFifo f fun _ => { state := .run, extents := free.take n }

/-- The FIFO is OFF with its counts kept; its suspect extents are mapped out (R222, Table 10-1). -/
def Blk.sfOff (b : Blk) (f : Nat) : Blk :=
  ({ b with pool := { b.pool with mapped := ((b.fifo f).suspect.foldl (fun l e => addOnce e l) b.pool.mapped) } }).modFifo f fun x =>
    { pktsDone := x.pktsDone, poisoned := x.poisoned, crcErr := x.crcErr, dropped := x.dropped, closed := x.closed }

/-- SF_CLOSE_DONE (Table 10-1): no holder or waiter, crossing buffers empty. -/
def sfCloseDoneB (f : Nat) (b : Blk) : Blk :=
  let x := b.fifo f
  let empty := fun (s : Option Nat) => match s with | some n => (b.sport n).xbuf.isEmpty | none => true
  if x.state = .closing && x.producer.isNone && x.consumer.isNone && x.prodWait.isEmpty && x.consWait.isEmpty
      && empty (b.sfIn f) && empty (b.sfOut f) then b.sfOff f
  else b

/-- PD7 powered down, or RELOAD: every FIFO is OFF with its contents discarded (Table 10-1). -/
def Blk.sfAllOff (b : Blk) : Blk :=
  let b := (List.range 32).foldl (fun b f => (b.setRegF (sfA f 0) 31 31 0).sfOff f) b
  (List.range 8).foldl (fun b n => b.modSport n SPort.cleared) b

/-- SF_CMD acts on a FIFO in RUN or HELD (R237). -/
def Blk.sfLive (b : Blk) (f : Nat) : Bool := match (b.fifo f).state with | .run | .held => true | _ => false

/-- Close the open tail (R234). -/
def Blk.sfClose (b : Blk) (f : Nat) : Blk :=
  let x := b.fifo f
  if b.sfPacket f then
    if x.openPkt then
      let b := b.sfEnd f true false
      b.modFifo f fun x => { x with skip := true, dropped := incr 8 x.dropped, closed := incr 8 x.closed }
    else b
  else if x.part.isEmpty then b
  else
    let b := b.modFifo f fun x => { x.pushPart 64 true true with closed := incr 8 x.closed }
    b.sfNotify f

/-- CLOSE_TAIL, at once (R234). -/
def Blk.sfCloseTail (b : Blk) (f : Nat) : Blk := if b.sfLive f then b.sfClose f else b

/-- STALE_TAIL: no word for SF_NOTIFY.STALE µs; 0 is never, and REFCLK counts the µs. -/
def staleTailB (f : Nat) (b : Blk) : Blk :=
  if decide (b.regF (sfA f 3) 15 0 ≠ 0) && !b.clock.refLost then b.sfCloseTail f else b

/-- DROP_REM (R236). Every command of the model falls between two tiles of the consumer. -/
def Blk.sfDropRem (b : Blk) (f : Nat) : Blk :=
  if !b.sfLive f then b
  else if b.sfPacket f then
    match (b.fifo f).pkts with
    | p :: rest =>
      let isOpen := (b.fifo f).openPkt && rest.isEmpty
      let held := (b.fifo f).consumer.isSome
      let b := b.modFifo f fun x =>
        { x with unread := x.unread.filter fun t => t.pkt != p.pseq
                 part := if isOpen then [] else x.part
                 openPkt := if isOpen then false else x.openPkt, skip := x.skip || isOpen
                 pkts := if held then { p with dropped := true, done := true } :: rest else rest
                 dropped := incr 8 x.dropped }
      b.sfFreed f
    | [] => b
  else if (b.fifo f).unread.isEmpty then b
  else
    let b := b.modFifo f fun x => { x with unread := [], dropped := incr 8 x.dropped }
    b.sfFreed f

/-- The words of an open packet up to ILAST are still to be discarded once `words` have been (R237). -/
def skipAfter (packet skip : Bool) (words : List StreamWord) : Bool :=
  if packet then words.foldl (fun _ w => !w.last) skip else skip

/-- An unretired FIFO_OUT that has read from the FIFO holds the rewind mark (R238). -/
def Blk.sfMarkHeld (b : Blk) (f : Nat) : Bool :=
  match (b.fifo f).consumer with
  | some (q, pos) =>
    match b.movers.flatMap fun (_, v) => v.places.flatMap fun (_, x) =>
        if !x.shadow && x.q == q then x.exec.filter fun e => e.pos == pos else [] with
    | e :: _ => decide (0 < e.fifoTiles)
    | [] => true
  | none => false

/-- FLUSH (R237). The crossing-buffer words that the core side sees are those of the producer's port; a packet cut among them is
discarded up to its ILAST (DEDUCED: assumption log 29). -/
def Blk.sfFlush (b : Blk) (f : Nat) : Blk :=
  if !b.sfLive f then b
  else
    let seen := match b.sfIn f with | some n => (b.sport n).xbuf.take (b.sport n).takeCount | none => []
    let b := match b.sfIn f with
      | some n => b.modSport n fun x => x.take (min x.takeCount x.xbuf.length)
      | none => b
    let x := b.fifo f
    let lost := !x.marked.isEmpty || b.sfMarkHeld f
    let held := x.consumer.isSome && b.sfPacket f
    let pk := b.sfPacket f
    let b := b.modFifo f fun x =>
      { x with unread := [], marked := [], part := [], skip := skipAfter pk (x.skip || x.openPkt) seen
               openPkt := false, forced := x.forced + tileBytes x.marked, markLost := x.markLost || lost
               pkts := if held then (x.pkts.take 1).map fun p => { p with dropped := true, done := true } else []
               state := .run }
    if lost then b.raiseAt 27 f else b

/-- A write of SF_CMD: FLUSH wins over OP (R237). -/
def Blk.sfCmd (b : Blk) (f w : Nat) : Blk :=
  if bit w 31 then b.sfFlush f
  else if bits w 2 0 = 1 then b.sfDropRem f
  else if bits w 2 0 = 2 then b.sfCloseTail f
  else b

/-! ## Stream ports -/

/-- SP_WORD_IN (R224-R228): an edge of SPn_CLK at which the peripheral offers a word. It transfers when SP_IREADY is high; a word
withdrawn is counted and not received. -/
def spWordInB (n : Nat) (w : StreamWord) (b : Blk) : Blk :=
  if w.withdrawn then
    if bit (b.spCfg n) 31 && !(bit (b.spCfg n) 30) then
      (b.modSport n fun x => { x with withdraw := incr 8 x.withdraw }).spInEdge n none
    else b
  else if !b.spPin n false then b.spInEdge n none
  else
    let parity := w.parityBad && bit (b.spCfg n) 29
    let short := !w.last && decide (w.inb ≠ 15)
    let b := if parity then (b.modSport n fun x => { x with parity := incr 8 x.parity }).raiseAt 11 n else b
    let b := if short then (b.modSport n fun x => { x with short := incr 8 x.short }).raiseAt 11 n else b
    b.spInEdge n (some { w with parityBad := parity || short })

/-- The first of these tiles that has not been read yet no longer agrees with its CRC. -/
def damageFirst : List FTile → List FTile
  | [] => []
  | t :: rest => if t.header || t.seen then t :: damageFirst rest else { t with crc := Nat.xor t.crc 1 } :: rest

/-- The pool tile that output port `n` reads next has been damaged where it lies: its check fails as it is read (R222, R226). -/
def Blk.poolHit (b : Blk) (n : Nat) (damage : Bool) : Blk :=
  match damage, b.sfOfPort n false with
  | true, some f => b.modFifo f fun x => { x with unread := damageFirst x.unread }
  | _, _ => b

/-- SP_WORD_OUT (R224-R226): an edge of SPn_CLK at which the peripheral accepts. The word offered goes; one with inverted parity is
counted in POISONED. With `damage` the tile that the port reads next is found damaged (log 7). -/
def spWordOutB (n : Nat) (damage : Bool) (b : Blk) : Blk :=
  (match b.spPin n true, (b.sport n).xbuf, b.sfOfPort n false with
  | true, w :: _, some f =>
    (b.modFifo f fun x => { x with poisoned := if w.parityBad then incr 8 x.poisoned else x.poisoned }).spOutEdge n true
  | _, _, _ => b.spOutEdge n true).poolHit n damage

/-- SP_CLK_MEASURE (Table 10-3): counted against REFCLK every 10 µs. -/
def spClkMeasureB (n kHz : Nat) (b : Blk) : Blk :=
  if b.clock.refLost || !b.on 7 then b
  else
    let old := (b.sport n).range
    let bad := decide (816000 < kHz)
    let range := bad || (old && decide (800000 < kHz))
    let b := b.modSport n fun x => { x with mhz := min 1023 (kHz / 1000), range := range, idle := decide (kHz = 0) }
    if bad && !old then b.raiseAt 12 n else b

/-- SP_STALL (Table 10-3): VALID high without READY for TMO µs; TMO 0 sets none. -/
def spStallB (n : Nat) (b : Blk) : Blk :=
  if b.on 7 && bit (b.spCfg n) 31 && decide (bits (b.spCfg n) 15 0 ≠ 0) && !b.clock.refLost then
    (b.modSport n fun x => { x with tmo := incr 8 x.tmo }).raise 11 (8 + n)
  else b

/-! ## Sides held by entries (R221) -/

/-- Order of two queues that ask in one MCLK cycle: cell queues first, then the lower number (R215, R221). -/
def qBefore (p q : QRef) : Bool := (p.isCell && !q.isCell) || (p.isCell == q.isCell && decide (p.num < q.num))

/-- Put an entry into a side's line, behind the entries of earlier cycles (R221). -/
def insSide (w : SideWait) : List SideWait → List SideWait
  | [] => [w]
  | y :: t => if w.cycle = y.cycle ∧ qBefore w.entry.1 y.entry.1 then w :: y :: t else y :: insSide w t

/-- The line of a side with an entry that reaches it now, unless the entry is in it or holds the side (R221). -/
def sideReach (holder : Option (QRef × Nat)) (line : List SideWait) (e : QRef × Nat) (c : Nat) : List SideWait :=
  if holder = some e ∨ line.any (fun w => w.entry == e) then line else insSide ⟨e, c⟩ line

/-- The entry holds the side, or may take it next. -/
def sideMay (holder : Option (QRef × Nat)) (line : List SideWait) (e : QRef × Nat) : Bool :=
  match holder with
  | some h => h == e
  | none => (line.head?.map (·.entry)) == some e

/-- An entry reaches a side of its FIFO (R221). -/
def Blk.sfReach (b : Blk) (f : Nat) (e : QRef × Nat) (out : Bool) : Blk :=
  b.modFifo f fun x =>
    if out then { x with consWait := sideReach x.consumer x.consWait e b.clock.cycle }
    else { x with prodWait := sideReach x.producer x.prodWait e b.clock.cycle }

/-- The entry holds a side of the FIFO or may take it next. -/
def Blk.sfMay (b : Blk) (f : Nat) (e : QRef × Nat) (out : Bool) : Bool :=
  let x := b.fifo f
  if out then sideMay x.consumer x.consWait e else sideMay x.producer x.prodWait e

/-- The entry takes the side with its first tile (R221). -/
def Blk.sfGrab (b : Blk) (f : Nat) (e : QRef × Nat) (out : Bool) : Blk :=
  b.modFifo f fun x =>
    if out then { x with consumer := some e, consWait := x.consWait.filter fun w => w.entry != e }
    else { x with producer := some e, prodWait := x.prodWait.filter fun w => w.entry != e }

/-- An entry gives up the sides it holds or waits for. -/
def Blk.sfRelease (b : Blk) (e : QRef × Nat) : Blk :=
  { b with fifos := tabMap {} (fun _ x =>
      { x with producer := if x.producer = some e then none else x.producer
               consumer := if x.consumer = some e then none else x.consumer
               prodWait := x.prodWait.filter fun w => w.entry != e
               consWait := x.consWait.filter fun w => w.entry != e }) b.fifos }

/-! ## The rewind mark (R238-R240) -/

/-- Free leading marked tiles of at most `n` bytes. -/
def freeMarked : List FTile → Nat → List FTile × Nat
  | [], n => ([], n)
  | t :: rest, n => if t.bytes.length ≤ n then freeMarked rest (n - t.bytes.length) else (t :: rest, n)

/-- A progress mark passes `n` more bytes of a FIFO_OUT: its marked tiles below the mark are freed. Answers the bytes
freed or forced free. -/
def Blk.sfMark (b : Blk) (f n : Nat) : Nat × Blk :=
  let x := b.fifo f
  let n' := n - x.forced
  let (m, left) := freeMarked x.marked n'
  let b := b.modFifo f fun x => { x with marked := m, forced := x.forced - n,
                                         markLost := x.markLost && decide (n < x.forced) }
  (min n x.forced + (n' - left), b.sfFreed f)

/-- Uncommitted tiles of a FIFO_IN become visible at its mark (R240). -/
def Blk.sfCommit (b : Blk) (f : Nat) : Blk :=
  b.modFifo f fun x => { x with unread := x.unread.map fun t => { t with committed := true } }

/-- Join a marked piece to the rest of its tile. -/
def joinTiles : List FTile → List FTile → List FTile
  | [], u => u
  | t :: rest, u =>
    match joinTiles rest u with
    | v :: w => if t.split then { v with bytes := t.bytes ++ v.bytes } :: w else t :: v :: w
    | [] => [{ t with split := false }]

/-- The read point goes back to the mark (R238). -/
def Blk.sfRewind (b : Blk) (f : Nat) : Blk :=
  b.modFifo f fun x => { x with unread := joinTiles x.marked x.unread, marked := [] }

/-! ## Tiles between movers and the pool -/

/-- Take data bytes for a FIFO_OUT from the first visible tile, at most `n`; of packet `pk` when one is given. -/
def Blk.sfTake (b : Blk) (f n : Nat) (pk : Option Nat) : Option (List Byte × Bool × Blk) :=
  match (b.fifo f).unread with
  | t :: rest =>
    if t.header || !t.committed || n = 0 || (match pk with | some p => t.pkt != p | none => false) then none
    else
      let whole := decide (t.bytes.length ≤ n)
      let got := t.bytes.take n
      let mk := { t with bytes := got, split := !whole }
      let rest' := if whole then rest else { t with bytes := t.bytes.drop n, seen := true } :: rest
      some (got, t.poison, b.modFifo f fun x => { x with unread := rest', marked := x.marked ++ [mk] })
  | [] => none

/-- The tile a FIFO_OUT would take next passes its CRC-32C check at the pool read; one that has been begun has (R222, R226). -/
def Blk.sfSound (b : Blk) (f : Nat) : Bool :=
  match (b.fifo f).unread with
  | t :: _ => t.header || !t.committed || t.seen || t.crc == poolCrc t.bytes
  | [] => true

/-- The place in its ring of the tile a FIFO read last: the newest marked one, else the first unread one. -/
def Fifo.readLoc (x : Fifo) : Nat := ((x.marked.getLast?.orElse fun _ => x.unread.find? fun t => !t.header).map (·.loc)).getD 0

/-- Write bytes of a FIFO_IN into the FIFO, at most one tile (R230, R232, R239, R240); false when the producer is held. -/
def Blk.sfPut (b : Blk) (f : Nat) (bs : List Byte) (poison : Bool) : Bool × Blk :=
  let commit := !b.sfCommitMark f
  let pk := b.sfPacket f
  if (b.fifo f).skip then (true, b)
  else
    let (ok, b) := if pk && !(b.fifo f).openPkt then b.sfBegin f 8 commit else (true, b)
    if !ok then (false, b)
    else if pk && !b.sfCut f && decide ((b.fifo f).capacity ≤ (b.fifo f).openTiles + 1) then
      (true, (b.sfEnd f false true).modFifo f fun x =>
        { x with dropped := incr 8 x.dropped, closed := incr 8 x.closed, skip := true })
    else
      let (ok, b) := b.sfNeedTile f
      if !ok then (false, b)
      else
        let t := b.now
        (true, b.modFifo f fun x =>
          let y := x.addTile bs poison false commit (x.pseq - 1) false
          if pk then y.modOpen fun p => { p with plen := p.plen + bs.length, tLast := t, poison := p.poison || poison }
          else y)

/-- The last byte of a FIFO_IN entry has entered: its packet ends, and so does a run of discarded bytes (R230, R232). -/
def Blk.sfLastIn (b : Blk) (f : Nat) : Blk :=
  if (b.fifo f).skip then b.modFifo f fun x => { x with skip := false }
  else if b.sfPacket f then b.sfEnd f false false
  else b

/-- The first unread tile may be taken: the header of the oldest packet, or its data, is committed (R231, R240). -/
def Blk.sfHeaderReady (b : Blk) (f : Nat) : Bool := ((b.fifo f).unread.head?.map (·.committed)).getD false

/-- The header tile of the oldest packet leaves the unread list for the marked one. -/
def Blk.sfTakeHeader (b : Blk) (f : Nat) : Blk :=
  match (b.fifo f).unread with
  | t :: rest => if t.header then b.modFifo f fun x => { x with unread := rest, marked := x.marked ++ [t] } else b
  | [] => b

/-- The oldest packet is wholly consumed, or the rest of it discarded unread (R231). -/
def Blk.sfDropPacket (b : Blk) (f : Nat) : Blk :=
  match (b.fifo f).pkts with
  | p :: rest =>
    let isOpen := (b.fifo f).openPkt && rest.isEmpty
    let b := b.modFifo f fun x =>
      { x with unread := x.unread.filter fun t => t.pkt != p.pseq
               part := if isOpen then [] else x.part
               openPkt := if isOpen then false else x.openPkt, skip := x.skip || isOpen, pkts := rest }
    b.sfFreed f
  | [] => b

end Sys2Proof.Machine
end

