-- ==== Sys2Proof/Machine/Settle.lean ====
section
/-! DEFINITION. Settling: progress marks (R148, R149), retiring (R146), what follows the acceptance of a completion
word (R91-R95), halts and stop points of entries, and the holding of queues in the Mews (R309). -/

namespace Sys2Proof.Machine
open Sys2Proof

/-! ## Offsets of an entry -/

/-- SUBKIND of an INDIRECT entry. -/
def Desc.subkind (d : Desc) : Nat := leAt d.raw 0x20 1

/-- CHECK, or INDIRECT of CHECK jobs. -/
def Desc.checks (d : Desc) : Bool := d.kind == kCheck || (d.kind == kIndirect && d.subkind == 6)

/-- FILL, or INDIRECT of FILL jobs. -/
def Desc.fills (d : Desc) : Bool := d.kind == kFill || (d.kind == kIndirect && d.subkind == 5)

/-- The entry reads a source on the fabric by the request generator. -/
def Desc.readsSrc (d : Desc) : Bool :=
  [kCopy, kStride, kGather, kScatter, kCheck, kMcast, kRelay, kFifoIn].contains d.kind
    || (d.kind == kIndirect && d.subkind != 5)

/-- The FIFO of a FIFO_IN or FIFO_OUT entry (Table 4-3). -/
def Desc.fifo (d : Desc) : Nat := if d.kind = kFifoIn then bits d.dst 4 0 else bits d.src 4 0

/-- FIFO_OUT with PACKET. -/
def Desc.packetOut (d : Desc) : Bool := d.kind == kFifoOut && bit d.aux 2

/-- Output bytes for each destination; a packet's header and data once its length is known (R75, R140, R231). -/
def Exec.total (e : Exec) : Nat :=
  let d := e.desc
  if d.checks || d.kind = kWait || d.kind = kNop || d.kind = kFence || d.kind = kSnap || d.kind = kAscat then 0
  else if d.packetOut then
    match e.pktLen with
    | some n => 64 + (n + groupIn d.reshape - 1) / groupIn d.reshape * groupOut d.reshape
    | none => 64 + outLen d.reshape d.len
  else outLen d.reshape d.len

/-- DST_OFS: destination bytes accepted on every destination (R148). -/
def Exec.dstOfs (e : Exec) : Nat := e.wr.foldl (fun n (_, o, _) => min n o) e.dstPres

/-- SRC_OFS: source bytes covered by accepted writes; bytes consumed on CHECK (Table 6-5). -/
def Exec.srcCov (e : Exec) : Nat :=
  if e.desc.checks then e.srcOfs else if e.desc.packetOut then e.srcOfs else inLen e.desc.reshape e.dstOfs

/-- Fragment or job, and the bytes of it below offset `o` (Table 6-5). -/
def fragPos : List Frag → Nat → Nat → Nat × Nat
  | [], i, o => (i, o)
  | f :: t, i, o => if o < f.len then (i, o) else fragPos t (i + 1) (o - f.len)

/-- FRAG and FRAG_OFS of an entry's mark. -/
def Exec.fragMark (e : Exec) : Nat × Nat :=
  if e.frags.isEmpty || e.desc.kind = kMcast then (0, 0)
  else fragPos e.frags 0 (if e.desc.kind = kGather || e.desc.checks then e.srcCov else e.dstOfs)

/-- Every write the entry has made ready is presented, and every read it has issued has returned (R244). -/
def Exec.atStop (e : Exec) : Bool :=
  e.reads.all (·.done) && e.out.isEmpty && (e.desc.checks || e.desc.kind == kAscat || e.buf.isEmpty)

/-! ## Progress marks -/

/-- PORTS of a mark (Table 6-5): the ports written by entries that no publication covers yet. -/
def Blk.portsMask (b : Blk) (q : QRef) : Nat :=
  let x := b.queue q
  let ex := match b.boundAt q with
    | some (m, k) => (((b.binding m k).map (·.exec)).getD []).map (·.ports)
    | none => []
  (x.unpub.map (·.ports) ++ ex).foldl Nat.lor x.ports

/-- Write a progress mark (R149): SEQ advances once for each mark. -/
def Blk.putMark (b : Blk) (q : QRef) (active : Bool) (pos src dst : Nat) (fr : Nat × Nat) : Blk :=
  let ports := b.portsMask q
  b.modRun q fun r => { r with mark := ⟨incr 8 r.mark.seq, active, pos, src, dst, ports, fr.1, fr.2⟩ }

/-- The mark of an entry partly executed, at what it has done so far (Table 6-5). -/
def Blk.markEntry (b : Blk) (q : QRef) (e : Exec) : Blk :=
  (b.putMark q true e.pos e.srcCov e.dstOfs e.fragMark).modRun q fun r => { r with markCrc := e.crc }

/-- The FIFO follows a mark of one of its entries (R238, R240). -/
def Blk.fifoMark (b : Blk) (m k : Nat) (e : Exec) : Blk :=
  let f := e.desc.fifo
  if e.desc.kind = kFifoIn then b.sfCommit f
  else if e.desc.kind = kFifoOut then
    let (n, b) := b.sfMark f (e.srcCov - e.fifoFreed)
    b.modExec m k e.pos fun e => { e with fifoFreed := e.fifoFreed + n }
  else b

/-- Bytes that count toward the 4 KiB marks (R148): source bytes for CHECK and, DESIGN CHOICE (log 29), for every byte of a
GATHER, of which R148 names the first step. -/
def Exec.markBytes (e : Exec) : Nat :=
  if e.desc.checks || e.desc.kind = kGather then e.srcCov else e.dstOfs

/-- The entry has nothing more to issue, read, write or wait for. -/
def Exec.finished (e : Exec) : Bool :=
  !e.dead && decide (e.stage = .done) && e.reads.isEmpty && e.wr.isEmpty && e.out.isEmpty

/-- A CHECK without REPORT has consumed its source: it retires in this cycle (R124). -/
def Exec.checkEnds (e : Exec) : Bool :=
  e.desc.checks && decide (e.desc.len ≤ e.srcOfs) && !(e.desc.kind == kCheck && bit e.desc.aux 1)

/-- A mark at each multiple of 4,096 accepted bytes of the oldest entry; with codes 0x3 and 0x4 at whole output groups. A
retire in the same cycle makes the one mark (R148). -/
def Blk.markCheck (b : Blk) (m k : Nat) (e : Exec) : Blk :=
  match b.binding m k with
  | some x =>
    let aligned := decide (e.desc.kind = kSnap) || decide (e.desc.kind = kAscat)
    let head := (x.exec.head?.map (·.pos)) == some e.pos
    if e.dead || aligned || !head || e.finished || e.checkEnds || e.markBytes / 4096 ≤ e.markAt / 4096 then b
    else
      let g := groupOut e.desc.reshape
      let at_ := if e.desc.checks || e.desc.kind = kGather then e.markBytes / 4096 * 4096
        else e.markBytes / 4096 * 4096 / g * g
      let dst := if e.desc.checks then 0 else if e.desc.kind = kGather then outLen e.desc.reshape at_ else at_
      let src := if e.desc.checks || e.desc.kind = kGather then at_ else inLen e.desc.reshape at_
      let b := b.modExec m k e.pos fun e => { e with markAt := e.markBytes }
      let fr := if e.frags.isEmpty || e.desc.kind = kMcast then (0, 0) else fragPos e.frags 0 at_
      ((b.putMark x.q true e.pos src dst fr).modRun x.q fun r => { r with markCrc := e.crcMark }).fifoMark m k e
  | none => b

/-! ## Retiring (R146) -/

/-- The runs of a side of an entry from `lo` up to `hi`: address and length. -/
def runsOf (at_ : Nat → Option (Nat × Nat)) : Nat → Nat → Nat → List (Nat × Nat)
  | 0, _, _ => []
  | fuel + 1, lo, hi =>
    if hi ≤ lo then []
    else match at_ lo with
      | some (a, n) => let n := max 1 (min n (hi - lo)); (a, n) :: runsOf at_ fuel (lo + n) hi
      | none => []

/-- Bytes of a run lie in a NOREP target range. -/
def Blk.norepRun (b : Blk) (r : Nat × Nat) : Bool :=
  b.img.targets.any fun t => t.norep && decide (r.1 < t.base + t.pages * 4096) && decide (t.base < r.1 + r.2)

/-- Every run of fabric bytes an entry reads as its source, from offset `lo` up to `hi`. -/
def Exec.srcRuns (e : Exec) (lo hi : Nat) : List (Nat × Nat) :=
  if e.desc.readsSrc then runsOf (srcAt e) (hi + 1) lo hi else []

/-- Every run of fabric bytes an entry writes, from destination offset `lo` up to `hi`. -/
def Exec.dstRuns (e : Exec) (lo hi : Nat) : List (Nat × Nat) :=
  if e.desc.kind = kFifoIn then []
  else (List.range (dstCount e.desc)).flatMap fun i => runsOf (dstAt e e.total i) (hi + 1) lo hi

/-- Runs outside the plain source and destination: a CHECK's result, an aligned entry's targets, its SNAP record or its
ASCAT source. -/
def Exec.otherRuns (e : Exec) : List (Nat × Nat) :=
  let d := e.desc
  let ts := match e.plan with | some pl => pl.targets.map fun t => (t.addr, t.len) | none => []
  if d.kind = kCheck ∧ bit d.aux 1 then [(d.dst, 4)]
  else if d.kind = kSnap then ts ++ [(d.dst, d.len)]
  else if d.kind = kAscat then ts ++ [(d.src, d.len)]
  else []

/-- Some byte of the entry is not repeatable (R7, Table 0-6). -/
def Blk.entryNorep (b : Blk) (e : Exec) : Bool :=
  let d := e.desc
  d.norepSrc || d.norepDst || e.frags.any (·.norep)
    || (e.srcRuns 0 d.len ++ e.dstRuns 0 e.total ++ e.otherRuns).any b.norepRun
    || (d.kind == kFifoIn && !b.sfCommitMark d.fifo) || (d.kind == kFifoOut && (b.fifo d.fifo).markLost)

/-- Merge the pairs of an entry into a list. -/
def addPairs (l : List Pair) (ps : List Pair) : List Pair := ps.foldl addPair l

/-- The retire mark (R148, Table 6-5): at the entry that follows, partly executed where it has begun. -/
def Blk.retireMark (b : Blk) (m k : Nat) (q : QRef) (nx : Nat) : Blk :=
  match ((b.binding m k).map (·.exec)).getD [] with
  | e :: _ =>
    let aligned := e.desc.kind == kSnap || e.desc.kind == kAscat
    if e.launched && !aligned && !e.dead && decide (0 < e.markBytes + e.dstOfs) then
      ((b.markEntry q e).modExec m k e.pos fun e => { e with markAt := e.markBytes }).fifoMark m k e
    else b.putMark q false nx 0 0 (0, 0)
  | [] => b.putMark q false nx 0 0 (0, 0)

/-- The oldest entry of a binding retires: its pairs, its mark, its place in the next publication (R93, R146, R148). -/
def Blk.retire (b : Blk) (m k : Nat) (e : Exec) : Blk :=
  match b.binding m k with
  | some x =>
    let q := x.q
    let y := b.queue q
    let nx := y.next e.pos
    let r : Retired := ⟨e.pos, e.desc.last, e.desc.irq, leAt e.desc.raw 1 1, e.endLine, e.notices, e.desc.first,
                        b.entryNorep e, e.win, Nat.lor y.ports e.ports⟩
    let fence := e.desc.kind == kFence
    let b := b.modQueue q fun y => { y with
      flush := addPairs y.flush e.pairs
      sinceFence := if fence then [] else addPairs y.sinceFence e.pairs
      unpub := y.unpub ++ [r]
      ports := 0
      ep := { y.ep with executed := y.ep.executed + 1 }
      run := { y.run with retiredTo := nx, bytesMoved := (y.run.bytesMoved + e.dstOfs) % 2 ^ 72 } }
    let b := b.modMover m fun v => { v with retiredCnt := incr 32 v.retiredCnt }
    let b := (b.modQueue q Queue.applyDeferred).modBinding m k fun x =>
      { x with exec := x.exec.filter fun e' => e'.pos != e.pos }
    let b := if y.run.pauseMark then b else b.retireMark m k q nx
    let b := if e.desc.kind = kFifoIn || e.desc.kind = kFifoOut then (b.fifoMark m k e).sfRelease (q, e.pos) else b
    let b := b.dropGate m k
    if e.desc.last then b.tryPublish q else b
  | none => b

/-! ## Failing entries -/

/-- Remove the requests of an arbiter that satisfy `p` and free the tags they hold. -/
def Blk.dropReads (b : Blk) (p : Pkt → Bool) : Blk :=
  { b with ports := tabMap {} (fun _ v =>
      let gone := v.wait.filter fun k => !k.isWrite && k.tagged && p k
      let v := gone.foldl (fun v k => v.freeTagAt k.tag false) v
      { v with wait := v.wait.filter fun k => k.isWrite || !p k }) b.ports }

/-- The packet is a data read of an entry. -/
def isReadOf (q : QRef) (pos : Nat) (k : Pkt) : Bool :=
  match k.purpose with
  | .data _ p _ q' => q' == q && p == pos
  | .target _ p _ q' => q' == q && p == pos
  | _ => false

/-- The tag record of an entry's read. -/
def Port.recOf (x : Port) (q : QRef) (pos seq : Nat) : Option TagRec :=
  (x.tags.find? fun (_, t) => t.inUse && (match t.purpose with
    | .data _ p s q' => q' == q && p == pos && s == seq
    | _ => false)).map (·.2)

/-- Free the requests a plan holds and has not presented (R191). -/
def Blk.dropPlan (b : Blk) (m k : Nat) (e : Exec) : Blk :=
  match e.plan with
  | some pl =>
    let b := pl.targets.foldl (fun b t => match t.held with
      | some (p, pk) => if pk.isWrite then b else b.modPort p fun v => v.freeTagAt pk.tag false
      | none => b) b
    b.modExec m k e.pos fun e => { e with plan := e.plan.map fun pl =>
      { pl with armed := false, targets := pl.targets.map fun t => { t with held := none } } }
  | none => b

/-- The entry without the read that its launch gate held. -/
def Exec.ungated (e : Exec) : Exec :=
  match e.gate, e.reads.getLast? with
  | some (_, some _), some r =>
    { e with gate := none, reads := e.reads.dropLast, srcIss := if r.isList then e.srcIss else e.srcIss - r.len
             listIss := if r.isList then e.listIss - r.len else e.listIss }
  | _, _ => { e with gate := none }

/-- Free the armed first request of an entry, or the requests of its plan (R171, R255). -/
def Blk.dropArmed (b : Blk) (m k : Nat) (e : Exec) : Blk :=
  let b := b.dropPlan m k e
  let b := match e.gate with
    | some (p, some pk) => b.modPort p fun v => v.freeTagAt pk.tag false
    | _ => b
  (b.modExec m k e.pos Exec.ungated).dropGate m k

/-- An entry of a binding fails: its queue is to halt in front of its chain; entries behind it are dropped, and what is
still to return to them is discarded (R95). -/
def Blk.failEntry (b : Blk) (m k pos status : Nat) (info : List Byte) : Blk :=
  match b.binding m k with
  | some x =>
    match x.exec.find? (fun e => e.pos = pos) with
    | some e =>
      let q := x.q
      let b := b.haltWith q (haltReport status pos e.desc.cookie e.srcCov e.dstOfs info)
      let b := x.exec.foldl (fun b e' =>
        if (x.exec.takeWhile fun z => z.pos != pos).any (fun z => z.pos == e'.pos) then b
        else ((b.dropArmed m k e').dropReads (isReadOf q e'.pos)).sfRelease (q, e'.pos)) b
      let older := x.exec.takeWhile fun z => z.pos != pos
      let b := b.modBinding m k fun x => { x with
        lbuf := [], plans := []
        exec := x.exec.map fun e' => if older.any (fun z => z.pos == e'.pos) then e'
          else { e' with dead := true, out := [], buf := [], gate := none
                         reads := e'.reads.filter fun r => r.done || ((b.port r.port).recOf q e'.pos r.seq).isSome } }
      b.dropWaiters q
    | none => b
  | none => b

/-- Dead entries with nothing outstanding leave; the failed entry's record takes its final offsets. -/
def Blk.reapDead (b : Blk) (m k : Nat) : Blk :=
  match b.binding m k with
  | some x =>
    let gone := x.exec.filter fun e => e.dead && e.wr.isEmpty && e.reads.all (·.done)
    let b := b.modBinding m k fun x => { x with exec := x.exec.filter fun e => !(gone.any fun g => g.pos == e.pos) }
    gone.foldl (fun b e => b.modQueue x.q fun y => { y with report := y.report.map fun r =>
      if r.pos = e.pos ∧ r.status ≠ 0x13 then { r with srcOfs := e.srcCov, dstOfs := e.dstOfs } else r }) b
  | none => b

/-! ## Stop points: covered halts, repeats and holds -/

/-- The entry has issued a request, or has taken tiles of its FIFO (R255). -/
def Exec.begun (e : Exec) : Bool := e.launched || decide (0 < e.fifoTiles)

/-- An entry judged late before its first request: the FIFO tiles it has taken are unread again, its side is free (R172,
R221). -/
def Blk.sfUndo (b : Blk) (m k : Nat) (q : QRef) (e : Exec) : Blk :=
  if e.desc.kind = kFifoOut then
    ((if 0 < e.fifoTiles then b.sfRewind e.desc.fifo else b).sfRelease (q, e.pos)).modExec m k e.pos fun e =>
      { e with fifoTiles := 0, srcIss := 0, srcOfs := 0, buf := [], out := [], pktLen := none, dstPres := 0, resultDone := false }
  else b.sfRelease (q, e.pos)

/-- Stop the entries in execution of a binding at their stop point (R244): no further read is issued; entries in the
local buffer go back to Chervil, as entry tiles of the Mews. -/
def Blk.stopExec (b : Blk) (q : QRef) : Blk :=
  match b.boundAt q with
  | some (m, k) =>
    let l := ((b.binding m k).map (·.exec)).getD []
    let strong := match (b.queue q).acting with | some s => decide (3 < s.mode.strength) | none => false
    let whole := fun (e : Exec) => (e.desc.kind == kSnap || e.desc.kind == kAscat) && e.launched && !strong
    -- an aligned group that has been released is not cut in part (R191)
    let b := l.foldl (fun b e => if whole e then b else b.dropArmed m k e) b
    let b := b.dropWaiters q
    let b := b.lbufToMews q
    -- an entry that has issued nothing is treated as not started (R255)
    let b := l.foldl (fun b e => if e.begun || e.dead then b else b.sfRelease (q, e.pos)) b
    b.modBinding m k fun x =>
      { x with exec := (x.exec.filter fun e => e.begun || e.dead).map fun e => { e with stopAt := true } }
  | none => b

/-- An aligned entry's stop point: after its release PAUSE lets every target finish; ABORT and DISABLE reach it once
nothing presented is outstanding (R191). -/
def Blk.alignedStop (b : Blk) (q : QRef) (e : Exec) : Bool :=
  let strong := match (b.queue q).acting with | some s => decide (3 < s.mode.strength) | none => false
  let out := match e.plan with
    | some pl => pl.targets.any fun t => t.launched.isSome && !t.done
    | none => false
  !e.launched || e.dead || (strong && !out)

/-- Every entry in execution of the queue has reached its stop point. -/
def Blk.execStopped (b : Blk) (q : QRef) : Bool :=
  !(b.sched.fovers.any fun f => f.q == q) && match b.boundAt q with
  | some (m, k) => match b.binding m k with
    | some x => x.exec.all fun e => e.atStop && e.wr.isEmpty
        && (!(e.desc.kind == kSnap || e.desc.kind == kAscat) || b.alignedStop q e)
    | none => true
  | none => true

/-- Fetching starts again after what the binding holds. -/
def Blk.refetch (b : Blk) (q : QRef) (pos : Nat) : Blk :=
  b.modQueue q fun x =>
    let last := (x.unpub.getLast?.map (·.last)).getD true
    { x with run := { x.run with fetched := pos, prevLast := last } }

/-- The pairs and ports of entries that leave execution before they retire stay the queue's (R93, Table 6-5). -/
def Queue.keepWrites (y : Queue) (l : List Exec) : Queue :=
  { y with flush := addPairs y.flush (l.flatMap (·.pairs)), ports := l.foldl (fun n e => Nat.lor n e.ports) y.ports }

/-- Take the pause mark of the entry in execution, which leaves the binding (R245). -/
def Blk.pauseEntry (b : Blk) (q : QRef) : Blk :=
  match b.boundAt q with
  | some (m, k) =>
    match ((b.binding m k).map (·.exec)).getD [] with
    | e :: _ =>
      let b := b.markEntry q e
      let b := (b.modRun q fun r => { r with pauseMark := true }).fifoMark m k e
      let norep := b.entryNorep e
      let b := b.modQueue q fun y => { y.keepWrites [e] with pausedNorep := norep, sinceFence := addPairs y.sinceFence e.pairs }
      (b.modBinding m k fun x => { x with exec := [] }).refetch q e.pos
    | [] => b.modRun q fun r => { r with fetched := r.retiredTo }
  | none => b

/-- Status a slot's state gives a request that may not wait (R309). -/
def slotStop (s : SlotState) (hold : Bool) : Option Nat :=
  match s with
  | .empty => some 0x23
  | .off => if hold then none else some 0x23
  | .failedAtInsertion | .faulted => some 0x25
  | _ => none

/-- Code of a slot state (Table 13-11). -/
def SlotState.code : SlotState → Nat
  | .empty => 0 | .debounce => 1 | .ramp => 2 | .settle => 3 | .ready => 4 | .held => 5 | .failedAtInsertion => 6
  | .discharge => 7 | .off => 8 | .passDamaged => 9 | .faulted => 10

/-- INFO of the slot statuses (Table 13-2). -/
def Blk.slotInfo (b : Blk) (s old new : Nat) : List Byte :=
  infoOf [(0, 4, s + 256 * (b.slot s).state.code), (4, 8, old), (12, 8, new)]

/-- SLT_CFG.HOLD of a slot. -/
def Blk.sltHold (b : Blk) (s : Nat) : Nat := b.regF (0x05000 + 4 * s) 23 16

/-- The reads of an entry from the first one to a slot on are abandoned: their tags stay out of use (R130, R309). -/
def Blk.abandonFrom (b : Blk) (m k : Nat) (q : QRef) (s : Nat) (e : Exec) : Blk :=
  let toSlot := fun (r : RdReq) => !r.done && (match b.rangeOf r.addr with
    | some (_, t) => t.slotValid && t.slot == s
    | none => false)
  match (e.reads.find? toSlot).map (·.seq) with
  | none => b
  | some n =>
    let mine := fun (u : Purpose) => match u with
      | .data _ p s' q' => q' == q && p == e.pos && decide (n ≤ s')
      | _ => false
    let b := b.dropReads fun pk => mine pk.purpose
    let b := { b with ports := tabMap {} (fun _ v =>
      { v with tags := tabMap {} (fun _ (r : TagRec) =>
          if r.inUse && mine r.purpose then { r.freed with withheld := true } else r) v.tags }) b.ports }
    b.modExec m k e.pos fun e => { e with reads := e.reads.filter fun r => r.seq < n }

/-- An entry waits on a slot: its reads to the slot are abandoned, its queue goes to the stop point and is then held
(R309). The hold starts with the first entry that waits on a slot that has not yet been READY. -/
def Blk.holdOn (b : Blk) (q : QRef) (s : Nat) : Blk :=
  if (b.queue q).holding.isSome then b
  else
    let b := b.modSlot s fun x => if x.wasReady || x.hold then x else { x with hold := true }
    let b := b.modQueue q fun x => { x with holding := some s }
    match b.boundAt q with
    | some (m, k) =>
      let b := b.modBinding m k fun x => { x with exec := x.exec.map fun e => { e with stopAt := true } }
      (((b.binding m k).map (·.exec)).getD []).foldl (fun b e => b.abandonFrom m k q s e) b
    | none => b

/-- The entries in execution of a queue that waits on a slot have come to their stop point (R309): bytes that cannot be
written while the slot is not READY are read again later. -/
def Blk.holdStopped (b : Blk) (q : QRef) : Bool :=
  match b.boundAt q with
  | some (m, k) => match b.binding m k with
    | some x => x.flushOut == 0 && x.exec.all fun e => e.reads.all (·.done) && e.wr.isEmpty
        && (!(e.desc.kind == kSnap || e.desc.kind == kAscat) || b.alignedStop q e)
    | none => true
  | none => true

/-- At the stop point the queue is put into the Mews and flagged HELD, or halts when the Mews is full (R309, R361). A
slot that is READY again by then holds nothing: the queue goes on. -/
def Blk.holdCheck (b : Blk) (q : QRef) : Blk :=
  match (b.queue q).holding with
  | none => b
  | some s =>
    if !b.holdStopped q || (b.queue q).report.isSome then b
    else
      let b := b.modQueue q fun x => { x with holding := none }
      let x := b.queue q
      let pos := match b.boundAt q with
        | some (m, k) => ((((b.binding m k).map (·.exec)).getD []).head?.map (·.pos)).getD x.run.retiredTo
        | none => x.run.retiredTo
      let b := b.pauseEntry q
      let b := b.lbufToMews q
      let idle := fun (b : Blk) => b.modRun q fun r => { r with phase := if r.phase = .bound then .idle else r.phase }
      if (b.slot s).state = .ready then ((idle b).freeBinding q 30).bindOrWait q
      else
        let b := b.mewsRoom
        if b.mewsSize ≤ b.holdTiles + b.sched.mews.length then
          let mk := (b.queue q).run.mark
          let cookie := match x.copyAt pos with | some c => leAt c 6 2 | none => 0
          (b.haltWith q (haltReport 0x60 pos cookie (if mk.active then mk.srcOfs else 0) (if mk.active then mk.dstOfs else 0)
            (infoOf [(0, 1, 3)]))).haltCheck q
        else
          let b := (idle b).freeBinding q 30
          let b := b.modQueue q fun x => { x with heldSlot := some s }
          b.modSlot s fun v => { v with held := addOnce q v.held }

/-- A covered halt: the entry in execution is dropped at its stop point and the head index stays (R305). -/
def Blk.coveredCheck (b : Blk) (q : QRef) : Blk :=
  if (b.queue q).afterCovered && (b.queue q).report.isSome && b.execStopped q then
    match b.boundAt q with
    | some (m, k) =>
      let l := ((b.binding m k).map (·.exec)).getD []
      ((b.modBinding m k fun x => { x with exec := [] }).modQueue q fun y => { y with ports := (y.keepWrites l).ports }).haltCheck q
    | none => b.haltCheck q
  else b

/-- The uncommitted tiles of a FIFO_IN entry that is to run again are discarded (R240). -/
def Blk.sfDiscard (b : Blk) (d : Desc) : Blk :=
  if d.kind = kFifoIn then
    b.modFifo d.fifo fun x =>
      let gone := x.unread.filter fun t => !t.committed
      let begun := gone.any (·.header)
      let x := { x with unread := x.unread.filter (·.committed), part := []
                        nextLoc := (x.nextLoc + (x.capacity - gone.length)) % max 1 x.capacity }
      if begun then { x with pkts := x.pkts.dropLast, openPkt := false, pseq := x.pseq - 1 }
      else if x.openPkt then x.modOpen fun p => { p with plen := p.plen - tileBytes gone }
      else x
  else b

/-- A lost write whose chain may be repeated: at the stop point the queue's resume point becomes the chain's FIRST
(R305). -/
def Blk.repeatCheck (b : Blk) (q : QRef) : Blk :=
  match (b.queue q).lostWrite with
  | some first =>
    if (b.queue q).report.isSome || !b.execStopped q then b
    else
      let x := b.queue q
      let ex : List Exec := match b.boundAt q with
        | some (m, k) => ((b.binding m k).map (·.exec)).getD []
        | none => []
      let n := ex.foldl (fun n e => n + e.dstOfs) 0
      let b := { b with movp := { b.movp with repeated := (b.movp.repeated + n) % 2 ^ 32 } }
      let b := ex.foldl (fun b e => if e.desc.kind = kFifoOut then b.sfRewind e.desc.fifo else b.sfDiscard e.desc) b
      let b := ex.foldl (fun b e => b.sfRelease (q, e.pos)) b
      let b := match b.boundAt q with
        | some (m, k) => b.modBinding m k fun y => { y with exec := [], lbuf := [], plans := [] }
        | none => b
      let keep := x.unpub.takeWhile fun r => r.pos != first
      let run := { x.run with retiredTo := first, pauseMark := false }
      let ports := ((x.unpub.filter fun r => !(keep.any fun y => y.pos == r.pos)).map (·.ports)).foldl Nat.lor (x.keepWrites ex).ports
      let b := b.modQueue q fun x => { x with unpub := keep, lostWrite := none, run := run, ports := ports }
      (b.putMark q false first 0 0 (0, 0)).refetch q first
  | none => b

/-! ## After publication -/

/-- The completion word of head position `target` is accepted: the covered entries leave, their interrupts, RL_END
pulses and late notices follow (R92, R213, R276, R172). -/
def Blk.published (b : Blk) (q : QRef) (target : Nat) (after : Option (Nat × Pkt)) : Blk :=
  let x := b.queue q
  let cov := x.unpub.filter fun r => decide (x.dist r.pos x.run.head < x.dist target x.run.head)
  let w := (cov.filter (·.irq)).length
  let idle := match b.boundAt q with
    | some (m, k) => (((b.binding m k).map (·.exec)).getD []).isEmpty
    | none => true
  let b := b.modQueue q fun x =>
    let gone := fun p => decide (x.dist p x.run.head < x.dist target x.run.head)
    let route := x.newRoute.filter fun r => !decide (x.dist r.2 x.run.head ≤ x.dist target x.run.head)
    let rest := x.unpub.filter fun r => !gone r.pos
    { x with cache := x.cache.filter fun c => !gone c.pos, unpub := rest,
             newRoute := route, keepPath := if idle && rest.isEmpty then [] else x.keepPath,
             keepPort := if idle && rest.isEmpty then [] else x.keepPort, run := { x.run with head := target } }
  let b := b.modSched fun s => { s with mews := s.mews.filter fun t => t.q != q || !(cov.any fun r => r.pos == t.pos) }
  let word := le (cplWordBytes x.size target x.run.pubcount)
  let b := match q with
    | .cell n => b.modSched fun s => { s with lostCells := tabSet 0 s.lostCells n word }
    | .dom _ => b
  let b := cov.foldl (fun b r => match r.endLine with | some n => b.rlEnd n | none => b) b
  let b := if 0 < w then b.modQueue q fun x => { x with mod := { x.mod with irqWords := addOnce target x.mod.irqWords } } else b
  let b := b.queueIrq q w after
  cov.foldl (fun b r => r.notices.foldl (fun b n => b.genRecord x.cfg.dom q n) b) b

/-- The queue's record or next publication follows, and whatever waited for its stop point. -/
def Blk.settleCheck (b : Blk) (q : QRef) : Blk :=
  let b := b.tryPublish q
  let b := b.coveredCheck q
  let b := b.repeatCheck q
  (b.holdCheck q).haltCheck q

/-- The further message behind a rewritten completion word that covers a signalled IRQ entry: not moderated, still subject
to the vector and to a sleeping domain (R279, R280). -/
def Blk.resendMsg (b : Blk) (q : QRef) (after : Option (Nat × Pkt)) : Blk :=
  let x := b.queue q
  if x.cfg.novec then b
  else if b.asleep x.cfg.dom then
    if x.cfg.sleepHold then b.modQueue q fun x => { x with mod := { x.mod with held := true } }
    else (b.raiseAt 48 x.cfg.dom).due x.cfg.vec x.cfg.dom after
  else b.due x.cfg.vec x.cfg.dom after

/-- A completion word is accepted (R91-R95). -/
def Blk.wordAccepted (b : Blk) (q : QRef) (target : Nat) (after : Option (Nat × Pkt)) : Blk :=
  let b := b.modQueue q fun x => { x with words := x.words - 1, mod := { x.mod with last := after } }
  let x := b.queue q
  let ahead := decide (x.dist target x.run.head ≤ x.size) && decide (target ≠ x.run.head)
  let b := if ahead then b.published q target after else b
  let b := if x.mod.resend then (b.modQueue q fun x => { x with mod := { x.mod with resend := false } }).resendMsg q after
    else b
  b.settleCheck q

end Sys2Proof.Machine
end

