-- ==== Sys2Proof/Machine/Mover.lean ====
section
/-! DEFINITION. Movers: taking entries into execution, address checks, the request generator, the lanes, and the
writes of every kind but SNAP and ASCAT (R114-R147, R220-R231). -/

namespace Sys2Proof.Machine
open Sys2Proof

/-! ## Checks (R117, R118, R309) -/

/-- INFO of ADDR_WINDOW (Table 13-2). -/
def addrInfo (write noRange : Bool) (a : Nat) : List Byte := infoOf [(0, 4, b1 write + 2 * b1 noRange), (4, 8, a)]

/-- INFO of DESC_FORMAT. -/
def formatInfo (reason : Nat) : List Byte := infoOf [(0, 1, reason)]

/-- The window check of a range: INFO of its failure (R117). -/
def Blk.windowFail (b : Blk) (d : Nat) (a : Int) (len : Nat) (write : Bool) : Option (List Byte) :=
  let a' := addr64 a
  if a < 0 || len = 0 || !b.winOk d a' len (!write) write then
    let segs := (b.windowsOf d (!write) write).map fun w => (w.base, w.base + w.pages * 4096)
    let bad := reachFrom segs (segs.length + 1) a'
    if a < 0 || len ≠ 0 then some (addrInfo write (b.rangeOf bad).isNone bad) else none
  else none

/-- What a slot that is not READY does to a request at `a` (R309): the slot, and the status of a stop or none to wait. -/
def Blk.slotVerdict (b : Blk) (a : Nat) : Option (Nat × Option Nat) :=
  match b.rangeOf a with
  | some (_, t) =>
    if t.slotValid && decide ((b.slot t.slot).state ≠ .ready) then
      let v := slotStop (b.slot t.slot).state (b.slot t.slot).hold
      -- a HOLD of 0 makes every wait expire at once (R309)
      some (t.slot, if v.isNone && b.sltHold t.slot == 0 then some 0x25 else v)
    else none
  | none => none

/-- An entry stops or waits on a slot (R309). -/
def Blk.slotAct (b : Blk) (m k pos : Nat) (v : Nat × Option Nat) : Blk :=
  match v.2, b.binding m k with
  | some st, _ => b.failEntry m k pos st (b.slotInfo v.1 0 0)
  | none, some x => b.holdOn x.q v.1
  | none, none => b

/-- The address-stage checks before the first request: status and INFO of the first failure (R117, R124, R127, R74). -/
def Blk.addressStage (b : Blk) (dom : Nat) (d : Desc) : Option (Nat × List Byte) :=
  let n := bits d.aux 15 0
  let misaligned := (d.kind == kCheck && bit d.aux 1 && d.dst % 4 != 0)
    || (d.kind == kRelay && (d.src % 64 != 0 || d.dst % 64 != 0)) || (d.kind == kGather && d.src % 16 != 0)
    || (d.kind == kScatter && d.dst % 16 != 0) || (d.kind == kMcast && bit d.aux 4 && d.dst % 64 != 0)
  let win := fun (a len : Nat) (w : Bool) => (b.windowFail dom a len w).map fun i => (0x10, i)
  let out := outLen d.reshape d.len
  let first := fun (l : List (Option (Nat × List Byte))) => l.findSome? id
  if misaligned then some (0x12, formatInfo 10)
  else if d.kind = kStride then
    let (sa, sn) := strideBox d d.src (srcStride d) (strideCnt d 0)
    let (da, dn) := strideBox d d.dst (dstStride d) (outLen d.reshape (strideCnt d 0))
    first [(b.windowFail dom sa sn false).map fun i => (0x10, i), (b.windowFail dom da dn true).map fun i => (0x10, i)]
  else if d.kind = kCopy ∨ d.kind = kRelay then first [win d.src d.len false, win d.dst out true]
  else if d.kind = kGather then win d.dst out true
  else if d.kind = kScatter ∨ d.kind = kFifoIn then win d.src d.len false
  else if d.kind = kFill then win d.dst d.len true
  else if d.kind = kCheck then first [win d.src d.len false, if bit d.aux 1 then win d.dst 4 true else none]
  else if d.kind = kMcast then
    first (win d.src d.len false :: if bit d.aux 4 then [] else (List.range (dstCount d)).map fun i =>
      win (if i = 0 then d.dst else leAt d.raw (0x18 + 8 * i) 8) out true)
  else if d.kind = kFifoOut then
    first ((List.range (dstCount d)).map fun i =>
      win (if i = 0 then d.dst else leAt d.raw (0x18 + 8 * i) 8) (out + if d.packetOut then 64 else 0) true)
  else if d.kind = kIndirect ∧ n = 0 then none
  else none

/-- The checks of a FIFO entry against a FIFO that is not OFF (R220). -/
def Blk.fifoStage (b : Blk) (dom : Nat) (d : Desc) : Option (Nat × List Byte) :=
  let f := d.fifo
  let c := b.sfCfg f
  let isIn := d.kind == kFifoIn
  if !b.on 7 || b.pool.off then some (0x60, infoOf [(0, 1, 1)])
  else if (b.fifo f).state = .closing then some (0x60, infoOf [(0, 1, 2)])
  else if !(bit c 12) && bits c 23 16 ≠ dom then some (0x10, addrInfo isIn true 0)
  else if (if isIn then (b.sfIn f).isSome else (b.sfOut f).isSome) || (if isIn then bit d.aux 0 else bit d.aux 2) != bit c 8 then
    some (0x12, formatInfo 13)
  else none

/-! ## Taking an entry into execution (R114) -/

/-- The entry as a local buffer holds it. -/
def Exec.lentry (e : Exec) (w : Option Window) : LEntry := ⟨e.pos, e.desc, w, e.tcrc⟩

/-- An entry at its start; `src` and `dst` where a mark lets it continue. -/
def newExec (l : LEntry) (st : ExStage) (gated : Bool) (src dst : Nat) : Exec :=
  { pos := l.pos, desc := l.desc, win := l.win, tcrc := l.crc, stage := st, launched := false, gatedFirst := gated, gate := none,
    due := none, nextSeq := 0, reads := [], srcIss := src, srcOfs := src, buf := [], out := [], dstPres := dst, wr := [], pairs := [], ports := 0,
    frags := [], listIss := 0, listBuf := [], crc := 0xFFFFFFFF, crcMark := 0xFFFFFFFF, resultDone := false, markAt := dst, stopAt := false,
    fifoTiles := 0, fifoFreed := 0, pktLen := none, plan := none, fenceWait := false, fenced := false, poisoned := false,
    poisonTile := 0, poisonPort := none, dead := false, notices := [], endLine := none, record := [], bad := none }

/-- Bytes of the list or table of an entry, its address, and the size of one of its entries (Tables 4-3, 4-6). -/
def listOf (d : Desc) : Nat × Nat × Nat :=
  let n := bits d.aux 15 0
  if d.kind = kGather then (16 * n, d.src, 16)
  else if d.kind = kScatter then (16 * n, d.dst, 16)
  else if d.kind = kIndirect then (32 * n, d.src, 32)
  else if d.kind = kMcast ∧ bit d.aux 4 then (8 * bits d.aux 3 0, d.dst, 8)
  else (0, 0, 8)

/-- The generator has issued every request of the entry, so the next entry may start (R114). -/
def Exec.issuedAll (e : Exec) : Bool :=
  !e.fenceWait && match e.stage with
  | .done => true
  | .running =>
    if e.desc.kind = kSnap || e.desc.kind = kAscat then false
    else decide ((listOf e.desc).1 ≤ e.listIss)
      && (if e.desc.readsSrc then decide (e.desc.len ≤ e.srcIss) else decide (e.total ≤ e.dstPres))
  | _ => false

/-- Service class of a queue's requests (Table 9-1). -/
def Blk.svcOf (b : Blk) (q : QRef) : Svc :=
  match q with
  | .cell _ => .cell
  | .dom _ => match (b.queue q).cfg.sclass % 4 with | 0 => .standard | 1 => .express | 2 => .bulk | _ => .background

/-- Class of a request at source offset `o`: an EXPRESS entry runs as STANDARD past its first 4,096 bytes (R194). -/
def Blk.svcAt (b : Blk) (q : QRef) (o : Nat) : Svc :=
  if b.svcOf q = .express ∧ 4096 ≤ o then .standard else b.svcOf q

/-- A descriptor touches a range of a route key; the addresses of a list kind are not known before its list. -/
def Blk.touches (b : Blk) (d : Desc) (key : Nat) : Bool :=
  let at_ := fun a => match b.rangeOf a with | some (_, t) => t.routeKey == key | none => false
  [kGather, kScatter, kSnap, kAscat, kIndirect].contains d.kind || (d.kind == kMcast && bit d.aux 4)
    || at_ d.src || at_ d.dst || (d.kind == kMcast || d.kind == kFifoOut) && (at_ (leAt d.raw 0x20 8) || at_ (leAt d.raw 0x28 8))

/-- Cells that a stop lets start: under DRAIN only entries of the chain in execution (R246). -/
def Blk.mayStart (b : Blk) (q : QRef) (d : Desc) : Bool :=
  let x := b.queue q
  let stopOk := match b.stopOn q with
    | none => true
    | some s => match s.mode with
      | .atPhase => true
      | .drain => !d.first
      | _ => false
  stopOk && x.holding.isNone && x.lostWrite.isNone && !(b.sched.fovers.any fun f => f.q == q) && !x.afterCovered && !(x.newRoute.any fun r => b.touches d r.1)
    && (match x.run.phase with | .bound | .stopping => true | _ => false)

/-- Place an entry in execution. -/
def Blk.pushExec (b : Blk) (m k : Nat) (e : Exec) : Blk := b.modBinding m k fun x => { x with exec := x.exec ++ [e] }

/-- The line a WAIT names (Table 4-3). -/
def Desc.waitLine (d : Desc) : LineRef := if bits d.aux 1 0 = 1 then .wired (bits d.aux 15 4) else .virt (bits d.aux 15 4)

/-- Put a waiter behind those of earlier cycles; of one cycle cell queues go first, then the lower number (R215). -/
def insWaiter (w : Waiter) : List Waiter → List Waiter
  | [] => [w]
  | y :: t => if w.cycle = y.cycle ∧ qBefore w.q y.q then w :: y :: t else y :: insWaiter w t

/-- A waiter joins its line (R215). -/
def Blk.addWaiter (b : Blk) (m k : Nat) (q : QRef) (d : Desc) : Blk :=
  let c := b.clock.cycle
  b.modSched fun s => { s with waiters := insWaiter ⟨d.waitLine, m, k, q, s.waitSeq, c⟩ s.waiters, waitSeq := s.waitSeq + 1 }

/-- Stage an entry begins in. -/
def startStage (d : Desc) : ExStage :=
  if d.kind = kNop then .done
  else if d.kind = kWait || d.kind = kFifoIn || d.kind = kFifoOut || d.kind = kSnap || d.kind = kAscat then .waiting
  else .running

/-- Take an entry from the local buffer into execution (R114, R252). An entry before the pause mark retires without a
request; the one at the mark continues from it. Answers whether it was taken. -/
def Blk.startEntry (b : Blk) (m k : Nat) (l : LEntry) (gated : Bool) : Blk :=
  match b.binding m k with
  | some x =>
    let q := x.q
    let y := b.queue q
    let d := l.desc
    let b := b.modBinding m k fun x => { x with lbuf := x.lbuf.drop 1 }
    let mk := y.run.mark
    let skip := y.run.pauseMark && decide (l.pos ≠ mk.pos) && decide (y.dist l.pos y.run.head < y.dist mk.pos y.run.head)
    let cont := (y.run.pauseMark || mk.active) && decide (l.pos = mk.pos)
    let b := if cont then b.modRun q fun r => { r with pauseMark := false } else b
    let planned := ((b.binding m k).map (·.plans)).getD [] |>.find? fun p => p.pos = l.pos
    let b := b.modBinding m k fun x => { x with plans := x.plans.filter fun p => p.pos != l.pos }
    let src := decide (d.kind = kGather) || d.checks
    let e := match planned with
      | some p => { p with win := l.win, gatedFirst := gated }
      | none =>
        -- an entry that goes on from its mark has launched before (R148, R252)
        if cont then { newExec l (startStage d) gated mk.srcOfs mk.dstOfs with
          launched := mk.active, crc := y.run.markCrc, crcMark := y.run.markCrc, markAt := if src then mk.srcOfs else mk.dstOfs }
        else newExec l (startStage d) gated 0 0
    if l.crc ≠ tileCrc d.raw fullMask then
      -- the tile fails its CRC: the entries go back and are filled from Chervil again (R10, R285)
      (b.modBinding m k fun x => { x with lbuf := [] }).refetch q l.pos
    else if skip then b.pushExec m k { e with stage := .done }
    else match b.addressStage y.cfg.dom d with
      | some (st, info) => (b.pushExec m k e).failEntry m k l.pos st info
      | none =>
        let fence := d.fence || d.kind == kFence
        let b := b.pushExec m k { e with fenceWait := fence, stage := if fence && d.kind = kNop then .running else e.stage }
        if d.kind = kWait && !fence && bits d.aux 1 0 ≠ 0 && l.win.isNone then b.addWaiter m k q d else b
  | none => b

/-! ## The generator (R119-R123, R135, R141) -/

/-- What the generator would do next for an entry. -/
inductive GenAct where
  | idle
  | read (addr len : Nat) (isList : Bool)
  | fill
  | fail (status : Nat) (info : List Byte)
  | slot (v : Nat × Option Nat)
  deriving DecidableEq, Repr

/-- Bytes the fragments must sum to (R74, R128, R140). -/
def fragLimit (d : Desc) : Nat := if d.kind = kScatter then outLen d.reshape d.len else d.len

/-- Good leading fragments: their bytes, and the REASON at the first bad one. -/
def fragScan (limit : Nat) : List Frag → Nat → Nat × Option Nat
  | [], acc => (acc, none)
  | f :: t, acc =>
    if f.len = 0 then (acc, some 6) else if limit < acc + f.len then (acc, some 9) else fragScan limit t (acc + f.len)

/-- The fragment or job at offset `o` and the offset of its start. -/
def fragHolding : List Frag → Nat → Nat → Option (Frag × Nat)
  | [], _, _ => none
  | f :: t, start, o => if o < start + f.len then some (f, start) else fragHolding t (start + f.len) o

/-- A read at `a` of at most `n` bytes, with its route and slot checks; in a window of the domain if asked. -/
def Blk.readAct (b : Blk) (dom a n limit : Nat) (check isList : Bool) : GenAct :=
  let len := b.cutLen a n limit
  match (if check then b.windowFail dom a len false else none) with
  | some i => .fail 0x10 i
  | none =>
    if (b.rangeOf a).isNone then .fail 0x10 (addrInfo false true a)
    else match b.slotVerdict a with
      | some v => .slot v
      | none => .read a len isList

/-- The offset the generator works toward: destination bytes for SCATTER and FILL jobs, source bytes otherwise. -/
def Exec.genOfs (e : Exec) : Nat := if e.desc.kind = kScatter || e.desc.fills then e.dstPres else e.srcIss

/-- Data reads and list reads outstanding, and their reorder tiles (R116). -/
def Exec.readsOut (e : Exec) : List RdReq := e.reads.filter fun r => !r.done

/-- The reads of a SNAP plan's targets that hold a tag: armed, or presented and not complete (R183). -/
def Exec.targetReads (e : Exec) : List PlanTarget :=
  match e.plan with
  | some pl => if e.desc.kind = kSnap then pl.targets.filter fun t => !t.done && (t.held.isSome || t.launched.isSome) else []
  | none => []

/-- Read requests a binding has outstanding, those of armed plans among them (Table 6-2). -/
def Binding.readCount (x : Binding) : Nat :=
  ((x.exec ++ x.plans).flatMap (·.readsOut)).length + (x.exec.flatMap (·.targetReads)).length

/-- Reorder tiles a binding has reserved (Table 6-2). -/
def Binding.readTiles (x : Binding) : Nat :=
  ((x.exec ++ x.plans).flatMap (·.readsOut)).foldl (fun n r => n + tilesOf r.addr r.len) 0
    + (x.exec.flatMap (·.targetReads)).foldl (fun n t => n + tilesOf t.addr t.len) 0

/-- Most requests of a binding: 32, or 64 while it holds an armed aligned entry (R116, R183). -/
def Binding.readLimit (x : Binding) : Nat :=
  if x.exec.any fun e => match e.plan with | some pl => pl.armed && !e.dead | none => false then 64 else 32

/-- The bound of R116 on the requests and tiles of a binding. -/
def Binding.roomFor (x : Binding) (a len : Nat) : Bool :=
  decide (x.readCount < x.readLimit) && decide (x.readTiles + tilesOf a len ≤ 512)

/-- SNAP or ASCAT. -/
def Exec.aligned (e : Exec) : Bool := e.desc.kind == kSnap || e.desc.kind == kAscat

/-- TTAB of an aligned entry (Table 4-3). -/
def Desc.ttab (d : Desc) : Nat := leAt d.raw 0x20 8

/-- Bytes of the target table (R177). -/
def Desc.tableLen (d : Desc) : Nat := 16 * (bits d.aux 5 0 + 2)

/-- The next read of an aligned entry's plan: its table, then ASCAT's command data (R177, R183, R190). -/
def Blk.planNext (b : Blk) (dom : Nat) (e : Exec) : GenAct :=
  let d := e.desc
  if e.dead || e.fenceWait || decide (e.stage ≠ .list) || e.bad.isSome then .idle
  else if e.listIss < d.tableLen then
    let a := d.ttab + e.listIss
    b.readAct dom a (min (64 - a % 64) (d.tableLen - e.listIss)) b.img.ident.mrrs true true
  else if d.kind = kAscat && e.srcIss < d.len then
    b.readAct dom (d.src + e.srcIss) (d.len - e.srcIss) b.img.ident.mrrs true false
  else .idle

/-- The window of an entry lets a first request out (R168, R169): it has launched, has none, runs late, or is open. -/
def Blk.mayLaunch (b : Blk) (e : Exec) : Bool :=
  e.launched || !e.notices.isEmpty || (match e.win with
    | none => true
    | some w => b.puOpen w.unit && atOrPast (b.pu w.unit).ph w.openAt && !atOrPast (b.pu w.unit).ph w.closeAt)

/-- The whole list or table of an entry has been read and decoded. -/
def Exec.listDone (e : Exec) : Bool :=
  decide ((listOf e.desc).1 ≤ e.listIss) && !(e.reads.any (·.isList)) && decide (e.listBuf.length < 8)

/-- The fragments or jobs of an entry make up its length, none of them bad and none left (R71, R74, R128). -/
def Exec.listGood (e : Exec) : Bool :=
  (listOf e.desc).1 == 0 || (e.listDone && (e.desc.kind == kMcast
    || fragScan (fragLimit e.desc) e.frags 0 == (fragLimit e.desc, none)))

/-- The window checks of a source read: the fragment or job it belongs to, and what it is written to (R117). -/
def Blk.reachFail (b : Blk) (dom : Nat) (e : Exec) : Option (List Byte) :=
  let d := e.desc
  if d.kind = kGather ∨ d.kind = kIndirect then
    (fragHolding e.frags 0 e.srcIss).bind fun (f, _) =>
      (b.windowFail dom f.src f.len false).orElse fun _ =>
        if d.kind = kIndirect ∧ d.subkind = 1 then b.windowFail dom f.dst f.len true else none
  else if d.kind = kMcast ∧ bit d.aux 4 then
    (List.range (dstCount d)).findSome? fun i => b.windowFail dom (extraDst e i) e.total true
  else none

/-- The next request of an entry (R122, R141); nothing while it waits. -/
def Blk.genNext (b : Blk) (dom : Nat) (e : Exec) : GenAct :=
  let d := e.desc
  let mrrs := b.img.ident.mrrs
  if e.aligned then b.planNext dom e else
  let (lbytes, lbase, _) := listOf d
  let (good, bad) := fragScan (fragLimit d) e.frags 0
  if e.dead || e.fenceWait || decide (e.stage ≠ .running) || !b.mayLaunch e then .idle
  else if e.stopAt then
    let g := groupIn d.reshape
    let part := (e.buf.length + (e.readsOut.foldl (fun n r => n + r.len) 0)) % (if g = 0 then 1 else g)
    if d.readsSrc && !d.checks && part ≠ 0 && e.readsOut.isEmpty then
      match srcAt e e.srcIss with
      | some (a, n) => b.readAct dom a (min n (g - part)) mrrs false false
      | none => .idle
    else .idle
  else
    let lastStart := (e.frags.dropLast).foldl (fun n f => n + f.len) 0
    let wantList := decide (e.listIss < lbytes) && !(e.reads.any (·.isList))
      && (d.kind = kMcast || e.frags.isEmpty || decide (lastStart ≤ e.genOfs))
    if wantList then
      let a := lbase + e.listIss
      b.readAct dom a (min (64 - a % 64) (lbytes - e.listIss)) mrrs true true
    else if d.kind = kMcast && lbytes ≠ 0 && !e.listDone then .idle
    else if lbytes ≠ 0 && d.kind ≠ kMcast && bad.isSome && good ≤ e.genOfs then .fail 0x12 (formatInfo (bad.getD 9))
    else if lbytes ≠ 0 && d.kind ≠ kMcast && e.listDone && good ≤ e.genOfs && decide (good < fragLimit d) then
      .fail 0x12 (formatInfo 9)
    else if d.fills then (if e.dstPres < e.total then .fill else .idle)
    else if !d.readsSrc || d.len ≤ e.srcIss then .idle
    else match srcAt e e.srcIss, b.reachFail dom e with
      | some _, some i => .fail 0x10 i
      | some (a, n), none => b.readAct dom a n mrrs false false
      | none, _ => .idle

/-- Build the packet of a read of an entry; the port that takes it. -/
def Blk.readPkt (b : Blk) (m : Nat) (q : QRef) (e : Exec) (a len : Nat) (svc : Svc) : Option (Nat × Pkt) :=
  (b.routeOf q a e.desc.path).map fun (p, path, _) =>
    (p, { pkt0 with addr := a, len := len, dom := (b.queue q).cfg.dom, path := path, ask := e.desc.path, svc := svc,
                    mover := some m, purpose := .data m e.pos e.nextSeq q })

/-- Note a read as issued in the entry. -/
def Exec.issued (e : Exec) (a len port path : Nat) (isList : Bool) : Exec :=
  let r : RdReq := { seq := e.nextSeq, addr := a, len := len, port := port, path := path, isList := isList, got := [],
                     rel := 0, done := false, retried := false, reread := false }
  { e with nextSeq := e.nextSeq + 1, reads := e.reads ++ [r], launched := e.launched || !e.aligned
           srcIss := if isList then e.srcIss else e.srcIss + len
           listIss := if isList then e.listIss + len else e.listIss }

/-- Issue a read of an entry if its port has a tag and tiles, else count the lost cycle (R23, R135). -/
def Blk.issueRead (b : Blk) (m k : Nat) (q : QRef) (e : Exec) (a len : Nat) (isList : Bool) : Blk :=
  let svc := if e.gatedFirst && !e.launched then .gated else b.svcAt q (if isList then 0 else e.srcIss)
  match b.readPkt m q e a len svc, b.binding m k with
  | some (p, pk), some x =>
    if !x.roomFor a len then b
    else if !(b.port p).canRead a len then b.modCnt p fun c => { c with tagWait := incr 32 c.tagWait }
    else (b.modExec m k e.pos fun e => e.issued a len p pk.path isList).present p pk
  | _, _ => b

/-! ## The lanes -/

/-- Byte `i` of what a tag has received. -/
def gotByte (l : List (Nat × Byte × Bool)) (i : Nat) : Option (Byte × Bool) := (l.find? fun (j, _) => j == i).map (·.2)

/-- The bytes of a request that lie in complete tiles from its start, with the poison of their tiles (R133, R138). -/
def tileRelease (a len : Nat) (got : List (Nat × Byte × Bool)) : List (Byte × Bool) :=
  let pre := ((List.range len).takeWhile fun i => (gotByte got i).isSome).length
  let n := if pre = len then len else pre - min pre ((a + pre) % 64)
  let bad := (got.filter fun (_, _, p) => p).map fun (i, _, _) => (a + i) / 64
  (List.range n).map fun i => (((gotByte got i).map (·.1)).getD 0, bad.contains ((a + i) / 64))

/-- Release complete tiles of the entry's reads in issue order to the read lane (R133). -/
def Blk.releaseReads (b : Blk) (q : QRef) : Nat → Exec → Exec
  | 0, e => e
  | fuel + 1, e =>
    match e.reads with
    | [] => e
    | r :: rest =>
      let av := if r.done then r.got
        else match (b.port r.port).recOf q e.pos r.seq with
          | some t => tileRelease r.addr r.len t.got
          | none => []
      let new := av.drop r.rel
      let e := if r.isList then { e with listBuf := e.listBuf ++ new.map (·.1) } else
        { e with buf := e.buf ++ new,
                 poisonPort := if e.poisonPort.isNone && new.any (·.2) then some r.port else e.poisonPort }
      if r.done then Blk.releaseReads b q fuel { e with reads := rest }
      else { e with reads := { r with rel := max r.rel av.length } :: rest }

/-- Turn list bytes into fragments, jobs or destinations (Table 4-6). -/
def parseList (kind size : Nat) : Nat → List Byte → List Frag → List Byte × List Frag
  | 0, bs, fs => (bs, fs)
  | fuel + 1, bs, fs =>
    if bs.length < size then (bs, fs)
    else
      let a := leAt bs 0 8
      let f : Frag :=
        if kind = kGather then ⟨a, 0, leAt bs 8 4, bit (leAt bs 12 4) 0⟩
        else if kind = kScatter then ⟨0, a, leAt bs 8 4, bit (leAt bs 12 4) 0⟩
        else if kind = kIndirect then ⟨a, leAt bs 8 8, leAt bs 16 4, bit (leAt bs 20 4) 0⟩
        else ⟨0, a, 0, false⟩
      parseList kind size fuel (bs.drop size) (fs ++ [f])

/-- Feed the CHECK register: each job of an INDIRECT has its own (R124, R128). Answers the entry and the computed value of
a job that fails its comparison. -/
def Exec.feedCheck : Nat → Exec → Exec × Option Nat
  | 0, e => (e, none)
  | fuel + 1, e =>
    let ind := e.desc.kind == kIndirect
    let left := if ind then
        match fragHolding e.frags 0 e.srcOfs with
        | some (f, s) => s + f.len - e.srcOfs
        | none => 0
      else e.desc.len - e.srcOfs
    let n := min (min left e.buf.length) (4096 - e.srcOfs % 4096)
    if n = 0 then (e, none)
    else
      let crc := crc32cFeed e.crc ((e.buf.take n).map (·.1))
      let ends := ind && n = left
      let o := e.srcOfs + n
      let next := if ends then 0xFFFFFFFF else crc
      let e := { e with crc := next, crcMark := if o % 4096 = 0 then next else e.crcMark, srcOfs := o, buf := e.buf.drop n }
      let v := Nat.xor crc 0xFFFFFFFF
      if ends && v ≠ leAt e.desc.raw 0x28 4 then (e, some v) else Exec.feedCheck fuel e

/-- Move released bytes through the reshape unit (R139). -/
def Exec.reshape (e : Exec) : Exec :=
  let (o, r) := reshapeStream e.desc.reshape (e.buf.length + 1) e.buf
  { e with out := e.out ++ o, buf := r }

/-- Address `a` belongs to the entry's own source (R145). -/
def Exec.inSource (e : Exec) (a : Nat) : Bool :=
  let d := e.desc
  if d.kind = kCopy || d.kind = kScatter || d.kind = kMcast || d.kind = kRelay || d.kind = kCheck then decide (d.src ≤ a) && decide (a < d.src + d.len)
  else if d.kind = kGather || (d.kind = kIndirect && d.subkind == 1) then
    e.frags.any fun f => decide (f.src ≤ a) && decide (a < f.src + f.len)
  else if d.kind = kStride then
    let (lo, n) := strideBox d d.src (srcStride d) (strideCnt d 0)
    decide (lo ≤ (a : Int)) && decide ((a : Int) < lo + n)
      && (List.range (strideCnt d 1 * strideCnt d 2 * strideCnt d 3)).any fun r =>
        let s := rowAddr d.src (srcStride d) (strideCnt d 1) (strideCnt d 2) r
        decide (s ≤ a) && decide (a < s + strideCnt d 0)
  else false

/-- The bytes a write carries: those at addresses of the entry's own source are free values (R145). -/
def Blk.writeBytes (b : Blk) (e : Exec) (a : Nat) (bs : List Byte) : List Byte × Blk :=
  if (List.range bs.length).any fun i => e.inSource (a + i) then
    (bs.zipIdx.map fun (x, i) => if e.inSource (a + i) then Config.freeByte (b.freeNo + i) else x,
     { b with freeNo := b.freeNo + bs.length })
  else (bs, b)

/-! ## Writes (R122, R129, R138, R141, R142, R147) -/

/-- The requests of destination `i` for output bytes from `o`, `n` bytes: address, offset, length (R119, R129). -/
def Blk.cutPieces (b : Blk) (e : Exec) (i : Nat) : Nat → Nat → Nat → List (Nat × Nat × Nat)
  | 0, _, _ => []
  | fuel + 1, o, n =>
    if n = 0 then []
    else match dstAt e e.total i o with
      | some (a, c) =>
        let l := max 1 (b.cutLen a (min c n) b.img.ident.mps)
        (a, o, l) :: Blk.cutPieces b e i fuel (o + l) (n - l)
      | none => []

/-- A pair needs a flush read: it is not the completion word's, or the entry is DURABLE (R93). -/
def Blk.pairNeeds (b : Blk) (q : QRef) (d : Desc) (port path : Nat) : Bool := d.durable || b.cplPair q != (port, path)

/-- PAIRS of a binding: those of its entries and those recorded since the last publication (Table 6-2). -/
def Blk.pairsOf (b : Blk) (m k : Nat) : List Pair :=
  match b.binding m k with
  | some x => addPairs (b.queue x.q).flush (x.exec.flatMap (·.pairs))
  | none => []

/-- Issue flush reads for FENCE or the PAIRS limit and count them at the binding (R85, R147). -/
def Blk.fenceFlush (b : Blk) (m k : Nat) (q : QRef) (l : List Pair) : Blk :=
  let b := b.modBinding m k fun x => { x with flushOut := x.flushOut + l.length }
  l.foldl (fun b p => b.sendFlush p.port p.path p.lastAddr (b.queue q).cfg.dom (.fence m q)) b

/-- Forget pairs that satisfy `p`. -/
def Blk.forgetPairs (b : Blk) (q : QRef) (p : Pair → Bool) : Blk :=
  let b := b.modQueue q fun x => { x with flush := x.flush.filter fun y => !p y }
  match b.boundAt q with
  | some (m, k) => b.modBinding m k fun x =>
      { x with exec := x.exec.map fun e => { e with pairs := e.pairs.filter fun y => !p y } }
  | none => b

/-- Present one write of an entry. -/
def Blk.putWrite (b : Blk) (m k : Nat) (q : QRef) (e : Exec) (dest a o : Nat) (bs : List (Byte × Bool)) : Blk :=
  match b.routeOf q a e.desc.path with
  | some (p, path, _) =>
    let (data, b) := b.writeBytes e a (bs.map (·.1))
    let relay := if e.desc.kind = kRelay then
        some (bits e.desc.aux 17 0, bits e.desc.aux 23 18, bit e.desc.aux 24) else none
    let svc := if e.gatedFirst && !e.launched then .gated else b.svcAt q (inLen e.desc.reshape o)
    let pr : Pair := ⟨p, path, a + bs.length - 1, b.pairNeeds q e.desc p path⟩
    let b := b.modExec m k e.pos fun e =>
      { e with wr := e.wr ++ [(dest, o, bs.length)], pairs := addPair e.pairs pr, ports := Nat.lor e.ports (2 ^ p), launched := true }
    let b := b.countTiles q 0 (tilesOf a bs.length)
    b.present p { pkt0 with isWrite := true, addr := a, len := bs.length, data := data, dom := (b.queue q).cfg.dom,
                            path := path, ask := e.desc.path, poison := bs.any (·.2), relay := relay, svc := svc, mover := some m,
                            purpose := .dataTo m e.pos dest o q }
  | none => b

/-- The first destination address of a chunk that no range covers, or whose slot is not READY, or outside the windows of
a fragment or job. -/
def Blk.chunkStop (b : Blk) (dom : Nat) (e : Exec) (ps : List (Nat × Nat × Nat × Nat)) : GenAct :=
  match ps.findSome? fun (_, a, o, l) =>
    let d := e.desc
    let (wa, wl) := if d.kind = kScatter || d.kind = kIndirect then
        (match fragHolding e.frags 0 o with | some (f, _) => (f.dst, f.len) | none => (a, l)) else (a, l)
    let check := d.kind == kScatter || d.kind == kIndirect
    match (if check then b.windowFail dom wa wl true else none) with
    | some i => some (GenAct.fail 0x10 i)
    | none =>
      if (b.rangeOf a).isNone then some (.fail 0x10 (addrInfo true true a))
      else (b.slotVerdict a).map GenAct.slot with
  | some x => x
  | none => .idle

/-- INFO of POISON for an entry's first poisoned tile (Table 13-2). -/
def Exec.poisonInfo (e : Exec) (tile : Nat) : List Byte := infoOf [(0, 1, e.poisonPort.getD 0), (4, 4, tile)]

/-- The first poisoned byte of an entry counts its queue's poison once (R138). -/
def Blk.notePoison (b : Blk) (m k : Nat) (q : QRef) (e : Exec) (tile : Nat) : Blk :=
  if e.poisoned then b
  else (b.modExec m k e.pos fun e => { e with poisoned := true, poisonTile := tile }).modRun q fun r =>
    { r with poisonCount := incr 16 r.poisonCount }

/-- An entry of the binding in front of position `pos` still has writes to present, which go first (R142). -/
def Blk.writesAhead (b : Blk) (m k pos : Nat) : Bool :=
  match b.binding m k with
  | some x => (x.exec.takeWhile fun e => e.pos != pos).any fun e => !e.dead && decide (e.stage ≠ .done)
  | none => false

/-- PAIRS has no room for the pairs of the next writes (R147). -/
def Blk.pairsFull (b : Blk) (m k : Nat) (ps : List (Nat × Nat)) : Bool :=
  let cur := b.pairsOf m k
  let new := (ps.eraseDups.filter fun (p, path) => !(cur.any fun y => y.port == p && y.path == path)).length
  !cur.isEmpty && decide (16 < cur.length + new)

/-- Room in PAIRS for writes on the pairs `ps`: with none, the pairs that need no flush read are cleared, and the others are
flushed (R147). Answers whether the writes may go. -/
def Blk.pairRoom (b : Blk) (m k : Nat) (q : QRef) (ps : List (Nat × Nat)) : Bool × Blk :=
  if ((b.binding m k).map (·.flushOut)).getD 1 ≠ 0 then (false, b)
  else if !b.pairsFull m k ps then (true, b)
  else
    let need := (b.pairsOf m k).filter (·.needFlush)
    let b := b.forgetPairs q fun y => !y.needFlush
    if need.isEmpty then (true, b) else (false, b.fenceFlush m k q need)

/-- Present the pieces of a chunk to its destinations in order, where every address may be written and PAIRS has room; `bs` are
the bytes from offset `o` (R117, R118, R129, R147). Answers whether it did. -/
def Blk.putPieces (b : Blk) (m k pos : Nat) (q : QRef) (e : Exec) (all : List (Nat × Nat × Nat × Nat)) (o : Nat)
    (bs : List (Byte × Bool)) : Bool × Blk :=
  match b.chunkStop (b.queue q).cfg.dom e all with
  | .fail st info => (false, b.failEntry m k pos st info)
  | .slot v => (false, b.slotAct m k pos v)
  | _ =>
    let (go, b) := b.pairRoom m k q (all.filterMap fun (_, a, _, _) => (b.routeOf q a e.desc.path).map fun (p, path, _) => (p, path))
    if !go then (false, b)
    else (true, all.foldl (fun b (i, a, o', l) =>
      let e' := ((((b.binding m k).map (·.exec)).getD []).find? fun z => z.pos = pos).getD e
      b.putWrite m k q e' i a o' ((bs.drop (o' - o)).take l)) b)

/-- Every source byte of the entry is in: its reads are issued, or its FIFO tiles taken. -/
def Exec.srcEnded (e : Exec) : Bool :=
  if e.desc.packetOut then e.pktLen == some e.srcIss
  else if e.desc.readsSrc || e.desc.kind == kFifoOut then decide (e.desc.len ≤ e.srcIss)
  else true

/-- Present the next chunk of an entry to all its destinations, if its bytes are there (R129, R141). Answers whether it
did. -/
def Blk.emitChunk (b : Blk) (m k pos : Nat) : Bool × Blk :=
  match b.binding m k with
  | none => (false, b)
  | some x =>
    match x.exec.find? fun e => e.pos = pos with
    | none => (false, b)
    | some e =>
      let q := x.q
      let o := e.dstPres
      match dstAt e e.total 0 o with
      | none => (false, b)
      | some (a, c) =>
        let full := max 1 (b.cutLen a c b.img.ident.mps)
        let ended := e.readsOut.isEmpty && (e.stopAt || e.srcEnded)
        let fills := e.desc.fills
        let n := if fills then full else if full ≤ e.out.length then full else if ended then e.out.length else 0
        if n = 0 || e.dead || decide (0 < x.flushOut) || !b.mayLaunch e then (false, b)
        else
          let bs := if fills then (List.range n).map fun i =>
              (((slice e.desc.raw (if e.desc.kind = kFill then 0x20 else 0x28) 8)[(a + i) % 8]?).getD 0, false)
            else e.out.take n
          let more := (List.range (dstCount e.desc)).drop 1 |>.flatMap fun i =>
            (b.cutPieces e i 600 o n).map fun (a, o, l) => (i, a, o, l)
          let tile := (o + (bs.takeWhile fun y => !y.2).length) / 64
          let poison := bs.any (·.2)
          let b := if poison then b.notePoison m k q e tile else b
          if poison && (b.queue q).cfg.poisonStop then (false, b.failEntry m k pos 0x31 (e.poisonInfo tile))
          else
            let (go, b) := b.putPieces m k pos q e ((0, a, o, n) :: more) o bs
            (go, if go then b.modExec m k pos fun e => { e with dstPres := e.dstPres + n, out := if fills then e.out else e.out.drop n }
              else b)

/-- Present chunks while their bytes are there. -/
def Blk.emit (b : Blk) (m k pos : Nat) : Nat → Blk
  | 0 => b
  | fuel + 1 =>
    let (more, b) := b.emitChunk m k pos
    if more then Blk.emit b m k pos fuel else b

/-! ## Kinds with an end of their own -/

/-- CHECK has read its source: the result is written, once PAIRS has room, and compared (R71, R124, R147). A result of poisoned
bytes is a poisoned write; POISON_STOP stops before it (R138; a CHECK without REPORT writes nothing and is not stopped:
DESIGN CHOICE, log 29). -/
def Blk.finishCheck (b : Blk) (m k : Nat) (q : QRef) (e : Exec) : Blk :=
  let v := Nat.xor e.crc 0xFFFFFFFF
  let d := e.desc
  let ended := fun (b : Blk) =>
    let b := b.modExec m k e.pos fun e => { e with resultDone := true, stage := .done }
    if d.kind = kCheck && bit d.aux 0 && decide (v ≠ leAt d.raw 0x20 4) then
      b.failEntry m k e.pos 0x30 (infoOf [(0, 4, 5), (8, 4, v), (12, 4, leAt d.raw 0x20 4)])
    else b
  if !(d.kind = kCheck && bit d.aux 1) then ended b
  else if e.poisoned && (b.queue q).cfg.poisonStop then b.failEntry m k e.pos 0x31 (e.poisonInfo e.poisonTile)
  else match b.routeOf q d.dst d.path, b.slotVerdict d.dst with
    | none, _ => b.failEntry m k e.pos 0x10 (addrInfo true true d.dst)
    | some _, some s => b.slotAct m k e.pos s
    | some (p, path, _), none =>
      let (go, b) := b.pairRoom m k q [(p, path)]
      if !go then b
      else
        let (data, b) := b.writeBytes e d.dst (leBytes 4 v)
        let pr : Pair := ⟨p, path, d.dst, b.pairNeeds q d p path⟩
        let b := b.modExec m k e.pos fun e =>
          { e with wr := e.wr ++ [(0, 0, 4)], pairs := addPair e.pairs pr, ports := Nat.lor e.ports (2 ^ p) }
        ended (b.present p { pkt0 with isWrite := true, addr := d.dst, len := 4, data := data, dom := (b.queue q).cfg.dom,
                                       path := path, ask := d.path, poison := e.poisoned, svc := b.svcAt q e.srcOfs, mover := some m,
                                       purpose := .check m e.pos q })

/-- FIFO_IN: reshaped bytes enter the FIFO tile by tile (R122, R230); the first takes the side (R221). Under POISON_STOP the
entry stops before its first poisoned tile (R138). -/
def Blk.fifoInPut (b : Blk) (m k pos : Nat) (q : QRef) : Nat → Blk
  | 0 => b
  | fuel + 1 =>
    match (b.binding m k).bind fun x => x.exec.find? fun e => e.pos = pos with
    | some e =>
      let f := e.desc.fifo
      let ended := e.readsOut.isEmpty && (e.stopAt || decide (e.desc.len ≤ e.srcIss))
      let n := if 64 ≤ e.out.length then 64 else if ended then e.out.length else 0
      if n = 0 || e.dead then b
      else
        let bs := e.out.take n
        let poison := bs.any (·.2)
        let tile := e.dstPres / 64
        if poison && (b.queue q).cfg.poisonStop then
          (b.notePoison m k q e tile).failEntry m k pos 0x31 (e.poisonInfo tile)
        else
          let (ok, b) := b.sfPut f (bs.map (·.1)) poison
          if !ok then b
          else
            let b := (b.sfGrab f (q, pos) false).modExec m k pos fun e =>
              { e with dstPres := e.dstPres + n, out := e.out.drop n, fifoTiles := e.fifoTiles + 1 }
            Blk.fifoInPut (if poison then b.notePoison m k q e tile else b) m k pos q fuel
    | none => b

/-- The header of the packet a FIFO_OUT moves, presented to every destination at offset 0 as a chunk of its own (R129, R231;
DEDUCED, log 29). Answers whether it was. -/
def Blk.putHeader (b : Blk) (m k : Nat) (q : QRef) (e : Exec) (h : List Byte) : Bool × Blk :=
  if !b.mayLaunch e then (false, b)
  else
    let all := (List.range (dstCount e.desc)).flatMap fun i => (b.cutPieces e i 66 0 64).map fun (a, o, l) => (i, a, o, l)
    b.putPieces m k e.pos q e all 0 (h.map fun x => (x, false))

/-- FIFO_OUT in packet mode has taken its last data byte: what remains is padded and presented, then the header where it is
still due, with TRUNC for a packet longer than LEN; the rest of the packet is discarded (R231, R236). -/
def Blk.endPacketOut (b : Blk) (m k : Nat) (q : QRef) (e : Exec) (p : Packet) (trunc : Bool) : Blk :=
  let g := groupIn e.desc.reshape
  let pad := (g - e.buf.length % g) % g
  let b := b.modExec m k e.pos fun e =>
    let e := { e with buf := e.buf ++ List.replicate pad (0, false), pktLen := some e.srcIss }
    { e.reshape with srcOfs := e.srcIss }
  let b := b.emit m k e.pos 5000
  match (b.binding m k).bind fun x => x.exec.find? fun z => z.pos = e.pos with
  | some e' =>
    if e'.dead || !e'.out.isEmpty then b
    else
      let (go, b) := if !e'.resultDone || p.dropped then b.putHeader m k q e' (p.header e'.srcIss trunc) else (true, b)
      if !go then b
      else ((b.sfDropPacket e.desc.fifo).sfRelease (q, e.pos)).modExec m k e.pos fun e =>
        { e with stage := .done, resultDone := true }
  | none => b

/-- INFO of CRC: unit, port, tile (Table 13-4). -/
def crcInfo (unit port tile : Nat) : List Byte := infoOf [(0, 4, unit + 256 * port), (4, 4, tile)]

/-- FIFO_OUT takes tiles while it may; the first takes the side (R221, R225, R231). -/
def Blk.fifoOutTake (b : Blk) (m k pos : Nat) (q : QRef) : Nat → Blk
  | 0 => b
  | fuel + 1 =>
    match (b.binding m k).bind fun x => x.exec.find? fun e => e.pos = pos with
    | some e =>
      let f := e.desc.fifo
      if e.dead || e.stopAt || decide (e.stage = .done) || !b.mayLaunch e then b
      else if decide (e.srcIss < e.desc.len) && !b.sfSound f then
        -- a pool tile that fails its check stops the entry that reads it (R222, R287)
        ((b.sfBadTile f (((b.fifo f).unread.head?.map (·.loc)).getD 0)).sfGrab f (q, pos) true).failEntry m k pos 0x30
          (crcInfo 4 0 e.fifoTiles)
      else if e.desc.packetOut then
        match (b.fifo f).pkts with
        | p :: _ =>
          let trunc := decide (e.desc.len < p.plen)
          if !p.done && !b.sfCut f && e.fifoTiles = 0 then b
          else if e.fifoTiles = 0 && !b.sfHeaderReady f then b
          else if e.fifoTiles = 0 then
            -- first tile: the header goes first when the packet has ended; an entry that goes on from a mark gives it last
            let fresh := decide (e.dstPres = 0)
            let e1 := { e with pktLen := if p.done then some (min p.plen e.desc.len) else none }
            let (go, b) := if p.done && fresh then (b.modExec m k pos fun _ => e1).putHeader m k q e1 (p.header (min p.plen e.desc.len) trunc)
              else (true, b.modExec m k pos fun _ => e1)
            if !go then b
            else
              let b := ((b.sfGrab f (q, pos) true).sfTakeHeader f).modExec m k pos fun e =>
                { e with fifoTiles := 1, resultDone := p.done && fresh, dstPres := if fresh then 64 else e.dstPres }
              Blk.fifoOutTake b m k pos q fuel
          else match b.sfTake f (e.desc.len - e.srcIss) (some p.pseq) with
            | some (bs, poison, b) =>
              let b := b.modExec m k pos fun e =>
                { e with buf := e.buf ++ bs.map fun x => (x, poison), srcIss := e.srcIss + bs.length }.reshape
              Blk.fifoOutTake (b.emit m k pos 600) m k pos q fuel
            | none => if p.done || decide (e.desc.len ≤ e.srcIss && e.desc.len < p.plen) then b.endPacketOut m k q e p trunc else b
        | [] =>
          if 0 < e.fifoTiles then
            b.endPacketOut m k q e ⟨0, e.srcIss, b.now, b.now, true, false, true, false, false, 0⟩ false
          else b
      else if e.desc.len ≤ e.srcIss then b.sfRelease (q, pos)
      else match b.sfTake f (e.desc.len - e.srcIss) none with
        | some (bs, poison, b) =>
          let b := (b.sfGrab f (q, pos) true).modExec m k pos fun e =>
            { e with buf := e.buf ++ bs.map fun x => (x, poison), srcIss := e.srcIss + bs.length
                     fifoTiles := e.fifoTiles + 1 }.reshape
          Blk.fifoOutTake (b.emit m k pos 600) m k pos q fuel
        | none => b
    | none => b

/-- The entry has moved its last FIFO tile. -/
def Exec.fifoDone (e : Exec) : Bool :=
  decide (e.stage = .done) || (e.desc.kind == kFifoOut && !e.desc.packetOut && decide (e.desc.len ≤ e.srcIss))

/-- A FIFO entry: it reaches its side, its checks once the FIFO is not OFF, its tiles while the side is its own or free for it
(R220, R221, R223). -/
def Blk.fifoStep (b : Blk) (m k : Nat) (q : QRef) (e : Exec) : Blk :=
  let f := e.desc.fifo
  let out := e.desc.kind == kFifoOut
  if e.dead || e.fenceWait || decide (e.stage = .armed) then b
  else if e.fifoDone then (b.sfRelease (q, e.pos)).emit m k e.pos 5000
  else
    let b := b.sfReach f (q, e.pos) out
    if (b.fifo f).state = .off && b.on 7 && !b.pool.off then b
    else match b.fifoStage (b.queue q).cfg.dom e.desc with
      | some (st, info) => b.failEntry m k e.pos st info
      | none =>
        if !b.sfMay f (q, e.pos) out then b
        else
          let b := b.modExec m k e.pos fun e => { e with stage := .running }
          if out then (b.emit m k e.pos 5000).fifoOutTake m k e.pos q 5000
          else
            let b := b.fifoInPut m k e.pos q 5000
            match (b.binding m k).bind fun x => x.exec.find? fun z => z.pos = e.pos with
            | some e' =>
              if !e'.dead && e'.total ≤ e'.dstPres then
                ((b.sfLastIn f).sfRelease (q, e.pos)).modExec m k e.pos fun e => { e with stage := .done }
              else b
            | none => b

/-! ## The launch gates (R170) -/

/-- The first request of an entry at its port's launch gate: the port, and for a kind that reads first its read. -/
def Blk.firstReq (b : Blk) (m : Nat) (q : QRef) (e : Exec) : Option (Nat × Option (Nat × Nat × Bool × Pkt)) :=
  if e.desc.kind = kFill ∨ e.desc.kind = kFifoOut then
    (dstAt e e.total 0 e.dstPres).bind fun (a, _) => (b.routeOf q a e.desc.path).map fun (p, _, _) => (p, none)
  else match b.genNext (b.queue q).cfg.dom { e with stage := .running, launched := true } with
    | .read a len isList => (b.readPkt m q e a len .gated).map fun (p, pk) => (p, some (a, len, isList, pk))
    | _ => none

/-- Places taken in a port's launch gate. -/
def Blk.gateFull (b : Blk) (p : Nat) : Bool := decide (16 ≤ (b.port p).gate.length)

/-- Place the first request of an entry into its port's launch gate: a read with its tag and tiles, the first write of a kind
that reads nothing as its place (R170). Nothing while the gate is full or the port has no tag. -/
def Blk.armGate (b : Blk) (m k : Nat) (q : QRef) (e : Exec) : Blk :=
  if e.gate.isSome || e.dead then b
  else
    let put := fun (b : Blk) (p : Nat) => b.modPort p fun v => { v with gate := v.gate ++ [(m, k)] }
    match b.firstReq m q e with
    | some (p, none) => if b.gateFull p then b else (put b p).modExec m k e.pos fun e => { e with gate := some (p, none) }
    | some (p, some (a, len, isList, pk)) =>
      let fits := match b.binding m k with | some x => x.roomFor a len | none => false
      if b.gateFull p || !(b.port p).canRead a len || !fits then b
      else
        let (v, pk) := (b.port p).takeTag pk
        (put (b.modPort p fun _ => v) p).modExec m k e.pos fun e =>
          { e.issued a len p pk.path isList with launched := false, gate := some (p, some pk) }
    | none => b

/-- The entry waits in a launch gate it found full, or for a tag: its first request is not in the gate yet (R170). -/
def Blk.gateBar (b : Blk) (m : Nat) (q : QRef) (e : Exec) : Option Bool :=
  if e.gate.isSome then none else (b.firstReq m q e).map fun (p, _) => b.gateFull p

/-! ## The pump: everything that follows from data, acceptance or a flush -/

/-- Where an entry goes once its fence has settled: a windowed one that has not launched is armed (R174), a FENCE or a NOP is
done, a WAIT becomes a waiter. -/
def Blk.fenceDone (b : Blk) (m k : Nat) (q : QRef) (e : Exec) : Blk :=
  if e.win.isSome && !e.launched && e.notices.isEmpty && !e.aligned then
    let e' := { e with fenceWait := false, stage := .armed }
    (b.modExec m k e.pos fun e => { e with fenceWait := false, stage := .armed }).armGate m k q e'
  else
    let b := b.modExec m k e.pos fun e =>
      { e with fenceWait := false, stage := if e.desc.kind = kFence || e.desc.kind = kNop then .done else e.stage }
    if e.desc.kind = kWait && bits e.desc.aux 1 0 ≠ 0 && e.win.isNone then b.addWaiter m k q e.desc else b

/-- FENCE 1: earlier entries settle first (R85); the flush reads of DURABLE_ALL go once the entry may launch (R169, R174). -/
def Blk.fenceStep (b : Blk) (m k : Nat) (q : QRef) (e : Exec) : Blk :=
  match b.binding m k with
  | some x =>
    let y := b.queue q
    let flushing := match y.pub with | .flushing _ _ => true | _ => false
    if (x.exec.head?.map (·.pos)) ≠ some e.pos || decide (0 < x.flushOut) || flushing then b
    else
      let all := e.desc.kind == kFence && bit e.desc.aux 0 && !e.fenced && (e.win.isNone || e.launched || !e.notices.isEmpty)
      let (cp, cpath) := b.cplPair q
      let l := if all then addPair (addPairs y.sinceFence y.flush) ⟨cp, cpath, y.cfg.cplAddr, true⟩
        else y.flush.filter (·.needFlush)
      if l.isEmpty then b.fenceDone m k q e
      else (b.modExec m k e.pos fun e => { e with fenced := e.fenced || all }).fenceFlush m k q l
  | none => b

/-- The poison of the bytes a CHECK takes in counts once (R138). -/
def Blk.checkPoison (b : Blk) (m k : Nat) (q : QRef) (e : Exec) : Blk :=
  if e.desc.checks && e.buf.any (·.2) then
    b.notePoison m k q e ((e.srcOfs + (e.buf.takeWhile fun y => !y.2).length) / 64) else b

/-- An entry whose data has moved on ends once nothing more is to be issued or read (R74, R128, R146). -/
def Blk.entryEnd (b : Blk) (m k : Nat) (q : QRef) (e : Exec) : Blk :=
  if e.dead || decide (e.stage ≠ .running) || !e.reads.isEmpty || !e.listGood then b
  else if e.desc.checks then (if e.srcOfs < e.desc.len || e.resultDone then b else b.finishCheck m k q e)
  else if e.desc.packetOut then b
  else if (!e.desc.readsSrc || e.desc.len ≤ e.srcIss) && e.total ≤ e.dstPres then
    b.modExec m k e.pos fun e => { e with stage := .done }
  else b

/-- Move one entry on as far as what it holds lets it. -/
def Blk.pumpEntry (b : Blk) (m k pos : Nat) : Blk :=
  match b.binding m k with
  | none => b
  | some x =>
    match x.exec.find? fun e => e.pos = pos with
    | none => b
    | some e =>
      let q := x.q
      if e.dead then
        b.modExec m k pos fun e => { e with reads := e.reads.filter fun r => !r.done }
      else if e.fenceWait then b.fenceStep m k q e
      else if e.aligned then
        match e.bad with
        | some (st, info) =>
          -- a failed check stops the entry at once, a failed target once the others have settled (R178, R189)
          if e.plan.isNone || !e.launched || (decide (e.stage = .done) && e.wr.isEmpty) then b.failEntry m k pos st info else b
        | none => b
      else if e.stage = .armed then b
      else
        let e1 := b.releaseReads q (e.reads.length + 1) e
        let (_, _, size) := listOf e.desc
        let (lb, fs) := parseList e.desc.kind size 5000 e1.listBuf e1.frags
        let e2 := { e1 with listBuf := lb, frags := fs }
        let b := b.modExec m k pos fun _ => e2
        let b := b.checkPoison m k q e2
        let e2 := { e2 with poisoned := e2.poisoned || (e2.desc.checks && e2.buf.any (·.2)) }
        let (e3, bad) := if e2.desc.checks then e2.feedCheck 5000
          else if e2.desc.kind = kFifoOut then (e2, none) else (e2.reshape, none)
        let b := b.modExec m k pos fun z => { e3 with poisonTile := z.poisonTile }
        match bad with
        | some v => b.failEntry m k pos 0x30 (infoOf [(0, 4, 5), (8, 4, v), (12, 4, leAt e.desc.raw 0x28 4)])
        | none =>
          let b := if e.desc.kind = kFifoIn || e.desc.kind = kFifoOut then b.fifoStep m k q e3
            else if e.desc.fills || e.desc.checks then b
            else if e.stage = .running then b.emit m k pos 5000 else b
          match (b.binding m k).bind fun x => x.exec.find? fun z => z.pos = pos with
          | none => b
          | some e => (b.markCheck m k e).entryEnd m k q e

/-! ## Plans of aligned entries (R177, R178, R183) -/

/-- A plan with nothing in it. -/
def emptyPlan : Plan :=
  { arrive := 0, align := 0, targets := [], armed := false, armSeq := 0, release := none, releaseFt := 0, lastStatus := 0 }

/-- Bytes of a SNAP record before its data area (R187). -/
def recordHead (t : Nat) : Nat := 64 + (16 * t + 63) / 64 * 64

/-- Padded length of a target's data (R187). -/
def padded (n : Nat) : Nat := (n + 63) / 64 * 64

/-- Target `i` of a table (Table 8-2): its range is that of its address. -/
def Blk.targetOf (b : Blk) (t : List Byte) (i : Nat) : PlanTarget :=
  let o := 16 + 16 * i
  let a := leAt t o 8
  { addr := a, len := leAt t (o + 8) 2, required := bit (leAt t (o + 10) 2) 0
    range := ((b.rangeOf a).map (·.1)).getD 1024, port := ((b.rangeOf a).map fun (_, x) => b.egress x).getD 0
    lat := 0, jit := 0, cycle := 0, qual := 0, noLat := false, status := 0, held := none, launched := none
    returned := none, got := [], done := false }

/-- The checks of R178 on a loaded table: the status and INFO of the first that fails. -/
def Blk.planCheck (b : Blk) (dom : Nat) (d : Desc) (t : List Byte) : Option (Nat × List Byte) :=
  let n := bits d.aux 5 0 + 1
  let ts := (List.range n).map (b.targetOf t)
  let id := b.img.ident
  let limit := if d.kind = kSnap then id.mrrs else id.mps
  let resv := le (slice t 3 13) ≠ 0 ∨ (List.range n).any fun i =>
    let o := 16 + 16 * i
    decide (leAt t (o + 10) 2 / 2 ≠ 0) || decide (leAt t (o + 12) 4 ≠ 0)
  let crosses := ts.any fun x =>
    decide (x.addr / id.boundary ≠ (x.addr + x.len - 1) / id.boundary)
      || (match b.rangeOf x.addr with
          | some (_, r) => decide (r.base + r.pages * 4096 < x.addr + x.len)
          | none => false)
  let sum := ts.foldl (fun s x => s + x.len) 0
  let size := recordHead n + ts.foldl (fun s x => s + padded x.len) 0
  if leAt t 2 1 ≠ n - 1 || ts.any (fun x => x.len == 0 || 256 < x.len) || decide resv || crosses
      || ts.any (fun x => decide (limit < x.len)) then some (0x12, formatInfo 11)
  else if d.path ≠ 0 then some (0x12, formatInfo 6)
  else if (d.kind = kAscat && d.len ≠ sum) || (d.kind = kSnap && d.len < size) then some (0x12, formatInfo 5)
  else
    let win := ts.findSome? fun x => b.windowFail dom x.addr x.len (d.kind == kAscat)
    let noRange := ts.find? fun x => x.range == 1024
    match win, noRange, (if d.kind = kSnap then b.windowFail dom d.dst size true else none) with
    | some i, _, _ => some (0x10, i)
    | none, some x, _ => some (0x10, addrInfo (d.kind == kAscat) true x.addr)
    | none, none, some i => some (0x10, i)
    | none, none, none => none

/-- The table and data of a plan have arrived: it is checked, and the records of its ranges are tracked (R178, R179). -/
def Blk.planLoad (b : Blk) (m k : Nat) (q : QRef) (e : Exec) : Blk :=
  let d := e.desc
  let have_ := d.tableLen ≤ e.listBuf.length && (d.kind = kSnap || d.len ≤ e.buf.length)
  if !have_ || e.stage ≠ .list || e.bad.isSome then b
  else
    let t := e.listBuf
    let stopP := (b.queue q).cfg.poisonStop && e.buf.any (·.2)
    let bad := if stopP then some (0x31, infoOf [(0, 1, e.poisonPort.getD 0), (4, 4, (e.buf.takeWhile fun y => !y.2).length / 64)]) else b.planCheck (b.queue q).cfg.dom d t
    let ts := (List.range (bits d.aux 5 0 + 1)).map (b.targetOf t)
    let pl := { emptyPlan with arrive := leAt t 0 2, targets := if bad.isSome then [] else ts }
    let b := b.modExec m k e.pos fun e => { e with stage := .waiting, plan := some pl, bad := bad }
    if bad.isSome then b
    else ts.foldl (fun b x => b.modLat x.range fun r =>
      if r.tracked then r else { r with tracked := true, valid := false, stale := false, samples := [], since := 0, burst := 8 }) b

/-- Plans of a binding in use. -/
def Binding.plansUsed (x : Binding) : Nat := x.plans.length + (x.exec.filter (·.plan.isSome)).length

/-- Aligned entries take free plans: two for a binding, four for a mover; a shadow's copies take none of their own (R183;
DESIGN CHOICE, log 29). -/
def Blk.planTake (b : Blk) (m : Nat) : Blk :=
  (b.mover m).places.foldl (fun b (k, x) =>
    if x.shadow then b
    else
      let room := fun (b : Blk) =>
        decide (((b.mover m).places.foldl (fun n (_, y) => if y.shadow then n else n + y.plansUsed) 0) < 4)
          && decide ((((b.binding m k).map (·.plansUsed)).getD 2) < 2)
      let fresh := fun (l : LEntry) => { newExec l .list true 0 0 with plan := some emptyPlan }
      let b := x.exec.foldl (fun b e =>
        if e.aligned && !e.dead && e.plan.isNone && decide (e.stage = .waiting) && e.bad.isNone && room b then
          b.modExec m k e.pos fun e => { e with plan := some emptyPlan, stage := .list } else b) b
      x.lbuf.foldl (fun b l =>
        let al := l.desc.kind == kSnap || l.desc.kind == kAscat
        let has := ((b.binding m k).map fun y => y.plans.any fun p => p.pos == l.pos).getD true
        if !al || has || !room b then b
        else if l.desc.ttab % 64 ≠ 0 then
          b.modBinding m k fun y => { y with plans := y.plans ++ [{ newExec l .waiting true 0 0 with
            bad := some (0x12, formatInfo 10) }] }
        else b.modBinding m k fun y => { y with plans := y.plans ++ [fresh l] }) b) b

/-- Tables and command data move into their plans; an entry at the head whose plan failed is executed to fail (R178, R190). -/
def Blk.planPump (b : Blk) (m k : Nat) : Blk :=
  match b.binding m k with
  | some x =>
    let q := x.q
    let b := (x.exec ++ x.plans).foldl (fun b e =>
      if !e.aligned || e.dead then b
      else
        let e' := b.releaseReads q (e.reads.length + 1) e
        (b.modExec m k e.pos fun _ => e').planLoad m k q e') b
    match b.binding m k with
    | some x =>
      match x.lbuf, x.exec with
      | l :: _, [] =>
        if x.moving.isSome || x.preempt || !b.mayStart q l.desc then b
        else match x.plans.find? fun p => p.pos = l.pos && p.bad.isSome with
        | some p => b.modBinding m k fun x => { x with
            lbuf := x.lbuf.drop 1, plans := x.plans.filter fun y => y.pos != p.pos, exec := [p] }
        | none => b
      | _, _ => b
    | none => b
  | none => b

/-- The entries of a binding retire in order, each once it is finished (R146). -/
def Blk.retireAll (b : Blk) (m k : Nat) : Nat → Blk
  | 0 => b
  | fuel + 1 =>
    match (b.binding m k).map (·.exec) with
    | some (e :: _) => if e.finished then Blk.retireAll (b.retire m k e) m k fuel else b
    | _ => b

/-- A binding that is to move or to be preempted leaves at an entry boundary (R16, R205); one whose queue is stopping stays
until the stop is complete (R207). -/
def Blk.boundary (b : Blk) (m k : Nat) : Blk :=
  match b.binding m k with
  | some x =>
    if !x.exec.isEmpty || decide (0 < x.flushOut) || x.shadow || decide ((b.queue x.q).run.phase ≠ .bound) then b
    else match x.moving with
      | some t =>
        let b := (((b.noteMove x.q).lbufToMews x.q).modRun x.q fun r => { r with phase := .idle }).freeBinding x.q t
        if b.canTake t && b.bindable x.q then b.bindTo x.q t false else b.bindOrWait x.q
      | none =>
        if x.preempt then
          let b := ((b.lbufToMews x.q).modRun x.q fun r => { r with phase := .idle }).freeBinding x.q 31
          let b := b.modSched fun s => { s with bindList := addOnce x.q (s.bindList.filter (· != x.q)) }
          { b with movp := { b.movp with bindWait := incr 32 b.movp.bindWait } }
        else b
  | none => b

/-- Everything that can go on at a binding goes on: its entries in order, retiring, publication, halts (R142). -/
def Blk.pump (b : Blk) (m k : Nat) : Blk :=
  match b.binding m k with
  | none => b
  | some x =>
    if x.shadow then b
    else
      let q := x.q
      let step := fun (b : Blk) =>
        let l := (((b.binding m k).map (·.exec)).getD []).map (·.pos)
        let b := l.zipIdx.foldl (fun b (pos, i) =>
          let prior := (((b.binding m k).map (·.exec)).getD []).takeWhile fun e => e.pos != pos
          if i = 0 || prior.all (fun e => e.dead || decide (e.stage = .done)) then b.pumpEntry m k pos else b) b
        (b.reapDead m k).retireAll m k 3
      let b := step (step (b.planPump m k))
      ((b.planTake m).settleCheck q).boundary m k

/-- The pump of a queue's binding. -/
def Blk.pumpQ (b : Blk) (q : QRef) : Blk :=
  match b.boundAt q with
  | some (m, k) => b.pump m k
  | none => b.settleCheck q

/-- What the generator would do next for an entry of a binding; a table whose slot is not READY holds nothing back before its
entry stands at the head of the binding (R177, R309), and a FILL waits for the writes of the entry in front (R142). -/
def Blk.genAct (b : Blk) (x : Binding) (e : Exec) : GenAct :=
  match b.genNext (b.queue x.q).cfg.dom e with
  | .fill => if (x.exec.takeWhile fun z => z.pos != e.pos).all fun z => z.dead || decide (z.stage = .done) then .fill else .idle
  | .slot v =>
    let ahead := x.plans.any (fun p => p.pos == e.pos) && !(x.exec.isEmpty && (x.lbuf.head?.map (·.pos)) == some e.pos)
    if ahead then .idle else .slot v
  | a => a

/-- A request of an entry fails a check: an entry in execution stops, one that only holds a plan will when it is executed
(R178). -/
def Blk.genFail (b : Blk) (m k : Nat) (x : Binding) (e : Exec) (st : Nat) (info : List Byte) : Blk :=
  if x.exec.any fun z => z.pos == e.pos then b.failEntry m k e.pos st info
  else b.modExec m k e.pos fun e => { e with bad := some (st, info), stage := .waiting }

/-- One request of a binding by the generator (R114). -/
def Blk.genOne (b : Blk) (m k : Nat) : Blk :=
  match b.binding m k with
  | none => b
  | some x =>
    let c := b.clock.cycle
    let b := b.modBinding m k fun x => { x with served := c }
    match (x.exec ++ x.plans).findSome? fun e => match b.genAct x e with | .idle => none | a => some (e, a) with
    | some (e, .read a len isList) => b.issueRead m k x.q e a len isList
    | some (e, .fill) =>
      let (_, b) := b.emitChunk m k e.pos
      b.pump m k
    | some (e, .fail st info) => (b.genFail m k x e st info).pump m k
    | some (e, .slot v) => (b.slotAct m k e.pos v).pump m k
    | _ => b

/-- The binding has a request ready, with tag and tiles (R114, R116, R135). -/
def Blk.genReady (b : Blk) (m k : Nat) : Bool :=
  match b.binding m k with
  | none => false
  | some x =>
    !x.shadow && ((x.exec ++ x.plans).any fun e => match b.genAct x e with
      | .idle => false
      | .read a len _ => x.roomFor a len && (match b.routeOf x.q a e.desc.path with
          | some (p, _, _) => (b.port p).canRead a len
          | none => false)
      | _ => true)

/-- A write of an entry is accepted, and counts in the bytes of its port, its domain and its mover (R146, R148, Table 3-9). -/
def Blk.dataAccepted (b : Blk) (q : QRef) (pos dest o len port : Nat) : Blk :=
  let b := b.modPort port fun v => { v with bytesWr := (v.bytesWr + len) % 2 ^ 72 }
  let b := b.modDomain (b.queue q).cfg.dom fun d => { d with bytes := (d.bytes + len) % 2 ^ 72 }
  match b.boundAt q with
  | some (m, k) =>
    let b := b.modMover m fun v => { v with bytesWr := (v.bytesWr + len) % 2 ^ 72 }
    let b := b.modExec m k pos fun e =>
      { e with wr := e.wr.filter fun (d, o', _) => d != dest || o' != o }
    match (b.binding m k).bind fun x => x.exec.find? fun e => e.pos = pos with
    | some e => (b.markCheck m k e).pump m k
    | none => b
  | none => b

/-- ENTRY_START (R114, R165, R246, R252). -/
def entryStartB (m k : Nat) (b : Blk) : Blk :=
  match b.binding m k with
  | none => b
  | some x =>
    let mv := (b.mover m).state
    let older := match x.exec with
      | [] => true
      | [e] => e.issuedAll && !e.dead
      | _ => false
    match x.lbuf with
    | l :: _ =>
      if x.shadow || !(b.on 1 && b.on (moverPd m)) || (mv != .active && mv != .quiescing) || !older
          || x.moving.isSome || x.preempt || !b.mayStart x.q l.desc then b
      else
        let y := b.queue x.q
        let cont := y.run.pauseMark || (y.run.mark.active && decide (y.run.mark.pos = l.pos))
        match l.win with
        | some w =>
          if cont then (b.startEntry m k l false).pump m k
          else if (b.pu w.unit).state = .off then
            let b := b.modBinding m k fun x => { x with lbuf := x.lbuf.drop 1 }
            (((b.pushExec m k (newExec l .waiting false 0 0)).failEntry m k l.pos 0x41
              (infoOf [(0, 2, w.unit)])).pump m k)
          else b
        | none => (b.startEntry m k l false).pump m k
    | [] => b

end Sys2Proof.Machine
end

