-- ==== Sys2Proof/Machine/Window.lean ====
section
/-! DEFINITION. From Chervil to the local buffer (R70, R77, R167), launch windows (R165-R174), and WAIT (R215-R217). -/

namespace Sys2Proof.Machine
open Sys2Proof

/-! ## Local buffer (R70, R77, R88) -/

/-- The stop in force lets the queue's next entry into the local buffer (R245, R246). -/
def Blk.mayFill (b : Blk) (q : QRef) : Bool :=
  let x := b.queue q
  (match b.stopOn q with
   | none => true
   | some s => match s.mode with
     | .atPhase => true
     | .drain => !x.run.prevLast
     | _ => false)
    && x.report.isNone && !x.dying && x.holding.isNone && x.lostWrite.isNone && !(b.sched.fovers.any fun f => f.q == q)

/-- An entry that fails before it is executed halts its queue in front of its chain (R95). -/
def Blk.refuseEntry (b : Blk) (q : QRef) (status pos cookie : Nat) (info : List Byte) : Blk :=
  (b.haltWith q (haltReport status pos cookie 0 0 info)).settleCheck q

/-- The same entry enters the shadow's local buffer (R150). -/
def Blk.fillShadow (b : Blk) (q : QRef) (l : LEntry) : Blk :=
  match b.shadowAt q with
  | some (m, k) => b.modBinding m k fun x => { x with lbuf := (x.lbuf ++ [l]).drop (x.lbuf.length + 1 - 8) }
  | none => b

/-- LOCAL_BUFFER_FILL (R70, R77, R88, R167): the next known entry passes to the binding's local buffer, which holds eight with
those in execution. A copy whose tile fails is read again (R285); one that does not show OWN is not passed (R77); nothing is
passed during a warm restart (R39). -/
def localBufferFillB (q : QRef) (b : Blk) : Blk :=
  match b.boundAt q with
  | none => b
  | some (m, k) =>
    let x := b.queue q
    let full := match b.binding m k with
      | some y => decide (8 ≤ y.lbuf.length + y.exec.length) || y.moving.isSome || y.preempt || y.exec.any (·.dead)
      | none => true
    let p := x.run.fetched
    if !(b.on 1 && b.on 2 && b.on (moverPd m)) || b.ldr.state == .warmrst || full || !b.mayFill q || !x.known p then b
    else match x.cache.find? fun c => c.pos == p with
      | none => b
      | some cp =>
        let c := cp.bytes
        let d := decodeDesc c
        if !cp.ok then (b.badCopy q cp).readSlots q 1 p 1
        else if ownOf c != x.expectedOwn p then b
        else
          if !dcrcOk d then
            match x.recheck with
            | some (p', crc1) =>
              if p' = p then
                b.refuseEntry q 0x11 p d.cookie (infoOf [(0, 2, crc1), (2, 2, descCrc c)])
              else (b.modQueue q fun x => { x.dropCopy p with recheck := some (p, descCrc c) }).readSlots q 1 p 1
            | none => (b.modQueue q fun x => { x.dropCopy p with recheck := some (p, descCrc c) }).readSlots q 1 p 1
          else
            let b := b.modQueue q fun x => { x with recheck := none }
            match formReason d x.cfg.adminMark x.run.prevLast with
            | some r => b.refuseEntry q 0x12 p d.cookie (formatInfo r)
            | none =>
              let win := if d.win then b.resolveWindow d else none
              if d.win && win.isNone then b.refuseEntry q 0x12 p d.cookie (formatInfo 12)
              else
                let l : LEntry := ⟨p, d, win, cp.crc⟩
                let b := b.modBinding m k fun y => { y with lbuf := y.lbuf ++ [l] }
                let b := b.fillShadow q l
                let b := b.modSched fun s => { s with mews := s.mews.filter fun t => t != ⟨q, p⟩ }
                let b := b.modRun q fun r => { r with fetched := x.next p, prevLast := d.last }
                if d.kind = kSnap ∨ d.kind = kAscat then ((b.planTake m).genOne m k).planPump m k else b

/-! ## The order of launches (R173, R174) -/

/-- OPEN cycles of the queue's earlier entries with a window on unit `u` that no publication covers yet: retired ones, and those
in execution ahead of position `pos` (R173). -/
def Blk.earlierCycles (b : Blk) (q : QRef) (pos u : Nat) : List Nat :=
  let x := b.queue q
  let ex := match b.boundAt q with
    | some (m, k) => (((b.binding m k).map (·.exec)).getD []).filterMap fun e =>
        if x.dist e.pos x.run.head < x.dist pos x.run.head then e.win else none
    | none => []
  ((x.unpub.filterMap (·.win) ++ ex).filter fun w => w.unit == u).map (·.openAt.cyc)

/-- An entry whose OPEN lies in cycle `c` may launch beside the earlier unpublished ones (R173). -/
def Blk.overlapOk (b : Blk) (q : QRef) (pos : Nat) (w : Window) : Bool :=
  let x := b.queue q
  let cs := b.earlierCycles q pos w.unit
  let prev := (w.openAt.cyc + 2 ^ 24 - 1) % 2 ^ 24
  let budget := min 64 (b.regF (puA w.unit 7) 6 0)
  (cs.all fun c => c == w.openAt.cyc || c == prev)
    && (!(cs.any fun c => c == prev) || decide (x.dist pos x.run.head ≤ budget))

/-! ## Arming and launch (R170, R171) -/

/-- A launch comes too late for its window's jitter bound: JMISS of the unit, noted for the queue (R170, Table 14-1). -/
def Blk.jmissed (b : Blk) (q : QRef) (u : Nat) : Blk :=
  (b.modPu u fun x => { x with jmiss := incr 16 x.jmiss }).modEp q fun e => { e with late := true }

/-- MCLK cycles until OPEN at the present rate, rounded up; none while INC is 0. -/
def Blk.cyclesToOpen (b : Blk) (w : Window) : Option Nat :=
  let u := b.pu w.unit
  let inc := b.puInc w.unit
  let m := b.puModulus w.unit
  if atOrPast u.ph w.openAt then some 0
  else if inc = 0 then none
  else
    let cyc := (w.openAt.cyc + 2 ^ 24 - u.ph.cyc % 2 ^ 24) % 2 ^ 24
    some (((cyc * m + w.openAt.pos) * 2 ^ 16 - (u.ph.pos * 2 ^ 16 + u.ph.frac) + inc - 1) / inc)

/-- The head of the local buffer may be taken as a windowed entry (R114, R142). -/
def Blk.windowHead (b : Blk) (m k : Nat) : Option (LEntry × Window × QRef) :=
  match b.binding m k with
  | some x =>
    let older := match x.exec with
      | [] => true
      | [e] => e.issuedAll && !e.dead
      | _ => false
    match x.lbuf with
    | l :: _ => match l.win with
      | some w =>
        if x.shadow || !(b.on 1 && b.on (moverPd m)) || !older || x.moving.isSome || x.preempt || !b.mayStart x.q l.desc
          || ((b.mover m).state != .active && (b.mover m).state != .quiescing) then none
        else some (l, w, x.q)
      | none => none
    | [] => none
  | none => none

/-- The entry at position `pos` in execution at a binding. -/
def Blk.execAt (b : Blk) (m k pos : Nat) : Option Exec := (b.binding m k).bind fun x => x.exec.find? fun e => e.pos = pos

/-- The head of the local buffer is taken into execution and armed (R170); one that must fence first is armed once its fence
has settled (R174). -/
def Blk.armHead (b : Blk) (m k : Nat) (l : LEntry) (q : QRef) : Blk :=
  let b := b.startEntry m k l true
  match b.execAt m k l.pos with
  | some e =>
    if e.dead then b.pump m k
    else if e.fenceWait then b
    else
      let b := b.modExec m k l.pos fun e => { e with stage := .armed }
      b.armGate m k q { e with stage := .armed }
  | none => b

/-- The armed entry of a binding: in a launch gate, about to get a place there, or armed without a request. -/
def Blk.armedEntry (b : Blk) (m k : Nat) : Option (Exec × Window × QRef) :=
  match b.binding m k with
  | some x =>
    if x.shadow then none
    else (x.exec.find? fun e => decide (e.stage = .armed) && !e.dead).bind fun e => e.win.map fun w => (e, w, x.q)
  | none => none

/-- WINDOW_ARM (R170, R173): the head of the local buffer is armed; an armed entry whose gate was full tries again. -/
def windowArmB (m k : Nat) (b : Blk) : Blk :=
  match b.armedEntry m k with
  | some (e, _, q) => if e.aligned then b else b.armGate m k q e
  | none =>
    match b.windowHead m k with
    | some (l, w, q) =>
      let near := match b.cyclesToOpen w with | some n => decide (n ≤ 64) | none => false
      let plain := l.desc.kind != kSnap && l.desc.kind != kAscat
      if !near || !b.puOpen w.unit || !plain || atOrPast (b.pu w.unit).ph w.closeAt || !b.overlapOk q l.pos w then b
      else b.armHead m k l q
    | none => b

/-- The stage of an entry without a gated read once it launches: a FIFO entry waits for its FIFO, a NOP is done. -/
def Exec.launchStage (e : Exec) : ExStage :=
  if e.desc.kind = kFifoIn ∨ e.desc.kind = kFifoOut then .waiting else if e.desc.kind = kNop then .done else .running

/-- A WAIT launches (R126, R215, R217): without a condition it retires, else it becomes a waiter; what a wired line captured
before OPEN, and what a virtual line was raised before OPEN, is dropped for the oldest waiter. -/
def Blk.launchWait (b : Blk) (m k : Nat) (q : QRef) (e : Exec) : Blk :=
  let d := e.desc
  if bits d.aux 1 0 = 0 then (b.modExec m k e.pos fun e => { e with stage := .done }).pump m k
  else
    let b := b.modExec m k e.pos fun e => { e with stage := .waiting }
    let l := d.waitLine
    let first := (b.waitersOn l).isEmpty
    let b := b.addWaiter m k q d
    if first then b.dropCaptures l else b

/-- The entry launches (R168, R169): a gated request is presented, a WAIT becomes a waiter or retires, a FENCE settles its
flush reads, any other entry runs. A launch that a full gate has kept back for more than 1.5 cycles counts in JMISS (R170). -/
def Blk.launch (b : Blk) (m k : Nat) (q : QRef) (e : Exec) : Blk :=
  let d := e.desc
  if e.aligned then
    let c := b.clock.cycle
    let t := b.now
    (b.modExec m k e.pos fun e => { e with
      stage := .running, launched := true, plan := e.plan.map fun pl => { pl with release := some c, releaseFt := t } }).pump m k
  else if d.kind = kWait then b.launchWait m k q e
  else if d.kind = kFence then
    (b.modExec m k e.pos fun e => { e with stage := .running, launched := true, fenceWait := true }).pump m k
  else
    let missed := match e.due with | some (c, true) => decide (c + 1 < b.clock.cycle) | _ => false
    let b := match e.win with
      | some w => if missed then b.jmissed q w.unit else b
      | none => b
    let gated := e.gate.isSome
    let b := b.dropGate m k
    let b := match e.gate with
      | some (p, some pk) =>
        (b.modExec m k e.pos fun e => { e with stage := .running, launched := true, gate := none }).present p pk
      | _ => b.modExec m k e.pos fun e => { e with stage := e.launchStage, gate := none, gatedFirst := gated }
    let b := if e.gate.isNone && d.readsSrc then b.genOne m k else b
    let b := if d.kind = kFill && !b.writesAhead m k e.pos then (b.emitChunk m k e.pos).2 else b
    b.pump m k

/-- An armed entry at its OPEN (R170): it launches once its first request stands in the gate, or has none; one that found no
place notes the cycle and waits for it. -/
def Blk.openArmed (b : Blk) (m k : Nat) (q : QRef) (e : Exec) : Blk :=
  if e.aligned then b.launch m k q e
  else
    let b := b.armGate m k q e
    match b.execAt m k e.pos with
    | some e =>
      match b.gateBar m q e with
      | some full =>
        let c := b.clock.cycle
        b.modExec m k e.pos fun e => { e with due := some (e.due.getD (c, full)) }
      | none => b.launch m k q e
    | none => b

/-- The window lets an entry launch in this cycle (R168). -/
def Blk.windowNow (b : Blk) (w : Window) : Bool :=
  b.puOpen w.unit && atOrPast (b.pu w.unit).ph w.openAt && !atOrPast (b.pu w.unit).ph w.closeAt

/-- WINDOW_OPEN (R168, R171, R173): the estimate is at or past OPEN and before CLOSE. An entry not armed in time is taken and
armed in this cycle (R170). -/
def windowOpenB (m k : Nat) (b : Blk) : Blk :=
  match b.armedEntry m k with
  | some (e, w, q) => if !b.windowNow w || !b.overlapOk q e.pos w then b else b.openArmed m k q e
  | none =>
    match b.windowHead m k with
    | some (l, w, q) =>
      if !b.windowNow w || l.desc.kind = kSnap || l.desc.kind = kAscat || !b.overlapOk q l.pos w then b
      else
        let b := b.armHead m k l q
        match b.armedEntry m k with
        | some (e, _, q) => b.openArmed m k q e
        | none => b
    | none => b

/-- One MCLK cycle of the launch gates: an armed entry without its place tries again, and launches if its OPEN is past
(R170). -/
def Blk.gateCycle (b : Blk) : Blk :=
  b.movers.foldl (fun b (m, v) => v.places.foldl (fun b (k, _) =>
    match b.armedEntry m k with
    | some (e, w, q) =>
      if e.aligned || e.gate.isSome then b
      else if e.due.isSome && b.windowNow w && b.overlapOk q e.pos w then b.openArmed m k q e
      else b.armGate m k q e
    | none => b) b) b

/-! ## Late entries (R172) -/

/-- INFO of PHASE_LATE (Table 13-2). -/
def lateInfo (u holds : Nat) (ph : Phase) : List Byte := infoOf [(0, 1, u), (1, 1, holds), (4, 8, ph.word)]

/-- Put a window back on the head entry of a local buffer. -/
def Blk.setHeadWin (b : Blk) (m k pos : Nat) (w : Window) : Blk :=
  b.modBinding m k fun x => { x with
    lbuf := x.lbuf.map fun l => if l.pos = pos then { l with win := some w } else l
    exec := x.exec.map fun e => if e.pos = pos then { e with win := some w } else e }

/-- The head of the local buffer is taken into execution without being decoded further, to halt or to retire there. -/
def Blk.takeHead (b : Blk) (m k pos : Nat) (st : ExStage) : Blk :=
  b.modBinding m k fun x => match x.lbuf with
    | l :: rest => if l.pos = pos then { x with lbuf := rest, plans := x.plans.filter fun p => p.pos != pos
                                                exec := x.exec ++ [newExec l st true 0 0] } else x
    | [] => x

/-- RUN_LATE (R172): the entry launches at once, without its gate. A WAIT retires: no capture after CLOSE can be its own (R217;
DEDUCED, log 29). -/
def Blk.runLate (b : Blk) (m k pos : Nat) (d : Desc) (n : Report) : Blk :=
  (b.modExec m k pos fun e => { e with
    notices := e.notices ++ [n], gatedFirst := e.aligned, due := none
    stage := if e.dead || e.fenceWait then e.stage else if d.kind == kWait then .done
      else if e.aligned && decide (e.stage = .armed) then .waiting else if e.aligned then e.stage
      else if d.kind = kFence then .done else startStage d }).pump m k

/-- An entry of the queue is judged late (R172). Aligned entries share this rule. -/
def Blk.judgeLate (b : Blk) (m k : Nat) (q : QRef) (pos : Nat) (d : Desc) (w : Window) : Blk :=
  let b := (b.modPu w.unit fun x => { x with late := incr 16 x.late }).modEp q fun e => { e with late := true }
  let ph := (b.pu w.unit).ph
  -- an armed or waiting entry gives back its gate place, tag, FIFO side and place among the waiters
  let b := match b.execAt m k pos with
    | some e => ((b.dropArmed m k e).sfUndo m k q e).dropWaiters q
    | none => b
  let inExec := (b.execAt m k pos).isSome
  let max_ := bits (b.reg (puA w.unit 7)) 15 8
  if w.late = 0 then
    if max_ ≠ 0 ∧ max_ ≤ w.holds then
      let b := if inExec then b else b.takeHead m k pos .waiting
      (b.failEntry m k pos 0x40 (lateInfo w.unit w.holds ph)).pump m k
    else
      let up := fun (p : Phase) => { p with cyc := (p.cyc + 1) % 2 ^ 24 }
      let w' := { w with openAt := up w.openAt, closeAt := up w.closeAt, holds := w.holds + 1 }
      (b.setHeadWin m k pos w').modExec m k pos fun e => { e with
        stage := if e.fenceWait || decide (e.stage = .list) then e.stage else if e.aligned then .waiting else .armed, due := none }
  else if w.late = 1 then
    let b := if inExec then b else b.takeHead m k pos .done
    let n := noticeReport 0x02 1 pos d.cookie 0 0 []
    (b.modExec m k pos fun e => { e with
      notices := e.notices ++ [n], stage := if e.dead then e.stage else .done, plan := none, fenceWait := false }).pump m k
  else
    let b := if inExec then b else match (b.binding m k).bind fun x => x.lbuf.find? fun l => l.pos = pos with
      | some l => b.startEntry m k l false
      | none => b
    b.runLate m k pos d (noticeReport 0x40 0 pos d.cookie 0 0 (lateInfo w.unit w.holds ph))

/-- The entry in execution that still waits for its window: it has not launched, and no late judgement released it. -/
def Blk.waitingEntry (b : Blk) (m k : Nat) : Option (Exec × Window × QRef) :=
  match b.binding m k with
  | some x =>
    if x.shadow then none
    else (x.exec.find? fun e => e.win.isSome && !e.dead && !e.launched && e.notices.isEmpty && decide (e.stage ≠ .done)).bind
      fun e => e.win.map fun w => (e, w, x.q)
  | none => none

/-- WINDOW_LATE (R168, R172): the estimate is at or past CLOSE and the entry has not launched. A WAIT that a capture in
time goes to is not late (R217). -/
def windowLateB (m k : Nat) (b : Blk) : Blk :=
  let late := fun (w : Window) => b.puOpen w.unit && atOrPast (b.pu w.unit).ph w.closeAt
  match b.waitingEntry m k with
  | some (e, w, q) => if late w && !b.captureGiven q then b.judgeLate m k q e.pos e.desc w else b
  | none =>
    match b.windowHead m k with
    | some (l, w, q) =>
      if late w then b.judgeLate m k q l.pos l.desc w else b
    | none => b

/-- PHASE_LOST_HALT (R165): the unit has been LOST for PU_LOST_HALT µs, 0 meaning no limit. -/
def phaseLostHaltB (m k : Nat) (b : Blk) : Blk :=
  let hit := fun (w : Window) => decide ((b.pu w.unit).state = .lost) && decide (b.regF (puA w.unit 9) 15 0 ≠ 0)
  let info := fun (w : Window) => infoOf [(0, 2, w.unit + 256 * 5)]
  match b.waitingEntry m k with
  | some (e, w, _) => if hit w then (b.failEntry m k e.pos 0x41 (info w)).pump m k else b
  | none =>
    match b.windowHead m k with
    | some (l, w, _) =>
      if hit w then ((b.takeHead m k l.pos .waiting).failEntry m k l.pos 0x41 (info w)).pump m k else b
    | none => b

/-! ## WAIT: captures consumed (R216, R217) -/

/-- The oldest waiter on a line that a capture may go to: the one in time at the capture, if it still waits. -/
def Blk.taker (b : Blk) (l : LineRef) : Option Waiter :=
  let given := match l with | .wired n => (b.line n).given | .virt v => (b.vline v).given
  ((b.waitersOn l).find? fun w => given == some w.seq).orElse fun _ => (b.waitersOn l).find? b.waiterInTime

/-- The entry behind a WAIT that holds its binding is armed, without a window of its own (R216). -/
def Blk.armBehind (b : Blk) (m k : Nat) : Blk :=
  match b.binding m k with
  | some x =>
    match x.exec, x.lbuf with
    | [e], l :: _ =>
      let d := l.desc
      if x.shadow || e.desc.kind != kWait || e.dead || e.stage != .waiting || l.win.isSome || d.fence || d.kind = kFence
          || d.kind = kSnap || d.kind = kAscat || d.kind = kWait || x.moving.isSome || x.preempt || !b.mayStart x.q d
          || (b.addressStage (b.queue x.q).cfg.dom d).isSome then b
      else b.armHead m k l x.q
    | _, _ => b
  | none => b

/-- The entry behind a WAIT that has retired is released (R216): GATED from its gate place, else in its queue's class. -/
def Blk.releaseBehind (b : Blk) (m k : Nat) : Blk :=
  match b.binding m k with
  | some x =>
    match x.exec, x.lbuf with
    | e :: _, _ => if e.stage = .armed ∧ e.win = none ∧ !e.dead then b.launch m k x.q e else b
    | [], l :: _ =>
      if l.win.isSome || !b.mayStart x.q l.desc || x.moving.isSome || x.preempt then b
      else
        let b := b.armHead m k l x.q
        match b.execAt m k l.pos with
        | some e => if e.stage = .armed ∧ !e.dead then b.launch m k x.q e else b
        | none => b
    | [], [] => b
  | none => b

/-- CAPTURE_CONSUMED (R216): the WAIT retires with its mark, and the entry behind it is released; a line gives at most one capture
in a cycle (R215). -/
def captureConsumedB (l : LineRef) (b : Blk) : Blk :=
  let now := b.clock.cycle
  let held : Bool := match l with
    | .wired n => b.rlTakes n && decide ((b.line n).state = LineState.pending) && (b.line n).usedAt != some now
    | .virt v => b.on 1 && decide (0 < (b.vline v).pend) && (b.vline v).usedAt != some now
  match held, b.taker l with
  | true, some w =>
    let b := b.modSched fun s => { s with waiters := s.waiters.filter fun z => z.seq != w.seq }
    let (endLine, b) := match l with
      | .wired n => (some n, b.rlConsume n)
      | .virt v => (none, b.vrlConsume v)
    match (b.binding w.m w.b).bind fun x => x.exec.find? fun e => e.desc.kind = kWait && !e.dead && decide (e.stage = .waiting) with
    | some e =>
      ((b.modExec w.m w.b e.pos fun e => { e with stage := .done, endLine := endLine }).pump w.m w.b).releaseBehind w.m w.b
    | none => b
  | _, _ => b

/-- One MCLK cycle of the gates behind WAITs (R216): the next entry is armed while the WAIT holds, and goes on once nothing is in
front of it. -/
def Blk.behindCycle (b : Blk) : Blk :=
  b.movers.foldl (fun b (m, v) => v.places.foldl (fun b (k, _) =>
    match ((b.binding m k).map (·.exec)).getD [] with
    | e :: rest =>
      if e.stage = .armed ∧ e.win = none ∧ !e.dead then b.releaseBehind m k
      else match rest, (b.binding m k).map (·.q) with
        | a :: _, some q => if a.stage = .armed ∧ a.win = none ∧ a.gate = none then b.armGate m k q a else b
        | _, _ => b.armBehind m k
    | [] => b) b) b

end Sys2Proof.Machine
end

