-- ==== Sys2Proof/Machine/Stops.lean ====
section
/-! DEFINITION. Stopping, pausing and resuming queues at every level (R243-R259), and quiescing movers and ports
(R256-R262). -/

namespace Sys2Proof.Machine
open Sys2Proof

/-- A mode that ends the entry in execution at its stop point (R244). -/
def StopMode.hard : StopMode → Bool
  | .pause | .abort | .disable => true
  | .drain | .atPhase => false

/-- MODE codes (Table 5-4). -/
def StopMode.code : StopMode → Nat
  | .pause => 0 | .drain => 1 | .atPhase => 2 | .abort => 3 | .disable => 4

/-- The entries in execution of a queue, older first. -/
def Blk.execsOf (b : Blk) (q : QRef) : List Exec :=
  match b.boundAt q with
  | some (m, k) => ((b.binding m k).map (·.exec)).getD []
  | none => []

/-- Flush reads a queue's binding waits for. -/
def Blk.flushOutOf (b : Blk) (q : QRef) : Nat :=
  match b.boundAt q with
  | some (m, k) => ((b.binding m k).map (·.flushOut)).getD 0
  | none => 0

/-- The unit gives an estimate a stop can wait for (R247). -/
def Blk.stopPhase (b : Blk) (s : Stop) : Bool :=
  (b.pu s.pu).ticks && atOrPast (b.pu s.pu).ph ⟨s.cyc, s.pos, 0⟩

/-- A STOP_AT_PHASE whose phase has passed acts as DRAIN (R247). -/
def Blk.atPhaseNow (b : Blk) (s : Stop) : Stop := if s.mode = .atPhase ∧ b.stopPhase s then { s with mode := .drain } else s

/-- A stop requested at a level that may hold one already (R253). -/
def newStop (old : Option Stop) (s : Stop) : Option Stop :=
  match old with
  | some o => if s.mode.strength < o.mode.strength then some o else some s
  | none => some s

/-- The stop a queue acts on from now: a weaker one never replaces it, a later phase replaces an armed one (R253). -/
def actOn (was : Option Stop) (now : Stop) : Stop :=
  match was with
  | some o => if now.mode.strength < o.mode.strength then o else now
  | none => now

/-- The DISCARDED notice of DISABLE (R249). -/
def discardNotice (pos cookie src dst : Nat) : Report := noticeReport 0x02 2 pos cookie src dst []

/-- Drop what was executed beyond the head index, so that every entry from it runs again (R248). -/
def Queue.rerun (x : Queue) : Queue :=
  { x with unpub := [], run := { x.run with fetched := x.run.head, retiredTo := x.run.head, prevLast := true,
                                            pauseMark := false } }

/-- Drop every fetched entry (R249): Chervil's copies, its entry tiles of the Mews, the known tail. -/
def Blk.discardFetched (b : Blk) (q : QRef) : Blk :=
  (b.modQueue q fun x => { x.rewind with
    cache := [], recheck := none, ep := { x.ep with unused := x.ep.unused + x.cache.length } }).modSched fun s =>
    { s with mews := s.mews.filter fun t => t.q != q }

/-- A stop that takes effect on a queue already at rest is made stronger (R253). -/
def Blk.convert (b : Blk) (q : QRef) (was : Option Stop) (now : Stop) : Blk :=
  let x := b.queue q
  let mk := x.run.mark
  let cookie := match x.copyAt mk.pos with | some c => (decodeDesc c).cookie | none => 0
  let stronger := match was with | some o => decide (o.mode.strength < now.mode.strength) | none => true
  let wasHard := match was with | some o => decide (3 < o.mode.strength) | none => false
  -- paused inside a chain, between two of its entries: POS is the next entry, of which nothing has moved
  let between := !x.run.pauseMark && decide (x.run.retiredTo ≠ x.run.head)
  let cookieAt := match x.copyAt x.run.retiredTo with | some c => (decodeDesc c).cookie | none => 0
  if !stronger then b
  else if now.mode = .abort then
    if between then
      let b := (b.modQueue q Queue.rerun).putMark q false x.run.head 0 0 (0, 0)
      b.modQueue q fun y => { y with notice := some (noticeReport 0x01 0 x.run.retiredTo cookieAt 0 0 []) }
    else if x.run.pauseMark then
      let b := (b.modQueue q Queue.rerun).sfRelease (q, mk.pos)
      let b := b.putMark q false x.run.head 0 0 (0, 0)
      b.modQueue q fun x => { x with notice := some (noticeReport 0x01 0 mk.pos cookie mk.srcOfs mk.dstOfs []) }
    else b
  else if now.mode = .disable then
    let r := if x.run.pauseMark then discardNotice x.run.head cookie mk.srcOfs mk.dstOfs
      else if wasHard then discardNotice x.run.head 0 0 0 else discardNotice x.run.head 0 0 0
    let b := if x.run.pauseMark then b.sfRelease (q, mk.pos) else b
    let b := (b.discardFetched q).putMark q false x.run.head 0 0 (0, 0)
    b.modQueue q fun x => { x with notice := some r, run := { x.run with pauseMark := false } }
  else b

/-- Write a notice that is due (R248, R249). -/
def Blk.writeNotice (b : Blk) (q : QRef) : Blk :=
  let x := b.queue q
  match x.notice with
  | some r => (b.genRecord x.cfg.dom q r).modQueue q fun x => { x with notice := none }
  | none => b

/-- The levels that hold a queue have changed: an IDLE or BOUND queue goes to STOPPING, a stronger mode takes effect on
one in STOPPING or STOPPED (R243, R253, Table 5-7). -/
def Blk.reStop (b : Blk) (q : QRef) : Blk :=
  let x := b.queue q
  match b.levels q with
  | none => b
  | some s =>
    let now := b.atPhaseNow (actOn x.acting s)
    let begin_ := fun (b : Blk) =>
      let b := b.modQueue q fun x => { x with acting := some now, ending := .draining, run := { x.run with phase := .stopping } }
      let b := { b with sched := { b.sched with bindList := b.sched.bindList.filter (· != q) } }
      let b := b.traceQ 2 q now.mode.code
      if now.mode.hard then b.stopExec q else b
    match x.run.phase with
    | .idle | .bound => begin_ b
    | .stopping =>
      if x.acting = some now then b
      else if decide (x.ending = .publishing) && x.run.pauseMark then
        (b.modQueue q fun x => { x with acting := some now }).convert q x.acting now
      else
        let wasHard := match x.acting with | some o => o.mode.hard | none => false
        let b := b.modQueue q fun x => { x with acting := some now }
        if now.mode.hard && !wasHard then (b.modQueue q fun x => { x with ending := .draining }).stopExec q else b
    | .stopped => ((b.modQueue q fun x => { x with acting := some now }).convert q x.acting now).writeNotice q
    | _ => b

/-- Every queue looks at its stops again. -/
def Blk.reStopAll (b : Blk) : Blk := b.allQueues.foldl (fun b q => b.reStop q) b

/-- A queue leaves STOPPED or HALTED (R252, R202, R84): it is IDLE, Chervil reads its ring from the head index at once,
and a cell queue is bound again. -/
def Blk.toIdle (b : Blk) (q : QRef) : Blk :=
  let b := b.modQueue q fun x =>
    { x with acting := none, ending := .none, notice := none,
             run := { x.run with phase := .idle, polling := !q.isCell || x.run.firstNudge, tail := x.run.head,
                                 fetched := x.run.retiredTo, chainTimer := false } }
  let b := b.modQueue q fun x => x.advanceTail (x.size + 1)
  let b := b.chervilRead q none false
  if q.isCell then b.bindOrWait q else b

/-- A queue leaves STOPPED when no level's stop holds it any more (R252). -/
def Blk.unStop (b : Blk) (q : QRef) : Blk :=
  if (b.queue q).run.phase = .stopped ∧ (b.levels q).isNone then b.toIdle q else b

/-- Every queue that a lifted stop held leaves STOPPED. -/
def Blk.unStopAll (b : Blk) : Blk := b.allQueues.foldl (fun b q => b.unStop q) b

/-! ## Reaching the stop point and STOPPED (R244-R250) -/

/-- PAUSE has settled: the pause mark is taken and the queue waits for its publication (R245). -/
def Blk.pauseSettled (b : Blk) (q : QRef) : Blk :=
  let x := b.queue q
  if x.ending = .settling ∧ b.flushOutOf q = 0 then
    let b := b.pauseEntry q
    let b := (b.lbufToMews q).modQueue q fun x => { x with ending := .publishing }
    b.settleCheck q
  else b

/-- The entry in execution at its stop point under ABORT or DISABLE: its notice is kept, it leaves (R248, R249). The tiles a
FIFO_IN has written stay visible, those not yet committed among them (R255; DEDUCED: assumption log 22). -/
def Blk.abortEntry (b : Blk) (q : QRef) (mode : StopMode) : Blk :=
  match b.boundAt q with
  | some (m, k) =>
    match ((b.binding m k).map (·.exec)).getD [] with
    | e :: _ =>
      let r := if mode = .abort then noticeReport 0x01 0 e.pos e.desc.cookie e.srcCov e.dstOfs []
        else discardNotice e.pos e.desc.cookie e.srcCov e.dstOfs
      let b := if e.desc.kind = kFifoIn ∧ e.begun then b.sfCommit e.desc.fifo else b
      let b := ((b.dropArmed m k e).modQueue q fun x => { x.keepWrites [e] with notice := some r }).sfRelease (q, e.pos)
      b.modBinding m k fun x => { x with exec := [], lbuf := [] }
    | [] => b.modBinding m k fun x => { x with lbuf := [] }
  | none => b

/-- STOP_POINT_REACHED (R244, R245, R248, R249). -/
def stopPointReachedB (q : QRef) (b : Blk) : Blk :=
  let x := b.queue q
  match x.acting with
  | some s =>
    if x.run.phase = .stopping ∧ x.ending = .draining ∧ s.mode.hard ∧ b.execStopped q then
      let b := b.traceQ 2 q (s.mode.code + 128)
      if s.mode = .pause then
        match b.boundAt q with
        | some (m, k) =>
          let b := b.modQueue q fun x => { x with ending := .settling }
          (b.fenceFlush m k q ((b.pairsOf m k).filter (·.needFlush))).pauseSettled q
        | none => (b.modQueue q fun x => { x with ending := .settling }).pauseSettled q
      else
        let b := b.lbufToMews q
        let b := b.abortEntry q s.mode
        (b.modQueue q fun x => { x with ending := .publishing }).settleCheck q
    else b
  | none => b

/-- STOP_PHASE_REACHED (R247): from this cycle the stop acts as DRAIN. -/
def stopPhaseReachedB (q : QRef) (b : Blk) : Blk :=
  match (b.queue q).acting with
  | some s =>
    if s.mode = .atPhase ∧ (b.queue q).run.phase = .stopping ∧ b.stopPhase s then
      b.modQueue q fun x => { x with acting := some { s with mode := .drain } }
    else b
  | none => b

/-- The queue has nothing in execution, outstanding, unsettled or unpublished that its stop still waits for (R250). -/
def Blk.atRest (b : Blk) (q : QRef) : Bool :=
  let x := b.queue q
  (b.execsOf q).isEmpty && b.flushOutOf q == 0 && decide (x.pub = .none) && x.words == 0 && x.chainEnd.isNone && x.report.isNone && x.lostWrite.isNone
    && x.holding.isNone

/-- The stop of a STOPPING queue has done all it waits for: DRAIN at a chain end, the others past their stop point. -/
def Blk.stopDone (b : Blk) (q : QRef) : Bool :=
  let x := b.queue q
  b.atRest q && (match x.acting with
    | some s => match s.mode with
      | .atPhase => false
      | .drain => x.unpub.isEmpty || x.heldSlot.isSome
      | .pause | .abort | .disable =>
        decide (x.ending = .publishing) || decide (x.ending = .draining)
    | none => true)

/-- QUEUE_STOPPED (R250): the notice is written, the queue enters STOPPED and is unbound; a queue being destroyed goes on
to DESTROYING; one that no stop holds any more goes on to IDLE (R252). -/
def queueStoppedB (q : QRef) (b : Blk) : Blk :=
  let x := b.queue q
  if x.run.phase = .stopping ∧ b.stopDone q then
    let mode := (x.acting.map (·.mode)).getD .drain
    let b := b.lbufToMews q
    let b := if mode = .abort then
        let b := b.modQueue q fun x => { x.rerun with
          notice := some (x.notice.getD (noticeReport 0x01 0 x.run.head 0 0 0 [])) }
        b.putMark q false x.run.head 0 0 (0, 0)
      else if mode = .disable then
        let b := b.discardFetched q
        let b := b.modQueue q fun x => { x with
          notice := some { x.notice.getD (discardNotice 0 0 0 0) with pos := x.run.head } }
        b.putMark q false x.run.head 0 0 (0, 0)
      else b
    let b := b.writeNotice q
    let b := (b.freeBinding q 31).dropWaiters q
    let b := if mode = .abort ∨ mode = .disable then b.unhold q else b
    let b := b.modQueue q fun x => { x with
      ending := .none, run := { x.run with phase := if x.dying then .destroying else .stopped, chainTimer := false } }
    let b := b.traceQ 2 q (mode.code + 128)
    b.unStop q
  else b

/-! ## Stops and resumes by level (R243, R252, R256, R257) -/

/-- A queue-level stop is armed (R243, R253). -/
def Blk.stopQueueOp (b : Blk) (q : QRef) (s : Stop) : Blk :=
  (b.modQueue q fun x => { x with stop := newStop x.stop (b.atPhaseNow s) }).reStop q

/-- A domain-level stop (Table 11-1). -/
def Blk.stopDomainOp (b : Blk) (d : Nat) (s : Stop) : Blk :=
  let b := b.modDomain d fun x => { x with stop := newStop x.stop (b.atPhaseNow s) }
  b.allQueues.foldl (fun b q => if (b.queue q).cfg.dom = d then b.reStop q else b) b

/-- An instance-level software stop (Table 11-1). -/
def Blk.stopInstanceOp (b : Blk) (s : Stop) : Blk :=
  (b.modSched fun x => { x with instStop := newStop x.instStop (b.atPhaseNow s) }).reStopAll

/-- Release every shadow binding on a mover (R152, R256, R260). -/
def Blk.dropShadows (b : Blk) (m : Nat) : Blk :=
  (b.mover m).places.foldl (fun b (k, x) =>
    if x.shadow then (b.setBinding m k none).modQueue x.q fun y => { y with unshadowed := true } else b) b

/-- The queues actively bound to a mover. -/
def Blk.boundTo (b : Blk) (m : Nat) : List QRef :=
  (b.mover m).places.filterMap fun (_, x) => if x.shadow then none else some x.q

/-- A mover stop (Table 11-1, R256). -/
def Blk.stopMoverOp (b : Blk) (m : Nat) (s : Stop) : Blk :=
  let qs := b.boundTo m
  let b := b.modMover m fun v => { v with
    state := if v.state = .active then .quiescing else v.state
    stop := newStop v.stop (b.atPhaseNow s), stopped := qs.foldl (fun l q => addOnce q l) v.stopped }
  (b.dropShadows m).reStopAll

/-- RESUME_MOVER (R256, Table 6-6): a mover in QUIESCING, whatever sent it there, is ACTIVE again; the stop leaves its queues. -/
def Blk.resumeMoverOp (b : Blk) (m : Nat) : Blk :=
  let b := b.modMover m fun v => { v with
    state := if v.state = .quiescing then .active else v.state, stop := none, stopped := [] }
  (if (b.mover m).state = .active then b.reShadow m else b).unStopAll

/-- The entry of a queue whose request this is. -/
def Purpose.entry? : Purpose → Option (QRef × Nat)
  | .data _ pos _ q | .dataTo _ pos _ _ q | .check _ pos q | .record _ pos _ q | .target _ pos _ q => some (q, pos)
  | _ => none

/-- Ports on which an entry in execution has a request outstanding or still to issue (Table 11-1). -/
def Blk.execUses (b : Blk) (q : QRef) (e : Exec) (p : Nat) : Bool :=
  let v := b.port p
  let mine := fun (u : Purpose) => u.entry? == some (q, e.pos)
  let out := (e.reads.any fun r => !r.done && r.port == p) || (v.tags.any fun (_, t) => t.inUse && mine t.purpose)
    || (v.toks.any fun t => !t.accepted && mine t.pkt.purpose) || v.wait.any fun k => mine k.purpose
  let hits := fun (x : Option (Nat × Nat)) => match x with
    | some (a, _) => match b.route a e.desc.path with | some (p', _, _) => p' == p | none => false
    | none => false
  let total := e.total
  let src := e.desc.readsSrc && (List.range ((e.desc.len - e.srcIss + 4095) / 4096)).any fun i => hits (srcAt e (e.srcIss + 4096 * i))
  let dst := (List.range (dstCount e.desc)).any fun i =>
    (List.range ((total - e.dstPres + 4095) / 4096)).any fun j => hits (dstAt e total i (e.dstPres + 4096 * j))
  -- the result of a CHECK, the record of a SNAP, and the targets of an aligned entry
  let result := ((e.desc.kind = kCheck ∧ bit e.desc.aux 1) ∨ e.desc.kind = kSnap) ∧ !e.resultDone ∧ hits (some (e.desc.dst, 1))
  let targets := match e.plan with
    | some pl => pl.targets.any fun t => !t.done && t.launched.isNone && hits (some (t.addr, t.len))
    | none => false
  out || src || dst || decide result || targets

/-- Queues in the reach of a port stop (Table 11-1). -/
def Blk.portReach (b : Blk) (p : Nat) : List QRef :=
  b.allQueues.filter fun q => (b.execsOf q).any fun e => b.execUses q e p

/-- Queues with unpublished writes on a port start no entry on a new route before a publication covers them (R257). -/
def Blk.orderRoutes (b : Blk) (p : Nat) : Blk :=
  b.allQueues.foldl (fun b q =>
    let x := b.queue q
    let ex := b.execsOf q
    if (x.flush ++ ex.flatMap (·.pairs)).any (fun y => y.port == p) then
      let dest := match ex.getLast? with | some e => x.next e.pos | none => x.run.retiredTo
      let ks := (List.range 16).filter fun k => b.keyPortOf q k == p
      b.modQueue q fun x => { x with newRoute := (x.newRoute.filter fun r => !ks.contains r.1) ++ ks.map fun k => (k, dest) }
    else b) b

/-- The queue has entries in execution or retired that no publication covers yet. -/
def Blk.unpublished (b : Blk) (q : QRef) : Bool :=
  !(b.queue q).unpub.isEmpty || !(b.execsOf q).isEmpty

/-- Ports have come back, or another ALT holds: queues with entries not yet published keep the port they use (R208). `old` is the
block before the change. -/
def Blk.keepPorts (b old : Blk) : Blk :=
  let ks := (List.range 16).filter fun k => old.keyPort k != b.keyPort k && b.carries (decide (8 ≤ k)) (old.keyPort k)
  if ks.isEmpty then b
  else b.allQueues.foldl (fun b q =>
    if !b.unpublished q then b
    else b.modQueue q fun x => { x with
      keepPort := x.keepPort ++ (ks.filter fun k => !(x.keepPort.any fun y => y.1 == k)).map fun k => (k, old.keyPort k) }) b

/-- A port stop is armed (Table 11-1, R257). -/
def Blk.stopPortOp (b : Blk) (p : Nat) (s : Stop) : Blk :=
  let qs := b.portReach p
  let b := b.modPort p fun v => { v with
    stop := newStop v.stop (b.atPhaseNow s), reached := qs.foldl (fun l q => addOnce q l) v.reached }
  (b.orderRoutes p).reStopAll

/-- RESUME_PORT (R257). -/
def Blk.resumePortOp (b : Blk) (p : Nat) : Blk :=
  let old := b
  let b := (b.modPort p fun v => { v with stop := none, stopped := false, idle := false, reached := [] }).keepPorts old
  ({ b with halfIdle := b.halfIdle.filter (· != p / 4) }).unStopAll

/-! ## Quiescing movers (R260) -/

/-- The mover that takes a binding from mover `m` (R256, R260). -/
def Blk.moveTarget (b : Blk) (q : QRef) : Option Nat :=
  match q with
  | .cell _ => b.cellMover ((b.queue q).cfg.home.getD 0)
  | .dom _ => (b.chooseMover q).map (·.1)

/-- Order of the moves of R260: cell queues, then EXPRESS, STANDARD, BULK and BACKGROUND, each ascending. -/
def Blk.moveOrder (b : Blk) (l : List QRef) : List QRef :=
  let cls := fun (c : Svc) => l.filter fun q => !q.isCell && b.svcOf q == c
  let sorted := fun (l : List QRef) => b.allQueues.filter l.contains
  sorted (l.filter (·.isCell)) ++ sorted (cls .express) ++ sorted (cls .standard) ++ sorted (cls .bulk)
    ++ sorted (cls .background)

/-- A duplex queue is handed to its live shadow at an entry boundary (R260). -/
def Blk.handOver (b : Blk) (q : QRef) : Blk :=
  match b.boundAt q, b.shadowAt q with
  | some (m, k), some (m', k') =>
    match b.binding m k with
    | some x =>
      let back := x.exec.filter fun e => !e.begun
      let b := back.foldl (fun b e => (b.dropArmed m k e).sfRelease (q, e.pos)) b
      let b := if back.isEmpty then b else b.dropWaiters q
      let b := b.setBinding m k none
      let lbuf := (back.map fun e => e.lentry e.win) ++ x.lbuf
      let b := b.modBinding m' k' fun y =>
        { y with shadow := false, lbuf := lbuf, exec := x.exec.filter (·.begun), plans := x.plans, flushOut := x.flushOut,
                 recs := [] }
      (b.modQueue q fun y => { y with unshadowed := true }).traceQ 1 q m'
    | none => b
  | _, _ => b

/-- A binding begins to move to mover `t` (R16): an entry that has issued no request goes back to Chervil, the launched one
retires first. -/
def Blk.beginMove (b : Blk) (q : QRef) (t : Nat) : Blk :=
  match b.boundAt q with
  | some (m, k) =>
    let l := ((b.binding m k).map (·.exec)).getD []
    let b := l.foldl (fun b e => if e.begun then b else (b.dropArmed m k e).sfRelease (q, e.pos)) b
    let b := if l.all (fun e => !e.begun) then b.dropWaiters q else b
    let b := b.modBinding m k fun x => { x with moving := some t, exec := x.exec.filter (·.begun) }
    b.boundary m k
  | none => b

/-- Begin moves away from a quiescing mover, at most eight at once (R260). An entry that has issued no request goes back
to Chervil. -/
def Blk.quiesce (b : Blk) (m : Nat) : Blk :=
  if (b.mover m).state ≠ .quiescing ∨ (b.mover m).stop.isSome then b
  else
    let b := (b.boundTo m).foldl (fun b q =>
      let boundary := match b.boundAt q with
        | some (m, k) => ((b.binding m k).map fun x => x.exec.all fun e => !e.begun || e.issuedAll).getD false
        | none => false
      if (b.shadowAt q).isSome && boundary then b.handOver q else b) b
    let qs := b.moveOrder ((b.boundTo m).filter fun q => (b.shadowAt q).isNone)
    let running := ((b.mover m).places.filter fun (_, x) => x.moving.isSome).length
    let next := (qs.filter fun q => match b.boundAt q with
      | some (m, k) => ((b.binding m k).map (·.moving.isNone)).getD false
      | none => false).take (8 - running)
    next.foldl (fun b q => match b.moveTarget q with
      | some t => b.beginMove q t
      | none => b) b

/-- The retire command (R260): ACTIVE to QUIESCING, SPARE to RETIRED; no effect in any other state. -/
def Blk.retireMover (b : Blk) (m : Nat) : Blk :=
  match (b.mover m).state with
  | .active =>
    let b := b.modMover m fun v => { v with state := .quiescing }
    let b := (b.mover m).places.foldl (fun b (k, x) =>
      if x.shadow then (b.setBinding m k none).modQueue x.q fun y => { y with unshadowed := true } else b) b
    b.quiesce m
  | .spare => b.modMover m fun v => { v with state := .retired }
  | _ => b

/-- The mover has a request outstanding: a read not returned or a write not accepted of one of its entries. -/
def Blk.moverBusy (b : Blk) (m : Nat) : Bool :=
  b.ports.any (fun (_, v) => v.wait.any (fun k => k.mover == some m) || v.pres.any (fun k => k.mover == some m)
    || v.tags.any fun (_, t) => t.inUse && (match t.purpose with
        | .data m' _ _ _ => m' == m | .target m' _ _ _ => m' == m | .fence m' _ => m' == m | .failover m' => m' == m
        | _ => false))

/-- The lowest-numbered mover in SPARE becomes ACTIVE in the place of a retired one (Table 6-6), once a retire command, not a
mover stop, has brought it to RETIRED: the rules name no moment for it (DESIGN CHOICE: assumption log 29). -/
def Blk.promoteSpare (b : Blk) : Blk :=
  match firstFrom (fun i => decide ((b.mover i).state = .spare)) 18 0 with
  | some s => (List.range 64).foldl (fun b _ => b.serveBindList s) ((b.modMover s fun v => { v with state := .active }).reShadow s)
  | none => b

/-- MOVER_RETIRED (R256, R260): no binding, its stopped queues STOPPED, and no request outstanding. -/
def moverRetiredB (m : Nat) (b : Blk) : Blk :=
  let b := b.quiesce m
  let v := b.mover m
  if v.state = .quiescing ∧ v.places.isEmpty ∧ !b.moverBusy m then
    let b := b.modMover m fun v => { v with state := .retired }
    if v.stop.isSome then b else b.promoteSpare
  else b

/-! ## Draining ports (R257, R258, R261) -/

/-- A packet a stopped or draining port still grants (R257, R261). -/
def Blk.carriedOn (b : Blk) (p : Nat) (k : Pkt) : Bool :=
  let v := b.port p
  let flushRead := match k.purpose with
    | .flush _ | .fence _ _ | .failover _ | .msgFlush _ | .adminFlush _ => true
    | _ => false
  let inReach := match k.purpose with
    | .data _ _ _ q | .dataTo _ _ _ _ q | .check _ _ q | .record _ _ _ q | .target _ _ _ q | .word q _ | .flip q _
    | .ring q _ => v.reached.contains q
    | _ => false
  flushRead || k.second || (v.stop.isSome && inReach) || (bit (b.reg 0x12320) p && k.svc == .gated)

/-- The port grants every request put before it: neither stopped, stopping nor draining. -/
def Blk.openPort (b : Blk) (p : Nat) : Bool :=
  (b.port p).stop.isNone && !(bit (b.reg 0x12320) p)

/-- The classes a level does not serve (Table 14-5). -/
def heldAt (level : Nat) (c : Svc) : Bool :=
  match c with
  | .bulk | .background => decide (1 ≤ level)
  | .standard => decide (3 ≤ level)
  | .express => decide (4 ≤ level)
  | _ => false

/-- The packet may be looked at by the arbiter: the port is open or carries it on, throttling does not hold its class, and its
tag or token is there. -/
def Blk.eligible (b : Blk) (p : Nat) (k : Pkt) : Bool :=
  let v := b.port p
  (b.openPort p || b.carriedOn p k) && !(heldAt b.sup.applied k.svc)
    && (if k.isWrite then v.tokFree else k.tagged || v.canRead k.addr k.len)

/-- Hand the waiting requests a draining or stopped port does not grant to the ports R209 names for them. -/
def Blk.moveWaiting (b : Blk) (p : Nat) : Blk :=
  let go := (b.port p).wait.filter fun k => !b.carriedOn p k
  let b := b.modPort p fun v => go.foldl (fun v k => if k.tagged then v.freeTagAt k.tag false else v)
    { v with wait := v.wait.filter fun k => !(go.any fun g => g.order == k.order) }
  go.foldl (fun b k => match b.route k.addr k.ask with
    | some (p', path, _) => b.present p' { k with path := path, tagged := false }
    | none => b) b

/-- A latency record is invalidated: a new burst of eight probes begins while it is tracked (R181). -/
def LatRec.invalidate (r : LatRec) : LatRec :=
  { r with valid := false, stale := false, samples := [], since := 0, burst := if r.tracked then 8 else 0 }

/-- Invalidate the latency records of every range that satisfies `p` (R181). -/
def Blk.invalidateLat (b : Blk) (p : Nat → Target → Bool) : Blk :=
  b.img.targets.zipIdx.foldl (fun b (t, i) => if p i t then b.modLat i LatRec.invalidate else b) b

/-- Ranges whose traffic leaves on a port. -/
def Blk.onPort (b : Blk) (p : Nat) (t : Target) : Bool := b.egress t == p

/-- The DPT_DRAIN bits a write of `mask` leaves: the bit of a lost port stays set (R330). -/
def Blk.drainMask (b : Blk) (mask : Nat) : Nat :=
  (List.range 8).foldl (fun a p => if bit mask p || (bit (b.reg 0x12320) p && (b.port p).lost) then a + 2 ^ p else a) 0

/-- A write of DPT_DRAIN (R261): a write that would leave no enabled port in service and undrained has no effect. A stuck port
returns to service when its bit is cleared (R302). -/
def Blk.drainWrite (b : Blk) (w : Nat) : Blk :=
  let old := b.reg 0x12320
  let mask := b.drainMask w
  let left := (List.range 8).any fun p =>
    b.portPowered p && (b.port p).up && !(b.port p).lost && !(b.port p).stopped && !(bit mask p)
  if !left then b.raise 0 15
  else
    let new := (List.range 8).filter fun p => bit mask p && !(bit old p)
    let back := (List.range 8).filter fun p => !(bit mask p) && bit old p
    -- records measured on a port are invalidated before its ranges take another route
    let b := new.foldl (fun b p => b.invalidateLat fun _ t => b.onPort p t) b
    let b := new.foldl (fun b p => b.orderRoutes p) b
    let before := b
    let b := (b.setReg 0x12320 mask).keepPorts before
    let b := new.foldl (fun b p => b.moveWaiting p) b
    let b := back.foldl (fun b p => b.invalidateLat fun _ t => t.egress == p) b
    back.foldl (fun b p =>
      let b := b.modPort p fun v => { v with idle := if v.stopped then v.idle else false, stuck := false }
      { b with halfIdle := b.halfIdle.filter (· != p / 4) }) b

/-- A port holds nothing: no tag in use, no write token held, nothing presented (R257, R261). -/
def Port.nothing (v : Port) : Bool :=
  v.toks.isEmpty && v.pres.isEmpty && v.wait.isEmpty && v.cplPres.isEmpty && v.tags.all fun (_, t) => !t.inUse

/-- PORT_IDLE (R257, R258, R261): IDLE sets, a stopped port enters STOPPED, and the half is idle once its four ports are. -/
def portIdleB (p : Nat) (b : Blk) : Blk :=
  let v := b.port p
  let stopReady := v.stop.isSome && v.reached.all (fun q => match (b.queue q).run.phase with
    | .stopping => false | _ => true)
  let draining := bit (b.reg 0x12320) p
  if v.nothing && (stopReady || draining) then
    let b := b.modPort p fun v => { v with idle := true, stopped := v.stopped || stopReady }
    let b := if stopReady then (b.invalidateLat fun _ t => t.egress == p).moveWaiting p else b
    let h := p / 4
    if ((List.range 4).all fun i => (b.port (4 * h + i)).idle || !(b.portPowered (4 * h + i))) then
      { b with halfIdle := addOnce h b.halfIdle }
    else b
  else b

end Sys2Proof.Machine
end

