-- ==== Sys2Proof/Machine/Chervil.lean ====
section
/-! DEFINITION. Chervil, contexts and binding: nudges and polls (R81, R86, R87), chain timeouts (R84), binding (R202-R205),
spill and refill (R96-R98, R360), context tiles. -/

namespace Sys2Proof.Machine
open Sys2Proof

/-! ## Reads of the block that are not an entry's -/

/-- The outstanding read whose purpose satisfies `p`: its port, tag and record. A read that still waits to be granted is
not outstanding. -/
def Blk.findRead (b : Blk) (p : Purpose → Bool) : Option (Nat × Nat × TagRec) :=
  b.ports.findSome? fun (n, v) =>
    (v.tags.find? fun (t, r) => r.inUse && p r.purpose && !(v.wait.any fun k => k.tagged && k.tag == t)).map
      fun (t, r) => (n, t, r)

/-- A read that ends in a timeout or an error completion is abandoned: its tag stays out of use (R130). -/
def ReadResult.abandons : ReadResult → Bool
  | .timeout | .error => true
  | _ => false

/-- Free the tag of a read that has ended. -/
def Blk.endRead (b : Blk) (port tag : Nat) (withheld : Bool) : Blk := b.modPort port fun v => v.freeTagAt tag withheld

/-! ## Context tiles (R12, R97): the spec gives their fields, not their places. DESIGN CHOICE: assumption log 11 -/

/-- Put `v` at bit `i` of a flag word. -/
def flagBit (i : Nat) (x : Bool) : Nat := if x then 2 ^ i else 0

/-- A tile of 60 bytes with its CRC-32C in bytes 60 to 63 (R97). -/
def sealTile (bs : List Byte) : List Byte := let t := (bs ++ leBytes 60 0).take 60; t ++ leBytes 4 (crc32c t)

/-- The CRC of a context tile matches (R97). -/
def tileOk (bs : List Byte) : Bool := bs.length == 64 && leAt bs 60 4 == crc32c (bs.take 60)

/-- Context tile 0: configuration. -/
def cfgTile (c : QCfg) : List Byte :=
  let flags := flagBit 0 c.novec + flagBit 1 c.duplex + flagBit 2 c.ownback + flagBit 3 c.adminMark
    + flagBit 4 c.pollPhase + fld c.pollPu 5 4 + fld (c.home.getD 0) 9 5 + flagBit 14 c.poisonStop + flagBit 15 c.pin
    + flagBit 16 c.home.isSome + flagBit 17 c.sleepHold
  sealTile (leBytes 8 c.ringBase ++ leBytes 8 c.cplAddr ++ leBytes 1 c.ringExp ++ leBytes 1 c.dom ++ leBytes 2 c.poll
    ++ leBytes 2 c.vec ++ leBytes 2 c.chainTmo ++ leBytes 4 flags ++ leBytes 1 c.qweight ++ leBytes 1 c.sclass
    ++ leBytes 1 c.modCount ++ leBytes 1 (c.modMode + 4 * c.modPu) ++ leBytes 2 c.modTime ++ leBytes 1 c.pref)

/-- Configuration from tile 0. -/
def cfgOfTile (t : List Byte) : QCfg :=
  let f := leAt t 24 4
  { ringBase := leAt t 0 8, cplAddr := leAt t 8 8, ringExp := leAt t 16 1, dom := leAt t 17 1, poll := leAt t 18 2,
    vec := leAt t 20 2, chainTmo := leAt t 22 2, novec := bit f 0, duplex := bit f 1, ownback := bit f 2,
    adminMark := bit f 3, pollPhase := bit f 4, pollPu := bits f 8 5, home := if bit f 16 then some (bits f 13 9) else none,
    poisonStop := bit f 14, pin := bit f 15, sleepHold := bit f 17, qweight := leAt t 28 1, sclass := leAt t 29 1,
    modCount := leAt t 30 1, modMode := bits (leAt t 31 1) 1 0, modPu := bits (leAt t 31 1) 5 2, modTime := leAt t 32 2,
    pref := leAt t 34 1 }

/-- A progress mark as 20 bytes (Table 6-5). -/
def markBytesOf (k : Mark) : List Byte :=
  leBytes 4 (fld k.pos 0 17 + fld (b1 k.active) 17 1 + fld k.seq 24 8) ++ leBytes 4 k.srcOfs ++ leBytes 4 k.dstOfs
    ++ leBytes 4 (fld k.frag 0 16 + fld k.ports 16 8) ++ leBytes 4 k.fragOfs

/-- A progress mark from its 20 bytes (Table 6-5). -/
def markOfBytes (t : List Byte) : Mark :=
  { seq := bits (leAt t 0 4) 31 24, active := bit (leAt t 0 4) 17, pos := bits (leAt t 0 4) 16 0, srcOfs := leAt t 4 4,
    dstOfs := leAt t 8 4, ports := bits (leAt t 12 4) 23 16, frag := bits (leAt t 12 4) 15 0, fragOfs := leAt t 16 4 }

/-- Context tile 1: run state. -/
def runTile (x : Queue) : List Byte :=
  let r := x.run
  let flags := flagBit 0 r.pauseMark + flagBit 1 r.prevLast + flagBit 2 x.mod.held + flagBit 3 x.mod.timer
    + flagBit 4 x.unshadowed
  sealTile (markBytesOf r.mark ++ leBytes 3 r.head ++ leBytes 3 r.tail ++ leBytes 3 r.rtail ++ leBytes 4 r.pubcount
    ++ leBytes 9 r.bytesMoved ++ leBytes 4 r.snapSeq ++ leBytes 1 r.lastStatus ++ leBytes 2 r.poisonCount
    ++ leBytes 1 flags ++ leBytes 4 x.mod.count)

/-- Run state from tile 1, laid over what the block kept of the queue. -/
def runOfTile (x : Queue) (t : List Byte) : Queue :=
  let f := leAt t 49 1
  let head := leAt t 20 3
  let mod := { x.mod with held := bit f 2, timer := bit f 3, count := leAt t 50 4 }
  let run := { x.run with head := head, tail := leAt t 23 3, fetched := head, retiredTo := head, rtail := leAt t 26 3,
                          pubcount := leAt t 29 4, mark := markOfBytes t, bytesMoved := leAt t 33 9,
                          snapSeq := leAt t 42 4, lastStatus := leAt t 46 1, poisonCount := leAt t 47 2,
                          pauseMark := bit f 0, prevLast := bit f 1 }
  { x with mod := mod, run := run, unshadowed := bit f 4 }

/-! ## Resident contexts, spill and refill (R96-R98, R360) -/

/-- The queue holds a resident context (R360); one being spilled for another queue has given its context up. -/
def Queue.resident (x : Queue) (refilling : Bool) : Bool :=
  match x.run.phase with
  | .free | .spilled | .spilling => false
  | .refilling => refilling
  | _ => true

/-- Resident contexts in use: cell queues included (R110). -/
def Blk.residents (b : Blk) : Nat :=
  b.cells.length + (b.queues.filter fun (n, x) => x.resident (b.sched.refilling.contains n)).length
    + (b.sched.jobs.filter fun j => decide (j.wait = .word)).length

/-- A resident context is free (R360). -/
def Blk.contextFree (b : Blk) : Bool := decide (b.residents < 16384)

/-- A queue may be chosen as spill victim (R96). -/
def Blk.spillable (b : Blk) (n : Nat) (x : Queue) : Bool :=
  decide (x.run.phase = .idle) && !x.cfg.pin && !x.run.nospill && (b.boundAt (.dom n)).isNone
    && decide (x.run.tail = x.run.head) && x.heldSlot.isNone && decide (x.pub = .none) && x.words == 0
    && !(b.sched.jobs.any fun j => !j.cell && j.qid == n)

/-- The victim of a spill on demand: its last owned entry lies longest back, ties to the higher queue ID (R360). -/
def Blk.spillVictim (b : Blk) : Option Nat :=
  (b.queues.foldl (fun (best : Option (Nat × Nat)) (n, x) =>
    if b.spillable n x then
      match best with
      | some (_, o) => if x.lastOwned ≤ o then some (n, x.lastOwned) else best
      | none => some (n, x.lastOwned)
    else best) none).map (·.1)

/-- Address of a queue's backing slot (Table 2-4). -/
def Blk.backAddr (b : Blk) (x : Queue) : Nat := b.img.ident.backBase + 128 * x.run.backSlot.getD 0

/-- Spill a queue: its copies leave Chervil and both tiles are presented (R96, R97). -/
def Blk.spill (b : Blk) (n : Nat) : Blk :=
  let x := b.queue (.dom n)
  let b := b.modQueue (.dom n) fun x => { x with cache := [], run := { x.run with phase := .spilling } }
  let a := b.backAddr x
  let d := b.img.ident.backDom
  let b := b.sendWrite a (cfgTile x.cfg) d 0 (.spill (.dom n) 0) false
  (b.sendWrite (a + 64) (runTile x) d 0 (.spill (.dom n) 1) false).traceQ 5 (.dom n) 0

/-- Take a resident context, spilling a victim if none is free; none when there is no victim (R360). -/
def Blk.takeContext (b : Blk) : Option Blk :=
  if b.contextFree then some b
  else match b.spillVictim with
    | some v => some (b.spill v)
    | none => none

/-- The refill read is presented (R98). -/
def Blk.startRefill (b : Blk) (n : Nat) : Blk :=
  let x := b.queue (.dom n)
  let b := b.modQueue (.dom n) fun x => { x with run := { x.run with phase := .refilling } }
  let b := b.modSched fun s => { s with refilling := addOnce n s.refilling, ctxWaiters := s.ctxWaiters.filter (· != n) }
  (b.sendRead (b.backAddr x) 128 b.img.ident.backDom 0 (.refill (.dom n))).traceQ 5 (.dom n) 1

/-- A spilled queue is to be refilled: at once, or behind the 64 refills running, or once a context is free (R98, R360). -/
def Blk.wantRefill (b : Blk) (n : Nat) : Blk :=
  if (b.queue (.dom n)).run.phase ≠ .spilled ∨ b.sched.ctxWaiters.contains n then b
  else if 64 ≤ b.sched.refilling.length then b
  else match b.takeContext with
    | some b => b.startRefill n
    | none =>
      let b := b.modSched fun s => { s with ctxWaiters := s.ctxWaiters ++ [n] }
      { b with movp := { b.movp with ctxWait := incr 8 b.movp.ctxWait } }

/-- A context or a refill place is free: waiting refills proceed in order (R98, R360). -/
def Blk.serveRefills (b : Blk) : Blk :=
  let wait := b.sched.ctxWaiters
  let b := wait.foldl (fun b n =>
    if b.sched.refilling.length < 64 then
      match b.takeContext with
      | some b => b.startRefill n
      | none => b
    else b) b
  (b.sched.nudged.filter fun n => (b.queue (.dom n)).run.phase == .spilled && !(b.heldAbove (.dom n))).foldl
    (fun b n => b.wantRefill n) b

/-- A context tile of the queue is still to be accepted (R97). -/
def Blk.spillOut (b : Blk) (q : QRef) : Bool :=
  b.ports.any fun (_, v) => (v.wait ++ v.pres).any fun k => match k.purpose with
    | .spill q' _ => q' == q
    | _ => false

/-- SPILL_DONE (R97, Table 5-7): both tile writes are accepted. -/
def Blk.spillEnd (b : Blk) (q : QRef) : Blk :=
  if (b.queue q).run.phase = .spilling ∧ !b.spillOut q then
    (b.modRun q fun r => { r with phase := .spilled }).serveRefills
  else b

/-- A doorbell write is dropped and counted (R87, R103). -/
def Blk.countDrop (b : Blk) : Blk := b.modSched fun s => { s with nudgeDrops := s.nudgeDrops + 1 }

/-- A malformed or misdirected doorbell write: dropped, counted, NUDGE_DROP raised (R87). -/
def Blk.nudgeDrop (b : Blk) : Blk := b.countDrop.raise 0 11

/-- The position a doorbell value names in a ring of `size` entries: index [15:0], lap parity bit 16 (R87). -/
def posOf (v size : Nat) : Nat := bits v 15 0 + (if bit v 16 then 0 else size)

/-- A refilled queue is IDLE; a stop above holds it, or its nudge is acted on (R17, R87, R243). -/
def Blk.refilled (b : Blk) (q : QRef) : Blk :=
  let x := b.queue q
  let b := b.modQueue q fun x => { x with run := { x.run with phase := .idle, polling := true } }
  if (b.levels q).isSome then b.reStop q
  else match q with
    | .dom n =>
      if b.sched.nudged.contains n then
        let b := b.modRun q fun r => { r with nudgeTail := none }
        match x.run.nudgeTail with
        | some v => if bits v 15 0 < x.size then b.chervilRead q (some (posOf v x.size)) true else b.nudgeDrop.chervilRead q none true
        | none => b.chervilRead q none true
      else b
    | .cell _ => b

/-- A refill ends (R97): both tiles are checked; a bad one, poison, an error completion or a timeout loses the queue. -/
def Blk.refillEnd (b : Blk) (q : QRef) (r : ReadResult) : Blk :=
  let b := b.modSched fun s => { s with refilling := s.refilling.filter (· != q.num) }
  let lose := fun (cause tile : Nat) => b.loseQueue q 0x61 (infoOf [(0, 1, cause + 4 * tile)])
  let b := match r with
    | .data bs =>
      if !tileOk (slice bs 0 64) then lose 0 0
      else if !tileOk (slice bs 64 64) then lose 0 1
      else (b.modQueue q fun x => { runOfTile x (slice bs 64 64) with cfg := cfgOfTile bs }).refilled q
    | .poison _ => lose 1 0
    | .error => lose 2 0
    | .timeout => lose 3 0
  b.serveRefills

/-! ## Nudges and polls -/

/-- A nudge of a domain queue waits until Chervil acts on it (R17, R87). -/
def Blk.noteNudge (b : Blk) (q : QRef) : Blk :=
  let b := b.modEp q fun e => { e with nudged := true }
  match q with
  | .dom n => b.modSched fun s => { s with nudged := addOnce n s.nudged }
  | .cell _ => b

/-- NUDGE (R17, R81, R87, R250): a doorbell write of `size` bytes to the slot of a queue by domain `hdrDom`. -/
def nudgeB (q : QRef) (hdrDom size value : Nat) (b : Blk) : Blk :=
  let x := b.queue q
  if !(b.on 1 && b.on 2) then b
  else if !(size = 4 ∨ size = 8) || !b.exists? q || hdrDom ≠ x.cfg.dom then b.nudgeDrop
  else match x.run.phase with
    | .spilling | .spilled | .refilling =>
      let b := b.modRun q fun r => { r with nudgeTail := some (bits value 16 0) }
      let b := b.modSched fun s => { s with nudged := addOnce q.num s.nudged }
      if b.heldAbove q then b else b.wantRefill q.num
    | _ =>
      if x.size ≤ bits value 15 0 then b.nudgeDrop
      else match x.run.phase with
        | .stopped | .halted | .lost | .destroying => b.countDrop
        | _ =>
          if q.isCell && !x.run.firstNudge then
            let b := b.modRun q fun r => { r with firstNudge := true }
            match b.routeOf q x.cfg.cplAddr 0 with
            | some (p, path, _) =>
              b.present p { pkt0 with isWrite := true, addr := x.cfg.cplAddr, len := 8, data := cplWordBytes x.size 0 0,
                                      dom := x.cfg.dom, path := path, purpose := .firstWord q }
            | none => b
          else
            (b.noteNudge q).chervilRead q (some (posOf value x.size)) true

/-- POLL_DUE (R86, R89, R175): the queue's interval expires, or with POLL_PHASE its unit ticks. -/
def pollDueB (q : QRef) (b : Blk) : Blk :=
  let x := b.queue q
  if x.cfg.pollPhase && (b.pu x.cfg.pollPu).ticks && !(b.pu x.cfg.pollPu).ticked then b
  else if !x.cfg.pollPhase && b.pollEarly q then b
  else b.chervilRead q none false

/-- CHAIN_TIMEOUT (R84, R95): the queue halts with CHAIN_BROKEN at the chain's FIRST entry; its entries are dropped. A queue that is
halting already keeps its first cause. -/
def chainTimeoutB (q : QRef) (b : Blk) : Blk :=
  let x := b.queue q
  let live := match x.run.phase with | .idle | .bound | .stopping => true | _ => false
  if !(live && x.run.chainTimer && x.report.isNone) then b
  else
    let first := x.run.chainFirst
    let r := haltReport 0x13 first ((x.copyAt first).map (fun c => (decodeDesc c).cookie) |>.getD 0) 0 0
      (infoOf [(0, 4, x.run.tail % 2 ^ 17)])
    let b := b.haltWith q r
    let inChain := fun p => decide (x.dist first x.run.head ≤ x.dist p x.run.head)
    match b.boundAt q with
    | some (m, k) =>
      let l := b.execsOf q
      let b := match l.find? fun e => inChain e.pos with
        | some e => b.failEntry m k e.pos 0x13 []
        | none => b
      let b := b.modBinding m k fun y => { y with lbuf := y.lbuf.filter fun e => !inChain e.pos }
      let b := b.modQueue q fun x => { x with unpub := x.unpub.filter fun r => !inChain r.pos }
      b.pump m k
    | none => (b.modQueue q fun x => { x with unpub := x.unpub.filter fun r => !inChain r.pos }).settleCheck q

/-! ## Binding (R202-R205) -/

/-- BIND_QUEUE (R203, R205). -/
def bindQueueB (q : QRef) (b : Blk) : Blk :=
  if b.on 1 && (b.levels q).isNone && (!q.isCell || decide (b.ldr.state ≠ .warmrst)) then b.bindOrWait q else b

/-- BIND_IDLE (R204): a bound domain queue with nothing to do is unbound. -/
def bindIdleB (q : QRef) (b : Blk) : Blk :=
  let x := b.queue q
  if !q.isCell && decide (x.run.phase = .bound) && decide (x.run.tail = x.run.head) && b.quiet q then
    (b.modRun q fun r => { r with phase := .idle }).freeBinding q 31
  else b

/-- The domain-queue binding that has been bound longest, of those that may be preempted (R205). -/
def Blk.longestBound (b : Blk) : Option (Nat × Nat × Nat) :=
  let all := b.movers.flatMap fun (m, v) => v.places.filterMap fun (k, x) =>
    if x.shadow || x.q.isCell || x.preempt || x.moving.isSome || v.state != .active then none else some (m, k, x.since)
  all.foldl (fun (best : Option (Nat × Nat × Nat)) c => match best with
    | some y => if c.2.2 < y.2.2 then some c else best
    | none => some c) none

/-- BIND_PREEMPT (R205): the domain-queue binding that has been bound longest is preempted. -/
def bindPreemptB (b : Blk) : Blk :=
  if b.sched.bindList.isEmpty ∨ b.regF 0x11200 31 16 = 0 then b
  else match b.longestBound with
    | some (m, k, _) => (b.modBinding m k fun x => { x with preempt := true }).boundary m k
    | none => b

end Sys2Proof.Machine
end

