-- ==== Sys2Proof/Machine/Aligned.lean ====
section
/-! DEFINITION. Aligned gather and scatter (R177-R191): arming a plan, its schedule, launches, returns, the SNAP record
and its qualities; latency records (R179-R182); the aging of BACKGROUND bindings (R194). -/

namespace Sys2Proof.Machine
open Sys2Proof

/-! ## Time in quarter-nanoseconds (R177, R180, R184) -/

/-- The quotient rounded half up. -/
def roundDiv (a : Int) (n : Nat) : Int := (2 * a + n) / (2 * n : Nat)

/-- MCLK cycles as qns at the measured frequency (R19, R180). -/
def Blk.qnsOf (b : Blk) (cycles : Int) : Int := roundDiv (cycles * 4000000) b.clock.mclkKHz

/-- qns as MCLK cycles, rounded half up (R184). -/
def Blk.cyclesOf (b : Blk) (q : Int) : Int := roundDiv (q * b.clock.mclkKHz) 4000000

/-! ## Latency records -/

/-- Greatest of the last 64 samples. -/
def LatRec.max (r : LatRec) : Nat := r.samples.foldl Nat.max 0

/-- Least of the last 64 samples. -/
def LatRec.min (r : LatRec) : Nat := match r.samples with | [] => 0 | s :: t => t.foldl Nat.min s

/-- J of a record, rounded half up, for which R180 states no rounding (DESIGN CHOICE: assumption log 29). -/
def LatRec.jitter (r : LatRec) : Nat := (r.max - r.min + 1) / 2

/-- A sample of `s` qns (R180, R181). The first one after tracking began or after an invalidation sets EST whole: an invalidated
record starts afresh (DESIGN CHOICE: assumption log 29). -/
def LatRec.sample (r : LatRec) (s f : Nat) : LatRec :=
  let s := Nat.min s 65535
  let est :=
    if r.since = 0 then s
    else if r.est ≤ s then r.est + (s - r.est + 2 ^ f - 1) / 2 ^ f
    else r.est - (r.est - s + 2 ^ f - 1) / 2 ^ f
  { r with est := est, samples := (s :: r.samples).take 64, count := incr 16 r.count, since := r.since + 1
           valid := decide (8 ≤ r.since + 1), stale := false }

/-- A read of range `i` took `rtt` MCLK cycles: the record of a tracked range takes the sample (R180). S is rounded half up, for
which R180 states no rounding (DESIGN CHOICE: assumption log 29). -/
def Blk.latSample (b : Blk) (i rtt : Nat) : Blk :=
  let s := ((rtt * 4000000 + b.clock.mclkKHz) / (2 * b.clock.mclkKHz))
  let f := b.regF 0x15000 19 16
  b.modLat i fun r => if r.tracked then r.sample s f else r

/-- A probe ends (R180, R181): a clean completion gives a sample, anything else is counted. -/
def Blk.probeEnd (b : Blk) (i : Nat) (t : TagRec) (clean : Bool) : Blk :=
  if clean then b.latSample i (b.clock.cycle - t.since) else { b with pfail := incr 16 b.pfail }

/-- LATENCY_PROBE (R179): a zero-length read at the BASE of a tracked range, on its default path, at once or when the poll budget
allows it (R86). -/
def latencyProbeB (i : Nat) (b : Blk) : Blk :=
  match b.img.targets[i]? with
  | some t =>
    if !((b.lat i).tracked && b.on 1) then b
    else if b.pollMay then
      (b.pollSpent.sendRead t.base 0 0 0 (.probe i)).modLat i fun r => { r with burst := r.burst - 1, ask := false }
    else b.modLat i fun r => { r with ask := true }
  | none => b

/-- Serve the probes that wait for the poll budget, after every read of a queue (R86, R179; log 30). -/
def Blk.serveProbes (b : Blk) : Blk :=
  if b.sched.pollWait.isEmpty then b.lats.foldl (fun b (i, r) => if r.ask then latencyProbeB i b else b) b else b

/-- LATENCY_RECORD_AGING (R181): no sample for 4 × PROBE_US, or, where `long`, for 64 × PROBE_US. -/
def latencyRecordAgingB (i : Nat) (long : Bool) (b : Blk) : Blk :=
  b.modLat i fun r => if r.tracked then { r with stale := true, valid := r.valid && !long } else r

/-- The range is a target of an aligned entry that holds a plan. -/
def Blk.inPlan (b : Blk) (i : Nat) : Bool :=
  b.movers.any fun (_, v) => v.places.any fun (_, x) => (x.exec ++ x.plans).any fun e =>
    match e.plan with | some pl => pl.targets.any fun t => t.range == i | none => false

/-- LATENCY_TRACKING_STOP (R179): no aligned target has used the range for 100 ms. -/
def latencyTrackingStopB (i : Nat) (b : Blk) : Blk :=
  if b.inPlan i then b
  else b.modLat i fun r => { r with tracked := false, valid := false, stale := false, burst := 0, ask := false }

/-! ## The schedule (R184) -/

/-- The planned latency, jitter and quality of a target from the record of its range. -/
def Blk.planTarget (b : Blk) (t : PlanTarget) : PlanTarget :=
  let r := b.lat t.range
  if r.valid then { t with lat := r.est, jit := r.jitter, qual := if r.stale then 1 else 0, noLat := false }
  else { t with lat := 0, jit := 0, qual := 2, noLat := true }

/-- Targets on a port. -/
def onPortCount (ts : List PlanTarget) (p : Nat) : Nat := (ts.filter fun t => t.port == p).length

/-- Put an index into a list ordered by ideal cycle, then by index. -/
def insIdeal (x : Int × Nat) : List (Int × Nat) → List (Int × Nat)
  | [] => [x]
  | y :: t => if x.1 < y.1 ∨ (x.1 = y.1 ∧ x.2 < y.2) then x :: y :: t else y :: insIdeal x t

/-- The launch cycles of one port's targets, in order. -/
def portCycles (half : Nat) : List (Int × Nat) → Int → List (Nat × Nat)
  | [], _ => []
  | (ideal, i) :: t, prev =>
    let c := max (max (ideal - half) (prev + 1)) 0
    (i, c.toNat) :: portCycles half t c

/-- A and the launch cycles of a plan (R184). -/
def Blk.planSchedule (b : Blk) (arrive : Nat) (ts0 : List PlanTarget) : Nat × List PlanTarget :=
  let ts := ts0.map b.planTarget
  let kmax := (List.range 8).foldl (fun m p => max m (onPortCount ts p)) 0
  let h := (kmax - 1) / 2
  let m := ts.foldl (fun m t => if t.noLat then m else max m t.lat) 0
  let steps := (m * b.clock.mclkKHz + 3999999) / 4000000 + h
  let a := if arrive = 0 then (b.qnsOf steps).toNat else arrive
  let ts := ts.map fun t => if a < t.lat then { t with qual := 5 } else t
  let cycles := (List.range 8).flatMap fun p =>
    let order := (ts.zipIdx.filter fun (t, _) => t.port == p).foldl
      (fun l (t, i) => insIdeal (b.cyclesOf ((a : Int) - t.lat), i) l) []
    portCycles ((onPortCount ts p - 1) / 2) order (-1)
  (a, ts.zipIdx.map fun (t, i) => { t with cycle := ((cycles.find? fun c => c.1 == i).map (·.2)).getD 0 })

/-! ## Arming (R183) -/

/-- The status a slot gives a target it holds (R185, R189): that of R309, SLOT_FAULT where R309 would wait. -/
def Blk.heldStatus (b : Blk) (s : Nat) : Nat := (slotStop (b.slot s).state (b.slot s).hold).getD 0x25

/-- A target that is not presented because its slot is not READY (R185). -/
def PlanTarget.heldBy (t : PlanTarget) (status : Nat) : PlanTarget :=
  { t with qual := 0xA, status := status, held := none, done := true }

/-- Build the request of target `i`: a SNAP's takes its tag and reorder tiles, an ASCAT's its data. None where the port
has no tag or tiles free. Its slot is looked at when it is to be presented (R185). -/
def Blk.armTarget (b : Blk) (m : Nat) (q : QRef) (e : Exec) (i ofs : Nat) (t : PlanTarget) : Option (Blk × PlanTarget) :=
  match b.routeOf q t.addr 0 with
    | none => some (b, { t with qual := 9, status := 0x26, done := true })
    | some (p, path, _) =>
      let base : Pkt := { pkt0 with addr := t.addr, len := t.len, dom := (b.queue q).cfg.dom, path := path, svc := .gated,
                                    mover := some m }
      if e.desc.kind = kSnap then
        if !(b.port p).canRead t.addr t.len then none
        else
          let (v, k) := (b.port p).takeTag { base with purpose := .target m e.pos i q }
          some (b.modPort p fun _ => v, { t with port := p, held := some (p, k) })
      else
        let bs := (e.buf.drop ofs).take t.len
        some (b, { t with port := p, held := some (p, { base with
          isWrite := true, data := bs.map (·.1), poison := bs.any (·.2), purpose := .dataTo m e.pos i 0 q }) })

/-- Build every request of a plan, one after the other (R183). -/
def Blk.armTargets (m : Nat) (q : QRef) (e : Exec) :
    List PlanTarget → Nat → Nat → Blk → List PlanTarget → Option (Blk × List PlanTarget)
  | [], _, _, b, acc => some (b, acc)
  | t :: ts, i, ofs, b, acc =>
    match b.armTarget m q e i ofs t with
    | some (b, t') => Blk.armTargets m q e ts (i + 1) (ofs + t.len) b (acc ++ [t'])
    | none => none

/-- The requests and tiles of a plan fit the binding: 64 requests while an armed aligned entry is held, 512 reorder tiles
(R116, R183). -/
def Binding.planRoom (x : Binding) (ts : List PlanTarget) : Bool :=
  decide (x.readCount + ts.length ≤ 64) && decide (x.readTiles + (ts.foldl (fun n t => n + tilesOf t.addr t.len) 0) ≤ 512)

/-- The entry in execution whose plan is loaded and not armed yet. -/
def Binding.toArm (x : Binding) : Option Exec :=
  x.exec.find? fun e => e.aligned && !e.dead && !e.fenceWait && !e.launched && e.bad.isNone
    && decide (e.stage = .waiting) && (match e.plan with | some pl => !pl.targets.isEmpty | none => false)

/-- The port of a target at the time of planning. -/
def Blk.retarget (b : Blk) (t : PlanTarget) : PlanTarget :=
  match b.rangeOf t.addr with
  | some (_, r) => { t with port := b.egress r }
  | none => t

/-- Arm the plan of an entry in execution; it launches at once after OPEN, or late under RUN_LATE (R172, R183). -/
def Blk.armPlan (b : Blk) (m k : Nat) (q : QRef) (e : Exec) : Blk :=
  match b.binding m k, e.plan, e.win with
  | some x, some pl, some w =>
    let late := !e.notices.isEmpty
    let near := match b.cyclesToOpen w with | some n => decide (n ≤ 160) | none => false
    let open_ := near && b.puOpen w.unit && !atOrPast (b.pu w.unit).ph w.closeAt && b.overlapOk q e.pos w
    let (a, ts) := b.planSchedule pl.arrive (pl.targets.map b.retarget)
    if !(late || open_) || (e.desc.kind == kSnap && !x.planRoom ts) then b
    else match Blk.armTargets m q e ts 0 0 b [] with
      | none => b
      | some (b, ts) =>
        let n := b.sched.armSeq
        let b := b.modSched fun s => { s with armSeq := n + 1 }
        let b := b.modExec m k e.pos fun e => { e with
          stage := .armed, plan := some { pl with targets := ts, align := a, armed := true, armSeq := n } }
        let past := decide (atOrPast (b.pu w.unit).ph w.openAt)
        if late then b.launch m k q e
        else if past then
          (b.jmissed q w.unit).launch m k q e
        else b
  | _, _, _ => b

/-! ## Quality, and the end of a group (R186-R190) -/

/-- Change target `i` of the plan of an entry. -/
def Blk.modTarget (b : Blk) (m k pos i : Nat) (f : PlanTarget → PlanTarget) : Blk :=
  b.modExec m k pos fun e => { e with plan := e.plan.map fun pl =>
    { pl with targets := pl.targets.zipIdx.map fun (t, j) => if j = i then f t else t } }

/-- LAUNCH of a target: its presentation relative to the sample instant, qns (Table 8-5). -/
def Blk.launchOf (b : Blk) (pl : Plan) (c : Nat) : Int := b.qnsOf c - pl.align

/-- ERROR of a presented target (Table 8-5). -/
def Blk.errorOf (b : Blk) (pl : Plan) (t : PlanTarget) : Int :=
  if t.noLat then 0 else match t.launched with | some c => b.launchOf pl c + t.lat | none => 0

/-- |ERROR| + J of a target. -/
def Blk.spreadOf (b : Blk) (pl : Plan) (t : PlanTarget) : Nat := (b.errorOf pl t).natAbs + t.jit

/-- The quality code of a target (Table 8-6): the highest of the causes that apply (R188). -/
def Blk.qualOf (b : Blk) (pl : Plan) (limit : Nat) (t : PlanTarget) : Nat :=
  let outside := decide (limit ≠ 0) && !t.noLat && t.launched.isSome && decide (limit < b.spreadOf pl t)
  if outside then max 4 t.qual else t.qual

/-- What the targets of a plan came to: qualities, QUALMASK, the three counts and SPREAD (R187-R189). -/
structure Tally where
  quals : List Nat
  mask : Nat
  good : Nat
  degraded : Nat
  missing : Nat
  spread : Nat
  deriving DecidableEq, Repr

/-- The tally of a plan. A POISONED target has arrived, so it counts for SPREAD (DEDUCED: assumption log 12). -/
def Blk.tally (b : Blk) (e : Exec) (pl : Plan) : Tally :=
  let limit := leAt e.desc.raw 0x2A 2
  let qs := pl.targets.map (b.qualOf pl limit)
  let mask := qs.zipIdx.foldl (fun n (q, i) => if q = 0 then n else n + 2 ^ i) 0
  let qualify := (pl.targets.zip qs).filter fun (t, q) => !t.noLat && (decide (q < 8) || q == 0xB)
  let spread := if qualify.isEmpty then 0xFFFFFFFF else qualify.foldl (fun n (t, _) => max n (b.spreadOf pl t)) 0
  ⟨qs, mask, (qs.filter (· == 0)).length, (qs.filter fun q => 0 < q && q < 8).length, (qs.filter fun q => 8 ≤ q).length,
   spread⟩

/-- A number of `n` bytes in two's complement. -/
def intBytes (n : Nat) (x : Int) : List Byte := leBytes n (x % (2 ^ (8 * n) : Nat)).toNat

/-- The entry of target `t` in the record (Table 8-5). The LAUNCH of a target that was never presented is a free value
(assumption log 6). -/
def Blk.recordEntry (b : Blk) (pl : Plan) (t : PlanTarget) (qual dofs : Nat) : List Byte × Blk :=
  let (launch, b) := match t.launched with
    | some c => (b.launchOf pl c, b)
    | none => let (n, b) := b.fresh; (((Config.freeNat n % 2 ^ 32 : Nat) : Int), b)
  let ret : Int := match t.returned with
    | some c => if 8 ≤ qual ∧ qual ≠ 0xB then 0x7FFFFFFF else b.qnsOf c - pl.align
    | none => 0x7FFFFFFF
  let err : Int := if t.noLat then 0 else launch + t.lat
  (intBytes 4 launch ++ intBytes 4 ret ++ intBytes 2 err ++ leBytes 1 qual ++ leBytes 1 (t.len - 1) ++ leBytes 4 dofs, b)

/-- The data of target `t` in the record, padded: as received; zero on a timeout (R186). What the record holds for a
target missing for another reason is a free value (assumption log 6). -/
def Blk.recordData (b : Blk) (t : PlanTarget) (qual : Nat) : List (Byte × Bool) × Blk :=
  let pad := List.replicate (padded t.len - t.len) ((0 : Byte), false)
  if qual = 8 then (List.replicate t.len (0, false) ++ pad, b)
  else if qual = 9 ∨ qual = 0xA then
    ((List.range t.len).map (fun i => (Config.freeByte (b.freeNo + i), false)) ++ pad, { b with freeNo := b.freeNo + t.len })
  else (((List.range t.len).map fun i => (gotByte t.got i).getD (0, false)) ++ pad, b)

/-- The SNAP record (R187, Tables 8-4 and 8-5) with its poison. SEQ counts from 0 (DEDUCED: assumption log 12). -/
def Blk.snapRecord (b : Blk) (q : QRef) (e : Exec) (pl : Plan) : List (Byte × Bool) × Blk :=
  let t := b.tally e pl
  let n := pl.targets.length
  let sample := (4 * pl.releaseFt + pl.align) % 2 ^ 64
  let openW := (e.win.map (·.openAt.word)).getD 0
  let head := leBytes 2 e.desc.cookie ++ leBytes 1 n ++ leBytes 1 (if t.good = n then 0 else 0x42)
    ++ leBytes 4 (b.queue q).run.snapSeq ++ leBytes 8 sample ++ leBytes 4 t.spread ++ leBytes 4 pl.align
    ++ leBytes 8 openW ++ leBytes 8 t.mask ++ leBytes 1 t.good ++ leBytes 1 t.degraded ++ leBytes 1 t.missing ++ leBytes 21 0
  let (entries, _, b) := (pl.targets.zip t.quals).foldl
    (fun (acc : List Byte × Nat × Blk) (x, ql) =>
      let (bs, b) := acc.2.2.recordEntry pl x ql acc.2.1
      (acc.1 ++ bs, acc.2.1 + padded x.len, b)) (([] : List Byte), recordHead n, b)
  let (data, b) := (pl.targets.zip t.quals).foldl
    (fun (acc : List (Byte × Bool) × Blk) (x, ql) =>
      let (bs, b) := acc.2.recordData x ql
      (acc.1 ++ bs, b)) (([] : List (Byte × Bool)), b)
  let gap := leBytes (recordHead n - 64 - 16 * n) 0
  ((head ++ entries ++ gap).map (fun x => (x, false)) ++ data, b)

/-- Write the record as one destination run, cut under R119 (R187). -/
def Blk.putRun (b : Blk) (m k pos : Nat) (q : QRef) (base : Nat) : Nat → Nat → List (Byte × Bool) → Blk
  | 0, _, _ => b
  | fuel + 1, o, bs =>
    if bs.isEmpty then b
    else match (b.binding m k).bind fun x => x.exec.find? fun e => e.pos = pos with
      | some e =>
        let n := max 1 (b.cutLen (base + o) bs.length b.img.ident.mps)
        Blk.putRun (b.putWrite m k q e 0 (base + o) o (bs.take n)) m k pos q base fuel (o + n) (bs.drop n)
      | none => b

/-- The INFO of ALIGN_DEGRADED (Table 12-5). -/
def Tally.info (t : Tally) : List Byte :=
  infoOf [(0, 4, t.good + 256 * t.degraded + 65536 * t.missing), (4, 8, t.mask), (12, 4, t.spread)]

/-- The status with which a group stops its queue: the first REQUIRED target that is missing or poisoned, or under
POISON_STOP the first poisoned one (R186, R189). -/
def groupStatus (stop : Bool) (ts : List (PlanTarget × Nat)) : Option (PlanTarget × Nat) :=
  ts.find? fun (t, ql) => (t.required && decide (8 ≤ ql)) || (stop && ql == 0xB)

/-- INFO of the record of a queue that a target stopped (Table 13-2). -/
def Blk.targetInfo (b : Blk) (t : PlanTarget) : List Byte :=
  if t.status = 0x31 then infoOf [(0, 1, t.port), (4, 4, 0)]
  else if t.status = 0x23 ∨ t.status = 0x25 then
    match b.rangeOf t.addr with | some (_, r) => b.slotInfo r.slot 0 0 | none => infoOf []
  else if t.status = 0x30 then infoOf [(0, 4, 1 + 256 * t.port)]
  else infoOf [(0, 4, t.port), (4, 8, t.addr), (12, 2, t.len)]

/-- Bytes of a plan's SNAP record (R187). -/
def Plan.recordSize (pl : Plan) : Nat := recordHead pl.targets.length + pl.targets.foldl (fun n t => n + padded t.len) 0

/-- The pairs of the requests that write `n` bytes from `base` as one destination run. -/
def Blk.runPairs (b : Blk) (q : QRef) (ask base : Nat) : Nat → Nat → Nat → List (Nat × Nat)
  | 0, _, _ => []
  | fuel + 1, o, n =>
    if n ≤ o then []
    else
      let l := max 1 (b.cutLen (base + o) (n - o) b.img.ident.mps)
      let rest := Blk.runPairs b q ask base fuel (o + l) n
      match b.routeOf q (base + o) ask with
      | some (p, path, _) => (p, path) :: rest
      | none => rest

/-- The record of a SNAP may be written: the entry in front has presented its writes (R142), DST's slot is READY (R309), and
PAIRS has room (R147). -/
def Blk.recordRoom (b : Blk) (m k : Nat) (q : QRef) (e : Exec) (pl : Plan) : Bool × Blk :=
  if b.writesAhead m k e.pos then (false, b)
  else match b.slotVerdict e.desc.dst with
    | some v => (false, (b.slotAct m k e.pos v).pump m k)
    | none => b.pairRoom m k q (b.runPairs q e.desc.path e.desc.dst 600 0 pl.recordSize)

/-- A released group whose targets are all complete, missing or held ends: a SNAP writes its record once it may, and the notice
or the stop of R189 is noted. -/
def Blk.alignedEnd (b : Blk) (m k : Nat) (q : QRef) (e : Exec) (pl : Plan) : Blk :=
  if !(pl.targets.all (·.done)) || pl.release.isNone || e.dead || decide (e.stage ≠ .running) then b
  else
    let (go, b) := if e.desc.kind = kSnap then b.recordRoom m k q e pl else (true, b)
    if !go then b else
    let t := b.tally e pl
    let stop := (b.queue q).cfg.poisonStop
    let bad := groupStatus stop (pl.targets.zip t.quals)
    let n := noticeReport 0x42 0 e.pos e.desc.cookie e.srcCov e.dstOfs t.info
    let b := if e.desc.kind = kSnap then
        let (bs, b) := b.snapRecord q e pl
        let b := b.putRun m k e.pos q e.desc.dst 600 0 bs
        (b.modExec m k e.pos fun e => { e with resultDone := true, dstPres := bs.length, record := bs }).modRun q fun r =>
          { r with snapSeq := incr 32 r.snapSeq }
      else b.modExec m k e.pos fun e => { e with dstPres := e.desc.len }
    let b := b.modExec m k e.pos fun e => { e with
      stage := .done
      notices := if t.good = pl.targets.length then e.notices else e.notices ++ [n]
      bad := bad.map fun (t, _) => (t.status, b.targetInfo t) }
    b.pump m k

/-- The group of a binding ends if it can. -/
def Blk.alignedCheck (b : Blk) (m k : Nat) : Blk :=
  match b.binding m k with
  | some x =>
    if x.shadow then b
    else match x.exec.find? fun e => e.aligned && e.launched && !e.dead with
    | some e => match e.plan with
      | some pl => b.alignedEnd m k x.q e pl
      | none => b
    | none => b
  | none => b

/-- One MCLK cycle of the groups that wait to end: for the writes of an entry in front, for a slot, for PAIRS. -/
def Blk.alignedCycle (b : Blk) : Blk :=
  b.movers.foldl (fun b (m, v) => v.places.foldl (fun b (k, x) =>
    if x.exec.any (fun e => e.aligned && e.launched) then b.alignedCheck m k else b) b) b

/-! ## Arming and launching (R183, R185) -/

/-- PLAN_ARM (R183): the plan of the entry in execution, or of the aligned entry at the head of the local buffer. -/
def planArmB (m k : Nat) (b : Blk) : Blk :=
  match b.binding m k with
  | none => b
  | some x =>
    if x.shadow then b
    else match x.toArm with
    | some e => (b.armPlan m k x.q e).alignedCheck m k
    | none =>
      match b.windowHead m k with
      | some (l, w, q) =>
        let near := match b.cyclesToOpen w with | some n => decide (n ≤ 160) | none => false
        let loaded := x.plans.any fun p => p.pos == l.pos && p.bad.isNone && decide (p.stage = .waiting)
        if !loaded || !near || !b.puOpen w.unit || atOrPast (b.pu w.unit).ph w.closeAt || !b.overlapOk q l.pos w then b
        else
          let b := b.startEntry m k l true
          match (b.binding m k).bind Binding.toArm with
          | some e => (b.armPlan m k q e).alignedCheck m k
          | none => b.pump m k
      | none => b

/-- WINDOW_OPEN with what follows when no target of a released group can be presented (R185). -/
def windowOpenRow (m k : Nat) (b : Blk) : Blk := (windowOpenB m k b).alignedCheck m k

/-- Release cycle plus launch cycle of the targets that wait to be presented on port `p`, with their plan's order. -/
def Blk.planDue (b : Blk) (p : Nat) : List (Nat × Nat) :=
  b.movers.flatMap fun (_, v) => v.places.flatMap fun (_, x) => (if x.shadow then [] else x.exec).flatMap fun e =>
    match e.plan with
    | some pl => match pl.release with
      | some c => (pl.targets.filter fun t => !t.done && t.launched.isNone && (t.held.map (·.1)) == some p).map fun t =>
          (pl.armSeq, c + t.cycle)
      | none => []
    | none => []

/-- ALIGNED_TARGET_LAUNCH (R185, R190): target `i` of a released plan is presented in its cycle, or later when an earlier
plan's request, a packet in progress, credits or a token keep it back, or a write the writes of the entry in front (R142) or a
full PAIRS (R147). -/
def alignedTargetLaunchB (m k i : Nat) (b : Blk) : Blk :=
  match b.binding m k with
  | none => b
  | some x =>
    match (if x.shadow then none else x.exec.find? fun e => e.aligned && e.launched && !e.dead) with
    | none => b
    | some e =>
      let strong := match (b.queue x.q).acting with | some s => decide (3 < s.mode.strength) | none => false
      match e.plan.bind fun pl => pl.release.bind fun c => (pl.targets[i]?).bind fun t => t.held.map fun h => (pl, c, t, h) with
      | some (pl, c, t, p, pk) =>
        let now := b.clock.cycle
        let earlier := (b.planDue p).any fun (s, d) => decide (s < pl.armSeq) && decide (d ≤ now)
        if t.done || t.launched.isSome || strong || decide (now < c + t.cycle) then b
        else match b.slotVerdict t.addr with
          | some (s, _) =>
            let b := if pk.isWrite then b else b.modPort p fun v => v.freeTagAt pk.tag false
            (b.modTarget m k e.pos i fun t => t.heldBy (b.heldStatus s)).alignedCheck m k
          | none =>
            let (go, b) := if !pk.isWrite then (true, b)
              else if b.writesAhead m k e.pos then (false, b) else b.pairRoom m k x.q [(p, pk.path)]
            if earlier || !go || decide ((b.port p).beats ≠ 0) || !(b.port p).grantable pk then b
            else
              let slip := decide (c + t.cycle < now)
              let b := b.modTarget m k e.pos i fun t => { t with
                launched := some (now - c), held := none, qual := if slip then max 3 t.qual else t.qual, done := pk.isWrite }
              let b := if pk.isWrite then
                  let pr : Pair := ⟨p, pk.path, pk.addr + pk.len - 1, b.pairNeeds x.q e.desc p pk.path⟩
                  let b := (b.modExec m k e.pos fun e =>
                    { e with wr := e.wr ++ [(i, 0, pk.len)], pairs := addPair e.pairs pr, ports := Nat.lor e.ports (2 ^ p) }).countTiles x.q 0
                      (tilesOf pk.addr pk.len)
                  if pk.poison && !e.poisoned then
                    (b.modExec m k e.pos fun e => { e with poisoned := true }).modRun x.q fun r =>
                      { r with poisonCount := incr 16 r.poisonCount }
                  else b
                else b
              (b.present p pk).alignedCheck m k
      | none => b

/-! ## Returns and timeouts (R186) -/

/-- A tag is abandoned: it stays out of use (R130). -/
def TagRec.abandon (r : TagRec) : TagRec := { r.freed with withheld := true }

/-- A SNAP target's read ends. -/
def Blk.targetEnd (b : Blk) (pos i : Nat) (q : QRef) (r : ReadResult) (t : TagRec) (status : Nat) : Blk :=
  match b.boundAt q with
  | some (m', k) =>
    match (b.binding m' k).bind fun x => x.exec.find? fun e => e.pos = pos && e.aligned && !e.dead with
    | some e =>
      let c := (e.plan.bind (·.release)).getD b.clock.cycle
      let rel := b.clock.cycle - c
      let put := fun (bs : List Byte) (p : Bool) => bs.zipIdx.map fun (x, j) => (j, x, p)
      let upd := fun (t : PlanTarget) => match r with
        | .data bs => { t with done := true, returned := some rel, got := put bs false }
        | .poison bs => { t with done := true, returned := some rel, got := put bs true, qual := 0xB, status := 0x31 }
        | .error => { t with done := true, qual := 9, status := status }
        | .timeout => { t with done := true, qual := 8, status := 0x20 }
      let b := b.modTarget m' k pos i upd
      let poison := match r with | .poison _ => true | _ => false
      let b := if poison && !e.poisoned then
          (b.modExec m' k pos fun e => { e with poisoned := true }).modRun q fun r => { r with poisonCount := incr 16 r.poisonCount }
        else b
      -- the last byte has arrived, poisoned or not (R180)
      let clean := match r with | .data _ | .poison _ => true | _ => false
      let range := ((e.plan.bind fun pl => pl.targets[i]?).map (·.range)).getD 1024
      let b := if clean && bit (b.reg 0x15000) 20 && decide (range < 1024) then
          b.latSample range (b.clock.cycle - t.since - ((t.len + 63) / 64 - 1))
        else b
      b.alignedCheck m' k
    | none => b
  | none => b

/-- A read for a target of the SNAP at `pos` of queue `q`. -/
def Purpose.isTarget (p : Purpose) (q : QRef) (pos : Nat) : Bool :=
  match p with
  | .target _ pos' _ q' => q' == q && pos' == pos
  | _ => false

/-- The tags of that SNAP's reads are abandoned. -/
def Port.abandonTargets (v : Port) (q : QRef) (pos : Nat) : Port :=
  { v with tags := tabMap {} (fun _ (r : TagRec) => if r.inUse && r.purpose.isTarget q pos then r.abandon else r) v.tags }

/-- The targets of a plan that are not complete time out (R186). -/
def Plan.timedOut (pl : Plan) : Plan :=
  { pl with targets := pl.targets.map fun t => if t.done then t else { t with done := true, qual := 8, status := 0x20, held := none } }

/-- SNAP_TARGET_TIMEOUT (R186): every incomplete read of a released SNAP is abandoned. -/
def snapTargetTimeoutB (m k : Nat) (b : Blk) : Blk :=
  match b.binding m k with
  | none => b
  | some x =>
    match (if x.shadow then none
           else x.exec.find? fun e => e.desc.kind == kSnap && e.launched && !e.dead && decide (e.stage = .running)) with
    | none => b
    | some e =>
      let b := (e.plan.map (·.targets)).getD [] |>.foldl (fun b t => match t.held with
        | some (p, pk) => b.modPort p fun v => v.freeTagAt pk.tag false
        | none => b) b
      let b := { b with ports := tabMap {} (fun _ v => v.abandonTargets x.q e.pos) b.ports }
      let b := b.modExec m k e.pos fun e => { e with plan := e.plan.map Plan.timedOut }
      b.alignedCheck m k

/-! ## Aging of BACKGROUND (R194) -/

/-- A packet of class BACKGROUND that carries data of the queue. -/
def Pkt.ages (k : Pkt) (q : QRef) : Bool :=
  k.svc == .background && (match k.purpose with
    | .data _ _ _ q' | .dataTo _ _ _ _ q' | .check _ _ q' => q' == q
    | _ => false)

/-- MCLK cycles in 10 µs at the measured frequency. -/
def Blk.tenUs (b : Blk) : Nat := (if b.clock.mclkKHz = 0 then 1000000 else b.clock.mclkKHz) / 100

/-- Such packets that have waited at a port since cycle `t` or longer are served as STANDARD. -/
def Port.aged (v : Port) (q : QRef) (t : Nat) : Port :=
  { v with wait := v.wait.map fun k => if k.ages q && decide (k.since ≤ t) then { k with svc := .standard } else k }

/-- BACKGROUND_AGING: what has not been served for 10 µs, the binding and each packet at a port by its own count, is served once
as STANDARD. -/
def backgroundAgingB (q : QRef) (b : Blk) : Blk :=
  if b.svcOf q ≠ .background || decide (b.clock.cycle < b.tenUs) then b
  else
    let t := b.clock.cycle - b.tenUs
    let b := { b with ports := tabMap {} (fun _ v => v.aged q t) b.ports }
    match (b.boundAt q).bind fun (m, k) => b.binding m k with
    | some x => if x.served ≤ t then b.modSched fun s => { s with aged := addOnce q s.aged } else b
    | none => b

end Sys2Proof.Machine
end

