-- ==== Sys2Proof/Machine/Events.lean ====
section
/-! DEFINITION. Messages and their moderation (R276-R281), the vector page (R274, R275), returns of event records (R270),
and the wired interrupt lines (R265, R106). -/

namespace Sys2Proof.Machine
open Sys2Proof

/-- MODERATION_TIMEOUT (R277): MOD_TIME µs after the timer started; not while the queue's unit ticks in phase mode. -/
def moderationTimeoutB (q : QRef) (b : Blk) : Blk :=
  let x := b.queue q
  let timed := x.cfg.modMode == 1 || (x.cfg.modMode == 2 && !(b.pu x.cfg.modPu).ticks)
  if b.exists? q && x.mod.timer && timed && decide (x.cfg.modTime ≠ 0) then b.queueMsg q none else b

/-- The microsecond after a message ends (R278): one more message if there were further causes. -/
def Blk.coalesceEnd (b : Blk) (c : Coalesce) : Blk :=
  if c.more then
    let b := b.modSched fun s => { s with coalesce := s.coalesce.map fun y =>
      if y.v = c.v ∧ y.dom = c.dom then { y with more := false, after := none } else y }
    let b := if c.dom ≠ 256 && b.asleep c.dom then b.raiseAt 48 c.dom else b
    b.due c.v c.dom c.after
  else b.modSched fun s => { s with coalesce := s.coalesce.filter fun y => y.v != c.v || y.dom != c.dom }

/-- MESSAGE_COALESCE_END (R278). -/
def messageCoalesceEndB (v : Nat) (b : Blk) : Blk :=
  (b.sched.coalesce.filter (·.v == v)).foldl (fun b c => b.coalesceEnd c) b

/-- Present the held message of a queue whose domain wakes (R280). -/
def Blk.releaseHeld (b : Blk) (q : QRef) : Blk :=
  let x := b.queue q
  if x.mod.held then
    let b := b.modQueue q fun x => { x with mod := { x.mod with held := false, count := 0, timer := false } }
    b.due x.cfg.vec x.cfg.dom x.mod.last
  else b

/-- A write of DOM_SLEEPj (R280): one message for each held queue of a domain that wakes. -/
def Blk.sleepWrite (b : Blk) (j w : Nat) : Blk :=
  let old := b.reg (0xB020 + 4 * j)
  let b := b.setReg (0xB020 + 4 * j) w
  let woken := (List.range 32).filter fun k => bit old k && !(bit w k)
  b.allQueues.foldl (fun b q =>
    if woken.any fun k => (b.queue q).cfg.dom == 32 * j + k then b.releaseHeld q else b) b

/-- VEC_CMD LOAD (R274). -/
def Blk.vecLoadOp (b : Blk) : Blk :=
  let e := b.vector (b.regF 0xB000 11 0)
  let b := ((b.setReg 0xB004 (e.addr % 2 ^ 32)).setReg 0xB008 (e.addr / 2 ^ 32)).setReg 0xB00C e.data
  let b := b.setReg 0xB010 (fld e.dom 0 8 + fld (b1 e.mask) 14 1 + fld (b1 e.valid) 15 1)
  { b with vec := { b.vec with stagedPend := e.pend } }

/-- VEC_CMD STORE (R274, R275). -/
def Blk.vecStoreOp (b : Blk) : Blk :=
  let v := b.regF 0xB000 11 0
  let a := b.reg 0xB004 + 2 ^ 32 * b.reg 0xB008
  let c := b.reg 0xB010
  let fits := match b.rangeOf a with | some (_, t) => decide (a + 4 ≤ t.base + t.pages * 4096) | none => false
  if bit c 15 && !fits then { b with vec := { b.vec with refused := true } }
  else
    let pend := (b.vector v).pend
    let send := pend && !(bit c 14)
    let b := { b with vec := { b.vec with refused := false } }
    let b := b.modVector v fun _ =>
      { addr := a, data := b.reg 0xB00C, dom := bits c 7 0, valid := bit c 15, mask := bit c 14, pend := pend && bit c 14 }
    if send then b.due v (bits c 7 0) none else b

/-- EVENT_RING_RETURN (R270): the write is checked as R103 checks a return. -/
def eventRingReturnB (d hdrDom size value : Nat) (b : Blk) : Blk :=
  if !(b.on 1 && b.on 2) then b
  else if !(size = 4 ∨ size = 8) || (b.domEntry d).isNone || hdrDom ≠ d then b.nudgeDrop
  else match (b.domain d).ring with
    | none => b.nudgeDrop
    | some r =>
      let n := 2 ^ r.exp
      let p := posOf value n
      if n ≤ bits value 15 0 || (r.wpos + 2 * n - r.rpos) % (2 * n) < (p + 2 * n - r.rpos) % (2 * n) then b.nudgeDrop
      else b.modDomain d fun x => { x with ring := some { r with rpos := p } }

/-- Completions waiting of a management ring. -/
def MgRing.waiting (r : MgRing) : Nat := r.cpls.length

end Sys2Proof.Machine
end

