-- ==== Sys2Proof/Machine/Admin.lean ====
section
/-! DEFINITION. Lovage: admin rings (R99-R106), the admin commands and their checks (R101, R107-R113, R374, R375), their
completions (R104). -/

namespace Sys2Proof.Machine
open Sys2Proof

/-! ## Rings -/

/-- Commands of a domain's admin ring. -/
def DomEntry.adminLen (e : DomEntry) : Nat := 2 ^ e.adminExp

/-- Address of the completion ring of a domain. -/
def DomEntry.cplBase (e : DomEntry) : Nat := e.adminBase + 64 * e.adminLen

/-- The domain a ring acts for; none for a management ring. -/
def ringDom : AdminRing → Option Nat
  | .dom d => some d
  | .mga | .mgb => none

/-- A management ring. -/
def Blk.mgRing (b : Blk) : AdminRing → MgRing
  | .mgb => b.mgb
  | _ => b.mga

/-- Change a management ring. -/
def Blk.modMg (b : Blk) (r : AdminRing) (f : MgRing → MgRing) : Blk :=
  match r with
  | .mga => { b with mga := f b.mga }
  | .mgb => { b with mgb := f b.mgb }
  | .dom _ => b

/-- A command of the ring is in progress (R99). -/
def Blk.ringBusy (b : Blk) (r : AdminRing) : Bool := b.sched.jobs.any fun j => j.ring == r

/-- A domain's ring is being reset (R108). -/
def Blk.resetting (b : Blk) (d : Nat) : Bool :=
  b.sched.jobs.any fun j => leAt j.cmd 0 1 == 0x29 && j.dom == d

/-- Lovage may start a command of the domain's ring: its completion entry has a place (R104). -/
def Blk.cplRoom (b : Blk) (d : Nat) : Bool :=
  match b.domEntry d with
  | some e =>
    let x := b.domain d
    let n := 2 * e.adminLen
    decide ((x.cmdPos + n - x.retPos) % n < e.adminLen)
  | none => false

/-- The next command of a ring that may start (R99, R104, R106). -/
def Blk.readyCmd (b : Blk) (r : AdminRing) : Option (List Byte) :=
  if b.ringBusy r || !(b.on 1) || decide (b.ldr.state = .warmrst) || decide (b.ldr.state = .reload) then none
  else match r with
    | .dom d =>
      let x := b.domain d
      if x.served && !x.lostCpl && x.cplPkt.isNone && b.cplRoom d && !b.resetting d then x.fetched else none
    | .mga | .mgb => if (b.mgRing r).waiting < 16 then (b.mgRing r).slots.head? else none

/-- The windows and ranges of a domain's admin ring are good (R105). -/
def Blk.adminRingOk (b : Blk) (d : Nat) (e : DomEntry) : Bool :=
  let n := e.adminLen
  b.winOk d e.adminBase (64 * n) true false && b.winOk d e.cplBase (16 * n) false true
    && b.winOk d e.adminCpl 8 false true
    && b.rangesCover e.adminBase (64 * n) && b.rangesCover e.cplBase (16 * n) && b.rangesCover e.adminCpl 8

/-- Read the next command of a domain's ring (R102): at once, or when the poll budget allows it (R86). -/
def Blk.adminRead (b : Blk) (d : Nat) : Blk :=
  match b.domEntry d with
  | some e =>
    let x := b.domain d
    if x.started && x.served && !x.reading && x.fetched.isNone && !x.lostCpl && b.on 1 && !b.resetting d
        && decide (b.ldr.state ≠ .warmrst) then
      if b.pollMay then
        (b.pollSpent.modDomain d fun x => { x with reading := true, ask := false }).sendRead
          (e.adminBase + 64 * (x.cmdPos % e.adminLen)) 64 d 0 (.admin d)
      else b.modDomain d fun x => { x with ask := true }
    else b
  | none => b

/-- A nudge reads the ring at once, or after the read outstanding (R102). -/
def Blk.adminAsk (b : Blk) (d : Nat) : Blk :=
  if (b.domain d).reading then b.modDomain d fun x => { x with ask := true } else b.adminRead d

/-- Serve the admin rings whose reads wait for the poll budget, after every read of a queue (R86, R102). -/
def Blk.serveAdmin (b : Blk) : Blk :=
  if b.sched.pollWait.isEmpty then
    b.domains.foldl (fun b (d, x) => if x.ask && !x.reading then b.adminRead d else b) b
  else b

/-! ## Completions (R104, R106) -/

/-- A completion entry (Table 5-2). -/
def cplEntry (c : List Byte) (lap status detail qstate : Nat) (deferred : Bool) (r0 r1 : Nat) : List Byte :=
  leBytes 2 (leAt c 2 2) ++ leBytes 1 (leAt c 0 1) ++ leBytes 1 lap ++ leBytes 1 status ++ leBytes 1 detail
    ++ leBytes 2 (qstate + 16 * b1 deferred) ++ leBytes 4 r0 ++ leBytes 4 r1

/-- Pair of a domain's admin completion word. -/
def Blk.adminPair (b : Blk) (e : DomEntry) : Nat × Nat :=
  match b.route e.adminCpl 0 with
  | some (p, path, _) => (p, path)
  | none => (0, 0)

/-- Present a completion entry of a domain's ring; it is kept until it has settled (R104). -/
def Blk.putCpl (b : Blk) (d : Nat) (bytes : List Byte) : Blk :=
  match b.domEntry d with
  | some e =>
    let x := b.domain d
    let a := e.cplBase + 16 * (x.cplPos % e.adminLen)
    let k : Pkt := { pkt0 with isWrite := true, addr := a, len := 16, data := bytes, dom := d, purpose := .adminCpl d }
    let b := b.modDomain d fun x => { x with cplPos := (x.cplPos + 1) % (2 * e.adminLen), cplPkt := some k }
    b.sendWrite a bytes d 0 (.adminCpl d) false
  | none => b

/-- Publish the command head in the admin completion word (R104). -/
def Blk.putAdminWord (b : Blk) (d : Nat) : Blk :=
  match b.domEntry d with
  | some e =>
    let x := b.domain d
    let c := incr 32 x.pubcount
    let b := b.modDomain d fun x => { x with headPos := x.cplPos, pubcount := c, cplPkt := none }
    (b.sendWrite e.adminCpl (cplWordBytes e.adminLen x.cplPos c) d 0 (.adminWord d) false)
  | none => b

/-- After a completion: Lovage reads on while the known tail lies ahead (R102). -/
def Blk.adminNext (b : Blk) (d : Nat) : Blk :=
  let x := b.domain d
  if x.cmdPos ≠ x.tailPos then b.adminRead d else b

/-- A command completes: its entry is written, or put into the ring's completion side. -/
def Blk.complete (b : Blk) (r : AdminRing) (c : List Byte) (status detail qstate : Nat) (deferred : Bool) (r0 r1 : Nat) : Blk :=
  let b := b.modSched fun s => { s with jobs := s.jobs.filter fun j => j.ring != r }
  match r with
  | .dom d =>
    match b.domEntry d with
    | some e => b.putCpl d (cplEntry c (lapOf (b.domain d).cplPos e.adminLen) status detail qstate deferred r0 r1)
    | none => b
  | .mga | .mgb =>
    b.modMg r fun v => { v with cpls := v.cpls ++ [cplEntry c 1 status detail qstate deferred r0 r1] }

/-! ## The form of a command (R101, Table 5-4, R374) -/

/-- Opcodes of Table 5-4. -/
def opcodeKnown (op : Nat) : Bool := (1 ≤ op && op ≤ 0x0B) || (0x20 ≤ op && op ≤ 0x29)

/-- Opcodes only a management ring accepts. -/
def opcodeMgmt (op : Nat) : Bool := decide (0x20 ≤ op)

/-- Opcodes that name a queue. -/
def opcodeQueue (op : Nat) : Bool := 2 ≤ op && op ≤ 8

/-- Opcodes that stop something. -/
def opcodeStop (op : Nat) : Bool := [0x04, 0x20, 0x22, 0x24, 0x26].contains op

/-- Opcodes that name a domain. -/
def opcodeDomain (op : Nat) : Bool := [0x01, 0x09, 0x0A, 0x20, 0x21, 0x28, 0x29].contains op

/-- FLAGS of a command. -/
def flagsOf (c : List Byte) : Nat := leAt c 0x0C 4

/-- OBJ bits a command may use (Table 5-1). -/
def objMask (op obj : Nat) : Nat :=
  if opcodeQueue op then (if bit obj 30 then 0x4000003F else 0x4003FFFF)
  else if opcodeDomain op then 0xFF
  else if op = 0x22 ∨ op = 0x23 then 0x1F
  else if op = 0x24 ∨ op = 0x25 then 7
  else 0

/-- FLAGS bits a command may use (Table 5-4). -/
def flagsMask (op : Nat) : Nat := if op = 2 then 1 else if op = 3 then 0x7F else if opcodeStop op then 7 else 0

/-- A used field of PARAM: its mask at a byte offset from the command's start. -/
def used (off mask : Nat) : Nat := mask * 2 ^ (8 * (off - 0x10))

/-- PARAM bits a command may use (Table 5-4, Table 5-6, R374). -/
def paramMask (op flags : Nat) : Nat :=
  if op = 1 then
    used 0x10 (2 ^ 64 - 1) + used 0x18 (2 ^ 64 - 1) + used 0x20 (2 ^ 32 - 1) + used 0x24 0xFFF + used 0x26 0xFFFF
      + used 0x28 0x3FFFF + used 0x2C 0xFF + used 0x2D 3 + used 0x30 0xFF + used 0x31 0x7F + used 0x32 0xFFFF
  else if op = 3 then
    used 0x21 0xFF + used 0x22 0xFFFF + used 0x24 0xFFF + used 0x26 0xFFFF + used 0x28 0x24000 + used 0x2C 0xFF
      + used 0x30 0xFF + used 0x31 0x7F + used 0x32 0xFFFF
  else if opcodeStop op then
    (if flags % 8 = 2 then used 0x10 0xF + used 0x14 0xFFFFFF + used 0x18 0xFFFFFF else 0)
  else if op = 9 then used 0x10 (2 ^ 64 - 1) + used 0x18 0xFF + used 0x1A 0xFFF
  else if op = 0x28 then used 0x10 (2 ^ 32 - 1)
  else 0

/-- A number has a bit set outside a mask of `w` bits. -/
def outside (w v mask : Nat) : Bool := decide (Nat.land v (2 ^ w - 1 - mask) ≠ 0)

/-- A reserved bit of the command is set (R101). -/
def reservedSet (c : List Byte) : Bool :=
  let op := leAt c 0 1
  decide (leAt c 1 1 / 2 ≠ 0) || decide (leAt c 4 4 ≠ 0) || outside 32 (leAt c 8 4) (objMask op (leAt c 8 4))
    || outside 32 (flagsOf c) (flagsMask op) || outside 384 (leAt c 0x10 48) (paramMask op (flagsOf c))

/-- The field checks of CREATE_QUEUE (R109). -/
def Blk.createParamBad (b : Blk) (r : AdminRing) (c : List Byte) : Bool :=
  let n := leAt c 0x20 1
  let pref := leAt c 0x21 1
  let base := leAt c 0x10 8
  let cpl := leAt c 0x18 8
  let q := leAt c 0x28 4
  let pol := b.img.policy
  n < 4 || 16 < n || pref < pol.prefMin || pol.prefMax < pref || leAt c 0x2C 1 == 0 || leAt c 0x31 1 % 4 == 3
    || (bit q 16 && !b.activeSet.contains (bits q 13 9))
    || (decide (base < cpl + 8) && decide (cpl < base + 64 * 2 ^ n))
    || base % 64 != 0 || cpl % 8 != 0
    || ((ringDom r).isNone && (b.domEntry (leAt c 8 1)).isNone)

/-- A field of the command lies out of range (Table 5-3 BAD_PARAM). -/
def Blk.paramBad (b : Blk) (r : AdminRing) (c : List Byte) : Bool :=
  let op := leAt c 0 1
  let f := flagsOf c
  let obj := leAt c 8 4
  if op = 1 then b.createParamBad r c
  else if op = 3 then
    let pol := b.img.policy
    (bit f 3 && (leAt c 0x21 1 < pol.prefMin || pol.prefMax < leAt c 0x21 1)) || (bit f 4 && leAt c 0x2C 1 == 0)
      || (bit f 5 && leAt c 0x31 1 % 4 == 3)
  else if opcodeStop op && decide (4 < f % 8) then true
  else if (op = 0x22 || op = 0x23) && decide (18 ≤ obj) then true
  else if op = 9 then
    leAt c 0x18 1 < 4 || 16 < leAt c 0x18 1 || leAt c 0x10 8 % 64 != 0 || ((ringDom r).isNone && (b.domEntry obj).isNone)
  else opcodeDomain op && (ringDom r).isNone && (b.domEntry obj).isNone

/-- The queue a command names. -/
def queueOf (c : List Byte) : QRef :=
  let obj := leAt c 8 4
  if bit obj 30 then .cell (bits obj 5 0) else .dom (bits obj 17 0)

/-- A vector the command binds belongs to another domain (R274). -/
def Blk.vectorForeign (b : Blk) (d v : Nat) : Bool := (b.vector v).dom != d

/-- Form, then privilege and ownership: the first check that fails, as status and detail (R101, R107, R109). -/
def Blk.formCheck (b : Blk) (r : AdminRing) (c : List Byte) : Option (Nat × Nat) :=
  let op := leAt c 0 1
  let f := flagsOf c
  let obj := leAt c 8 4
  let q := queueOf c
  let own := ringDom r
  let dom := b.queue q |>.cfg.dom
  if !opcodeKnown op then some (0x12, 1)
  else if reservedSet c then some (0x12, 2)
  else if b.paramBad r c then some (0x12, 3)
  else if own.isSome && opcodeMgmt op then some (0x12, 4)
  else if op = 1 && own.isSome && bit (leAt c 0x28 4) 3 then some (0x12, 4)
  else if opcodeQueue op && own.isSome && b.exists? q && some dom ≠ own then some (0x12, 5)
  else if opcodeDomain op && own.isSome && some obj ≠ own then some (0x12, 5)
  else if op = 1 && !(bit (leAt c 0x28 4) 17) && b.vectorForeign (obj % 256) (bits (leAt c 0x24 2) 11 0) then some (0x12, 5)
  else if op = 3 && bit f 1 && !(bit (leAt c 0x28 4) 17) && b.exists? q && b.vectorForeign dom (bits (leAt c 0x24 2) 11 0) then
    some (0x12, 5)
  else if op = 9 && b.vectorForeign (obj % 256) (bits (leAt c 0x1A 2) 11 0) then some (0x12, 5)
  else if opcodeQueue op && q.isCell && b.exists? q && !([4, 5, 8].contains op) then some (0x12, 8)
  else none

/-! ## Queue commands -/

/-- State codes (Table 5-7). -/
def QPhase.code : QPhase → Nat
  | .free => 0 | .idle => 1 | .bound => 2 | .spilling => 3 | .spilled => 4 | .refilling => 5 | .stopping => 6
  | .stopped => 7 | .halted => 8 | .lost => 9 | .destroying => 10

/-- QSTATE of a queue. -/
def Blk.qstate (b : Blk) (q : QRef) : Nat := (b.queue q).run.phase.code

/-- Complete a queue command OK. -/
def Blk.okQueue (b : Blk) (r : AdminRing) (c : List Byte) (deferred : Bool) (r0 r1 : Nat) : Blk :=
  b.complete r c 0 0 (b.qstate (queueOf c)) deferred r0 r1

/-- Refuse a command. -/
def Blk.refuse (b : Blk) (r : AdminRing) (c : List Byte) (status detail : Nat) : Blk :=
  b.complete r c status detail (if opcodeQueue (leAt c 0 1) then b.qstate (queueOf c) else 0) false 0 0

/-- Leave the command in progress, waiting. -/
def Blk.waitJob (b : Blk) (r : AdminRing) (f : AdminJob → AdminJob) : Blk :=
  b.modSched fun s => { s with jobs := s.jobs.map fun j => if j.ring = r then f j else j }

/-- The command's job. -/
def Blk.jobOf (b : Blk) (r : AdminRing) : Option AdminJob := b.sched.jobs.find? fun j => j.ring == r

/-- F of Table 5-8: the queue is refilled first. -/
def Blk.refillFirst (b : Blk) (r : AdminRing) (n : Nat) : Blk :=
  (b.wantRefill n).waitJob r fun j => { j with wait := .state, tried := true }

/-- Queues a domain holds: its domain queues, one being created included (R375). -/
def Blk.heldQueues (b : Blk) (d : Nat) : Nat :=
  (b.queues.filter fun (_, x) => decide (x.run.phase ≠ .free) && x.cfg.dom == d).length
    + (b.sched.jobs.filter fun j => j.made.isSome && j.dom == d).length

/-- Backing slots taken. -/
def Blk.freeSlot (b : Blk) : Option Nat :=
  firstFrom (fun i => !(b.sched.backUsed.contains i)) b.img.ident.backCtx 0

/-- Contexts that count as pinned: cell queues and pinned domain queues (R110). -/
def Blk.pinnedCount (b : Blk) : Nat :=
  b.cells.length + (b.queues.filter fun (_, x) => decide (x.run.phase ≠ .free) && x.cfg.pin).length
    + (b.sched.jobs.filter fun j => match j.made with | some c => c.pin | none => false).length

/-- Configuration of a queue from the parameters of CREATE_QUEUE (Table 5-6). -/
def cfgOfCreate (c : List Byte) : QCfg :=
  let q := leAt c 0x28 4
  let m := leAt c 0x31 1
  { ringBase := leAt c 0x10 8, ringExp := leAt c 0x20 1, cplAddr := leAt c 0x18 8, dom := leAt c 8 1, poll := leAt c 0x22 2,
    vec := bits (leAt c 0x24 2) 11 0, novec := bit q 17, chainTmo := leAt c 0x26 2, duplex := bit q 1, ownback := bit q 2,
    adminMark := bit q 3, pollPhase := bit q 4, pollPu := bits q 8 5, home := if bit q 16 then some (bits q 13 9) else none,
    poisonStop := bit q 14, pin := bit q 15, qweight := leAt c 0x2C 1, sclass := bits (leAt c 0x2D 1) 1 0,
    modCount := leAt c 0x30 1, modMode := bits m 1 0, modPu := bits m 5 2, sleepHold := bit m 6, modTime := leAt c 0x32 2,
    pref := leAt c 0x21 1 }

/-- Windows of a new queue (R78, R91, R109). -/
def Blk.createWindows (b : Blk) (c : QCfg) : Bool :=
  let n := 64 * 2 ^ c.ringExp
  b.winOk c.dom c.ringBase n true c.ownback && b.winOk c.dom c.cplAddr 8 false true
    && b.rangesCover c.ringBase n && b.rangesCover c.cplAddr 8

/-- The lowest free queue ID (R110). -/
def Blk.freeQid (b : Blk) : Option Nat :=
  let taken := fun n => decide ((tabGet {} b.queues n).run.phase ≠ .free) || b.sched.jobs.any fun j => j.made.isSome && j.qid == n
  firstFrom (fun n => !taken n) (2 ^ 18) 0

/-- CREATE_QUEUE takes its context and presents the completion word (R110). -/
def Blk.createTake (b : Blk) (r : AdminRing) (n : Nat) (cfg : QCfg) : Blk :=
  let slot := if cfg.pin then none else b.freeSlot
  let b := match slot with
    | some s => b.modSched fun x => { x with backUsed := s :: x.backUsed }
    | none => b
  let b := b.waitJob r fun j => { j with wait := .word, qid := n, cell := false, dom := cfg.dom, slot := slot }
  let b := { b with queues := tabSet {} b.queues n { cfg := cfg } }
  b.sendWrite cfg.cplAddr (cplWordBytes (2 ^ cfg.ringExp) 0 0) cfg.dom 0 (.firstWord (.dom n)) false

/-- CREATE_QUEUE (R109, R110, R375): windows, state, resources, then the word. -/
def Blk.doCreate (b : Blk) (r : AdminRing) (c : List Byte) : Blk :=
  let cfg := cfgOfCreate c
  if !b.createWindows cfg then b.refuse r c 0x10 0x0B
  else if (b.domain cfg.dom).ring.isNone then b.refuse r c 0x12 9
  else if (b.domain cfg.dom).quota ≤ b.heldQueues cfg.dom then b.refuse r c 0x60 0x0C
  else match b.freeQid with
    | none => b.refuse r c 0x60 0x0D
    | some n =>
      if cfg.pin && decide (15360 ≤ b.pinnedCount) then b.refuse r c 0x60 0x0F
      else
        let b := b.waitJob r fun j => { j with made := some cfg, enable := bit (leAt c 0x28 4) 0, qid := n, dom := cfg.dom }
        match b.takeContext with
        | some b => b.createTake r n cfg
        | none =>
          if b.freeSlot.isNone then b.refuse r c 0x60 0x0E
          else
            let b := { b with movp := { b.movp with ctxWait := incr 8 b.movp.ctxWait } }
            b.waitJob r fun j => { j with wait := .context }

/-- The commit point of CREATE_QUEUE (R110, R40): both context tiles are written and the command completes. -/
def Blk.createCommit (b : Blk) (j : AdminJob) : Blk :=
  match j.made with
  | some cfg =>
    let q := QRef.dom j.qid
    let pref := max b.img.policy.prefMin (min cfg.pref b.img.policy.prefMax)
    let x : Queue := { cfg := cfg, poll := cfg.poll, pref := pref, lastOwned := b.sched.ownedSeq,
                       run := { phase := .idle, tail := 0, polling := true, backSlot := j.slot, nospill := j.slot.isNone } }
    let x := if j.enable then x else { x with stop := some (stopOf .disable) }
    let b := b.setQueue q x
    let x := b.queue q
    let b := match b.levels q with
      | some s => b.setQueue q { x with acting := some s, run := { x.run with phase := .stopped } }
      | none => b
    let r1 := j.slot.getD 0 + 2 ^ 31 * b1 (j.slot.isNone && !cfg.pin)
    b.complete j.ring j.cmd 0 0 (b.qstate q) false j.qid r1
  | none => b

/-- The packet reads the ring of a queue. -/
def isRingRead (q : QRef) : Purpose → Bool
  | .ring q' _ => q' == q
  | _ => false

/-- Reads of purpose `p` are withdrawn where they wait; of those outstanding nothing is used any more (R102, R112). -/
def Blk.forget (b : Blk) (p : Purpose → Bool) : Blk :=
  { b with ports := tabMap {} (fun _ v =>
      let gone := v.wait.filter fun k => k.tagged && p k.purpose
      let v := gone.foldl (fun v k => v.freeTagAt k.tag false) v
      let drop := fun (_ : Nat) (t : TagRec) => if t.inUse && p t.purpose then { t with purpose := Purpose.reject } else t
      { v with wait := v.wait.filter (fun k => !p k.purpose), tags := tabMap {} drop v.tags }) b.ports }

/-- Everything a destroyed queue holds is released and its ID is free (R112, Table 5-7). -/
def Blk.freeQueue (b : Blk) (n : Nat) : Blk :=
  let q := QRef.dom n
  let slot := (b.queue q).run.backSlot
  let b := b.forget (isRingRead q)
  let b := { b with queues := tabSet {} b.queues n {}, slots := tabMap {} (fun _ s => { s with held := s.held.filter (· != q) }) b.slots }
  let b := b.modSched fun s => { s with
    nudged := s.nudged.filter (· != n), refilling := s.refilling.filter (· != n), ctxWaiters := s.ctxWaiters.filter (· != n)
    bindList := s.bindList.filter (· != q), mews := s.mews.filter (fun t => t.q != q)
    waiters := s.waiters.filter (fun w => w.q != q), pollWait := s.pollWait.filter (fun w => w.q != q)
    aged := s.aged.filter (· != q)
    backUsed := match slot with | some k => s.backUsed.filter (· != k) | none => s.backUsed }
  { b with sup := { b.sup with moved := tabSet 0 b.sup.moved n 0 }
           movers := tabMap {} (fun _ v => { v with stopped := v.stopped.filter (· != q) }) b.movers
           ports := tabMap {} (fun _ v => { v with reached := v.reached.filter (· != q) }) b.ports }

/-- A queue in DESTROYING has settled every write and published (Table 5-7), and no granted read of its ring is still to leave
the block (R112). -/
def Blk.destroyable (b : Blk) (q : QRef) : Bool :=
  !(b.ports.any fun (_, v) => v.pres.any fun k => isRingRead q k.purpose) &&
  decide ((b.queue q).run.phase = .destroying) && (b.boundAt q).isNone && decide ((b.queue q).pub = .none)
    && (b.queue q).words == 0

/-- Begin to destroy a queue: at once to DESTROYING, or with FORCE first through DISABLE (Table 5-7, Table 5-8). -/
def Blk.destroyBegin (b : Blk) (q : QRef) : Blk :=
  match (b.queue q).run.phase with
  | .bound | .stopping =>
    (b.modQueue q fun x => { x with dying := true }).stopQueueOp q (stopOf .disable)
  | .free | .destroying | .spilling | .refilling => b.modQueue q fun x => { x with dying := true }
  | _ => (b.modQueue q fun x => { x with dying := true, run := { x.run with phase := .destroying, polling := false } })

/-- DESTROY_QUEUE by state (Table 5-8). -/
def Blk.doDestroy (b : Blk) (r : AdminRing) (c : List Byte) : Blk :=
  let q := queueOf c
  let wait := fun (b : Blk) => b.waitJob r fun j => { j with wait := .free, qid := q.num, cell := false }
  match (b.queue q).run.phase with
  | .free => b.refuse r c 0x12 6
  | .bound | .stopping => if bit (flagsOf c) 0 then wait (b.destroyBegin q) else b.refuse r c 0x12 7
  | .spilling | .refilling => b.waitJob r fun j => { j with wait := .state, qid := q.num }
  | .destroying => b.refuse r c 0x12 7
  | _ => wait (b.destroyBegin q)

/-- Run a queue command on a queue whose state Table 5-8 lets it act on; the others are refused, refilled or waited for. -/
def Blk.byState (b : Blk) (r : AdminRing) (c : List Byte) (act : Blk → Blk) : Blk :=
  let q := queueOf c
  match (b.queue q).run.phase with
  | .free => b.refuse r c 0x12 6
  | .spilling | .refilling => b.waitJob r fun j => { j with wait := .state, qid := q.num }
  | .spilled => b.refillFirst r q.num
  | .lost | .destroying => b.refuse r c 0x12 7
  | _ => act b

/-- MODIFY_QUEUE (R14, R113, R374). -/
def Blk.doModify (b : Blk) (r : AdminRing) (c : List Byte) : Blk :=
  b.byState r c fun b =>
    let q := queueOf c
    let f := flagsOf c
    let b := b.modQueue q fun x => x.modify f c true
    let busy := !(b.execsOf q).isEmpty
    let deferred := busy && decide (Nat.land f 0x5F ≠ 0)
    let b := if deferred then b.modQueue q fun x => { x with deferred := x.deferred ++ [(f, c)] }
      else b.modQueue q fun x => x.modify f c false
    let x := b.queue q
    -- a count or time the change leaves already reached makes a message fall due now (R277)
    let b := if bit f 5 && decide (0 < x.mod.count) && !(x.cfg.modMode == 2 && (b.pu x.cfg.modPu).ticks) && (x.modDue || x.modLate b.now) then
        b.queueMsg q none else b
    b.okQueue r c deferred 0 0

/-- The stop a stop command asks for (Table 5-4). -/
def stopOfCmd (c : List Byte) : Stop :=
  let mode := match flagsOf c % 8 with | 0 => StopMode.pause | 1 => .drain | 2 => .atPhase | 3 => .abort | _ => .disable
  ⟨mode, bits (leAt c 0x10 1) 3 0, leAt c 0x14 3, leAt c 0x18 3⟩

/-- STOP_QUEUE (R243, R113). -/
def Blk.doStop (b : Blk) (r : AdminRing) (c : List Byte) : Blk :=
  b.byState r c fun b => (b.stopQueueOp (queueOf c) (stopOfCmd c)).okQueue r c false 0 0

/-- RESUME_QUEUE (R252, R113): refused while another level holds the queue. -/
def Blk.doResume (b : Blk) (r : AdminRing) (c : List Byte) : Blk :=
  let q := queueOf c
  match (b.queue q).run.phase with
  | .idle | .bound | .spilled => b.okQueue r c false 0 0
  | .stopping => b.refuse r c 0x12 7
  | _ =>
    b.byState r c fun b =>
      if b.heldAbove q then b.refuse r c 0x12 7
      else ((b.modQueue q fun x => { x with stop := none }).toIdle q).okQueue r c false 0 0

/-- PIN_QUEUE (R110, R113). -/
def Blk.doPin (b : Blk) (r : AdminRing) (c : List Byte) : Blk :=
  b.byState r c fun b =>
    let q := queueOf c
    if !(b.queue q).cfg.pin && decide (15360 ≤ b.pinnedCount) then b.refuse r c 0x60 0x0F
    else (b.modQueue q fun x => { x with cfg := { x.cfg with pin := true } }).okQueue r c false 0 0

/-- UNPIN_QUEUE (R110, R113): no change on a spilled queue; a queue without a backing slot takes the lowest free one. -/
def Blk.doUnpin (b : Blk) (r : AdminRing) (c : List Byte) : Blk :=
  let q := queueOf c
  let result := fun (b : Blk) =>
    let s := (b.queue q).run.backSlot
    b.okQueue r c false (s.getD 0 + 2 ^ 31 * b1 s.isNone) 0
  match (b.queue q).run.phase with
  | .spilled => result b
  | _ =>
    b.byState r c fun b =>
      let slot := match (b.queue q).run.backSlot with | some s => some s | none => b.freeSlot
      let b := match slot with
        | some s => b.modSched fun x => { x with backUsed := addOnce s x.backUsed }
        | none => b
      result (b.modQueue q fun x => { x with cfg := { x.cfg with pin := false },
                                             run := { x.run with backSlot := slot, nospill := slot.isNone } })

/-- The mover a queue is bound to, 31 for none. -/
def Blk.boundMover (b : Blk) (q : QRef) : Nat := ((b.boundAt q).map (·.1)).getD 31

/-- QUERY_QUEUE (R113, R272, Table 5-4). -/
def Blk.doQuery (b : Blk) (r : AdminRing) (c : List Byte) : Blk :=
  let q := queueOf c
  let result := fun (b : Blk) =>
    let x := b.queue q
    let at_ := fun p => p % x.size + 65536 * lapOf p x.size
    b.okQueue r c false (at_ x.run.head) (at_ x.run.tail + 2 ^ 17 * b.boundMover q + 2 ^ 24 * x.run.lastStatus)
  match (b.queue q).run.phase with
  | .lost | .destroying => result b
  | _ => b.byState r c result

/-! ## Domain, mover, port and instance commands -/

/-- The zeroing writes of a memory area (R267, R319). -/
def Blk.zeroArea (b : Blk) (d : Nat) (purpose : Purpose) : Nat → Nat → Nat → Nat → Nat × Blk
  | 0, _, _, n => (n, b)
  | fuel + 1, a, len, n =>
    if len = 0 then (n, b)
    else
      let k := b.cutLen a len b.img.ident.mps
      let k := if k = 0 then len else k
      Blk.zeroArea (b.sendWrite a (leBytes k 0) d 0 purpose false) d purpose fuel (a + k) (len - k) (n + b1 (b.route a 0).isSome)

/-- CREATE_EVENT_RING (R267). -/
def Blk.doCreateRing (b : Blk) (r : AdminRing) (c : List Byte) : Blk :=
  let d := leAt c 8 1
  let base := leAt c 0x10 8
  let len := 64 * 2 ^ leAt c 0x18 1
  if !(b.winOk d base len false true && b.rangesCover base len) then b.refuse r c 0x10 0x0B
  else if (b.domain d).ring.isSome || b.sched.jobs.any fun j => decide (j.wait = .zeroes) && j.dom == d then
    b.refuse r c 0x12 0x0A
  else
    let (n, b) := b.zeroArea d (.ringZero d) len base len 0
    b.waitJob r fun j => { j with wait := .zeroes, dom := d, left := n }

/-- The ring exists once its last zeroing write is accepted (R267, R270). -/
def Blk.ringMade (b : Blk) (j : AdminJob) : Blk :=
  let ring : EvRing := { base := leAt j.cmd 0x10 8, exp := leAt j.cmd 0x18 1, vec := bits (leAt j.cmd 0x1A 2) 11 0, wpos := 0,
                         rpos := 0 }
  (b.modDomain j.dom fun x => { x with ring := some ring }).complete j.ring j.cmd 0 0 0 false 0 0

/-- DESTROY_EVENT_RING (Table 5-4, R375). -/
def Blk.doDestroyRing (b : Blk) (r : AdminRing) (c : List Byte) : Blk :=
  let d := leAt c 8 1
  if 0 < b.heldQueues d then b.refuse r c 0x12 7
  else if (b.domain d).ring.isNone then b.refuse r c 0x12 9
  else (b.modDomain d fun x => { x with ring := none }).complete r c 0 0 0 false 0 0

/-- Complete a command that names no queue OK. -/
def Blk.okPlain (b : Blk) (r : AdminRing) (c : List Byte) (r0 : Nat) : Blk := b.complete r c 0 0 0 false r0 0

/-- RESUME_DOMAIN (R252). -/
def Blk.resumeDomainOp (b : Blk) (d : Nat) : Blk :=
  ((b.modDomain d fun x => { x with stop := none }).unStopAll).serveRefills

/-- RESUME_INSTANCE (R252, R259): only the software stop is lifted. -/
def Blk.resumeInstanceOp (b : Blk) : Blk := ((b.modSched fun x => { x with instStop := none }).unStopAll).serveRefills

/-- Domain queues of a domain. -/
def Blk.domQueues (b : Blk) (d : Nat) : List Nat :=
  b.queues.filterMap fun (n, x) => if x.run.phase ≠ .free ∧ x.cfg.dom = d then some n else none

/-- RESET_DOMAIN begins (R108): every domain queue of the domain is destroyed with FORCE. -/
def Blk.doResetDomain (b : Blk) (r : AdminRing) (c : List Byte) : Blk :=
  let d := leAt c 8 1
  let l := b.domQueues d
  let b := l.foldl (fun b n => b.destroyBegin (.dom n)) b
  let b := b.modDomain d fun x => { x with fetched := none }
  b.waitJob r fun j => { j with wait := .free, dom := d, done := l.length, qid := 2 ^ 18 }

/-- The end of RESET_DOMAIN: the event ring is destroyed and the admin ring is as before its first nudge (R108). -/
def Blk.resetEnd (b : Blk) (j : AdminJob) : Blk :=
  let b := (b.forget fun u => match u with | .admin d => d == j.dom | _ => false).modDomain j.dom fun x => { x with
    ring := none, started := false, served := false, cmdPos := 0, retPos := 0, cplPos := 0, headPos := 0, pubcount := 0
    tailPos := 0, stalled := false, reading := false, ask := false, fetched := none, win := false, lostCpl := false, cplPkt := none }
  b.complete j.ring j.cmd 0 0 0 false j.done 0

/-! ## Starting and waiting -/

/-- Opcodes that make or unmake what a domain holds, or count it. -/
def opcodeHolds (op : Nat) : Bool := [0x01, 0x09, 0x0A, 0x28, 0x29].contains op

/-- A command that makes, unmakes or counts what a domain holds waits for those started before it (R100). -/
def Blk.mustWait (b : Blk) (r : AdminRing) (c : List Byte) : Bool :=
  opcodeHolds (leAt c 0 1) && (b.sched.jobs.takeWhile fun j => j.ring != r).any fun j =>
    opcodeHolds (leAt j.cmd 0 1) && leAt j.cmd 8 1 == leAt c 8 1

/-- Run an admin command that has started: the checks of R101 and its effect. -/
def Blk.runCmd (b : Blk) (r : AdminRing) (c : List Byte) : Blk :=
  let obj := leAt c 8 4
  match b.formCheck r c with
  | some (st, dt) => b.refuse r c st dt
  | none =>
    if b.mustWait r c then b.waitJob r fun j => { j with wait := .turn }
    else match leAt c 0 1 with
    | 0x01 => b.doCreate r c
    | 0x02 => b.doDestroy r c
    | 0x03 => b.doModify r c
    | 0x04 => b.doStop r c
    | 0x05 => b.doResume r c
    | 0x06 => b.doPin r c
    | 0x07 => b.doUnpin r c
    | 0x08 => b.doQuery r c
    | 0x09 => b.doCreateRing r c
    | 0x0A => b.doDestroyRing r c
    | 0x20 => (b.stopDomainOp obj (stopOfCmd c)).okPlain r c 0
    | 0x21 => (b.resumeDomainOp obj).okPlain r c 0
    | 0x22 => (b.stopMoverOp obj (stopOfCmd c)).okPlain r c 0
    | 0x23 => (b.resumeMoverOp obj).okPlain r c 0
    | 0x24 => (b.stopPortOp obj (stopOfCmd c)).okPlain r c 0
    | 0x25 => (b.resumePortOp obj).okPlain r c 0
    | 0x26 => (b.stopInstanceOp (stopOfCmd c)).okPlain r c 0
    | 0x27 => b.resumeInstanceOp.okPlain r c 0
    | 0x28 => (b.modDomain obj fun x => { x with quota := leAt c 0x10 4 }).okPlain r c (b.heldQueues obj)
    | 0x29 => b.doResetDomain r c
    | _ => b.okPlain r c 0

/-- An empty job of a command. -/
def newJob (r : AdminRing) (c : List Byte) : AdminJob :=
  { ring := r, cmd := c, wait := .state, qid := 2 ^ 18, cell := false, dom := 256, left := 0, done := 0,
    tried := false, made := none, enable := false, slot := none }

/-- Trace OBJECT of a ring (Table 17-11). -/
def ringObj : AdminRing → Nat
  | .mga => 255
  | .mgb => 254
  | .dom d => d

/-- The ring's next command `c` begins (R99): it leaves its slot or its place in the ring, and a job holds it. The slot of a
management ring is free from then on. DESIGN CHOICE: assumption log 29. -/
def Blk.begun (b : Blk) (r : AdminRing) (c : List Byte) : Blk :=
  let b := match r with
    | .dom d =>
      let n := match b.domEntry d with | some e => 2 * e.adminLen | none => 1
      (b.modDomain d fun x => { x with fetched := none, cmdPos := (x.cmdPos + 1) % n, stalled := false }).modSched fun s =>
        { s with rr := (d + 1) % 256 }
    | .mga | .mgb => b.modMg r fun v => { v with slots := v.slots.drop 1 }
  let b := b.modSched fun s => { s with jobs := s.jobs ++ [newJob r c] }
  b.traceEv 7 false (leAt c 0 1) (ringObj r)

/-- Start the ring's next command `c` (R99): it begins and runs. -/
def Blk.startCmd (b : Blk) (r : AdminRing) (c : List Byte) : Blk := (b.begun r c).runCmd r c

/-- The rings with a command that may start, in Lovage's order: MGA and MGB first, then domain rings in round robin (R99). -/
def Blk.lovageOrder (b : Blk) : List AdminRing :=
  ([AdminRing.mga, .mgb] ++ (List.range 256).map fun i => AdminRing.dom ((b.sched.rr + i) % 256)).filter fun r => (b.readyCmd r).isSome

/-- Lovage can start a command of this ring now: it is among the first in its order that the places left of 32 take (R99). -/
def Blk.lovageFree (b : Blk) (r : AdminRing) : Bool :=
  let n := b.sched.jobs.length
  decide (n + b.domains.length + 2 ≤ 32) || (b.lovageOrder.take (32 - n)).contains r

/-- A ring with a command it may not start because its completion ring is full stalls, once (R104). -/
def Blk.stallCheck (b : Blk) (d : Nat) : Blk :=
  let x := b.domain d
  if x.fetched.isSome && !b.cplRoom d && !x.stalled then (b.modDomain d fun x => { x with stalled := true }).raise 0 9 else b

/-- A ready command whose opcode Table 5-4 does not list is started and refused with BAD_OPCODE (R101). -/
def Blk.refuseUnknown (b : Blk) (r : AdminRing) : Blk :=
  match b.readyCmd r with
  | some c => if opcodeKnown (leAt c 0 1) || !b.lovageFree r then b else b.startCmd r c
  | none => b

/-- The row of an admin opcode: Lovage starts the ring's next command if it carries that opcode. -/
def Blk.adminRow (b : Blk) (r : AdminRing) (op : Nat) : Blk :=
  match b.readyCmd r with
  | some c => if leAt c 0 1 = op ∧ b.lovageFree r then (b.startCmd r c).refuseUnknown r else b
  | none => b

/-- Free every queue in DESTROYING that has settled; a spilled or refilled queue that is to die goes there first. -/
def Blk.reapQueues (b : Blk) : Blk :=
  let b := b.queues.foldl (fun b (n, x) =>
    let q := QRef.dom n
    let rest := match x.run.phase with
      | .idle | .spilled | .stopped | .halted | .lost => true
      | _ => false
    if x.dying && rest then b.destroyBegin q else b) b
  let n := b.queues.length
  let b := b.queues.foldl (fun b (n, _) => if b.destroyable (.dom n) then b.freeQueue n else b) b
  if b.queues.length = n then b else b.serveRefills

/-- A waiting command looks again at what it waits for (Table 5-4, Table 5-8). -/
def Blk.jobCheck (b : Blk) (j : AdminJob) : Blk :=
  match j.wait with
  | .state =>
    let q := queueOf j.cmd
    match (b.queue q).run.phase with
    | .spilling | .refilling => b
    | .spilled => if j.tried then (if b.sched.ctxWaiters.contains q.num then b else b.wantRefill q.num) else b.runCmd j.ring j.cmd
    | .lost => if j.tried then b.refuse j.ring j.cmd 0x61 0x10 else b.runCmd j.ring j.cmd
    | _ => b.runCmd j.ring j.cmd
  | .context =>
    match j.made, b.takeContext with
    | some cfg, some b => b.createTake j.ring j.qid cfg
    | _, _ => b
  | .free =>
    if leAt j.cmd 0 1 = 0x29 then
      let idle := !(b.ringBusy (.dom j.dom)) && (b.domain j.dom).cplPkt.isNone
      if (b.domQueues j.dom).isEmpty && idle then b.resetEnd j else b
    else if (b.queue (.dom j.qid)).run.phase = .free then b.complete j.ring j.cmd 0 0 0 false 0 0 else b
  | .turn => if b.mustWait j.ring j.cmd then b else b.runCmd j.ring j.cmd
  | .word | .zeroes => b

/-- Every waiting command looks again; Lovage completes none while a warm restart lasts (R39). -/
def Blk.jobsCheck (b : Blk) : Blk :=
  if b.ldr.state = .warmrst then b
  else
  let b := b.reapQueues
  b.sched.jobs.foldl (fun b j => b.jobCheck j) b

/-! ## Commands of the admin family -/

/-- ADMIN_NUDGE (R102, R103, R105). -/
def adminNudgeB (d hdrDom size value : Nat) (b : Blk) : Blk :=
  if !(b.on 1 && b.on 2) then b
  else match b.domEntry d with
    | none => b.nudgeDrop
    | some e =>
      if !(size = 4 ∨ size = 8) || hdrDom ≠ d || e.adminLen ≤ bits value 15 0 then b.nudgeDrop
      else if !b.adminRingOk d e then
        (b.modDomain d fun x => { x with win := true, served := false }).raise 0 10
      else
        let x := b.domain d
        let b := b.modDomain d fun x => { x with tailPos := posOf value e.adminLen, win := false, served := true, started := true }
        let b := if x.started then b
          else b.sendWrite e.adminCpl (cplWordBytes e.adminLen 0 0) d 0 (.adminWord d) false
        let b := if x.lostCpl then
            let b := b.modDomain d fun x => { x with lostCpl := false }
            match x.cplPkt with
            | some k => match k.purpose with
              | .adminWord _ => (b.modDomain d fun x => { x with cplPkt := none }).sendWrite k.addr k.data d 0 k.purpose false
              | _ => (b.modDomain d fun x => { x with cplPkt := some { k with second := false } }).sendWrite k.addr k.data d 0
                k.purpose false
            | none => b
          else b
        b.adminAsk d

/-- ADMIN_CPL_RETURN (R103, R104). -/
def adminCplReturnB (d hdrDom size value : Nat) (b : Blk) : Blk :=
  if !(b.on 1 && b.on 2) then b
  else match b.domEntry d with
    | none => b.nudgeDrop
    | some e =>
      let n := 2 * e.adminLen
      let x := b.domain d
      let p := posOf value e.adminLen
      if !(size = 4 ∨ size = 8) || hdrDom ≠ d || e.adminLen ≤ bits value 15 0
          || (x.cplPos + n - x.retPos) % n < (p + n - x.retPos) % n then b.nudgeDrop
      else
        let b := b.modDomain d fun x => { x with retPos := p, stalled := false }
        (b.stallCheck d).refuseUnknown (.dom d)

/-- ADMIN_POLL (R102): every 100 µs. -/
def adminPollB (d : Nat) (b : Blk) : Blk := b.adminRead d

/-- The read of a command entry ends (R102): an owned command is ready to start. -/
def Blk.adminReadEnd (b : Blk) (d : Nat) (r : ReadResult) : Blk :=
  match b.domEntry d with
  | some e =>
    let x := b.domain d
    if !x.reading then b
    else
      let b := b.modDomain d fun x => { x with reading := false }
      match r with
      | .data bs =>
        if decide (lapOf x.cmdPos e.adminLen = 1) = ownOf bs && bs.length == 64 then
          ((b.modDomain d fun x => { x with fetched := some bs, ask := false }).stallCheck d).refuseUnknown (.dom d)
        else if x.ask then b.adminRead d else b
      | _ => if x.ask then b.adminRead d else b
  | none => b

/-- MG_SUBMIT (R106): the buffer becomes a command of the ring, or REFUSED is set. -/
def Blk.mgSubmitOp (b : Blk) (second : Bool) : Blk :=
  let r := if second then AdminRing.mgb else .mga
  let base := if second then 0x6080 else 0x6000
  if 16 ≤ (b.mgRing r).slots.length then b.modMg r fun v => { v with refused := true }
  else
    let c := (List.range 16).flatMap fun k => leBytes 4 (b.reg (base + 4 * k))
    (b.modMg r fun v => { v with slots := v.slots ++ [c], refused := false }).refuseUnknown r

/-- MG_POP (R106): the oldest completion is discarded. -/
def Blk.mgPopOp (b : Blk) (second : Bool) : Blk :=
  let r := if second then AdminRing.mgb else .mga
  (b.modMg r fun v => { v with cpls := v.cpls.drop 1 }).refuseUnknown r

/-- CREATE_QUEUE. -/
def createQueueB (r : AdminRing) (b : Blk) : Blk := (b.adminRow r 0x01).jobsCheck
/-- DESTROY_QUEUE. -/
def destroyQueueB (r : AdminRing) (b : Blk) : Blk := (b.adminRow r 0x02).jobsCheck
/-- MODIFY_QUEUE. -/
def modifyQueueB (r : AdminRing) (b : Blk) : Blk := (b.adminRow r 0x03).jobsCheck
/-- STOP_QUEUE. -/
def stopQueueB (r : AdminRing) (b : Blk) : Blk := (b.adminRow r 0x04).jobsCheck
/-- RESUME_QUEUE. -/
def resumeQueueB (r : AdminRing) (b : Blk) : Blk := (b.adminRow r 0x05).jobsCheck
/-- PIN_QUEUE. -/
def pinQueueB (r : AdminRing) (b : Blk) : Blk := (b.adminRow r 0x06).jobsCheck
/-- UNPIN_QUEUE. -/
def unpinQueueB (r : AdminRing) (b : Blk) : Blk := (b.adminRow r 0x07).jobsCheck
/-- QUERY_QUEUE. -/
def queryQueueB (r : AdminRing) (b : Blk) : Blk := (b.adminRow r 0x08).jobsCheck
/-- CREATE_EVENT_RING. -/
def createEventRingB (r : AdminRing) (b : Blk) : Blk := (b.adminRow r 0x09).jobsCheck
/-- DESTROY_EVENT_RING. -/
def destroyEventRingB (r : AdminRing) (b : Blk) : Blk := (b.adminRow r 0x0A).jobsCheck
/-- NOP. -/
def adminNopB (r : AdminRing) (b : Blk) : Blk := (b.adminRow r 0x0B).jobsCheck
/-- STOP_DOMAIN. -/
def stopDomainB (r : AdminRing) (b : Blk) : Blk := (b.adminRow r 0x20).jobsCheck
/-- RESUME_DOMAIN. -/
def resumeDomainB (r : AdminRing) (b : Blk) : Blk := (b.adminRow r 0x21).jobsCheck
/-- STOP_MOVER. -/
def stopMoverB (r : AdminRing) (b : Blk) : Blk := (b.adminRow r 0x22).jobsCheck
/-- RESUME_MOVER. -/
def resumeMoverB (r : AdminRing) (b : Blk) : Blk := (b.adminRow r 0x23).jobsCheck
/-- STOP_PORT. -/
def stopPortB (r : AdminRing) (b : Blk) : Blk := (b.adminRow r 0x24).jobsCheck
/-- RESUME_PORT. -/
def resumePortB (r : AdminRing) (b : Blk) : Blk := (b.adminRow r 0x25).jobsCheck
/-- STOP_INSTANCE. -/
def stopInstanceB (r : AdminRing) (b : Blk) : Blk := (b.adminRow r 0x26).jobsCheck
/-- RESUME_INSTANCE. -/
def resumeInstanceB (r : AdminRing) (b : Blk) : Blk := (b.adminRow r 0x27).jobsCheck
/-- SET_QUOTA. -/
def setQuotaB (r : AdminRing) (b : Blk) : Blk := (b.adminRow r 0x28).jobsCheck
/-- RESET_DOMAIN. -/
def resetDomainB (r : AdminRing) (b : Blk) : Blk := (b.adminRow r 0x29).jobsCheck

/-- CONTEXT_WAIT_TIMEOUT (R360): a command that waits for a resident context completes with NO_CONTEXT. -/
def contextWaitTimeoutB (r : AdminRing) (b : Blk) : Blk :=
  match b.jobOf r with
  | some j =>
    let n := (queueOf j.cmd).num
    let refill := decide (j.wait = .state) && b.sched.ctxWaiters.contains n
    if j.wait = .context ∨ refill then
      let b := if refill && !(b.sched.nudged.contains n) then
          b.modSched fun s => { s with ctxWaiters := s.ctxWaiters.filter (· != n) } else b
      (b.refuse r j.cmd 0x60 0x0E).refuseUnknown r
    else b
  | none => b

end Sys2Proof.Machine
end

