-- ==== Sys2Proof/Machine/Mailbox.lean ====
section
/-! DEFINITION. The mailbox of each management port (R63, Tables 3-7 to 3-9). -/

namespace Sys2Proof.Machine
open Sys2Proof

/-- ID_RELEASE (Table 0-1). -/
def idRelease : Nat := 0x00030100

/-- Change a port's mailbox. -/
def Blk.modMbx (b : Blk) (p : MPort) (f : Mailbox → Mailbox) : Blk := b.modSide p fun s => { s with mbx := f s.mbx }

/-- CLASS of the selection. -/
def Mailbox.selClass (x : Mailbox) : Nat := bits x.sel 31 24

/-- INDEX of the selection. -/
def Mailbox.selIndex (x : Mailbox) : Nat := bits x.sel 17 0

/-- The selection names a class and an INDEX of Table 3-9; a queue of class 0x01 exists. -/
def Blk.mbxGood (b : Blk) (c i : Nat) : Bool :=
  match c with
  | 0x01 => b.exists? (.dom i)
  | 0x02 => decide (i < 64)
  | 0x03 => decide (i < 36)
  | 0x04 => decide (i < 16)
  | 0x05 => decide (i < 256)
  | 0x08 => decide (i < 16)
  | 0x09 | 0x0A => decide (i = 0)
  | _ => false

/-- The power domain of the unit a selection reads is on (Table 1-4). -/
def Blk.mbxOn (b : Blk) (c i : Nat) : Bool :=
  match c with
  | 0x01 | 0x02 => b.on 1 && (b.on 5 || b.on 6)
  | 0x03 => b.on (moverPd (i / 2))
  | 0x04 => b.on (portPd (i / 2))
  | 0x0A => true
  | _ => b.on 1

/-- WORDS of a class (Table 3-9). -/
def mbxWords (c : Nat) : Nat := if c = 0x0A then 4 else if c = 0x08 ∨ c = 0x09 then 2 else 3

/-- The value of a selection (Table 3-9). -/
def Blk.mbxValue (b : Blk) (c i : Nat) : Nat :=
  match c with
  | 0x01 => (b.queue (.dom i)).run.bytesMoved
  | 0x02 => (b.queue (.cell i)).run.bytesMoved
  | 0x03 => if i % 2 = 0 then (b.mover (i / 2)).bytesRd else (b.mover (i / 2)).bytesWr
  | 0x04 => if i % 2 = 0 then (b.port (i / 2)).bytesRd else (b.port (i / 2)).bytesWr
  | 0x05 => (b.domain i).bytes
  | 0x08 => (b.pu i).ph.word
  | 0x09 => b.now
  | _ => idRelease + 2 ^ 32 * (b.img.ident.inst % 64) + 2 ^ 64 * b.ldr.build + 2 ^ 96 * b.ldr.imageSeq

/-- The queue of a class 0x01 selection is spilled or being refilled: its counter lies in its backing slot. -/
def Blk.mbxBacked (b : Blk) (c i : Nat) : Bool :=
  decide (c = 0x01) && (match (b.queue (.dom i)).run.phase with | .spilled | .refilling => true | _ => false)

/-- The purpose is a port's mailbox read. -/
def isMbxRead (p : MPort) (u : Purpose) : Bool := match u with | .mailbox q => q == p | _ => false

/-- An earlier selection is abandoned: what its backing read brings is discarded. -/
def Blk.mbxAbandon (b : Blk) (p : MPort) : Blk :=
  let pk := fun (k : Pkt) => if isMbxRead p k.purpose then { k with purpose := .reject } else k
  { b with ports := tabMap {} (fun _ v => { v with
      wait := v.wait.map pk, pres := v.pres.map pk
      tags := tabMap {} (fun _ (r : TagRec) => if isMbxRead p r.purpose then { r with purpose := .reject } else r) v.tags }) b.ports }

/-- The 64 B read of context tile 1 from the backing slot (R63). -/
def Blk.mbxBackRead (b : Blk) (p : MPort) (i : Nat) : Blk :=
  let a := b.backAddr (b.queue (.dom i)) + 64
  (b.modMbx p fun x => { x with backing := true }).sendRead a 64 b.img.ident.backDom 0 (.mailbox p)

/-- MBX_SEL_WRITE (Table 3-7): a fetch starts in every state. -/
def Blk.mbxSelect (b : Blk) (p : MPort) (w : Nat) : Blk :=
  let b := b.mbxAbandon p
  let x : Mailbox := { state := .fetch, sel := bits w 31 24 * 2 ^ 24 + bits w 17 0 }
  let b := b.modMbx p fun _ => x
  let c := x.selClass
  let i := x.selIndex
  if b.mbxGood c i && b.mbxOn c i && b.mbxBacked c i then b.mbxBackRead p i else b

/-- A fetch ends in ERROR with a code of Table 3-8. -/
def Blk.mbxError (b : Blk) (p : MPort) (e : Nat) : Blk :=
  b.modMbx p fun x => { x with state := .error, err := e, backing := false, cls := 0, words := 0, value := 0 }

/-- A fetch ends in VALID. -/
def Blk.mbxValid (b : Blk) (p : MPort) (c v : Nat) : Blk :=
  b.modMbx p fun x => { x with state := .valid, err := 0, backing := false, cls := c, words := mbxWords c, value := v }

/-- MBX_CAPTURE (R63): the value is captured, or the selection is found bad or its domain off. -/
def mbxCaptureB (p : MPort) (b : Blk) : Blk :=
  let x := (b.side p).mbx
  let c := x.selClass
  let i := x.selIndex
  if x.state ≠ .fetch ∨ x.backing then b
  else if !b.mbxGood c i then b.mbxError p 1
  else if !b.mbxOn c i then b.mbxError p 2
  else if b.mbxBacked c i then b.mbxBackRead p i
  else b.mbxValid p c (b.mbxValue c i)

/-- The backing read of a mailbox ends (R63, R97): tile 1 is checked as a refill checks it. -/
def Blk.mbxBackEnd (b : Blk) (p : MPort) (r : ReadResult) : Blk :=
  let x := (b.side p).mbx
  if x.state ≠ .fetch ∨ !x.backing then b
  else match r with
    | .data bs => if tileOk bs then b.mbxValid p x.selClass (runOfTile {} bs).run.bytesMoved else b.mbxError p 4
    | _ => b.mbxError p 4

/-- MBX_BACKING_READ_DONE (R63): the read of the port's mailbox ends. -/
def mbxBackingReadDoneB (p : MPort) (r : ReadResult) (b : Blk) : Blk :=
  match b.findRead (isMbxRead p) with
  | some (n, t, _) => (b.endRead n t (ReadResult.abandons r)).mbxBackEnd p r
  | none => b

/-- MBX_TIMEOUT (Table 3-7): no value after 64 MGCLK cycles; with a backing read the time runs from its completion. -/
def mbxTimeoutB (p : MPort) (b : Blk) : Blk :=
  let x := (b.side p).mbx
  if x.state = .fetch ∧ !x.backing then b.mbxError p 3 else b

/-- Word `k` of the capture, and the read of the highest word that clears VALID (R63). -/
def Blk.mbxRead (b : Blk) (p : MPort) (k : Nat) : Nat × Blk :=
  let x := (b.side p).mbx
  if x.state ≠ .valid then (0, b)
  else
    (x.value / 2 ^ (32 * k) % 2 ^ 32,
     if k + 1 = x.words then b.modMbx p fun x => { x with state := .idle } else b)

/-- MBX_STAT (Table 3-8). -/
def Mailbox.stat (x : Mailbox) : Nat :=
  fld (b1 (decide (x.state = .valid))) 31 1 + fld (b1 (decide (x.state = .fetch))) 30 1 + fld x.err 24 4
    + fld x.cls 16 8 + fld x.words 0 3

end Sys2Proof.Machine
end

