-- ==== Sys2Proof/Machine/Slots.lean ====
section
/-! DEFINITION. Slots and the Mews (R306-R310, Tables 13-10 to 13-12). -/

namespace Sys2Proof.Machine
open Sys2Proof

/-- ON of a slot (Table 13-12). -/
def Blk.sltOn (b : Blk) (s : Nat) : Bool := bit (b.reg (0x05000 + 4 * s)) 30

/-- TOKEN_EN of a slot. -/
def Blk.sltTokenEn (b : Blk) (s : Nat) : Bool := bit (b.reg (0x05000 + 4 * s)) 29

/-- The link of a slot is up (R299). -/
def Blk.sltLink (b : Blk) (s : Nat) : Bool := b.links.contains s

/-- The lowest-numbered range of a slot (R308). -/
def Blk.sltRange (b : Blk) (s : Nat) : Option Target := b.img.targets.find? fun t => t.slotValid && t.slot == s

/-! ## Waiting entries -/

/-- Queues that wait on a slot: held ones in the order in which they were held, then those on their way to be held. -/
def Blk.sltWaiting (b : Blk) (s : Nat) : List QRef :=
  let l := (b.slot s).held
  l ++ b.allQueues.filter fun q => (b.queue q).holding == some s && !l.contains q

/-- A waiting entry stops with a status (R309, R310): the queue halts in front of its chain. A queue that a stop holds in
STOPPED is only unflagged: its entry meets the slot again when the queue resumes (DEDUCED: assumption log 14). -/
def Blk.stopWaiting (b : Blk) (s status : Nat) (info : List Byte) (q : QRef) : Blk :=
  let x := b.queue q
  if x.holding = some s then
    let b := b.modQueue q fun x => { x with holding := none }
    match b.boundAt q with
    | some (m, k) =>
      match ((b.binding m k).map (·.exec)).getD [] with
      | e :: _ => (b.failEntry m k e.pos status info).pump m k
      | [] => b
    | none => b
  else
    let b := b.unhold q
    match x.run.phase with
    | .idle | .stopping =>
      let mk := x.run.mark
      let cookie := match x.copyAt mk.pos with | some c => (decodeDesc c).cookie | none => 0
      let b := b.haltWith q (haltReport status mk.pos cookie mk.srcOfs mk.dstOfs info)
      (b.modRun q fun r => { r with pauseMark := false }).settleCheck q
    | _ => b

/-- Every waiting entry of a slot stops. -/
def Blk.stopAllWaiting (b : Blk) (s status : Nat) (info : List Byte) : Blk :=
  (b.sltWaiting s).foldl (fun b q => b.stopWaiting s status info q) b

/-- Every held queue of a slot is released in order (R310). -/
def Blk.releaseHeldBy (b : Blk) (s : Nat) : Blk :=
  let wait := b.sltWaiting s
  let b := (b.slot s).held.foldl (fun b q => (b.unhold q).bindOrWait q) b
  wait.foldl (fun b q => if (b.queue q).holding = some s then b.holdCheck q else b) b

/-- The hold of a slot ends: every waiting entry stops with the status of the state at that moment (R309). -/
def Blk.sltHoldEnd (b : Blk) (s : Nat) : Blk :=
  let b := b.modSlot s fun x => { x with hold := false }
  b.stopAllWaiting s (if (b.slot s).state = .empty then 0x23 else 0x25) (b.slotInfo s 0 0)

/-! ## Transitions (R307, Table 13-11) -/

/-- SLT_PWR_EN in a state: high in RAMP, SETTLE and READY, kept in HELD while presence is accepted (R307). -/
def Slot.power (x : Slot) (st : SlotState) : Bool :=
  match st with
  | .ramp | .settle | .ready => true
  | .held => x.pwrEn && x.prsnt && !x.lostPresence
  | _ => false

/-- A slot enters another state: SLT_STATE is raised, a slot that leaves READY starts its hold, the latency records of its
ranges are invalid, waiting entries stop in FAILED_AT_INSERTION and FAULTED (R307, R309, R181). -/
def Blk.sltGo (b : Blk) (s : Nat) (st : SlotState) : Blk :=
  let old := (b.slot s).state
  let b := b.modSlot s fun x => { x with
    state := st, pwrEn := x.power st, settled := false, tokenRead := false
    flt := if x.power st then x.flt else false
    hold := x.hold || decide (old = .ready) }
  let b := (b.raiseAt 9 s).traceEv 6 false st.code s
  let b := if old ≠ st then b.invalidateLat fun _ t => t.slotValid && t.slot == s else b
  match st with
  | .failedAtInsertion | .faulted => b.stopAllWaiting s 0x25 (b.slotInfo s 0 0)
  | _ => b

/-- A running hold of a slot whose HOLD is 0 expires at once (R309). -/
def Blk.sltHoldZero (b : Blk) (s : Nat) : Blk :=
  let x := b.slot s
  if x.hold && b.sltHold s == 0 then
    let b := if x.state = .held then b.sltGo s (if x.prsnt then .faulted else .empty) else b
    b.sltHoldEnd s
  else b

/-- The hold of a slot expires (Table 13-11, R309): HELD goes to EMPTY or FAULTED. -/
def Blk.sltExpire (b : Blk) (s : Nat) : Blk :=
  let x := b.slot s
  if !x.hold then b
  else
    let b := b.modSlot s fun x => { x with hold := false }
    let b := if x.state = .held then b.sltGo s (if x.prsnt then .faulted else .empty) else b
    b.sltHoldEnd s

/-- The slot leaves READY for HELD. -/
def Blk.sltToHeld (b : Blk) (s : Nat) : Blk := (b.sltGo s .held).sltHoldZero s

/-- READY (R308, R310): the token is compared, the new one stored, and held queues are released or stopped. -/
def Blk.sltReady (b : Blk) (s : Nat) (tok : Option Nat) : Blk :=
  let x := b.slot s
  let en := b.sltTokenEn s
  let same := match tok, x.token with
    | some t, some o => !en || t == o
    | _, _ => true
  let b := b.sltGo s .ready
  let b := b.modSlot s fun x => { x with
    inserts := incr 8 x.inserts, wasReady := true, hold := false, lostPresence := false
    token := match tok with | some t => if en then some t else x.token | none => x.token }
  let b := if same then b.releaseHeldBy s else b.stopAllWaiting s 0x24 (b.slotInfo s (x.token.getD 0) (tok.getD 0))
  b.movers.foldl (fun b (m, v) => v.places.foldl (fun b (k, _) => b.alignedCheck m k) b) b

/-- The end of SETTLE: the token is read, or the read is skipped (R308). -/
def Blk.sltToken (b : Blk) (s : Nat) : Blk :=
  match b.sltRange s with
  | some t =>
    if b.sltTokenEn s then
      let a := t.base + 8 * b.regF (0x05200 + 4 * s) 11 3
      (b.modSlot s fun x => { x with tokenRead := true }).sendRead a 8 0 0 (.token s)
    else b.sltReady s none
  | none => b.sltReady s none

/-- SETTLE_MS has elapsed and the slot's link is up. -/
def Blk.sltTrySettle (b : Blk) (s : Nat) : Blk :=
  let x := b.slot s
  if x.state = .settle && x.settled && b.sltLink s && !x.tokenRead then b.sltToken s else b

/-- A HELD slot whose presence was never lost has SLT_PG and its link again (Table 13-11). -/
def Blk.sltBack (b : Blk) (s : Nat) : Blk :=
  let x := b.slot s
  if x.state = .held && x.prsnt && !x.lostPresence && x.pg && b.sltLink s then b.sltGo s .settle else b

/-- The identity token read ends (R308): anything but clean data is a failure. -/
def Blk.sltTokenEnd (b : Blk) (s : Nat) (r : ReadResult) : Blk :=
  let x := b.slot s
  if b.clock.refLost then b.modSlot s fun x => { x with tokenEnd := some r }
  else if x.state ≠ .settle ∨ !x.tokenRead then b
  else match r with
    | .data bs => b.sltReady s (some (leAt bs 0 8))
    | _ => b.sltGo s .faulted

/-! ## Commands of the family; filters and timers use REFCLK (R306) -/

/-- SLOT_PRESENCE_SEEN (Table 13-11): presence seen in EMPTY with ON, again in HELD; a change during debounce restarts
it and counts in BOUNCE. -/
def slotPresenceSeenB (s : Nat) (b : Blk) : Blk :=
  let x := b.slot s
  if b.clock.refLost then b
  else
    let b := b.modSlot s fun x => { x with seenPresent := true }
    match x.state with
    | .empty => if b.sltOn s then b.sltGo s .debounce else b
    | .held => if x.lostPresence then b.sltGo s .debounce else b
    | .debounce => b.modSlot s fun x => { x with bounce := incr 8 x.bounce }
    | _ => b

/-- SLOT_PRESENCE_ACCEPTED: DEB_MS of stable presence. -/
def slotPresenceAcceptedB (s : Nat) (b : Blk) : Blk :=
  if b.clock.refLost then b
  else
    let b := b.modSlot s fun x => { x with prsnt := true, seenPresent := true }
    if (b.slot s).state = .debounce then b.sltGo s .ramp else b

/-- SLOT_ABSENCE_ACCEPTED: absence stable for 8 REFCLK cycles. -/
def slotAbsenceAcceptedB (s : Nat) (b : Blk) : Blk :=
  if b.clock.refLost then b
  else
    let x := b.slot s
    let b := b.modSlot s fun x => { x with prsnt := false, seenPresent := false, lostPresence := true }
    match x.state with
    | .debounce => b.sltGo s (if x.hold then .held else .empty)
    | .ready => b.sltToHeld s
    | .held => b.modSlot s fun x => { x with pwrEn := false }
    | .failedAtInsertion | .faulted => b.sltGo s .empty
    | _ => b

/-- SLOT_PG_ACCEPTED: SLT_PG accepted high. With SLT_PWR_EN low it is counted only (Table 13-10), and no register of the
spec holds such a count. An accepted SLT_PG shows that the fuse supplies, so SLT_FLT is low again (DESIGN CHOICE: assumption log 14). -/
def slotPgAcceptedB (s : Nat) (b : Blk) : Blk :=
  if b.clock.refLost then b
  else
    let b := b.modSlot s fun x => { x with pg := true, flt := false }
    match (b.slot s).state with
    | .ramp => b.sltGo s .settle
    | .held => b.sltBack s
    | _ => b

/-- SLOT_PG_LOST: SLT_PG accepted low. -/
def slotPgLostB (s : Nat) (b : Blk) : Blk :=
  if b.clock.refLost then b
  else
    let b := b.modSlot s fun x => { x with pg := false }
    match (b.slot s).state with
    | .settle => b.sltGo s .failedAtInsertion
    | .ready => b.sltToHeld s
    | _ => b

/-- SLOT_FAULT_INPUT: SLT_FLT accepted high. -/
def slotFaultInputB (s : Nat) (b : Blk) : Blk :=
  if b.clock.refLost then b
  else
    let b := b.modSlot s fun x => { x with flt := true }
    match (b.slot s).state with
    | .ramp | .settle => b.sltGo s .failedAtInsertion
    | .ready => b.sltToHeld s
    | _ => b

/-- SLOT_RAMP_TIMEOUT: RAMP_MS without SLT_PG. -/
def slotRampTimeoutB (s : Nat) (b : Blk) : Blk :=
  if !b.clock.refLost && decide ((b.slot s).state = .ramp) then b.sltGo s .failedAtInsertion else b

/-- SLOT_SETTLE_DONE: SETTLE_MS has elapsed. -/
def slotSettleDoneB (s : Nat) (b : Blk) : Blk :=
  if !b.clock.refLost && decide ((b.slot s).state = .settle) then
    (b.modSlot s fun x => { x with settled := true }).sltTrySettle s
  else b

/-- SLOT_SETTLE_LINK_TIMEOUT: the link is not up within SETTLE_MS + RAMP_MS. -/
def slotSettleLinkTimeoutB (s : Nat) (b : Blk) : Blk :=
  if !b.clock.refLost && decide ((b.slot s).state = .settle) && !b.sltLink s then b.sltGo s .faulted else b

/-- The identity-token read of a slot. -/
def isTokenRead (s : Nat) (u : Purpose) : Bool := match u with | .token s' => s' == s | _ => false

/-- SLOT_TOKEN_READ_DONE: the token read of the slot ends. -/
def slotTokenReadDoneB (s : Nat) (r : ReadResult) (b : Blk) : Blk :=
  match b.findRead (isTokenRead s) with
  | some (n, t, _) => (b.endRead n t (ReadResult.abandons r)).sltTokenEnd s r
  | none => b

/-- SLOT_DISCHARGE_DONE: DISCH_MS elapsed with SLT_VSNS low. -/
def slotDischargeDoneB (s : Nat) (b : Blk) : Blk :=
  if b.clock.refLost || (b.slot s).pwrEn then b
  else
    let b := b.modSlot s fun x => { x with vsns := false }
    if (b.slot s).state = .discharge then b.sltGo s .off else b

/-- PASS_DAMAGED: SLT_VSNS high for DISCH_MS while SLT_PWR_EN is low, in any state. -/
def passDamagedB (s : Nat) (b : Blk) : Blk :=
  if b.clock.refLost || (b.slot s).pwrEn then b
  else
    let b := b.modSlot s fun x => { x with vsns := true }
    if (b.slot s).state = .passDamaged then b else b.sltGo s .passDamaged

/-- SLOT_HOLD_EXPIRY: the hold of the slot has run for HOLD ms. -/
def slotHoldExpiryB (s : Nat) (b : Blk) : Blk := if b.clock.refLost then b else b.sltExpire s

/-- ON is written 0 or 1 (Table 13-11). -/
def Blk.sltOnWrite (b : Blk) (s : Nat) : Blk :=
  match (b.slot s).state with
  | .ready => if b.sltOn s then b else (b.sltGo s .discharge).sltHoldZero s
  | .empty => if b.sltOn s then b else b.sltGo s .off
  | .off => if b.sltOn s then b.sltGo s .empty else b
  | _ => b

/-- What SLT_CFG keeps of a word: ON, TOKEN_EN and HOLD (Table 13-12). -/
def sltStored (w : Nat) : Nat := bits w 30 29 * 2 ^ 29 + bits w 23 16 * 2 ^ 16

/-- A write of SLT_CFG with its ON bit (Table 13-11). -/
def Blk.sltCfgWrite (b : Blk) (s w : Nat) : Blk :=
  let b := b.setReg (0x05000 + 4 * s) (sltStored w)
  if b.clock.refLost then b.modSlot s fun x => { x with onWritten := true } else b.sltOnWrite s

/-- A write of SLT_SVC (Table 13-12): CLEAR and EXPIRE act in the states Table 13-11 gives them, and on no slot while REFCLK is
lost (R19). -/
def Blk.sltSvcWrite (b : Blk) (w : Nat) : Blk :=
  let s := bits w 4 0
  let x := b.slot s
  if b.clock.refLost then b
  else if bits w 15 8 = 1 then
    match x.state with
    | .failedAtInsertion | .faulted => b.sltGo s .empty
    | .passDamaged => if x.vsns then b else b.sltGo s .empty
    | _ => b
  else if bits w 15 8 = 2 && decide (x.state = .held) then b.sltExpire s
  else b

/-- The link of a slot comes up. -/
def Blk.sltLinkUp (b : Blk) (s : Nat) : Blk := if b.clock.refLost then b else (b.sltTrySettle s).sltBack s

/-- The link of a slot goes down: READY goes to HELD with SLT_PWR_EN kept high. -/
def Blk.sltLinkDown (b : Blk) (s : Nat) : Blk :=
  if !b.clock.refLost && decide ((b.slot s).state = .ready) then b.sltToHeld s else b

/-- A slot in EMPTY that sees a card and is ON debounces it, from the next REFCLK edge on (Table 13-11). -/
def Blk.sltSee (b : Blk) (s : Nat) : Blk :=
  let x := b.slot s
  if x.state = .empty && x.seenPresent && b.sltOn s then b.sltGo s .debounce else b

/-- REFCLK has returned: a slot takes up what came while it held its state (R19): the end of its token read, a write of ON, its
link (DEDUCED: assumption log 29). -/
def Blk.sltResume (b : Blk) (s : Nat) : Blk :=
  let x := b.slot s
  let b := if x.tokenEnd.isSome || x.onWritten then b.modSlot s fun x => { x with tokenEnd := none, onWritten := false } else b
  let b := match x.tokenEnd with | some r => b.sltTokenEnd s r | none => b
  let b := if x.onWritten then b.sltOnWrite s else b
  if b.sltLink s then b.sltLinkUp s else b.sltLinkDown s

/-- SLT_STAT (Table 13-12). -/
def Slot.stat (x : Slot) : Nat :=
  fld x.state.code 28 4 + fld (b1 x.prsnt) 27 1 + fld (b1 x.pg) 26 1 + fld (b1 x.flt) 25 1 + fld (b1 x.vsns) 24 1
    + fld x.inserts 16 8 + fld x.bounce 8 8 + min 255 x.held.length

end Sys2Proof.Machine
end

