-- ==== Sys2Proof/Machine/Fault.lean ====
section
/-! DEFINITION. Lost and unconfirmed writes (R93, R305, Table 13-9), the decision ring (R319, R320), and what the return of
a write token does to what the write carried (R304). -/

namespace Sys2Proof.Machine
open Sys2Proof

/-! ## The decision ring (R319, R320) -/

/-- SIZE of the decision ring, in records. -/
def Blk.decSize (b : Blk) : Nat := 2 ^ b.regF 0x14014 4 0

/-- BASE of the decision ring. -/
def Blk.decBase (b : Blk) : Nat := b.reg 0x1400C / 64 * 64 + 2 ^ 32 * b.reg 0x14010

/-- DOM of the decision ring. -/
def Blk.decDom (b : Blk) : Nat := b.regF 0x14014 23 16

/-- Change the decision ring. -/
def Blk.modDec (b : Blk) (f : DecRing → DecRing) : Blk := { b with sup := { b.sup with dec := f b.sup.dec } }

/-- A decision record is lost (R320). -/
def Blk.decLose (b : Blk) : Blk :=
  let first := !b.sup.dec.runOpen
  let b := b.modDec fun x => { x with lost := incr 8 x.lost, runLost := incr 32 x.runLost, runOpen := true }
  if first then b.raise 1 9 else b

/-- Room for a record in the decision ring (R320). -/
def Blk.decRoom (b : Blk) : Bool :=
  let n := b.decSize
  let r := posOf (b.reg 0x14018) n
  decide ((b.sup.dec.wpos + 2 * n - r % (2 * n)) % (2 * n) < n)

/-- Write one decision record (Table 14-2). -/
def Blk.decPut (b : Blk) (kind cause obj old new metric bound : Nat) : Blk :=
  let n := b.decSize
  let w := b.sup.dec.wpos
  let bs := leBytes 1 kind ++ leBytes 1 (lapOf w n) ++ leBytes 1 cause ++ leBytes 1 0 ++ leBytes 4 obj ++ leBytes 4 old
    ++ leBytes 4 new ++ leBytes 8 b.now ++ leBytes 4 b.sup.dec.dseq ++ leBytes 4 metric ++ leBytes 4 bound ++ leBytes 28 0
  let a := b.decBase + 64 * (w % n)
  (b.modDec fun x => { x with wpos := (w + 1) % (2 * n) }).sendWrite a bs b.decDom 0 .decision false

/-- Borage takes a decision: it counts, and its record is written or lost (R318-R320). -/
def Blk.decision (b : Blk) (kind cause obj old new metric bound : Nat) : Blk :=
  let b := b.modDec fun x => { x with decisions := incr 16 x.decisions }
  if !bit (b.reg 0x14014) 31 then b
  else
    let b := b.modDec fun x => { x with dseq := incr 32 x.dseq }
    if 0 < b.sup.dec.zeroLeft || !b.decRoom then b.decLose
    else
      let b := if b.sup.dec.runOpen then
          (b.decPut 0x0F 0 0 b.sup.dec.runLost 0 0 0).modDec fun x => { x with runOpen := false, runLost := 0 }
        else b
      if b.decRoom then b.decPut kind cause obj old new metric bound else b.decLose

/-! ## Lost data writes (R305) -/

/-- INFO of WRITE_LOST (Table 13-2). -/
def Blk.lostInfo (b : Blk) (port path tok addr len : Nat) (cov : Bool) : List Byte :=
  let link := match b.rangeOf addr with | some (_, t) => linkOf t | none => 0
  infoOf [(0, 4, fld port 0 3 + fld path 4 4 + fld link 8 6 + fld tok 16 12 + fld (b1 cov) 28 1), (4, 8, addr), (12, 2, len)]

/-- FIRST of the entry at a position, as far as the block still knows it. -/
def Blk.firstAt (b : Blk) (q : QRef) (p : Nat) : Option Bool :=
  let x := b.queue q
  match x.unpub.find? fun r => r.pos == p with
  | some r => some r.first
  | none => match (b.execsOf q).find? fun e => e.pos == p with
    | some e => some e.desc.first
    | none => (x.copyAt p).map fun c => (decodeDesc c).first

/-- The position of FIRST of the chain that holds a position. -/
def Blk.chainFirstOf (b : Blk) (q : QRef) : Nat → Nat → Nat
  | 0, p => p
  | fuel + 1, p =>
    let x := b.queue q
    match b.firstAt q p with
    | some false => if p = x.run.head then p else Blk.chainFirstOf b q fuel ((p + x.span - 1) % x.span)
    | _ => p

/-- Every entry from `first` to the last one started is repeatable (R305). -/
def Blk.chainRepeatable (b : Blk) (q : QRef) (first : Nat) : Bool :=
  let x := b.queue q
  let after := fun p => decide (x.dist first x.run.head ≤ x.dist p x.run.head)
  (x.unpub.all fun r => !(after r.pos) || !r.norep) && ((b.execsOf q).all fun e => !(after e.pos) || !b.entryNorep e)
    && !(x.run.pauseMark && after x.run.mark.pos && x.pausedNorep)

/-- Output bytes of an entry that has run to its end. -/
def ranBytes (d : Desc) : Nat :=
  if d.checks || d.kind = kWait || d.kind = kNop || d.kind = kFence then 0 else outLen d.reshape d.len

/-- The publication in progress stops short of `first`: entries from there are no longer retired, a completion word that
still waits for them is withdrawn (R305). -/
def Blk.cutPub (b : Blk) (q : QRef) (first : Nat) : Blk :=
  let x := b.queue q
  let keep := x.unpub.takeWhile fun r => r.pos != first
  let beyond := fun (t : Nat) => decide (x.dist first x.run.head < x.dist t x.run.head)
  let isWord := fun (k : Pkt) => match k.purpose with | .word q' t => q' == q && beyond t | _ => false
  let n := b.ports.foldl (fun n (_, v) => n + (v.wait.filter isWord).length) 0
  let b := { b with ports := tabMap {} (fun _ v => { v with wait := v.wait.filter fun k => !isWord k }) b.ports }
  b.modQueue q fun x =>
    let y := { x with unpub := keep, words := x.words - n }
    let re := fun (t : Nat) (f : Nat → PubStage) => if beyond t then (match y.chainEnd with | some e => f e | none => .none) else f t
    { y with pub := match y.pub with
        | .none => .none
        | .mark t => re t .mark
        | .flushing t k => re t fun e => .flushing e k
        | .flipping t k => re t fun e => .flipping e k
        | .word t => re t .word }

/-- The head position that a presented, not yet accepted completion word of the queue will publish. -/
def Blk.wordPresented (b : Blk) (q : QRef) : Option Nat :=
  b.ports.findSome? fun (_, v) => v.pres.findSome? fun k => match k.purpose with
    | .word q' t => if q' = q then some t else none
    | _ => none

/-- Withdraw every completion word of the queue that waits to be granted. -/
def Blk.dropWordWait (b : Blk) (q : QRef) : Blk :=
  let isWord := fun (k : Pkt) => match k.purpose with | .word q' _ => q' == q | _ => false
  let n := b.ports.foldl (fun n (_, v) => n + (v.wait.filter isWord).length) 0
  let b := { b with ports := tabMap {} (fun _ v => { v with wait := v.wait.filter fun k => !isWord k }) b.ports }
  b.modQueue q fun x => { x with words := x.words - n, pub := .none }

/-- A lost write covered by a publication: the queue halts at its stop point and the head index stays (R305). A word
already presented covers what it will publish. DEDUCED: assumption log 13. -/
def Blk.lostCovered (b : Blk) (q : QRef) (r : Report) : Blk :=
  let wt := b.wordPresented q
  let b := (b.haltWith q r).dropWordWait q
  let b := b.modQueue q fun x => { x with
    afterCovered := true
    unpub := match wt with
      | some t => x.unpub.filter fun y => decide (x.dist y.pos x.run.head < x.dist t x.run.head)
      | none => [] }
  (b.stopExec q).pumpQ q

/-- A lost write whose chain may run again: the binding stops at its stop point, the resume point becomes the chain's
FIRST (R305). -/
def Blk.lostAgain (b : Blk) (q : QRef) (first : Nat) : Blk :=
  let x := b.queue q
  let gone := x.unpub.dropWhile fun r => r.pos != first
  let n := gone.foldl (fun n r => n + (match x.copyAt r.pos with | some c => ranBytes (decodeDesc c) | none => 0)) 0
  let b := { b with movp := { b.movp with repeated := (b.movp.repeated + n) % 2 ^ 32 } }
  let b := (b.cutPub q first).modQueue q fun x => { x with lostWrite := some first }
  (b.stopExec q).pumpQ q

/-- A lost write that may not be repeated: the queue halts with the head at the chain's FIRST (R305). -/
def Blk.lostHalt (b : Blk) (q : QRef) (first : Nat) (r : Report) : Blk :=
  let b := (b.haltWith q r).cutPub q first
  match b.boundAt q with
  | some (m, k) =>
    let b := match ((b.binding m k).map (·.exec)).getD [] with
      | e :: _ => b.failEntry m k e.pos 0x22 []
      | [] => b.modBinding m k fun x => { x with lbuf := [], plans := [] }
    b.pump m k
  | none => (b.modRun q fun r => { r with pauseMark := false }).settleCheck q

/-- A data write of the queue at `pos` is lost or unconfirmed (R305). In STOPPED the queue stays STOPPED (Table 5-7) and
its record is written at once; `known` is the COOKIE the write carries. DEDUCED: assumption log 13. -/
def Blk.lostData (b : Blk) (q : QRef) (pos known : Nat) (info : Bool → List Byte) : Blk :=
  let x := b.queue q
  let ended := match x.run.phase with | .free | .halted | .lost | .destroying => true | _ => false
  if ended || x.report.isSome then b
  else
    let word := match b.wordPresented q with
      | some t => decide (x.dist pos x.run.head < x.dist t x.run.head)
      | none => false
    let covered := decide (x.size ≤ x.dist pos x.run.head) || word
    let cookie := match x.copyAt pos with | some c => (decodeDesc c).cookie | none => known
    let r := haltReport 0x22 pos cookie 0 0 (info covered)
    let rest := match x.run.phase with | .stopped | .spilling | .spilled | .refilling => true | _ => false
    if covered then (if rest then b.genRecord x.cfg.dom q r else b.lostCovered q r)
    else
      let f := b.chainFirstOf q x.size pos
      let first := match x.lostWrite with
        | some g => if x.dist g x.run.head < x.dist f x.run.head then g else f
        | none => f
      if b.chainRepeatable q first then b.lostAgain q first
      else if rest then (b.genRecord x.cfg.dom q r).lostAgain q first
      else b.lostHalt q first r

/-- A flush read of a queue ended without confirming its writes (R93): they count as lost, from the earliest unpublished
entry on. The token and length of the lost write come from a token still held on the pair; where none is held the spec
states no value for them (assumption log 6). -/
def Blk.lostFlush (b : Blk) (q : QRef) (port : Nat) (t : TagRec) : Blk :=
  let x := b.queue q
  let pos := match x.unpub with
    | r :: _ => r.pos
    | [] => match b.execsOf q with
      | e :: _ => e.pos
      | [] => if x.run.pauseMark then x.run.mark.pos else x.run.head
  let held := (b.port port).toks.find? fun r => r.pkt.path == t.path && (match r.pkt.purpose with
    | .dataTo _ _ _ _ q' => q' == q
    | _ => false)
  match held with
  | some r => b.lostData q pos r.pkt.cookie (b.lostInfo port t.path r.tok r.pkt.addr r.pkt.len)
  | none =>
    let (n, b) := b.fresh
    let (n', b) := b.fresh
    b.lostData q pos 0 (b.lostInfo port t.path (Config.freeNat n % 4096) t.addr (Config.freeNat n' % 65536))

/-! ## Lost writes of the block's own (Table 13-9) -/

/-- Present a lost write once more on its current route. -/
def Blk.again (b : Blk) (k : Pkt) : Blk := b.sendWrite k.addr k.data k.dom k.ask k.purpose true

/-- A completion word is lost (R94): it is written again with the head index current now. -/
def Blk.lostWord (b : Blk) (q : QRef) (target : Nat) : Blk :=
  let x := b.queue q
  let ended := match x.run.phase with | .free | .lost | .destroying => true | _ => false
  let halting := match x.report with | some r => r.status == 0x22 | none => false
  let halted := decide (x.run.phase = .halted) && x.run.lastStatus == 0x22
  if ended || halting || halted then b
  else
    let b := if x.mod.irqWords.contains target then
        b.modQueue q fun x => { x with mod := { x.mod with resend := true, irqWords := x.mod.irqWords.filter (· != target) } }
      else b
    let stage := x.pub
    (b.presentWord q (b.queue q).run.head).modQueue q fun x => { x with pub := stage }

/-- The spill of a queue is abandoned (Table 5-7). -/
def Blk.spillLost (b : Blk) (q : QRef) : Blk :=
  if (b.queue q).run.phase = .spilling then
    let isT := fun (k : Pkt) => match k.purpose with | .spill q' _ => q' == q | _ => false
    let b := { b with ports := tabMap {} (fun _ v => { v with wait := v.wait.filter fun k => !isT k }) b.ports }
    (b.modRun q fun r => { r with phase := .idle, polling := true }).reStop q
  else b

/-- A write is reported lost, or its token is given up (R304, R305, Table 13-9). -/
def Blk.lostPkt (b : Blk) (port : Nat) (k : Pkt) : Blk :=
  let info := b.lostInfo port k.path k.tok k.addr k.len
  match k.purpose with
  | .dataTo _ pos _ _ q | .check _ pos q | .record _ pos _ q => b.lostData q pos k.cookie info
  | .word q t => b.lostWord q t
  | .firstWord _ | .decisionZero => b.again k
  | .flip q pos => if k.second then b.lostData q pos k.cookie info else b.again k
  | .spill q _ => b.spillLost q
  | .event d =>
    if k.second then b.loseRecord d (leAt k.data 0x20 4) (leAt k.data 2 1) (leAt k.data 0 1) else b.again k
  | .ringZero d =>
    let mine := fun (j : AdminJob) => decide (j.wait = .zeroes) && j.dom == d
    if k.second then
      match b.sched.jobs.find? mine with
      | some j => b.complete j.ring j.cmd 0x22 0x12 0 false 0 0
      | none => b
    else
      let up := fun (j : AdminJob) => if mine j then { j with left := j.left + 1 } else j
      (b.modSched fun s => { s with jobs := s.jobs.map up }).again k
  | .message _ _ => if k.second then b.dropMsg else b.again k
  | .adminCpl d | .adminWord d =>
    if k.second then (b.modDomain d fun x => { x with lostCpl := true, cplPkt := some k }).raise 0 10
    else (b.modDomain d fun x => { x with cplPkt := x.cplPkt.map fun y => { y with second := true } }).again k
  | .decision => if k.second then b.decLose else b.again k
  | _ => b

/-- A write's token returns as delivered: a completion word is settled. -/
def Blk.settledPkt (b : Blk) (k : Pkt) : Blk :=
  match k.purpose with
  | .word q t => b.modQueue q fun x => { x with mod := { x.mod with irqWords := x.mod.irqWords.filter (· != t) } }
  | _ => b

end Sys2Proof.Machine
end

