-- ==== Sys2Proof/Machine/Reads.lean ====
section
/-! DEFINITION. How every read of the block ends (R93, R97, R130, R133, R134, R287, R300): its purpose says what follows. -/

namespace Sys2Proof.Machine
open Sys2Proof

/-- Why a read was abandoned (R130, R300). -/
inductive Abandon where
  | timeout     -- READ_TIMEOUT, or a completion with an error (R338)
  | link | port
  deriving DecidableEq, Repr

/-- Status of an entry whose read was abandoned and not retried (R300). -/
def Abandon.status : Abandon → Nat
  | .timeout => 0x20
  | .link => 0x21
  | .port => 0x26

/-- PATHS of a port (Table 9-5). -/
def Blk.dptPaths (b : Blk) (p : Nat) : Nat := b.regF (0x12300 + 4 * p) 31 16

/-- The retry path of a port: the lowest-numbered path other than the failed one (R300). -/
def Blk.retryPath (b : Blk) (p failed : Nat) : Option Nat :=
  firstFrom (fun i => bit (b.dptPaths p) i && i != failed) 16 0

/-- The source bytes of a read are repeatable (R7, R300). -/
def Blk.readRepeatable (b : Blk) (e : Exec) (r : RdReq) : Bool :=
  let range := match b.rangeOf r.addr with | some (_, t) => t.norep | none => false
  let frag := !r.isList && e.frags.any fun f => f.norep && decide (f.src ≤ r.addr) && decide (r.addr < f.src + f.len)
  !range && (r.isList || (!e.desc.norepSrc && !frag))

/-- INFO of READ_TIMEOUT, LINK_LOST and PORT_LOST (Table 13-2). -/
def Blk.readInfo (b : Blk) (port path addr len : Nat) (retried : Bool) : List Byte :=
  let link := match b.rangeOf addr with | some (_, t) => linkOf t | none => 0
  infoOf [(0, 4, fld port 0 3 + fld path 4 4 + fld link 8 6 + fld (b1 retried) 16 1), (4, 8, addr), (12, 2, len)]

/-- The entry of a binding, in execution or holding a plan, at a position. -/
def Binding.entryAt (x : Binding) (pos : Nat) : Option (Exec × Bool) :=
  match x.exec.find? fun e => e.pos = pos with
  | some e => some (e, true)
  | none => (x.plans.find? fun e => e.pos = pos).map fun e => (e, false)

/-- An entry fails: one in execution halts its queue, one that only holds a plan fails when it is executed. -/
def Blk.readFail (b : Blk) (m k : Nat) (pos : Nat) (inExec : Bool) (status : Nat) (info : List Byte) : Blk :=
  if inExec then b.failEntry m k pos status info
  else b.modExec m k pos fun e => { e with bad := some (status, info) }

/-- The read number `seq` of an entry. -/
def Exec.readAt (e : Exec) (seq : Nat) : Option RdReq := e.reads.find? fun r => r.seq == seq

/-- Change the read number `seq` of an entry. -/
def Blk.modRead (b : Blk) (m k pos seq : Nat) (f : RdReq → RdReq) : Blk :=
  b.modExec m k pos fun e => { e with reads := e.reads.map fun r => if r.seq = seq then f r else r }

/-- Present a read of an entry once more, on port `p` and path `path` (R287, R300). -/
def Blk.readAgain (b : Blk) (m k : Nat) (q : QRef) (e : Exec) (r : RdReq) (p path : Nat) (crc : Bool) : Blk :=
  let b := b.modRead m k e.pos r.seq fun r =>
    { r with port := p, path := path, retried := r.retried || !crc, reread := r.reread || crc }
  let pk : Pkt := { pkt0 with addr := r.addr, len := r.len, dom := (b.queue q).cfg.dom, path := path, ask := e.desc.path,
                              svc := b.svcAt q (if r.isList then 0 else e.srcIss), mover := some m,
                              purpose := .data m e.pos r.seq q }
  b.present p pk

/-- Change the statistics of a (port, path) pair. -/
def Blk.modPath (b : Blk) (p path : Nat) (f : PathStat → PathStat) : Blk :=
  b.modPort p fun v => { v with paths := tabSet {} v.paths path (f (tabGet {} v.paths path)) }

/-- A data read has been abandoned (R300): it is retried once, or its entry stops with the cause. -/
def Blk.dataAbandoned (b : Blk) (port : Nat) (t : TagRec) (pos seq : Nat) (q : QRef) (why : Abandon) : Blk :=
  match b.boundAt q with
  | none => b
  | some (m, k) =>
    match (b.binding m k).bind fun x => x.entryAt pos with
    | none => b
    | some (e, inExec) =>
      match e.readAt seq with
      | none => b
      | some r =>
        if e.dead then (b.modRead m k pos seq fun r => { r with done := true }).pump m k
        else
          let fail := (b.readFail m k pos inExec why.status (b.readInfo port t.path r.addr r.len r.retried)).pump m k
          if r.retried || !b.readRepeatable e r then fail
          else
            let count := fun (b : Blk) => (b.modCnt port fun c => { c with retries := incr 8 c.retries }).modPath port t.path fun s =>
              { s with epRetries := s.epRetries + 1 }
            match why with
            | .timeout => match b.retryPath port t.path with
              | some path => (count b).readAgain m k q e r port path false
              | none => fail
            | _ => match b.slotVerdict r.addr with
              | some v => if inExec then (b.slotAct m k pos v).pump m k else fail
              | none => match b.routeOf q r.addr e.desc.path with
                | some (p, path, _) => (count b).readAgain m k q e r p path false
                | none => fail

/-- A data read is complete: its bytes are kept for the read lane and counted (R133). -/
def Blk.dataDone (b : Blk) (port : Nat) (t : TagRec) (pos seq : Nat) (q : QRef) : Blk :=
  let b := b.modPort port fun v => { v with bytesRd := (v.bytesRd + t.len) % 2 ^ 72 }
  match b.boundAt q with
  | none => b
  | some (m, k) =>
    let b := (b.modMover m fun v => { v with bytesRd := (v.bytesRd + t.len) % 2 ^ 72 }).countTiles q (tilesOf t.addr t.len) 0
    (b.modRead m k pos seq fun r => { r with done := true, got := tileRelease t.addr t.len t.got }).pump m k

/-- A flush read for a publication ends (R93): the last one lets the flips and the word follow; one that fails leaves its
writes unconfirmed. -/
def Blk.flushEnd (b : Blk) (q : QRef) (port : Nat) (t : TagRec) (ok : Bool) : Blk :=
  if !ok then
    let b := b.modQueue q fun x => { x with pub := match x.pub with | .flushing _ _ => .none | y => y }
    b.lostFlush q port t
  else match (b.queue q).pub with
    | .flushing target n =>
      if n ≤ 1 then (b.publishFlips q target).pumpQ q
      else b.modQueue q fun x => { x with pub := .flushing target (n - 1) }
    | _ => b

/-- A flush read of FENCE, PAUSE or the PAIRS limit ends (R85, R147, R245). -/
def Blk.fenceEnd (b : Blk) (q : QRef) (port : Nat) (t : TagRec) (ok : Bool) : Blk :=
  match b.boundAt q with
  | some (m, k) =>
    let b := b.modBinding m k fun x => { x with flushOut := x.flushOut - 1 }
    let b := if ok then b.forgetPairs q (fun y => y.port == port && y.path == t.path && y.lastAddr / 4 * 4 == t.addr)
      else b.lostFlush q port t
    (b.pump m k).pauseSettled q
  | none => if ok then b else b.lostFlush q port t

/-- A failover flush read ends (R292): it settles, or leaves unconfirmed, what the failed mover wrote on its pair. -/
def Blk.foverEnd (b : Blk) (m port : Nat) (t : TagRec) (ok : Bool) : Blk :=
  let b := b.modMover m fun v => { v with flushWait := v.flushWait.erase (port, t.path) }
  let qs := (b.sched.fovers.filter fun f => f.mover == m).map (·.q)
  qs.foldl (fun b q =>
    let has := (b.queue q).flush.any fun y => y.port == port && y.path == t.path
    if !has then b
    else if ok then b.forgetPairs q fun y => y.port == port && y.path == t.path
    else b.lostFlush q port t) b

/-- The flush read in front of a message ends (R279): the message is presented; a write left unconfirmed is handled as
lost, and its message follows the rewrite. -/
def Blk.msgFlushEnd (b : Blk) (id port : Nat) (ok : Bool) : Blk :=
  match b.sched.msgWait.find? fun w => w.id == id with
  | none => b
  | some w =>
    let b := b.modSched fun s => { s with msgWait := s.msgWait.filter fun w => w.id != id }
    if ok then b.postMsg w.v w.dom false
    else match w.pkt.purpose with
      | .word q t =>
        (b.modQueue q fun x => { x with mod := { x.mod with irqWords := addOnce t x.mod.irqWords } }).lostPkt port w.pkt
      | _ => if w.pkt.second then b.dropMsg else (b.lostPkt port w.pkt).postMsg w.v w.dom false

/-- A flush read that settles an admin completion entry ends (R104): the admin word follows; a failed one leaves the entry
to be handled as lost. -/
def Blk.adminFlushEnd (b : Blk) (d port : Nat) (ok : Bool) : Blk :=
  if ok then b.putAdminWord d
  else match (b.domain d).cplPkt with
    | some k => b.lostPkt port k
    | none => b

/-- The result of a read as its completions left it. -/
def TagRec.result (t : TagRec) : ReadResult :=
  let bs := (List.range t.len).map fun i => ((gotByte t.got i).map (·.1)).getD 0
  if t.got.any fun (_, _, p) => p then .poison bs else .data bs

/-- A read's data have arrived: its round trip counts in the epoch's figures of its path (Table 14-1). -/
def Blk.noteRtt (b : Blk) (port : Nat) (t : TagRec) : Blk :=
  b.modPath port t.path fun s => { s with epRtt := s.epRtt + (b.clock.cycle - t.since), epReads := s.epReads + 1 }

/-- What a read that has ended leads to; its tag has been freed. `why` says how an abandoned one was lost. -/
def Blk.readEnd (b : Blk) (port : Nat) (t : TagRec) (r : ReadResult) (why : Abandon) : Blk :=
  let ok := match r with | .data _ => true | _ => false
  let arrived := match r with | .data _ | .poison _ => true | _ => false
  let b := if arrived then b.noteRtt port t else b
  match t.purpose with
  | .data _ pos seq q => if arrived then b.dataDone port t pos seq q else b.dataAbandoned port t pos seq q why
  | .target _ pos i q =>
    let b := if arrived then (b.modPort port fun v => { v with bytesRd := (v.bytesRd + t.len) % 2 ^ 72 }).countTiles q (tilesOf t.addr t.len) 0
      else b
    let r := match why, r with | .timeout, r => r | _, .timeout => .error | _, r => r
    b.targetEnd pos i q r t why.status
  | .ring q p => b.ringReadDone q p r
  | .flush q => b.flushEnd q port t ok
  | .fence _ q => b.fenceEnd q port t ok
  | .failover m => b.foverEnd m port t ok
  | .msgFlush id => b.msgFlushEnd id port ok
  | .probe i => b.probeEnd i t ok
  | .refill q => (b.refillEnd q r).jobsCheck
  | .mailbox p => b.mbxBackEnd p r
  | .admin d => b.adminReadEnd d r
  | .adminFlush d => b.adminFlushEnd d port ok
  | .token s => b.sltTokenEnd s r
  | _ => b

/-- Free the tag of a read and let its end take effect. -/
def Blk.finishRead (b : Blk) (port tag : Nat) (r : ReadResult) (why : Abandon) : Blk :=
  let t : TagRec := tabGet {} (b.port port).tags tag
  (b.endRead port tag (ReadResult.abandons r)).readEnd port t r why

/-- A tag's request is outstanding: granted, and neither waiting at an arbiter, in a launch gate nor held in a plan. -/
def Blk.tagOut (b : Blk) (port tag : Nat) : Bool :=
  let v := b.port port
  let t : TagRec := tabGet {} v.tags tag
  let gated := b.movers.any fun (_, x) => x.places.any fun (_, y) => (y.exec ++ y.plans).any fun e =>
    (match e.gate with | some (p, some k) => p == port && k.tag == tag | _ => false)
      || (match e.plan with
          | some pl => pl.targets.any fun z => match z.held with | some (p, k) => p == port && !k.isWrite && k.tag == tag | none => false
          | none => false)
  t.inUse && !(v.wait.any fun k => k.tagged && k.tag == tag) && !gated

/-- The outstanding tags of a port. -/
def Blk.tagsOut (b : Blk) (port : Nat) : List Nat :=
  ((b.port port).tags.map (·.1)).filter (b.tagOut port)

/-- RING_TILE_ARRIVAL (R89): a ring read ends; its tag and generation name it. -/
def ringTileArrivalB (port tag gen : Nat) (r : ReadResult) (b : Blk) : Blk :=
  let t : TagRec := tabGet {} (b.port port).tags tag
  match t.purpose with
  | .ring _ _ => if b.tagOut port tag && t.gen == gen then b.finishRead port tag r .timeout else b
  | _ => b

/-- FLUSH_READ_COMPLETION (R93): a zero-length read ends. -/
def flushReadCompletionB (port tag gen : Nat) (r : ReadResult) (b : Blk) : Blk :=
  let t : TagRec := tabGet {} (b.port port).tags tag
  if b.tagOut port tag && t.gen == gen && t.len == 0 then b.finishRead port tag r .timeout else b

/-- The refill read of a queue. -/
def isRefillRead (q : QRef) (u : Purpose) : Bool := match u with | .refill q' => q' == q | _ => false

/-- The command read of a domain's admin ring. -/
def isAdminRead (d : Nat) (u : Purpose) : Bool := match u with | .admin d' => d' == d | _ => false

/-- REFILL_DONE (R97, R98): the refill read of the queue ends. -/
def refillDoneB (q : QRef) (r : ReadResult) (b : Blk) : Blk :=
  match b.findRead (isRefillRead q) with
  | some (n, t, _) => b.finishRead n t r .timeout
  | none => b

/-- ADMIN_RING_READ_DONE (R102): the command read of the domain's ring ends. -/
def adminRingReadDoneB (d : Nat) (r : ReadResult) (b : Blk) : Blk :=
  match b.findRead (isAdminRead d) with
  | some (n, t, _) => b.finishRead n t r .timeout
  | none => b

/-- SPILL_DONE (R97). -/
def spillDoneB (q : QRef) (b : Blk) : Blk := (b.spillEnd q).jobsCheck

/-- READ_TIMEOUT_SWEEP (R134): the overdue requests of a port are abandoned. -/
def readTimeoutSweepB (port : Nat) (overdue : List Nat) (b : Blk) : Blk :=
  overdue.foldl (fun b t => if b.tagOut port t then b.finishRead port t .timeout .timeout else b) b

/-- TAG_REJOIN (R130): an abandoned tag rejoins the free list. -/
def tagRejoinB (port tag : Nat) (b : Blk) : Blk :=
  b.modPort port fun v =>
    let t : TagRec := tabGet {} v.tags tag
    { v with tags := tabSet {} v.tags tag { t with withheld := false } }

end Sys2Proof.Machine
end

