-- ==== Sys2Proof/Machine/Failover.lean ====
section
/-! DEFINITION. Mover failures, takeover and resume (R151, R291-R297), ports stuck and lost (R302, R303), links (R299, R342)
and Square halves (R288). -/

namespace Sys2Proof.Machine
open Sys2Proof

/-! ## Declaring a mover failed (R291, R292) -/

/-- The packet is a write of an entry of the queue. -/
def isWriteOf (q : QRef) (k : Pkt) : Bool :=
  k.isWrite && (match k.purpose with
    | .dataTo _ _ _ _ q' | .check _ _ q' | .record _ _ _ q' => q' == q
    | _ => false)

/-- The packet is a data read of an entry of the queue. -/
def isAnyReadOf (q : QRef) (u : Purpose) : Bool :=
  match u with
  | .data _ _ _ q' | .target _ _ _ q' => q' == q
  | _ => false

/-- The pairs a mover has written for a queue since its last publication. -/
def Blk.pairsWritten (b : Blk) (m k : Nat) : List Pair :=
  match b.binding m k with
  | some x => addPairs (b.queue x.q).flush ((x.exec ++ x.plans).flatMap (·.pairs))
  | none => []

/-- Issue the failover flush reads of a mover: one for each (port, path) its active bindings have written (R292). -/
def Blk.failFlush (b : Blk) (m : Nat) : Blk :=
  let ps := ((b.mover m).places.filter fun (_, x) => !x.shadow).flatMap fun (k, x) =>
    (b.pairsWritten m k).map fun p => (p, (b.queue x.q).cfg.dom)
  let one := ps.foldl (fun (l : List (Pair × Nat)) p =>
    l.filter (fun y => y.1.port != p.1.port || y.1.path != p.1.path) ++ [p]) []
  one.foldl (fun b (p, d) =>
    (b.modMover m fun v => { v with flushWait := v.flushWait ++ [(p.port, p.path)] }).sendFlush p.port p.path p.lastAddr d
      (.failover m)) b

/-- Mover `m` named in a purpose becomes `m'`. -/
def Purpose.rebind (m m' : Nat) (q : QRef) : Purpose → Purpose
  | .data n p s q' => .data (if n = m ∧ q' = q then m' else n) p s q'
  | .dataTo n p d o q' => .dataTo (if n = m ∧ q' = q then m' else n) p d o q'
  | .check n p q' => .check (if n = m ∧ q' = q then m' else n) p q'
  | .record n p o q' => .record (if n = m ∧ q' = q then m' else n) p o q'
  | .target n p i q' => .target (if n = m ∧ q' = q then m' else n) p i q'
  | .fence n q' => .fence (if n = m ∧ q' = q then m' else n) q'
  | u => u

/-- The writes of a queue that mover `m` has presented to the arbiters and no port has accepted yet, with their ports. -/
def Blk.writesOf (b : Blk) (m : Nat) (q : QRef) : List (Nat × Pkt) :=
  b.ports.flatMap fun (p, v) => (v.pres ++ v.wait).filterMap fun k => if isWriteOf q k && k.mover == some m then some (p, k) else none

/-- The shadow of a duplex queue takes in what the active mover, the Square and the ports send it (R150): the entries and tiles
of its lanes, the ends of flush reads, and the records of the writes with the tiles it holds until they are accepted. -/
def Blk.mirror (b : Blk) (m' k' : Nat) (q : QRef) : Blk :=
  match b.boundAt q with
  | some (m, k) => match b.binding m k with
    | some x =>
      let recs := b.writesOf m q
      b.modBinding m' k' fun y => { y with
        lbuf := x.lbuf, exec := x.exec, plans := x.plans, flushOut := x.flushOut, recs := recs }
    | none => b
  | none => b

/-- Every live shadow takes in what was sent to it (R150): at the latest 4 MCLK cycles after it was. -/
def Blk.mirrorAll (b : Blk) : Blk :=
  b.movers.foldl (fun b (m, v) => v.places.foldl (fun b (k, x) => if x.shadow then b.mirror m k x.q else b) b) b

/-- The shadow of a duplex queue takes over (R151, R292), from what it holds once everything sent to it has arrived: each port
cancels the failed mover's writes it has not presented, which the shadow presents anew; reads outstanding end at the shadow.
A released aligned group presents the rest of its requests at once, as SLIPPED (R191). -/
def Blk.takeover (b : Blk) (m k m' k' : Nat) (q : QRef) : Blk :=
  let b := b.mirror m' k' q
  let recs := ((b.binding m' k').map (·.recs)).getD []
  let late := fun (e : Exec) => { e with plan := e.plan.map fun pl =>
    if pl.release.isSome then { pl with targets := pl.targets.map fun t =>
      if t.done || t.launched.isSome then t else { t with cycle := 0, qual := max 3 t.qual } } else pl }
  let pk := fun (p : Pkt) =>
    let p := { p with purpose := p.purpose.rebind m m' q }
    if (isWriteOf q p || isAnyReadOf q p.purpose) && p.mover == some m then { p with mover := some m' } else p
  let held := fun (e : Exec) => { e with
    gate := e.gate.map fun (p, y) => (p, y.map pk)
    plan := e.plan.map fun pl => { pl with targets := pl.targets.map fun t => { t with held := t.held.map fun (p, y) => (p, pk y) } } }
  let b := b.setBinding m k none
  let b := b.modBinding m' k' fun y => { y with
    shadow := false, recs := [], exec := y.exec.map fun e => held (late e), plans := y.plans.map held }
  let waits := fun (p : Nat) (w : Pkt) => (b.port p).wait.any fun y => y.order == w.order
  let again := recs.filter fun (p, w) => waits p w
  let tok := fun (t : TokRec) => { t with pkt := pk t.pkt }
  let tag := fun (_ : Nat) (t : TagRec) => { t with purpose := t.purpose.rebind m m' q }
  let gt := fun (g : Nat × Nat) => if g = (m, k) then (m', k') else g
  let up := fun (_ : Nat) (v : Port) =>
    { v with wait := (v.wait.filter fun w => !(isWriteOf q w && w.mover == some m)).map pk, pres := v.pres.map pk, toks := v.toks.map tok, tags := tabMap {} tag v.tags, gate := v.gate.map gt }
  let b := { b with ports := tabMap {} up b.ports }
  let wt := fun (w : Waiter) => if w.q = q then { w with m := m', b := k' } else w
  let b := b.modSched fun s => { s with waiters := s.waiters.map wt }
  let b := b.modQueue q fun y => { y with unshadowed := true }
  let b := { b with movp := { b.movp with takeovers := incr 12 b.movp.takeovers } }
  ((again.foldl (fun b (p, w) => b.present p (pk w)) b).traceQ 3 q m).pump m' k'

/-- One past the highest source offset of an entry whose read has been presented (R294). -/
def Blk.hiSrcOf (b : Blk) (q : QRef) (e : Exec) : Nat :=
  let waiting := fun (r : RdReq) => b.ports.any fun (_, v) => v.wait.any fun k => match k.purpose with
    | .data _ p s q' => q' == q && p == e.pos && s == r.seq
    | _ => false
  let out := e.reads.filter fun r => !r.isList
  let base := e.srcIss - out.foldl (fun n r => n + r.len) 0
  let gated := e.gate.isSome
  (out.foldl (fun (acc : Nat × Nat) r =>
    (acc.1 + r.len, if waiting r || gated then acc.2 else acc.1 + r.len)) (base, base)).2

/-- One past the highest destination offset of an entry that has been presented on some destination (R294). -/
def Blk.hiDstOf (b : Blk) (q : QRef) (e : Exec) : Nat :=
  let waiting := b.ports.flatMap fun (_, v) => v.wait.filterMap fun k => match k.purpose with
    | .dataTo _ p d o q' => if q' = q ∧ p = e.pos then some (d, o, k.len) else none
    | _ => none
  let back := fun (d : Nat) => (List.range 600).foldl (fun hi _ =>
    match waiting.find? fun (d', o, l) => d' == d && o + l == hi with
    | some (_, o, _) => o
    | none => hi) e.dstPres
  (List.range (dstCount e.desc)).foldl (fun n d => max n (back d)) 0

/-- A non-duplex binding of a failed mover (R292, R294): its waiting writes are cancelled, its reads abandoned, its pairs
and offsets are kept for the resume, and its place is free. -/
def Blk.strand (b : Blk) (m k : Nat) (x : Binding) : Blk :=
  let q := x.q
  let y := b.queue q
  let live := x.exec.filter fun e => !e.dead
  let ex := live.find? fun e => e.pos == y.run.mark.pos
  let hs := match ex with | some e => b.hiSrcOf q e | none => 0
  let hd := match ex with | some e => b.hiDstOf q e | none => 0
  let b := (x.exec ++ x.plans).foldl (fun b e => b.dropArmed m k e) b
  let b := { b with ports := tabMap {} (fun _ v => { v with wait := v.wait.filter fun k => !isWriteOf q k }) b.ports }
  let b := b.dropReads fun pk => isAnyReadOf q pk.purpose
  let b := { b with ports := tabMap {} (fun _ v =>
    { v with tags := tabMap {} (fun _ (t : TagRec) => if t.inUse && isAnyReadOf q t.purpose then t.abandon else t) v.tags }) b.ports }
  let b := (b.dropWaiters q).setBinding m k none
  let dead := live.length < x.exec.length
  -- a queue that was still to be resumed onto this mover resumes from what the first failed mover had done (R297)
  let f := match b.sched.fovers.find? fun f => f.q == q with
    | some f => f
    | none => ⟨q, m, ex, hs, hd⟩
  let b := b.modQueue q fun y => { y.applyDeferred with
    flush := addPairs y.flush (x.exec.flatMap (·.pairs)), ports := (y.keepWrites x.exec).ports
    run := { y.run with phase := if y.run.phase = .bound then .idle else y.run.phase, fetched := y.run.retiredTo
                        prevLast := (y.unpub.getLast?.map (·.last)).getD true } }
  if dead then b.settleCheck q
  else b.modSched fun s => { s with fovers := s.fovers.filter (fun f => f.q != q) ++ [f] }

/-- Bind a stranded queue to the promoted spare, or under R203, R256 and R205 (R293). A queue in STOPPING stays there. -/
def Blk.rehome (b : Blk) (q : QRef) (spare : Option Nat) : Blk :=
  let x := b.queue q
  let bindAs := fun (b : Blk) (m : Nat) =>
    let ph := (b.queue q).run.phase
    ((b.noteMove q).bindTo q m false).modRun q fun r => { r with phase := if ph = .stopping then .stopping else .bound }
  let may := match x.run.phase with
    | .idle => x.heldSlot.isNone && x.report.isNone
    | .stopping => x.report.isNone
    | _ => false
  if !may then b
  else match spare with
    | some m => if b.canTake m then bindAs b m else b.bindOrWait q
    | none =>
      if x.run.phase = .idle then b.bindOrWait q
      else match b.chooseMover q with
        | some (m, _) => bindAs b m
        | none => b

/-- A mover that can be declared failed (Table 6-6, R291); in TEST only its self-test can fail it. -/
def MovState.canFail : MovState → Bool
  | .spare | .active | .quiescing => true
  | _ => false

/-- The active bindings of a failed mover go to their shadows, to the promoted spare, or where R203 and R256 bind them
(R292, R293). -/
def Blk.rehomeAll (b : Blk) (m : Nat) : Blk :=
  let act := (b.mover m).places
  let duplex := act.filterMap fun (k, x) => (b.shadowAt x.q).map fun (m', k') => (k, x, m', k')
  let plain := act.filter fun (_, x) => (b.shadowAt x.q).isNone
  let b := duplex.foldl (fun b (k, x, m', k') => b.takeover m k m' k' x.q) b
  let b := plain.foldl (fun b (k, x) => b.strand m k x) b
  let spare := firstFrom (fun i => decide ((b.mover i).state = .spare)) 18 0
  let b := match spare with
    | some s => (b.modMover s fun v => { v with state := .active }).reShadow s
    | none => b
  let b := { b with standIn := tabSet none b.standIn m spare }
  let b := plain.foldl (fun b (_, x) => b.rehome x.q spare) b
  let homes := (List.range 64).filter fun n =>
    (b.queue (.cell n)).cfg.home == some m && b.bindable (.cell n) && (b.boundAt (.cell n)).isNone
  homes.foldl (fun b n => b.rehome (.cell n) spare) b

/-- A mover is FAILED with its cause: counted, raised, its marks' ports flushed and its shadows dropped (R292, R293). -/
def Blk.failed (b : Blk) (m cause : Nat) : Blk :=
  let b := b.modMover m fun v => { v with state := .failed, cause := cause, stop := none, turnAt := none }
  let b := { b with movp := { b.movp with failures := incr 8 b.movp.failures } }
  ((b.raiseAt 4 m).failFlush m).dropShadows m

/-- A mover is declared failed (R291-R293). A SPARE mover that fails holds no binding, so nothing takes its place. -/
def Blk.declareFail (b : Blk) (m cause : Nat) : Blk :=
  let st := (b.mover m).state
  if !st.canFail then b
  else
    let b := b.failed m cause
    if st = .active ∨ st = .quiescing then (b.rehomeAll m).unStopAll else b

/-- The mover's domain is powered, so that its detectors of Table 13-5 work. -/
def Blk.moverLive (b : Blk) (m : Nat) : Bool := b.on (moverPd m)

/-- MOV_FAIL: the detection of a failure with its cause (Table 13-5); the background self-test is that of a spare. -/
def movFailB (m cause : Nat) (b : Blk) : Blk :=
  if 1 ≤ cause ∧ cause ≤ 6 ∧ (cause = 6 → (b.mover m).state = .spare) then b.declareFail m cause else b

/-- MOVER_HEARTBEAT_TIMEOUT (Table 13-5). -/
def moverHeartbeatTimeoutB (m : Nat) (b : Blk) : Blk := if b.moverLive m then b.declareFail m 3 else b

/-- MOVER_WATCHDOG_TIMEOUT (Table 13-5): a binding had work it could do for 1,024 cycles. -/
def moverWatchdogTimeoutB (m : Nat) (b : Blk) : Blk := if b.moverLive m then b.declareFail m 4 else b

/-! ## Resume (R294, R295) -/

/-- Fragments or jobs with NOREP that overlap offsets `lo` to `hi`. -/
def fragNorep : List Frag → Nat → Nat → Nat → Bool
  | [], _, _, _ => false
  | f :: t, s, lo, hi => (f.norep && decide (lo < s + f.len) && decide (s < hi)) || fragNorep t (s + f.len) lo hi

/-- unsafe_cause: the first cause of Table 13-2 that applies to the bytes a resume would repeat (R295). -/
def Blk.unsafeCause (b : Blk) (k : Mark) (f : Fover) (e : Exec) : Option Nat :=
  let d := e.desc
  let src := decide (k.srcOfs < f.hiSrc)
  let dst := decide (k.dstOfs < f.hiDst)
  let srcRuns := if src then e.srcRuns k.srcOfs f.hiSrc else []
  let dstRuns := if dst then e.dstRuns k.dstOfs f.hiDst else []
  if src && d.norepSrc then some 1
  else if dst && d.norepDst then some 2
  else if srcRuns.any b.norepRun || dstRuns.any b.norepRun then some 3
  else if (src && d.kind != kScatter && fragNorep e.frags 0 k.srcOfs f.hiSrc)
      || (dst && d.kind != kGather && fragNorep e.frags 0 k.dstOfs f.hiDst) then some 4
  else if src && d.kind == kFifoOut && (b.fifo d.fifo).markLost then some 5
  else if dst && d.kind == kFifoIn && !b.sfCommitMark d.fifo then some 6
  else none

/-- The record of a SNAP whose writing had begun is written again from where it was kept, and the entry goes on behind it
(R191). -/
def Blk.repeatRecord (b : Blk) (q : QRef) (e : Exec) : Blk :=
  match b.boundAt q with
  | some (m, k) =>
    let e' := { newExec (e.lentry e.win) .running false 0 0 with
      launched := true, plan := e.plan, notices := e.notices, bad := e.bad, poisoned := e.poisoned, record := e.record }
    let b := (b.pushExec m k e').modRun q fun r => { r with fetched := (b.queue q).next e.pos, prevLast := e.desc.last }
    let n := e.record.length
    (b.putRun m k e.pos q e.desc.dst 600 0 e.record).modExec m k e.pos fun e =>
      { e with resultDone := true, dstPres := n, stage := .done }
  | none => b

/-- FAILOVER_RESUME (R294): once every failover flush on the mark's ports has ended, the queue goes on from its mark, or
halts with REPEAT_UNSAFE. An ASCAT of which a write was presented is unsafe although its mark is not ACTIVE (R191, R295).
DEDUCED: assumption log 13. -/
def failoverResumeB (q : QRef) (b : Blk) : Blk :=
  match b.sched.fovers.find? fun f => f.q == q with
  | none => b
  | some f =>
    let x := b.queue q
    let mk := x.run.mark
    if (b.boundAt q).isNone || (b.mover f.mover).flushWait.any (fun w => bit mk.ports w.1) then b
    else
      let b := b.modSched fun s => { s with fovers := s.fovers.filter fun f => f.q != q }
      let b := { b with movp := { b.movp with resumes := incr 12 b.movp.resumes } }
      let b := b.traceQ 3 q f.mover
      match f.ex with
      | none => b.pumpQ q
      | some e =>
        let fifo := fun (b : Blk) => if e.desc.kind = kFifoOut then b.sfRewind e.desc.fifo else b.sfDiscard e.desc
        let wrote := match e.plan with
          | some pl => pl.targets.any fun t => t.launched.isSome
          | none => false
        let cause := if e.desc.kind == kAscat && wrote then some 7
          else if !mk.active || (f.hiSrc ≤ mk.srcOfs && f.hiDst ≤ mk.dstOfs) then none
          else b.unsafeCause mk f e
        match cause with
        | some c =>
          let b := b.sfRelease (q, e.pos)
          let r := haltReport 0x50 e.pos e.desc.cookie mk.srcOfs mk.dstOfs
            (infoOf [(0, 4, f.mover + 256 * c), (4, 4, f.hiSrc), (8, 4, f.hiDst)])
          ((b.haltWith q r).modBinding ((b.boundAt q).map (·.1) |>.getD 0) ((b.boundAt q).map (·.2) |>.getD 0) fun y =>
            { y with lbuf := [], plans := [] }).pumpQ q
        | none =>
          let b := if mk.active then
              { b with movp := { b.movp with repeated := (b.movp.repeated + (f.hiDst - mk.dstOfs)) % 2 ^ 32 } } else b
          let b := if e.record.isEmpty then b else b.repeatRecord q e
          (fifo b).pumpQ q

/-! ## Ports stuck, lost and up (R302, R303, R339, R342) -/

/-- A packet not accepted is withdrawn and presented on its new route: a read takes a new tag, a write a new token. -/
def Blk.represent (b : Blk) (p : Nat) (k : Pkt) : Blk :=
  let (port, path) := match b.route k.addr k.ask with
    | some (p', path, _) => (p', path)
    | none => (p, k.path)
  let flush := k.len = 0 && !k.isWrite
  b.present port { k with path := if flush then k.path else path, tagged := false, tok := 0 }

/-- Withdraw every packet of a port's TX_REQ that has not been accepted and satisfies `f`; the reads among them give up
their tags, the writes their tokens, and each is presented anew in its order (R302, R303). -/
def Blk.withdraw (b : Blk) (p : Nat) (f : Pkt → Bool) : Blk :=
  let v := b.port p
  let l := (v.pres ++ v.wait).filter f
  let b := b.modPort p fun v =>
    let v := l.foldl (fun v k => if !k.isWrite && k.tagged then v.freeTagAt k.tag false else v) v
    { v with pres := v.pres.filter fun k => !f k, wait := v.wait.filter fun k => !f k
             toks := v.toks.filter fun t => t.accepted || !(l.any fun k => k.isWrite && k.tok == t.tok && k.order == t.pkt.order)
             beats := 0 }
  l.foldl (fun b k => b.represent p k) b

/-- A SNAP's target read. -/
def Pkt.ofTarget (k : Pkt) : Bool := match k.purpose with | .target _ _ _ _ => true | _ => false

/-- The first requests of entries armed at the launch gate of a port, to the addresses that `sel` picks, leave it, with their tags: the
port has gone out of service for them (R209, R299, R302, R303). They are armed again on their new route. -/
def Blk.clearGate (b : Blk) (p : Nat) (sel : Nat → Bool) : Blk :=
  let mine := fun (e : Exec) => match e.gate with
    | some (p', some pk) => p' == p && sel pk.addr
    | some (p', none) => p' == p && sel e.desc.dst
    | none => false
  (b.port p).gate.foldl (fun b (m, k) =>
    match (((b.binding m k).map (·.exec)).getD []).find? mine with
    | some e =>
      let b := match e.gate with
        | some (_, some pk) => b.modPort p fun v => v.freeTagAt pk.tag false
        | _ => b
      (b.modExec m k e.pos Exec.ungated).dropGate m k
    | none => b) b

/-- What happens to the requests that a plan holds for a port that has gone out of service: an armed plan not released gives
them up and is armed again; of a released one each request moves to its new route, or is MISSING_ERROR where the port is
lost or no other takes it (R186, R209). -/
def Blk.clearPlan (b : Blk) (p : Nat) (lost : Bool) (sel : Nat → Bool) (m k : Nat) (q : QRef) (e : Exec) : Blk :=
  match e.plan with
  | none => b
  | some pl =>
    if !(pl.targets.any fun t => !t.done && (t.held.map (·.1)) == some p && sel t.addr) then b
    else if pl.release.isNone then
      (b.dropPlan m k e).modExec m k e.pos fun e => { e with
        stage := if e.stage = .armed then .waiting else e.stage
        plan := e.plan.map fun pl => { pl with armed := false, targets := pl.targets.map fun t => { t with held := none } } }
    else
      let miss := fun (t : PlanTarget) => { t with qual := 9, status := 0x26, held := none, done := true }
      let b := pl.targets.zipIdx.foldl (fun b (t, i) =>
        match t.held with
        | some (p', pk) =>
          if p' ≠ p || t.done || !sel t.addr then b
          else
            let b := if pk.isWrite then b else b.modPort p fun v => v.freeTagAt pk.tag false
            let set := fun (b : Blk) (t' : PlanTarget) => b.modExec m k e.pos fun e => { e with plan := e.plan.map fun pl =>
              { pl with targets := pl.targets.zipIdx.map fun (x, j) => if j = i then t' else x } }
            if lost then set b (miss t)
            else match b.routeOf q t.addr 0 with
              | some (p2, path, _) =>
                if pk.isWrite then set b { t with port := p2, held := some (p2, { pk with path := path }) }
                else if !(b.port p2).canRead t.addr t.len then set b (miss t)
                else
                  let (v, pk2) := (b.port p2).takeTag { pk with path := path, tagged := false }
                  set (b.modPort p2 fun _ => v) { t with port := p2, held := some (p2, pk2) }
              | none => set b (miss t)
        | none => b) b
      b.alignedCheck m k

/-- Requests armed for a port in launch gates and plans leave it, those to the addresses that `sel` picks (R209). -/
def Blk.clearArmedAt (b : Blk) (p : Nat) (lost : Bool) (sel : Nat → Bool) : Blk :=
  let b := b.clearGate p sel
  b.movers.foldl (fun b (m, v) => v.places.foldl (fun b (k, x) =>
    if x.shadow then b else x.exec.foldl (fun b e => b.clearPlan p lost sel m k x.q e) b) b) b

/-- Every request armed for a port leaves it (R302, R303). -/
def Blk.clearArmed (b : Blk) (p : Nat) (lost : Bool) : Blk := b.clearArmedAt p lost fun _ => true

/-- Set bit `p` of DPT_DRAIN. -/
def Blk.setDrain (b : Blk) (p : Nat) : Blk := b.setReg 0x12320 (Nat.lor (b.reg 0x12320) (2 ^ p))

/-- TX_REQ or TX_CPL of a port holds a packet: one not accepted yet, or one whose credits are still to come (R302, R339). -/
def Blk.holdsPkt (b : Blk) (p : Nat) : Bool :=
  let v := b.port p
  !v.pres.isEmpty || !v.cplPres.isEmpty || !v.cplWait.isEmpty || v.wait.any (b.eligible p)

/-- PORT_STUCK (R302): a presented packet has had no credit for DPT_CRED_TMO µs; 0 sets no limit. -/
def portStuckB (p : Nat) (b : Blk) : Blk :=
  let v := b.port p
  if !(b.portPowered p) || v.lost || v.stuck || b.regF 0x12334 15 0 = 0 || !(b.holdsPkt p) then b
  else
    let b := (b.raiseAt 6 (8 + p)).invalidateLat fun _ t => b.onPort p t
    let b := (b.orderRoutes p).modPort p fun v => { v with stuck := true }
    ((b.setDrain p).withdraw p fun _ => true).clearArmed p false

/-- A port is lost (R303): its tags are abandoned, its packets move, its held tokens count as reported lost. A reroute after a loss
takes effect at once (R208). -/
def Blk.losePort (b : Blk) (p : Nat) (byHalf : Bool) : Blk :=
  if (b.port p).lost then b.modPort p fun v => { v with lostByHalf := v.lostByHalf || byHalf }
  else
    let b := b.raiseAt 6 p
    let b := b.invalidateLat fun _ t => b.onPort p t
    let b := b.modPort p fun v => { v with
      lost := true, lostByHalf := byHalf, stuck := false, idle := false, cplWait := [], cplPres := [] }
    -- a target read that was presented is MISSING_ERROR, and is not presented again (R186)
    let b := (b.setDrain p).withdraw p fun k => !k.ofTarget
    let b := (b.modPort p fun v => { v with pres := [], wait := [] }).clearArmed p true
    let toks := (b.port p).toks
    let b := b.modPort p fun v => { v with toks := [] }
    let b := toks.foldl (fun b t => match t.early with
      | some false => b.settledPkt t.pkt
      | _ => (b.modCnt p fun c => { c with wlost := incr 8 c.wlost }).lostPkt p t.pkt) b
    (b.tagsOut p).foldl (fun b t => b.finishRead p t .timeout .port) b

/-- PORT_LOST: DP_UP falls (R303, R342). -/
def portLostB (p : Nat) (b : Blk) : Blk :=
  let was := (b.port p).up
  let b := b.modPort p fun v => { v with up := false }
  if was && b.portPowered p then b.losePort p false else b

/-- PORT_UP: DP_UP rises (R339, R342): every credit count of the port starts at zero. -/
def portUpB (p : Nat) (b : Blk) : Blk :=
  if (b.port p).up then b
  else
    let old := b
    let b := (b.modPort p fun v => { v with
      up := true, lost := v.lostByHalf, hdrCr := 0, dataCr := 0, cplHdrCr := 0, cplDataCr := 0, txStarted := false,
      cplStarted := false, inbWait := [] }).keepPorts old
    b.invalidateLat fun _ t => t.egress == p

/-! ## Links (R299, R300, R342) -/

/-- The outstanding reads of a link on a port. -/
def Blk.linkTags (b : Blk) (p n : Nat) : List Nat :=
  (b.tagsOut p).filter fun t => match b.rangeOf (tabGet {} (b.port p).tags t : TagRec).addr with
    | some (_, r) => linkOf r == n
    | none => false

/-- The address lies behind a link. -/
def Blk.addrOver (b : Blk) (n a : Nat) : Bool :=
  match b.rangeOf a with
  | some (_, r) => linkOf r == n
  | none => false

/-- The packet runs over a link. -/
def Blk.overLink (b : Blk) (n : Nat) (k : Pkt) : Bool := b.addrOver n k.addr

/-- Link `n` is down, `cto` by a pulse of its completion-timeout input; the records of its ranges are invalid (R181, R342). -/
def Blk.linkLost (b : Blk) (n : Nat) (cto : Bool) : Blk :=
  let b := b.invalidateLat fun _ t => linkOf t == n
  { b with links := b.links.filter (· != n), ctoLinks := if cto then addOnce n b.ctoLinks else b.ctoLinks }

/-- Link `n` is up; the records of its ranges are invalid (R181, R342). -/
def Blk.linkFound (b : Blk) (n : Nat) : Blk :=
  let b := { b with links := addOnce n b.links, ctoLinks := b.ctoLinks.filter (· != n) }
  b.invalidateLat fun _ t => linkOf t == n

/-- The reads outstanding on link `n` are abandoned (R300). -/
def Blk.dropLinkReads (b : Blk) (n : Nat) : Blk :=
  (List.range 8).foldl (fun b p => (b.linkTags p n).foldl (fun b t => b.finishRead p t .timeout .link) b) b

/-- LINK_DOWN (R299): a slot link puts its slot in HELD; a host link moves the host-memory traffic of its port; the reads
outstanding on the link are abandoned (R300). Writes are reported through their tokens (R340). -/
def linkDownB (n : Nat) (cto : Bool) (b : Blk) : Blk :=
  if !(b.links.contains n) then
    (if cto then b else { b with ctoLinks := b.ctoLinks.filter (· != n) })
  else
    let b := b.linkLost n cto
    let b := if n < 32 then b.sltLinkDown n
      else
        let p := n - 32
        (b.withdraw p fun k => b.overLink n k).clearArmedAt p false (b.addrOver n)
    b.dropLinkReads n

/-- LINK_UP (R342). -/
def linkUpB (n : Nat) (b : Blk) : Blk :=
  if b.links.contains n then b
  else
    let b := b.linkFound n |>.keepPorts b
    if n < 32 then b.sltLinkUp n else b

/-- LINK_CTO_RECOVERY (R342): 100 µs after the pulse a link whose level never fell counts as up again. -/
def linkCtoRecoveryB (n : Nat) (b : Blk) : Blk := if b.ctoLinks.contains n then linkUpB n b else b

/-! ## Square halves and reorder locations (R288) -/

/-- The four ports of a Square half are lost (R288). -/
def Blk.halfDown (b : Blk) (h : Nat) : Blk :=
  (List.range 4).foldl (fun b i => if b.portPowered (4 * h + i) then b.losePort (4 * h + i) true
    else b.modPort (4 * h + i) fun v => { v with lost := true, lostByHalf := true }) b

/-- SQUARE_HALF_FAILURE (R288): the half's four ports are lost. -/
def squareHalfFailureB (h : Nat) (b : Blk) : Blk :=
  if b.halfFailed.contains h then b
  else
    let b := b.halfDown h
    ({ b with halfFailed := addOnce h b.halfFailed }).raise 5 (6 + h)

/-- A tile fails its check after it crossed a half (R288): four within 1 ms from at least two movers fail the half. -/
def Blk.crossingFail (b : Blk) (h m : Nat) : Blk :=
  let now := b.now
  let l := (b.halfFails.filter fun (_, _, t) => decide (now ≤ t + 1000000)) ++ [(h, m, now)]
  let b := { b with halfFails := l }
  let mine := l.filter fun x => x.1 == h
  if 4 ≤ mine.length ∧ (mine.any fun x => x.2.1 != m) then squareHalfFailureB h b else b

/-- A reorder location fails: the second time it is mapped out; past 64 the port is lost (R288). -/
def Blk.robFail (b : Blk) (p loc : Nat) : Blk :=
  let v := b.port p
  if v.robMapped.contains loc then b
  else if v.robSuspect.contains loc then
    let b := b.modPort p fun v => { v with robMapped := v.robMapped ++ [loc], robSuspect := v.robSuspect.filter (· != loc) }
    if 64 < (b.port p).robMapped.length then b.losePort p false else b
  else b.modPort p fun v => { v with robSuspect := v.robSuspect ++ [loc] }

end Sys2Proof.Machine
end

