-- ==== Sys2Proof/Machine/Port.lean ====
section
/-! DEFINITION. Data ports: completions (R131-R133, R137, R138, R287, R288, R338), acceptance and credits (R339, R340), write
tokens (R304, R341), and the relay buffer (R363). -/

namespace Sys2Proof.Machine
open Sys2Proof

/-! ## Read completions -/

/-- The tile index, within its entry, of the byte a completion starts at. -/
def Exec.tileOf (e : Exec) (r : RdReq) (ofs : Nat) : Nat :=
  let rest := (e.reads.dropWhile fun y => y.seq != r.seq).filter fun y => y.isList == r.isList
  let base := (if r.isList then e.listIss else e.srcIss) - rest.foldl (fun n y => n + y.len) 0
  (base + ofs) / 64

/-- A data read's tile fails its CRC at the read lane (R287): read once more if repeatable, else DATA_CRC. -/
def Blk.laneFail (b : Blk) (port tag ofs : Nat) : Blk :=
  let t : TagRec := tabGet {} (b.port port).tags tag
  match t.purpose with
  | .data m0 pos seq q =>
    let b := (b.modMover m0 fun v => { v with rdCrc := incr 8 v.rdCrc }).endRead port tag true
    match b.boundAt q with
    | none => b
    | some (m, k) =>
      match (b.binding m k).bind fun x => x.entryAt pos with
      | none => b
      | some (e, inExec) => match e.readAt seq with
        | none => b
        | some r =>
          if e.dead then (b.modRead m k pos seq fun r => { r with done := true }).pump m k
          else if r.reread || !b.readRepeatable e r then
            (b.readFail m k pos inExec 0x30 (crcInfo 1 port (e.tileOf r ofs))).pump m k
          else b.readAgain m k q e r port t.path true
  | .target m0 pos i q =>
    -- logged as DATA_CRC of the mover's read lane (R186)
    ((b.modMover m0 fun v => { v with rdCrc := incr 8 v.rdCrc }).endRead port tag true).targetEnd pos i q .error t 0x30
  | _ => b.finishRead port tag .error .timeout

/-- A reshape or write-lane fault (R137, R288): the entry stops at once; the second within 1 ms fails the mover. -/
def Blk.outFail (b : Blk) (port tag ofs unit : Nat) : Blk :=
  match (tabGet {} (b.port port).tags tag : TagRec).purpose with
  | .data _ pos seq q =>
    match b.boundAt q with
    | none => b
    | some (m, k) =>
      match (b.binding m k).bind fun x => x.exec.find? fun e => e.pos = pos with
      | none => b
      | some e =>
        let tile := match e.readAt seq with | some r => e.tileOf r ofs | none => 0
        let b := (b.failEntry m k pos 0x30 (crcInfo unit port tile)).pump m k
        let old := (b.mover m).dataFailAt
        let now := b.now
        let b := b.modMover m fun v => { v with
          dataFailAt := some now, parity := if unit = 2 then incr 8 v.parity else v.parity
          wrCrc := if unit = 3 then incr 8 v.wrCrc else v.wrCrc }
        match old with
        | some t => if now ≤ t + 1000000 then b.declareFail m 2 else b
        | none => b
  | _ => b

/-- A tile read from the staging pool fails its CRC (R222, R226, R287): the consuming entry stops at once. -/
def Blk.poolFail (b : Blk) (f : Nat) : Blk :=
  let b := (b.sfBadTile f (b.fifo f).readLoc).modFifo f fun x =>
    if (b.sfOut f).isSome then { x with unread := x.unread.map fun t => if t.loc = x.readLoc then { t with seen := true, bad := true } else t }
    else x
  match (b.fifo f).consumer with
  | some (q, pos) => match b.boundAt q with
    | some (m, k) =>
      let tile := match (b.binding m k).bind fun x => x.exec.find? fun e => e.pos = pos with
        | some e => e.fifoTiles
        | none => 0
      (b.failEntry m k pos 0x30 (crcInfo 4 0 tile)).pump m k
    | none => b
  | none => b

/-- What the block's own checks find while a completion's tiles pass through it; true when the request is still to be
completed by them. -/
def Blk.tileFault (b : Blk) (port tag ofs : Nat) (f : TileFault) : Bool × Blk :=
  match f with
  | .none => (true, b)
  | .readLane loc => (false, (b.laneFail port tag ofs).robFail port loc)
  | .reshape => (true, b.outFail port tag ofs 2)
  | .writeLane => (true, b.outFail port tag ofs 3)
  | .pool n => (true, b.poolFail n)
  | .crossing =>
    let m := match (tabGet {} (b.port port).tags tag : TagRec).purpose with | .data m _ _ _ | .target m _ _ _ => m | _ => 18
    (false, (b.laneFail port tag ofs).crossingFail (port / 4) m)

/-- A completion's bytes by offset (R133, R138). -/
def TagRec.placeBytes (t : TagRec) (c : Cpl) : TagRec :=
  { t with got := t.got ++ c.data.zipIdx.map fun (x, i) => (c.offset + i, x, c.poison) }

/-- Offsets of the request's bytes that lie in its tile number `k`. -/
def TagRec.tileSpan (t : TagRec) (k : Nat) : List Nat :=
  let o := t.addr % 64
  let lo := 64 * k - o
  let hi := min t.len (64 * (k + 1) - o)
  (List.range (hi - lo)).map (lo + ·)

/-- Tile number `k` of the request has all its bytes. -/
def TagRec.tileFull (t : TagRec) (k : Nat) : Bool := (t.tileSpan k).all fun i => (gotByte t.got i).isSome

/-- CRC-32C of tile number `k` as the reorder buffer holds it (R132). -/
def TagRec.tileCrc (t : TagRec) (k : Nat) : Nat :=
  let o := if k = 0 then t.addr % 64 else 0
  let l := (t.tileSpan k).map fun i => ((gotByte t.got i).map (·.1)).getD 0
  Sys2Proof.Machine.tileCrc (List.replicate o 0#8 ++ l) ((2 ^ l.length - 1) * 2 ^ o)

/-- Place a completion's bytes (R133, R138); each tile it completes receives its CRC-32C as it enters the reorder buffer (R9,
R132). -/
def TagRec.place (t : TagRec) (c : Cpl) : TagRec :=
  let y := t.placeBytes c
  let first := (t.addr % 64 + c.offset) / 64
  let last := (t.addr % 64 + c.offset + c.data.length - 1) / 64
  let done := ((List.range (last + 1 - first)).map (first + ·)).filter y.tileFull
  { y with crcs := y.crcs ++ done.map fun k => (k, y.tileCrc k) }

/-- Every tile held passes its CRC-32C check at the read lane (R10). -/
def TagRec.sound (t : TagRec) : Bool := t.crcs.all fun (k, c) => c == t.tileCrc k

/-- READ_COMPLETION (R131, R133, R338). -/
def readCompletionB (port : Nat) (c : Cpl) (f : TileFault) (b : Blk) : Blk :=
  if !(b.portPowered port) then b
  else if c.badHeader then b.modCnt port fun x => { x with inbBad := incr 8 x.inbBad }
  else
    let t : TagRec := tabGet {} (b.port port).tags c.tag
    if !(b.tagOut port c.tag) || t.gen ≠ c.gen then b.modCnt port fun x => { x with lateCpl := incr 32 x.lateCpl }
    else if c.cstat ≠ 0 then
      let b := if c.cstat = 3 then b.modCnt port fun x => { x with inbBad := incr 8 x.inbBad } else b
      b.finishRead port c.tag .error .timeout
    else if t.len < c.offset + c.data.length
        || t.got.any (fun (i, _, _) => decide (c.offset ≤ i) && decide (i < c.offset + c.data.length)) then
      b.modCnt port fun x => { x with badCpl := incr 32 x.badCpl }
    else
      let t' := t.place c
      let b := b.modPort port fun v => { v with tags := tabSet {} v.tags c.tag t' }
      let (go, b) := b.tileFault port c.tag c.offset f
      if !go || !(b.tagOut port c.tag) then b
      else if !t'.sound then b.laneFail port c.tag c.offset
      else if t'.got.length = t.len then
        b.finishRead port c.tag (if t.len = 0 && c.poison then .poison [] else t'.result) .timeout
      else match t.purpose with
        | .data _ _ _ q => b.pumpQ q
        | _ => b

/-! ## The relay buffer (R363) -/

/-- An accepted relay takes one of the 64 relay-buffer places of its port; while all are taken no packet is processed. -/
def Blk.takeRelay (b : Blk) (port : Nat) (q : QRef) (desc : List Byte) : Blk :=
  let n := b.relaySeq
  let r : Relay := ⟨q, desc, n, false, false⟩
  ({ b with relaySeq := n + 1 }).modPort port fun v => { v with relays := v.relays ++ [r] }

/-- The ring has room for a relayed descriptor at RTAIL. -/
def Queue.relayRoom (x : Queue) : Bool := decide (x.dist x.run.rtail x.run.head < x.size)

/-- Drop the relay numbered `n`. -/
def Blk.dropRelay (b : Blk) (n : Nat) : Blk :=
  { b with ports := tabMap {} (fun _ v => { v with relays := v.relays.filter fun r => r.seq != n }) b.ports }

/-- RELAY_RING_WRITE (R363): the oldest unwritten relay of the port whose turn it is at its queue is written at RTAIL once
the ring has room; then RTAIL advances and the queue is nudged. -/
def relayRingWriteB (port : Nat) (b : Blk) : Blk :=
  let all := b.ports.flatMap fun (_, v) => v.relays
  let turn := fun (r : Relay) => !r.written && !(all.any fun y => !y.written && y.q == r.q && decide (y.seq < r.seq))
  match (b.port port).relays.find? turn with
  | none => b
  | some r =>
    let x := b.queue r.q
    match x.run.phase with
    | .free | .destroying => { b.dropRelay r.seq with relayDrops := incr 8 b.relayDrops }
    | .spilled => b.wantRefill r.q.num
    | .spilling | .refilling => b
    | _ =>
      if !x.relayRoom then
        if r.waited then b
        else
          let up := fun (y : Relay) => if y.seq = r.seq then { y with waited := true } else y
          ({ b with relayWaits := incr 8 b.relayWaits }).modPort port fun v => { v with relays := v.relays.map up }
      else
        let p := x.run.rtail
        let own := leAt r.desc 1 1 / 2 * 2 + b1 (x.expectedOwn p)
        let bytes := patch r.desc 1 (leBytes 1 own)
        let up := fun (y : Relay) => if y.seq = r.seq then { y with written := true } else y
        let b := b.modPort port fun v => { v with relays := v.relays.map up }
        let b := b.sendWrite (x.entryAddr p) bytes x.cfg.dom 0 (.relayRing r.q) false
        let t := x.next p
        let b := b.modRun r.q fun y => { y with rtail := t }
        nudgeB r.q x.cfg.dom 8 (t % x.size + 65536 * lapOf t x.size) b

/-- The ring write of a relay is accepted: its place is free. -/
def Blk.relayAccepted (b : Blk) (q : QRef) : Blk :=
  let all := b.ports.flatMap fun (_, v) => v.relays.filter fun r => r.written && r.q == q
  match all.foldl (fun (n : Option Nat) r => match n with | some s => some (min s r.seq) | none => some r.seq) none with
  | some n => b.dropRelay n
  | none => b

/-! ## Acceptance (R340) -/

/-- The HEAD 0 word of a queue is accepted: CREATE_QUEUE commits, a cell queue's ring is read (R81, R110). -/
def Blk.firstWordDone (b : Blk) (q : QRef) : Blk :=
  match b.sched.jobs.find? fun j => decide (j.wait = .word) && j.made.isSome && q == .dom j.qid with
  | some j => b.createCommit j
  | none =>
    if q.isCell && b.exists? q && !(b.queue q).run.polling then
      (b.modRun q fun r => { r with polling := true }).chervilRead q none false
    else b

/-- One flip of a publication is accepted (R82, R92): the word follows the last one. -/
def Blk.flipDone (b : Blk) (q : QRef) (pos : Nat) : Blk :=
  match (b.queue q).pub with
  | .flipping target left =>
    let left := left.filter (· != pos)
    if left.isEmpty then (b.presentWord q target).pumpQ q else b.modQueue q fun x => { x with pub := .flipping target left }
  | _ => b

/-- An admin completion entry is accepted: the admin word follows at once on the same pair, else behind a flush read
(R104). -/
def Blk.adminCplDone (b : Blk) (d port : Nat) (k : Pkt) : Blk :=
  match b.domEntry d, (b.domain d).cplPkt with
  | some e, some _ =>
    let b := b.modDomain d fun x => { x with lostCpl := false }
    if b.adminPair e = (port, k.path) then b.putAdminWord d else b.sendFlush port k.path k.addr d (.adminFlush d)
  | _, _ => b

/-- The admin completion word is accepted: the message of the ring, and Lovage goes on (R102, R104, R276). -/
def Blk.adminWordDone (b : Blk) (d port : Nat) (k : Pkt) : Blk :=
  match b.domEntry d with
  | some e =>
    let b := if leAt k.data 4 4 = 0 && leAt k.data 0 2 = 0 then b else b.domCause e.adminVec d (some (port, k))
    ((b.adminNext d).stallCheck d).refuseUnknown (.dom d)
  | none => b

/-- What the acceptance of a packet of TX_REQ leads to. -/
def Blk.acceptedPkt (b : Blk) (port : Nat) (k : Pkt) : Blk :=
  match k.purpose with
  | .dataTo _ pos d o q => b.dataAccepted q pos d o k.len port
  | .check _ pos q => b.dataAccepted q pos 0 0 k.len port
  | .record _ pos o q => b.dataAccepted q pos 0 o k.len port
  | .word q t => b.wordAccepted q t (some (port, k))
  | .firstWord q => b.firstWordDone q
  | .flip q pos => b.flipDone q pos
  | .event d => match (b.domain d).ring with
    | some r => b.domCause r.vec d (some (port, k))
    | none => b
  | .ringZero d =>
    match b.sched.jobs.find? fun j => decide (j.wait = .zeroes) && j.dom == d with
    | some j =>
      if j.left ≤ 1 then b.ringMade j else b.waitJob j.ring fun j => { j with left := j.left - 1 }
    | none => b
  | .adminCpl d => b.adminCplDone d port k
  | .adminWord d => b.adminWordDone d port k
  | .decisionZero => b.modDec fun x => { x with zeroLeft := x.zeroLeft - 1 }
  | .relayRing q => b.relayAccepted q
  | _ => b

/-- A held token's return takes effect (R304, R341): its record leaves, a lost write is handled by its kind. -/
def Blk.tokenEnd (b : Blk) (port : Nat) (r : TokRec) (lost : Bool) : Blk :=
  let b := b.modPort port fun v => { v with toks := v.toks.filter fun t => t.tok != r.tok }
  if lost then b.lostPkt port r.pkt else b.settledPkt r.pkt

/-- The oldest presented packet of TX_REQ is accepted. -/
def Blk.acceptReq (b : Blk) (port : Nat) : Blk :=
  match (b.port port).pres with
  | [] => b
  | k :: rest =>
    let b := b.modPort port fun v => { v with
      pres := rest, toks := v.toks.map fun t => if k.isWrite && t.tok == k.tok then { t with accepted := true } else t }
    let b := b.acceptedPkt port k
    match (b.port port).toks.find? fun t => k.isWrite && t.tok == k.tok && t.pkt.order == k.order with
    | some t => match t.early with
      | some lost =>
        let b := if lost then b.modCnt port fun c => { c with wlost := incr 8 c.wlost } else b
        b.tokenEnd port t lost
      | none => b
    | none => b

/-- A credit return is discarded and counted (R339). -/
def Blk.credOvf (b : Blk) (port : Nat) : Blk := b.modCnt port fun c => { c with credOvf := incr 8 c.credOvf }

/-- One header credit comes back on a channel (R339, R340). Before the first packet after DP_UP rose it is an initial
credit (DEDUCED: assumption log 8). -/
def Blk.headerCredit (b : Blk) (port : Nat) (ch : Chan) : Blk :=
  let v := b.port port
  match ch with
  | .txReq =>
    if 255 ≤ v.hdrCr then b.credOvf port
    else if v.pres.isEmpty then
      (if v.txStarted then b.credOvf port else b.modPort port fun v => { v with hdrCr := v.hdrCr + 1 })
    else (b.modPort port fun v => { v with hdrCr := v.hdrCr + 1 }).acceptReq port
  | .txCpl =>
    if 255 ≤ v.cplHdrCr then b.credOvf port
    else if v.cplPres.isEmpty then
      (if v.cplStarted then b.credOvf port else b.modPort port fun v => { v with cplHdrCr := v.cplHdrCr + 1 })
    else b.modPort port fun v => { v with cplHdrCr := v.cplHdrCr + 1, cplPres := v.cplPres.drop 1 }

/-- Return `n` header credits one after the other. -/
def Blk.headerCredits (b : Blk) (port : Nat) (ch : Chan) : Nat → Blk
  | 0 => b
  | n + 1 => Blk.headerCredits (b.headerCredit port ch) port ch n

/-- The port takes credit returns: powered and up. -/
def Blk.creditsLive (b : Blk) (port : Nat) : Bool := b.portPowered port && (b.port port).up && !(b.port port).lost

/-- PACKET_ACCEPTED (R339, R340): `crd` header credits return on a channel. -/
def packetAcceptedB (port : Nat) (ch : Chan) (crd : Nat) (b : Blk) : Blk :=
  if b.creditsLive port then (b.headerCredits port ch (min crd 512)).jobsCheck else b

/-- DATA_CREDIT_RETURN (R339). -/
def dataCreditReturnB (port : Nat) (ch : Chan) (crd : Nat) (b : Blk) : Blk :=
  let v := b.port port
  if !b.creditsLive port then b
  else match ch with
    | .txReq => if 4095 < v.dataCr + crd then b.credOvf port else b.modPort port fun v => { v with dataCr := v.dataCr + crd }
    | .txCpl =>
      if 4095 < v.cplDataCr + crd then b.credOvf port else b.modPort port fun v => { v with cplDataCr := v.cplDataCr + crd }

/-! ## Write tokens (R304, R341) -/

/-- TOKEN_RETURN. -/
def tokenReturnB (port tok : Nat) (lost : Bool) (b : Blk) : Blk :=
  if !(b.portPowered port) then b
  else match (b.port port).toks.find? fun t => t.tok == tok with
    | none =>
      if lost then (b.modCnt port fun c => { c with wlost := incr 8 c.wlost }).raise 5 8
      else b.modCnt port fun c => { c with tokBad := incr 4 c.tokBad }
    | some t =>
      if !t.accepted then
        b.modPort port fun v => { v with toks := v.toks.map fun y => if y.tok = tok then { y with early := some lost } else y }
      else
        let b := if lost then b.modCnt port fun c => { c with wlost := incr 8 c.wlost } else b
        (b.tokenEnd port t lost).jobsCheck

/-- TOKEN_TIMEOUT (R341): a token not returned within 1 ms of acceptance is treated as WLOST. -/
def tokenTimeoutB (port tok : Nat) (b : Blk) : Blk :=
  match (b.port port).toks.find? fun t => t.tok == tok && t.accepted with
  | some t => ((b.modCnt port fun c => { c with tokTmo := incr 4 c.tokTmo }).tokenEnd port t true).jobsCheck
  | none => b

end Sys2Proof.Machine
end

