-- ==== Sys2Proof/Machine/Borage.lean ====
section
/-! DEFINITION. Borage (R311-R321), temperature and throttling (R322-R325), process monitors (R326), the mover service
(R328), the context banks (R289, R290, R329) and the Square halves' power-up test (R330). -/

namespace Sys2Proof.Machine
open Sys2Proof

/-! ## The figures of an epoch (R311, Table 14-1) -/

/-- What one mover did in an epoch: read and write tiles per µs. -/
structure MoverLoad where
  mover : Nat
  rd : Nat
  wr : Nat
  deriving DecidableEq, Repr

/-- What one queue showed in an epoch. -/
structure QueueEpoch where
  q : QRef
  polls : Nat
  emptyPolls : Nat
  bigPolls : Nat
  emptyLast4 : Bool
  late : Bool
  nudged : Bool
  underrun : Bool
  unused : Nat
  executed : Nat
  load : Nat
  deriving DecidableEq, Repr

/-- What one (port, path) pair showed in an epoch. -/
structure PathEpoch where
  port : Nat
  path : Nat
  rtt : Nat
  reads : Nat
  retries : Nat
  deriving DecidableEq, Repr

/-- The figures of one epoch. -/
structure EpochStats where
  movers : List MoverLoad
  queues : List QueueEpoch
  paths : List PathEpoch
  tagWaitPct : List Nat     -- per port, DPT_TAG_WAIT cycles of the epoch in per cent
  deriving DecidableEq, Repr

/-- Tiles of an epoch of 100 µs, per µs. -/
def perUs (n : Nat) : Nat := n / 100

/-- Tiles per µs of a queue's binding. -/
def Blk.queueLoad (b : Blk) (q : QRef) : Nat :=
  match (b.boundAt q).bind fun (m, k) => b.binding m k with
  | some x => perUs (x.rd + x.wr)
  | none => 0

/-- What the epoch that ends has shown of a queue. -/
def Blk.queueEpoch (b : Blk) (q : QRef) : QueueEpoch :=
  let e := (b.queue q).ep
  ⟨q, e.polls, e.empty, e.big, decide (4 ≤ e.idleRun), e.late, e.nudged, e.underrun, e.unused, e.executed, b.queueLoad q⟩

/-- The figures of the epoch that ends. -/
def Blk.epochStats (b : Blk) : EpochStats :=
  let cycles := b.clock.cycle - b.sup.epochAt
  { movers := b.movers.map fun (m, v) => ⟨m, perUs v.epRd, perUs v.epWr⟩
    queues := b.allQueues.map b.queueEpoch
    paths := b.ports.flatMap fun (p, v) => v.paths.map fun (q, s) =>
      ⟨p, q, if s.epReads = 0 then 0 else s.epRtt / s.epReads, s.epReads, s.epRetries⟩
    tagWaitPct := (List.range 8).map fun p => if cycles = 0 then 0 else 100 * (b.port p).epTag / cycles }

/-- A new epoch begins: what is gathered starts at nothing, and a poll that is open or a run of empty ones goes on. -/
def Blk.epochStart (b : Blk) : Blk :=
  let c := { b with
    cells := tabMap {} (fun _ (x : Queue) => { x with ep := { idleRun := x.ep.idleRun, poll := x.ep.poll, found := x.ep.found } }) b.cells
    queues := tabMap {} (fun _ (x : Queue) => { x with ep := { idleRun := x.ep.idleRun, poll := x.ep.poll, found := x.ep.found } }) b.queues
    movers := tabMap {} (fun _ (v : Mover) => { v with
      epRd := 0, epWr := 0, bind := tabMap none (fun _ (y : Option Binding) => y.map fun (z : Binding) => { z with rd := 0, wr := 0 }) v.bind }) b.movers
    ports := tabMap {} (fun _ (v : Port) => { v with
      epTag := 0, paths := tabMap {} (fun _ (s : PathStat) => { s with epRtt := 0, epReads := 0, epRetries := 0 }) v.paths }) b.ports
    sup := { b.sup with epochAt := b.clock.cycle } }
  c.modSched fun s => { s with pollsMade := 0, pollsDelayed := 0, cacheMax := c.cacheUsed }

/-- Change Borage's state. -/
def Blk.modSup (b : Blk) (f : Super → Super) : Blk := { b with sup := f b.sup }

/-- Borage takes decisions of its adaptive rules: PD1 on, REFCLK running, not frozen (R311, R321). -/
def Blk.adapts (b : Blk) : Bool := b.on 1 && !b.clock.refLost && !(bit (b.reg 0x14004) 0)

/-! ## The poll rule (R313) -/

/-- A value held between POLICY bounds. -/
def clampTo (lo hi v : Nat) : Nat := max lo (min v hi)

/-- The base poll interval of a queue (R313). -/
def Blk.pollBase (b : Blk) (x : Queue) : Nat := clampTo b.img.policy.pollMin b.img.policy.pollMax x.cfg.poll

/-- The base prefetch depth of a queue (R314). -/
def Blk.prefBase (b : Blk) (x : Queue) : Nat := clampTo b.img.policy.prefMin b.img.policy.prefMax x.cfg.pref

/-- Polls per second of a queue whose interval code is `p`. -/
def pollRate (p : Nat) : Nat := 31250000 / (p + 1)

/-- Borage may adapt the queue's polls: a resident domain queue that is not phase-polled. -/
def Blk.pollable (b : Blk) (q : QRef) : Bool :=
  let x := b.queue q
  !q.isCell && x.resident true && !x.cfg.pollPhase

/-- Set a queue's poll code with its record. -/
def Blk.setPoll (b : Blk) (q : QRef) (p cause metric bound : Nat) : Blk :=
  let old := (b.queue q).poll
  if old = p then b else (b.modQueue q fun x => { x with poll := p }).decision 1 cause (objOf q) old p metric bound

/-- The code and cause the poll rule asks of one queue, before the budget; none leaves it as it is. -/
def Blk.pollWant (b : Blk) (e : QueueEpoch) : Option (Nat × Nat × Nat × Nat) :=
  let x := b.queue e.q
  let lo := b.img.policy.pollMin
  let hi := b.img.policy.pollMax
  if 4 ≤ e.polls ∧ e.emptyPolls = e.polls then some (min hi (2 * x.poll + 1), 1, e.emptyPolls, hi)
  else if 0 < e.bigPolls then some (max lo ((x.poll + 2) / 2 - 1), 2, e.bigPolls, lo)
  else if e.late then some (max lo ((x.poll + 2) / 2 - 1), 3, 1, lo)
  else if e.nudged then some (b.pollBase x, 4, 1, b.pollBase x)
  else none

/-- The order in which the budget case takes the classes: BACKGROUND, BULK, STANDARD, EXPRESS (SCLASS codes). -/
def budgetOrder : List Nat := [3, 2, 1, 0]

/-- Double the interval of the queues of one class that found no entry in their last four polls. -/
def Blk.budgetClass (b : Blk) (es : List QueueEpoch) (touched : List QRef) (delayed : Nat) (c : Nat) : Blk :=
  es.foldl (fun b e =>
    let x := b.queue e.q
    if b.pollable e.q && e.emptyLast4 && x.cfg.sclass == c && !(touched.contains e.q) then
      b.setPoll e.q (min b.img.policy.pollMax (2 * x.poll + 1)) 5 delayed (b.img.policy.pollBudget)
    else b) b

/-- Polls per second of the adaptable queues with the intervals now in force. -/
def Blk.adaptRate (b : Blk) (es : List QueueEpoch) : Nat :=
  es.foldl (fun n e => if b.pollable e.q then n + pollRate (b.pollCode e.q) else n) 0

/-- The budget case: classes in order until the expected rate is under POLL_BUDGET. `other` is the expected rate of all
polls that no class doubles. -/
def Blk.budget (b : Blk) (es : List QueueEpoch) (touched : List QRef) (delayed other : Nat) : List Nat → Blk
  | [] => b
  | c :: cs =>
    let b' := b.budgetClass es touched delayed c
    if other + b'.adaptRate es < b.img.policy.pollBudget * 1000000 then b'
    else Blk.budget b' es touched delayed other cs

/-- Polls per second expected of every polled queue with the intervals in force; a phase-polled one has no interval. -/
def Blk.expectedRate (b : Blk) (es : List QueueEpoch) : Nat :=
  es.foldl (fun n e => let x := b.queue e.q
    if x.run.polling && !x.cfg.pollPhase && x.resident true then n + pollRate (b.pollCode e.q) else n) 0

/-- The poll rule. -/
def Blk.pollRule (b : Blk) (e : EpochStats) : Blk :=
  let other := b.expectedRate e.queues - b.adaptRate e.queues
  let (b, touched) := e.queues.foldl (fun (st : Blk × List QRef) y =>
    let (b, l) := st
    if b.pollable y.q then
      match b.pollWant y with
      | some (p, cause, metric, bound) => if p = (b.queue y.q).poll then st else (b.setPoll y.q p cause metric bound, l ++ [y.q])
      | none => st
    else st) (b, [])
  if b.sched.pollsMade < 100 * b.sched.pollsDelayed then b.budget e.queues touched b.sched.pollsDelayed other budgetOrder else b

/-! ## The prefetch rule (R314) -/

/-- The prefetch rule. One change for a queue: cache pressure before all, then the cases in the order of R314. DEDUCED:
assumption log 15. -/
def Blk.prefRule (b : Blk) (e : EpochStats) : Blk :=
  let lo := b.img.policy.prefMin
  let hi := b.img.policy.prefMax
  let free := b.cacheTiles - b.sched.cacheMax
  let low := decide (free < 1024)
  e.queues.foldl (fun b y =>
    let x := b.queue y.q
    let tagPct := match b.rangeOf x.cfg.ringBase with | some (_, t) => (e.tagWaitPct[b.egress t]?).getD 0 | none => 0
    let set := fun (p cause metric bound : Nat) =>
      if p = x.pref then b
      else (b.modQueue y.q fun x => { x with pref := p }).decision 2 cause (objOf y.q) x.pref p metric bound
    if y.q.isCell || !b.exists? y.q then b
    else if low then set (clampTo lo hi (x.pref / 2)) 4 free lo
    else if y.underrun || y.late then set (clampTo lo hi (x.pref + 4)) 1 1 hi
    else if y.executed < y.unused then set (clampTo lo hi (x.pref - 2)) 2 y.unused lo
    else if 10 < tagPct then set (clampTo lo hi (x.pref - 2)) 3 tagPct lo
    else b) b

/-! ## The path rule (R315, R208) -/

/-- The path requests with CTRL PATH 0 use on a port: Borage's choice, else the default of the port's lowest TARGET entry
(DESIGN CHOICE: assumption log 15). -/
def Blk.currentPath (b : Blk) (p : Nat) : Nat :=
  match (b.port p).chosen with
  | some q => q
  | none => ((b.img.targets.find? fun t => b.egress t == p).map (·.path)).getD 0

/-- Statistics of a (port, path) pair. -/
def Blk.pathStat (b : Blk) (p q : Nat) : PathStat := tabGet {} (b.port p).paths q

/-- Put another path in place of a port's default (none returns to the defaults): queues with entries that are not yet
published keep the old one (R208), and the latency records of the port are invalidated (R315). -/
def Blk.choosePath (b : Blk) (p : Nat) (q : Option Nat) : Blk :=
  let old := (b.port p).chosen
  let keep := fun (b : Blk) (r : QRef) =>
    let x := b.queue r
    if b.unpublished r && !(x.keepPath.any fun k => k.1 == p) then b.modQueue r fun x => { x with keepPath := x.keepPath ++ [(p, old)] }
    else b
  let b := b.allQueues.foldl keep b
  (b.modPort p fun v => { v with chosen := q }).invalidateLat fun _ t => b.onPort p t

/-- One epoch's figures of a pair enter its statistics. -/
def PathStat.epoch (s : PathStat) (rtt retries : Nat) (better : Bool) : PathStat :=
  { s with
    rtt := rtt, retries := min 255 retries, betterFor := if better then s.betterFor + 1 else 0
    retryEpochs := if 0 < retries then s.retryEpochs + 1 else 0 }

/-- The epoch's figures of a pair; a pair without traffic has none. -/
def epochPath (e : EpochStats) (p q : Nat) : PathEpoch :=
  (e.paths.find? fun y => y.port == p && y.path == q).getD ⟨p, q, 0, 0, 0⟩

/-- Record the epoch's figures of every pair of a port (Table 17-8). -/
def Blk.pathStats (b : Blk) (e : EpochStats) (p : Nat) : Blk :=
  let cur := epochPath e p (b.currentPath p)
  let mean := fun (y : PathEpoch) => if y.reads = 0 then 0 else y.rtt % 65536
  (List.range 16).foldl (fun b q =>
    let y := epochPath e p q
    let better := decide (0 < mean y) && decide (0 < mean cur) && decide (8 * mean y ≤ 7 * mean cur)
    b.modPort p fun v => { v with paths := tabSet {} v.paths q ((tabGet {} v.paths q).epoch (mean y) y.retries better) }) b

/-- The path rule on one port; `was` is the block before the epoch's figures entered. The lowest named path that qualifies
is taken, latency before retries (DESIGN CHOICE: assumption log 15). -/
def Blk.pathRule (was b : Blk) (p : Nat) : Blk :=
  let named := (List.range 16).filter fun q => bit (b.dptPaths p) q
  let cur := b.currentPath p
  let calm := fun q => (b.pathStat p q).retries == 0 && (was.pathStat p q).retries == 0
  let byLat := named.find? fun q => q != cur && decide (8 ≤ (b.pathStat p q).betterFor)
  let byRetry := named.find? fun q => q != cur && decide (2 ≤ (b.pathStat p cur).retryEpochs) && calm q
  let go := fun (q cause metric bound : Nat) =>
    let b := (b.choosePath p (some q)).decision 3 cause p cur q metric bound
    b.modPort p fun v => { v with paths := tabMap {} (fun _ (s : PathStat) => { s with betterFor := 0 }) v.paths }
  match byLat, byRetry with
  | some q, _ => go q 1 (b.pathStat p q).rtt (b.pathStat p cur).rtt
  | none, some q => go q 2 (b.pathStat p cur).retries 0
  | none, none => b

/-! ## The rebalance rule (R206, R316) -/

/-- Tiles per µs of a mover in the last epoch. -/
def Mover.load (v : Mover) : Nat := v.loadRd + v.loadWr

/-- A mover's load is at least `pct` per cent of what its lanes carry (R316). -/
def Blk.loadAtLeast (b : Blk) (m pct : Nat) : Bool := decide (pct * b.clock.mclkKHz ≤ (b.mover m).load * 100000)

/-- A mover's load is at most `pct` per cent. -/
def Blk.loadAtMost (b : Blk) (m pct : Nat) : Bool := decide ((b.mover m).load * 100000 ≤ pct * b.clock.mclkKHz)

/-- Movers in ACTIVE. -/
def Blk.activeMovers (b : Blk) : List Nat := (List.range 18).filter fun m => decide ((b.mover m).state = .active)

/-- The busiest of some movers; the lowest of equals. -/
def Blk.busiest (b : Blk) (l : List Nat) : Option Nat :=
  l.foldl (fun (r : Option Nat) m => match r with
    | some y => if (b.mover y).load < (b.mover m).load then some m else some y
    | none => some m) none

/-- The least busy of some movers; the lowest of equals. -/
def Blk.idlest (b : Blk) (l : List Nat) : Option Nat :=
  l.foldl (fun (r : Option Nat) m => match r with
    | some y => if (b.mover m).load < (b.mover y).load then some m else some y
    | none => some m) none

/-- The rebalance rule. -/
def Blk.rebalanceRule (b : Blk) (e : EpochStats) : Blk :=
  match b.busiest b.activeMovers, b.idlest (b.activeMovers.filter fun m => (b.mover m).freePlace.isSome) with
  | some hot, some cold =>
    if hot = cold || !(b.loadAtLeast hot 85) || !(b.loadAtMost cold 50) then b
    else
      let half2 := (b.mover hot).load - (b.mover cold).load
      let fits := fun (y : QueueEpoch) =>
        let n := y.q.num
        let at_ := tabGet 0 b.sup.moved n
        !y.q.isCell && !(b.queue y.q).cfg.duplex && (b.boundAt y.q).map (·.1) == some hot && decide (2 * y.load ≤ half2)
          && (match b.boundAt y.q with
              | some (m, k) => ((b.binding m k).map fun x => x.moving.isNone && !x.preempt).getD false
              | none => false)
          && decide ((b.queue y.q).run.phase = .bound)
          && (at_ == 0 || decide (b.img.policy.rebalGap ≤ (b.sup.epoch - at_) * 100))
      let best := (e.queues.filter fits).foldl (fun (r : Option QueueEpoch) y => match r with
        | some z => if z.load < y.load then some y else some z
        | none => some y) none
      match best with
      | some y =>
        let b := b.decision 4 1 (objOf y.q) hot cold y.load half2
        let ep := b.sup.epoch
        (b.modSup fun s => { s with moved := tabSet 0 s.moved y.q.num ep }).beginMove y.q cold
      | none => b
  | _, _ => b

/-! ## The performance rule (R317) -/

/-- PWR_PERF_REQ that a target asks for at a throttle level. -/
def Blk.perfFor (b : Blk) (target level : Nat) : Nat :=
  let r := b.reg 0x14048
  min (bits r 10 8) (max (bits r 18 16) (target - level))

/-- Change the request, with its record. -/
def Blk.setPerf (b : Blk) (req cause metric : Nat) : Blk :=
  let old := b.sup.perfReq
  if old = req then b
  else (b.modSup fun s => { s with perfReq := req }).decision 6 cause 0 old req metric (b.regF 0x14048 10 8)

/-- The performance rule at an epoch's end. -/
def Blk.perfRule (b : Blk) : Blk :=
  let act := b.activeMovers
  let top := match b.busiest act with | some m => (b.mover m).load | none => 0
  let old := b.sup.perfTarget
  let target :=
    if act.any fun m => b.loadAtLeast m 50 then b.regF 0x14048 10 8
    else if act.all fun m => b.loadAtMost m 10 then old - 1 else old
  let b := b.modSup fun s => { s with perfTarget := target }
  b.setPerf (b.perfFor target b.sup.applied) (if target = old then 2 else 1) top

/-! ## Epochs, freeze and restore (R311, R312, R321) -/

/-- The figures of an epoch: its number, the loads of the movers and the statistics of the paths (R311). -/
def Blk.epochFigures (b : Blk) (e : EpochStats) : Blk :=
  let b := b.modSup fun s => { s with epoch := s.epoch + 1 }
  let b := (List.range 18).foldl (fun b m =>
    let y := (e.movers.find? fun y => y.mover == m).getD ⟨m, 0, 0⟩
    b.modMover m fun v => { v with loadRd := y.rd % 65536, loadWr := y.wr % 65536 }) b
  (List.range 8).foldl (fun b p => b.pathStats e p) b

/-- The path rule on every port that names paths; `was` is the block before the epoch. -/
def Blk.pathRules (b was : Blk) : Blk :=
  (List.range 8).foldl (fun b p => if b.dptPaths p = 0 then b else Blk.pathRule was b p) b

/-- The rules of R313 to R317 in order, each when it is enabled. -/
def Blk.epochRules (b was : Blk) (e : EpochStats) : Blk :=
  let c := b.reg 0x14000
  let pol := b.img.policy
  let b := if bit c 0 then b.pollRule e else b
  let b := if bit c 1 then b.prefRule e else b
  let b := if pol.pathChange then b.pathRules was else b
  let b := if pol.rebalance then b.rebalanceRule e else b
  if bit c 2 then b.perfRule else b

/-- BORAGE_EPOCH (R311, R312): the epoch's figures, then the rules of R313 to R317 in order. With `freeze` a freeze is selected in
this very cycle: the decisions are dropped (R318). -/
def borageEpochB (freeze : Bool) (b : Blk) : Blk :=
  if !b.on 1 || b.clock.refLost then b
  else
    let e := b.epochStats
    let c := b.epochFigures e
    (if c.adapts && !freeze then c.epochRules b e else c).epochStart

/-- Every adapted setting returns to its base value (R321, R39). -/
def Blk.restoreBase (b : Blk) (cause : Nat) : Blk :=
  let up := fun (x : Queue) => { x with poll := b.pollBase x, pref := b.prefBase x }
  let b' := { b with queues := tabMap {} (fun _ (x : Queue) => if x.run.phase = QPhase.free then x else up x) b.queues }
  let b' := (List.range 8).foldl (fun b p => if (b.port p).chosen.isSome then b.choosePath p none else b) b'
  let b' := b'.modSup fun s => { s with perfTarget := 7 }
  let req := b'.perfFor 7 b'.sup.applied
  (b'.modSup fun s => { s with perfReq := req }).decision 9 cause 0 0 0 0 0

/-- A change of FROZEN with its event and record; the record is Borage's, so none is generated while PD1 is off. -/
def Blk.setFrozen (b : Blk) (port : Nat) (f : Bool) : Blk :=
  let old := bit (b.reg 0x14004) 0
  if old == f then b
  else
    let b := (b.setRegF 0x14004 0 0 (b1 f)).raise 1 10
    if b.on 1 then b.decision (if f then 7 else 8) 0 port (b1 old) (b1 f) 0 0 else b

/-- A write of SUP_FREEZE under key (R321). -/
def Blk.freezeWrite (b : Blk) (port w : Nat) : Blk :=
  let b := b.setFrozen port (bit w 0)
  if bit w 1 && b.on 1 then b.restoreBase 2 else b

/-! ## The decision ring's registers (R319, R320) -/

/-- What SUP_RING_CFG holds after a write of `w` with EN as given (R319): reserved bits read zero. -/
def ringCfgOf (w : Nat) (en : Bool) : Nat := fld (b1 en) 31 1 + fld (bits w 23 16) 16 8 + bits w 4 0

/-- The ring the block's registers name is refused: its size, or its domain's windows (R319). -/
def Blk.ringBad (b : Blk) : Bool :=
  let size := b.regF 0x14014 4 0
  size < 4 || 16 < size || !(b.winOk b.decDom b.decBase (64 * 2 ^ size) false true)

/-- The ring starts: its positions, and the zeroing of its bytes (R319). -/
def Blk.ringOpen (b : Blk) : Blk :=
  let b := (b.setRegF 0x14014 31 31 1).setReg 0x14018 0x10000
  let b := b.modDec fun x => { x with wpos := 0, dseq := 0, runLost := 0, runOpen := false, badcfg := false }
  let (n, b) := b.zeroArea b.decDom .decisionZero 65536 b.decBase (64 * b.decSize) 0
  b.modDec fun x => { x with zeroLeft := n }

/-- A write of SUP_RING_CFG. -/
def Blk.ringCfgWrite (b : Blk) (w : Nat) : Blk :=
  let old := b.reg 0x14014
  if bit old 31 then b.setReg 0x14014 (putBits old 31 31 (bits w 31 31))
  else
    let c := b.setReg 0x14014 (ringCfgOf w false)
    if !bit w 31 then c else if c.ringBad then c.modDec fun x => { x with badcfg := true } else c.ringOpen

/-- A write of SUP_RING_RET (R320). -/
def Blk.ringRetWrite (b : Blk) (w : Nat) : Blk :=
  let n := b.decSize
  let p := posOf w n
  let r := posOf (b.reg 0x14018) n % (2 * n)
  let wp := b.sup.dec.wpos
  if n ≤ bits w 15 0 || (wp + 2 * n - r) % (2 * n) < (p + 2 * n - r) % (2 * n) then b
  else b.setReg 0x14018 (bits w 16 0)

/-! ## Throttle levels (R322-R324) -/

/-- Input `i` is in use. -/
def Blk.tempOn (b : Blk) (i : Nat) : Bool := bit (b.reg (0x14020 + 4 * i)) 31

/-- A temperature input. -/
def Blk.temp (b : Blk) (i : Nat) : TempIn := tabGet {} b.sup.temps i

/-- Change a temperature input. -/
def Blk.modTemp (b : Blk) (i : Nat) (f : TempIn → TempIn) : Blk :=
  b.modSup fun s => { s with temps := tabSet {} s.temps i (f (tabGet {} s.temps i)) }

/-- The level an input wants (R322): T2 while it is at fault or stale. -/
def TempIn.wants (x : TempIn) : Nat := if x.fault || x.stale then 2 else x.level

/-- The filtered code: the median of the last three codes; the filter's places hold zero at reset (assumption log 15). -/
def TempIn.code (x : TempIn) : Nat :=
  let c := fun i => (x.codes[i]?).getD 0
  max (min (c 0) (c 1)) (min (max (c 0) (c 1)) (c 2))

/-- The level of a filtered code, from the level held before (R323). -/
def levelOf (thr code held : Nat) : Nat :=
  let t1 := bits thr 9 0
  let step := bits thr 17 10
  let hyst := bits thr 25 18
  let at_ := fun k => decide (t1 + (k - 1) * step ≤ code) || (decide (k ≤ held) && decide (t1 + (k - 1) * step ≤ code + hyst))
  ([1, 2, 3, 4].filter at_).foldl max 0

/-- The highest level that any input or monitor wants (R323). -/
def Blk.wantedLevel (b : Blk) : Nat :=
  let t := ((List.range 4).filter b.tempOn).foldl (fun n i => max n (b.temp i).wants) 0
  if b.sup.mons.any fun (_, m) => m.warn then max t 2 else t

/-- The wanted level is taken again after a change of cause `cause` (R323, R324). -/
def Blk.throttle (b : Blk) (cause metric : Nat) : Blk :=
  let want := b.wantedLevel
  let max_ := b.img.policy.thrMax
  let applied := min want max_
  let old := b.sup.applied
  if applied ≠ old then
    let b := (b.modSup fun s => { s with want := want, applied := applied }).raise 1 8
    let b := b.decision 5 (if applied < old then 0x30 else cause) 0 old applied metric max_
    let b := if old < applied && bit (b.reg 0x14000) 2 then
        let req := b.perfFor b.sup.perfTarget applied
        if req < b.sup.perfReq then b.setPerf req 2 applied else b
      else b
    if applied = 4 then
      let park := fun (v : Mover) => if v.state = .spare then { v with state := .retired, t4held := true } else v
      { b with movers := tabMap {} (fun _ v => park v) b.movers }
    else if applied < 3 then
      let free := fun (v : Mover) =>
        if v.t4held then { v with state := if v.state = .retired then .spare else v.state, t4held := false } else v
      { b with movers := tabMap {} (fun _ v => free v) b.movers }
    else b
  else if want ≠ b.sup.want then (b.modSup fun s => { s with want := want }).raise 1 8
  else b

/-- An input's fault, staleness or code changes: MON_TEMP when its level changes or `loud` (Table 14-4, R323). -/
def Blk.tempUpdate (b : Blk) (i : Nat) (loud : Bool) (f : TempIn → TempIn) : Blk :=
  let old := (b.temp i).wants
  let b := b.modTemp i f
  let b := if loud || (b.temp i).wants ≠ old then b.raise 1 (4 + i) else b
  b.throttle (0x10 + i) (b.temp i).code

/-- TEMP_SAMPLE (R322, R323, Table 14-4). -/
def tempSampleB (i code : Nat) (b : Blk) : Blk :=
  if !b.on 1 || !b.tempOn i then b
  else if code = 0 ∨ code = 0x3FF then b.tempUpdate i true fun x => { x with fault := true, stale := false }
  else
    let thr := b.reg (0x14020 + 4 * i)
    b.tempUpdate i false fun x =>
      let y := { x with codes := (code :: x.codes).take 3 }
      { y with fault := false, stale := false, level := levelOf thr y.code x.wants }

/-- TEMP_STALE (Table 14-4): no TEMP_VALID for 1 ms. -/
def tempStaleB (i : Nat) (b : Blk) : Blk :=
  if !b.on 1 || !b.tempOn i then b else b.tempUpdate i true fun x => { x with stale := true }

/-- THERMAL_SHED (R325): an entry of a domain queue that throttling has held for SUP_SHED.MS ms halts its queue. -/
def thermalShedB (q : QRef) (b : Blk) : Blk :=
  let lvl := b.sup.applied
  if q.isCell || lvl < 3 || b.regF 0x14044 15 0 = 0 || !(heldAt lvl (b.svcOf q)) then b
  else match b.boundAt q with
    | none => b
    | some (m, k) =>
      let info := infoOf [(0, 1, lvl)]
      match b.binding m k with
      | none => b
      | some x => match x.exec.find? fun e => !e.dead && !e.issuedAll with
        | some e => (b.failEntry m k e.pos 0x70 info).pump m k
        | none => match x.exec, x.lbuf with
          | [], l :: _ =>
            let b := b.haltWith q (haltReport 0x70 l.pos l.desc.cookie 0 0 info)
            (b.modBinding m k fun x => { x with lbuf := [], plans := [] }).pump m k
          | _, _ => b

/-! ## Context banks (R13, R289, R290, R329) -/

/-- Change the context banks. -/
def Blk.modBanks (b : Blk) (f : Banks → Banks) : Blk := { b with banks := f b.banks }

/-- Take a bank out of service (R289, R326); BANK_A or BANK_B is raised. -/
def Blk.bankOut (b : Blk) (bankB : Bool) : Blk :=
  let out := if bankB then b.banks.bOut else b.banks.aOut
  let other := if bankB then b.banks.aOut else b.banks.bOut
  if out || other then b
  else (b.modBanks fun x => if bankB then { x with bOut := true } else { x with aOut := true }).raise 5 (if bankB then 3 else 2)

/-- A queue loses its context (R290): its binding stops at its stop point, then its LOST record is written. -/
def Blk.loseContext (b : Blk) (q : QRef) (tiles : Nat) : Blk :=
  let info := infoOf [(0, 1, tiles)]
  match (b.queue q).run.phase with
  | .free | .destroying | .lost => b
  | _ =>
    let b := b.modBanks fun x => { x with lost := incr 14 x.lost }
    match b.boundAt q with
    | none => (b.dropWaiters q).loseQueue q 0x51 info
    | some (m, k) =>
      let r : Report := { rtype := 3, status := 0x51, detail := 0, pos := (b.queue q).run.head, cookie := 0, srcOfs := 0,
                          dstOfs := 0, info := info }
      let l := ((b.binding m k).map (·.exec)).getD []
      let b := l.foldl (fun b e => ((b.dropArmed m k e).dropReads (isReadOf q e.pos)).sfRelease (q, e.pos)) b
      let b := b.modBinding m k fun x => { x with
        lbuf := [], plans := []
        exec := x.exec.map fun e => { e with
          dead := true, out := [], buf := [], gate := none
          reads := e.reads.filter fun r => r.done || ((b.port r.port).recOf q e.pos r.seq).isSome } }
      ((b.dropWaiters q).modQueue q fun x => { x with report := some r, ending := .draining }).pump m k

/-- Count a repair against a bank; past CTXW_ERR_LIM within one second the bank leaves service while the other serves. -/
def Blk.repair (b : Blk) (bankB : Bool) : Blk :=
  let lim := b.regF 0x13000 15 0
  let now := b.now
  let recent := fun (l : List Nat) => l.filter (fun t => decide (now < t + 1000000000)) ++ [now]
  let b := b.modBanks fun x =>
    if bankB then { x with repB := incr 8 x.repB, secB := recent x.secB } else { x with repA := incr 8 x.repA, secA := recent x.secA }
  let n := (if bankB then b.banks.secB else b.banks.secA).length
  if lim ≠ 0 ∧ lim < n then b.bankOut bankB else b

/-- CONTEXT_SCRUB (R289, R290): a scrub read of tile `tile` of a queue's context. A bank out of service is not read. A read of the
tile by another unit that finds one bank's copy bad is the same event: the other bank serves it, and the bad copy is written back
and counted (R13, R285). -/
def contextScrubB (q : QRef) (tile : Nat) (r : ScrubResult) (b : Blk) : Blk :=
  let x := b.banks
  let badA := !x.aOut && (r == .badA || r == .badBoth)
  let badB := !x.bOut && (r == .badB || r == .badBoth)
  let okA := !x.aOut && !badA
  let okB := !x.bOut && !badB
  if !((b.queue q).resident true) || !(badA || badB) then b
  else if okA || okB then b.repair badB
  else (b.loseContext q (2 ^ tile)).jobsCheck

/-- A write of CTXW_REBUILD under key (R329). -/
def Blk.rebuildWrite (b : Blk) (w : Nat) : Blk :=
  let op := bits w 9 8
  let bankB := bit w 0
  let x := b.banks
  let out := if bankB then x.bOut else x.aOut
  let other := if bankB then x.aOut else x.bOut
  let b := b.setReg 0x13008 (b1 bankB)
  if op = 0 ∨ op = 3 then b
  else if x.busy then b.modBanks fun x => { x with err := 2 }
  else if !out || other then b.modBanks fun x => { x with err := 1 }
  else b.modBanks fun x => { x with busy := true, done := false, pass := false, bank := bankB, op := op, err := 0, progress := 0,
                                    mirror := op == 2 }

/-- CTXW_REBUILD_DONE (R329): the operation ends; a COPY returns the bank to service, and the queues whose tiles failed in
the serving bank are lost. -/
def ctxwRebuildDoneB (pass : Bool) (lost : List QRef) (b : Blk) : Blk :=
  let x := b.banks
  if !x.busy then b
  else
    let copy := x.op == 2
    let b := if copy then lost.foldl (fun b q => if (b.queue q).resident true then b.loseContext q 3 else b) b else b
    let ok := copy || pass
    let b := b.modBanks fun y => { y with
      busy := false, done := true, pass := ok, progress := 32768, mirror := false
      aOut := if copy && !x.bank then false else y.aOut, bOut := if copy && x.bank then false else y.bOut }
    b.jobsCheck

/-! ## Process monitors (R326) -/

/-- A ring-oscillator monitor. -/
def Blk.mon (b : Blk) (d : Nat) : RoMon := tabGet {} b.sup.mons d

/-- Change a monitor. -/
def Blk.modMon (b : Blk) (d : Nat) (f : RoMon → RoMon) : Blk :=
  b.modSup fun s => { s with mons := tabSet {} s.mons d (f (tabGet {} s.mons d)) }

/-- The domain has acknowledged its power-up: its monitor starts anew, and its next window sets REF (R326). -/
def Blk.monRestart (b : Blk) (d : Nat) : Blk :=
  if b.mon d = {} then b else (b.modMon d fun _ => {}).throttle 0x20 0

/-- MON_VOLT[d]. -/
def Blk.monVolt (b : Blk) (d : Nat) : Blk := b.raiseAt 2 d

/-- The block's own PAUSE of R286: held apart from software stops. -/
def Blk.critPauseOn (b : Blk) : Blk :=
  if b.sched.critPause then b else (b.modSched fun s => { s with critPause := true }).reStopAll

/-- The action of a CRIT breach by domain (Table 14-6). -/
def Blk.critAction (b : Blk) (d : Nat) : Blk :=
  if d = 0 then b
  else if d ≤ 2 then b.critPauseOn
  else if d ≤ 4 then squareHalfFailureB (d - 3) b
  else if d ≤ 6 then b.bankOut (d == 6)
  else if d = 7 then ({ b with pool := { b.pool with off := true } }).sfAllOff
  else b.declareFail (d - 8) 5

/-- A CRIT breach: MON_VOLT and the domain's action. -/
def Blk.critBreach (b : Blk) (d : Nat) : Blk := ((b.monVolt d).critAction d).jobsCheck

/-- RO_WINDOW (R326): the count of one 40 µs window. -/
def roWindowB (d count : Nat) (b : Blk) : Blk :=
  if !b.on d || !b.on 1 then b
  else
    let x := b.mon d
    let thr := b.reg 0x14040
    if !x.refSet then
      let khz := b.clock.mclkKHz
      let b := b.modMon d fun x => { x with ref := count, refSet := true, count := count, critAt := bits thr 15 8, critKHz := khz,
                                            high := 0, low := 0, ok := 0, crit := 0 }
      if count = 0 then b.critBreach d else b
    else
      let hi := decide (x.ref * (256 + bits thr 23 16) < count * 256)
      let lo := decide (bits thr 7 0 ≠ 0) && decide (count * 256 < x.ref * (256 - bits thr 7 0))
      let high := if hi then min 3 (x.high + 1) else 0
      let low := if lo then min 3 (x.low + 1) else 0
      let ok := if lo then 0 else min 2 (x.ok + 1)
      let b := b.modMon d fun x => { x with
        count := count, high := high, low := low, ok := ok
        warn := if 2 ≤ low then true else if 2 ≤ ok then false else x.warn }
      let b := if high = 2 then b.monVolt d else b
      let b := if low = 2 then b.monVolt d else b
      b.throttle 0x20 count

/-- RO_FAST_WINDOW (R326): the count of one window of 8 MCLK cycles against the scaled CRIT bound. -/
def roFastWindowB (d count : Nat) (b : Blk) : Blk :=
  let x := b.mon d
  if !b.on d || !b.on 1 || !x.refSet then b
  else
    let below := decide (count * 256 * x.critKHz < x.ref * (256 - x.critAt) * 200)
    let n := if below then min 3 (x.crit + 1) else 0
    let b := b.modMon d fun x => { x with crit := n }
    if n = 2 then b.critBreach d else b

/-! ## Mover service (R328) -/

/-- Change the mover service status. -/
def Blk.modSvc (b : Blk) (f : MovSvc → MovSvc) : Blk := { b with movp := { b.movp with svc := f b.movp.svc } }

/-- Change a power domain. -/
def Blk.modPd (b : Blk) (d : Nat) (f : PowDom → PowDom) : Blk :=
  { b with power := { b.power with doms := tabSet {} b.power.doms d (f (tabGet {} b.power.doms d)) } }

/-- A service command ends. -/
def Blk.svcEnd (b : Blk) (pass : Bool) (fail : Nat) : Blk :=
  b.modSvc fun x => { x with busy := false, done := true, pass := pass, fail := fail }

/-- A write of MOV_SVC under key (R328). -/
def Blk.movSvcWrite (b : Blk) (w : Nat) : Blk :=
  let m := bits w 4 0
  let op := bits w 9 8
  let role := bit w 12
  let st := (b.mover m).state
  let b := b.setReg 0x11214 (fld (b1 role) 12 1 + m)
  let idle := st == .retired || st == .failed
  let ok := if op = 3 then st == .off && !bit b.img.ident.moverOff m else idle
  if 17 < m ∨ op = 0 then b
  else if b.movp.svc.busy then b.modSvc fun x => { x with err := 2 }
  else if !ok then
    let b := b.modSvc fun x => { x with err := 1 }
    if op = 2 ∧ !(b.mover m).places.isEmpty then
      ({ b with power := { b.power with refused := incr 8 b.power.refused, last := moverPd m } }).raise 0 6
    else b
  else
    let b := b.modSvc fun _ => { busy := true, mover := m, op := op }
    let b := b.modMover m fun v => { v with roleSpare := role, t4held := false }
    match op with
    | 1 => b.modMover m fun v => { v with state := .test }
    | 2 =>
      if (tabGet {} b.power.doms (moverPd m) : PowDom).ack then b.modPd (moverPd m) fun x => { x with req := false, going := true }
      else
        -- the domain is down already
        ((b.modPd (moverPd m) fun x => { x with req := false, going := false }).modMover m fun v =>
          { v with state := .off, cause := 0 }).svcEnd false 0
    | _ => b.modPd (moverPd m) fun x => { x with req := true, ack := false, going := false }

/-- MOVER_SELFTEST_DONE (R328): a pass makes the mover ACTIVE or SPARE by ROLE, a failure FAILED. At T4 a spare mover is held in
RETIRED (R324). -/
def moverSelftestDoneB (m fail : Nat) (b : Blk) : Blk :=
  if (b.mover m).state ≠ .test then b
  else
    let b := b.modMover m fun v => { v with tests := incr 8 v.tests }
    let b := if b.movp.svc.busy && b.movp.svc.mover == m then b.svcEnd (decide (fail = 0)) fail else b
    if fail ≠ 0 then b.modMover m fun v => { v with state := .failed, cause := 6 }
    else
      let parked := decide (b.sup.applied = 4)
      let b := b.modMover m fun v => { v with
        state := if v.roleSpare then (if parked then .retired else .spare) else .active
        cause := 0, dataFailAt := none, t4held := v.t4held || (v.roleSpare && parked) }
      if (b.mover m).state = .active then
        -- the mover takes back the place a spare held for it (R202, R293), then shadows and waiting queues (R152, R205)
        let b := { b with standIn := tabSet none b.standIn m none }.reShadow m
        (List.range 64).foldl (fun b _ => b.serveBindList m) b
      else b

/-! ## Square halves (R330) -/

/-- The reorder locations of a half's ports that failed its test are mapped out (R330). -/
def Blk.halfMapped (b : Blk) (h : Nat) (mapped : List Nat) : Blk :=
  (List.range 4).foldl (fun b i => b.modPort (4 * h + i) fun v => { v with
    robMapped := (mapped.filter fun y => y / 4096 == i).map (· % 4096), robSuspect := [] }) b

/-- The ports that a half's failure lost return with it (R330). -/
def Blk.halfUp (b : Blk) (h : Nat) : Blk :=
  (List.range 4).foldl (fun b i => b.modPort (4 * h + i) fun v => { v with
    lost := if v.lostByHalf then !v.up else v.lost, lostByHalf := false }) b

/-- SQUARE_HALF_SELFTEST_DONE (R330): the test that follows a power-up of PD3 or PD4. `mapped` lists the failing locations,
4,096 times the port within the half plus the location. -/
def squareHalfSelftestDoneB (h : Nat) (mapped : List Nat) (pass : Bool) (b : Blk) : Blk :=
  if !b.on (3 + h) || !b.halfTest.contains h then b
  else
    let b := ({ b with halfTest := b.halfTest.filter (· != h) }).halfMapped h mapped
    if pass then
      ({ b with halfFailed := b.halfFailed.filter (· != h), halfFails := b.halfFails.filter fun x => x.1 != h }).halfUp h
    else ({ b with halfFailed := addOnce h b.halfFailed }).raise 5 (6 + h)

end Sys2Proof.Machine
end

