-- ==== Sys2Proof/Machine/Image.lean ====
section
/-! DEFINITION. Reading a Feldawald image: the header and directory checks in the order of R29 and R30, the sections of
Tables 2-3 to 2-10, and every range and cross-check of R32. -/

namespace Sys2Proof.Machine
open Sys2Proof

/-! ## Header and directory -/

/-- Reason of Table 2-12 for a header that fails R29, the first failing check in its order; 0 for a valid one. -/
def headerReason (c : List Byte) : Nat :=
  let n := leAt c 0x06 2
  if leAt c 0 4 ≠ 0x57444C46 then 1
  else if crc32 (slice c 0 0x3C) ≠ leAt c 0x3C 4 then 3
  else if leAt c 5 1 ≠ 3 then 2
  else if n < 1 ∨ 16 < n ∨ 131072 < leAt c 0x10 4 then 0xA
  else if leAt c 0x14 1 % 4 = 3 ∨ leAt c 0x15 1 < 5 ∨ 250 < leAt c 0x15 1 then 8
  else if crc32 (slice c 0x40 (16 * n)) ≠ leAt c 0x38 4 then 4
  else 0

/-- Directory entry `i` of a copy (Table 2-2). -/
def dirEntry (c : List Byte) (i : Nat) : DirEntry :=
  let o := 0x40 + 16 * i
  { typ := leAt c o 2, optional := bit (leAt c (o + 2) 2) 0, offset := leAt c (o + 4) 4, length := leAt c (o + 8) 4,
    crc := leAt c (o + 12) 4 }

/-- Entry size of a known section type (Table 2-3); 0 for an unknown one. -/
def entrySize (t : Nat) : Nat :=
  match t with
  | 1 => 64 | 2 => 32 | 3 => 16 | 4 => 16 | 5 => 64 | 6 => 32 | 7 => 64 | 8 => 256
  | _ => 0

/-- The loader knows the section type (Table 2-3). -/
def knownType (t : Nat) : Bool := decide (0 < entrySize t)

/-- Two sections share a byte (R30). -/
def overlaps (x y : DirEntry) : Bool :=
  decide (max x.offset y.offset < min (x.offset + x.length) (y.offset + y.length))

/-- Some two entries of a list, the earlier first, are related by `r`. -/
def somePair {α : Type} (r : α → α → Bool) : List α → Bool
  | [] => false
  | x :: l => l.any (r x) || somePair r l

/-- The header of a copy that passed R29. -/
def copyHdr (c : List Byte) : CopyHdr :=
  let dir := (List.range (leAt c 0x06 2)).map (dirEntry c)
  { seq := leAt c 8 4, build := leAt c 0x0C 4, spiMode := leAt c 0x14 1 % 4, spiDiv := leAt c 0x15 1,
    skipped := (dir.filter fun e => !knownType e.typ).length, dir := dir }

/-- Reason of Table 2-12 for a directory that fails R30 in its order; 0 for a valid one. -/
def dirReason (c : List Byte) (h : CopyHdr) : Nat :=
  let start := 0x40 + 16 * h.dir.length
  let copyLen := leAt c 0x10 4
  if somePair (fun x y => x.typ == y.typ) h.dir || h.dir.any (fun e => !knownType e.typ && !e.optional) then 2
  else if h.dir.any (fun e => decide (e.offset % 64 ≠ 0) || decide (e.offset < start)
      || (knownType e.typ && decide (e.length % entrySize e.typ ≠ 0)) || decide (copyLen < e.offset + e.length))
      || somePair overlaps h.dir then 0xA
  else if [1, 2, 4, 7].any (fun t => !(h.dir.any fun e => e.typ == t)) then 6
  else 0

/-- The bytes read as an erased or blank copy (Table 2-11, HDR). -/
def blankCopy (c : List Byte) : Bool := c.all (· == 0xFF#8) || c.all (· == 0x00#8)

/-! ## Sections -/

/-- The entries of a section, `n` bytes each. -/
def entriesOf (n : Nat) (bs : List Byte) : List (List Byte) :=
  (List.range (bs.length / n)).map fun i => slice bs (n * i) n

/-- IDENT (Table 2-4). -/
def identOf (e : List Byte) : Ident :=
  let lim := leAt e 0x1D 1
  { inst := leAt e 0 1 % 64, spareMask := bits (leAt e 4 4) 17 0, moverOff := bits (leAt e 8 4) 17 0,
    mewsTiles := leAt e 0x0C 2, portEn := leAt e 0x0E 1, bist := bit (leAt e 0x0F 1) 0, frozen := bit (leAt e 0x0F 1) 1,
    backBase := leAt e 0x10 8, backCtx := leAt e 0x18 4, backDom := leAt e 0x1C 1, mps := 128 * 2 ^ bits lim 2 0,
    mrrs := 128 * 2 ^ bits lim 5 3, boundary := 4096 * 2 ^ (leAt e 0x1E 1 % 4) }

/-- A DOMAIN entry (Table 2-5). -/
def domainOf (e : List Byte) : DomEntry :=
  { adminBase := leAt e 0 8, enable := bit (leAt e 8 1) 0, adminExp := leAt e 9 1, winFirst := leAt e 0x0A 2,
    winCount := leAt e 0x0C 1, share := leAt e 0x0D 1, adminVec := bits (leAt e 0x0E 2) 11 0, adminCpl := leAt e 0x10 8,
    quota := leAt e 0x18 4 }

/-- A WINDOW entry (Table 2-6). -/
def windowOf (e : List Byte) : WinEntry :=
  { base := leAt e 0 8, pages := leAt e 8 4, read := bit (leAt e 0x0C 4) 0, write := bit (leAt e 0x0C 4) 1 }

/-- A TARGET entry (Table 2-7). -/
def targetEntry (e : List Byte) : Target :=
  let a := leAt e 0x0C 4
  { base := leAt e 0 8, pages := leAt e 8 4, slot := bits a 4 0, slotValid := bit a 5, egress := bits a 8 6,
    norep := bit a 9, path := bits a 13 10 }

/-- A CELLQ entry (Table 2-8). -/
def cellOf (e : List Byte) : CellEntry :=
  let q := leAt e 0x18 4
  let home := bits q 13 9
  { cfg := { ringBase := leAt e 0 8, ringExp := leAt e 0x11 1, cplAddr := leAt e 8 8, dom := leAt e 0x10 1,
             poll := leAt e 0x14 2, vec := bits (leAt e 0x16 2) 11 0, duplex := bit q 1, ownback := bit q 2,
             adminMark := bit q 3, pollPhase := bit q 4, pollPu := bits q 8 5, home := some home, poisonStop := bit q 14 },
    enable := bit q 0, weight := leAt e 0x12 1, burst := leAt e 0x13 1, home := home }

/-- A PHASE entry (Table 2-9). -/
def phaseOf (e : List Byte) : PhaseEntry :=
  { source := leAt e 0 1, loss := leAt e 1 1 % 4, refUnit := leAt e 2 1 % 16, filter := leAt e 3 1,
    modulus := bits (leAt e 4 4) 23 0, num := leAt e 8 2, den := leAt e 0x0A 2, lossTmo := leAt e 0x0C 4,
    coast := leAt e 0x10 4 }

/-- POLICY (Table 2-10). -/
def policyOf (e : List Byte) : Policy :=
  { pollMin := leAt e 0 2, pollMax := leAt e 2 2, prefMin := leAt e 4 1, prefMax := leAt e 5 1, thrMax := leAt e 6 1,
    rebalance := bit (leAt e 7 1) 0, pathChange := bit (leAt e 7 1) 1, pollBudget := leAt e 8 4,
    rebalGap := leAt e 0x0C 2 }

/-- The sections of a copy, as (type, bytes) pairs. -/
abbrev Sections := List (Nat × List Byte)

/-- The bytes of a section; none if the image has none of that type. -/
def sectionOf (s : Sections) (t : Nat) : List Byte := ((s.find? fun x => x.1 == t).map (·.2)).getD []

/-- The image has a section of that type. -/
def hasSection (s : Sections) (t : Nat) : Bool := s.any fun x => x.1 == t

/-- The image the sections spell. -/
def imageOf (s : Sections) : Image :=
  { ident := identOf (sectionOf s 1), domains := (entriesOf 32 (sectionOf s 2)).map domainOf,
    windows := (entriesOf 16 (sectionOf s 3)).map windowOf, targets := (entriesOf 16 (sectionOf s 4)).map targetEntry,
    cells := (entriesOf 64 (sectionOf s 5)).map cellOf, phases := (entriesOf 32 (sectionOf s 6)).map phaseOf,
    policy := policyOf (sectionOf s 7), sempage := (sectionOf s 8).map (·.toNat),
    bytes := s.foldl (fun n x => n + x.2.length) 0 }

/-- The entry counts of Table 2-3. -/
def countsOk (s : Sections) : Bool :=
  s.all fun (t, bs) =>
    let n := bs.length / max 1 (entrySize t)
    match t with
    | 1 | 7 | 8 => n == 1
    | 2 => decide (1 ≤ n) && decide (n ≤ 256)
    | 3 => decide (n ≤ 4096)
    | 4 => decide (1 ≤ n) && decide (n ≤ 1024)
    | 5 => decide (n ≤ 64)
    | 6 => n == 16
    | _ => true

/-- SPARE_MASK is one pair of R11 and does not overlap MOVER_OFF (Table 2-4). -/
def sparesOk (d : Ident) : Bool :=
  ((List.range 9).any fun k => d.spareMask == 3 * 4 ^ k) && Nat.land d.spareMask d.moverOff == 0

/-- The mover is in the active set of the image (Table 2-4). -/
def Ident.active (d : Ident) (m : Nat) : Bool := decide (m < 18) && !bit d.spareMask m && !bit d.moverOff m

/-- Ranges and cross-checks of an enabled DOMAIN entry (Table 2-5). -/
def domOk (im : Image) (d : DomEntry) : Bool :=
  !d.enable ||
    (decide (d.adminBase % 64 = 0) && decide (4 ≤ d.adminExp) && decide (d.adminExp ≤ 16) && decide (d.winCount ≤ 16)
      && decide (d.winFirst + d.winCount ≤ im.windows.length) && decide (1 ≤ d.share) && decide (d.adminCpl % 8 = 0))

/-- Ranges and cross-checks of a CELLQ entry (Table 2-8, R78). -/
def cellOk (im : Image) (c : CellEntry) : Bool :=
  let b : Blk := { image := some im }
  let n := 64 * 2 ^ c.cfg.ringExp
  decide (c.cfg.ringBase % 64 = 0) && decide (c.cfg.cplAddr % 8 = 0) && (b.domEntry c.cfg.dom).isSome
    && decide (4 ≤ c.cfg.ringExp) && decide (c.cfg.ringExp ≤ 16) && decide (1 ≤ c.weight) && decide (1 ≤ c.burst)
    && decide (c.burst ≤ 64) && im.ident.active c.home
    && b.winOk c.cfg.dom c.cfg.ringBase n true c.cfg.ownback && b.rangesCover c.cfg.ringBase n
    && b.winOk c.cfg.dom c.cfg.cplAddr 8 false true && b.rangesCover c.cfg.cplAddr 8

/-- Following REF_UNIT over RATIO units from `v` comes back to `u` within the steps (Table 2-9). -/
def phaseLoop (ps : List PhaseEntry) (u : Nat) : Nat → Nat → Bool
  | 0, _ => false
  | n + 1, v =>
    match ps[v]? with
    | some e => e.source == 5 && (e.refUnit == u || phaseLoop ps u n e.refUnit)
    | none => false

/-- Two TARGET ranges share a byte (Table 2-7). -/
def targetsOverlap (x y : Target) : Bool :=
  decide (max x.base y.base < min (x.base + x.pages * 4096) (y.base + y.pages * 4096))

/-- Every range and cross-check of Tables 2-4 to 2-10 but SPARES. -/
def rangesOk (im : Image) : Bool :=
  let d := im.ident
  let b : Blk := { image := some im }
  decide (256 ≤ d.mewsTiles) && decide (d.mewsTiles ≤ 4096) && decide (d.backBase % 4096 = 0)
    && decide (d.backCtx ≤ 245760) && decide (d.mps ≤ 4096) && decide (d.mrrs ≤ 4096)
    && (d.backCtx == 0 || ((b.domEntry d.backDom).isSome && b.winOk d.backDom d.backBase (d.backCtx * 128) true true))
    && im.domains.all (domOk im)
    && im.windows.all (fun w => decide (w.base % 4096 = 0) && decide (1 ≤ w.pages))
    && im.targets.all (fun t => decide (t.base % 4096 = 0) && decide (1 ≤ t.pages))
    && !somePair targetsOverlap im.targets
    && im.cells.all (cellOk im)
    && im.phases.all (fun p => decide (p.source ≤ 5) && decide (p.loss ≤ 2) && (p.source != 5 || decide (p.den ≠ 0)))
    && (List.range 16).all (fun u => !phaseLoop im.phases u 16 u)
    && decide (im.policy.pollMin ≤ im.policy.pollMax) && decide (im.policy.prefMin ≤ im.policy.prefMax)
    && decide (im.policy.prefMax ≤ 64) && decide (im.policy.thrMax ≤ 4)
    && decide (1 ≤ im.policy.pollBudget) && decide (im.policy.pollBudget ≤ 200)
    && !(im.sempage.take 2).any (fun p => bit p 7)

/-- What VERIFY makes of the sections read (R32): the image, or the reason it is refused with. The entry counts are
judged first, then SPARES, then the ranges. DEDUCED: assumption log 16. -/
def judge (s : Sections) : Except Nat Image :=
  let im := imageOf s
  if !countsOk s then .error 8
  else if !sparesOk im.ident then .error 7
  else if !rangesOk im then .error 8
  else .ok im

/-- The sections of known type, each with its bytes if they pass their CRC, else with those of the other copy where R33
allows it; none where a section fails. `secs` holds the bytes read for each entry of `dir`, `alt` those of the other copy's
section of the same type, whose entry lies in `other`. The flag says that some section came from the other copy. -/
def gather (other : Option (List DirEntry)) : List DirEntry → List (List Byte) → List (List Byte) → Option (Sections × Bool)
  | [], _, _ => some ([], false)
  | e :: dir, secs, alt =>
    let bs := secs.headD []
    let rest := gather other dir secs.tail alt.tail
    if !knownType e.typ then rest
    else if bs.length = e.length ∧ crc32 bs = e.crc then rest.map fun (l, m) => ((e.typ, bs) :: l, m)
    else
      let bs' := alt.headD []
      let same := match other with
        | some o => o.any fun x => x.typ == e.typ && x.crc == e.crc && x.length == e.length
        | none => false
      if same && bs'.length == e.length && crc32 bs' == e.crc then rest.map fun (l, _) => ((e.typ, bs') :: l, true)
      else none

end Sys2Proof.Machine
end

