-- ==== Sys2Proof/Machine/Loader.lean ====
section
/-! DEFINITION. The image loader (R27-R44): the states of Table 2-11, the choice of a copy, power-up and self-test, the
placing of an image, RELOAD, warm restart and the flash commands of LDR_CMD. Log 16 holds the readings. -/

namespace Sys2Proof.Machine
open Sys2Proof

/-- Change the loader. -/
def Blk.modLdr (b : Blk) (f : Loader → Loader) : Blk := { b with ldr := f b.ldr }

/-- A command of LDR_CMD ends: BUSY clears, ERR is set and LDR_DONE is raised; nothing where no command is in progress. -/
def Blk.ldrEnd (b : Blk) (err : Nat) : Blk :=
  if b.ldr.busy then (b.modLdr fun l => { l with busy := false, owner := 0, err := err }).raise 0 8 else b

/-! ## What power-down and RELOAD discard (Tables 2-15, 17-3) -/

/-- A register kept across RELOAD: guarded pages, the power page and SUP_FREEZE (Table 17-3). -/
def keptReg (a : Nat) : Bool := decide (a < 0x06000) || decide (a / 0x1000 = 0x16) || decide (a = 0x14004)

/-- Power groups of POWER, in the order of R20 (R35). -/
def powerGroups : List (List Nat) :=
  [[1], [5, 6], [2], [3, 4], [7]] ++ (List.range 9).map fun k => [8 + 2 * k, 9 + 2 * k]

/-- PWR_REQ falls on the domains still to be powered down, in their order: one whose PWR_ACK is high is awaited (R20, R352). -/
def Blk.downNext : Nat → Blk → Blk
  | 0, b => b
  | n + 1, b =>
    match b.power.downs with
    | [] => b
    | d :: t =>
      let b := b.modPd d fun x => { x with req := false }
      if (tabGet {} b.power.doms d).ack then b
      else
        let b := b.modPd d fun x => { x with going := false }
        Blk.downNext n { b with power := { b.power with downs := t } }

/-- PD25 to PD1 are powered down in the reverse of the order of R20 (R20, R34, R352). Each counts as off at once; its PWR_REQ
falls when every domain before it in that order has gone down. That the loader goes on meanwhile, and that POWER requests
nothing before the last is down, is a DESIGN CHOICE (log 29). -/
def Blk.powerDownAll (b : Blk) : Blk :=
  let l := (powerGroups.flatten.reverse).filter fun d => let x : PowDom := tabGet {} b.power.doms d; x.req || x.ack
  let doms := tabMap {} (fun _ (x : PowDom) => { x with going := x.req || x.ack, ret := false, retAsk := false }) b.power.doms
  Blk.downNext 26 { b with power := { b.power with doms := doms, downs := l } }

/-- Everything outside PD0 is discarded: what remains is the clocks, the power page, the loader, the management side, the
slots, the guarded registers and the pins as accepted (Tables 2-15 and 17-3). -/
def Blk.discard (b : Blk) : Blk :=
  let c := b.powerDownAll
  { clock := c.clock, power := c.power, ldr := c.ldr, mg := c.mg, regs := c.regs.filter fun (a, _) => keptReg a
    links := c.links, ctoLinks := c.ctoLinks
    ports := tabMap {} (fun _ (v : Port) => { up := v.up, lost := v.lost && !v.lostByHalf }) c.ports
    slots := tabMap {} (fun _ (x : Slot) => { x with held := [], tokenRead := false }) c.slots
    order := c.order, relaySeq := c.relaySeq, freeNo := c.freeNo }

/-! ## SAFE and HDR -/

/-- Enter SAFE (R38): only PD0 stays powered, no copy is in use. -/
def Blk.toSafe (b : Blk) : Blk :=
  let b := b.discard
  let b := b.modLdr fun l => { l with state := .safe, safe := true, copyUsed := 0, staged := none, missed := [], spi := [] }
  b.ldrEnd 0

/-- A read of `len` bytes at flash address `a` with command 0x03, single I/O, MGCLK / 20 (R34, R43). -/
def spiRead (a len : Nat) : SpiCmd := ⟨0x03, some a, len, 1, 20⟩

/-- Reading the sections of a copy with its SPI_MODE and SPI_DIV (R29, R34 VERIFY and APPLY). -/
def spiSections (h : CopyHdr) (base : Nat) : List SpiCmd :=
  let op := match h.spiMode with | 0 => 0x0B | 1 => 0x3B | _ => 0x6B
  h.dir.map fun e => ⟨op, some (base + e.offset), e.length, 2 ^ h.spiMode, h.spiDiv⟩

/-- Enter HDR: a pass is counted and what LDR_STAT says of the copies is written anew; 320 B are read at the start of each
copy. -/
def Blk.toHdr (b : Blk) (repeats : Nat) : Blk :=
  b.modLdr fun l => { l with
    state := .hdr, safe := false, copyUsed := 0, reasonA := 0, reasonB := 0, skipped := 0, seqA := 0, seqB := 0
    bootCount := satInc 255 l.bootCount, hdrA := none, hdrB := none, refusedA := false, refusedB := false
    blankRepeats := repeats, blankWait := false, staged := none, mixed := false, altSecs := [], missed := []
    spi := [spiRead 0 320, spiRead 0x20000 320] }

/-- Power-on reset is released: RESET to WAIT (Table 2-11). -/
def Blk.toWait (b : Blk) : Blk := if b.ldr.state = .reset then b.modLdr fun l => { l with state := .wait } else b

/-- NVM_SETTLE_DONE: the 1,000 REFCLK cycles of WAIT have passed: WAIT to HDR. In a block still in RESET those cycles include
the release, so it makes both transitions of Table 2-11 in turn (DESIGN CHOICE, log 29). -/
def nvmSettleDoneB (b : Blk) : Blk :=
  let b := b.toWait
  if b.ldr.state = .wait then b.toHdr 0 else b

/-- Refuse a copy with a reason of Table 2-12. -/
def Loader.refuse (l : Loader) (useB : Bool) (reason : Nat) : Loader :=
  if useB then { l with refusedB := true, reasonB := reason } else { l with refusedA := true, reasonA := reason }

/-- CHOOSE: the choice rule over the copies not yet refused; SAFE if none remains (Table 2-11). -/
def Blk.choose (b : Blk) : Blk :=
  let l := b.ldr
  let a := !l.refusedA
  let c := !l.refusedB
  if !a && !c then b.toSafe
  else
    let d := (l.seqA + 2 ^ 32 - l.seqB) % 2 ^ 32
    let useB := if a && c then decide (2 ^ 31 < d) else c
    b.modLdr fun l =>
      let h := if useB then l.hdrB else l.hdrA
      { l with state := .verify, useB := useB, skipped := (h.map (·.skipped)).getD 0
               spi := (h.map fun x => spiSections x (if useB then 0x20000 else 0)).getD [] }

/-- HDR judges one copy (R29, R30): its header if that is valid, and the reason it is refused with or 0. -/
def judgeCopy (c : List Byte) : Option CopyHdr × Nat :=
  let r := headerReason c
  if r ≠ 0 then (none, r)
  else
    let h := copyHdr c
    (some h, dirReason c h)

/-- HDR_READ_DONE: 320 B of each copy have been read. Two blank copies are read again after 1 ms, at most three times. -/
def hdrReadDoneB (copyA copyB : List Byte) (b : Blk) : Blk :=
  if b.ldr.state ≠ .hdr ∨ b.ldr.blankWait then b
  else if blankCopy copyA && blankCopy copyB && decide (b.ldr.blankRepeats < 3) then b.modLdr fun l => { l with blankWait := true }
  else
    let (ha, ra) := judgeCopy copyA
    let (hb, rb) := judgeCopy copyB
    let b := b.modLdr fun l => { l with
      hdrA := ha, hdrB := hb, seqA := (ha.map (·.seq)).getD 0, seqB := (hb.map (·.seq)).getD 0
      refusedA := decide (ra ≠ 0), refusedB := decide (rb ≠ 0), reasonA := ra, reasonB := rb }
    b.choose

/-- HDR_RETRY: the 1 ms wait of a blank HDR is over. -/
def hdrRetryB (b : Blk) : Blk :=
  if b.ldr.state = .hdr ∧ b.ldr.blankWait then b.toHdr (b.ldr.blankRepeats + 1) else b

/-! ## VERIFY -/

/-- The header of the chosen copy. -/
def Loader.hdr (l : Loader) : Option CopyHdr := if l.useB then l.hdrB else l.hdrA

/-- The other copy's directory where R33 allows a section to be taken from it: both headers valid, IMAGE_SEQ and BUILD_ID
equal. -/
def Loader.otherDir (l : Loader) : Option (List DirEntry) :=
  match l.hdrA, l.hdrB with
  | some x, some y => if x.seq = y.seq ∧ x.build = y.build then some (if l.useB then x.dir else y.dir) else none
  | _, _ => none

/-- Refuse the chosen copy and choose again. -/
def Blk.refuseCopy (b : Blk) (reason : Nat) : Blk := (b.modLdr fun l => l.refuse l.useB reason).choose

/-- The entry of a directory whose section fails its own CRC, so that R33 took it from the other copy. -/
def fromAlt (e : DirEntry) (bs : List Byte) : Bool := knownType e.typ && !(bs.length == e.length && crc32 bs == e.crc)

/-- The image being brought up. -/
def Blk.stagedImg (b : Blk) : Image := b.ldr.staged.getD {}

/-- The domains of group `i` that are requested: none of MOVER_OFF (R35). -/
def Blk.groupDoms (b : Blk) (i : Nat) : List Nat :=
  ((powerGroups[i]?).getD []).filter fun d => decide (d < 8) || !(bit b.stagedImg.ident.moverOff (d - 8))

/-- Request every domain of group `i`. -/
def Blk.requestGroup (b : Blk) (i : Nat) : Blk :=
  (b.groupDoms i).foldl (fun b d => b.modPd d fun x => { x with req := true, going := false }) b

/-! ## Mapped-out movers (Table 2-14) -/

/-- Active movers of an image that are mapped out, each with the spare that joins in its place, lowest number first. -/
def Blk.replacements (b : Blk) (im : Image) : List (Nat × Nat) :=
  let bad := fun (m : Nat) => decide ((b.mover m).state = .failed)
  let lost := (List.range 18).filter fun m => im.ident.active m && bad m
  let spares := (List.range 18).filter fun m => bit im.ident.spareMask m && !bad m
  lost.zip spares

/-- HOME of a cell queue after Table 2-14. -/
def homeAfter (rep : List (Nat × Nat)) (home : Nat) : Nat := ((rep.find? fun x => x.1 == home).map (·.2)).getD home

/-- Some cell queue has its HOME on a pair with no mover left, and no spare in HOME's place. Table 2-14 names two mapped-out
movers. That a mover of MOVER_OFF counts as mapped out here, so that a HOME mapped out beside it leads to SAFE, is a DESIGN
CHOICE: such a mover is never powered (log 29). -/
def Blk.homeless (b : Blk) (im : Image) : Bool :=
  let rep := b.replacements im
  im.cells.any fun c =>
    let h := homeAfter rep c.home
    decide ((b.mover h).state = .failed) && (decide ((b.mover (partner h)).state = .failed) || bit im.ident.moverOff (partner h))

/-- POWER or SELFTEST is over: APPLY, or SAFE where a cell queue has no mover left (Table 2-14). -/
def Blk.toApply (b : Blk) : Blk :=
  if b.homeless b.stagedImg then b.toSafe
  else b.modLdr fun l => { l with state := .apply, spi := (l.hdr.map fun x => spiSections x (if l.useB then 0x20000 else 0)).getD [] }

/-- A mover is mapped out and held powered down. -/
def Blk.mapOut (b : Blk) (m cause : Nat) : Blk :=
  (b.modMover m fun v => { v with state := .failed, cause := cause }).modPd (moverPd m) fun x => { x with req := false }

/-! ## POWER (R35, R36, R333) -/

/-- Every domain of the present group has answered or timed out. -/
def Blk.groupDone (b : Blk) : Bool :=
  (b.groupDoms b.ldr.groupAt).all fun d => (let x := tabGet {} b.power.doms d; x.req && x.ack) || b.ldr.missed.contains d

/-- Request the next group once the present one has acknowledged; after the last, SELFTEST or APPLY. -/
def Blk.powerNext : Nat → Blk → Blk
  | 0, b => b
  | fuel + 1, b =>
    if !b.groupDone then b
    else
      let i := b.ldr.groupAt + 1
      if i < 14 then Blk.powerNext fuel ((b.modLdr fun l => { l with groupAt := i }).requestGroup i)
      else if b.stagedImg.ident.bist then b.modLdr fun l => { l with state := .selftest }
      else b.toApply

/-- PD1 is requested in POWER once a whole MCLK measurement is in range (R333) and no power-down is left to complete. -/
def Blk.powerStart (b : Blk) : Blk :=
  let pd1 : PowDom := tabGet {} b.power.doms 1
  if b.ldr.state == .power && b.ldr.groupAt == 0 && b.clock.mclkOk && b.power.downs.isEmpty && !pd1.req && !(b.ldr.missed.contains 1)
  then (b.requestGroup 0).powerNext 20 else b

/-- Enter POWER (R333). -/
def Blk.toPower (b : Blk) : Blk :=
  (b.modLdr fun l => { l with state := .power, groupAt := 0, missed := [], spi := [] }).powerStart

/-- VERIFY_DONE: every section of the chosen copy has been read, `alt` the other copy's of the same types. -/
def verifyDoneB (secs alt : List (List Byte)) (b : Blk) : Blk :=
  match b.ldr.state, b.ldr.hdr with
  | .verify, some h =>
    match gather b.ldr.otherDir h.dir secs alt with
    | none => b.refuseCopy 5
    | some (s, mixed) =>
      match judge s with
      | .error r => b.refuseCopy r
      | .ok im =>
        (b.modLdr fun l => { l with
          staged := some im, mixed := mixed
          altSecs := (h.dir.zip (secs ++ List.replicate h.dir.length [])).map fun (e, bs) => fromAlt e bs }).toPower
  | _, _ => b

/-- A domain of POWER gave no acknowledge (Table 2-13). -/
def Blk.powerMissed (b : Blk) (d : Nat) : Blk :=
  let m := b.ldr.missed
  if d ≤ 2 then b.toSafe
  else if d ≤ 4 then
    if m.contains 3 && m.contains 4 then b.toSafe else { b with halfFailed := addOnce (d - 3) b.halfFailed }
  else if d ≤ 6 then
    if m.contains 5 && m.contains 6 then b.toSafe
    else b.modBanks fun x => if d = 6 then { x with bOut := true } else { x with aOut := true }
  else if d = 7 then { b with pool := { b.pool with off := true } }
  else b.mapOut (d - 8) 5

/-- Log PWR_TIMEOUT with the domain number (R36, Table 17-10). -/
def Blk.logTimeout (b : Blk) (d : Nat) : Blk :=
  ({ b with power := { b.power with timeouts := incr 8 b.power.timeouts, last := d } }).raise 0 7

/-- PWR_TIMEOUT: 100 µs have passed without the acknowledge (R36, R333, R352). -/
def pwrTimeoutB (d : Nat) (b : Blk) : Blk :=
  let x := tabGet {} b.power.doms d
  if b.ldr.state = .power then
    if (b.groupDoms b.ldr.groupAt).contains d && !(x.req && x.ack) && !(b.ldr.missed.contains d) then
      let b := ((b.modPd d fun x => { x with req := false }).logTimeout d).modLdr fun l => { l with missed := l.missed ++ [d] }
      let b := b.powerMissed d
      if b.ldr.state = .power then b.powerNext 20 else b
    else b
  else if b.movp.svc.busy && b.movp.svc.op == 3 && moverPd b.movp.svc.mover == d && x.req && !x.ack then
    let b := ((b.modPd d fun x => { x with req := false }).logTimeout d).svcEnd false 0
    b.modMover (d - 8) fun v => { v with state := .failed, cause := 5 }
  else b

/-! ## SELFTEST (R37, Table 2-14) -/

/-- What a self-test result leaves marked (R37, R288): failed powered movers are mapped out, failed banks, Chervil tiles, pool
extents and Square halves are out of use. -/
def Blk.bistKept (b : Blk) (r : BistResult) : Blk :=
  let f := r.fail.toNat
  let b := b.modLdr fun l => { l with bist := f }
  let powered := fun (m : Nat) => !(bit b.stagedImg.ident.moverOff m)
  let b := ((List.range 18).filter fun m => bit f m && powered m).foldl (fun b m => b.mapOut m 6) b
  let b := b.modBanks fun x => { x with aOut := x.aOut || bit f 18, bOut := x.bOut || bit f 19 }
  let b := b.modSched fun s => { s with chervilMapped := r.chervilTiles.foldl (fun l t => addOnce t l) [] }
  { b with
    pool := { b.pool with
      mapped := (r.poolTiles.map (· / 16)).foldl (fun l x => addOnce x l) []
      off := b.pool.off || decide (256 < r.poolTiles.length) }
    halfFailed := ([0, 1].filter fun h => bit f (22 + h)).foldl (fun l h => addOnce h l) b.halfFailed }

/-- SELFTEST_DONE: the failures are recorded in LDR_BIST and acted on. -/
def selftestDoneB (r : BistResult) (b : Blk) : Blk :=
  if b.ldr.state ≠ .selftest then b
  else
    let b := b.bistKept r
    if (b.banks.aOut && b.banks.bOut) || decide (256 < r.chervilTiles.length) then b.toSafe else b.toApply

/-! ## APPLY -/

/-- The sections read again in APPLY, each from the copy that supplied it in VERIFY; none on a CRC mismatch. -/
def regather : List DirEntry → List Bool → List (List Byte) → List (List Byte) → Option Sections
  | [], _, _, _ => some []
  | e :: dir, alts, secs, alt =>
    let bs := if alts.headD false then alt.headD [] else secs.headD []
    let rest := regather dir alts.tail secs.tail alt.tail
    if !knownType e.typ then rest
    else if bs.length = e.length ∧ crc32 bs = e.crc then rest.map fun l => (e.typ, bs) :: l
    else none

/-- The register fields whose reset is the image's (R368): CELLQ, DOMAIN and PHASE. -/
def Blk.placeRegs (b : Blk) (im : Image) : Blk :=
  let b := im.cells.zipIdx.foldl (fun b (c, n) =>
    (b.setReg (0x08000 + 4 * n) c.weight).setReg (0x08100 + 4 * n) c.burst) b
  let b := im.domains.zipIdx.foldl (fun b (d, n) => if d.enable then b.setReg (0x09000 + 4 * n) d.share else b) b
  im.phases.zipIdx.foldl (fun b (p, u) =>
    let b := b.setReg (puA u 0) (fld p.refUnit 8 4 + fld p.loss 4 2 + fld p.source 0 3)
    let b := b.setRegF (puA u 1) 7 0 p.filter
    let b := b.setReg (puA u 2) p.modulus
    let b := b.setReg (puA u 3) (fld p.den 16 16 + fld p.num 0 16)
    (b.setReg (puA u 4) p.lossTmo).setReg (puA u 5) p.coast) b

/-- The movers take the states of the image: the active set with the spares that join it, the spares left, OFF (R35,
Table 2-14). -/
def Blk.placeMovers (b : Blk) (im : Image) : Blk :=
  let rep := b.replacements im
  let state := fun (m : Nat) => if (b.mover m).state = .failed then MovState.failed
    else if bit im.ident.moverOff m then .off
    else if bit im.ident.spareMask m && !(rep.any fun x => x.2 == m) then .spare else .active
  let b := { b with activeSet := (List.range 18).filter fun m => state m == .active, standIn := [] }
  (List.range 18).foldl (fun b m => b.modMover m fun v => { v with state := state m }) b

/-- Cell queue `n` of the image: enabled ones are bound from APPLY, the others are STOPPED under DISABLE (R81, R202). -/
def Blk.placeCell (b : Blk) (rep : List (Nat × Nat)) (c : CellEntry) (n : Nat) : Blk :=
  let q := QRef.cell n
  let cfg := { c.cfg with home := some (homeAfter rep c.home) }
  let b := b.setQueue q { cfg := cfg, poll := cfg.poll, pref := b.img.policy.prefMax, run := { phase := .idle, nospill := true } }
  if c.enable then b.bindOrWait q
  else b.modQueue q fun x => { x with stop := some (stopOf .disable), acting := some (stopOf .disable), run := { x.run with phase := .stopped } }

/-- Place an image (R31, Table 2-11 APPLY). -/
def Blk.place (b : Blk) (im : Image) : Blk :=
  let rep := b.replacements im
  let b := { b with image := some im }
  let b := (b.placeRegs im).setRegF 0x14004 0 0 (b1 im.ident.frozen)
  let b := im.domains.zipIdx.foldl (fun b (d, n) => if d.enable then b.modDomain n fun x => { x with quota := d.quota } else b) b
  let b := b.placeMovers im
  let b := im.cells.zipIdx.foldl (fun b (c, n) => b.placeCell rep c n) b
  let b := b.puApply
  let b := if b.clock.rangePause then b.reStopAll else b
  forEach (List.range 32) (fun s b => if (b.slot s).state = .settle then b.sltTrySettle s else b) b

/-- APPLY_DONE: every section has been read again. A CRC mismatch powers PD25 to PD1 down and refuses the copy with REREAD;
otherwise the configuration is placed and the loader is READY (Table 2-11). -/
def applyDoneB (secs alt : List (List Byte)) (b : Blk) : Blk :=
  match b.ldr.state, b.ldr.hdr with
  | .apply, some h =>
    match regather h.dir b.ldr.altSecs secs alt with
    | none => (b.discard.modLdr fun l => { l with staged := none }).refuseCopy 9
    | some s =>
      let im := imageOf s
      let l := b.ldr
      let b := b.place im
      let b := b.modLdr fun _ => { l with
        state := .ready, store := some im, staged := none, build := h.build, imageSeq := h.seq
        copyUsed := if l.mixed then 3 else if l.useB then 2 else 1
        reasonA := if l.useB && !l.mixed && !l.refusedA then 0xB else l.reasonA
        reasonB := if !l.useB && !l.mixed && !l.refusedB then 0xB else l.reasonB }
      b.ldrEnd 0
  | _, _ => b

/-! ## RELOAD (Table 2-11) -/

/-- Instance-level DISABLE has taken effect on every queue. -/
def Blk.allStopped (b : Blk) : Bool :=
  let rest := fun (x : Queue) => match x.run.phase with
    | .free | .stopped | .spilled | .halted | .lost => true
    | _ => false
  (b.queues.all fun (_, x) => rest x) && (b.cells.all fun (_, x) => rest x)
    && b.movers.all fun (_, v) => v.places.isEmpty

/-- RELOAD goes on once every queue is at rest: PD25 to PD1 go down, the retained store is cleared, HDR begins. More than 256
Chervil tiles mapped out in service make it enter SAFE (R288). -/
def Blk.reloadCheck (b : Blk) : Blk :=
  if b.ldr.state = .reload ∧ b.allStopped then
    let bad := decide (256 < b.sched.chervilMapped.length)
    let b := b.discard.modLdr fun l => { l with store := none }
    if bad then b.toSafe else b.toHdr 0
  else b

/-- Enter RELOAD: an instance-level DISABLE (R259). -/
def Blk.toReload (b : Blk) : Blk :=
  let l := { b.ldr with state := LdrState.reload }
  let b := (({ b with ldr := l }).modSched fun s => { s with warmJobs := [] }).stopInstanceOp (stopOf .disable)
  (b.modLdr fun _ => l).reloadCheck

/-! ## Warm restart (R39-R41, R88, R281, R290) -/

/-- Rename what every packet is for. -/
def Blk.mapPurpose (b : Blk) (f : Purpose → Purpose) : Blk :=
  let g := fun (k : Pkt) => { k with purpose := f k.purpose }
  { b with ports := tabMap {} (fun _ (v : Port) => { v with wait := v.wait.map g, pres := v.pres.map g
                                                            toks := v.toks.map fun r => { r with pkt := g r.pkt } }) b.ports }

/-- A command before its commit point has no effect: what it had taken is released (R40). -/
def Blk.releaseJob (b : Blk) (j : AdminJob) : Blk :=
  let b := match j.slot with
    | some k => b.modSched fun s => { s with backUsed := s.backUsed.filter (· != k) }
    | none => b
  match j.wait with
  | .word =>
    { b.mapPurpose (fun u => if u = .firstWord (.dom j.qid) then .reject else u) with queues := tabSet {} b.queues j.qid {} }
  | .zeroes => b.mapPurpose fun u => if u = .ringZero j.dom then .reject else u
  | _ => b

/-- Enter WARMRST: commands before their commit point are undone, to be completed after the restart (R40). -/
def Blk.toWarm (b : Blk) : Blk :=
  let (late, early) := b.sched.jobs.partition fun j => decide (j.wait = .free)
  let l := { b.ldr with state := LdrState.warmrst, warmDue := false }
  let b := early.foldl (fun b j => b.releaseJob j) b
  (b.modSched fun s => { s with jobs := late, warmJobs := early }).modLdr fun _ => l

/-- A cell queue in LOST is rebuilt: tile 0 from the store, tile 1 from the copy of its last accepted completion word; it then
starts as after DISABLE (R290). -/
def Blk.rebuildCell (b : Blk) (n : Nat) : Blk :=
  let q := QRef.cell n
  match (b.queue q).run.phase, b.img.cells[n]? with
  | .lost, some c =>
    let old := b.queue q
    let h := tabGet 0 b.sched.lostCells n
    let r := { old.run with phase := QPhase.idle, head := h, tail := h, fetched := h, retiredTo := h, mark := {}, pauseMark := false
                            polling := old.run.firstNudge, prevLast := true, chainTimer := false }
    let b := b.setQueue q { cfg := { c.cfg with home := old.cfg.home }, poll := c.cfg.poll, pref := b.img.policy.prefMax
                            stop := old.stop, run := r }
    match b.levels q with
    | some s => b.modQueue q fun x => { x with acting := some s, run := { x.run with phase := .stopped } }
    | none => b.bindOrWait q
  | _, _ => b

/-- Chervil starts with an empty cache: the known tail is set back to the head index and the ring is read again (R88). -/
def Blk.refetchQueue (b : Blk) (q : QRef) : Blk :=
  let x := b.queue q
  if !(x.resident true) then b
  else
    let b := b.modQueue q fun x => { x with cache := [], recheck := none,
                                            run := { x.run with tail := x.run.head, chainTimer := false } }
    b.chervilRead q none false

/-- WARM_RESTART_DONE: the configuration has been re-applied from the retained store, or a tile of the store failed and the
block enters RELOAD (R41). -/
def warmRestartDoneB (storeOk : Bool) (b : Blk) : Blk :=
  if b.ldr.state ≠ .warmrst then b
  else if !storeOk then b.toReload
  else
    let commanded := b.ldr.busy
    let l := { b.ldr with state := LdrState.ready }
    let b := ({ b with ldr := l }).modSched fun s => { s with mews := [] }
    let b := (List.range 64).foldl (fun b n => b.rebuildCell n) b
    let b := b.allQueues.foldl (fun b q => b.refetchQueue q) b
    let b := b.restoreBase 1
    let b := b.allQueues.foldl (fun b q => if b.asleep (b.queue q).cfg.dom then b else b.releaseHeld q) b
    let js := b.sched.warmJobs
    let b := js.foldl (fun b j => b.refuse j.ring j.cmd 0x7F 0x11) (b.modSched fun s => { s with warmJobs := [] })
    let b := if commanded && b.sched.critPause then (b.modSched fun s => { s with critPause := false }).unStopAll else b
    (b.jobsCheck.modLdr fun _ => l).ldrEnd 0

/-- INTERNAL (R286): a control-plane mismatch is raised and leads to a warm restart; a second one within a second of it to the
block's own PAUSE. During a flash operation the restart waits for its end. -/
def internalB (unit : Nat) (b : Blk) : Blk :=
  if !b.on 1 || !b.ready || decide (unit < 1) || decide (5 < unit) then b
  else
    let b := b.raise 5 9
    let again := match b.sched.parityAt with
      | some t => decide (b.now ≤ t + 1000000000)
      | none => false
    if again then b.critPauseOn
    else
      let b := b.modSched fun s => { s with parityAt := some b.now }
      match b.ldr.state with
      | .ready => b.toWarm
      | .nvop => b.modLdr fun l => { l with warmDue := true }
      | _ => b

/-! ## LDR_CMD (R42-R44) -/

/-- LDR_NVADDR. -/
def Blk.nvAddr (b : Blk) : Nat := b.regF 0x04008 17 0

/-- The flash address lies in the copy named by COPY_USED, and for a mixed image in copy B (R44). -/
def Blk.inUse (b : Blk) (a : Nat) : Bool :=
  !b.inSafe && (match b.ldr.copyUsed with
    | 1 => decide (a < 0x20000)
    | 2 | 3 => decide (0x20000 ≤ a)
    | _ => false)

/-- The bytes of LDR_WBUF. -/
def Blk.wbuf (b : Blk) : List Byte := (List.range 64).flatMap fun k => leBytes 4 (b.reg (0x04100 + 4 * k))

/-- Fill LDR_WBUF. -/
def Blk.setWbuf (b : Blk) (bs : List Byte) : Blk :=
  (List.range 64).foldl (fun b k => b.setReg (0x04100 + 4 * k) (leAt bs (4 * k) 4)) b

/-- The bytes NV_READ finds at an address are the flash's: free values where the command that carries them is a write of
LDR_CMD (log 6). -/
def Blk.freeBytes (b : Blk) : Nat → List Byte × Blk
  | 0 => ([], b)
  | n + 1 =>
    let (i, b) := b.fresh
    let (l, b) := Blk.freeBytes b n
    (Config.freeByte i :: l, b)

/-- Set LDR_STAT.ERR. -/
def Blk.ldrErr (b : Blk) (e : Nat) : Blk := b.modLdr fun l => { l with err := e }

/-- A command written to LDR_CMD under key by port `port` (Table 2-19); `data` is what NV_READ reads, if it is known. -/
def Blk.ldrCmd (b : Blk) (port op : Nat) (data : Option (List Byte)) : Blk :=
  let l := b.ldr
  let allowed := match op with
    | 0x01 | 0x10 | 0x11 | 0x12 => l.state == .ready || l.state == .safe
    | 0x02 => l.state == .ready
    | _ => false
  if l.busy then b.ldrErr 1
  else if !allowed then b.ldrErr 6
  else
    let b := b.modLdr fun l => { l with opcode := op }
    let a := b.nvAddr
    let begin_ := fun (b : Blk) => b.modLdr fun l => { l with busy := true, owner := port, err := 0 }
    match op with
    | 0x01 => (begin_ b).toReload
    | 0x02 => (begin_ b).toWarm
    | 0x10 =>
      if a % 256 ≠ 0 then b.ldrErr 3
      else
        let (bs, b) := match data with
          | some bs => (bs, begin_ b)
          | none => (begin_ b).freeBytes 256
        ((b.setWbuf bs).modLdr fun l => { l with spi := [spiRead a 256] }).ldrEnd 0
    | _ =>
      if a % (if op = 0x11 then 4096 else 256) ≠ 0 then b.ldrErr 3
      else if b.inUse a then b.ldrErr 2
      else
        let st := b.ldr.state
        (begin_ b).modLdr fun l => { l with
          state := .nvop, wpN := true, nv := some ⟨op, a, b.wbuf, st, 0, port⟩
          spi := [⟨0x06, none, 0, 1, 20⟩, if op = 0x11 then ⟨0x20, some a, 0, 1, 20⟩ else ⟨0x02, some a, 256, 1, 20⟩] }

/-- The flash operation under way ends (R43); a warm restart that waited for it begins. -/
def Blk.nvEnd (b : Blk) (o : NvOp) (err : Nat) : Blk :=
  let b := (b.modLdr fun l => { l with state := o.from_, nv := none, wpN := false }).ldrEnd err
  if b.ldr.warmDue && b.ldr.state == .ready then b.toWarm else b

/-- NV_STATUS_POLL: the status register's busy bit, read every 10 µs; `readBack` is what follows a program (R43). -/
def nvStatusPollB (busy : Bool) (readBack : List Byte) (b : Blk) : Blk :=
  match b.ldr.nv with
  | some o =>
    let n := o.polls + 1
    let back := if !busy && o.opcode == 0x12 then [spiRead o.addr 256] else []
    let b := b.modLdr fun l => { l with spi := (⟨0x05, none, 1, 1, 20⟩ : SpiCmd) :: back }
    if busy then
      if (if o.opcode = 0x11 then 40000 else 500) < n then b.nvEnd o 4
      else b.modLdr fun l => { l with nv := some { o with polls := n } }
    else if o.opcode = 0x12 && (readBack != b.wbuf) then b.nvEnd o 5
    else b.nvEnd o 0
  | none => b

/-! ## After every command -/

/-- What a command run on `b` and answering `c` may have made due: in RELOAD, the queues that have come to rest (Table 2-11). A
command that enters RELOAD makes the check itself. -/
def Blk.after (b c : Blk) : Blk := if b.ldr.state = .reload then c.reloadCheck else c

end Sys2Proof.Machine
end

