-- ==== Sys2Proof/Machine/Power.lean ====
section
/-! DEFINITION. Power-on reset, the clocks of R18 and R19, the power handshakes of R352 with what a domain loses while it is
off (R367), and the reset of a management port (R334). Log 17 holds the readings. -/

namespace Sys2Proof.Machine
open Sys2Proof

/-! ## The access log (R53) -/

/-- An empty access-log record. -/
def alog0 : AlogRec := ⟨0, 0, 0, 0, false, 0, 0⟩

/-- Write one access-log record and raise ACCESS_LOG (R53, Table 3-11). -/
def Blk.logRec (b : Blk) (kind port size : Nat) (write : Bool) (sub addr : Nat) : Blk :=
  let i := b.mg.alogPtr
  let r : AlogRec := ⟨addr % 2 ^ 20, kind, port, size, write, sub, b.clock.slowEpoch % 65536⟩
  let mg := { b.mg with alog := tabSet alog0 b.mg.alog (i % 16) r, alogPtr := incr 32 i }
  ({ b with mg := mg }).raise 0 0

/-- The owner of a semaphore (R67). -/
def Blk.semOwner (b : Blk) (n : Nat) : Option MPort := tabGet none b.mg.sems n

/-- Set the owner of a semaphore. -/
def Blk.setSem (b : Blk) (n : Nat) (o : Option MPort) : Blk := { b with mg := { b.mg with sems := tabSet none b.mg.sems n o } }

/-! ## Completions to tunnel reads (R362) -/

/-- The completion of an inbound read: CPLD with its bytes, or CPL with a completer status. -/
def Blk.sendCpl (b : Blk) (port tag gen addr cstat : Nat) (data : List Byte) (purpose : Purpose) : Blk :=
  let k := { pkt0 with addr := addr, len := data.length, data := data, tag := tag, gen := gen, cstat := cstat, purpose := purpose, order := b.order }
  ({ b with order := b.order + 1 }).modPort port fun v => { v with cplWait := v.cplWait ++ [k], idle := false }

/-- Give a tunnel access its answer: a refused read completer abort, a write nothing. -/
def Blk.tunnelBack (b : Blk) (p : MPort) (t : TunnelBack) (data : BitVec 64) (err : Bool) : Blk :=
  if !t.isRead then b
  else if err then b.sendCpl t.port t.tag t.gen t.addr 2 [] (.tunnel p)
  else b.sendCpl t.port t.tag t.gen t.addr 0 (slice (leBytes 8 data.toNat) (t.addr % 8) t.len) (.tunnel p)

/-- An answered SHD write joins the pending shadows; older ones of the same register are merged into it (R59). -/
def Blk.shdAnswered (b : Blk) (w : ShdWrite) : Blk :=
  let older := fun (l : List ShdWrite) => (l.takeWhile fun y => y != w)
  { b with shadow := tabSet (0, 0) b.shadow w.addr (w.value, 15)
           inShadow := (older b.inShadow).filter (·.addr != w.addr) ++ (b.inShadow.drop ((older b.inShadow).length + 1)) }

/-- Port `p` has received one more answer: the SHD write it answers, if any, is no longer in progress (R59). -/
def Blk.shdReturn (b : Blk) (p : MPort) : Blk :=
  let b := { b with inShadow := b.inShadow.map fun (w : ShdWrite) => if w.port = p then { w with ahead := w.ahead - 1 } else w }
  (b.inShadow.filter fun (w : ShdWrite) => decide (w.port = p) && w.ahead == 0).foldl Blk.shdAnswered b

/-- A port returns its oldest answer (R46, R348). -/
def Blk.returnAnswer (b : Blk) (p : MPort) : Blk :=
  match (b.side p).outstanding with
  | a :: l =>
    let b := b.shdReturn p
    let b := b.modSide p fun s => { s with outstanding := l }
    match a.tunnel with
    | some t => b.tunnelBack p t a.data a.err
    | none => b.modSide p fun s => { s with returned := some a }
  | [] => b

/-! ## Port reset and the lapse of a key (R334, R65) -/

/-- PORT_RESET (R334). A SHD write whose answer the reset drops has been made: it is pending like an answered one (log 29). -/
def portResetB (p : MPort) (b : Blk) : Blk :=
  let lost := (b.side p).outstanding
  let b := lost.foldl (fun b a => match a.tunnel with
    | some t => b.tunnelBack p t 0#64 true
    | none => b) b
  let b := (b.inShadow.filter fun w => decide (w.port = p)).foldl Blk.shdAnswered b
  let b := (b.mbxAbandon p).modSide p fun s => { s with outstanding := [], returned := none, remain := 0, mbx := {}, evtCount := [] }
  (List.range 64).foldl (fun b n =>
    if b.semOwner n = some p then (b.setSem n none).logRec 7 0 2 false 0 (0x01100 + 4 * n) else b) b

/-- KEY_UNLOCK_LAPSE (R65): 1,024 MGCLK cycles have passed since the key. -/
def keyUnlockLapseB (p : MPort) (b : Blk) : Blk := b.modSide p fun s => { s with remain := 0 }

/-! ## Clocks -/

/-- CLOCK_MEASUREMENT (R19): the two clocks measured over 10 µs. A PAUSE of the block's own follows MCLK; POWER waits for a
measurement in range before it requests PD1 (R333). -/
def clockMeasurementB (mclkKHz mgclkKHz : Nat) (b : Blk) : Blk :=
  if b.clock.refLost then b
  else
    let inside := decide (600000 ≤ mclkKHz) && decide (mclkKHz ≤ 1200000)
    let was := b.clock.rangePause
    let b := { b with clock := { b.clock with mclkKHz := mclkKHz, mgclkKHz := mgclkKHz, mclkOk := inside } }
    let b := if mclkKHz < 588000 ∨ 1224000 < mclkKHz then
        let b := b.raise 0 2
        if was then b else ({ b with clock := { b.clock with rangePause := true } }).reStopAll
      else if inside && was then ({ b with clock := { b.clock with rangePause := false } }).unStopAll
      else b
    let b := if mgclkKHz < 245000 ∨ 255000 < mgclkKHz then b.raise 0 3 else b
    b.powerStart

/-- REFCLK_LOST (R19): REFCLK_LOST is raised; the SLOW copies and the slot timers freeze. -/
def refclkLostB (b : Blk) : Blk :=
  if b.clock.refLost then b else ({ b with clock := { b.clock with refLost := true } }).raise 0 4

/-- REFCLK_RETURN (R19): REFCLK edges come again. -/
def refclkReturnB (b : Blk) : Blk :=
  if b.clock.refLost then
    b.slots.foldl (fun b x => b.sltResume x.1) { b with clock := { b.clock with refLost := false } }
  else b

/-- MGCLK_GAP (R18): MGCLK has stopped and returned. -/
def mgclkGapB (b : Blk) : Blk := b.raise 0 5

/-! ## What a domain loses while it is off (R367, Table 1-4) -/

/-- The power domain of a register (Table 17-1, R367). -/
def regPd (a : Nat) : Nat :=
  let p := a / 0x1000
  if p < 6 ∨ p = 0x16 ∨ a = 0x14004 then 0 else if p = 0x0F ∨ p = 0x10 then 7 else 1

/-- The registers of a domain return to their reset values; its shadows are discarded. -/
def Blk.resetRegs (b : Blk) (d : Nat) : Blk :=
  { b with regs := b.regs.filter fun (a, _) => regPd a != d, shadow := b.shadow.filter fun (a, _) => regPd a != d,
           inShadow := b.inShadow.filter fun w => regPd w.addr != d }

/-- PD1 powers up after being off: what the scheduler, Lovage, Borage, the event logic, the phase units and the request lines
held is gone; image-supplied fields and quotas are written again from the retained store. -/
def Blk.resetPd1 (b : Blk) : Blk :=
  let b := b.resetRegs 1
  let b := { b with
    vec := {}, pus := [], lines := [], vlines := [], sup := {}, trace := {}, lats := [], pfail := 0, upd := {}, mga := {}, mgb := {}
    movp := {}, rerouted := []
    domains := tabMap {} (fun _ (x : Domain) => ({ rseq := x.rseq, total := x.total } : Domain)) b.domains
    sched := { nudged := b.sched.nudged, mews := b.sched.mews, chervilMapped := b.sched.chervilMapped, chervilSuspect := b.sched.chervilSuspect, lostCells := b.sched.lostCells,
               backUsed := b.sched.backUsed, instStop := b.sched.instStop, critPause := b.sched.critPause,
               bindSeq := b.sched.bindSeq, ownedSeq := b.sched.ownedSeq } }
  match b.image with
  | none => b
  | some im =>
    let b := b.placeRegs im
    let b := im.domains.zipIdx.foldl (fun b (e, n) => if e.enable then b.modDomain n fun x => { x with quota := e.quota } else b) b
    b.allQueues.foldl (fun b q => b.bindOrWait q) b.puApply

/-- PD2 powers up after being off: Chervil's cache, the Mews and the nudge bitmap are empty. -/
def Blk.resetPd2 (b : Blk) : Blk :=
  let b := b.modSched fun s => { s with nudged := [], mews := [], chervilMapped := [], chervilSuspect := [], cacheMax := 0, pollWait := [] }
  b.allQueues.foldl (fun b q => b.refetchQueue q) b

/-- A Square half powers up after being off: its ports start anew and the service self-test runs (R330). -/
def Blk.resetHalf (b : Blk) (h : Nat) : Blk :=
  let b := (List.range 4).foldl (fun b i => b.modPort (4 * h + i) fun v =>
    ({ up := v.up, lost := v.lost, lostByHalf := v.lostByHalf, stop := v.stop, stopped := v.stopped, reached := v.reached, idle := v.idle } : Port)) b
  { b with halfTest := addOnce h b.halfTest, halfFailed := addOnce h b.halfFailed }

/-- PD7 powers up after being off: FIFOs and stream ports start anew. -/
def Blk.resetPd7 (b : Blk) : Blk :=
  let c := b.resetRegs 7
  { c with fifos := [], sports := [], pool := { mapped := c.sfAllOff.pool.mapped } }

/-- A domain that was off, and not in retention, comes up again. -/
def Blk.resetPd (b : Blk) (d : Nat) : Blk :=
  match d with
  | 1 => b.resetPd1
  | 2 => b.resetPd2
  | 3 | 4 => b.resetHalf (d - 3)
  | 7 => b.resetPd7
  | _ => b

/-! ## Power handshakes (R20, R21, R258, R352) -/

/-- POWER_ACK: PWR_ACK[d] rises. At start-up the loader goes on once the whole group has acknowledged; a mover powered up goes
to TEST (Table 6-6); a domain that the power controller had asked down comes up again (R367). -/
def powerAckB (d : Nat) (b : Blk) : Blk :=
  let x := tabGet {} b.power.doms d
  if d = 0 ∨ x.ack then b
  else
    let up := fun (b : Blk) =>
      (b.modPd d fun x => { x with req := true, ack := true, going := false, ret := false, retAsk := false }).monRestart d
    match b.ldr.state with
    | .power =>
      if !x.req then b
      else
        let b := up b
        let b := if 8 ≤ d then b.modMover (d - 8) fun v => { v with state := .test } else b
        b.powerNext 20
    | .ready | .nvop | .warmrst =>
      if 8 ≤ d then
        if b.movp.svc.busy && b.movp.svc.op == 3 && b.movp.svc.mover == d - 8 && x.req then
          (up b).modMover (d - 8) fun v => { v with state := .test }
        else if x.ret then up b
        else b
      else if !b.ready || x.req then b
      else if x.ret then up b
      else (up b).resetPd d
    | _ => b

/-- A request to switch a domain off is refused under R21 or R258. -/
def Blk.mustStay (b : Blk) (d : Nat) : Bool :=
  let bound := b.movers.any fun (_, v) => !v.places.isEmpty
  if d ≤ 2 then bound
  else if d ≤ 4 then !(b.halfIdle.contains (d - 3))
  else if d = 5 then !b.on 6
  else if d = 6 then !b.on 5
  else if d = 7 then false
  else !(b.mover (d - 8)).places.isEmpty

/-- POWER_ASK: a rising edge of PWR_ASK[d], with PWR_RET[d] for retention, is answered once: refused and logged, or granted. -/
def powerAskB (d : Nat) (retention : Bool) (b : Blk) : Blk :=
  if d = 0 ∨ !b.on d then b
  else if b.mustStay d then
    ({ b with power := { b.power with refused := incr 8 b.power.refused, last := d, refusePulse := addOnce d b.power.refusePulse } }).raise 0 6
  else
    let b := b.modPd d fun x => { x with req := false, going := true, retAsk := retention }
    match d with
    | 5 | 6 => (b.modBanks fun x => if d = 6 then { x with bOut := true } else { x with aOut := true }).jobsCheck
    | 7 => if retention then b else b.sfAllOff
    | _ => b

/-- POWER_DOWN_ACK: PWR_ACK[d] falls after PWR_REQ[d] was lowered: the domain is off, or in retention. -/
def powerDownAckB (d : Nat) (b : Blk) : Blk :=
  let x := tabGet {} b.power.doms d
  if d = 0 ∨ x.req ∨ !x.ack then b
  else
    let b := b.modPd d fun x => { x with ack := false, going := false, ret := x.retAsk, retAsk := false }
    if b.power.downs.head? = some d then (Blk.downNext 26 b).powerStart
    else if d < 8 ∨ x.retAsk then b
    else
      let m := d - 8
      let b := if (b.mover m).state = .failed ∧ !x.going then b else b.modMover m fun v => { v with state := .off, cause := 0 }
      if b.movp.svc.busy && b.movp.svc.op == 2 && b.movp.svc.mover == m then b.svcEnd false 0 else b

/-- POWER_ACK_LOST (R352): PWR_ACK[d] falls or PWR_ISO[d] rises while PWR_REQ[d] and PWR_ACK[d] are high: a CRIT breach of
the domain (R326). -/
def powerAckLostB (d : Nat) (b : Blk) : Blk :=
  let x := tabGet {} b.power.doms d
  if d = 0 ∨ !x.req ∨ !x.ack then b
  else (b.modPd d fun x => { x with ack := false }).critBreach d

end Sys2Proof.Machine
end

