-- ==== Sys2Proof/Machine/Update.lean ====
section
/-! DEFINITION. Shadowed registers and the update strobe (R59-R61, R350), with the checks a strobe makes (R176, R218). -/

namespace Sys2Proof.Machine
open Sys2Proof

/-- ARM of UPD_CTRL. -/
def Blk.armed (b : Blk) : Bool := bit (b.reg 0x07000) 2

/-- SOURCE of UPD_CTRL: 0 SOFT, 1 PIN, 2 PHASE, 3 MSG. -/
def Blk.stbSource (b : Blk) : Nat := b.regF 0x07000 1 0

/-- Change the update logic. -/
def Blk.modUpd (b : Blk) (f : Upd → Upd) : Blk := { b with upd := f b.upd }

/-- A register a strobe never sets to 0: CQ_WEIGHT, CQ_BURST, DOM_SHARE (R218). -/
def neverZero (a : Nat) : Bool := (decide (0x08000 ≤ a) && decide (a < 0x08200)) || decide (a / 0x1000 = 0x09)

/-- Apply one pending shadow. -/
def Blk.applyShadow (b : Blk) (a v : Nat) : Blk :=
  if neverZero a && v == 0 then b.raise 0 14 else b.setReg a v

/-- A strobe event (R60): ignored while ARM is 0; otherwise every pending shadow is applied, ARM clears and
COUNT advances. A SHD write whose answer is still outstanding stays pending (R59). -/
def Blk.strobe (b : Blk) : Blk :=
  if !b.armed || !b.on 1 then b
  else
    let c := (b.shadow.foldl (fun b (a, v, _) => b.applyShadow a v) b).puStrobe b
    let out := bit (b.reg 0x07000) 8
    (({ c with shadow := [] } : Blk).setRegF 0x07000 2 2 0).modUpd fun _ =>
      { b.upd with count := incr 16 b.upd.count, stbOut := if out then 16 else b.upd.stbOut }

/-- Unit PU is at or past the point of the PHASE strobe (R61). -/
def Blk.atPoint (b : Blk) : Bool :=
  let p := (b.pu (b.regF 0x07000 7 4)).ph
  atOrPast { p with frac := 0 } ⟨b.regF 0x07008 23 0, b.regF 0x0700C 23 0, 0⟩

/-- A write of UPD_CTRL that leaves it reading `w`; `arms` says whether the write reaches ARM. Writing ARM 1 clears LATE and
TIMEOUT; a PHASE point already passed strobes at once, with LATE. -/
def Blk.updCtrlWrite (b : Blk) (w : Nat) (arms : Bool) : Blk :=
  let b := b.setReg 0x07000 (bits w 8 4 * 16 + bits w 2 0)
  if !(bit w 2 && arms) then b
  else
    let b := b.modUpd fun u => { u with late := false, timeout := false }
    if b.stbSource = 2 ∧ b.atPoint then (b.modUpd fun u => { u with late := true }).strobe else b

/-- A write of UPD_GO: a strobe event when SOURCE is SOFT. -/
def Blk.updGoWrite (b : Blk) (w : Nat) : Blk := if bit w 0 && b.stbSource == 0 then b.strobe else b

/-- UPD_STB_IN (R61, R350): a rising edge of the pin; one sooner than 64 MCLK cycles after the previous edge is ignored. -/
def updStbInB (b : Blk) : Blk :=
  if !b.on 1 then b
  else
    let soon := match b.upd.stbAt with
      | some t => decide (b.clock.cycle < t + 64)
      | none => false
    let b := b.modUpd fun u => { u with stbAt := some b.clock.cycle }
    if !soon && b.stbSource == 1 then b.strobe else b

/-- UPD_STROBE_MSG (R61): an inbound strobe message of 4 B whose TAG equals UPD_TAG. -/
def updStrobeMsgB (tag size : Nat) (b : Blk) : Blk :=
  if size = 4 ∧ b.stbSource = 3 ∧ tag = b.regF 0x07010 15 0 then b.strobe else b

/-- UPD_PHASE_POINT (R61): unit PU reaches UPD_AT_CYC and UPD_AT_POS. -/
def updPhasePointB (b : Blk) : Blk := if b.stbSource = 2 ∧ b.atPoint then b.strobe else b

/-- UPD_TIMEOUT (R60): UPD_TIMEOUT µs have passed since ARM without a strobe. The shadows stay pending. -/
def updTimeoutB (b : Blk) : Blk :=
  if !b.armed || !b.on 1 || b.regF 0x07014 15 0 == 0 then b
  else ((b.setRegF 0x07000 2 2 0).modUpd fun u => { u with timeout := true }).raise 0 1

/-- UPD_STAT (Table 3-6). -/
def Blk.updStat (b : Blk) : Nat :=
  fld b.upd.count 16 16 + fld (b1 b.upd.timeout) 3 1 + fld (b1 b.upd.late) 2 1 + fld (b1 (!b.shadow.isEmpty || !b.inShadow.isEmpty)) 1 1
    + fld (b1 b.armed) 0 1

end Sys2Proof.Machine
end

