-- ==== Sys2Proof/Machine/Flags.lean ====
section
/-! DEFINITION. The register map (R54, R55, R365): which addresses hold a register, the type of each writable field, and
the value of every field the block computes (RO and SLOW). -/

namespace Sys2Proof.Machine
open Sys2Proof

/-! ## Field types (R6) -/

/-- The writable fields of a register as bit masks by type; a register of zeros has only RO, SLOW and reserved fields. -/
structure Fields where
  rw : Nat := 0
  imm : Nat := 0
  shd : Nat := 0
  key : Nat := 0
  sqc : Nat := 0
  deriving DecidableEq, Repr

/-- All 32 bits. -/
def allBits : Nat := 0xFFFFFFFF

/-- A register without a writable field. -/
def roReg : Option Fields := some {}

/-- A register whose writable fields are RW. -/
def rwReg (m : Nat) : Option Fields := some { rw := m }

/-- Key/semaphore page (Table 3-11). -/
def keyFields (o : Nat) : Option Fields :=
  if o = 0x000 then some { imm := allBits }
  else if o = 0x00C then some { key := 0x3F }
  else if o < 0x020 ∨ (0x040 ≤ o ∧ o < 0x0C0) then roReg
  else if 0x100 ≤ o ∧ o < 0x200 then some { imm := 3 }
  else none

/-- Mailbox page (Table 3-8). -/
def mbxFields (o : Nat) : Option Fields :=
  if o = 0x000 then rwReg 0xFF03FFFF else if o = 0x004 ∨ (0x010 ≤ o ∧ o < 0x020) then roReg else none

/-- Event acknowledge page (Tables 3-10, 12-2). -/
def evtFields (o : Nat) : Option Fields :=
  if o < 0x100 then roReg
  else if o < 0x200 then some { sqc := 0xFF00FFFF }
  else if o < 0x300 then roReg
  else if o < 0x400 then rwReg 0xFFFF
  else if o < 0x500 then rwReg 0x8FFF000F
  else if o = 0x500 then roReg else none

/-- Loader page (Tables 2-16 to 2-18). -/
def ldrFields (o : Nat) : Option Fields :=
  if o = 0x004 then some { key := 0xFF }
  else if o = 0x008 then rwReg 0x3FFFF
  else if o < 0x01C then roReg
  else if 0x100 ≤ o ∧ o < 0x200 then rwReg allBits
  else none

/-- Slot service page (Table 13-12). -/
def sltFields (o : Nat) : Option Fields :=
  if o < 0x080 then some { rw := 0x20FF0000, key := 0x40000000 }
  else if o < 0x200 then roReg
  else if o < 0x280 then rwReg 0xFF8
  else if o = 0x300 then rwReg allBits
  else if o = 0x304 then some { key := 0xFF1F }
  else none

/-- Management admin page (Table 5-5); MGB repeats MGA at 0x080. -/
def mgaFields (o : Nat) : Option Fields :=
  let k := o % 0x80
  if 0x100 ≤ o then none
  else if k < 0x40 then rwReg allBits
  else if k = 0x40 ∨ k = 0x58 then some { imm := 1 }
  else if k < 0x58 then roReg
  else if k = 0x5C then rwReg 0xF else none

/-- Update page (Table 3-6). -/
def updFields (o : Nat) : Option Fields :=
  match o / 4 with
  | 0 => rwReg 0x1F7
  | 1 => some { imm := 1 }
  | 2 | 3 => rwReg 0xFFFFFF
  | 4 | 5 => rwReg 0xFFFF
  | 6 => roReg
  | _ => none

/-- Cell-queue page (Tables 9-5, 17-5). -/
def cqFields (o : Nat) : Option Fields :=
  if o < 0x100 then some { shd := 0xFF } else if o < 0x200 then some { shd := 0x7F } else roReg

/-- Vector page (Table 12-7). -/
def vecFields (o : Nat) : Option Fields :=
  match o / 4 with
  | 0 => rwReg 0xFFF
  | 1 => rwReg 0xFFFFFFFC
  | 2 | 3 => rwReg allBits
  | 4 => rwReg 0xC0FF
  | 5 => some { imm := 3 }
  | 6 => roReg
  | 7 => none
  | _ => if o < 0x040 then rwReg allBits else none

/-- Phase-unit page (Table 7-4). -/
def puFields (o : Nat) : Option Fields :=
  match o % 0x40 / 4 with
  | 0 => some { imm := 0x1000, shd := 0xF37 }
  | 1 => some { shd := 0x7FFFF }
  | 2 | 8 => some { shd := 0xFFFFFF }
  | 3 | 4 | 5 | 10 => some { shd := allBits }
  | 6 | 9 => some { shd := 0xFFFF }
  | 7 => some { shd := 0xFF7F }
  | _ => roReg

/-- Request-line page (Table 9-6). -/
def rlnFields (o : Nat) : Option Fields :=
  if o < 0x100 then rwReg 0xFFFFF00F
  else if o < 0x200 then roReg
  else if o < 0x300 then rwReg 0x3FF
  else match o with
    | 0x300 => rwReg 0xFFFF
    | 0x304 | 0x308 => some { imm := 0x3F }
    | 0x30C => some { imm := 0xFF0FFF }
    | 0x310 => rwReg 0xFFF
    | 0x314 => roReg
    | _ => none

/-- Staging-FIFO page (Table 10-6). -/
def sfFields (o : Nat) : Option Fields :=
  match o % 0x20 / 4 with
  | 0 => rwReg 0x80FF1FFF
  | 1 => rwReg 0xFFF
  | 2 => rwReg allBits
  | 3 => rwReg 0xBFFFFFFF
  | 4 => some { imm := 0x80000007 }
  | _ => roReg

/-- Stream-port page (Table 10-7). -/
def spFields (o : Nat) : Option Fields :=
  if o < 0x020 then rwReg 0xE000FFFF else if o < 0x064 then roReg else none

/-- Mover page (Tables 9-5, 11-3, 13-8, 14-8, 16-4, 17-7). -/
def movFields (o : Nat) : Option Fields :=
  if o < 0x200 then (if o % 0x80 < 72 then roReg else none)
  else if 0x300 ≤ o then roReg
  else match o with
    | 0x200 => rwReg 0xFFFFFF3F
    | 0x208 => some { key := 0x11F }
    | 0x214 => some { key := 0x131F }
    | 0x220 => rwReg 0x1F
    | 0x204 | 0x20C | 0x210 | 0x218 | 0x21C => roReg
    | _ => none

/-- Data-port page (Tables 9-5, 11-3, 13-13, 15-5, 16-5, 16-6, 17-8). -/
def dptFields (o : Nat) : Option Fields :=
  if o < 0x0A0 then roReg
  else if o < 0x100 then none
  else if o < 0x300 then roReg
  else if o < 0x320 then rwReg 0xFFFF000F
  else if 0x340 ≤ o ∧ o < 0x380 then roReg
  else match o with
    | 0x320 => some { key := 0xFF }
    | 0x330 | 0x334 => rwReg 0xFFFF
    | 0x324 | 0x338 | 0x33C | 0x384 => roReg
    | 0x380 => some { key := 0xC0FFFF00 }
    | _ => none

/-- Context page (Tables 13-4, 14-9). -/
def ctxFields (o : Nat) : Option Fields :=
  match o with
  | 0x000 => rwReg 0xFFFF
  | 0x004 | 0x00C => roReg
  | 0x008 => some { key := 0x301 }
  | _ => none

/-- Supervisor page (Table 14-7). -/
def supFields (o : Nat) : Option Fields :=
  if 0x080 ≤ o then (if o < 0x0E8 then roReg else none)
  else if 0x020 ≤ o ∧ o < 0x030 then rwReg 0x83FFFFFF
  else if 0x030 ≤ o ∧ o < 0x040 then roReg
  else match o with
    | 0x000 => rwReg 7
    | 0x004 => some { key := 3 }
    | 0x008 | 0x01C => roReg
    | 0x00C => rwReg 0xFFFFFFC0
    | 0x010 => rwReg allBits
    | 0x014 => rwReg 0x80FF001F
    | 0x018 => rwReg 0x1FFFF
    | 0x040 => rwReg 0xFFFFFF
    | 0x044 => rwReg 0xFFFF
    | 0x048 => rwReg 0x70700
    | _ => none

/-- Alignment page (Table 8-3). -/
def alnFields (o : Nat) : Option Fields :=
  match o / 4 with
  | 0 => rwReg 0x1FFFFF
  | 2 => rwReg 0x3FF
  | 1 | 3 | 4 | 5 => roReg
  | 6 => some { imm := 0x3FF }
  | _ => none

/-- The fields of the register at a plain-view address; none where there is no register (R57, R366). -/
def regFields (a : Nat) : Option Fields :=
  let o := a % 0x1000
  match a / 0x1000 with
  | 0x00 => if o ≤ 0x010 ∨ (0x100 ≤ o ∧ o < 0x180) then roReg else none
  | 0x01 => keyFields o
  | 0x02 => mbxFields o
  | 0x03 => evtFields o
  | 0x04 => ldrFields o
  | 0x05 => sltFields o
  | 0x06 => mgaFields o
  | 0x07 => updFields o
  | 0x08 => cqFields o
  | 0x09 => some { shd := 0xFF }
  | 0x0A | 0x0C => roReg
  | 0x0B => vecFields o
  | 0x0D => puFields o
  | 0x0E => rlnFields o
  | 0x0F => sfFields o
  | 0x10 => spFields o
  | 0x11 => movFields o
  | 0x12 => dptFields o
  | 0x13 => ctxFields o
  | 0x14 => supFields o
  | 0x15 => alnFields o
  | 0x16 => if o < 0x00C then roReg else none
  | 0x17 => if o = 0x000 then rwReg 0xC00000FF else if o < 0x308 then roReg else none
  | 0x18 | 0x19 | 0x1A | 0x1B | 0x1C | 0x1D | 0x1E | 0x1F | 0x20 | 0x21 | 0x22 | 0x23 => roReg
  | _ => none

/-- Decode code of a page (Tables 3-5, 17-1). -/
def pageCode (p : Nat) : Nat :=
  match p with
  | 0x00 | 0x01 | 0x02 | 0x03 | 0x04 | 0x05 => 0xF
  | 0x06 => 6 | 0x07 => 3 | 0x0B => 4 | 0x10 => 5 | 0x13 => 2 | 0x14 => 6 | 0x15 => 3 | 0x16 => 2
  | 0x08 | 0x09 | 0x0A | 0x0C | 0x0D | 0x0E | 0x0F | 0x11 | 0x12 | 0x17 => 8
  | 0x18 | 0x19 | 0x1A | 0x1B | 0x1C | 0x1D | 0x1E | 0x1F | 0x20 | 0x21 | 0x22 | 0x23 => 8
  | _ => 0xE

/-- The page is guarded (R54). -/
def guarded (p : Nat) : Bool := decide (p < 6)

/-- The plain-view address an address reaches, and its view 0 to 3 (R55, R57, Table 3-4). -/
def decodeAddr (a : Nat) : Nat × Nat :=
  let p := a / 0x1000
  let o := a % 0x1000
  if guarded p then (a / 4 * 4, 0)
  else (p * 0x1000 + 4 * (o / 4 % 256 % 2 ^ pageCode p), o / 0x400)

/-! ## Computed fields: codes -/

/-- State code of a phase unit (Table 7-3). -/
def PuState.code : PuState → Nat
  | .off => 0 | .acquire => 1 | .locked => 2 | .coast => 3 | .fallback => 4 | .lost => 5

/-- State code of a request line (Table 9-3). -/
def LineState.code : LineState → Nat
  | .off => 0 | .idle => 1 | .pending => 2 | .acked => 3 | .fault => 4

/-- State code of a FIFO (Table 10-1). -/
def FifoState.code : FifoState → Nat
  | .off => 0 | .run => 1 | .held => 2 | .closing => 3

/-- State code of a mover (Table 6-6). -/
def MovState.code : MovState → Nat
  | .off => 0 | .test => 1 | .spare => 2 | .active => 3 | .quiescing => 4 | .retired => 5 | .failed => 6

/-- State code of the loader (Table 2-11). -/
def LdrState.code : LdrState → Nat
  | .reset => 0 | .wait => 1 | .hdr => 2 | .choose => 3 | .verify => 4 | .power => 5 | .selftest => 6 | .apply => 7
  | .ready => 8 | .safe => 9 | .warmrst => 0xA | .nvop => 0xB | .reload => 0xC

/-- CLASS code of a binding (Table 17-7). -/
def Svc.bindCode : Svc → Nat
  | .express => 1 | .standard => 2 | .bulk => 3 | .background => 4 | _ => 0

/-! ## Computed fields: PD0 pages -/

/-- Identity page (Tables 0-1, 17-2, 17-4). -/
def Blk.idStatus (b : Blk) (o : Nat) : Nat :=
  match o with
  | 0x000 => idRelease
  | 0x004 => if b.inSafe then 0 else b.img.ident.inst
  | 0x008 => 0x20100812
  | 0x00C => 0x1838
  | 0x010 => b.clock.slowEpoch
  | _ => (List.range 8).foldl (fun w k => w + pageCode ((o - 0x100) / 4 * 8 + k) * 16 ^ k) 0

/-- Key/semaphore page (Table 3-11), for the reading port. -/
def Blk.keyStatus (b : Blk) (p : MPort) (o : Nat) : Nat :=
  if o = 0x004 then (let n := (b.side p).remain; fld (b1 (decide (0 < n))) 31 1 + n)
  else if o = 0x008 then b.mg.alogPtr
  else if 0x010 ≤ o ∧ o < 0x020 then
    (List.range 16).foldl (fun w k =>
      w + (match b.semOwner ((o - 0x010) * 4 + k) with | some x => mportCode x | none => 0) * 4 ^ k) 0
  else if 0x040 ≤ o ∧ o < 0x0C0 then
    let r := tabGet alog0 b.mg.alog ((o - 0x040) / 8)
    if o % 8 = 0 then r.addr
    else fld r.kind 28 4 + fld r.port 26 2 + fld r.size 24 2 + fld (b1 r.write) 23 1 + fld r.sub 16 4 + fld r.stamp 0 16
  else 0

/-- Event acknowledge page (Tables 3-10, 12-2). -/
def Blk.evtStatus (b : Blk) (o : Nat) : Nat :=
  let g := tabGet {} b.mg.groups (o % 0x100 / 4)
  if o < 0x100 then fld g.seq 24 8 + fld g.pending 0 16
  else if 0x200 ≤ o ∧ o < 0x300 then g.occ
  else if o = 0x500 then fld b.mg.b.ackStale 16 16 + fld b.mg.a.ackStale 0 16
  else 0

/-- Loader page (Tables 2-16 to 2-18). -/
def Blk.ldrStatus (b : Blk) (o : Nat) : Nat :=
  let l := b.ldr
  match o with
  | 0x000 => fld l.state.code 28 4 + fld l.err 24 4 + fld l.copyUsed 22 2 + fld (b1 l.safe) 21 1
      + fld (b1 (decide (l.bist ≠ 0))) 20 1 + fld l.reasonA 16 4 + fld l.reasonB 12 4 + fld l.skipped 8 4 + fld l.bootCount 0 8
  | 0x004 => fld (b1 l.busy) 16 1 + fld l.owner 8 8 + fld l.opcode 0 8
  | 0x00C => l.seqA
  | 0x010 => l.seqB
  | 0x014 => l.build
  | 0x018 => l.bist
  | _ => 0

/-- Power page (Table 17-10). -/
def Blk.pwrStatus (b : Blk) (o : Nat) : Nat :=
  let w := fun (f : Nat → Bool) => (List.range 25).foldl (fun w i => w + fld (b1 (f (i + 1))) (i + 1) 1) 0
  match o with
  | 0x000 => w b.on
  | 0x004 => w fun d => (tabGet {} b.power.doms d).ret
  | _ => fld b.power.refused 24 8 + fld b.power.timeouts 16 8 + fld b.power.last 0 5

/-! ## Computed fields: queues, domains, admin -/

/-- CQ_STAT and CQ_POS (Table 17-5); a cell queue the image does not define reads zero. -/
def Blk.cqStatus (b : Blk) (o : Nat) : Nat :=
  let q := QRef.cell (o % 0x100 / 4)
  let x := b.queue q
  if o < 0x200 ∨ x.run.phase = .free then 0
  else if o < 0x300 then
    fld x.run.phase.code 28 4 + fld (((b.boundAt q).map (·.1)).getD 31) 23 5 + fld (((b.shadowAt q).map (·.1)).getD 31) 18 5
      + fld (b1 x.heldSlot.isSome) 17 1 + fld (b1 (b.banks.aOut || b.banks.bOut)) 16 1 + fld x.run.lastStatus 0 8
  else fld (min 32767 (x.dist x.run.tail x.run.head)) 17 15 + fld (lapOf x.run.head x.size) 16 1 + fld (x.run.head % x.size) 0 16

/-- DOM_STAT (Table 17-6). -/
def Blk.domStatus (b : Blk) (d : Nat) : Nat :=
  let x := b.domain d
  fld (b1 (b.domEntry d).isSome) 31 1 + fld (b1 x.ring.isSome) 30 1 + fld (b1 x.stop.isSome) 29 1
    + fld ((x.stop.map fun s => s.mode.code).getD 0) 26 3 + fld (b1 x.stalled) 25 1 + fld (b1 x.win) 24 1
    + fld (b.heldQueues d) 0 19

/-- EVT_RING_STAT (Table 12-6). -/
def Blk.ringStatus (b : Blk) (d : Nat) : Nat :=
  let x := b.domain d
  fld (b1 x.ring.isSome) 31 1 + fld (b1 x.full) 30 1 + fld (b1 x.loss.isSome) 29 1 + fld ((x.ring.map (·.exp)).getD 0) 24 5
    + fld x.lostCnt 0 16

/-- Management admin page (Table 5-5). -/
def Blk.mgStatus (b : Blk) (o : Nat) : Nat :=
  let second := decide (0x80 ≤ o)
  let r := if second then b.mgb else b.mga
  let k := o % 0x80
  if k = 0x44 then
    fld (b1 r.refused) 31 1 + fld r.cpls.length 16 5 + fld (16 - r.slots.length) 8 5
      + fld (b1 (b.ringBusy (if second then .mgb else .mga))) 0 1
  else if 0x48 ≤ k ∧ k < 0x58 then leAt (r.cpls.headD []) (k - 0x48) 4
  else 0

/-! ## Computed fields: units -/

/-- A launch of unit `u` is in a gate (Table 7-4). -/
def Blk.puGated (b : Blk) (u : Nat) : Bool :=
  b.movers.any fun (_, v) => v.places.any fun (_, x) => x.exec.any fun e =>
    e.gate.isSome && (match e.win with | some w => w.unit == u | none => false)

/-- The computed registers of a phase unit (Table 7-4). An INC of more than 32 bits reads as the largest value (DEDUCED: assumption
log 10). -/
def Blk.puStatus (b : Blk) (o : Nat) : Nat :=
  let u := o / 0x40
  let x := b.pu u
  match o % 0x40 / 4 with
  | 11 => fld (b1 x.indexed) 5 1 + fld (b1 (b.puGated u)) 4 1 + fld (b1 x.reverse) 3 1 + fld x.state.code 0 3
  | 12 => min 0xFFFFFFFF (b.puInc u)
  | 13 => fld x.slipErr 24 8 + fld x.early 16 8 + fld x.overspeed 8 8 + fld x.quadErr 0 8
  | 14 => fld x.jmiss 16 16 + fld x.late 0 16
  | 15 => fld x.lastSlip 0 16
  | _ => 0

/-- RLN_STAT and RLN_VRL_STAT (Table 9-6). -/
def Blk.rlnStatus (b : Blk) (o : Nat) : Nat :=
  if 0x100 ≤ o ∧ o < 0x200 then
    let x := b.line ((o - 0x100) / 4)
    fld x.pend 24 8 + fld x.rateErr 16 8 + fld x.overrun 12 4 + fld x.stale 8 4 + fld x.stuck 4 4 + fld x.state.code 0 3
  else if o = 0x314 then
    let n := b.regF 0x0E310 11 0
    let x := b.vline n
    fld n 16 12 + fld x.drops 8 8 + fld x.pend 0 8
  else 0

/-- The SLOW registers of a FIFO (Table 10-6). -/
def Blk.sfStatus (b : Blk) (o : Nat) : Nat :=
  let x := b.fifo (o / 0x20)
  match o % 0x20 / 4 with
  | 5 => fld x.state.code 29 3 + fld (b1 x.xoff) 28 1 + fld (b1 x.markLost) 27 1 + fld (b1 x.openPkt) 26 1
      + fld (b1 (!x.suspect.isEmpty)) 25 1 + fld x.pktsDone 0 16
  | 6 => fld x.markedN 16 16 + fld x.unread.length 0 16
  | 7 => fld x.poisoned 24 8 + fld x.crcErr 16 8 + fld x.dropped 8 8 + fld x.closed 0 8
  | _ => 0

/-- ALLOC of SF_SIZE, the one RO field of the page. -/
def Blk.sfAlloc (b : Blk) (o : Nat) : Nat :=
  if o % 0x20 = 4 then fld (b.fifo (o / 0x20)).extents.length 16 12 else 0

/-- Extents held by FIFOs. -/
def Blk.heldExtents (b : Blk) : Nat := b.fifos.foldl (fun n (_, x) => n + x.extents.length) 0

/-- Stream-port page (Table 10-7). -/
def Blk.spStatus (b : Blk) (o : Nat) : Nat :=
  let x := b.sport (o % 0x20 / 4)
  if o < 0x020 then 0
  else if o < 0x040 then fld x.mhz 12 10 + fld (b1 x.range) 11 1 + fld (b1 x.idle) 10 1 + fld (if bit (b.spCfg (o % 0x20 / 4)) 30 then x.fillCount else x.takeCount) 0 7
  else if o < 0x060 then fld x.parity 24 8 + fld x.short 16 8 + fld x.withdraw 8 8 + fld x.tmo 0 8
  else fld b.pool.mapped.length 16 12
    + fld (2048 - b.heldExtents - (b.pool.mapped.filter fun i => !(b.fifos.any fun (_, y) => y.extents.contains i)).length) 0 12

/-- One MOV_BQ word (Table 17-7). -/
def Blk.bindStatus (b : Blk) (k : Nat) : Nat :=
  let m := b.regF 0x11220 4 0
  match (if m < 18 then b.binding m k else none) with
  | some x => fld 1 31 1 + fld (b1 x.shadow) 30 1 + fld (b1 x.q.isCell) 29 1 + fld (b.svcOf x.q).bindCode 26 3 + fld x.q.num 0 18
  | none => 0

/-- Mover page (Tables 9-5, 13-8, 14-8, 16-4, 17-7). -/
def Blk.movStatus (b : Blk) (o : Nat) : Nat :=
  let v := b.mover (o % 0x80 / 4)
  let s := b.movp.svc
  if 0x300 ≤ o then b.bindStatus ((o - 0x300) / 4)
  else if o < 0x080 then
    fld (v.places.filter fun x => !x.2.shadow).length 24 7 + fld (v.places.filter fun x => x.2.shadow).length 16 7
      + fld v.cause 8 4 + fld v.state.code 0 3
  else if o < 0x100 then fld v.loadRd 16 16 + fld v.loadWr 0 16
  else if o < 0x180 then v.retiredCnt
  else if o < 0x200 then fld v.wrCrc 24 8 + fld v.rdCrc 16 8 + fld v.parity 8 8 + fld v.tests 0 8
  else match o with
    | 0x204 => b.movp.bindWait
    | 0x20C => fld b.movp.failures 24 8 + fld b.movp.takeovers 12 12 + fld b.movp.resumes 0 12
    | 0x210 => b.movp.repeated
    | 0x218 => fld (b1 s.busy) 31 1 + fld (b1 s.done) 30 1 + fld (b1 s.pass) 29 1 + fld s.mover 24 5 + fld s.err 8 4 + fld s.fail 0 7
    | 0x21C => fld b.movp.ctxWait 24 8 + fld b.movp.evict 16 8 + fld (b.holdTiles + b.sched.mews.length) 0 13
    | 0x220 => fld (b.regF 0x11220 4 0) 8 5
    | _ => 0

/-- A mask over eight ports. -/
def portMask (f : Nat → Bool) : Nat := (List.range 8).foldl (fun w p => w + fld (b1 (f p)) p 1) 0

/-- A word of link levels from link `n`. -/
def Blk.linkWord (b : Blk) (n k : Nat) : Nat := (List.range k).foldl (fun w i => w + fld (b1 (b.links.contains (n + i))) i 1) 0

/-- Data-port page (Tables 11-3, 13-13, 15-5, 16-6, 17-8). -/
def Blk.dptStatus (b : Blk) (o : Nat) : Nat :=
  let v := b.port (o % 0x20 / 4)
  let c := v.cnt
  if o < 0x020 then fld v.tagsFree 21 11 + fld v.robFree 8 13 + fld (b1 v.up) 2 1
  else if o < 0x040 then c.lateCpl
  else if o < 0x060 then c.badCpl
  else if o < 0x080 then c.tagWait
  else if o < 0x0A0 then c.tokWait
  else if o < 0x300 then
    let p := (o - 0x100) / 0x40
    let q := o % 0x40 / 4
    let s := b.pathStat p q
    fld (min 255 s.retries) 24 8 + fld (b1 (decide (b.currentPath p = q))) 16 1 + fld s.rtt 0 16
  else if 0x340 ≤ o ∧ o < 0x360 then
    fld c.wlost 24 8 + fld c.retries 16 8 + fld v.robMapped.length 8 8 + fld (b1 v.lost) 1 1 + fld (b1 v.stuck) 0 1
  else if 0x360 ≤ o ∧ o < 0x380 then
    fld c.credOvf 24 8 + fld c.nocred 16 8 + fld c.tokTmo 12 4 + fld c.tokBad 8 4 + fld c.inbBad 0 8
  else match o with
    | 0x324 => fld (b1 (b.halfIdle.contains 0)) 16 1 + fld (b1 (b.halfIdle.contains 1)) 17 1
        + fld (portMask fun p => (b.port p).idle) 8 8 + fld (portMask fun p => (b.port p).stop.isSome) 0 8
    | 0x338 => b.linkWord 0 32
    | 0x33C => b.linkWord 32 8
    | 0x384 => fld b.relayDrops 24 8 + fld b.relayWaits 16 8
        + fld (min 64 (b.ports.foldl (fun n (_, v) => n + v.relays.length) 0)) 0 7
    | _ => 0

/-- Context page (Tables 13-4, 14-9). -/
def Blk.ctxStatus (b : Blk) (o : Nat) : Nat :=
  let x := b.banks
  match o with
  | 0x004 => fld (b1 x.aOut) 31 1 + fld (b1 x.bOut) 30 1 + fld x.lost 16 14 + fld x.repA 8 8 + fld x.repB 0 8
  | 0x00C => fld (b1 x.busy) 31 1 + fld (b1 x.done) 30 1 + fld (b1 x.pass) 29 1 + fld (b1 x.bank) 28 1 + fld x.op 26 2
      + fld x.err 16 4 + fld (min 32768 x.progress) 0 16
  | _ => 0

/-- Supervisor page (Table 14-7). -/
def Blk.supStatus (b : Blk) (o : Nat) : Nat :=
  let s := b.sup
  if 0x080 ≤ o then (let m := b.mon ((o - 0x080) / 4); fld m.ref 16 16 + fld m.count 0 16)
  else if 0x030 ≤ o ∧ o < 0x040 then
    let t := b.temp ((o - 0x030) / 4)
    fld (b1 t.stale) 14 1 + fld (b1 t.fault) 13 1 + fld t.wants 10 3 + fld t.code 0 10
  else match o with
    | 0x008 => fld s.applied 29 3 + fld s.want 26 3 + fld (b.regF 0x14004 0 0) 25 1 + fld s.dec.lost 16 8 + fld s.dec.decisions 0 16
    | 0x01C => fld (b1 s.dec.badcfg) 31 1 + fld (b1 s.dec.runOpen) 30 1 + fld (lapOf s.dec.wpos b.decSize) 16 1
        + fld (s.dec.wpos % b.decSize) 0 16
    | 0x048 => fld s.perfReq 0 3
    | _ => 0

/-- Alignment page (Table 8-3). -/
def Blk.alnStatus (b : Blk) (o : Nat) : Nat :=
  let i := b.regF 0x15008 9 0
  let r := b.lat i
  match o with
  | 0x004 => fld b.pfail 16 16 + fld (b.lats.filter fun x => x.2.tracked).length 0 11
  | 0x00C => fld r.est 0 16
  | 0x010 => fld r.max 16 16 + fld r.min 0 16
  | 0x014 => fld (b1 r.valid) 31 1 + fld (b1 r.stale) 30 1 + fld (b1 r.tracked) 29 1 + fld i 16 10 + fld r.count 0 16
  | _ => 0

/-- TGT_ROUTE and TGT_LATV of entry `i` (Table 17-9); an entry the image does not define reads zero. -/
def Blk.tgtStatus (b : Blk) (lat : Bool) (i : Nat) : Nat :=
  match b.img.targets[i]? with
  | none => 0
  | some t =>
    let r := b.lat i
    if lat then fld r.jitter 16 16 + fld r.est 0 16
    else
      let p := b.egress t
      fld 1 31 1 + fld (b1 (b.rerouted.contains i)) 30 1 + fld p 27 3 + fld (b.pathOf t p 0) 23 4 + fld (b1 t.norep) 22 1
        + fld (b1 t.slotValid) 21 1 + fld t.slot 16 5 + fld (b1 r.tracked) 3 1 + fld (b1 r.valid) 2 1 + fld (b1 r.stale) 1 1

/-- RLN_VRL_PEND (Table 17-9). -/
def Blk.vrlStatus (b : Blk) (k : Nat) : Nat :=
  (List.range 4).foldl (fun w j => w + fld (b.vline (4 * k + j)).pend (8 * j) 8) 0

/-- Debug page (Table 17-11). -/
def Blk.dbgStatus (b : Blk) (o : Nat) : Nat :=
  if o < 4 then 0
  else if o < 8 then fld b.trace.count 16 16 + fld b.trace.missed 8 8 + fld b.trace.next 0 8
  else tabGet 0 b.trace.words ((o - 8) / 4)

/-- The RO fields of the register at a plain-view address, for the reading port. -/
def Blk.roStatus (b : Blk) (p : MPort) (a : Nat) : Nat :=
  let o := a % 0x1000
  match a / 0x1000 with
  | 0x00 => b.idStatus o
  | 0x01 => b.keyStatus p o
  | 0x02 => if o = 0x004 then ((b.side p).mbx).stat else if o = 0x000 then ((b.side p).mbx).sel else 0
  | 0x03 => b.evtStatus o
  | 0x04 => b.ldrStatus o
  | 0x05 => if 0x100 ≤ o ∧ o < 0x200 then
      (let t := ((b.slot ((o - 0x100) / 8)).token).getD 0; if o % 8 = 0 then t % 2 ^ 32 else t / 2 ^ 32 % 2 ^ 32) else 0
  | 0x06 => b.mgStatus o
  | 0x07 => if o = 0x018 then b.updStat else 0
  | 0x0B => if o = 0x010 then fld (b1 b.vec.stagedPend) 13 1 else if o = 0x018 then fld (b1 b.vec.refused) 31 1 else 0
  | 0x0F => b.sfAlloc o
  | 0x16 => b.pwrStatus o
  | _ => 0

/-- The SLOW fields of the register at a plain-view address. -/
def Blk.slowStatus (b : Blk) (a : Nat) : Nat :=
  let o := a % 0x1000
  match a / 0x1000 with
  | 0x05 => if 0x080 ≤ o ∧ o < 0x100 then (b.slot ((o - 0x080) / 4)).stat else 0
  | 0x08 => b.cqStatus o
  | 0x0A => b.domStatus (o / 4)
  | 0x0B => if o = 0x018 then b.vec.err else 0
  | 0x0C => b.ringStatus (o / 4)
  | 0x0D => b.puStatus o
  | 0x0E => b.rlnStatus o
  | 0x0F => b.sfStatus o
  | 0x10 => b.spStatus o
  | 0x11 => b.movStatus o
  | 0x12 => b.dptStatus o
  | 0x13 => b.ctxStatus o
  | 0x14 => b.supStatus o
  | 0x15 => b.alnStatus o
  | 0x17 => b.dbgStatus o
  | 0x18 | 0x19 | 0x1A | 0x1B => b.tgtStatus false ((a - 0x18000) / 0x1000 * 256 + o / 4)
  | 0x1C | 0x1D | 0x1E | 0x1F => b.tgtStatus true ((a - 0x1C000) / 0x1000 * 256 + o / 4)
  | 0x20 | 0x21 | 0x22 | 0x23 => b.vrlStatus ((a - 0x20000) / 0x1000 * 256 + o / 4)
  | _ => 0

/-- The value a read of the register at a plain-view address returns to a port, but for the mailbox words and SEM_ACQ, whose
reads act: stored fields, RO fields, and the SLOW copies of `sl`, the block as it stood at their last refresh (R62). A place
without a register reads zero. -/
def Blk.regValue (b sl : Blk) (p : MPort) (a : Nat) : Nat :=
  match regFields a with
  | some f => (if a = 0x02000 then 0 else Nat.land (b.reg a) (Nat.lor f.rw (Nat.lor f.shd f.key))) + b.roStatus p a + sl.slowStatus a
  | none => 0

end Sys2Proof.Machine
end

