-- ==== Sys2Proof/Machine/Access.lean ====
section
/-! DEFINITION. Register access (R45-R58, R373): the judgement of an access, reads and writes with their side effects, the
key unlock (R65), semaphores (R67, R68), and the answers (R46). Every command that writes or reads a register goes through
`Blk.access`. -/

namespace Sys2Proof.Machine
open Sys2Proof

/-- An access as a management port presents it (R50, R348): a byte address of which bits [2:0] are ignored, eight byte
enables and 64 bits of write data. `tunnel` names the inbound read or write it came from; `flash` what an NV_READ it starts
finds, if the command says so. -/
structure Access where
  port : MPort
  addr : Nat
  be : Nat
  write : Bool
  wdata : Nat
  tunnel : Option TunnelBack := none
  flash : Option (List Byte) := none
  deriving DecidableEq, Repr

/-! ## Sizes (R50) -/

/-- Enabled lanes, ascending. -/
def Access.lanes (x : Access) : List Nat := (List.range 8).filter fun k => bit x.be k

/-- Enabled bytes. -/
def Access.size (x : Access) : Nat := x.lanes.length

/-- The address that KEY_ALOG_ADDR records (R53, Table 3-11): the ports present address bits [19:3] and eight byte enables
(Table 15-8), and the spec does not say which low bits the record holds. DESIGN CHOICE: the address of the first enabled byte,
and the 8 B base when no byte is enabled (log 29). -/
def Access.first (x : Access) : Nat := x.addr / 8 * 8 % 2 ^ 20 + x.lanes.headD 0

/-- The enabled bytes form one group of 1, 2, 4 or 8 bytes aligned to its size. -/
def Access.aligned (x : Access) : Bool :=
  [1, 2, 4, 8].any fun n => [0, 1, 2, 3, 4, 5, 6, 7].any fun k => x.be == (2 ^ n - 1) * 2 ^ (n * k) && decide (n * k + n ≤ 8)

/-- The 4 B halves an access reaches, low first: their addresses with the enabled lanes of each. -/
def Access.halves (x : Access) : List (Nat × Nat) :=
  let a := x.addr / 8 * 8 % 2 ^ 20
  [(a, x.be % 16), (a + 4, x.be / 16 % 16)].filter fun h => h.2 != 0

/-- SIZE of an access-log record (Table 3-11). -/
def Access.sizeCode (x : Access) : Nat :=
  if x.size ≤ 1 then 0 else if x.size = 2 then 1 else if x.size ≤ 4 then 2 else 3

/-! ## Refusals (R373) -/

/-- The fields of the register an address reaches. -/
def fieldsAt (a : Nat) : Option Fields := regFields (decodeAddr a).1

/-- The register has a writable field. -/
def Fields.writable (f : Fields) : Bool := f.rw != 0 || f.imm != 0 || f.shd != 0 || f.key != 0 || f.sqc != 0

/-- An 8 B access is refused on this location (R51): an SQC register, KEY_UNLOCK, SEM_ACQ or a mailbox word. -/
def wideSide (a : Nat) : Bool :=
  match fieldsAt a with
  | some f => f.sqc != 0 || a == 0x01000 || (decide (0x01100 ≤ a) && decide (a < 0x01200))
      || (decide (0x02010 ≤ a) && decide (a < 0x02020))
  | none => false

/-- A narrow write is refused on this location (Table 3-1). -/
def narrowBad (a : Nat) : Bool :=
  match fieldsAt a with
  | some f => f.imm != 0 || f.shd != 0 || f.key != 0 || f.sqc != 0
  | none => false

/-- An alias write is refused on this location (R56). -/
def aliasBad (a : Nat) : Bool :=
  decide ((decodeAddr a).2 ≠ 0) && (match fieldsAt a with
    | some f => f.rw == 0 && f.imm == 0 && f.shd == 0
    | none => false)

/-- The reason an access is refused, the first of R373 step 1 that applies. -/
def Blk.accErr (b : Blk) (x : Access) : Option Nat :=
  let pg := x.addr % 2 ^ 20 / 0x1000
  let hs := x.halves.map (·.1)
  if !x.aligned then some 1
  else if pageCode pg = 0xE then some 7
  else if b.inSafe && !guarded pg then some 5
  else if hs.any (fun a => !b.on (regPd (decodeAddr a).1)) then some 4
  else if decide (x.size = 8) && hs.any wideSide then some 3
  else if x.write && decide (x.size ≤ 2) && hs.any narrowBad then some 2
  else if x.write && hs.any aliasBad then some 6
  else none

/-- The page is semaphore-enforced and the port does not hold its semaphore (R68, R370). -/
def Blk.semDenied (b : Blk) (p : MPort) (page : Nat) : Bool :=
  let s := b.img.sempage.getD page 0
  bit s 7 && decide (b.semOwner (bits s 5 0) ≠ some p)

/-! ## Reads -/

/-- A read of the word at a plain-view address, with its side effects (R63, R64, R67); `sl` holds the SLOW copies. -/
def Blk.readWord (b sl : Blk) (p : MPort) (a : Nat) : Nat × Blk :=
  if 0x02010 ≤ a ∧ a < 0x02020 then b.mbxRead p ((a - 0x02010) / 4)
  else if 0x01100 ≤ a ∧ a < 0x01200 then
    let n := (a - 0x01100) / 4
    match b.semOwner n with
    | some o => (mportCode o, b)
    | none => (0, b.setSem n (some p))
  else if 0x03000 ≤ a ∧ a < 0x03100 then
    (b.regValue sl p a, b.modSide p fun s => { s with evtCount := tabSet 256 s.evtCount ((a - 0x03000) / 4) 0 })
  else (b.regValue sl p a, b)

/-! ## Writes -/

/-- The bits of `m` from `w`, the others from `old`. -/
def mergeBits (old w m : Nat) : Nat := Nat.lor (Nat.land old (Nat.xor allBits (Nat.land m allBits))) (Nat.land w m)

/-- The bit mask of the enabled byte lanes of a word. -/
def laneMask (lanes : Nat) : Nat := (List.range 4).foldl (fun m k => if bit lanes k then m + 255 * 2 ^ (8 * k) else m) 0

/-- A semaphore-release write (Table 3-12): false when the port does not hold it. -/
def Blk.semReleaseOp (b : Blk) (p : MPort) (n : Nat) : Bool × Blk :=
  if b.semOwner n = some p then (true, b.setSem n none) else (false, b)

/-- A write of EVT_ACK[g] (R64, R266): the named PENDING bits clear, or the stale acknowledge is counted. -/
def Blk.evtAckWrite (b : Blk) (p : MPort) (g w : Nat) : Blk :=
  let e := tabGet {} b.mg.groups g
  if bits w 31 24 = e.seq ∧ tabGet 256 (b.side p).evtCount g = 0 then
    let e := { e with pending := Nat.land e.pending (Nat.xor 0xFFFF (bits w 15 0)) }
    { b with mg := { b.mg with groups := tabSet {} b.mg.groups g e } }
  else b.modSide p fun s => { s with ackStale := incr 16 s.ackStale }

/-- A change of DPT_ROUTE[p]: ranges that leave on another port than before are ordered under R208 and measured anew. -/
def Blk.routeWrite (b : Blk) (p w : Nat) : Blk :=
  let c := (b.setReg (0x12300 + 4 * p) w).keepPorts b
  c.invalidateLat fun _ t => t.egress == p && b.egress t != c.egress t

/-- The effect of a write on the register at plain-view address `a`, which is to read `w` in its RW fields; `w` also holds what
was written to the other fields. `keyed` says whether KEY fields may change, `arms` whether byte 0 is written. -/
def Blk.effect (b : Blk) (p : MPort) (a w : Nat) (keyed arms : Bool) (flash : Option (List Byte)) : Blk :=
  let o := a % 0x1000
  match a / 0x1000 with
  | 0x02 => b.mbxSelect p w
  | 0x03 => if o < 0x200 then b.evtAckWrite p ((o - 0x100) / 4) w else b.setReg a w
  | 0x04 => if o = 0x004 then (if keyed then b.ldrCmd (mportCode p) (bits w 7 0) flash else b) else b.setReg a w
  | 0x05 =>
    if o < 0x080 then b.sltCfgWrite (o / 4) (if keyed then w else putBits w 30 30 (bits (b.reg a) 30 30))
    else if o = 0x304 then (if keyed then b.sltSvcWrite w else b)
    else b.setReg a w
  | 0x06 =>
    if o % 0x80 = 0x40 then (if bit w 0 then b.mgSubmitOp (decide (0x80 ≤ o)) else b)
    else if o % 0x80 = 0x58 then (if bit w 0 then b.mgPopOp (decide (0x80 ≤ o)) else b)
    else b.setReg a w
  | 0x07 => if o = 0x000 then b.updCtrlWrite w arms else if o = 0x004 then b.updGoWrite w else b.setReg a w
  | 0x0B =>
    if o = 0x014 then (if bits w 1 0 = 1 then b.vecLoadOp else if bits w 1 0 = 2 then b.vecStoreOp else b)
    else if 0x020 ≤ o then b.sleepWrite ((o - 0x020) / 4) w
    else b.setReg a w
  | 0x0D => if o % 0x40 = 0 ∧ bit w 12 then b.puRestart (o / 0x40) else b
  | 0x0E =>
    if o < 0x100 then b.rlCfgWrite (o / 4) w
    else if o = 0x304 then b.rlClear (bits w 5 0)
    else if o = 0x308 then b.rlSwreq (bits w 5 0)
    else if o = 0x30C then b.vrlAdd (bits w 11 0) (bits w 23 16)
    else b.setReg a w
  | 0x0F =>
    if o % 0x20 = 0 then b.sfCfgWrite (o / 0x20) w
    else if o % 0x20 = 0x10 then b.sfCmd (o / 0x20) w
    else b.setReg a w
  | 0x11 =>
    if o = 0x208 then
      if keyed then
        let b := b.setReg a (bits w 4 0)
        if bit w 8 && decide (bits w 4 0 < 18) then b.retireMover (bits w 4 0) else b
      else b
    else if o = 0x214 then (if keyed then b.movSvcWrite w else b)
    else b.setReg a w
  | 0x12 =>
    if o < 0x320 then b.routeWrite ((o - 0x300) / 4) w
    else if o = 0x320 then (if keyed then b.drainWrite (bits w 7 0) else b)
    else if o = 0x380 then (if keyed then b.setReg a (Nat.land w 0xC0FFFF00) else b)
    else b.setReg a w
  | 0x13 => if o = 0x008 then (if keyed then b.rebuildWrite w else b) else b.setReg a w
  | 0x14 =>
    if o = 0x004 then (if keyed then b.freezeWrite (mportCode p) w else b)
    else if o = 0x014 then b.ringCfgWrite w
    else if o = 0x018 then b.ringRetWrite w
    else if 0x020 ≤ o ∧ o < 0x030 then
      (b.setReg a w).throttle (0x10 + (o - 0x020) / 4) ((b.temp ((o - 0x020) / 4)).code)
    else b.setReg a w
  | 0x15 => if o = 0x018 then b.modLat (bits w 9 0) LatRec.invalidate else b.setReg a w
  | 0x17 =>
    let b' := b.setReg a w
    if bit w 31 && !(bit (b.reg a) 31) then { b' with trace := { b'.trace with next := 0 } } else b'
  | _ => b.setReg a w

/-- A word that port `p` writes to SHD fields goes to the shadow, which a later write replaces (R59). It stays in progress until
the port has received the answer of the access, which follows those outstanding. -/
def Blk.toShadow (b : Blk) (p : MPort) (a w m : Nat) : Blk :=
  if m = 0 then b
  else { b with inShadow := b.inShadow ++ [⟨p, a, Nat.land w m, (b.side p).outstanding.length + 1⟩] }

/-- What an alias write to SHD fields works on: the pending shadow, the newest write in front, or the active value (R56). -/
def Blk.shadowOld (b : Blk) (a : Nat) : Nat :=
  match b.inShadow.reverse.find? (fun w => w.addr == a) with
  | some w => w.value
  | none => match b.shadow.find? (fun x => x.1 == a) with
    | some (_, v, _) => v
    | none => b.reg a

/-- The value an alias write stands for (Table 3-4). -/
def aliasValue (view old w : Nat) : Nat :=
  match view with
  | 1 => Nat.lor old w
  | 2 => Nat.land old (Nat.xor allBits w)
  | 3 => Nat.xor old w
  | _ => w

/-- The selection that MBX_SEL holds for a port; any other register's stored value. -/
def Blk.storedFor (b : Blk) (p : MPort) (a : Nat) : Nat := if a = 0x02000 then ((b.side p).mbx).sel else b.reg a

/-- A 4 B or narrower write that was not refused (R373 steps 3 and 4): the kind of the access-log record it calls for, if any,
and its effect. `live` says whether the port's unlock was live. -/
def Blk.writeWord (b : Blk) (p : MPort) (a0 w lanes : Nat) (live : Bool) (flash : Option (List Byte)) : Option Nat × Blk :=
  let (a, view) := decodeAddr a0
  match regFields a with
  | none => (if guarded (a / 0x1000) then some 8 else none, b)
  | some f =>
    if a = 0x01000 then
      if w = 0x5A5AC3C3 then (none, b.modSide p fun s => { s with remain := 1024 }) else (some 4, b)
    else if 0x01100 ≤ a ∧ a < 0x01200 then
      let r := b.semReleaseOp p ((a - 0x01100) / 4)
      (if r.1 then none else some 6, r.2)
    else if a = 0x0100C then
      if !live then (some 3, b)
      else match b.semOwner (bits w 5 0) with
        | some _ => (some 7, b.setSem (bits w 5 0) none)
        | none => (none, b)
    else if !f.writable then (none, b)
    else if view = 0 then
      let kv := f.key != 0 && !live
      let m := laneMask lanes
      let w' := mergeBits (b.storedFor p a) w (Nat.land f.rw m)
      let w' := mergeBits w' w (Nat.land (Nat.lor f.imm (Nat.lor f.key f.sqc)) m)
      (if kv then some 3 else none,
        (b.toShadow p a w f.shd).effect p a w' live (bit lanes 0) flash)
    else
      let rw := aliasValue view (b.reg a) w
      let im := aliasValue view 0 w
      let sh := aliasValue view (b.shadowOld a) w
      let w' := mergeBits (mergeBits (b.reg a) rw (Nat.land f.rw (laneMask lanes))) im f.imm
      (none, (b.toShadow p a sh f.shd).effect p a w' false (bit lanes 0) flash)

/-! ## The whole access -/

/-- Make room for an access of a port: while four answers are outstanding it is not accepted until one returns (R46). -/
def Blk.makeRoom (b : Blk) (p : MPort) : Blk := if 4 ≤ (b.side p).outstanding.length then b.returnAnswer p else b

/-- The answer of an access joins the port's outstanding ones. -/
def Blk.answer (b : Blk) (x : Access) (data : Nat) (err : Bool) : Blk :=
  b.modSide x.port fun s => { s with outstanding := s.outstanding ++ [⟨BitVec.ofNat 64 data, err, x.tunnel⟩] }

/-- The first access-log kind that the halves of a write call for is logged; SEM_FORCED names the semaphore it freed. -/
def Blk.logWrite (b : Blk) (x : Access) (kind : Option Nat) : Blk :=
  match kind with
  | some 7 => b.logRec 7 (mportCode x.port) x.sizeCode true 0
      (0x01100 + 4 * bits (if bit x.be 0 then x.wdata else x.wdata / 2 ^ 32) 5 0)
  | some k => b.logRec k (mportCode x.port) x.sizeCode true 0 x.first
  | none => b

/-- The writes of the halves, low first; the low half uses the live unlock up (R51). `mid` is what happens between them. -/
def Blk.writeHalves (b : Blk) (x : Access) (mid : Blk → Blk) (live : Bool) : List (Nat × Nat) → Option Nat × Blk
  | [] => (none, b)
  | (a, l) :: t =>
    let w := if a % 8 = 0 then x.wdata % 2 ^ 32 else x.wdata / 2 ^ 32 % 2 ^ 32
    let (k, c) := b.writeWord x.port a w l live x.flash
    let (k', c) := Blk.writeHalves (if t.isEmpty then c else mid c) x mid false t
    (match k with | some n => some n | none => k', c)

/-- The reads of the halves, low first: the data in the lanes of the address. `mid` is what happens between them. -/
def Blk.readHalves (b sl : Blk) (p : MPort) (mid : Blk → Blk) : List (Nat × Nat) → Nat × Blk
  | [] => (0, b)
  | (a, l) :: t =>
    let (v, c) := b.readWord sl p (decodeAddr a).1
    let (r, c) := Blk.readHalves (if t.isEmpty then c else mid c) sl p mid t
    (Nat.land v (laneMask l) * (if a % 8 = 0 then 1 else 2 ^ 32) + r, c)

/-- One access, judged in the order of R373; `sl` holds the SLOW copies and `mid` is what happens between its two halves
(R51). Every write uses up the port's unlock (R65). -/
def Blk.accessAround (b sl : Blk) (x : Access) (mid : Blk → Blk) : Blk :=
  let b := b.makeRoom x.port
  let live := decide (0 < (b.side x.port).remain)
  let b := if x.write then b.modSide x.port fun s => { s with remain := 0 } else b
  match b.accErr x with
  | some sub => (b.logRec 1 (mportCode x.port) x.sizeCode x.write sub x.first).answer x 0 true
  | none =>
    if x.write then
      if b.semDenied x.port (x.addr % 2 ^ 20 / 0x1000) then
        (b.logRec 5 (mportCode x.port) x.sizeCode true 0 x.first).answer x 0 false
      else
        let (k, b) := b.writeHalves x mid live x.halves
        (b.logWrite x k).answer x 0 false
    else
      let (v, b) := b.readHalves sl x.port mid x.halves
      b.answer x v false

/-- One access with nothing between its halves (R373). -/
def Blk.access (b sl : Blk) (x : Access) : Blk := b.accessAround sl x id

/-- The access is carried out in two halves: it has both, and is neither refused nor dropped whole (R51, R373). -/
def Blk.split (b : Blk) (x : Access) : Bool :=
  let b := b.makeRoom x.port
  decide (1 < x.halves.length) && (b.accErr x).isNone && !(x.write && b.semDenied x.port (x.addr % 2 ^ 20 / 0x1000))

/-- Two accesses in arbitration order: the loser of a contest waits one cycle, so it falls between the halves of an 8 B winner
(R47, R51). -/
def Blk.inOrder (b sl : Blk) (x y : Access) : Blk :=
  if b.split x then b.accessAround sl x fun c => c.access sl y else (b.access sl x).access sl y

/-- The other management port. -/
def otherPort : MPort → MPort
  | .mpa => .mpb
  | .mpb => .mpa

/-- The access a rival of port `p` presents. -/
def rivalAccess (r : Rival) (p : MPort) : Access := ⟨otherPort p, r.addr, r.be, r.write, r.wdata.toNat, none, none⟩

/-- The register arbiter (R47): an access alone is selected; of two presented in one cycle the port that lost the last contest
goes first, and the other has lost this one. -/
def Blk.arbitrate (b sl : Blk) (x : Access) (r : Option Rival) : Blk :=
  match r with
  | none => b.access sl x
  | some r =>
    let y := rivalAccess r x.port
    let lost := fun (c : Blk) (p : MPort) => { c with mg := { c.mg with lastLoser := p } }
    if b.mg.lastLoser = x.port then (lost b y.port).inOrder sl x y else (lost b x.port).inOrder sl y x

/-- A 4 B write of `v` to a register. -/
def write4 (p : MPort) (a v : Nat) : Access :=
  ⟨p, a, if a % 8 = 0 then 0x0F else 0xF0, true, v % 2 ^ 32 * (if a % 8 = 0 then 1 else 2 ^ 32), none, none⟩

/-- A 4 B read of a register. -/
def read4 (p : MPort) (a : Nat) : Access := ⟨p, a, if a % 8 = 0 then 0x0F else 0xF0, false, 0, none, none⟩

end Sys2Proof.Machine
end

