-- ==== Sys2Proof/Machine/Inbound.lean ====
section
/-! DEFINITION. Inbound packets (R338, R339, R344): the doorbell apertures, the update strobe message, the management tunnel
(R362) and the relay aperture (R363). -/

namespace Sys2Proof.Machine
open Sys2Proof

/-- The data port takes inbound packets: powered, up, not lost, and the block not in SAFE (R38, R339). -/
def Blk.inbLive (b : Blk) (p : Nat) : Bool := b.portPowered p && (b.port p).up && !(b.port p).lost && !b.inSafe

/-- A packet is dropped and counted in INB_BAD. -/
def Blk.inbDrop (b : Blk) (p : Nat) : Blk := b.modCnt p fun c => { c with inbBad := incr 8 c.inbBad }

/-- A refused inbound packet: counted, and a read answered with a CPL of CSTAT 0b01 (R344, R362). -/
def Blk.inbRefuse (b : Blk) (p : Nat) (k : InPkt) : Blk :=
  let b := b.inbDrop p
  if k.isWrite then b else b.sendCpl p k.tag k.gen k.addr 1 [] .reject

/-! ## The management tunnel (R362) -/

/-- An offset of the tunnel aperture. -/
def inTunnel (a : Nat) : Bool := decide (0x400000 ≤ a) && decide (a < 0x800000)

/-- The tunnel takes the packet: EN, PORTS, DOM or ANY_DOM, LEN, and an offset that is not reserved. -/
def Blk.tunnelTakes (b : Blk) (p : Nat) (k : InPkt) : Bool :=
  let t := b.reg 0x12380
  bit t 31 && bit t (8 + p) && (bit t 30 || bits t 23 16 == k.dom) && [1, 2, 4, 8].contains k.len && decide (k.addr < 0x600000)

/-- The register access a tunnel packet stands for: byte enables formed from ADDR and LEN; one that crosses 8 B is unaligned. -/
def tunnelAcc (p : Nat) (k : InPkt) : Access :=
  let o := k.addr % 8
  { port := if k.addr < 0x500000 then .mpa else .mpb
    addr := k.addr % 2 ^ 20
    be := if o + k.len ≤ 8 then (2 ^ k.len - 1) * 2 ^ o else 0
    write := k.isWrite
    wdata := if k.isWrite then le (k.data.take k.len) * 2 ^ (8 * o) % 2 ^ 64 else 0
    tunnel := some ⟨!k.isWrite, p, k.tag, k.gen, k.addr, k.len⟩ }

/-- A packet of the tunnel aperture. -/
def Blk.tunnelIn (b sl : Blk) (p : Nat) (k : InPkt) : Blk :=
  if b.tunnelTakes p k then b.access sl (tunnelAcc p k) else b.inbRefuse p k

/-! ## Relay writes (R363) -/

/-- The queue a relay write names. -/
def relayQueue (k : InPkt) : QRef := if k.relayCell then .cell k.relayQid else .dom k.relayQid

/-- The states in which a relayed descriptor is dropped. -/
def QPhase.dropsRelay : QPhase → Bool
  | .stopped | .halted | .lost | .destroying => true
  | _ => false

/-- A relay write, dropped and counted or given a relay-buffer place. -/
def Blk.relayIn (b : Blk) (p : Nat) (k : InPkt) : Blk :=
  let q := relayQueue k
  if decide (k.relayInst ≠ b.img.ident.inst) || !b.exists? q || decide (k.dom ≠ (b.queue q).cfg.dom)
      || (b.queue q).run.phase.dropsRelay then { b with relayDrops := incr 8 b.relayDrops }
  else b.takeRelay p q k.data

/-- A well-placed relay write: 64 B in the relay aperture at a 64 B-aligned offset (R338, Table 15-4). -/
def relayPlaced (k : InPkt) : Bool :=
  decide (0x800000 ≤ k.addr) && decide (k.addr < 0x801000) && decide (k.addr % 64 = 0) && decide (k.data.length = 64)

/-! ## The other apertures (Table 15-4) -/

/-- A plain write below the tunnel aperture: a doorbell slot, a virtual line or the strobe message. -/
def Blk.doorbellIn (b : Blk) (p : Nat) (k : InPkt) : Blk :=
  let a := k.addr
  let v := leAt k.data 0 4
  if 0x202000 ≤ a ∧ a < 0x206000 then
    (if a % 4 = 0 then vrlMessageB ((a - 0x202000) / 4) k.dom k.len v b else b.inbDrop p)
  else if 0x206000 ≤ a ∧ a < 0x206004 then
    (if a = 0x206000 ∧ k.len = 4 then updStrobeMsgB (v % 2 ^ 16) 4 b else b.inbDrop p)
  else if a % 8 ≠ 0 then b.inbDrop p
  else if a < 0x200000 then nudgeB (.dom (a / 8)) k.dom k.len v b
  else if a < 0x200200 then nudgeB (.cell ((a - 0x200000) / 8)) k.dom k.len v b
  else if 0x200800 ≤ a ∧ a < 0x201000 then adminNudgeB ((a - 0x200800) / 8) k.dom k.len v b
  else if 0x201000 ≤ a ∧ a < 0x201800 then adminCplReturnB ((a - 0x201000) / 8) k.dom k.len v b
  else if 0x201800 ≤ a ∧ a < 0x202000 then eventRingReturnB ((a - 0x201800) / 8) k.dom k.len v b
  else b.inbDrop p

/-- A packet of RX_INB is checked (R338) and passed to the aperture its offset names (R344). -/
def Blk.inbTake (b sl : Blk) (p : Nat) (k : InPkt) : Blk :=
  if k.badHeader then b.inbDrop p
  else if k.isWrite && k.poison then b.inbDrop p
  else if inTunnel k.addr && !k.relay then b.tunnelIn sl p k
  else if !k.isWrite then b.inbRefuse p k
  else if k.relay then (if relayPlaced k then b.relayIn p k else b.inbDrop p)
  else b.doorbellIn p k

/-- Data credits an inbound packet uses (R339): one for each beat of a write. -/
def InPkt.dataCredits (k : InPkt) : Nat := if k.isWrite then max 1 (tilesOf k.addr k.data.length) else 0

/-- The host switch holds no credit for the packet (R339): it says so, or the credits withheld leave none of the 32 header and 64
data credits the port gives. -/
def Blk.noCredit (b : Blk) (p : Nat) (k : InPkt) : Bool :=
  let l := (b.port p).inbWait
  k.noCredit || decide (32 ≤ l.length) || decide (64 < l.foldl (fun n (x : InPkt) => n + InPkt.dataCredits x) (InPkt.dataCredits k))

/-- The packet waits, its credits withheld: the relay buffer of the port is full (R363), or it is a tunnel access and its port
identity has four outstanding (R362). -/
def Blk.inbHeld (b : Blk) (p : Nat) (k : InPkt) : Bool :=
  decide (64 ≤ (b.port p).relays.length)
    || (inTunnel k.addr && !k.relay && !k.badHeader && !(k.isWrite && k.poison) && b.tunnelTakes p k
        && decide (4 ≤ (b.side (tunnelAcc p k).port).outstanding.length))

/-- INBOUND_PACKET (R339, R344): a packet of RX_INB is dropped for want of a credit, waits behind others, or is processed. -/
def inboundPacketB (p : Nat) (k : InPkt) (sl b : Blk) : Blk :=
  if !b.inbLive p then b
  else if b.noCredit p k then b.modCnt p fun c => { c with nocred := incr 8 c.nocred }
  else if !(b.port p).inbWait.isEmpty || b.inbHeld p k then b.modPort p fun v => { v with inbWait := v.inbWait ++ [k] }
  else b.inbTake sl p k

/-- The oldest packet that waits on a port is processed once nothing holds it. -/
def Blk.inbDrain (b sl : Blk) (p : Nat) : Blk :=
  match (b.port p).inbWait with
  | k :: t =>
    if !b.inbLive p || b.inbHeld p k then b else (b.modPort p fun v => { v with inbWait := t }).inbTake sl p k
  | [] => b

/-- TUNNEL_ACCESS (R362): an inbound packet to the tunnel aperture. -/
def tunnelAccessB (p : Nat) (k : InPkt) (sl b : Blk) : Blk := if inTunnel k.addr && !k.relay then inboundPacketB p k sl b else b

/-- RELAY_WRITE (R363): an inbound relay write. -/
def relayWriteB (p : Nat) (k : InPkt) (sl b : Blk) : Blk := if k.isWrite && k.relay then inboundPacketB p k sl b else b

end Sys2Proof.Machine
end

