-- ==== Sys2Proof/Machine/Pins.lean ====
section
/-! DEFINITION. The levels of the output pins (Tables 15-10 and 15-11) and the running of a command on the block. -/

namespace Sys2Proof.Machine
open Sys2Proof

/-- The mask of `n` bits whose bit i is set where `p i` holds. -/
def maskOf (p : Nat → Bool) : Nat → Nat
  | 0 => 0
  | n + 1 => maskOf p n + (if p n then 2 ^ n else 0)

/-- The group's line enable names line `n`, and its enabled pending set is not empty (R265). -/
def Blk.groupHigh (b : Blk) (n g : Nat) : Bool :=
  let r := b.reg (0x3400 + 4 * g)
  bit r 3 && bits r 2 0 == n && decide (Nat.land (tabGet {} b.mg.groups g).pending (b.reg (0x3300 + 4 * g)) ≠ 0)

/-- The ring's DOM_MGx_IRQ at `a` routes to line `n`, and completions wait in it (Table 5-5). -/
def Blk.ringHigh (b : Blk) (n a : Nat) (r : MgRing) : Bool :=
  bit (b.reg a) 3 && bits (b.reg a) 2 0 == n && decide (0 < r.waiting)

/-- The level of IRQ_OUT[n]: some group, a management ring, or for line 0 SAFE (R265, R38). -/
def Blk.irqPin (b : Blk) (n : Nat) : Bool :=
  (List.range 64).any (b.groupHigh n) || b.ringHigh n 0x605C b.mga || b.ringHigh n 0x60DC b.mgb || (n == 0 && b.inSafe)

/-- The level of SLT_PWR_EN[s]: low on every slot in SAFE (R38, R307). -/
def Blk.sltPin (b : Blk) (s : Nat) : Bool := (b.slot s).pwrEn && !b.inSafe

/-- The level of RL_ACK[n]: held high on LEVEL, a pulse otherwise (R211); low while PD1 is off (Table 15-11). -/
def Blk.ackPin (b : Blk) (n : Nat) : Bool :=
  b.on 1 && ((b.line n).ack || pulseHigh (b.line n).ackAt b.clock.cycle (b.rlWidth n))

/-- The level of RL_END[n], a pulse (R213); low while PD1 is off (Table 15-11). -/
def Blk.endPin (b : Blk) (n : Nat) : Bool := b.on 1 && pulseHigh (b.line n).endAt b.clock.cycle (b.rlWidth n)

/-- The level of SF_XOFF[f]: low while PD7 is off (Table 15-11). -/
def Blk.xoffPin (b : Blk) (f : Nat) : Bool := b.on 7 && (b.fifo f).xoff

/-- The level of SP_IREADY[n], or with `out` of SP_OVALID[n]: low while PD7 is off (Table 15-11). -/
def Blk.streamPin (b : Blk) (out : Bool) (n : Nat) : Bool := b.on 7 && b.spPin n out

/-- The level of PWR_REFUSE[d]: high for the MGCLK cycle of a refusal (R352); PD0 has none. -/
def Blk.refusePin (b : Blk) (d : Nat) : Bool := d != 0 && b.power.refusePulse.contains d

/-- The level of PWR_REQ[d]; PD0 has none. -/
def Blk.reqPin (b : Blk) (d : Nat) : Bool := d != 0 && (tabGet ({} : PowDom) b.power.doms d).req

/-- The level of PWR_PERF_REQ: 0b111 while PD1 is off (Table 15-11). -/
def Blk.perfPin (b : Blk) : Nat := if b.on 1 then b.sup.perfReq else 7

/-- The level of UPD_STB_OUT: high for 16 MCLK cycles from an apply cycle (R60). -/
def Blk.stbPin (b : Blk) : Bool := b.on 1 && decide (0 < b.upd.stbOut)

/-- The output pins of a block. -/
def Blk.pins (b : Blk) : Pins :=
  { irqOut := maskOf b.irqPin 8, sltPwrEn := maskOf b.sltPin 32, rlAck := maskOf b.ackPin 64, rlEnd := maskOf b.endPin 64,
    spReady := maskOf (b.streamPin false) 8, spValid := maskOf (b.streamPin true) 8, pwrRefuse := maskOf b.refusePin 26, sfXoff := maskOf b.xoffPin 32,
    pwrReq := maskOf b.reqPin 26, perfReq := b.perfPin, nvmWpN := b.ldr.wpN,
    updStbOut := b.stbPin }

/-- The state with another block behind its pins. -/
def State.withCore (s : State) (b : Blk) : State := { s with core := b, pins := b.pins }

/-- Run the meaning `f` of command `i`: outside the functional test mode the spec gives no behaviour (R335); an
ill-formed command names nothing and changes nothing (assumption log 2). -/
def run (i : Instr) (f : Blk → Blk) (s : State) : Host.Outcome State Fault Refusal :=
  if s.testMode ≠ 0 then .fault .testMode
  else if i.wf then .next (s.withCore (f s.core)) else .next s

end Sys2Proof.Machine
end

