-- ==== Sys2Proof/Machine/Tick.lean ====
section
/-! DEFINITION. What one MCLK cycle does while no command waits (assumption log 1): time and the clock edges that fall in
the cycle (R18, R62, R343), phase estimates (R161), request-line pulses (R213), launch gates (R170), FIFO entries (R220), one request per mover (R195-R197),
the grants of the data ports (R198, R339), and what shadows take in (R150). -/

namespace Sys2Proof.Machine
open Sys2Proof

/-! ## Deficit round robin (R197) -/

/-- The first element above `x` in an ascending list, wrapping to its head. -/
def nextOf (l : List Nat) (x : Nat) : Nat := ((l.find? fun y => decide (x < y)).orElse fun _ => l.head?).getD x

/-- Insert into an ascending list without repeats. -/
def insNat (x : Nat) : List Nat → List Nat
  | [] => [x]
  | y :: t => if x < y then x :: y :: t else if x = y then y :: t else y :: insNat x t

/-- Ascending, without repeats. -/
def sortNat (l : List Nat) : List Nat := l.foldr insNat []

/-- Pass the turn on, refilling every deficit found at or below zero, until one above zero holds it. -/
def passTurn (gain : Nat → Nat) (l : List Nat) : Nat → Nat → Tab Int → Nat × Tab Int
  | 0, turn, def_ => (turn, def_)
  | n + 1, turn, def_ =>
    let x := if l.contains turn then turn else nextOf l turn
    let v := tabGet 0 def_ x
    if 0 < v then (x, def_) else passTurn gain l n (nextOf l x) (tabSet 0 def_ x (v + gain x))

/-- Choose among ready (domain, queue) pairs by the two levels of R197; what has nothing ready loses its deficit. -/
def Drr.choose (r : Drr) (share weight : Nat → Nat) (ready : List (Nat × Nat)) : (Nat × Nat) × Drr :=
  let ds := sortNat (ready.map (·.1))
  let qs := ready.map (·.2)
  let (d, dom) := passTurn (fun d => 4 * max 1 (share d)) ds (40 * ds.length) r.turn (r.dom.filter fun x => ds.contains x.1)
  let mine := sortNat ((ready.filter fun x => x.1 == d).map (·.2))
  let (q, qd) := passTurn (fun q => max 1 (weight q)) mine (140 * mine.length) (tabGet 0 r.qTurn d)
    (r.q.filter fun x => qs.contains x.1)
  ((d, q), { turn := d, dom := dom, qTurn := tabSet 0 r.qTurn d q, q := qd })

/-- Only what has a ready request keeps its deficit (R197). -/
def Drr.keep (r : Drr) (ready : List (Nat × Nat)) : Drr :=
  { r with dom := r.dom.filter fun x => ready.any fun y => y.1 == x.1, q := r.q.filter fun x => ready.any fun y => y.2 == x.1 }

/-- Charge a service. -/
def Drr.charge (r : Drr) (d q : Nat) (cost : Nat) : Drr :=
  { r with dom := tabSet 0 r.dom d (tabGet 0 r.dom d - cost), q := tabSet 0 r.q q (tabGet 0 r.q q - cost) }

/-- Share of a domain (Table 9-5). -/
def Blk.shareOf (b : Blk) (d : Nat) : Nat := b.regF (0x09000 + 4 * d) 7 0

/-- QWEIGHT of a domain queue. -/
def Blk.qweightOf (b : Blk) (q : Nat) : Nat := (b.queue (.dom q)).cfg.qweight

/-! ## The request generator (R195, R196) -/

/-- The entry whose request a binding issues next. -/
def Blk.nextEntry (b : Blk) (x : Binding) : Option Exec :=
  (x.exec ++ x.plans).find? fun e => match b.genAct x e with
    | .idle => false
    | _ => true

/-- Class of the next request of a binding (R194), by its offset in the source, on a kind without one in the destination; a
BACKGROUND binding that has aged goes once as STANDARD, but not while throttled (Table 14-5). -/
def Blk.genSvc (b : Blk) (x : Binding) : Svc :=
  let o := match b.nextEntry x with
    | some e => if e.desc.readsSrc then e.srcIss else e.dstPres
    | none => 0
  let c := b.svcAt x.q o
  if c = .background ∧ b.sched.aged.contains x.q ∧ b.sup.applied = 0 then .standard else c

/-- A binding that may be served in this cycle, with its class. -/
def Blk.genCands (b : Blk) (m : Nat) : List (Nat × Binding × Svc) :=
  ((b.mover m).places.filter fun (k, _) => b.genReady m k).filterMap fun (k, x) =>
    let c := b.genSvc x
    if heldAt b.sup.applied c then none else some (k, x, c)

/-- Issue the next request of a binding: the tiles it touched, and whether its entry has issued its last request. -/
def Blk.genIssue (b : Blk) (m k : Nat) : Nat × Bool × Blk :=
  match b.binding m k with
  | none => (1, true, b)
  | some x =>
    match b.nextEntry x with
    | none => (1, true, b)
    | some e =>
      let cost := match b.genAct x e with
        | .read a len _ => tilesOf a len
        | _ => 1
      let b := b.genOne m k
      let after := (b.binding m k).bind fun y => (y.exec ++ y.plans).find? fun f => f.pos = e.pos
      match after with
      | some f => (max cost ((f.dstPres - e.dstPres + 63) / 64), f.issuedAll, b)
      | none => (cost, true, b)

/-- WEIGHT of a cell queue (R196). -/
def Blk.cqWeight (b : Blk) (q : QRef) : Nat := max 1 (b.regF (0x08000 + 4 * q.num) 7 0)

/-- BURST of a cell queue: 1 to 64. -/
def Blk.cqBurst (b : Blk) (q : QRef) : Nat := max 1 (min 64 (b.regF (0x08100 + 4 * q.num) 6 0))

/-- Serve a cell binding in its turn. -/
def Blk.serveCell (b : Blk) (m k : Nat) : Blk :=
  let (_, last, b) := b.genIssue m k
  let b := b.modMover m fun v => { v with turnAt := some k }
  if last then b.modBinding m k fun x => { x with turn := x.turn - 1 } else b

/-- The cell binding with a credit that comes next after cell queue `from_`, ascending and wrapping. -/
def nextCell (cs : List (Nat × Binding × Svc)) (from_ : Nat) : Option Nat :=
  let l := cs.filter fun (_, x, _) => decide (0 < x.credits)
  let n := nextOf (sortNat (l.map fun (_, x, _) => x.q.num)) from_
  (l.find? fun (_, x, _) => x.q.num == n).map (·.1)

/-- One cycle given to the cell bindings (R196): the turn under way goes on, or the next one is taken; with no credit left
among the ready bindings a new round begins. -/
def Blk.cellCycle (b : Blk) (m : Nat) (cs : List (Nat × Binding × Svc)) : Blk :=
  let v := b.mover m
  let at_ := v.turnAt.bind fun k => (b.binding m k).map fun x => (k, x)
  match at_.bind fun (k, x) => if 0 < x.turn ∧ cs.any (fun c => c.1 == k) then some k else none with
  | some k => b.serveCell m k
  | none =>
    let last := match at_ with | some (_, x) => if x.q.isCell then x.q.num else 64 | none => 64
    let start := fun (b : Blk) (k : Nat) =>
      (b.modBinding m k fun x => { x with credits := x.credits - 1, turn := b.cqBurst x.q }).serveCell m k
    match nextCell cs last with
    | some k => start b k
    | none =>
      let b := v.places.foldl (fun b (k, x) =>
        if x.q.isCell && !x.shadow then b.modBinding m k fun x => { x with credits := b.cqWeight x.q } else b) b
      match nextCell (cs.map fun (k, x, c) => (k, { x with credits := b.cqWeight x.q }, c)) 64 with
      | some k => start b k
      | none => b

/-- Serve a domain binding: one domain cycle of the 64-cycle window. -/
def Blk.serveDom (b : Blk) (m k : Nat) (std : Bool) : Nat × Blk :=
  let q := (b.binding m k).map (·.q)
  let (cost, _, b) := b.genIssue m k
  let b := match q with
    | some q => b.modSched fun s => { s with aged := s.aged.filter (· != q) }
    | none => b
  (cost, b.modMover m fun v => { v with winUsed := v.winUsed + 1, thrHalf := std })

/-- One cycle given to the domain bindings (R195 steps 2 to 4): at T2 STANDARD takes at most every second one. -/
def Blk.domCycle (b : Blk) (m : Nat) (ds : List (Nat × Binding × Svc)) : Blk :=
  let v := b.mover m
  let half := v.thrHalf && b.sup.applied == 2
  let of := fun (c : Svc) => (ds.filter fun x => x.2.2 == c).map (·.1)
  let shared := ds.filter fun x => x.2.2 == .bulk || (x.2.2 == .standard && !half)
  match of .express with
  | e :: es =>
    let k := nextOf (sortNat (e :: es)) v.rrExp
    (b.modMover m fun v => { v with rrExp := k }).serveDom m k false |>.2
  | [] =>
    if !shared.isEmpty then
      let ready := shared.map fun (_, x, _) => ((b.queue x.q).cfg.dom, x.q.num)
      let ((d, q), r) := v.drr.choose b.shareOf b.qweightOf ready
      match shared.find? fun (_, x, _) => x.q.num == q with
      | some (k, _, c) =>
        let (cost, b) := b.serveDom m k (c == .standard)
        b.modMover m fun v => { v with drr := r.charge d q cost }
      | none => b
    else match of .background with
      | k :: ks =>
        let k := nextOf (sortNat (k :: ks)) v.rrBg
        (b.modMover m fun v => { v with rrBg := k }).serveDom m k false |>.2
      | [] => b.modMover m fun v => { v with thrHalf := false }

/-- The turn of a cell binding that has no ready request ends (R196). -/
def Blk.turnEnds (b : Blk) (m : Nat) (cs : List (Nat × Binding × Svc)) : Blk :=
  match (b.mover m).turnAt with
  | some k => if cs.any fun c => c.1 == k then b else b.modBinding m k fun x => { x with turn := 0 }
  | none => b

/-- The ready domain bindings of the classes STANDARD and BULK, as the shares of R197 know them. -/
def Blk.sharedReady (b : Blk) (ds : List (Nat × Binding × Svc)) : List (Nat × Nat) :=
  (ds.filter fun x => x.2.2 == .bulk || x.2.2 == .standard).map fun (_, x, _) => ((b.queue x.q).cfg.dom, x.q.num)

/-- One MCLK cycle of a mover's request generator (R195). -/
def Blk.genCycle (b : Blk) (m : Nat) : Blk :=
  let st := (b.mover m).state
  if !(b.on 1 && b.on (moverPd m)) || !(st == .active || st == .quiescing) then b
  else
    let w := b.clock.cycle % 64
    let b := if w = 0 then b.modMover m fun v => { v with winUsed := 0 } else b
    let cands := b.genCands m
    let cs := cands.filter fun x => x.1 < 64 && x.2.1.q.isCell
    let ds := cands.filter fun x => !x.2.1.q.isCell
    let b := b.turnEnds m cs
    let ready := b.sharedReady ds
    let b := b.modMover m fun v => { v with drr := v.drr.keep ready }
    let owed := b.regF 0x11200 5 0 - (b.mover m).winUsed
    if !ds.isEmpty && (cs.isEmpty || decide (64 - w ≤ owed)) then b.domCycle m ds
    else if !cs.isEmpty then b.cellCycle m cs
    else b

/-- The ports that lack a tag or reorder tiles for some binding's next request (R135). -/
def Blk.tagShort (b : Blk) : List Nat :=
  b.movers.foldl (fun l (_, v) => v.places.foldl (fun l (_, x) =>
    if x.shadow then l
    else match (b.nextEntry x).map fun e => (e, b.genAct x e) with
      | some (e, .read a len _) =>
        if !x.roomFor a len then l
        else match b.routeOf x.q a e.desc.path with
          | some (p, _, _) => if (b.port p).canRead a len then l else addOnce p l
          | none => l
      | _ => l) l) []

/-! ## The arbiters of the data ports (R198, R339) -/

/-- MCLK cycles to the predicted releases of the requests that launch gates and plans hold for a port (R199). A release that is
due has none: it happens in this cycle. -/
def Blk.releasesIn (b : Blk) (p : Nat) : List Nat :=
  let now := b.clock.cycle
  (b.movers.flatMap fun (_, v) => v.places.flatMap fun (_, x) => (if x.shadow then [] else x.exec).flatMap fun e =>
    let open_ := e.win.bind b.cyclesToOpen
    let gate := match e.gate, open_ with | some (p', _), some n => if p' = p then [n] else [] | _, _ => []
    let plan := match e.plan with
      | some pl =>
        let mine := pl.targets.filter fun t => !t.done && t.launched.isNone && (t.held.map (·.1)) == some p
        (match pl.release, open_ with
         | some c, _ => mine.map fun t => c + t.cycle - now
         | none, some n => mine.map fun t => n + t.cycle
         | none, none => [])
      | none => []
    if e.dead then [] else gate ++ plan).filter fun n => 0 < n

/-- The packet, granted now, leaves TX_REQ before every predicted release of the port (R199). -/
def clearOf (releases : List Nat) (k : Pkt) : Bool := releases.all fun n => decide (k.beats ≤ n)

/-- Rank of a packet among urgent ones of one cycle: CTRL, CELL, EXPRESS; Chervil, Lovage, the event logic, then movers by number
(R198). Units that R198 does not name come last (DESIGN CHOICE: assumption log 29). -/
def Pkt.rank (k : Pkt) : Nat :=
  let unit := match k.purpose with
    | .ring _ _ | .refill _ | .spill _ _ => 0
    | .admin _ | .adminFlush _ | .adminCpl _ | .adminWord _ | .firstWord _ | .ringZero _ => 1
    | .event _ | .message _ _ | .msgFlush _ => 2
    | .data m _ _ _ | .dataTo m _ _ _ _ | .check m _ _ | .record m _ _ _ | .target m _ _ _ | .fence m _ | .failover m => 3 + m
    | .flush _ | .word _ _ | .flip _ _ => 3 + (k.mover.getD 17)
    | _ => 32
  64 * (match k.svc with | .ctrl => 0 | .cell => 1 | _ => 2) + unit

/-- `x` goes before `y` at the urgent level: the older presentation, then the rank, then the order of arrival (R198). -/
def urgentBefore (x y : Pkt) : Bool :=
  decide (x.since < y.since) || (x.since == y.since && (decide (x.rank < y.rank) || (x.rank == y.rank && decide (x.order < y.order))))

/-- The urgent packet that goes first. -/
def firstUrgent (l : List Pkt) : Option Pkt :=
  (l.filter fun k => k.svc == .ctrl || k.svc == .cell || k.svc == .express).foldl (fun (r : Option Pkt) k => match r with
    | some y => if urgentBefore k y then some k else some y
    | none => some k) none

/-- A request of a plan (R185). -/
def isPlanPkt (k : Pkt) : Bool := match k.purpose with | .target _ _ _ _ => true | _ => false

/-- The queue a packet belongs to, for the shares of R198. -/
def pktQueue (k : Pkt) : Nat :=
  match k.purpose with
  | .data _ _ _ q | .dataTo _ _ _ _ q | .check _ _ q | .record _ _ _ q | .target _ _ _ q => q.num
  | _ => 2 ^ 18

/-- The packet a port grants next in the order of R198, and the shares after the choice. But for GATED packets none is granted
that would hold TX_REQ at a predicted release (R199). -/
def Blk.pickPkt (b : Blk) (p : Nat) : Option (Pkt × Drr) :=
  let v := b.port p
  let held := b.releasesIn p
  let l := v.wait.filter fun k => b.eligible p k && (k.svc == .gated || clearOf held k)
  let gated := l.filter fun k => k.svc == .gated
  let urgent := firstUrgent l
  let shared := l.filter fun k => k.svc == .standard || k.svc == .bulk
  match (gated.find? isPlanPkt).orElse fun _ => gated.head? with
  | some k => some (k, v.drr)
  | none => match urgent with
    | some k => some (k, v.drr)
    | none =>
      if shared.isEmpty then (l.head?).map fun k => (k, v.drr)
      else
        let ((d, q), r) := v.drr.choose b.shareOf b.qweightOf (shared.map fun k => (k.dom, pktQueue k))
        (shared.find? fun k => k.dom == d && pktQueue k == q).map fun k => (k, r.charge d q k.beats)

/-- One MCLK cycle of TX_REQ: at a packet boundary the chosen packet is granted once its credits are there; it holds the
channel until then (R339). A write that waits for its token is counted (R136). -/
def Blk.txCycle (b : Blk) (p : Nat) : Blk :=
  let v := b.port p
  let starved := !v.tokFree && v.wait.any (·.isWrite)
  let b := if starved then b.modCnt p fun c => { c with tokWait := incr 32 c.tokWait } else b
  let ready := (v.wait.filter fun k => k.svc == .standard || k.svc == .bulk).map fun k => (k.dom, pktQueue k)
  let b := b.modPort p fun v => { v with beats := v.beats - 1, drr := v.drr.keep ready }
  if (b.port p).beats ≠ 0 then b
  else match b.pickPkt p with
    | none => b
    | some (k, r) =>
      let v := b.port p
      if v.credited k then
        b.grantPkt p { v with wait := v.wait.filter (fun y => y.order != k.order), drr := r } k
      else b

/-- One MCLK cycle of TX_CPL: the oldest completion goes out with its credits. -/
def Port.cplCycle (v : Port) : Port :=
  match v.cplWait with
  | k :: t =>
    if 1 ≤ v.cplHdrCr ∧ k.dataCredits ≤ v.cplDataCr then
      { v with cplWait := t, cplPres := v.cplPres ++ [k], cplHdrCr := v.cplHdrCr - 1, cplDataCr := v.cplDataCr - k.dataCredits,
               cplHdr := k.cplHeader, cplStarted := true }
    else v
  | [] => v

/-- One MCLK cycle of a data port. -/
def Blk.portCycle (b : Blk) (p : Nat) : Blk :=
  if b.creditsLive p && !(b.port p).stuck then (b.txCycle p).modPort p Port.cplCycle else b

/-! ## Clock edges -/

/-- One MCLK period in ps; the nominal one while no frequency has been measured. -/
def Blk.periodPs (b : Blk) : Nat := if b.clock.mclkKHz = 0 then 1000 else 1000000000 / b.clock.mclkKHz

/-- An MGCLK edge: the trace takes the events of the cycle that ends (R372), the unlocks run down (R65) and each port may return one
answer (R46). A PWR_REFUSE pulse ends (R352). -/
def Blk.mgEdge (b : Blk) : Blk :=
  let b := { b with trace := b.trace.edge (bit (b.reg 0x17000) 30), power := { b.power with refusePulse := [] } }
  [MPort.mpa, .mpb].foldl (fun b p => (b.modSide p fun s => { s with remain := s.remain - 1 }).returnAnswer p) b

/-- A REFCLK edge: the SLOW copies are refreshed (R62), slots see their cards (R306), the counting periods of Table 7-2 and R212 go on, and the loader
leaves RESET on the second edge (R332). -/
def Blk.refEdge (b : Blk) : Blk :=
  let ms := b.clock.refMs + 1 == 25000
  let b := { b with
    clock := { b.clock with slowEpoch := incr 32 b.clock.slowEpoch, refMs := if ms then 0 else b.clock.refMs + 1 }
    pus := tabMap {} (fun _ u => { u with inRef := 0 }) b.pus
    lines := if ms then tabMap {} (fun _ l => { l with breaches := 0 }) b.lines else b.lines }
  let b := if 2 ≤ b.clock.slowEpoch then b.toWait else b
  b.slots.foldl (fun (b : Blk) x => b.sltSee x.1) b

/-- Time goes on by one MCLK cycle: the cycle count, fabric time (R343), and the MGCLK and REFCLK edges that fall in it. -/
def Blk.timeCycle (b : Blk) : Blk :=
  let ps := b.periodPs
  let c := b.clock
  let ftp := c.ftPs + ps
  let mg := c.mgPs + ps
  let rf := c.refPs + ps
  let b := { b with clock := { c with
    cycle := c.cycle + 1, ft := (c.ft + ftp / 1000) % 2 ^ 64, ftPs := ftp % 1000, mgPs := mg % 4000, refPs := rf % 40000 } }
  let b := if 4000 ≤ mg then b.mgEdge else b
  if 40000 ≤ rf && !c.refLost then b.refEdge else b

/-- FIFO entries go on with what their FIFOs have or take now (R220, R221, R223, R231). -/
def Blk.fifoCycle (b : Blk) : Blk :=
  b.movers.foldl (fun b (m, v) => v.places.foldl (fun b (k, x) =>
    if !x.shadow && x.exec.any (fun e => (e.desc.kind == kFifoIn || e.desc.kind == kFifoOut) && !e.dead && decide (e.stage ≠ .done)) then
      b.pump m k
    else b) b) b

/-- Bindings go on leaving quiescing movers (R260). -/
def Blk.quiesceCycle (b : Blk) : Blk :=
  b.movers.foldl (fun b x => if x.2.state = .quiescing then b.quiesce x.1 else b) b

/-- One MCLK cycle of the block. -/
def Blk.mclk (b : Blk) : Blk :=
  let start := b
  let b := b.timeCycle.modUpd fun u => { u with stbOut := u.stbOut - 1 }
  if !b.on 1 then b
  else
    let b := (b.phaseCycle.lineCycle |> Blk.servePolls 64).serveAdmin.serveProbes
    let b := if b.armed then updPhasePointB b else b
    let b := b.gateCycle.behindCycle.alignedCycle.fifoCycle.quiesceCycle
    let b := b.tagShort.foldl (fun b p => (b.modCnt p fun c => { c with tagWait := incr 32 c.tagWait }).modPort p fun v =>
      { v with epTag := v.epTag + 1 }) b
    let b := b.movers.foldl (fun b x => b.genCycle x.1) b
    let b := (b.ports.foldl (fun b x => b.portCycle x.1) b).mirrorAll
    (start.after ((b.spCycle b.periodPs).sfLevels))

/-- The SLOW copies after a cycle that leaves block `c`: captured anew when a REFCLK edge fell in the cycle (R62). -/
def State.slowAfter (s : State) (c : Blk) : Blk := if c.clock.slowEpoch = s.core.clock.slowEpoch then s.slow else c

/-- One MCLK cycle, in which each port may also process an inbound packet that waited; `sl` holds the SLOW copies. -/
def Blk.cycle (b sl : Blk) : Blk := b.ports.foldl (fun b x => b.inbDrain sl x.1) b.mclk

/-- The step on an empty queue (log 1): one MCLK cycle, and nothing in a test mode (R335). -/
def idleStep (s : State) : Host.Outcome State Fault Refusal :=
  if s.testMode ≠ 0 then .fault .testMode
  else
    let c := s.core.cycle s.slow
    .next { s.withCore c with slow := s.slowAfter c }

end Sys2Proof.Machine
end

