-- ==== Sys2Proof/Machine/Exec.lean ====
section
/-! DEFINITION. The meaning of every command, one definition for each row of spec/opcode_table.json: the effect that its
family's file gives it, run on the block. A row that a management port brings about by an access is that access (R373). -/

namespace Sys2Proof.Machine
open Sys2Proof

/-- A command that is one access of a management port; `x` builds the access from the block. -/
def runAccess (i : Instr) (x : Blk → Access) (s : State) : Host.Outcome State Fault Refusal :=
  run i (fun b => b.after (b.access s.slow (x b))) s

/-- A command that is one access with an access of the other port in the same cycle, if it names one (R47). -/
def runContest (i : Instr) (x : Access) (r : Option Rival) (s : State) : Host.Outcome State Fault Refusal :=
  run i (fun b => b.after (b.arbitrate s.slow x r)) s

/-- A command whose meaning is an effect on the block. -/
def runRow (i : Instr) (f : Blk → Blk) (s : State) : Host.Outcome State Fault Refusal := run i (fun b => b.after (f b)) s

/-- POWER_ON_RESET (R332). -/
def execPowerOnReset (testMode : Nat) (s : State) : Host.Outcome State Fault Refusal :=
  if testMode < 4 then
    .next { (s.withCore { freeNo := s.core.freeNo }) with slow := {}, testMode := testMode }
  else .next s

/-- PORT_RESET (R334). -/
def execPortReset (p : MPort) (s : State) : Host.Outcome State Fault Refusal := runRow (.portReset p) (portResetB p) s

/-- CLOCK_MEASUREMENT (R19). -/
def execClockMeasurement (mclkKHz : Nat) (mgclkKHz : Nat) (s : State) : Host.Outcome State Fault Refusal :=
  runRow (.clockMeasurement mclkKHz mgclkKHz) (clockMeasurementB mclkKHz mgclkKHz) s

/-- REFCLK_LOST (R19). -/
def execRefclkLost (s : State) : Host.Outcome State Fault Refusal :=
  runRow .refclkLost refclkLostB s

/-- MGCLK_GAP (R18). -/
def execMgclkGap (s : State) : Host.Outcome State Fault Refusal := runRow (.mgclkGap) mgclkGapB s

/-- NVM_SETTLE_DONE (R34). -/
def execNvmSettleDone (s : State) : Host.Outcome State Fault Refusal := runRow (.nvmSettleDone) nvmSettleDoneB s

/-- HDR_READ_DONE (R29). -/
def execHdrReadDone (copyA : List Byte) (copyB : List Byte) (s : State) : Host.Outcome State Fault Refusal :=
  runRow (.hdrReadDone copyA copyB) (hdrReadDoneB copyA copyB) s

/-- HDR_RETRY (R34). -/
def execHdrRetry (s : State) : Host.Outcome State Fault Refusal := runRow (.hdrRetry) hdrRetryB s

/-- VERIFY_DONE (R32). -/
def execVerifyDone (secs : List (List Byte)) (alt : List (List Byte)) (s : State) : Host.Outcome State Fault Refusal :=
  runRow (.verifyDone secs alt) (verifyDoneB secs alt) s

/-- POWER_ACK (R352). -/
def execPowerAck (d : Nat) (s : State) : Host.Outcome State Fault Refusal := runRow (.powerAck d) (powerAckB d) s

/-- PWR_TIMEOUT (R36). -/
def execPwrTimeout (d : Nat) (s : State) : Host.Outcome State Fault Refusal := runRow (.pwrTimeout d) (pwrTimeoutB d) s

/-- SELFTEST_DONE (R37). -/
def execSelftestDone (r : BistResult) (s : State) : Host.Outcome State Fault Refusal :=
  runRow (.selftestDone r) (selftestDoneB r) s

/-- APPLY_DONE (R34). -/
def execApplyDone (secs : List (List Byte)) (alt : List (List Byte)) (s : State) : Host.Outcome State Fault Refusal :=
  runRow (.applyDone secs alt) (applyDoneB secs alt) s

/-- RELOAD (R34). -/
def execReload (p : MPort) (s : State) : Host.Outcome State Fault Refusal :=
  runAccess (.reload p) (fun _ => write4 p 0x04004 0x01) s

/-- WARM (R39). -/
def execWarm (p : MPort) (s : State) : Host.Outcome State Fault Refusal :=
  runAccess (.warm p) (fun _ => write4 p 0x04004 0x02) s

/-- WARM_RESTART_DONE (R41). -/
def execWarmRestartDone (storeOk : Bool) (s : State) : Host.Outcome State Fault Refusal :=
  runRow (.warmRestartDone storeOk) (warmRestartDoneB storeOk) s

/-- NV_READ (R43). -/
def execNvRead (p : MPort) (data : List Byte) (s : State) : Host.Outcome State Fault Refusal :=
  runAccess (.nvRead p data) (fun _ => { write4 p 0x04004 0x10 with flash := some data }) s

/-- NV_ERASE (R43). -/
def execNvErase (p : MPort) (s : State) : Host.Outcome State Fault Refusal :=
  runAccess (.nvErase p) (fun _ => write4 p 0x04004 0x11) s

/-- NV_PROGRAM (R43). -/
def execNvProgram (p : MPort) (s : State) : Host.Outcome State Fault Refusal :=
  runAccess (.nvProgram p) (fun _ => write4 p 0x04004 0x12) s

/-- NV_STATUS_POLL (R43). -/
def execNvStatusPoll (busy : Bool) (readBack : List Byte) (s : State) : Host.Outcome State Fault Refusal :=
  runRow (.nvStatusPoll busy readBack) (nvStatusPollB busy readBack) s

/-- REGISTER_WRITE (R373). -/
def execRegisterWrite (c : Claim) (addr : Nat) (be : Nat) (wdata : BitVec 64) (s : State) :
    Host.Outcome State Fault Refusal :=
  runContest (.registerWrite c addr be wdata) ⟨c.port, addr, be, true, wdata.toNat, none, none⟩ c.rival s

/-- KEY_UNLOCK (R65). -/
def execKeyUnlock (p : MPort) (value : Word) (s : State) : Host.Outcome State Fault Refusal :=
  runAccess (.keyUnlock p value) (fun _ => write4 p 0x01000 value.toNat) s

/-- KEY_UNLOCK_LAPSE (R65). -/
def execKeyUnlockLapse (p : MPort) (s : State) : Host.Outcome State Fault Refusal :=
  runRow (.keyUnlockLapse p) (keyUnlockLapseB p) s

/-- SEM_ACQUIRE (R67). -/
def execSemAcquire (c : Claim) (n : Nat) (s : State) : Host.Outcome State Fault Refusal :=
  runContest (.semAcquire c n) (read4 c.port (0x01100 + 4 * n)) c.rival s

/-- SEM_RELEASE (R67). -/
def execSemRelease (p : MPort) (n : Nat) (s : State) : Host.Outcome State Fault Refusal :=
  runAccess (.semRelease p n) (fun _ => write4 p (0x01100 + 4 * n) 0) s

/-- SEM_FORCE (R67). -/
def execSemForce (p : MPort) (n : Nat) (s : State) : Host.Outcome State Fault Refusal :=
  runAccess (.semForce p n) (fun _ => write4 p 0x0100C n) s

/-- MBX_SEL_WRITE (R63). -/
def execMbxSelWrite (p : MPort) (cls : Nat) (index : Nat) (s : State) : Host.Outcome State Fault Refusal :=
  runAccess (.mbxSelWrite p cls index) (fun _ => write4 p 0x02000 (cls * 2 ^ 24 + index)) s

/-- MBX_CAPTURE (R63). -/
def execMbxCapture (p : MPort) (s : State) : Host.Outcome State Fault Refusal := runRow (.mbxCapture p) (mbxCaptureB p) s

/-- MBX_BACKING_READ_DONE (R63). -/
def execMbxBackingReadDone (p : MPort) (r : ReadResult) (s : State) : Host.Outcome State Fault Refusal :=
  runRow (.mbxBackingReadDone p r) (mbxBackingReadDoneB p r) s

/-- MBX_TIMEOUT (R63). -/
def execMbxTimeout (p : MPort) (s : State) : Host.Outcome State Fault Refusal := runRow (.mbxTimeout p) (mbxTimeoutB p) s

/-- MBX_LAST_WORD_READ (R63). -/
def execMbxLastWordRead (p : MPort) (s : State) : Host.Outcome State Fault Refusal :=
  runAccess (.mbxLastWordRead p) (fun b => read4 p (0x02010 + 4 * ((b.side p).mbx.words - 1))) s

/-- EVT_STAT_READ (R64). -/
def execEvtStatRead (p : MPort) (g : Nat) (s : State) : Host.Outcome State Fault Refusal :=
  runAccess (.evtStatRead p g) (fun _ => read4 p (0x03000 + 4 * g)) s

/-- EVT_ACK (R64). -/
def execEvtAck (p : MPort) (g : Nat) (seq : Nat) (mask : Nat) (s : State) : Host.Outcome State Fault Refusal :=
  runAccess (.evtAck p g seq mask) (fun _ => write4 p (0x03100 + 4 * g) (seq * 2 ^ 24 + mask)) s

/-- UPD_ARM (R60). -/
def execUpdArm (p : MPort) (source : Nat) (pu : Nat) (driveOut : Bool) (s : State) : Host.Outcome State Fault Refusal :=
  runAccess (.updArm p source pu driveOut) (fun _ => write4 p 0x07000 (b1 driveOut * 256 + pu * 16 + 4 + source)) s

/-- UPD_GO (R61). -/
def execUpdGo (p : MPort) (s : State) : Host.Outcome State Fault Refusal := runAccess (.updGo p) (fun _ => write4 p 0x07004 1) s

/-- UPD_STB_IN (R350). -/
def execUpdStbIn (s : State) : Host.Outcome State Fault Refusal := runRow (.updStbIn) updStbInB s

/-- UPD_STROBE_MSG (R61). -/
def execUpdStrobeMsg (tag : Nat) (size : Nat) (s : State) : Host.Outcome State Fault Refusal :=
  runRow (.updStrobeMsg tag size) (updStrobeMsgB tag size) s

/-- UPD_PHASE_POINT (R61). -/
def execUpdPhasePoint (s : State) : Host.Outcome State Fault Refusal := runRow (.updPhasePoint) updPhasePointB s

/-- UPD_TIMEOUT (R60). -/
def execUpdTimeout (s : State) : Host.Outcome State Fault Refusal := runRow (.updTimeout) updTimeoutB s

/-- ADMIN_NUDGE (R103). -/
def execAdminNudge (d : Nat) (hdrDom : Nat) (size : Nat) (value : Nat) (s : State) : Host.Outcome State Fault Refusal :=
  runRow (.adminNudge d hdrDom size value) (adminNudgeB d hdrDom size value) s

/-- ADMIN_CPL_RETURN (R103). -/
def execAdminCplReturn (d : Nat) (hdrDom : Nat) (size : Nat) (value : Nat) (s : State) : Host.Outcome State Fault Refusal :=
  runRow (.adminCplReturn d hdrDom size value) (adminCplReturnB d hdrDom size value) s

/-- ADMIN_POLL (R102). -/
def execAdminPoll (d : Nat) (s : State) : Host.Outcome State Fault Refusal := runRow (.adminPoll d) (adminPollB d) s

/-- ADMIN_RING_READ_DONE (R102). -/
def execAdminRingReadDone (d : Nat) (r : ReadResult) (s : State) : Host.Outcome State Fault Refusal :=
  runRow (.adminRingReadDone d r) (adminRingReadDoneB d r) s

/-- MG_SUBMIT (R106). -/
def execMgSubmit (p : MPort) (b : Bool) (s : State) : Host.Outcome State Fault Refusal :=
  runAccess (.mgSubmit p b) (fun _ => write4 p (if b then 0x060C0 else 0x06040) 1) s

/-- MG_POP (R106). -/
def execMgPop (p : MPort) (b : Bool) (s : State) : Host.Outcome State Fault Refusal :=
  runAccess (.mgPop p b) (fun _ => write4 p (if b then 0x060D8 else 0x06058) 1) s

/-- CREATE_QUEUE (R110). -/
def execCreateQueue (r : AdminRing) (s : State) : Host.Outcome State Fault Refusal := runRow (.createQueue r) (createQueueB r) s

/-- DESTROY_QUEUE (R111). -/
def execDestroyQueue (r : AdminRing) (s : State) : Host.Outcome State Fault Refusal :=
  runRow (.destroyQueue r) (destroyQueueB r) s

/-- MODIFY_QUEUE (R374). -/
def execModifyQueue (r : AdminRing) (s : State) : Host.Outcome State Fault Refusal := runRow (.modifyQueue r) (modifyQueueB r) s

/-- STOP_QUEUE (R243). -/
def execStopQueue (r : AdminRing) (s : State) : Host.Outcome State Fault Refusal := runRow (.stopQueue r) (stopQueueB r) s

/-- RESUME_QUEUE (R252). -/
def execResumeQueue (r : AdminRing) (s : State) : Host.Outcome State Fault Refusal := runRow (.resumeQueue r) (resumeQueueB r) s

/-- PIN_QUEUE (R110). -/
def execPinQueue (r : AdminRing) (s : State) : Host.Outcome State Fault Refusal := runRow (.pinQueue r) (pinQueueB r) s

/-- UNPIN_QUEUE (R110). -/
def execUnpinQueue (r : AdminRing) (s : State) : Host.Outcome State Fault Refusal := runRow (.unpinQueue r) (unpinQueueB r) s

/-- QUERY_QUEUE (R113). -/
def execQueryQueue (r : AdminRing) (s : State) : Host.Outcome State Fault Refusal := runRow (.queryQueue r) (queryQueueB r) s

/-- CREATE_EVENT_RING (R267). -/
def execCreateEventRing (r : AdminRing) (s : State) : Host.Outcome State Fault Refusal :=
  runRow (.createEventRing r) (createEventRingB r) s

/-- DESTROY_EVENT_RING (R375). -/
def execDestroyEventRing (r : AdminRing) (s : State) : Host.Outcome State Fault Refusal :=
  runRow (.destroyEventRing r) (destroyEventRingB r) s

/-- ADMIN_NOP (R107). -/
def execAdminNop (r : AdminRing) (s : State) : Host.Outcome State Fault Refusal := runRow (.adminNop r) (adminNopB r) s

/-- STOP_DOMAIN (R243). -/
def execStopDomain (r : AdminRing) (s : State) : Host.Outcome State Fault Refusal := runRow (.stopDomain r) (stopDomainB r) s

/-- RESUME_DOMAIN (R252). -/
def execResumeDomain (r : AdminRing) (s : State) : Host.Outcome State Fault Refusal :=
  runRow (.resumeDomain r) (resumeDomainB r) s

/-- STOP_MOVER (R256). -/
def execStopMover (r : AdminRing) (s : State) : Host.Outcome State Fault Refusal := runRow (.stopMover r) (stopMoverB r) s

/-- RESUME_MOVER (R256). -/
def execResumeMover (r : AdminRing) (s : State) : Host.Outcome State Fault Refusal := runRow (.resumeMover r) (resumeMoverB r) s

/-- STOP_PORT (R257). -/
def execStopPort (r : AdminRing) (s : State) : Host.Outcome State Fault Refusal := runRow (.stopPort r) (stopPortB r) s

/-- RESUME_PORT (R257). -/
def execResumePort (r : AdminRing) (s : State) : Host.Outcome State Fault Refusal := runRow (.resumePort r) (resumePortB r) s

/-- STOP_INSTANCE (R243). -/
def execStopInstance (r : AdminRing) (s : State) : Host.Outcome State Fault Refusal :=
  runRow (.stopInstance r) (stopInstanceB r) s

/-- RESUME_INSTANCE (R259). -/
def execResumeInstance (r : AdminRing) (s : State) : Host.Outcome State Fault Refusal :=
  runRow (.resumeInstance r) (resumeInstanceB r) s

/-- SET_QUOTA (R108). -/
def execSetQuota (r : AdminRing) (s : State) : Host.Outcome State Fault Refusal := runRow (.setQuota r) (setQuotaB r) s

/-- RESET_DOMAIN (R108). -/
def execResetDomain (r : AdminRing) (s : State) : Host.Outcome State Fault Refusal := runRow (.resetDomain r) (resetDomainB r) s

/-- CONTEXT_WAIT_TIMEOUT (R360). -/
def execContextWaitTimeout (r : AdminRing) (s : State) : Host.Outcome State Fault Refusal :=
  runRow (.contextWaitTimeout r) (contextWaitTimeoutB r) s

/-- NUDGE (R87). -/
def execNudge (q : QRef) (hdrDom : Nat) (size : Nat) (value : Nat) (s : State) : Host.Outcome State Fault Refusal :=
  runRow (.nudge q hdrDom size value) (nudgeB q hdrDom size value) s

/-- POLL_DUE (R86). -/
def execPollDue (q : QRef) (s : State) : Host.Outcome State Fault Refusal := runRow (.pollDue q) (pollDueB q) s

/-- RING_TILE_ARRIVAL (R89). -/
def execRingTileArrival (port : Nat) (tag : Nat) (gen : Nat) (r : ReadResult) (s : State) : Host.Outcome State Fault Refusal :=
  runRow (.ringTileArrival port tag gen r) (ringTileArrivalB port tag gen r) s

/-- LOCAL_BUFFER_FILL (R70). -/
def execLocalBufferFill (q : QRef) (s : State) : Host.Outcome State Fault Refusal :=
  runRow (.localBufferFill q) (localBufferFillB q) s

/-- CHAIN_TIMEOUT (R84). -/
def execChainTimeout (q : QRef) (s : State) : Host.Outcome State Fault Refusal := runRow (.chainTimeout q) (chainTimeoutB q) s

/-- BIND_QUEUE (R203). -/
def execBindQueue (q : QRef) (s : State) : Host.Outcome State Fault Refusal := runRow (.bindQueue q) (bindQueueB q) s

/-- BIND_IDLE (R204). -/
def execBindIdle (q : QRef) (s : State) : Host.Outcome State Fault Refusal := runRow (.bindIdle q) (bindIdleB q) s

/-- BIND_PREEMPT (R205). -/
def execBindPreempt (s : State) : Host.Outcome State Fault Refusal := runRow (.bindPreempt) bindPreemptB s

/-- SPILL_DONE (R97). -/
def execSpillDone (q : QRef) (s : State) : Host.Outcome State Fault Refusal := runRow (.spillDone q) (spillDoneB q) s

/-- REFILL_DONE (R97). -/
def execRefillDone (q : QRef) (r : ReadResult) (s : State) : Host.Outcome State Fault Refusal :=
  runRow (.refillDone q r) (refillDoneB q r) s

/-- ENTRY_START (R114). -/
def execEntryStart (m : Nat) (b : Nat) (s : State) : Host.Outcome State Fault Refusal :=
  runRow (.entryStart m b) (entryStartB m b) s

/-- READ_COMPLETION (R131). -/
def execReadCompletion (port : Nat) (c : Cpl) (f : TileFault) (s : State) : Host.Outcome State Fault Refusal :=
  runRow (.readCompletion port c f) (readCompletionB port c f) s

/-- READ_TIMEOUT_SWEEP (R134). -/
def execReadTimeoutSweep (port : Nat) (overdue : List Nat) (s : State) : Host.Outcome State Fault Refusal :=
  runRow (.readTimeoutSweep port overdue) (readTimeoutSweepB port overdue) s

/-- TAG_REJOIN (R130). -/
def execTagRejoin (port : Nat) (tag : Nat) (s : State) : Host.Outcome State Fault Refusal :=
  runRow (.tagRejoin port tag) (tagRejoinB port tag) s

/-- PACKET_ACCEPTED (R340). -/
def execPacketAccepted (port : Nat) (ch : Chan) (crd : Nat) (s : State) : Host.Outcome State Fault Refusal :=
  runRow (.packetAccepted port ch crd) (packetAcceptedB port ch crd) s

/-- FLUSH_READ_COMPLETION (R93). -/
def execFlushReadCompletion (port : Nat) (tag : Nat) (gen : Nat) (r : ReadResult) (s : State) : Host.Outcome State Fault Refusal :=
  runRow (.flushReadCompletion port tag gen r) (flushReadCompletionB port tag gen r) s

/-- TOKEN_RETURN (R341). -/
def execTokenReturn (port : Nat) (tok : Nat) (lost : Bool) (s : State) : Host.Outcome State Fault Refusal :=
  runRow (.tokenReturn port tok lost) (tokenReturnB port tok lost) s

/-- TOKEN_TIMEOUT (R341). -/
def execTokenTimeout (port : Nat) (tok : Nat) (s : State) : Host.Outcome State Fault Refusal :=
  runRow (.tokenTimeout port tok) (tokenTimeoutB port tok) s

/-- PHASE_COUNT (R160). -/
def execPhaseCount (u : Nat) (e : QuadStep) (s : State) : Host.Outcome State Fault Refusal :=
  runRow (.phaseCount u e) (phaseCountB u e.edge e.held) s

/-- INDEX_PULSE (R163). -/
def execIndexPulse (x : PinAt) (s : State) : Host.Outcome State Fault Refusal :=
  runRow (.indexPulse x) (indexPulseB x.n x.pin) s

/-- PHASE_PULSE (R160). -/
def execPhasePulse (x : PinAt) (s : State) : Host.Outcome State Fault Refusal :=
  runRow (.phasePulse x) (phasePulseB x.n x.pin) s

/-- FABRIC_TIME_VALID (R343). -/
def execFabricTimeValid (t : Nat) (s : State) : Host.Outcome State Fault Refusal :=
  runRow (.fabricTimeValid t) (fabricTimeValidB t) s

/-- PHASE_LOSS_TIMEOUT (R159). -/
def execPhaseLossTimeout (u : Nat) (s : State) : Host.Outcome State Fault Refusal :=
  runRow (.phaseLossTimeout u) (phaseLossTimeoutB u) s

/-- COAST_LIMIT_EXPIRY (R162). -/
def execCoastLimitExpiry (u : Nat) (s : State) : Host.Outcome State Fault Refusal :=
  runRow (.coastLimitExpiry u) (coastLimitExpiryB u) s

/-- PU_RESTART (R162). -/
def execPuRestart (p : MPort) (u : Nat) (s : State) : Host.Outcome State Fault Refusal :=
  runAccess (.puRestart p u) (fun _ => write4 p (0x0D400 + 0x40 * u) 0x1000) s

/-- WINDOW_ARM (R170). -/
def execWindowArm (m : Nat) (b : Nat) (s : State) : Host.Outcome State Fault Refusal :=
  runRow (.windowArm m b) (windowArmB m b) s

/-- WINDOW_OPEN (R168). -/
def execWindowOpen (m : Nat) (b : Nat) (s : State) : Host.Outcome State Fault Refusal :=
  runRow (.windowOpen m b) (windowOpenRow m b) s

/-- WINDOW_LATE (R172). -/
def execWindowLate (m : Nat) (b : Nat) (s : State) : Host.Outcome State Fault Refusal :=
  runRow (.windowLate m b) (windowLateB m b) s

/-- PHASE_LOST_HALT (R165). -/
def execPhaseLostHalt (m : Nat) (b : Nat) (s : State) : Host.Outcome State Fault Refusal :=
  runRow (.phaseLostHalt m b) (phaseLostHaltB m b) s

/-- PLAN_ARM (R183). -/
def execPlanArm (m : Nat) (b : Nat) (s : State) : Host.Outcome State Fault Refusal := runRow (.planArm m b) (planArmB m b) s

/-- ALIGNED_TARGET_LAUNCH (R185). -/
def execAlignedTargetLaunch (m : Nat) (b : Nat) (i : Nat) (s : State) : Host.Outcome State Fault Refusal :=
  runRow (.alignedTargetLaunch m b i) (alignedTargetLaunchB m b i) s

/-- SNAP_TARGET_TIMEOUT (R186). -/
def execSnapTargetTimeout (m : Nat) (b : Nat) (s : State) : Host.Outcome State Fault Refusal :=
  runRow (.snapTargetTimeout m b) (snapTargetTimeoutB m b) s

/-- LATENCY_PROBE (R179). -/
def execLatencyProbe (i : Nat) (s : State) : Host.Outcome State Fault Refusal := runRow (.latencyProbe i) (latencyProbeB i) s

/-- LATENCY_RECORD_AGING (R181). -/
def execLatencyRecordAging (i : Nat) (long : Bool) (s : State) : Host.Outcome State Fault Refusal :=
  runRow (.latencyRecordAging i long) (latencyRecordAgingB i long) s

/-- LATENCY_TRACKING_STOP (R179). -/
def execLatencyTrackingStop (i : Nat) (s : State) : Host.Outcome State Fault Refusal :=
  runRow (.latencyTrackingStop i) (latencyTrackingStopB i) s

/-- TGT_LAT_INVAL (R181). -/
def execTgtLatInval (p : MPort) (i : Nat) (s : State) : Host.Outcome State Fault Refusal :=
  runAccess (.tgtLatInval p i) (fun _ => write4 p 0x15018 i) s

/-- BACKGROUND_AGING (R194). -/
def execBackgroundAging (q : QRef) (s : State) : Host.Outcome State Fault Refusal :=
  runRow (.backgroundAging q) (backgroundAgingB q) s

/-- RL_CAPTURE (R211). -/
def execRlCapture (x : PinAt) (s : State) : Host.Outcome State Fault Refusal :=
  runRow (.rlCapture x) (rlCaptureB x.n x.pin) s

/-- RL_RELEASE (R211). -/
def execRlRelease (x : PinAt) (s : State) : Host.Outcome State Fault Refusal :=
  runRow (.rlRelease x) (rlReleaseB x.n x.pin) s

/-- RL_HOLD_TIMEOUT (R212). -/
def execRlHoldTimeout (n : Nat) (s : State) : Host.Outcome State Fault Refusal := runRow (.rlHoldTimeout n) (rlHoldTimeoutB n) s

/-- CAPTURE_CONSUMED (R216). -/
def execCaptureConsumed (l : LineRef) (s : State) : Host.Outcome State Fault Refusal :=
  runRow (.captureConsumed l) (captureConsumedB l) s

/-- RLN_CLEAR (R211). -/
def execRlnClear (p : MPort) (n : Nat) (s : State) : Host.Outcome State Fault Refusal :=
  runAccess (.rlnClear p n) (fun _ => write4 p 0x0E304 n) s

/-- RLN_SWREQ (R211). -/
def execRlnSwreq (p : MPort) (n : Nat) (s : State) : Host.Outcome State Fault Refusal :=
  runAccess (.rlnSwreq p n) (fun _ => write4 p 0x0E308 n) s

/-- RLN_MODE_WRITE (R211). -/
def execRlnModeWrite (p : MPort) (n : Nat) (w : Word) (s : State) : Host.Outcome State Fault Refusal :=
  runAccess (.rlnModeWrite p n w) (fun _ => write4 p (0x0E000 + 4 * n) w.toNat) s

/-- RLN_VRL_RAISE (R214). -/
def execRlnVrlRaise (p : MPort) (v : Nat) (n : Nat) (s : State) : Host.Outcome State Fault Refusal :=
  runAccess (.rlnVrlRaise p v n) (fun _ => write4 p 0x0E30C (n * 2 ^ 16 + v)) s

/-- VRL_MESSAGE (R214). -/
def execVrlMessage (v : Nat) (hdrDom : Nat) (size : Nat) (value : Nat) (s : State) : Host.Outcome State Fault Refusal :=
  runRow (.vrlMessage v hdrDom size value) (vrlMessageB v hdrDom size value) s

/-- SF_ENABLE (R222). -/
def execSfEnable (p : MPort) (f : Nat) (w : Word) (s : State) : Host.Outcome State Fault Refusal :=
  runAccess (.sfEnable p f w) (fun _ => write4 p (0x0F000 + 0x20 * f) (Nat.lor w.toNat (2 ^ 31))) s

/-- SF_DISABLE (R223). -/
def execSfDisable (p : MPort) (f : Nat) (s : State) : Host.Outcome State Fault Refusal :=
  runAccess (.sfDisable p f) (fun _ => write4 p (0x0F800 + 0x20 * f) (2 ^ 31)) s

/-- SF_CLOSE_DONE (R223). -/
def execSfCloseDone (f : Nat) (s : State) : Host.Outcome State Fault Refusal := runRow (.sfCloseDone f) (sfCloseDoneB f) s

/-- FLUSH (R237). -/
def execFlush (p : MPort) (f : Nat) (s : State) : Host.Outcome State Fault Refusal :=
  runAccess (.flush p f) (fun _ => write4 p (0x0F010 + 0x20 * f) (2 ^ 31)) s

/-- DROP_REM (R236). -/
def execDropRem (p : MPort) (f : Nat) (s : State) : Host.Outcome State Fault Refusal :=
  runAccess (.dropRem p f) (fun _ => write4 p (0x0F010 + 0x20 * f) 1) s

/-- CLOSE_TAIL (R234). -/
def execCloseTail (p : MPort) (f : Nat) (s : State) : Host.Outcome State Fault Refusal :=
  runAccess (.closeTail p f) (fun _ => write4 p (0x0F010 + 0x20 * f) 2) s

/-- SP_WORD_IN (R224). -/
def execSpWordIn (n : Nat) (w : StreamWord) (s : State) : Host.Outcome State Fault Refusal :=
  runRow (.spWordIn n w) (spWordInB n w) s

/-- SP_WORD_OUT (R224). -/
def execSpWordOut (n : Nat) (damage : Bool) (s : State) : Host.Outcome State Fault Refusal :=
  runRow (.spWordOut n damage) (spWordOutB n damage) s

/-- STALE_TAIL (R234). -/
def execStaleTail (f : Nat) (s : State) : Host.Outcome State Fault Refusal := runRow (.staleTail f) (staleTailB f) s

/-- SP_CLK_MEASURE (R227). -/
def execSpClkMeasure (n : Nat) (kHz : Nat) (s : State) : Host.Outcome State Fault Refusal :=
  runRow (.spClkMeasure n kHz) (spClkMeasureB n kHz) s

/-- SP_STALL (R227). -/
def execSpStall (n : Nat) (s : State) : Host.Outcome State Fault Refusal := runRow (.spStall n) (spStallB n) s

/-- STOP_POINT_REACHED (R244). -/
def execStopPointReached (q : QRef) (s : State) : Host.Outcome State Fault Refusal :=
  runRow (.stopPointReached q) (stopPointReachedB q) s

/-- STOP_PHASE_REACHED (R247). -/
def execStopPhaseReached (q : QRef) (s : State) : Host.Outcome State Fault Refusal :=
  runRow (.stopPhaseReached q) (stopPhaseReachedB q) s

/-- QUEUE_STOPPED (R250). -/
def execQueueStopped (q : QRef) (s : State) : Host.Outcome State Fault Refusal := runRow (.queueStopped q) (queueStoppedB q) s

/-- MOV_RETIRE (R260). -/
def execMovRetire (p : MPort) (m : Nat) (s : State) : Host.Outcome State Fault Refusal :=
  runAccess (.movRetire p m) (fun _ => write4 p 0x11208 (0x100 + m)) s

/-- MOVER_RETIRED (R260). -/
def execMoverRetired (m : Nat) (s : State) : Host.Outcome State Fault Refusal := runRow (.moverRetired m) (moverRetiredB m) s

/-- DPT_DRAIN (R261). -/
def execDptDrain (p : MPort) (mask : Nat) (s : State) : Host.Outcome State Fault Refusal :=
  runAccess (.dptDrain p mask) (fun _ => write4 p 0x12320 mask) s

/-- PORT_IDLE (R261). -/
def execPortIdle (port : Nat) (s : State) : Host.Outcome State Fault Refusal := runRow (.portIdle port) (portIdleB port) s

/-- MODERATION_TIMEOUT (R277). -/
def execModerationTimeout (q : QRef) (s : State) : Host.Outcome State Fault Refusal :=
  runRow (.moderationTimeout q) (moderationTimeoutB q) s

/-- MESSAGE_COALESCE_END (R278). -/
def execMessageCoalesceEnd (v : Nat) (s : State) : Host.Outcome State Fault Refusal :=
  runRow (.messageCoalesceEnd v) (messageCoalesceEndB v) s

/-- DOM_SLEEP_WRITE (R280). -/
def execDomSleepWrite (p : MPort) (j : Nat) (w : Word) (s : State) : Host.Outcome State Fault Refusal :=
  runAccess (.domSleepWrite p j w) (fun _ => write4 p (0x0B020 + 4 * j) w.toNat) s

/-- VEC_LOAD (R274). -/
def execVecLoad (p : MPort) (s : State) : Host.Outcome State Fault Refusal :=
  runAccess (.vecLoad p) (fun _ => write4 p 0x0B014 1) s

/-- VEC_STORE (R274). -/
def execVecStore (p : MPort) (s : State) : Host.Outcome State Fault Refusal :=
  runAccess (.vecStore p) (fun _ => write4 p 0x0B014 2) s

/-- EVENT_RING_RETURN (R270). -/
def execEventRingReturn (d : Nat) (hdrDom : Nat) (size : Nat) (value : Nat) (s : State) : Host.Outcome State Fault Refusal :=
  runRow (.eventRingReturn d hdrDom size value) (eventRingReturnB d hdrDom size value) s

/-- MOVER_HEARTBEAT_TIMEOUT (R291). -/
def execMoverHeartbeatTimeout (m : Nat) (s : State) : Host.Outcome State Fault Refusal :=
  runRow (.moverHeartbeatTimeout m) (moverHeartbeatTimeoutB m) s

/-- MOVER_WATCHDOG_TIMEOUT (R291). -/
def execMoverWatchdogTimeout (m : Nat) (s : State) : Host.Outcome State Fault Refusal :=
  runRow (.moverWatchdogTimeout m) (moverWatchdogTimeoutB m) s

/-- MOV_FAIL (R292). -/
def execMovFail (m : Nat) (cause : Nat) (s : State) : Host.Outcome State Fault Refusal :=
  runRow (.movFail m cause) (movFailB m cause) s

/-- FAILOVER_RESUME (R294). -/
def execFailoverResume (q : QRef) (s : State) : Host.Outcome State Fault Refusal :=
  runRow (.failoverResume q) (failoverResumeB q) s

/-- PORT_STUCK (R302). -/
def execPortStuck (port : Nat) (s : State) : Host.Outcome State Fault Refusal := runRow (.portStuck port) (portStuckB port) s

/-- PORT_LOST (R303). -/
def execPortLost (port : Nat) (s : State) : Host.Outcome State Fault Refusal := runRow (.portLost port) (portLostB port) s

/-- PORT_UP (R339). -/
def execPortUp (port : Nat) (s : State) : Host.Outcome State Fault Refusal := runRow (.portUp port) (portUpB port) s

/-- LINK_DOWN (R299). -/
def execLinkDown (n : Nat) (cto : Bool) (s : State) : Host.Outcome State Fault Refusal :=
  runRow (.linkDown n cto) (linkDownB n cto) s

/-- LINK_UP (R342). -/
def execLinkUp (n : Nat) (s : State) : Host.Outcome State Fault Refusal := runRow (.linkUp n) (linkUpB n) s

/-- LINK_CTO_RECOVERY (R342). -/
def execLinkCtoRecovery (n : Nat) (s : State) : Host.Outcome State Fault Refusal :=
  runRow (.linkCtoRecovery n) (linkCtoRecoveryB n) s

/-- CONTEXT_SCRUB (R289). -/
def execContextScrub (q : QRef) (tile : Nat) (r : ScrubResult) (s : State) : Host.Outcome State Fault Refusal :=
  runRow (.contextScrub q tile r) (contextScrubB q tile r) s

/-- INTERNAL (R286). -/
def execInternal (unit : Nat) (s : State) : Host.Outcome State Fault Refusal := runRow (.internal unit) (internalB unit) s

/-- SLOT_PRESENCE_ACCEPTED (R307). -/
def execSlotPresenceAccepted (s : Nat) (st : State) : Host.Outcome State Fault Refusal :=
  runRow (.slotPresenceAccepted s) (slotPresenceAcceptedB s) st

/-- SLOT_PRESENCE_SEEN (R307). -/
def execSlotPresenceSeen (s : Nat) (st : State) : Host.Outcome State Fault Refusal :=
  runRow (.slotPresenceSeen s) (slotPresenceSeenB s) st

/-- SLOT_ABSENCE_ACCEPTED (R307). -/
def execSlotAbsenceAccepted (s : Nat) (st : State) : Host.Outcome State Fault Refusal :=
  runRow (.slotAbsenceAccepted s) (slotAbsenceAcceptedB s) st

/-- SLOT_PG_ACCEPTED (R307). -/
def execSlotPgAccepted (s : Nat) (st : State) : Host.Outcome State Fault Refusal :=
  runRow (.slotPgAccepted s) (slotPgAcceptedB s) st

/-- SLOT_PG_LOST (R307). -/
def execSlotPgLost (s : Nat) (st : State) : Host.Outcome State Fault Refusal := runRow (.slotPgLost s) (slotPgLostB s) st

/-- SLOT_FAULT_INPUT (R306). -/
def execSlotFaultInput (s : Nat) (st : State) : Host.Outcome State Fault Refusal :=
  runRow (.slotFaultInput s) (slotFaultInputB s) st

/-- SLOT_RAMP_TIMEOUT (R307). -/
def execSlotRampTimeout (s : Nat) (st : State) : Host.Outcome State Fault Refusal :=
  runRow (.slotRampTimeout s) (slotRampTimeoutB s) st

/-- SLOT_SETTLE_DONE (R308). -/
def execSlotSettleDone (s : Nat) (st : State) : Host.Outcome State Fault Refusal :=
  runRow (.slotSettleDone s) (slotSettleDoneB s) st

/-- SLOT_TOKEN_READ_DONE (R310). -/
def execSlotTokenReadDone (s : Nat) (r : ReadResult) (st : State) : Host.Outcome State Fault Refusal :=
  runRow (.slotTokenReadDone s r) (slotTokenReadDoneB s r) st

/-- SLOT_DISCHARGE_DONE (R307). -/
def execSlotDischargeDone (s : Nat) (st : State) : Host.Outcome State Fault Refusal :=
  runRow (.slotDischargeDone s) (slotDischargeDoneB s) st

/-- PASS_DAMAGED (R307). -/
def execPassDamaged (s : Nat) (st : State) : Host.Outcome State Fault Refusal := runRow (.passDamaged s) (passDamagedB s) st

/-- SLOT_HOLD_EXPIRY (R309). -/
def execSlotHoldExpiry (s : Nat) (st : State) : Host.Outcome State Fault Refusal :=
  runRow (.slotHoldExpiry s) (slotHoldExpiryB s) st

/-- SLT_ON_WRITE (R307). -/
def execSltOnWrite (p : MPort) (s : Nat) (on : Bool) (st : State) : Host.Outcome State Fault Refusal :=
  runAccess (.sltOnWrite p s on) (fun b => write4 p (0x05000 + 4 * s) (putBits (b.reg (0x05000 + 4 * s)) 30 30 (b1 on))) st

/-- SLT_SVC_CLEAR (R307). -/
def execSltSvcClear (p : MPort) (s : Nat) (st : State) : Host.Outcome State Fault Refusal :=
  runAccess (.sltSvcClear p s) (fun _ => write4 p 0x05304 (0x100 + s)) st

/-- SLT_SVC_EXPIRE (R310). -/
def execSltSvcExpire (p : MPort) (s : Nat) (st : State) : Host.Outcome State Fault Refusal :=
  runAccess (.sltSvcExpire p s) (fun _ => write4 p 0x05304 (0x200 + s)) st

/-- BORAGE_EPOCH (R312). -/
def execBorageEpoch (freeze : Bool) (s : State) : Host.Outcome State Fault Refusal :=
  runRow (.borageEpoch freeze) (borageEpochB freeze) s

/-- SUP_FREEZE_WRITE (R321). -/
def execSupFreezeWrite (p : MPort) (frozen : Bool) (s : State) : Host.Outcome State Fault Refusal :=
  runAccess (.supFreezeWrite p frozen) (fun _ => write4 p 0x14004 (b1 frozen)) s

/-- SUP_RESTORE (R321). -/
def execSupRestore (p : MPort) (s : State) : Host.Outcome State Fault Refusal :=
  runAccess (.supRestore p) (fun b => write4 p 0x14004 (2 + b.regF 0x14004 0 0)) s

/-- SUP_RING_ENABLE (R319). -/
def execSupRingEnable (p : MPort) (w : Word) (s : State) : Host.Outcome State Fault Refusal :=
  runAccess (.supRingEnable p w) (fun _ => write4 p 0x14014 (Nat.lor w.toNat (2 ^ 31))) s

/-- SUP_RING_RET_WRITE (R320). -/
def execSupRingRetWrite (p : MPort) (w : Word) (s : State) : Host.Outcome State Fault Refusal :=
  runAccess (.supRingRetWrite p w) (fun _ => write4 p 0x14018 w.toNat) s

/-- TEMP_SAMPLE (R322). -/
def execTempSample (i : Nat) (code : Nat) (s : State) : Host.Outcome State Fault Refusal :=
  runRow (.tempSample i code) (tempSampleB i code) s

/-- TEMP_STALE (R322). -/
def execTempStale (i : Nat) (s : State) : Host.Outcome State Fault Refusal := runRow (.tempStale i) (tempStaleB i) s

/-- THERMAL_SHED (R325). -/
def execThermalShed (q : QRef) (s : State) : Host.Outcome State Fault Refusal := runRow (.thermalShed q) (thermalShedB q) s

/-- RO_WINDOW (R326). -/
def execRoWindow (d : Nat) (count : Nat) (s : State) : Host.Outcome State Fault Refusal :=
  runRow (.roWindow d count) (roWindowB d count) s

/-- RO_FAST_WINDOW (R326). -/
def execRoFastWindow (d : Nat) (count : Nat) (s : State) : Host.Outcome State Fault Refusal :=
  runRow (.roFastWindow d count) (roFastWindowB d count) s

/-- MOV_SVC_TEST (R328). -/
def execMovSvcTest (p : MPort) (m : Nat) (spare : Bool) (s : State) : Host.Outcome State Fault Refusal :=
  runAccess (.movSvcTest p m spare) (fun _ => write4 p 0x11214 (b1 spare * 2 ^ 12 + 0x100 + m)) s

/-- MOV_SVC_POWER_DOWN (R328). -/
def execMovSvcPowerDown (p : MPort) (m : Nat) (s : State) : Host.Outcome State Fault Refusal :=
  runAccess (.movSvcPowerDown p m) (fun _ => write4 p 0x11214 (0x200 + m)) s

/-- MOV_SVC_POWER_UP (R328). -/
def execMovSvcPowerUp (p : MPort) (m : Nat) (spare : Bool) (s : State) : Host.Outcome State Fault Refusal :=
  runAccess (.movSvcPowerUp p m spare) (fun _ => write4 p 0x11214 (b1 spare * 2 ^ 12 + 0x300 + m)) s

/-- MOVER_SELFTEST_DONE (R328). -/
def execMoverSelftestDone (m : Nat) (fail : Nat) (s : State) : Host.Outcome State Fault Refusal :=
  runRow (.moverSelftestDone m fail) (moverSelftestDoneB m fail) s

/-- CTXW_REBUILD_TEST (R329). -/
def execCtxwRebuildTest (p : MPort) (bankB : Bool) (s : State) : Host.Outcome State Fault Refusal :=
  runAccess (.ctxwRebuildTest p bankB) (fun _ => write4 p 0x13008 (0x100 + b1 bankB)) s

/-- CTXW_REBUILD_COPY (R329). -/
def execCtxwRebuildCopy (p : MPort) (bankB : Bool) (s : State) : Host.Outcome State Fault Refusal :=
  runAccess (.ctxwRebuildCopy p bankB) (fun _ => write4 p 0x13008 (0x200 + b1 bankB)) s

/-- CTXW_REBUILD_DONE (R329). -/
def execCtxwRebuildDone (pass : Bool) (lost : List QRef) (s : State) : Host.Outcome State Fault Refusal :=
  runRow (.ctxwRebuildDone pass lost) (ctxwRebuildDoneB pass lost) s

/-- POWER_ASK (R352). -/
def execPowerAsk (d : Nat) (retention : Bool) (s : State) : Host.Outcome State Fault Refusal :=
  runRow (.powerAsk d retention) (powerAskB d retention) s

/-- POWER_ACK_LOST (R352). -/
def execPowerAckLost (d : Nat) (s : State) : Host.Outcome State Fault Refusal := runRow (.powerAckLost d) (powerAckLostB d) s

/-- INBOUND_PACKET (R344). -/
def execInboundPacket (port : Nat) (k : InPkt) (s : State) : Host.Outcome State Fault Refusal :=
  runRow (.inboundPacket port k) (fun b => inboundPacketB port k s.slow b) s

/-- TUNNEL_ACCESS (R362). -/
def execTunnelAccess (port : Nat) (k : InPkt) (s : State) : Host.Outcome State Fault Refusal :=
  runRow (.tunnelAccess port k) (fun b => tunnelAccessB port k s.slow b) s

/-- RELAY_WRITE (R363). -/
def execRelayWrite (port : Nat) (k : InPkt) (s : State) : Host.Outcome State Fault Refusal :=
  runRow (.relayWrite port k) (fun b => relayWriteB port k s.slow b) s

/-- RELAY_RING_WRITE (R363). -/
def execRelayRingWrite (port : Nat) (s : State) : Host.Outcome State Fault Refusal :=
  runRow (.relayRingWrite port) (relayRingWriteB port) s

/-- REFCLK_RETURN (R19). -/
def execRefclkReturn (s : State) : Host.Outcome State Fault Refusal :=
  runRow .refclkReturn refclkReturnB s

/-- SLOT_SETTLE_LINK_TIMEOUT (R307). -/
def execSlotSettleLinkTimeout (s : Nat) (st : State) : Host.Outcome State Fault Refusal :=
  runRow (.slotSettleLinkTimeout s) (slotSettleLinkTimeoutB s) st

/-- SQUARE_HALF_FAILURE (R288). -/
def execSquareHalfFailure (half : Nat) (s : State) : Host.Outcome State Fault Refusal :=
  runRow (.squareHalfFailure half) (squareHalfFailureB half) s

/-- SQUARE_HALF_SELFTEST_DONE (R330). -/
def execSquareHalfSelftestDone (half : Nat) (mapped : List Nat) (pass : Bool) (s : State) : Host.Outcome State Fault Refusal :=
  runRow (.squareHalfSelftestDone half mapped pass) (squareHalfSelftestDoneB half mapped pass) s

/-- POWER_DOWN_ACK (R352). -/
def execPowerDownAck (d : Nat) (s : State) : Host.Outcome State Fault Refusal := runRow (.powerDownAck d) (powerDownAckB d) s

/-- DATA_CREDIT_RETURN (R339). -/
def execDataCreditReturn (port : Nat) (ch : Chan) (crd : Nat) (s : State) : Host.Outcome State Fault Refusal :=
  runRow (.dataCreditReturn port ch crd) (dataCreditReturnB port ch crd) s

/-- PHASE_TICK_ESTIMATE (R175). -/
def execPhaseTickEstimate (u : Nat) (s : State) : Host.Outcome State Fault Refusal :=
  runRow (.phaseTickEstimate u) (phaseTickEstimateB u) s

end Sys2Proof.Machine
end

