-- ==== Sys2Proof/Machine/Dispatch.lean ====
section
/-! DEFINITION. The dispatch: one arm per command, each one call of its meaning. -/

namespace Sys2Proof.Machine
open Sys2Proof

/-- The effect of a command on everything but the queue (opcode_table.json). -/
def exec (i : Instr) (s : State) : Host.Outcome State Fault Refusal :=
  match i with
  | .powerOnReset testMode => Sys2Proof.Machine.execPowerOnReset testMode s
  | .portReset p => Sys2Proof.Machine.execPortReset p s
  | .clockMeasurement mclkKHz mgclkKHz => Sys2Proof.Machine.execClockMeasurement mclkKHz mgclkKHz s
  | .refclkLost => Sys2Proof.Machine.execRefclkLost s
  | .mgclkGap => Sys2Proof.Machine.execMgclkGap s
  | .nvmSettleDone => Sys2Proof.Machine.execNvmSettleDone s
  | .hdrReadDone copyA copyB => Sys2Proof.Machine.execHdrReadDone copyA copyB s
  | .hdrRetry => Sys2Proof.Machine.execHdrRetry s
  | .verifyDone secs alt => Sys2Proof.Machine.execVerifyDone secs alt s
  | .powerAck d => Sys2Proof.Machine.execPowerAck d s
  | .pwrTimeout d => Sys2Proof.Machine.execPwrTimeout d s
  | .selftestDone r => Sys2Proof.Machine.execSelftestDone r s
  | .applyDone secs alt => Sys2Proof.Machine.execApplyDone secs alt s
  | .reload p => Sys2Proof.Machine.execReload p s
  | .warm p => Sys2Proof.Machine.execWarm p s
  | .warmRestartDone storeOk => Sys2Proof.Machine.execWarmRestartDone storeOk s
  | .nvRead p data => Sys2Proof.Machine.execNvRead p data s
  | .nvErase p => Sys2Proof.Machine.execNvErase p s
  | .nvProgram p => Sys2Proof.Machine.execNvProgram p s
  | .nvStatusPoll busy readBack => Sys2Proof.Machine.execNvStatusPoll busy readBack s
  | .registerWrite c addr be wdata => Sys2Proof.Machine.execRegisterWrite c addr be wdata s
  | .keyUnlock p value => Sys2Proof.Machine.execKeyUnlock p value s
  | .keyUnlockLapse p => Sys2Proof.Machine.execKeyUnlockLapse p s
  | .semAcquire c n => Sys2Proof.Machine.execSemAcquire c n s
  | .semRelease p n => Sys2Proof.Machine.execSemRelease p n s
  | .semForce p n => Sys2Proof.Machine.execSemForce p n s
  | .mbxSelWrite p cls index => Sys2Proof.Machine.execMbxSelWrite p cls index s
  | .mbxCapture p => Sys2Proof.Machine.execMbxCapture p s
  | .mbxBackingReadDone p r => Sys2Proof.Machine.execMbxBackingReadDone p r s
  | .mbxTimeout p => Sys2Proof.Machine.execMbxTimeout p s
  | .mbxLastWordRead p => Sys2Proof.Machine.execMbxLastWordRead p s
  | .evtStatRead p g => Sys2Proof.Machine.execEvtStatRead p g s
  | .evtAck p g seq mask => Sys2Proof.Machine.execEvtAck p g seq mask s
  | .updArm p source pu driveOut => Sys2Proof.Machine.execUpdArm p source pu driveOut s
  | .updGo p => Sys2Proof.Machine.execUpdGo p s
  | .updStbIn => Sys2Proof.Machine.execUpdStbIn s
  | .updStrobeMsg tag size => Sys2Proof.Machine.execUpdStrobeMsg tag size s
  | .updPhasePoint => Sys2Proof.Machine.execUpdPhasePoint s
  | .updTimeout => Sys2Proof.Machine.execUpdTimeout s
  | .adminNudge d hdrDom size value => Sys2Proof.Machine.execAdminNudge d hdrDom size value s
  | .adminCplReturn d hdrDom size value => Sys2Proof.Machine.execAdminCplReturn d hdrDom size value s
  | .adminPoll d => Sys2Proof.Machine.execAdminPoll d s
  | .adminRingReadDone d r => Sys2Proof.Machine.execAdminRingReadDone d r s
  | .mgSubmit p b => Sys2Proof.Machine.execMgSubmit p b s
  | .mgPop p b => Sys2Proof.Machine.execMgPop p b s
  | .createQueue r => Sys2Proof.Machine.execCreateQueue r s
  | .destroyQueue r => Sys2Proof.Machine.execDestroyQueue r s
  | .modifyQueue r => Sys2Proof.Machine.execModifyQueue r s
  | .stopQueue r => Sys2Proof.Machine.execStopQueue r s
  | .resumeQueue r => Sys2Proof.Machine.execResumeQueue r s
  | .pinQueue r => Sys2Proof.Machine.execPinQueue r s
  | .unpinQueue r => Sys2Proof.Machine.execUnpinQueue r s
  | .queryQueue r => Sys2Proof.Machine.execQueryQueue r s
  | .createEventRing r => Sys2Proof.Machine.execCreateEventRing r s
  | .destroyEventRing r => Sys2Proof.Machine.execDestroyEventRing r s
  | .adminNop r => Sys2Proof.Machine.execAdminNop r s
  | .stopDomain r => Sys2Proof.Machine.execStopDomain r s
  | .resumeDomain r => Sys2Proof.Machine.execResumeDomain r s
  | .stopMover r => Sys2Proof.Machine.execStopMover r s
  | .resumeMover r => Sys2Proof.Machine.execResumeMover r s
  | .stopPort r => Sys2Proof.Machine.execStopPort r s
  | .resumePort r => Sys2Proof.Machine.execResumePort r s
  | .stopInstance r => Sys2Proof.Machine.execStopInstance r s
  | .resumeInstance r => Sys2Proof.Machine.execResumeInstance r s
  | .setQuota r => Sys2Proof.Machine.execSetQuota r s
  | .resetDomain r => Sys2Proof.Machine.execResetDomain r s
  | .contextWaitTimeout r => Sys2Proof.Machine.execContextWaitTimeout r s
  | .nudge q hdrDom size value => Sys2Proof.Machine.execNudge q hdrDom size value s
  | .pollDue q => Sys2Proof.Machine.execPollDue q s
  | .ringTileArrival port tag gen r => Sys2Proof.Machine.execRingTileArrival port tag gen r s
  | .localBufferFill q => Sys2Proof.Machine.execLocalBufferFill q s
  | .chainTimeout q => Sys2Proof.Machine.execChainTimeout q s
  | .bindQueue q => Sys2Proof.Machine.execBindQueue q s
  | .bindIdle q => Sys2Proof.Machine.execBindIdle q s
  | .bindPreempt => Sys2Proof.Machine.execBindPreempt s
  | .spillDone q => Sys2Proof.Machine.execSpillDone q s
  | .refillDone q r => Sys2Proof.Machine.execRefillDone q r s
  | .entryStart m b => Sys2Proof.Machine.execEntryStart m b s
  | .readCompletion port c f => Sys2Proof.Machine.execReadCompletion port c f s
  | .readTimeoutSweep port overdue => Sys2Proof.Machine.execReadTimeoutSweep port overdue s
  | .tagRejoin port tag => Sys2Proof.Machine.execTagRejoin port tag s
  | .packetAccepted port ch crd => Sys2Proof.Machine.execPacketAccepted port ch crd s
  | .flushReadCompletion port tag gen r => Sys2Proof.Machine.execFlushReadCompletion port tag gen r s
  | .tokenReturn port tok lost => Sys2Proof.Machine.execTokenReturn port tok lost s
  | .tokenTimeout port tok => Sys2Proof.Machine.execTokenTimeout port tok s
  | .phaseCount u e => Sys2Proof.Machine.execPhaseCount u e s
  | .indexPulse x => Sys2Proof.Machine.execIndexPulse x s
  | .phasePulse x => Sys2Proof.Machine.execPhasePulse x s
  | .fabricTimeValid t => Sys2Proof.Machine.execFabricTimeValid t s
  | .phaseLossTimeout u => Sys2Proof.Machine.execPhaseLossTimeout u s
  | .coastLimitExpiry u => Sys2Proof.Machine.execCoastLimitExpiry u s
  | .puRestart p u => Sys2Proof.Machine.execPuRestart p u s
  | .windowArm m b => Sys2Proof.Machine.execWindowArm m b s
  | .windowOpen m b => Sys2Proof.Machine.execWindowOpen m b s
  | .windowLate m b => Sys2Proof.Machine.execWindowLate m b s
  | .phaseLostHalt m b => Sys2Proof.Machine.execPhaseLostHalt m b s
  | .planArm m b => Sys2Proof.Machine.execPlanArm m b s
  | .alignedTargetLaunch m b idx => Sys2Proof.Machine.execAlignedTargetLaunch m b idx s
  | .snapTargetTimeout m b => Sys2Proof.Machine.execSnapTargetTimeout m b s
  | .latencyProbe idx => Sys2Proof.Machine.execLatencyProbe idx s
  | .latencyRecordAging idx long => Sys2Proof.Machine.execLatencyRecordAging idx long s
  | .latencyTrackingStop idx => Sys2Proof.Machine.execLatencyTrackingStop idx s
  | .tgtLatInval p idx => Sys2Proof.Machine.execTgtLatInval p idx s
  | .backgroundAging q => Sys2Proof.Machine.execBackgroundAging q s
  | .rlCapture x => Sys2Proof.Machine.execRlCapture x s
  | .rlRelease x => Sys2Proof.Machine.execRlRelease x s
  | .rlHoldTimeout n => Sys2Proof.Machine.execRlHoldTimeout n s
  | .captureConsumed l => Sys2Proof.Machine.execCaptureConsumed l s
  | .rlnClear p n => Sys2Proof.Machine.execRlnClear p n s
  | .rlnSwreq p n => Sys2Proof.Machine.execRlnSwreq p n s
  | .rlnModeWrite p n w => Sys2Proof.Machine.execRlnModeWrite p n w s
  | .rlnVrlRaise p v n => Sys2Proof.Machine.execRlnVrlRaise p v n s
  | .vrlMessage v hdrDom size value => Sys2Proof.Machine.execVrlMessage v hdrDom size value s
  | .sfEnable p f w => Sys2Proof.Machine.execSfEnable p f w s
  | .sfDisable p f => Sys2Proof.Machine.execSfDisable p f s
  | .sfCloseDone f => Sys2Proof.Machine.execSfCloseDone f s
  | .flush p f => Sys2Proof.Machine.execFlush p f s
  | .dropRem p f => Sys2Proof.Machine.execDropRem p f s
  | .closeTail p f => Sys2Proof.Machine.execCloseTail p f s
  | .spWordIn n w => Sys2Proof.Machine.execSpWordIn n w s
  | .spWordOut n damage => Sys2Proof.Machine.execSpWordOut n damage s
  | .staleTail f => Sys2Proof.Machine.execStaleTail f s
  | .spClkMeasure n kHz => Sys2Proof.Machine.execSpClkMeasure n kHz s
  | .spStall n => Sys2Proof.Machine.execSpStall n s
  | .stopPointReached q => Sys2Proof.Machine.execStopPointReached q s
  | .stopPhaseReached q => Sys2Proof.Machine.execStopPhaseReached q s
  | .queueStopped q => Sys2Proof.Machine.execQueueStopped q s
  | .movRetire p m => Sys2Proof.Machine.execMovRetire p m s
  | .moverRetired m => Sys2Proof.Machine.execMoverRetired m s
  | .dptDrain p mask => Sys2Proof.Machine.execDptDrain p mask s
  | .portIdle port => Sys2Proof.Machine.execPortIdle port s
  | .moderationTimeout q => Sys2Proof.Machine.execModerationTimeout q s
  | .messageCoalesceEnd v => Sys2Proof.Machine.execMessageCoalesceEnd v s
  | .domSleepWrite p j w => Sys2Proof.Machine.execDomSleepWrite p j w s
  | .vecLoad p => Sys2Proof.Machine.execVecLoad p s
  | .vecStore p => Sys2Proof.Machine.execVecStore p s
  | .eventRingReturn d hdrDom size value => Sys2Proof.Machine.execEventRingReturn d hdrDom size value s
  | .moverHeartbeatTimeout m => Sys2Proof.Machine.execMoverHeartbeatTimeout m s
  | .moverWatchdogTimeout m => Sys2Proof.Machine.execMoverWatchdogTimeout m s
  | .movFail m cause => Sys2Proof.Machine.execMovFail m cause s
  | .failoverResume q => Sys2Proof.Machine.execFailoverResume q s
  | .portStuck port => Sys2Proof.Machine.execPortStuck port s
  | .portLost port => Sys2Proof.Machine.execPortLost port s
  | .portUp port => Sys2Proof.Machine.execPortUp port s
  | .linkDown n cto => Sys2Proof.Machine.execLinkDown n cto s
  | .linkUp n => Sys2Proof.Machine.execLinkUp n s
  | .linkCtoRecovery n => Sys2Proof.Machine.execLinkCtoRecovery n s
  | .contextScrub q tile r => Sys2Proof.Machine.execContextScrub q tile r s
  | .internal unit => Sys2Proof.Machine.execInternal unit s
  | .slotPresenceAccepted slot => Sys2Proof.Machine.execSlotPresenceAccepted slot s
  | .slotPresenceSeen slot => Sys2Proof.Machine.execSlotPresenceSeen slot s
  | .slotAbsenceAccepted slot => Sys2Proof.Machine.execSlotAbsenceAccepted slot s
  | .slotPgAccepted slot => Sys2Proof.Machine.execSlotPgAccepted slot s
  | .slotPgLost slot => Sys2Proof.Machine.execSlotPgLost slot s
  | .slotFaultInput slot => Sys2Proof.Machine.execSlotFaultInput slot s
  | .slotRampTimeout slot => Sys2Proof.Machine.execSlotRampTimeout slot s
  | .slotSettleDone slot => Sys2Proof.Machine.execSlotSettleDone slot s
  | .slotTokenReadDone slot r => Sys2Proof.Machine.execSlotTokenReadDone slot r s
  | .slotDischargeDone slot => Sys2Proof.Machine.execSlotDischargeDone slot s
  | .passDamaged slot => Sys2Proof.Machine.execPassDamaged slot s
  | .slotHoldExpiry slot => Sys2Proof.Machine.execSlotHoldExpiry slot s
  | .sltOnWrite p slot on => Sys2Proof.Machine.execSltOnWrite p slot on s
  | .sltSvcClear p slot => Sys2Proof.Machine.execSltSvcClear p slot s
  | .sltSvcExpire p slot => Sys2Proof.Machine.execSltSvcExpire p slot s
  | .borageEpoch freeze => Sys2Proof.Machine.execBorageEpoch freeze s
  | .supFreezeWrite p frozen => Sys2Proof.Machine.execSupFreezeWrite p frozen s
  | .supRestore p => Sys2Proof.Machine.execSupRestore p s
  | .supRingEnable p w => Sys2Proof.Machine.execSupRingEnable p w s
  | .supRingRetWrite p w => Sys2Proof.Machine.execSupRingRetWrite p w s
  | .tempSample idx code => Sys2Proof.Machine.execTempSample idx code s
  | .tempStale idx => Sys2Proof.Machine.execTempStale idx s
  | .thermalShed q => Sys2Proof.Machine.execThermalShed q s
  | .roWindow d count => Sys2Proof.Machine.execRoWindow d count s
  | .roFastWindow d count => Sys2Proof.Machine.execRoFastWindow d count s
  | .movSvcTest p m spare => Sys2Proof.Machine.execMovSvcTest p m spare s
  | .movSvcPowerDown p m => Sys2Proof.Machine.execMovSvcPowerDown p m s
  | .movSvcPowerUp p m spare => Sys2Proof.Machine.execMovSvcPowerUp p m spare s
  | .moverSelftestDone m fail => Sys2Proof.Machine.execMoverSelftestDone m fail s
  | .ctxwRebuildTest p bankB => Sys2Proof.Machine.execCtxwRebuildTest p bankB s
  | .ctxwRebuildCopy p bankB => Sys2Proof.Machine.execCtxwRebuildCopy p bankB s
  | .ctxwRebuildDone pass lost => Sys2Proof.Machine.execCtxwRebuildDone pass lost s
  | .powerAsk d retention => Sys2Proof.Machine.execPowerAsk d retention s
  | .powerAckLost d => Sys2Proof.Machine.execPowerAckLost d s
  | .inboundPacket port k => Sys2Proof.Machine.execInboundPacket port k s
  | .tunnelAccess port k => Sys2Proof.Machine.execTunnelAccess port k s
  | .relayWrite port k => Sys2Proof.Machine.execRelayWrite port k s
  | .relayRingWrite port => Sys2Proof.Machine.execRelayRingWrite port s
  | .refclkReturn => Sys2Proof.Machine.execRefclkReturn s
  | .slotSettleLinkTimeout slot => Sys2Proof.Machine.execSlotSettleLinkTimeout slot s
  | .squareHalfFailure half => Sys2Proof.Machine.execSquareHalfFailure half s
  | .squareHalfSelftestDone half mapped pass => Sys2Proof.Machine.execSquareHalfSelftestDone half mapped pass s
  | .powerDownAck d => Sys2Proof.Machine.execPowerDownAck d s
  | .dataCreditReturn port ch crd => Sys2Proof.Machine.execDataCreditReturn port ch crd s
  | .phaseTickEstimate u => Sys2Proof.Machine.execPhaseTickEstimate u s

end Sys2Proof.Machine
end

