-- ==== Sys2Proof/Machine/Step.lean ====
section
/-! DEFINITION. One step: the command at the front of the queue, or, with none waiting, one MCLK cycle (log 1). -/

namespace Sys2Proof.Machine
open Sys2Proof

/-- The step. A waiting command is run with the rest of the queue; an empty queue lets one MCLK cycle pass (log 1). -/
def step (s : State) : Host.Outcome State Fault Refusal :=
  match s.pending with
  | [] => Sys2Proof.Machine.idleStep s
  | c :: rest => exec c { s with pending := rest }

/-- The state with the command a word spells at the front of the queue; no word spells one. -/
def State.withFetchWord (s : State) (nbits w : Nat) : State :=
  match decodeTableWord nbits w with
  | some c => { s with pending := c :: s.pending }
  | none => s

end Sys2Proof.Machine
end

