-- ==== Sys2Proof/Safety.lean ====
section
/-! DEFINITION. The terms the claims use: which commands complete and with which block, what an event may write, the invariant
of the output pins, and a safe step. -/

namespace Sys2Proof.Machine
open Sys2Proof

/-! ## Completion -/

/-- The block works: the functional mode was sampled at reset (R335), and the loader is in READY (Table 2-11). -/
def State.Serves (s : State) : Prop := s.testMode = 0 ∧ s.core.ldr.state = .ready

/-- Command `c` answers a next state whose block is `b`. -/
def Does (c : Instr) (s : State) (b : Blk) : Prop := Sys2Proof.Machine.exec c s = .next (s.withCore b)

/-! ## What a shared operation may write -/

/-- `c` differs from `b` only in the data ports and the order of presentation: what sending packets writes. -/
def Sent (b c : Blk) : Prop := c = { b with ports := c.ports, order := c.order }

/-- `c` differs from `b` only where an event and its message write: the event groups and the rest of the management side,
the coalescing lists of the scheduler, the vector page, the ports and the order of presentation. -/
def Msg (b c : Blk) : Prop := c = { b with ports := c.ports, order := c.order, mg := c.mg, sched := c.sched, vec := c.vec }

/-- `c` differs from `b` only where an event, a message or an event record writes. -/
def Told (b c : Blk) : Prop :=
  c = { b with ports := c.ports, order := c.order, mg := c.mg, sched := c.sched, vec := c.vec, domains := c.domains }

/-- Bit `i` of the pending bits of event group `g` is set (R264). -/
def Blk.pends (b : Blk) (g i : Nat) : Bool := bit (tabGet ({} : EvGroup) b.mg.groups g).pending i

/-- Command `c` answers the next state whose block is `b` with event `i` of group `g` raised: it differs from `b` only where an event
and its message write, and the event is pending (R264, R266). -/
def Raises (c : Instr) (s : State) (b : Blk) (g i : Nat) : Prop :=
  Does c s (b.raise g i) ∧ Msg b (b.raise g i) ∧ (b.raise g i).pends g i = true

/-! ## Register accesses -/

/-- An access of port `p` to the register at `a` is accepted and not refused for want of room, semaphore, power or by SAFE
(R46, R68, R373 steps 1 and 2). -/
structure Blk.Open (b : Blk) (p : MPort) (a : Nat) : Prop where
  room : (b.side p).outstanding.length < 4
  sem : b.semDenied p (a / 0x1000) = false
  on : b.on (regPd a) = true
  safe : b.inSafe = false ∨ guarded (a / 0x1000) = true

/-- The port's key unlock is live (R65). -/
def Blk.Keyed (b : Blk) (p : MPort) : Prop := 0 < (b.side p).remain

/-- The block once a write of port `p` is selected: the port's unlock is used up (R65). -/
def Blk.selected (b : Blk) (p : MPort) : Blk := b.modSide p fun s => { s with remain := 0 }

/-- The block once an access of port `p` has its answer: data `v` and no error (R46). -/
def Blk.answered (b : Blk) (p : MPort) (v : BitVec 64) : Blk :=
  b.modSide p fun s => { s with outstanding := s.outstanding ++ [⟨v, false, none⟩] }

/-! ## The conditions and the results of the families -/

/-- strobe taken -/
structure Struck (b c : Blk) : Prop where
  pending : c.shadow = []
  arm : c.armed = false
  count : c.upd.count = (b.upd.count + 1) % 2 ^ 16
  out : bit (b.reg 0x07000) 8 = true → c.upd.stbOut = 16

/-- One row of Table 5-4: the opcode, the command of the opcode table, and what the command does once its form is good. -/
structure AdminOp where
  op : Nat
  row : AdminRing → Instr
  effect : AdminRing → List Byte → Blk → Blk

/-- The commands of Table 5-4. -/
def adminOps : List AdminOp :=
  [⟨0x01, .createQueue, fun r c b => b.doCreate r c⟩,
   ⟨0x02, .destroyQueue, fun r c b => b.doDestroy r c⟩,
   ⟨0x03, .modifyQueue, fun r c b => b.doModify r c⟩,
   ⟨0x04, .stopQueue, fun r c b => b.doStop r c⟩,
   ⟨0x05, .resumeQueue, fun r c b => b.doResume r c⟩,
   ⟨0x06, .pinQueue, fun r c b => b.doPin r c⟩,
   ⟨0x07, .unpinQueue, fun r c b => b.doUnpin r c⟩,
   ⟨0x08, .queryQueue, fun r c b => b.doQuery r c⟩,
   ⟨0x09, .createEventRing, fun r c b => b.doCreateRing r c⟩,
   ⟨0x0A, .destroyEventRing, fun r c b => b.doDestroyRing r c⟩,
   ⟨0x0B, .adminNop, fun r c b => b.okPlain r c 0⟩,
   ⟨0x20, .stopDomain, fun r c b => (b.stopDomainOp (leAt c 8 4) (stopOfCmd c)).okPlain r c 0⟩,
   ⟨0x21, .resumeDomain, fun r c b => (b.resumeDomainOp (leAt c 8 4)).okPlain r c 0⟩,
   ⟨0x22, .stopMover, fun r c b => (b.stopMoverOp (leAt c 8 4) (stopOfCmd c)).okPlain r c 0⟩,
   ⟨0x23, .resumeMover, fun r c b => (b.resumeMoverOp (leAt c 8 4)).okPlain r c 0⟩,
   ⟨0x24, .stopPort, fun r c b => (b.stopPortOp (leAt c 8 4) (stopOfCmd c)).okPlain r c 0⟩,
   ⟨0x25, .resumePort, fun r c b => (b.resumePortOp (leAt c 8 4)).okPlain r c 0⟩,
   ⟨0x26, .stopInstance, fun r c b => (b.stopInstanceOp (stopOfCmd c)).okPlain r c 0⟩,
   ⟨0x27, .resumeInstance, fun r c b => b.resumeInstanceOp.okPlain r c 0⟩,
   ⟨0x28, .setQuota, fun r c b => (b.modDomain (leAt c 8 4) fun x => { x with quota := leAt c 0x10 4 }).okPlain r c (b.heldQueues (leAt c 8 4))⟩,
   ⟨0x29, .resetDomain, fun r c b => b.doResetDomain r c⟩]

/-- The ring's next command is `c`, its opcode is `op`, and Lovage may start it (R99, R104, R106). -/
structure Blk.Starts (b : Blk) (r : AdminRing) (c : List Byte) (op : Nat) : Prop where
  ready : b.readyCmd r = some c
  opcode : leAt c 0 1 = op
  free : b.lovageFree r = true

/-- After the command of ring `r`: a command with an unlisted opcode behind it is refused, and waiting commands look again. -/
def Blk.lovageOn (b : Blk) (r : AdminRing) : Blk := (b.refuseUnknown r).jobsCheck

/-- No command is in progress and no queue is being destroyed. -/
structure Blk.Calm (b : Blk) : Prop where
  jobs : b.sched.jobs = []
  queues : ∀ e ∈ b.queues, e.2.dying = false ∧ e.2.run.phase ≠ .destroying

/-- Management ring `r` (MGA or MGB) holds command `c`, and none of an unlisted opcode behind it. -/
structure Blk.Holds (b : Blk) (r : AdminRing) (c : List Byte) (rest : List (List Byte)) : Prop where
  mgmt : r = .mga ∨ r = .mgb
  slots : (b.mgRing r).slots = c :: rest
  known : ∀ x, rest.head? = some x → opcodeKnown (leAt x 0 1) = true
  room : (b.mgRing r).cpls.length < 16
  on : b.on 1 = true

/-- The block once command `c` of management ring `r` has completed with one entry. -/
def Blk.mgDone (b : Blk) (r : AdminRing) (c : List Byte) (entry : List Byte) : Blk :=
  (b.traceEv 7 false (leAt c 0 1) (ringObj r)).modMg r fun v => { v with slots := v.slots.drop 1, cpls := v.cpls ++ [entry] }

/-- A doorbell write to a slot of domain `d`'s admin ring carries an index the ring has, comes from the domain and has a doorbell's size (R103). -/
abbrev doorbellFits (e : DomEntry) (d hdrDom size value : Nat) : Prop := (size = 4 ∨ size = 8) ∧ hdrDom = d ∧ bits value 15 0 < e.adminLen

/-- The read of purpose `u` (found by `f`) is outstanding at port `n` with tag `t` (R130). -/
structure Blk.Awaits (b : Blk) (f : Purpose → Bool) (u : Purpose) (n t : Nat) : Prop where
  found : ∃ r, b.findRead f = some (n, t, r)
  purpose : (tabGet ({} : TagRec) (b.port n).tags t).purpose = u

/-- The block with queue `q` gone from the list of nudged queues: Chervil has acted on its nudge. -/
def Blk.unnudged (b : Blk) (q : QRef) : Blk :=
  match q with
  | .dom i => b.modSched fun s => { s with nudged := s.nudged.filter (· != i) }
  | .cell _ => b

/-- The read of a domain's next admin command is sent and counted (R86, R102). -/
def Blk.adminReads (b : Blk) (d : Nat) (e : DomEntry) : Blk :=
  (b.pollSpent.modDomain d fun x => { x with reading := true, ask := false }).sendRead (e.adminBase + 64 * ((b.domain d).cmdPos % e.adminLen)) 64 d 0
    (.admin d)

/-- The read of tag `t` of port `n` has ended with data: the tag is free and the round trip noted (R130, Table 14-1). -/
def Blk.readOk (b : Blk) (n t : Nat) : Blk := (b.endRead n t false).noteRtt n (tabGet {} (b.port n).tags t)

/-- `c` is `b` with the ring of queue `q` read: requests wait at the ports, the read is counted, and the queue's own record of
its polls is written (R17, R86, R89). -/
structure Blk.Polls (b : Blk) (q : QRef) (c : Blk) : Prop where
  rest : c = { b with ports := c.ports, order := c.order, sched := c.sched, queues := c.queues, cells := c.cells }
  self : c.queue q = { b.queue q with ep := (c.queue q).ep, pollAt := (c.queue q).pollAt }
  others : ∀ r, r ≠ q → c.queue r = b.queue r
  sched : c.sched = { b.sched with nudged := c.sched.nudged, pollUsed := c.sched.pollUsed, pollWin := c.sched.pollWin
                                   pollsMade := c.sched.pollsMade }

/-- Chervil may read the queue's ring at once: it may fetch, the budget has room, nothing waits before it, and every copy it
holds of the queue reads well (R86, R285). -/
structure Blk.ReadsNow (b : Blk) (q : QRef) : Prop where
  may : b.mayFetch q = true
  budget : b.pollMay = true
  first : b.sched.pollWait = []
  good : ∀ c ∈ (b.queue q).cache, c.ok = true

/-- The known tail of a queue after a copy arrives at it: one entry further, its chain noted (R84, R89). -/
def Queue.tailOn (x : Queue) (bs : List Byte) : Queue :=
  { x with run := { x.run with tail := x.next x.run.tail, chainTimer := !(decodeDesc bs).last,
                               chainFirst := if x.run.chainTimer then x.run.chainFirst else x.run.tail } }

/-- The binding of a queue can take one more entry, and Chervil holds a good owned copy of it at the queue's fetch position (R70,
R88). -/
structure Blk.CanFill (b : Blk) (q : QRef) (m k : Nat) (y : Binding) (c : Copy) : Prop where
  bound : b.boundAt q = some (m, k)
  at_ : b.binding m k = some y
  room : y.lbuf.length + y.exec.length < 8
  stays : y.moving = none ∧ y.preempt = false ∧ (y.exec.any fun e => e.dead) = false
  on : b.on 1 = true ∧ b.on 2 = true ∧ b.on (moverPd m) = true
  warm : b.ldr.state ≠ .warmrst
  may : b.mayFill q = true
  known : (b.queue q).known (b.queue q).run.fetched = true
  copy : ((b.queue q).cache.find? fun c => c.pos == (b.queue q).run.fetched) = some c
  good : c.ok = true
  own : ownOf c.bytes = (b.queue q).expectedOwn (b.queue q).run.fetched

/-- No queue waits for a context, and no nudge waits for a refill. -/
def Blk.NoneWait (b : Blk) : Prop := b.sched.ctxWaiters = [] ∧ b.sched.nudged = []

/-- No stop stands at any level, and the block pauses nothing of its own (R243, R253). -/
structure Blk.Unstopped (b : Blk) : Prop where
  domains : ∀ d, (b.domain d).stop = none
  movers : ∀ e ∈ b.movers, e.2.stop = none
  ports : ∀ e ∈ b.ports, e.2.stop = none
  inst : b.sched.instStop = none
  range : b.clock.rangePause = false
  crit : b.sched.critPause = false

/-- The completion's bytes lie inside the request and none of them has arrived before (R131, R133). -/
def TagRec.fits (t : TagRec) (c : Cpl) : Prop :=
  c.offset + c.data.length ≤ t.len ∧ ∀ e ∈ t.got, ¬ (c.offset ≤ e.1 ∧ e.1 < c.offset + c.data.length)

/-- No unit follows another (SOURCE RATIO), and no queue polls or moderates on unit `u`'s ticks. -/
structure Blk.Alone (b : Blk) (u : Nat) : Prop where
  ratio : ∀ v, v < 16 → b.puSource v ≠ 5
  ticks : ∀ q ∈ b.allQueues, ¬ ((b.queue q).cfg.pollPhase = true ∧ (b.queue q).cfg.pollPu = u) ∧ ¬ ((b.queue q).cfg.modMode = 2 ∧ (b.queue q).cfg.modPu = u)

/-- The state a LOCKED unit goes to on Loss (Table 7-3). -/
def Blk.lossState (b : Blk) (u : Nat) : PuState :=
  if b.puLoss u = 1 then .coast
  else if b.puLoss u = 2 then (if b.puSource u = 4 then .coast else .fallback)
  else .lost

/-- A unit once it has suffered Loss at fabric time `at_`: its last rate is kept (R161, R162), and after COAST or FALLBACK the next
index and the next pulse are taken whatever their slip (R163). -/
def PhaseUnit.lose (x : PhaseUnit) (st : PuState) (inc at_ : Nat) : PhaseUnit :=
  { x with inc := inc, state := st, firstIndex := x.firstIndex || decide (st ≠ .lost), firstPulse := x.firstPulse || decide (st ≠ .lost)
           fbAcc := 0, fbAt := at_ }

/-- Unit `w.unit` runs, and the estimate is at or past OPEN and before CLOSE of the window (R168, R171). -/
structure Blk.WindowIsOpen (b : Blk) (w : Window) : Prop where
  on : b.puOpen w.unit = true
  past : atOrPast (b.pu w.unit).ph w.openAt = true
  before : atOrPast (b.pu w.unit).ph w.closeAt = false

/-- A window moved one cycle on (R172, HOLD). -/
def Window.later (w : Window) : Window :=
  { w with openAt := { w.openAt with cyc := (w.openAt.cyc + 1) % 2 ^ 24 }
           closeAt := { w.closeAt with cyc := (w.closeAt.cyc + 1) % 2 ^ 24 }, holds := w.holds + 1 }

/-- An armed read is presented: its entry runs, its place in the gate is free (R170, R171). -/
def Blk.releaseRead (b : Blk) (m k : Nat) (e : Exec) (p : Nat) (pk : Pkt) : Blk :=
  ((b.dropGate m k).modExec m k e.pos fun e => { e with stage := .running, launched := true, gate := none }).present p pk

/-- MIN_GAP × 16 MCLK cycles have passed since the last accepted assertion of the line (Table 9-4). -/
def Blk.gapMet (b : Blk) (n : Nat) : Prop := (b.line n).tooSoon b.clock.cycle (bits (b.rlCfg n) 31 24 * 16) = false

/-- Target `t` of the plan of entry `e` waits to be presented: its plan was released in cycle `c`, its request `pk` is held
at port `p`, and no strong stop is in force (R185, R190). -/
structure Blk.TargetWaits (b : Blk) (m k i : Nat) (x : Binding) (e : Exec) (pl : Plan) (c : Nat) (t : PlanTarget) (p : Nat) (pk : Pkt) : Prop where
  at_ : b.binding m k = some x
  mine : x.shadow = false
  entry : x.exec.find? (fun e => e.aligned && e.launched && !e.dead) = some e
  plan : e.plan = some pl
  released : pl.release = some c
  target : pl.targets[i]? = some t
  held : t.held = some (p, pk)
  left : t.done = false ∧ t.launched = none
  goes : (b.queue x.q).acting = none
  due : c + t.cycle ≤ b.clock.cycle

/-- The slot, the port and earlier plans let the request be presented (R185, R190). -/
structure Blk.TargetGoes (b : Blk) (pl : Plan) (t : PlanTarget) (p : Nat) (pk : Pkt) : Prop where
  slot : b.slotVerdict t.addr = none
  first : ((b.planDue p).any fun (s, d) => decide (s < pl.armSeq) && decide (d ≤ b.clock.cycle)) = false
  free : (b.port p).beats = 0
  grants : (b.port p).grantable pk = true

/-- The place of a target after its presentation `rel` cycles after the release, `slip` when that is later than planned
(R185, Table 8-6). -/
def PlanTarget.presented (t : PlanTarget) (rel : Nat) (slip w : Bool) : PlanTarget :=
  { t with launched := some rel, held := none, qual := if slip then max 3 t.qual else t.qual, done := w }

/-- No stream port is named on either side: both sides are entries of queues (R219). -/
def Blk.sfEntriesOnly (b : Blk) (f : Nat) : Prop := bit (b.sfCfg f) 3 = false ∧ bit (b.sfCfg f) 7 = false

/-- A FIFO that is OFF, with the counts it keeps (Table 10-1). -/
def Fifo.emptied (x : Fifo) : Fifo :=
  { pktsDone := x.pktsDone, poisoned := x.poisoned, crcErr := x.crcErr, dropped := x.dropped, closed := x.closed }

/-- An entry not retired yet holds the rewind mark (R237, R238). -/
def Blk.sfMarked (b : Blk) (f : Nat) : Bool := !(b.fifo f).marked.isEmpty || b.sfMarkHeld f

/-- What FLUSH leaves of a FIFO whose core side saw the words `seen`; `lost` where an entry holds the rewind mark (R237). -/
def Fifo.flushed (x : Fifo) (packet held lost : Bool) (seen : List StreamWord) : Fifo :=
  { x with unread := [], marked := [], part := [], skip := skipAfter packet (x.skip || x.openPkt) seen, openPkt := false
           forced := x.forced + tileBytes x.marked, markLost := x.markLost || lost
           pkts := if held then (x.pkts.take 1).map fun p => { p with dropped := true, done := true } else [], state := .run }

/-- What is left of a FIFO in stream mode once its open tail is closed (R234). -/
def Fifo.tailClosed (x : Fifo) : Fifo := { x.pushPart 64 true true with closed := incr 8 x.closed }

/-- Some enabled port stays in service and undrained under `mask` (R261, R330). -/
def Blk.leavesAPort (b : Blk) (mask : Nat) : Bool :=
  (List.range 8).any fun p =>
    b.portPowered p && (b.port p).up && !(b.port p).lost && !(b.port p).stopped && !(bit (b.drainMask mask) p)

/-- A slot once it has entered another state (R307, R309, Table 13-11). -/
def Slot.entered (x : Slot) (st : SlotState) : Slot :=
  { x with state := st, pwrEn := x.power st, settled := false, tokenRead := false, flt := if x.power st then x.flt else false
           hold := x.hold || decide (x.state = .ready) }

/-- Command `c` leaves slot `n` as `x`, every other slot, every register and every queue as they were, and SLT_STAT's event
of the slot pending (R307). -/
def SlotGoes (c : Instr) (s : State) (n : Nat) (x : Slot) : Prop :=
  ∃ b : Blk, Does c s b ∧ b.slot n = x ∧ b.pends (9 + n / 16) (n % 16) = true ∧ (∀ k, k ≠ n → b.slot k = s.core.slot k)
    ∧ b.regs = s.core.regs ∧ b.queues = s.core.queues ∧ b.cells = s.core.cells

/-- Temperature input `x` once a good code has been sampled (R322, R323). -/
def TempIn.sampled (x : TempIn) (thr code : Nat) : TempIn :=
  { x with codes := (code :: x.codes).take 3, fault := false, stale := false
           level := levelOf thr ({ x with codes := (code :: x.codes).take 3 } : TempIn).code x.wants }

/-- The places a return of `w` to the decision ring frees, and those that are written and not returned (R320). -/
def Blk.returned (b : Blk) (w : Nat) : Nat × Nat :=
  ((posOf w b.decSize + 2 * b.decSize - posOf (b.reg 0x14018) b.decSize % (2 * b.decSize)) % (2 * b.decSize),
   (b.sup.dec.wpos + 2 * b.decSize - posOf (b.reg 0x14018) b.decSize % (2 * b.decSize)) % (2 * b.decSize))

/-- The window count is above HIGH, below LOW (R326). -/
def RoMon.high? (x : RoMon) (thr count : Nat) : Bool := decide (x.ref * (256 + bits thr 23 16) < count * 256)

/-- The window count is below LOW, where LOW is set (R326). -/
def RoMon.low? (x : RoMon) (thr count : Nat) : Bool := decide (bits thr 7 0 ≠ 0) && decide (count * 256 < x.ref * (256 - bits thr 7 0))

/-- The fast window's count is below the CRIT bound, scaled with MCLK (R326). -/
def RoMon.crit? (x : RoMon) (count : Nat) : Bool := decide (count * 256 * x.critKHz < x.ref * (256 - x.critAt) * 200)

/-- The port takes the packet at once, and its header is good (R338, R339). -/
structure Blk.Takes (b : Blk) (p : Nat) (k : InPkt) : Prop where
  live : b.inbLive p = true
  credit : b.noCredit p k = false
  first : (b.port p).inbWait = []
  room : b.inbHeld p k = false
  header : k.badHeader = false
  whole : (k.isWrite && k.poison) = false

/-- The relay of a port whose turn it is: the oldest of its queue that is not yet written (R363). -/
def Blk.relayTurn (b : Blk) (p : Nat) : Option Relay :=
  (b.port p).relays.find? fun r => !r.written && !((b.ports.flatMap fun (_, v) => v.relays).any fun y => !y.written && y.q == r.q && decide (y.seq < r.seq))

/-- Mark the relay numbered `n`. -/
def markRelay (n : Nat) (waited written : Bool) (l : List Relay) : List Relay :=
  l.map fun y => if y.seq = n then { y with waited := y.waited || waited, written := y.written || written } else y

/-- The bytes a relayed descriptor is written with: OWN of the lap (R363). -/
def Queue.relayBytes (x : Queue) (desc : List Byte) : List Byte :=
  patch desc 1 (leBytes 1 (leAt desc 1 1 / 2 * 2 + b1 (x.expectedOwn x.run.rtail)))

/-- The descriptor stage of mover `m` may take the head entry `l` of the binding `x` in place `k` (R114, R246). -/
structure Blk.Stages (b : Blk) (m k : Nat) (x : Binding) (l : LEntry) : Prop where
  bound : b.binding m k = some x
  active : x.shadow = false
  power : (b.on 1 && b.on (moverPd m)) = true
  state : (b.mover m).state = .active ∨ (b.mover m).state = .quiescing
  older : x.exec = [] ∨ ∃ e, x.exec = [e] ∧ e.issuedAll = true ∧ e.dead = false
  stays : x.moving = none ∧ x.preempt = false
  free : b.mayStart x.q l.desc = true
  head : x.lbuf.head? = some l

/-- The queue of the binding goes on from its pause mark with the entry `l` (R252). -/
def Blk.goesOn (b : Blk) (x : Binding) (l : LEntry) : Bool :=
  let y := b.queue x.q
  y.run.pauseMark || (y.run.mark.active && decide (y.run.mark.pos = l.pos))

/-! ## The invariant of the pins -/

/-- The output pins read what the block drives (Tables 15-10 and 15-11): each interrupt line is high exactly while a source
routed to it waits (R265, R106, R38); SLT_PWR_EN is low on every slot in SAFE (R38); RL_ACK is high for a LEVEL handshake and for its
pulses, RL_END for its pulses (R211, R213); RL_ACK, RL_END, UPD_STB_OUT and the stream ports' outputs are low while their domain is
off, and PWR_PERF_REQ then reads 0b111 (Table 15-11). -/
structure State.PinsFollow (s : State) : Prop where
  irq : ∀ n, n < 8 → bit s.pins.irqOut n = s.core.irqPin n
  irqTop : s.pins.irqOut < 2 ^ 8
  slots : ∀ n, n < 32 → bit s.pins.sltPwrEn n = ((s.core.slot n).pwrEn && !s.core.inSafe)
  slotsTop : s.pins.sltPwrEn < 2 ^ 32
  acks : ∀ n, n < 64 → bit s.pins.rlAck n =
    (s.core.on 1 && ((s.core.line n).ack || pulseHigh (s.core.line n).ackAt s.core.clock.cycle (s.core.rlWidth n)))
  ends : ∀ n, n < 64 → bit s.pins.rlEnd n = (s.core.on 1 && pulseHigh (s.core.line n).endAt s.core.clock.cycle (s.core.rlWidth n))
  strobe : s.pins.updStbOut = (s.core.on 1 && decide (0 < s.core.upd.stbOut))
  streams : ∀ n, n < 8 → bit s.pins.spReady n = (s.core.on 7 && s.core.spPin n false) ∧ bit s.pins.spValid n = (s.core.on 7 && s.core.spPin n true)
  xoffs : ∀ n, n < 32 → bit s.pins.sfXoff n = (s.core.on 7 && (s.core.fifo n).xoff)
  reqs : ∀ d, 1 ≤ d → d < 26 → bit s.pins.pwrReq d = (tabGet ({} : PowDom) s.core.power.doms d).req
  refusals : ∀ d, 1 ≤ d → d < 26 → bit s.pins.pwrRefuse d = s.core.power.refusePulse.contains d
  perf : s.pins.perfReq = if s.core.on 1 then s.core.sup.perfReq else 7
  wp : s.pins.nvmWpN = s.core.ldr.wpN

/-- What every step keeps: the pins follow, and TEST_MODE is a value of its two pins (R335). -/
structure State.Inv (s : State) : Prop where
  pins : s.PinsFollow
  mode : s.testMode < 4

/-! ## Safe steps -/

/-- A step that neither faults nor is refused. -/
def Stepped (s t : State) : Prop := Sys2Proof.Machine.step s = .next t

end Sys2Proof.Machine
end

