-- ==== Sys2Proof/Certificates/Slice0/Obligations.lean ====
section
/-! DEFINITION. The statements for the provers: what each family of commands does, what it leaves, and what every step keeps. -/

open Sys2Proof Sys2Proof.Machine

/-- Tier 1. For every state whose queue of waiting commands begins with c, step is exec of c on the state with the rest of
the queue. The queue is the model's own interface (log 1). (spec/95_what_each_step_holds.md, spec/opcode_table.json) -/
def Obligations.StepRunsTheFrontCommand : Prop :=
  ∀ (c : Instr) (rest : List Instr) (s : State), s.pending = c :: rest →
    Sys2Proof.Machine.step s = Sys2Proof.Machine.exec c { s with pending := rest }

/-- Tier 1. For every state with an empty queue in the functional mode, step answers next with the block after one MCLK
cycle. That the tick stands where the block would idle is the model's choice (log 1). (R18, R62, R195, R198) -/
def Obligations.EmptyQueueCycles : Prop :=
  ∀ s : State, s.pending = [] → s.testMode = 0 → Sys2Proof.Machine.step s =
    .next { s.withCore (s.core.cycle s.slow) with slow := s.slowAfter (s.core.cycle s.slow) }

/-- Tier 2. For every command and every state with TEST_MODE 0, well-formed or not, exec answers a next state and the
queue of waiting commands is unchanged; TEST_MODE and the copies that SLOW fields are read from are unchanged unless
the command is the power-on reset. No command faults or is refused. (Rows of the table are whole steps; an event that
cannot occur in the state changes nothing, log 2.) (spec/95_what_each_step_holds.md, R335, R62) -/
def Obligations.CommandsAnswer : Prop :=
  ∀ (c : Instr) (s : State), s.testMode = 0 → ∃ t, Sys2Proof.Machine.exec c s = .next t ∧ t.pending = s.pending
    ∧ ((∀ m, c ≠ .powerOnReset m) → t.testMode = 0 ∧ t.slow = s.slow)

/-- Tier 2. For every ill-formed command but the power-on reset, and every state with TEST_MODE 0, exec answers the same
state: no register, no memory, no pin. That such a command is without effect is the model's choice (log 2). (R8, R45,
R130, R160, R210, R219, R306, R326) -/
def Obligations.IllFormedChangesNothing : Prop :=
  ∀ (c : Instr) (s : State), s.testMode = 0 → c.wf = false → (∀ m, c ≠ .powerOnReset m) → Sys2Proof.Machine.exec c s = .next s

/-- Tier 3. For every state whose output pins read what the block drives (each IRQ_OUT line high exactly while a source
routed to it waits; SLT_PWR_EN low in SAFE; RL_ACK high for a LEVEL handshake and during its pulses, RL_END during its
pulses; these, SF_XOFF, UPD_STB_OUT and the stream ports' outputs low while their domain is off; PWR_REQ as each
domain's request, PWR_REFUSE for the MGCLK cycle of a refusal; PWR_PERF_REQ 0b111 while PD1 is off; NVM_WP_N from the
loader) and whose TEST_MODE is a value of its pins, if a step answers next, then the same holds of the next state. It
covers every command and the tick. (R265, R106, R38, R211, R213, R352) -/
def Obligations.PinsFollowEveryStep : Prop :=
  ∀ s t : State, s.Inv → Sys2Proof.Machine.step s = .next t → t.Inv

/-- Tier 1. State.reset satisfies the invariant of the pins; its queue is empty; the loader is in RESET; every power
domain but PD0 is off; every output pin is low and PWR_PERF_REQ reads 0b111. (R20, R27, R38, R335, R352) -/
def Obligations.ResetState : Prop :=
  State.reset.Inv ∧ State.reset.pending = [] ∧ State.reset.core.ldr.state = .reset
    ∧ (∀ d, 1 ≤ d → State.reset.core.on d = false) ∧ State.reset.pins = ⟨0, 0, 0, 0, 0, 0, 0, 0, 0, 7, false, false⟩

/-- Tier 1. For every state and every value m of TEST_MODE, the power-on reset answers the state in which every field has
its reset value, TEST_MODE is m and the pins are the reset pins; only the model's counter of free values (log 6) and
the queue of waiting commands are carried over. (R335, Table 2-11, spec/17_register_map.md) -/
def Obligations.PowerOnResetClears : Prop :=
  ∀ (m : Nat) (s : State), m < 4 → Sys2Proof.Machine.exec (.powerOnReset m) s =
    .next { core := { freeNo := s.core.freeNo }, slow := {}, testMode := m, pins := State.reset.pins, pending := s.pending }

/-- Tier 1. While the block is not in RELOAD and REFCLK is not lost: a measurement within the limits stores the two
frequencies and whether MCLK is in range, raises event 3 of group 0 if MGCLK is out of range, and lets the loader's
power-up go on; with MGCLK in range, one with MCLK in range ends a range pause, and one with MCLK out of the limits
raises event 2 and pauses every queue if they were not paused. Outside POWER the loader has nothing to go on with.
MGCLK_GAP raises event 5. The loss of REFCLK marks it lost and raises event 4; its return clears the mark and lets
every slot go on. (R18, R19, R62, R333) -/
def Obligations.ClockEventsComplete : Prop := ∀ s : State, s.testMode = 0 → s.core.ldr.state ≠ .reload →
  (∀ (m g : Nat) (c : Blk), s.core.clock.refLost = false →
    c = { s.core with clock := { s.core.clock with mclkKHz := m, mgclkKHz := g, mclkOk := decide (600000 ≤ m) && decide (m ≤ 1200000) } } →
    (588000 ≤ m → m ≤ 1224000 → s.core.clock.rangePause = false ∨ m < 600000 ∨ 1200000 < m →
      (245000 ≤ g → g ≤ 255000 → Does (.clockMeasurement m g) s c.powerStart)
      ∧ (g < 245000 ∨ 255000 < g → Does (.clockMeasurement m g) s (c.raise 0 3).powerStart))
    ∧ (600000 ≤ m → m ≤ 1200000 → s.core.clock.rangePause = true → 245000 ≤ g → g ≤ 255000 →
      Does (.clockMeasurement m g) s (Blk.unStopAll { c with clock := { c.clock with rangePause := false } }).powerStart)
    ∧ (m < 588000 ∨ 1224000 < m → 245000 ≤ g → g ≤ 255000 →
      (s.core.clock.rangePause = true → Does (.clockMeasurement m g) s (c.raise 0 2).powerStart)
      ∧ (s.core.clock.rangePause = false →
        Does (.clockMeasurement m g) s (Blk.reStopAll { c.raise 0 2 with clock := { c.clock with rangePause := true } }).powerStart)))
  ∧ (s.core.ldr.state ≠ .power → s.core.powerStart = s.core)
  ∧ Raises .mgclkGap s s.core 0 5
  ∧ (s.core.clock.refLost = false → Raises .refclkLost s { s.core with clock := { s.core.clock with refLost := true } } 0 4)
  ∧ (s.core.clock.refLost = true → Does .refclkReturn s
      (s.core.slots.foldl (fun b x => b.sltResume x.1) { s.core with clock := { s.core.clock with refLost := false } }))

/-- Tier 1. For every state whose sampled TEST_MODE is not 0, every command but the power-on reset faults with testMode,
and so does a step on an empty queue: the spec leaves the other modes to the integrator's scan and test flow. (R335) -/
def Obligations.TestModeStops : Prop := ∀ s : State, s.testMode ≠ 0 →
  (∀ c, (∀ m, c ≠ .powerOnReset m) → Sys2Proof.Machine.exec c s = .fault .testMode)
  ∧ (s.pending = [] → Sys2Proof.Machine.step s = .fault .testMode)

/-- Tier 2. While the block is not in RELOAD, the reset of a management port answers a next state in which that port's
accepted accesses are discarded, its unlock is disarmed, its mailbox IDLE, every event count 256, each semaphore it
held free and every other semaphore as before; the other port's answers, unlock and mailbox are unchanged; nothing
outside the management side, the message lists, the vector page, the ports, the order of presentation and the shadows
changes, and no shadow changes when no SHD write waits. A port that has accepted nothing and holds no semaphore loses
nothing else. (R334, R67, R65, Table 3-7) -/
def Obligations.PortResetReleasesThePort : Prop :=
  ∀ (s : State) (p : MPort), s.testMode = 0 → s.core.ldr.state ≠ .reload →
    ((s.core.side p).outstanding = [] → s.core.inShadow = [] → (∀ n, n < 64 → s.core.semOwner n ≠ some p) →
      Does (.portReset p) s ((s.core.mbxAbandon p).modSide p fun x => { x with outstanding := [], returned := none, remain := 0, mbx := {}, evtCount := [] }))
    ∧ ∃ b, Does (.portReset p) s b ∧ Msg { s.core with shadow := b.shadow, inShadow := b.inShadow } b
      ∧ (s.core.inShadow = [] → b.shadow = s.core.shadow ∧ b.inShadow = [])
      ∧ (b.side p).outstanding = [] ∧ (b.side p).remain = 0 ∧ (b.side p).mbx = {} ∧ (∀ g, tabGet 256 (b.side p).evtCount g = 256)
      ∧ (∀ n, n < 64 → b.semOwner n = if s.core.semOwner n = some p then none else s.core.semOwner n)
      ∧ (∀ q, q ≠ p → (b.side q).outstanding = (s.core.side q).outstanding ∧ (b.side q).remain = (s.core.side q).remain
          ∧ (b.side q).mbx = (s.core.side q).mbx)

/-- Tier 2. From RESET or WAIT, NVM settling leads to HDR with BOOT_COUNT one up (saturating at 255) and reasons cleared.
In HDR: two blank copies wait 100 ms up to three times; the retry goes to HDR with one more repeat. With both copies
good, the copy with the newer IMAGE_SEQ modulo 2^32 is verified; with one header bad, the other copy is, and the bad
one's reason is kept; with both bad, the loader is in SAFE with both reasons, every power request is withdrawn, the
management side is unchanged and no image is in force. The choice among equal sequence numbers and the counter's use
are log 16. (R27, R29, R30, R33, R34, Table 2-11, Table 2-12) -/
def Obligations.LoaderChoosesACopy : Prop := ∀ (s : State) (l : Loader), s.testMode = 0 → l = s.core.ldr →
  ((l.state = .reset ∨ l.state = .wait) → ∃ n : Loader, Does .nvmSettleDone s { s.core with ldr := n } ∧ n.state = .hdr
    ∧ n.bootCount = min 255 (l.bootCount + 1) ∧ n.copyUsed = 0 ∧ n.reasonA = 0 ∧ n.reasonB = 0 ∧ n.blankRepeats = 0)
  ∧ (∀ x y, l.state = .hdr → l.blankWait = false → l.blankRepeats < 3 → blankCopy x = true → blankCopy y = true →
      Does (.hdrReadDone x y) s { s.core with ldr := { l with blankWait := true } })
  ∧ (l.state = .hdr → l.blankWait = true → ∃ n : Loader, Does .hdrRetry s { s.core with ldr := n } ∧ n.state = .hdr
      ∧ n.bootCount = min 255 (l.bootCount + 1) ∧ n.blankRepeats = l.blankRepeats + 1 ∧ n.blankWait = false)
  ∧ (∀ x y, l.state = .hdr → l.blankWait = false → (blankCopy x && blankCopy y) = false →
      (headerReason x = 0 → dirReason x (copyHdr x) = 0 → headerReason y = 0 → dirReason y (copyHdr y) = 0 →
        ∃ n : Loader, Does (.hdrReadDone x y) s { s.core with ldr := n } ∧ n.state = .verify ∧ n.reasonA = 0 ∧ n.reasonB = 0
          ∧ (n.useB = true ↔ 2 ^ 31 < (leAt x 8 4 + 2 ^ 32 - leAt y 8 4) % 2 ^ 32)
          ∧ n.skipped = (copyHdr (if n.useB then y else x)).skipped)
      ∧ (headerReason x ≠ 0 → headerReason y = 0 → dirReason y (copyHdr y) = 0 →
        ∃ n : Loader, Does (.hdrReadDone x y) s { s.core with ldr := n } ∧ n.state = .verify ∧ n.useB = true
          ∧ n.reasonA = headerReason x ∧ n.reasonB = 0)
      ∧ (headerReason x = 0 → dirReason x (copyHdr x) = 0 → headerReason y ≠ 0 →
        ∃ n : Loader, Does (.hdrReadDone x y) s { s.core with ldr := n } ∧ n.state = .verify ∧ n.useB = false
          ∧ n.reasonA = 0 ∧ n.reasonB = headerReason y)
      ∧ (headerReason x ≠ 0 → headerReason y ≠ 0 → l.busy = false →
        ∃ b : Blk, Does (.hdrReadDone x y) s b ∧ b.ldr.state = .safe ∧ b.ldr.copyUsed = 0
          ∧ b.ldr.reasonA = headerReason x ∧ b.ldr.reasonB = headerReason y ∧ (∀ d, 1 ≤ d → b.on d = false) ∧ b.mg = s.core.mg ∧ b.image = none))

/-- Tier 2. In VERIFY: a copy whose sections cannot be gathered (reason 5) or are judged bad (reason r) is refused and the
other copy is tried; a good one is staged and the loader enters POWER, requesting PD1 only if the last MCLK
measurement was in range. In POWER: the acknowledge of PD1 leads to the requests of PD5 and PD6; no acknowledge from
PD1, or from PD2 in its turn, leads to SAFE, raises event 7 of group 0, sets PWR_STAT and counts the timeout. (R31,
R32, R33, R34, R36, R333, R352, Table 2-11, Table 2-13) -/
def Obligations.LoaderVerifiesAndPowersUp : Prop := ∀ (s : State) (l : Loader), s.testMode = 0 → l = s.core.ldr →
  (∀ (h : CopyHdr) (secs alt : List (List Byte)), l.state = .verify → l.hdr = some h →
    (∀ r, (gather l.otherDir h.dir secs alt = none ∧ r = 5
          ∨ ∃ t m, gather l.otherDir h.dir secs alt = some (t, m) ∧ judge t = .error r) →
      (l.useB = false → l.refusedB = false →
        Does (.verifyDone secs alt) s { s.core with ldr :=
          { l with refusedA := true, reasonA := r, useB := true, skipped := (l.hdrB.map (·.skipped)).getD 0,
                   spi := (l.hdrB.map fun h => spiSections h 0x20000).getD [] } })
      ∧ (l.useB = true → l.refusedA = false →
        Does (.verifyDone secs alt) s { s.core with ldr :=
          { l with refusedB := true, reasonB := r, useB := false, skipped := (l.hdrA.map (·.skipped)).getD 0,
                   spi := (l.hdrA.map fun h => spiSections h 0).getD [] } }))
    ∧ (∀ t m im, gather l.otherDir h.dir secs alt = some (t, m) → judge t = .ok im →
      (s.core.clock.mclkOk = false →
        ∃ n : Loader, Does (.verifyDone secs alt) s { s.core with ldr := n } ∧ n.state = .power ∧ n.staged = some im ∧ n.mixed = m
          ∧ n.groupAt = 0 ∧ n.missed = [])
      ∧ (s.core.clock.mclkOk = true → (tabGet ({} : PowDom) s.core.power.doms 1).ack = false → (tabGet ({} : PowDom) s.core.power.doms 1).req = false →
        s.core.power.downs = [] → ∃ n : Loader, Does (.verifyDone secs alt) s (({ s.core with ldr := n } : Blk).modPd 1 fun x => { x with req := true, going := false })
          ∧ n.state = .power ∧ n.staged = some im ∧ n.mixed = m ∧ n.groupAt = 0 ∧ n.missed = [])))
  ∧ (l.state = .power → l.groupAt = 0 → l.missed = [] → (tabGet ({} : PowDom) s.core.power.doms 1).req = true →
      (tabGet ({} : PowDom) s.core.power.doms 1).ack = false → (tabGet ({} : PowDom) s.core.power.doms 5).ack = false →
      Does (.powerAck 1) s (((({ (s.core.modPd 1 fun _ => { req := true, ack := true }).monRestart 1 with ldr := { l with groupAt := 1 } } : Blk)).modPd 5
        fun x => { x with req := true, going := false }).modPd 6 fun x => { x with req := true, going := false }))
  ∧ (∀ d, l.state = .power → (d = 1 ∧ l.groupAt = 0 ∨ d = 2 ∧ l.groupAt = 2) → l.missed = [] →
      (tabGet ({} : PowDom) s.core.power.doms d).ack = false →
      ∃ b : Blk, Does (.pwrTimeout d) s b ∧ b.ldr.state = .safe ∧ b.ldr.safe = true ∧ b.ldr.copyUsed = 0 ∧ b.pends 0 7 = true
        ∧ b.power.last = d ∧ b.power.timeouts = (s.core.power.timeouts + 1) % 256
        ∧ ∀ e, 1 ≤ e → b.on e = false)

/-- Tier 2. In SELFTEST the result is kept: BIST shows it, a failing bank is out of service, a failing mover that the
staged image does not keep off is FAILED and every other mover's state is as before. Both banks out, more than 256
Chervil tiles failing or a HOME pair with no mover (log 29) leads to SAFE with the power off; otherwise APPLY follows
and the flash is asked for the copy's sections. In APPLY, sections that cannot be gathered again refuse the copy with
reason 9 and the loader goes to VERIFY of the other copy, if that one is not refused, power off; sections gathered
give the image, which is placed: READY, COPY_USED and the reason of an unused good copy OLDER, and a RELOAD in
progress ends with LDR_DONE and error 0. How sections are read again is log 16. (R33, R34, R37, R38, R41, Table 2-11) -/
def Obligations.SelftestAndApply : Prop := ∀ (s : State) (l : Loader), s.testMode = 0 → l = s.core.ldr →
  (∀ (r : BistResult) (c : Blk), l.state = .selftest → c = s.core.bistKept r →
    (c.ldr = { l with bist := r.fail.toNat } ∧ c.clock = s.core.clock ∧ c.regs = s.core.regs
      ∧ c.banks = { s.core.banks with aOut := s.core.banks.aOut || bit r.fail.toNat 18, bOut := s.core.banks.bOut || bit r.fail.toNat 19 }
      ∧ (∀ m, m < 18 → (c.mover m).state = if bit r.fail.toNat m && !(bit s.core.stagedImg.ident.moverOff m) then .failed else (s.core.mover m).state))
    ∧ ((c.banks.aOut && c.banks.bOut || decide (256 < r.chervilTiles.length) || c.homeless c.stagedImg) = true →
        Does (.selftestDone r) s c.toSafe ∧ c.toSafe.ldr.state = .safe ∧ c.toSafe.ldr.bist = r.fail.toNat ∧ ∀ d, 1 ≤ d → c.toSafe.on d = false)
    ∧ ((c.banks.aOut && c.banks.bOut || decide (256 < r.chervilTiles.length) || c.homeless c.stagedImg) = false →
        Does (.selftestDone r) s (c.modLdr fun l => { l with state := .apply,
                                                              spi := (l.hdr.map fun x => spiSections x (if l.useB then 0x20000 else 0)).getD [] })))
  ∧ (∀ (h : CopyHdr) (secs alt : List (List Byte)) (b : Blk), l.state = .apply → l.hdr = some h →
      (regather h.dir l.altSecs secs alt = none → (if l.useB then l.refusedA else l.refusedB) = false →
        b = (s.core.discard.modLdr fun l => { l with staged := none }).refuseCopy 9 →
        Does (.applyDone secs alt) s b ∧ b.ldr.state = .verify ∧ b.ldr.useB = !l.useB
          ∧ (if l.useB then b.ldr.reasonB else b.ldr.reasonA) = 9 ∧ b.ldr.staged = none
          ∧ (∀ d, 1 ≤ d → b.on d = false) ∧ b.mg = s.core.mg)
      ∧ (∀ t, regather h.dir l.altSecs secs alt = some t →
        b = ((s.core.place (imageOf t)).modLdr fun _ => { l with
          state := .ready, store := some (imageOf t), staged := none, build := h.build, imageSeq := h.seq
          copyUsed := if l.mixed then 3 else if l.useB then 2 else 1
          reasonA := if l.useB && !l.mixed && !l.refusedA then 11 else l.reasonA
          reasonB := if !l.useB && !l.mixed && !l.refusedB then 11 else l.reasonB }).ldrEnd 0 →
        Does (.applyDone secs alt) s b ∧ b.ldr.state = .ready ∧ b.ldr.store = some (imageOf t) ∧ b.ldr.busy = false
          ∧ b.ldr.copyUsed = (if l.mixed then 3 else if l.useB then 2 else 1)
          ∧ (l.busy = true → b.ldr.err = 0 ∧ b.pends 0 8 = true)))

/-- Tier 2. With the loader idle in READY or SAFE and the port's unlock live: RELOAD goes to RELOAD, HDR or SAFE with the
command busy; WARM from READY goes to WARMRST with unfinished admin commands kept aside, and from SAFE ends with error
6; NV_READ of an aligned address reads the flash with 0x03, fills the 64 buffer registers and raises LDR_DONE;
NV_ERASE and NV_PROGRAM send 0x06 and then 0x20 or 0x02, with write protection lifted, when the address is aligned and
outside the copy in use, end with error 3 when it is not aligned, and with error 2 when it lies in the copy in use.
The order of the two address errors is log 16. (R39, R40, R42, R43, R44, R65, Table 2-14) -/
def Obligations.LoaderCommandsRun : Prop := ∀ (s : State) (p : MPort) (l : Loader) (a : Nat), s.testMode = 0 → l = s.core.ldr → a = s.core.nvAddr →
  l.busy = false → s.core.Open p 0x04004 → s.core.Keyed p → (l.state = .ready ∨ l.state = .safe) →
  (∃ b : Blk, Does (.reload p) s (b.answered p 0#64) ∧ b.ldr.opcode = 1
      ∧ (b.ldr.state = .safe ∨ (b.ldr.state = .reload ∨ b.ldr.state = .hdr) ∧ b.ldr.busy = true ∧ b.ldr.owner = mportCode p ∧ b.ldr.err = 0))
  ∧ (l.state = .ready → ∃ b : Blk, Does (.warm p) s (b.answered p 0#64)
      ∧ b.ldr = { l with state := .warmrst, opcode := 2, busy := true, owner := mportCode p, err := 0, warmDue := false }
      ∧ b.sched.jobs = s.core.sched.jobs.filter (fun j => decide (j.wait = .free))
      ∧ b.sched.warmJobs = s.core.sched.jobs.filter (fun j => !decide (j.wait = .free)))
  ∧ (l.state = .safe → Does (.warm p) s ((({ s.core.selected p with ldr := { l with err := 6 } } : Blk)).answered p 0#64))
  ∧ (∀ data, a % 256 = 0 → ∃ b : Blk, Does (.nvRead p data) s (b.answered p 0#64) ∧ b.ldr = { l with opcode := 0x10, owner := 0, err := 0, spi := [⟨0x03, some a, 256, 1, 20⟩] } ∧ b.pends 0 8 = true
      ∧ ∀ k, k < 64 → b.reg (0x04100 + 4 * k) = leAt data (4 * k) 4)
  ∧ (∀ op, op = 0x11 ∨ op = 0x12 →
      (a % (if op = 0x11 then 4096 else 256) = 0 → s.core.inUse a = false →
        Does (if op = 0x11 then .nvErase p else .nvProgram p) s ((({ s.core.selected p with ldr :=
          { l with opcode := op, busy := true, owner := mportCode p, err := 0, state := .nvop, wpN := true
                   nv := some ⟨op, a, s.core.wbuf, l.state, 0, mportCode p⟩
                   spi := [⟨0x06, none, 0, 1, 20⟩, if op = 0x11 then ⟨0x20, some a, 0, 1, 20⟩ else ⟨0x02, some a, 256, 1, 20⟩] } } : Blk)).answered p 0#64))
      ∧ (a % (if op = 0x11 then 4096 else 256) ≠ 0 →
        Does (if op = 0x11 then .nvErase p else .nvProgram p) s ((({ s.core.selected p with ldr := { l with opcode := op, err := 3 } } : Blk)).answered p 0#64))
      ∧ (a % (if op = 0x11 then 4096 else 256) = 0 → s.core.inUse a = true →
        Does (if op = 0x11 then .nvErase p else .nvProgram p) s ((({ s.core.selected p with ldr := { l with opcode := op, err := 2 } } : Blk)).answered p 0#64)))

/-- Tier 2. In NVOP: a busy poll below the limit (40,000 for erase, 500 for program) only counts and polls with 0x05; a
busy poll past it ends the command with NV_TIMEOUT (4), a program whose read-back with 0x03 differs with error 5,
otherwise with 0, the state before it restored, write protection on, and LDR_DONE raised. A warm restart that succeeds
answers READY with the command ended; one that fails goes on to RELOAD, HDR or SAFE. (R39, R40, R43, R44, Table 2-14) -/
def Obligations.FlashAndRestartEnd : Prop := ∀ (s : State) (l : Loader), s.testMode = 0 → l = s.core.ldr →
  (∀ (o : NvOp) (bs : List Byte), l.state = .nvop → l.nv = some o → o.from_ ≠ .reload → l.busy = true → l.warmDue = false →
    (∀ n, n = o.polls + 1 → n ≤ (if o.opcode = 0x11 then 40000 else 500) →
      Does (.nvStatusPoll true bs) s { s.core with ldr := { l with nv := some { o with polls := n }, spi := [⟨0x05, none, 1, 1, 20⟩] } })
    ∧ (∀ (bz : Bool) (e : Nat), (bz = true ∧ (if o.opcode = 0x11 then 40000 else 500) ≤ o.polls ∧ e = 4
          ∨ bz = false ∧ o.opcode = 0x12 ∧ bs ≠ s.core.wbuf ∧ e = 5 ∨ bz = false ∧ (o.opcode = 0x12 → bs = s.core.wbuf) ∧ e = 0) →
      ∀ sp : List SpiCmd, sp = (⟨0x05, none, 1, 1, 20⟩ :: if bz = false ∧ o.opcode = 0x12 then [⟨0x03, some o.addr, 256, 1, 20⟩] else []) →
      Raises (.nvStatusPoll bz bs) s { s.core with ldr := { l with state := o.from_, nv := none, wpN := false, busy := false, owner := 0, err := e, spi := sp } } 0 8))
  ∧ (l.state = .warmrst →
      (∃ b : Blk, Does (.warmRestartDone true) s b ∧ b.ldr = { l with state := .ready, busy := false, owner := if l.busy then 0 else l.owner, err := if l.busy then 0 else l.err }
        ∧ (l.busy = true → b.pends 0 8 = true))
      ∧ ∃ b : Blk, Does (.warmRestartDone false) s b ∧ (b.ldr.state = .reload ∨ b.ldr.state = .hdr ∨ b.ldr.state = .safe))

/-- Tier 2. For every group g and every 16-bit v, a full write of v to EVT_MASK[g] over an open path stores a word whose
EN is v and whose reserved bits are those the register held, uses up the unlock, answers 0 without error, and changes
no other register and nothing else. (R48, R54, R265, R266, R373, Table 12-2) -/
def Obligations.ARegisterWriteStoresItsField : Prop :=
  ∀ (s : State) (p : MPort) (g v : Nat), s.Serves → g < 64 → v < 2 ^ 16 → s.core.Open p (0x03300 + 4 * g) →
    ∃ w, Does (.registerWrite ⟨p, none⟩ (0x03300 + 4 * g) (if g % 2 = 0 then 0x0F else 0xF0)
        (BitVec.ofNat 64 (v * (if g % 2 = 0 then 1 else 2 ^ 32)))) s
      (((s.core.selected p).setReg (0x03300 + 4 * g) w).answered p 0#64) ∧ bits w 15 0 = v ∧ bits w 31 16 = bits (s.core.reg (0x03300 + 4 * g)) 31 16

/-- Tier 2. A write of 0x5A5A_C3C3 to KEY_UNLOCK arms the port's unlock for 1,024 MGCLK cycles and changes nothing else
but the answer. Any other value disarms it, is logged as KEY_BAD at the next place of the access log with the port and
time, and raises ACCESS_LOG; a lapse only disarms it. (R65's other clauses have their own statements.) (R65, Table
3-11, Table 3-3) -/
def Obligations.KeyUnlockArmsAndLapses : Prop :=
  ∀ (s : State) (p : MPort), s.Serves →
    (s.core.Open p 0x01000 → Does (.keyUnlock p 0x5A5AC3C3#32) s ((s.core.modSide p fun x => { x with remain := 1024 }).answered p 0#64))
    ∧ (∀ v : Word, s.core.Open p 0x01000 → v ≠ 0x5A5AC3C3#32 →
        ∃ b, Does (.keyUnlock p v) s (b.answered p 0#64) ∧ Msg (s.core.selected p) b ∧ b.pends 0 0 = true ∧ (b.side p).remain = 0
          ∧ tabGet alog0 b.mg.alog (s.core.mg.alogPtr % 16) = ⟨0x01000, 4, mportCode p, 2, true, 0, s.core.clock.slowEpoch % 65536⟩)
    ∧ Does (.keyUnlockLapse p) s (s.core.selected p)

/-- Tier 2. A read of a free semaphore gives it to the port and answers 0; a read of a held one answers the holder's code
and changes nothing; a write by the holder frees it; a write by anyone else leaves it and is logged as SEM_VIOL;
SEM_FORCE under the key frees it and is logged as SEM_FORCED. (R67, Table 3-12, R65) -/
def Obligations.SemaphoresFollowTheTable : Prop :=
  ∀ (s : State) (p : MPort) (n : Nat), s.Serves → n < 64 → s.core.Open p (0x01100 + 4 * n) →
    (s.core.semOwner n = none → Does (.semAcquire ⟨p, none⟩ n) s ((s.core.setSem n (some p)).answered p 0#64))
    ∧ (∀ q, s.core.semOwner n = some q →
        Does (.semAcquire ⟨p, none⟩ n) s (s.core.answered p (BitVec.ofNat 64 (mportCode q * (if n % 2 = 0 then 1 else 2 ^ 32)))))
    ∧ (s.core.semOwner n = some p → Does (.semRelease p n) s (((s.core.selected p).setSem n none).answered p 0#64))
    ∧ (s.core.semOwner n ≠ some p → ∃ b, Does (.semRelease p n) s (b.answered p 0#64) ∧ Msg (s.core.selected p) b ∧ b.pends 0 0 = true
        ∧ b.semOwner n = s.core.semOwner n
        ∧ tabGet alog0 b.mg.alog (s.core.mg.alogPtr % 16) = ⟨0x01100 + 4 * n, 6, mportCode p, 2, true, 0, s.core.clock.slowEpoch % 65536⟩)
    ∧ (∀ q, s.core.semOwner n = some q → s.core.Open p 0x0100C → s.core.Keyed p →
        ∃ b, Does (.semForce p n) s (b.answered p 0#64) ∧ Msg (s.core.selected p) b ∧ b.pends 0 0 = true ∧ b.semOwner n = none
        ∧ tabGet alog0 b.mg.alog (s.core.mg.alogPtr % 16) = ⟨0x01100 + 4 * n, 7, mportCode p, 2, true, 0, s.core.clock.slowEpoch % 65536⟩)

/-- Tier 2. The count of a port and a group is 256 after reset, one more with every event of the group up to 256, and 0
after the port's read of EVT_STAT[g], which answers SEQ and PENDING. A write of EVT_ACK[g] with SEQ as it stands and
the writing port's count at zero clears exactly the masked pending bits of group g, every other bit and group
unchanged; otherwise it clears nothing and ACK_STALE goes up by one modulo 2^16. An event that comes in the cycle of
an acknowledge is a command after it, and marks its bit then. (R64) -/
def Obligations.AcknowledgeNeedsAFreshRead : Prop :=
  ∀ (s : State) (p : MPort) (g : Nat), s.Serves → g < 64 →
    (s.core.Open p (0x03000 + 4 * g) →
      Does (.evtStatRead p g) s ((s.core.modSide p fun x => { x with evtCount := tabSet 256 x.evtCount g 0 }).answered p
        (BitVec.ofNat 64 ((fld (tabGet ({} : EvGroup) s.core.mg.groups g).seq 24 8
          + fld (tabGet ({} : EvGroup) s.core.mg.groups g).pending 0 16) * (if g % 2 = 0 then 1 else 2 ^ 32)))))
    ∧ (∀ q m, q < 256 → m < 2 ^ 16 → s.core.Open p (0x03100 + 4 * g) →
        (q = (tabGet ({} : EvGroup) s.core.mg.groups g).seq ∧ tabGet 256 (s.core.side p).evtCount g = 0 →
          ∃ b : Blk, Does (.evtAck p g q m) s (b.answered p 0#64)
            ∧ b = { s.core.selected p with mg := { (s.core.selected p).mg with groups := b.mg.groups } }
            ∧ (∀ i, b.pends g i = (s.core.pends g i && !(bit m i) && decide (i < 16)))
            ∧ (∀ h, h ≠ g → tabGet ({} : EvGroup) b.mg.groups h = tabGet {} s.core.mg.groups h))
        ∧ (¬(q = (tabGet ({} : EvGroup) s.core.mg.groups g).seq ∧ tabGet 256 (s.core.side p).evtCount g = 0) →
          Does (.evtAck p g q m) s (((s.core.selected p).modSide p fun x => { x with ackStale := (x.ackStale + 1) % 2 ^ 16 }).answered p 0#64)))
    -- the count: 256 after reset, one more with each event of the group up to 256
    ∧ (∀ m, m < 4 → ∃ t : State, Sys2Proof.Machine.exec (.powerOnReset m) s = .next t ∧ tabGet 256 (t.core.side p).evtCount g = 256)
    ∧ (∀ (b : Blk) (h i : Nat), tabGet 256 ((b.markEvent h i).side p).evtCount g
        = (if h = g then min 256 (tabGet 256 (b.side p).evtCount g + 1) else tabGet 256 (b.side p).evtCount g)
      ∧ (b.markEvent h i).pends h i = true)

/-- Tier 2. A write of MBX_SEL goes to FETCH with the class and index. In FETCH a capture of a good object answers VALID
with its words; of a bad one ERROR with code 1; of one whose domain is off code 2; a timeout code 3; the end of the
backing read VALID with the tile's value or ERROR 4 when the tile's CRC fails, its tag free again. A read of the last
word answers it and goes to IDLE. In ERROR, CLASS and WORDS read 0 (log 17). (R63, Table 3-7, Table 3-8, Table 3-9) -/
def Obligations.MailboxFollowsTheTable : Prop :=
  ∀ (s : State) (p : MPort), s.Serves →
    (∀ c i, c < 256 → i < 2 ^ 18 → s.core.Open p 0x02000 →
      ∃ b : Blk, Does (.mbxSelWrite p c i) s (b.answered p 0#64) ∧ Msg s.core b ∧ (b.side p).mbx.state = .fetch
        ∧ (b.side p).mbx.selClass = c ∧ (b.side p).mbx.selIndex = i)
    ∧ (∀ x, x = (s.core.side p).mbx → x.state = .fetch → x.backing = false → s.core.mbxBacked x.selClass x.selIndex = false →
        (s.core.mbxGood x.selClass x.selIndex = true → s.core.mbxOn x.selClass x.selIndex = true →
          Does (.mbxCapture p) s (s.core.modSide p fun y => { y with mbx :=
            { state := .valid, sel := x.sel, err := 0, cls := x.selClass, words := mbxWords x.selClass,
              value := s.core.mbxValue x.selClass x.selIndex, backing := false } }))
        ∧ (s.core.mbxGood x.selClass x.selIndex = false →
          Does (.mbxCapture p) s (s.core.modSide p fun y => { y with mbx := { state := .error, sel := x.sel, err := 1 } }))
        ∧ (s.core.mbxGood x.selClass x.selIndex = true → s.core.mbxOn x.selClass x.selIndex = false →
          Does (.mbxCapture p) s (s.core.modSide p fun y => { y with mbx := { state := .error, sel := x.sel, err := 2 } }))
        ∧ Does (.mbxTimeout p) s (s.core.modSide p fun y => { y with mbx := { state := .error, sel := x.sel, err := 3 } }))
    ∧ (∀ x n t r bs, x = (s.core.side p).mbx → x.state = .fetch → x.backing = true →
        s.core.findRead (isMbxRead p) = some (n, t, r) →
        (tileOk bs = true → Does (.mbxBackingReadDone p (.data bs)) s
          ((s.core.modPort n fun v => v.freeTagAt t false).modSide p fun y => { y with mbx :=
            { state := .valid, sel := x.sel, err := 0, cls := x.selClass, words := mbxWords x.selClass,
              value := (runOfTile {} bs).run.bytesMoved, backing := false } }))
        ∧ (tileOk bs = false → Does (.mbxBackingReadDone p (.data bs)) s
          ((s.core.modPort n fun v => v.freeTagAt t false).modSide p fun y =>
            { y with mbx := { state := .error, sel := x.sel, err := 4 } })))
    ∧ (∀ x, x = (s.core.side p).mbx → x.state = .valid → 1 ≤ x.words → x.words ≤ 4 →
        s.core.Open p (0x02010 + 4 * (x.words - 1)) →
        Does (.mbxLastWordRead p) s ((s.core.modSide p fun y => { y with mbx := { x with state := .idle } }).answered p
          (BitVec.ofNat 64 (x.value / 2 ^ (32 * (x.words - 1)) % 2 ^ 32 * (if x.words % 2 = 1 then 1 else 2 ^ 32)))))

/-- Tier 2. For every register write: if the access is refused with kind k, it is answered with an error, one access-log
record with address, size, port, time and kind k is written at the next place, ACCESS_LOG is pending, the unlock is
used up, and nothing else changes but the message of the event. If it is refused by semaphore enforcement, the same
holds with kind SEM_DENY and a normal answer. (R50, R68, R373, R55, R65, Table 3-3) -/
def Obligations.RefusedWriteIsLoggedAndDropped : Prop :=
  ∀ (s : State) (p : MPort) (a be : Nat) (w : BitVec 64) (x : Access), s.Serves → a < 2 ^ 20 → be < 256 →
    x = ⟨p, a, be, true, w.toNat, none, none⟩ → (s.core.side p).outstanding.length < 4 →
    (∀ k, s.core.accErr x = some k → ∃ b : Blk, Does (.registerWrite ⟨p, none⟩ a be w) s b ∧ Msg (s.core.selected p) b ∧ b.pends 0 0 = true
        ∧ (b.side p).outstanding = (s.core.side p).outstanding ++ [⟨0#64, true, none⟩] ∧ (b.side p).remain = 0
        ∧ tabGet alog0 b.mg.alog (s.core.mg.alogPtr % 16)
            = ⟨x.first % 2 ^ 20, 1, mportCode p, x.sizeCode, true, k, s.core.clock.slowEpoch % 65536⟩)
    ∧ (s.core.accErr x = none → s.core.semDenied p (a / 0x1000) = true →
        ∃ b : Blk, Does (.registerWrite ⟨p, none⟩ a be w) s b ∧ Msg (s.core.selected p) b ∧ b.pends 0 0 = true
        ∧ (b.side p).outstanding = (s.core.side p).outstanding ++ [⟨0#64, false, none⟩] ∧ (b.side p).remain = 0
        ∧ tabGet alog0 b.mg.alog (s.core.mg.alogPtr % 16)
            = ⟨x.first % 2 ^ 20, 5, mportCode p, x.sizeCode, true, 0, s.core.clock.slowEpoch % 65536⟩)

/-- Tier 1. A write of DPT_DRAIN by a port whose unlock is not live answers normally, leaves everything but the access
log, its event and message unchanged, and is logged as KEY_VIOL with its address, size, port and time. (R65, Table
3-11) -/
def Obligations.KeyFieldsNeedTheUnlock : Prop :=
  ∀ (s : State) (p : MPort) (m : Nat), s.Serves → m < 256 → s.core.Open p 0x12320 → ¬ s.core.Keyed p →
    ∃ b : Blk, Does (.dptDrain p m) s (b.answered p 0#64) ∧ Msg (s.core.selected p) b ∧ b.pends 0 0 = true
      ∧ tabGet alog0 b.mg.alog (s.core.mg.alogPtr % 16) = ⟨0x12320, 3, mportCode p, 2, true, 0, s.core.clock.slowEpoch % 65536⟩

/-- Tier 2. UPD_CTRL arms with its source, unit and pin choice, clearing LATE and TIMEOUT; armed at a phase point already
passed it strobes at once and sets LATE. While armed: GO under SOFT, an edge under PIN no nearer than 64 cycles, a
message with the armed tag under MESSAGE, the phase point under PHASE each empty the shadows, clear ARM and advance
COUNT modulo 2^16; an edge too near and a message with another tag do nothing of it; the time-out clears ARM and
raises UPD_TIMEOUT. While not armed none of them has an effect. (R59, R60, R61, R350, Table 3-10) -/
def Obligations.StrobesFollowTheSource : Prop := ∀ (s : State) (p : MPort), s.Serves → s.core.on 1 = true →
  (∀ src u d (b : Blk), src < 4 → u < 16 → s.core.Open p 0x07000 →
    b = (((s.core.selected p).setReg 0x07000 (b1 d * 256 + u * 16 + 4 + src)).modUpd fun x => { x with late := false, timeout := false }) →
    ((src = 2 → atOrPast { (s.core.pu u).ph with frac := 0 } ⟨s.core.regF 0x07008 23 0, s.core.regF 0x0700C 23 0, 0⟩ = false) →
      Does (.updArm p src u d) s (b.answered p 0#64))
    ∧ (src = 2 → atOrPast { (s.core.pu u).ph with frac := 0 } ⟨s.core.regF 0x07008 23 0, s.core.regF 0x0700C 23 0, 0⟩ = true →
      Does (.updArm p src u d) s ((b.modUpd fun x => { x with late := true }).strobe.answered p 0#64)
        ∧ Struck (b.modUpd fun x => { x with late := true }) (b.modUpd fun x => { x with late := true }).strobe))
  ∧ (s.core.armed = true →
    (s.core.stbSource = 0 → s.core.Open p 0x07004 → Does (.updGo p) s ((s.core.selected p).strobe.answered p 0#64) ∧ Struck s.core (s.core.selected p).strobe)
    ∧ (∀ b, s.core.stbSource = 1 → (∀ t, s.core.upd.stbAt = some t → t + 64 ≤ s.core.clock.cycle) →
        b = (s.core.modUpd fun x => { x with stbAt := some s.core.clock.cycle }).strobe →
        Does .updStbIn s b ∧ Struck s.core b ∧ b.upd.stbAt = some s.core.clock.cycle)
    ∧ (∀ t, s.core.upd.stbAt = some t → s.core.clock.cycle < t + 64 →
        Does .updStbIn s (s.core.modUpd fun x => { x with stbAt := some s.core.clock.cycle }))
    ∧ (∀ tag, s.core.stbSource = 3 → (tag = s.core.regF 0x07010 15 0 → Does (.updStrobeMsg tag 4) s s.core.strobe ∧ Struck s.core s.core.strobe)
        ∧ (tag ≠ s.core.regF 0x07010 15 0 → Does (.updStrobeMsg tag 4) s s.core))
    ∧ (s.core.stbSource = 2 → s.core.atPoint = true → Does .updPhasePoint s s.core.strobe ∧ Struck s.core s.core.strobe)
    ∧ (s.core.regF 0x07014 15 0 ≠ 0 → Raises .updTimeout s ((s.core.setRegF 0x07000 2 2 0).modUpd fun x => { x with timeout := true }) 0 1
        ∧ Blk.armed ((s.core.setRegF 0x07000 2 2 0).modUpd fun x => { x with timeout := true }) = false))
  ∧ (s.core.armed = false → (s.core.Open p 0x07004 → Does (.updGo p) s ((s.core.selected p).answered p 0#64))
      ∧ (∀ tag size, Does (.updStrobeMsg tag size) s s.core) ∧ Does .updPhasePoint s s.core ∧ Does .updTimeout s s.core)

/-- Tier 1. For each of the 21 admin commands, on any ring (domain or management) whose next command has its opcode: if
the form check refuses it, the block is the block after its beginning and the refusal; if a command started before it
on the same object is not finished, it waits its turn; otherwise it has its effect after its beginning; then a
following command with an unlisted opcode is refused. The effects are named in adminOps (log 17). (R99, R100, R101,
R104, Table 5-4, spec/05_admin_queues.md) -/
def Obligations.AdminCommandsRun : Prop := ∀ (s : State) (r : AdminRing) (c : List Byte), s.Serves → r.wf = true →
  ∀ a ∈ adminOps, s.core.Starts r c a.op →
    (∀ st dt, s.core.formCheck r c = some (st, dt) → Does (a.row r) s (((s.core.begun r c).refuse r c st dt).lovageOn r))
    ∧ (s.core.formCheck r c = none → (s.core.begun r c).mustWait r c = false → Does (a.row r) s ((a.effect r c (s.core.begun r c)).lovageOn r))
    ∧ (s.core.formCheck r c = none → (s.core.begun r c).mustWait r c = true →
        Does (a.row r) s (((s.core.begun r c).waitJob r fun j => { j with wait := .turn }).lovageOn r))

/-- Tier 2. For a calm block and a management ring that holds a command c: a form error completes with its status and
detail; NOP completes with success; SET_QUOTA sets the quota and returns the queues held; DESTROY_EVENT_RING removes
the ring, or answers STATE 7 with queues left and STATE 9 with no ring; any queue command on a FREE queue answers
STATE 6; RESUME_QUEUE on a queue that runs answers success with its state; PIN_QUEUE marks the queue pinned while
places are left; QUERY_QUEUE answers head, tail, laps, mover and last status. Nothing else changes but the ring, the
command's own object and the trace. (R101, R104, R106, R108, R111, R112, R374, Table 5-2, Table 5-4) -/
def Obligations.ManagementRingCommandsComplete : Prop := ∀ (s : State) (r : AdminRing) (c : List Byte) (rest : List (List Byte)),
  s.Serves → s.core.Calm → s.core.Holds r c rest →
  (∀ a ∈ adminOps, leAt c 0 1 = a.op → ∀ st dt, s.core.formCheck r c = some (st, dt) →
      Does (a.row r) s (s.core.mgDone r c (cplEntry c 1 st dt (if opcodeQueue a.op then s.core.qstate (queueOf c) else 0) false 0 0)))
  ∧ (s.core.formCheck r c = none →
    (leAt c 0 1 = 0x0B → Does (.adminNop r) s (s.core.mgDone r c (cplEntry c 1 0 0 0 false 0 0)))
    ∧ (∀ d, leAt c 0 1 = 0x28 → leAt c 8 4 = d →
        Does (.setQuota r) s ((s.core.modDomain d fun x => { x with quota := leAt c 0x10 4 }).mgDone r c
          (cplEntry c 1 0 0 0 false (s.core.heldQueues d) 0)))
    ∧ (∀ d, leAt c 0 1 = 0x0A → leAt c 8 1 = d → s.core.heldQueues d = 0 → (s.core.domain d).ring.isSome = true →
        Does (.destroyEventRing r) s ((s.core.modDomain d fun x => { x with ring := none }).mgDone r c (cplEntry c 1 0 0 0 false 0 0)))
    ∧ (∀ d, leAt c 0 1 = 0x0A → leAt c 8 1 = d → 0 < s.core.heldQueues d →
        Does (.destroyEventRing r) s (s.core.mgDone r c (cplEntry c 1 0x12 7 0 false 0 0)))
    ∧ (∀ d, leAt c 0 1 = 0x0A → leAt c 8 1 = d → s.core.heldQueues d = 0 → (s.core.domain d).ring = none →
        Does (.destroyEventRing r) s (s.core.mgDone r c (cplEntry c 1 0x12 9 0 false 0 0)))
    ∧ (∀ q x, queueOf c = q → s.core.queue q = x → x.run.phase = .free → ∀ a ∈ adminOps, a.op = leAt c 0 1 → opcodeQueue a.op = true →
        Does (a.row r) s (s.core.mgDone r c (cplEntry c 1 0x12 6 0 false 0 0)))
    ∧ (∀ q x, queueOf c = q → s.core.queue q = x → leAt c 0 1 = 0x05 → x.run.phase = .idle ∨ x.run.phase = .bound →
        Does (.resumeQueue r) s (s.core.mgDone r c (cplEntry c 1 0 0 x.run.phase.code false 0 0)))
    ∧ (∀ q x, queueOf c = q → s.core.queue q = x → leAt c 0 1 = 0x06 → x.run.phase = .idle ∨ x.run.phase = .bound ∨ x.run.phase = .stopped →
        x.cfg.pin = true ∨ s.core.pinnedCount < 15360 →
        Does (.pinQueue r) s ((s.core.modQueue q fun x => { x with cfg := { x.cfg with pin := true } }).mgDone r c
          (cplEntry c 1 0 0 x.run.phase.code false 0 0)))
    ∧ (∀ q x, queueOf c = q → s.core.queue q = x → leAt c 0 1 = 0x08 → x.run.phase ≠ .free → x.run.phase ≠ .spilling → x.run.phase ≠ .refilling →
        x.run.phase ≠ .spilled →
        Does (.queryQueue r) s (s.core.mgDone r c (cplEntry c 1 0 0 x.run.phase.code false (x.run.head % x.size + 65536 * lapOf x.run.head x.size)
          (x.run.tail % x.size + 65536 * lapOf x.run.tail x.size + 2 ^ 17 * s.core.boundMover q + 2 ^ 24 * x.run.lastStatus)))))

/-- Tier 2. For an admin command at the head of its ring whose form is good and for which no earlier command stands in the
way: CREATE_QUEUE within the quota takes the free queue number and a context, at the quota answers 0x60 with detail
0x0C; DESTROY_QUEUE begins in every state that allows it and is refused with 0x12, 7 in BOUND or STOPPING without
FORCE and in DESTROYING; MODIFY_QUEUE without ENABLE (bit 5) applies at once what it may, and the rest at once when no
entry executes, else at its boundary; STOP_QUEUE, the stops and resumes of domains, movers, ports and the instance
have their operation and answer success; UNPIN_QUEUE unpins and answers the backing slot; CREATE_EVENT_RING writes
zeroes over its area; RESET_DOMAIN begins the destruction of the domain's queues. (Which waits for which is log 17.)
(R100, R108, R109, R110, R111, R112, R113, R374, Table 5-7, Table 5-8) -/
def Obligations.AdminEffectsAreApplied : Prop := ∀ (s : State) (r : AdminRing) (c : List Byte) (b : Blk) (q : QRef) (x : Queue) (obj : Nat), s.Serves → r.wf = true →
  s.core.Starts r c (leAt c 0 1) → s.core.formCheck r c = none → b = s.core.begun r c → b.mustWait r c = false → q = queueOf c → x = s.core.queue q → obj = leAt c 8 4 →
  (leAt c 0 1 = 0x01 → ∀ cfg, cfg = cfgOfCreate c → b.createWindows cfg = true → (b.domain cfg.dom).ring.isNone = false →
    (b.heldQueues cfg.dom < (b.domain cfg.dom).quota → ∀ n, b.freeQid = some n → (cfg.pin && decide (15360 ≤ b.pinnedCount)) = false → ∀ t : Blk,
      (b.waitJob r fun j => { j with made := some cfg, enable := bit (leAt c 0x28 4) 0, qid := n, dom := cfg.dom }).takeContext = some t →
      Does (.createQueue r) s ((t.createTake r n cfg).lovageOn r))
    ∧ ((b.domain cfg.dom).quota ≤ b.heldQueues cfg.dom → Does (.createQueue r) s ((b.refuse r c 0x60 0x0C).lovageOn r)))
  ∧ (leAt c 0 1 = 0x02 →
    (x.run.phase = .idle ∨ x.run.phase = .spilled ∨ x.run.phase = .stopped ∨ x.run.phase = .halted ∨ x.run.phase = .lost ∨
        (x.run.phase = .bound ∨ x.run.phase = .stopping) ∧ bit (flagsOf c) 0 = true →
      Does (.destroyQueue r) s (((b.destroyBegin q).waitJob r fun j => { j with wait := .free, qid := q.num, cell := false }).lovageOn r))
    ∧ ((x.run.phase = .bound ∨ x.run.phase = .stopping) ∧ bit (flagsOf c) 0 = false ∨ x.run.phase = .destroying →
      Does (.destroyQueue r) s ((b.refuse r c 0x12 7).lovageOn r)))
  ∧ (x.run.phase = .idle ∨ x.run.phase = .bound ∨ x.run.phase = .stopping ∨ x.run.phase = .stopped ∨ x.run.phase = .halted →
    (leAt c 0 1 = 0x03 → bit (flagsOf c) 5 = false →
      (s.core.execsOf q = [] → Does (.modifyQueue r) s
        ((((b.modQueue q fun y => y.modify (flagsOf c) c true).modQueue q fun y => y.modify (flagsOf c) c false).okQueue r c false 0 0).lovageOn r))
      ∧ (s.core.execsOf q ≠ [] → Nat.land (flagsOf c) 0x5F ≠ 0 → Does (.modifyQueue r) s
        ((((b.modQueue q fun y => y.modify (flagsOf c) c true).modQueue q fun y =>
          { y with deferred := y.deferred ++ [(flagsOf c, c)] }).okQueue r c true 0 0).lovageOn r)))
    ∧ (leAt c 0 1 = 0x04 → Does (.stopQueue r) s (((b.stopQueueOp q (stopOfCmd c)).okQueue r c false 0 0).lovageOn r))
    ∧ (leAt c 0 1 = 0x07 → ∀ n, x.run.backSlot = some n → b.sched.backUsed.contains n = true →
      Does (.unpinQueue r) s (((b.modQueue q fun y => { y with cfg := { y.cfg with pin := false }, run := { y.run with backSlot := some n, nospill := false } }).okQueue
        r c false n 0).lovageOn r)))
  ∧ (leAt c 0 1 = 0x09 → ∀ d n t, d = leAt c 8 1 → (b.winOk d (leAt c 0x10 8) (64 * 2 ^ leAt c 0x18 1) false true && b.rangesCover (leAt c 0x10 8) (64 * 2 ^ leAt c 0x18 1)) = true →
    (b.domain d).ring.isSome = false → (b.sched.jobs.any fun j => decide (j.wait = .zeroes) && j.dom == d) = false →
    b.zeroArea d (.ringZero d) (64 * 2 ^ leAt c 0x18 1) (leAt c 0x10 8) (64 * 2 ^ leAt c 0x18 1) 0 = (n, t) →
    Does (.createEventRing r) s ((t.waitJob r fun j => { j with wait := .zeroes, dom := d, left := n }).lovageOn r))
  ∧ (leAt c 0 1 = 0x20 → Does (.stopDomain r) s (((b.stopDomainOp obj (stopOfCmd c)).okPlain r c 0).lovageOn r))
  ∧ (leAt c 0 1 = 0x21 → Does (.resumeDomain r) s (((b.resumeDomainOp obj).okPlain r c 0).lovageOn r))
  ∧ (leAt c 0 1 = 0x22 → Does (.stopMover r) s (((b.stopMoverOp obj (stopOfCmd c)).okPlain r c 0).lovageOn r))
  ∧ (leAt c 0 1 = 0x23 → Does (.resumeMover r) s (((b.resumeMoverOp obj).okPlain r c 0).lovageOn r))
  ∧ (leAt c 0 1 = 0x24 → Does (.stopPort r) s (((b.stopPortOp obj (stopOfCmd c)).okPlain r c 0).lovageOn r))
  ∧ (leAt c 0 1 = 0x25 → Does (.resumePort r) s (((b.resumePortOp obj).okPlain r c 0).lovageOn r))
  ∧ (leAt c 0 1 = 0x26 → Does (.stopInstance r) s (((b.stopInstanceOp (stopOfCmd c)).okPlain r c 0).lovageOn r))
  ∧ (leAt c 0 1 = 0x27 → Does (.resumeInstance r) s ((b.resumeInstanceOp.okPlain r c 0).lovageOn r))
  ∧ (leAt c 0 1 = 0x29 → ∀ l, l = s.core.domQueues (leAt c 8 1) → Does (.resetDomain r) s
      ((((l.foldl (fun b n => b.destroyBegin (.dom n)) b).modDomain (leAt c 8 1) fun y => { y with fetched := none }).waitJob r fun j =>
        { j with wait := .free, dom := leAt c 8 1, done := l.length, qid := 2 ^ 18 }).lovageOn r))

/-- Tier 2. A doorbell of a domain's admin slot that does not fit (size, domain, index) is dropped, counted and raises
NUDGE_DROP. One that fits: outside the windows ADMIN_WINDOW is raised and the ring not served; otherwise the tail is
taken, the completion word is written at the first one, and a read starts when none is out, no command waits and the
poll budget allows one; without budget or with a read out it is remembered. A return beyond the completions is
dropped; one within moves the return index. A poll reads likewise. The end of a read gives the command when its OWN
bit is of the lap, and nothing otherwise, or starts the read that was asked for meanwhile; a failed or poisoned read
gives nothing. (R102, R103, R104, R105, R106) -/
def Obligations.AdminRingFollowsTheDoorbells : Prop := ∀ (s : State) (d : Nat), s.Serves → s.core.on 1 = true → s.core.on 2 = true → d < 256 →
  (∀ hdrDom size value, value < 2 ^ 32 → (∀ e, s.core.domEntry d = some e → ¬ doorbellFits e d hdrDom size value) →
    Raises (.adminNudge d hdrDom size value) s s.core.countDrop 0 11 ∧ Raises (.adminCplReturn d hdrDom size value) s s.core.countDrop 0 11)
  ∧ ∀ (e : DomEntry) (x : Domain), s.core.domEntry d = some e → s.core.domain d = x →
    (∀ hdrDom size value, value < 2 ^ 32 → doorbellFits e d hdrDom size value →
      (s.core.adminRingOk d e = false →
        Raises (.adminNudge d hdrDom size value) s (s.core.modDomain d fun x => { x with win := true, served := false }) 0 10)
      ∧ (∀ b c : Blk, s.core.adminRingOk d e = true → x.lostCpl = false → s.core.resetting d = false →
        b = (s.core.modDomain d fun x => { x with tailPos := posOf value e.adminLen, win := false, served := true, started := true }) →
        c = (if x.started then b else b.sendWrite e.adminCpl (cplWordBytes e.adminLen 0 0) d 0 (.adminWord d) false) →
        (x.reading = false → x.fetched = none → s.core.pollMay = true → Does (.adminNudge d hdrDom size value) s (c.adminReads d e))
        ∧ (x.reading = false → x.fetched = none → s.core.pollMay = false →
            Does (.adminNudge d hdrDom size value) s (c.modDomain d fun x => { x with ask := true }))
        ∧ (x.reading = true → Does (.adminNudge d hdrDom size value) s (c.modDomain d fun x => { x with ask := true }))
        ∧ (x.reading = false → x.fetched ≠ none → Does (.adminNudge d hdrDom size value) s c))
      ∧ ((x.cplPos + 2 * e.adminLen - x.retPos) % (2 * e.adminLen) < (posOf value e.adminLen + 2 * e.adminLen - x.retPos) % (2 * e.adminLen) →
        Raises (.adminCplReturn d hdrDom size value) s s.core.countDrop 0 11)
      ∧ ((posOf value e.adminLen + 2 * e.adminLen - x.retPos) % (2 * e.adminLen) ≤ (x.cplPos + 2 * e.adminLen - x.retPos) % (2 * e.adminLen) → x.fetched = none →
        Does (.adminCplReturn d hdrDom size value) s (s.core.modDomain d fun x => { x with retPos := posOf value e.adminLen, stalled := false })))
    ∧ (x.started = true → x.served = true → x.reading = false → x.fetched = none → x.lostCpl = false → s.core.resetting d = false →
        (s.core.pollMay = true → Does (.adminPoll d) s (s.core.adminReads d e))
        ∧ (s.core.pollMay = false → Does (.adminPoll d) s (s.core.modDomain d fun x => { x with ask := true })))
    ∧ (∀ n t, x.reading = true → s.core.Awaits (isAdminRead d) (.admin d) n t →
      (∀ bs, bs.length = 64 → ownOf bs = decide (lapOf x.cmdPos e.adminLen = 1) → s.core.cplRoom d = true → opcodeKnown (leAt bs 0 1) = true →
        Does (.adminRingReadDone d (.data bs)) s ((s.core.readOk n t).modDomain d fun x => { x with reading := false, fetched := some bs, ask := false }))
      ∧ (∀ bs, bs.length = 64 → ownOf bs ≠ decide (lapOf x.cmdPos e.adminLen = 1) → x.ask = false →
        Does (.adminRingReadDone d (.data bs)) s ((s.core.readOk n t).modDomain d fun x => { x with reading := false }))
      ∧ (∀ bs, bs.length = 64 → ownOf bs ≠ decide (lapOf x.cmdPos e.adminLen = 1) → x.ask = true → x.started = true → x.served = true →
          x.fetched = none → x.lostCpl = false → s.core.resetting d = false → s.core.pollMay = true →
        Does (.adminRingReadDone d (.data bs)) s (((s.core.readOk n t).modDomain d fun x => { x with reading := false }).adminReads d e))
      ∧ (∀ r, r = .error ∨ r = .timeout → x.ask = false →
        Does (.adminRingReadDone d r) s ((s.core.endRead n t true).modDomain d fun x => { x with reading := false }))
      ∧ (∀ bs, x.ask = false →
        Does (.adminRingReadDone d (.poison bs)) s ((s.core.readOk n t).modDomain d fun x => { x with reading := false })))

/-- Tier 2. MG_SUBMIT stores the sixteen command registers as the ring's next command, or sets REFUSED and stores nothing
when sixteen wait. MG_POP removes the oldest completion entry. A command that waits for a context and times out
completes with status 0x60, DETAIL 0x0E. (R106, R360, Table 5-5, Table 5-2) -/
def Obligations.ManagementSlotsFillAndDrain : Prop := ∀ (s : State) (p : MPort) (second : Bool) (r : AdminRing) (x : MgRing) (c : List Byte), s.Serves →
  r = (if second then .mgb else .mga) → x = s.core.mgRing r →
  c = ((List.range 16).flatMap fun k => leBytes 4 (s.core.reg ((if second then 0x6080 else 0x6000) + 4 * k))) →
  (s.core.Open p (if second then 0x060C0 else 0x06040) →
    (16 ≤ x.slots.length → Does (.mgSubmit p second) s (((s.core.selected p).modMg r fun v => { v with refused := true }).answered p 0#64))
    ∧ (x.slots.length < 16 → (∀ h, (x.slots ++ [c]).head? = some h → opcodeKnown (leAt h 0 1) = true) →
      Does (.mgSubmit p second) s (((s.core.selected p).modMg r fun v => { v with slots := v.slots ++ [c], refused := false }).answered p 0#64)))
  ∧ (s.core.Open p (if second then 0x060D8 else 0x06058) → (∀ h, x.slots.head? = some h → opcodeKnown (leAt h 0 1) = true) →
      Does (.mgPop p second) s (((s.core.selected p).modMg r fun v => { v with cpls := v.cpls.drop 1 }).answered p 0#64))
  ∧ (∀ rest j, x.slots = rest → (∀ h, rest.head? = some h → opcodeKnown (leAt h 0 1) = true) → s.core.sched.jobs = [j] → j.ring = r → j.wait = .context →
      Does (.contextWaitTimeout r) s ((s.core.modSched fun y => { y with jobs := [] }).modMg r fun v => { v with cpls := v.cpls ++
        [cplEntry j.cmd 1 0x60 0x0E (if opcodeQueue (leAt j.cmd 0 1) then s.core.qstate (queueOf j.cmd) else 0) false 0 0] }))

/-- Tier 2. A doorbell of a wrong size, of a free queue or of another domain is dropped and raises NUDGE_DROP. On a queue
whose context is spilled or in transit the nudge is kept for the refill. On a resident one an index outside the ring
is dropped with the event; one inside is dropped and counted while the queue is stopped, halted, lost or going, marks
a reload cell's first nudge, and otherwise makes Chervil read at once when the poll budget allows it, or joins the
reads that wait for it. A poll that is due reads or waits likewise where the queue may fetch; one not due, or of a
queue that may not fetch, does nothing. (R81, R86, R87, R98, R15, R305) -/
def Obligations.NudgesFollowTheirQueue : Prop := ∀ (s : State) (q : QRef) (x : Queue) (hdrDom size value : Nat), s.Serves →
  s.core.on 1 = true → s.core.on 2 = true → q.wf = true → value < 2 ^ 32 → x = s.core.queue q →
  (((size ≠ 4 ∧ size ≠ 8) ∨ x.run.phase = .free ∨ hdrDom ≠ x.cfg.dom) → Raises (.nudge q hdrDom size value) s s.core.countDrop 0 11)
  ∧ ((size = 4 ∨ size = 8) → hdrDom = x.cfg.dom →
    (∀ n b, q = .dom n → b = ((s.core.modRun q fun r => { r with nudgeTail := some (bits value 16 0) }).modSched fun y =>
        { y with nudged := addOnce q.num y.nudged }) →
      (x.run.phase = .spilling ∨ x.run.phase = .refilling ∨ (x.run.phase = .spilled ∧ s.core.heldAbove q = true) →
        Does (.nudge q hdrDom size value) s b)
      ∧ (x.run.phase = .spilled → s.core.heldAbove q = false → Does (.nudge q hdrDom size value) s (b.wantRefill n)))
    ∧ (x.run.phase ∈ [.idle, .bound, .stopping, .stopped, .halted, .lost, .destroying] →
      (x.size ≤ bits value 15 0 → Raises (.nudge q hdrDom size value) s s.core.countDrop 0 11)
      ∧ (bits value 15 0 < x.size →
        (x.run.phase ∈ [.stopped, .halted, .lost, .destroying] → Does (.nudge q hdrDom size value) s s.core.countDrop)
        ∧ (x.run.phase ∈ [.idle, .bound, .stopping] → q.isCell = true → x.run.firstNudge = false →
          ∃ b, Does (.nudge q hdrDom size value) s b ∧ Sent (s.core.modRun q fun r => { r with firstNudge := true }) b)
        ∧ (∀ b : Blk, x.run.phase ∈ [.idle, .bound, .stopping] → q.isCell = false ∨ x.run.firstNudge = true →
          b = s.core.noteNudge q →
          (s.core.ReadsNow q → Does (.nudge q hdrDom size value) s (b.pollNow q (some (posOf value x.size)) true)
            ∧ s.core.Polls q (b.pollNow q (some (posOf value x.size)) true)
            ∧ (b.pollNow q (some (posOf value x.size)) true).sched.nudged = (s.core.unnudged q).sched.nudged)
          ∧ (s.core.mayFetch q = true → (s.core.pollMay && s.core.sched.pollWait.isEmpty) = false →
            Does (.nudge q hdrDom size value) s (b.pollLater q (some (posOf value x.size)) true))
          ∧ (s.core.mayFetch q = false → Does (.nudge q hdrDom size value) s b)))))
  ∧ (x.cfg.pollPhase = false → s.core.pollEarly q = false →
    (s.core.ReadsNow q → Does (.pollDue q) s (s.core.pollNow q none false) ∧ s.core.Polls q (s.core.pollNow q none false)
        ∧ (s.core.pollNow q none false).sched.nudged = (s.core.unnudged q).sched.nudged)
    ∧ (s.core.mayFetch q = true → (s.core.pollMay && s.core.sched.pollWait.isEmpty) = false → Does (.pollDue q) s (s.core.pollLater q none false)))
  ∧ (s.core.mayFetch q = false ∨ x.cfg.pollPhase = false ∧ s.core.pollEarly q = true → Does (.pollDue q) s s.core)

/-- Tier 2. For the outstanding read of position p of a ring: a failed read frees the tag and forgets a re-read of p; a
tile the queue does not want is given up; a wanted tile takes a place in the Chervil cache, made by giving one up
where there is none, and is not kept when no place can be made; at the known tail, if its OWN bit is of the lap, the
known tail moves one position on, the chain timer follows its LAST bit, and the queue counts as the most lately owned.
No other queue changes when the known tail grows. The tile given up is the model's choice (log 29). (R81, R82, R83,
R84, R89, R97) -/
def Obligations.RingTilesAdvanceTheTail : Prop := ∀ (s : State) (port tag gen : Nat) (q : QRef) (p : Nat) (t : TagRec), s.Serves →
  port < 8 → tag < 1024 → gen < 4 → t = tabGet {} (s.core.port port).tags tag → t.purpose = .ring q p → t.gen = gen →
  s.core.tagOut port tag = true →
  (∀ r, r = .error ∨ r = .timeout → Does (.ringTileArrival port tag gen r) s (((s.core.endRead port tag true).modQueue q fun x =>
    if (x.recheck.map (·.1)) = some p then { x with recheck := none } else x).pollCheck q))
  ∧ (∀ bs, bs.length = 64 → s.core.mayFetch q = false ∨ (s.core.queue q).wants p bs = false →
      Does (.ringTileArrival port tag gen (.data bs)) s ((s.core.readOk port tag).pollCheck q))
  ∧ (∀ bs, bs.length = 64 → s.core.mayFetch q = true → (s.core.queue q).wants p bs = true →
    (((s.core.readOk port tag).makePlace q p).takeTile = none →
      Does (.ringTileArrival port tag gen (.data bs)) s (((s.core.readOk port tag).makePlace q p).pollCheck q))
    ∧ ∀ loc b x, ((s.core.readOk port tag).makePlace q p).takeTile = some (loc, b) → x = b.queue q →
      (ownOf bs ≠ x.expectedOwn p → p = x.run.tail →
        Does (.ringTileArrival port tag gen (.data bs)) s ((b.ringGrows q (x.putCopy p loc bs)).pollCheck q))
      ∧ (ownOf bs = x.expectedOwn p → p = x.run.tail → x.dist p x.run.head < x.size → x.goodAt (x.next p) = none → x.next p ≠ p →
        Does (.ringTileArrival port tag gen (.data bs)) s ((b.ringGrows q ((x.putCopy p loc bs).tailOn bs)).pollCheck q))
      ∧ (p ≠ x.run.tail → x.goodAt x.run.tail = none →
        Does (.ringTileArrival port tag gen (.data bs)) s ((b.ringGrows q (x.putCopy p loc bs)).pollCheck q)))
  ∧ (∀ (b : Blk) (y : Queue), y.run.tail ≠ (b.queue q).run.tail →
      ((b.ringGrows q y).queue q).run = y.run ∧ ((b.ringGrows q y).queue q).cache = y.cache
        ∧ ((b.ringGrows q y).queue q).lastOwned = b.sched.ownedSeq + 1 ∧ ∀ r, r ≠ q → (b.ringGrows q y).queue r = b.queue r)

/-- Tier 2. A good descriptor at the fetch position moves into the binding's local buffer and the position advances; a bad
one halts the queue with DESC_FORMAT and its reason. A bindable queue is bound to the chosen mover's free place with a
fresh binding, or joins the bind list and is counted when there is none. A domain queue that is quiet with tail = head
is unbound with deferred changes applied. With queues waiting, the longest bound is marked for pre-emption. Times are
operands of the events (log 5). (R70, R77, R88, R202, R203, R204, R205, R16) -/
def Obligations.BindingsAndFills : Prop := ∀ (s : State) (q : QRef) (x : Queue), s.Serves → q.wf = true → x = s.core.queue q →
  (∀ m k y c d, s.core.CanFill q m k y c → d = decodeDesc c.bytes → dcrcOk d = true → formReason d x.cfg.adminMark x.run.prevLast = none →
    d.win = false → d.kind ≠ kSnap → d.kind ≠ kAscat → s.core.shadowAt q = none →
      Does (.localBufferFill q) s ((((s.core.modQueue q fun x => { x with recheck := none }).modBinding m k fun y =>
        { y with lbuf := y.lbuf ++ [⟨x.run.fetched, d, none, c.crc⟩] }).modSched fun z => { z with mews := z.mews.filter fun t => t != ⟨q, x.run.fetched⟩ }).modRun q
          fun r => { r with fetched := x.next x.run.fetched, prevLast := d.last }))
  ∧ (∀ m k y c d, s.core.CanFill q m k y c → d = decodeDesc c.bytes →
    (∀ r, dcrcOk d = true → formReason d x.cfg.adminMark x.run.prevLast = some r →
      Does (.localBufferFill q) s ((s.core.modQueue q fun x => { x with recheck := none }).refuseEntry q 0x12 x.run.fetched d.cookie (formatInfo r)))
    ∧ (∀ c1, dcrcOk d = false → x.recheck = some (x.run.fetched, c1) →
      Does (.localBufferFill q) s (s.core.refuseEntry q 0x11 x.run.fetched d.cookie (infoOf [(0, 2, c1), (2, 2, descCrc c.bytes)])))
    ∧ (dcrcOk d = false → x.recheck = none →
      Does (.localBufferFill q) s ((s.core.modQueue q fun x => { x.dropCopy x.run.fetched with recheck := some (x.run.fetched, descCrc c.bytes) }).readSlots q 1
        x.run.fetched 1)))
  ∧ (s.core.on 1 = true → s.core.levels q = none → s.core.bindable q = true →
    (∀ m k, s.core.chooseMover q = some (m, false) → (s.core.mover m).freePlace = some k →
      Does (.bindQueue q) s ((((s.core.modSched fun z => { z with bindSeq := z.bindSeq + 1, bindList := z.bindList.filter (· != q) }).setBinding m k
        (some { newBinding q false s.core.sched.bindSeq with served := s.core.clock.cycle })).modQueue q fun x => { x with
          run := { x.run with phase := .bound, fetched := x.run.retiredTo, prevLast := (x.unpub.getLast?.map (·.last)).getD true }
          unshadowed := x.cfg.duplex }).traceQ 0 q m))
    ∧ (s.core.chooseMover q = none → s.core.sched.bindList.contains q = false →
      Does (.bindQueue q) s { (s.core.modSched fun z => { z with bindList := z.bindList ++ [q] }) with
        movp := { s.core.movp with bindWait := incr 32 s.core.movp.bindWait } }))
  ∧ (∀ m k, q.isCell = false → x.run.phase = .bound → x.run.tail = x.run.head → s.core.quiet q = true → s.core.boundAt q = some (m, k) →
      s.core.shadowAt q = none → s.core.sched.bindList = [] →
      Does (.bindIdle q) s ((((s.core.modRun q fun r => { r with phase := .idle }).setBinding m k none).modQueue q fun x =>
        { x.applyDeferred with run := { x.run with fetched := x.run.retiredTo } }).traceQ 1 q 31))
  ∧ (∀ m k n, s.core.sched.bindList ≠ [] → s.core.regF 0x11200 31 16 ≠ 0 → s.core.longestBound = some (m, k, n) →
      Does .bindPreempt s ((s.core.modBinding m k fun x => { x with preempt := true }).boundary m k))

/-- Tier 2. When the last write of a spill is settled the queue is SPILLED. A refill whose two tiles check restores
configuration and run state and leaves the queue IDLE; one that fails loses the context with its cause and tile named,
and waiting refills and commands look again. A chain that times out on a queue without a binding or a report halts the
queue at the chain's first entry with the reported tail, and its entries from there on are not published; without an
open chain the event does nothing. (R84, R96, R97, R98, R361, R360) -/
def Obligations.ContextsSpillAndRefill : Prop := ∀ (s : State) (q : QRef) (x : Queue), s.Serves → q.wf = true → x = s.core.queue q →
  (x.run.phase = .spilling → s.core.spillOut q = false → s.core.Calm → s.core.NoneWait → x.dying = false →
    Does (.spillDone q) s (s.core.modRun q fun r => { r with phase := .spilled }))
  ∧ (∀ n t, s.core.Awaits (isRefillRead q) (.refill q) n t →
    (∀ bs, tileOk (slice bs 0 64) = true → tileOk (slice bs 64 64) = true → s.core.Calm → s.core.NoneWait → s.core.Unstopped → x.stop = none → x.dying = false →
      Does (.refillDone q (.data bs)) s (((s.core.readOk n t).modSched fun y => { y with refilling := y.refilling.filter (· != q.num) }).modQueue q fun x =>
        { runOfTile x (slice bs 64 64) with cfg := cfgOfTile bs, run := { (runOfTile x (slice bs 64 64)).run with phase := .idle, polling := true } }))
    ∧ (∀ (r : ReadResult) (cause tile : Nat),
        (match r with
          | .data bs => cause = 0 ∧ (tile = 0 ∧ tileOk (slice bs 0 64) = false ∨ tile = 1 ∧ tileOk (slice bs 0 64) = true ∧ tileOk (slice bs 64 64) = false)
          | .poison _ => cause = 1 ∧ tile = 0
          | .error => cause = 2 ∧ tile = 0
          | .timeout => cause = 3 ∧ tile = 0) →
        Does (.refillDone q r) s (((((if cause < 2 then s.core.readOk n t else s.core.endRead n t true).modSched fun y => { y with refilling := y.refilling.filter (· != q.num) }).loseQueue q 0x61
          (infoOf [(0, 1, cause + 4 * tile)])).serveRefills).jobsCheck)))
  ∧ (x.run.phase = .idle ∨ x.run.phase = .bound ∨ x.run.phase = .stopping → x.run.chainTimer = true → x.report = none → s.core.boundAt q = none →
      Does (.chainTimeout q) s (((s.core.haltWith q (haltReport 0x13 x.run.chainFirst (((x.copyAt x.run.chainFirst).map fun c => (decodeDesc c).cookie).getD 0) 0 0
        (infoOf [(0, 4, x.run.tail % 2 ^ 17)]))).modQueue q fun x => { x with unpub := x.unpub.filter fun r => !decide ((s.core.queue q).dist (s.core.queue q).run.chainFirst (s.core.queue q).run.head ≤ (s.core.queue q).dist r.pos (s.core.queue q).run.head) }).settleCheck q))
  ∧ (x.run.chainTimer = false → Does (.chainTimeout q) s s.core)

/-- Tier 2. A completion with a bad header is counted in INB_BAD; one whose tag is not out or of another generation in
LATE_CPL; one with an error status abandons its request (the reserved status counted as well); one that does not fit
its request in BAD_CPL; a part that fits is placed; the part that completes the request ends the read. A sweep that
names an outstanding tag ends its read by timeout, one that names none does nothing; a tag that rejoins is no longer
withheld; the completion of a flush read ends it. (R130, R131, R133, R134, R300, R338, R93) -/
def Obligations.CompletionsFollowTheirTag : Prop := ∀ (s : State) (port : Nat) (c : Cpl) (t : TagRec), s.Serves → port < 8 → c.wf = true →
  s.core.portPowered port = true → t = tabGet {} (s.core.port port).tags c.tag →
  (∀ f, c.badHeader = true → Does (.readCompletion port c f) s (s.core.modCnt port fun x => { x with inbBad := incr 8 x.inbBad }))
  ∧ (∀ f, c.badHeader = false →
    (s.core.tagOut port c.tag = false ∨ t.gen ≠ c.gen → Does (.readCompletion port c f) s (s.core.modCnt port fun x => { x with lateCpl := incr 32 x.lateCpl }))
    ∧ (s.core.tagOut port c.tag = true → t.gen = c.gen →
      (c.cstat ≠ 0 → Does (.readCompletion port c f) s ((if c.cstat = 3 then s.core.modCnt port fun x => { x with inbBad := incr 8 x.inbBad } else s.core).finishRead
        port c.tag .error .timeout))
      ∧ (c.cstat = 0 → ¬ t.fits c → Does (.readCompletion port c f) s (s.core.modCnt port fun x => { x with badCpl := incr 32 x.badCpl }))
      ∧ (c.cstat = 0 → t.fits c → ((t.place c).sound = true → t.got.length + c.data.length ≠ t.len → (∀ m p q r, t.purpose ≠ .data m p q r) →
        Does (.readCompletion port c .none) s (s.core.modPort port fun v => { v with tags := tabSet {} v.tags c.tag (t.place c) }))
        ∧ ((t.place c).sound = true → t.got.length + c.data.length = t.len → 0 < t.len →
        Does (.readCompletion port c .none) s ((s.core.modPort port fun v => { v with tags := tabSet {} v.tags c.tag (t.place c) }).finishRead
          port c.tag (t.place c).result .timeout))
        ∧ ((t.place c).sound = false →
        Does (.readCompletion port c .none) s ((s.core.modPort port fun v => { v with tags := tabSet {} v.tags c.tag (t.place c) }).laneFail
          port c.tag c.offset)))))
  ∧ (∀ n, n < 1024 → s.core.tagOut port n = true → Does (.readTimeoutSweep port [n]) s (s.core.finishRead port n .timeout .timeout))
  ∧ (Does (.readTimeoutSweep port []) s s.core)
  ∧ (∀ n, n < 1024 → Does (.tagRejoin port n) s (s.core.modPort port fun v =>
      { v with tags := tabSet {} v.tags n { (tabGet {} v.tags n : TagRec) with withheld := false } }))
  ∧ (∀ n g r, n < 1024 → g < 4 → s.core.tagOut port n = true → ((tabGet {} (s.core.port port).tags n : TagRec)).gen = g →
      ((tabGet {} (s.core.port port).tags n : TagRec)).len = 0 → Does (.flushReadCompletion port n g r) s (s.core.finishRead port n r .timeout))

/-- Tier 2. Each returned header credit adds one up to 255, accepts the request presented before it on TX_REQ, and takes
the completion presented before it from TX_CPL; each return of data credits adds them up to 4,095; beyond, or with
nothing presented after the first use, CRED_OVF counts. A return of a token not out is counted in TOK_BAD, or raises
event 8 of group 5 when it says lost; one that comes before acceptance is remembered; after acceptance it frees the
token, and a loss or a timeout settles what the write carried as lost. (R304, R305, R339, R340, R341, Table 13-9) -/
def Obligations.CreditsAndTokensReturn : Prop := ∀ (s : State) (port : Nat) (v : Port), s.Serves → port < 8 → v = s.core.port port →
  (s.core.creditsLive port = true → s.core.Calm →
    (v.hdrCr < 255 → v.pres = [] → v.txStarted = false →
      Does (.packetAccepted port .txReq 1) s (s.core.modPort port fun v => { v with hdrCr := v.hdrCr + 1 }))
    ∧ (255 ≤ v.hdrCr ∨ (v.pres = [] ∧ v.txStarted = true) → Does (.packetAccepted port .txReq 1) s (s.core.modCnt port fun c => { c with credOvf := incr 8 c.credOvf }))
    ∧ (v.cplHdrCr < 255 → v.cplPres ≠ [] ∨ v.cplStarted = false →
      Does (.packetAccepted port .txCpl 1) s (s.core.modPort port fun v => { v with cplHdrCr := v.cplHdrCr + 1, cplPres := v.cplPres.drop 1 }))
    ∧ (255 ≤ v.cplHdrCr ∨ (v.cplPres = [] ∧ v.cplStarted = true) →
      Does (.packetAccepted port .txCpl 1) s (s.core.modCnt port fun c => { c with credOvf := incr 8 c.credOvf })))
  ∧ (s.core.creditsLive port = true → v.hdrCr < 255 → v.pres ≠ [] →
      Does (.packetAccepted port .txReq 1) s (((s.core.modPort port fun v => { v with hdrCr := v.hdrCr + 1 }).acceptReq port).jobsCheck))
  ∧ (∀ crd, s.core.creditsLive port = true →
    (v.dataCr + crd ≤ 4095 → Does (.dataCreditReturn port .txReq crd) s (s.core.modPort port fun v => { v with dataCr := v.dataCr + crd }))
    ∧ (4095 < v.dataCr + crd → Does (.dataCreditReturn port .txReq crd) s (s.core.modCnt port fun c => { c with credOvf := incr 8 c.credOvf }))
    ∧ (v.cplDataCr + crd ≤ 4095 → Does (.dataCreditReturn port .txCpl crd) s (s.core.modPort port fun v => { v with cplDataCr := v.cplDataCr + crd }))
    ∧ (4095 < v.cplDataCr + crd → Does (.dataCreditReturn port .txCpl crd) s (s.core.modCnt port fun c => { c with credOvf := incr 8 c.credOvf })))
  ∧ (∀ tok, s.core.portPowered port = true → tok < 4096 →
    (v.toks.find? (fun t => t.tok == tok) = none →
      Does (.tokenReturn port tok false) s (s.core.modCnt port fun c => { c with tokBad := incr 4 c.tokBad })
      ∧ Raises (.tokenReturn port tok true) s (s.core.modCnt port fun c => { c with wlost := incr 8 c.wlost }) 5 8)
    ∧ (∀ r, v.toks.find? (fun t => t.tok == tok) = some r →
      (∀ lost, r.accepted = false → Does (.tokenReturn port tok lost) s (s.core.modPort port fun v =>
        { v with toks := v.toks.map fun y => if y.tok = tok then { y with early := some lost } else y }))
      ∧ (r.accepted = true → s.core.Calm → (∀ q t, r.pkt.purpose ≠ .word q t) →
        Does (.tokenReturn port tok false) s (s.core.modPort port fun v => { v with toks := v.toks.filter fun t => t.tok != tok }))
      ∧ (r.accepted = true → Does (.tokenReturn port tok true) s ((((s.core.modCnt port fun c => { c with wlost := incr 8 c.wlost }).modPort port fun v =>
          { v with toks := v.toks.filter fun t => t.tok != tok }).lostPkt port r.pkt).jobsCheck))))
  ∧ (∀ tok r, tok < 4096 → v.toks.find? (fun t => t.tok == tok && t.accepted) = some r →
      Does (.tokenTimeout port tok) s ((((s.core.modCnt port fun c => { c with tokTmo := incr 4 c.tokTmo }).modPort port fun v =>
          { v with toks := v.toks.filter fun t => t.tok != tok }).lostPkt port r.pkt).jobsCheck))

/-- Tier 2. For a unit no other follows, and an input stable for longer than the unit's STABLE at its active level: QUAD
counts move the phase down or up one count and set the direction; a transition of both lines is counted with its
event; an index within SLIP, or the first, corrects the word to the nearest index and one outside goes to Loss with
SLIP counted; LINESYNC and MAINS pulses that are early are counted, and others correct the word to the next cycle with
its time kept. An input not stable, or at its other level, changes nothing. The loss time-out leads to the configured
state keeping the rate; the coast limit leads to LOST; a tick read is cleared; FABTIME takes the time. Every other
unit is unchanged. (R159's reading of a limit of 0 is log 29.) (R157, R158, R159, R160, R161, R162, R163, Table 7-3) -/
def Obligations.PhaseUnitsFollowTheTables : Prop := ∀ (s : State) (u : Nat) (x : PhaseUnit), s.Serves → u < 16 → s.core.on 1 = true →
  s.core.Alone u → x = s.core.pu u →
  -- QUAD
  (∀ held pin, s.core.puSource u = 1 → x.state = .locked → s.core.puStable u < held → pinStable pin (s.core.puStable u) = true → s.core.puActive u pin = true →
    (x.inRef < 2 ∨ s.core.clock.refLost = true →
      (∃ b : Blk, Does (.phaseCount u ⟨.reverse, held⟩) s b ∧ b = { s.core with pus := b.pus } ∧ (b.pu u).ph = x.ph.down (s.core.puModulus u)
        ∧ (b.pu u).reverse = true ∧ (b.pu u).fwdRun = 0 ∧ (b.pu u).state = .locked ∧ ∀ v, v ≠ u → b.pu v = s.core.pu v)
      ∧ (∃ b : Blk, Does (.phaseCount u ⟨.forward, held⟩) s b ∧ b = { s.core with pus := b.pus } ∧ (b.pu u).ph = x.ph.up (s.core.puModulus u)
        ∧ (b.pu u).reverse = false ∧ (b.pu u).fwdRun = x.fwdRun + 1 ∧ (b.pu u).state = .locked ∧ ∀ v, v ≠ u → b.pu v = s.core.pu v))
    ∧ (x.quadInCycle + 1 ≤ s.core.regF (puA u 1) 15 12 → Raises (.phaseCount u ⟨.both, held⟩) s (s.core.modPu u fun x =>
        { x with quadErr := incr 8 x.quadErr, quadInCycle := x.quadInCycle + 1 }) 7 u)
    ∧ (s.core.puZ u = true → x.firstIndex = false → s.core.regF (puA u 6) 15 0 < (x.ph.nearest (s.core.puModulus u)).2.natAbs →
        ∃ b : Blk, Does (.indexPulse ⟨u, pin⟩) s b ∧ b.pends 7 u = true ∧ b.pends 8 u = true
          ∧ Msg (s.core.modPu u fun x => ({ x with slipErr := incr 8 x.slipErr } : PhaseUnit).lose (s.core.lossState u) x.inc s.core.clock.ftPsTotal) b)
    ∧ (s.core.puZ u = true → x.firstIndex = true ∨ (x.ph.nearest (s.core.puModulus u)).2.natAbs ≤ s.core.regF (puA u 6) 15 0 →
        ∃ b : Blk, Does (.indexPulse ⟨u, pin⟩) s b ∧ b = { s.core with pus := b.pus } ∧ (b.pu u).ph = (x.ph.nearest (s.core.puModulus u)).1
          ∧ (b.pu u).indexed = true ∧ (b.pu u).wraps = 0 ∧ (b.pu u).state = .locked ∧ ∀ v, v ≠ u → b.pu v = s.core.pu v))
  -- LINESYNC and MAINS
  ∧ (∀ pin, s.core.puSource u = 2 ∨ s.core.puSource u = 3 → x.state = .locked → pinStable pin (s.core.puStable u) = true → s.core.puActive u pin = true →
    (s.core.puEarly u = true → Raises (.phasePulse ⟨u, pin⟩) s (s.core.modPu u fun x => { x with early := incr 8 x.early }) 7 u)
    ∧ (s.core.puEarly u = false → x.firstPulse = false →
        ∃ b : Blk, Does (.phasePulse ⟨u, pin⟩) s b ∧ b = { s.core with pus := b.pus } ∧ (b.pu u).ph = ⟨(x.ph.cyc + 1) % 2 ^ 24, 0, 0⟩
          ∧ (b.pu u).stamps = (s.core.clock.cycle :: x.stamps).take 257 ∧ (b.pu u).state = .locked ∧ ∀ v, v ≠ u → b.pu v = s.core.pu v))
  -- the stability filter and the active level
  ∧ (∀ e held, held ≤ s.core.puStable u → Does (.phaseCount u ⟨e, held⟩) s s.core)
  ∧ (∀ pin, pinStable pin (s.core.puStable u) = false ∨ s.core.puActive u pin = false → Does (.indexPulse ⟨u, pin⟩) s s.core ∧ Does (.phasePulse ⟨u, pin⟩) s s.core)
  -- timers
  ∧ (x.state = .locked → s.core.reg (puA u 4) ≠ 0 → s.core.clock.refLost = false →
      ∃ b : Blk, Does (.phaseLossTimeout u) s b ∧ Msg (s.core.modPu u fun x => x.lose (s.core.lossState u) (s.core.puInc u) s.core.clock.ftPsTotal) b ∧ b.pends 8 u = true)
  ∧ (x.state = .coast → s.core.clock.refLost = false →
      Raises (.coastLimitExpiry u) s (s.core.modPu u fun x => { x with state := .lost, fbAcc := 0, fbAt := s.core.clock.ftPsTotal }) 8 u)
  ∧ (x.ticked = true → Does (.phaseTickEstimate u) s (s.core.modPu u fun x => { x with ticked := false }))
  ∧ (∀ t, t < 2 ^ 64 → (∀ v, v < 16 → s.core.puSource v ≠ 4 ∨ (s.core.pu v).state = .off) →
      Does (.fabricTimeValid t) s { s.core with clock := { s.core.clock with ft := t, ftPs := 0, ftSeen := true } })

/-- Tier 2. At OPEN an armed read is presented and an armed NOP done; outside its window no armed entry launches. A window
at the head within 64 cycles arms its entry, which asks for a place of its first request in the gate, at once or
later; a loaded plan arms. A head entry at its CLOSE whose LATE code is 0 and whose holds are left moves one cycle on
and is counted in LATE, still waiting where it waited. An armed entry whose unit stays LOST halts with PHASE_LOST.
(R165, R167, R168, R169, R170, R171, R172, R174, R184) -/
def Obligations.WindowedEntriesLaunch : Prop := ∀ (s : State) (m k : Nat), s.Serves → m < 18 → k < 64 →
  -- an armed read launches at OPEN
  (∀ e w q p pk, s.core.armedEntry m k = some (e, w, q) → s.core.execAt m k e.pos = some e → s.core.WindowIsOpen w → s.core.overlapOk q e.pos w = true →
      e.aligned = false → e.desc.kind ∉ [kWait, kFence, kFill] → e.gate = some (p, some pk) → e.due = none →
      Does (.windowOpen m k) s (((s.core.releaseRead m k e p pk).pump m k).alignedCheck m k))
  -- an armed NOP is done at OPEN
  ∧ (∀ e w q, s.core.armedEntry m k = some (e, w, q) → s.core.execAt m k e.pos = some e → s.core.WindowIsOpen w → s.core.overlapOk q e.pos w = true →
      e.aligned = false → e.desc.kind = kNop → e.gate = none → e.due = none → s.core.firstReq m q e = none →
      Does (.windowOpen m k) s ((((s.core.dropGate m k).modExec m k e.pos fun e => { e with stage := e.launchStage, gate := none, gatedFirst := false }).pump m k).alignedCheck m k))
  -- no launch outside the window
  ∧ (∀ e w q, s.core.armedEntry m k = some (e, w, q) → s.core.windowNow w = false → Does (.windowOpen m k) s (s.core.alignedCheck m k))
  -- arming
  ∧ (∀ l w q n e, s.core.armedEntry m k = none → s.core.windowHead m k = some (l, w, q) → s.core.cyclesToOpen w = some n → n ≤ 64 → s.core.puOpen w.unit = true →
      l.desc.kind ≠ kSnap → l.desc.kind ≠ kAscat → atOrPast (s.core.pu w.unit).ph w.closeAt = false → s.core.overlapOk q l.pos w = true →
      (s.core.startEntry m k l true).execAt m k l.pos = some e → e.dead = false → e.fenceWait = false →
        Does (.windowArm m k) s (((s.core.startEntry m k l true).modExec m k l.pos fun e => { e with stage := .armed }).armGate m k q { e with stage := .armed }))
  ∧ (∀ e w q, s.core.armedEntry m k = some (e, w, q) → e.aligned = false → Does (.windowArm m k) s (s.core.armGate m k q e))
  ∧ (∀ x e, s.core.binding m k = some x → x.shadow = false → x.toArm = some e → Does (.planArm m k) s ((s.core.armPlan m k x.q e).alignedCheck m k))
  -- late
  ∧ (∀ x l w q, s.core.binding m k = some x → x.exec = [] → s.core.windowHead m k = some (l, w, q) → s.core.puOpen w.unit = true → atOrPast (s.core.pu w.unit).ph w.closeAt = true → w.late = 0 →
      s.core.regF (puA w.unit 7) 15 8 = 0 ∨ w.holds < s.core.regF (puA w.unit 7) 15 8 →
        Does (.windowLate m k) s ((((s.core.modPu w.unit fun x => { x with late := incr 16 x.late }).modEp q fun e => { e with late := true }).modBinding m k fun x =>
          { x with lbuf := x.lbuf.map fun l' => if l'.pos = l.pos then { l' with win := some w.later } else l' }).modExec m k l.pos fun e =>
            { e with stage := if e.fenceWait || decide (e.stage = .list) then e.stage else if e.aligned then .waiting else .armed, due := none }))
  ∧ (∀ e w q, s.core.waitingEntry m k = some (e, w, q) → (s.core.pu w.unit).state = .lost → s.core.regF (puA w.unit 9) 15 0 ≠ 0 →
      Does (.phaseLostHalt m k) s ((s.core.failEntry m k e.pos 0x41 (infoOf [(0, 2, w.unit + 256 * 5)])).pump m k))

/-- Tier 1. A probe of a tracked target that the poll budget allows counts in it, sends at most packets and takes one of
its burst; one that it does not allow is remembered; aging marks the record stale, and invalid when long; tracking
ends for a target in no plan; TGT_LAT_INVAL invalidates the record. A BACKGROUND queue's packets presented 10 us ago
or earlier are aged at their ports, and its binding in the scheduler when it was last served 10 us ago or earlier. No
other record changes. (R179, R180, R181, R182, R194) -/
def Obligations.LatencyRecordsAndAging : Prop := ∀ (s : State) (i : Nat), s.Serves → i < 1024 →
  (∀ t, s.core.img.targets[i]? = some t → (s.core.lat i).tracked = true → s.core.on 1 = true →
    (s.core.pollMay = true → ∃ b : Blk, Sent s.core.pollSpent b ∧ Does (.latencyProbe i) s (b.modLat i fun r => { r with burst := r.burst - 1, ask := false }))
    ∧ (s.core.pollMay = false → Does (.latencyProbe i) s (s.core.modLat i fun r => { r with ask := true })))
  ∧ (∀ long, (s.core.lat i).tracked = true → Does (.latencyRecordAging i long) s (s.core.modLat i fun r => { r with stale := true, valid := r.valid && !long }))
  ∧ (s.core.inPlan i = false → Does (.latencyTrackingStop i) s (s.core.modLat i fun r => { r with tracked := false, valid := false, stale := false, burst := 0, ask := false }))
  ∧ (∀ p, s.core.Open p 0x15018 → Does (.tgtLatInval p i) s (((s.core.selected p).modLat i LatRec.invalidate).answered p 0#64))
  ∧ (∀ q t, q.wf = true → s.core.svcOf q = .background → s.core.tenUs ≤ s.core.clock.cycle → t = s.core.clock.cycle - s.core.tenUs →
      (∀ m k x, s.core.boundAt q = some (m, k) → s.core.binding m k = some x → x.served ≤ t →
        Does (.backgroundAging q) s { (s.core.modSched fun z => { z with aged := addOnce q z.aged }) with ports := tabMap {} (fun _ v => v.aged q t) s.core.ports })
      ∧ (∀ m k x, s.core.boundAt q = some (m, k) → s.core.binding m k = some x → t < x.served →
        Does (.backgroundAging q) s { s.core with ports := tabMap {} (fun _ v => v.aged q t) s.core.ports })
      ∧ (s.core.boundAt q = none → Does (.backgroundAging q) s { s.core with ports := tabMap {} (fun _ v => v.aged q t) s.core.ports }))

/-- Tier 2. For each line, RL_REQ read through its polarity and stable for longer than STABLE: LEVEL captures once from
IDLE; EDGE and COUNT capture from IDLE, count an overrun or one more capture from PENDING; a breach of MIN_GAP is
counted with its event; release of LEVEL withdraws an untaken capture and ends an acknowledge. A level that is not
stable changes nothing. A held request faults LEVEL and is counted otherwise; RLN_CLEAR leaves FAULT; RLN_SWREQ
captures by software; a write that changes the mode, to any of the four, turns the line OFF or IDLE and clears what it
held; one that keeps the mode only stores the word. (R210, R211, R212, R213, R214, Table 9-3, Table 9-4) -/
def Obligations.RequestLinesFollowTheTable : Prop := ∀ (s : State) (n : Nat) (x : Line), s.Serves → n < 64 → s.core.on 1 = true → x = s.core.line n →
  -- an accepted edge or level
  (∀ pin, pinStable pin (s.core.rlStable n) = true → s.core.rlLevel n pin = true → x.input = false →
    (s.core.rlMode n = 1 → x.state = .idle → s.core.gapMet n →
    Does (.rlCapture ⟨n, pin⟩) s (s.core.modLine n fun x => { x with input := true, lastAt := some s.core.clock.cycle, state := .pending, pend := 1, bySw := false, given := s.core.givenTo n }))
    ∧ (s.core.rlMode n = 2 ∨ s.core.rlMode n = 3 → s.core.gapMet n →
      (x.state = .idle → Does (.rlCapture ⟨n, pin⟩) s (s.core.modLine n fun x => { x with input := true, lastAt := some s.core.clock.cycle, state := .pending, pend := 1, bySw := false, given := s.core.givenTo n }))
      ∧ (x.state = .pending → s.core.rlMode n = 2 ∨ 255 ≤ x.pend →
          Does (.rlCapture ⟨n, pin⟩) s (s.core.modLine n fun x => { x with input := true, lastAt := some s.core.clock.cycle, overrun := incr 4 x.overrun }))
      ∧ (x.state = .pending → s.core.rlMode n = 3 → x.pend < 255 →
          Does (.rlCapture ⟨n, pin⟩) s (s.core.modLine n fun x => { x with input := true, lastAt := some s.core.clock.cycle, pend := x.pend + 1 })))
    ∧ (s.core.rlMode n = 2 ∨ s.core.rlMode n = 3 → x.state = .idle ∨ x.state = .pending → ¬ s.core.gapMet n → bits (s.core.rlCfg n) 23 20 = 0 →
      Raises (.rlCapture ⟨n, pin⟩) s (s.core.modLine n fun x => { x with input := true, rateErr := incr 8 x.rateErr, breaches := x.breaches + 1 }) (17 + n / 16) (n % 16)))
  -- the stability filter
  ∧ (∀ pin, pinStable pin (s.core.rlStable n) = false → Does (.rlCapture ⟨n, pin⟩) s s.core ∧ Does (.rlRelease ⟨n, pin⟩) s s.core)
  -- RL_REQ low
  ∧ (∀ pin, pinStable pin (s.core.rlStable n) = true → s.core.rlLevel n pin = false →
    (s.core.rlMode n = 1 → x.state = .pending → x.bySw = false → Does (.rlRelease ⟨n, pin⟩) s (s.core.modLine n fun x => { x with input := false, state := .idle, pend := 0, given := none }))
    ∧ (s.core.rlMode n = 1 → x.state = .acked → Does (.rlRelease ⟨n, pin⟩) s (s.core.modLine n fun x => { x with input := false, state := .idle, ack := false }))
    ∧ (s.core.rlMode n ≠ 1 → Does (.rlRelease ⟨n, pin⟩) s (s.core.modLine n fun x => { x with input := false })))
  -- RL_REQ held
  ∧ (x.input = true → s.core.clock.refLost = false → s.core.regF 0x0E300 15 0 ≠ 0 →
      (s.core.rlMode n = 1 → x.state = .acked → Raises (.rlHoldTimeout n) s (s.core.modLine n fun x => { x with state := .fault, pend := 0, ack := false, bySw := false, given := none }) (13 + n / 16) (n % 16))
      ∧ (s.core.rlMode n ≠ 1 → x.state = .idle ∨ x.state = .pending → Does (.rlHoldTimeout n) s (s.core.modLine n fun x => { x with stuck := incr 4 x.stuck })))
  -- by software
  ∧ (∀ p, s.core.Open p 0x0E304 → x.state = .fault → x.input = false → Does (.rlnClear p n) s (((s.core.selected p).modLine n fun x => { x with state := .idle, breaches := 0 }).answered p 0#64))
  ∧ (∀ p, s.core.Open p 0x0E308 → x.state = .idle → s.core.gapMet n → Does (.rlnSwreq p n) s (((s.core.selected p).modLine n fun x =>
      { x with lastAt := some s.core.clock.cycle, state := .pending, pend := 1, bySw := true, given := s.core.givenTo n }).answered p 0#64))
  ∧ (∀ p (w : Word), s.core.Open p (0x0E000 + 4 * n) → ∃ v : Nat, bits v 1 0 = w.toNat % 4 ∧
      (w.toNat % 4 ≠ s.core.rlMode n → Does (.rlnModeWrite p n w) s ((((s.core.selected p).setReg (0x0E000 + 4 * n) v).modLine n fun x =>
        { x with state := if w.toNat % 4 = 0 then .off else .idle, pend := 0, ack := false, ackDue := 0, endDue := 0, ackAt := none, endAt := none, bySw := false, given := none }).answered p 0#64))
      ∧ (w.toNat % 4 = s.core.rlMode n → Does (.rlnModeWrite p n w) s (((s.core.selected p).setReg (0x0E000 + 4 * n) v).answered p 0#64)))

/-- Tier 2. A message to a virtual line that its group admits adds to the pending count, saturating at 255 with the excess
counted; any other raises VRL_DROP and is counted; a software raise adds likewise. A capture, of a wired or a virtual
line, consumed by the WAIT that is first in its binding ends that entry with the wired line's acknowledge due and the
entry held behind it is released. With no taker nothing is consumed. (R212, R213, R214, R215, R216, R217, Table 9-6) -/
def Obligations.CapturesAreConsumed : Prop := ∀ (s : State), s.Serves → s.core.on 1 = true →
  (∀ v d size value, v < 4096 → value < 2 ^ 32 →
    (size = 4 → bits value 7 0 ≠ 0 → bit (s.core.reg (0x0E200 + 4 * (v / 64))) 9 = true →
      bit (s.core.reg (0x0E200 + 4 * (v / 64))) 8 = true ∨ s.core.regF (0x0E200 + 4 * (v / 64)) 7 0 = d →
      Does (.vrlMessage v d size value) s (s.core.modVline v fun x => { x with
        given := if x.pend = 0 ∨ x.given = none then ((s.core.waitersOn (.virt v)).find? s.core.waiterInTime).map (·.seq) else x.given
        pend := min 255 (x.pend + bits value 7 0), drops := (x.drops + (x.pend + bits value 7 0 - 255)) % 256 }))
    ∧ (size ≠ 4 ∨ bits value 7 0 = 0 ∨ bit (s.core.reg (0x0E200 + 4 * (v / 64))) 9 = false
        ∨ (bit (s.core.reg (0x0E200 + 4 * (v / 64))) 8 = false ∧ s.core.regF (0x0E200 + 4 * (v / 64)) 7 0 ≠ d) →
      Raises (.vrlMessage v d size value) s (s.core.modSched fun z => { z with vrlDrops := incr 32 z.vrlDrops }) 0 12))
  ∧ (∀ p v n, v < 4096 → n < 256 → s.core.Open p 0x0E30C → Does (.rlnVrlRaise p v n) s (((s.core.selected p).modVline v fun x => { x with
      given := if x.pend = 0 ∨ x.given = none then ((s.core.waitersOn (.virt v)).find? s.core.waiterInTime).map (·.seq) else x.given
      pend := min 255 (x.pend + n), drops := (x.drops + (x.pend + n - 255)) % 256 }).answered p 0#64))
  -- a WAIT retires with its line's capture, and the entry behind it is released
  ∧ (∀ n w x e, n < 64 → (s.core.line n).state = .pending → (s.core.line n).usedAt ≠ some s.core.clock.cycle → s.core.taker (.wired n) = some w →
      s.core.binding w.m w.b = some x → x.exec.find? (fun e => e.desc.kind = kWait && !e.dead && decide (e.stage = .waiting)) = some e →
      Does (.captureConsumed (.wired n)) s ((((((s.core.modSched fun z => { z with waiters := z.waiters.filter fun z => z.seq != w.seq }).rlConsume n).modExec w.m w.b e.pos
        fun e => { e with stage := .done, endLine := some n }).pump w.m w.b)).releaseBehind w.m w.b))
  ∧ (∀ v w x e, v < 4096 → 0 < (s.core.vline v).pend → (s.core.vline v).usedAt ≠ some s.core.clock.cycle → s.core.taker (.virt v) = some w →
      s.core.binding w.m w.b = some x → x.exec.find? (fun e => e.desc.kind = kWait && !e.dead && decide (e.stage = .waiting)) = some e →
      Does (.captureConsumed (.virt v)) s ((((((s.core.modSched fun z => { z with waiters := z.waiters.filter fun z => z.seq != w.seq }).modVline v fun y =>
        { y with pend := y.pend - 1, given := none, usedAt := some s.core.clock.cycle }).modExec w.m w.b e.pos
        fun e => { e with stage := .done, endLine := none }).pump w.m w.b)).releaseBehind w.m w.b))
  ∧ (∀ (b : Blk) (n : Nat), (b.rlMode n = 1 → ((b.rlConsume n).line n).state = .acked ∧ ((b.rlConsume n).line n).ack = true ∧ ((b.rlConsume n).line n).pend = 0)
      ∧ (b.rlMode n ≠ 1 → ((b.rlConsume n).line n).pend = (b.line n).pend - 1 ∧ ((b.rlConsume n).line n).ackDue = satInc 255 (b.line n).ackDue
        ∧ ((b.rlConsume n).line n).state = if (b.line n).pend - 1 = 0 then .idle else .pending)
      ∧ ∀ k, k ≠ n → (b.rlConsume n).line k = b.line k)
  ∧ (∀ l, l.wf = true → s.core.taker l = none → Does (.captureConsumed l) s s.core)

/-- Tier 2. A target that is due with its port free and its slot usable is presented, its release relative to the plan and
its slip noted; a write target, once the entry in front has presented its writes and its path pair has room, goes
likewise, and its bytes, its path pair and its tiles are noted besides. One whose slot is held is withheld with the
status of the slot's state and its tag given back. The time limit of a SNAP's plan abandons the outstanding reads of
the entry and marks the missing targets timed out. Readings: log 12. (R185, R186, R187, R188, R190, R191, R308, Table
8-6) -/
def Obligations.AlignedTargetsLaunchAndEnd : Prop := ∀ (s : State) (m k : Nat), s.Serves → m < 18 → k < 64 →
  (∀ i x e pl c t p pk, i < 64 → s.core.TargetWaits m k i x e pl c t p pk → s.core.TargetGoes pl t p pk → pk.isWrite = false →
      Does (.alignedTargetLaunch m k i) s (((s.core.modTarget m k e.pos i fun z => z.presented (s.core.clock.cycle - c) (decide (c + t.cycle < s.core.clock.cycle)) false).present p pk).alignedCheck m k))
  ∧ (∀ i x e pl c t p pk b, i < 64 → s.core.TargetWaits m k i x e pl c t p pk → s.core.TargetGoes pl t p pk → pk.isWrite = true → pk.poison = false →
      s.core.writesAhead m k e.pos = false → x.flushOut = 0 → s.core.pairsFull m k [(p, pk.path)] = false →
      b = (s.core.modTarget m k e.pos i fun z => z.presented (s.core.clock.cycle - c) (decide (c + t.cycle < s.core.clock.cycle)) true) →
      Does (.alignedTargetLaunch m k i) s (((b.modExec m k e.pos fun e' =>
        { e' with wr := e'.wr ++ [(i, 0, pk.len)], pairs := addPair e'.pairs ⟨p, pk.path, pk.addr + pk.len - 1, b.pairNeeds x.q e.desc p pk.path⟩
                  ports := Nat.lor e'.ports (2 ^ p) }).countTiles x.q 0 (tilesOf pk.addr pk.len)).present p pk |>.alignedCheck m k))
  ∧ (∀ i x e pl c t p pk n v, i < 64 → s.core.TargetWaits m k i x e pl c t p pk → s.core.slotVerdict t.addr = some (n, v) → pk.isWrite = false →
      Does (.alignedTargetLaunch m k i) s ((((s.core.modPort p fun v => v.freeTagAt pk.tag false).modTarget m k e.pos i fun t => t.heldBy (s.core.heldStatus n))).alignedCheck m k))
  ∧ (∀ x e pl, s.core.binding m k = some x → x.shadow = false → x.exec.find? (fun e => e.desc.kind == kSnap && e.launched && !e.dead && decide (e.stage = .running)) = some e →
      e.plan = some pl → (∀ t ∈ pl.targets, t.held = none) →
      Does (.snapTargetTimeout m k) s ((Blk.modExec { s.core with ports := tabMap {} (fun _ v => v.abandonTargets x.q e.pos) s.core.ports } m k e.pos
        fun e => { e with plan := e.plan.map Plan.timedOut }).alignedCheck m k))

/-- Tier 2. With entries on both sides: enabling an OFF FIFO with free extents takes the first free ones and enters RUN;
not OFF, or with too few free extents, it stays as it was, EN reads 0 and the event of its case is pending. Disabling
leads to CLOSING, XOFF high, and an OUT port's words are discarded; closing ends in OFF with suspect extents mapped
out. FLUSH discards unread, marked and partial data and the words that have crossed from an IN port, DROP_REM the
unread, and CLOSE_TAIL closes the open tail; a stale tail is closed by time, unless the time is 0. (Which words FLUSH
reaches is log 29.) (R219, R220, R221, R222, R234, R235, R236, R237, R238, Table 10-1) -/
def Obligations.FifosOpenAndClose : Prop := ∀ (s : State) (f : Nat) (x : Fifo), s.Serves → f < 32 → x = s.core.fifo f →
  -- enabled with entries on both sides
  (∀ p (w : Word) free, s.core.Open p (0x0F000 + 32 * f) → bit (s.core.sfCfg f) 31 = false → bit w.toNat 3 = false → bit w.toNat 7 = false →
    free = (List.range 2048).filter (fun e => !((s.core.fifos.flatMap fun (_, x) => x.extents).contains e) && !(s.core.pool.mapped.contains e)) →
    s.core.pool.off = false → 8 ≤ s.core.regF (sfA f 1) 11 0 → s.core.regF (sfA f 1) 11 0 ≤ 2048 →
      (x.state = .off → s.core.regF (sfA f 1) 11 0 ≤ free.length →
        ∃ b : Blk, Does (.sfEnable p f w) s b ∧ b.fifo f = { state := .run, extents := free.take (s.core.regF (sfA f 1) 11 0) } ∧ bit (b.sfCfg f) 31 = true)
      ∧ (x.state ≠ .off → ∃ b : Blk, Does (.sfEnable p f w) s b ∧ b.fifo f = x ∧ bit (b.sfCfg f) 31 = false ∧ b.pends 1 1 = true)
      ∧ (x.state = .off → free.length < s.core.regF (sfA f 1) 11 0 → ∃ b : Blk, Does (.sfEnable p f w) s b ∧ b.fifo f = x ∧ bit (b.sfCfg f) 31 = false ∧ b.pends 1 2 = true))
  ∧ (∀ p, (s.core.side p).outstanding.length < 4 → s.core.semDenied p 0x0F = false → s.core.on 7 = true → bit (s.core.sfCfg f) 31 = true → x.state ≠ .off →
      (s.core.sfOut f = none → Does (.sfDisable p f) s ((((s.core.selected p).setReg (sfA f 0) (s.core.sfCfg f - 2 ^ 31)).modFifo f fun x => { x with state := .closing, xoff := true }).answered p 0#64))
      ∧ (∀ n, s.core.sfOut f = some n → Does (.sfDisable p f) s (((((s.core.selected p).setReg (sfA f 0) (s.core.sfCfg f - 2 ^ 31)).modFifo f fun x =>
          { x with state := .closing, xoff := true }).modSport n SPort.cleared).answered p 0#64)))
  ∧ (x.state = .closing → x.producer = none → x.consumer = none → x.prodWait = [] → x.consWait = [] →
      (∀ n, s.core.sfIn f = some n ∨ s.core.sfOut f = some n → (s.core.sport n).xbuf = []) →
      Does (.sfCloseDone f) s ({ s.core with pool := { s.core.pool with mapped := x.suspect.foldl (fun l e => addOnce e l) s.core.pool.mapped } }.modFifo f Fifo.emptied))
  -- SF_CMD
  ∧ (∀ p, s.core.Open p (0x0F010 + 32 * f) → x.state = .run ∨ x.state = .held →
      (s.core.sfIn f = none →
        (s.core.sfMarked f = false → Does (.flush p f) s (((s.core.selected p).modFifo f fun x => x.flushed (s.core.sfPacket f) (x.consumer.isSome && s.core.sfPacket f) false []).answered p 0#64))
        ∧ (s.core.sfMarked f = true → Does (.flush p f) s ((((s.core.selected p).modFifo f fun x => x.flushed (s.core.sfPacket f) (x.consumer.isSome && s.core.sfPacket f) true []).raiseAt 27 f).answered p 0#64)))
      ∧ (∀ n, s.core.sfIn f = some n → s.core.sfMarked f = false → Does (.flush p f) s ((((s.core.selected p).modSport n fun y => y.take (min y.takeCount y.xbuf.length)).modFifo f fun x =>
          x.flushed (s.core.sfPacket f) (x.consumer.isSome && s.core.sfPacket f) false ((s.core.sport n).xbuf.take (s.core.sport n).takeCount)).answered p 0#64))
      ∧ (s.core.sfPacket f = false → x.unread ≠ [] →
          Does (.dropRem p f) s ((((s.core.selected p).modFifo f fun x => { x with unread := [], dropped := incr 8 x.dropped }).sfFreed f).answered p 0#64))
      ∧ (s.core.sfPacket f = false → x.part ≠ [] →
          Does (.closeTail p f) s ((((s.core.selected p).modFifo f Fifo.tailClosed).sfNotify f).answered p 0#64)))
  -- by time
  ∧ (s.core.regF (sfA f 3) 15 0 ≠ 0 → s.core.clock.refLost = false → x.state = .run ∨ x.state = .held → s.core.sfPacket f = false → x.part ≠ [] →
      Does (.staleTail f) s ((s.core.modFifo f Fifo.tailClosed).sfNotify f))
  ∧ (s.core.regF (sfA f 3) 15 0 = 0 → Does (.staleTail f) s s.core)

/-- Tier 2. At an edge of the input: a withdrawn word is counted and not taken; with the pin low nothing is taken; a word
taken joins the crossing buffer and moves its write pointer, marked bad and counted with its event when its parity is
bad and checked, or when it is short without being last. At an edge of the output: with the pin low the buffer and its
pointer stay; otherwise the oldest word leaves, the read pointer moves, and a bad one is counted in its FIFO. A clock
over 816 MHz raises the range event once and one up to 800 MHz clears the mark; a stall is counted with its event.
(R226, R227, R228, R239, R240, R241, R242) -/
def Obligations.StreamPortsFollowTheTable : Prop := ∀ (s : State) (n : Nat) (x : SPort), s.Serves → n < 8 → s.core.on 7 = true → x = s.core.sport n →
  -- an edge of the input: a word withdrawn, one taken, one not taken
  (∀ w : StreamWord, w.wf = true →
    (w.withdrawn = true → bit (s.core.spCfg n) 31 = true → bit (s.core.spCfg n) 30 = false →
      Does (.spWordIn n w) s ((s.core.modSport n fun x => { x with withdraw := incr 8 x.withdraw }).spInEdge n none))
    ∧ (w.withdrawn = false → s.core.spPin n false = false → Does (.spWordIn n w) s (s.core.spInEdge n none))
    ∧ (w.withdrawn = false → s.core.spPin n false = true →
      (w.parityBad = false ∨ bit (s.core.spCfg n) 29 = false → w.last = true ∨ w.inb = 15 →
        Does (.spWordIn n w) s (s.core.spInEdge n (some { w with parityBad := false })))
      ∧ (w.parityBad = true → bit (s.core.spCfg n) 29 = true → w.last = true ∨ w.inb = 15 →
        Does (.spWordIn n w) s (((s.core.modSport n fun x => { x with parity := incr 8 x.parity }).raiseAt 11 n).spInEdge n (some { w with parityBad := true })))
      ∧ (w.parityBad = false ∨ bit (s.core.spCfg n) 29 = false → w.last = false → w.inb ≠ 15 →
        Does (.spWordIn n w) s (((s.core.modSport n fun x => { x with short := incr 8 x.short }).raiseAt 11 n).spInEdge n (some { w with parityBad := true })))
      ∧ ∀ w', ((s.core.spInEdge n (some w')).sport n).xbuf = x.xbuf ++ [w'] ∧ ((s.core.spInEdge n (some w')).sport n).wp = (x.wp + 1) % 128))
  ∧ (((s.core.spInEdge n none).sport n).xbuf = x.xbuf ∧ ((s.core.spInEdge n none).sport n).wp = x.wp)
  -- an edge of the output
  ∧ (∀ d, s.core.spPin n true = false → Does (.spWordOut n d) s ((s.core.spOutEdge n true).poolHit n d) ∧ ((s.core.spOutEdge n true).sport n).xbuf = x.xbuf ∧ ((s.core.spOutEdge n true).sport n).rp = x.rp)
  ∧ (∀ d w rest f, s.core.spPin n true = true → x.xbuf = w :: rest → s.core.sfOfPort n false = some f →
      Does (.spWordOut n d) s (((s.core.modFifo f fun x => { x with poisoned := if w.parityBad then incr 8 x.poisoned else x.poisoned }).spOutEdge n true).poolHit n d)
      ∧ (((s.core.modFifo f fun x => { x with poisoned := if w.parityBad then incr 8 x.poisoned else x.poisoned }).spOutEdge n true).sport n).xbuf = rest
      ∧ (((s.core.modFifo f fun x => { x with poisoned := if w.parityBad then incr 8 x.poisoned else x.poisoned }).spOutEdge n true).sport n).rp = (x.rp + 1) % 128)
  ∧ (s.core.clock.refLost = false →
      (∀ kHz, 816000 < kHz → x.range = false → ∃ b : Blk, Does (.spClkMeasure n kHz) s b ∧ (b.sport n).range = true ∧ Msg (s.core.modSport n fun x => { x with mhz := min 1023 (kHz / 1000), range := true, idle := false }) b ∧ b.pends 12 n = true)
      ∧ (∀ kHz, kHz ≤ 800000 → Does (.spClkMeasure n kHz) s (s.core.modSport n fun x => { x with mhz := kHz / 1000, range := false, idle := decide (kHz = 0) }))
      ∧ (bit (s.core.spCfg n) 31 = true → bits (s.core.spCfg n) 15 0 ≠ 0 → Raises (.spStall n) s (s.core.modSport n fun x => { x with tmo := incr 8 x.tmo }) 11 (8 + n)))

/-- Tier 2. A queue stopping AT_PHASE whose point comes goes on as DRAIN; one whose PAUSE point comes settles what is out
with the flushes it needs; ABORT or DISABLE sends waiting entries back and ends the entry; and a queue whose stop is
done writes its notice, leaves its binding and its waiters and is STOPPED, or DESTROYING when it is being destroyed.
(R243, R244, R246, R247, R248, R250, R251, R253) -/
def Obligations.StopsReachTheirPoints : Prop := ∀ (s : State) (q : QRef) (x : Queue), s.Serves → q.wf = true → x = s.core.queue q →
  (∀ a, x.acting = some a → a.mode = .atPhase → x.run.phase = .stopping → s.core.stopPhase a = true →
      Does (.stopPhaseReached q) s (s.core.modQueue q fun x => { x with acting := some { a with mode := .drain } }))
  ∧ (∀ a b, x.acting = some a → a.mode = .pause → x.run.phase = .stopping → x.ending = .draining → s.core.execStopped q = true →
      b = s.core.traceQ 2 q 128 →
      (b.boundAt q = none → Does (.stopPointReached q) s ((b.modQueue q fun x => { x with ending := .settling }).pauseSettled q))
      ∧ (∀ m k b', b.boundAt q = some (m, k) → b' = (b.modQueue q fun x => { x with ending := .settling }) →
          Does (.stopPointReached q) s ((b'.fenceFlush m k q ((b'.pairsOf m k).filter (·.needFlush))).pauseSettled q)))
  ∧ (∀ a, x.acting = some a → a.mode = .abort ∨ a.mode = .disable → x.run.phase = .stopping → x.ending = .draining → s.core.execStopped q = true →
      Does (.stopPointReached q) s (((((s.core.traceQ 2 q (a.mode.code + 128)).lbufToMews q).abortEntry q a.mode).modQueue q fun x => { x with ending := .publishing }).settleCheck q))
  ∧ (∀ a, x.acting = some a → a.mode = .drain ∨ a.mode = .pause → x.run.phase = .stopping → s.core.stopDone q = true →
      Does (.queueStopped q) s ((((((((s.core.lbufToMews q).writeNotice q).freeBinding q 31).dropWaiters q).modQueue q fun y =>
        { y with ending := .none, run := { y.run with phase := if y.dying then .destroying else .stopped, chainTimer := false } })).traceQ 2 q (a.mode.code + 128)).unStop q))

/-- Tier 2. MOV_RETIRE makes a SPARE mover RETIRED and an ACTIVE one with no binding QUIESCING; a quiesced mover with
nothing left is RETIRED, and a spare takes its place unless a stop of the mover holds it. DPT_DRAIN with a mask that
changes nothing is stored; any mask that leaves a port in service has its effect on the ports. A drained port with
nothing out is marked idle, and its half with it once all its powered ports are. (When a retire command promotes a
spare is log 29.) (R256, R257, R258, R260, R261, R262) -/
def Obligations.MoversRetireAndPortsDrain : Prop := ∀ (s : State) (p : MPort), s.Serves →
  (∀ m, m < 18 → s.core.Open p 0x11208 → s.core.Keyed p →
      ((s.core.mover m).state = .spare → Does (.movRetire p m) s ((((s.core.selected p).setReg 0x11208 m).modMover m fun v => { v with state := .retired }).answered p 0#64))
      ∧ ((s.core.mover m).state = .active → (s.core.mover m).bind = [] →
          Does (.movRetire p m) s (((((s.core.selected p).setReg 0x11208 m).modMover m fun v => { v with state := .quiescing }).quiesce m).answered p 0#64)))
  ∧ (∀ m, m < 18 → (s.core.mover m).state = .quiescing → (s.core.mover m).stop ≠ none → (s.core.mover m).places = [] → s.core.moverBusy m = false →
      Does (.moverRetired m) s (s.core.modMover m fun v => { v with state := .retired }))
  ∧ (∀ m, m < 18 → (s.core.mover m).state = .quiescing → (s.core.mover m).stop = none → (s.core.mover m).places = [] → s.core.moverBusy m = false →
      Does (.moverRetired m) s (s.core.modMover m fun v => { v with state := .retired }).promoteSpare)
  ∧ (∀ mask, mask < 256 → s.core.Open p 0x12320 → s.core.Keyed p →
      (s.core.leavesAPort mask = true → (∀ n, n < 8 → bit (s.core.drainMask mask) n = bit (s.core.reg 0x12320) n) →
        Does (.dptDrain p mask) s ((((s.core.selected p).setReg 0x12320 (s.core.drainMask mask)).keepPorts (s.core.selected p)).answered p 0#64))
      ∧ (s.core.leavesAPort mask = true → Does (.dptDrain p mask) s (((s.core.selected p).drainWrite mask).answered p 0#64)))
  ∧ (∀ n b, n < 8 → (s.core.port n).nothing = true → (s.core.port n).stop = none → bit (s.core.reg 0x12320) n = true →
      b = (s.core.modPort n fun v => { v with idle := true }) →
      (((List.range 4).all fun i => (b.port (4 * (n / 4) + i)).idle || !(b.portPowered (4 * (n / 4) + i))) = true →
          Does (.portIdle n) s { b with halfIdle := addOnce (n / 4) b.halfIdle })
      ∧ (((List.range 4).all fun i => (b.port (4 * (n / 4) + i)).idle || !(b.portPowered (4 * (n / 4) + i))) = false → Does (.portIdle n) s b))

/-- Tier 2. A queue's moderation timer makes its message due (held pending for a masked vector); the end of the coalescing
microsecond forgets the message; DOM_SLEEP writes store the bits and send what was held; VEC_LOAD stages the entry's
fields and VEC_STORE stores them or is refused outside the target ranges; a return of event records within those
written moves the return index, one beyond is dropped with NUDGE_DROP. (R270, R274, R275, R276, R277, R278, R279,
R280, R281) -/
def Obligations.MessagesFollowTheVectorTable : Prop := ∀ (s : State) (p : MPort), s.Serves →
  -- the moderation timer of a queue ends: its message is due
  (∀ q x e, q.wf = true → x = s.core.queue q → s.core.exists? q = true → x.mod.timer = true → x.cfg.modMode = 1 → x.cfg.modTime ≠ 0 →
    s.core.asleep x.cfg.dom = false → e = s.core.vector x.cfg.vec → e.valid = true → e.dom = x.cfg.dom → e.mask = true →
      Does (.moderationTimeout q) s ((s.core.modQueue q fun x => { x with mod := { x.mod with count := 0, timer := false } }).modVector x.cfg.vec fun e => { e with pend := true }))
  ∧ (∀ q x, q.wf = true → x = s.core.queue q → s.core.exists? q = true → x.mod.timer = true → x.cfg.modMode = 1 → x.cfg.modTime ≠ 0 →
      s.core.asleep x.cfg.dom = false →
      Does (.moderationTimeout q) s ((s.core.modQueue q fun x => { x with mod := { x.mod with count := 0, timer := false } }).due x.cfg.vec x.cfg.dom x.mod.last))
  -- the microsecond after a message ends
  ∧ (∀ v c, v < 4096 → s.core.sched.coalesce.filter (fun c => c.v == v) = [c] → c.more = false →
      Does (.messageCoalesceEnd v) s (s.core.modSched fun z => { z with coalesce := z.coalesce.filter fun y => y.v != c.v || y.dom != c.dom }))
  -- sleep
  ∧ (∀ j (w : Word), j < 8 → s.core.Open p (0x0B020 + 4 * j) → (∀ q ∈ s.core.allQueues, (s.core.queue q).mod.held = false) →
      Does (.domSleepWrite p j w) s (((s.core.selected p).setReg (0x0B020 + 4 * j) w.toNat).answered p 0#64))
  ∧ (∀ j (w : Word), j < 8 → s.core.Open p (0x0B020 + 4 * j) → Does (.domSleepWrite p j w) s (((s.core.selected p).sleepWrite j w.toNat).answered p 0#64))
  -- the vector page
  ∧ (∀ e, s.core.Open p 0x0B014 → e = s.core.vector (s.core.regF 0xB000 11 0) →
      ∃ b : Blk, Does (.vecLoad p) s b ∧ b.reg 0xB004 = e.addr % 2 ^ 32 ∧ b.reg 0xB008 = e.addr / 2 ^ 32 ∧ b.reg 0xB00C = e.data
        ∧ b.reg 0xB010 = fld e.dom 0 8 + fld (b1 e.mask) 14 1 + fld (b1 e.valid) 15 1 ∧ b.vec = { s.core.vec with stagedPend := e.pend })
  ∧ (∀ v a c, s.core.Open p 0x0B014 → v = s.core.regF 0xB000 11 0 → a = s.core.reg 0xB004 + 2 ^ 32 * s.core.reg 0xB008 → c = s.core.reg 0xB010 →
      (bit c 15 = true → s.core.rangeOf a = none → Does (.vecStore p) s ({ s.core.selected p with vec := { s.core.vec with refused := true } }.answered p 0#64))
      ∧ (∀ i t, s.core.rangeOf a = some (i, t) → a + 4 ≤ t.base + t.pages * 4096 → (s.core.vector v).pend = false →
          Does (.vecStore p) s ((Blk.modVector { s.core.selected p with vec := { s.core.vec with refused := false } } v fun _ =>
            { addr := a, data := s.core.reg 0xB00C, dom := bits c 7 0, valid := bit c 15, mask := bit c 14, pend := false }).answered p 0#64)))
  -- the return of event records
  ∧ (∀ d size value r, d < 256 → value < 2 ^ 32 → s.core.on 1 = true → s.core.on 2 = true → size = 4 ∨ size = 8 → (s.core.domEntry d).isSome = true →
      (s.core.domain d).ring = some r → bits value 15 0 < 2 ^ r.exp →
      ((posOf value (2 ^ r.exp) + 2 * 2 ^ r.exp - r.rpos) % (2 * 2 ^ r.exp) ≤ (r.wpos + 2 * 2 ^ r.exp - r.rpos) % (2 * 2 ^ r.exp) →
        Does (.eventRingReturn d d size value) s (s.core.modDomain d fun x => { x with ring := some { r with rpos := posOf value (2 ^ r.exp) } }))
      ∧ ((r.wpos + 2 * 2 ^ r.exp - r.rpos) % (2 * 2 ^ r.exp) < (posOf value (2 ^ r.exp) + 2 * 2 ^ r.exp - r.rpos) % (2 * 2 ^ r.exp) →
        Raises (.eventRingReturn d d size value) s s.core.countDrop 0 11))

/-- Tier 2. A mover that fails by cause, heartbeat or watchdog is failed with that cause; if it was in service its cells
are re-homed. A taken-over queue resumes with the count up: with no entry it goes on; with an entry whose mark is not
active it goes on, its FIFO rewound or its writes discarded; with an active mark and an unsafe cause it halts with
0x50, the mover, the cause and the offsets. A context bank that fails the scrub is repaired from the other; both
failing loses the context. A control-plane parity error restarts warm when it is the first in 1 s and pauses the block
critically otherwise (log 16). (R151, R288, R289, R290, R291, R292, R293, R294, R297) -/
def Obligations.FailuresAreContained : Prop := ∀ (s : State), s.Serves →
  (∀ m, m < 18 → (s.core.mover m).state.canFail = true →
      ((s.core.mover m).state = .active ∨ (s.core.mover m).state = .quiescing →
        (∀ c, 1 ≤ c → c ≤ 5 → Does (.movFail m c) s (((s.core.failed m c).rehomeAll m).unStopAll))
        ∧ (s.core.on (moverPd m) = true → Does (.moverHeartbeatTimeout m) s (((s.core.failed m 3).rehomeAll m).unStopAll)
            ∧ Does (.moverWatchdogTimeout m) s (((s.core.failed m 4).rehomeAll m).unStopAll)))
      ∧ ((s.core.mover m).state ≠ .active → (s.core.mover m).state ≠ .quiescing →
        (∀ c, 1 ≤ c → c ≤ 6 → (c = 6 → (s.core.mover m).state = .spare) → Does (.movFail m c) s (s.core.failed m c))
        ∧ (s.core.on (moverPd m) = true → Does (.moverHeartbeatTimeout m) s (s.core.failed m 3) ∧ Does (.moverWatchdogTimeout m) s (s.core.failed m 4))))
  ∧ (∀ q f m k, q.wf = true → s.core.sched.fovers.find? (fun f => f.q == q) = some f → s.core.boundAt q = some (m, k) →
      ((s.core.mover f.mover).flushWait.any fun w => bit (s.core.queue q).run.mark.ports w.1) = false → f.ex = none →
      Does (.failoverResume q) s ((({ (s.core.modSched fun z => { z with fovers := z.fovers.filter fun f => f.q != q }) with
        movp := { s.core.movp with resumes := incr 12 s.core.movp.resumes } } : Blk).traceQ 3 q f.mover).pumpQ q))
  ∧ (∀ q f m k e b, q.wf = true → s.core.sched.fovers.find? (fun f => f.q == q) = some f → s.core.boundAt q = some (m, k) →
      ((s.core.mover f.mover).flushWait.any fun w => bit (s.core.queue q).run.mark.ports w.1) = false → f.ex = some e → e.desc.kind ≠ kAscat →
      b = ({ (s.core.modSched fun z => { z with fovers := z.fovers.filter fun f => f.q != q }) with
        movp := { s.core.movp with resumes := incr 12 s.core.movp.resumes } } : Blk).traceQ 3 q f.mover →
      ((s.core.queue q).run.mark.active = false → e.record = [] →
        Does (.failoverResume q) s ((if e.desc.kind = kFifoOut then b.sfRewind e.desc.fifo else b.sfDiscard e.desc).pumpQ q))
      ∧ (∀ c, (s.core.queue q).run.mark.active = true → (s.core.queue q).run.mark.srcOfs < f.hiSrc → b.unsafeCause (s.core.queue q).run.mark f e = some c →
        Does (.failoverResume q) s (((((b.sfRelease (q, e.pos)).haltWith q (haltReport 0x50 e.pos e.desc.cookie (s.core.queue q).run.mark.srcOfs
          (s.core.queue q).run.mark.dstOfs (infoOf [(0, 4, f.mover + 256 * c), (4, 4, f.hiSrc), (8, 4, f.hiDst)]))).modBinding m k fun y =>
            { y with lbuf := [], plans := [] })).pumpQ q)))
  -- contexts
  ∧ (∀ q t, q.wf = true → t < 2 → ((s.core.queue q).resident true) = true → s.core.banks.aOut = false → s.core.banks.bOut = false →
      Does (.contextScrub q t .badA) s (s.core.repair false) ∧ Does (.contextScrub q t .badB) s (s.core.repair true)
      ∧ Does (.contextScrub q t .badBoth) s (s.core.loseContext q (2 ^ t)).jobsCheck)
  -- a mismatch of the control planes
  ∧ (∀ u c, 1 ≤ u → u ≤ 5 → s.core.on 1 = true → c = s.core.raise 5 9 →
      (c.sched.parityAt = none → Does (.internal u) s (c.modSched fun z => { z with parityAt := some c.now }).toWarm)
      ∧ (∀ t, c.sched.parityAt = some t → t + 1000000000 < c.now → Does (.internal u) s (c.modSched fun z => { z with parityAt := some c.now }).toWarm)
      ∧ (∀ t, c.sched.parityAt = some t → c.now ≤ t + 1000000000 → Does (.internal u) s c.critPauseOn))

/-- Tier 2. A powered port with packets it cannot send is STUCK with its event: its paths and latency records move, it
drains, its packets and armed reads leave it. A port that is lost goes out of service; a port that returns comes up
with no credits and its targets' latency records are invalid; a link that goes down takes its slot or its routes with
it and abandons its reads; a link that comes up or recovers is restored. (R298, R299, R302, R303, R342) -/
def Obligations.PortsAndLinksFail : Prop := ∀ (s : State), s.Serves →
  (∀ p, p < 8 → s.core.portPowered p = true → (s.core.port p).lost = false → (s.core.port p).stuck = false → s.core.regF 0x12334 15 0 ≠ 0 → s.core.holdsPkt p = true →
      Does (.portStuck p) s (((((((s.core.raiseAt 6 (8 + p)).invalidateLat fun _ t => s.core.onPort p t).orderRoutes p).modPort p fun v => { v with stuck := true }).setDrain p).withdraw p fun _ => true).clearArmed p false))
  ∧ (∀ p, p < 8 → s.core.portPowered p = true → (s.core.port p).up = true → Does (.portLost p) s ((s.core.modPort p fun v => { v with up := false }).losePort p false))
  ∧ (∀ p, p < 8 → s.core.portPowered p = false ∨ (s.core.port p).up = false → Does (.portLost p) s (s.core.modPort p fun v => { v with up := false }))
  ∧ (∀ p b, p < 8 → (s.core.port p).up = false → b = (s.core.modPort p fun v =>
        { v with up := true, lost := v.lostByHalf, hdrCr := 0, dataCr := 0, cplHdrCr := 0, cplDataCr := 0, txStarted := false, cplStarted := false, inbWait := [] }).keepPorts s.core →
      Does (.portUp p) s (b.invalidateLat fun _ t => t.egress == p))
  ∧ (∀ n cto b, n < 40 → s.core.links.contains n = true → b = s.core.linkLost n cto →
      (n < 32 → Does (.linkDown n cto) s ((b.sltLinkDown n).dropLinkReads n))
      ∧ (32 ≤ n → Does (.linkDown n cto) s (((b.withdraw (n - 32) fun k => b.overLink n k).clearArmedAt (n - 32) false (b.addrOver n)).dropLinkReads n)))
  ∧ (∀ n b, n < 40 → s.core.links.contains n = false → b = (s.core.linkFound n).keepPorts s.core →
      (n < 32 → Does (.linkUp n) s (b.sltLinkUp n) ∧ (s.core.ctoLinks.contains n = true → Does (.linkCtoRecovery n) s (b.sltLinkUp n)))
      ∧ (32 ≤ n → Does (.linkUp n) s b ∧ (s.core.ctoLinks.contains n = true → Does (.linkCtoRecovery n) s b)))

/-- Tier 2. For every slot with no entry waiting, while REFCLK runs: each listed event in each listed state leads to the
state of Table 13-11, with SLT_PWR_EN as that state drives it, the held mark kept or set, and the slot's event
pending; no other slot, register, queue or cell changes. (R306, R307, R308, R309, Table 13-10, Table 13-11) -/
def Obligations.SlotsFollowTheTable : Prop := ∀ (s : State) (n : Nat) (x : Slot), s.Serves → n < 32 → s.core.clock.refLost = false → x = s.core.slot n →
  s.core.sltWaiting n = [] → s.core.sltHold n ≠ 0 →
  -- presence
  (x.state = .empty → s.core.sltOn n = true → SlotGoes (.slotPresenceSeen n) s n ({ x with seenPresent := true }.entered .debounce))
  ∧ (x.state = .held → x.lostPresence = true → SlotGoes (.slotPresenceSeen n) s n ({ x with seenPresent := true }.entered .debounce))
  ∧ (x.state = .debounce → Does (.slotPresenceSeen n) s (s.core.modSlot n fun x => { x with seenPresent := true, bounce := incr 8 x.bounce }))
  ∧ (x.state = .debounce → SlotGoes (.slotPresenceAccepted n) s n ({ x with prsnt := true, seenPresent := true }.entered .ramp))
  ∧ (x.state ≠ .debounce → Does (.slotPresenceAccepted n) s (s.core.modSlot n fun x => { x with prsnt := true, seenPresent := true }))
  -- absence
  ∧ (∀ y, y = { x with prsnt := false, seenPresent := false, lostPresence := true } →
      (x.state = .debounce → SlotGoes (.slotAbsenceAccepted n) s n (y.entered (if x.hold then .held else .empty)))
      ∧ (x.state = .ready → SlotGoes (.slotAbsenceAccepted n) s n (y.entered .held))
      ∧ (x.state = .failedAtInsertion ∨ x.state = .faulted → SlotGoes (.slotAbsenceAccepted n) s n (y.entered .empty)))
  ∧ (x.state = .held → Does (.slotAbsenceAccepted n) s (s.core.modSlot n fun x => { x with prsnt := false, seenPresent := false, lostPresence := true, pwrEn := false }))
  -- power good and fault
  ∧ (x.state = .ramp → SlotGoes (.slotPgAccepted n) s n ({ x with pg := true, flt := false }.entered .settle))
  ∧ (x.state = .settle → SlotGoes (.slotPgLost n) s n ({ x with pg := false }.entered .failedAtInsertion))
  ∧ (x.state = .ready → SlotGoes (.slotPgLost n) s n ({ x with pg := false }.entered .held))
  ∧ (x.state = .ramp ∨ x.state = .settle → SlotGoes (.slotFaultInput n) s n ({ x with flt := true }.entered .failedAtInsertion))
  ∧ (x.state = .ready → SlotGoes (.slotFaultInput n) s n ({ x with flt := true }.entered .held))
  -- timers
  ∧ (x.state = .ramp → SlotGoes (.slotRampTimeout n) s n (x.entered .failedAtInsertion))
  ∧ (x.state = .settle → s.core.sltLink n = false → SlotGoes (.slotSettleLinkTimeout n) s n (x.entered .faulted)
      ∧ Does (.slotSettleDone n) s (s.core.modSlot n fun x => { x with settled := true }))
  ∧ (x.state = .discharge → x.pwrEn = false → SlotGoes (.slotDischargeDone n) s n ({ x with vsns := false }.entered .off))
  ∧ (x.state ≠ .passDamaged → x.pwrEn = false → SlotGoes (.passDamaged n) s n ({ x with vsns := true }.entered .passDamaged))
  ∧ (x.state = .held → x.hold = true → SlotGoes (.slotHoldExpiry n) s n ({ x with hold := false }.entered (if x.prsnt then .faulted else .empty)))

/-- Tier 2. A keyed write of ON turns an OFF slot on, an EMPTY one off, discharges a READY one and gives up what it holds;
one that asks for what the state already is only stores it, as does any write with REFCLK lost, whose effect waits for
its return; the other fields keep their values. While REFCLK runs, SLT_SVC clears a failed or faulted slot, or a
damaged one without voltage, and expires the hold of a held one only; in any other state, or with REFCLK lost, it
changes nothing (log 29). The end of a token read frees its tag and stores or refuses the token. (R306, R307, R309,
R310, Table 13-11, R65) -/
def Obligations.SlotCommandsFollowTheTable : Prop := ∀ (s : State) (n : Nat) (x : Slot), s.Serves → n < 32 → x = s.core.slot n →
  -- SLT_CFG.ON
  (∀ p on, s.core.Open p (0x05000 + 4 * n) → s.core.Keyed p → s.core.reg (0x05000 + 4 * n) < 2 ^ 32 →
    ∃ v : Nat, bit v 30 = on ∧ bit v 29 = s.core.sltTokenEn n ∧ bits v 23 16 = s.core.regF (0x05000 + 4 * n) 23 16
      ∧ (s.core.clock.refLost = false →
        (x.state = .off → on = true → Does (.sltOnWrite p n on) s ((((s.core.selected p).setReg (0x05000 + 4 * n) v).sltGo n .empty).answered p 0#64))
        ∧ (x.state = .empty → on = false → Does (.sltOnWrite p n on) s ((((s.core.selected p).setReg (0x05000 + 4 * n) v).sltGo n .off).answered p 0#64))
        ∧ (x.state = .ready → on = false →
            Does (.sltOnWrite p n on) s (((((s.core.selected p).setReg (0x05000 + 4 * n) v).sltGo n .discharge).sltHoldZero n).answered p 0#64))
        ∧ (on = true → x.state ≠ .off → Does (.sltOnWrite p n on) s (((s.core.selected p).setReg (0x05000 + 4 * n) v).answered p 0#64))
        ∧ (on = false → x.state ≠ .empty → x.state ≠ .ready → Does (.sltOnWrite p n on) s (((s.core.selected p).setReg (0x05000 + 4 * n) v).answered p 0#64)))
      ∧ (s.core.clock.refLost = true →
          Does (.sltOnWrite p n on) s ((((s.core.selected p).setReg (0x05000 + 4 * n) v).modSlot n fun y => { y with onWritten := true }).answered p 0#64)))
  -- SLT_SVC
  ∧ (∀ p, s.core.Open p 0x05304 → s.core.Keyed p →
      (s.core.clock.refLost = false →
        (x.state = .failedAtInsertion ∨ x.state = .faulted → Does (.sltSvcClear p n) s (((s.core.selected p).sltGo n .empty).answered p 0#64))
        ∧ (x.state = .passDamaged → x.vsns = false → Does (.sltSvcClear p n) s (((s.core.selected p).sltGo n .empty).answered p 0#64))
        ∧ (x.state = .passDamaged → x.vsns = true → Does (.sltSvcClear p n) s ((s.core.selected p).answered p 0#64))
        ∧ (x.state ≠ .failedAtInsertion → x.state ≠ .faulted → x.state ≠ .passDamaged → Does (.sltSvcClear p n) s ((s.core.selected p).answered p 0#64))
        ∧ (x.state = .held → Does (.sltSvcExpire p n) s (((s.core.selected p).sltExpire n).answered p 0#64))
        ∧ (x.state ≠ .held → Does (.sltSvcExpire p n) s ((s.core.selected p).answered p 0#64)))
      ∧ (s.core.clock.refLost = true →
          Does (.sltSvcClear p n) s ((s.core.selected p).answered p 0#64) ∧ Does (.sltSvcExpire p n) s ((s.core.selected p).answered p 0#64)))
  -- the identity token
  ∧ (∀ p t u r, s.core.findRead (isTokenRead n) = some (p, t, u) →
      Does (.slotTokenReadDone n r) s ((s.core.endRead p t (ReadResult.abandons r)).sltTokenEnd n r))

/-- Tier 2. Under the key, with no service running: a test of a mover RETIRED or FAILED begins, its power-down withdraws
the request, or ends at once when it has no power, a power-up of one that is OFF requests it, and a test of a mover in
service ends with error 1. A self-test that fails leaves the mover FAILED with cause 6; one that passes makes it
SPARE, at throttle level T4 RETIRED until the level falls (R324), or ACTIVE in its own place with shadows set up again
and waiting queues bound. A rebuild of a bank that is out begins, of one that serves is refused; its end brings a
copied bank into service. (R328, R329, Table 14-8, R65) -/
def Obligations.ServiceOperationsRun : Prop := ∀ (s : State) (p : MPort), s.Serves →
  -- movers (R328)
  (∀ m, m < 18 → s.core.Open p 0x11214 → s.core.Keyed p → s.core.movp.svc.busy = false →
      (∀ spare, (s.core.mover m).state = .retired ∨ (s.core.mover m).state = .failed →
        Does (.movSvcTest p m spare) s (((((s.core.selected p).setReg 0x11214 (fld (b1 spare) 12 1 + m)).modSvc fun _ => { busy := true, mover := m, op := 1 }).modMover m fun v =>
          { v with roleSpare := spare, t4held := false, state := .test }).answered p 0#64))
      ∧ ((s.core.mover m).state = .retired ∨ (s.core.mover m).state = .failed →
        ((tabGet ({} : PowDom) s.core.power.doms (moverPd m)).ack = true →
          Does (.movSvcPowerDown p m) s ((((((s.core.selected p).setReg 0x11214 m).modSvc fun _ => { busy := true, mover := m, op := 2 }).modMover m fun v =>
            { v with roleSpare := false, t4held := false }).modPd (moverPd m) fun x => { x with req := false, going := true }).answered p 0#64))
        ∧ ((tabGet ({} : PowDom) s.core.power.doms (moverPd m)).ack = false →
          Does (.movSvcPowerDown p m) s ((((((s.core.selected p).setReg 0x11214 m).modSvc fun _ => { busy := false, mover := m, op := 2, done := true }).modMover m fun v =>
            { v with roleSpare := false, t4held := false, state := .off, cause := 0 }).modPd (moverPd m) fun x => { x with req := false, going := false }).answered p 0#64)))
      ∧ (∀ spare, (s.core.mover m).state = .off → bit s.core.img.ident.moverOff m = false →
        Does (.movSvcPowerUp p m spare) s ((((((s.core.selected p).setReg 0x11214 (fld (b1 spare) 12 1 + m)).modSvc fun _ => { busy := true, mover := m, op := 3 }).modMover m fun v =>
          { v with roleSpare := spare, t4held := false }).modPd (moverPd m) fun x => { x with req := true, ack := false, going := false }).answered p 0#64))
      ∧ (∀ spare, (s.core.mover m).state = .active ∨ (s.core.mover m).state = .spare →
        Does (.movSvcTest p m spare) s ((((s.core.selected p).setReg 0x11214 (fld (b1 spare) 12 1 + m)).modSvc fun x => { x with err := 1 }).answered p 0#64)))
  ∧ (∀ m, m < 18 → (s.core.mover m).state = .test → s.core.movp.svc.busy = true → s.core.movp.svc.mover = m →
      (∀ f, f ≠ 0 → Does (.moverSelftestDone m f) s (((s.core.modMover m fun v => { v with tests := incr 8 v.tests }).svcEnd false f).modMover m fun v => { v with state := .failed, cause := 6 }))
      ∧ ((s.core.mover m).roleSpare = true → s.core.sup.applied ≠ 4 →
          Does (.moverSelftestDone m 0) s (((s.core.modMover m fun v => { v with tests := incr 8 v.tests }).svcEnd true 0).modMover m fun v =>
            { v with state := .spare, cause := 0, dataFailAt := none }))
      ∧ ((s.core.mover m).roleSpare = true → s.core.sup.applied = 4 →
          Does (.moverSelftestDone m 0) s (((s.core.modMover m fun v => { v with tests := incr 8 v.tests }).svcEnd true 0).modMover m fun v =>
            { v with state := .retired, cause := 0, dataFailAt := none, t4held := true }))
      ∧ (∀ b, (s.core.mover m).roleSpare = false →
          b = (((s.core.modMover m fun v => { v with tests := incr 8 v.tests }).svcEnd true 0).modMover m fun v => { v with state := .active, cause := 0, dataFailAt := none }) →
          Does (.moverSelftestDone m 0) s ((List.range 64).foldl (fun b _ => b.serveBindList m) (Blk.reShadow { b with standIn := tabSet none b.standIn m none } m))))
  -- the window banks (R329)
  ∧ (∀ bankB, s.core.Open p 0x13008 → s.core.Keyed p → s.core.banks.busy = false →
      ((if bankB then s.core.banks.bOut else s.core.banks.aOut) = true → (if bankB then s.core.banks.aOut else s.core.banks.bOut) = false →
        Does (.ctxwRebuildTest p bankB) s ((((s.core.selected p).setReg 0x13008 (b1 bankB)).modBanks fun x =>
          { x with busy := true, done := false, pass := false, bank := bankB, op := 1, err := 0, progress := 0, mirror := false }).answered p 0#64)
        ∧ Does (.ctxwRebuildCopy p bankB) s ((((s.core.selected p).setReg 0x13008 (b1 bankB)).modBanks fun x =>
          { x with busy := true, done := false, pass := false, bank := bankB, op := 2, err := 0, progress := 0, mirror := true }).answered p 0#64))
      ∧ ((if bankB then s.core.banks.bOut else s.core.banks.aOut) = false →
        Does (.ctxwRebuildTest p bankB) s ((((s.core.selected p).setReg 0x13008 (b1 bankB)).modBanks fun x => { x with err := 1 }).answered p 0#64)
        ∧ Does (.ctxwRebuildCopy p bankB) s ((((s.core.selected p).setReg 0x13008 (b1 bankB)).modBanks fun x => { x with err := 1 }).answered p 0#64)))
  ∧ (s.core.banks.busy = true →
      (∀ pass, s.core.banks.op ≠ 2 → Does (.ctxwRebuildDone pass []) s (s.core.modBanks fun y => { y with busy := false, done := true, pass := pass, progress := 32768, mirror := false }).jobsCheck)
      ∧ (∀ pass, s.core.banks.op = 2 → Does (.ctxwRebuildDone pass []) s (s.core.modBanks fun y =>
          { y with busy := false, done := true, pass := true, progress := 32768, mirror := false
                   aOut := if s.core.banks.bank then y.aOut else false, bOut := if s.core.banks.bank then false else y.bOut }).jobsCheck))

/-- Tier 2. An ask for a domain that must stay is refused, counted, and raises PWR_REFUSED; any other is granted with
retention as asked, the banks, or the FIFOs without retention, out of service. An acknowledge lost while it is
requested is a critical breach. The acknowledge of a power-down marks the domain off or retained: in a power-down of
all domains the next in the order follows; a mover's domain makes the mover OFF and ends the service that asked for
it. (R352, R367, R20, R329) -/
def Obligations.PowerAsksAreAnswered : Prop := ∀ (s : State) (d : Nat) (x : PowDom), s.Serves → 0 < d → d < 26 → x = tabGet {} s.core.power.doms d →
  (∀ r, s.core.on d = true → s.core.mustStay d = true → Raises (.powerAsk d r) s
      { s.core with power := { s.core.power with refused := incr 8 s.core.power.refused, last := d, refusePulse := addOnce d s.core.power.refusePulse } } 0 6)
  ∧ (∀ r, s.core.on d = true → s.core.mustStay d = false → d ≠ 5 → d ≠ 6 → d ≠ 7 → Does (.powerAsk d r) s (s.core.modPd d fun x => { x with req := false, going := true, retAsk := r }))
  ∧ (∀ r, s.core.on d = true → s.core.mustStay d = false → d = 5 ∨ d = 6 →
      Does (.powerAsk d r) s ((s.core.modPd d fun x => { x with req := false, going := true, retAsk := r }).modBanks fun x => if d = 6 then { x with bOut := true } else { x with aOut := true }).jobsCheck)
  ∧ (∀ r, s.core.on d = true → s.core.mustStay d = false → d = 7 →
      Does (.powerAsk d r) s (if r then s.core.modPd d fun x => { x with req := false, going := true, retAsk := r } else (s.core.modPd d fun x => { x with req := false, going := true, retAsk := r }).sfAllOff))
  ∧ (x.req = true → x.ack = true → Does (.powerAckLost d) s ((s.core.modPd d fun x => { x with ack := false }).critBreach d))
  ∧ (x.req = false → x.ack = true →
      (s.core.power.downs.head? = some d → Does (.powerDownAck d) s
        (Blk.downNext 26 (s.core.modPd d fun x => { x with ack := false, going := false, ret := x.retAsk, retAsk := false })).powerStart)
      ∧ (s.core.power.downs.head? ≠ some d → d < 8 ∨ x.retAsk = true → Does (.powerDownAck d) s (s.core.modPd d fun x => { x with ack := false, going := false, ret := x.retAsk, retAsk := false }))
      ∧ (s.core.power.downs.head? ≠ some d → 8 ≤ d → x.retAsk = false → (s.core.mover (d - 8)).state ≠ .failed → s.core.movp.svc.busy = false →
        Does (.powerDownAck d) s ((s.core.modPd d fun x => { x with ack := false, going := false, ret := x.retAsk, retAsk := false }).modMover (d - 8) fun v => { v with state := .off, cause := 0 }))
      ∧ (s.core.power.downs.head? ≠ some d → 8 ≤ d → x.retAsk = false → x.going = true → s.core.movp.svc.busy = true → s.core.movp.svc.op = 2 → s.core.movp.svc.mover = d - 8 →
        Does (.powerDownAck d) s (((s.core.modPd d fun x => { x with ack := false, going := false, ret := x.retAsk, retAsk := false }).modMover (d - 8) fun v =>
          { v with state := .off, cause := 0 }).svcEnd false 0)))

/-- Tier 2. At an epoch's end Borage takes the figures and, where it adapts, applies its rules in order; with REFCLK lost
it does nothing. A keyed write of SUP_FREEZE that changes FREEZE stores it, raises event 10 of group 1 and writes a
decision record with port, old and new; one that does not change it changes nothing. RESTORE puts the base settings
back. Enabling the decision ring: an enabled ring stays; a size code outside 4 to 16 or a bad address leaves it off
with BADCFG; else it opens. A return within the written records moves the return index, any other changes nothing.
(R312, R313, R318, R319, R320, R321, Table 14-7) -/
def Obligations.BorageFollowsItsRules : Prop := ∀ (s : State) (p : MPort), s.Serves → s.core.on 1 = true →
  (∀ c, c = s.core.epochFigures s.core.epochStats → s.core.clock.refLost = false →
      (c.adapts = true → Does (.borageEpoch false) s (c.epochRules s.core s.core.epochStats).epochStart)
      ∧ (∀ f, c.adapts = false ∨ f = true → Does (.borageEpoch f) s c.epochStart))
  ∧ (s.core.clock.refLost = true → ∀ f, Does (.borageEpoch f) s s.core)
  -- SUP_FREEZE
  ∧ (s.core.Open p 0x14004 → s.core.Keyed p →
      (∀ f, bit (s.core.reg 0x14004) 0 = f → Does (.supFreezeWrite p f) s ((s.core.selected p).answered p 0#64))
      ∧ (∀ f, bit (s.core.reg 0x14004) 0 = !f → Does (.supFreezeWrite p f) s
          (((((s.core.selected p).setRegF 0x14004 0 0 (b1 f)).raise 1 10).decision (if f then 7 else 8) 0 (mportCode p) (b1 !f) (b1 f) 0 0).answered p 0#64))
      ∧ Does (.supRestore p) s (((s.core.selected p).restoreBase 2).answered p 0#64))
  -- the decision ring
  ∧ (∀ w : Word, s.core.Open p 0x14014 →
      (bit (s.core.reg 0x14014) 31 = true → Does (.supRingEnable p w) s (((s.core.selected p).setReg 0x14014 (putBits (s.core.reg 0x14014) 31 31 1)).answered p 0#64))
      ∧ (∀ c, c = (s.core.selected p).setReg 0x14014 (ringCfgOf w.toNat false) → bit (s.core.reg 0x14014) 31 = false →
        (c.ringBad = true → Does (.supRingEnable p w) s ((c.modDec fun x => { x with badcfg := true }).answered p 0#64))
        ∧ (c.ringBad = false → Does (.supRingEnable p w) s (c.ringOpen.answered p 0#64))
        ∧ (bits w.toNat 4 0 < 4 ∨ 16 < bits w.toNat 4 0 → c.ringBad = true)))
  ∧ (∀ w : Word, s.core.Open p 0x14018 →
      (bits w.toNat 15 0 < s.core.decSize → (s.core.returned (bits w.toNat 16 0)).1 ≤ (s.core.returned (bits w.toNat 16 0)).2 →
        Does (.supRingRetWrite p w) s (((s.core.selected p).setReg 0x14018 (bits w.toNat 16 0)).answered p 0#64))
      ∧ (s.core.decSize ≤ bits w.toNat 15 0 ∨ (s.core.returned (bits w.toNat 16 0)).2 < (s.core.returned (bits w.toNat 16 0)).1 →
        Does (.supRingRetWrite p w) s ((s.core.selected p).answered p 0#64)))

/-- Tier 2. A code of 0 or 0x3FF marks the input faulty, a stale input is marked stale, each with its event and the top
wish; a good code joins the last three, sets the level by its thresholds, and raises the event exactly when the wish
changes. The level wanted is the highest, the level applied that within the image's limit. An entry held through the
shed time halts with THERMAL_SHED and the level. A monitor's first window sets REF; later windows count breaches; two
LOW windows warn and ask for voltage; two fast CRIT windows are a critical breach. (R322, R323, R324, R325, R326,
Table 14-4, Table 14-5, Table 14-6) -/
def Obligations.MonitorsThrottleTheMovers : Prop := ∀ (s : State), s.Serves → s.core.on 1 = true →
  -- temperature
  (∀ i x, i < 4 → s.core.tempOn i = true → x = s.core.temp i →
      (∀ y c, y = { x with fault := true, stale := false } → c = 0 ∨ c = 0x3FF →
        Does (.tempSample i c) s (((s.core.modTemp i fun _ => y).raise 1 (4 + i)).throttle (0x10 + i) y.code))
      ∧ (∀ y, y = { x with stale := true } → Does (.tempStale i) s (((s.core.modTemp i fun _ => y).raise 1 (4 + i)).throttle (0x10 + i) y.code))
      ∧ (∀ y c, c < 1024 → c ≠ 0 → c ≠ 0x3FF → y = x.sampled (s.core.reg (0x14020 + 4 * i)) c →
        (y.wants = x.wants → Does (.tempSample i c) s ((s.core.modTemp i fun _ => y).throttle (0x10 + i) y.code))
        ∧ (y.wants ≠ x.wants → Does (.tempSample i c) s (((s.core.modTemp i fun _ => y).raise 1 (4 + i)).throttle (0x10 + i) y.code))))
  -- the level applied
  ∧ (∀ (b : Blk) (cause metric : Nat), (b.throttle cause metric).sup.want = b.wantedLevel
      ∧ (b.throttle cause metric).sup.applied = min b.wantedLevel b.img.policy.thrMax)
  -- shedding
  ∧ (∀ q m k x e, q.wf = true → q.isCell = false → 3 ≤ s.core.sup.applied → s.core.regF 0x14044 15 0 ≠ 0 →
      heldAt s.core.sup.applied (s.core.svcOf q) = true → s.core.boundAt q = some (m, k) → s.core.binding m k = some x →
      (x.exec.find? fun e => !e.dead && !e.issuedAll) = some e →
      Does (.thermalShed q) s ((s.core.failEntry m k e.pos 0x70 (infoOf [(0, 1, s.core.sup.applied)])).pump m k))
  -- process monitors
  ∧ (∀ d n x thr, d < 26 → n < 2 ^ 16 → s.core.on d = true → x = s.core.mon d → thr = s.core.reg 0x14040 →
      (x.refSet = false → n ≠ 0 → Does (.roWindow d n) s (s.core.modMon d fun x => { x with
          ref := n, refSet := true, count := n, critAt := bits thr 15 8, critKHz := s.core.clock.mclkKHz, high := 0, low := 0, ok := 0, crit := 0 }))
      ∧ (x.refSet = true → x.high? thr n = false → x.low? thr n = false → Does (.roWindow d n) s ((s.core.modMon d fun x => { x with
          count := n, high := 0, low := 0, ok := min 2 (x.ok + 1), warn := if 1 ≤ x.ok then false else x.warn }).throttle 0x20 n))
      ∧ (x.refSet = true → x.high? thr n = false → x.low? thr n = true → x.low = 1 → Does (.roWindow d n) s (((s.core.modMon d fun x => { x with
          count := n, high := 0, low := 2, ok := 0, warn := true }).monVolt d).throttle 0x20 n))
      ∧ (x.refSet = true → x.crit? n = false → Does (.roFastWindow d n) s (s.core.modMon d fun x => { x with crit := 0 }))
      ∧ (x.refSet = true → x.crit? n = true → x.crit = 0 → Does (.roFastWindow d n) s (s.core.modMon d fun x => { x with crit := 1 }))
      ∧ (x.refSet = true → x.crit? n = true → x.crit = 1 → Does (.roFastWindow d n) s ((s.core.modMon d fun x => { x with crit := 2 }).critBreach d)))

/-- Tier 2. On a live port: a packet without credit is counted in NOCRED; one behind waiting packets, or that must wait,
joins them; one with a bad header or a poisoned write is dropped. A write below 0x200000 is the nudge of its queue,
below 0x200200 of its cell, and so on for admin rings, completion and event returns, virtual lines and the strobe:
exec of the packet is exec of that command. A write elsewhere is dropped, a read outside the tunnel refused. A tunnel
packet that the image admits is the register access of its port's tunnel, any other is dropped, a read with a refusal.
A port that is not live takes nothing. (Which packets wait is log 29.) (R338, R339, R344, R345, R362, Table 15-4) -/
def Obligations.InboundPacketsFollowTheApertures : Prop := ∀ (s : State) (p : Nat) (k : InPkt) (v : Nat), s.Serves → p < 8 → k.wf = true → v = leAt k.data 0 4 →
  (s.core.inbLive p = false → Does (.inboundPacket p k) s s.core)
  ∧ (s.core.inbLive p = true → s.core.noCredit p k = true → Does (.inboundPacket p k) s (s.core.modCnt p fun c => { c with nocred := incr 8 c.nocred }))
  ∧ (s.core.inbLive p = true → s.core.noCredit p k = false →
    ((s.core.port p).inbWait ≠ [] ∨ s.core.inbHeld p k = true → Does (.inboundPacket p k) s (s.core.modPort p fun v => { v with inbWait := v.inbWait ++ [k] }))
    ∧ ((s.core.port p).inbWait = [] → s.core.inbHeld p k = false → k.badHeader = true ∨ (k.isWrite && k.poison) = true →
        Does (.inboundPacket p k) s (s.core.inbDrop p)))
  ∧ (s.core.Takes p k →
    -- doorbells, virtual lines and the strobe message
    (k.isWrite = true → k.relay = false →
      (k.addr < 0x200000 → k.addr % 8 = 0 → Sys2Proof.Machine.exec (.inboundPacket p k) s = Sys2Proof.Machine.exec (.nudge (.dom (k.addr / 8)) k.dom k.len v) s)
      ∧ (0x200000 ≤ k.addr → k.addr < 0x200200 → k.addr % 8 = 0 →
          Sys2Proof.Machine.exec (.inboundPacket p k) s = Sys2Proof.Machine.exec (.nudge (.cell ((k.addr - 0x200000) / 8)) k.dom k.len v) s)
      ∧ (0x200800 ≤ k.addr → k.addr < 0x201000 → k.addr % 8 = 0 →
          Sys2Proof.Machine.exec (.inboundPacket p k) s = Sys2Proof.Machine.exec (.adminNudge ((k.addr - 0x200800) / 8) k.dom k.len v) s)
      ∧ (0x201000 ≤ k.addr → k.addr < 0x201800 → k.addr % 8 = 0 →
          Sys2Proof.Machine.exec (.inboundPacket p k) s = Sys2Proof.Machine.exec (.adminCplReturn ((k.addr - 0x201000) / 8) k.dom k.len v) s)
      ∧ (0x201800 ≤ k.addr → k.addr < 0x202000 → k.addr % 8 = 0 →
          Sys2Proof.Machine.exec (.inboundPacket p k) s = Sys2Proof.Machine.exec (.eventRingReturn ((k.addr - 0x201800) / 8) k.dom k.len v) s)
      ∧ (0x202000 ≤ k.addr → k.addr < 0x206000 → k.addr % 4 = 0 →
          Sys2Proof.Machine.exec (.inboundPacket p k) s = Sys2Proof.Machine.exec (.vrlMessage ((k.addr - 0x202000) / 4) k.dom k.len v) s)
      ∧ (k.addr = 0x206000 → k.len = 4 → Sys2Proof.Machine.exec (.inboundPacket p k) s = Sys2Proof.Machine.exec (.updStrobeMsg (v % 2 ^ 16) 4) s)
      ∧ (0x200200 ≤ k.addr ∧ k.addr < 0x200800 ∨ 0x206004 ≤ k.addr ∧ k.addr < 0x400000 ∨ 0x800000 ≤ k.addr → Does (.inboundPacket p k) s (s.core.inbDrop p)))
    -- a read outside the tunnel
    ∧ (k.isWrite = false → inTunnel k.addr = false → Does (.inboundPacket p k) s ((s.core.inbDrop p).sendCpl p k.tag k.gen k.addr 1 [] .reject))
    -- the tunnel
    ∧ (inTunnel k.addr = true → k.relay = false →
      (s.core.tunnelTakes p k = true → Does (.tunnelAccess p k) s (s.core.access s.slow (tunnelAcc p k)))
      ∧ (s.core.tunnelTakes p k = false → k.isWrite = true → Does (.tunnelAccess p k) s (s.core.inbDrop p))
      ∧ (s.core.tunnelTakes p k = false → k.isWrite = false → Does (.tunnelAccess p k) s ((s.core.inbDrop p).sendCpl p k.tag k.gen k.addr 1 [] .reject))
      ∧ Sys2Proof.Machine.exec (.tunnelAccess p k) s = Sys2Proof.Machine.exec (.inboundPacket p k) s))

/-- Tier 2. A relay write not 64 B and aligned is dropped; one for another instance, an absent queue, another domain or a
queue that takes none is counted in DROPS; any other joins the port's relays with its number. The oldest relay of a
queue that is free is dropped, of a SPILLED queue asks for the refill, of a queue without room waits and is counted
once, else is written at the tail with OWN of its lap and the queue nudged with the new tail. (R363, Table 16-6) -/
def Obligations.RelaysReachTheirRings : Prop := ∀ (s : State) (p : Nat), s.Serves → p < 8 →
  (∀ (k : InPkt) (q : QRef), k.wf = true → s.core.Takes p k → k.isWrite = true → k.relay = true → q = (if k.relayCell then .cell k.relayQid else .dom k.relayQid) →
    (relayPlaced k = false → Does (.relayWrite p k) s (s.core.inbDrop p))
    ∧ (relayPlaced k = true →
      (k.relayInst ≠ s.core.img.ident.inst ∨ s.core.exists? q = false ∨ k.dom ≠ (s.core.queue q).cfg.dom
          ∨ (s.core.queue q).run.phase ∈ [.stopped, .halted, .lost, .destroying] →
        Does (.relayWrite p k) s { s.core with relayDrops := incr 8 s.core.relayDrops })
      ∧ (k.relayInst = s.core.img.ident.inst → s.core.exists? q = true → k.dom = (s.core.queue q).cfg.dom →
          (s.core.queue q).run.phase ∉ [.stopped, .halted, .lost, .destroying] →
        Does (.relayWrite p k) s (Blk.modPort { s.core with relaySeq := s.core.relaySeq + 1 } p fun v =>
          { v with relays := v.relays ++ [⟨q, k.data, s.core.relaySeq, false, false⟩] }))))
  ∧ (s.core.relayTurn p = none → Does (.relayRingWrite p) s s.core)
  ∧ (∀ r x, s.core.relayTurn p = some r → x = s.core.queue r.q →
    (x.run.phase = .free ∨ x.run.phase = .destroying → Does (.relayRingWrite p) s { s.core.dropRelay r.seq with relayDrops := incr 8 s.core.relayDrops })
    ∧ (x.run.phase = .spilled → Does (.relayRingWrite p) s (s.core.wantRefill r.q.num))
    ∧ (x.run.phase ∈ [.idle, .bound, .stopping, .stopped, .halted, .lost] →
      (x.relayRoom = false → r.waited = false → Does (.relayRingWrite p) s (Blk.modPort { s.core with relayWaits := incr 8 s.core.relayWaits } p fun v =>
          { v with relays := markRelay r.seq true false v.relays }))
      ∧ (x.relayRoom = false → r.waited = true → Does (.relayRingWrite p) s s.core)
      ∧ (∀ b, x.relayRoom = true → b = (((s.core.modPort p fun v => { v with relays := markRelay r.seq false true v.relays }).sendWrite (x.entryAddr x.run.rtail)
            (x.relayBytes r.desc) x.cfg.dom 0 (.relayRing r.q) false).modRun r.q fun y => { y with rtail := x.next x.run.rtail }) →
          Does (.relayRingWrite p) s (nudgeB r.q x.cfg.dom 8 (x.next x.run.rtail % x.size + 65536 * lapOf (x.next x.run.rtail) x.size) b))))

/-- Tier 2. With no binding, no entry in the local buffer, two entries in execution or a shadow binding nothing changes.
When the stage may take the head entry, an entry without a window starts, as does a windowed one that goes on from the
queue's pause mark; any other windowed entry waits for its launch, and on a unit in OFF halts its queue with
PHASE_LOST and the unit's number. What a start and a halt do is said of the same operations elsewhere. (R114, R165,
R246, R252) -/
def Obligations.EntriesStart : Prop := ∀ (s : State) (m k : Nat), s.Serves → m < 18 → k < 64 →
  (s.core.binding m k = none → Does (.entryStart m k) s s.core)
  ∧ (∀ x, s.core.binding m k = some x → (x.lbuf = [] ∨ 2 ≤ x.exec.length ∨ x.shadow = true) → Does (.entryStart m k) s s.core)
  ∧ (∀ x l w, s.core.Stages m k x l →
    (l.win = none → Does (.entryStart m k) s ((s.core.startEntry m k l false).pump m k))
    ∧ (l.win = some w → s.core.goesOn x l = true → Does (.entryStart m k) s ((s.core.startEntry m k l false).pump m k))
    ∧ (l.win = some w → s.core.goesOn x l = false → (s.core.pu w.unit).state ≠ .off → Does (.entryStart m k) s s.core)
    ∧ (l.win = some w → s.core.goesOn x l = false → (s.core.pu w.unit).state = .off → Does (.entryStart m k) s
        ((((s.core.modBinding m k fun x => { x with lbuf := x.lbuf.drop 1 }).pushExec m k (newExec l .waiting false 0 0)).failEntry m k l.pos 0x41
          (infoOf [(0, 2, w.unit)])).pump m k)))

/-- Tier 2. A failure of a half that has not failed takes its four ports down and raises SQUARE_A or SQUARE_B; of one that
has changes nothing. A service self-test of a powered half under test maps out exactly the failing locations of its
four ports; failing raises the half's event and leaves the half out; passing clears the failure and returns the ports
that the half had lost, unless the switch holds them down. No other port changes. PU_RESTART stores the bit and sends
a unit that is not OFF to ACQUIRE. (R288, R330, R162, Table 7-3) -/
def Obligations.SquareHalvesAndRestarts : Prop := ∀ (s : State) (h : Nat), s.Serves → h < 2 →
  (s.core.halfFailed.contains h = true → Does (.squareHalfFailure h) s s.core)
  ∧ (s.core.halfFailed.contains h = false →
      Raises (.squareHalfFailure h) s { s.core.halfDown h with halfFailed := addOnce h (s.core.halfDown h).halfFailed } 5 (6 + h))
  ∧ (∀ mapped pass, (∀ y ∈ mapped, y < 16384) →
    (s.core.on (3 + h) = false ∨ s.core.halfTest.contains h = false → Does (.squareHalfSelftestDone h mapped pass) s s.core)
    ∧ (∀ b, s.core.on (3 + h) = true → s.core.halfTest.contains h = true →
        b = ({ s.core with halfTest := s.core.halfTest.filter (· != h) }).halfMapped h mapped →
      (∀ i, i < 4 → (b.port (4 * h + i)).robMapped = (mapped.filter fun y => y / 4096 == i).map (· % 4096)
        ∧ (b.port (4 * h + i)).robSuspect = [] ∧ (b.port (4 * h + i)).lost = (s.core.port (4 * h + i)).lost)
      ∧ (∀ j, (∀ i, i < 4 → j ≠ 4 * h + i) → b.port j = s.core.port j)
      ∧ (pass = false → Raises (.squareHalfSelftestDone h mapped pass) s { b with halfFailed := addOnce h b.halfFailed } 5 (6 + h))
      ∧ (pass = true → ∃ c : Blk, Does (.squareHalfSelftestDone h mapped pass) s c
          ∧ c.halfFailed = b.halfFailed.filter (· != h) ∧ c.halfFails = b.halfFails.filter (fun x => x.1 != h)
          ∧ (∀ i, i < 4 → c.port (4 * h + i) = { b.port (4 * h + i) with
              lost := if (b.port (4 * h + i)).lostByHalf then !(b.port (4 * h + i)).up else (b.port (4 * h + i)).lost, lostByHalf := false })
          ∧ (∀ j, (∀ i, i < 4 → j ≠ 4 * h + i) → c.port j = b.port j))))
  ∧ (∀ (p : MPort) (u : Nat) (b : Blk), u < 16 → (s.core.side p).outstanding.length < 4 → s.core.semDenied p 0x0D = false → s.core.on 1 = true →
      b = (s.core.selected p).toShadow p (0x0D000 + 0x40 * u) (Nat.lor ((s.core.selected p).shadowOld (0x0D000 + 0x40 * u)) 0x1000) 0xF37 →
      ((b.pu u).state = .off → Does (.puRestart p u) s (b.answered p 0#64))
      ∧ ((b.pu u).state ≠ .off → Does (.puRestart p u) s ((b.puAcquire u true).answered p 0#64)))

/-- Tier 2. For every address of the six guarded pages, the word reached is that of all of offset [11:2], in the plain
view. Every aligned access that reaches only words without a register: a read answers zero and changes nothing else; a
write changes nothing but the unlock it uses up (R65), answers normally, and writes one access-log record of kind
UNIMPL (8) at the next place with its address, size, port and time, ACCESS_LOG pending with its message. A page under
a semaphore the port does not hold is refused before (R373). (R57) -/
def Obligations.GuardedPagesWithoutARegister : Prop :=
  (∀ a, a < 0x6000 → decodeAddr a = (a / 4 * 4, 0))
  ∧ ∀ (s : State) (p : MPort) (a be : Nat) (w : BitVec 64) (x : Access), s.Serves → a < 0x6000 → be < 256 →
      (s.core.side p).outstanding.length < 4 →
      (x = ⟨p, a, be, false, 0, none, none⟩ → x.aligned = true → (∀ h ∈ x.halves, regFields h.1 = none) →
        ∀ sl, s.core.access sl x = s.core.answered p 0#64)
      ∧ (x = ⟨p, a, be, true, w.toNat, none, none⟩ → x.aligned = true → (∀ h ∈ x.halves, regFields h.1 = none) →
        s.core.semDenied p (a / 0x1000) = false →
        ∃ b : Blk, Does (.registerWrite ⟨p, none⟩ a be w) s (b.answered p 0#64) ∧ Msg (s.core.selected p) b ∧ b.pends 0 0 = true
          ∧ tabGet alog0 b.mg.alog (s.core.mg.alogPtr % 16)
              = ⟨x.first % 2 ^ 20, 8, mportCode p, x.sizeCode, true, 0, s.core.clock.slowEpoch % 65536⟩)

/-- Tier 2. Register 0x100 + 4 (n / 8) of the identity page holds the code of page n at bits [4 (n mod 8) + 3 : 4 (n mod
8)] for each n below 256, and the codes are 0 to 8, 0xE or 0xF, the last on the guarded pages alone. Every aligned
access to a page with code 0xE, read or write, answers zero with an error, changes nothing but the write's unlock, and
writes one access-log record ACCERR with SUB UNMAPPED (7), ACCESS_LOG pending with its message. An access that is not
aligned is judged UNALIGNED first (R373). (R58) -/
def Obligations.UnallocatedPagesAreRefused : Prop :=
  (∀ (b sl : Blk) (p : MPort) (n : Nat), n < 256 →
      bits (b.regValue sl p (0x100 + 4 * (n / 8))) (4 * (n % 8) + 3) (4 * (n % 8)) = pageCode n
      ∧ (pageCode n = 0xF ↔ n < 6) ∧ (pageCode n ≤ 8 ∨ pageCode n = 0xE ∨ pageCode n = 0xF))
  ∧ ∀ (s : State) (p : MPort) (a be : Nat) (w : BitVec 64) (x : Access), s.Serves → a < 2 ^ 20 → be < 256 → pageCode (a / 0x1000) = 0xE →
      (s.core.side p).outstanding.length < 4 →
      (x = ⟨p, a, be, true, w.toNat, none, none⟩ → x.aligned = true →
        ∃ b : Blk, Does (.registerWrite ⟨p, none⟩ a be w) s b ∧ Msg (s.core.selected p) b ∧ b.pends 0 0 = true
          ∧ (b.side p).outstanding = (s.core.side p).outstanding ++ [⟨0#64, true, none⟩]
          ∧ tabGet alog0 b.mg.alog (s.core.mg.alogPtr % 16) = ⟨x.first % 2 ^ 20, 1, mportCode p, x.sizeCode, true, 7, s.core.clock.slowEpoch % 65536⟩)
      ∧ (x = ⟨p, a, be, false, 0, none, none⟩ → x.aligned = true → ∀ sl,
        Msg s.core (s.core.access sl x) ∧ (s.core.access sl x).pends 0 0 = true
          ∧ ((s.core.access sl x).side p).outstanding = (s.core.side p).outstanding ++ [⟨0#64, true, none⟩]
          ∧ tabGet alog0 (s.core.access sl x).mg.alog (s.core.mg.alogPtr % 16)
              = ⟨x.first % 2 ^ 20, 1, mportCode p, x.sizeCode, false, 7, s.core.clock.slowEpoch % 65536⟩)

/-- Tier 2. When both ports present an access in one cycle, the port that lost the last contest goes first and the other
becomes the loser. Two reads of one free semaphore: the winner acquires it and answers 0, the other answers the
winner's code. A register write with any rival access: the winner's access is carried out before the other's, and
between the two halves of an 8 B access that is not refused the other's access falls. After reset MPA goes first. A
contest is one command with a rival (log 2). (R47, R51, R67) -/
def Obligations.ContestsAlternate : Prop := ∀ (s : State) (p q : MPort) (won : MPort → Blk), s.Serves → q ≠ p →
  won = (fun l => { s.core with mg := { s.core.mg with lastLoser := l } }) →
  -- both ports read a free semaphore
  (∀ (n v : Nat) (r : Rival), n < 64 → v = (if n % 2 = 0 then 1 else 2 ^ 32) → r = ⟨0x01100 + 4 * n, if n % 2 = 0 then 0x0F else 0xF0, false, 0#64⟩ →
    s.core.Open p (0x01100 + 4 * n) → s.core.Open q (0x01100 + 4 * n) → s.core.semOwner n = none →
      (s.core.mg.lastLoser = p → Does (.semAcquire ⟨p, some r⟩ n) s ((((won q).setSem n (some p)).answered p 0#64).answered q (BitVec.ofNat 64 (mportCode p * v))))
      ∧ (s.core.mg.lastLoser = q → Does (.semAcquire ⟨p, some r⟩ n) s ((((won p).setSem n (some q)).answered q 0#64).answered p (BitVec.ofNat 64 (mportCode q * v)))))
  -- any two accesses
  ∧ (∀ (a be : Nat) (w : BitVec 64) (r : Rival) (x y : Access), a < 2 ^ 20 → be < 256 → r.addr < 2 ^ 20 → r.be < 256 →
      x = ⟨p, a, be, true, w.toNat, none, none⟩ → y = ⟨q, r.addr, r.be, r.write, r.wdata.toNat, none, none⟩ →
      (s.core.mg.lastLoser = p →
        ((won q).split x = false → Does (.registerWrite ⟨p, some r⟩ a be w) s (((won q).access s.slow x).access s.slow y))
        ∧ ((won q).split x = true → Does (.registerWrite ⟨p, some r⟩ a be w) s ((won q).accessAround s.slow x fun c => c.access s.slow y)))
      ∧ (s.core.mg.lastLoser = q →
        ((won p).split y = false → Does (.registerWrite ⟨p, some r⟩ a be w) s (((won p).access s.slow y).access s.slow x))
        ∧ ((won p).split y = true → Does (.registerWrite ⟨p, some r⟩ a be w) s ((won p).accessAround s.slow y fun c => c.access s.slow x))))
  ∧ (∀ m, m < 4 → ∃ t : State, Sys2Proof.Machine.exec (.powerOnReset m) s = .next t ∧ t.core.mg.lastLoser = .mpa)
end

