-- ==== Sys2Proof/Laws/Tab.lean ====
section
/-! SUPPORT. The laws of the sparse tables: a read after a write, and every operation keeps the canonical form. -/

namespace Sys2Proof.Machine
open Sys2Proof

variable {α : Type} [DecidableEq α]
set_option linter.unusedSectionVars false

theorem tabOkAbove_mono (d : α) (t : Tab α) (lo lo' : Nat) (h : lo' ≤ lo) (ok : tabOkAbove d lo t = true) :
    tabOkAbove d lo' t = true := by
  cases t with
  | nil => rfl
  | cons e t =>
    simp only [tabOkAbove, Bool.and_eq_true, decide_eq_true_eq] at ok ⊢
    exact ⟨⟨Nat.le_trans h ok.1.1, ok.1.2⟩, ok.2⟩

theorem tabGet_below (d : α) : ∀ (t : Tab α) (lo n : Nat), tabOkAbove d lo t = true → n < lo → tabGet d t n = d
  | [], _, _, _, _ => rfl
  | (k, v) :: t, lo, n, ok, h => by
    simp only [tabOkAbove, Bool.and_eq_true, decide_eq_true_eq] at ok
    have hk : k ≠ n := by omega
    simp only [tabGet, hk, if_false]
    exact tabGet_below d t (k + 1) n ok.2 (by omega)

theorem tabOkAbove_filter (d : α) (p : Nat × α → Bool) :
    ∀ (t : Tab α) (lo : Nat), tabOkAbove d lo t = true → tabOkAbove d lo (t.filter p) = true
  | [], _, _ => rfl
  | (k, v) :: t, lo, ok => by
    simp only [tabOkAbove, Bool.and_eq_true, decide_eq_true_eq] at ok
    have ih := tabOkAbove_filter d p t (k + 1) ok.2
    simp only [List.filter_cons]
    split
    · simp [tabOkAbove, ok.1, ih]
    · exact tabOkAbove_mono d _ (k + 1) lo (by omega) ih

theorem tabOkAbove_tabPut (d : α) (n : Nat) (x : α) (hx : x ≠ d) :
    ∀ (t : Tab α) (lo : Nat), lo ≤ n → (∀ e ∈ t, e.1 ≠ n) → tabOkAbove d lo t = true → tabOkAbove d lo (tabPut t n x) = true
  | [], lo, h, _, _ => by simp [tabPut, tabOkAbove, h, hx]
  | (k, v) :: t, lo, h, hn, ok => by
    simp only [tabOkAbove, Bool.and_eq_true, decide_eq_true_eq] at ok
    have hk : k ≠ n := hn (k, v) (by simp)
    unfold tabPut
    split
    · rename_i hlt
      have : n + 1 ≤ k := hlt
      simp [tabOkAbove, h, hx, this, ok.1.2, ok.2]
    · have := tabOkAbove_tabPut d n x hx t (k + 1) (by omega) (fun e he => hn e (by simp [he])) ok.2
      simp [tabOkAbove, ok.1, this]

/-- A write keeps the canonical form. -/
theorem tabOk_tabSet (d : α) (t : Tab α) (n : Nat) (x : α) (ok : tabOk d t = true) : tabOk d (tabSet d t n x) = true := by
  have hf := tabOkAbove_filter d (fun e => e.1 != n) t 0 ok
  unfold tabSet
  split
  · exact hf
  · rename_i hx
    exact tabOkAbove_tabPut d n x hx _ 0 (Nat.zero_le n) (fun e he => by simp at he; exact he.2) hf

theorem tabOkAbove_tabMap (d : α) (f : Nat → α → α) :
    ∀ (t : Tab α) (lo : Nat), tabOkAbove d lo t = true → tabOkAbove d lo (tabMap d f t) = true
  | [], _, _ => rfl
  | (k, v) :: t, lo, ok => by
    simp only [tabOkAbove, Bool.and_eq_true, decide_eq_true_eq] at ok
    obtain ⟨⟨h1, _⟩, h3⟩ := ok
    have ih := tabOkAbove_tabMap d f t (k + 1) h3
    simp only [tabMap] at ih ⊢
    simp only [List.filterMap_cons]
    split
    · rename_i hk
      exact tabOkAbove_mono d _ (k + 1) lo (by omega) ih
    · rename_i e hk
      split at hk
      · cases hk
      · rename_i hx
        cases hk
        simp [tabOkAbove, h1, hx, ih]

theorem tabOk_tabMap (d : α) (f : Nat → α → α) (t : Tab α) (ok : tabOk d t = true) : tabOk d (tabMap d f t) = true :=
  tabOkAbove_tabMap d f t 0 ok

theorem tabGet_filter_other (d : α) (n m : Nat) (h : n ≠ m) :
    ∀ t : Tab α, tabGet d (t.filter fun e => e.1 != n) m = tabGet d t m
  | [] => rfl
  | (k, v) :: t => by
    have ih := tabGet_filter_other d n m h t
    simp only [List.filter_cons]
    split
    · simp only [tabGet, ih]
    · rename_i hk
      have : k = n := by simpa using hk
      have hk' : k ≠ m := by omega
      simp only [tabGet, hk', if_false, ih]

theorem tabGet_filter_same (d : α) (n : Nat) : ∀ t : Tab α, tabGet d (t.filter fun e => e.1 != n) n = d
  | [] => rfl
  | (k, v) :: t => by
    have ih := tabGet_filter_same d n t
    simp only [List.filter_cons]
    split
    · rename_i hk
      have : k ≠ n := by simpa using hk
      simp only [tabGet, this, if_false, ih]
    · exact ih

theorem tabGet_tabPut_same (d : α) (n : Nat) (x : α) : ∀ t : Tab α, (∀ e ∈ t, e.1 ≠ n) → tabGet d (tabPut t n x) n = x
  | [], _ => by simp [tabPut, tabGet]
  | (k, v) :: t, h => by
    have hk : k ≠ n := h (k, v) (by simp)
    unfold tabPut
    split
    · simp [tabGet]
    · simp only [tabGet, hk, if_false]
      exact tabGet_tabPut_same d n x t (fun e he => h e (by simp [he]))

theorem tabGet_tabPut_other (d : α) (n m : Nat) (x : α) (h : n ≠ m) : ∀ t : Tab α, tabGet d (tabPut t n x) m = tabGet d t m
  | [] => by simp [tabPut, tabGet, h]
  | (k, v) :: t => by
    have ih := tabGet_tabPut_other d n m x h t
    unfold tabPut
    split
    · simp only [tabGet, h, if_false]
    · simp only [tabGet, ih]

/-- A key reads as it was last written. -/
theorem tabGet_tabSet_same (d : α) (t : Tab α) (n : Nat) (x : α) : tabGet d (tabSet d t n x) n = x := by
  unfold tabSet
  split
  · rename_i hx
    rw [tabGet_filter_same, hx]
  · exact tabGet_tabPut_same d n x _ (fun e he => by simp at he; exact he.2)

/-- A write leaves every other key alone, whatever its unlisted value. -/
theorem tabGet_tabSet_at (d d' : α) (t : Tab α) (n m : Nat) (x : α) (h : m ≠ n) :
    tabGet d' (tabSet d t n x) m = tabGet d' t m := by
  have h' : n ≠ m := fun e => h e.symm
  unfold tabSet
  split
  · exact tabGet_filter_other d' n m h' t
  · show tabGet d' (tabPut _ n x) m = _
    rw [tabGet_tabPut_other d' n m x h', tabGet_filter_other d' n m h']

theorem tabGet_tabSet_other (d : α) (t : Tab α) (n m : Nat) (x : α) (h : m ≠ n) :
    tabGet d (tabSet d t n x) m = tabGet d t m := tabGet_tabSet_at d d t n m x h

/-- What holds of every new entry and of the unlisted value holds of every entry after a change of all. -/
theorem tabGet_tabMap_all (d : α) (f : Nat → α → α) (P : α → Prop) (hd : P d) (hf : ∀ k v, P (f k v)) (n : Nat) :
    ∀ t : Tab α, P (tabGet d (tabMap d f t) n)
  | [] => hd
  | (k, v) :: t => by
    have ih := tabGet_tabMap_all d f P hd hf n t
    unfold tabMap at ih ⊢
    simp only [List.filterMap_cons]
    by_cases h : f k v = d
    · simp only [h, if_true]
      exact ih
    · simp only [h, if_false]
      by_cases hk : k = n
      · simp only [tabGet, hk, if_true]
        exact hf n v
      · simp only [tabGet, hk, if_false]
        exact ih

/-- A change of every entry that leaves the unlisted value alone is seen entry by entry. -/
theorem tabGet_tabMap (d : α) (f : Nat → α → α) (n : Nat) (hd : f n d = d) :
    ∀ (t : Tab α) (lo : Nat), tabOkAbove d lo t = true → tabGet d (tabMap d f t) n = f n (tabGet d t n)
  | [], _, _ => hd.symm
  | (k, v) :: t, lo, ok => by
    have ok' := ok
    simp only [tabOkAbove, Bool.and_eq_true, decide_eq_true_eq] at ok
    have ih := tabGet_tabMap d f n hd t (k + 1) ok.2
    unfold tabMap at ih ⊢
    simp only [List.filterMap_cons]
    by_cases hk : k = n
    · subst hk
      have below : tabGet d (tabMap d f t) k = d := tabGet_below d _ (k + 1) k (tabOkAbove_tabMap d f t (k + 1) ok.2) (by omega)
      by_cases h : f k v = d
      · simp only [h, if_true, tabGet]
        exact below
      · simp only [h, if_false, tabGet, if_true]
    · by_cases h : f k v = d
      · simp only [h, if_true, tabGet, hk, if_false]
        exact ih
      · simp only [h, if_false, tabGet, hk]
        exact ih

theorem filter_tabPut (n : Nat) (x : α) : ∀ t : Tab α, (tabPut t n x).filter (fun e => e.1 != n) = t.filter fun e => e.1 != n
  | [] => by simp [tabPut]
  | (k, v) :: t => by
    unfold tabPut
    split
    · simp
    · simp only [List.filter_cons, filter_tabPut n x t]

/-- Only the last value put at a key counts. -/
theorem tabSet_tabSet (d : α) (t : Tab α) (n : Nat) (x y : α) : tabSet d (tabSet d t n x) n y = tabSet d t n y := by
  have h : (tabSet d t n x).filter (fun e => e.1 != n) = t.filter fun e => e.1 != n := by
    unfold tabSet
    dsimp only
    split
    · simp
    · rw [filter_tabPut]; simp
  show (if y = d then (tabSet d t n x).filter (fun e => e.1 != n) else tabPut ((tabSet d t n x).filter fun e => e.1 != n) n y) = _
  rw [h]
  rfl

/-- An entry of a table after a change is an old entry or the new one. -/
theorem tabSet_mem (d : α) (t : Tab α) (n : Nat) (x : α) (e : Nat × α) (h : e ∈ tabSet d t n x) : e ∈ t ∨ e.2 = x := by
  have put : ∀ t : Tab α, e ∈ tabPut t n x → e ∈ t ∨ e.2 = x := by
    intro t
    induction t with
    | nil => intro h; simp [tabPut] at h; exact .inr (by rw [h])
    | cons a t ih =>
      intro h
      unfold tabPut at h
      split at h
      · rcases List.mem_cons.1 h with h | h
        · exact .inr (by rw [h])
        · exact .inl h
      · rcases List.mem_cons.1 h with h | h
        · exact .inl (by rw [h]; exact List.mem_cons_self)
        · rcases ih h with k | k
          · exact .inl (List.mem_cons_of_mem _ k)
          · exact .inr k
  unfold tabSet at h
  dsimp only at h
  split at h
  · exact .inl (List.mem_filter.1 h).1
  · rcases put _ h with k | k
    · exact .inl (List.mem_filter.1 k).1
    · exact .inr k

/-- What a key reads as is the unlisted value or a listed one. -/
theorem tabGet_mem (d : α) (n : Nat) : ∀ t : Tab α, tabGet d t n = d ∨ ∃ e ∈ t, e.2 = tabGet d t n
  | [] => .inl rfl
  | (k, v) :: t => by
    unfold tabGet
    split
    · exact .inr ⟨(k, v), by simp, rfl⟩
    · rcases tabGet_mem d n t with h | ⟨e, he, h⟩
      · exact .inl h
      · exact .inr ⟨e, by simp [he], h⟩

end Sys2Proof.Machine
end

