-- ==== Sys2Proof/Laws/State.lean ====
section
/-! SUPPORT. The laws of the named updates: for each, one lemma for every field and every reader it leaves alone, and
what it reads as afterwards where it writes. -/

namespace Sys2Proof.Machine
open Sys2Proof

/-! ## The state -/

@[simp] theorem State.withCore_core (s : State) (b : Blk) : (s.withCore b).core = b := rfl
@[simp] theorem State.withCore_slow (s : State) (b : Blk) : (s.withCore b).slow = s.slow := rfl
@[simp] theorem State.withCore_testMode (s : State) (b : Blk) : (s.withCore b).testMode = s.testMode := rfl
@[simp] theorem State.withCore_pins (s : State) (b : Blk) : (s.withCore b).pins = b.pins := rfl
@[simp] theorem State.withCore_pending (s : State) (b : Blk) : (s.withCore b).pending = s.pending := rfl

/-! ## Two changes of one unit are one change -/

theorem Blk.modMover_twice (b : Blk) (n : Nat) (f g : Mover → Mover) : (b.modMover n f).modMover n g = b.modMover n fun x => g (f x) := by
  have h : (b.modMover n f).mover n = f (b.mover n) := tabGet_tabSet_same _ _ _ _
  unfold Blk.modMover at h ⊢
  simp only [h, tabSet_tabSet]

theorem Blk.modPort_twice (b : Blk) (n : Nat) (f g : Port → Port) : (b.modPort n f).modPort n g = b.modPort n fun x => g (f x) := by
  have h : (b.modPort n f).port n = f (b.port n) := tabGet_tabSet_same _ _ _ _
  unfold Blk.modPort at h ⊢
  simp only [h, tabSet_tabSet]

theorem Blk.modDomain_twice (b : Blk) (n : Nat) (f g : Domain → Domain) : (b.modDomain n f).modDomain n g = b.modDomain n fun x => g (f x) := by
  have h : (b.modDomain n f).domain n = f (b.domain n) := tabGet_tabSet_same _ _ _ _
  unfold Blk.modDomain at h ⊢
  simp only [h, tabSet_tabSet]

theorem Blk.modPu_twice (b : Blk) (n : Nat) (f g : PhaseUnit → PhaseUnit) : (b.modPu n f).modPu n g = b.modPu n fun x => g (f x) := by
  have h : (b.modPu n f).pu n = f (b.pu n) := tabGet_tabSet_same _ _ _ _
  unfold Blk.modPu at h ⊢
  simp only [h, tabSet_tabSet]

theorem Blk.modLine_twice (b : Blk) (n : Nat) (f g : Line → Line) : (b.modLine n f).modLine n g = b.modLine n fun x => g (f x) := by
  have h : (b.modLine n f).line n = f (b.line n) := tabGet_tabSet_same _ _ _ _
  unfold Blk.modLine at h ⊢
  simp only [h, tabSet_tabSet]

theorem Blk.modVline_twice (b : Blk) (n : Nat) (f g : VLine → VLine) : (b.modVline n f).modVline n g = b.modVline n fun x => g (f x) := by
  have h : (b.modVline n f).vline n = f (b.vline n) := tabGet_tabSet_same _ _ _ _
  unfold Blk.modVline at h ⊢
  simp only [h, tabSet_tabSet]

theorem Blk.modFifo_twice (b : Blk) (n : Nat) (f g : Fifo → Fifo) : (b.modFifo n f).modFifo n g = b.modFifo n fun x => g (f x) := by
  have h : (b.modFifo n f).fifo n = f (b.fifo n) := tabGet_tabSet_same _ _ _ _
  unfold Blk.modFifo at h ⊢
  simp only [h, tabSet_tabSet]

theorem Blk.modSport_twice (b : Blk) (n : Nat) (f g : SPort → SPort) : (b.modSport n f).modSport n g = b.modSport n fun x => g (f x) := by
  have h : (b.modSport n f).sport n = f (b.sport n) := tabGet_tabSet_same _ _ _ _
  unfold Blk.modSport at h ⊢
  simp only [h, tabSet_tabSet]

theorem Blk.modSlot_twice (b : Blk) (n : Nat) (f g : Slot → Slot) : (b.modSlot n f).modSlot n g = b.modSlot n fun x => g (f x) := by
  have h : (b.modSlot n f).slot n = f (b.slot n) := tabGet_tabSet_same _ _ _ _
  unfold Blk.modSlot at h ⊢
  simp only [h, tabSet_tabSet]

theorem Blk.modLat_twice (b : Blk) (n : Nat) (f g : LatRec → LatRec) : (b.modLat n f).modLat n g = b.modLat n fun x => g (f x) := by
  have h : (b.modLat n f).lat n = f (b.lat n) := tabGet_tabSet_same _ _ _ _
  unfold Blk.modLat at h ⊢
  simp only [h, tabSet_tabSet]

theorem Blk.modMover_congr (b : Blk) (n : Nat) (f g : Mover → Mover) (h : f (b.mover n) = g (b.mover n)) : b.modMover n f = b.modMover n g := by
  unfold Blk.modMover; rw [h]

theorem Blk.modPort_congr (b : Blk) (n : Nat) (f g : Port → Port) (h : f (b.port n) = g (b.port n)) : b.modPort n f = b.modPort n g := by
  unfold Blk.modPort; rw [h]

theorem Blk.modDomain_congr (b : Blk) (n : Nat) (f g : Domain → Domain) (h : f (b.domain n) = g (b.domain n)) : b.modDomain n f = b.modDomain n g := by
  unfold Blk.modDomain; rw [h]

theorem Blk.modPu_congr (b : Blk) (n : Nat) (f g : PhaseUnit → PhaseUnit) (h : f (b.pu n) = g (b.pu n)) : b.modPu n f = b.modPu n g := by
  unfold Blk.modPu; rw [h]

theorem Blk.modLine_congr (b : Blk) (n : Nat) (f g : Line → Line) (h : f (b.line n) = g (b.line n)) : b.modLine n f = b.modLine n g := by
  unfold Blk.modLine; rw [h]

theorem Blk.modVline_congr (b : Blk) (n : Nat) (f g : VLine → VLine) (h : f (b.vline n) = g (b.vline n)) : b.modVline n f = b.modVline n g := by
  unfold Blk.modVline; rw [h]

theorem Blk.modFifo_congr (b : Blk) (n : Nat) (f g : Fifo → Fifo) (h : f (b.fifo n) = g (b.fifo n)) : b.modFifo n f = b.modFifo n g := by
  unfold Blk.modFifo; rw [h]

theorem Blk.modSport_congr (b : Blk) (n : Nat) (f g : SPort → SPort) (h : f (b.sport n) = g (b.sport n)) : b.modSport n f = b.modSport n g := by
  unfold Blk.modSport; rw [h]

theorem Blk.modSlot_congr (b : Blk) (n : Nat) (f g : Slot → Slot) (h : f (b.slot n) = g (b.slot n)) : b.modSlot n f = b.modSlot n g := by
  unfold Blk.modSlot; rw [h]

theorem Blk.modLat_congr (b : Blk) (n : Nat) (f g : LatRec → LatRec) (h : f (b.lat n) = g (b.lat n)) : b.modLat n f = b.modLat n g := by
  unfold Blk.modLat; rw [h]

theorem Blk.modQueue_congr (b : Blk) (q : QRef) (f g : Queue → Queue) (h : f (b.queue q) = g (b.queue q)) : b.modQueue q f = b.modQueue q g := by
  unfold Blk.modQueue; rw [h]

theorem Blk.modSched_congr (b : Blk) (f g : Sched → Sched) (h : f b.sched = g b.sched) : b.modSched f = b.modSched g := by
  unfold Blk.modSched; rw [h]

theorem Blk.modSide_twice (b : Blk) (p : MPort) (f g : PortSide → PortSide) : (b.modSide p f).modSide p g = b.modSide p fun x => g (f x) := by
  cases p <;> rfl

theorem Blk.modQueue_twice (b : Blk) (q : QRef) (f g : Queue → Queue) : (b.modQueue q f).modQueue q g = b.modQueue q fun x => g (f x) := by
  have h : (b.modQueue q f).queue q = f (b.queue q) := by cases q <;> exact tabGet_tabSet_same _ _ _ _
  cases q <;> (unfold Blk.modQueue Blk.setQueue at h ⊢; simp only [h, tabSet_tabSet])

/-! ## What an update writes -/

@[simp] theorem Blk.modMover_same (b : Blk) (n : Nat) (f : Mover → Mover) : (b.modMover n f).mover n = f (b.mover n) :=
  tabGet_tabSet_same _ _ _ _
theorem Blk.modMover_other (b : Blk) (n i : Nat) (f : Mover → Mover) (h : i ≠ n) : (b.modMover n f).mover i = b.mover i :=
  tabGet_tabSet_other _ _ _ _ _ h
@[simp] theorem Blk.modPort_same (b : Blk) (n : Nat) (f : Port → Port) : (b.modPort n f).port n = f (b.port n) :=
  tabGet_tabSet_same _ _ _ _
theorem Blk.modPort_other (b : Blk) (n i : Nat) (f : Port → Port) (h : i ≠ n) : (b.modPort n f).port i = b.port i :=
  tabGet_tabSet_other _ _ _ _ _ h
@[simp] theorem Blk.modDomain_same (b : Blk) (n : Nat) (f : Domain → Domain) : (b.modDomain n f).domain n = f (b.domain n) :=
  tabGet_tabSet_same _ _ _ _
theorem Blk.modDomain_other (b : Blk) (n i : Nat) (f : Domain → Domain) (h : i ≠ n) : (b.modDomain n f).domain i = b.domain i :=
  tabGet_tabSet_other _ _ _ _ _ h
@[simp] theorem Blk.modPu_same (b : Blk) (n : Nat) (f : PhaseUnit → PhaseUnit) : (b.modPu n f).pu n = f (b.pu n) :=
  tabGet_tabSet_same _ _ _ _
theorem Blk.modPu_other (b : Blk) (n i : Nat) (f : PhaseUnit → PhaseUnit) (h : i ≠ n) : (b.modPu n f).pu i = b.pu i :=
  tabGet_tabSet_other _ _ _ _ _ h
@[simp] theorem Blk.modLine_same (b : Blk) (n : Nat) (f : Line → Line) : (b.modLine n f).line n = f (b.line n) :=
  tabGet_tabSet_same _ _ _ _
theorem Blk.modLine_other (b : Blk) (n i : Nat) (f : Line → Line) (h : i ≠ n) : (b.modLine n f).line i = b.line i :=
  tabGet_tabSet_other _ _ _ _ _ h
@[simp] theorem Blk.modVline_same (b : Blk) (n : Nat) (f : VLine → VLine) : (b.modVline n f).vline n = f (b.vline n) :=
  tabGet_tabSet_same _ _ _ _
theorem Blk.modVline_other (b : Blk) (n i : Nat) (f : VLine → VLine) (h : i ≠ n) : (b.modVline n f).vline i = b.vline i :=
  tabGet_tabSet_other _ _ _ _ _ h
@[simp] theorem Blk.modFifo_same (b : Blk) (n : Nat) (f : Fifo → Fifo) : (b.modFifo n f).fifo n = f (b.fifo n) :=
  tabGet_tabSet_same _ _ _ _
theorem Blk.modFifo_other (b : Blk) (n i : Nat) (f : Fifo → Fifo) (h : i ≠ n) : (b.modFifo n f).fifo i = b.fifo i :=
  tabGet_tabSet_other _ _ _ _ _ h
@[simp] theorem Blk.modSport_same (b : Blk) (n : Nat) (f : SPort → SPort) : (b.modSport n f).sport n = f (b.sport n) :=
  tabGet_tabSet_same _ _ _ _
theorem Blk.modSport_other (b : Blk) (n i : Nat) (f : SPort → SPort) (h : i ≠ n) : (b.modSport n f).sport i = b.sport i :=
  tabGet_tabSet_other _ _ _ _ _ h
@[simp] theorem Blk.modSlot_same (b : Blk) (n : Nat) (f : Slot → Slot) : (b.modSlot n f).slot n = f (b.slot n) :=
  tabGet_tabSet_same _ _ _ _
theorem Blk.modSlot_other (b : Blk) (n i : Nat) (f : Slot → Slot) (h : i ≠ n) : (b.modSlot n f).slot i = b.slot i :=
  tabGet_tabSet_other _ _ _ _ _ h
@[simp] theorem Blk.modLat_same (b : Blk) (n : Nat) (f : LatRec → LatRec) : (b.modLat n f).lat n = f (b.lat n) :=
  tabGet_tabSet_same _ _ _ _
theorem Blk.modLat_other (b : Blk) (n i : Nat) (f : LatRec → LatRec) (h : i ≠ n) : (b.modLat n f).lat i = b.lat i :=
  tabGet_tabSet_other _ _ _ _ _ h
@[simp] theorem Blk.modVector_same (b : Blk) (n : Nat) (f : Vector4 → Vector4) : (b.modVector n f).vector n = f (b.vector n) :=
  tabGet_tabSet_same _ _ _ _
theorem Blk.modVector_other (b : Blk) (n i : Nat) (f : Vector4 → Vector4) (h : i ≠ n) : (b.modVector n f).vector i = b.vector i :=
  tabGet_tabSet_other _ _ _ _ _ h

@[simp] theorem Blk.modCnt_same (b : Blk) (n : Nat) (f : PortCnt → PortCnt) :
    (b.modCnt n f).port n = { b.port n with cnt := f (b.port n).cnt } := tabGet_tabSet_same _ _ _ _

theorem Blk.modCnt_other (b : Blk) (n i : Nat) (f : PortCnt → PortCnt) (h : i ≠ n) : (b.modCnt n f).port i = b.port i :=
  tabGet_tabSet_other _ _ _ _ _ h

@[simp] theorem Blk.modQueue_same (b : Blk) (q : QRef) (f : Queue → Queue) : (b.modQueue q f).queue q = f (b.queue q) := by
  cases q <;> exact tabGet_tabSet_same _ _ _ _

theorem Blk.modQueue_other (b : Blk) (q r : QRef) (f : Queue → Queue) (h : r ≠ q) : (b.modQueue q f).queue r = b.queue r := by
  cases q <;> cases r <;> first
    | rfl
    | exact tabGet_tabSet_other _ _ _ _ _ (fun e => h (by rw [e]))

@[simp] theorem Blk.modRun_same (b : Blk) (q : QRef) (f : QRun → QRun) :
    (b.modRun q f).queue q = { b.queue q with run := f (b.queue q).run } := Blk.modQueue_same b q _

theorem Blk.modRun_other (b : Blk) (q r : QRef) (f : QRun → QRun) (h : r ≠ q) : (b.modRun q f).queue r = b.queue r :=
  Blk.modQueue_other b q r _ h

@[simp] theorem Blk.setReg_same (b : Blk) (a v : Nat) : (b.setReg a v).reg a = v := tabGet_tabSet_same _ _ _ _

theorem Blk.setReg_other (b : Blk) (a i v : Nat) (h : i ≠ a) : (b.setReg a v).reg i = b.reg i := by
  have e : (b.setReg a v).reg i = tabGet (regDefault i) (tabSet (regDefault a) b.regs a v) i := rfl
  rw [e]; exact tabGet_tabSet_at _ _ _ _ _ _ h

@[simp] theorem Blk.modSide_same (b : Blk) (p : MPort) (f : PortSide → PortSide) : (b.modSide p f).side p = f (b.side p) := by
  cases p <;> rfl

theorem Blk.modSide_other (b : Blk) (p r : MPort) (f : PortSide → PortSide) (h : r ≠ p) : (b.modSide p f).side r = b.side r := by
  cases p <;> cases r <;> first | rfl | exact absurd rfl h

@[simp] theorem Blk.modSched_sched (b : Blk) (f : Sched → Sched) : (b.modSched f).sched = f b.sched := rfl
@[simp] theorem Blk.modSup_sup (b : Blk) (f : Super → Super) : (b.modSup f).sup = f b.sup := rfl
@[simp] theorem Blk.modLdr_ldr (b : Blk) (f : Loader → Loader) : (b.modLdr f).ldr = f b.ldr := rfl
@[simp] theorem Blk.modBanks_banks (b : Blk) (f : Banks → Banks) : (b.modBanks f).banks = f b.banks := rfl

/-! ## What an update leaves alone -/

@[simp] theorem Blk.modQueue_clock (b : Blk) (q : QRef) (f : Queue → Queue) : (b.modQueue q f).clock = b.clock := by cases q <;> rfl
@[simp] theorem Blk.modQueue_power (b : Blk) (q : QRef) (f : Queue → Queue) : (b.modQueue q f).power = b.power := by cases q <;> rfl
@[simp] theorem Blk.modQueue_ldr (b : Blk) (q : QRef) (f : Queue → Queue) : (b.modQueue q f).ldr = b.ldr := by cases q <;> rfl
@[simp] theorem Blk.modQueue_image (b : Blk) (q : QRef) (f : Queue → Queue) : (b.modQueue q f).image = b.image := by cases q <;> rfl
@[simp] theorem Blk.modQueue_regs (b : Blk) (q : QRef) (f : Queue → Queue) : (b.modQueue q f).regs = b.regs := by cases q <;> rfl
@[simp] theorem Blk.modQueue_shadow (b : Blk) (q : QRef) (f : Queue → Queue) : (b.modQueue q f).shadow = b.shadow := by cases q <;> rfl
@[simp] theorem Blk.modQueue_mg (b : Blk) (q : QRef) (f : Queue → Queue) : (b.modQueue q f).mg = b.mg := by cases q <;> rfl
@[simp] theorem Blk.modQueue_upd (b : Blk) (q : QRef) (f : Queue → Queue) : (b.modQueue q f).upd = b.upd := by cases q <;> rfl
@[simp] theorem Blk.modQueue_sched (b : Blk) (q : QRef) (f : Queue → Queue) : (b.modQueue q f).sched = b.sched := by cases q <;> rfl
@[simp] theorem Blk.modQueue_mga (b : Blk) (q : QRef) (f : Queue → Queue) : (b.modQueue q f).mga = b.mga := by cases q <;> rfl
@[simp] theorem Blk.modQueue_mgb (b : Blk) (q : QRef) (f : Queue → Queue) : (b.modQueue q f).mgb = b.mgb := by cases q <;> rfl
@[simp] theorem Blk.modQueue_domains (b : Blk) (q : QRef) (f : Queue → Queue) : (b.modQueue q f).domains = b.domains := by cases q <;> rfl
@[simp] theorem Blk.modQueue_movers (b : Blk) (q : QRef) (f : Queue → Queue) : (b.modQueue q f).movers = b.movers := by cases q <;> rfl
@[simp] theorem Blk.modQueue_movp (b : Blk) (q : QRef) (f : Queue → Queue) : (b.modQueue q f).movp = b.movp := by cases q <;> rfl
@[simp] theorem Blk.modQueue_ports (b : Blk) (q : QRef) (f : Queue → Queue) : (b.modQueue q f).ports = b.ports := by cases q <;> rfl
@[simp] theorem Blk.modQueue_links (b : Blk) (q : QRef) (f : Queue → Queue) : (b.modQueue q f).links = b.links := by cases q <;> rfl
@[simp] theorem Blk.modQueue_ctoLinks (b : Blk) (q : QRef) (f : Queue → Queue) : (b.modQueue q f).ctoLinks = b.ctoLinks := by cases q <;> rfl
@[simp] theorem Blk.modQueue_halfFailed (b : Blk) (q : QRef) (f : Queue → Queue) : (b.modQueue q f).halfFailed = b.halfFailed := by cases q <;> rfl
@[simp] theorem Blk.modQueue_halfTest (b : Blk) (q : QRef) (f : Queue → Queue) : (b.modQueue q f).halfTest = b.halfTest := by cases q <;> rfl
@[simp] theorem Blk.modQueue_halfIdle (b : Blk) (q : QRef) (f : Queue → Queue) : (b.modQueue q f).halfIdle = b.halfIdle := by cases q <;> rfl
@[simp] theorem Blk.modQueue_halfFails (b : Blk) (q : QRef) (f : Queue → Queue) : (b.modQueue q f).halfFails = b.halfFails := by cases q <;> rfl
@[simp] theorem Blk.modQueue_pus (b : Blk) (q : QRef) (f : Queue → Queue) : (b.modQueue q f).pus = b.pus := by cases q <;> rfl
@[simp] theorem Blk.modQueue_lines (b : Blk) (q : QRef) (f : Queue → Queue) : (b.modQueue q f).lines = b.lines := by cases q <;> rfl
@[simp] theorem Blk.modQueue_vlines (b : Blk) (q : QRef) (f : Queue → Queue) : (b.modQueue q f).vlines = b.vlines := by cases q <;> rfl
@[simp] theorem Blk.modQueue_fifos (b : Blk) (q : QRef) (f : Queue → Queue) : (b.modQueue q f).fifos = b.fifos := by cases q <;> rfl
@[simp] theorem Blk.modQueue_sports (b : Blk) (q : QRef) (f : Queue → Queue) : (b.modQueue q f).sports = b.sports := by cases q <;> rfl
@[simp] theorem Blk.modQueue_pool (b : Blk) (q : QRef) (f : Queue → Queue) : (b.modQueue q f).pool = b.pool := by cases q <;> rfl
@[simp] theorem Blk.modQueue_slots (b : Blk) (q : QRef) (f : Queue → Queue) : (b.modQueue q f).slots = b.slots := by cases q <;> rfl
@[simp] theorem Blk.modQueue_lats (b : Blk) (q : QRef) (f : Queue → Queue) : (b.modQueue q f).lats = b.lats := by cases q <;> rfl
@[simp] theorem Blk.modQueue_pfail (b : Blk) (q : QRef) (f : Queue → Queue) : (b.modQueue q f).pfail = b.pfail := by cases q <;> rfl
@[simp] theorem Blk.modQueue_vec (b : Blk) (q : QRef) (f : Queue → Queue) : (b.modQueue q f).vec = b.vec := by cases q <;> rfl
@[simp] theorem Blk.modQueue_sup (b : Blk) (q : QRef) (f : Queue → Queue) : (b.modQueue q f).sup = b.sup := by cases q <;> rfl
@[simp] theorem Blk.modQueue_banks (b : Blk) (q : QRef) (f : Queue → Queue) : (b.modQueue q f).banks = b.banks := by cases q <;> rfl
@[simp] theorem Blk.modQueue_relayDrops (b : Blk) (q : QRef) (f : Queue → Queue) : (b.modQueue q f).relayDrops = b.relayDrops := by cases q <;> rfl
@[simp] theorem Blk.modQueue_relayWaits (b : Blk) (q : QRef) (f : Queue → Queue) : (b.modQueue q f).relayWaits = b.relayWaits := by cases q <;> rfl
@[simp] theorem Blk.modQueue_rerouted (b : Blk) (q : QRef) (f : Queue → Queue) : (b.modQueue q f).rerouted = b.rerouted := by cases q <;> rfl
@[simp] theorem Blk.modQueue_trace (b : Blk) (q : QRef) (f : Queue → Queue) : (b.modQueue q f).trace = b.trace := by cases q <;> rfl
@[simp] theorem Blk.modQueue_order (b : Blk) (q : QRef) (f : Queue → Queue) : (b.modQueue q f).order = b.order := by cases q <;> rfl
@[simp] theorem Blk.modQueue_relaySeq (b : Blk) (q : QRef) (f : Queue → Queue) : (b.modQueue q f).relaySeq = b.relaySeq := by cases q <;> rfl
@[simp] theorem Blk.modQueue_freeNo (b : Blk) (q : QRef) (f : Queue → Queue) : (b.modQueue q f).freeNo = b.freeNo := by cases q <;> rfl
@[simp] theorem Blk.modQueue_get_reg (b : Blk) (q : QRef) (f : Queue → Queue) (z : Nat) : (b.modQueue q f).reg z = b.reg z := by cases q <;> rfl
@[simp] theorem Blk.modQueue_get_on (b : Blk) (q : QRef) (f : Queue → Queue) (z : Nat) : (b.modQueue q f).on z = b.on z := by cases q <;> rfl
@[simp] theorem Blk.modQueue_get_mover (b : Blk) (q : QRef) (f : Queue → Queue) (i : Nat) : (b.modQueue q f).mover i = b.mover i := by cases q <;> rfl
@[simp] theorem Blk.modQueue_get_port (b : Blk) (q : QRef) (f : Queue → Queue) (i : Nat) : (b.modQueue q f).port i = b.port i := by cases q <;> rfl
@[simp] theorem Blk.modQueue_get_domain (b : Blk) (q : QRef) (f : Queue → Queue) (i : Nat) : (b.modQueue q f).domain i = b.domain i := by cases q <;> rfl
@[simp] theorem Blk.modQueue_get_pu (b : Blk) (q : QRef) (f : Queue → Queue) (i : Nat) : (b.modQueue q f).pu i = b.pu i := by cases q <;> rfl
@[simp] theorem Blk.modQueue_get_line (b : Blk) (q : QRef) (f : Queue → Queue) (i : Nat) : (b.modQueue q f).line i = b.line i := by cases q <;> rfl
@[simp] theorem Blk.modQueue_get_fifo (b : Blk) (q : QRef) (f : Queue → Queue) (i : Nat) : (b.modQueue q f).fifo i = b.fifo i := by cases q <;> rfl
@[simp] theorem Blk.modQueue_get_sport (b : Blk) (q : QRef) (f : Queue → Queue) (i : Nat) : (b.modQueue q f).sport i = b.sport i := by cases q <;> rfl
@[simp] theorem Blk.modQueue_get_slot (b : Blk) (q : QRef) (f : Queue → Queue) (i : Nat) : (b.modQueue q f).slot i = b.slot i := by cases q <;> rfl
@[simp] theorem Blk.modQueue_get_lat (b : Blk) (q : QRef) (f : Queue → Queue) (i : Nat) : (b.modQueue q f).lat i = b.lat i := by cases q <;> rfl
@[simp] theorem Blk.modQueue_get_vline (b : Blk) (q : QRef) (f : Queue → Queue) (i : Nat) : (b.modQueue q f).vline i = b.vline i := by cases q <;> rfl
@[simp] theorem Blk.modQueue_get_img (b : Blk) (q : QRef) (f : Queue → Queue)  : (b.modQueue q f).img = b.img := by cases q <;> rfl
@[simp] theorem Blk.modQueue_get_inSafe (b : Blk) (q : QRef) (f : Queue → Queue)  : (b.modQueue q f).inSafe = b.inSafe := by cases q <;> rfl
@[simp] theorem Blk.modQueue_get_ready (b : Blk) (q : QRef) (f : Queue → Queue)  : (b.modQueue q f).ready = b.ready := by cases q <;> rfl
@[simp] theorem Blk.modRun_clock (b : Blk) (q : QRef) (f : QRun → QRun) : (b.modRun q f).clock = b.clock := by cases q <;> rfl
@[simp] theorem Blk.modRun_power (b : Blk) (q : QRef) (f : QRun → QRun) : (b.modRun q f).power = b.power := by cases q <;> rfl
@[simp] theorem Blk.modRun_ldr (b : Blk) (q : QRef) (f : QRun → QRun) : (b.modRun q f).ldr = b.ldr := by cases q <;> rfl
@[simp] theorem Blk.modRun_image (b : Blk) (q : QRef) (f : QRun → QRun) : (b.modRun q f).image = b.image := by cases q <;> rfl
@[simp] theorem Blk.modRun_regs (b : Blk) (q : QRef) (f : QRun → QRun) : (b.modRun q f).regs = b.regs := by cases q <;> rfl
@[simp] theorem Blk.modRun_shadow (b : Blk) (q : QRef) (f : QRun → QRun) : (b.modRun q f).shadow = b.shadow := by cases q <;> rfl
@[simp] theorem Blk.modRun_mg (b : Blk) (q : QRef) (f : QRun → QRun) : (b.modRun q f).mg = b.mg := by cases q <;> rfl
@[simp] theorem Blk.modRun_upd (b : Blk) (q : QRef) (f : QRun → QRun) : (b.modRun q f).upd = b.upd := by cases q <;> rfl
@[simp] theorem Blk.modRun_sched (b : Blk) (q : QRef) (f : QRun → QRun) : (b.modRun q f).sched = b.sched := by cases q <;> rfl
@[simp] theorem Blk.modRun_mga (b : Blk) (q : QRef) (f : QRun → QRun) : (b.modRun q f).mga = b.mga := by cases q <;> rfl
@[simp] theorem Blk.modRun_mgb (b : Blk) (q : QRef) (f : QRun → QRun) : (b.modRun q f).mgb = b.mgb := by cases q <;> rfl
@[simp] theorem Blk.modRun_domains (b : Blk) (q : QRef) (f : QRun → QRun) : (b.modRun q f).domains = b.domains := by cases q <;> rfl
@[simp] theorem Blk.modRun_movers (b : Blk) (q : QRef) (f : QRun → QRun) : (b.modRun q f).movers = b.movers := by cases q <;> rfl
@[simp] theorem Blk.modRun_movp (b : Blk) (q : QRef) (f : QRun → QRun) : (b.modRun q f).movp = b.movp := by cases q <;> rfl
@[simp] theorem Blk.modRun_ports (b : Blk) (q : QRef) (f : QRun → QRun) : (b.modRun q f).ports = b.ports := by cases q <;> rfl
@[simp] theorem Blk.modRun_links (b : Blk) (q : QRef) (f : QRun → QRun) : (b.modRun q f).links = b.links := by cases q <;> rfl
@[simp] theorem Blk.modRun_ctoLinks (b : Blk) (q : QRef) (f : QRun → QRun) : (b.modRun q f).ctoLinks = b.ctoLinks := by cases q <;> rfl
@[simp] theorem Blk.modRun_halfFailed (b : Blk) (q : QRef) (f : QRun → QRun) : (b.modRun q f).halfFailed = b.halfFailed := by cases q <;> rfl
@[simp] theorem Blk.modRun_halfTest (b : Blk) (q : QRef) (f : QRun → QRun) : (b.modRun q f).halfTest = b.halfTest := by cases q <;> rfl
@[simp] theorem Blk.modRun_halfIdle (b : Blk) (q : QRef) (f : QRun → QRun) : (b.modRun q f).halfIdle = b.halfIdle := by cases q <;> rfl
@[simp] theorem Blk.modRun_halfFails (b : Blk) (q : QRef) (f : QRun → QRun) : (b.modRun q f).halfFails = b.halfFails := by cases q <;> rfl
@[simp] theorem Blk.modRun_pus (b : Blk) (q : QRef) (f : QRun → QRun) : (b.modRun q f).pus = b.pus := by cases q <;> rfl
@[simp] theorem Blk.modRun_lines (b : Blk) (q : QRef) (f : QRun → QRun) : (b.modRun q f).lines = b.lines := by cases q <;> rfl
@[simp] theorem Blk.modRun_vlines (b : Blk) (q : QRef) (f : QRun → QRun) : (b.modRun q f).vlines = b.vlines := by cases q <;> rfl
@[simp] theorem Blk.modRun_fifos (b : Blk) (q : QRef) (f : QRun → QRun) : (b.modRun q f).fifos = b.fifos := by cases q <;> rfl
@[simp] theorem Blk.modRun_sports (b : Blk) (q : QRef) (f : QRun → QRun) : (b.modRun q f).sports = b.sports := by cases q <;> rfl
@[simp] theorem Blk.modRun_pool (b : Blk) (q : QRef) (f : QRun → QRun) : (b.modRun q f).pool = b.pool := by cases q <;> rfl
@[simp] theorem Blk.modRun_slots (b : Blk) (q : QRef) (f : QRun → QRun) : (b.modRun q f).slots = b.slots := by cases q <;> rfl
@[simp] theorem Blk.modRun_lats (b : Blk) (q : QRef) (f : QRun → QRun) : (b.modRun q f).lats = b.lats := by cases q <;> rfl
@[simp] theorem Blk.modRun_pfail (b : Blk) (q : QRef) (f : QRun → QRun) : (b.modRun q f).pfail = b.pfail := by cases q <;> rfl
@[simp] theorem Blk.modRun_vec (b : Blk) (q : QRef) (f : QRun → QRun) : (b.modRun q f).vec = b.vec := by cases q <;> rfl
@[simp] theorem Blk.modRun_sup (b : Blk) (q : QRef) (f : QRun → QRun) : (b.modRun q f).sup = b.sup := by cases q <;> rfl
@[simp] theorem Blk.modRun_banks (b : Blk) (q : QRef) (f : QRun → QRun) : (b.modRun q f).banks = b.banks := by cases q <;> rfl
@[simp] theorem Blk.modRun_relayDrops (b : Blk) (q : QRef) (f : QRun → QRun) : (b.modRun q f).relayDrops = b.relayDrops := by cases q <;> rfl
@[simp] theorem Blk.modRun_relayWaits (b : Blk) (q : QRef) (f : QRun → QRun) : (b.modRun q f).relayWaits = b.relayWaits := by cases q <;> rfl
@[simp] theorem Blk.modRun_rerouted (b : Blk) (q : QRef) (f : QRun → QRun) : (b.modRun q f).rerouted = b.rerouted := by cases q <;> rfl
@[simp] theorem Blk.modRun_trace (b : Blk) (q : QRef) (f : QRun → QRun) : (b.modRun q f).trace = b.trace := by cases q <;> rfl
@[simp] theorem Blk.modRun_order (b : Blk) (q : QRef) (f : QRun → QRun) : (b.modRun q f).order = b.order := by cases q <;> rfl
@[simp] theorem Blk.modRun_relaySeq (b : Blk) (q : QRef) (f : QRun → QRun) : (b.modRun q f).relaySeq = b.relaySeq := by cases q <;> rfl
@[simp] theorem Blk.modRun_freeNo (b : Blk) (q : QRef) (f : QRun → QRun) : (b.modRun q f).freeNo = b.freeNo := by cases q <;> rfl
@[simp] theorem Blk.modRun_get_reg (b : Blk) (q : QRef) (f : QRun → QRun) (z : Nat) : (b.modRun q f).reg z = b.reg z := by cases q <;> rfl
@[simp] theorem Blk.modRun_get_on (b : Blk) (q : QRef) (f : QRun → QRun) (z : Nat) : (b.modRun q f).on z = b.on z := by cases q <;> rfl
@[simp] theorem Blk.modRun_get_mover (b : Blk) (q : QRef) (f : QRun → QRun) (i : Nat) : (b.modRun q f).mover i = b.mover i := by cases q <;> rfl
@[simp] theorem Blk.modRun_get_port (b : Blk) (q : QRef) (f : QRun → QRun) (i : Nat) : (b.modRun q f).port i = b.port i := by cases q <;> rfl
@[simp] theorem Blk.modRun_get_domain (b : Blk) (q : QRef) (f : QRun → QRun) (i : Nat) : (b.modRun q f).domain i = b.domain i := by cases q <;> rfl
@[simp] theorem Blk.modRun_get_pu (b : Blk) (q : QRef) (f : QRun → QRun) (i : Nat) : (b.modRun q f).pu i = b.pu i := by cases q <;> rfl
@[simp] theorem Blk.modRun_get_line (b : Blk) (q : QRef) (f : QRun → QRun) (i : Nat) : (b.modRun q f).line i = b.line i := by cases q <;> rfl
@[simp] theorem Blk.modRun_get_fifo (b : Blk) (q : QRef) (f : QRun → QRun) (i : Nat) : (b.modRun q f).fifo i = b.fifo i := by cases q <;> rfl
@[simp] theorem Blk.modRun_get_sport (b : Blk) (q : QRef) (f : QRun → QRun) (i : Nat) : (b.modRun q f).sport i = b.sport i := by cases q <;> rfl
@[simp] theorem Blk.modRun_get_slot (b : Blk) (q : QRef) (f : QRun → QRun) (i : Nat) : (b.modRun q f).slot i = b.slot i := by cases q <;> rfl
@[simp] theorem Blk.modRun_get_lat (b : Blk) (q : QRef) (f : QRun → QRun) (i : Nat) : (b.modRun q f).lat i = b.lat i := by cases q <;> rfl
@[simp] theorem Blk.modRun_get_vline (b : Blk) (q : QRef) (f : QRun → QRun) (i : Nat) : (b.modRun q f).vline i = b.vline i := by cases q <;> rfl
@[simp] theorem Blk.modRun_get_img (b : Blk) (q : QRef) (f : QRun → QRun)  : (b.modRun q f).img = b.img := by cases q <;> rfl
@[simp] theorem Blk.modRun_get_inSafe (b : Blk) (q : QRef) (f : QRun → QRun)  : (b.modRun q f).inSafe = b.inSafe := by cases q <;> rfl
@[simp] theorem Blk.modRun_get_ready (b : Blk) (q : QRef) (f : QRun → QRun)  : (b.modRun q f).ready = b.ready := by cases q <;> rfl
@[simp] theorem Blk.modMover_clock (b : Blk) (m : Nat) (f : Mover → Mover) : (b.modMover m f).clock = b.clock := rfl
@[simp] theorem Blk.modMover_power (b : Blk) (m : Nat) (f : Mover → Mover) : (b.modMover m f).power = b.power := rfl
@[simp] theorem Blk.modMover_ldr (b : Blk) (m : Nat) (f : Mover → Mover) : (b.modMover m f).ldr = b.ldr := rfl
@[simp] theorem Blk.modMover_image (b : Blk) (m : Nat) (f : Mover → Mover) : (b.modMover m f).image = b.image := rfl
@[simp] theorem Blk.modMover_regs (b : Blk) (m : Nat) (f : Mover → Mover) : (b.modMover m f).regs = b.regs := rfl
@[simp] theorem Blk.modMover_shadow (b : Blk) (m : Nat) (f : Mover → Mover) : (b.modMover m f).shadow = b.shadow := rfl
@[simp] theorem Blk.modMover_mg (b : Blk) (m : Nat) (f : Mover → Mover) : (b.modMover m f).mg = b.mg := rfl
@[simp] theorem Blk.modMover_upd (b : Blk) (m : Nat) (f : Mover → Mover) : (b.modMover m f).upd = b.upd := rfl
@[simp] theorem Blk.modMover_sched (b : Blk) (m : Nat) (f : Mover → Mover) : (b.modMover m f).sched = b.sched := rfl
@[simp] theorem Blk.modMover_mga (b : Blk) (m : Nat) (f : Mover → Mover) : (b.modMover m f).mga = b.mga := rfl
@[simp] theorem Blk.modMover_mgb (b : Blk) (m : Nat) (f : Mover → Mover) : (b.modMover m f).mgb = b.mgb := rfl
@[simp] theorem Blk.modMover_domains (b : Blk) (m : Nat) (f : Mover → Mover) : (b.modMover m f).domains = b.domains := rfl
@[simp] theorem Blk.modMover_queues (b : Blk) (m : Nat) (f : Mover → Mover) : (b.modMover m f).queues = b.queues := rfl
@[simp] theorem Blk.modMover_cells (b : Blk) (m : Nat) (f : Mover → Mover) : (b.modMover m f).cells = b.cells := rfl
@[simp] theorem Blk.modMover_movp (b : Blk) (m : Nat) (f : Mover → Mover) : (b.modMover m f).movp = b.movp := rfl
@[simp] theorem Blk.modMover_ports (b : Blk) (m : Nat) (f : Mover → Mover) : (b.modMover m f).ports = b.ports := rfl
@[simp] theorem Blk.modMover_links (b : Blk) (m : Nat) (f : Mover → Mover) : (b.modMover m f).links = b.links := rfl
@[simp] theorem Blk.modMover_ctoLinks (b : Blk) (m : Nat) (f : Mover → Mover) : (b.modMover m f).ctoLinks = b.ctoLinks := rfl
@[simp] theorem Blk.modMover_halfFailed (b : Blk) (m : Nat) (f : Mover → Mover) : (b.modMover m f).halfFailed = b.halfFailed := rfl
@[simp] theorem Blk.modMover_halfTest (b : Blk) (m : Nat) (f : Mover → Mover) : (b.modMover m f).halfTest = b.halfTest := rfl
@[simp] theorem Blk.modMover_inShadow (b : Blk) (m : Nat) (f : Mover → Mover) : (b.modMover m f).inShadow = b.inShadow := rfl
@[simp] theorem Blk.modMover_activeSet (b : Blk) (m : Nat) (f : Mover → Mover) : (b.modMover m f).activeSet = b.activeSet := rfl
@[simp] theorem Blk.modMover_standIn (b : Blk) (m : Nat) (f : Mover → Mover) : (b.modMover m f).standIn = b.standIn := rfl
@[simp] theorem Blk.modMover_halfIdle (b : Blk) (m : Nat) (f : Mover → Mover) : (b.modMover m f).halfIdle = b.halfIdle := rfl
@[simp] theorem Blk.modMover_halfFails (b : Blk) (m : Nat) (f : Mover → Mover) : (b.modMover m f).halfFails = b.halfFails := rfl
@[simp] theorem Blk.modMover_pus (b : Blk) (m : Nat) (f : Mover → Mover) : (b.modMover m f).pus = b.pus := rfl
@[simp] theorem Blk.modMover_lines (b : Blk) (m : Nat) (f : Mover → Mover) : (b.modMover m f).lines = b.lines := rfl
@[simp] theorem Blk.modMover_vlines (b : Blk) (m : Nat) (f : Mover → Mover) : (b.modMover m f).vlines = b.vlines := rfl
@[simp] theorem Blk.modMover_fifos (b : Blk) (m : Nat) (f : Mover → Mover) : (b.modMover m f).fifos = b.fifos := rfl
@[simp] theorem Blk.modMover_sports (b : Blk) (m : Nat) (f : Mover → Mover) : (b.modMover m f).sports = b.sports := rfl
@[simp] theorem Blk.modMover_pool (b : Blk) (m : Nat) (f : Mover → Mover) : (b.modMover m f).pool = b.pool := rfl
@[simp] theorem Blk.modMover_slots (b : Blk) (m : Nat) (f : Mover → Mover) : (b.modMover m f).slots = b.slots := rfl
@[simp] theorem Blk.modMover_lats (b : Blk) (m : Nat) (f : Mover → Mover) : (b.modMover m f).lats = b.lats := rfl
@[simp] theorem Blk.modMover_pfail (b : Blk) (m : Nat) (f : Mover → Mover) : (b.modMover m f).pfail = b.pfail := rfl
@[simp] theorem Blk.modMover_vec (b : Blk) (m : Nat) (f : Mover → Mover) : (b.modMover m f).vec = b.vec := rfl
@[simp] theorem Blk.modMover_sup (b : Blk) (m : Nat) (f : Mover → Mover) : (b.modMover m f).sup = b.sup := rfl
@[simp] theorem Blk.modMover_banks (b : Blk) (m : Nat) (f : Mover → Mover) : (b.modMover m f).banks = b.banks := rfl
@[simp] theorem Blk.modMover_relayDrops (b : Blk) (m : Nat) (f : Mover → Mover) : (b.modMover m f).relayDrops = b.relayDrops := rfl
@[simp] theorem Blk.modMover_relayWaits (b : Blk) (m : Nat) (f : Mover → Mover) : (b.modMover m f).relayWaits = b.relayWaits := rfl
@[simp] theorem Blk.modMover_rerouted (b : Blk) (m : Nat) (f : Mover → Mover) : (b.modMover m f).rerouted = b.rerouted := rfl
@[simp] theorem Blk.modMover_trace (b : Blk) (m : Nat) (f : Mover → Mover) : (b.modMover m f).trace = b.trace := rfl
@[simp] theorem Blk.modMover_order (b : Blk) (m : Nat) (f : Mover → Mover) : (b.modMover m f).order = b.order := rfl
@[simp] theorem Blk.modMover_relaySeq (b : Blk) (m : Nat) (f : Mover → Mover) : (b.modMover m f).relaySeq = b.relaySeq := rfl
@[simp] theorem Blk.modMover_freeNo (b : Blk) (m : Nat) (f : Mover → Mover) : (b.modMover m f).freeNo = b.freeNo := rfl
@[simp] theorem Blk.modMover_get_reg (b : Blk) (m : Nat) (f : Mover → Mover) (z : Nat) : (b.modMover m f).reg z = b.reg z := rfl
@[simp] theorem Blk.modMover_get_on (b : Blk) (m : Nat) (f : Mover → Mover) (z : Nat) : (b.modMover m f).on z = b.on z := rfl
@[simp] theorem Blk.modMover_get_queue (b : Blk) (m : Nat) (f : Mover → Mover) (r : QRef) : (b.modMover m f).queue r = b.queue r := rfl
@[simp] theorem Blk.modMover_get_port (b : Blk) (m : Nat) (f : Mover → Mover) (i : Nat) : (b.modMover m f).port i = b.port i := rfl
@[simp] theorem Blk.modMover_get_domain (b : Blk) (m : Nat) (f : Mover → Mover) (i : Nat) : (b.modMover m f).domain i = b.domain i := rfl
@[simp] theorem Blk.modMover_get_pu (b : Blk) (m : Nat) (f : Mover → Mover) (i : Nat) : (b.modMover m f).pu i = b.pu i := rfl
@[simp] theorem Blk.modMover_get_line (b : Blk) (m : Nat) (f : Mover → Mover) (i : Nat) : (b.modMover m f).line i = b.line i := rfl
@[simp] theorem Blk.modMover_get_fifo (b : Blk) (m : Nat) (f : Mover → Mover) (i : Nat) : (b.modMover m f).fifo i = b.fifo i := rfl
@[simp] theorem Blk.modMover_get_sport (b : Blk) (m : Nat) (f : Mover → Mover) (i : Nat) : (b.modMover m f).sport i = b.sport i := rfl
@[simp] theorem Blk.modMover_get_slot (b : Blk) (m : Nat) (f : Mover → Mover) (i : Nat) : (b.modMover m f).slot i = b.slot i := rfl
@[simp] theorem Blk.modMover_get_lat (b : Blk) (m : Nat) (f : Mover → Mover) (i : Nat) : (b.modMover m f).lat i = b.lat i := rfl
@[simp] theorem Blk.modMover_get_vline (b : Blk) (m : Nat) (f : Mover → Mover) (i : Nat) : (b.modMover m f).vline i = b.vline i := rfl
@[simp] theorem Blk.modMover_get_img (b : Blk) (m : Nat) (f : Mover → Mover)  : (b.modMover m f).img = b.img := rfl
@[simp] theorem Blk.modMover_get_inSafe (b : Blk) (m : Nat) (f : Mover → Mover)  : (b.modMover m f).inSafe = b.inSafe := rfl
@[simp] theorem Blk.modMover_get_ready (b : Blk) (m : Nat) (f : Mover → Mover)  : (b.modMover m f).ready = b.ready := rfl
@[simp] theorem Blk.setBinding_clock (b : Blk) (m k : Nat) (x : Option Binding) : (b.setBinding m k x).clock = b.clock := rfl
@[simp] theorem Blk.setBinding_power (b : Blk) (m k : Nat) (x : Option Binding) : (b.setBinding m k x).power = b.power := rfl
@[simp] theorem Blk.setBinding_ldr (b : Blk) (m k : Nat) (x : Option Binding) : (b.setBinding m k x).ldr = b.ldr := rfl
@[simp] theorem Blk.setBinding_image (b : Blk) (m k : Nat) (x : Option Binding) : (b.setBinding m k x).image = b.image := rfl
@[simp] theorem Blk.setBinding_regs (b : Blk) (m k : Nat) (x : Option Binding) : (b.setBinding m k x).regs = b.regs := rfl
@[simp] theorem Blk.setBinding_shadow (b : Blk) (m k : Nat) (x : Option Binding) : (b.setBinding m k x).shadow = b.shadow := rfl
@[simp] theorem Blk.setBinding_mg (b : Blk) (m k : Nat) (x : Option Binding) : (b.setBinding m k x).mg = b.mg := rfl
@[simp] theorem Blk.setBinding_upd (b : Blk) (m k : Nat) (x : Option Binding) : (b.setBinding m k x).upd = b.upd := rfl
@[simp] theorem Blk.setBinding_sched (b : Blk) (m k : Nat) (x : Option Binding) : (b.setBinding m k x).sched = b.sched := rfl
@[simp] theorem Blk.setBinding_mga (b : Blk) (m k : Nat) (x : Option Binding) : (b.setBinding m k x).mga = b.mga := rfl
@[simp] theorem Blk.setBinding_mgb (b : Blk) (m k : Nat) (x : Option Binding) : (b.setBinding m k x).mgb = b.mgb := rfl
@[simp] theorem Blk.setBinding_domains (b : Blk) (m k : Nat) (x : Option Binding) : (b.setBinding m k x).domains = b.domains := rfl
@[simp] theorem Blk.setBinding_queues (b : Blk) (m k : Nat) (x : Option Binding) : (b.setBinding m k x).queues = b.queues := rfl
@[simp] theorem Blk.setBinding_cells (b : Blk) (m k : Nat) (x : Option Binding) : (b.setBinding m k x).cells = b.cells := rfl
@[simp] theorem Blk.setBinding_movp (b : Blk) (m k : Nat) (x : Option Binding) : (b.setBinding m k x).movp = b.movp := rfl
@[simp] theorem Blk.setBinding_ports (b : Blk) (m k : Nat) (x : Option Binding) : (b.setBinding m k x).ports = b.ports := rfl
@[simp] theorem Blk.setBinding_links (b : Blk) (m k : Nat) (x : Option Binding) : (b.setBinding m k x).links = b.links := rfl
@[simp] theorem Blk.setBinding_ctoLinks (b : Blk) (m k : Nat) (x : Option Binding) : (b.setBinding m k x).ctoLinks = b.ctoLinks := rfl
@[simp] theorem Blk.setBinding_halfFailed (b : Blk) (m k : Nat) (x : Option Binding) : (b.setBinding m k x).halfFailed = b.halfFailed := rfl
@[simp] theorem Blk.setBinding_halfTest (b : Blk) (m k : Nat) (x : Option Binding) : (b.setBinding m k x).halfTest = b.halfTest := rfl
@[simp] theorem Blk.setBinding_inShadow (b : Blk) (m k : Nat) (x : Option Binding) : (b.setBinding m k x).inShadow = b.inShadow := rfl
@[simp] theorem Blk.setBinding_activeSet (b : Blk) (m k : Nat) (x : Option Binding) : (b.setBinding m k x).activeSet = b.activeSet := rfl
@[simp] theorem Blk.setBinding_standIn (b : Blk) (m k : Nat) (x : Option Binding) : (b.setBinding m k x).standIn = b.standIn := rfl
@[simp] theorem Blk.setBinding_halfIdle (b : Blk) (m k : Nat) (x : Option Binding) : (b.setBinding m k x).halfIdle = b.halfIdle := rfl
@[simp] theorem Blk.setBinding_halfFails (b : Blk) (m k : Nat) (x : Option Binding) : (b.setBinding m k x).halfFails = b.halfFails := rfl
@[simp] theorem Blk.setBinding_pus (b : Blk) (m k : Nat) (x : Option Binding) : (b.setBinding m k x).pus = b.pus := rfl
@[simp] theorem Blk.setBinding_lines (b : Blk) (m k : Nat) (x : Option Binding) : (b.setBinding m k x).lines = b.lines := rfl
@[simp] theorem Blk.setBinding_vlines (b : Blk) (m k : Nat) (x : Option Binding) : (b.setBinding m k x).vlines = b.vlines := rfl
@[simp] theorem Blk.setBinding_fifos (b : Blk) (m k : Nat) (x : Option Binding) : (b.setBinding m k x).fifos = b.fifos := rfl
@[simp] theorem Blk.setBinding_sports (b : Blk) (m k : Nat) (x : Option Binding) : (b.setBinding m k x).sports = b.sports := rfl
@[simp] theorem Blk.setBinding_pool (b : Blk) (m k : Nat) (x : Option Binding) : (b.setBinding m k x).pool = b.pool := rfl
@[simp] theorem Blk.setBinding_slots (b : Blk) (m k : Nat) (x : Option Binding) : (b.setBinding m k x).slots = b.slots := rfl
@[simp] theorem Blk.setBinding_lats (b : Blk) (m k : Nat) (x : Option Binding) : (b.setBinding m k x).lats = b.lats := rfl
@[simp] theorem Blk.setBinding_pfail (b : Blk) (m k : Nat) (x : Option Binding) : (b.setBinding m k x).pfail = b.pfail := rfl
@[simp] theorem Blk.setBinding_vec (b : Blk) (m k : Nat) (x : Option Binding) : (b.setBinding m k x).vec = b.vec := rfl
@[simp] theorem Blk.setBinding_sup (b : Blk) (m k : Nat) (x : Option Binding) : (b.setBinding m k x).sup = b.sup := rfl
@[simp] theorem Blk.setBinding_banks (b : Blk) (m k : Nat) (x : Option Binding) : (b.setBinding m k x).banks = b.banks := rfl
@[simp] theorem Blk.setBinding_relayDrops (b : Blk) (m k : Nat) (x : Option Binding) : (b.setBinding m k x).relayDrops = b.relayDrops := rfl
@[simp] theorem Blk.setBinding_relayWaits (b : Blk) (m k : Nat) (x : Option Binding) : (b.setBinding m k x).relayWaits = b.relayWaits := rfl
@[simp] theorem Blk.setBinding_rerouted (b : Blk) (m k : Nat) (x : Option Binding) : (b.setBinding m k x).rerouted = b.rerouted := rfl
@[simp] theorem Blk.setBinding_trace (b : Blk) (m k : Nat) (x : Option Binding) : (b.setBinding m k x).trace = b.trace := rfl
@[simp] theorem Blk.setBinding_order (b : Blk) (m k : Nat) (x : Option Binding) : (b.setBinding m k x).order = b.order := rfl
@[simp] theorem Blk.setBinding_relaySeq (b : Blk) (m k : Nat) (x : Option Binding) : (b.setBinding m k x).relaySeq = b.relaySeq := rfl
@[simp] theorem Blk.setBinding_freeNo (b : Blk) (m k : Nat) (x : Option Binding) : (b.setBinding m k x).freeNo = b.freeNo := rfl
@[simp] theorem Blk.setBinding_get_reg (b : Blk) (m k : Nat) (x : Option Binding) (z : Nat) : (b.setBinding m k x).reg z = b.reg z := rfl
@[simp] theorem Blk.setBinding_get_on (b : Blk) (m k : Nat) (x : Option Binding) (z : Nat) : (b.setBinding m k x).on z = b.on z := rfl
@[simp] theorem Blk.setBinding_get_queue (b : Blk) (m k : Nat) (x : Option Binding) (r : QRef) : (b.setBinding m k x).queue r = b.queue r := rfl
@[simp] theorem Blk.setBinding_get_port (b : Blk) (m k : Nat) (x : Option Binding) (i : Nat) : (b.setBinding m k x).port i = b.port i := rfl
@[simp] theorem Blk.setBinding_get_domain (b : Blk) (m k : Nat) (x : Option Binding) (i : Nat) : (b.setBinding m k x).domain i = b.domain i := rfl
@[simp] theorem Blk.setBinding_get_pu (b : Blk) (m k : Nat) (x : Option Binding) (i : Nat) : (b.setBinding m k x).pu i = b.pu i := rfl
@[simp] theorem Blk.setBinding_get_line (b : Blk) (m k : Nat) (x : Option Binding) (i : Nat) : (b.setBinding m k x).line i = b.line i := rfl
@[simp] theorem Blk.setBinding_get_fifo (b : Blk) (m k : Nat) (x : Option Binding) (i : Nat) : (b.setBinding m k x).fifo i = b.fifo i := rfl
@[simp] theorem Blk.setBinding_get_sport (b : Blk) (m k : Nat) (x : Option Binding) (i : Nat) : (b.setBinding m k x).sport i = b.sport i := rfl
@[simp] theorem Blk.setBinding_get_slot (b : Blk) (m k : Nat) (x : Option Binding) (i : Nat) : (b.setBinding m k x).slot i = b.slot i := rfl
@[simp] theorem Blk.setBinding_get_lat (b : Blk) (m k : Nat) (x : Option Binding) (i : Nat) : (b.setBinding m k x).lat i = b.lat i := rfl
@[simp] theorem Blk.setBinding_get_vline (b : Blk) (m k : Nat) (x : Option Binding) (i : Nat) : (b.setBinding m k x).vline i = b.vline i := rfl
@[simp] theorem Blk.setBinding_get_img (b : Blk) (m k : Nat) (x : Option Binding)  : (b.setBinding m k x).img = b.img := rfl
@[simp] theorem Blk.setBinding_get_inSafe (b : Blk) (m k : Nat) (x : Option Binding)  : (b.setBinding m k x).inSafe = b.inSafe := rfl
@[simp] theorem Blk.setBinding_get_ready (b : Blk) (m k : Nat) (x : Option Binding)  : (b.setBinding m k x).ready = b.ready := rfl
@[simp] theorem Blk.modPort_clock (b : Blk) (p : Nat) (f : Port → Port) : (b.modPort p f).clock = b.clock := rfl
@[simp] theorem Blk.modPort_power (b : Blk) (p : Nat) (f : Port → Port) : (b.modPort p f).power = b.power := rfl
@[simp] theorem Blk.modPort_ldr (b : Blk) (p : Nat) (f : Port → Port) : (b.modPort p f).ldr = b.ldr := rfl
@[simp] theorem Blk.modPort_image (b : Blk) (p : Nat) (f : Port → Port) : (b.modPort p f).image = b.image := rfl
@[simp] theorem Blk.modPort_regs (b : Blk) (p : Nat) (f : Port → Port) : (b.modPort p f).regs = b.regs := rfl
@[simp] theorem Blk.modPort_shadow (b : Blk) (p : Nat) (f : Port → Port) : (b.modPort p f).shadow = b.shadow := rfl
@[simp] theorem Blk.modPort_mg (b : Blk) (p : Nat) (f : Port → Port) : (b.modPort p f).mg = b.mg := rfl
@[simp] theorem Blk.modPort_upd (b : Blk) (p : Nat) (f : Port → Port) : (b.modPort p f).upd = b.upd := rfl
@[simp] theorem Blk.modPort_sched (b : Blk) (p : Nat) (f : Port → Port) : (b.modPort p f).sched = b.sched := rfl
@[simp] theorem Blk.modPort_mga (b : Blk) (p : Nat) (f : Port → Port) : (b.modPort p f).mga = b.mga := rfl
@[simp] theorem Blk.modPort_mgb (b : Blk) (p : Nat) (f : Port → Port) : (b.modPort p f).mgb = b.mgb := rfl
@[simp] theorem Blk.modPort_domains (b : Blk) (p : Nat) (f : Port → Port) : (b.modPort p f).domains = b.domains := rfl
@[simp] theorem Blk.modPort_queues (b : Blk) (p : Nat) (f : Port → Port) : (b.modPort p f).queues = b.queues := rfl
@[simp] theorem Blk.modPort_cells (b : Blk) (p : Nat) (f : Port → Port) : (b.modPort p f).cells = b.cells := rfl
@[simp] theorem Blk.modPort_movers (b : Blk) (p : Nat) (f : Port → Port) : (b.modPort p f).movers = b.movers := rfl
@[simp] theorem Blk.modPort_movp (b : Blk) (p : Nat) (f : Port → Port) : (b.modPort p f).movp = b.movp := rfl
@[simp] theorem Blk.modPort_links (b : Blk) (p : Nat) (f : Port → Port) : (b.modPort p f).links = b.links := rfl
@[simp] theorem Blk.modPort_ctoLinks (b : Blk) (p : Nat) (f : Port → Port) : (b.modPort p f).ctoLinks = b.ctoLinks := rfl
@[simp] theorem Blk.modPort_halfFailed (b : Blk) (p : Nat) (f : Port → Port) : (b.modPort p f).halfFailed = b.halfFailed := rfl
@[simp] theorem Blk.modPort_halfTest (b : Blk) (p : Nat) (f : Port → Port) : (b.modPort p f).halfTest = b.halfTest := rfl
@[simp] theorem Blk.modPort_inShadow (b : Blk) (p : Nat) (f : Port → Port) : (b.modPort p f).inShadow = b.inShadow := rfl
@[simp] theorem Blk.modPort_activeSet (b : Blk) (p : Nat) (f : Port → Port) : (b.modPort p f).activeSet = b.activeSet := rfl
@[simp] theorem Blk.modPort_standIn (b : Blk) (p : Nat) (f : Port → Port) : (b.modPort p f).standIn = b.standIn := rfl
@[simp] theorem Blk.modPort_halfIdle (b : Blk) (p : Nat) (f : Port → Port) : (b.modPort p f).halfIdle = b.halfIdle := rfl
@[simp] theorem Blk.modPort_halfFails (b : Blk) (p : Nat) (f : Port → Port) : (b.modPort p f).halfFails = b.halfFails := rfl
@[simp] theorem Blk.modPort_pus (b : Blk) (p : Nat) (f : Port → Port) : (b.modPort p f).pus = b.pus := rfl
@[simp] theorem Blk.modPort_lines (b : Blk) (p : Nat) (f : Port → Port) : (b.modPort p f).lines = b.lines := rfl
@[simp] theorem Blk.modPort_vlines (b : Blk) (p : Nat) (f : Port → Port) : (b.modPort p f).vlines = b.vlines := rfl
@[simp] theorem Blk.modPort_fifos (b : Blk) (p : Nat) (f : Port → Port) : (b.modPort p f).fifos = b.fifos := rfl
@[simp] theorem Blk.modPort_sports (b : Blk) (p : Nat) (f : Port → Port) : (b.modPort p f).sports = b.sports := rfl
@[simp] theorem Blk.modPort_pool (b : Blk) (p : Nat) (f : Port → Port) : (b.modPort p f).pool = b.pool := rfl
@[simp] theorem Blk.modPort_slots (b : Blk) (p : Nat) (f : Port → Port) : (b.modPort p f).slots = b.slots := rfl
@[simp] theorem Blk.modPort_lats (b : Blk) (p : Nat) (f : Port → Port) : (b.modPort p f).lats = b.lats := rfl
@[simp] theorem Blk.modPort_pfail (b : Blk) (p : Nat) (f : Port → Port) : (b.modPort p f).pfail = b.pfail := rfl
@[simp] theorem Blk.modPort_vec (b : Blk) (p : Nat) (f : Port → Port) : (b.modPort p f).vec = b.vec := rfl
@[simp] theorem Blk.modPort_sup (b : Blk) (p : Nat) (f : Port → Port) : (b.modPort p f).sup = b.sup := rfl
@[simp] theorem Blk.modPort_banks (b : Blk) (p : Nat) (f : Port → Port) : (b.modPort p f).banks = b.banks := rfl
@[simp] theorem Blk.modPort_relayDrops (b : Blk) (p : Nat) (f : Port → Port) : (b.modPort p f).relayDrops = b.relayDrops := rfl
@[simp] theorem Blk.modPort_relayWaits (b : Blk) (p : Nat) (f : Port → Port) : (b.modPort p f).relayWaits = b.relayWaits := rfl
@[simp] theorem Blk.modPort_rerouted (b : Blk) (p : Nat) (f : Port → Port) : (b.modPort p f).rerouted = b.rerouted := rfl
@[simp] theorem Blk.modPort_trace (b : Blk) (p : Nat) (f : Port → Port) : (b.modPort p f).trace = b.trace := rfl
@[simp] theorem Blk.modPort_order (b : Blk) (p : Nat) (f : Port → Port) : (b.modPort p f).order = b.order := rfl
@[simp] theorem Blk.modPort_relaySeq (b : Blk) (p : Nat) (f : Port → Port) : (b.modPort p f).relaySeq = b.relaySeq := rfl
@[simp] theorem Blk.modPort_freeNo (b : Blk) (p : Nat) (f : Port → Port) : (b.modPort p f).freeNo = b.freeNo := rfl
@[simp] theorem Blk.modPort_get_reg (b : Blk) (p : Nat) (f : Port → Port) (z : Nat) : (b.modPort p f).reg z = b.reg z := rfl
@[simp] theorem Blk.modPort_get_on (b : Blk) (p : Nat) (f : Port → Port) (z : Nat) : (b.modPort p f).on z = b.on z := rfl
@[simp] theorem Blk.modPort_get_queue (b : Blk) (p : Nat) (f : Port → Port) (r : QRef) : (b.modPort p f).queue r = b.queue r := rfl
@[simp] theorem Blk.modPort_get_mover (b : Blk) (p : Nat) (f : Port → Port) (i : Nat) : (b.modPort p f).mover i = b.mover i := rfl
@[simp] theorem Blk.modPort_get_domain (b : Blk) (p : Nat) (f : Port → Port) (i : Nat) : (b.modPort p f).domain i = b.domain i := rfl
@[simp] theorem Blk.modPort_get_pu (b : Blk) (p : Nat) (f : Port → Port) (i : Nat) : (b.modPort p f).pu i = b.pu i := rfl
@[simp] theorem Blk.modPort_get_line (b : Blk) (p : Nat) (f : Port → Port) (i : Nat) : (b.modPort p f).line i = b.line i := rfl
@[simp] theorem Blk.modPort_get_fifo (b : Blk) (p : Nat) (f : Port → Port) (i : Nat) : (b.modPort p f).fifo i = b.fifo i := rfl
@[simp] theorem Blk.modPort_get_sport (b : Blk) (p : Nat) (f : Port → Port) (i : Nat) : (b.modPort p f).sport i = b.sport i := rfl
@[simp] theorem Blk.modPort_get_slot (b : Blk) (p : Nat) (f : Port → Port) (i : Nat) : (b.modPort p f).slot i = b.slot i := rfl
@[simp] theorem Blk.modPort_get_lat (b : Blk) (p : Nat) (f : Port → Port) (i : Nat) : (b.modPort p f).lat i = b.lat i := rfl
@[simp] theorem Blk.modPort_get_vline (b : Blk) (p : Nat) (f : Port → Port) (i : Nat) : (b.modPort p f).vline i = b.vline i := rfl
@[simp] theorem Blk.modPort_get_img (b : Blk) (p : Nat) (f : Port → Port)  : (b.modPort p f).img = b.img := rfl
@[simp] theorem Blk.modPort_get_inSafe (b : Blk) (p : Nat) (f : Port → Port)  : (b.modPort p f).inSafe = b.inSafe := rfl
@[simp] theorem Blk.modPort_get_ready (b : Blk) (p : Nat) (f : Port → Port)  : (b.modPort p f).ready = b.ready := rfl
@[simp] theorem Blk.modCnt_clock (b : Blk) (p : Nat) (f : PortCnt → PortCnt) : (b.modCnt p f).clock = b.clock := rfl
@[simp] theorem Blk.modCnt_power (b : Blk) (p : Nat) (f : PortCnt → PortCnt) : (b.modCnt p f).power = b.power := rfl
@[simp] theorem Blk.modCnt_ldr (b : Blk) (p : Nat) (f : PortCnt → PortCnt) : (b.modCnt p f).ldr = b.ldr := rfl
@[simp] theorem Blk.modCnt_image (b : Blk) (p : Nat) (f : PortCnt → PortCnt) : (b.modCnt p f).image = b.image := rfl
@[simp] theorem Blk.modCnt_regs (b : Blk) (p : Nat) (f : PortCnt → PortCnt) : (b.modCnt p f).regs = b.regs := rfl
@[simp] theorem Blk.modCnt_shadow (b : Blk) (p : Nat) (f : PortCnt → PortCnt) : (b.modCnt p f).shadow = b.shadow := rfl
@[simp] theorem Blk.modCnt_mg (b : Blk) (p : Nat) (f : PortCnt → PortCnt) : (b.modCnt p f).mg = b.mg := rfl
@[simp] theorem Blk.modCnt_upd (b : Blk) (p : Nat) (f : PortCnt → PortCnt) : (b.modCnt p f).upd = b.upd := rfl
@[simp] theorem Blk.modCnt_sched (b : Blk) (p : Nat) (f : PortCnt → PortCnt) : (b.modCnt p f).sched = b.sched := rfl
@[simp] theorem Blk.modCnt_mga (b : Blk) (p : Nat) (f : PortCnt → PortCnt) : (b.modCnt p f).mga = b.mga := rfl
@[simp] theorem Blk.modCnt_mgb (b : Blk) (p : Nat) (f : PortCnt → PortCnt) : (b.modCnt p f).mgb = b.mgb := rfl
@[simp] theorem Blk.modCnt_domains (b : Blk) (p : Nat) (f : PortCnt → PortCnt) : (b.modCnt p f).domains = b.domains := rfl
@[simp] theorem Blk.modCnt_queues (b : Blk) (p : Nat) (f : PortCnt → PortCnt) : (b.modCnt p f).queues = b.queues := rfl
@[simp] theorem Blk.modCnt_cells (b : Blk) (p : Nat) (f : PortCnt → PortCnt) : (b.modCnt p f).cells = b.cells := rfl
@[simp] theorem Blk.modCnt_movers (b : Blk) (p : Nat) (f : PortCnt → PortCnt) : (b.modCnt p f).movers = b.movers := rfl
@[simp] theorem Blk.modCnt_movp (b : Blk) (p : Nat) (f : PortCnt → PortCnt) : (b.modCnt p f).movp = b.movp := rfl
@[simp] theorem Blk.modCnt_links (b : Blk) (p : Nat) (f : PortCnt → PortCnt) : (b.modCnt p f).links = b.links := rfl
@[simp] theorem Blk.modCnt_ctoLinks (b : Blk) (p : Nat) (f : PortCnt → PortCnt) : (b.modCnt p f).ctoLinks = b.ctoLinks := rfl
@[simp] theorem Blk.modCnt_halfFailed (b : Blk) (p : Nat) (f : PortCnt → PortCnt) : (b.modCnt p f).halfFailed = b.halfFailed := rfl
@[simp] theorem Blk.modCnt_halfTest (b : Blk) (p : Nat) (f : PortCnt → PortCnt) : (b.modCnt p f).halfTest = b.halfTest := rfl
@[simp] theorem Blk.modCnt_inShadow (b : Blk) (p : Nat) (f : PortCnt → PortCnt) : (b.modCnt p f).inShadow = b.inShadow := rfl
@[simp] theorem Blk.modCnt_activeSet (b : Blk) (p : Nat) (f : PortCnt → PortCnt) : (b.modCnt p f).activeSet = b.activeSet := rfl
@[simp] theorem Blk.modCnt_standIn (b : Blk) (p : Nat) (f : PortCnt → PortCnt) : (b.modCnt p f).standIn = b.standIn := rfl
@[simp] theorem Blk.modCnt_halfIdle (b : Blk) (p : Nat) (f : PortCnt → PortCnt) : (b.modCnt p f).halfIdle = b.halfIdle := rfl
@[simp] theorem Blk.modCnt_halfFails (b : Blk) (p : Nat) (f : PortCnt → PortCnt) : (b.modCnt p f).halfFails = b.halfFails := rfl
@[simp] theorem Blk.modCnt_pus (b : Blk) (p : Nat) (f : PortCnt → PortCnt) : (b.modCnt p f).pus = b.pus := rfl
@[simp] theorem Blk.modCnt_lines (b : Blk) (p : Nat) (f : PortCnt → PortCnt) : (b.modCnt p f).lines = b.lines := rfl
@[simp] theorem Blk.modCnt_vlines (b : Blk) (p : Nat) (f : PortCnt → PortCnt) : (b.modCnt p f).vlines = b.vlines := rfl
@[simp] theorem Blk.modCnt_fifos (b : Blk) (p : Nat) (f : PortCnt → PortCnt) : (b.modCnt p f).fifos = b.fifos := rfl
@[simp] theorem Blk.modCnt_sports (b : Blk) (p : Nat) (f : PortCnt → PortCnt) : (b.modCnt p f).sports = b.sports := rfl
@[simp] theorem Blk.modCnt_pool (b : Blk) (p : Nat) (f : PortCnt → PortCnt) : (b.modCnt p f).pool = b.pool := rfl
@[simp] theorem Blk.modCnt_slots (b : Blk) (p : Nat) (f : PortCnt → PortCnt) : (b.modCnt p f).slots = b.slots := rfl
@[simp] theorem Blk.modCnt_lats (b : Blk) (p : Nat) (f : PortCnt → PortCnt) : (b.modCnt p f).lats = b.lats := rfl
@[simp] theorem Blk.modCnt_pfail (b : Blk) (p : Nat) (f : PortCnt → PortCnt) : (b.modCnt p f).pfail = b.pfail := rfl
@[simp] theorem Blk.modCnt_vec (b : Blk) (p : Nat) (f : PortCnt → PortCnt) : (b.modCnt p f).vec = b.vec := rfl
@[simp] theorem Blk.modCnt_sup (b : Blk) (p : Nat) (f : PortCnt → PortCnt) : (b.modCnt p f).sup = b.sup := rfl
@[simp] theorem Blk.modCnt_banks (b : Blk) (p : Nat) (f : PortCnt → PortCnt) : (b.modCnt p f).banks = b.banks := rfl
@[simp] theorem Blk.modCnt_relayDrops (b : Blk) (p : Nat) (f : PortCnt → PortCnt) : (b.modCnt p f).relayDrops = b.relayDrops := rfl
@[simp] theorem Blk.modCnt_relayWaits (b : Blk) (p : Nat) (f : PortCnt → PortCnt) : (b.modCnt p f).relayWaits = b.relayWaits := rfl
@[simp] theorem Blk.modCnt_rerouted (b : Blk) (p : Nat) (f : PortCnt → PortCnt) : (b.modCnt p f).rerouted = b.rerouted := rfl
@[simp] theorem Blk.modCnt_trace (b : Blk) (p : Nat) (f : PortCnt → PortCnt) : (b.modCnt p f).trace = b.trace := rfl
@[simp] theorem Blk.modCnt_order (b : Blk) (p : Nat) (f : PortCnt → PortCnt) : (b.modCnt p f).order = b.order := rfl
@[simp] theorem Blk.modCnt_relaySeq (b : Blk) (p : Nat) (f : PortCnt → PortCnt) : (b.modCnt p f).relaySeq = b.relaySeq := rfl
@[simp] theorem Blk.modCnt_freeNo (b : Blk) (p : Nat) (f : PortCnt → PortCnt) : (b.modCnt p f).freeNo = b.freeNo := rfl
@[simp] theorem Blk.modCnt_get_reg (b : Blk) (p : Nat) (f : PortCnt → PortCnt) (z : Nat) : (b.modCnt p f).reg z = b.reg z := rfl
@[simp] theorem Blk.modCnt_get_on (b : Blk) (p : Nat) (f : PortCnt → PortCnt) (z : Nat) : (b.modCnt p f).on z = b.on z := rfl
@[simp] theorem Blk.modCnt_get_queue (b : Blk) (p : Nat) (f : PortCnt → PortCnt) (r : QRef) : (b.modCnt p f).queue r = b.queue r := rfl
@[simp] theorem Blk.modCnt_get_mover (b : Blk) (p : Nat) (f : PortCnt → PortCnt) (i : Nat) : (b.modCnt p f).mover i = b.mover i := rfl
@[simp] theorem Blk.modCnt_get_domain (b : Blk) (p : Nat) (f : PortCnt → PortCnt) (i : Nat) : (b.modCnt p f).domain i = b.domain i := rfl
@[simp] theorem Blk.modCnt_get_pu (b : Blk) (p : Nat) (f : PortCnt → PortCnt) (i : Nat) : (b.modCnt p f).pu i = b.pu i := rfl
@[simp] theorem Blk.modCnt_get_line (b : Blk) (p : Nat) (f : PortCnt → PortCnt) (i : Nat) : (b.modCnt p f).line i = b.line i := rfl
@[simp] theorem Blk.modCnt_get_fifo (b : Blk) (p : Nat) (f : PortCnt → PortCnt) (i : Nat) : (b.modCnt p f).fifo i = b.fifo i := rfl
@[simp] theorem Blk.modCnt_get_sport (b : Blk) (p : Nat) (f : PortCnt → PortCnt) (i : Nat) : (b.modCnt p f).sport i = b.sport i := rfl
@[simp] theorem Blk.modCnt_get_slot (b : Blk) (p : Nat) (f : PortCnt → PortCnt) (i : Nat) : (b.modCnt p f).slot i = b.slot i := rfl
@[simp] theorem Blk.modCnt_get_lat (b : Blk) (p : Nat) (f : PortCnt → PortCnt) (i : Nat) : (b.modCnt p f).lat i = b.lat i := rfl
@[simp] theorem Blk.modCnt_get_vline (b : Blk) (p : Nat) (f : PortCnt → PortCnt) (i : Nat) : (b.modCnt p f).vline i = b.vline i := rfl
@[simp] theorem Blk.modCnt_get_img (b : Blk) (p : Nat) (f : PortCnt → PortCnt)  : (b.modCnt p f).img = b.img := rfl
@[simp] theorem Blk.modCnt_get_inSafe (b : Blk) (p : Nat) (f : PortCnt → PortCnt)  : (b.modCnt p f).inSafe = b.inSafe := rfl
@[simp] theorem Blk.modCnt_get_ready (b : Blk) (p : Nat) (f : PortCnt → PortCnt)  : (b.modCnt p f).ready = b.ready := rfl
@[simp] theorem Blk.modDomain_clock (b : Blk) (d : Nat) (f : Domain → Domain) : (b.modDomain d f).clock = b.clock := rfl
@[simp] theorem Blk.modDomain_power (b : Blk) (d : Nat) (f : Domain → Domain) : (b.modDomain d f).power = b.power := rfl
@[simp] theorem Blk.modDomain_ldr (b : Blk) (d : Nat) (f : Domain → Domain) : (b.modDomain d f).ldr = b.ldr := rfl
@[simp] theorem Blk.modDomain_image (b : Blk) (d : Nat) (f : Domain → Domain) : (b.modDomain d f).image = b.image := rfl
@[simp] theorem Blk.modDomain_regs (b : Blk) (d : Nat) (f : Domain → Domain) : (b.modDomain d f).regs = b.regs := rfl
@[simp] theorem Blk.modDomain_shadow (b : Blk) (d : Nat) (f : Domain → Domain) : (b.modDomain d f).shadow = b.shadow := rfl
@[simp] theorem Blk.modDomain_mg (b : Blk) (d : Nat) (f : Domain → Domain) : (b.modDomain d f).mg = b.mg := rfl
@[simp] theorem Blk.modDomain_upd (b : Blk) (d : Nat) (f : Domain → Domain) : (b.modDomain d f).upd = b.upd := rfl
@[simp] theorem Blk.modDomain_sched (b : Blk) (d : Nat) (f : Domain → Domain) : (b.modDomain d f).sched = b.sched := rfl
@[simp] theorem Blk.modDomain_mga (b : Blk) (d : Nat) (f : Domain → Domain) : (b.modDomain d f).mga = b.mga := rfl
@[simp] theorem Blk.modDomain_mgb (b : Blk) (d : Nat) (f : Domain → Domain) : (b.modDomain d f).mgb = b.mgb := rfl
@[simp] theorem Blk.modDomain_queues (b : Blk) (d : Nat) (f : Domain → Domain) : (b.modDomain d f).queues = b.queues := rfl
@[simp] theorem Blk.modDomain_cells (b : Blk) (d : Nat) (f : Domain → Domain) : (b.modDomain d f).cells = b.cells := rfl
@[simp] theorem Blk.modDomain_movers (b : Blk) (d : Nat) (f : Domain → Domain) : (b.modDomain d f).movers = b.movers := rfl
@[simp] theorem Blk.modDomain_movp (b : Blk) (d : Nat) (f : Domain → Domain) : (b.modDomain d f).movp = b.movp := rfl
@[simp] theorem Blk.modDomain_ports (b : Blk) (d : Nat) (f : Domain → Domain) : (b.modDomain d f).ports = b.ports := rfl
@[simp] theorem Blk.modDomain_links (b : Blk) (d : Nat) (f : Domain → Domain) : (b.modDomain d f).links = b.links := rfl
@[simp] theorem Blk.modDomain_ctoLinks (b : Blk) (d : Nat) (f : Domain → Domain) : (b.modDomain d f).ctoLinks = b.ctoLinks := rfl
@[simp] theorem Blk.modDomain_halfFailed (b : Blk) (d : Nat) (f : Domain → Domain) : (b.modDomain d f).halfFailed = b.halfFailed := rfl
@[simp] theorem Blk.modDomain_halfTest (b : Blk) (d : Nat) (f : Domain → Domain) : (b.modDomain d f).halfTest = b.halfTest := rfl
@[simp] theorem Blk.modDomain_inShadow (b : Blk) (d : Nat) (f : Domain → Domain) : (b.modDomain d f).inShadow = b.inShadow := rfl
@[simp] theorem Blk.modDomain_activeSet (b : Blk) (d : Nat) (f : Domain → Domain) : (b.modDomain d f).activeSet = b.activeSet := rfl
@[simp] theorem Blk.modDomain_standIn (b : Blk) (d : Nat) (f : Domain → Domain) : (b.modDomain d f).standIn = b.standIn := rfl
@[simp] theorem Blk.modDomain_halfIdle (b : Blk) (d : Nat) (f : Domain → Domain) : (b.modDomain d f).halfIdle = b.halfIdle := rfl
@[simp] theorem Blk.modDomain_halfFails (b : Blk) (d : Nat) (f : Domain → Domain) : (b.modDomain d f).halfFails = b.halfFails := rfl
@[simp] theorem Blk.modDomain_pus (b : Blk) (d : Nat) (f : Domain → Domain) : (b.modDomain d f).pus = b.pus := rfl
@[simp] theorem Blk.modDomain_lines (b : Blk) (d : Nat) (f : Domain → Domain) : (b.modDomain d f).lines = b.lines := rfl
@[simp] theorem Blk.modDomain_vlines (b : Blk) (d : Nat) (f : Domain → Domain) : (b.modDomain d f).vlines = b.vlines := rfl
@[simp] theorem Blk.modDomain_fifos (b : Blk) (d : Nat) (f : Domain → Domain) : (b.modDomain d f).fifos = b.fifos := rfl
@[simp] theorem Blk.modDomain_sports (b : Blk) (d : Nat) (f : Domain → Domain) : (b.modDomain d f).sports = b.sports := rfl
@[simp] theorem Blk.modDomain_pool (b : Blk) (d : Nat) (f : Domain → Domain) : (b.modDomain d f).pool = b.pool := rfl
@[simp] theorem Blk.modDomain_slots (b : Blk) (d : Nat) (f : Domain → Domain) : (b.modDomain d f).slots = b.slots := rfl
@[simp] theorem Blk.modDomain_lats (b : Blk) (d : Nat) (f : Domain → Domain) : (b.modDomain d f).lats = b.lats := rfl
@[simp] theorem Blk.modDomain_pfail (b : Blk) (d : Nat) (f : Domain → Domain) : (b.modDomain d f).pfail = b.pfail := rfl
@[simp] theorem Blk.modDomain_vec (b : Blk) (d : Nat) (f : Domain → Domain) : (b.modDomain d f).vec = b.vec := rfl
@[simp] theorem Blk.modDomain_sup (b : Blk) (d : Nat) (f : Domain → Domain) : (b.modDomain d f).sup = b.sup := rfl
@[simp] theorem Blk.modDomain_banks (b : Blk) (d : Nat) (f : Domain → Domain) : (b.modDomain d f).banks = b.banks := rfl
@[simp] theorem Blk.modDomain_relayDrops (b : Blk) (d : Nat) (f : Domain → Domain) : (b.modDomain d f).relayDrops = b.relayDrops := rfl
@[simp] theorem Blk.modDomain_relayWaits (b : Blk) (d : Nat) (f : Domain → Domain) : (b.modDomain d f).relayWaits = b.relayWaits := rfl
@[simp] theorem Blk.modDomain_rerouted (b : Blk) (d : Nat) (f : Domain → Domain) : (b.modDomain d f).rerouted = b.rerouted := rfl
@[simp] theorem Blk.modDomain_trace (b : Blk) (d : Nat) (f : Domain → Domain) : (b.modDomain d f).trace = b.trace := rfl
@[simp] theorem Blk.modDomain_order (b : Blk) (d : Nat) (f : Domain → Domain) : (b.modDomain d f).order = b.order := rfl
@[simp] theorem Blk.modDomain_relaySeq (b : Blk) (d : Nat) (f : Domain → Domain) : (b.modDomain d f).relaySeq = b.relaySeq := rfl
@[simp] theorem Blk.modDomain_freeNo (b : Blk) (d : Nat) (f : Domain → Domain) : (b.modDomain d f).freeNo = b.freeNo := rfl
@[simp] theorem Blk.modDomain_get_reg (b : Blk) (d : Nat) (f : Domain → Domain) (z : Nat) : (b.modDomain d f).reg z = b.reg z := rfl
@[simp] theorem Blk.modDomain_get_on (b : Blk) (d : Nat) (f : Domain → Domain) (z : Nat) : (b.modDomain d f).on z = b.on z := rfl
@[simp] theorem Blk.modDomain_get_queue (b : Blk) (d : Nat) (f : Domain → Domain) (r : QRef) : (b.modDomain d f).queue r = b.queue r := rfl
@[simp] theorem Blk.modDomain_get_mover (b : Blk) (d : Nat) (f : Domain → Domain) (i : Nat) : (b.modDomain d f).mover i = b.mover i := rfl
@[simp] theorem Blk.modDomain_get_port (b : Blk) (d : Nat) (f : Domain → Domain) (i : Nat) : (b.modDomain d f).port i = b.port i := rfl
@[simp] theorem Blk.modDomain_get_pu (b : Blk) (d : Nat) (f : Domain → Domain) (i : Nat) : (b.modDomain d f).pu i = b.pu i := rfl
@[simp] theorem Blk.modDomain_get_line (b : Blk) (d : Nat) (f : Domain → Domain) (i : Nat) : (b.modDomain d f).line i = b.line i := rfl
@[simp] theorem Blk.modDomain_get_fifo (b : Blk) (d : Nat) (f : Domain → Domain) (i : Nat) : (b.modDomain d f).fifo i = b.fifo i := rfl
@[simp] theorem Blk.modDomain_get_sport (b : Blk) (d : Nat) (f : Domain → Domain) (i : Nat) : (b.modDomain d f).sport i = b.sport i := rfl
@[simp] theorem Blk.modDomain_get_slot (b : Blk) (d : Nat) (f : Domain → Domain) (i : Nat) : (b.modDomain d f).slot i = b.slot i := rfl
@[simp] theorem Blk.modDomain_get_lat (b : Blk) (d : Nat) (f : Domain → Domain) (i : Nat) : (b.modDomain d f).lat i = b.lat i := rfl
@[simp] theorem Blk.modDomain_get_vline (b : Blk) (d : Nat) (f : Domain → Domain) (i : Nat) : (b.modDomain d f).vline i = b.vline i := rfl
@[simp] theorem Blk.modDomain_get_img (b : Blk) (d : Nat) (f : Domain → Domain)  : (b.modDomain d f).img = b.img := rfl
@[simp] theorem Blk.modDomain_get_inSafe (b : Blk) (d : Nat) (f : Domain → Domain)  : (b.modDomain d f).inSafe = b.inSafe := rfl
@[simp] theorem Blk.modDomain_get_ready (b : Blk) (d : Nat) (f : Domain → Domain)  : (b.modDomain d f).ready = b.ready := rfl
@[simp] theorem Blk.modPu_clock (b : Blk) (u : Nat) (f : PhaseUnit → PhaseUnit) : (b.modPu u f).clock = b.clock := rfl
@[simp] theorem Blk.modPu_power (b : Blk) (u : Nat) (f : PhaseUnit → PhaseUnit) : (b.modPu u f).power = b.power := rfl
@[simp] theorem Blk.modPu_ldr (b : Blk) (u : Nat) (f : PhaseUnit → PhaseUnit) : (b.modPu u f).ldr = b.ldr := rfl
@[simp] theorem Blk.modPu_image (b : Blk) (u : Nat) (f : PhaseUnit → PhaseUnit) : (b.modPu u f).image = b.image := rfl
@[simp] theorem Blk.modPu_regs (b : Blk) (u : Nat) (f : PhaseUnit → PhaseUnit) : (b.modPu u f).regs = b.regs := rfl
@[simp] theorem Blk.modPu_shadow (b : Blk) (u : Nat) (f : PhaseUnit → PhaseUnit) : (b.modPu u f).shadow = b.shadow := rfl
@[simp] theorem Blk.modPu_mg (b : Blk) (u : Nat) (f : PhaseUnit → PhaseUnit) : (b.modPu u f).mg = b.mg := rfl
@[simp] theorem Blk.modPu_upd (b : Blk) (u : Nat) (f : PhaseUnit → PhaseUnit) : (b.modPu u f).upd = b.upd := rfl
@[simp] theorem Blk.modPu_sched (b : Blk) (u : Nat) (f : PhaseUnit → PhaseUnit) : (b.modPu u f).sched = b.sched := rfl
@[simp] theorem Blk.modPu_mga (b : Blk) (u : Nat) (f : PhaseUnit → PhaseUnit) : (b.modPu u f).mga = b.mga := rfl
@[simp] theorem Blk.modPu_mgb (b : Blk) (u : Nat) (f : PhaseUnit → PhaseUnit) : (b.modPu u f).mgb = b.mgb := rfl
@[simp] theorem Blk.modPu_domains (b : Blk) (u : Nat) (f : PhaseUnit → PhaseUnit) : (b.modPu u f).domains = b.domains := rfl
@[simp] theorem Blk.modPu_queues (b : Blk) (u : Nat) (f : PhaseUnit → PhaseUnit) : (b.modPu u f).queues = b.queues := rfl
@[simp] theorem Blk.modPu_cells (b : Blk) (u : Nat) (f : PhaseUnit → PhaseUnit) : (b.modPu u f).cells = b.cells := rfl
@[simp] theorem Blk.modPu_movers (b : Blk) (u : Nat) (f : PhaseUnit → PhaseUnit) : (b.modPu u f).movers = b.movers := rfl
@[simp] theorem Blk.modPu_movp (b : Blk) (u : Nat) (f : PhaseUnit → PhaseUnit) : (b.modPu u f).movp = b.movp := rfl
@[simp] theorem Blk.modPu_ports (b : Blk) (u : Nat) (f : PhaseUnit → PhaseUnit) : (b.modPu u f).ports = b.ports := rfl
@[simp] theorem Blk.modPu_links (b : Blk) (u : Nat) (f : PhaseUnit → PhaseUnit) : (b.modPu u f).links = b.links := rfl
@[simp] theorem Blk.modPu_ctoLinks (b : Blk) (u : Nat) (f : PhaseUnit → PhaseUnit) : (b.modPu u f).ctoLinks = b.ctoLinks := rfl
@[simp] theorem Blk.modPu_halfFailed (b : Blk) (u : Nat) (f : PhaseUnit → PhaseUnit) : (b.modPu u f).halfFailed = b.halfFailed := rfl
@[simp] theorem Blk.modPu_halfTest (b : Blk) (u : Nat) (f : PhaseUnit → PhaseUnit) : (b.modPu u f).halfTest = b.halfTest := rfl
@[simp] theorem Blk.modPu_inShadow (b : Blk) (u : Nat) (f : PhaseUnit → PhaseUnit) : (b.modPu u f).inShadow = b.inShadow := rfl
@[simp] theorem Blk.modPu_activeSet (b : Blk) (u : Nat) (f : PhaseUnit → PhaseUnit) : (b.modPu u f).activeSet = b.activeSet := rfl
@[simp] theorem Blk.modPu_standIn (b : Blk) (u : Nat) (f : PhaseUnit → PhaseUnit) : (b.modPu u f).standIn = b.standIn := rfl
@[simp] theorem Blk.modPu_halfIdle (b : Blk) (u : Nat) (f : PhaseUnit → PhaseUnit) : (b.modPu u f).halfIdle = b.halfIdle := rfl
@[simp] theorem Blk.modPu_halfFails (b : Blk) (u : Nat) (f : PhaseUnit → PhaseUnit) : (b.modPu u f).halfFails = b.halfFails := rfl
@[simp] theorem Blk.modPu_lines (b : Blk) (u : Nat) (f : PhaseUnit → PhaseUnit) : (b.modPu u f).lines = b.lines := rfl
@[simp] theorem Blk.modPu_vlines (b : Blk) (u : Nat) (f : PhaseUnit → PhaseUnit) : (b.modPu u f).vlines = b.vlines := rfl
@[simp] theorem Blk.modPu_fifos (b : Blk) (u : Nat) (f : PhaseUnit → PhaseUnit) : (b.modPu u f).fifos = b.fifos := rfl
@[simp] theorem Blk.modPu_sports (b : Blk) (u : Nat) (f : PhaseUnit → PhaseUnit) : (b.modPu u f).sports = b.sports := rfl
@[simp] theorem Blk.modPu_pool (b : Blk) (u : Nat) (f : PhaseUnit → PhaseUnit) : (b.modPu u f).pool = b.pool := rfl
@[simp] theorem Blk.modPu_slots (b : Blk) (u : Nat) (f : PhaseUnit → PhaseUnit) : (b.modPu u f).slots = b.slots := rfl
@[simp] theorem Blk.modPu_lats (b : Blk) (u : Nat) (f : PhaseUnit → PhaseUnit) : (b.modPu u f).lats = b.lats := rfl
@[simp] theorem Blk.modPu_pfail (b : Blk) (u : Nat) (f : PhaseUnit → PhaseUnit) : (b.modPu u f).pfail = b.pfail := rfl
@[simp] theorem Blk.modPu_vec (b : Blk) (u : Nat) (f : PhaseUnit → PhaseUnit) : (b.modPu u f).vec = b.vec := rfl
@[simp] theorem Blk.modPu_sup (b : Blk) (u : Nat) (f : PhaseUnit → PhaseUnit) : (b.modPu u f).sup = b.sup := rfl
@[simp] theorem Blk.modPu_banks (b : Blk) (u : Nat) (f : PhaseUnit → PhaseUnit) : (b.modPu u f).banks = b.banks := rfl
@[simp] theorem Blk.modPu_relayDrops (b : Blk) (u : Nat) (f : PhaseUnit → PhaseUnit) : (b.modPu u f).relayDrops = b.relayDrops := rfl
@[simp] theorem Blk.modPu_relayWaits (b : Blk) (u : Nat) (f : PhaseUnit → PhaseUnit) : (b.modPu u f).relayWaits = b.relayWaits := rfl
@[simp] theorem Blk.modPu_rerouted (b : Blk) (u : Nat) (f : PhaseUnit → PhaseUnit) : (b.modPu u f).rerouted = b.rerouted := rfl
@[simp] theorem Blk.modPu_trace (b : Blk) (u : Nat) (f : PhaseUnit → PhaseUnit) : (b.modPu u f).trace = b.trace := rfl
@[simp] theorem Blk.modPu_order (b : Blk) (u : Nat) (f : PhaseUnit → PhaseUnit) : (b.modPu u f).order = b.order := rfl
@[simp] theorem Blk.modPu_relaySeq (b : Blk) (u : Nat) (f : PhaseUnit → PhaseUnit) : (b.modPu u f).relaySeq = b.relaySeq := rfl
@[simp] theorem Blk.modPu_freeNo (b : Blk) (u : Nat) (f : PhaseUnit → PhaseUnit) : (b.modPu u f).freeNo = b.freeNo := rfl
@[simp] theorem Blk.modPu_get_reg (b : Blk) (u : Nat) (f : PhaseUnit → PhaseUnit) (z : Nat) : (b.modPu u f).reg z = b.reg z := rfl
@[simp] theorem Blk.modPu_get_on (b : Blk) (u : Nat) (f : PhaseUnit → PhaseUnit) (z : Nat) : (b.modPu u f).on z = b.on z := rfl
@[simp] theorem Blk.modPu_get_queue (b : Blk) (u : Nat) (f : PhaseUnit → PhaseUnit) (r : QRef) : (b.modPu u f).queue r = b.queue r := rfl
@[simp] theorem Blk.modPu_get_mover (b : Blk) (u : Nat) (f : PhaseUnit → PhaseUnit) (i : Nat) : (b.modPu u f).mover i = b.mover i := rfl
@[simp] theorem Blk.modPu_get_port (b : Blk) (u : Nat) (f : PhaseUnit → PhaseUnit) (i : Nat) : (b.modPu u f).port i = b.port i := rfl
@[simp] theorem Blk.modPu_get_domain (b : Blk) (u : Nat) (f : PhaseUnit → PhaseUnit) (i : Nat) : (b.modPu u f).domain i = b.domain i := rfl
@[simp] theorem Blk.modPu_get_line (b : Blk) (u : Nat) (f : PhaseUnit → PhaseUnit) (i : Nat) : (b.modPu u f).line i = b.line i := rfl
@[simp] theorem Blk.modPu_get_fifo (b : Blk) (u : Nat) (f : PhaseUnit → PhaseUnit) (i : Nat) : (b.modPu u f).fifo i = b.fifo i := rfl
@[simp] theorem Blk.modPu_get_sport (b : Blk) (u : Nat) (f : PhaseUnit → PhaseUnit) (i : Nat) : (b.modPu u f).sport i = b.sport i := rfl
@[simp] theorem Blk.modPu_get_slot (b : Blk) (u : Nat) (f : PhaseUnit → PhaseUnit) (i : Nat) : (b.modPu u f).slot i = b.slot i := rfl
@[simp] theorem Blk.modPu_get_lat (b : Blk) (u : Nat) (f : PhaseUnit → PhaseUnit) (i : Nat) : (b.modPu u f).lat i = b.lat i := rfl
@[simp] theorem Blk.modPu_get_vline (b : Blk) (u : Nat) (f : PhaseUnit → PhaseUnit) (i : Nat) : (b.modPu u f).vline i = b.vline i := rfl
@[simp] theorem Blk.modPu_get_img (b : Blk) (u : Nat) (f : PhaseUnit → PhaseUnit)  : (b.modPu u f).img = b.img := rfl
@[simp] theorem Blk.modPu_get_inSafe (b : Blk) (u : Nat) (f : PhaseUnit → PhaseUnit)  : (b.modPu u f).inSafe = b.inSafe := rfl
@[simp] theorem Blk.modPu_get_ready (b : Blk) (u : Nat) (f : PhaseUnit → PhaseUnit)  : (b.modPu u f).ready = b.ready := rfl
@[simp] theorem Blk.modLine_clock (b : Blk) (n : Nat) (f : Line → Line) : (b.modLine n f).clock = b.clock := rfl
@[simp] theorem Blk.modLine_power (b : Blk) (n : Nat) (f : Line → Line) : (b.modLine n f).power = b.power := rfl
@[simp] theorem Blk.modLine_ldr (b : Blk) (n : Nat) (f : Line → Line) : (b.modLine n f).ldr = b.ldr := rfl
@[simp] theorem Blk.modLine_image (b : Blk) (n : Nat) (f : Line → Line) : (b.modLine n f).image = b.image := rfl
@[simp] theorem Blk.modLine_regs (b : Blk) (n : Nat) (f : Line → Line) : (b.modLine n f).regs = b.regs := rfl
@[simp] theorem Blk.modLine_shadow (b : Blk) (n : Nat) (f : Line → Line) : (b.modLine n f).shadow = b.shadow := rfl
@[simp] theorem Blk.modLine_mg (b : Blk) (n : Nat) (f : Line → Line) : (b.modLine n f).mg = b.mg := rfl
@[simp] theorem Blk.modLine_upd (b : Blk) (n : Nat) (f : Line → Line) : (b.modLine n f).upd = b.upd := rfl
@[simp] theorem Blk.modLine_sched (b : Blk) (n : Nat) (f : Line → Line) : (b.modLine n f).sched = b.sched := rfl
@[simp] theorem Blk.modLine_mga (b : Blk) (n : Nat) (f : Line → Line) : (b.modLine n f).mga = b.mga := rfl
@[simp] theorem Blk.modLine_mgb (b : Blk) (n : Nat) (f : Line → Line) : (b.modLine n f).mgb = b.mgb := rfl
@[simp] theorem Blk.modLine_domains (b : Blk) (n : Nat) (f : Line → Line) : (b.modLine n f).domains = b.domains := rfl
@[simp] theorem Blk.modLine_queues (b : Blk) (n : Nat) (f : Line → Line) : (b.modLine n f).queues = b.queues := rfl
@[simp] theorem Blk.modLine_cells (b : Blk) (n : Nat) (f : Line → Line) : (b.modLine n f).cells = b.cells := rfl
@[simp] theorem Blk.modLine_movers (b : Blk) (n : Nat) (f : Line → Line) : (b.modLine n f).movers = b.movers := rfl
@[simp] theorem Blk.modLine_movp (b : Blk) (n : Nat) (f : Line → Line) : (b.modLine n f).movp = b.movp := rfl
@[simp] theorem Blk.modLine_ports (b : Blk) (n : Nat) (f : Line → Line) : (b.modLine n f).ports = b.ports := rfl
@[simp] theorem Blk.modLine_links (b : Blk) (n : Nat) (f : Line → Line) : (b.modLine n f).links = b.links := rfl
@[simp] theorem Blk.modLine_ctoLinks (b : Blk) (n : Nat) (f : Line → Line) : (b.modLine n f).ctoLinks = b.ctoLinks := rfl
@[simp] theorem Blk.modLine_halfFailed (b : Blk) (n : Nat) (f : Line → Line) : (b.modLine n f).halfFailed = b.halfFailed := rfl
@[simp] theorem Blk.modLine_halfTest (b : Blk) (n : Nat) (f : Line → Line) : (b.modLine n f).halfTest = b.halfTest := rfl
@[simp] theorem Blk.modLine_inShadow (b : Blk) (n : Nat) (f : Line → Line) : (b.modLine n f).inShadow = b.inShadow := rfl
@[simp] theorem Blk.modLine_activeSet (b : Blk) (n : Nat) (f : Line → Line) : (b.modLine n f).activeSet = b.activeSet := rfl
@[simp] theorem Blk.modLine_standIn (b : Blk) (n : Nat) (f : Line → Line) : (b.modLine n f).standIn = b.standIn := rfl
@[simp] theorem Blk.modLine_halfIdle (b : Blk) (n : Nat) (f : Line → Line) : (b.modLine n f).halfIdle = b.halfIdle := rfl
@[simp] theorem Blk.modLine_halfFails (b : Blk) (n : Nat) (f : Line → Line) : (b.modLine n f).halfFails = b.halfFails := rfl
@[simp] theorem Blk.modLine_pus (b : Blk) (n : Nat) (f : Line → Line) : (b.modLine n f).pus = b.pus := rfl
@[simp] theorem Blk.modLine_vlines (b : Blk) (n : Nat) (f : Line → Line) : (b.modLine n f).vlines = b.vlines := rfl
@[simp] theorem Blk.modLine_fifos (b : Blk) (n : Nat) (f : Line → Line) : (b.modLine n f).fifos = b.fifos := rfl
@[simp] theorem Blk.modLine_sports (b : Blk) (n : Nat) (f : Line → Line) : (b.modLine n f).sports = b.sports := rfl
@[simp] theorem Blk.modLine_pool (b : Blk) (n : Nat) (f : Line → Line) : (b.modLine n f).pool = b.pool := rfl
@[simp] theorem Blk.modLine_slots (b : Blk) (n : Nat) (f : Line → Line) : (b.modLine n f).slots = b.slots := rfl
@[simp] theorem Blk.modLine_lats (b : Blk) (n : Nat) (f : Line → Line) : (b.modLine n f).lats = b.lats := rfl
@[simp] theorem Blk.modLine_pfail (b : Blk) (n : Nat) (f : Line → Line) : (b.modLine n f).pfail = b.pfail := rfl
@[simp] theorem Blk.modLine_vec (b : Blk) (n : Nat) (f : Line → Line) : (b.modLine n f).vec = b.vec := rfl
@[simp] theorem Blk.modLine_sup (b : Blk) (n : Nat) (f : Line → Line) : (b.modLine n f).sup = b.sup := rfl
@[simp] theorem Blk.modLine_banks (b : Blk) (n : Nat) (f : Line → Line) : (b.modLine n f).banks = b.banks := rfl
@[simp] theorem Blk.modLine_relayDrops (b : Blk) (n : Nat) (f : Line → Line) : (b.modLine n f).relayDrops = b.relayDrops := rfl
@[simp] theorem Blk.modLine_relayWaits (b : Blk) (n : Nat) (f : Line → Line) : (b.modLine n f).relayWaits = b.relayWaits := rfl
@[simp] theorem Blk.modLine_rerouted (b : Blk) (n : Nat) (f : Line → Line) : (b.modLine n f).rerouted = b.rerouted := rfl
@[simp] theorem Blk.modLine_trace (b : Blk) (n : Nat) (f : Line → Line) : (b.modLine n f).trace = b.trace := rfl
@[simp] theorem Blk.modLine_order (b : Blk) (n : Nat) (f : Line → Line) : (b.modLine n f).order = b.order := rfl
@[simp] theorem Blk.modLine_relaySeq (b : Blk) (n : Nat) (f : Line → Line) : (b.modLine n f).relaySeq = b.relaySeq := rfl
@[simp] theorem Blk.modLine_freeNo (b : Blk) (n : Nat) (f : Line → Line) : (b.modLine n f).freeNo = b.freeNo := rfl
@[simp] theorem Blk.modLine_get_reg (b : Blk) (n : Nat) (f : Line → Line) (z : Nat) : (b.modLine n f).reg z = b.reg z := rfl
@[simp] theorem Blk.modLine_get_on (b : Blk) (n : Nat) (f : Line → Line) (z : Nat) : (b.modLine n f).on z = b.on z := rfl
@[simp] theorem Blk.modLine_get_queue (b : Blk) (n : Nat) (f : Line → Line) (r : QRef) : (b.modLine n f).queue r = b.queue r := rfl
@[simp] theorem Blk.modLine_get_mover (b : Blk) (n : Nat) (f : Line → Line) (i : Nat) : (b.modLine n f).mover i = b.mover i := rfl
@[simp] theorem Blk.modLine_get_port (b : Blk) (n : Nat) (f : Line → Line) (i : Nat) : (b.modLine n f).port i = b.port i := rfl
@[simp] theorem Blk.modLine_get_domain (b : Blk) (n : Nat) (f : Line → Line) (i : Nat) : (b.modLine n f).domain i = b.domain i := rfl
@[simp] theorem Blk.modLine_get_pu (b : Blk) (n : Nat) (f : Line → Line) (i : Nat) : (b.modLine n f).pu i = b.pu i := rfl
@[simp] theorem Blk.modLine_get_fifo (b : Blk) (n : Nat) (f : Line → Line) (i : Nat) : (b.modLine n f).fifo i = b.fifo i := rfl
@[simp] theorem Blk.modLine_get_sport (b : Blk) (n : Nat) (f : Line → Line) (i : Nat) : (b.modLine n f).sport i = b.sport i := rfl
@[simp] theorem Blk.modLine_get_slot (b : Blk) (n : Nat) (f : Line → Line) (i : Nat) : (b.modLine n f).slot i = b.slot i := rfl
@[simp] theorem Blk.modLine_get_lat (b : Blk) (n : Nat) (f : Line → Line) (i : Nat) : (b.modLine n f).lat i = b.lat i := rfl
@[simp] theorem Blk.modLine_get_vline (b : Blk) (n : Nat) (f : Line → Line) (i : Nat) : (b.modLine n f).vline i = b.vline i := rfl
@[simp] theorem Blk.modLine_get_img (b : Blk) (n : Nat) (f : Line → Line)  : (b.modLine n f).img = b.img := rfl
@[simp] theorem Blk.modLine_get_inSafe (b : Blk) (n : Nat) (f : Line → Line)  : (b.modLine n f).inSafe = b.inSafe := rfl
@[simp] theorem Blk.modLine_get_ready (b : Blk) (n : Nat) (f : Line → Line)  : (b.modLine n f).ready = b.ready := rfl
@[simp] theorem Blk.modVline_clock (b : Blk) (v : Nat) (f : VLine → VLine) : (b.modVline v f).clock = b.clock := rfl
@[simp] theorem Blk.modVline_power (b : Blk) (v : Nat) (f : VLine → VLine) : (b.modVline v f).power = b.power := rfl
@[simp] theorem Blk.modVline_ldr (b : Blk) (v : Nat) (f : VLine → VLine) : (b.modVline v f).ldr = b.ldr := rfl
@[simp] theorem Blk.modVline_image (b : Blk) (v : Nat) (f : VLine → VLine) : (b.modVline v f).image = b.image := rfl
@[simp] theorem Blk.modVline_regs (b : Blk) (v : Nat) (f : VLine → VLine) : (b.modVline v f).regs = b.regs := rfl
@[simp] theorem Blk.modVline_shadow (b : Blk) (v : Nat) (f : VLine → VLine) : (b.modVline v f).shadow = b.shadow := rfl
@[simp] theorem Blk.modVline_mg (b : Blk) (v : Nat) (f : VLine → VLine) : (b.modVline v f).mg = b.mg := rfl
@[simp] theorem Blk.modVline_upd (b : Blk) (v : Nat) (f : VLine → VLine) : (b.modVline v f).upd = b.upd := rfl
@[simp] theorem Blk.modVline_sched (b : Blk) (v : Nat) (f : VLine → VLine) : (b.modVline v f).sched = b.sched := rfl
@[simp] theorem Blk.modVline_mga (b : Blk) (v : Nat) (f : VLine → VLine) : (b.modVline v f).mga = b.mga := rfl
@[simp] theorem Blk.modVline_mgb (b : Blk) (v : Nat) (f : VLine → VLine) : (b.modVline v f).mgb = b.mgb := rfl
@[simp] theorem Blk.modVline_domains (b : Blk) (v : Nat) (f : VLine → VLine) : (b.modVline v f).domains = b.domains := rfl
@[simp] theorem Blk.modVline_queues (b : Blk) (v : Nat) (f : VLine → VLine) : (b.modVline v f).queues = b.queues := rfl
@[simp] theorem Blk.modVline_cells (b : Blk) (v : Nat) (f : VLine → VLine) : (b.modVline v f).cells = b.cells := rfl
@[simp] theorem Blk.modVline_movers (b : Blk) (v : Nat) (f : VLine → VLine) : (b.modVline v f).movers = b.movers := rfl
@[simp] theorem Blk.modVline_movp (b : Blk) (v : Nat) (f : VLine → VLine) : (b.modVline v f).movp = b.movp := rfl
@[simp] theorem Blk.modVline_ports (b : Blk) (v : Nat) (f : VLine → VLine) : (b.modVline v f).ports = b.ports := rfl
@[simp] theorem Blk.modVline_links (b : Blk) (v : Nat) (f : VLine → VLine) : (b.modVline v f).links = b.links := rfl
@[simp] theorem Blk.modVline_ctoLinks (b : Blk) (v : Nat) (f : VLine → VLine) : (b.modVline v f).ctoLinks = b.ctoLinks := rfl
@[simp] theorem Blk.modVline_halfFailed (b : Blk) (v : Nat) (f : VLine → VLine) : (b.modVline v f).halfFailed = b.halfFailed := rfl
@[simp] theorem Blk.modVline_halfTest (b : Blk) (v : Nat) (f : VLine → VLine) : (b.modVline v f).halfTest = b.halfTest := rfl
@[simp] theorem Blk.modVline_inShadow (b : Blk) (v : Nat) (f : VLine → VLine) : (b.modVline v f).inShadow = b.inShadow := rfl
@[simp] theorem Blk.modVline_activeSet (b : Blk) (v : Nat) (f : VLine → VLine) : (b.modVline v f).activeSet = b.activeSet := rfl
@[simp] theorem Blk.modVline_standIn (b : Blk) (v : Nat) (f : VLine → VLine) : (b.modVline v f).standIn = b.standIn := rfl
@[simp] theorem Blk.modVline_halfIdle (b : Blk) (v : Nat) (f : VLine → VLine) : (b.modVline v f).halfIdle = b.halfIdle := rfl
@[simp] theorem Blk.modVline_halfFails (b : Blk) (v : Nat) (f : VLine → VLine) : (b.modVline v f).halfFails = b.halfFails := rfl
@[simp] theorem Blk.modVline_pus (b : Blk) (v : Nat) (f : VLine → VLine) : (b.modVline v f).pus = b.pus := rfl
@[simp] theorem Blk.modVline_lines (b : Blk) (v : Nat) (f : VLine → VLine) : (b.modVline v f).lines = b.lines := rfl
@[simp] theorem Blk.modVline_fifos (b : Blk) (v : Nat) (f : VLine → VLine) : (b.modVline v f).fifos = b.fifos := rfl
@[simp] theorem Blk.modVline_sports (b : Blk) (v : Nat) (f : VLine → VLine) : (b.modVline v f).sports = b.sports := rfl
@[simp] theorem Blk.modVline_pool (b : Blk) (v : Nat) (f : VLine → VLine) : (b.modVline v f).pool = b.pool := rfl
@[simp] theorem Blk.modVline_slots (b : Blk) (v : Nat) (f : VLine → VLine) : (b.modVline v f).slots = b.slots := rfl
@[simp] theorem Blk.modVline_lats (b : Blk) (v : Nat) (f : VLine → VLine) : (b.modVline v f).lats = b.lats := rfl
@[simp] theorem Blk.modVline_pfail (b : Blk) (v : Nat) (f : VLine → VLine) : (b.modVline v f).pfail = b.pfail := rfl
@[simp] theorem Blk.modVline_vec (b : Blk) (v : Nat) (f : VLine → VLine) : (b.modVline v f).vec = b.vec := rfl
@[simp] theorem Blk.modVline_sup (b : Blk) (v : Nat) (f : VLine → VLine) : (b.modVline v f).sup = b.sup := rfl
@[simp] theorem Blk.modVline_banks (b : Blk) (v : Nat) (f : VLine → VLine) : (b.modVline v f).banks = b.banks := rfl
@[simp] theorem Blk.modVline_relayDrops (b : Blk) (v : Nat) (f : VLine → VLine) : (b.modVline v f).relayDrops = b.relayDrops := rfl
@[simp] theorem Blk.modVline_relayWaits (b : Blk) (v : Nat) (f : VLine → VLine) : (b.modVline v f).relayWaits = b.relayWaits := rfl
@[simp] theorem Blk.modVline_rerouted (b : Blk) (v : Nat) (f : VLine → VLine) : (b.modVline v f).rerouted = b.rerouted := rfl
@[simp] theorem Blk.modVline_trace (b : Blk) (v : Nat) (f : VLine → VLine) : (b.modVline v f).trace = b.trace := rfl
@[simp] theorem Blk.modVline_order (b : Blk) (v : Nat) (f : VLine → VLine) : (b.modVline v f).order = b.order := rfl
@[simp] theorem Blk.modVline_relaySeq (b : Blk) (v : Nat) (f : VLine → VLine) : (b.modVline v f).relaySeq = b.relaySeq := rfl
@[simp] theorem Blk.modVline_freeNo (b : Blk) (v : Nat) (f : VLine → VLine) : (b.modVline v f).freeNo = b.freeNo := rfl
@[simp] theorem Blk.modVline_get_reg (b : Blk) (v : Nat) (f : VLine → VLine) (z : Nat) : (b.modVline v f).reg z = b.reg z := rfl
@[simp] theorem Blk.modVline_get_on (b : Blk) (v : Nat) (f : VLine → VLine) (z : Nat) : (b.modVline v f).on z = b.on z := rfl
@[simp] theorem Blk.modVline_get_queue (b : Blk) (v : Nat) (f : VLine → VLine) (r : QRef) : (b.modVline v f).queue r = b.queue r := rfl
@[simp] theorem Blk.modVline_get_mover (b : Blk) (v : Nat) (f : VLine → VLine) (i : Nat) : (b.modVline v f).mover i = b.mover i := rfl
@[simp] theorem Blk.modVline_get_port (b : Blk) (v : Nat) (f : VLine → VLine) (i : Nat) : (b.modVline v f).port i = b.port i := rfl
@[simp] theorem Blk.modVline_get_domain (b : Blk) (v : Nat) (f : VLine → VLine) (i : Nat) : (b.modVline v f).domain i = b.domain i := rfl
@[simp] theorem Blk.modVline_get_pu (b : Blk) (v : Nat) (f : VLine → VLine) (i : Nat) : (b.modVline v f).pu i = b.pu i := rfl
@[simp] theorem Blk.modVline_get_line (b : Blk) (v : Nat) (f : VLine → VLine) (i : Nat) : (b.modVline v f).line i = b.line i := rfl
@[simp] theorem Blk.modVline_get_fifo (b : Blk) (v : Nat) (f : VLine → VLine) (i : Nat) : (b.modVline v f).fifo i = b.fifo i := rfl
@[simp] theorem Blk.modVline_get_sport (b : Blk) (v : Nat) (f : VLine → VLine) (i : Nat) : (b.modVline v f).sport i = b.sport i := rfl
@[simp] theorem Blk.modVline_get_slot (b : Blk) (v : Nat) (f : VLine → VLine) (i : Nat) : (b.modVline v f).slot i = b.slot i := rfl
@[simp] theorem Blk.modVline_get_lat (b : Blk) (v : Nat) (f : VLine → VLine) (i : Nat) : (b.modVline v f).lat i = b.lat i := rfl
@[simp] theorem Blk.modVline_get_img (b : Blk) (v : Nat) (f : VLine → VLine)  : (b.modVline v f).img = b.img := rfl
@[simp] theorem Blk.modVline_get_inSafe (b : Blk) (v : Nat) (f : VLine → VLine)  : (b.modVline v f).inSafe = b.inSafe := rfl
@[simp] theorem Blk.modVline_get_ready (b : Blk) (v : Nat) (f : VLine → VLine)  : (b.modVline v f).ready = b.ready := rfl
@[simp] theorem Blk.modFifo_clock (b : Blk) (n : Nat) (f : Fifo → Fifo) : (b.modFifo n f).clock = b.clock := rfl
@[simp] theorem Blk.modFifo_power (b : Blk) (n : Nat) (f : Fifo → Fifo) : (b.modFifo n f).power = b.power := rfl
@[simp] theorem Blk.modFifo_ldr (b : Blk) (n : Nat) (f : Fifo → Fifo) : (b.modFifo n f).ldr = b.ldr := rfl
@[simp] theorem Blk.modFifo_image (b : Blk) (n : Nat) (f : Fifo → Fifo) : (b.modFifo n f).image = b.image := rfl
@[simp] theorem Blk.modFifo_regs (b : Blk) (n : Nat) (f : Fifo → Fifo) : (b.modFifo n f).regs = b.regs := rfl
@[simp] theorem Blk.modFifo_shadow (b : Blk) (n : Nat) (f : Fifo → Fifo) : (b.modFifo n f).shadow = b.shadow := rfl
@[simp] theorem Blk.modFifo_mg (b : Blk) (n : Nat) (f : Fifo → Fifo) : (b.modFifo n f).mg = b.mg := rfl
@[simp] theorem Blk.modFifo_upd (b : Blk) (n : Nat) (f : Fifo → Fifo) : (b.modFifo n f).upd = b.upd := rfl
@[simp] theorem Blk.modFifo_sched (b : Blk) (n : Nat) (f : Fifo → Fifo) : (b.modFifo n f).sched = b.sched := rfl
@[simp] theorem Blk.modFifo_mga (b : Blk) (n : Nat) (f : Fifo → Fifo) : (b.modFifo n f).mga = b.mga := rfl
@[simp] theorem Blk.modFifo_mgb (b : Blk) (n : Nat) (f : Fifo → Fifo) : (b.modFifo n f).mgb = b.mgb := rfl
@[simp] theorem Blk.modFifo_domains (b : Blk) (n : Nat) (f : Fifo → Fifo) : (b.modFifo n f).domains = b.domains := rfl
@[simp] theorem Blk.modFifo_queues (b : Blk) (n : Nat) (f : Fifo → Fifo) : (b.modFifo n f).queues = b.queues := rfl
@[simp] theorem Blk.modFifo_cells (b : Blk) (n : Nat) (f : Fifo → Fifo) : (b.modFifo n f).cells = b.cells := rfl
@[simp] theorem Blk.modFifo_movers (b : Blk) (n : Nat) (f : Fifo → Fifo) : (b.modFifo n f).movers = b.movers := rfl
@[simp] theorem Blk.modFifo_movp (b : Blk) (n : Nat) (f : Fifo → Fifo) : (b.modFifo n f).movp = b.movp := rfl
@[simp] theorem Blk.modFifo_ports (b : Blk) (n : Nat) (f : Fifo → Fifo) : (b.modFifo n f).ports = b.ports := rfl
@[simp] theorem Blk.modFifo_links (b : Blk) (n : Nat) (f : Fifo → Fifo) : (b.modFifo n f).links = b.links := rfl
@[simp] theorem Blk.modFifo_ctoLinks (b : Blk) (n : Nat) (f : Fifo → Fifo) : (b.modFifo n f).ctoLinks = b.ctoLinks := rfl
@[simp] theorem Blk.modFifo_halfFailed (b : Blk) (n : Nat) (f : Fifo → Fifo) : (b.modFifo n f).halfFailed = b.halfFailed := rfl
@[simp] theorem Blk.modFifo_halfTest (b : Blk) (n : Nat) (f : Fifo → Fifo) : (b.modFifo n f).halfTest = b.halfTest := rfl
@[simp] theorem Blk.modFifo_inShadow (b : Blk) (n : Nat) (f : Fifo → Fifo) : (b.modFifo n f).inShadow = b.inShadow := rfl
@[simp] theorem Blk.modFifo_activeSet (b : Blk) (n : Nat) (f : Fifo → Fifo) : (b.modFifo n f).activeSet = b.activeSet := rfl
@[simp] theorem Blk.modFifo_standIn (b : Blk) (n : Nat) (f : Fifo → Fifo) : (b.modFifo n f).standIn = b.standIn := rfl
@[simp] theorem Blk.modFifo_halfIdle (b : Blk) (n : Nat) (f : Fifo → Fifo) : (b.modFifo n f).halfIdle = b.halfIdle := rfl
@[simp] theorem Blk.modFifo_halfFails (b : Blk) (n : Nat) (f : Fifo → Fifo) : (b.modFifo n f).halfFails = b.halfFails := rfl
@[simp] theorem Blk.modFifo_pus (b : Blk) (n : Nat) (f : Fifo → Fifo) : (b.modFifo n f).pus = b.pus := rfl
@[simp] theorem Blk.modFifo_lines (b : Blk) (n : Nat) (f : Fifo → Fifo) : (b.modFifo n f).lines = b.lines := rfl
@[simp] theorem Blk.modFifo_vlines (b : Blk) (n : Nat) (f : Fifo → Fifo) : (b.modFifo n f).vlines = b.vlines := rfl
@[simp] theorem Blk.modFifo_sports (b : Blk) (n : Nat) (f : Fifo → Fifo) : (b.modFifo n f).sports = b.sports := rfl
@[simp] theorem Blk.modFifo_pool (b : Blk) (n : Nat) (f : Fifo → Fifo) : (b.modFifo n f).pool = b.pool := rfl
@[simp] theorem Blk.modFifo_slots (b : Blk) (n : Nat) (f : Fifo → Fifo) : (b.modFifo n f).slots = b.slots := rfl
@[simp] theorem Blk.modFifo_lats (b : Blk) (n : Nat) (f : Fifo → Fifo) : (b.modFifo n f).lats = b.lats := rfl
@[simp] theorem Blk.modFifo_pfail (b : Blk) (n : Nat) (f : Fifo → Fifo) : (b.modFifo n f).pfail = b.pfail := rfl
@[simp] theorem Blk.modFifo_vec (b : Blk) (n : Nat) (f : Fifo → Fifo) : (b.modFifo n f).vec = b.vec := rfl
@[simp] theorem Blk.modFifo_sup (b : Blk) (n : Nat) (f : Fifo → Fifo) : (b.modFifo n f).sup = b.sup := rfl
@[simp] theorem Blk.modFifo_banks (b : Blk) (n : Nat) (f : Fifo → Fifo) : (b.modFifo n f).banks = b.banks := rfl
@[simp] theorem Blk.modFifo_relayDrops (b : Blk) (n : Nat) (f : Fifo → Fifo) : (b.modFifo n f).relayDrops = b.relayDrops := rfl
@[simp] theorem Blk.modFifo_relayWaits (b : Blk) (n : Nat) (f : Fifo → Fifo) : (b.modFifo n f).relayWaits = b.relayWaits := rfl
@[simp] theorem Blk.modFifo_rerouted (b : Blk) (n : Nat) (f : Fifo → Fifo) : (b.modFifo n f).rerouted = b.rerouted := rfl
@[simp] theorem Blk.modFifo_trace (b : Blk) (n : Nat) (f : Fifo → Fifo) : (b.modFifo n f).trace = b.trace := rfl
@[simp] theorem Blk.modFifo_order (b : Blk) (n : Nat) (f : Fifo → Fifo) : (b.modFifo n f).order = b.order := rfl
@[simp] theorem Blk.modFifo_relaySeq (b : Blk) (n : Nat) (f : Fifo → Fifo) : (b.modFifo n f).relaySeq = b.relaySeq := rfl
@[simp] theorem Blk.modFifo_freeNo (b : Blk) (n : Nat) (f : Fifo → Fifo) : (b.modFifo n f).freeNo = b.freeNo := rfl
@[simp] theorem Blk.modFifo_get_reg (b : Blk) (n : Nat) (f : Fifo → Fifo) (z : Nat) : (b.modFifo n f).reg z = b.reg z := rfl
@[simp] theorem Blk.modFifo_get_on (b : Blk) (n : Nat) (f : Fifo → Fifo) (z : Nat) : (b.modFifo n f).on z = b.on z := rfl
@[simp] theorem Blk.modFifo_get_queue (b : Blk) (n : Nat) (f : Fifo → Fifo) (r : QRef) : (b.modFifo n f).queue r = b.queue r := rfl
@[simp] theorem Blk.modFifo_get_mover (b : Blk) (n : Nat) (f : Fifo → Fifo) (i : Nat) : (b.modFifo n f).mover i = b.mover i := rfl
@[simp] theorem Blk.modFifo_get_port (b : Blk) (n : Nat) (f : Fifo → Fifo) (i : Nat) : (b.modFifo n f).port i = b.port i := rfl
@[simp] theorem Blk.modFifo_get_domain (b : Blk) (n : Nat) (f : Fifo → Fifo) (i : Nat) : (b.modFifo n f).domain i = b.domain i := rfl
@[simp] theorem Blk.modFifo_get_pu (b : Blk) (n : Nat) (f : Fifo → Fifo) (i : Nat) : (b.modFifo n f).pu i = b.pu i := rfl
@[simp] theorem Blk.modFifo_get_line (b : Blk) (n : Nat) (f : Fifo → Fifo) (i : Nat) : (b.modFifo n f).line i = b.line i := rfl
@[simp] theorem Blk.modFifo_get_sport (b : Blk) (n : Nat) (f : Fifo → Fifo) (i : Nat) : (b.modFifo n f).sport i = b.sport i := rfl
@[simp] theorem Blk.modFifo_get_slot (b : Blk) (n : Nat) (f : Fifo → Fifo) (i : Nat) : (b.modFifo n f).slot i = b.slot i := rfl
@[simp] theorem Blk.modFifo_get_lat (b : Blk) (n : Nat) (f : Fifo → Fifo) (i : Nat) : (b.modFifo n f).lat i = b.lat i := rfl
@[simp] theorem Blk.modFifo_get_vline (b : Blk) (n : Nat) (f : Fifo → Fifo) (i : Nat) : (b.modFifo n f).vline i = b.vline i := rfl
@[simp] theorem Blk.modFifo_get_img (b : Blk) (n : Nat) (f : Fifo → Fifo)  : (b.modFifo n f).img = b.img := rfl
@[simp] theorem Blk.modFifo_get_inSafe (b : Blk) (n : Nat) (f : Fifo → Fifo)  : (b.modFifo n f).inSafe = b.inSafe := rfl
@[simp] theorem Blk.modFifo_get_ready (b : Blk) (n : Nat) (f : Fifo → Fifo)  : (b.modFifo n f).ready = b.ready := rfl
@[simp] theorem Blk.modSport_clock (b : Blk) (n : Nat) (f : SPort → SPort) : (b.modSport n f).clock = b.clock := rfl
@[simp] theorem Blk.modSport_power (b : Blk) (n : Nat) (f : SPort → SPort) : (b.modSport n f).power = b.power := rfl
@[simp] theorem Blk.modSport_ldr (b : Blk) (n : Nat) (f : SPort → SPort) : (b.modSport n f).ldr = b.ldr := rfl
@[simp] theorem Blk.modSport_image (b : Blk) (n : Nat) (f : SPort → SPort) : (b.modSport n f).image = b.image := rfl
@[simp] theorem Blk.modSport_regs (b : Blk) (n : Nat) (f : SPort → SPort) : (b.modSport n f).regs = b.regs := rfl
@[simp] theorem Blk.modSport_shadow (b : Blk) (n : Nat) (f : SPort → SPort) : (b.modSport n f).shadow = b.shadow := rfl
@[simp] theorem Blk.modSport_mg (b : Blk) (n : Nat) (f : SPort → SPort) : (b.modSport n f).mg = b.mg := rfl
@[simp] theorem Blk.modSport_upd (b : Blk) (n : Nat) (f : SPort → SPort) : (b.modSport n f).upd = b.upd := rfl
@[simp] theorem Blk.modSport_sched (b : Blk) (n : Nat) (f : SPort → SPort) : (b.modSport n f).sched = b.sched := rfl
@[simp] theorem Blk.modSport_mga (b : Blk) (n : Nat) (f : SPort → SPort) : (b.modSport n f).mga = b.mga := rfl
@[simp] theorem Blk.modSport_mgb (b : Blk) (n : Nat) (f : SPort → SPort) : (b.modSport n f).mgb = b.mgb := rfl
@[simp] theorem Blk.modSport_domains (b : Blk) (n : Nat) (f : SPort → SPort) : (b.modSport n f).domains = b.domains := rfl
@[simp] theorem Blk.modSport_queues (b : Blk) (n : Nat) (f : SPort → SPort) : (b.modSport n f).queues = b.queues := rfl
@[simp] theorem Blk.modSport_cells (b : Blk) (n : Nat) (f : SPort → SPort) : (b.modSport n f).cells = b.cells := rfl
@[simp] theorem Blk.modSport_movers (b : Blk) (n : Nat) (f : SPort → SPort) : (b.modSport n f).movers = b.movers := rfl
@[simp] theorem Blk.modSport_movp (b : Blk) (n : Nat) (f : SPort → SPort) : (b.modSport n f).movp = b.movp := rfl
@[simp] theorem Blk.modSport_ports (b : Blk) (n : Nat) (f : SPort → SPort) : (b.modSport n f).ports = b.ports := rfl
@[simp] theorem Blk.modSport_links (b : Blk) (n : Nat) (f : SPort → SPort) : (b.modSport n f).links = b.links := rfl
@[simp] theorem Blk.modSport_ctoLinks (b : Blk) (n : Nat) (f : SPort → SPort) : (b.modSport n f).ctoLinks = b.ctoLinks := rfl
@[simp] theorem Blk.modSport_halfFailed (b : Blk) (n : Nat) (f : SPort → SPort) : (b.modSport n f).halfFailed = b.halfFailed := rfl
@[simp] theorem Blk.modSport_halfTest (b : Blk) (n : Nat) (f : SPort → SPort) : (b.modSport n f).halfTest = b.halfTest := rfl
@[simp] theorem Blk.modSport_inShadow (b : Blk) (n : Nat) (f : SPort → SPort) : (b.modSport n f).inShadow = b.inShadow := rfl
@[simp] theorem Blk.modSport_activeSet (b : Blk) (n : Nat) (f : SPort → SPort) : (b.modSport n f).activeSet = b.activeSet := rfl
@[simp] theorem Blk.modSport_standIn (b : Blk) (n : Nat) (f : SPort → SPort) : (b.modSport n f).standIn = b.standIn := rfl
@[simp] theorem Blk.modSport_halfIdle (b : Blk) (n : Nat) (f : SPort → SPort) : (b.modSport n f).halfIdle = b.halfIdle := rfl
@[simp] theorem Blk.modSport_halfFails (b : Blk) (n : Nat) (f : SPort → SPort) : (b.modSport n f).halfFails = b.halfFails := rfl
@[simp] theorem Blk.modSport_pus (b : Blk) (n : Nat) (f : SPort → SPort) : (b.modSport n f).pus = b.pus := rfl
@[simp] theorem Blk.modSport_lines (b : Blk) (n : Nat) (f : SPort → SPort) : (b.modSport n f).lines = b.lines := rfl
@[simp] theorem Blk.modSport_vlines (b : Blk) (n : Nat) (f : SPort → SPort) : (b.modSport n f).vlines = b.vlines := rfl
@[simp] theorem Blk.modSport_fifos (b : Blk) (n : Nat) (f : SPort → SPort) : (b.modSport n f).fifos = b.fifos := rfl
@[simp] theorem Blk.modSport_pool (b : Blk) (n : Nat) (f : SPort → SPort) : (b.modSport n f).pool = b.pool := rfl
@[simp] theorem Blk.modSport_slots (b : Blk) (n : Nat) (f : SPort → SPort) : (b.modSport n f).slots = b.slots := rfl
@[simp] theorem Blk.modSport_lats (b : Blk) (n : Nat) (f : SPort → SPort) : (b.modSport n f).lats = b.lats := rfl
@[simp] theorem Blk.modSport_pfail (b : Blk) (n : Nat) (f : SPort → SPort) : (b.modSport n f).pfail = b.pfail := rfl
@[simp] theorem Blk.modSport_vec (b : Blk) (n : Nat) (f : SPort → SPort) : (b.modSport n f).vec = b.vec := rfl
@[simp] theorem Blk.modSport_sup (b : Blk) (n : Nat) (f : SPort → SPort) : (b.modSport n f).sup = b.sup := rfl
@[simp] theorem Blk.modSport_banks (b : Blk) (n : Nat) (f : SPort → SPort) : (b.modSport n f).banks = b.banks := rfl
@[simp] theorem Blk.modSport_relayDrops (b : Blk) (n : Nat) (f : SPort → SPort) : (b.modSport n f).relayDrops = b.relayDrops := rfl
@[simp] theorem Blk.modSport_relayWaits (b : Blk) (n : Nat) (f : SPort → SPort) : (b.modSport n f).relayWaits = b.relayWaits := rfl
@[simp] theorem Blk.modSport_rerouted (b : Blk) (n : Nat) (f : SPort → SPort) : (b.modSport n f).rerouted = b.rerouted := rfl
@[simp] theorem Blk.modSport_trace (b : Blk) (n : Nat) (f : SPort → SPort) : (b.modSport n f).trace = b.trace := rfl
@[simp] theorem Blk.modSport_order (b : Blk) (n : Nat) (f : SPort → SPort) : (b.modSport n f).order = b.order := rfl
@[simp] theorem Blk.modSport_relaySeq (b : Blk) (n : Nat) (f : SPort → SPort) : (b.modSport n f).relaySeq = b.relaySeq := rfl
@[simp] theorem Blk.modSport_freeNo (b : Blk) (n : Nat) (f : SPort → SPort) : (b.modSport n f).freeNo = b.freeNo := rfl
@[simp] theorem Blk.modSport_get_reg (b : Blk) (n : Nat) (f : SPort → SPort) (z : Nat) : (b.modSport n f).reg z = b.reg z := rfl
@[simp] theorem Blk.modSport_get_on (b : Blk) (n : Nat) (f : SPort → SPort) (z : Nat) : (b.modSport n f).on z = b.on z := rfl
@[simp] theorem Blk.modSport_get_queue (b : Blk) (n : Nat) (f : SPort → SPort) (r : QRef) : (b.modSport n f).queue r = b.queue r := rfl
@[simp] theorem Blk.modSport_get_mover (b : Blk) (n : Nat) (f : SPort → SPort) (i : Nat) : (b.modSport n f).mover i = b.mover i := rfl
@[simp] theorem Blk.modSport_get_port (b : Blk) (n : Nat) (f : SPort → SPort) (i : Nat) : (b.modSport n f).port i = b.port i := rfl
@[simp] theorem Blk.modSport_get_domain (b : Blk) (n : Nat) (f : SPort → SPort) (i : Nat) : (b.modSport n f).domain i = b.domain i := rfl
@[simp] theorem Blk.modSport_get_pu (b : Blk) (n : Nat) (f : SPort → SPort) (i : Nat) : (b.modSport n f).pu i = b.pu i := rfl
@[simp] theorem Blk.modSport_get_line (b : Blk) (n : Nat) (f : SPort → SPort) (i : Nat) : (b.modSport n f).line i = b.line i := rfl
@[simp] theorem Blk.modSport_get_fifo (b : Blk) (n : Nat) (f : SPort → SPort) (i : Nat) : (b.modSport n f).fifo i = b.fifo i := rfl
@[simp] theorem Blk.modSport_get_slot (b : Blk) (n : Nat) (f : SPort → SPort) (i : Nat) : (b.modSport n f).slot i = b.slot i := rfl
@[simp] theorem Blk.modSport_get_lat (b : Blk) (n : Nat) (f : SPort → SPort) (i : Nat) : (b.modSport n f).lat i = b.lat i := rfl
@[simp] theorem Blk.modSport_get_vline (b : Blk) (n : Nat) (f : SPort → SPort) (i : Nat) : (b.modSport n f).vline i = b.vline i := rfl
@[simp] theorem Blk.modSport_get_img (b : Blk) (n : Nat) (f : SPort → SPort)  : (b.modSport n f).img = b.img := rfl
@[simp] theorem Blk.modSport_get_inSafe (b : Blk) (n : Nat) (f : SPort → SPort)  : (b.modSport n f).inSafe = b.inSafe := rfl
@[simp] theorem Blk.modSport_get_ready (b : Blk) (n : Nat) (f : SPort → SPort)  : (b.modSport n f).ready = b.ready := rfl
@[simp] theorem Blk.modSlot_clock (b : Blk) (n : Nat) (f : Slot → Slot) : (b.modSlot n f).clock = b.clock := rfl
@[simp] theorem Blk.modSlot_power (b : Blk) (n : Nat) (f : Slot → Slot) : (b.modSlot n f).power = b.power := rfl
@[simp] theorem Blk.modSlot_ldr (b : Blk) (n : Nat) (f : Slot → Slot) : (b.modSlot n f).ldr = b.ldr := rfl
@[simp] theorem Blk.modSlot_image (b : Blk) (n : Nat) (f : Slot → Slot) : (b.modSlot n f).image = b.image := rfl
@[simp] theorem Blk.modSlot_regs (b : Blk) (n : Nat) (f : Slot → Slot) : (b.modSlot n f).regs = b.regs := rfl
@[simp] theorem Blk.modSlot_shadow (b : Blk) (n : Nat) (f : Slot → Slot) : (b.modSlot n f).shadow = b.shadow := rfl
@[simp] theorem Blk.modSlot_mg (b : Blk) (n : Nat) (f : Slot → Slot) : (b.modSlot n f).mg = b.mg := rfl
@[simp] theorem Blk.modSlot_upd (b : Blk) (n : Nat) (f : Slot → Slot) : (b.modSlot n f).upd = b.upd := rfl
@[simp] theorem Blk.modSlot_sched (b : Blk) (n : Nat) (f : Slot → Slot) : (b.modSlot n f).sched = b.sched := rfl
@[simp] theorem Blk.modSlot_mga (b : Blk) (n : Nat) (f : Slot → Slot) : (b.modSlot n f).mga = b.mga := rfl
@[simp] theorem Blk.modSlot_mgb (b : Blk) (n : Nat) (f : Slot → Slot) : (b.modSlot n f).mgb = b.mgb := rfl
@[simp] theorem Blk.modSlot_domains (b : Blk) (n : Nat) (f : Slot → Slot) : (b.modSlot n f).domains = b.domains := rfl
@[simp] theorem Blk.modSlot_queues (b : Blk) (n : Nat) (f : Slot → Slot) : (b.modSlot n f).queues = b.queues := rfl
@[simp] theorem Blk.modSlot_cells (b : Blk) (n : Nat) (f : Slot → Slot) : (b.modSlot n f).cells = b.cells := rfl
@[simp] theorem Blk.modSlot_movers (b : Blk) (n : Nat) (f : Slot → Slot) : (b.modSlot n f).movers = b.movers := rfl
@[simp] theorem Blk.modSlot_movp (b : Blk) (n : Nat) (f : Slot → Slot) : (b.modSlot n f).movp = b.movp := rfl
@[simp] theorem Blk.modSlot_ports (b : Blk) (n : Nat) (f : Slot → Slot) : (b.modSlot n f).ports = b.ports := rfl
@[simp] theorem Blk.modSlot_links (b : Blk) (n : Nat) (f : Slot → Slot) : (b.modSlot n f).links = b.links := rfl
@[simp] theorem Blk.modSlot_ctoLinks (b : Blk) (n : Nat) (f : Slot → Slot) : (b.modSlot n f).ctoLinks = b.ctoLinks := rfl
@[simp] theorem Blk.modSlot_halfFailed (b : Blk) (n : Nat) (f : Slot → Slot) : (b.modSlot n f).halfFailed = b.halfFailed := rfl
@[simp] theorem Blk.modSlot_halfTest (b : Blk) (n : Nat) (f : Slot → Slot) : (b.modSlot n f).halfTest = b.halfTest := rfl
@[simp] theorem Blk.modSlot_inShadow (b : Blk) (n : Nat) (f : Slot → Slot) : (b.modSlot n f).inShadow = b.inShadow := rfl
@[simp] theorem Blk.modSlot_activeSet (b : Blk) (n : Nat) (f : Slot → Slot) : (b.modSlot n f).activeSet = b.activeSet := rfl
@[simp] theorem Blk.modSlot_standIn (b : Blk) (n : Nat) (f : Slot → Slot) : (b.modSlot n f).standIn = b.standIn := rfl
@[simp] theorem Blk.modSlot_halfIdle (b : Blk) (n : Nat) (f : Slot → Slot) : (b.modSlot n f).halfIdle = b.halfIdle := rfl
@[simp] theorem Blk.modSlot_halfFails (b : Blk) (n : Nat) (f : Slot → Slot) : (b.modSlot n f).halfFails = b.halfFails := rfl
@[simp] theorem Blk.modSlot_pus (b : Blk) (n : Nat) (f : Slot → Slot) : (b.modSlot n f).pus = b.pus := rfl
@[simp] theorem Blk.modSlot_lines (b : Blk) (n : Nat) (f : Slot → Slot) : (b.modSlot n f).lines = b.lines := rfl
@[simp] theorem Blk.modSlot_vlines (b : Blk) (n : Nat) (f : Slot → Slot) : (b.modSlot n f).vlines = b.vlines := rfl
@[simp] theorem Blk.modSlot_fifos (b : Blk) (n : Nat) (f : Slot → Slot) : (b.modSlot n f).fifos = b.fifos := rfl
@[simp] theorem Blk.modSlot_sports (b : Blk) (n : Nat) (f : Slot → Slot) : (b.modSlot n f).sports = b.sports := rfl
@[simp] theorem Blk.modSlot_pool (b : Blk) (n : Nat) (f : Slot → Slot) : (b.modSlot n f).pool = b.pool := rfl
@[simp] theorem Blk.modSlot_lats (b : Blk) (n : Nat) (f : Slot → Slot) : (b.modSlot n f).lats = b.lats := rfl
@[simp] theorem Blk.modSlot_pfail (b : Blk) (n : Nat) (f : Slot → Slot) : (b.modSlot n f).pfail = b.pfail := rfl
@[simp] theorem Blk.modSlot_vec (b : Blk) (n : Nat) (f : Slot → Slot) : (b.modSlot n f).vec = b.vec := rfl
@[simp] theorem Blk.modSlot_sup (b : Blk) (n : Nat) (f : Slot → Slot) : (b.modSlot n f).sup = b.sup := rfl
@[simp] theorem Blk.modSlot_banks (b : Blk) (n : Nat) (f : Slot → Slot) : (b.modSlot n f).banks = b.banks := rfl
@[simp] theorem Blk.modSlot_relayDrops (b : Blk) (n : Nat) (f : Slot → Slot) : (b.modSlot n f).relayDrops = b.relayDrops := rfl
@[simp] theorem Blk.modSlot_relayWaits (b : Blk) (n : Nat) (f : Slot → Slot) : (b.modSlot n f).relayWaits = b.relayWaits := rfl
@[simp] theorem Blk.modSlot_rerouted (b : Blk) (n : Nat) (f : Slot → Slot) : (b.modSlot n f).rerouted = b.rerouted := rfl
@[simp] theorem Blk.modSlot_trace (b : Blk) (n : Nat) (f : Slot → Slot) : (b.modSlot n f).trace = b.trace := rfl
@[simp] theorem Blk.modSlot_order (b : Blk) (n : Nat) (f : Slot → Slot) : (b.modSlot n f).order = b.order := rfl
@[simp] theorem Blk.modSlot_relaySeq (b : Blk) (n : Nat) (f : Slot → Slot) : (b.modSlot n f).relaySeq = b.relaySeq := rfl
@[simp] theorem Blk.modSlot_freeNo (b : Blk) (n : Nat) (f : Slot → Slot) : (b.modSlot n f).freeNo = b.freeNo := rfl
@[simp] theorem Blk.modSlot_get_reg (b : Blk) (n : Nat) (f : Slot → Slot) (z : Nat) : (b.modSlot n f).reg z = b.reg z := rfl
@[simp] theorem Blk.modSlot_get_on (b : Blk) (n : Nat) (f : Slot → Slot) (z : Nat) : (b.modSlot n f).on z = b.on z := rfl
@[simp] theorem Blk.modSlot_get_queue (b : Blk) (n : Nat) (f : Slot → Slot) (r : QRef) : (b.modSlot n f).queue r = b.queue r := rfl
@[simp] theorem Blk.modSlot_get_mover (b : Blk) (n : Nat) (f : Slot → Slot) (i : Nat) : (b.modSlot n f).mover i = b.mover i := rfl
@[simp] theorem Blk.modSlot_get_port (b : Blk) (n : Nat) (f : Slot → Slot) (i : Nat) : (b.modSlot n f).port i = b.port i := rfl
@[simp] theorem Blk.modSlot_get_domain (b : Blk) (n : Nat) (f : Slot → Slot) (i : Nat) : (b.modSlot n f).domain i = b.domain i := rfl
@[simp] theorem Blk.modSlot_get_pu (b : Blk) (n : Nat) (f : Slot → Slot) (i : Nat) : (b.modSlot n f).pu i = b.pu i := rfl
@[simp] theorem Blk.modSlot_get_line (b : Blk) (n : Nat) (f : Slot → Slot) (i : Nat) : (b.modSlot n f).line i = b.line i := rfl
@[simp] theorem Blk.modSlot_get_fifo (b : Blk) (n : Nat) (f : Slot → Slot) (i : Nat) : (b.modSlot n f).fifo i = b.fifo i := rfl
@[simp] theorem Blk.modSlot_get_sport (b : Blk) (n : Nat) (f : Slot → Slot) (i : Nat) : (b.modSlot n f).sport i = b.sport i := rfl
@[simp] theorem Blk.modSlot_get_lat (b : Blk) (n : Nat) (f : Slot → Slot) (i : Nat) : (b.modSlot n f).lat i = b.lat i := rfl
@[simp] theorem Blk.modSlot_get_vline (b : Blk) (n : Nat) (f : Slot → Slot) (i : Nat) : (b.modSlot n f).vline i = b.vline i := rfl
@[simp] theorem Blk.modSlot_get_img (b : Blk) (n : Nat) (f : Slot → Slot)  : (b.modSlot n f).img = b.img := rfl
@[simp] theorem Blk.modSlot_get_inSafe (b : Blk) (n : Nat) (f : Slot → Slot)  : (b.modSlot n f).inSafe = b.inSafe := rfl
@[simp] theorem Blk.modSlot_get_ready (b : Blk) (n : Nat) (f : Slot → Slot)  : (b.modSlot n f).ready = b.ready := rfl
@[simp] theorem Blk.modLat_clock (b : Blk) (n : Nat) (f : LatRec → LatRec) : (b.modLat n f).clock = b.clock := rfl
@[simp] theorem Blk.modLat_power (b : Blk) (n : Nat) (f : LatRec → LatRec) : (b.modLat n f).power = b.power := rfl
@[simp] theorem Blk.modLat_ldr (b : Blk) (n : Nat) (f : LatRec → LatRec) : (b.modLat n f).ldr = b.ldr := rfl
@[simp] theorem Blk.modLat_image (b : Blk) (n : Nat) (f : LatRec → LatRec) : (b.modLat n f).image = b.image := rfl
@[simp] theorem Blk.modLat_regs (b : Blk) (n : Nat) (f : LatRec → LatRec) : (b.modLat n f).regs = b.regs := rfl
@[simp] theorem Blk.modLat_shadow (b : Blk) (n : Nat) (f : LatRec → LatRec) : (b.modLat n f).shadow = b.shadow := rfl
@[simp] theorem Blk.modLat_mg (b : Blk) (n : Nat) (f : LatRec → LatRec) : (b.modLat n f).mg = b.mg := rfl
@[simp] theorem Blk.modLat_upd (b : Blk) (n : Nat) (f : LatRec → LatRec) : (b.modLat n f).upd = b.upd := rfl
@[simp] theorem Blk.modLat_sched (b : Blk) (n : Nat) (f : LatRec → LatRec) : (b.modLat n f).sched = b.sched := rfl
@[simp] theorem Blk.modLat_mga (b : Blk) (n : Nat) (f : LatRec → LatRec) : (b.modLat n f).mga = b.mga := rfl
@[simp] theorem Blk.modLat_mgb (b : Blk) (n : Nat) (f : LatRec → LatRec) : (b.modLat n f).mgb = b.mgb := rfl
@[simp] theorem Blk.modLat_domains (b : Blk) (n : Nat) (f : LatRec → LatRec) : (b.modLat n f).domains = b.domains := rfl
@[simp] theorem Blk.modLat_queues (b : Blk) (n : Nat) (f : LatRec → LatRec) : (b.modLat n f).queues = b.queues := rfl
@[simp] theorem Blk.modLat_cells (b : Blk) (n : Nat) (f : LatRec → LatRec) : (b.modLat n f).cells = b.cells := rfl
@[simp] theorem Blk.modLat_movers (b : Blk) (n : Nat) (f : LatRec → LatRec) : (b.modLat n f).movers = b.movers := rfl
@[simp] theorem Blk.modLat_movp (b : Blk) (n : Nat) (f : LatRec → LatRec) : (b.modLat n f).movp = b.movp := rfl
@[simp] theorem Blk.modLat_ports (b : Blk) (n : Nat) (f : LatRec → LatRec) : (b.modLat n f).ports = b.ports := rfl
@[simp] theorem Blk.modLat_links (b : Blk) (n : Nat) (f : LatRec → LatRec) : (b.modLat n f).links = b.links := rfl
@[simp] theorem Blk.modLat_ctoLinks (b : Blk) (n : Nat) (f : LatRec → LatRec) : (b.modLat n f).ctoLinks = b.ctoLinks := rfl
@[simp] theorem Blk.modLat_halfFailed (b : Blk) (n : Nat) (f : LatRec → LatRec) : (b.modLat n f).halfFailed = b.halfFailed := rfl
@[simp] theorem Blk.modLat_halfTest (b : Blk) (n : Nat) (f : LatRec → LatRec) : (b.modLat n f).halfTest = b.halfTest := rfl
@[simp] theorem Blk.modLat_inShadow (b : Blk) (n : Nat) (f : LatRec → LatRec) : (b.modLat n f).inShadow = b.inShadow := rfl
@[simp] theorem Blk.modLat_activeSet (b : Blk) (n : Nat) (f : LatRec → LatRec) : (b.modLat n f).activeSet = b.activeSet := rfl
@[simp] theorem Blk.modLat_standIn (b : Blk) (n : Nat) (f : LatRec → LatRec) : (b.modLat n f).standIn = b.standIn := rfl
@[simp] theorem Blk.modLat_halfIdle (b : Blk) (n : Nat) (f : LatRec → LatRec) : (b.modLat n f).halfIdle = b.halfIdle := rfl
@[simp] theorem Blk.modLat_halfFails (b : Blk) (n : Nat) (f : LatRec → LatRec) : (b.modLat n f).halfFails = b.halfFails := rfl
@[simp] theorem Blk.modLat_pus (b : Blk) (n : Nat) (f : LatRec → LatRec) : (b.modLat n f).pus = b.pus := rfl
@[simp] theorem Blk.modLat_lines (b : Blk) (n : Nat) (f : LatRec → LatRec) : (b.modLat n f).lines = b.lines := rfl
@[simp] theorem Blk.modLat_vlines (b : Blk) (n : Nat) (f : LatRec → LatRec) : (b.modLat n f).vlines = b.vlines := rfl
@[simp] theorem Blk.modLat_fifos (b : Blk) (n : Nat) (f : LatRec → LatRec) : (b.modLat n f).fifos = b.fifos := rfl
@[simp] theorem Blk.modLat_sports (b : Blk) (n : Nat) (f : LatRec → LatRec) : (b.modLat n f).sports = b.sports := rfl
@[simp] theorem Blk.modLat_pool (b : Blk) (n : Nat) (f : LatRec → LatRec) : (b.modLat n f).pool = b.pool := rfl
@[simp] theorem Blk.modLat_slots (b : Blk) (n : Nat) (f : LatRec → LatRec) : (b.modLat n f).slots = b.slots := rfl
@[simp] theorem Blk.modLat_pfail (b : Blk) (n : Nat) (f : LatRec → LatRec) : (b.modLat n f).pfail = b.pfail := rfl
@[simp] theorem Blk.modLat_vec (b : Blk) (n : Nat) (f : LatRec → LatRec) : (b.modLat n f).vec = b.vec := rfl
@[simp] theorem Blk.modLat_sup (b : Blk) (n : Nat) (f : LatRec → LatRec) : (b.modLat n f).sup = b.sup := rfl
@[simp] theorem Blk.modLat_banks (b : Blk) (n : Nat) (f : LatRec → LatRec) : (b.modLat n f).banks = b.banks := rfl
@[simp] theorem Blk.modLat_relayDrops (b : Blk) (n : Nat) (f : LatRec → LatRec) : (b.modLat n f).relayDrops = b.relayDrops := rfl
@[simp] theorem Blk.modLat_relayWaits (b : Blk) (n : Nat) (f : LatRec → LatRec) : (b.modLat n f).relayWaits = b.relayWaits := rfl
@[simp] theorem Blk.modLat_rerouted (b : Blk) (n : Nat) (f : LatRec → LatRec) : (b.modLat n f).rerouted = b.rerouted := rfl
@[simp] theorem Blk.modLat_trace (b : Blk) (n : Nat) (f : LatRec → LatRec) : (b.modLat n f).trace = b.trace := rfl
@[simp] theorem Blk.modLat_order (b : Blk) (n : Nat) (f : LatRec → LatRec) : (b.modLat n f).order = b.order := rfl
@[simp] theorem Blk.modLat_relaySeq (b : Blk) (n : Nat) (f : LatRec → LatRec) : (b.modLat n f).relaySeq = b.relaySeq := rfl
@[simp] theorem Blk.modLat_freeNo (b : Blk) (n : Nat) (f : LatRec → LatRec) : (b.modLat n f).freeNo = b.freeNo := rfl
@[simp] theorem Blk.modLat_get_reg (b : Blk) (n : Nat) (f : LatRec → LatRec) (z : Nat) : (b.modLat n f).reg z = b.reg z := rfl
@[simp] theorem Blk.modLat_get_on (b : Blk) (n : Nat) (f : LatRec → LatRec) (z : Nat) : (b.modLat n f).on z = b.on z := rfl
@[simp] theorem Blk.modLat_get_queue (b : Blk) (n : Nat) (f : LatRec → LatRec) (r : QRef) : (b.modLat n f).queue r = b.queue r := rfl
@[simp] theorem Blk.modLat_get_mover (b : Blk) (n : Nat) (f : LatRec → LatRec) (i : Nat) : (b.modLat n f).mover i = b.mover i := rfl
@[simp] theorem Blk.modLat_get_port (b : Blk) (n : Nat) (f : LatRec → LatRec) (i : Nat) : (b.modLat n f).port i = b.port i := rfl
@[simp] theorem Blk.modLat_get_domain (b : Blk) (n : Nat) (f : LatRec → LatRec) (i : Nat) : (b.modLat n f).domain i = b.domain i := rfl
@[simp] theorem Blk.modLat_get_pu (b : Blk) (n : Nat) (f : LatRec → LatRec) (i : Nat) : (b.modLat n f).pu i = b.pu i := rfl
@[simp] theorem Blk.modLat_get_line (b : Blk) (n : Nat) (f : LatRec → LatRec) (i : Nat) : (b.modLat n f).line i = b.line i := rfl
@[simp] theorem Blk.modLat_get_fifo (b : Blk) (n : Nat) (f : LatRec → LatRec) (i : Nat) : (b.modLat n f).fifo i = b.fifo i := rfl
@[simp] theorem Blk.modLat_get_sport (b : Blk) (n : Nat) (f : LatRec → LatRec) (i : Nat) : (b.modLat n f).sport i = b.sport i := rfl
@[simp] theorem Blk.modLat_get_slot (b : Blk) (n : Nat) (f : LatRec → LatRec) (i : Nat) : (b.modLat n f).slot i = b.slot i := rfl
@[simp] theorem Blk.modLat_get_vline (b : Blk) (n : Nat) (f : LatRec → LatRec) (i : Nat) : (b.modLat n f).vline i = b.vline i := rfl
@[simp] theorem Blk.modLat_get_img (b : Blk) (n : Nat) (f : LatRec → LatRec)  : (b.modLat n f).img = b.img := rfl
@[simp] theorem Blk.modLat_get_inSafe (b : Blk) (n : Nat) (f : LatRec → LatRec)  : (b.modLat n f).inSafe = b.inSafe := rfl
@[simp] theorem Blk.modLat_get_ready (b : Blk) (n : Nat) (f : LatRec → LatRec)  : (b.modLat n f).ready = b.ready := rfl
@[simp] theorem Blk.modSide_clock (b : Blk) (p : MPort) (f : PortSide → PortSide) : (b.modSide p f).clock = b.clock := by cases p <;> rfl
@[simp] theorem Blk.modSide_power (b : Blk) (p : MPort) (f : PortSide → PortSide) : (b.modSide p f).power = b.power := by cases p <;> rfl
@[simp] theorem Blk.modSide_ldr (b : Blk) (p : MPort) (f : PortSide → PortSide) : (b.modSide p f).ldr = b.ldr := by cases p <;> rfl
@[simp] theorem Blk.modSide_image (b : Blk) (p : MPort) (f : PortSide → PortSide) : (b.modSide p f).image = b.image := by cases p <;> rfl
@[simp] theorem Blk.modSide_regs (b : Blk) (p : MPort) (f : PortSide → PortSide) : (b.modSide p f).regs = b.regs := by cases p <;> rfl
@[simp] theorem Blk.modSide_shadow (b : Blk) (p : MPort) (f : PortSide → PortSide) : (b.modSide p f).shadow = b.shadow := by cases p <;> rfl
@[simp] theorem Blk.modSide_upd (b : Blk) (p : MPort) (f : PortSide → PortSide) : (b.modSide p f).upd = b.upd := by cases p <;> rfl
@[simp] theorem Blk.modSide_sched (b : Blk) (p : MPort) (f : PortSide → PortSide) : (b.modSide p f).sched = b.sched := by cases p <;> rfl
@[simp] theorem Blk.modSide_mga (b : Blk) (p : MPort) (f : PortSide → PortSide) : (b.modSide p f).mga = b.mga := by cases p <;> rfl
@[simp] theorem Blk.modSide_mgb (b : Blk) (p : MPort) (f : PortSide → PortSide) : (b.modSide p f).mgb = b.mgb := by cases p <;> rfl
@[simp] theorem Blk.modSide_domains (b : Blk) (p : MPort) (f : PortSide → PortSide) : (b.modSide p f).domains = b.domains := by cases p <;> rfl
@[simp] theorem Blk.modSide_queues (b : Blk) (p : MPort) (f : PortSide → PortSide) : (b.modSide p f).queues = b.queues := by cases p <;> rfl
@[simp] theorem Blk.modSide_cells (b : Blk) (p : MPort) (f : PortSide → PortSide) : (b.modSide p f).cells = b.cells := by cases p <;> rfl
@[simp] theorem Blk.modSide_movers (b : Blk) (p : MPort) (f : PortSide → PortSide) : (b.modSide p f).movers = b.movers := by cases p <;> rfl
@[simp] theorem Blk.modSide_movp (b : Blk) (p : MPort) (f : PortSide → PortSide) : (b.modSide p f).movp = b.movp := by cases p <;> rfl
@[simp] theorem Blk.modSide_ports (b : Blk) (p : MPort) (f : PortSide → PortSide) : (b.modSide p f).ports = b.ports := by cases p <;> rfl
@[simp] theorem Blk.modSide_links (b : Blk) (p : MPort) (f : PortSide → PortSide) : (b.modSide p f).links = b.links := by cases p <;> rfl
@[simp] theorem Blk.modSide_ctoLinks (b : Blk) (p : MPort) (f : PortSide → PortSide) : (b.modSide p f).ctoLinks = b.ctoLinks := by cases p <;> rfl
@[simp] theorem Blk.modSide_halfFailed (b : Blk) (p : MPort) (f : PortSide → PortSide) : (b.modSide p f).halfFailed = b.halfFailed := by cases p <;> rfl
@[simp] theorem Blk.modSide_halfTest (b : Blk) (p : MPort) (f : PortSide → PortSide) : (b.modSide p f).halfTest = b.halfTest := by cases p <;> rfl
@[simp] theorem Blk.modSide_halfIdle (b : Blk) (p : MPort) (f : PortSide → PortSide) : (b.modSide p f).halfIdle = b.halfIdle := by cases p <;> rfl
@[simp] theorem Blk.modSide_halfFails (b : Blk) (p : MPort) (f : PortSide → PortSide) : (b.modSide p f).halfFails = b.halfFails := by cases p <;> rfl
@[simp] theorem Blk.modSide_pus (b : Blk) (p : MPort) (f : PortSide → PortSide) : (b.modSide p f).pus = b.pus := by cases p <;> rfl
@[simp] theorem Blk.modSide_lines (b : Blk) (p : MPort) (f : PortSide → PortSide) : (b.modSide p f).lines = b.lines := by cases p <;> rfl
@[simp] theorem Blk.modSide_vlines (b : Blk) (p : MPort) (f : PortSide → PortSide) : (b.modSide p f).vlines = b.vlines := by cases p <;> rfl
@[simp] theorem Blk.modSide_fifos (b : Blk) (p : MPort) (f : PortSide → PortSide) : (b.modSide p f).fifos = b.fifos := by cases p <;> rfl
@[simp] theorem Blk.modSide_sports (b : Blk) (p : MPort) (f : PortSide → PortSide) : (b.modSide p f).sports = b.sports := by cases p <;> rfl
@[simp] theorem Blk.modSide_pool (b : Blk) (p : MPort) (f : PortSide → PortSide) : (b.modSide p f).pool = b.pool := by cases p <;> rfl
@[simp] theorem Blk.modSide_slots (b : Blk) (p : MPort) (f : PortSide → PortSide) : (b.modSide p f).slots = b.slots := by cases p <;> rfl
@[simp] theorem Blk.modSide_lats (b : Blk) (p : MPort) (f : PortSide → PortSide) : (b.modSide p f).lats = b.lats := by cases p <;> rfl
@[simp] theorem Blk.modSide_pfail (b : Blk) (p : MPort) (f : PortSide → PortSide) : (b.modSide p f).pfail = b.pfail := by cases p <;> rfl
@[simp] theorem Blk.modSide_vec (b : Blk) (p : MPort) (f : PortSide → PortSide) : (b.modSide p f).vec = b.vec := by cases p <;> rfl
@[simp] theorem Blk.modSide_sup (b : Blk) (p : MPort) (f : PortSide → PortSide) : (b.modSide p f).sup = b.sup := by cases p <;> rfl
@[simp] theorem Blk.modSide_banks (b : Blk) (p : MPort) (f : PortSide → PortSide) : (b.modSide p f).banks = b.banks := by cases p <;> rfl
@[simp] theorem Blk.modSide_relayDrops (b : Blk) (p : MPort) (f : PortSide → PortSide) : (b.modSide p f).relayDrops = b.relayDrops := by cases p <;> rfl
@[simp] theorem Blk.modSide_relayWaits (b : Blk) (p : MPort) (f : PortSide → PortSide) : (b.modSide p f).relayWaits = b.relayWaits := by cases p <;> rfl
@[simp] theorem Blk.modSide_rerouted (b : Blk) (p : MPort) (f : PortSide → PortSide) : (b.modSide p f).rerouted = b.rerouted := by cases p <;> rfl
@[simp] theorem Blk.modSide_trace (b : Blk) (p : MPort) (f : PortSide → PortSide) : (b.modSide p f).trace = b.trace := by cases p <;> rfl
@[simp] theorem Blk.modSide_order (b : Blk) (p : MPort) (f : PortSide → PortSide) : (b.modSide p f).order = b.order := by cases p <;> rfl
@[simp] theorem Blk.modSide_relaySeq (b : Blk) (p : MPort) (f : PortSide → PortSide) : (b.modSide p f).relaySeq = b.relaySeq := by cases p <;> rfl
@[simp] theorem Blk.modSide_freeNo (b : Blk) (p : MPort) (f : PortSide → PortSide) : (b.modSide p f).freeNo = b.freeNo := by cases p <;> rfl
@[simp] theorem Blk.modSide_get_reg (b : Blk) (p : MPort) (f : PortSide → PortSide) (z : Nat) : (b.modSide p f).reg z = b.reg z := by cases p <;> rfl
@[simp] theorem Blk.modSide_get_on (b : Blk) (p : MPort) (f : PortSide → PortSide) (z : Nat) : (b.modSide p f).on z = b.on z := by cases p <;> rfl
@[simp] theorem Blk.modSide_get_queue (b : Blk) (p : MPort) (f : PortSide → PortSide) (r : QRef) : (b.modSide p f).queue r = b.queue r := by cases p <;> rfl
@[simp] theorem Blk.modSide_get_mover (b : Blk) (p : MPort) (f : PortSide → PortSide) (i : Nat) : (b.modSide p f).mover i = b.mover i := by cases p <;> rfl
@[simp] theorem Blk.modSide_get_port (b : Blk) (p : MPort) (f : PortSide → PortSide) (i : Nat) : (b.modSide p f).port i = b.port i := by cases p <;> rfl
@[simp] theorem Blk.modSide_get_domain (b : Blk) (p : MPort) (f : PortSide → PortSide) (i : Nat) : (b.modSide p f).domain i = b.domain i := by cases p <;> rfl
@[simp] theorem Blk.modSide_get_pu (b : Blk) (p : MPort) (f : PortSide → PortSide) (i : Nat) : (b.modSide p f).pu i = b.pu i := by cases p <;> rfl
@[simp] theorem Blk.modSide_get_line (b : Blk) (p : MPort) (f : PortSide → PortSide) (i : Nat) : (b.modSide p f).line i = b.line i := by cases p <;> rfl
@[simp] theorem Blk.modSide_get_fifo (b : Blk) (p : MPort) (f : PortSide → PortSide) (i : Nat) : (b.modSide p f).fifo i = b.fifo i := by cases p <;> rfl
@[simp] theorem Blk.modSide_get_sport (b : Blk) (p : MPort) (f : PortSide → PortSide) (i : Nat) : (b.modSide p f).sport i = b.sport i := by cases p <;> rfl
@[simp] theorem Blk.modSide_get_slot (b : Blk) (p : MPort) (f : PortSide → PortSide) (i : Nat) : (b.modSide p f).slot i = b.slot i := by cases p <;> rfl
@[simp] theorem Blk.modSide_get_lat (b : Blk) (p : MPort) (f : PortSide → PortSide) (i : Nat) : (b.modSide p f).lat i = b.lat i := by cases p <;> rfl
@[simp] theorem Blk.modSide_get_vline (b : Blk) (p : MPort) (f : PortSide → PortSide) (i : Nat) : (b.modSide p f).vline i = b.vline i := by cases p <;> rfl
@[simp] theorem Blk.modSide_get_img (b : Blk) (p : MPort) (f : PortSide → PortSide)  : (b.modSide p f).img = b.img := by cases p <;> rfl
@[simp] theorem Blk.modSide_get_inSafe (b : Blk) (p : MPort) (f : PortSide → PortSide)  : (b.modSide p f).inSafe = b.inSafe := by cases p <;> rfl
@[simp] theorem Blk.modSide_get_ready (b : Blk) (p : MPort) (f : PortSide → PortSide)  : (b.modSide p f).ready = b.ready := by cases p <;> rfl
@[simp] theorem Blk.modSched_clock (b : Blk) (f : Sched → Sched) : (b.modSched f).clock = b.clock := rfl
@[simp] theorem Blk.modSched_power (b : Blk) (f : Sched → Sched) : (b.modSched f).power = b.power := rfl
@[simp] theorem Blk.modSched_ldr (b : Blk) (f : Sched → Sched) : (b.modSched f).ldr = b.ldr := rfl
@[simp] theorem Blk.modSched_image (b : Blk) (f : Sched → Sched) : (b.modSched f).image = b.image := rfl
@[simp] theorem Blk.modSched_regs (b : Blk) (f : Sched → Sched) : (b.modSched f).regs = b.regs := rfl
@[simp] theorem Blk.modSched_shadow (b : Blk) (f : Sched → Sched) : (b.modSched f).shadow = b.shadow := rfl
@[simp] theorem Blk.modSched_mg (b : Blk) (f : Sched → Sched) : (b.modSched f).mg = b.mg := rfl
@[simp] theorem Blk.modSched_upd (b : Blk) (f : Sched → Sched) : (b.modSched f).upd = b.upd := rfl
@[simp] theorem Blk.modSched_mga (b : Blk) (f : Sched → Sched) : (b.modSched f).mga = b.mga := rfl
@[simp] theorem Blk.modSched_mgb (b : Blk) (f : Sched → Sched) : (b.modSched f).mgb = b.mgb := rfl
@[simp] theorem Blk.modSched_domains (b : Blk) (f : Sched → Sched) : (b.modSched f).domains = b.domains := rfl
@[simp] theorem Blk.modSched_queues (b : Blk) (f : Sched → Sched) : (b.modSched f).queues = b.queues := rfl
@[simp] theorem Blk.modSched_cells (b : Blk) (f : Sched → Sched) : (b.modSched f).cells = b.cells := rfl
@[simp] theorem Blk.modSched_movers (b : Blk) (f : Sched → Sched) : (b.modSched f).movers = b.movers := rfl
@[simp] theorem Blk.modSched_movp (b : Blk) (f : Sched → Sched) : (b.modSched f).movp = b.movp := rfl
@[simp] theorem Blk.modSched_ports (b : Blk) (f : Sched → Sched) : (b.modSched f).ports = b.ports := rfl
@[simp] theorem Blk.modSched_links (b : Blk) (f : Sched → Sched) : (b.modSched f).links = b.links := rfl
@[simp] theorem Blk.modSched_ctoLinks (b : Blk) (f : Sched → Sched) : (b.modSched f).ctoLinks = b.ctoLinks := rfl
@[simp] theorem Blk.modSched_halfFailed (b : Blk) (f : Sched → Sched) : (b.modSched f).halfFailed = b.halfFailed := rfl
@[simp] theorem Blk.modSched_halfTest (b : Blk) (f : Sched → Sched) : (b.modSched f).halfTest = b.halfTest := rfl
@[simp] theorem Blk.modSched_inShadow (b : Blk) (f : Sched → Sched) : (b.modSched f).inShadow = b.inShadow := rfl
@[simp] theorem Blk.modSched_activeSet (b : Blk) (f : Sched → Sched) : (b.modSched f).activeSet = b.activeSet := rfl
@[simp] theorem Blk.modSched_standIn (b : Blk) (f : Sched → Sched) : (b.modSched f).standIn = b.standIn := rfl
@[simp] theorem Blk.modSched_halfIdle (b : Blk) (f : Sched → Sched) : (b.modSched f).halfIdle = b.halfIdle := rfl
@[simp] theorem Blk.modSched_halfFails (b : Blk) (f : Sched → Sched) : (b.modSched f).halfFails = b.halfFails := rfl
@[simp] theorem Blk.modSched_pus (b : Blk) (f : Sched → Sched) : (b.modSched f).pus = b.pus := rfl
@[simp] theorem Blk.modSched_lines (b : Blk) (f : Sched → Sched) : (b.modSched f).lines = b.lines := rfl
@[simp] theorem Blk.modSched_vlines (b : Blk) (f : Sched → Sched) : (b.modSched f).vlines = b.vlines := rfl
@[simp] theorem Blk.modSched_fifos (b : Blk) (f : Sched → Sched) : (b.modSched f).fifos = b.fifos := rfl
@[simp] theorem Blk.modSched_sports (b : Blk) (f : Sched → Sched) : (b.modSched f).sports = b.sports := rfl
@[simp] theorem Blk.modSched_pool (b : Blk) (f : Sched → Sched) : (b.modSched f).pool = b.pool := rfl
@[simp] theorem Blk.modSched_slots (b : Blk) (f : Sched → Sched) : (b.modSched f).slots = b.slots := rfl
@[simp] theorem Blk.modSched_lats (b : Blk) (f : Sched → Sched) : (b.modSched f).lats = b.lats := rfl
@[simp] theorem Blk.modSched_pfail (b : Blk) (f : Sched → Sched) : (b.modSched f).pfail = b.pfail := rfl
@[simp] theorem Blk.modSched_vec (b : Blk) (f : Sched → Sched) : (b.modSched f).vec = b.vec := rfl
@[simp] theorem Blk.modSched_sup (b : Blk) (f : Sched → Sched) : (b.modSched f).sup = b.sup := rfl
@[simp] theorem Blk.modSched_banks (b : Blk) (f : Sched → Sched) : (b.modSched f).banks = b.banks := rfl
@[simp] theorem Blk.modSched_relayDrops (b : Blk) (f : Sched → Sched) : (b.modSched f).relayDrops = b.relayDrops := rfl
@[simp] theorem Blk.modSched_relayWaits (b : Blk) (f : Sched → Sched) : (b.modSched f).relayWaits = b.relayWaits := rfl
@[simp] theorem Blk.modSched_rerouted (b : Blk) (f : Sched → Sched) : (b.modSched f).rerouted = b.rerouted := rfl
@[simp] theorem Blk.modSched_trace (b : Blk) (f : Sched → Sched) : (b.modSched f).trace = b.trace := rfl
@[simp] theorem Blk.modSched_order (b : Blk) (f : Sched → Sched) : (b.modSched f).order = b.order := rfl
@[simp] theorem Blk.modSched_relaySeq (b : Blk) (f : Sched → Sched) : (b.modSched f).relaySeq = b.relaySeq := rfl
@[simp] theorem Blk.modSched_freeNo (b : Blk) (f : Sched → Sched) : (b.modSched f).freeNo = b.freeNo := rfl
@[simp] theorem Blk.modSched_get_reg (b : Blk) (f : Sched → Sched) (z : Nat) : (b.modSched f).reg z = b.reg z := rfl
@[simp] theorem Blk.modSched_get_on (b : Blk) (f : Sched → Sched) (z : Nat) : (b.modSched f).on z = b.on z := rfl
@[simp] theorem Blk.modSched_get_queue (b : Blk) (f : Sched → Sched) (r : QRef) : (b.modSched f).queue r = b.queue r := rfl
@[simp] theorem Blk.modSched_get_mover (b : Blk) (f : Sched → Sched) (i : Nat) : (b.modSched f).mover i = b.mover i := rfl
@[simp] theorem Blk.modSched_get_port (b : Blk) (f : Sched → Sched) (i : Nat) : (b.modSched f).port i = b.port i := rfl
@[simp] theorem Blk.modSched_get_domain (b : Blk) (f : Sched → Sched) (i : Nat) : (b.modSched f).domain i = b.domain i := rfl
@[simp] theorem Blk.modSched_get_pu (b : Blk) (f : Sched → Sched) (i : Nat) : (b.modSched f).pu i = b.pu i := rfl
@[simp] theorem Blk.modSched_get_line (b : Blk) (f : Sched → Sched) (i : Nat) : (b.modSched f).line i = b.line i := rfl
@[simp] theorem Blk.modSched_get_fifo (b : Blk) (f : Sched → Sched) (i : Nat) : (b.modSched f).fifo i = b.fifo i := rfl
@[simp] theorem Blk.modSched_get_sport (b : Blk) (f : Sched → Sched) (i : Nat) : (b.modSched f).sport i = b.sport i := rfl
@[simp] theorem Blk.modSched_get_slot (b : Blk) (f : Sched → Sched) (i : Nat) : (b.modSched f).slot i = b.slot i := rfl
@[simp] theorem Blk.modSched_get_lat (b : Blk) (f : Sched → Sched) (i : Nat) : (b.modSched f).lat i = b.lat i := rfl
@[simp] theorem Blk.modSched_get_vline (b : Blk) (f : Sched → Sched) (i : Nat) : (b.modSched f).vline i = b.vline i := rfl
@[simp] theorem Blk.modSched_get_img (b : Blk) (f : Sched → Sched)  : (b.modSched f).img = b.img := rfl
@[simp] theorem Blk.modSched_get_inSafe (b : Blk) (f : Sched → Sched)  : (b.modSched f).inSafe = b.inSafe := rfl
@[simp] theorem Blk.modSched_get_ready (b : Blk) (f : Sched → Sched)  : (b.modSched f).ready = b.ready := rfl
@[simp] theorem Blk.setReg_clock (b : Blk) (a v : Nat) : (b.setReg a v).clock = b.clock := rfl
@[simp] theorem Blk.setReg_power (b : Blk) (a v : Nat) : (b.setReg a v).power = b.power := rfl
@[simp] theorem Blk.setReg_ldr (b : Blk) (a v : Nat) : (b.setReg a v).ldr = b.ldr := rfl
@[simp] theorem Blk.setReg_image (b : Blk) (a v : Nat) : (b.setReg a v).image = b.image := rfl
@[simp] theorem Blk.setReg_shadow (b : Blk) (a v : Nat) : (b.setReg a v).shadow = b.shadow := rfl
@[simp] theorem Blk.setReg_mg (b : Blk) (a v : Nat) : (b.setReg a v).mg = b.mg := rfl
@[simp] theorem Blk.setReg_upd (b : Blk) (a v : Nat) : (b.setReg a v).upd = b.upd := rfl
@[simp] theorem Blk.setReg_sched (b : Blk) (a v : Nat) : (b.setReg a v).sched = b.sched := rfl
@[simp] theorem Blk.setReg_mga (b : Blk) (a v : Nat) : (b.setReg a v).mga = b.mga := rfl
@[simp] theorem Blk.setReg_mgb (b : Blk) (a v : Nat) : (b.setReg a v).mgb = b.mgb := rfl
@[simp] theorem Blk.setReg_domains (b : Blk) (a v : Nat) : (b.setReg a v).domains = b.domains := rfl
@[simp] theorem Blk.setReg_queues (b : Blk) (a v : Nat) : (b.setReg a v).queues = b.queues := rfl
@[simp] theorem Blk.setReg_cells (b : Blk) (a v : Nat) : (b.setReg a v).cells = b.cells := rfl
@[simp] theorem Blk.setReg_movers (b : Blk) (a v : Nat) : (b.setReg a v).movers = b.movers := rfl
@[simp] theorem Blk.setReg_movp (b : Blk) (a v : Nat) : (b.setReg a v).movp = b.movp := rfl
@[simp] theorem Blk.setReg_ports (b : Blk) (a v : Nat) : (b.setReg a v).ports = b.ports := rfl
@[simp] theorem Blk.setReg_links (b : Blk) (a v : Nat) : (b.setReg a v).links = b.links := rfl
@[simp] theorem Blk.setReg_ctoLinks (b : Blk) (a v : Nat) : (b.setReg a v).ctoLinks = b.ctoLinks := rfl
@[simp] theorem Blk.setReg_halfFailed (b : Blk) (a v : Nat) : (b.setReg a v).halfFailed = b.halfFailed := rfl
@[simp] theorem Blk.setReg_halfTest (b : Blk) (a v : Nat) : (b.setReg a v).halfTest = b.halfTest := rfl
@[simp] theorem Blk.setReg_inShadow (b : Blk) (a v : Nat) : (b.setReg a v).inShadow = b.inShadow := rfl
@[simp] theorem Blk.setReg_activeSet (b : Blk) (a v : Nat) : (b.setReg a v).activeSet = b.activeSet := rfl
@[simp] theorem Blk.setReg_standIn (b : Blk) (a v : Nat) : (b.setReg a v).standIn = b.standIn := rfl
@[simp] theorem Blk.setReg_halfIdle (b : Blk) (a v : Nat) : (b.setReg a v).halfIdle = b.halfIdle := rfl
@[simp] theorem Blk.setReg_halfFails (b : Blk) (a v : Nat) : (b.setReg a v).halfFails = b.halfFails := rfl
@[simp] theorem Blk.setReg_pus (b : Blk) (a v : Nat) : (b.setReg a v).pus = b.pus := rfl
@[simp] theorem Blk.setReg_lines (b : Blk) (a v : Nat) : (b.setReg a v).lines = b.lines := rfl
@[simp] theorem Blk.setReg_vlines (b : Blk) (a v : Nat) : (b.setReg a v).vlines = b.vlines := rfl
@[simp] theorem Blk.setReg_fifos (b : Blk) (a v : Nat) : (b.setReg a v).fifos = b.fifos := rfl
@[simp] theorem Blk.setReg_sports (b : Blk) (a v : Nat) : (b.setReg a v).sports = b.sports := rfl
@[simp] theorem Blk.setReg_pool (b : Blk) (a v : Nat) : (b.setReg a v).pool = b.pool := rfl
@[simp] theorem Blk.setReg_slots (b : Blk) (a v : Nat) : (b.setReg a v).slots = b.slots := rfl
@[simp] theorem Blk.setReg_lats (b : Blk) (a v : Nat) : (b.setReg a v).lats = b.lats := rfl
@[simp] theorem Blk.setReg_pfail (b : Blk) (a v : Nat) : (b.setReg a v).pfail = b.pfail := rfl
@[simp] theorem Blk.setReg_vec (b : Blk) (a v : Nat) : (b.setReg a v).vec = b.vec := rfl
@[simp] theorem Blk.setReg_sup (b : Blk) (a v : Nat) : (b.setReg a v).sup = b.sup := rfl
@[simp] theorem Blk.setReg_banks (b : Blk) (a v : Nat) : (b.setReg a v).banks = b.banks := rfl
@[simp] theorem Blk.setReg_relayDrops (b : Blk) (a v : Nat) : (b.setReg a v).relayDrops = b.relayDrops := rfl
@[simp] theorem Blk.setReg_relayWaits (b : Blk) (a v : Nat) : (b.setReg a v).relayWaits = b.relayWaits := rfl
@[simp] theorem Blk.setReg_rerouted (b : Blk) (a v : Nat) : (b.setReg a v).rerouted = b.rerouted := rfl
@[simp] theorem Blk.setReg_trace (b : Blk) (a v : Nat) : (b.setReg a v).trace = b.trace := rfl
@[simp] theorem Blk.setReg_order (b : Blk) (a v : Nat) : (b.setReg a v).order = b.order := rfl
@[simp] theorem Blk.setReg_relaySeq (b : Blk) (a v : Nat) : (b.setReg a v).relaySeq = b.relaySeq := rfl
@[simp] theorem Blk.setReg_freeNo (b : Blk) (a v : Nat) : (b.setReg a v).freeNo = b.freeNo := rfl
@[simp] theorem Blk.setReg_get_on (b : Blk) (a v : Nat) (z : Nat) : (b.setReg a v).on z = b.on z := rfl
@[simp] theorem Blk.setReg_get_queue (b : Blk) (a v : Nat) (r : QRef) : (b.setReg a v).queue r = b.queue r := rfl
@[simp] theorem Blk.setReg_get_mover (b : Blk) (a v : Nat) (i : Nat) : (b.setReg a v).mover i = b.mover i := rfl
@[simp] theorem Blk.setReg_get_port (b : Blk) (a v : Nat) (i : Nat) : (b.setReg a v).port i = b.port i := rfl
@[simp] theorem Blk.setReg_get_domain (b : Blk) (a v : Nat) (i : Nat) : (b.setReg a v).domain i = b.domain i := rfl
@[simp] theorem Blk.setReg_get_pu (b : Blk) (a v : Nat) (i : Nat) : (b.setReg a v).pu i = b.pu i := rfl
@[simp] theorem Blk.setReg_get_line (b : Blk) (a v : Nat) (i : Nat) : (b.setReg a v).line i = b.line i := rfl
@[simp] theorem Blk.setReg_get_fifo (b : Blk) (a v : Nat) (i : Nat) : (b.setReg a v).fifo i = b.fifo i := rfl
@[simp] theorem Blk.setReg_get_sport (b : Blk) (a v : Nat) (i : Nat) : (b.setReg a v).sport i = b.sport i := rfl
@[simp] theorem Blk.setReg_get_slot (b : Blk) (a v : Nat) (i : Nat) : (b.setReg a v).slot i = b.slot i := rfl
@[simp] theorem Blk.setReg_get_lat (b : Blk) (a v : Nat) (i : Nat) : (b.setReg a v).lat i = b.lat i := rfl
@[simp] theorem Blk.setReg_get_vline (b : Blk) (a v : Nat) (i : Nat) : (b.setReg a v).vline i = b.vline i := rfl
@[simp] theorem Blk.setReg_get_img (b : Blk) (a v : Nat)  : (b.setReg a v).img = b.img := rfl
@[simp] theorem Blk.setReg_get_inSafe (b : Blk) (a v : Nat)  : (b.setReg a v).inSafe = b.inSafe := rfl
@[simp] theorem Blk.setReg_get_ready (b : Blk) (a v : Nat)  : (b.setReg a v).ready = b.ready := rfl
@[simp] theorem Blk.modVector_clock (b : Blk) (v : Nat) (f : Vector4 → Vector4) : (b.modVector v f).clock = b.clock := rfl
@[simp] theorem Blk.modVector_power (b : Blk) (v : Nat) (f : Vector4 → Vector4) : (b.modVector v f).power = b.power := rfl
@[simp] theorem Blk.modVector_ldr (b : Blk) (v : Nat) (f : Vector4 → Vector4) : (b.modVector v f).ldr = b.ldr := rfl
@[simp] theorem Blk.modVector_image (b : Blk) (v : Nat) (f : Vector4 → Vector4) : (b.modVector v f).image = b.image := rfl
@[simp] theorem Blk.modVector_regs (b : Blk) (v : Nat) (f : Vector4 → Vector4) : (b.modVector v f).regs = b.regs := rfl
@[simp] theorem Blk.modVector_shadow (b : Blk) (v : Nat) (f : Vector4 → Vector4) : (b.modVector v f).shadow = b.shadow := rfl
@[simp] theorem Blk.modVector_mg (b : Blk) (v : Nat) (f : Vector4 → Vector4) : (b.modVector v f).mg = b.mg := rfl
@[simp] theorem Blk.modVector_upd (b : Blk) (v : Nat) (f : Vector4 → Vector4) : (b.modVector v f).upd = b.upd := rfl
@[simp] theorem Blk.modVector_sched (b : Blk) (v : Nat) (f : Vector4 → Vector4) : (b.modVector v f).sched = b.sched := rfl
@[simp] theorem Blk.modVector_mga (b : Blk) (v : Nat) (f : Vector4 → Vector4) : (b.modVector v f).mga = b.mga := rfl
@[simp] theorem Blk.modVector_mgb (b : Blk) (v : Nat) (f : Vector4 → Vector4) : (b.modVector v f).mgb = b.mgb := rfl
@[simp] theorem Blk.modVector_domains (b : Blk) (v : Nat) (f : Vector4 → Vector4) : (b.modVector v f).domains = b.domains := rfl
@[simp] theorem Blk.modVector_queues (b : Blk) (v : Nat) (f : Vector4 → Vector4) : (b.modVector v f).queues = b.queues := rfl
@[simp] theorem Blk.modVector_cells (b : Blk) (v : Nat) (f : Vector4 → Vector4) : (b.modVector v f).cells = b.cells := rfl
@[simp] theorem Blk.modVector_movers (b : Blk) (v : Nat) (f : Vector4 → Vector4) : (b.modVector v f).movers = b.movers := rfl
@[simp] theorem Blk.modVector_movp (b : Blk) (v : Nat) (f : Vector4 → Vector4) : (b.modVector v f).movp = b.movp := rfl
@[simp] theorem Blk.modVector_ports (b : Blk) (v : Nat) (f : Vector4 → Vector4) : (b.modVector v f).ports = b.ports := rfl
@[simp] theorem Blk.modVector_links (b : Blk) (v : Nat) (f : Vector4 → Vector4) : (b.modVector v f).links = b.links := rfl
@[simp] theorem Blk.modVector_ctoLinks (b : Blk) (v : Nat) (f : Vector4 → Vector4) : (b.modVector v f).ctoLinks = b.ctoLinks := rfl
@[simp] theorem Blk.modVector_halfFailed (b : Blk) (v : Nat) (f : Vector4 → Vector4) : (b.modVector v f).halfFailed = b.halfFailed := rfl
@[simp] theorem Blk.modVector_halfTest (b : Blk) (v : Nat) (f : Vector4 → Vector4) : (b.modVector v f).halfTest = b.halfTest := rfl
@[simp] theorem Blk.modVector_inShadow (b : Blk) (v : Nat) (f : Vector4 → Vector4) : (b.modVector v f).inShadow = b.inShadow := rfl
@[simp] theorem Blk.modVector_activeSet (b : Blk) (v : Nat) (f : Vector4 → Vector4) : (b.modVector v f).activeSet = b.activeSet := rfl
@[simp] theorem Blk.modVector_standIn (b : Blk) (v : Nat) (f : Vector4 → Vector4) : (b.modVector v f).standIn = b.standIn := rfl
@[simp] theorem Blk.modVector_halfIdle (b : Blk) (v : Nat) (f : Vector4 → Vector4) : (b.modVector v f).halfIdle = b.halfIdle := rfl
@[simp] theorem Blk.modVector_halfFails (b : Blk) (v : Nat) (f : Vector4 → Vector4) : (b.modVector v f).halfFails = b.halfFails := rfl
@[simp] theorem Blk.modVector_pus (b : Blk) (v : Nat) (f : Vector4 → Vector4) : (b.modVector v f).pus = b.pus := rfl
@[simp] theorem Blk.modVector_lines (b : Blk) (v : Nat) (f : Vector4 → Vector4) : (b.modVector v f).lines = b.lines := rfl
@[simp] theorem Blk.modVector_vlines (b : Blk) (v : Nat) (f : Vector4 → Vector4) : (b.modVector v f).vlines = b.vlines := rfl
@[simp] theorem Blk.modVector_fifos (b : Blk) (v : Nat) (f : Vector4 → Vector4) : (b.modVector v f).fifos = b.fifos := rfl
@[simp] theorem Blk.modVector_sports (b : Blk) (v : Nat) (f : Vector4 → Vector4) : (b.modVector v f).sports = b.sports := rfl
@[simp] theorem Blk.modVector_pool (b : Blk) (v : Nat) (f : Vector4 → Vector4) : (b.modVector v f).pool = b.pool := rfl
@[simp] theorem Blk.modVector_slots (b : Blk) (v : Nat) (f : Vector4 → Vector4) : (b.modVector v f).slots = b.slots := rfl
@[simp] theorem Blk.modVector_lats (b : Blk) (v : Nat) (f : Vector4 → Vector4) : (b.modVector v f).lats = b.lats := rfl
@[simp] theorem Blk.modVector_pfail (b : Blk) (v : Nat) (f : Vector4 → Vector4) : (b.modVector v f).pfail = b.pfail := rfl
@[simp] theorem Blk.modVector_sup (b : Blk) (v : Nat) (f : Vector4 → Vector4) : (b.modVector v f).sup = b.sup := rfl
@[simp] theorem Blk.modVector_banks (b : Blk) (v : Nat) (f : Vector4 → Vector4) : (b.modVector v f).banks = b.banks := rfl
@[simp] theorem Blk.modVector_relayDrops (b : Blk) (v : Nat) (f : Vector4 → Vector4) : (b.modVector v f).relayDrops = b.relayDrops := rfl
@[simp] theorem Blk.modVector_relayWaits (b : Blk) (v : Nat) (f : Vector4 → Vector4) : (b.modVector v f).relayWaits = b.relayWaits := rfl
@[simp] theorem Blk.modVector_rerouted (b : Blk) (v : Nat) (f : Vector4 → Vector4) : (b.modVector v f).rerouted = b.rerouted := rfl
@[simp] theorem Blk.modVector_trace (b : Blk) (v : Nat) (f : Vector4 → Vector4) : (b.modVector v f).trace = b.trace := rfl
@[simp] theorem Blk.modVector_order (b : Blk) (v : Nat) (f : Vector4 → Vector4) : (b.modVector v f).order = b.order := rfl
@[simp] theorem Blk.modVector_relaySeq (b : Blk) (v : Nat) (f : Vector4 → Vector4) : (b.modVector v f).relaySeq = b.relaySeq := rfl
@[simp] theorem Blk.modVector_freeNo (b : Blk) (v : Nat) (f : Vector4 → Vector4) : (b.modVector v f).freeNo = b.freeNo := rfl
@[simp] theorem Blk.modVector_get_reg (b : Blk) (v : Nat) (f : Vector4 → Vector4) (z : Nat) : (b.modVector v f).reg z = b.reg z := rfl
@[simp] theorem Blk.modVector_get_on (b : Blk) (v : Nat) (f : Vector4 → Vector4) (z : Nat) : (b.modVector v f).on z = b.on z := rfl
@[simp] theorem Blk.modVector_get_queue (b : Blk) (v : Nat) (f : Vector4 → Vector4) (r : QRef) : (b.modVector v f).queue r = b.queue r := rfl
@[simp] theorem Blk.modVector_get_mover (b : Blk) (v : Nat) (f : Vector4 → Vector4) (i : Nat) : (b.modVector v f).mover i = b.mover i := rfl
@[simp] theorem Blk.modVector_get_port (b : Blk) (v : Nat) (f : Vector4 → Vector4) (i : Nat) : (b.modVector v f).port i = b.port i := rfl
@[simp] theorem Blk.modVector_get_domain (b : Blk) (v : Nat) (f : Vector4 → Vector4) (i : Nat) : (b.modVector v f).domain i = b.domain i := rfl
@[simp] theorem Blk.modVector_get_pu (b : Blk) (v : Nat) (f : Vector4 → Vector4) (i : Nat) : (b.modVector v f).pu i = b.pu i := rfl
@[simp] theorem Blk.modVector_get_line (b : Blk) (v : Nat) (f : Vector4 → Vector4) (i : Nat) : (b.modVector v f).line i = b.line i := rfl
@[simp] theorem Blk.modVector_get_fifo (b : Blk) (v : Nat) (f : Vector4 → Vector4) (i : Nat) : (b.modVector v f).fifo i = b.fifo i := rfl
@[simp] theorem Blk.modVector_get_sport (b : Blk) (v : Nat) (f : Vector4 → Vector4) (i : Nat) : (b.modVector v f).sport i = b.sport i := rfl
@[simp] theorem Blk.modVector_get_slot (b : Blk) (v : Nat) (f : Vector4 → Vector4) (i : Nat) : (b.modVector v f).slot i = b.slot i := rfl
@[simp] theorem Blk.modVector_get_lat (b : Blk) (v : Nat) (f : Vector4 → Vector4) (i : Nat) : (b.modVector v f).lat i = b.lat i := rfl
@[simp] theorem Blk.modVector_get_vline (b : Blk) (v : Nat) (f : Vector4 → Vector4) (i : Nat) : (b.modVector v f).vline i = b.vline i := rfl
@[simp] theorem Blk.modVector_get_img (b : Blk) (v : Nat) (f : Vector4 → Vector4)  : (b.modVector v f).img = b.img := rfl
@[simp] theorem Blk.modVector_get_inSafe (b : Blk) (v : Nat) (f : Vector4 → Vector4)  : (b.modVector v f).inSafe = b.inSafe := rfl
@[simp] theorem Blk.modVector_get_ready (b : Blk) (v : Nat) (f : Vector4 → Vector4)  : (b.modVector v f).ready = b.ready := rfl
@[simp] theorem Blk.markEvent_clock (b : Blk) (g e : Nat) : (b.markEvent g e).clock = b.clock := rfl
@[simp] theorem Blk.markEvent_power (b : Blk) (g e : Nat) : (b.markEvent g e).power = b.power := rfl
@[simp] theorem Blk.markEvent_ldr (b : Blk) (g e : Nat) : (b.markEvent g e).ldr = b.ldr := rfl
@[simp] theorem Blk.markEvent_image (b : Blk) (g e : Nat) : (b.markEvent g e).image = b.image := rfl
@[simp] theorem Blk.markEvent_regs (b : Blk) (g e : Nat) : (b.markEvent g e).regs = b.regs := rfl
@[simp] theorem Blk.markEvent_shadow (b : Blk) (g e : Nat) : (b.markEvent g e).shadow = b.shadow := rfl
@[simp] theorem Blk.markEvent_upd (b : Blk) (g e : Nat) : (b.markEvent g e).upd = b.upd := rfl
@[simp] theorem Blk.markEvent_sched (b : Blk) (g e : Nat) : (b.markEvent g e).sched = b.sched := rfl
@[simp] theorem Blk.markEvent_mga (b : Blk) (g e : Nat) : (b.markEvent g e).mga = b.mga := rfl
@[simp] theorem Blk.markEvent_mgb (b : Blk) (g e : Nat) : (b.markEvent g e).mgb = b.mgb := rfl
@[simp] theorem Blk.markEvent_domains (b : Blk) (g e : Nat) : (b.markEvent g e).domains = b.domains := rfl
@[simp] theorem Blk.markEvent_queues (b : Blk) (g e : Nat) : (b.markEvent g e).queues = b.queues := rfl
@[simp] theorem Blk.markEvent_cells (b : Blk) (g e : Nat) : (b.markEvent g e).cells = b.cells := rfl
@[simp] theorem Blk.markEvent_movers (b : Blk) (g e : Nat) : (b.markEvent g e).movers = b.movers := rfl
@[simp] theorem Blk.markEvent_movp (b : Blk) (g e : Nat) : (b.markEvent g e).movp = b.movp := rfl
@[simp] theorem Blk.markEvent_ports (b : Blk) (g e : Nat) : (b.markEvent g e).ports = b.ports := rfl
@[simp] theorem Blk.markEvent_links (b : Blk) (g e : Nat) : (b.markEvent g e).links = b.links := rfl
@[simp] theorem Blk.markEvent_ctoLinks (b : Blk) (g e : Nat) : (b.markEvent g e).ctoLinks = b.ctoLinks := rfl
@[simp] theorem Blk.markEvent_halfFailed (b : Blk) (g e : Nat) : (b.markEvent g e).halfFailed = b.halfFailed := rfl
@[simp] theorem Blk.markEvent_halfTest (b : Blk) (g e : Nat) : (b.markEvent g e).halfTest = b.halfTest := rfl
@[simp] theorem Blk.markEvent_inShadow (b : Blk) (g e : Nat) : (b.markEvent g e).inShadow = b.inShadow := rfl
@[simp] theorem Blk.markEvent_activeSet (b : Blk) (g e : Nat) : (b.markEvent g e).activeSet = b.activeSet := rfl
@[simp] theorem Blk.markEvent_standIn (b : Blk) (g e : Nat) : (b.markEvent g e).standIn = b.standIn := rfl
@[simp] theorem Blk.markEvent_halfIdle (b : Blk) (g e : Nat) : (b.markEvent g e).halfIdle = b.halfIdle := rfl
@[simp] theorem Blk.markEvent_halfFails (b : Blk) (g e : Nat) : (b.markEvent g e).halfFails = b.halfFails := rfl
@[simp] theorem Blk.markEvent_pus (b : Blk) (g e : Nat) : (b.markEvent g e).pus = b.pus := rfl
@[simp] theorem Blk.markEvent_lines (b : Blk) (g e : Nat) : (b.markEvent g e).lines = b.lines := rfl
@[simp] theorem Blk.markEvent_vlines (b : Blk) (g e : Nat) : (b.markEvent g e).vlines = b.vlines := rfl
@[simp] theorem Blk.markEvent_fifos (b : Blk) (g e : Nat) : (b.markEvent g e).fifos = b.fifos := rfl
@[simp] theorem Blk.markEvent_sports (b : Blk) (g e : Nat) : (b.markEvent g e).sports = b.sports := rfl
@[simp] theorem Blk.markEvent_pool (b : Blk) (g e : Nat) : (b.markEvent g e).pool = b.pool := rfl
@[simp] theorem Blk.markEvent_slots (b : Blk) (g e : Nat) : (b.markEvent g e).slots = b.slots := rfl
@[simp] theorem Blk.markEvent_lats (b : Blk) (g e : Nat) : (b.markEvent g e).lats = b.lats := rfl
@[simp] theorem Blk.markEvent_pfail (b : Blk) (g e : Nat) : (b.markEvent g e).pfail = b.pfail := rfl
@[simp] theorem Blk.markEvent_vec (b : Blk) (g e : Nat) : (b.markEvent g e).vec = b.vec := rfl
@[simp] theorem Blk.markEvent_sup (b : Blk) (g e : Nat) : (b.markEvent g e).sup = b.sup := rfl
@[simp] theorem Blk.markEvent_banks (b : Blk) (g e : Nat) : (b.markEvent g e).banks = b.banks := rfl
@[simp] theorem Blk.markEvent_relayDrops (b : Blk) (g e : Nat) : (b.markEvent g e).relayDrops = b.relayDrops := rfl
@[simp] theorem Blk.markEvent_relayWaits (b : Blk) (g e : Nat) : (b.markEvent g e).relayWaits = b.relayWaits := rfl
@[simp] theorem Blk.markEvent_rerouted (b : Blk) (g e : Nat) : (b.markEvent g e).rerouted = b.rerouted := rfl
@[simp] theorem Blk.markEvent_trace (b : Blk) (g e : Nat) : (b.markEvent g e).trace = b.trace := rfl
@[simp] theorem Blk.markEvent_order (b : Blk) (g e : Nat) : (b.markEvent g e).order = b.order := rfl
@[simp] theorem Blk.markEvent_relaySeq (b : Blk) (g e : Nat) : (b.markEvent g e).relaySeq = b.relaySeq := rfl
@[simp] theorem Blk.markEvent_freeNo (b : Blk) (g e : Nat) : (b.markEvent g e).freeNo = b.freeNo := rfl
@[simp] theorem Blk.markEvent_get_reg (b : Blk) (g e : Nat) (z : Nat) : (b.markEvent g e).reg z = b.reg z := rfl
@[simp] theorem Blk.markEvent_get_on (b : Blk) (g e : Nat) (z : Nat) : (b.markEvent g e).on z = b.on z := rfl
@[simp] theorem Blk.markEvent_get_queue (b : Blk) (g e : Nat) (r : QRef) : (b.markEvent g e).queue r = b.queue r := rfl
@[simp] theorem Blk.markEvent_get_mover (b : Blk) (g e : Nat) (i : Nat) : (b.markEvent g e).mover i = b.mover i := rfl
@[simp] theorem Blk.markEvent_get_port (b : Blk) (g e : Nat) (i : Nat) : (b.markEvent g e).port i = b.port i := rfl
@[simp] theorem Blk.markEvent_get_domain (b : Blk) (g e : Nat) (i : Nat) : (b.markEvent g e).domain i = b.domain i := rfl
@[simp] theorem Blk.markEvent_get_pu (b : Blk) (g e : Nat) (i : Nat) : (b.markEvent g e).pu i = b.pu i := rfl
@[simp] theorem Blk.markEvent_get_line (b : Blk) (g e : Nat) (i : Nat) : (b.markEvent g e).line i = b.line i := rfl
@[simp] theorem Blk.markEvent_get_fifo (b : Blk) (g e : Nat) (i : Nat) : (b.markEvent g e).fifo i = b.fifo i := rfl
@[simp] theorem Blk.markEvent_get_sport (b : Blk) (g e : Nat) (i : Nat) : (b.markEvent g e).sport i = b.sport i := rfl
@[simp] theorem Blk.markEvent_get_slot (b : Blk) (g e : Nat) (i : Nat) : (b.markEvent g e).slot i = b.slot i := rfl
@[simp] theorem Blk.markEvent_get_lat (b : Blk) (g e : Nat) (i : Nat) : (b.markEvent g e).lat i = b.lat i := rfl
@[simp] theorem Blk.markEvent_get_vline (b : Blk) (g e : Nat) (i : Nat) : (b.markEvent g e).vline i = b.vline i := rfl
@[simp] theorem Blk.markEvent_get_img (b : Blk) (g e : Nat)  : (b.markEvent g e).img = b.img := rfl
@[simp] theorem Blk.markEvent_get_inSafe (b : Blk) (g e : Nat)  : (b.markEvent g e).inSafe = b.inSafe := rfl
@[simp] theorem Blk.markEvent_get_ready (b : Blk) (g e : Nat)  : (b.markEvent g e).ready = b.ready := rfl
@[simp] theorem Blk.modSup_clock (b : Blk) (f : Super → Super) : (b.modSup f).clock = b.clock := rfl
@[simp] theorem Blk.modSup_power (b : Blk) (f : Super → Super) : (b.modSup f).power = b.power := rfl
@[simp] theorem Blk.modSup_ldr (b : Blk) (f : Super → Super) : (b.modSup f).ldr = b.ldr := rfl
@[simp] theorem Blk.modSup_image (b : Blk) (f : Super → Super) : (b.modSup f).image = b.image := rfl
@[simp] theorem Blk.modSup_regs (b : Blk) (f : Super → Super) : (b.modSup f).regs = b.regs := rfl
@[simp] theorem Blk.modSup_shadow (b : Blk) (f : Super → Super) : (b.modSup f).shadow = b.shadow := rfl
@[simp] theorem Blk.modSup_mg (b : Blk) (f : Super → Super) : (b.modSup f).mg = b.mg := rfl
@[simp] theorem Blk.modSup_upd (b : Blk) (f : Super → Super) : (b.modSup f).upd = b.upd := rfl
@[simp] theorem Blk.modSup_sched (b : Blk) (f : Super → Super) : (b.modSup f).sched = b.sched := rfl
@[simp] theorem Blk.modSup_mga (b : Blk) (f : Super → Super) : (b.modSup f).mga = b.mga := rfl
@[simp] theorem Blk.modSup_mgb (b : Blk) (f : Super → Super) : (b.modSup f).mgb = b.mgb := rfl
@[simp] theorem Blk.modSup_domains (b : Blk) (f : Super → Super) : (b.modSup f).domains = b.domains := rfl
@[simp] theorem Blk.modSup_queues (b : Blk) (f : Super → Super) : (b.modSup f).queues = b.queues := rfl
@[simp] theorem Blk.modSup_cells (b : Blk) (f : Super → Super) : (b.modSup f).cells = b.cells := rfl
@[simp] theorem Blk.modSup_movers (b : Blk) (f : Super → Super) : (b.modSup f).movers = b.movers := rfl
@[simp] theorem Blk.modSup_movp (b : Blk) (f : Super → Super) : (b.modSup f).movp = b.movp := rfl
@[simp] theorem Blk.modSup_ports (b : Blk) (f : Super → Super) : (b.modSup f).ports = b.ports := rfl
@[simp] theorem Blk.modSup_links (b : Blk) (f : Super → Super) : (b.modSup f).links = b.links := rfl
@[simp] theorem Blk.modSup_ctoLinks (b : Blk) (f : Super → Super) : (b.modSup f).ctoLinks = b.ctoLinks := rfl
@[simp] theorem Blk.modSup_halfFailed (b : Blk) (f : Super → Super) : (b.modSup f).halfFailed = b.halfFailed := rfl
@[simp] theorem Blk.modSup_halfTest (b : Blk) (f : Super → Super) : (b.modSup f).halfTest = b.halfTest := rfl
@[simp] theorem Blk.modSup_inShadow (b : Blk) (f : Super → Super) : (b.modSup f).inShadow = b.inShadow := rfl
@[simp] theorem Blk.modSup_activeSet (b : Blk) (f : Super → Super) : (b.modSup f).activeSet = b.activeSet := rfl
@[simp] theorem Blk.modSup_standIn (b : Blk) (f : Super → Super) : (b.modSup f).standIn = b.standIn := rfl
@[simp] theorem Blk.modSup_halfIdle (b : Blk) (f : Super → Super) : (b.modSup f).halfIdle = b.halfIdle := rfl
@[simp] theorem Blk.modSup_halfFails (b : Blk) (f : Super → Super) : (b.modSup f).halfFails = b.halfFails := rfl
@[simp] theorem Blk.modSup_pus (b : Blk) (f : Super → Super) : (b.modSup f).pus = b.pus := rfl
@[simp] theorem Blk.modSup_lines (b : Blk) (f : Super → Super) : (b.modSup f).lines = b.lines := rfl
@[simp] theorem Blk.modSup_vlines (b : Blk) (f : Super → Super) : (b.modSup f).vlines = b.vlines := rfl
@[simp] theorem Blk.modSup_fifos (b : Blk) (f : Super → Super) : (b.modSup f).fifos = b.fifos := rfl
@[simp] theorem Blk.modSup_sports (b : Blk) (f : Super → Super) : (b.modSup f).sports = b.sports := rfl
@[simp] theorem Blk.modSup_pool (b : Blk) (f : Super → Super) : (b.modSup f).pool = b.pool := rfl
@[simp] theorem Blk.modSup_slots (b : Blk) (f : Super → Super) : (b.modSup f).slots = b.slots := rfl
@[simp] theorem Blk.modSup_lats (b : Blk) (f : Super → Super) : (b.modSup f).lats = b.lats := rfl
@[simp] theorem Blk.modSup_pfail (b : Blk) (f : Super → Super) : (b.modSup f).pfail = b.pfail := rfl
@[simp] theorem Blk.modSup_vec (b : Blk) (f : Super → Super) : (b.modSup f).vec = b.vec := rfl
@[simp] theorem Blk.modSup_banks (b : Blk) (f : Super → Super) : (b.modSup f).banks = b.banks := rfl
@[simp] theorem Blk.modSup_relayDrops (b : Blk) (f : Super → Super) : (b.modSup f).relayDrops = b.relayDrops := rfl
@[simp] theorem Blk.modSup_relayWaits (b : Blk) (f : Super → Super) : (b.modSup f).relayWaits = b.relayWaits := rfl
@[simp] theorem Blk.modSup_rerouted (b : Blk) (f : Super → Super) : (b.modSup f).rerouted = b.rerouted := rfl
@[simp] theorem Blk.modSup_trace (b : Blk) (f : Super → Super) : (b.modSup f).trace = b.trace := rfl
@[simp] theorem Blk.modSup_order (b : Blk) (f : Super → Super) : (b.modSup f).order = b.order := rfl
@[simp] theorem Blk.modSup_relaySeq (b : Blk) (f : Super → Super) : (b.modSup f).relaySeq = b.relaySeq := rfl
@[simp] theorem Blk.modSup_freeNo (b : Blk) (f : Super → Super) : (b.modSup f).freeNo = b.freeNo := rfl
@[simp] theorem Blk.modSup_get_reg (b : Blk) (f : Super → Super) (z : Nat) : (b.modSup f).reg z = b.reg z := rfl
@[simp] theorem Blk.modSup_get_on (b : Blk) (f : Super → Super) (z : Nat) : (b.modSup f).on z = b.on z := rfl
@[simp] theorem Blk.modSup_get_queue (b : Blk) (f : Super → Super) (r : QRef) : (b.modSup f).queue r = b.queue r := rfl
@[simp] theorem Blk.modSup_get_mover (b : Blk) (f : Super → Super) (i : Nat) : (b.modSup f).mover i = b.mover i := rfl
@[simp] theorem Blk.modSup_get_port (b : Blk) (f : Super → Super) (i : Nat) : (b.modSup f).port i = b.port i := rfl
@[simp] theorem Blk.modSup_get_domain (b : Blk) (f : Super → Super) (i : Nat) : (b.modSup f).domain i = b.domain i := rfl
@[simp] theorem Blk.modSup_get_pu (b : Blk) (f : Super → Super) (i : Nat) : (b.modSup f).pu i = b.pu i := rfl
@[simp] theorem Blk.modSup_get_line (b : Blk) (f : Super → Super) (i : Nat) : (b.modSup f).line i = b.line i := rfl
@[simp] theorem Blk.modSup_get_fifo (b : Blk) (f : Super → Super) (i : Nat) : (b.modSup f).fifo i = b.fifo i := rfl
@[simp] theorem Blk.modSup_get_sport (b : Blk) (f : Super → Super) (i : Nat) : (b.modSup f).sport i = b.sport i := rfl
@[simp] theorem Blk.modSup_get_slot (b : Blk) (f : Super → Super) (i : Nat) : (b.modSup f).slot i = b.slot i := rfl
@[simp] theorem Blk.modSup_get_lat (b : Blk) (f : Super → Super) (i : Nat) : (b.modSup f).lat i = b.lat i := rfl
@[simp] theorem Blk.modSup_get_vline (b : Blk) (f : Super → Super) (i : Nat) : (b.modSup f).vline i = b.vline i := rfl
@[simp] theorem Blk.modSup_get_img (b : Blk) (f : Super → Super)  : (b.modSup f).img = b.img := rfl
@[simp] theorem Blk.modSup_get_inSafe (b : Blk) (f : Super → Super)  : (b.modSup f).inSafe = b.inSafe := rfl
@[simp] theorem Blk.modSup_get_ready (b : Blk) (f : Super → Super)  : (b.modSup f).ready = b.ready := rfl
@[simp] theorem Blk.modPd_clock (b : Blk) (d : Nat) (f : PowDom → PowDom) : (b.modPd d f).clock = b.clock := rfl
@[simp] theorem Blk.modPd_ldr (b : Blk) (d : Nat) (f : PowDom → PowDom) : (b.modPd d f).ldr = b.ldr := rfl
@[simp] theorem Blk.modPd_image (b : Blk) (d : Nat) (f : PowDom → PowDom) : (b.modPd d f).image = b.image := rfl
@[simp] theorem Blk.modPd_regs (b : Blk) (d : Nat) (f : PowDom → PowDom) : (b.modPd d f).regs = b.regs := rfl
@[simp] theorem Blk.modPd_shadow (b : Blk) (d : Nat) (f : PowDom → PowDom) : (b.modPd d f).shadow = b.shadow := rfl
@[simp] theorem Blk.modPd_mg (b : Blk) (d : Nat) (f : PowDom → PowDom) : (b.modPd d f).mg = b.mg := rfl
@[simp] theorem Blk.modPd_upd (b : Blk) (d : Nat) (f : PowDom → PowDom) : (b.modPd d f).upd = b.upd := rfl
@[simp] theorem Blk.modPd_sched (b : Blk) (d : Nat) (f : PowDom → PowDom) : (b.modPd d f).sched = b.sched := rfl
@[simp] theorem Blk.modPd_mga (b : Blk) (d : Nat) (f : PowDom → PowDom) : (b.modPd d f).mga = b.mga := rfl
@[simp] theorem Blk.modPd_mgb (b : Blk) (d : Nat) (f : PowDom → PowDom) : (b.modPd d f).mgb = b.mgb := rfl
@[simp] theorem Blk.modPd_domains (b : Blk) (d : Nat) (f : PowDom → PowDom) : (b.modPd d f).domains = b.domains := rfl
@[simp] theorem Blk.modPd_queues (b : Blk) (d : Nat) (f : PowDom → PowDom) : (b.modPd d f).queues = b.queues := rfl
@[simp] theorem Blk.modPd_cells (b : Blk) (d : Nat) (f : PowDom → PowDom) : (b.modPd d f).cells = b.cells := rfl
@[simp] theorem Blk.modPd_movers (b : Blk) (d : Nat) (f : PowDom → PowDom) : (b.modPd d f).movers = b.movers := rfl
@[simp] theorem Blk.modPd_movp (b : Blk) (d : Nat) (f : PowDom → PowDom) : (b.modPd d f).movp = b.movp := rfl
@[simp] theorem Blk.modPd_ports (b : Blk) (d : Nat) (f : PowDom → PowDom) : (b.modPd d f).ports = b.ports := rfl
@[simp] theorem Blk.modPd_links (b : Blk) (d : Nat) (f : PowDom → PowDom) : (b.modPd d f).links = b.links := rfl
@[simp] theorem Blk.modPd_ctoLinks (b : Blk) (d : Nat) (f : PowDom → PowDom) : (b.modPd d f).ctoLinks = b.ctoLinks := rfl
@[simp] theorem Blk.modPd_halfFailed (b : Blk) (d : Nat) (f : PowDom → PowDom) : (b.modPd d f).halfFailed = b.halfFailed := rfl
@[simp] theorem Blk.modPd_halfTest (b : Blk) (d : Nat) (f : PowDom → PowDom) : (b.modPd d f).halfTest = b.halfTest := rfl
@[simp] theorem Blk.modPd_inShadow (b : Blk) (d : Nat) (f : PowDom → PowDom) : (b.modPd d f).inShadow = b.inShadow := rfl
@[simp] theorem Blk.modPd_activeSet (b : Blk) (d : Nat) (f : PowDom → PowDom) : (b.modPd d f).activeSet = b.activeSet := rfl
@[simp] theorem Blk.modPd_standIn (b : Blk) (d : Nat) (f : PowDom → PowDom) : (b.modPd d f).standIn = b.standIn := rfl
@[simp] theorem Blk.modPd_halfIdle (b : Blk) (d : Nat) (f : PowDom → PowDom) : (b.modPd d f).halfIdle = b.halfIdle := rfl
@[simp] theorem Blk.modPd_halfFails (b : Blk) (d : Nat) (f : PowDom → PowDom) : (b.modPd d f).halfFails = b.halfFails := rfl
@[simp] theorem Blk.modPd_pus (b : Blk) (d : Nat) (f : PowDom → PowDom) : (b.modPd d f).pus = b.pus := rfl
@[simp] theorem Blk.modPd_lines (b : Blk) (d : Nat) (f : PowDom → PowDom) : (b.modPd d f).lines = b.lines := rfl
@[simp] theorem Blk.modPd_vlines (b : Blk) (d : Nat) (f : PowDom → PowDom) : (b.modPd d f).vlines = b.vlines := rfl
@[simp] theorem Blk.modPd_fifos (b : Blk) (d : Nat) (f : PowDom → PowDom) : (b.modPd d f).fifos = b.fifos := rfl
@[simp] theorem Blk.modPd_sports (b : Blk) (d : Nat) (f : PowDom → PowDom) : (b.modPd d f).sports = b.sports := rfl
@[simp] theorem Blk.modPd_pool (b : Blk) (d : Nat) (f : PowDom → PowDom) : (b.modPd d f).pool = b.pool := rfl
@[simp] theorem Blk.modPd_slots (b : Blk) (d : Nat) (f : PowDom → PowDom) : (b.modPd d f).slots = b.slots := rfl
@[simp] theorem Blk.modPd_lats (b : Blk) (d : Nat) (f : PowDom → PowDom) : (b.modPd d f).lats = b.lats := rfl
@[simp] theorem Blk.modPd_pfail (b : Blk) (d : Nat) (f : PowDom → PowDom) : (b.modPd d f).pfail = b.pfail := rfl
@[simp] theorem Blk.modPd_vec (b : Blk) (d : Nat) (f : PowDom → PowDom) : (b.modPd d f).vec = b.vec := rfl
@[simp] theorem Blk.modPd_sup (b : Blk) (d : Nat) (f : PowDom → PowDom) : (b.modPd d f).sup = b.sup := rfl
@[simp] theorem Blk.modPd_banks (b : Blk) (d : Nat) (f : PowDom → PowDom) : (b.modPd d f).banks = b.banks := rfl
@[simp] theorem Blk.modPd_relayDrops (b : Blk) (d : Nat) (f : PowDom → PowDom) : (b.modPd d f).relayDrops = b.relayDrops := rfl
@[simp] theorem Blk.modPd_relayWaits (b : Blk) (d : Nat) (f : PowDom → PowDom) : (b.modPd d f).relayWaits = b.relayWaits := rfl
@[simp] theorem Blk.modPd_rerouted (b : Blk) (d : Nat) (f : PowDom → PowDom) : (b.modPd d f).rerouted = b.rerouted := rfl
@[simp] theorem Blk.modPd_trace (b : Blk) (d : Nat) (f : PowDom → PowDom) : (b.modPd d f).trace = b.trace := rfl
@[simp] theorem Blk.modPd_order (b : Blk) (d : Nat) (f : PowDom → PowDom) : (b.modPd d f).order = b.order := rfl
@[simp] theorem Blk.modPd_relaySeq (b : Blk) (d : Nat) (f : PowDom → PowDom) : (b.modPd d f).relaySeq = b.relaySeq := rfl
@[simp] theorem Blk.modPd_freeNo (b : Blk) (d : Nat) (f : PowDom → PowDom) : (b.modPd d f).freeNo = b.freeNo := rfl
@[simp] theorem Blk.modPd_get_reg (b : Blk) (d : Nat) (f : PowDom → PowDom) (z : Nat) : (b.modPd d f).reg z = b.reg z := rfl
@[simp] theorem Blk.modPd_get_queue (b : Blk) (d : Nat) (f : PowDom → PowDom) (r : QRef) : (b.modPd d f).queue r = b.queue r := rfl
@[simp] theorem Blk.modPd_get_mover (b : Blk) (d : Nat) (f : PowDom → PowDom) (i : Nat) : (b.modPd d f).mover i = b.mover i := rfl
@[simp] theorem Blk.modPd_get_port (b : Blk) (d : Nat) (f : PowDom → PowDom) (i : Nat) : (b.modPd d f).port i = b.port i := rfl
@[simp] theorem Blk.modPd_get_domain (b : Blk) (d : Nat) (f : PowDom → PowDom) (i : Nat) : (b.modPd d f).domain i = b.domain i := rfl
@[simp] theorem Blk.modPd_get_pu (b : Blk) (d : Nat) (f : PowDom → PowDom) (i : Nat) : (b.modPd d f).pu i = b.pu i := rfl
@[simp] theorem Blk.modPd_get_line (b : Blk) (d : Nat) (f : PowDom → PowDom) (i : Nat) : (b.modPd d f).line i = b.line i := rfl
@[simp] theorem Blk.modPd_get_fifo (b : Blk) (d : Nat) (f : PowDom → PowDom) (i : Nat) : (b.modPd d f).fifo i = b.fifo i := rfl
@[simp] theorem Blk.modPd_get_sport (b : Blk) (d : Nat) (f : PowDom → PowDom) (i : Nat) : (b.modPd d f).sport i = b.sport i := rfl
@[simp] theorem Blk.modPd_get_slot (b : Blk) (d : Nat) (f : PowDom → PowDom) (i : Nat) : (b.modPd d f).slot i = b.slot i := rfl
@[simp] theorem Blk.modPd_get_lat (b : Blk) (d : Nat) (f : PowDom → PowDom) (i : Nat) : (b.modPd d f).lat i = b.lat i := rfl
@[simp] theorem Blk.modPd_get_vline (b : Blk) (d : Nat) (f : PowDom → PowDom) (i : Nat) : (b.modPd d f).vline i = b.vline i := rfl
@[simp] theorem Blk.modPd_get_img (b : Blk) (d : Nat) (f : PowDom → PowDom)  : (b.modPd d f).img = b.img := rfl
@[simp] theorem Blk.modPd_get_inSafe (b : Blk) (d : Nat) (f : PowDom → PowDom)  : (b.modPd d f).inSafe = b.inSafe := rfl
@[simp] theorem Blk.modPd_get_ready (b : Blk) (d : Nat) (f : PowDom → PowDom)  : (b.modPd d f).ready = b.ready := rfl
@[simp] theorem Blk.modLdr_clock (b : Blk) (f : Loader → Loader) : (b.modLdr f).clock = b.clock := rfl
@[simp] theorem Blk.modLdr_power (b : Blk) (f : Loader → Loader) : (b.modLdr f).power = b.power := rfl
@[simp] theorem Blk.modLdr_image (b : Blk) (f : Loader → Loader) : (b.modLdr f).image = b.image := rfl
@[simp] theorem Blk.modLdr_regs (b : Blk) (f : Loader → Loader) : (b.modLdr f).regs = b.regs := rfl
@[simp] theorem Blk.modLdr_shadow (b : Blk) (f : Loader → Loader) : (b.modLdr f).shadow = b.shadow := rfl
@[simp] theorem Blk.modLdr_mg (b : Blk) (f : Loader → Loader) : (b.modLdr f).mg = b.mg := rfl
@[simp] theorem Blk.modLdr_upd (b : Blk) (f : Loader → Loader) : (b.modLdr f).upd = b.upd := rfl
@[simp] theorem Blk.modLdr_sched (b : Blk) (f : Loader → Loader) : (b.modLdr f).sched = b.sched := rfl
@[simp] theorem Blk.modLdr_mga (b : Blk) (f : Loader → Loader) : (b.modLdr f).mga = b.mga := rfl
@[simp] theorem Blk.modLdr_mgb (b : Blk) (f : Loader → Loader) : (b.modLdr f).mgb = b.mgb := rfl
@[simp] theorem Blk.modLdr_domains (b : Blk) (f : Loader → Loader) : (b.modLdr f).domains = b.domains := rfl
@[simp] theorem Blk.modLdr_queues (b : Blk) (f : Loader → Loader) : (b.modLdr f).queues = b.queues := rfl
@[simp] theorem Blk.modLdr_cells (b : Blk) (f : Loader → Loader) : (b.modLdr f).cells = b.cells := rfl
@[simp] theorem Blk.modLdr_movers (b : Blk) (f : Loader → Loader) : (b.modLdr f).movers = b.movers := rfl
@[simp] theorem Blk.modLdr_movp (b : Blk) (f : Loader → Loader) : (b.modLdr f).movp = b.movp := rfl
@[simp] theorem Blk.modLdr_ports (b : Blk) (f : Loader → Loader) : (b.modLdr f).ports = b.ports := rfl
@[simp] theorem Blk.modLdr_links (b : Blk) (f : Loader → Loader) : (b.modLdr f).links = b.links := rfl
@[simp] theorem Blk.modLdr_ctoLinks (b : Blk) (f : Loader → Loader) : (b.modLdr f).ctoLinks = b.ctoLinks := rfl
@[simp] theorem Blk.modLdr_halfFailed (b : Blk) (f : Loader → Loader) : (b.modLdr f).halfFailed = b.halfFailed := rfl
@[simp] theorem Blk.modLdr_halfTest (b : Blk) (f : Loader → Loader) : (b.modLdr f).halfTest = b.halfTest := rfl
@[simp] theorem Blk.modLdr_inShadow (b : Blk) (f : Loader → Loader) : (b.modLdr f).inShadow = b.inShadow := rfl
@[simp] theorem Blk.modLdr_activeSet (b : Blk) (f : Loader → Loader) : (b.modLdr f).activeSet = b.activeSet := rfl
@[simp] theorem Blk.modLdr_standIn (b : Blk) (f : Loader → Loader) : (b.modLdr f).standIn = b.standIn := rfl
@[simp] theorem Blk.modLdr_halfIdle (b : Blk) (f : Loader → Loader) : (b.modLdr f).halfIdle = b.halfIdle := rfl
@[simp] theorem Blk.modLdr_halfFails (b : Blk) (f : Loader → Loader) : (b.modLdr f).halfFails = b.halfFails := rfl
@[simp] theorem Blk.modLdr_pus (b : Blk) (f : Loader → Loader) : (b.modLdr f).pus = b.pus := rfl
@[simp] theorem Blk.modLdr_lines (b : Blk) (f : Loader → Loader) : (b.modLdr f).lines = b.lines := rfl
@[simp] theorem Blk.modLdr_vlines (b : Blk) (f : Loader → Loader) : (b.modLdr f).vlines = b.vlines := rfl
@[simp] theorem Blk.modLdr_fifos (b : Blk) (f : Loader → Loader) : (b.modLdr f).fifos = b.fifos := rfl
@[simp] theorem Blk.modLdr_sports (b : Blk) (f : Loader → Loader) : (b.modLdr f).sports = b.sports := rfl
@[simp] theorem Blk.modLdr_pool (b : Blk) (f : Loader → Loader) : (b.modLdr f).pool = b.pool := rfl
@[simp] theorem Blk.modLdr_slots (b : Blk) (f : Loader → Loader) : (b.modLdr f).slots = b.slots := rfl
@[simp] theorem Blk.modLdr_lats (b : Blk) (f : Loader → Loader) : (b.modLdr f).lats = b.lats := rfl
@[simp] theorem Blk.modLdr_pfail (b : Blk) (f : Loader → Loader) : (b.modLdr f).pfail = b.pfail := rfl
@[simp] theorem Blk.modLdr_vec (b : Blk) (f : Loader → Loader) : (b.modLdr f).vec = b.vec := rfl
@[simp] theorem Blk.modLdr_sup (b : Blk) (f : Loader → Loader) : (b.modLdr f).sup = b.sup := rfl
@[simp] theorem Blk.modLdr_banks (b : Blk) (f : Loader → Loader) : (b.modLdr f).banks = b.banks := rfl
@[simp] theorem Blk.modLdr_relayDrops (b : Blk) (f : Loader → Loader) : (b.modLdr f).relayDrops = b.relayDrops := rfl
@[simp] theorem Blk.modLdr_relayWaits (b : Blk) (f : Loader → Loader) : (b.modLdr f).relayWaits = b.relayWaits := rfl
@[simp] theorem Blk.modLdr_rerouted (b : Blk) (f : Loader → Loader) : (b.modLdr f).rerouted = b.rerouted := rfl
@[simp] theorem Blk.modLdr_trace (b : Blk) (f : Loader → Loader) : (b.modLdr f).trace = b.trace := rfl
@[simp] theorem Blk.modLdr_order (b : Blk) (f : Loader → Loader) : (b.modLdr f).order = b.order := rfl
@[simp] theorem Blk.modLdr_relaySeq (b : Blk) (f : Loader → Loader) : (b.modLdr f).relaySeq = b.relaySeq := rfl
@[simp] theorem Blk.modLdr_freeNo (b : Blk) (f : Loader → Loader) : (b.modLdr f).freeNo = b.freeNo := rfl
@[simp] theorem Blk.modLdr_get_reg (b : Blk) (f : Loader → Loader) (z : Nat) : (b.modLdr f).reg z = b.reg z := rfl
@[simp] theorem Blk.modLdr_get_on (b : Blk) (f : Loader → Loader) (z : Nat) : (b.modLdr f).on z = b.on z := rfl
@[simp] theorem Blk.modLdr_get_queue (b : Blk) (f : Loader → Loader) (r : QRef) : (b.modLdr f).queue r = b.queue r := rfl
@[simp] theorem Blk.modLdr_get_mover (b : Blk) (f : Loader → Loader) (i : Nat) : (b.modLdr f).mover i = b.mover i := rfl
@[simp] theorem Blk.modLdr_get_port (b : Blk) (f : Loader → Loader) (i : Nat) : (b.modLdr f).port i = b.port i := rfl
@[simp] theorem Blk.modLdr_get_domain (b : Blk) (f : Loader → Loader) (i : Nat) : (b.modLdr f).domain i = b.domain i := rfl
@[simp] theorem Blk.modLdr_get_pu (b : Blk) (f : Loader → Loader) (i : Nat) : (b.modLdr f).pu i = b.pu i := rfl
@[simp] theorem Blk.modLdr_get_line (b : Blk) (f : Loader → Loader) (i : Nat) : (b.modLdr f).line i = b.line i := rfl
@[simp] theorem Blk.modLdr_get_fifo (b : Blk) (f : Loader → Loader) (i : Nat) : (b.modLdr f).fifo i = b.fifo i := rfl
@[simp] theorem Blk.modLdr_get_sport (b : Blk) (f : Loader → Loader) (i : Nat) : (b.modLdr f).sport i = b.sport i := rfl
@[simp] theorem Blk.modLdr_get_slot (b : Blk) (f : Loader → Loader) (i : Nat) : (b.modLdr f).slot i = b.slot i := rfl
@[simp] theorem Blk.modLdr_get_lat (b : Blk) (f : Loader → Loader) (i : Nat) : (b.modLdr f).lat i = b.lat i := rfl
@[simp] theorem Blk.modLdr_get_vline (b : Blk) (f : Loader → Loader) (i : Nat) : (b.modLdr f).vline i = b.vline i := rfl
@[simp] theorem Blk.modLdr_get_img (b : Blk) (f : Loader → Loader)  : (b.modLdr f).img = b.img := rfl
@[simp] theorem Blk.modBanks_clock (b : Blk) (f : Banks → Banks) : (b.modBanks f).clock = b.clock := rfl
@[simp] theorem Blk.modBanks_power (b : Blk) (f : Banks → Banks) : (b.modBanks f).power = b.power := rfl
@[simp] theorem Blk.modBanks_ldr (b : Blk) (f : Banks → Banks) : (b.modBanks f).ldr = b.ldr := rfl
@[simp] theorem Blk.modBanks_image (b : Blk) (f : Banks → Banks) : (b.modBanks f).image = b.image := rfl
@[simp] theorem Blk.modBanks_regs (b : Blk) (f : Banks → Banks) : (b.modBanks f).regs = b.regs := rfl
@[simp] theorem Blk.modBanks_shadow (b : Blk) (f : Banks → Banks) : (b.modBanks f).shadow = b.shadow := rfl
@[simp] theorem Blk.modBanks_mg (b : Blk) (f : Banks → Banks) : (b.modBanks f).mg = b.mg := rfl
@[simp] theorem Blk.modBanks_upd (b : Blk) (f : Banks → Banks) : (b.modBanks f).upd = b.upd := rfl
@[simp] theorem Blk.modBanks_sched (b : Blk) (f : Banks → Banks) : (b.modBanks f).sched = b.sched := rfl
@[simp] theorem Blk.modBanks_mga (b : Blk) (f : Banks → Banks) : (b.modBanks f).mga = b.mga := rfl
@[simp] theorem Blk.modBanks_mgb (b : Blk) (f : Banks → Banks) : (b.modBanks f).mgb = b.mgb := rfl
@[simp] theorem Blk.modBanks_domains (b : Blk) (f : Banks → Banks) : (b.modBanks f).domains = b.domains := rfl
@[simp] theorem Blk.modBanks_queues (b : Blk) (f : Banks → Banks) : (b.modBanks f).queues = b.queues := rfl
@[simp] theorem Blk.modBanks_cells (b : Blk) (f : Banks → Banks) : (b.modBanks f).cells = b.cells := rfl
@[simp] theorem Blk.modBanks_movers (b : Blk) (f : Banks → Banks) : (b.modBanks f).movers = b.movers := rfl
@[simp] theorem Blk.modBanks_movp (b : Blk) (f : Banks → Banks) : (b.modBanks f).movp = b.movp := rfl
@[simp] theorem Blk.modBanks_ports (b : Blk) (f : Banks → Banks) : (b.modBanks f).ports = b.ports := rfl
@[simp] theorem Blk.modBanks_links (b : Blk) (f : Banks → Banks) : (b.modBanks f).links = b.links := rfl
@[simp] theorem Blk.modBanks_ctoLinks (b : Blk) (f : Banks → Banks) : (b.modBanks f).ctoLinks = b.ctoLinks := rfl
@[simp] theorem Blk.modBanks_halfFailed (b : Blk) (f : Banks → Banks) : (b.modBanks f).halfFailed = b.halfFailed := rfl
@[simp] theorem Blk.modBanks_halfTest (b : Blk) (f : Banks → Banks) : (b.modBanks f).halfTest = b.halfTest := rfl
@[simp] theorem Blk.modBanks_inShadow (b : Blk) (f : Banks → Banks) : (b.modBanks f).inShadow = b.inShadow := rfl
@[simp] theorem Blk.modBanks_activeSet (b : Blk) (f : Banks → Banks) : (b.modBanks f).activeSet = b.activeSet := rfl
@[simp] theorem Blk.modBanks_standIn (b : Blk) (f : Banks → Banks) : (b.modBanks f).standIn = b.standIn := rfl
@[simp] theorem Blk.modBanks_halfIdle (b : Blk) (f : Banks → Banks) : (b.modBanks f).halfIdle = b.halfIdle := rfl
@[simp] theorem Blk.modBanks_halfFails (b : Blk) (f : Banks → Banks) : (b.modBanks f).halfFails = b.halfFails := rfl
@[simp] theorem Blk.modBanks_pus (b : Blk) (f : Banks → Banks) : (b.modBanks f).pus = b.pus := rfl
@[simp] theorem Blk.modBanks_lines (b : Blk) (f : Banks → Banks) : (b.modBanks f).lines = b.lines := rfl
@[simp] theorem Blk.modBanks_vlines (b : Blk) (f : Banks → Banks) : (b.modBanks f).vlines = b.vlines := rfl
@[simp] theorem Blk.modBanks_fifos (b : Blk) (f : Banks → Banks) : (b.modBanks f).fifos = b.fifos := rfl
@[simp] theorem Blk.modBanks_sports (b : Blk) (f : Banks → Banks) : (b.modBanks f).sports = b.sports := rfl
@[simp] theorem Blk.modBanks_pool (b : Blk) (f : Banks → Banks) : (b.modBanks f).pool = b.pool := rfl
@[simp] theorem Blk.modBanks_slots (b : Blk) (f : Banks → Banks) : (b.modBanks f).slots = b.slots := rfl
@[simp] theorem Blk.modBanks_lats (b : Blk) (f : Banks → Banks) : (b.modBanks f).lats = b.lats := rfl
@[simp] theorem Blk.modBanks_pfail (b : Blk) (f : Banks → Banks) : (b.modBanks f).pfail = b.pfail := rfl
@[simp] theorem Blk.modBanks_vec (b : Blk) (f : Banks → Banks) : (b.modBanks f).vec = b.vec := rfl
@[simp] theorem Blk.modBanks_sup (b : Blk) (f : Banks → Banks) : (b.modBanks f).sup = b.sup := rfl
@[simp] theorem Blk.modBanks_relayDrops (b : Blk) (f : Banks → Banks) : (b.modBanks f).relayDrops = b.relayDrops := rfl
@[simp] theorem Blk.modBanks_relayWaits (b : Blk) (f : Banks → Banks) : (b.modBanks f).relayWaits = b.relayWaits := rfl
@[simp] theorem Blk.modBanks_rerouted (b : Blk) (f : Banks → Banks) : (b.modBanks f).rerouted = b.rerouted := rfl
@[simp] theorem Blk.modBanks_trace (b : Blk) (f : Banks → Banks) : (b.modBanks f).trace = b.trace := rfl
@[simp] theorem Blk.modBanks_order (b : Blk) (f : Banks → Banks) : (b.modBanks f).order = b.order := rfl
@[simp] theorem Blk.modBanks_relaySeq (b : Blk) (f : Banks → Banks) : (b.modBanks f).relaySeq = b.relaySeq := rfl
@[simp] theorem Blk.modBanks_freeNo (b : Blk) (f : Banks → Banks) : (b.modBanks f).freeNo = b.freeNo := rfl
@[simp] theorem Blk.modBanks_get_reg (b : Blk) (f : Banks → Banks) (z : Nat) : (b.modBanks f).reg z = b.reg z := rfl
@[simp] theorem Blk.modBanks_get_on (b : Blk) (f : Banks → Banks) (z : Nat) : (b.modBanks f).on z = b.on z := rfl
@[simp] theorem Blk.modBanks_get_queue (b : Blk) (f : Banks → Banks) (r : QRef) : (b.modBanks f).queue r = b.queue r := rfl
@[simp] theorem Blk.modBanks_get_mover (b : Blk) (f : Banks → Banks) (i : Nat) : (b.modBanks f).mover i = b.mover i := rfl
@[simp] theorem Blk.modBanks_get_port (b : Blk) (f : Banks → Banks) (i : Nat) : (b.modBanks f).port i = b.port i := rfl
@[simp] theorem Blk.modBanks_get_domain (b : Blk) (f : Banks → Banks) (i : Nat) : (b.modBanks f).domain i = b.domain i := rfl
@[simp] theorem Blk.modBanks_get_pu (b : Blk) (f : Banks → Banks) (i : Nat) : (b.modBanks f).pu i = b.pu i := rfl
@[simp] theorem Blk.modBanks_get_line (b : Blk) (f : Banks → Banks) (i : Nat) : (b.modBanks f).line i = b.line i := rfl
@[simp] theorem Blk.modBanks_get_fifo (b : Blk) (f : Banks → Banks) (i : Nat) : (b.modBanks f).fifo i = b.fifo i := rfl
@[simp] theorem Blk.modBanks_get_sport (b : Blk) (f : Banks → Banks) (i : Nat) : (b.modBanks f).sport i = b.sport i := rfl
@[simp] theorem Blk.modBanks_get_slot (b : Blk) (f : Banks → Banks) (i : Nat) : (b.modBanks f).slot i = b.slot i := rfl
@[simp] theorem Blk.modBanks_get_lat (b : Blk) (f : Banks → Banks) (i : Nat) : (b.modBanks f).lat i = b.lat i := rfl
@[simp] theorem Blk.modBanks_get_vline (b : Blk) (f : Banks → Banks) (i : Nat) : (b.modBanks f).vline i = b.vline i := rfl
@[simp] theorem Blk.modBanks_get_img (b : Blk) (f : Banks → Banks)  : (b.modBanks f).img = b.img := rfl
@[simp] theorem Blk.modBanks_get_inSafe (b : Blk) (f : Banks → Banks)  : (b.modBanks f).inSafe = b.inSafe := rfl
@[simp] theorem Blk.modBanks_get_ready (b : Blk) (f : Banks → Banks)  : (b.modBanks f).ready = b.ready := rfl
@[simp] theorem Blk.modSvc_clock (b : Blk) (f : MovSvc → MovSvc) : (b.modSvc f).clock = b.clock := rfl
@[simp] theorem Blk.modSvc_power (b : Blk) (f : MovSvc → MovSvc) : (b.modSvc f).power = b.power := rfl
@[simp] theorem Blk.modSvc_ldr (b : Blk) (f : MovSvc → MovSvc) : (b.modSvc f).ldr = b.ldr := rfl
@[simp] theorem Blk.modSvc_image (b : Blk) (f : MovSvc → MovSvc) : (b.modSvc f).image = b.image := rfl
@[simp] theorem Blk.modSvc_regs (b : Blk) (f : MovSvc → MovSvc) : (b.modSvc f).regs = b.regs := rfl
@[simp] theorem Blk.modSvc_shadow (b : Blk) (f : MovSvc → MovSvc) : (b.modSvc f).shadow = b.shadow := rfl
@[simp] theorem Blk.modSvc_mg (b : Blk) (f : MovSvc → MovSvc) : (b.modSvc f).mg = b.mg := rfl
@[simp] theorem Blk.modSvc_upd (b : Blk) (f : MovSvc → MovSvc) : (b.modSvc f).upd = b.upd := rfl
@[simp] theorem Blk.modSvc_sched (b : Blk) (f : MovSvc → MovSvc) : (b.modSvc f).sched = b.sched := rfl
@[simp] theorem Blk.modSvc_mga (b : Blk) (f : MovSvc → MovSvc) : (b.modSvc f).mga = b.mga := rfl
@[simp] theorem Blk.modSvc_mgb (b : Blk) (f : MovSvc → MovSvc) : (b.modSvc f).mgb = b.mgb := rfl
@[simp] theorem Blk.modSvc_domains (b : Blk) (f : MovSvc → MovSvc) : (b.modSvc f).domains = b.domains := rfl
@[simp] theorem Blk.modSvc_queues (b : Blk) (f : MovSvc → MovSvc) : (b.modSvc f).queues = b.queues := rfl
@[simp] theorem Blk.modSvc_cells (b : Blk) (f : MovSvc → MovSvc) : (b.modSvc f).cells = b.cells := rfl
@[simp] theorem Blk.modSvc_movers (b : Blk) (f : MovSvc → MovSvc) : (b.modSvc f).movers = b.movers := rfl
@[simp] theorem Blk.modSvc_ports (b : Blk) (f : MovSvc → MovSvc) : (b.modSvc f).ports = b.ports := rfl
@[simp] theorem Blk.modSvc_links (b : Blk) (f : MovSvc → MovSvc) : (b.modSvc f).links = b.links := rfl
@[simp] theorem Blk.modSvc_ctoLinks (b : Blk) (f : MovSvc → MovSvc) : (b.modSvc f).ctoLinks = b.ctoLinks := rfl
@[simp] theorem Blk.modSvc_halfFailed (b : Blk) (f : MovSvc → MovSvc) : (b.modSvc f).halfFailed = b.halfFailed := rfl
@[simp] theorem Blk.modSvc_halfTest (b : Blk) (f : MovSvc → MovSvc) : (b.modSvc f).halfTest = b.halfTest := rfl
@[simp] theorem Blk.modSvc_inShadow (b : Blk) (f : MovSvc → MovSvc) : (b.modSvc f).inShadow = b.inShadow := rfl
@[simp] theorem Blk.modSvc_activeSet (b : Blk) (f : MovSvc → MovSvc) : (b.modSvc f).activeSet = b.activeSet := rfl
@[simp] theorem Blk.modSvc_standIn (b : Blk) (f : MovSvc → MovSvc) : (b.modSvc f).standIn = b.standIn := rfl
@[simp] theorem Blk.modSvc_halfIdle (b : Blk) (f : MovSvc → MovSvc) : (b.modSvc f).halfIdle = b.halfIdle := rfl
@[simp] theorem Blk.modSvc_halfFails (b : Blk) (f : MovSvc → MovSvc) : (b.modSvc f).halfFails = b.halfFails := rfl
@[simp] theorem Blk.modSvc_pus (b : Blk) (f : MovSvc → MovSvc) : (b.modSvc f).pus = b.pus := rfl
@[simp] theorem Blk.modSvc_lines (b : Blk) (f : MovSvc → MovSvc) : (b.modSvc f).lines = b.lines := rfl
@[simp] theorem Blk.modSvc_vlines (b : Blk) (f : MovSvc → MovSvc) : (b.modSvc f).vlines = b.vlines := rfl
@[simp] theorem Blk.modSvc_fifos (b : Blk) (f : MovSvc → MovSvc) : (b.modSvc f).fifos = b.fifos := rfl
@[simp] theorem Blk.modSvc_sports (b : Blk) (f : MovSvc → MovSvc) : (b.modSvc f).sports = b.sports := rfl
@[simp] theorem Blk.modSvc_pool (b : Blk) (f : MovSvc → MovSvc) : (b.modSvc f).pool = b.pool := rfl
@[simp] theorem Blk.modSvc_slots (b : Blk) (f : MovSvc → MovSvc) : (b.modSvc f).slots = b.slots := rfl
@[simp] theorem Blk.modSvc_lats (b : Blk) (f : MovSvc → MovSvc) : (b.modSvc f).lats = b.lats := rfl
@[simp] theorem Blk.modSvc_pfail (b : Blk) (f : MovSvc → MovSvc) : (b.modSvc f).pfail = b.pfail := rfl
@[simp] theorem Blk.modSvc_vec (b : Blk) (f : MovSvc → MovSvc) : (b.modSvc f).vec = b.vec := rfl
@[simp] theorem Blk.modSvc_sup (b : Blk) (f : MovSvc → MovSvc) : (b.modSvc f).sup = b.sup := rfl
@[simp] theorem Blk.modSvc_banks (b : Blk) (f : MovSvc → MovSvc) : (b.modSvc f).banks = b.banks := rfl
@[simp] theorem Blk.modSvc_relayDrops (b : Blk) (f : MovSvc → MovSvc) : (b.modSvc f).relayDrops = b.relayDrops := rfl
@[simp] theorem Blk.modSvc_relayWaits (b : Blk) (f : MovSvc → MovSvc) : (b.modSvc f).relayWaits = b.relayWaits := rfl
@[simp] theorem Blk.modSvc_rerouted (b : Blk) (f : MovSvc → MovSvc) : (b.modSvc f).rerouted = b.rerouted := rfl
@[simp] theorem Blk.modSvc_trace (b : Blk) (f : MovSvc → MovSvc) : (b.modSvc f).trace = b.trace := rfl
@[simp] theorem Blk.modSvc_order (b : Blk) (f : MovSvc → MovSvc) : (b.modSvc f).order = b.order := rfl
@[simp] theorem Blk.modSvc_relaySeq (b : Blk) (f : MovSvc → MovSvc) : (b.modSvc f).relaySeq = b.relaySeq := rfl
@[simp] theorem Blk.modSvc_freeNo (b : Blk) (f : MovSvc → MovSvc) : (b.modSvc f).freeNo = b.freeNo := rfl
@[simp] theorem Blk.modSvc_get_reg (b : Blk) (f : MovSvc → MovSvc) (z : Nat) : (b.modSvc f).reg z = b.reg z := rfl
@[simp] theorem Blk.modSvc_get_on (b : Blk) (f : MovSvc → MovSvc) (z : Nat) : (b.modSvc f).on z = b.on z := rfl
@[simp] theorem Blk.modSvc_get_queue (b : Blk) (f : MovSvc → MovSvc) (r : QRef) : (b.modSvc f).queue r = b.queue r := rfl
@[simp] theorem Blk.modSvc_get_mover (b : Blk) (f : MovSvc → MovSvc) (i : Nat) : (b.modSvc f).mover i = b.mover i := rfl
@[simp] theorem Blk.modSvc_get_port (b : Blk) (f : MovSvc → MovSvc) (i : Nat) : (b.modSvc f).port i = b.port i := rfl
@[simp] theorem Blk.modSvc_get_domain (b : Blk) (f : MovSvc → MovSvc) (i : Nat) : (b.modSvc f).domain i = b.domain i := rfl
@[simp] theorem Blk.modSvc_get_pu (b : Blk) (f : MovSvc → MovSvc) (i : Nat) : (b.modSvc f).pu i = b.pu i := rfl
@[simp] theorem Blk.modSvc_get_line (b : Blk) (f : MovSvc → MovSvc) (i : Nat) : (b.modSvc f).line i = b.line i := rfl
@[simp] theorem Blk.modSvc_get_fifo (b : Blk) (f : MovSvc → MovSvc) (i : Nat) : (b.modSvc f).fifo i = b.fifo i := rfl
@[simp] theorem Blk.modSvc_get_sport (b : Blk) (f : MovSvc → MovSvc) (i : Nat) : (b.modSvc f).sport i = b.sport i := rfl
@[simp] theorem Blk.modSvc_get_slot (b : Blk) (f : MovSvc → MovSvc) (i : Nat) : (b.modSvc f).slot i = b.slot i := rfl
@[simp] theorem Blk.modSvc_get_lat (b : Blk) (f : MovSvc → MovSvc) (i : Nat) : (b.modSvc f).lat i = b.lat i := rfl
@[simp] theorem Blk.modSvc_get_vline (b : Blk) (f : MovSvc → MovSvc) (i : Nat) : (b.modSvc f).vline i = b.vline i := rfl
@[simp] theorem Blk.modSvc_get_img (b : Blk) (f : MovSvc → MovSvc)  : (b.modSvc f).img = b.img := rfl
@[simp] theorem Blk.modSvc_get_inSafe (b : Blk) (f : MovSvc → MovSvc)  : (b.modSvc f).inSafe = b.inSafe := rfl
@[simp] theorem Blk.modSvc_get_ready (b : Blk) (f : MovSvc → MovSvc)  : (b.modSvc f).ready = b.ready := rfl

end Sys2Proof.Machine
end

