-- ==== Sys2Proof/Laws/Events.lean ====
section
/-! SUPPORT. What the shared operations can do: presenting a packet writes the ports and the presentation order alone; an
event and its message write the event groups, the ports, the vector page and the coalescing lists besides; an event record
writes the domains as well. -/

namespace Sys2Proof.Machine
open Sys2Proof

theorem Sent.refl (b : Blk) : Sent b b := rfl
theorem Msg.refl (b : Blk) : Msg b b := rfl
theorem Told.refl (b : Blk) : Told b b := rfl
theorem Sent.trans {a b c : Blk} (h : Sent a b) (k : Sent b c) : Sent a c := by unfold Sent at *; rw [h] at k; exact k
theorem Msg.trans {a b c : Blk} (h : Msg a b) (k : Msg b c) : Msg a c := by unfold Msg at *; rw [h] at k; exact k
theorem Told.trans {a b c : Blk} (h : Told a b) (k : Told b c) : Told a c := by unfold Told at *; rw [h] at k; exact k
theorem Sent.msg {b c : Blk} (h : Sent b c) : Msg b c := by unfold Sent Msg at *; rw [h]
theorem Msg.told {b c : Blk} (h : Msg b c) : Told b c := by unfold Msg Told at *; rw [h]

/-- What holds of both branches holds of the choice. -/
theorem ite_both {α : Type} {P : α → Prop} {c : Prop} [Decidable c] {x y : α} (hx : P x) (hy : P y) :
    P (if c then x else y) := by
  split
  · exact hx
  · exact hy

theorem Blk.modPort_sent (b : Blk) (p : Nat) (f : Port → Port) : Sent b (b.modPort p f) := rfl

theorem Blk.grantPkt_sent (b : Blk) (p : Nat) (x : Port) (k : Pkt) : Sent b (b.grantPkt p x k) := rfl

theorem Blk.present_sent (b : Blk) (p : Nat) (k : Pkt) : Sent b (b.present p k) := by
  unfold Blk.present
  exact ite_both (P := Sent b) rfl rfl

theorem Blk.sendWrite_sent (b : Blk) (a : Nat) (data : List Byte) (d path : Nat) (u : Purpose) (second : Bool) :
    Sent b (b.sendWrite a data d path u second) := by
  unfold Blk.sendWrite
  split
  · exact Blk.present_sent _ _ _
  · rfl

theorem Blk.sendRead_sent (b : Blk) (a len d path : Nat) (u : Purpose) : Sent b (b.sendRead a len d path u) := by
  unfold Blk.sendRead
  split
  · exact Blk.present_sent _ _ _
  · rfl

theorem Blk.sendFlush_sent (b : Blk) (port path a d : Nat) (u : Purpose) : Sent b (b.sendFlush port path a d u) :=
  Blk.present_sent _ _ _

theorem Blk.markEvent_msg (b : Blk) (g i : Nat) : Msg b (b.markEvent g i) := rfl
theorem Blk.modSched_msg (b : Blk) (f : Sched → Sched) : Msg b (b.modSched f) := rfl
theorem Blk.modVector_msg (b : Blk) (v : Nat) (f : Vector4 → Vector4) : Msg b (b.modVector v f) := rfl
theorem Blk.vecErr_msg (b : Blk) : Msg b b.vecErr := rfl

theorem Blk.postMsg_msg (b : Blk) (v dom : Nat) (second : Bool) : Msg b (b.postMsg v dom second) :=
  (Blk.sendWrite_sent _ _ _ _ _ _ _).msg

theorem Blk.orderMsg_msg (b : Blk) (v dom : Nat) (after : Option (Nat × Pkt)) : Msg b (b.orderMsg v dom after) := by
  unfold Blk.orderMsg
  split
  · exact Blk.postMsg_msg _ _ _ _
  · split
    · split
      · exact Blk.postMsg_msg _ _ _ _
      · exact (Blk.modSched_msg _ _).trans (Blk.sendFlush_sent _ _ _ _ _ _).msg
    · exact Blk.postMsg_msg _ _ _ _

theorem Blk.dueWith_msg (err : Blk → Blk) (he : ∀ b, Msg b (err b)) (b : Blk) (v dom : Nat) (after : Option (Nat × Pkt)) :
    Msg b (Blk.dueWith err b v dom after) := by
  unfold Blk.dueWith
  simp only []
  split
  · exact (Blk.vecErr_msg b).trans (he _)
  · split
    · exact Blk.modVector_msg _ _ _
    · exact Blk.orderMsg_msg _ _ _ _

theorem Blk.causeWith_msg (err : Blk → Blk) (he : ∀ b, Msg b (err b)) (b : Blk) (v dom : Nat) (after : Option (Nat × Pkt)) :
    Msg b (Blk.causeWith err b v dom after) := by
  unfold Blk.causeWith
  split
  · exact Blk.modSched_msg _ _
  · exact (Blk.modSched_msg _ _).trans (Blk.dueWith_msg err he _ _ _ _)

theorem Blk.raiseN_msg : ∀ (n : Nat) (b : Blk) (g i : Nat), Msg b (Blk.raiseN n b g i)
  | 0, b, g, i => Blk.markEvent_msg b g i
  | n + 1, b, g, i => by
    unfold Blk.raiseN
    simp only []
    split
    · exact (Blk.markEvent_msg b g i).trans (Blk.causeWith_msg _ (fun c => Blk.raiseN_msg n c 0 13) _ _ _ _)
    · exact Blk.markEvent_msg b g i

/-- An event writes the event groups and, for its message, the ports, the vector page and the coalescing lists. -/
theorem Blk.raise_msg (b : Blk) (g i : Nat) : Msg b (b.raise g i) := Blk.raiseN_msg 4 b g i

theorem Blk.raiseAt_msg (b : Blk) (g i : Nat) : Msg b (b.raiseAt g i) := Blk.raise_msg _ _ _

theorem Blk.cause_msg (b : Blk) (v dom : Nat) (after : Option (Nat × Pkt)) : Msg b (b.cause v dom after) :=
  Blk.causeWith_msg _ (fun c => Blk.raise_msg c 0 13) _ _ _ _

theorem Blk.due_msg (b : Blk) (v dom : Nat) (after : Option (Nat × Pkt)) : Msg b (b.due v dom after) :=
  Blk.dueWith_msg _ (fun c => Blk.raise_msg c 0 13) _ _ _ _

theorem Blk.dropMsg_msg (b : Blk) : Msg b b.dropMsg := (Blk.vecErr_msg b).trans (Blk.raise_msg _ _ _)

theorem Blk.domCause_msg (b : Blk) (v d : Nat) (after : Option (Nat × Pkt)) : Msg b (b.domCause v d after) := by
  unfold Blk.domCause
  simp only []
  split
  · exact (Blk.raiseAt_msg _ _ _).trans (Blk.cause_msg _ _ _ _)
  · exact Blk.cause_msg _ _ _ _

/-! ## What an event leaves in its group -/

theorem Blk.sendWrite_mg (b : Blk) (a : Nat) (data : List Byte) (d path : Nat) (u : Purpose) (second : Bool) :
    (b.sendWrite a data d path u second).mg = b.mg := by rw [Blk.sendWrite_sent]

theorem Blk.sendFlush_mg (b : Blk) (port path a d : Nat) (u : Purpose) : (b.sendFlush port path a d u).mg = b.mg := by
  rw [Blk.sendFlush_sent]

theorem Blk.orderMsg_mg (b : Blk) (v dom : Nat) (after : Option (Nat × Pkt)) : (b.orderMsg v dom after).mg = b.mg := by
  unfold Blk.orderMsg Blk.postMsg
  repeat' split
  all_goals simp [Blk.sendWrite_mg, Blk.sendFlush_mg]

theorem bit_eq_testBit (x i : Nat) : bit x i = x.testBit i := by
  rw [Nat.testBit_eq_decide_div_mod_eq]; rfl

theorem bit_lor_of_bit (x y i : Nat) (h : bit x i = true) : bit (Nat.lor x y) i = true := by
  rw [bit_eq_testBit] at *
  show (x ||| y).testBit i = true
  simp [Nat.testBit_or, h]

theorem bit_lor_self (x i : Nat) : bit (Nat.lor x (2 ^ i)) i = true := by
  have : (x ||| 2 ^ i).testBit i = true := by simp [Nat.testBit_or]
  rw [Nat.testBit_eq_decide_div_mod_eq] at this
  simpa [bit] using this

/-- Marking an event sets its pending bit and clears none. -/
theorem Blk.markEvent_pends (b : Blk) (g i h j : Nat) (hp : b.pends h j = true ∨ (h = g ∧ j = i)) :
    (b.markEvent g i).pends h j = true := by
  have e : (b.markEvent g i).mg.groups = tabSet {} b.mg.groups g
      { (tabGet {} b.mg.groups g) with seq := incr 8 (tabGet ({} : EvGroup) b.mg.groups g).seq, pending := Nat.lor (tabGet ({} : EvGroup) b.mg.groups g).pending (2 ^ i),
                                       occ := incr 32 (tabGet ({} : EvGroup) b.mg.groups g).occ } := rfl
  unfold Blk.pends
  rw [e]
  by_cases hg : h = g
  · subst hg
    rw [tabGet_tabSet_same]
    rcases hp with hp | ⟨_, rfl⟩
    · exact bit_lor_of_bit _ _ _ hp
    · exact bit_lor_self _ _
  · rw [tabGet_tabSet_other _ _ _ _ _ hg]
    rcases hp with hp | ⟨hh, _⟩
    · exact hp
    · exact absurd hh hg

theorem Blk.pends_of_mg {b c : Blk} (h : c.mg = b.mg) (g i : Nat) : c.pends g i = b.pends g i := by
  unfold Blk.pends; rw [h]

/-- Raising an event sets its pending bit and clears none (R264). -/
theorem Blk.raiseN_pends : ∀ (n : Nat) (b : Blk) (g i h j : Nat), (b.pends h j = true ∨ (h = g ∧ j = i)) →
    (Blk.raiseN n b g i).pends h j = true
  | 0, b, g, i, h, j, hp => Blk.markEvent_pends b g i h j hp
  | n + 1, b, g, i, h, j, hp => by
    have hm := Blk.markEvent_pends b g i h j hp
    unfold Blk.raiseN
    simp only []
    split
    · unfold Blk.causeWith
      split
      · exact hm
      · unfold Blk.dueWith
        simp only []
        split
        · exact Blk.raiseN_pends n _ 0 13 h j (Or.inl hm)
        · split
          · exact hm
          · rw [Blk.pends_of_mg (Blk.orderMsg_mg _ _ _ _)]
            exact hm
    · exact hm

theorem Blk.raise_pends (b : Blk) (g i : Nat) : (b.raise g i).pends g i = true :=
  Blk.raiseN_pends 4 b g i g i (Or.inr ⟨rfl, rfl⟩)

theorem Blk.raise_keeps (b : Blk) (g i h j : Nat) (hp : b.pends h j = true) : (b.raise g i).pends h j = true :=
  Blk.raiseN_pends 4 b g i h j (Or.inl hp)

/-- What every marked event keeps of the management side, raising an event keeps. -/
theorem Blk.raiseN_keeps (P : Mgmt → Prop) (hm : ∀ (b : Blk) (g i : Nat), P b.mg → P (b.markEvent g i).mg) :
    ∀ (n : Nat) (b : Blk) (g i : Nat), P b.mg → P (Blk.raiseN n b g i).mg
  | 0, b, g, i, h => hm b g i h
  | n + 1, b, g, i, h => by
    have h1 := hm b g i h
    unfold Blk.raiseN
    simp only []
    split
    · unfold Blk.causeWith
      split
      · exact h1
      · unfold Blk.dueWith
        simp only []
        split
        · exact Blk.raiseN_keeps P hm n _ 0 13 h1
        · split
          · exact h1
          · rw [Blk.orderMsg_mg]
            exact h1
    · exact h1

theorem Blk.raise_mg (P : Mgmt → Prop) (hm : ∀ (b : Blk) (g i : Nat), P b.mg → P (b.markEvent g i).mg) (b : Blk) (g i : Nat)
    (h : P b.mg) : P (b.raise g i).mg := Blk.raiseN_keeps P hm 4 b g i h

@[simp] theorem Blk.raise_sems (b : Blk) (g i : Nat) : (b.raise g i).mg.sems = b.mg.sems :=
  Blk.raise_mg (fun m => m.sems = b.mg.sems) (fun _ _ _ h => h) b g i rfl

@[simp] theorem Blk.raise_alog (b : Blk) (g i : Nat) : (b.raise g i).mg.alog = b.mg.alog :=
  Blk.raise_mg (fun m => m.alog = b.mg.alog) (fun _ _ _ h => h) b g i rfl

@[simp] theorem Blk.raise_alogPtr (b : Blk) (g i : Nat) : (b.raise g i).mg.alogPtr = b.mg.alogPtr :=
  Blk.raise_mg (fun m => m.alogPtr = b.mg.alogPtr) (fun _ _ _ h => h) b g i rfl

/-- An event changes of a port's side the event counts alone (R64). -/
theorem Blk.raise_side (b : Blk) (g i : Nat) (p : MPort) :
    (b.raise g i).side p = { b.side p with evtCount := ((b.raise g i).side p).evtCount } := by
  have h := Blk.raise_mg (fun m => m.a = { b.mg.a with evtCount := m.a.evtCount } ∧ m.b = { b.mg.b with evtCount := m.b.evtCount })
    (fun c g i h => by
      constructor
      · have e : (c.markEvent g i).mg.a = { c.mg.a with evtCount := (c.markEvent g i).mg.a.evtCount } := rfl
        rw [e, h.1]
      · have e : (c.markEvent g i).mg.b = { c.mg.b with evtCount := (c.markEvent g i).mg.b.evtCount } := rfl
        rw [e, h.2]) b g i ⟨rfl, rfl⟩
  cases p
  · exact h.1
  · exact h.2

/-- A port whose event counts all stand at 256 keeps them there. -/
theorem Blk.raise_counts (b : Blk) (g i : Nat) (p : MPort) (h : ∀ k, tabGet 256 (b.side p).evtCount k = 256) :
    ∀ k, tabGet 256 ((b.raise g i).side p).evtCount k = 256 := by
  have key : ∀ (t : Tab Nat) (g : Nat), (∀ k, tabGet 256 t k = 256) → ∀ k, tabGet 256 (tabSet 256 t g (satInc 256 (tabGet 256 t g))) k = 256 := by
    intro t g h k
    by_cases hk : k = g
    · subst hk; rw [tabGet_tabSet_same, h k]; rfl
    · rw [tabGet_tabSet_other _ _ _ _ _ hk]; exact h k
  cases p
  · exact Blk.raise_mg (fun m => ∀ k, tabGet 256 m.a.evtCount k = 256) (fun c g i h => key _ g h) b g i h
  · exact Blk.raise_mg (fun m => ∀ k, tabGet 256 m.b.evtCount k = 256) (fun c g i h => key _ g h) b g i h

/-! ## Event records -/

theorem Blk.modDomain_told (b : Blk) (d : Nat) (f : Domain → Domain) : Told b (b.modDomain d f) := rfl

theorem Blk.putRecord_told (b : Blk) (d : Nat) (mk : Nat → List Byte) : Told b (b.putRecord d mk) := by
  unfold Blk.putRecord
  split
  · exact (Blk.modDomain_told _ _ _).trans (Blk.sendWrite_sent _ _ _ _ _ _ _).msg.told
  · rfl

theorem Blk.loseRecord_told (b : Blk) (d rseq status rtype : Nat) : Told b (b.loseRecord d rseq status rtype) := by
  unfold Blk.loseRecord
  simp only []
  split
  · exact (Blk.modDomain_told _ _ _).trans (Blk.raiseAt_msg _ _ _).told
  · rfl

theorem Blk.overflowRecord_told (b : Blk) (d : Nat) (l : LossRun) : Told b (b.overflowRecord d l) := by
  unfold Blk.overflowRecord
  exact (Blk.putRecord_told _ _ _).trans (Blk.modDomain_told _ _ _)

theorem Blk.genRecord_told (b : Blk) (d : Nat) (q : QRef) (r : Report) : Told b (b.genRecord d q r) := by
  unfold Blk.genRecord
  simp only []
  split
  · split
    · split
      · split
        · split
          · exact ((Blk.modDomain_told _ _ _).trans (Blk.overflowRecord_told _ _ _)).trans
              ((Blk.putRecord_told _ _ _).trans (Blk.modDomain_told _ _ _))
          · exact ((Blk.modDomain_told _ _ _).trans (Blk.overflowRecord_told _ _ _)).trans (Blk.loseRecord_told _ _ _ _ _)
        · exact (Blk.modDomain_told _ _ _).trans (Blk.overflowRecord_told _ _ _)
      · exact (Blk.modDomain_told _ _ _).trans ((Blk.putRecord_told _ _ _).trans (Blk.modDomain_told _ _ _))
    · exact (Blk.modDomain_told _ _ _).trans (Blk.loseRecord_told _ _ _ _ _)
  · exact (Blk.modDomain_told _ _ _).trans (Blk.loseRecord_told _ _ _ _ _)

/-! ## What they leave alone -/

theorem Sent.clock {b c : Blk} (h : Sent b c) : c.clock = b.clock := by rw [h]
theorem Sent.power {b c : Blk} (h : Sent b c) : c.power = b.power := by rw [h]
theorem Sent.ldr {b c : Blk} (h : Sent b c) : c.ldr = b.ldr := by rw [h]
theorem Sent.image {b c : Blk} (h : Sent b c) : c.image = b.image := by rw [h]
theorem Sent.regs {b c : Blk} (h : Sent b c) : c.regs = b.regs := by rw [h]
theorem Sent.shadow {b c : Blk} (h : Sent b c) : c.shadow = b.shadow := by rw [h]
theorem Sent.mg {b c : Blk} (h : Sent b c) : c.mg = b.mg := by rw [h]
theorem Sent.upd {b c : Blk} (h : Sent b c) : c.upd = b.upd := by rw [h]
theorem Sent.sched {b c : Blk} (h : Sent b c) : c.sched = b.sched := by rw [h]
theorem Sent.mga {b c : Blk} (h : Sent b c) : c.mga = b.mga := by rw [h]
theorem Sent.mgb {b c : Blk} (h : Sent b c) : c.mgb = b.mgb := by rw [h]
theorem Sent.domains {b c : Blk} (h : Sent b c) : c.domains = b.domains := by rw [h]
theorem Sent.queues {b c : Blk} (h : Sent b c) : c.queues = b.queues := by rw [h]
theorem Sent.cells {b c : Blk} (h : Sent b c) : c.cells = b.cells := by rw [h]
theorem Sent.movers {b c : Blk} (h : Sent b c) : c.movers = b.movers := by rw [h]
theorem Sent.movp {b c : Blk} (h : Sent b c) : c.movp = b.movp := by rw [h]
theorem Sent.links {b c : Blk} (h : Sent b c) : c.links = b.links := by rw [h]
theorem Sent.ctoLinks {b c : Blk} (h : Sent b c) : c.ctoLinks = b.ctoLinks := by rw [h]
theorem Sent.halfFailed {b c : Blk} (h : Sent b c) : c.halfFailed = b.halfFailed := by rw [h]
theorem Sent.halfTest {b c : Blk} (h : Sent b c) : c.halfTest = b.halfTest := by rw [h]
theorem Sent.halfIdle {b c : Blk} (h : Sent b c) : c.halfIdle = b.halfIdle := by rw [h]
theorem Sent.halfFails {b c : Blk} (h : Sent b c) : c.halfFails = b.halfFails := by rw [h]
theorem Sent.pus {b c : Blk} (h : Sent b c) : c.pus = b.pus := by rw [h]
theorem Sent.lines {b c : Blk} (h : Sent b c) : c.lines = b.lines := by rw [h]
theorem Sent.vlines {b c : Blk} (h : Sent b c) : c.vlines = b.vlines := by rw [h]
theorem Sent.fifos {b c : Blk} (h : Sent b c) : c.fifos = b.fifos := by rw [h]
theorem Sent.sports {b c : Blk} (h : Sent b c) : c.sports = b.sports := by rw [h]
theorem Sent.pool {b c : Blk} (h : Sent b c) : c.pool = b.pool := by rw [h]
theorem Sent.slots {b c : Blk} (h : Sent b c) : c.slots = b.slots := by rw [h]
theorem Sent.lats {b c : Blk} (h : Sent b c) : c.lats = b.lats := by rw [h]
theorem Sent.pfail {b c : Blk} (h : Sent b c) : c.pfail = b.pfail := by rw [h]
theorem Sent.vec {b c : Blk} (h : Sent b c) : c.vec = b.vec := by rw [h]
theorem Sent.sup {b c : Blk} (h : Sent b c) : c.sup = b.sup := by rw [h]
theorem Sent.banks {b c : Blk} (h : Sent b c) : c.banks = b.banks := by rw [h]
theorem Sent.relayDrops {b c : Blk} (h : Sent b c) : c.relayDrops = b.relayDrops := by rw [h]
theorem Sent.relayWaits {b c : Blk} (h : Sent b c) : c.relayWaits = b.relayWaits := by rw [h]
theorem Sent.rerouted {b c : Blk} (h : Sent b c) : c.rerouted = b.rerouted := by rw [h]
theorem Sent.trace {b c : Blk} (h : Sent b c) : c.trace = b.trace := by rw [h]
theorem Sent.relaySeq {b c : Blk} (h : Sent b c) : c.relaySeq = b.relaySeq := by rw [h]
theorem Sent.freeNo {b c : Blk} (h : Sent b c) : c.freeNo = b.freeNo := by rw [h]
theorem Sent.get_reg {b c : Blk} (h : Sent b c) (z : Nat) : c.reg z = b.reg z := by rw [h]; rfl
theorem Sent.get_on {b c : Blk} (h : Sent b c) (z : Nat) : c.on z = b.on z := by rw [h]; rfl
theorem Sent.get_queue {b c : Blk} (h : Sent b c) (z : QRef) : c.queue z = b.queue z := by rw [h]; rfl
theorem Sent.get_mover {b c : Blk} (h : Sent b c) (z : Nat) : c.mover z = b.mover z := by rw [h]; rfl
theorem Sent.get_domain {b c : Blk} (h : Sent b c) (z : Nat) : c.domain z = b.domain z := by rw [h]; rfl
theorem Sent.get_pu {b c : Blk} (h : Sent b c) (z : Nat) : c.pu z = b.pu z := by rw [h]; rfl
theorem Sent.get_line {b c : Blk} (h : Sent b c) (z : Nat) : c.line z = b.line z := by rw [h]; rfl
theorem Sent.get_fifo {b c : Blk} (h : Sent b c) (z : Nat) : c.fifo z = b.fifo z := by rw [h]; rfl
theorem Sent.get_sport {b c : Blk} (h : Sent b c) (z : Nat) : c.sport z = b.sport z := by rw [h]; rfl
theorem Sent.get_slot {b c : Blk} (h : Sent b c) (z : Nat) : c.slot z = b.slot z := by rw [h]; rfl
theorem Sent.get_lat {b c : Blk} (h : Sent b c) (z : Nat) : c.lat z = b.lat z := by rw [h]; rfl
theorem Sent.get_vline {b c : Blk} (h : Sent b c) (z : Nat) : c.vline z = b.vline z := by rw [h]; rfl
theorem Sent.get_img {b c : Blk} (h : Sent b c)  : c.img  = b.img  := by rw [h]; rfl
theorem Sent.get_inSafe {b c : Blk} (h : Sent b c)  : c.inSafe  = b.inSafe  := by rw [h]; rfl
theorem Sent.get_ready {b c : Blk} (h : Sent b c)  : c.ready  = b.ready  := by rw [h]; rfl
theorem Msg.clock {b c : Blk} (h : Msg b c) : c.clock = b.clock := by rw [h]
theorem Msg.power {b c : Blk} (h : Msg b c) : c.power = b.power := by rw [h]
theorem Msg.ldr {b c : Blk} (h : Msg b c) : c.ldr = b.ldr := by rw [h]
theorem Msg.image {b c : Blk} (h : Msg b c) : c.image = b.image := by rw [h]
theorem Msg.regs {b c : Blk} (h : Msg b c) : c.regs = b.regs := by rw [h]
theorem Msg.shadow {b c : Blk} (h : Msg b c) : c.shadow = b.shadow := by rw [h]
theorem Msg.upd {b c : Blk} (h : Msg b c) : c.upd = b.upd := by rw [h]
theorem Msg.mga {b c : Blk} (h : Msg b c) : c.mga = b.mga := by rw [h]
theorem Msg.mgb {b c : Blk} (h : Msg b c) : c.mgb = b.mgb := by rw [h]
theorem Msg.domains {b c : Blk} (h : Msg b c) : c.domains = b.domains := by rw [h]
theorem Msg.queues {b c : Blk} (h : Msg b c) : c.queues = b.queues := by rw [h]
theorem Msg.cells {b c : Blk} (h : Msg b c) : c.cells = b.cells := by rw [h]
theorem Msg.movers {b c : Blk} (h : Msg b c) : c.movers = b.movers := by rw [h]
theorem Msg.movp {b c : Blk} (h : Msg b c) : c.movp = b.movp := by rw [h]
theorem Msg.links {b c : Blk} (h : Msg b c) : c.links = b.links := by rw [h]
theorem Msg.ctoLinks {b c : Blk} (h : Msg b c) : c.ctoLinks = b.ctoLinks := by rw [h]
theorem Msg.halfFailed {b c : Blk} (h : Msg b c) : c.halfFailed = b.halfFailed := by rw [h]
theorem Msg.halfTest {b c : Blk} (h : Msg b c) : c.halfTest = b.halfTest := by rw [h]
theorem Msg.halfIdle {b c : Blk} (h : Msg b c) : c.halfIdle = b.halfIdle := by rw [h]
theorem Msg.halfFails {b c : Blk} (h : Msg b c) : c.halfFails = b.halfFails := by rw [h]
theorem Msg.pus {b c : Blk} (h : Msg b c) : c.pus = b.pus := by rw [h]
theorem Msg.lines {b c : Blk} (h : Msg b c) : c.lines = b.lines := by rw [h]
theorem Msg.vlines {b c : Blk} (h : Msg b c) : c.vlines = b.vlines := by rw [h]
theorem Msg.fifos {b c : Blk} (h : Msg b c) : c.fifos = b.fifos := by rw [h]
theorem Msg.sports {b c : Blk} (h : Msg b c) : c.sports = b.sports := by rw [h]
theorem Msg.pool {b c : Blk} (h : Msg b c) : c.pool = b.pool := by rw [h]
theorem Msg.slots {b c : Blk} (h : Msg b c) : c.slots = b.slots := by rw [h]
theorem Msg.lats {b c : Blk} (h : Msg b c) : c.lats = b.lats := by rw [h]
theorem Msg.pfail {b c : Blk} (h : Msg b c) : c.pfail = b.pfail := by rw [h]
theorem Msg.sup {b c : Blk} (h : Msg b c) : c.sup = b.sup := by rw [h]
theorem Msg.banks {b c : Blk} (h : Msg b c) : c.banks = b.banks := by rw [h]
theorem Msg.relayDrops {b c : Blk} (h : Msg b c) : c.relayDrops = b.relayDrops := by rw [h]
theorem Msg.relayWaits {b c : Blk} (h : Msg b c) : c.relayWaits = b.relayWaits := by rw [h]
theorem Msg.rerouted {b c : Blk} (h : Msg b c) : c.rerouted = b.rerouted := by rw [h]
theorem Msg.trace {b c : Blk} (h : Msg b c) : c.trace = b.trace := by rw [h]
theorem Msg.relaySeq {b c : Blk} (h : Msg b c) : c.relaySeq = b.relaySeq := by rw [h]
theorem Msg.freeNo {b c : Blk} (h : Msg b c) : c.freeNo = b.freeNo := by rw [h]
theorem Msg.get_reg {b c : Blk} (h : Msg b c) (z : Nat) : c.reg z = b.reg z := by rw [h]; rfl
theorem Msg.get_on {b c : Blk} (h : Msg b c) (z : Nat) : c.on z = b.on z := by rw [h]; rfl
theorem Msg.get_queue {b c : Blk} (h : Msg b c) (z : QRef) : c.queue z = b.queue z := by rw [h]; rfl
theorem Msg.get_mover {b c : Blk} (h : Msg b c) (z : Nat) : c.mover z = b.mover z := by rw [h]; rfl
theorem Msg.get_domain {b c : Blk} (h : Msg b c) (z : Nat) : c.domain z = b.domain z := by rw [h]; rfl
theorem Msg.get_pu {b c : Blk} (h : Msg b c) (z : Nat) : c.pu z = b.pu z := by rw [h]; rfl
theorem Msg.get_line {b c : Blk} (h : Msg b c) (z : Nat) : c.line z = b.line z := by rw [h]; rfl
theorem Msg.get_fifo {b c : Blk} (h : Msg b c) (z : Nat) : c.fifo z = b.fifo z := by rw [h]; rfl
theorem Msg.get_sport {b c : Blk} (h : Msg b c) (z : Nat) : c.sport z = b.sport z := by rw [h]; rfl
theorem Msg.get_slot {b c : Blk} (h : Msg b c) (z : Nat) : c.slot z = b.slot z := by rw [h]; rfl
theorem Msg.get_lat {b c : Blk} (h : Msg b c) (z : Nat) : c.lat z = b.lat z := by rw [h]; rfl
theorem Msg.get_vline {b c : Blk} (h : Msg b c) (z : Nat) : c.vline z = b.vline z := by rw [h]; rfl
theorem Msg.get_img {b c : Blk} (h : Msg b c)  : c.img  = b.img  := by rw [h]; rfl
theorem Msg.get_inSafe {b c : Blk} (h : Msg b c)  : c.inSafe  = b.inSafe  := by rw [h]; rfl
theorem Msg.get_ready {b c : Blk} (h : Msg b c)  : c.ready  = b.ready  := by rw [h]; rfl
theorem Told.clock {b c : Blk} (h : Told b c) : c.clock = b.clock := by rw [h]
theorem Told.power {b c : Blk} (h : Told b c) : c.power = b.power := by rw [h]
theorem Told.ldr {b c : Blk} (h : Told b c) : c.ldr = b.ldr := by rw [h]
theorem Told.image {b c : Blk} (h : Told b c) : c.image = b.image := by rw [h]
theorem Told.regs {b c : Blk} (h : Told b c) : c.regs = b.regs := by rw [h]
theorem Told.shadow {b c : Blk} (h : Told b c) : c.shadow = b.shadow := by rw [h]
theorem Told.upd {b c : Blk} (h : Told b c) : c.upd = b.upd := by rw [h]
theorem Told.mga {b c : Blk} (h : Told b c) : c.mga = b.mga := by rw [h]
theorem Told.mgb {b c : Blk} (h : Told b c) : c.mgb = b.mgb := by rw [h]
theorem Told.queues {b c : Blk} (h : Told b c) : c.queues = b.queues := by rw [h]
theorem Told.cells {b c : Blk} (h : Told b c) : c.cells = b.cells := by rw [h]
theorem Told.movers {b c : Blk} (h : Told b c) : c.movers = b.movers := by rw [h]
theorem Told.movp {b c : Blk} (h : Told b c) : c.movp = b.movp := by rw [h]
theorem Told.links {b c : Blk} (h : Told b c) : c.links = b.links := by rw [h]
theorem Told.ctoLinks {b c : Blk} (h : Told b c) : c.ctoLinks = b.ctoLinks := by rw [h]
theorem Told.halfFailed {b c : Blk} (h : Told b c) : c.halfFailed = b.halfFailed := by rw [h]
theorem Told.halfTest {b c : Blk} (h : Told b c) : c.halfTest = b.halfTest := by rw [h]
theorem Told.halfIdle {b c : Blk} (h : Told b c) : c.halfIdle = b.halfIdle := by rw [h]
theorem Told.halfFails {b c : Blk} (h : Told b c) : c.halfFails = b.halfFails := by rw [h]
theorem Told.pus {b c : Blk} (h : Told b c) : c.pus = b.pus := by rw [h]
theorem Told.lines {b c : Blk} (h : Told b c) : c.lines = b.lines := by rw [h]
theorem Told.vlines {b c : Blk} (h : Told b c) : c.vlines = b.vlines := by rw [h]
theorem Told.fifos {b c : Blk} (h : Told b c) : c.fifos = b.fifos := by rw [h]
theorem Told.sports {b c : Blk} (h : Told b c) : c.sports = b.sports := by rw [h]
theorem Told.pool {b c : Blk} (h : Told b c) : c.pool = b.pool := by rw [h]
theorem Told.slots {b c : Blk} (h : Told b c) : c.slots = b.slots := by rw [h]
theorem Told.lats {b c : Blk} (h : Told b c) : c.lats = b.lats := by rw [h]
theorem Told.pfail {b c : Blk} (h : Told b c) : c.pfail = b.pfail := by rw [h]
theorem Told.sup {b c : Blk} (h : Told b c) : c.sup = b.sup := by rw [h]
theorem Told.banks {b c : Blk} (h : Told b c) : c.banks = b.banks := by rw [h]
theorem Told.relayDrops {b c : Blk} (h : Told b c) : c.relayDrops = b.relayDrops := by rw [h]
theorem Told.relayWaits {b c : Blk} (h : Told b c) : c.relayWaits = b.relayWaits := by rw [h]
theorem Told.rerouted {b c : Blk} (h : Told b c) : c.rerouted = b.rerouted := by rw [h]
theorem Told.trace {b c : Blk} (h : Told b c) : c.trace = b.trace := by rw [h]
theorem Told.relaySeq {b c : Blk} (h : Told b c) : c.relaySeq = b.relaySeq := by rw [h]
theorem Told.freeNo {b c : Blk} (h : Told b c) : c.freeNo = b.freeNo := by rw [h]
theorem Told.get_reg {b c : Blk} (h : Told b c) (z : Nat) : c.reg z = b.reg z := by rw [h]; rfl
theorem Told.get_on {b c : Blk} (h : Told b c) (z : Nat) : c.on z = b.on z := by rw [h]; rfl
theorem Told.get_queue {b c : Blk} (h : Told b c) (z : QRef) : c.queue z = b.queue z := by rw [h]; rfl
theorem Told.get_mover {b c : Blk} (h : Told b c) (z : Nat) : c.mover z = b.mover z := by rw [h]; rfl
theorem Told.get_pu {b c : Blk} (h : Told b c) (z : Nat) : c.pu z = b.pu z := by rw [h]; rfl
theorem Told.get_line {b c : Blk} (h : Told b c) (z : Nat) : c.line z = b.line z := by rw [h]; rfl
theorem Told.get_fifo {b c : Blk} (h : Told b c) (z : Nat) : c.fifo z = b.fifo z := by rw [h]; rfl
theorem Told.get_sport {b c : Blk} (h : Told b c) (z : Nat) : c.sport z = b.sport z := by rw [h]; rfl
theorem Told.get_slot {b c : Blk} (h : Told b c) (z : Nat) : c.slot z = b.slot z := by rw [h]; rfl
theorem Told.get_lat {b c : Blk} (h : Told b c) (z : Nat) : c.lat z = b.lat z := by rw [h]; rfl
theorem Told.get_vline {b c : Blk} (h : Told b c) (z : Nat) : c.vline z = b.vline z := by rw [h]; rfl
theorem Told.get_img {b c : Blk} (h : Told b c)  : c.img  = b.img  := by rw [h]; rfl
theorem Told.get_inSafe {b c : Blk} (h : Told b c)  : c.inSafe  = b.inSafe  := by rw [h]; rfl
theorem Told.get_ready {b c : Blk} (h : Told b c)  : c.ready  = b.ready  := by rw [h]; rfl

@[simp] theorem Blk.raise_clock (b : Blk) (g e : Nat) : (b.raise g e).clock = b.clock := (Blk.raise_msg b g e).clock
@[simp] theorem Blk.raise_power (b : Blk) (g e : Nat) : (b.raise g e).power = b.power := (Blk.raise_msg b g e).power
@[simp] theorem Blk.raise_ldr (b : Blk) (g e : Nat) : (b.raise g e).ldr = b.ldr := (Blk.raise_msg b g e).ldr
@[simp] theorem Blk.raise_image (b : Blk) (g e : Nat) : (b.raise g e).image = b.image := (Blk.raise_msg b g e).image
@[simp] theorem Blk.raise_regs (b : Blk) (g e : Nat) : (b.raise g e).regs = b.regs := (Blk.raise_msg b g e).regs
@[simp] theorem Blk.raise_shadow (b : Blk) (g e : Nat) : (b.raise g e).shadow = b.shadow := (Blk.raise_msg b g e).shadow
@[simp] theorem Blk.raise_upd (b : Blk) (g e : Nat) : (b.raise g e).upd = b.upd := (Blk.raise_msg b g e).upd
@[simp] theorem Blk.raise_mga (b : Blk) (g e : Nat) : (b.raise g e).mga = b.mga := (Blk.raise_msg b g e).mga
@[simp] theorem Blk.raise_mgb (b : Blk) (g e : Nat) : (b.raise g e).mgb = b.mgb := (Blk.raise_msg b g e).mgb
@[simp] theorem Blk.raise_domains (b : Blk) (g e : Nat) : (b.raise g e).domains = b.domains := (Blk.raise_msg b g e).domains
@[simp] theorem Blk.raise_queues (b : Blk) (g e : Nat) : (b.raise g e).queues = b.queues := (Blk.raise_msg b g e).queues
@[simp] theorem Blk.raise_cells (b : Blk) (g e : Nat) : (b.raise g e).cells = b.cells := (Blk.raise_msg b g e).cells
@[simp] theorem Blk.raise_movers (b : Blk) (g e : Nat) : (b.raise g e).movers = b.movers := (Blk.raise_msg b g e).movers
@[simp] theorem Blk.raise_movp (b : Blk) (g e : Nat) : (b.raise g e).movp = b.movp := (Blk.raise_msg b g e).movp
@[simp] theorem Blk.raise_links (b : Blk) (g e : Nat) : (b.raise g e).links = b.links := (Blk.raise_msg b g e).links
@[simp] theorem Blk.raise_ctoLinks (b : Blk) (g e : Nat) : (b.raise g e).ctoLinks = b.ctoLinks := (Blk.raise_msg b g e).ctoLinks
@[simp] theorem Blk.raise_halfFailed (b : Blk) (g e : Nat) : (b.raise g e).halfFailed = b.halfFailed := (Blk.raise_msg b g e).halfFailed
@[simp] theorem Blk.raise_halfTest (b : Blk) (g e : Nat) : (b.raise g e).halfTest = b.halfTest := (Blk.raise_msg b g e).halfTest
@[simp] theorem Blk.raise_halfIdle (b : Blk) (g e : Nat) : (b.raise g e).halfIdle = b.halfIdle := (Blk.raise_msg b g e).halfIdle
@[simp] theorem Blk.raise_halfFails (b : Blk) (g e : Nat) : (b.raise g e).halfFails = b.halfFails := (Blk.raise_msg b g e).halfFails
@[simp] theorem Blk.raise_pus (b : Blk) (g e : Nat) : (b.raise g e).pus = b.pus := (Blk.raise_msg b g e).pus
@[simp] theorem Blk.raise_lines (b : Blk) (g e : Nat) : (b.raise g e).lines = b.lines := (Blk.raise_msg b g e).lines
@[simp] theorem Blk.raise_vlines (b : Blk) (g e : Nat) : (b.raise g e).vlines = b.vlines := (Blk.raise_msg b g e).vlines
@[simp] theorem Blk.raise_fifos (b : Blk) (g e : Nat) : (b.raise g e).fifos = b.fifos := (Blk.raise_msg b g e).fifos
@[simp] theorem Blk.raise_sports (b : Blk) (g e : Nat) : (b.raise g e).sports = b.sports := (Blk.raise_msg b g e).sports
@[simp] theorem Blk.raise_pool (b : Blk) (g e : Nat) : (b.raise g e).pool = b.pool := (Blk.raise_msg b g e).pool
@[simp] theorem Blk.raise_slots (b : Blk) (g e : Nat) : (b.raise g e).slots = b.slots := (Blk.raise_msg b g e).slots
@[simp] theorem Blk.raise_lats (b : Blk) (g e : Nat) : (b.raise g e).lats = b.lats := (Blk.raise_msg b g e).lats
@[simp] theorem Blk.raise_pfail (b : Blk) (g e : Nat) : (b.raise g e).pfail = b.pfail := (Blk.raise_msg b g e).pfail
@[simp] theorem Blk.raise_sup (b : Blk) (g e : Nat) : (b.raise g e).sup = b.sup := (Blk.raise_msg b g e).sup
@[simp] theorem Blk.raise_banks (b : Blk) (g e : Nat) : (b.raise g e).banks = b.banks := (Blk.raise_msg b g e).banks
@[simp] theorem Blk.raise_relayDrops (b : Blk) (g e : Nat) : (b.raise g e).relayDrops = b.relayDrops := (Blk.raise_msg b g e).relayDrops
@[simp] theorem Blk.raise_relayWaits (b : Blk) (g e : Nat) : (b.raise g e).relayWaits = b.relayWaits := (Blk.raise_msg b g e).relayWaits
@[simp] theorem Blk.raise_rerouted (b : Blk) (g e : Nat) : (b.raise g e).rerouted = b.rerouted := (Blk.raise_msg b g e).rerouted
@[simp] theorem Blk.raise_trace (b : Blk) (g e : Nat) : (b.raise g e).trace = b.trace := (Blk.raise_msg b g e).trace
@[simp] theorem Blk.raise_relaySeq (b : Blk) (g e : Nat) : (b.raise g e).relaySeq = b.relaySeq := (Blk.raise_msg b g e).relaySeq
@[simp] theorem Blk.raise_freeNo (b : Blk) (g e : Nat) : (b.raise g e).freeNo = b.freeNo := (Blk.raise_msg b g e).freeNo
@[simp] theorem Blk.raise_get_reg (b : Blk) (g e : Nat) (z : Nat) : (b.raise g e).reg z = b.reg z := (Blk.raise_msg b g e).get_reg z
@[simp] theorem Blk.raise_get_on (b : Blk) (g e : Nat) (z : Nat) : (b.raise g e).on z = b.on z := (Blk.raise_msg b g e).get_on z
@[simp] theorem Blk.raise_get_queue (b : Blk) (g e : Nat) (z : QRef) : (b.raise g e).queue z = b.queue z := (Blk.raise_msg b g e).get_queue z
@[simp] theorem Blk.raise_get_mover (b : Blk) (g e : Nat) (z : Nat) : (b.raise g e).mover z = b.mover z := (Blk.raise_msg b g e).get_mover z
@[simp] theorem Blk.raise_get_domain (b : Blk) (g e : Nat) (z : Nat) : (b.raise g e).domain z = b.domain z := (Blk.raise_msg b g e).get_domain z
@[simp] theorem Blk.raise_get_pu (b : Blk) (g e : Nat) (z : Nat) : (b.raise g e).pu z = b.pu z := (Blk.raise_msg b g e).get_pu z
@[simp] theorem Blk.raise_get_line (b : Blk) (g e : Nat) (z : Nat) : (b.raise g e).line z = b.line z := (Blk.raise_msg b g e).get_line z
@[simp] theorem Blk.raise_get_fifo (b : Blk) (g e : Nat) (z : Nat) : (b.raise g e).fifo z = b.fifo z := (Blk.raise_msg b g e).get_fifo z
@[simp] theorem Blk.raise_get_sport (b : Blk) (g e : Nat) (z : Nat) : (b.raise g e).sport z = b.sport z := (Blk.raise_msg b g e).get_sport z
@[simp] theorem Blk.raise_get_slot (b : Blk) (g e : Nat) (z : Nat) : (b.raise g e).slot z = b.slot z := (Blk.raise_msg b g e).get_slot z
@[simp] theorem Blk.raise_get_lat (b : Blk) (g e : Nat) (z : Nat) : (b.raise g e).lat z = b.lat z := (Blk.raise_msg b g e).get_lat z
@[simp] theorem Blk.raise_get_vline (b : Blk) (g e : Nat) (z : Nat) : (b.raise g e).vline z = b.vline z := (Blk.raise_msg b g e).get_vline z
@[simp] theorem Blk.raise_get_img (b : Blk) (g e : Nat)  : (b.raise g e).img  = b.img  := (Blk.raise_msg b g e).get_img 
@[simp] theorem Blk.raise_get_inSafe (b : Blk) (g e : Nat)  : (b.raise g e).inSafe  = b.inSafe  := (Blk.raise_msg b g e).get_inSafe 
@[simp] theorem Blk.raise_get_ready (b : Blk) (g e : Nat)  : (b.raise g e).ready  = b.ready  := (Blk.raise_msg b g e).get_ready 
@[simp] theorem Blk.raiseAt_clock (b : Blk) (g e : Nat) : (b.raiseAt g e).clock = b.clock := (Blk.raiseAt_msg b g e).clock
@[simp] theorem Blk.raiseAt_power (b : Blk) (g e : Nat) : (b.raiseAt g e).power = b.power := (Blk.raiseAt_msg b g e).power
@[simp] theorem Blk.raiseAt_ldr (b : Blk) (g e : Nat) : (b.raiseAt g e).ldr = b.ldr := (Blk.raiseAt_msg b g e).ldr
@[simp] theorem Blk.raiseAt_image (b : Blk) (g e : Nat) : (b.raiseAt g e).image = b.image := (Blk.raiseAt_msg b g e).image
@[simp] theorem Blk.raiseAt_regs (b : Blk) (g e : Nat) : (b.raiseAt g e).regs = b.regs := (Blk.raiseAt_msg b g e).regs
@[simp] theorem Blk.raiseAt_shadow (b : Blk) (g e : Nat) : (b.raiseAt g e).shadow = b.shadow := (Blk.raiseAt_msg b g e).shadow
@[simp] theorem Blk.raiseAt_upd (b : Blk) (g e : Nat) : (b.raiseAt g e).upd = b.upd := (Blk.raiseAt_msg b g e).upd
@[simp] theorem Blk.raiseAt_mga (b : Blk) (g e : Nat) : (b.raiseAt g e).mga = b.mga := (Blk.raiseAt_msg b g e).mga
@[simp] theorem Blk.raiseAt_mgb (b : Blk) (g e : Nat) : (b.raiseAt g e).mgb = b.mgb := (Blk.raiseAt_msg b g e).mgb
@[simp] theorem Blk.raiseAt_domains (b : Blk) (g e : Nat) : (b.raiseAt g e).domains = b.domains := (Blk.raiseAt_msg b g e).domains
@[simp] theorem Blk.raiseAt_queues (b : Blk) (g e : Nat) : (b.raiseAt g e).queues = b.queues := (Blk.raiseAt_msg b g e).queues
@[simp] theorem Blk.raiseAt_cells (b : Blk) (g e : Nat) : (b.raiseAt g e).cells = b.cells := (Blk.raiseAt_msg b g e).cells
@[simp] theorem Blk.raiseAt_movers (b : Blk) (g e : Nat) : (b.raiseAt g e).movers = b.movers := (Blk.raiseAt_msg b g e).movers
@[simp] theorem Blk.raiseAt_movp (b : Blk) (g e : Nat) : (b.raiseAt g e).movp = b.movp := (Blk.raiseAt_msg b g e).movp
@[simp] theorem Blk.raiseAt_links (b : Blk) (g e : Nat) : (b.raiseAt g e).links = b.links := (Blk.raiseAt_msg b g e).links
@[simp] theorem Blk.raiseAt_ctoLinks (b : Blk) (g e : Nat) : (b.raiseAt g e).ctoLinks = b.ctoLinks := (Blk.raiseAt_msg b g e).ctoLinks
@[simp] theorem Blk.raiseAt_halfFailed (b : Blk) (g e : Nat) : (b.raiseAt g e).halfFailed = b.halfFailed := (Blk.raiseAt_msg b g e).halfFailed
@[simp] theorem Blk.raiseAt_halfTest (b : Blk) (g e : Nat) : (b.raiseAt g e).halfTest = b.halfTest := (Blk.raiseAt_msg b g e).halfTest
@[simp] theorem Blk.raiseAt_halfIdle (b : Blk) (g e : Nat) : (b.raiseAt g e).halfIdle = b.halfIdle := (Blk.raiseAt_msg b g e).halfIdle
@[simp] theorem Blk.raiseAt_halfFails (b : Blk) (g e : Nat) : (b.raiseAt g e).halfFails = b.halfFails := (Blk.raiseAt_msg b g e).halfFails
@[simp] theorem Blk.raiseAt_pus (b : Blk) (g e : Nat) : (b.raiseAt g e).pus = b.pus := (Blk.raiseAt_msg b g e).pus
@[simp] theorem Blk.raiseAt_lines (b : Blk) (g e : Nat) : (b.raiseAt g e).lines = b.lines := (Blk.raiseAt_msg b g e).lines
@[simp] theorem Blk.raiseAt_vlines (b : Blk) (g e : Nat) : (b.raiseAt g e).vlines = b.vlines := (Blk.raiseAt_msg b g e).vlines
@[simp] theorem Blk.raiseAt_fifos (b : Blk) (g e : Nat) : (b.raiseAt g e).fifos = b.fifos := (Blk.raiseAt_msg b g e).fifos
@[simp] theorem Blk.raiseAt_sports (b : Blk) (g e : Nat) : (b.raiseAt g e).sports = b.sports := (Blk.raiseAt_msg b g e).sports
@[simp] theorem Blk.raiseAt_pool (b : Blk) (g e : Nat) : (b.raiseAt g e).pool = b.pool := (Blk.raiseAt_msg b g e).pool
@[simp] theorem Blk.raiseAt_slots (b : Blk) (g e : Nat) : (b.raiseAt g e).slots = b.slots := (Blk.raiseAt_msg b g e).slots
@[simp] theorem Blk.raiseAt_lats (b : Blk) (g e : Nat) : (b.raiseAt g e).lats = b.lats := (Blk.raiseAt_msg b g e).lats
@[simp] theorem Blk.raiseAt_pfail (b : Blk) (g e : Nat) : (b.raiseAt g e).pfail = b.pfail := (Blk.raiseAt_msg b g e).pfail
@[simp] theorem Blk.raiseAt_sup (b : Blk) (g e : Nat) : (b.raiseAt g e).sup = b.sup := (Blk.raiseAt_msg b g e).sup
@[simp] theorem Blk.raiseAt_banks (b : Blk) (g e : Nat) : (b.raiseAt g e).banks = b.banks := (Blk.raiseAt_msg b g e).banks
@[simp] theorem Blk.raiseAt_relayDrops (b : Blk) (g e : Nat) : (b.raiseAt g e).relayDrops = b.relayDrops := (Blk.raiseAt_msg b g e).relayDrops
@[simp] theorem Blk.raiseAt_relayWaits (b : Blk) (g e : Nat) : (b.raiseAt g e).relayWaits = b.relayWaits := (Blk.raiseAt_msg b g e).relayWaits
@[simp] theorem Blk.raiseAt_rerouted (b : Blk) (g e : Nat) : (b.raiseAt g e).rerouted = b.rerouted := (Blk.raiseAt_msg b g e).rerouted
@[simp] theorem Blk.raiseAt_trace (b : Blk) (g e : Nat) : (b.raiseAt g e).trace = b.trace := (Blk.raiseAt_msg b g e).trace
@[simp] theorem Blk.raiseAt_relaySeq (b : Blk) (g e : Nat) : (b.raiseAt g e).relaySeq = b.relaySeq := (Blk.raiseAt_msg b g e).relaySeq
@[simp] theorem Blk.raiseAt_freeNo (b : Blk) (g e : Nat) : (b.raiseAt g e).freeNo = b.freeNo := (Blk.raiseAt_msg b g e).freeNo
@[simp] theorem Blk.raiseAt_get_reg (b : Blk) (g e : Nat) (z : Nat) : (b.raiseAt g e).reg z = b.reg z := (Blk.raiseAt_msg b g e).get_reg z
@[simp] theorem Blk.raiseAt_get_on (b : Blk) (g e : Nat) (z : Nat) : (b.raiseAt g e).on z = b.on z := (Blk.raiseAt_msg b g e).get_on z
@[simp] theorem Blk.raiseAt_get_queue (b : Blk) (g e : Nat) (z : QRef) : (b.raiseAt g e).queue z = b.queue z := (Blk.raiseAt_msg b g e).get_queue z
@[simp] theorem Blk.raiseAt_get_mover (b : Blk) (g e : Nat) (z : Nat) : (b.raiseAt g e).mover z = b.mover z := (Blk.raiseAt_msg b g e).get_mover z
@[simp] theorem Blk.raiseAt_get_domain (b : Blk) (g e : Nat) (z : Nat) : (b.raiseAt g e).domain z = b.domain z := (Blk.raiseAt_msg b g e).get_domain z
@[simp] theorem Blk.raiseAt_get_pu (b : Blk) (g e : Nat) (z : Nat) : (b.raiseAt g e).pu z = b.pu z := (Blk.raiseAt_msg b g e).get_pu z
@[simp] theorem Blk.raiseAt_get_line (b : Blk) (g e : Nat) (z : Nat) : (b.raiseAt g e).line z = b.line z := (Blk.raiseAt_msg b g e).get_line z
@[simp] theorem Blk.raiseAt_get_fifo (b : Blk) (g e : Nat) (z : Nat) : (b.raiseAt g e).fifo z = b.fifo z := (Blk.raiseAt_msg b g e).get_fifo z
@[simp] theorem Blk.raiseAt_get_sport (b : Blk) (g e : Nat) (z : Nat) : (b.raiseAt g e).sport z = b.sport z := (Blk.raiseAt_msg b g e).get_sport z
@[simp] theorem Blk.raiseAt_get_slot (b : Blk) (g e : Nat) (z : Nat) : (b.raiseAt g e).slot z = b.slot z := (Blk.raiseAt_msg b g e).get_slot z
@[simp] theorem Blk.raiseAt_get_lat (b : Blk) (g e : Nat) (z : Nat) : (b.raiseAt g e).lat z = b.lat z := (Blk.raiseAt_msg b g e).get_lat z
@[simp] theorem Blk.raiseAt_get_vline (b : Blk) (g e : Nat) (z : Nat) : (b.raiseAt g e).vline z = b.vline z := (Blk.raiseAt_msg b g e).get_vline z
@[simp] theorem Blk.raiseAt_get_img (b : Blk) (g e : Nat)  : (b.raiseAt g e).img  = b.img  := (Blk.raiseAt_msg b g e).get_img 
@[simp] theorem Blk.raiseAt_get_inSafe (b : Blk) (g e : Nat)  : (b.raiseAt g e).inSafe  = b.inSafe  := (Blk.raiseAt_msg b g e).get_inSafe 
@[simp] theorem Blk.raiseAt_get_ready (b : Blk) (g e : Nat)  : (b.raiseAt g e).ready  = b.ready  := (Blk.raiseAt_msg b g e).get_ready 

end Sys2Proof.Machine
end

