-- ==== Sys2Proof/Laws/Run.lean ====
section
/-! SUPPORT. The running of a command: what `run` answers, and that nothing follows a command outside RELOAD. -/

namespace Sys2Proof.Machine
open Sys2Proof

/-- Outside RELOAD nothing follows a command. -/
theorem Blk.after_eq (b c : Blk) (h : b.ldr.state ≠ .reload) : b.after c = c := by
  unfold Blk.after
  simp [h]

/-- In a test mode every meaning but that of power-on reset stops (R335). -/
theorem run_stop (i : Instr) (f : Blk → Blk) (s : State) (ht : s.testMode ≠ 0) : run i f s = .fault .testMode := by
  unfold run
  simp [ht]

/-- A well-formed command outside the test modes runs its meaning. -/
theorem run_next (i : Instr) (f : Blk → Blk) (s : State) (ht : s.testMode = 0) (hw : i.wf = true) :
    run i f s = .next (s.withCore (f s.core)) := by
  unfold run
  simp [ht, hw]

theorem runRow_after (i : Instr) (f : Blk → Blk) (s : State) (ht : s.testMode = 0) (hw : i.wf = true) :
    runRow i f s = .next (s.withCore (s.core.after (f s.core))) := run_next i _ s ht hw

theorem runAccess_after (i : Instr) (x : Blk → Access) (s : State) (ht : s.testMode = 0) (hw : i.wf = true) :
    runAccess i x s = .next (s.withCore (s.core.after (s.core.access s.slow (x s.core)))) := run_next i _ s ht hw

/-- Outside RELOAD a command answers exactly its meaning. -/
theorem runRow_next (i : Instr) (f : Blk → Blk) (s : State) (ht : s.testMode = 0) (hw : i.wf = true)
    (hr : s.core.ldr.state ≠ .reload) : runRow i f s = .next (s.withCore (f s.core)) := by
  rw [runRow_after i f s ht hw, Blk.after_eq _ _ hr]

theorem runAccess_next (i : Instr) (x : Blk → Access) (s : State) (ht : s.testMode = 0) (hw : i.wf = true)
    (hr : s.core.ldr.state ≠ .reload) :
    runAccess i x s = .next (s.withCore (s.core.access s.slow (x s.core))) := by
  rw [runAccess_after i x s ht hw, Blk.after_eq _ _ hr]

theorem runRow_does (i : Instr) (f : Blk → Blk) (s : State) (b : Blk) (ht : s.testMode = 0) (hw : i.wf = true)
    (hf : f s.core = b) (hr : s.core.ldr.state ≠ .reload) : runRow i f s = .next (s.withCore b) := by
  rw [runRow_next i f s ht hw hr, hf]

/-- A command that ends with an event. -/
theorem runRow_raise (i : Instr) (f : Blk → Blk) (s : State) (b : Blk) (g e : Nat) (ht : s.testMode = 0)
    (hw : i.wf = true) (hf : f s.core = b.raise g e) (hr : s.core.ldr.state ≠ .reload) :
    runRow i f s = .next (s.withCore (b.raise g e)) ∧ Msg b (b.raise g e) ∧ (b.raise g e).pends g e = true :=
  ⟨by rw [runRow_next i f s ht hw hr, hf], Blk.raise_msg _ _ _, Blk.raise_pends _ _ _⟩

/-- An access that no rival meets is the access alone. -/
theorem runContest_none (i : Instr) (x : Access) (s : State) : runContest i x none s = runAccess i (fun _ => x) s := rfl

/-- A command that is an access. -/
theorem runAccess_does (i : Instr) (x : Blk → Access) (s : State) (b : Blk) (ht : s.testMode = 0) (hw : i.wf = true)
    (hx : s.core.access s.slow (x s.core) = b) (hr : s.core.ldr.state ≠ .reload) :
    runAccess i x s = .next (s.withCore b) := by
  rw [runAccess_next i x s ht hw hr, hx]

end Sys2Proof.Machine
end

