-- ==== Sys2Proof/Laws/Access.lean ====
section
/-! SUPPORT. What a register access does: the 4 B write and the 4 B read that are not refused, refusals, the access log, and
the bits that a write leaves in a register. -/

namespace Sys2Proof.Machine
open Sys2Proof

/-! ## Bits -/

theorem testBit_bits (w hi lo i : Nat) : (bits w hi lo).testBit i = (decide (i < hi - lo + 1) && w.testBit (lo + i)) := by
  unfold bits
  rw [Nat.testBit_mod_two_pow, Nat.testBit_div_two_pow, Nat.add_comm i lo]

theorem testBit_mergeBits (old w m i : Nat) (hm : m < 2 ^ 32) :
    (mergeBits old w m).testBit i = if m.testBit i then w.testBit i else (old.testBit i && decide (i < 32)) := by
  have ha : ∀ j, allBits.testBit j = decide (j < 32) := by
    intro j
    have : allBits = 2 ^ 32 - 1 := rfl
    rw [this, Nat.testBit_two_pow_sub_one]
  unfold mergeBits
  show (((old &&& (allBits ^^^ (m &&& allBits))) ||| (w &&& m))).testBit i = _
  simp only [Nat.testBit_or, Nat.testBit_and, Nat.testBit_xor, ha]
  by_cases h : m.testBit i
  · have hi : i < 32 := by
      refine Nat.lt_of_not_le fun hn => ?_
      have := Nat.testBit_lt_two_pow (Nat.lt_of_lt_of_le hm (Nat.pow_le_pow_right (by omega : 0 < 2) hn))
      rw [this] at h; cases h
    simp [h, hi]
  · simp [h]

/-- Bits that the mask takes in read what was written. -/
theorem bits_mergeBits (old w m hi lo : Nat) (hm : m < 2 ^ 32) (hc : ∀ i, i < hi - lo + 1 → m.testBit (lo + i) = true) :
    bits (mergeBits old w m) hi lo = bits w hi lo := by
  apply Nat.eq_of_testBit_eq
  intro i
  rw [testBit_bits, testBit_bits]
  by_cases h : i < hi - lo + 1
  · rw [testBit_mergeBits _ _ _ _ hm, if_pos (hc i h)]
  · simp [h]

/-- Bits that the mask leaves out read what was stored. -/
theorem bits_mergeBits_old (old w m hi lo : Nat) (hm : m < 2 ^ 32)
    (hc : ∀ i, i < hi - lo + 1 → m.testBit (lo + i) = false ∧ lo + i < 32) :
    bits (mergeBits old w m) hi lo = bits old hi lo := by
  apply Nat.eq_of_testBit_eq
  intro i
  rw [testBit_bits, testBit_bits]
  by_cases h : i < hi - lo + 1
  · rw [testBit_mergeBits _ _ _ _ hm]
    have := hc i h
    simp [this.1, this.2]
  · simp [h]

theorem bit_mergeBits (old w m i : Nat) (hm : m < 2 ^ 32) (hc : m.testBit i = true) : bit (mergeBits old w m) i = bit w i := by
  rw [bit_eq_testBit, bit_eq_testBit, testBit_mergeBits _ _ _ _ hm, if_pos hc]

theorem bits_of_lt (w hi : Nat) (h : w < 2 ^ (hi + 1)) : bits w hi 0 = w := by
  unfold bits
  simp [Nat.mod_eq_of_lt h]

/-! ## The access log -/

theorem Blk.logRec_msg (b : Blk) (kind port size : Nat) (write : Bool) (sub addr : Nat) :
    Msg b (b.logRec kind port size write sub addr) := by
  unfold Blk.logRec
  exact Msg.trans (b := { b with mg := _ }) rfl (Blk.raise_msg _ _ _)

theorem Blk.logRec_pends (b : Blk) (kind port size : Nat) (write : Bool) (sub addr : Nat) :
    (b.logRec kind port size write sub addr).pends 0 0 = true := Blk.raise_pends _ _ _

@[simp] theorem Blk.logRec_sems (b : Blk) (kind port size : Nat) (write : Bool) (sub addr : Nat) :
    (b.logRec kind port size write sub addr).mg.sems = b.mg.sems := by
  unfold Blk.logRec
  rw [Blk.raise_sems]

/-- An access-log record changes of a port's side the event counts alone. -/
theorem Blk.logRec_side (b : Blk) (kind port size : Nat) (write : Bool) (sub addr : Nat) (q : MPort) :
    (b.logRec kind port size write sub addr).side q =
      { b.side q with evtCount := ((b.logRec kind port size write sub addr).side q).evtCount } := by
  unfold Blk.logRec
  rw [Blk.raise_side]
  cases q <;> rfl

/-- The record goes to the place the pointer names, and the pointer moves on (R53). -/
theorem Blk.logRec_at (b : Blk) (kind port size : Nat) (write : Bool) (sub addr : Nat) :
    tabGet alog0 (b.logRec kind port size write sub addr).mg.alog (b.mg.alogPtr % 16)
        = ⟨addr % 2 ^ 20, kind, port, size, write, sub, b.clock.slowEpoch % 65536⟩
      ∧ (b.logRec kind port size write sub addr).mg.alogPtr = incr 32 b.mg.alogPtr := by
  unfold Blk.logRec
  simp only []
  rw [Blk.raise_alog, Blk.raise_alogPtr]
  exact ⟨tabGet_tabSet_same _ _ _ _, rfl⟩

/-! ## 4 B accesses -/

/-- What a 4 B write of `w` leaves for the register to act on: RW fields and those of the other types read `w`, the rest what
was stored. -/
def Fields.word (f : Fields) (old w : Nat) : Nat :=
  mergeBits (mergeBits old w (Nat.land f.rw (laneMask 15))) w
    (Nat.land (Nat.lor f.imm (Nat.lor f.key f.sqc)) (laneMask 15))

/-- The 4 B register addresses of the plain view. -/
structure Plain (a : Nat) (f : Fields) : Prop where
  four : a % 4 = 0
  top : a < 2 ^ 20
  view : decodeAddr a = (a, 0)
  page : pageCode (a / 0x1000) ≠ 0xE
  fields : regFields a = some f

/-- A 4 B address, the plain-view address it reaches, the view it lies in, and the register there; no access to it is refused
as an alias. -/
structure Seen (a0 a view : Nat) (f : Fields) : Prop where
  four : a0 % 4 = 0
  top : a0 < 2 ^ 20
  view : decodeAddr a0 = (a, view)
  page : pageCode (a0 / 0x1000) ≠ 0xE
  fields : regFields a = some f
  free : aliasBad a0 = false

theorem Plain.seen {a : Nat} {f : Fields} (h : Plain a f) : Seen a a 0 f :=
  ⟨h.four, h.top, h.view, h.page, h.fields, by unfold aliasBad; simp [h.view]⟩

theorem write4_halves (p : MPort) (a v : Nat) (h4 : a % 4 = 0) (ht : a < 2 ^ 20) : (write4 p a v).halves = [(a, 15)] := by
  unfold Access.halves write4
  simp only []
  by_cases h : a % 8 = 0
  · have : a / 8 * 8 % 1048576 = a := by omega
    simp [h, this, List.filter]
  · have : a / 8 * 8 % 2 ^ 20 + 4 = a := by omega
    simp only [h, if_false, this]
    rfl

theorem read4_halves (p : MPort) (a : Nat) (h4 : a % 4 = 0) (ht : a < 2 ^ 20) : (read4 p a).halves = [(a, 15)] := by
  unfold Access.halves read4
  simp only []
  by_cases h : a % 8 = 0
  · have : a / 8 * 8 % 1048576 = a := by omega
    simp [h, this, List.filter]
  · have : a / 8 * 8 % 2 ^ 20 + 4 = a := by omega
    simp only [h, if_false, this]
    rfl

theorem write4_size (p : MPort) (a v : Nat) : (write4 p a v).size = 4 ∧ (write4 p a v).aligned = true := by
  unfold write4 Access.size Access.lanes Access.aligned
  by_cases h : a % 8 = 0 <;> simp [h] <;> decide

theorem read4_size (p : MPort) (a : Nat) : (read4 p a).size = 4 ∧ (read4 p a).aligned = true := by
  unfold read4 Access.size Access.lanes Access.aligned
  by_cases h : a % 8 = 0 <;> simp [h] <;> decide

/-- A 4 B access of a register is not refused when its domain is on and SAFE does not forbid it. -/
theorem accErr_seen (b : Blk) (x : Access) (a0 a view : Nat) (f : Fields) (hp : Seen a0 a view f) (hx : x.addr = a0)
    (hh : x.halves = [(a0, 15)]) (hs : x.size = 4) (hal : x.aligned = true) (hon : b.on (regPd a) = true)
    (hsafe : b.inSafe = false ∨ guarded (a0 / 0x1000) = true) : b.accErr x = none := by
  have hpg : x.addr % 2 ^ 20 / 0x1000 = a0 / 0x1000 := by
    rw [hx, Nat.mod_eq_of_lt hp.top]
  unfold Blk.accErr
  simp only [hpg, hh, hs, hal]
  have hsf : (b.inSafe && !guarded (a0 / 0x1000)) = false := by
    rcases hsafe with h | h <;> simp [h]
  simp [hp.page, hsf, hp.view, hon, hp.free]

theorem accErr_none (b : Blk) (x : Access) (a : Nat) (f : Fields) (hp : Plain a f) (hx : x.addr = a)
    (hh : x.halves = [(a, 15)]) (hs : x.size = 4) (hal : x.aligned = true) (hon : b.on (regPd a) = true)
    (hsafe : b.inSafe = false ∨ guarded (a / 0x1000) = true) : b.accErr x = none :=
  accErr_seen b x a a 0 f hp.seen hx hh hs hal hon hsafe

theorem Blk.makeRoom_room (b : Blk) (p : MPort) (h : (b.side p).outstanding.length < 4) : b.makeRoom p = b := by
  unfold Blk.makeRoom
  have : ¬ 4 ≤ (b.side p).outstanding.length := by omega
  simp [this]

@[simp] theorem Blk.selected_side (b : Blk) (p : MPort) : (b.selected p).side p = { b.side p with remain := 0 } := by
  unfold Blk.selected; simp

theorem Blk.selected_msg (b : Blk) (p : MPort) : Msg b (b.selected p) := by
  cases p <;> rfl

theorem Blk.answered_msg (b : Blk) (p : MPort) (v : BitVec 64) : Msg b (b.answered p v) := by
  cases p <;> rfl

theorem Blk.answer_eq (b : Blk) (x : Access) (v : Nat) (h : x.tunnel = none) :
    b.answer x v false = b.answered x.port (BitVec.ofNat 64 v) := by
  unfold Blk.answer Blk.answered; rw [h]

theorem Blk.selected_semDenied (b : Blk) (p q : MPort) (page : Nat) : (b.selected p).semDenied q page = b.semDenied q page := by
  cases p <;> rfl

/-- A 4 B write that is not refused: the port's unlock is used up, the register's effect takes place, the access-log record it
calls for is written, and the port has its answer (R373). -/
theorem Blk.access_seen (b sl : Blk) (p : MPort) (a a' view v : Nat) (f : Fields) (x : Access)
    (hx : x = { write4 p a v with flash := x.flash }) (hp : Seen a a' view f)
    (room : (b.side p).outstanding.length < 4) (sem : b.semDenied p (a / 0x1000) = false) (on : b.on (regPd a') = true)
    (safe : b.inSafe = false ∨ guarded (a / 0x1000) = true) :
    b.access sl x =
      (((b.selected p).writeWord p a (v % 2 ^ 32) 15 (decide (0 < (b.side p).remain)) x.flash).2.logWrite x
        ((b.selected p).writeWord p a (v % 2 ^ 32) 15 (decide (0 < (b.side p).remain)) x.flash).1).answered p 0#64 := by
  have hport : x.port = p := by rw [hx]; rfl
  have hwr : x.write = true := by rw [hx]; rfl
  have haddr : x.addr = a := by rw [hx]; rfl
  have htun : x.tunnel = none := by rw [hx]; rfl
  have hh : x.halves = [(a, 15)] := by rw [hx]; exact write4_halves p a v hp.four hp.top
  have hsz : x.size = 4 := by rw [hx]; exact (write4_size p a v).1
  have hal : x.aligned = true := by rw [hx]; exact (write4_size p a v).2
  have hr := Blk.makeRoom_room b p room
  have he : (b.selected p).accErr x = none := by
    refine accErr_seen _ _ a a' view f hp haddr hh hsz hal ?_ ?_
    · have : (b.selected p).on (regPd a') = b.on (regPd a') := by cases p <;> rfl
      rw [this]; exact on
    · have : (b.selected p).inSafe = b.inSafe := by cases p <;> rfl
      rw [this]; exact safe
  have hd : (b.selected p).semDenied p (x.addr % 2 ^ 20 / 0x1000) = false := by
    rw [haddr, Nat.mod_eq_of_lt hp.top, Blk.selected_semDenied]; exact sem
  have hword : (if a % 8 = 0 then x.wdata % 2 ^ 32 else x.wdata / 2 ^ 32 % 2 ^ 32) = v % 2 ^ 32 := by
    rw [hx]
    show (if a % 8 = 0 then (write4 p a v).wdata % 2 ^ 32 else (write4 p a v).wdata / 2 ^ 32 % 2 ^ 32) = _
    unfold write4
    by_cases h : a % 8 = 0
    · simp [h]
    · simp only [h, if_false]
      rw [Nat.mul_div_cancel _ (by decide), Nat.mod_mod]
  have hw : ∀ (c : Blk) (live : Bool), c.writeHalves x id live [(a, 15)] =
      ((c.writeWord p a (v % 2 ^ 32) 15 live x.flash).1, (c.writeWord p a (v % 2 ^ 32) 15 live x.flash).2) := by
    intro c live
    unfold Blk.writeHalves Blk.writeHalves
    simp only [hword, hport]
    show ((match (c.writeWord p a (v % 2 ^ 32) 15 live x.flash).1 with | some n => some n | none => none), _) = _
    congr 1
    cases (c.writeWord p a (v % 2 ^ 32) 15 live x.flash).1 <;> rfl
  unfold Blk.access Blk.accessAround
  simp only []
  rw [hport, hr, hwr]
  simp only [if_true]
  have hsel : (b.modSide p fun s => { s with remain := 0 }) = b.selected p := rfl
  rw [hsel, he]
  simp only [hd, hh, hw]
  rw [if_neg (by simp), Blk.answer_eq _ _ _ htun, hport]

theorem Blk.access_write4 (b sl : Blk) (p : MPort) (a v : Nat) (f : Fields) (hp : Plain a f) (ho : b.Open p a) :
    b.access sl (write4 p a v) =
      (((b.selected p).writeWord p a (v % 2 ^ 32) 15 (decide (0 < (b.side p).remain)) none).2.logWrite (write4 p a v)
        ((b.selected p).writeWord p a (v % 2 ^ 32) 15 (decide (0 < (b.side p).remain)) none).1).answered p 0#64 :=
  Blk.access_seen b sl p a a 0 v f (write4 p a v) rfl hp.seen ho.room ho.sem ho.on ho.safe

/-- A 4 B write to a register outside the key page, with a live unlock where it has KEY fields, calls for no record. -/
theorem Blk.writeWord_plain (b : Blk) (p : MPort) (a w : Nat) (live : Bool) (f : Fields) (fl : Option (List Byte)) (hp : Plain a f)
    (hk : a / 0x1000 ≠ 1) (hw : f.writable = true) (hkey : f.key = 0 ∨ live = true) :
    b.writeWord p a w 15 live fl =
      (none, (b.toShadow p a w f.shd).effect p a (f.word (b.storedFor p a) w) live true fl) := by
  have h1 : a ≠ 0x01000 := by omega
  have h2 : ¬ (0x01100 ≤ a ∧ a < 0x01200) := by omega
  have h3 : a ≠ 0x0100C := by omega
  have hkv : (f.key != 0 && !live) = false := by
    rcases hkey with h | h <;> simp [h]
  unfold Blk.writeWord
  simp only [hp.view, hp.fields, h1, h2, h3, hw, hkv, if_false, Bool.not_true, Bool.false_eq_true, if_true]
  rfl

/-- An alias write: it stands for a write of the plain register (R56), and its record is never a key violation. -/
theorem Blk.writeWord_alias (b : Blk) (p : MPort) (a0 a view w : Nat) (live : Bool) (f : Fields) (fl : Option (List Byte))
    (hp : Seen a0 a view f) (hk : a / 0x1000 ≠ 1) (hw : f.writable = true) (hv : view ≠ 0) :
    b.writeWord p a0 w 15 live fl =
      (none, (b.toShadow p a (aliasValue view (b.shadowOld a) w) f.shd).effect p a
        (mergeBits (mergeBits (b.reg a) (aliasValue view (b.reg a) w) (Nat.land f.rw (laneMask 15))) (aliasValue view 0 w) f.imm) false true fl) := by
  have h1 : a ≠ 0x01000 := by omega
  have h2 : ¬ (0x01100 ≤ a ∧ a < 0x01200) := by omega
  have h3 : a ≠ 0x0100C := by omega
  unfold Blk.writeWord
  simp only [hp.view, hp.fields, h1, h2, h3, hw, hv, if_false, Bool.not_true, Bool.false_eq_true]
  rfl

theorem Blk.answered_selected_storedFor (b : Blk) (p q : MPort) (a : Nat) : (b.selected p).storedFor q a = b.storedFor q a := by
  unfold Blk.storedFor
  by_cases h : q = p
  · subst h
    rw [Blk.selected_side]
    cases q <;> rfl
  · unfold Blk.selected
    rw [Blk.modSide_other _ _ _ _ h]
    cases p <;> rfl

/-- A 4 B write that is not refused, to a register outside the key page: its effect and the answer (R373). -/
theorem Blk.access_effect (b sl : Blk) (p : MPort) (a v : Nat) (f : Fields) (hp : Plain a f) (ho : b.Open p a)
    (hk : a / 0x1000 ≠ 1) (hw : f.writable = true) (hkey : f.key = 0 ∨ b.Keyed p) (hv : v < 2 ^ 32) :
    b.access sl (write4 p a v) =
      (((b.selected p).toShadow p a v f.shd).effect p a (f.word (b.storedFor p a) v) (decide (0 < (b.side p).remain)) true
        none).answered p 0#64 := by
  rw [Blk.access_write4 b sl p a v f hp ho, Nat.mod_eq_of_lt hv,
    Blk.writeWord_plain _ p a v _ f none hp hk hw (by rcases hkey with h | h; exact .inl h; exact .inr (decide_eq_true h)),
    Blk.answered_selected_storedFor]
  rfl

/-- A 4 B read that is not refused: the register's read with its side effects, and the answer (R46, R373). -/
theorem Blk.access_read4 (b sl : Blk) (p : MPort) (a : Nat) (f : Fields) (hp : Plain a f) (ho : b.Open p a) :
    b.access sl (read4 p a) = (b.readWord sl p a).2.answered p
      (BitVec.ofNat 64 (Nat.land (b.readWord sl p a).1 (laneMask 15) * (if a % 8 = 0 then 1 else 2 ^ 32))) := by
  have hh := read4_halves p a hp.four hp.top
  have hr := Blk.makeRoom_room b p ho.room
  have he : b.accErr (read4 p a) = none :=
    accErr_none _ _ a f hp rfl hh (read4_size p a).1 (read4_size p a).2 ho.on ho.safe
  unfold Blk.access Blk.accessAround
  simp only []
  have hport : (read4 p a).port = p := rfl
  have hwr : (read4 p a).write = false := rfl
  rw [hport, hr, hwr]
  simp only [Bool.false_eq_true, if_false, he, hh]
  unfold Blk.readHalves Blk.readHalves
  simp only [hp.view, Nat.add_zero]
  rw [Blk.answer_eq _ _ _ rfl]
  rfl

@[simp] theorem Blk.answered_ldr (b : Blk) (p : MPort) (v : BitVec 64) : (b.answered p v).ldr = b.ldr := (Blk.answered_msg b p v).ldr
@[simp] theorem Blk.selected_ldr (b : Blk) (p : MPort) : (b.selected p).ldr = b.ldr := (Blk.selected_msg b p).ldr

/-- A command that is a 4 B write to a register outside the key page: it answers with the register's effect. -/
theorem runAccess_effect (i : Instr) (s : State) (p : MPort) (a v : Nat) (f : Fields) (c : Blk) (ht : s.testMode = 0)
    (hi : i.wf = true) (hp : Plain a f) (ho : s.core.Open p a) (hk : a / 0x1000 ≠ 1) (hw : f.writable = true)
    (hkey : f.key = 0 ∨ s.core.Keyed p) (hv : v < 2 ^ 32)
    (he : ((s.core.selected p).toShadow p a v f.shd).effect p a (f.word (s.core.storedFor p a) v)
      (decide (0 < (s.core.side p).remain)) true none = c) (hr : s.core.ldr.state ≠ .reload) :
    runAccess i (fun _ => write4 p a v) s = .next (s.withCore (c.answered p 0#64)) :=
  runAccess_does i _ s _ ht hi ((Blk.access_effect s.core _ p a v f hp ho hk hw hkey hv).trans (by rw [he])) hr

/-- The same of the write that carries what NV_READ finds. -/
theorem runAccess_flash (i : Instr) (s : State) (x : Blk → Access) (p : MPort) (a v : Nat) (f : Fields) (fl : Option (List Byte))
    (c : Blk) (hx : x s.core = { write4 p a v with flash := fl }) (ht : s.testMode = 0)
    (hi : i.wf = true) (hp : Plain a f) (ho : s.core.Open p a) (hk : a / 0x1000 ≠ 1) (hw : f.writable = true)
    (hkey : f.key = 0 ∨ s.core.Keyed p) (hv : v < 2 ^ 32)
    (he : ((s.core.selected p).toShadow p a v f.shd).effect p a (f.word (s.core.storedFor p a) v)
      (decide (0 < (s.core.side p).remain)) true fl = c) (hr : s.core.ldr.state ≠ .reload) :
    runAccess i x s = .next (s.withCore (c.answered p 0#64)) := by
  refine runAccess_does i _ s _ ht hi ?_ hr
  rw [Blk.access_seen s.core _ p a a 0 v f (x s.core) (by rw [hx]) hp.seen ho.room ho.sem ho.on ho.safe, Nat.mod_eq_of_lt hv,
    show (x s.core).flash = fl by rw [hx],
    Blk.writeWord_plain _ p a v _ f fl hp hk hw (by rcases hkey with h | h; exact .inl h; exact .inr (decide_eq_true h)),
    Blk.answered_selected_storedFor, he]
  rfl

/-- The same of a write to an alias view. -/
theorem runAccess_alias (i : Instr) (s : State) (p : MPort) (a0 a view v : Nat) (f : Fields) (c : Blk) (ht : s.testMode = 0)
    (hi : i.wf = true) (hp : Seen a0 a view f) (room : (s.core.side p).outstanding.length < 4)
    (sem : s.core.semDenied p (a0 / 0x1000) = false) (on : s.core.on (regPd a) = true)
    (safe : s.core.inSafe = false ∨ guarded (a0 / 0x1000) = true) (hk : a / 0x1000 ≠ 1) (hw : f.writable = true) (hvw : view ≠ 0)
    (hv : v < 2 ^ 32)
    (he : ((s.core.selected p).toShadow p a (aliasValue view ((s.core.selected p).shadowOld a) v) f.shd).effect p a
      (mergeBits (mergeBits (s.core.reg a) (aliasValue view (s.core.reg a) v) (Nat.land f.rw (laneMask 15))) (aliasValue view 0 v) f.imm) false true none = c)
    (hr : s.core.ldr.state ≠ .reload) :
    runAccess i (fun _ => write4 p a0 v) s = .next (s.withCore (c.answered p 0#64)) := by
  refine runAccess_does i _ s _ ht hi ?_ hr
  rw [Blk.access_seen s.core _ p a0 a view v f (write4 p a0 v) rfl hp room sem on safe, Nat.mod_eq_of_lt hv,
    Blk.writeWord_alias _ p a0 a view v _ f _ hp hk hw hvw, show (s.core.selected p).reg a = s.core.reg a by cases p <;> rfl]
  exact congrArg (fun b : Blk => b.answered p 0#64) he

/-- The same where the command reads the block to form the value it writes. -/
theorem runAccess_effect_of (i : Instr) (s : State) (x : Blk → Access) (p : MPort) (a v : Nat) (f : Fields) (c : Blk)
    (hx : x s.core = write4 p a v) (ht : s.testMode = 0)
    (hi : i.wf = true) (hp : Plain a f) (ho : s.core.Open p a) (hk : a / 0x1000 ≠ 1) (hw : f.writable = true)
    (hkey : f.key = 0 ∨ s.core.Keyed p) (hv : v < 2 ^ 32)
    (he : ((s.core.selected p).toShadow p a v f.shd).effect p a (f.word (s.core.storedFor p a) v)
      (decide (0 < (s.core.side p).remain)) true none = c) (hr : s.core.ldr.state ≠ .reload) :
    runAccess i x s = .next (s.withCore (c.answered p 0#64)) :=
  runAccess_does i _ s _ ht hi (by rw [hx]; exact (Blk.access_effect s.core _ p a v f hp ho hk hw hkey hv).trans (by rw [he])) hr

/-- A command that is a 4 B write of the key page. -/
theorem runAccess_word (i : Instr) (s : State) (p : MPort) (a v : Nat) (f : Fields) (c : Blk) (ht : s.testMode = 0)
    (hi : i.wf = true) (hp : Plain a f) (ho : s.core.Open p a) (hv : v < 2 ^ 32)
    (he : ((s.core.selected p).writeWord p a v 15 (decide (0 < (s.core.side p).remain)) none).2.logWrite (write4 p a v)
      ((s.core.selected p).writeWord p a v 15 (decide (0 < (s.core.side p).remain)) none).1 = c) (hr : s.core.ldr.state ≠ .reload) :
    runAccess i (fun _ => write4 p a v) s = .next (s.withCore (c.answered p 0#64)) :=
  runAccess_does i _ s _ ht hi ((Blk.access_write4 s.core _ p a v f hp ho).trans (by rw [Nat.mod_eq_of_lt hv, he])) hr

/-- A command that is a 4 B read. -/
theorem runAccess_read (i : Instr) (s : State) (p : MPort) (a : Nat) (f : Fields) (c : Blk) (v : Nat) (ht : s.testMode = 0)
    (hi : i.wf = true) (hp : Plain a f) (ho : s.core.Open p a)
    (he : s.core.readWord s.slow p a = (v, c)) (hr : s.core.ldr.state ≠ .reload) :
    runAccess i (fun _ => read4 p a) s = .next (s.withCore (c.answered p
      (BitVec.ofNat 64 (Nat.land v (laneMask 15) * (if a % 8 = 0 then 1 else 2 ^ 32))))) :=
  runAccess_does i _ s _ ht hi ((Blk.access_read4 s.core _ p a f hp ho).trans (by rw [he])) hr

/-- The low word of a number below 2^32 is the number. -/
theorem land_lanes (v : Nat) (h : v < 2 ^ 32) : Nat.land v (laneMask 15) = v := by
  have e : laneMask 15 = 2 ^ 32 - 1 := by decide
  rw [e]
  show v &&& (2 ^ 32 - 1) = v
  rw [Nat.and_two_pow_sub_one_eq_mod, Nat.mod_eq_of_lt h]

theorem write4_first (p : MPort) (a v : Nat) (h4 : a % 4 = 0) (ht : a < 2 ^ 20) : (write4 p a v).first = a := by
  unfold Access.first Access.lanes write4
  by_cases h : a % 8 = 0
  · simp only [h, if_true]
    show a / 8 * 8 % 2 ^ 20 + ((List.range 8).filter fun k => bit 15 k).headD 0 = a
    rw [show ((List.range 8).filter fun k => bit 15 k).headD 0 = 0 from by decide]; omega
  · simp only [h, if_false]
    show a / 8 * 8 % 2 ^ 20 + ((List.range 8).filter fun k => bit 0xF0 k).headD 0 = a
    rw [show ((List.range 8).filter fun k => bit 0xF0 k).headD 0 = 4 from by decide]; omega

theorem write4_code (p : MPort) (a v : Nat) : (write4 p a v).sizeCode = 2 := by
  unfold Access.sizeCode; rw [(write4_size p a v).1]; decide

theorem Blk.modSide_congr (b : Blk) (p : MPort) (f g : PortSide → PortSide) (h : f (b.side p) = g (b.side p)) :
    b.modSide p f = b.modSide p g := by
  cases p
  · have h' : f b.mg.a = g b.mg.a := h
    simp [Blk.modSide, h']
  · have h' : f b.mg.b = g b.mg.b := h
    simp [Blk.modSide, h']

end Sys2Proof.Machine
end

