-- ==== Sys2Proof/Laws/Pins.lean ====
section
/-! SUPPORT. The masks of the output pins read, bit by bit, what the block drives. -/

namespace Sys2Proof.Machine
open Sys2Proof

theorem maskOf_lt (p : Nat → Bool) : ∀ n, maskOf p n < 2 ^ n
  | 0 => by simp [maskOf]
  | n + 1 => by
    have := maskOf_lt p n
    unfold maskOf
    rw [Nat.pow_succ]
    split <;> omega

/-- Bit i of a mask is what it was made from. -/
theorem bit_maskOf (p : Nat → Bool) : ∀ n i, i < n → bit (maskOf p n) i = p i
  | 0, i, h => absurd h (Nat.not_lt_zero i)
  | n + 1, i, h => by
    have hlt := maskOf_lt p n
    rw [bit_eq_testBit]
    unfold maskOf
    by_cases hi : i = n
    · subst hi
      cases hp : p i
      · simp [Nat.testBit_lt_two_pow hlt]
      · simp only [if_true]
        rw [Nat.testBit_eq_decide_div_mod_eq, Nat.add_div_right _ (Nat.two_pow_pos i), Nat.div_eq_of_lt hlt]
        rfl
    · have ih := bit_maskOf p n i (by omega)
      rw [bit_eq_testBit] at ih
      cases hp : p n
      · simpa using ih
      · have hin : i < n := by omega
        rw [← ih]
        simp only [if_true]
        rw [Nat.add_comm, Nat.testBit_two_pow_add_gt hin]

/-- The pins that a block drives follow the block. -/
theorem Blk.pins_follow (s : State) (h : s.pins = s.core.pins) : s.PinsFollow := by
  constructor
  · intro n hn; rw [h]; exact bit_maskOf _ 8 n hn
  · rw [h]; exact maskOf_lt _ 8
  · intro n hn; rw [h]; exact bit_maskOf _ 32 n hn
  · rw [h]; exact maskOf_lt _ 32
  · intro n hn; rw [h]; exact bit_maskOf _ 64 n hn
  · intro n hn; rw [h]; exact bit_maskOf _ 64 n hn
  · rw [h]; rfl
  · intro n hn; rw [h]; exact ⟨bit_maskOf _ 8 n hn, bit_maskOf _ 8 n hn⟩
  · intro n hn; rw [h]; exact bit_maskOf _ 32 n hn
  · intro d h1 hd
    rw [h]
    have := bit_maskOf s.core.reqPin 26 d hd
    have h0 : (d != 0) = true := by simp; omega
    simpa [Blk.reqPin, h0, Blk.pins] using this
  · intro d h1 hd
    rw [h]
    have := bit_maskOf s.core.refusePin 26 d hd
    have h0 : (d != 0) = true := by simp; omega
    simpa [Blk.refusePin, h0, Blk.pins] using this
  · rw [h]; rfl
  · rw [h]; rfl

/-- A block put behind its pins drives them. -/
theorem State.withCore_follows (s : State) (b : Blk) : (s.withCore b).PinsFollow := Blk.pins_follow _ rfl

end Sys2Proof.Machine
end

