-- ==== Sys2Proof/Laws/Form.lean ====
section
/-! SUPPORT. What `exec` answers, for each command: the running of its meaning; that all but power-on reset answer as `run` does;
and when each is well formed. -/

namespace Sys2Proof.Machine
open Sys2Proof

theorem exec_portReset (p : MPort) (s : State) :
    Sys2Proof.Machine.exec (.portReset p) s = runRow (.portReset p) (portResetB p) s := rfl
theorem exec_clockMeasurement (mclkKHz : Nat) (mgclkKHz : Nat) (s : State) :
    Sys2Proof.Machine.exec (.clockMeasurement mclkKHz mgclkKHz) s = runRow (.clockMeasurement mclkKHz mgclkKHz) (clockMeasurementB mclkKHz mgclkKHz) s := rfl
theorem exec_mgclkGap (s : State) :
    Sys2Proof.Machine.exec (.mgclkGap) s = runRow (.mgclkGap) mgclkGapB s := rfl
theorem exec_nvmSettleDone (s : State) :
    Sys2Proof.Machine.exec (.nvmSettleDone) s = runRow (.nvmSettleDone) nvmSettleDoneB s := rfl
theorem exec_hdrReadDone (copyA : List Byte) (copyB : List Byte) (s : State) :
    Sys2Proof.Machine.exec (.hdrReadDone copyA copyB) s = runRow (.hdrReadDone copyA copyB) (hdrReadDoneB copyA copyB) s := rfl
theorem exec_hdrRetry (s : State) :
    Sys2Proof.Machine.exec (.hdrRetry) s = runRow (.hdrRetry) hdrRetryB s := rfl
theorem exec_verifyDone (secs : List (List Byte)) (alt : List (List Byte)) (s : State) :
    Sys2Proof.Machine.exec (.verifyDone secs alt) s = runRow (.verifyDone secs alt) (verifyDoneB secs alt) s := rfl
theorem exec_powerAck (d : Nat) (s : State) :
    Sys2Proof.Machine.exec (.powerAck d) s = runRow (.powerAck d) (powerAckB d) s := rfl
theorem exec_pwrTimeout (d : Nat) (s : State) :
    Sys2Proof.Machine.exec (.pwrTimeout d) s = runRow (.pwrTimeout d) (pwrTimeoutB d) s := rfl
theorem exec_selftestDone (r : BistResult) (s : State) :
    Sys2Proof.Machine.exec (.selftestDone r) s = runRow (.selftestDone r) (selftestDoneB r) s := rfl
theorem exec_applyDone (secs : List (List Byte)) (alt : List (List Byte)) (s : State) :
    Sys2Proof.Machine.exec (.applyDone secs alt) s = runRow (.applyDone secs alt) (applyDoneB secs alt) s := rfl
theorem exec_reload (p : MPort) (s : State) :
    Sys2Proof.Machine.exec (.reload p) s = runAccess (.reload p) (fun _ => write4 p 0x04004 0x01) s := rfl
theorem exec_warm (p : MPort) (s : State) :
    Sys2Proof.Machine.exec (.warm p) s = runAccess (.warm p) (fun _ => write4 p 0x04004 0x02) s := rfl
theorem exec_warmRestartDone (storeOk : Bool) (s : State) :
    Sys2Proof.Machine.exec (.warmRestartDone storeOk) s = runRow (.warmRestartDone storeOk) (warmRestartDoneB storeOk) s := rfl
theorem exec_nvRead (p : MPort) (data : List Byte) (s : State) :
    Sys2Proof.Machine.exec (.nvRead p data) s = runAccess (.nvRead p data) (fun _ => { write4 p 0x04004 0x10 with flash := some data }) s := rfl
theorem exec_nvErase (p : MPort) (s : State) :
    Sys2Proof.Machine.exec (.nvErase p) s = runAccess (.nvErase p) (fun _ => write4 p 0x04004 0x11) s := rfl
theorem exec_nvProgram (p : MPort) (s : State) :
    Sys2Proof.Machine.exec (.nvProgram p) s = runAccess (.nvProgram p) (fun _ => write4 p 0x04004 0x12) s := rfl
theorem exec_nvStatusPoll (busy : Bool) (readBack : List Byte) (s : State) :
    Sys2Proof.Machine.exec (.nvStatusPoll busy readBack) s = runRow (.nvStatusPoll busy readBack) (nvStatusPollB busy readBack) s := rfl
theorem exec_registerWrite (p : MPort) (addr : Nat) (be : Nat) (wdata : BitVec 64) (r : Option Rival) (s : State) :
    Sys2Proof.Machine.exec (.registerWrite ⟨p, r⟩ addr be wdata) s
      = runContest (.registerWrite ⟨p, r⟩ addr be wdata) ⟨p, addr, be, true, wdata.toNat, none, none⟩ r s := rfl
theorem exec_keyUnlock (p : MPort) (value : Word) (s : State) :
    Sys2Proof.Machine.exec (.keyUnlock p value) s = runAccess (.keyUnlock p value) (fun _ => write4 p 0x01000 value.toNat) s := rfl
theorem exec_keyUnlockLapse (p : MPort) (s : State) :
    Sys2Proof.Machine.exec (.keyUnlockLapse p) s = runRow (.keyUnlockLapse p) (keyUnlockLapseB p) s := rfl
theorem exec_semAcquire (p : MPort) (n : Nat) (r : Option Rival) (s : State) :
    Sys2Proof.Machine.exec (.semAcquire ⟨p, r⟩ n) s = runContest (.semAcquire ⟨p, r⟩ n) (read4 p (0x01100 + 4 * n)) r s := rfl
theorem exec_semRelease (p : MPort) (n : Nat) (s : State) :
    Sys2Proof.Machine.exec (.semRelease p n) s = runAccess (.semRelease p n) (fun _ => write4 p (0x01100 + 4 * n) 0) s := rfl
theorem exec_semForce (p : MPort) (n : Nat) (s : State) :
    Sys2Proof.Machine.exec (.semForce p n) s = runAccess (.semForce p n) (fun _ => write4 p 0x0100C n) s := rfl
theorem exec_mbxSelWrite (p : MPort) (cls : Nat) (index : Nat) (s : State) :
    Sys2Proof.Machine.exec (.mbxSelWrite p cls index) s = runAccess (.mbxSelWrite p cls index) (fun _ => write4 p 0x02000 (cls * 2 ^ 24 + index)) s := rfl
theorem exec_mbxCapture (p : MPort) (s : State) :
    Sys2Proof.Machine.exec (.mbxCapture p) s = runRow (.mbxCapture p) (mbxCaptureB p) s := rfl
theorem exec_mbxBackingReadDone (p : MPort) (r : ReadResult) (s : State) :
    Sys2Proof.Machine.exec (.mbxBackingReadDone p r) s = runRow (.mbxBackingReadDone p r) (mbxBackingReadDoneB p r) s := rfl
theorem exec_mbxTimeout (p : MPort) (s : State) :
    Sys2Proof.Machine.exec (.mbxTimeout p) s = runRow (.mbxTimeout p) (mbxTimeoutB p) s := rfl
theorem exec_mbxLastWordRead (p : MPort) (s : State) :
    Sys2Proof.Machine.exec (.mbxLastWordRead p) s = runAccess (.mbxLastWordRead p) (fun b => read4 p (0x02010 + 4 * ((b.side p).mbx.words - 1))) s := rfl
theorem exec_evtStatRead (p : MPort) (g : Nat) (s : State) :
    Sys2Proof.Machine.exec (.evtStatRead p g) s = runAccess (.evtStatRead p g) (fun _ => read4 p (0x03000 + 4 * g)) s := rfl
theorem exec_evtAck (p : MPort) (g : Nat) (seq : Nat) (mask : Nat) (s : State) :
    Sys2Proof.Machine.exec (.evtAck p g seq mask) s = runAccess (.evtAck p g seq mask) (fun _ => write4 p (0x03100 + 4 * g) (seq * 2 ^ 24 + mask)) s := rfl
theorem exec_updArm (p : MPort) (source : Nat) (pu : Nat) (driveOut : Bool) (s : State) :
    Sys2Proof.Machine.exec (.updArm p source pu driveOut) s = runAccess (.updArm p source pu driveOut) (fun _ => write4 p 0x07000 (b1 driveOut * 256 + pu * 16 + 4 + source)) s := rfl
theorem exec_updGo (p : MPort) (s : State) :
    Sys2Proof.Machine.exec (.updGo p) s = runAccess (.updGo p) (fun _ => write4 p 0x07004 1) s := rfl
theorem exec_updStbIn (s : State) :
    Sys2Proof.Machine.exec (.updStbIn) s = runRow (.updStbIn) updStbInB s := rfl
theorem exec_updStrobeMsg (tag : Nat) (size : Nat) (s : State) :
    Sys2Proof.Machine.exec (.updStrobeMsg tag size) s = runRow (.updStrobeMsg tag size) (updStrobeMsgB tag size) s := rfl
theorem exec_updPhasePoint (s : State) :
    Sys2Proof.Machine.exec (.updPhasePoint) s = runRow (.updPhasePoint) updPhasePointB s := rfl
theorem exec_updTimeout (s : State) :
    Sys2Proof.Machine.exec (.updTimeout) s = runRow (.updTimeout) updTimeoutB s := rfl
theorem exec_adminNudge (d : Nat) (hdrDom : Nat) (size : Nat) (value : Nat) (s : State) :
    Sys2Proof.Machine.exec (.adminNudge d hdrDom size value) s = runRow (.adminNudge d hdrDom size value) (adminNudgeB d hdrDom size value) s := rfl
theorem exec_adminCplReturn (d : Nat) (hdrDom : Nat) (size : Nat) (value : Nat) (s : State) :
    Sys2Proof.Machine.exec (.adminCplReturn d hdrDom size value) s = runRow (.adminCplReturn d hdrDom size value) (adminCplReturnB d hdrDom size value) s := rfl
theorem exec_adminPoll (d : Nat) (s : State) :
    Sys2Proof.Machine.exec (.adminPoll d) s = runRow (.adminPoll d) (adminPollB d) s := rfl
theorem exec_adminRingReadDone (d : Nat) (r : ReadResult) (s : State) :
    Sys2Proof.Machine.exec (.adminRingReadDone d r) s = runRow (.adminRingReadDone d r) (adminRingReadDoneB d r) s := rfl
theorem exec_mgSubmit (p : MPort) (b : Bool) (s : State) :
    Sys2Proof.Machine.exec (.mgSubmit p b) s = runAccess (.mgSubmit p b) (fun _ => write4 p (if b then 0x060C0 else 0x06040) 1) s := rfl
theorem exec_mgPop (p : MPort) (b : Bool) (s : State) :
    Sys2Proof.Machine.exec (.mgPop p b) s = runAccess (.mgPop p b) (fun _ => write4 p (if b then 0x060D8 else 0x06058) 1) s := rfl
theorem exec_createQueue (r : AdminRing) (s : State) :
    Sys2Proof.Machine.exec (.createQueue r) s = runRow (.createQueue r) (createQueueB r) s := rfl
theorem exec_destroyQueue (r : AdminRing) (s : State) :
    Sys2Proof.Machine.exec (.destroyQueue r) s = runRow (.destroyQueue r) (destroyQueueB r) s := rfl
theorem exec_modifyQueue (r : AdminRing) (s : State) :
    Sys2Proof.Machine.exec (.modifyQueue r) s = runRow (.modifyQueue r) (modifyQueueB r) s := rfl
theorem exec_stopQueue (r : AdminRing) (s : State) :
    Sys2Proof.Machine.exec (.stopQueue r) s = runRow (.stopQueue r) (stopQueueB r) s := rfl
theorem exec_resumeQueue (r : AdminRing) (s : State) :
    Sys2Proof.Machine.exec (.resumeQueue r) s = runRow (.resumeQueue r) (resumeQueueB r) s := rfl
theorem exec_pinQueue (r : AdminRing) (s : State) :
    Sys2Proof.Machine.exec (.pinQueue r) s = runRow (.pinQueue r) (pinQueueB r) s := rfl
theorem exec_unpinQueue (r : AdminRing) (s : State) :
    Sys2Proof.Machine.exec (.unpinQueue r) s = runRow (.unpinQueue r) (unpinQueueB r) s := rfl
theorem exec_queryQueue (r : AdminRing) (s : State) :
    Sys2Proof.Machine.exec (.queryQueue r) s = runRow (.queryQueue r) (queryQueueB r) s := rfl
theorem exec_createEventRing (r : AdminRing) (s : State) :
    Sys2Proof.Machine.exec (.createEventRing r) s = runRow (.createEventRing r) (createEventRingB r) s := rfl
theorem exec_destroyEventRing (r : AdminRing) (s : State) :
    Sys2Proof.Machine.exec (.destroyEventRing r) s = runRow (.destroyEventRing r) (destroyEventRingB r) s := rfl
theorem exec_adminNop (r : AdminRing) (s : State) :
    Sys2Proof.Machine.exec (.adminNop r) s = runRow (.adminNop r) (adminNopB r) s := rfl
theorem exec_stopDomain (r : AdminRing) (s : State) :
    Sys2Proof.Machine.exec (.stopDomain r) s = runRow (.stopDomain r) (stopDomainB r) s := rfl
theorem exec_resumeDomain (r : AdminRing) (s : State) :
    Sys2Proof.Machine.exec (.resumeDomain r) s = runRow (.resumeDomain r) (resumeDomainB r) s := rfl
theorem exec_stopMover (r : AdminRing) (s : State) :
    Sys2Proof.Machine.exec (.stopMover r) s = runRow (.stopMover r) (stopMoverB r) s := rfl
theorem exec_resumeMover (r : AdminRing) (s : State) :
    Sys2Proof.Machine.exec (.resumeMover r) s = runRow (.resumeMover r) (resumeMoverB r) s := rfl
theorem exec_stopPort (r : AdminRing) (s : State) :
    Sys2Proof.Machine.exec (.stopPort r) s = runRow (.stopPort r) (stopPortB r) s := rfl
theorem exec_resumePort (r : AdminRing) (s : State) :
    Sys2Proof.Machine.exec (.resumePort r) s = runRow (.resumePort r) (resumePortB r) s := rfl
theorem exec_stopInstance (r : AdminRing) (s : State) :
    Sys2Proof.Machine.exec (.stopInstance r) s = runRow (.stopInstance r) (stopInstanceB r) s := rfl
theorem exec_resumeInstance (r : AdminRing) (s : State) :
    Sys2Proof.Machine.exec (.resumeInstance r) s = runRow (.resumeInstance r) (resumeInstanceB r) s := rfl
theorem exec_setQuota (r : AdminRing) (s : State) :
    Sys2Proof.Machine.exec (.setQuota r) s = runRow (.setQuota r) (setQuotaB r) s := rfl
theorem exec_resetDomain (r : AdminRing) (s : State) :
    Sys2Proof.Machine.exec (.resetDomain r) s = runRow (.resetDomain r) (resetDomainB r) s := rfl
theorem exec_contextWaitTimeout (r : AdminRing) (s : State) :
    Sys2Proof.Machine.exec (.contextWaitTimeout r) s = runRow (.contextWaitTimeout r) (contextWaitTimeoutB r) s := rfl
theorem exec_nudge (q : QRef) (hdrDom : Nat) (size : Nat) (value : Nat) (s : State) :
    Sys2Proof.Machine.exec (.nudge q hdrDom size value) s = runRow (.nudge q hdrDom size value) (nudgeB q hdrDom size value) s := rfl
theorem exec_pollDue (q : QRef) (s : State) :
    Sys2Proof.Machine.exec (.pollDue q) s = runRow (.pollDue q) (pollDueB q) s := rfl
theorem exec_ringTileArrival (port : Nat) (tag : Nat) (gen : Nat) (r : ReadResult) (s : State) :
    Sys2Proof.Machine.exec (.ringTileArrival port tag gen r) s = runRow (.ringTileArrival port tag gen r) (ringTileArrivalB port tag gen r) s := rfl
theorem exec_localBufferFill (q : QRef) (s : State) :
    Sys2Proof.Machine.exec (.localBufferFill q) s = runRow (.localBufferFill q) (localBufferFillB q) s := rfl
theorem exec_chainTimeout (q : QRef) (s : State) :
    Sys2Proof.Machine.exec (.chainTimeout q) s = runRow (.chainTimeout q) (chainTimeoutB q) s := rfl
theorem exec_bindQueue (q : QRef) (s : State) :
    Sys2Proof.Machine.exec (.bindQueue q) s = runRow (.bindQueue q) (bindQueueB q) s := rfl
theorem exec_bindIdle (q : QRef) (s : State) :
    Sys2Proof.Machine.exec (.bindIdle q) s = runRow (.bindIdle q) (bindIdleB q) s := rfl
theorem exec_bindPreempt (s : State) :
    Sys2Proof.Machine.exec (.bindPreempt) s = runRow (.bindPreempt) bindPreemptB s := rfl
theorem exec_spillDone (q : QRef) (s : State) :
    Sys2Proof.Machine.exec (.spillDone q) s = runRow (.spillDone q) (spillDoneB q) s := rfl
theorem exec_refillDone (q : QRef) (r : ReadResult) (s : State) :
    Sys2Proof.Machine.exec (.refillDone q r) s = runRow (.refillDone q r) (refillDoneB q r) s := rfl
theorem exec_entryStart (m : Nat) (b : Nat) (s : State) :
    Sys2Proof.Machine.exec (.entryStart m b) s = runRow (.entryStart m b) (entryStartB m b) s := rfl
theorem exec_readCompletion (port : Nat) (c : Cpl) (f : TileFault) (s : State) :
    Sys2Proof.Machine.exec (.readCompletion port c f) s = runRow (.readCompletion port c f) (readCompletionB port c f) s := rfl
theorem exec_readTimeoutSweep (port : Nat) (overdue : List Nat) (s : State) :
    Sys2Proof.Machine.exec (.readTimeoutSweep port overdue) s = runRow (.readTimeoutSweep port overdue) (readTimeoutSweepB port overdue) s := rfl
theorem exec_tagRejoin (port : Nat) (tag : Nat) (s : State) :
    Sys2Proof.Machine.exec (.tagRejoin port tag) s = runRow (.tagRejoin port tag) (tagRejoinB port tag) s := rfl
theorem exec_packetAccepted (port : Nat) (ch : Chan) (crd : Nat) (s : State) :
    Sys2Proof.Machine.exec (.packetAccepted port ch crd) s = runRow (.packetAccepted port ch crd) (packetAcceptedB port ch crd) s := rfl
theorem exec_flushReadCompletion (port : Nat) (tag : Nat) (gen : Nat) (r : ReadResult) (s : State) :
    Sys2Proof.Machine.exec (.flushReadCompletion port tag gen r) s = runRow (.flushReadCompletion port tag gen r) (flushReadCompletionB port tag gen r) s := rfl
theorem exec_tokenReturn (port : Nat) (tok : Nat) (lost : Bool) (s : State) :
    Sys2Proof.Machine.exec (.tokenReturn port tok lost) s = runRow (.tokenReturn port tok lost) (tokenReturnB port tok lost) s := rfl
theorem exec_tokenTimeout (port : Nat) (tok : Nat) (s : State) :
    Sys2Proof.Machine.exec (.tokenTimeout port tok) s = runRow (.tokenTimeout port tok) (tokenTimeoutB port tok) s := rfl
theorem exec_phaseCount (u : Nat) (e : QuadEdge) (held : Nat) (s : State) :
    Sys2Proof.Machine.exec (.phaseCount u ⟨e, held⟩) s = runRow (.phaseCount u ⟨e, held⟩) (phaseCountB u e held) s := rfl
theorem exec_indexPulse (u : Nat) (pin : PinSample) (s : State) :
    Sys2Proof.Machine.exec (.indexPulse ⟨u, pin⟩) s = runRow (.indexPulse ⟨u, pin⟩) (indexPulseB u pin) s := rfl
theorem exec_phasePulse (u : Nat) (pin : PinSample) (s : State) :
    Sys2Proof.Machine.exec (.phasePulse ⟨u, pin⟩) s = runRow (.phasePulse ⟨u, pin⟩) (phasePulseB u pin) s := rfl
theorem exec_fabricTimeValid (t : Nat) (s : State) :
    Sys2Proof.Machine.exec (.fabricTimeValid t) s = runRow (.fabricTimeValid t) (fabricTimeValidB t) s := rfl
theorem exec_phaseLossTimeout (u : Nat) (s : State) :
    Sys2Proof.Machine.exec (.phaseLossTimeout u) s = runRow (.phaseLossTimeout u) (phaseLossTimeoutB u) s := rfl
theorem exec_coastLimitExpiry (u : Nat) (s : State) :
    Sys2Proof.Machine.exec (.coastLimitExpiry u) s = runRow (.coastLimitExpiry u) (coastLimitExpiryB u) s := rfl
theorem exec_puRestart (p : MPort) (u : Nat) (s : State) :
    Sys2Proof.Machine.exec (.puRestart p u) s = runAccess (.puRestart p u) (fun _ => write4 p (0x0D400 + 0x40 * u) 0x1000) s := rfl
theorem exec_windowArm (m : Nat) (b : Nat) (s : State) :
    Sys2Proof.Machine.exec (.windowArm m b) s = runRow (.windowArm m b) (windowArmB m b) s := rfl
theorem exec_windowOpen (m : Nat) (b : Nat) (s : State) :
    Sys2Proof.Machine.exec (.windowOpen m b) s = runRow (.windowOpen m b) (windowOpenRow m b) s := rfl
theorem exec_windowLate (m : Nat) (b : Nat) (s : State) :
    Sys2Proof.Machine.exec (.windowLate m b) s = runRow (.windowLate m b) (windowLateB m b) s := rfl
theorem exec_phaseLostHalt (m : Nat) (b : Nat) (s : State) :
    Sys2Proof.Machine.exec (.phaseLostHalt m b) s = runRow (.phaseLostHalt m b) (phaseLostHaltB m b) s := rfl
theorem exec_planArm (m : Nat) (b : Nat) (s : State) :
    Sys2Proof.Machine.exec (.planArm m b) s = runRow (.planArm m b) (planArmB m b) s := rfl
theorem exec_alignedTargetLaunch (m : Nat) (b : Nat) (i : Nat) (s : State) :
    Sys2Proof.Machine.exec (.alignedTargetLaunch m b i) s = runRow (.alignedTargetLaunch m b i) (alignedTargetLaunchB m b i) s := rfl
theorem exec_snapTargetTimeout (m : Nat) (b : Nat) (s : State) :
    Sys2Proof.Machine.exec (.snapTargetTimeout m b) s = runRow (.snapTargetTimeout m b) (snapTargetTimeoutB m b) s := rfl
theorem exec_latencyProbe (i : Nat) (s : State) :
    Sys2Proof.Machine.exec (.latencyProbe i) s = runRow (.latencyProbe i) (latencyProbeB i) s := rfl
theorem exec_latencyRecordAging (i : Nat) (long : Bool) (s : State) :
    Sys2Proof.Machine.exec (.latencyRecordAging i long) s = runRow (.latencyRecordAging i long) (latencyRecordAgingB i long) s := rfl
theorem exec_latencyTrackingStop (i : Nat) (s : State) :
    Sys2Proof.Machine.exec (.latencyTrackingStop i) s = runRow (.latencyTrackingStop i) (latencyTrackingStopB i) s := rfl
theorem exec_tgtLatInval (p : MPort) (i : Nat) (s : State) :
    Sys2Proof.Machine.exec (.tgtLatInval p i) s = runAccess (.tgtLatInval p i) (fun _ => write4 p 0x15018 i) s := rfl
theorem exec_backgroundAging (q : QRef) (s : State) :
    Sys2Proof.Machine.exec (.backgroundAging q) s = runRow (.backgroundAging q) (backgroundAgingB q) s := rfl
theorem exec_rlCapture (n : Nat) (pin : PinSample) (s : State) :
    Sys2Proof.Machine.exec (.rlCapture ⟨n, pin⟩) s = runRow (.rlCapture ⟨n, pin⟩) (rlCaptureB n pin) s := rfl
theorem exec_rlRelease (n : Nat) (pin : PinSample) (s : State) :
    Sys2Proof.Machine.exec (.rlRelease ⟨n, pin⟩) s = runRow (.rlRelease ⟨n, pin⟩) (rlReleaseB n pin) s := rfl
theorem exec_rlHoldTimeout (n : Nat) (s : State) :
    Sys2Proof.Machine.exec (.rlHoldTimeout n) s = runRow (.rlHoldTimeout n) (rlHoldTimeoutB n) s := rfl
theorem exec_captureConsumed (l : LineRef) (s : State) :
    Sys2Proof.Machine.exec (.captureConsumed l) s = runRow (.captureConsumed l) (captureConsumedB l) s := rfl
theorem exec_rlnClear (p : MPort) (n : Nat) (s : State) :
    Sys2Proof.Machine.exec (.rlnClear p n) s = runAccess (.rlnClear p n) (fun _ => write4 p 0x0E304 n) s := rfl
theorem exec_rlnSwreq (p : MPort) (n : Nat) (s : State) :
    Sys2Proof.Machine.exec (.rlnSwreq p n) s = runAccess (.rlnSwreq p n) (fun _ => write4 p 0x0E308 n) s := rfl
theorem exec_rlnModeWrite (p : MPort) (n : Nat) (w : Word) (s : State) :
    Sys2Proof.Machine.exec (.rlnModeWrite p n w) s = runAccess (.rlnModeWrite p n w) (fun _ => write4 p (0x0E000 + 4 * n) w.toNat) s := rfl
theorem exec_rlnVrlRaise (p : MPort) (v : Nat) (n : Nat) (s : State) :
    Sys2Proof.Machine.exec (.rlnVrlRaise p v n) s = runAccess (.rlnVrlRaise p v n) (fun _ => write4 p 0x0E30C (n * 2 ^ 16 + v)) s := rfl
theorem exec_vrlMessage (v : Nat) (hdrDom : Nat) (size : Nat) (value : Nat) (s : State) :
    Sys2Proof.Machine.exec (.vrlMessage v hdrDom size value) s = runRow (.vrlMessage v hdrDom size value) (vrlMessageB v hdrDom size value) s := rfl
theorem exec_sfEnable (p : MPort) (f : Nat) (w : Word) (s : State) :
    Sys2Proof.Machine.exec (.sfEnable p f w) s = runAccess (.sfEnable p f w) (fun _ => write4 p (0x0F000 + 0x20 * f) (Nat.lor w.toNat (2 ^ 31))) s := rfl
theorem exec_sfDisable (p : MPort) (f : Nat) (s : State) :
    Sys2Proof.Machine.exec (.sfDisable p f) s = runAccess (.sfDisable p f) (fun _ => write4 p (0x0F800 + 0x20 * f) (2 ^ 31)) s := rfl
theorem exec_sfCloseDone (f : Nat) (s : State) :
    Sys2Proof.Machine.exec (.sfCloseDone f) s = runRow (.sfCloseDone f) (sfCloseDoneB f) s := rfl
theorem exec_flush (p : MPort) (f : Nat) (s : State) :
    Sys2Proof.Machine.exec (.flush p f) s = runAccess (.flush p f) (fun _ => write4 p (0x0F010 + 0x20 * f) (2 ^ 31)) s := rfl
theorem exec_dropRem (p : MPort) (f : Nat) (s : State) :
    Sys2Proof.Machine.exec (.dropRem p f) s = runAccess (.dropRem p f) (fun _ => write4 p (0x0F010 + 0x20 * f) 1) s := rfl
theorem exec_closeTail (p : MPort) (f : Nat) (s : State) :
    Sys2Proof.Machine.exec (.closeTail p f) s = runAccess (.closeTail p f) (fun _ => write4 p (0x0F010 + 0x20 * f) 2) s := rfl
theorem exec_spWordIn (n : Nat) (w : StreamWord) (s : State) :
    Sys2Proof.Machine.exec (.spWordIn n w) s = runRow (.spWordIn n w) (spWordInB n w) s := rfl
theorem exec_spWordOut (n : Nat) (d : Bool) (s : State) :
    Sys2Proof.Machine.exec (.spWordOut n d) s = runRow (.spWordOut n d) (spWordOutB n d) s := rfl
theorem exec_staleTail (f : Nat) (s : State) :
    Sys2Proof.Machine.exec (.staleTail f) s = runRow (.staleTail f) (staleTailB f) s := rfl
theorem exec_spClkMeasure (n : Nat) (kHz : Nat) (s : State) :
    Sys2Proof.Machine.exec (.spClkMeasure n kHz) s = runRow (.spClkMeasure n kHz) (spClkMeasureB n kHz) s := rfl
theorem exec_spStall (n : Nat) (s : State) :
    Sys2Proof.Machine.exec (.spStall n) s = runRow (.spStall n) (spStallB n) s := rfl
theorem exec_stopPointReached (q : QRef) (s : State) :
    Sys2Proof.Machine.exec (.stopPointReached q) s = runRow (.stopPointReached q) (stopPointReachedB q) s := rfl
theorem exec_stopPhaseReached (q : QRef) (s : State) :
    Sys2Proof.Machine.exec (.stopPhaseReached q) s = runRow (.stopPhaseReached q) (stopPhaseReachedB q) s := rfl
theorem exec_queueStopped (q : QRef) (s : State) :
    Sys2Proof.Machine.exec (.queueStopped q) s = runRow (.queueStopped q) (queueStoppedB q) s := rfl
theorem exec_movRetire (p : MPort) (m : Nat) (s : State) :
    Sys2Proof.Machine.exec (.movRetire p m) s = runAccess (.movRetire p m) (fun _ => write4 p 0x11208 (0x100 + m)) s := rfl
theorem exec_moverRetired (m : Nat) (s : State) :
    Sys2Proof.Machine.exec (.moverRetired m) s = runRow (.moverRetired m) (moverRetiredB m) s := rfl
theorem exec_dptDrain (p : MPort) (mask : Nat) (s : State) :
    Sys2Proof.Machine.exec (.dptDrain p mask) s = runAccess (.dptDrain p mask) (fun _ => write4 p 0x12320 mask) s := rfl
theorem exec_portIdle (port : Nat) (s : State) :
    Sys2Proof.Machine.exec (.portIdle port) s = runRow (.portIdle port) (portIdleB port) s := rfl
theorem exec_moderationTimeout (q : QRef) (s : State) :
    Sys2Proof.Machine.exec (.moderationTimeout q) s = runRow (.moderationTimeout q) (moderationTimeoutB q) s := rfl
theorem exec_messageCoalesceEnd (v : Nat) (s : State) :
    Sys2Proof.Machine.exec (.messageCoalesceEnd v) s = runRow (.messageCoalesceEnd v) (messageCoalesceEndB v) s := rfl
theorem exec_domSleepWrite (p : MPort) (j : Nat) (w : Word) (s : State) :
    Sys2Proof.Machine.exec (.domSleepWrite p j w) s = runAccess (.domSleepWrite p j w) (fun _ => write4 p (0x0B020 + 4 * j) w.toNat) s := rfl
theorem exec_vecLoad (p : MPort) (s : State) :
    Sys2Proof.Machine.exec (.vecLoad p) s = runAccess (.vecLoad p) (fun _ => write4 p 0x0B014 1) s := rfl
theorem exec_vecStore (p : MPort) (s : State) :
    Sys2Proof.Machine.exec (.vecStore p) s = runAccess (.vecStore p) (fun _ => write4 p 0x0B014 2) s := rfl
theorem exec_eventRingReturn (d : Nat) (hdrDom : Nat) (size : Nat) (value : Nat) (s : State) :
    Sys2Proof.Machine.exec (.eventRingReturn d hdrDom size value) s = runRow (.eventRingReturn d hdrDom size value) (eventRingReturnB d hdrDom size value) s := rfl
theorem exec_moverHeartbeatTimeout (m : Nat) (s : State) :
    Sys2Proof.Machine.exec (.moverHeartbeatTimeout m) s = runRow (.moverHeartbeatTimeout m) (moverHeartbeatTimeoutB m) s := rfl
theorem exec_moverWatchdogTimeout (m : Nat) (s : State) :
    Sys2Proof.Machine.exec (.moverWatchdogTimeout m) s = runRow (.moverWatchdogTimeout m) (moverWatchdogTimeoutB m) s := rfl
theorem exec_movFail (m : Nat) (cause : Nat) (s : State) :
    Sys2Proof.Machine.exec (.movFail m cause) s = runRow (.movFail m cause) (movFailB m cause) s := rfl
theorem exec_failoverResume (q : QRef) (s : State) :
    Sys2Proof.Machine.exec (.failoverResume q) s = runRow (.failoverResume q) (failoverResumeB q) s := rfl
theorem exec_portStuck (port : Nat) (s : State) :
    Sys2Proof.Machine.exec (.portStuck port) s = runRow (.portStuck port) (portStuckB port) s := rfl
theorem exec_portLost (port : Nat) (s : State) :
    Sys2Proof.Machine.exec (.portLost port) s = runRow (.portLost port) (portLostB port) s := rfl
theorem exec_portUp (port : Nat) (s : State) :
    Sys2Proof.Machine.exec (.portUp port) s = runRow (.portUp port) (portUpB port) s := rfl
theorem exec_linkDown (n : Nat) (cto : Bool) (s : State) :
    Sys2Proof.Machine.exec (.linkDown n cto) s = runRow (.linkDown n cto) (linkDownB n cto) s := rfl
theorem exec_linkUp (n : Nat) (s : State) :
    Sys2Proof.Machine.exec (.linkUp n) s = runRow (.linkUp n) (linkUpB n) s := rfl
theorem exec_linkCtoRecovery (n : Nat) (s : State) :
    Sys2Proof.Machine.exec (.linkCtoRecovery n) s = runRow (.linkCtoRecovery n) (linkCtoRecoveryB n) s := rfl
theorem exec_contextScrub (q : QRef) (tile : Nat) (r : ScrubResult) (s : State) :
    Sys2Proof.Machine.exec (.contextScrub q tile r) s = runRow (.contextScrub q tile r) (contextScrubB q tile r) s := rfl
theorem exec_internal (unit : Nat) (s : State) :
    Sys2Proof.Machine.exec (.internal unit) s = runRow (.internal unit) (internalB unit) s := rfl
theorem exec_slotPresenceAccepted (s : Nat) (st : State) :
    Sys2Proof.Machine.exec (.slotPresenceAccepted s) st = runRow (.slotPresenceAccepted s) (slotPresenceAcceptedB s) st := rfl
theorem exec_slotPresenceSeen (s : Nat) (st : State) :
    Sys2Proof.Machine.exec (.slotPresenceSeen s) st = runRow (.slotPresenceSeen s) (slotPresenceSeenB s) st := rfl
theorem exec_slotAbsenceAccepted (s : Nat) (st : State) :
    Sys2Proof.Machine.exec (.slotAbsenceAccepted s) st = runRow (.slotAbsenceAccepted s) (slotAbsenceAcceptedB s) st := rfl
theorem exec_slotPgAccepted (s : Nat) (st : State) :
    Sys2Proof.Machine.exec (.slotPgAccepted s) st = runRow (.slotPgAccepted s) (slotPgAcceptedB s) st := rfl
theorem exec_slotPgLost (s : Nat) (st : State) :
    Sys2Proof.Machine.exec (.slotPgLost s) st = runRow (.slotPgLost s) (slotPgLostB s) st := rfl
theorem exec_slotFaultInput (s : Nat) (st : State) :
    Sys2Proof.Machine.exec (.slotFaultInput s) st = runRow (.slotFaultInput s) (slotFaultInputB s) st := rfl
theorem exec_slotRampTimeout (s : Nat) (st : State) :
    Sys2Proof.Machine.exec (.slotRampTimeout s) st = runRow (.slotRampTimeout s) (slotRampTimeoutB s) st := rfl
theorem exec_slotSettleDone (s : Nat) (st : State) :
    Sys2Proof.Machine.exec (.slotSettleDone s) st = runRow (.slotSettleDone s) (slotSettleDoneB s) st := rfl
theorem exec_slotTokenReadDone (s : Nat) (r : ReadResult) (st : State) :
    Sys2Proof.Machine.exec (.slotTokenReadDone s r) st = runRow (.slotTokenReadDone s r) (slotTokenReadDoneB s r) st := rfl
theorem exec_slotDischargeDone (s : Nat) (st : State) :
    Sys2Proof.Machine.exec (.slotDischargeDone s) st = runRow (.slotDischargeDone s) (slotDischargeDoneB s) st := rfl
theorem exec_passDamaged (s : Nat) (st : State) :
    Sys2Proof.Machine.exec (.passDamaged s) st = runRow (.passDamaged s) (passDamagedB s) st := rfl
theorem exec_slotHoldExpiry (s : Nat) (st : State) :
    Sys2Proof.Machine.exec (.slotHoldExpiry s) st = runRow (.slotHoldExpiry s) (slotHoldExpiryB s) st := rfl
theorem exec_sltOnWrite (p : MPort) (s : Nat) (on : Bool) (st : State) :
    Sys2Proof.Machine.exec (.sltOnWrite p s on) st = runAccess (.sltOnWrite p s on) (fun b => write4 p (0x05000 + 4 * s) (putBits (b.reg (0x05000 + 4 * s)) 30 30 (b1 on))) st := rfl
theorem exec_sltSvcClear (p : MPort) (s : Nat) (st : State) :
    Sys2Proof.Machine.exec (.sltSvcClear p s) st = runAccess (.sltSvcClear p s) (fun _ => write4 p 0x05304 (0x100 + s)) st := rfl
theorem exec_sltSvcExpire (p : MPort) (s : Nat) (st : State) :
    Sys2Proof.Machine.exec (.sltSvcExpire p s) st = runAccess (.sltSvcExpire p s) (fun _ => write4 p 0x05304 (0x200 + s)) st := rfl
theorem exec_borageEpoch (f : Bool) (s : State) :
    Sys2Proof.Machine.exec (.borageEpoch f) s = runRow (.borageEpoch f) (borageEpochB f) s := rfl
theorem exec_refclkLost (s : State) : Sys2Proof.Machine.exec .refclkLost s = runRow .refclkLost refclkLostB s := rfl
theorem exec_refclkReturn (s : State) : Sys2Proof.Machine.exec .refclkReturn s = runRow .refclkReturn refclkReturnB s := rfl
theorem exec_supFreezeWrite (p : MPort) (frozen : Bool) (s : State) :
    Sys2Proof.Machine.exec (.supFreezeWrite p frozen) s = runAccess (.supFreezeWrite p frozen) (fun _ => write4 p 0x14004 (b1 frozen)) s := rfl
theorem exec_supRestore (p : MPort) (s : State) :
    Sys2Proof.Machine.exec (.supRestore p) s = runAccess (.supRestore p) (fun b => write4 p 0x14004 (2 + b.regF 0x14004 0 0)) s := rfl
theorem exec_supRingEnable (p : MPort) (w : Word) (s : State) :
    Sys2Proof.Machine.exec (.supRingEnable p w) s = runAccess (.supRingEnable p w) (fun _ => write4 p 0x14014 (Nat.lor w.toNat (2 ^ 31))) s := rfl
theorem exec_supRingRetWrite (p : MPort) (w : Word) (s : State) :
    Sys2Proof.Machine.exec (.supRingRetWrite p w) s = runAccess (.supRingRetWrite p w) (fun _ => write4 p 0x14018 w.toNat) s := rfl
theorem exec_tempSample (i : Nat) (code : Nat) (s : State) :
    Sys2Proof.Machine.exec (.tempSample i code) s = runRow (.tempSample i code) (tempSampleB i code) s := rfl
theorem exec_tempStale (i : Nat) (s : State) :
    Sys2Proof.Machine.exec (.tempStale i) s = runRow (.tempStale i) (tempStaleB i) s := rfl
theorem exec_thermalShed (q : QRef) (s : State) :
    Sys2Proof.Machine.exec (.thermalShed q) s = runRow (.thermalShed q) (thermalShedB q) s := rfl
theorem exec_roWindow (d : Nat) (count : Nat) (s : State) :
    Sys2Proof.Machine.exec (.roWindow d count) s = runRow (.roWindow d count) (roWindowB d count) s := rfl
theorem exec_roFastWindow (d : Nat) (count : Nat) (s : State) :
    Sys2Proof.Machine.exec (.roFastWindow d count) s = runRow (.roFastWindow d count) (roFastWindowB d count) s := rfl
theorem exec_movSvcTest (p : MPort) (m : Nat) (spare : Bool) (s : State) :
    Sys2Proof.Machine.exec (.movSvcTest p m spare) s = runAccess (.movSvcTest p m spare) (fun _ => write4 p 0x11214 (b1 spare * 2 ^ 12 + 0x100 + m)) s := rfl
theorem exec_movSvcPowerDown (p : MPort) (m : Nat) (s : State) :
    Sys2Proof.Machine.exec (.movSvcPowerDown p m) s = runAccess (.movSvcPowerDown p m) (fun _ => write4 p 0x11214 (0x200 + m)) s := rfl
theorem exec_movSvcPowerUp (p : MPort) (m : Nat) (spare : Bool) (s : State) :
    Sys2Proof.Machine.exec (.movSvcPowerUp p m spare) s = runAccess (.movSvcPowerUp p m spare) (fun _ => write4 p 0x11214 (b1 spare * 2 ^ 12 + 0x300 + m)) s := rfl
theorem exec_moverSelftestDone (m : Nat) (fail : Nat) (s : State) :
    Sys2Proof.Machine.exec (.moverSelftestDone m fail) s = runRow (.moverSelftestDone m fail) (moverSelftestDoneB m fail) s := rfl
theorem exec_ctxwRebuildTest (p : MPort) (bankB : Bool) (s : State) :
    Sys2Proof.Machine.exec (.ctxwRebuildTest p bankB) s = runAccess (.ctxwRebuildTest p bankB) (fun _ => write4 p 0x13008 (0x100 + b1 bankB)) s := rfl
theorem exec_ctxwRebuildCopy (p : MPort) (bankB : Bool) (s : State) :
    Sys2Proof.Machine.exec (.ctxwRebuildCopy p bankB) s = runAccess (.ctxwRebuildCopy p bankB) (fun _ => write4 p 0x13008 (0x200 + b1 bankB)) s := rfl
theorem exec_ctxwRebuildDone (pass : Bool) (lost : List QRef) (s : State) :
    Sys2Proof.Machine.exec (.ctxwRebuildDone pass lost) s = runRow (.ctxwRebuildDone pass lost) (ctxwRebuildDoneB pass lost) s := rfl
theorem exec_powerAsk (d : Nat) (retention : Bool) (s : State) :
    Sys2Proof.Machine.exec (.powerAsk d retention) s = runRow (.powerAsk d retention) (powerAskB d retention) s := rfl
theorem exec_powerAckLost (d : Nat) (s : State) :
    Sys2Proof.Machine.exec (.powerAckLost d) s = runRow (.powerAckLost d) (powerAckLostB d) s := rfl
theorem exec_inboundPacket (port : Nat) (k : InPkt) (s : State) :
    Sys2Proof.Machine.exec (.inboundPacket port k) s = runRow (.inboundPacket port k) (fun b => inboundPacketB port k s.slow b) s := rfl
theorem exec_tunnelAccess (port : Nat) (k : InPkt) (s : State) :
    Sys2Proof.Machine.exec (.tunnelAccess port k) s = runRow (.tunnelAccess port k) (fun b => tunnelAccessB port k s.slow b) s := rfl
theorem exec_relayWrite (port : Nat) (k : InPkt) (s : State) :
    Sys2Proof.Machine.exec (.relayWrite port k) s = runRow (.relayWrite port k) (fun b => relayWriteB port k s.slow b) s := rfl
theorem exec_relayRingWrite (port : Nat) (s : State) :
    Sys2Proof.Machine.exec (.relayRingWrite port) s = runRow (.relayRingWrite port) (relayRingWriteB port) s := rfl
theorem exec_slotSettleLinkTimeout (s : Nat) (st : State) :
    Sys2Proof.Machine.exec (.slotSettleLinkTimeout s) st = runRow (.slotSettleLinkTimeout s) (slotSettleLinkTimeoutB s) st := rfl
theorem exec_squareHalfFailure (half : Nat) (s : State) :
    Sys2Proof.Machine.exec (.squareHalfFailure half) s = runRow (.squareHalfFailure half) (squareHalfFailureB half) s := rfl
theorem exec_squareHalfSelftestDone (half : Nat) (mapped : List Nat) (pass : Bool) (s : State) :
    Sys2Proof.Machine.exec (.squareHalfSelftestDone half mapped pass) s = runRow (.squareHalfSelftestDone half mapped pass) (squareHalfSelftestDoneB half mapped pass) s := rfl
theorem exec_powerDownAck (d : Nat) (s : State) :
    Sys2Proof.Machine.exec (.powerDownAck d) s = runRow (.powerDownAck d) (powerDownAckB d) s := rfl
theorem exec_dataCreditReturn (port : Nat) (ch : Chan) (crd : Nat) (s : State) :
    Sys2Proof.Machine.exec (.dataCreditReturn port ch crd) s = runRow (.dataCreditReturn port ch crd) (dataCreditReturnB port ch crd) s := rfl
theorem exec_phaseTickEstimate (u : Nat) (s : State) :
    Sys2Proof.Machine.exec (.phaseTickEstimate u) s = runRow (.phaseTickEstimate u) (phaseTickEstimateB u) s := rfl

/-- Every command but power-on reset runs one function on the block and changes nothing else. -/
theorem exec_form : ∀ (c : Instr) (s : State), (∀ m, c ≠ .powerOnReset m) →
    ∃ f, Sys2Proof.Machine.exec c s = run c f s
  | .powerOnReset m, _, h => absurd rfl (h m)
  | .refclkLost, st, _ => ⟨_, exec_refclkLost st⟩
  | .refclkReturn, st, _ => ⟨_, exec_refclkReturn st⟩
  | .portReset p, st, _ => ⟨_, exec_portReset p st⟩
  | .clockMeasurement mclkKHz mgclkKHz, st, _ => ⟨_, exec_clockMeasurement mclkKHz mgclkKHz st⟩
  | .mgclkGap, st, _ => ⟨_, exec_mgclkGap st⟩
  | .nvmSettleDone, st, _ => ⟨_, exec_nvmSettleDone st⟩
  | .hdrReadDone copyA copyB, st, _ => ⟨_, exec_hdrReadDone copyA copyB st⟩
  | .hdrRetry, st, _ => ⟨_, exec_hdrRetry st⟩
  | .verifyDone secs alt, st, _ => ⟨_, exec_verifyDone secs alt st⟩
  | .powerAck d, st, _ => ⟨_, exec_powerAck d st⟩
  | .pwrTimeout d, st, _ => ⟨_, exec_pwrTimeout d st⟩
  | .selftestDone r, st, _ => ⟨_, exec_selftestDone r st⟩
  | .applyDone secs alt, st, _ => ⟨_, exec_applyDone secs alt st⟩
  | .reload p, st, _ => ⟨_, exec_reload p st⟩
  | .warm p, st, _ => ⟨_, exec_warm p st⟩
  | .warmRestartDone storeOk, st, _ => ⟨_, exec_warmRestartDone storeOk st⟩
  | .nvRead p data, st, _ => ⟨_, exec_nvRead p data st⟩
  | .nvErase p, st, _ => ⟨_, exec_nvErase p st⟩
  | .nvProgram p, st, _ => ⟨_, exec_nvProgram p st⟩
  | .nvStatusPoll busy readBack, st, _ => ⟨_, exec_nvStatusPoll busy readBack st⟩
  | .registerWrite ⟨p, r⟩ addr be wdata, st, _ => ⟨_, exec_registerWrite p addr be wdata r st⟩
  | .keyUnlock p value, st, _ => ⟨_, exec_keyUnlock p value st⟩
  | .keyUnlockLapse p, st, _ => ⟨_, exec_keyUnlockLapse p st⟩
  | .semAcquire ⟨p, r⟩ n, st, _ => ⟨_, exec_semAcquire p n r st⟩
  | .semRelease p n, st, _ => ⟨_, exec_semRelease p n st⟩
  | .semForce p n, st, _ => ⟨_, exec_semForce p n st⟩
  | .mbxSelWrite p cls index, st, _ => ⟨_, exec_mbxSelWrite p cls index st⟩
  | .mbxCapture p, st, _ => ⟨_, exec_mbxCapture p st⟩
  | .mbxBackingReadDone p r, st, _ => ⟨_, exec_mbxBackingReadDone p r st⟩
  | .mbxTimeout p, st, _ => ⟨_, exec_mbxTimeout p st⟩
  | .mbxLastWordRead p, st, _ => ⟨_, exec_mbxLastWordRead p st⟩
  | .evtStatRead p g, st, _ => ⟨_, exec_evtStatRead p g st⟩
  | .evtAck p g seq mask, st, _ => ⟨_, exec_evtAck p g seq mask st⟩
  | .updArm p source pu driveOut, st, _ => ⟨_, exec_updArm p source pu driveOut st⟩
  | .updGo p, st, _ => ⟨_, exec_updGo p st⟩
  | .updStbIn, st, _ => ⟨_, exec_updStbIn st⟩
  | .updStrobeMsg tag size, st, _ => ⟨_, exec_updStrobeMsg tag size st⟩
  | .updPhasePoint, st, _ => ⟨_, exec_updPhasePoint st⟩
  | .updTimeout, st, _ => ⟨_, exec_updTimeout st⟩
  | .adminNudge d hdrDom size value, st, _ => ⟨_, exec_adminNudge d hdrDom size value st⟩
  | .adminCplReturn d hdrDom size value, st, _ => ⟨_, exec_adminCplReturn d hdrDom size value st⟩
  | .adminPoll d, st, _ => ⟨_, exec_adminPoll d st⟩
  | .adminRingReadDone d r, st, _ => ⟨_, exec_adminRingReadDone d r st⟩
  | .mgSubmit p b, st, _ => ⟨_, exec_mgSubmit p b st⟩
  | .mgPop p b, st, _ => ⟨_, exec_mgPop p b st⟩
  | .createQueue r, st, _ => ⟨_, exec_createQueue r st⟩
  | .destroyQueue r, st, _ => ⟨_, exec_destroyQueue r st⟩
  | .modifyQueue r, st, _ => ⟨_, exec_modifyQueue r st⟩
  | .stopQueue r, st, _ => ⟨_, exec_stopQueue r st⟩
  | .resumeQueue r, st, _ => ⟨_, exec_resumeQueue r st⟩
  | .pinQueue r, st, _ => ⟨_, exec_pinQueue r st⟩
  | .unpinQueue r, st, _ => ⟨_, exec_unpinQueue r st⟩
  | .queryQueue r, st, _ => ⟨_, exec_queryQueue r st⟩
  | .createEventRing r, st, _ => ⟨_, exec_createEventRing r st⟩
  | .destroyEventRing r, st, _ => ⟨_, exec_destroyEventRing r st⟩
  | .adminNop r, st, _ => ⟨_, exec_adminNop r st⟩
  | .stopDomain r, st, _ => ⟨_, exec_stopDomain r st⟩
  | .resumeDomain r, st, _ => ⟨_, exec_resumeDomain r st⟩
  | .stopMover r, st, _ => ⟨_, exec_stopMover r st⟩
  | .resumeMover r, st, _ => ⟨_, exec_resumeMover r st⟩
  | .stopPort r, st, _ => ⟨_, exec_stopPort r st⟩
  | .resumePort r, st, _ => ⟨_, exec_resumePort r st⟩
  | .stopInstance r, st, _ => ⟨_, exec_stopInstance r st⟩
  | .resumeInstance r, st, _ => ⟨_, exec_resumeInstance r st⟩
  | .setQuota r, st, _ => ⟨_, exec_setQuota r st⟩
  | .resetDomain r, st, _ => ⟨_, exec_resetDomain r st⟩
  | .contextWaitTimeout r, st, _ => ⟨_, exec_contextWaitTimeout r st⟩
  | .nudge q hdrDom size value, st, _ => ⟨_, exec_nudge q hdrDom size value st⟩
  | .pollDue q, st, _ => ⟨_, exec_pollDue q st⟩
  | .ringTileArrival port tag gen r, st, _ => ⟨_, exec_ringTileArrival port tag gen r st⟩
  | .localBufferFill q, st, _ => ⟨_, exec_localBufferFill q st⟩
  | .chainTimeout q, st, _ => ⟨_, exec_chainTimeout q st⟩
  | .bindQueue q, st, _ => ⟨_, exec_bindQueue q st⟩
  | .bindIdle q, st, _ => ⟨_, exec_bindIdle q st⟩
  | .bindPreempt, st, _ => ⟨_, exec_bindPreempt st⟩
  | .spillDone q, st, _ => ⟨_, exec_spillDone q st⟩
  | .refillDone q r, st, _ => ⟨_, exec_refillDone q r st⟩
  | .entryStart m b, st, _ => ⟨_, exec_entryStart m b st⟩
  | .readCompletion port c f, st, _ => ⟨_, exec_readCompletion port c f st⟩
  | .readTimeoutSweep port overdue, st, _ => ⟨_, exec_readTimeoutSweep port overdue st⟩
  | .tagRejoin port tag, st, _ => ⟨_, exec_tagRejoin port tag st⟩
  | .packetAccepted port ch crd, st, _ => ⟨_, exec_packetAccepted port ch crd st⟩
  | .flushReadCompletion port tag gen r, st, _ => ⟨_, exec_flushReadCompletion port tag gen r st⟩
  | .tokenReturn port tok lost, st, _ => ⟨_, exec_tokenReturn port tok lost st⟩
  | .tokenTimeout port tok, st, _ => ⟨_, exec_tokenTimeout port tok st⟩
  | .phaseCount u ⟨e, h⟩, st, _ => ⟨_, exec_phaseCount u e h st⟩
  | .indexPulse ⟨u, i⟩, st, _ => ⟨_, exec_indexPulse u i st⟩
  | .phasePulse ⟨u, i⟩, st, _ => ⟨_, exec_phasePulse u i st⟩
  | .fabricTimeValid t, st, _ => ⟨_, exec_fabricTimeValid t st⟩
  | .phaseLossTimeout u, st, _ => ⟨_, exec_phaseLossTimeout u st⟩
  | .coastLimitExpiry u, st, _ => ⟨_, exec_coastLimitExpiry u st⟩
  | .puRestart p u, st, _ => ⟨_, exec_puRestart p u st⟩
  | .windowArm m b, st, _ => ⟨_, exec_windowArm m b st⟩
  | .windowOpen m b, st, _ => ⟨_, exec_windowOpen m b st⟩
  | .windowLate m b, st, _ => ⟨_, exec_windowLate m b st⟩
  | .phaseLostHalt m b, st, _ => ⟨_, exec_phaseLostHalt m b st⟩
  | .planArm m b, st, _ => ⟨_, exec_planArm m b st⟩
  | .alignedTargetLaunch m b i, st, _ => ⟨_, exec_alignedTargetLaunch m b i st⟩
  | .snapTargetTimeout m b, st, _ => ⟨_, exec_snapTargetTimeout m b st⟩
  | .latencyProbe i, st, _ => ⟨_, exec_latencyProbe i st⟩
  | .latencyRecordAging i long, st, _ => ⟨_, exec_latencyRecordAging i long st⟩
  | .latencyTrackingStop i, st, _ => ⟨_, exec_latencyTrackingStop i st⟩
  | .tgtLatInval p i, st, _ => ⟨_, exec_tgtLatInval p i st⟩
  | .backgroundAging q, st, _ => ⟨_, exec_backgroundAging q st⟩
  | .rlCapture ⟨n, i⟩, st, _ => ⟨_, exec_rlCapture n i st⟩
  | .rlRelease ⟨n, i⟩, st, _ => ⟨_, exec_rlRelease n i st⟩
  | .rlHoldTimeout n, st, _ => ⟨_, exec_rlHoldTimeout n st⟩
  | .captureConsumed l, st, _ => ⟨_, exec_captureConsumed l st⟩
  | .rlnClear p n, st, _ => ⟨_, exec_rlnClear p n st⟩
  | .rlnSwreq p n, st, _ => ⟨_, exec_rlnSwreq p n st⟩
  | .rlnModeWrite p n w, st, _ => ⟨_, exec_rlnModeWrite p n w st⟩
  | .rlnVrlRaise p v n, st, _ => ⟨_, exec_rlnVrlRaise p v n st⟩
  | .vrlMessage v hdrDom size value, st, _ => ⟨_, exec_vrlMessage v hdrDom size value st⟩
  | .sfEnable p f w, st, _ => ⟨_, exec_sfEnable p f w st⟩
  | .sfDisable p f, st, _ => ⟨_, exec_sfDisable p f st⟩
  | .sfCloseDone f, st, _ => ⟨_, exec_sfCloseDone f st⟩
  | .flush p f, st, _ => ⟨_, exec_flush p f st⟩
  | .dropRem p f, st, _ => ⟨_, exec_dropRem p f st⟩
  | .closeTail p f, st, _ => ⟨_, exec_closeTail p f st⟩
  | .spWordIn n w, st, _ => ⟨_, exec_spWordIn n w st⟩
  | .spWordOut n d, st, _ => ⟨_, exec_spWordOut n d st⟩
  | .staleTail f, st, _ => ⟨_, exec_staleTail f st⟩
  | .spClkMeasure n kHz, st, _ => ⟨_, exec_spClkMeasure n kHz st⟩
  | .spStall n, st, _ => ⟨_, exec_spStall n st⟩
  | .stopPointReached q, st, _ => ⟨_, exec_stopPointReached q st⟩
  | .stopPhaseReached q, st, _ => ⟨_, exec_stopPhaseReached q st⟩
  | .queueStopped q, st, _ => ⟨_, exec_queueStopped q st⟩
  | .movRetire p m, st, _ => ⟨_, exec_movRetire p m st⟩
  | .moverRetired m, st, _ => ⟨_, exec_moverRetired m st⟩
  | .dptDrain p mask, st, _ => ⟨_, exec_dptDrain p mask st⟩
  | .portIdle port, st, _ => ⟨_, exec_portIdle port st⟩
  | .moderationTimeout q, st, _ => ⟨_, exec_moderationTimeout q st⟩
  | .messageCoalesceEnd v, st, _ => ⟨_, exec_messageCoalesceEnd v st⟩
  | .domSleepWrite p j w, st, _ => ⟨_, exec_domSleepWrite p j w st⟩
  | .vecLoad p, st, _ => ⟨_, exec_vecLoad p st⟩
  | .vecStore p, st, _ => ⟨_, exec_vecStore p st⟩
  | .eventRingReturn d hdrDom size value, st, _ => ⟨_, exec_eventRingReturn d hdrDom size value st⟩
  | .moverHeartbeatTimeout m, st, _ => ⟨_, exec_moverHeartbeatTimeout m st⟩
  | .moverWatchdogTimeout m, st, _ => ⟨_, exec_moverWatchdogTimeout m st⟩
  | .movFail m cause, st, _ => ⟨_, exec_movFail m cause st⟩
  | .failoverResume q, st, _ => ⟨_, exec_failoverResume q st⟩
  | .portStuck port, st, _ => ⟨_, exec_portStuck port st⟩
  | .portLost port, st, _ => ⟨_, exec_portLost port st⟩
  | .portUp port, st, _ => ⟨_, exec_portUp port st⟩
  | .linkDown n cto, st, _ => ⟨_, exec_linkDown n cto st⟩
  | .linkUp n, st, _ => ⟨_, exec_linkUp n st⟩
  | .linkCtoRecovery n, st, _ => ⟨_, exec_linkCtoRecovery n st⟩
  | .contextScrub q tile r, st, _ => ⟨_, exec_contextScrub q tile r st⟩
  | .internal unit, st, _ => ⟨_, exec_internal unit st⟩
  | .slotPresenceAccepted s, st, _ => ⟨_, exec_slotPresenceAccepted s st⟩
  | .slotPresenceSeen s, st, _ => ⟨_, exec_slotPresenceSeen s st⟩
  | .slotAbsenceAccepted s, st, _ => ⟨_, exec_slotAbsenceAccepted s st⟩
  | .slotPgAccepted s, st, _ => ⟨_, exec_slotPgAccepted s st⟩
  | .slotPgLost s, st, _ => ⟨_, exec_slotPgLost s st⟩
  | .slotFaultInput s, st, _ => ⟨_, exec_slotFaultInput s st⟩
  | .slotRampTimeout s, st, _ => ⟨_, exec_slotRampTimeout s st⟩
  | .slotSettleDone s, st, _ => ⟨_, exec_slotSettleDone s st⟩
  | .slotTokenReadDone s r, st, _ => ⟨_, exec_slotTokenReadDone s r st⟩
  | .slotDischargeDone s, st, _ => ⟨_, exec_slotDischargeDone s st⟩
  | .passDamaged s, st, _ => ⟨_, exec_passDamaged s st⟩
  | .slotHoldExpiry s, st, _ => ⟨_, exec_slotHoldExpiry s st⟩
  | .sltOnWrite p s on, st, _ => ⟨_, exec_sltOnWrite p s on st⟩
  | .sltSvcClear p s, st, _ => ⟨_, exec_sltSvcClear p s st⟩
  | .sltSvcExpire p s, st, _ => ⟨_, exec_sltSvcExpire p s st⟩
  | .borageEpoch f, st, _ => ⟨_, exec_borageEpoch f st⟩
  | .supFreezeWrite p frozen, st, _ => ⟨_, exec_supFreezeWrite p frozen st⟩
  | .supRestore p, st, _ => ⟨_, exec_supRestore p st⟩
  | .supRingEnable p w, st, _ => ⟨_, exec_supRingEnable p w st⟩
  | .supRingRetWrite p w, st, _ => ⟨_, exec_supRingRetWrite p w st⟩
  | .tempSample i code, st, _ => ⟨_, exec_tempSample i code st⟩
  | .tempStale i, st, _ => ⟨_, exec_tempStale i st⟩
  | .thermalShed q, st, _ => ⟨_, exec_thermalShed q st⟩
  | .roWindow d count, st, _ => ⟨_, exec_roWindow d count st⟩
  | .roFastWindow d count, st, _ => ⟨_, exec_roFastWindow d count st⟩
  | .movSvcTest p m spare, st, _ => ⟨_, exec_movSvcTest p m spare st⟩
  | .movSvcPowerDown p m, st, _ => ⟨_, exec_movSvcPowerDown p m st⟩
  | .movSvcPowerUp p m spare, st, _ => ⟨_, exec_movSvcPowerUp p m spare st⟩
  | .moverSelftestDone m fail, st, _ => ⟨_, exec_moverSelftestDone m fail st⟩
  | .ctxwRebuildTest p bankB, st, _ => ⟨_, exec_ctxwRebuildTest p bankB st⟩
  | .ctxwRebuildCopy p bankB, st, _ => ⟨_, exec_ctxwRebuildCopy p bankB st⟩
  | .ctxwRebuildDone pass lost, st, _ => ⟨_, exec_ctxwRebuildDone pass lost st⟩
  | .powerAsk d retention, st, _ => ⟨_, exec_powerAsk d retention st⟩
  | .powerAckLost d, st, _ => ⟨_, exec_powerAckLost d st⟩
  | .inboundPacket port k, st, _ => ⟨_, exec_inboundPacket port k st⟩
  | .tunnelAccess port k, st, _ => ⟨_, exec_tunnelAccess port k st⟩
  | .relayWrite port k, st, _ => ⟨_, exec_relayWrite port k st⟩
  | .relayRingWrite port, st, _ => ⟨_, exec_relayRingWrite port st⟩
  | .slotSettleLinkTimeout s, st, _ => ⟨_, exec_slotSettleLinkTimeout s st⟩
  | .squareHalfFailure half, st, _ => ⟨_, exec_squareHalfFailure half st⟩
  | .squareHalfSelftestDone half mapped pass, st, _ => ⟨_, exec_squareHalfSelftestDone half mapped pass st⟩
  | .powerDownAck d, st, _ => ⟨_, exec_powerDownAck d st⟩
  | .dataCreditReturn port ch crd, st, _ => ⟨_, exec_dataCreditReturn port ch crd st⟩
  | .phaseTickEstimate u, st, _ => ⟨_, exec_phaseTickEstimate u st⟩

/-! ## Well-formedness, command by command -/

@[simp] theorem wf_powerOnReset : ∀ t, Instr.wf (.powerOnReset t) = ((t < 4 : Bool)) := by intros; rfl
@[simp] theorem wf_powerAck : ∀ d, Instr.wf (.powerAck d) = ((d < 26 : Bool)) := by intros; rfl
@[simp] theorem wf_pwrTimeout : ∀ d, Instr.wf (.pwrTimeout d) = ((d < 26 : Bool)) := by intros; rfl
@[simp] theorem wf_powerAckLost : ∀ d, Instr.wf (.powerAckLost d) = ((d < 26 : Bool)) := by intros; rfl
@[simp] theorem wf_powerDownAck : ∀ d, Instr.wf (.powerDownAck d) = ((d < 26 : Bool)) := by intros; rfl
@[simp] theorem wf_powerAsk : ∀ d x1, Instr.wf (.powerAsk d x1) = ((d < 26 : Bool)) := by intros; rfl
@[simp] theorem wf_registerWrite : ∀ x0 a be x3 r, Instr.wf (.registerWrite ⟨x0, r⟩ a be x3) = ((a < 2 ^ 20 && be < 256 && rivalWf r : Bool)) := by intros; rfl
@[simp] theorem wf_semAcquire : ∀ x0 n r, Instr.wf (.semAcquire ⟨x0, r⟩ n) = ((n < 64 && rivalWf r : Bool)) := by intros; rfl
@[simp] theorem wf_semRelease : ∀ x0 n, Instr.wf (.semRelease x0 n) = ((n < 64 : Bool)) := by intros; rfl
@[simp] theorem wf_semForce : ∀ x0 n, Instr.wf (.semForce x0 n) = ((n < 64 : Bool)) := by intros; rfl
@[simp] theorem wf_mbxSelWrite : ∀ x0 c i, Instr.wf (.mbxSelWrite x0 c i) = ((c < 256 && i < 2 ^ 18 : Bool)) := by intros; rfl
@[simp] theorem wf_evtStatRead : ∀ x0 g, Instr.wf (.evtStatRead x0 g) = ((g < 64 : Bool)) := by intros; rfl
@[simp] theorem wf_evtAck : ∀ x0 g q m, Instr.wf (.evtAck x0 g q m) = ((g < 64 && q < 256 && m < 2 ^ 16 : Bool)) := by intros; rfl
@[simp] theorem wf_updArm : ∀ x0 src u x3, Instr.wf (.updArm x0 src u x3) = ((src < 4 && u < 16 : Bool)) := by intros; rfl
@[simp] theorem wf_adminNudge : ∀ d x1 x2 v, Instr.wf (.adminNudge d x1 x2 v) = ((d < 256 && v < 2 ^ 32 : Bool)) := by intros; rfl
@[simp] theorem wf_adminCplReturn : ∀ d x1 x2 v, Instr.wf (.adminCplReturn d x1 x2 v) = ((d < 256 && v < 2 ^ 32 : Bool)) := by intros; rfl
@[simp] theorem wf_eventRingReturn : ∀ d x1 x2 v, Instr.wf (.eventRingReturn d x1 x2 v) = ((d < 256 && v < 2 ^ 32 : Bool)) := by intros; rfl
@[simp] theorem wf_adminPoll : ∀ d, Instr.wf (.adminPoll d) = ((d < 256 : Bool)) := by intros; rfl
@[simp] theorem wf_adminRingReadDone : ∀ d x1, Instr.wf (.adminRingReadDone d x1) = ((d < 256 : Bool)) := by intros; rfl
@[simp] theorem wf_createQueue : ∀ r, Instr.wf (.createQueue r) = ((r.wf : Bool)) := by intros; rfl
@[simp] theorem wf_destroyQueue : ∀ r, Instr.wf (.destroyQueue r) = ((r.wf : Bool)) := by intros; rfl
@[simp] theorem wf_modifyQueue : ∀ r, Instr.wf (.modifyQueue r) = ((r.wf : Bool)) := by intros; rfl
@[simp] theorem wf_stopQueue : ∀ r, Instr.wf (.stopQueue r) = ((r.wf : Bool)) := by intros; rfl
@[simp] theorem wf_resumeQueue : ∀ r, Instr.wf (.resumeQueue r) = ((r.wf : Bool)) := by intros; rfl
@[simp] theorem wf_pinQueue : ∀ r, Instr.wf (.pinQueue r) = ((r.wf : Bool)) := by intros; rfl
@[simp] theorem wf_unpinQueue : ∀ r, Instr.wf (.unpinQueue r) = ((r.wf : Bool)) := by intros; rfl
@[simp] theorem wf_queryQueue : ∀ r, Instr.wf (.queryQueue r) = ((r.wf : Bool)) := by intros; rfl
@[simp] theorem wf_createEventRing : ∀ r, Instr.wf (.createEventRing r) = ((r.wf : Bool)) := by intros; rfl
@[simp] theorem wf_destroyEventRing : ∀ r, Instr.wf (.destroyEventRing r) = ((r.wf : Bool)) := by intros; rfl
@[simp] theorem wf_adminNop : ∀ r, Instr.wf (.adminNop r) = ((r.wf : Bool)) := by intros; rfl
@[simp] theorem wf_stopDomain : ∀ r, Instr.wf (.stopDomain r) = ((r.wf : Bool)) := by intros; rfl
@[simp] theorem wf_resumeDomain : ∀ r, Instr.wf (.resumeDomain r) = ((r.wf : Bool)) := by intros; rfl
@[simp] theorem wf_stopMover : ∀ r, Instr.wf (.stopMover r) = ((r.wf : Bool)) := by intros; rfl
@[simp] theorem wf_resumeMover : ∀ r, Instr.wf (.resumeMover r) = ((r.wf : Bool)) := by intros; rfl
@[simp] theorem wf_stopPort : ∀ r, Instr.wf (.stopPort r) = ((r.wf : Bool)) := by intros; rfl
@[simp] theorem wf_resumePort : ∀ r, Instr.wf (.resumePort r) = ((r.wf : Bool)) := by intros; rfl
@[simp] theorem wf_stopInstance : ∀ r, Instr.wf (.stopInstance r) = ((r.wf : Bool)) := by intros; rfl
@[simp] theorem wf_resumeInstance : ∀ r, Instr.wf (.resumeInstance r) = ((r.wf : Bool)) := by intros; rfl
@[simp] theorem wf_setQuota : ∀ r, Instr.wf (.setQuota r) = ((r.wf : Bool)) := by intros; rfl
@[simp] theorem wf_resetDomain : ∀ r, Instr.wf (.resetDomain r) = ((r.wf : Bool)) := by intros; rfl
@[simp] theorem wf_contextWaitTimeout : ∀ r, Instr.wf (.contextWaitTimeout r) = ((r.wf : Bool)) := by intros; rfl
@[simp] theorem wf_nudge : ∀ q x1 x2 v, Instr.wf (.nudge q x1 x2 v) = ((q.wf && v < 2 ^ 32 : Bool)) := by intros; rfl
@[simp] theorem wf_pollDue : ∀ q, Instr.wf (.pollDue q) = ((q.wf : Bool)) := by intros; rfl
@[simp] theorem wf_localBufferFill : ∀ q, Instr.wf (.localBufferFill q) = ((q.wf : Bool)) := by intros; rfl
@[simp] theorem wf_chainTimeout : ∀ q, Instr.wf (.chainTimeout q) = ((q.wf : Bool)) := by intros; rfl
@[simp] theorem wf_bindQueue : ∀ q, Instr.wf (.bindQueue q) = ((q.wf : Bool)) := by intros; rfl
@[simp] theorem wf_bindIdle : ∀ q, Instr.wf (.bindIdle q) = ((q.wf : Bool)) := by intros; rfl
@[simp] theorem wf_spillDone : ∀ q, Instr.wf (.spillDone q) = ((q.wf : Bool)) := by intros; rfl
@[simp] theorem wf_refillDone : ∀ q x1, Instr.wf (.refillDone q x1) = ((q.wf : Bool)) := by intros; rfl
@[simp] theorem wf_backgroundAging : ∀ q, Instr.wf (.backgroundAging q) = ((q.wf : Bool)) := by intros; rfl
@[simp] theorem wf_stopPointReached : ∀ q, Instr.wf (.stopPointReached q) = ((q.wf : Bool)) := by intros; rfl
@[simp] theorem wf_stopPhaseReached : ∀ q, Instr.wf (.stopPhaseReached q) = ((q.wf : Bool)) := by intros; rfl
@[simp] theorem wf_queueStopped : ∀ q, Instr.wf (.queueStopped q) = ((q.wf : Bool)) := by intros; rfl
@[simp] theorem wf_moderationTimeout : ∀ q, Instr.wf (.moderationTimeout q) = ((q.wf : Bool)) := by intros; rfl
@[simp] theorem wf_failoverResume : ∀ q, Instr.wf (.failoverResume q) = ((q.wf : Bool)) := by intros; rfl
@[simp] theorem wf_thermalShed : ∀ q, Instr.wf (.thermalShed q) = ((q.wf : Bool)) := by intros; rfl
@[simp] theorem wf_contextScrub : ∀ q t x2, Instr.wf (.contextScrub q t x2) = ((q.wf && t < 2 : Bool)) := by intros; rfl
@[simp] theorem wf_ringTileArrival : ∀ p t g x3, Instr.wf (.ringTileArrival p t g x3) = ((p < 8 && t < 1024 && g < 4 : Bool)) := by intros; rfl
@[simp] theorem wf_flushReadCompletion : ∀ p t g x3, Instr.wf (.flushReadCompletion p t g x3) = ((p < 8 && t < 1024 && g < 4 : Bool)) := by intros; rfl
@[simp] theorem wf_entryStart : ∀ m b, Instr.wf (.entryStart m b) = ((m < 18 && b < 64 : Bool)) := by intros; rfl
@[simp] theorem wf_windowArm : ∀ m b, Instr.wf (.windowArm m b) = ((m < 18 && b < 64 : Bool)) := by intros; rfl
@[simp] theorem wf_windowOpen : ∀ m b, Instr.wf (.windowOpen m b) = ((m < 18 && b < 64 : Bool)) := by intros; rfl
@[simp] theorem wf_windowLate : ∀ m b, Instr.wf (.windowLate m b) = ((m < 18 && b < 64 : Bool)) := by intros; rfl
@[simp] theorem wf_phaseLostHalt : ∀ m b, Instr.wf (.phaseLostHalt m b) = ((m < 18 && b < 64 : Bool)) := by intros; rfl
@[simp] theorem wf_planArm : ∀ m b, Instr.wf (.planArm m b) = ((m < 18 && b < 64 : Bool)) := by intros; rfl
@[simp] theorem wf_snapTargetTimeout : ∀ m b, Instr.wf (.snapTargetTimeout m b) = ((m < 18 && b < 64 : Bool)) := by intros; rfl
@[simp] theorem wf_alignedTargetLaunch : ∀ m b i, Instr.wf (.alignedTargetLaunch m b i) = ((m < 18 && b < 64 && i < 64 : Bool)) := by intros; rfl
@[simp] theorem wf_readCompletion : ∀ p c x2, Instr.wf (.readCompletion p c x2) = ((p < 8 && c.wf : Bool)) := by intros; rfl
@[simp] theorem wf_readTimeoutSweep : ∀ p ts, Instr.wf (.readTimeoutSweep p ts) = ((p < 8 && ts.all (· < 1024) : Bool)) := by intros; rfl
@[simp] theorem wf_tagRejoin : ∀ p t, Instr.wf (.tagRejoin p t) = ((p < 8 && t < 1024 : Bool)) := by intros; rfl
@[simp] theorem wf_packetAccepted : ∀ p x1 x2, Instr.wf (.packetAccepted p x1 x2) = ((p < 8 : Bool)) := by intros; rfl
@[simp] theorem wf_portIdle : ∀ p, Instr.wf (.portIdle p) = ((p < 8 : Bool)) := by intros; rfl
@[simp] theorem wf_portStuck : ∀ p, Instr.wf (.portStuck p) = ((p < 8 : Bool)) := by intros; rfl
@[simp] theorem wf_portLost : ∀ p, Instr.wf (.portLost p) = ((p < 8 : Bool)) := by intros; rfl
@[simp] theorem wf_portUp : ∀ p, Instr.wf (.portUp p) = ((p < 8 : Bool)) := by intros; rfl
@[simp] theorem wf_relayRingWrite : ∀ p, Instr.wf (.relayRingWrite p) = ((p < 8 : Bool)) := by intros; rfl
@[simp] theorem wf_dataCreditReturn : ∀ p x1 x2, Instr.wf (.dataCreditReturn p x1 x2) = ((p < 8 : Bool)) := by intros; rfl
@[simp] theorem wf_tokenReturn : ∀ p t x2, Instr.wf (.tokenReturn p t x2) = ((p < 8 && t < 4096 : Bool)) := by intros; rfl
@[simp] theorem wf_tokenTimeout : ∀ p t, Instr.wf (.tokenTimeout p t) = ((p < 8 && t < 4096 : Bool)) := by intros; rfl
@[simp] theorem wf_phaseCount : ∀ u x1, Instr.wf (.phaseCount u x1) = ((u < 16 : Bool)) := by intros; rfl
@[simp] theorem wf_indexPulse : ∀ u x1, Instr.wf (.indexPulse ⟨u, x1⟩) = ((u < 16 : Bool)) := by intros; rfl
@[simp] theorem wf_phasePulse : ∀ u x1, Instr.wf (.phasePulse ⟨u, x1⟩) = ((u < 16 : Bool)) := by intros; rfl
@[simp] theorem wf_phaseLossTimeout : ∀ u, Instr.wf (.phaseLossTimeout u) = ((u < 16 : Bool)) := by intros; rfl
@[simp] theorem wf_coastLimitExpiry : ∀ u, Instr.wf (.coastLimitExpiry u) = ((u < 16 : Bool)) := by intros; rfl
@[simp] theorem wf_puRestart : ∀ x0 u, Instr.wf (.puRestart x0 u) = ((u < 16 : Bool)) := by intros; rfl
@[simp] theorem wf_phaseTickEstimate : ∀ u, Instr.wf (.phaseTickEstimate u) = ((u < 16 : Bool)) := by intros; rfl
@[simp] theorem wf_fabricTimeValid : ∀ t, Instr.wf (.fabricTimeValid t) = ((t < 2 ^ 64 : Bool)) := by intros; rfl
@[simp] theorem wf_latencyProbe : ∀ i, Instr.wf (.latencyProbe i) = ((i < 1024 : Bool)) := by intros; rfl
@[simp] theorem wf_latencyRecordAging : ∀ i x1, Instr.wf (.latencyRecordAging i x1) = ((i < 1024 : Bool)) := by intros; rfl
@[simp] theorem wf_latencyTrackingStop : ∀ i, Instr.wf (.latencyTrackingStop i) = ((i < 1024 : Bool)) := by intros; rfl
@[simp] theorem wf_tgtLatInval : ∀ x0 i, Instr.wf (.tgtLatInval x0 i) = ((i < 1024 : Bool)) := by intros; rfl
@[simp] theorem wf_rlCapture : ∀ n x1, Instr.wf (.rlCapture ⟨n, x1⟩) = ((n < 64 : Bool)) := by intros; rfl
@[simp] theorem wf_rlRelease : ∀ n x1, Instr.wf (.rlRelease ⟨n, x1⟩) = ((n < 64 : Bool)) := by intros; rfl
@[simp] theorem wf_rlHoldTimeout : ∀ n, Instr.wf (.rlHoldTimeout n) = ((n < 64 : Bool)) := by intros; rfl
@[simp] theorem wf_rlnClear : ∀ x0 n, Instr.wf (.rlnClear x0 n) = ((n < 64 : Bool)) := by intros; rfl
@[simp] theorem wf_rlnSwreq : ∀ x0 n, Instr.wf (.rlnSwreq x0 n) = ((n < 64 : Bool)) := by intros; rfl
@[simp] theorem wf_rlnModeWrite : ∀ x0 n w, Instr.wf (.rlnModeWrite x0 n w) = ((n < 64 && w.toNat < 2 ^ 32 : Bool)) := by intros; rfl
@[simp] theorem wf_captureConsumed : ∀ l, Instr.wf (.captureConsumed l) = ((l.wf : Bool)) := by intros; rfl
@[simp] theorem wf_rlnVrlRaise : ∀ x0 v n, Instr.wf (.rlnVrlRaise x0 v n) = ((v < 4096 && n < 256 : Bool)) := by intros; rfl
@[simp] theorem wf_vrlMessage : ∀ v x1 x2 x, Instr.wf (.vrlMessage v x1 x2 x) = ((v < 4096 && x < 2 ^ 32 : Bool)) := by intros; rfl
@[simp] theorem wf_sfEnable : ∀ x0 f x2, Instr.wf (.sfEnable x0 f x2) = ((f < 32 : Bool)) := by intros; rfl
@[simp] theorem wf_sfDisable : ∀ x0 f, Instr.wf (.sfDisable x0 f) = ((f < 32 : Bool)) := by intros; rfl
@[simp] theorem wf_sfCloseDone : ∀ f, Instr.wf (.sfCloseDone f) = ((f < 32 : Bool)) := by intros; rfl
@[simp] theorem wf_flush : ∀ x0 f, Instr.wf (.flush x0 f) = ((f < 32 : Bool)) := by intros; rfl
@[simp] theorem wf_dropRem : ∀ x0 f, Instr.wf (.dropRem x0 f) = ((f < 32 : Bool)) := by intros; rfl
@[simp] theorem wf_closeTail : ∀ x0 f, Instr.wf (.closeTail x0 f) = ((f < 32 : Bool)) := by intros; rfl
@[simp] theorem wf_staleTail : ∀ f, Instr.wf (.staleTail f) = ((f < 32 : Bool)) := by intros; rfl
@[simp] theorem wf_spWordIn : ∀ n w, Instr.wf (.spWordIn n w) = ((n < 8 && w.wf : Bool)) := by intros; rfl
@[simp] theorem wf_spWordOut : ∀ n d, Instr.wf (.spWordOut n d) = ((n < 8 : Bool)) := by intros; rfl
@[simp] theorem wf_spStall : ∀ n, Instr.wf (.spStall n) = ((n < 8 : Bool)) := by intros; rfl
@[simp] theorem wf_spClkMeasure : ∀ n x1, Instr.wf (.spClkMeasure n x1) = ((n < 8 : Bool)) := by intros; rfl
@[simp] theorem wf_movRetire : ∀ x0 m, Instr.wf (.movRetire x0 m) = ((m < 18 : Bool)) := by intros; rfl
@[simp] theorem wf_moverRetired : ∀ m, Instr.wf (.moverRetired m) = ((m < 18 : Bool)) := by intros; rfl
@[simp] theorem wf_moverHeartbeatTimeout : ∀ m, Instr.wf (.moverHeartbeatTimeout m) = ((m < 18 : Bool)) := by intros; rfl
@[simp] theorem wf_moverWatchdogTimeout : ∀ m, Instr.wf (.moverWatchdogTimeout m) = ((m < 18 : Bool)) := by intros; rfl
@[simp] theorem wf_movSvcTest : ∀ x0 m x2, Instr.wf (.movSvcTest x0 m x2) = ((m < 18 : Bool)) := by intros; rfl
@[simp] theorem wf_movSvcPowerDown : ∀ x0 m, Instr.wf (.movSvcPowerDown x0 m) = ((m < 18 : Bool)) := by intros; rfl
@[simp] theorem wf_movSvcPowerUp : ∀ x0 m x2, Instr.wf (.movSvcPowerUp x0 m x2) = ((m < 18 : Bool)) := by intros; rfl
@[simp] theorem wf_moverSelftestDone : ∀ m x1, Instr.wf (.moverSelftestDone m x1) = ((m < 18 : Bool)) := by intros; rfl
@[simp] theorem wf_movFail : ∀ m c, Instr.wf (.movFail m c) = ((m < 18 && c < 16 : Bool)) := by intros; rfl
@[simp] theorem wf_dptDrain : ∀ x0 k, Instr.wf (.dptDrain x0 k) = ((k < 256 : Bool)) := by intros; rfl
@[simp] theorem wf_messageCoalesceEnd : ∀ v, Instr.wf (.messageCoalesceEnd v) = ((v < 4096 : Bool)) := by intros; rfl
@[simp] theorem wf_domSleepWrite : ∀ x0 j x2, Instr.wf (.domSleepWrite x0 j x2) = ((j < 8 : Bool)) := by intros; rfl
@[simp] theorem wf_linkDown : ∀ n x1, Instr.wf (.linkDown n x1) = ((n < 40 : Bool)) := by intros; rfl
@[simp] theorem wf_linkUp : ∀ n, Instr.wf (.linkUp n) = ((n < 40 : Bool)) := by intros; rfl
@[simp] theorem wf_linkCtoRecovery : ∀ n, Instr.wf (.linkCtoRecovery n) = ((n < 40 : Bool)) := by intros; rfl
@[simp] theorem wf_internal : ∀ u, Instr.wf (.internal u) = ((u < 256 : Bool)) := by intros; rfl
@[simp] theorem wf_slotPresenceAccepted : ∀ s, Instr.wf (.slotPresenceAccepted s) = ((s < 32 : Bool)) := by intros; rfl
@[simp] theorem wf_slotPresenceSeen : ∀ s, Instr.wf (.slotPresenceSeen s) = ((s < 32 : Bool)) := by intros; rfl
@[simp] theorem wf_slotAbsenceAccepted : ∀ s, Instr.wf (.slotAbsenceAccepted s) = ((s < 32 : Bool)) := by intros; rfl
@[simp] theorem wf_slotPgAccepted : ∀ s, Instr.wf (.slotPgAccepted s) = ((s < 32 : Bool)) := by intros; rfl
@[simp] theorem wf_slotPgLost : ∀ s, Instr.wf (.slotPgLost s) = ((s < 32 : Bool)) := by intros; rfl
@[simp] theorem wf_slotFaultInput : ∀ s, Instr.wf (.slotFaultInput s) = ((s < 32 : Bool)) := by intros; rfl
@[simp] theorem wf_slotRampTimeout : ∀ s, Instr.wf (.slotRampTimeout s) = ((s < 32 : Bool)) := by intros; rfl
@[simp] theorem wf_slotSettleDone : ∀ s, Instr.wf (.slotSettleDone s) = ((s < 32 : Bool)) := by intros; rfl
@[simp] theorem wf_slotTokenReadDone : ∀ s x1, Instr.wf (.slotTokenReadDone s x1) = ((s < 32 : Bool)) := by intros; rfl
@[simp] theorem wf_slotDischargeDone : ∀ s, Instr.wf (.slotDischargeDone s) = ((s < 32 : Bool)) := by intros; rfl
@[simp] theorem wf_passDamaged : ∀ s, Instr.wf (.passDamaged s) = ((s < 32 : Bool)) := by intros; rfl
@[simp] theorem wf_slotHoldExpiry : ∀ s, Instr.wf (.slotHoldExpiry s) = ((s < 32 : Bool)) := by intros; rfl
@[simp] theorem wf_sltOnWrite : ∀ x0 s x2, Instr.wf (.sltOnWrite x0 s x2) = ((s < 32 : Bool)) := by intros; rfl
@[simp] theorem wf_sltSvcClear : ∀ x0 s, Instr.wf (.sltSvcClear x0 s) = ((s < 32 : Bool)) := by intros; rfl
@[simp] theorem wf_sltSvcExpire : ∀ x0 s, Instr.wf (.sltSvcExpire x0 s) = ((s < 32 : Bool)) := by intros; rfl
@[simp] theorem wf_slotSettleLinkTimeout : ∀ s, Instr.wf (.slotSettleLinkTimeout s) = ((s < 32 : Bool)) := by intros; rfl
@[simp] theorem wf_tempSample : ∀ i c, Instr.wf (.tempSample i c) = ((i < 4 && c < 1024 : Bool)) := by intros; rfl
@[simp] theorem wf_tempStale : ∀ i, Instr.wf (.tempStale i) = ((i < 4 : Bool)) := by intros; rfl
@[simp] theorem wf_roWindow : ∀ d c, Instr.wf (.roWindow d c) = ((d < 26 && c < 2 ^ 16 : Bool)) := by intros; rfl
@[simp] theorem wf_roFastWindow : ∀ d c, Instr.wf (.roFastWindow d c) = ((d < 26 && c < 2 ^ 16 : Bool)) := by intros; rfl
@[simp] theorem wf_inboundPacket : ∀ p k, Instr.wf (.inboundPacket p k) = ((p < 8 && k.wf : Bool)) := by intros; rfl
@[simp] theorem wf_tunnelAccess : ∀ p k, Instr.wf (.tunnelAccess p k) = ((p < 8 && k.wf : Bool)) := by intros; rfl
@[simp] theorem wf_relayWrite : ∀ p k, Instr.wf (.relayWrite p k) = ((p < 8 && k.wf : Bool)) := by intros; rfl
@[simp] theorem wf_squareHalfFailure : ∀ h, Instr.wf (.squareHalfFailure h) = ((h < 2 : Bool)) := by intros; rfl
@[simp] theorem wf_squareHalfSelftestDone : ∀ h m x2, Instr.wf (.squareHalfSelftestDone h m x2) = ((h < 2 && m.all (· < 16384) : Bool)) := by intros; rfl
@[simp] theorem wf_portReset : ∀ x0, Instr.wf (.portReset x0) = ((true : Bool)) := by intros; rfl
@[simp] theorem wf_clockMeasurement : ∀ x0 x1, Instr.wf (.clockMeasurement x0 x1) = ((true : Bool)) := by intros; rfl
@[simp] theorem wf_refclkLost : Instr.wf .refclkLost = ((true : Bool)) := rfl
@[simp] theorem wf_mgclkGap : Instr.wf .mgclkGap = ((true : Bool)) := rfl
@[simp] theorem wf_nvmSettleDone : Instr.wf .nvmSettleDone = ((true : Bool)) := rfl
@[simp] theorem wf_hdrReadDone : ∀ x0 x1, Instr.wf (.hdrReadDone x0 x1) = ((true : Bool)) := by intros; rfl
@[simp] theorem wf_hdrRetry : Instr.wf .hdrRetry = ((true : Bool)) := rfl
@[simp] theorem wf_verifyDone : ∀ x0 x1, Instr.wf (.verifyDone x0 x1) = ((true : Bool)) := by intros; rfl
@[simp] theorem wf_selftestDone : ∀ x0, Instr.wf (.selftestDone x0) = ((true : Bool)) := by intros; rfl
@[simp] theorem wf_applyDone : ∀ x0 x1, Instr.wf (.applyDone x0 x1) = ((true : Bool)) := by intros; rfl
@[simp] theorem wf_reload : ∀ x0, Instr.wf (.reload x0) = ((true : Bool)) := by intros; rfl
@[simp] theorem wf_warm : ∀ x0, Instr.wf (.warm x0) = ((true : Bool)) := by intros; rfl
@[simp] theorem wf_warmRestartDone : ∀ x0, Instr.wf (.warmRestartDone x0) = ((true : Bool)) := by intros; rfl
@[simp] theorem wf_nvRead : ∀ x0 x1, Instr.wf (.nvRead x0 x1) = ((true : Bool)) := by intros; rfl
@[simp] theorem wf_nvErase : ∀ x0, Instr.wf (.nvErase x0) = ((true : Bool)) := by intros; rfl
@[simp] theorem wf_nvProgram : ∀ x0, Instr.wf (.nvProgram x0) = ((true : Bool)) := by intros; rfl
@[simp] theorem wf_nvStatusPoll : ∀ x0 x1, Instr.wf (.nvStatusPoll x0 x1) = ((true : Bool)) := by intros; rfl
@[simp] theorem wf_keyUnlock : ∀ x0 x1, Instr.wf (.keyUnlock x0 x1) = ((true : Bool)) := by intros; rfl
@[simp] theorem wf_keyUnlockLapse : ∀ x0, Instr.wf (.keyUnlockLapse x0) = ((true : Bool)) := by intros; rfl
@[simp] theorem wf_mbxCapture : ∀ x0, Instr.wf (.mbxCapture x0) = ((true : Bool)) := by intros; rfl
@[simp] theorem wf_mbxBackingReadDone : ∀ x0 x1, Instr.wf (.mbxBackingReadDone x0 x1) = ((true : Bool)) := by intros; rfl
@[simp] theorem wf_mbxTimeout : ∀ x0, Instr.wf (.mbxTimeout x0) = ((true : Bool)) := by intros; rfl
@[simp] theorem wf_mbxLastWordRead : ∀ x0, Instr.wf (.mbxLastWordRead x0) = ((true : Bool)) := by intros; rfl
@[simp] theorem wf_updGo : ∀ x0, Instr.wf (.updGo x0) = ((true : Bool)) := by intros; rfl
@[simp] theorem wf_updStbIn : Instr.wf .updStbIn = ((true : Bool)) := rfl
@[simp] theorem wf_updStrobeMsg : ∀ x0 x1, Instr.wf (.updStrobeMsg x0 x1) = ((true : Bool)) := by intros; rfl
@[simp] theorem wf_updPhasePoint : Instr.wf .updPhasePoint = ((true : Bool)) := rfl
@[simp] theorem wf_updTimeout : Instr.wf .updTimeout = ((true : Bool)) := rfl
@[simp] theorem wf_mgSubmit : ∀ x0 x1, Instr.wf (.mgSubmit x0 x1) = ((true : Bool)) := by intros; rfl
@[simp] theorem wf_mgPop : ∀ x0 x1, Instr.wf (.mgPop x0 x1) = ((true : Bool)) := by intros; rfl
@[simp] theorem wf_bindPreempt : Instr.wf .bindPreempt = ((true : Bool)) := rfl
@[simp] theorem wf_vecLoad : ∀ x0, Instr.wf (.vecLoad x0) = ((true : Bool)) := by intros; rfl
@[simp] theorem wf_vecStore : ∀ x0, Instr.wf (.vecStore x0) = ((true : Bool)) := by intros; rfl
@[simp] theorem wf_borageEpoch : ∀ f, Instr.wf (.borageEpoch f) = ((true : Bool)) := by intros; rfl
@[simp] theorem wf_supFreezeWrite : ∀ x0 x1, Instr.wf (.supFreezeWrite x0 x1) = ((true : Bool)) := by intros; rfl
@[simp] theorem wf_supRestore : ∀ x0, Instr.wf (.supRestore x0) = ((true : Bool)) := by intros; rfl
@[simp] theorem wf_supRingEnable : ∀ x0 x1, Instr.wf (.supRingEnable x0 x1) = ((true : Bool)) := by intros; rfl
@[simp] theorem wf_supRingRetWrite : ∀ x0 x1, Instr.wf (.supRingRetWrite x0 x1) = ((true : Bool)) := by intros; rfl
@[simp] theorem wf_ctxwRebuildTest : ∀ x0 x1, Instr.wf (.ctxwRebuildTest x0 x1) = ((true : Bool)) := by intros; rfl
@[simp] theorem wf_ctxwRebuildCopy : ∀ x0 x1, Instr.wf (.ctxwRebuildCopy x0 x1) = ((true : Bool)) := by intros; rfl
@[simp] theorem wf_ctxwRebuildDone : ∀ x0 x1, Instr.wf (.ctxwRebuildDone x0 x1) = ((true : Bool)) := by intros; rfl
@[simp] theorem wf_refclkReturn : Instr.wf .refclkReturn = ((true : Bool)) := rfl

end Sys2Proof.Machine
end

