-- ==== Sys2Proof/Laws/Rows.lean ====
section
/-! SUPPORT. The rows that are one register write: each is the effect of its register on the block, and the port's answer. -/

namespace Sys2Proof.Machine
open Sys2Proof

set_option linter.unusedSimpArgs false

/-! ## The word a register acts on -/

theorem Fields.testBit_word (f : Fields) (old v i : Nat) (hr : f.rw < 2 ^ 32)
    (hk : Nat.lor f.imm (Nat.lor f.key f.sqc) < 2 ^ 32) :
    (f.word old v).testBit i = if f.rw.testBit i || (Nat.lor f.imm (Nat.lor f.key f.sqc)).testBit i then v.testBit i
      else (old.testBit i && decide (i < 32)) := by
  have a : ∀ m, m < 2 ^ 32 → Nat.land m (laneMask 15) = m := fun m h => land_lanes m h
  unfold Fields.word
  rw [a _ hr, a _ hk, testBit_mergeBits _ _ _ _ hk, testBit_mergeBits _ _ _ _ hr]
  have lt : ∀ m : Nat, m < 2 ^ 32 → m.testBit i = true → i < 32 := by
    intro m hm h
    refine Nat.lt_of_not_le fun hn => ?_
    rw [Nat.testBit_lt_two_pow (Nat.lt_of_lt_of_le hm (Nat.pow_le_pow_right (by omega : 0 < 2) hn))] at h; cases h
  generalize hK : Nat.lor f.imm (Nat.lor f.key f.sqc) = K at hk ⊢
  cases h : K.testBit i
  · cases h2 : f.rw.testBit i
    · simp only [Bool.or_self, if_false, Bool.false_eq_true]
      by_cases h3 : i < 32 <;> simp [h3]
    · simp [lt _ hr h2]
  · simp

/-- Bits of the register's writable fields read what was written. -/
theorem Fields.bits_word (f : Fields) (old v hi lo : Nat) (hr : f.rw < 2 ^ 32)
    (hk : Nat.lor f.imm (Nat.lor f.key f.sqc) < 2 ^ 32)
    (hc : ∀ i, i < hi - lo + 1 → (f.rw.testBit (lo + i) || (Nat.lor f.imm (Nat.lor f.key f.sqc)).testBit (lo + i)) = true) :
    bits (f.word old v) hi lo = bits v hi lo := by
  apply Nat.eq_of_testBit_eq
  intro i
  rw [testBit_bits, testBit_bits]
  by_cases h : i < hi - lo + 1
  · rw [Fields.testBit_word f old v _ hr hk, if_pos (hc i h)]
  · simp [h]

theorem Fields.bit_word (f : Fields) (old v i : Nat) (hr : f.rw < 2 ^ 32)
    (hk : Nat.lor f.imm (Nat.lor f.key f.sqc) < 2 ^ 32)
    (hc : (f.rw.testBit i || (Nat.lor f.imm (Nat.lor f.key f.sqc)).testBit i) = true) :
    bit (f.word old v) i = bit v i := by
  rw [bit_eq_testBit, bit_eq_testBit, Fields.testBit_word f old v _ hr hk, if_pos hc]

/-- Replacing one of the two highest bits of a word leaves a word. -/
theorem put_bit_lt (K r v : Nat) (h : r < 4 * K) (hv : v < 2) : r - r / K % 2 * K + v * K < 4 * K := by
  have e := Nat.div_add_mod r K
  have k : 0 < K := by omega
  have m := Nat.mod_lt r k
  have q : r / K < 4 := Nat.div_lt_of_lt_mul (by rw [Nat.mul_comm]; exact h)
  generalize r / K = q' at *
  generalize r % K = r' at *
  rw [Nat.mul_comm] at e
  subst e
  rcases v with _ | _ | _
  · match q', q with
    | 0, _ | 1, _ | 2, _ | 3, _ => simp at * <;> omega
  · match q', q with
    | 0, _ | 1, _ | 2, _ | 3, _ => simp at * <;> omega
  · omega

theorem putBits_lt (r v : Nat) (hr : r < 2^32) : putBits r 30 30 v < 2 ^ 32 :=
  put_bit_lt (2 ^ 30) r (v % 2) hr (Nat.mod_lt _ (by decide))

/-! ## The registers -/

theorem plain_ldrCmd : Plain 0x04004 { key := 0xFF } := ⟨by decide, by decide, by decide, by decide, by decide⟩
theorem plain_updCtrl : Plain 0x07000 { rw := 0x1F7 } := ⟨by decide, by decide, by decide, by decide, by decide⟩
theorem plain_updGo : Plain 0x07004 { imm := 1 } := ⟨by decide, by decide, by decide, by decide, by decide⟩
theorem plain_lnInval : Plain 0x15018 { imm := 0x3FF } := ⟨by decide, by decide, by decide, by decide, by decide⟩
theorem plain_rlnClear : Plain 0x0E304 { imm := 0x3F } := ⟨by decide, by decide, by decide, by decide, by decide⟩
theorem plain_rlnSwreq : Plain 0x0E308 { imm := 0x3F } := ⟨by decide, by decide, by decide, by decide, by decide⟩
theorem plain_vrlRaise : Plain 0x0E30C { imm := 0xFF0FFF } := ⟨by decide, by decide, by decide, by decide, by decide⟩
theorem plain_movCtrl : Plain 0x11208 { key := 0x11F } := ⟨by decide, by decide, by decide, by decide, by decide⟩
theorem plain_movSvc : Plain 0x11214 { key := 0x131F } := ⟨by decide, by decide, by decide, by decide, by decide⟩
theorem plain_dptDrain : Plain 0x12320 { key := 0xFF } := ⟨by decide, by decide, by decide, by decide, by decide⟩
theorem plain_ctxwRebuild : Plain 0x13008 { key := 0x301 } := ⟨by decide, by decide, by decide, by decide, by decide⟩
theorem plain_supFreeze : Plain 0x14004 { key := 3 } := ⟨by decide, by decide, by decide, by decide, by decide⟩
theorem plain_supRingCfg : Plain 0x14014 { rw := 0x80FF001F } := ⟨by decide, by decide, by decide, by decide, by decide⟩
theorem plain_supRingRet : Plain 0x14018 { rw := 0x1FFFF } := ⟨by decide, by decide, by decide, by decide, by decide⟩
theorem plain_vecCmd : Plain 0x0B014 { imm := 3 } := ⟨by decide, by decide, by decide, by decide, by decide⟩
theorem plain_sltSvc : Plain 0x05304 { key := 0xFF1F } := ⟨by decide, by decide, by decide, by decide, by decide⟩
theorem plain_mgaSubmit : Plain 0x06040 { imm := 1 } := ⟨by decide, by decide, by decide, by decide, by decide⟩
theorem plain_mgbSubmit : Plain 0x060C0 { imm := 1 } := ⟨by decide, by decide, by decide, by decide, by decide⟩
theorem plain_mgaPop : Plain 0x06058 { imm := 1 } := ⟨by decide, by decide, by decide, by decide, by decide⟩
theorem plain_mgbPop : Plain 0x060D8 { imm := 1 } := ⟨by decide, by decide, by decide, by decide, by decide⟩
theorem plain_rlnCfg (n : Nat) (h : n < 64) : Plain (0x0E000 + 4 * n) { rw := 0xFFFFF00F } := by
  have k : ∀ n, n < 64 → ((0x0E000 + 4 * n) % 4 = 0 ∧ 0x0E000 + 4 * n < 2 ^ 20 ∧ decodeAddr (0x0E000 + 4 * n) = (0x0E000 + 4 * n, 0)
      ∧ pageCode ((0x0E000 + 4 * n) / 0x1000) ≠ 0xE) ∧ regFields (0x0E000 + 4 * n) = some { rw := 0xFFFFF00F } := by decide
  exact ⟨(k n h).1.1, (k n h).1.2.1, (k n h).1.2.2.1, (k n h).1.2.2.2, (k n h).2⟩

theorem plain_sfCfg (n : Nat) (h : n < 32) : Plain (0x0F000 + 32 * n) { rw := 0x80FF1FFF } := by
  have k : ∀ n, n < 32 → ((0x0F000 + 32 * n) % 4 = 0 ∧ 0x0F000 + 32 * n < 2 ^ 20 ∧ decodeAddr (0x0F000 + 32 * n) = (0x0F000 + 32 * n, 0)
      ∧ pageCode ((0x0F000 + 32 * n) / 0x1000) ≠ 0xE) ∧ regFields (0x0F000 + 32 * n) = some { rw := 0x80FF1FFF } := by decide
  exact ⟨(k n h).1.1, (k n h).1.2.1, (k n h).1.2.2.1, (k n h).1.2.2.2, (k n h).2⟩

theorem plain_sfCmd (n : Nat) (h : n < 32) : Plain (0x0F010 + 32 * n) { imm := 0x80000007 } := by
  have k : ∀ n, n < 32 → ((0x0F010 + 32 * n) % 4 = 0 ∧ 0x0F010 + 32 * n < 2 ^ 20 ∧ decodeAddr (0x0F010 + 32 * n) = (0x0F010 + 32 * n, 0)
      ∧ pageCode ((0x0F010 + 32 * n) / 0x1000) ≠ 0xE) ∧ regFields (0x0F010 + 32 * n) = some { imm := 0x80000007 } := by decide
  exact ⟨(k n h).1.1, (k n h).1.2.1, (k n h).1.2.2.1, (k n h).1.2.2.2, (k n h).2⟩

theorem plain_domSleep (n : Nat) (h : n < 8) : Plain (0x0B020 + 4 * n) { rw := allBits } := by
  have k : ∀ n, n < 8 → ((0x0B020 + 4 * n) % 4 = 0 ∧ 0x0B020 + 4 * n < 2 ^ 20 ∧ decodeAddr (0x0B020 + 4 * n) = (0x0B020 + 4 * n, 0)
      ∧ pageCode ((0x0B020 + 4 * n) / 0x1000) ≠ 0xE) ∧ regFields (0x0B020 + 4 * n) = some { rw := allBits } := by decide
  exact ⟨(k n h).1.1, (k n h).1.2.1, (k n h).1.2.2.1, (k n h).1.2.2.2, (k n h).2⟩

theorem plain_sltCfg (n : Nat) (h : n < 32) : Plain (0x05000 + 4 * n) { rw := 0x20FF0000, key := 0x40000000 } := by
  have k : ∀ n, n < 32 → ((0x05000 + 4 * n) % 4 = 0 ∧ 0x05000 + 4 * n < 2 ^ 20 ∧ decodeAddr (0x05000 + 4 * n) = (0x05000 + 4 * n, 0)
      ∧ pageCode ((0x05000 + 4 * n) / 0x1000) ≠ 0xE) ∧ regFields (0x05000 + 4 * n) = some { rw := 0x20FF0000, key := 0x40000000 } := by decide
  exact ⟨(k n h).1.1, (k n h).1.2.1, (k n h).1.2.2.1, (k n h).1.2.2.2, (k n h).2⟩

/-- PU_CFG in the set view (R56). -/
theorem seen_puSet (u : Nat) (h : u < 16) : Seen (0x0D400 + 0x40 * u) (0x0D000 + 0x40 * u) 1 { imm := 0x1000, shd := 0xF37 } := by
  have k : ∀ u, u < 16 → ((0x0D400 + 0x40 * u) % 4 = 0 ∧ 0x0D400 + 0x40 * u < 2 ^ 20
      ∧ decodeAddr (0x0D400 + 0x40 * u) = (0x0D000 + 0x40 * u, 1) ∧ pageCode ((0x0D400 + 0x40 * u) / 0x1000) ≠ 0xE)
      ∧ regFields (0x0D000 + 0x40 * u) = some { imm := 0x1000, shd := 0xF37 } ∧ aliasBad (0x0D400 + 0x40 * u) = false := by decide
  exact ⟨(k u h).1.1, (k u h).1.2.1, (k u h).1.2.2.1, (k u h).1.2.2.2, (k u h).2.1, (k u h).2.2⟩

/-- SF_CFG in the clear view (R56). -/
theorem seen_sfClear (f : Nat) (h : f < 32) : Seen (0x0F800 + 0x20 * f) (0x0F000 + 0x20 * f) 2 { rw := 0x80FF1FFF } := by
  have k : ∀ f, f < 32 → ((0x0F800 + 0x20 * f) % 4 = 0 ∧ 0x0F800 + 0x20 * f < 2 ^ 20
      ∧ decodeAddr (0x0F800 + 0x20 * f) = (0x0F000 + 0x20 * f, 2) ∧ pageCode ((0x0F800 + 0x20 * f) / 0x1000) ≠ 0xE)
      ∧ regFields (0x0F000 + 0x20 * f) = some { rw := 0x80FF1FFF } ∧ aliasBad (0x0F800 + 0x20 * f) = false := by decide
  exact ⟨(k f h).1.1, (k f h).1.2.1, (k f h).1.2.2.1, (k f h).1.2.2.2, (k f h).2.1, (k f h).2.2⟩

/-! ## The rows -/

variable (s : State) (p : MPort)

theorem row_reload  (ht : s.testMode = 0) (hl : s.core.ldr.state ≠ .reload)  (ho : s.core.Open p 0x04004) (hk : s.core.Keyed p) :
    Does (.reload p) s (((s.core.selected p).ldrCmd (mportCode p) 0x01 none).answered p 0#64) := by
  unfold Does
  rw [exec_reload]
  have hb : ∀ old, bits (Fields.word { key := 0xFF } old 0x01) 7 0 = 0x01 := by
    intro old
    rw [Fields.bits_word _ _ _ _ _ (by decide) (by decide) (by decide)]
    unfold bits; omega
  refine runAccess_effect _ s p _ _ _ _ ht rfl plain_ldrCmd ho (by decide) (by decide) (.inr hk) (by omega) ?_ hl
  have hsf : s.core.storedFor p 0x04004 = s.core.reg 0x04004 := by unfold Blk.storedFor; rw [if_neg (by decide)]
  have hd : decide (0 < (s.core.side p).remain) = true := decide_eq_true hk
  rw [hsf, hd]
  unfold Blk.toShadow Blk.effect
  simp only [show (0x04004 : Nat) / 0x1000 = 4 from by decide, show (0x04004 : Nat) % 0x1000 = 4 from by decide, Nat.reduceLT, Nat.reduceLeDiff, Nat.reduceEqDiff, Nat.reduceMod, reduceIte, Nat.reduceMul, Nat.reduceAdd, and_true, and_false, if_true, if_false]
  rw [hb]
theorem row_warm  (ht : s.testMode = 0) (hl : s.core.ldr.state ≠ .reload)  (ho : s.core.Open p 0x04004) (hk : s.core.Keyed p) :
    Does (.warm p) s (((s.core.selected p).ldrCmd (mportCode p) 0x02 none).answered p 0#64) := by
  unfold Does
  rw [exec_warm]
  have hb : ∀ old, bits (Fields.word { key := 0xFF } old 0x02) 7 0 = 0x02 := by
    intro old
    rw [Fields.bits_word _ _ _ _ _ (by decide) (by decide) (by decide)]
    unfold bits; omega
  refine runAccess_effect _ s p _ _ _ _ ht rfl plain_ldrCmd ho (by decide) (by decide) (.inr hk) (by omega) ?_ hl
  have hsf : s.core.storedFor p 0x04004 = s.core.reg 0x04004 := by unfold Blk.storedFor; rw [if_neg (by decide)]
  have hd : decide (0 < (s.core.side p).remain) = true := decide_eq_true hk
  rw [hsf, hd]
  unfold Blk.toShadow Blk.effect
  simp only [show (0x04004 : Nat) / 0x1000 = 4 from by decide, show (0x04004 : Nat) % 0x1000 = 4 from by decide, Nat.reduceLT, Nat.reduceLeDiff, Nat.reduceEqDiff, Nat.reduceMod, reduceIte, Nat.reduceMul, Nat.reduceAdd, and_true, and_false, if_true, if_false]
  rw [hb]
theorem row_nvErase  (ht : s.testMode = 0) (hl : s.core.ldr.state ≠ .reload)  (ho : s.core.Open p 0x04004) (hk : s.core.Keyed p) :
    Does (.nvErase p) s (((s.core.selected p).ldrCmd (mportCode p) 0x11 none).answered p 0#64) := by
  unfold Does
  rw [exec_nvErase]
  have hb : ∀ old, bits (Fields.word { key := 0xFF } old 0x11) 7 0 = 0x11 := by
    intro old
    rw [Fields.bits_word _ _ _ _ _ (by decide) (by decide) (by decide)]
    unfold bits; omega
  refine runAccess_effect _ s p _ _ _ _ ht rfl plain_ldrCmd ho (by decide) (by decide) (.inr hk) (by omega) ?_ hl
  have hsf : s.core.storedFor p 0x04004 = s.core.reg 0x04004 := by unfold Blk.storedFor; rw [if_neg (by decide)]
  have hd : decide (0 < (s.core.side p).remain) = true := decide_eq_true hk
  rw [hsf, hd]
  unfold Blk.toShadow Blk.effect
  simp only [show (0x04004 : Nat) / 0x1000 = 4 from by decide, show (0x04004 : Nat) % 0x1000 = 4 from by decide, Nat.reduceLT, Nat.reduceLeDiff, Nat.reduceEqDiff, Nat.reduceMod, reduceIte, Nat.reduceMul, Nat.reduceAdd, and_true, and_false, if_true, if_false]
  rw [hb]
theorem row_nvProgram  (ht : s.testMode = 0) (hl : s.core.ldr.state ≠ .reload)  (ho : s.core.Open p 0x04004) (hk : s.core.Keyed p) :
    Does (.nvProgram p) s (((s.core.selected p).ldrCmd (mportCode p) 0x12 none).answered p 0#64) := by
  unfold Does
  rw [exec_nvProgram]
  have hb : ∀ old, bits (Fields.word { key := 0xFF } old 0x12) 7 0 = 0x12 := by
    intro old
    rw [Fields.bits_word _ _ _ _ _ (by decide) (by decide) (by decide)]
    unfold bits; omega
  refine runAccess_effect _ s p _ _ _ _ ht rfl plain_ldrCmd ho (by decide) (by decide) (.inr hk) (by omega) ?_ hl
  have hsf : s.core.storedFor p 0x04004 = s.core.reg 0x04004 := by unfold Blk.storedFor; rw [if_neg (by decide)]
  have hd : decide (0 < (s.core.side p).remain) = true := decide_eq_true hk
  rw [hsf, hd]
  unfold Blk.toShadow Blk.effect
  simp only [show (0x04004 : Nat) / 0x1000 = 4 from by decide, show (0x04004 : Nat) % 0x1000 = 4 from by decide, Nat.reduceLT, Nat.reduceLeDiff, Nat.reduceEqDiff, Nat.reduceMod, reduceIte, Nat.reduceMul, Nat.reduceAdd, and_true, and_false, if_true, if_false]
  rw [hb]
theorem row_nvRead (data : List Byte) (ht : s.testMode = 0) (hl : s.core.ldr.state ≠ .reload)  (ho : s.core.Open p 0x04004) (hk : s.core.Keyed p) :
    Does (.nvRead p data) s (((s.core.selected p).ldrCmd (mportCode p) 0x10 (some data)).answered p 0#64) := by
  unfold Does
  rw [exec_nvRead]
  have hb : ∀ old, bits (Fields.word { key := 0xFF } old 0x10) 7 0 = 0x10 := by
    intro old
    rw [Fields.bits_word _ _ _ _ _ (by decide) (by decide) (by decide)]
    unfold bits; omega
  refine runAccess_flash _ s _ p _ _ _ _ _ rfl ht rfl plain_ldrCmd ho (by decide) (by decide) (.inr hk) (by omega) ?_ hl
  have hsf : s.core.storedFor p 0x04004 = s.core.reg 0x04004 := by unfold Blk.storedFor; rw [if_neg (by decide)]
  have hd : decide (0 < (s.core.side p).remain) = true := decide_eq_true hk
  rw [hsf, hd]
  unfold Blk.toShadow Blk.effect
  simp only [show (0x04004 : Nat) / 0x1000 = 4 from by decide, show (0x04004 : Nat) % 0x1000 = 4 from by decide, Nat.reduceLT, Nat.reduceLeDiff, Nat.reduceEqDiff, Nat.reduceMod, reduceIte, Nat.reduceMul, Nat.reduceAdd, and_true, and_false, if_true, if_false]
  rw [hb]
theorem row_updArm (source pu : Nat) (driveOut : Bool) (hs : s.Serves) (h1 : source < 4) (h2 : pu < 16) (ho : s.core.Open p 0x07000)  :
    Does (.updArm p source pu driveOut) s (((s.core.selected p).updCtrlWrite (Fields.word { rw := 0x1F7 } (s.core.reg 0x07000) (b1 driveOut * 256 + pu * 16 + 4 + source)) true).answered p 0#64) := by
  unfold Does
  rw [exec_updArm]
  have hv : b1 driveOut * 256 + pu * 16 + 4 + source < 512 := by unfold b1; split <;> omega
  refine runAccess_effect _ s p _ _ _ _ hs.1 (by simp [h1, h2]) plain_updCtrl ho (by decide) (by decide) (.inl rfl) (by omega) ?_ (by rw [hs.2]; decide)
  have hsf : s.core.storedFor p 0x07000 = s.core.reg 0x07000 := by unfold Blk.storedFor; rw [if_neg (by decide)]
  rw [hsf]
  unfold Blk.toShadow Blk.effect
  simp only [show (0x07000 : Nat) / 0x1000 = 7 from by decide, show (0x07000 : Nat) % 0x1000 = 0 from by decide, Nat.reduceLT, Nat.reduceLeDiff, Nat.reduceEqDiff, Nat.reduceMod, reduceIte, Nat.reduceMul, Nat.reduceAdd, and_true, and_false, if_true, if_false]

theorem row_updGo  (hs : s.Serves)  (ho : s.core.Open p 0x07004)  :
    Does (.updGo p) s ((if (s.core.selected p).stbSource == 0 then (s.core.selected p).strobe else s.core.selected p).answered p 0#64) := by
  unfold Does
  rw [exec_updGo]
  refine runAccess_effect _ s p _ _ _ _ hs.1 rfl plain_updGo ho (by decide) (by decide) (.inl rfl) (by omega) ?_ (by rw [hs.2]; decide)
  have hsf : s.core.storedFor p 0x07004 = s.core.reg 0x07004 := by unfold Blk.storedFor; rw [if_neg (by decide)]
  rw [hsf]
  unfold Blk.toShadow Blk.effect
  simp only [show (0x07004 : Nat) / 0x1000 = 7 from by decide, show (0x07004 : Nat) % 0x1000 = 4 from by decide, Nat.reduceLT, Nat.reduceLeDiff, Nat.reduceEqDiff, Nat.reduceMod, reduceIte, Nat.reduceMul, Nat.reduceAdd, and_true, and_false, if_true, if_false]
  unfold Blk.updGoWrite
  rw [Fields.bit_word _ _ _ _ (by decide) (by decide) (by decide)]
  rfl
theorem row_tgtLatInval (i : Nat) (hs : s.Serves) (h1 : i < 1024) (ho : s.core.Open p 0x15018)  :
    Does (.tgtLatInval p i) s (((s.core.selected p).modLat i LatRec.invalidate).answered p 0#64) := by
  unfold Does
  rw [exec_tgtLatInval]
  have hb : ∀ old, bits (Fields.word { imm := 0x3FF } old i) 9 0 = i := by
    intro old
    rw [Fields.bits_word _ _ _ _ _ (by decide) (by decide) (by decide)]
    unfold bits; omega
  refine runAccess_effect _ s p _ _ _ _ hs.1 (by simp [h1]) plain_lnInval ho (by decide) (by decide) (.inl rfl) (by omega) ?_ (by rw [hs.2]; decide)
  have hsf : s.core.storedFor p 0x15018 = s.core.reg 0x15018 := by unfold Blk.storedFor; rw [if_neg (by decide)]
  rw [hsf]
  unfold Blk.toShadow Blk.effect
  simp only [show (0x15018 : Nat) / 0x1000 = 21 from by decide, show (0x15018 : Nat) % 0x1000 = 24 from by decide, Nat.reduceLT, Nat.reduceLeDiff, Nat.reduceEqDiff, Nat.reduceMod, reduceIte, Nat.reduceMul, Nat.reduceAdd, and_true, and_false, if_true, if_false]
  rw [hb]
theorem row_rlnClear (n : Nat) (hs : s.Serves) (h1 : n < 64) (ho : s.core.Open p 0x0E304)  :
    Does (.rlnClear p n) s (((s.core.selected p).rlClear n).answered p 0#64) := by
  unfold Does
  rw [exec_rlnClear]
  have hb : ∀ old, bits (Fields.word { imm := 0x3F } old n) 5 0 = n := by
    intro old
    rw [Fields.bits_word _ _ _ _ _ (by decide) (by decide) (by decide)]
    unfold bits; omega
  refine runAccess_effect _ s p _ _ _ _ hs.1 (by simp [h1]) plain_rlnClear ho (by decide) (by decide) (.inl rfl) (by omega) ?_ (by rw [hs.2]; decide)
  have hsf : s.core.storedFor p 0x0E304 = s.core.reg 0x0E304 := by unfold Blk.storedFor; rw [if_neg (by decide)]
  rw [hsf]
  unfold Blk.toShadow Blk.effect
  simp only [show (0x0E304 : Nat) / 0x1000 = 14 from by decide, show (0x0E304 : Nat) % 0x1000 = 772 from by decide, Nat.reduceLT, Nat.reduceLeDiff, Nat.reduceEqDiff, Nat.reduceMod, reduceIte, Nat.reduceMul, Nat.reduceAdd, and_true, and_false, if_true, if_false]
  rw [hb]
theorem row_rlnSwreq (n : Nat) (hs : s.Serves) (h1 : n < 64) (ho : s.core.Open p 0x0E308)  :
    Does (.rlnSwreq p n) s (((s.core.selected p).rlSwreq n).answered p 0#64) := by
  unfold Does
  rw [exec_rlnSwreq]
  have hb : ∀ old, bits (Fields.word { imm := 0x3F } old n) 5 0 = n := by
    intro old
    rw [Fields.bits_word _ _ _ _ _ (by decide) (by decide) (by decide)]
    unfold bits; omega
  refine runAccess_effect _ s p _ _ _ _ hs.1 (by simp [h1]) plain_rlnSwreq ho (by decide) (by decide) (.inl rfl) (by omega) ?_ (by rw [hs.2]; decide)
  have hsf : s.core.storedFor p 0x0E308 = s.core.reg 0x0E308 := by unfold Blk.storedFor; rw [if_neg (by decide)]
  rw [hsf]
  unfold Blk.toShadow Blk.effect
  simp only [show (0x0E308 : Nat) / 0x1000 = 14 from by decide, show (0x0E308 : Nat) % 0x1000 = 776 from by decide, Nat.reduceLT, Nat.reduceLeDiff, Nat.reduceEqDiff, Nat.reduceMod, reduceIte, Nat.reduceMul, Nat.reduceAdd, and_true, and_false, if_true, if_false]
  rw [hb]
theorem row_rlnVrlRaise (v n : Nat) (hs : s.Serves) (h1 : v < 4096) (h2 : n < 256) (ho : s.core.Open p 0x0E30C)  :
    Does (.rlnVrlRaise p v n) s (((s.core.selected p).vrlAdd v n).answered p 0#64) := by
  unfold Does
  rw [exec_rlnVrlRaise]
  have hb : ∀ old, bits (Fields.word { imm := 0xFF0FFF } old (n * 2 ^ 16 + v)) 11 0 = v := by
    intro old
    rw [Fields.bits_word _ _ _ _ _ (by decide) (by decide) (by decide)]
    unfold bits; omega
  have hb2 : ∀ old, bits (Fields.word { imm := 0xFF0FFF } old (n * 2 ^ 16 + v)) 23 16 = n := by
    intro old
    rw [Fields.bits_word _ _ _ _ _ (by decide) (by decide) (by decide)]
    unfold bits; omega
  refine runAccess_effect _ s p _ _ _ _ hs.1 (by simp [h1, h2]) plain_vrlRaise ho (by decide) (by decide) (.inl rfl) (by omega) ?_ (by rw [hs.2]; decide)
  have hsf : s.core.storedFor p 0x0E30C = s.core.reg 0x0E30C := by unfold Blk.storedFor; rw [if_neg (by decide)]
  rw [hsf]
  unfold Blk.toShadow Blk.effect
  simp only [show (0x0E30C : Nat) / 0x1000 = 14 from by decide, show (0x0E30C : Nat) % 0x1000 = 780 from by decide, Nat.reduceLT, Nat.reduceLeDiff, Nat.reduceEqDiff, Nat.reduceMod, reduceIte, Nat.reduceMul, Nat.reduceAdd, and_true, and_false, if_true, if_false]
  rw [hb, hb2]
theorem row_rlnModeWrite (n : Nat) (w : Word) (hs : s.Serves) (hn : n < 64) (ho : s.core.Open p (0x0E000 + 4 * n))  :
    Does (.rlnModeWrite p n w) s (((s.core.selected p).rlCfgWrite n (Fields.word { rw := 0xFFFFF00F } (s.core.reg (0x0E000 + 4 * n)) w.toNat)).answered p 0#64) := by
  unfold Does
  rw [exec_rlnModeWrite]
  have hw : w.toNat < 2 ^ 32 := w.isLt
  refine runAccess_effect _ s p _ _ _ _ hs.1 (by simp [hn, w.isLt]) (plain_rlnCfg _ hn) ho (by omega) (by decide) (.inl rfl) (hw) ?_ (by rw [hs.2]; decide)
  have hsf : s.core.storedFor p (0x0E000 + 4 * n) = s.core.reg (0x0E000 + 4 * n) := by unfold Blk.storedFor; rw [if_neg (by omega)]
  rw [hsf]
  unfold Blk.toShadow Blk.effect
  simp only [show (0x0E000 + 4 * n) / 0x1000 = 14 from by omega, show (0x0E000 + 4 * n) % 0x1000 = 4 * n from by omega, if_true, if_false]
  rw [if_pos (by omega), show 4 * n / 4 = n from by omega]
theorem row_movRetire (m : Nat) (hs : s.Serves) (h1 : m < 18) (ho : s.core.Open p 0x11208) (hk : s.core.Keyed p) :
    Does (.movRetire p m) s ((((s.core.selected p).setReg 0x11208 m).retireMover m).answered p 0#64) := by
  unfold Does
  rw [exec_movRetire]
  have hb : ∀ old, bits (Fields.word { key := 0x11F } old (0x100 + m)) 4 0 = m := by
    intro old
    rw [Fields.bits_word _ _ _ _ _ (by decide) (by decide) (by decide)]
    unfold bits; omega
  have hb2 : ∀ old, bit (Fields.word { key := 0x11F } old (0x100 + m)) 8 = true := by
    intro old
    rw [Fields.bit_word _ _ _ _ (by decide) (by decide) (by decide)]
    unfold bit; simp; omega
  refine runAccess_effect _ s p _ _ _ _ hs.1 (by simp [h1]) plain_movCtrl ho (by decide) (by decide) (.inr hk) (by omega) ?_ (by rw [hs.2]; decide)
  have hsf : s.core.storedFor p 0x11208 = s.core.reg 0x11208 := by unfold Blk.storedFor; rw [if_neg (by decide)]
  have hd : decide (0 < (s.core.side p).remain) = true := decide_eq_true hk
  rw [hsf, hd]
  unfold Blk.toShadow Blk.effect
  simp only [show (0x11208 : Nat) / 0x1000 = 17 from by decide, show (0x11208 : Nat) % 0x1000 = 520 from by decide, Nat.reduceLT, Nat.reduceLeDiff, Nat.reduceEqDiff, Nat.reduceMod, reduceIte, Nat.reduceMul, Nat.reduceAdd, and_true, and_false, if_true, if_false]
  rw [hb, hb2]
  simp [h1]
theorem row_movSvcTest (m : Nat) (spare : Bool) (hs : s.Serves) (h1 : m < 18) (ho : s.core.Open p 0x11214) (hk : s.core.Keyed p) :
    Does (.movSvcTest p m spare) s (((s.core.selected p).movSvcWrite (Fields.word { key := 0x131F } (s.core.reg 0x11214) (b1 spare * 2 ^ 12 + 0x100 + m))).answered p 0#64) := by
  unfold Does
  rw [exec_movSvcTest]
  have hv : b1 spare * 2 ^ 12 + 0x100 + m < 2 ^ 13 := by unfold b1; split <;> omega
  refine runAccess_effect _ s p _ _ _ _ hs.1 (by simp [h1]) plain_movSvc ho (by decide) (by decide) (.inr hk) (by omega) ?_ (by rw [hs.2]; decide)
  have hsf : s.core.storedFor p 0x11214 = s.core.reg 0x11214 := by unfold Blk.storedFor; rw [if_neg (by decide)]
  have hd : decide (0 < (s.core.side p).remain) = true := decide_eq_true hk
  rw [hsf, hd]
  unfold Blk.toShadow Blk.effect
  simp only [show (0x11214 : Nat) / 0x1000 = 17 from by decide, show (0x11214 : Nat) % 0x1000 = 532 from by decide, Nat.reduceLT, Nat.reduceLeDiff, Nat.reduceEqDiff, Nat.reduceMod, reduceIte, Nat.reduceMul, Nat.reduceAdd, and_true, and_false, if_true, if_false]

theorem row_movSvcPowerUp (m : Nat) (spare : Bool) (hs : s.Serves) (h1 : m < 18) (ho : s.core.Open p 0x11214) (hk : s.core.Keyed p) :
    Does (.movSvcPowerUp p m spare) s (((s.core.selected p).movSvcWrite (Fields.word { key := 0x131F } (s.core.reg 0x11214) (b1 spare * 2 ^ 12 + 0x300 + m))).answered p 0#64) := by
  unfold Does
  rw [exec_movSvcPowerUp]
  have hv : b1 spare * 2 ^ 12 + 0x300 + m < 2 ^ 13 := by unfold b1; split <;> omega
  refine runAccess_effect _ s p _ _ _ _ hs.1 (by simp [h1]) plain_movSvc ho (by decide) (by decide) (.inr hk) (by omega) ?_ (by rw [hs.2]; decide)
  have hsf : s.core.storedFor p 0x11214 = s.core.reg 0x11214 := by unfold Blk.storedFor; rw [if_neg (by decide)]
  have hd : decide (0 < (s.core.side p).remain) = true := decide_eq_true hk
  rw [hsf, hd]
  unfold Blk.toShadow Blk.effect
  simp only [show (0x11214 : Nat) / 0x1000 = 17 from by decide, show (0x11214 : Nat) % 0x1000 = 532 from by decide, Nat.reduceLT, Nat.reduceLeDiff, Nat.reduceEqDiff, Nat.reduceMod, reduceIte, Nat.reduceMul, Nat.reduceAdd, and_true, and_false, if_true, if_false]

theorem row_movSvcPowerDown (m : Nat) (hs : s.Serves) (h1 : m < 18) (ho : s.core.Open p 0x11214) (hk : s.core.Keyed p) :
    Does (.movSvcPowerDown p m) s (((s.core.selected p).movSvcWrite (Fields.word { key := 0x131F } (s.core.reg 0x11214) (0x200 + m))).answered p 0#64) := by
  unfold Does
  rw [exec_movSvcPowerDown]
  refine runAccess_effect _ s p _ _ _ _ hs.1 (by simp [h1]) plain_movSvc ho (by decide) (by decide) (.inr hk) (by omega) ?_ (by rw [hs.2]; decide)
  have hsf : s.core.storedFor p 0x11214 = s.core.reg 0x11214 := by unfold Blk.storedFor; rw [if_neg (by decide)]
  have hd : decide (0 < (s.core.side p).remain) = true := decide_eq_true hk
  rw [hsf, hd]
  unfold Blk.toShadow Blk.effect
  simp only [show (0x11214 : Nat) / 0x1000 = 17 from by decide, show (0x11214 : Nat) % 0x1000 = 532 from by decide, Nat.reduceLT, Nat.reduceLeDiff, Nat.reduceEqDiff, Nat.reduceMod, reduceIte, Nat.reduceMul, Nat.reduceAdd, and_true, and_false, if_true, if_false]

theorem row_dptDrain (mask : Nat) (hs : s.Serves) (h1 : mask < 256) (ho : s.core.Open p 0x12320) (hk : s.core.Keyed p) :
    Does (.dptDrain p mask) s (((s.core.selected p).drainWrite mask).answered p 0#64) := by
  unfold Does
  rw [exec_dptDrain]
  have hb : ∀ old, bits (Fields.word { key := 0xFF } old mask) 7 0 = mask := by
    intro old
    rw [Fields.bits_word _ _ _ _ _ (by decide) (by decide) (by decide)]
    unfold bits; omega
  refine runAccess_effect _ s p _ _ _ _ hs.1 (by simp [h1]) plain_dptDrain ho (by decide) (by decide) (.inr hk) (by omega) ?_ (by rw [hs.2]; decide)
  have hsf : s.core.storedFor p 0x12320 = s.core.reg 0x12320 := by unfold Blk.storedFor; rw [if_neg (by decide)]
  have hd : decide (0 < (s.core.side p).remain) = true := decide_eq_true hk
  rw [hsf, hd]
  unfold Blk.toShadow Blk.effect
  simp only [show (0x12320 : Nat) / 0x1000 = 18 from by decide, show (0x12320 : Nat) % 0x1000 = 800 from by decide, Nat.reduceLT, Nat.reduceLeDiff, Nat.reduceEqDiff, Nat.reduceMod, reduceIte, Nat.reduceMul, Nat.reduceAdd, and_true, and_false, if_true, if_false]
  rw [hb]
theorem row_ctxwRebuildTest (bankB : Bool) (hs : s.Serves)  (ho : s.core.Open p 0x13008) (hk : s.core.Keyed p) :
    Does (.ctxwRebuildTest p bankB) s (((s.core.selected p).rebuildWrite (Fields.word { key := 0x301 } (s.core.reg 0x13008) (0x100 + b1 bankB))).answered p 0#64) := by
  unfold Does
  rw [exec_ctxwRebuildTest]
  have hv : 0x100 + b1 bankB < 2 ^ 10 := by unfold b1; split <;> omega
  refine runAccess_effect _ s p _ _ _ _ hs.1 rfl plain_ctxwRebuild ho (by decide) (by decide) (.inr hk) (by omega) ?_ (by rw [hs.2]; decide)
  have hsf : s.core.storedFor p 0x13008 = s.core.reg 0x13008 := by unfold Blk.storedFor; rw [if_neg (by decide)]
  have hd : decide (0 < (s.core.side p).remain) = true := decide_eq_true hk
  rw [hsf, hd]
  unfold Blk.toShadow Blk.effect
  simp only [show (0x13008 : Nat) / 0x1000 = 19 from by decide, show (0x13008 : Nat) % 0x1000 = 8 from by decide, Nat.reduceLT, Nat.reduceLeDiff, Nat.reduceEqDiff, Nat.reduceMod, reduceIte, Nat.reduceMul, Nat.reduceAdd, and_true, and_false, if_true, if_false]

theorem row_ctxwRebuildCopy (bankB : Bool) (hs : s.Serves)  (ho : s.core.Open p 0x13008) (hk : s.core.Keyed p) :
    Does (.ctxwRebuildCopy p bankB) s (((s.core.selected p).rebuildWrite (Fields.word { key := 0x301 } (s.core.reg 0x13008) (0x200 + b1 bankB))).answered p 0#64) := by
  unfold Does
  rw [exec_ctxwRebuildCopy]
  have hv : 0x200 + b1 bankB < 2 ^ 10 := by unfold b1; split <;> omega
  refine runAccess_effect _ s p _ _ _ _ hs.1 rfl plain_ctxwRebuild ho (by decide) (by decide) (.inr hk) (by omega) ?_ (by rw [hs.2]; decide)
  have hsf : s.core.storedFor p 0x13008 = s.core.reg 0x13008 := by unfold Blk.storedFor; rw [if_neg (by decide)]
  have hd : decide (0 < (s.core.side p).remain) = true := decide_eq_true hk
  rw [hsf, hd]
  unfold Blk.toShadow Blk.effect
  simp only [show (0x13008 : Nat) / 0x1000 = 19 from by decide, show (0x13008 : Nat) % 0x1000 = 8 from by decide, Nat.reduceLT, Nat.reduceLeDiff, Nat.reduceEqDiff, Nat.reduceMod, reduceIte, Nat.reduceMul, Nat.reduceAdd, and_true, and_false, if_true, if_false]

theorem row_supFreezeWrite (frozen : Bool) (hs : s.Serves)  (ho : s.core.Open p 0x14004) (hk : s.core.Keyed p) :
    Does (.supFreezeWrite p frozen) s (((s.core.selected p).freezeWrite (mportCode p) (Fields.word { key := 3 } (s.core.reg 0x14004) (b1 frozen))).answered p 0#64) := by
  unfold Does
  rw [exec_supFreezeWrite]
  have hv : b1 frozen < 2 := by unfold b1; split <;> omega
  refine runAccess_effect _ s p _ _ _ _ hs.1 rfl plain_supFreeze ho (by decide) (by decide) (.inr hk) (by omega) ?_ (by rw [hs.2]; decide)
  have hsf : s.core.storedFor p 0x14004 = s.core.reg 0x14004 := by unfold Blk.storedFor; rw [if_neg (by decide)]
  have hd : decide (0 < (s.core.side p).remain) = true := decide_eq_true hk
  rw [hsf, hd]
  unfold Blk.toShadow Blk.effect
  simp only [show (0x14004 : Nat) / 0x1000 = 20 from by decide, show (0x14004 : Nat) % 0x1000 = 4 from by decide, Nat.reduceLT, Nat.reduceLeDiff, Nat.reduceEqDiff, Nat.reduceMod, reduceIte, Nat.reduceMul, Nat.reduceAdd, and_true, and_false, if_true, if_false]

theorem row_supRingEnable (w : Word) (hs : s.Serves)  (ho : s.core.Open p 0x14014)  :
    Does (.supRingEnable p w) s (((s.core.selected p).ringCfgWrite (Fields.word { rw := 0x80FF001F } (s.core.reg 0x14014) (Nat.lor w.toNat (2 ^ 31)))).answered p 0#64) := by
  unfold Does
  rw [exec_supRingEnable]
  have hv : Nat.lor w.toNat (2 ^ 31) < 2 ^ 32 := Nat.or_lt_two_pow w.isLt (by decide)
  refine runAccess_effect _ s p _ _ _ _ hs.1 rfl plain_supRingCfg ho (by decide) (by decide) (.inl rfl) (hv) ?_ (by rw [hs.2]; decide)
  have hsf : s.core.storedFor p 0x14014 = s.core.reg 0x14014 := by unfold Blk.storedFor; rw [if_neg (by decide)]
  rw [hsf]
  unfold Blk.toShadow Blk.effect
  simp only [show (0x14014 : Nat) / 0x1000 = 20 from by decide, show (0x14014 : Nat) % 0x1000 = 20 from by decide, Nat.reduceLT, Nat.reduceLeDiff, Nat.reduceEqDiff, Nat.reduceMod, reduceIte, Nat.reduceMul, Nat.reduceAdd, and_true, and_false, if_true, if_false]

theorem row_supRingRetWrite (w : Word) (hs : s.Serves)  (ho : s.core.Open p 0x14018)  :
    Does (.supRingRetWrite p w) s (((s.core.selected p).ringRetWrite (Fields.word { rw := 0x1FFFF } (s.core.reg 0x14018) w.toNat)).answered p 0#64) := by
  unfold Does
  rw [exec_supRingRetWrite]
  refine runAccess_effect _ s p _ _ _ _ hs.1 rfl plain_supRingRet ho (by decide) (by decide) (.inl rfl) (w.isLt) ?_ (by rw [hs.2]; decide)
  have hsf : s.core.storedFor p 0x14018 = s.core.reg 0x14018 := by unfold Blk.storedFor; rw [if_neg (by decide)]
  rw [hsf]
  unfold Blk.toShadow Blk.effect
  simp only [show (0x14018 : Nat) / 0x1000 = 20 from by decide, show (0x14018 : Nat) % 0x1000 = 24 from by decide, Nat.reduceLT, Nat.reduceLeDiff, Nat.reduceEqDiff, Nat.reduceMod, reduceIte, Nat.reduceMul, Nat.reduceAdd, and_true, and_false, if_true, if_false]

theorem row_vecLoad  (hs : s.Serves)  (ho : s.core.Open p 0x0B014)  :
    Does (.vecLoad p) s (((s.core.selected p).vecLoadOp).answered p 0#64) := by
  unfold Does
  rw [exec_vecLoad]
  have hb : ∀ old, bits (Fields.word { imm := 3 } old 1) 1 0 = 1 := by
    intro old
    rw [Fields.bits_word _ _ _ _ _ (by decide) (by decide) (by decide)]
    unfold bits; omega
  refine runAccess_effect _ s p _ _ _ _ hs.1 rfl plain_vecCmd ho (by decide) (by decide) (.inl rfl) (by omega) ?_ (by rw [hs.2]; decide)
  have hsf : s.core.storedFor p 0x0B014 = s.core.reg 0x0B014 := by unfold Blk.storedFor; rw [if_neg (by decide)]
  rw [hsf]
  unfold Blk.toShadow Blk.effect
  simp only [show (0x0B014 : Nat) / 0x1000 = 11 from by decide, show (0x0B014 : Nat) % 0x1000 = 20 from by decide, Nat.reduceLT, Nat.reduceLeDiff, Nat.reduceEqDiff, Nat.reduceMod, reduceIte, Nat.reduceMul, Nat.reduceAdd, and_true, and_false, if_true, if_false]
  rw [hb]; rfl
theorem row_vecStore  (hs : s.Serves)  (ho : s.core.Open p 0x0B014)  :
    Does (.vecStore p) s (((s.core.selected p).vecStoreOp).answered p 0#64) := by
  unfold Does
  rw [exec_vecStore]
  have hb : ∀ old, bits (Fields.word { imm := 3 } old 2) 1 0 = 2 := by
    intro old
    rw [Fields.bits_word _ _ _ _ _ (by decide) (by decide) (by decide)]
    unfold bits; omega
  refine runAccess_effect _ s p _ _ _ _ hs.1 rfl plain_vecCmd ho (by decide) (by decide) (.inl rfl) (by omega) ?_ (by rw [hs.2]; decide)
  have hsf : s.core.storedFor p 0x0B014 = s.core.reg 0x0B014 := by unfold Blk.storedFor; rw [if_neg (by decide)]
  rw [hsf]
  unfold Blk.toShadow Blk.effect
  simp only [show (0x0B014 : Nat) / 0x1000 = 11 from by decide, show (0x0B014 : Nat) % 0x1000 = 20 from by decide, Nat.reduceLT, Nat.reduceLeDiff, Nat.reduceEqDiff, Nat.reduceMod, reduceIte, Nat.reduceMul, Nat.reduceAdd, and_true, and_false, if_true, if_false]
  rw [hb]; rfl
theorem row_sltSvcClear (n : Nat) (hs : s.Serves) (h1 : n < 32) (ho : s.core.Open p 0x05304) (hk : s.core.Keyed p) :
    Does (.sltSvcClear p n) s (((s.core.selected p).sltSvcWrite (Fields.word { key := 0xFF1F } (s.core.reg 0x05304) (0x100 + n))).answered p 0#64) := by
  unfold Does
  rw [exec_sltSvcClear]
  refine runAccess_effect _ s p _ _ _ _ hs.1 (by simp [h1]) plain_sltSvc ho (by decide) (by decide) (.inr hk) (by omega) ?_ (by rw [hs.2]; decide)
  have hsf : s.core.storedFor p 0x05304 = s.core.reg 0x05304 := by unfold Blk.storedFor; rw [if_neg (by decide)]
  have hd : decide (0 < (s.core.side p).remain) = true := decide_eq_true hk
  rw [hsf, hd]
  unfold Blk.toShadow Blk.effect
  simp only [show (0x05304 : Nat) / 0x1000 = 5 from by decide, show (0x05304 : Nat) % 0x1000 = 772 from by decide, Nat.reduceLT, Nat.reduceLeDiff, Nat.reduceEqDiff, Nat.reduceMod, reduceIte, Nat.reduceMul, Nat.reduceAdd, and_true, and_false, if_true, if_false]

theorem row_sltSvcExpire (n : Nat) (hs : s.Serves) (h1 : n < 32) (ho : s.core.Open p 0x05304) (hk : s.core.Keyed p) :
    Does (.sltSvcExpire p n) s (((s.core.selected p).sltSvcWrite (Fields.word { key := 0xFF1F } (s.core.reg 0x05304) (0x200 + n))).answered p 0#64) := by
  unfold Does
  rw [exec_sltSvcExpire]
  refine runAccess_effect _ s p _ _ _ _ hs.1 (by simp [h1]) plain_sltSvc ho (by decide) (by decide) (.inr hk) (by omega) ?_ (by rw [hs.2]; decide)
  have hsf : s.core.storedFor p 0x05304 = s.core.reg 0x05304 := by unfold Blk.storedFor; rw [if_neg (by decide)]
  have hd : decide (0 < (s.core.side p).remain) = true := decide_eq_true hk
  rw [hsf, hd]
  unfold Blk.toShadow Blk.effect
  simp only [show (0x05304 : Nat) / 0x1000 = 5 from by decide, show (0x05304 : Nat) % 0x1000 = 772 from by decide, Nat.reduceLT, Nat.reduceLeDiff, Nat.reduceEqDiff, Nat.reduceMod, reduceIte, Nat.reduceMul, Nat.reduceAdd, and_true, and_false, if_true, if_false]

theorem row_domSleepWrite (j : Nat) (w : Word) (hs : s.Serves) (hn : j < 8) (ho : s.core.Open p (0x0B020 + 4 * j))  :
    Does (.domSleepWrite p j w) s (((s.core.selected p).sleepWrite j (Fields.word { rw := allBits } (s.core.reg (0x0B020 + 4 * j)) w.toNat)).answered p 0#64) := by
  unfold Does
  rw [exec_domSleepWrite]
  refine runAccess_effect _ s p _ _ _ _ hs.1 (by simp [hn]) (plain_domSleep _ hn) ho (by omega) (by decide) (.inl rfl) (w.isLt) ?_ (by rw [hs.2]; decide)
  have hsf : s.core.storedFor p (0x0B020 + 4 * j) = s.core.reg (0x0B020 + 4 * j) := by unfold Blk.storedFor; rw [if_neg (by omega)]
  rw [hsf]
  unfold Blk.toShadow Blk.effect
  simp only [show (0x0B020 + 4 * j) / 0x1000 = 11 from by omega, show (0x0B020 + 4 * j) % 0x1000 = 32 + 4 * j from by omega, if_true, if_false]
  rw [if_neg (by omega), if_pos (by omega), show (32 + 4 * j - 32) / 4 = j from by omega]
theorem row_sfEnable (f : Nat) (w : Word) (hs : s.Serves) (hn : f < 32) (ho : s.core.Open p (0x0F000 + 32 * f))  :
    Does (.sfEnable p f w) s (((s.core.selected p).sfCfgWrite f (Fields.word { rw := 0x80FF1FFF } (s.core.reg (0x0F000 + 32 * f)) (Nat.lor w.toNat (2 ^ 31)))).answered p 0#64) := by
  unfold Does
  rw [exec_sfEnable]
  have hv : Nat.lor w.toNat (2 ^ 31) < 2 ^ 32 := Nat.or_lt_two_pow w.isLt (by decide)
  refine runAccess_effect _ s p _ _ _ _ hs.1 (by simp [hn]) (plain_sfCfg _ hn) ho (by omega) (by decide) (.inl rfl) (hv) ?_ (by rw [hs.2]; decide)
  have hsf : s.core.storedFor p (0x0F000 + 32 * f) = s.core.reg (0x0F000 + 32 * f) := by unfold Blk.storedFor; rw [if_neg (by omega)]
  rw [hsf]
  unfold Blk.toShadow Blk.effect
  simp only [show (0x0F000 + 32 * f) / 0x1000 = 15 from by omega, show (0x0F000 + 32 * f) % 0x1000 = 32 * f from by omega, if_true, if_false]
  rw [if_pos (by omega), show 32 * f / 32 = f from by omega]
theorem row_flush (f : Nat) (hs : s.Serves) (hn : f < 32) (ho : s.core.Open p (0x0F010 + 32 * f))  :
    Does (.flush p f) s (((s.core.selected p).sfFlush f).answered p 0#64) := by
  unfold Does
  rw [exec_flush]
  have h31 : ∀ old, bit (Fields.word { imm := 0x80000007 } old (2 ^ 31)) 31 = true := by
    intro old
    rw [Fields.bit_word _ _ _ _ (by decide) (by decide) (by decide)]
    decide
  refine runAccess_effect _ s p _ _ _ _ hs.1 (by simp [hn]) (plain_sfCmd _ hn) ho (by omega) (by decide) (.inl rfl) (by decide) ?_ (by rw [hs.2]; decide)
  have hsf : s.core.storedFor p (0x0F010 + 32 * f) = s.core.reg (0x0F010 + 32 * f) := by unfold Blk.storedFor; rw [if_neg (by omega)]
  rw [hsf]
  unfold Blk.toShadow Blk.effect
  simp only [show (0x0F010 + 32 * f) / 0x1000 = 15 from by omega, show (0x0F010 + 32 * f) % 0x1000 = 16 + 32 * f from by omega, if_true, if_false]
  rw [if_neg (by omega), if_pos (by omega), show (16 + 32 * f) / 32 = f from by omega]
  unfold Blk.sfCmd
  rw [h31]
  rfl
theorem row_dropRem (f : Nat) (hs : s.Serves) (hn : f < 32) (ho : s.core.Open p (0x0F010 + 32 * f))  :
    Does (.dropRem p f) s (((s.core.selected p).sfDropRem f).answered p 0#64) := by
  unfold Does
  rw [exec_dropRem]
  have h31 : ∀ old, bit (Fields.word { imm := 0x80000007 } old 1) 31 = false := by
    intro old
    rw [Fields.bit_word _ _ _ _ (by decide) (by decide) (by decide)]
    decide
  have hb : ∀ old, bits (Fields.word { imm := 0x80000007 } old 1) 2 0 = 1 := by
    intro old
    rw [Fields.bits_word _ _ _ _ _ (by decide) (by decide) (by decide)]
    unfold bits; omega
  refine runAccess_effect _ s p _ _ _ _ hs.1 (by simp [hn]) (plain_sfCmd _ hn) ho (by omega) (by decide) (.inl rfl) (by decide) ?_ (by rw [hs.2]; decide)
  have hsf : s.core.storedFor p (0x0F010 + 32 * f) = s.core.reg (0x0F010 + 32 * f) := by unfold Blk.storedFor; rw [if_neg (by omega)]
  rw [hsf]
  unfold Blk.toShadow Blk.effect
  simp only [show (0x0F010 + 32 * f) / 0x1000 = 15 from by omega, show (0x0F010 + 32 * f) % 0x1000 = 16 + 32 * f from by omega, if_true, if_false]
  rw [if_neg (by omega), if_pos (by omega), show (16 + 32 * f) / 32 = f from by omega]
  unfold Blk.sfCmd
  rw [h31, hb]
  rfl
theorem row_closeTail (f : Nat) (hs : s.Serves) (hn : f < 32) (ho : s.core.Open p (0x0F010 + 32 * f))  :
    Does (.closeTail p f) s (((s.core.selected p).sfCloseTail f).answered p 0#64) := by
  unfold Does
  rw [exec_closeTail]
  have h31 : ∀ old, bit (Fields.word { imm := 0x80000007 } old 2) 31 = false := by
    intro old
    rw [Fields.bit_word _ _ _ _ (by decide) (by decide) (by decide)]
    decide
  have hb : ∀ old, bits (Fields.word { imm := 0x80000007 } old 2) 2 0 = 2 := by
    intro old
    rw [Fields.bits_word _ _ _ _ _ (by decide) (by decide) (by decide)]
    unfold bits; omega
  refine runAccess_effect _ s p _ _ _ _ hs.1 (by simp [hn]) (plain_sfCmd _ hn) ho (by omega) (by decide) (.inl rfl) (by decide) ?_ (by rw [hs.2]; decide)
  have hsf : s.core.storedFor p (0x0F010 + 32 * f) = s.core.reg (0x0F010 + 32 * f) := by unfold Blk.storedFor; rw [if_neg (by omega)]
  rw [hsf]
  unfold Blk.toShadow Blk.effect
  simp only [show (0x0F010 + 32 * f) / 0x1000 = 15 from by omega, show (0x0F010 + 32 * f) % 0x1000 = 16 + 32 * f from by omega, if_true, if_false]
  rw [if_neg (by omega), if_pos (by omega), show (16 + 32 * f) / 32 = f from by omega]
  unfold Blk.sfCmd
  rw [h31, hb]
  rfl
theorem row_mgSubmit (g : Bool) (hs : s.Serves) (ho : s.core.Open p (if g then 0x060C0 else 0x06040)) :
    Does (.mgSubmit p g) s (((s.core.selected p).mgSubmitOp g).answered p 0#64) := by
  unfold Does
  rw [exec_mgSubmit]
  have hb : ∀ old, bit (Fields.word { imm := 1 } old 1) 0 = true := by
    intro old
    rw [Fields.bit_word _ _ _ _ (by decide) (by decide) (by decide)]; rfl
  cases g
  · refine runAccess_effect _ s p _ _ _ _ hs.1 rfl plain_mgaSubmit ho (by decide) (by decide) (.inl rfl) (by decide) ?_ (by rw [hs.2]; decide)
    unfold Blk.toShadow Blk.effect
    simp only [show (0x06040 : Nat) / 0x1000 = 6 from by decide, show (0x06040 : Nat) % 0x1000 = 0x40 from by decide]
    rw [hb]; rfl
  · refine runAccess_effect _ s p _ _ _ _ hs.1 rfl plain_mgbSubmit ho (by decide) (by decide) (.inl rfl) (by decide) ?_ (by rw [hs.2]; decide)
    unfold Blk.toShadow Blk.effect
    simp only [show (0x060C0 : Nat) / 0x1000 = 6 from by decide, show (0x060C0 : Nat) % 0x1000 = 0xC0 from by decide]
    rw [hb]; rfl

theorem row_mgPop (g : Bool) (hs : s.Serves) (ho : s.core.Open p (if g then 0x060D8 else 0x06058)) :
    Does (.mgPop p g) s (((s.core.selected p).mgPopOp g).answered p 0#64) := by
  unfold Does
  rw [exec_mgPop]
  have hb : ∀ old, bit (Fields.word { imm := 1 } old 1) 0 = true := by
    intro old
    rw [Fields.bit_word _ _ _ _ (by decide) (by decide) (by decide)]; rfl
  cases g
  · refine runAccess_effect _ s p _ _ _ _ hs.1 rfl plain_mgaPop ho (by decide) (by decide) (.inl rfl) (by decide) ?_ (by rw [hs.2]; decide)
    unfold Blk.toShadow Blk.effect
    simp only [show (0x06058 : Nat) / 0x1000 = 6 from by decide, show (0x06058 : Nat) % 0x1000 = 0x58 from by decide]
    rw [hb]; rfl
  · refine runAccess_effect _ s p _ _ _ _ hs.1 rfl plain_mgbPop ho (by decide) (by decide) (.inl rfl) (by decide) ?_ (by rw [hs.2]; decide)
    unfold Blk.toShadow Blk.effect
    simp only [show (0x060D8 : Nat) / 0x1000 = 6 from by decide, show (0x060D8 : Nat) % 0x1000 = 0xD8 from by decide]
    rw [hb]; rfl

theorem row_supRestore (hs : s.Serves) (ho : s.core.Open p 0x14004) (hk : s.core.Keyed p) :
    Does (.supRestore p) s (((s.core.selected p).freezeWrite (mportCode p)
      (Fields.word { key := 3 } (s.core.reg 0x14004) (2 + s.core.regF 0x14004 0 0))).answered p 0#64) := by
  unfold Does
  rw [exec_supRestore]
  have hv : s.core.regF 0x14004 0 0 < 2 := by unfold Blk.regF bits; omega
  refine runAccess_effect_of _ s _ p _ _ _ _ rfl hs.1 rfl plain_supFreeze ho (by decide) (by decide) (.inr hk) (by omega) ?_ (by rw [hs.2]; decide)
  have hsf : s.core.storedFor p 0x14004 = s.core.reg 0x14004 := by unfold Blk.storedFor; rw [if_neg (by decide)]
  have hd : decide (0 < (s.core.side p).remain) = true := decide_eq_true hk
  rw [hsf, hd]
  unfold Blk.toShadow Blk.effect
  simp only [show (0x14004 : Nat) / 0x1000 = 20 from by decide, show (0x14004 : Nat) % 0x1000 = 4 from by decide, if_true, if_false]

theorem row_puRestart (u : Nat) (hs : s.Serves) (hn : u < 16) (room : (s.core.side p).outstanding.length < 4)
    (sem : s.core.semDenied p 0x0D = false) (on : s.core.on 1 = true) :
    Does (.puRestart p u) s ((((s.core.selected p).toShadow p (0x0D000 + 0x40 * u)
      (Nat.lor ((s.core.selected p).shadowOld (0x0D000 + 0x40 * u)) 0x1000) 0xF37).puRestart u).answered p 0#64) := by
  unfold Does
  rw [exec_puRestart]
  have e1 : regPd (0x0D000 + 0x40 * u) = 1 := by
    have : ∀ u, u < 16 → regPd (0x0D000 + 0x40 * u) = 1 := by decide
    exact this u hn
  have hp : (0x0D400 + 0x40 * u) / 0x1000 = 0x0D := by omega
  refine runAccess_alias _ s p _ _ 1 _ _ _ hs.1 (by simp [hn]) (seen_puSet u hn) room (by rw [hp]; exact sem) (by rw [e1]; exact on)
    (.inl (by unfold Blk.inSafe; rw [hs.2])) (by omega) (by decide) (by decide) (by decide) ?_ (by rw [hs.2]; decide)
  have hb : bit (mergeBits (mergeBits (s.core.reg (0x0D000 + 0x40 * u)) (aliasValue 1 (s.core.reg (0x0D000 + 0x40 * u)) 0x1000) 0)
      (aliasValue 1 0 0x1000) 0x1000) 12 = true := by
    rw [bit_mergeBits _ _ _ _ (by decide) (by decide)]; decide
  unfold Blk.effect
  simp only [show (0x0D000 + 0x40 * u) / 0x1000 = 13 from by omega, show (0x0D000 + 0x40 * u) % 0x1000 = 64 * u from by omega]
  rw [if_pos ⟨by omega, hb⟩, show 64 * u / 64 = u from by omega]
  rfl

theorem row_sltOnWrite (n : Nat) (on : Bool) (ht : s.testMode = 0) (hl : s.core.ldr.state ≠ .reload) (hn : n < 32)
    (ho : s.core.Open p (0x05000 + 4 * n)) (hk : s.core.Keyed p) (hreg : s.core.reg (0x05000 + 4 * n) < 2 ^ 32) :
    Does (.sltOnWrite p n on) s (((s.core.selected p).sltCfgWrite n (Fields.word { rw := 0x20FF0000, key := 0x40000000 }
      (s.core.reg (0x05000 + 4 * n)) (putBits (s.core.reg (0x05000 + 4 * n)) 30 30 (b1 on)))).answered p 0#64) := by
  unfold Does
  rw [exec_sltOnWrite]
  have hv : putBits (s.core.reg (0x05000 + 4 * n)) 30 30 (b1 on) < 2 ^ 32 :=
    putBits_lt _ _ hreg
  refine runAccess_effect_of _ s _ p _ _ _ _ rfl ht (by simp [hn]) (plain_sltCfg n hn) ho (by omega) (by decide) (.inr hk) hv ?_ hl
  have hsf : s.core.storedFor p (0x05000 + 4 * n) = s.core.reg (0x05000 + 4 * n) := by unfold Blk.storedFor; rw [if_neg (by omega)]
  have hd : decide (0 < (s.core.side p).remain) = true := decide_eq_true hk
  rw [hsf, hd]
  unfold Blk.toShadow Blk.effect
  simp only [show (0x05000 + 4 * n) / 0x1000 = 5 from by omega, show (0x05000 + 4 * n) % 0x1000 = 4 * n from by omega, if_true]
  rw [if_pos (by omega), show 4 * n / 4 = n from by omega]

theorem row_sfDisable (f : Nat) (hs : s.Serves) (hn : f < 32) (room : (s.core.side p).outstanding.length < 4)
    (sem : s.core.semDenied p 0x0F = false) (on : s.core.on 7 = true) :
    ∃ w, bit w 31 = false ∧ Does (.sfDisable p f) s (((s.core.selected p).sfCfgWrite f w).answered p 0#64) := by
  have e1 : regPd (0x0F000 + 0x20 * f) = 7 := by
    have : ∀ u, u < 32 → regPd (0x0F000 + 0x20 * u) = 7 := by decide
    exact this f hn
  have hp : (0x0F800 + 0x20 * f) / 0x1000 = 0x0F := by omega
  refine ⟨mergeBits (mergeBits (s.core.reg (0x0F000 + 0x20 * f)) (aliasValue 2 (s.core.reg (0x0F000 + 0x20 * f)) (2 ^ 31)) 0x80FF1FFF)
    (aliasValue 2 0 (2 ^ 31)) 0, ?_, ?_⟩
  · rw [bit_eq_testBit, testBit_mergeBits _ _ _ _ (by decide)]
    rw [if_neg (by decide), testBit_mergeBits _ _ _ _ (by decide), if_pos (by decide)]
    unfold aliasValue
    show ((s.core.reg (0x0F000 + 0x20 * f) &&& (allBits ^^^ (2 ^ 31))).testBit 31 && decide (31 < 32)) = false
    rw [Nat.testBit_and]
    have : (allBits ^^^ 2 ^ 31).testBit 31 = false := by decide
    rw [this]; simp
  · unfold Does
    rw [exec_sfDisable]
    refine runAccess_alias _ s p _ _ 2 _ _ _ hs.1 (by simp [hn]) (seen_sfClear f hn) room (by rw [hp]; exact sem) (by rw [e1]; exact on)
      (.inl (by unfold Blk.inSafe; rw [hs.2])) (by omega) (by decide) (by decide) (by decide) ?_ (by rw [hs.2]; decide)
    unfold Blk.effect
    simp only [show (0x0F000 + 0x20 * f) / 0x1000 = 15 from by omega, show (0x0F000 + 0x20 * f) % 0x1000 = 32 * f from by omega]
    rw [if_pos (by omega), show 32 * f / 32 = f from by omega]
    rfl

end Sys2Proof.Machine
end

