-- ==== Sys2Proof/Laws/Loader.lean ====
section
/-! SUPPORT. The loader, the ports and the flash: what the shared steps of Table 2-11 leave, lemma by lemma. -/

namespace Sys2Proof.Machine
open Sys2Proof

theorem run_inv (i : Instr) (f) (s t : State) (hi : s.Inv) (h : run i f s = .next t) : t.Inv := by
  unfold run at h
  split at h
  · cases h
  · split at h
    · cases h; exact ⟨State.withCore_follows _ _, hi.mode⟩
    · cases h; exact hi

/-- what the sem loop keeps -/
def K (p : MPort) (s0 : Blk) (N : Nat) (b : Blk) : Prop :=
  Msg s0 b ∧ (b.side p).outstanding = [] ∧ (b.side p).remain = 0 ∧ (b.side p).mbx = {} ∧ (∀ g, tabGet 256 (b.side p).evtCount g = 256)
    ∧ (∀ n, n < N → b.semOwner n = if s0.semOwner n = some p then none else s0.semOwner n)
    ∧ (∀ n, N ≤ n → b.semOwner n = s0.semOwner n)
    ∧ (∀ q, q ≠ p → (b.side q).outstanding = (s0.side q).outstanding ∧ (b.side q).remain = (s0.side q).remain
        ∧ (b.side q).mbx = (s0.side q).mbx)

theorem tunnelBack_sent (b p t d e) : Sent b (Blk.tunnelBack b p t d e) := by
  unfold Blk.tunnelBack; repeat' split
  all_goals rfl

theorem foldl_sent {α} (f : Blk → α → Blk) (h : ∀ b x, Sent b (f b x)) : ∀ (l : List α) b, Sent b (l.foldl f b)
  | [], b => rfl
  | x :: l, b => (h b x).trans (foldl_sent f h l _)

theorem fold_range_succ {β} (f : β → Nat → β) (b : β) (n : Nat) : (List.range (n+1)).foldl f b = f ((List.range n).foldl f b) n := by
  rw [List.range_succ, List.foldl_append]; rfl

theorem logRec_side (b : Blk) (k p sz w su a) (q : MPort) : ((b.logRec k p sz w su a).side q).outstanding = (b.side q).outstanding
   ∧ ((b.logRec k p sz w su a).side q).remain = (b.side q).remain ∧ ((b.logRec k p sz w su a).side q).mbx = (b.side q).mbx := by
  unfold Blk.logRec
  rw [Blk.raise_side]
  cases q <;> exact ⟨rfl, rfl, rfl⟩

theorem logRec_msg (b : Blk) (k p sz w su a) : Msg b (b.logRec k p sz w su a) := by
  unfold Blk.logRec
  exact Msg.trans (b := {b with mg := _}) rfl (Blk.raise_msg _ _ _)

theorem judge_ok (x : List Byte) (h : headerReason x = 0) (d : dirReason x (copyHdr x) = 0) : judgeCopy x = (some (copyHdr x), 0) := by
  unfold judgeCopy; simp [h, d]

theorem judge_bad (x : List Byte) (h : headerReason x ≠ 0) : judgeCopy x = (none, headerReason x) := by
  unfold judgeCopy; simp [h]

theorem refuseCopy_a (b : Blk) (r : Nat) (h : b.ldr.useB = false) (k : b.ldr.refusedB = false) (hs : b.ldr.state = .verify) :
    b.refuseCopy r = { b with ldr := { b.ldr with refusedA := true, reasonA := r, useB := true, skipped := (b.ldr.hdrB.map (·.skipped)).getD 0, spi := (b.ldr.hdrB.map fun x => spiSections x 0x20000).getD [] } } := by
  unfold Blk.refuseCopy Blk.choose Loader.refuse Blk.modLdr
  simp only [h, k, ← hs]
  simp

theorem refuseCopy_b (b : Blk) (r : Nat) (h : b.ldr.useB = true) (k : b.ldr.refusedA = false) (hs : b.ldr.state = .verify) :
    b.refuseCopy r = { b with ldr := { b.ldr with refusedB := true, reasonB := r, useB := false, skipped := (b.ldr.hdrA.map (·.skipped)).getD 0, spi := (b.ldr.hdrA.map fun x => spiSections x 0).getD [] } } := by
  unfold Blk.refuseCopy Blk.choose Loader.refuse Blk.modLdr
  simp only [h, k, ← hs]
  simp

theorem downNext_facts : ∀ (n : Nat) (b : Blk), (Blk.downNext n b).power.last = b.power.last
    ∧ (Blk.downNext n b).power.timeouts = b.power.timeouts ∧ (Blk.downNext n b).mg = b.mg ∧ (Blk.downNext n b).ldr = b.ldr
    ∧ (Blk.downNext n b).regs = b.regs ∧ (Blk.downNext n b).clock = b.clock
    ∧ ∀ d, (let x : PowDom := tabGet {} b.power.doms d; x.req && x.ack && !x.going) = false →
        (let x : PowDom := tabGet {} (Blk.downNext n b).power.doms d; x.req && x.ack && !x.going) = false
  | 0, b => ⟨rfl, rfl, rfl, rfl, rfl, rfl, fun _ h => h⟩
  | n + 1, b => by
    have step : ∀ (f : PowDom → PowDom) (e : Nat), (∀ x, (f x).req = x.req ∧ (f x).ack = x.ack ∧ (x.going = true → (f x).req = false ∨ (f x).going = true)
        ∨ (f x).req = false) → ∀ d, (let x : PowDom := tabGet {} b.power.doms d; x.req && x.ack && !x.going) = false →
        (let x : PowDom := tabGet {} (b.modPd e f).power.doms d; x.req && x.ack && !x.going) = false := by
      intro f e hf d h
      by_cases k : d = e
      · subst k
        have e1 : tabGet ({} : PowDom) (b.modPd d f).power.doms d = f (tabGet {} b.power.doms d) := tabGet_tabSet_same _ _ _ _
        simp only [e1]
        rcases hf (tabGet {} b.power.doms d) with ⟨h1, h2, h3⟩ | h1
        · simp only [h1, h2] at *
          cases hg : (tabGet ({} : PowDom) b.power.doms d).going
          · simp only [hg] at h; simp at h ⊢
            intro a b'; simp [a, b'] at h
          · rcases h3 hg with h4 | h4 <;> simp_all
        · simp [h1]
      · have e1 : tabGet ({} : PowDom) (b.modPd e f).power.doms d = tabGet {} b.power.doms d := tabGet_tabSet_at _ _ _ _ _ _ k
        simp only [e1]; exact h
    unfold Blk.downNext
    split
    · exact ⟨rfl, rfl, rfl, rfl, rfl, rfl, fun _ h => h⟩
    · rename_i d t hd
      have s1 := step (fun x => { x with req := false }) d (fun _ => .inr rfl)
      dsimp only
      split
      · exact ⟨rfl, rfl, rfl, rfl, rfl, rfl, s1⟩
      · obtain ⟨k1, k2, k3, k4, k5, k6, k7⟩ := downNext_facts n { ((b.modPd d fun x => { x with req := false }).modPd d fun x => { x with going := false }) with
          power := { ((b.modPd d fun x => { x with req := false }).modPd d fun x => { x with going := false }).power with downs := t } }
        refine ⟨k1, k2, k3, k4, k5, k6, fun e h => k7 e ?_⟩
        have tw : ((b.modPd d fun x => { x with req := false }).modPd d fun x => { x with going := false }) = b.modPd d fun x => { x with req := false, going := false } := by
          unfold Blk.modPd; simp [tabGet_tabSet_same, tabSet_tabSet]
        have := step (fun x => { x with req := false, going := false }) d (fun _ => .inr rfl) e h
        rw [← tw] at this
        exact this

theorem powerDownAll_facts (b : Blk) : b.powerDownAll.power.last = b.power.last ∧ b.powerDownAll.power.timeouts = b.power.timeouts
    ∧ b.powerDownAll.mg = b.mg ∧ b.powerDownAll.ldr = b.ldr ∧ b.powerDownAll.regs = b.regs ∧ b.powerDownAll.clock = b.clock
    ∧ ∀ d, (let x : PowDom := tabGet {} b.powerDownAll.power.doms d; x.req && x.ack && !x.going) = false := by
  unfold Blk.powerDownAll
  obtain ⟨k1, k2, k3, k4, k5, k6, k7⟩ := downNext_facts 26 { b with power := { b.power with
    doms := tabMap {} (fun _ (x : PowDom) => { x with going := x.req || x.ack, ret := false, retAsk := false }) b.power.doms
    downs := (powerGroups.flatten.reverse).filter fun d => let x : PowDom := tabGet {} b.power.doms d; x.req || x.ack } }
  refine ⟨k1, k2, k3, k4, k5, k6, fun d => k7 d ?_⟩
  have := tabGet_tabMap_all ({} : PowDom) (fun _ (x : PowDom) => { x with going := x.req || x.ack, ret := false, retAsk := false })
    (fun x => (x.req && x.ack && !x.going) = false) rfl (fun _ x => by cases x.req <;> cases x.ack <;> rfl) d b.power.doms
  exact this

/-- What is discarded leaves every domain but PD0 off. -/
theorem discard_off (b : Blk) (d : Nat) (h : 1 ≤ d) : b.discard.on d = false := by
  unfold Blk.on
  have e : (d == 0) = false := by simp; omega
  rw [e, Bool.false_or]
  exact (powerDownAll_facts b).2.2.2.2.2.2 d

theorem discard_ldr (b : Blk) : b.discard.ldr = b.ldr := (powerDownAll_facts b).2.2.2.1
theorem discard_mg (b : Blk) : b.discard.mg = b.mg := (powerDownAll_facts b).2.2.1
theorem discard_clock (b : Blk) : b.discard.clock = b.clock := (powerDownAll_facts b).2.2.2.2.2.1

theorem toSafe_facts (b : Blk) : b.toSafe.ldr.state = .safe ∧ b.toSafe.ldr.safe = true ∧ b.toSafe.ldr.copyUsed = 0
    ∧ b.toSafe.power.last = b.power.last ∧ b.toSafe.power.timeouts = b.power.timeouts
    ∧ (∀ d, 1 ≤ d → b.toSafe.on d = false) ∧ (∀ g i, b.pends g i = true → b.toSafe.pends g i = true)
    ∧ b.toSafe.image = none := by
  let c := b.discard.modLdr fun l => { l with state := .safe, safe := true, copyUsed := 0, staged := none, missed := [], spi := [] }
  have h : b.toSafe = c.ldrEnd 0 := rfl
  have hd : ∀ d, 1 ≤ d → c.on d = false := fun d h => discard_off b d h
  have hl : c.power.last = b.power.last ∧ c.power.timeouts = b.power.timeouts := ⟨(powerDownAll_facts b).1, (powerDownAll_facts b).2.1⟩
  have hp : ∀ g i, b.pends g i = true → c.pends g i = true := fun g i k => by
    show (b.powerDownAll).pends g i = true
    unfold Blk.pends at k ⊢
    rw [(powerDownAll_facts b).2.2.1]; exact k
  rw [h]
  unfold Blk.ldrEnd
  split
  · have m := Blk.raise_msg (c.modLdr fun l => { l with busy := false, owner := 0, err := 0 }) 0 8
    rw [m.ldr, m.power, m.image]
    refine ⟨rfl, rfl, rfl, hl.1, hl.2, fun d h => ?_, fun g i k => Blk.raise_keeps _ _ _ _ _ (hp g i k), rfl⟩
    have := hd d h
    unfold Blk.on at this ⊢
    rw [m.power]; exact this
  · exact ⟨rfl, rfl, rfl, hl.1, hl.2, hd, hp, rfl⟩

theorem toSafe_opcode (b : Blk) : b.toSafe.ldr.opcode = b.ldr.opcode := by
  unfold Blk.toSafe Blk.ldrEnd
  dsimp only
  split
  · rw [(Blk.raise_msg _ _ _).ldr]; show b.discard.ldr.opcode = _; rw [discard_ldr]
  · show b.discard.ldr.opcode = _; rw [discard_ldr]

theorem power_first (b : Blk) (k1 : b.ldr.groupAt = 0) (k2 : b.ldr.missed = []) (k3 : (tabGet ({} : PowDom) b.power.doms 1).ack = false) :
    (b.requestGroup 0).powerNext 20 = b.modPd 1 fun x => { x with req := true, going := false } := by
  have r : b.requestGroup 0 = b.modPd 1 fun x => { x with req := true, going := false } := rfl
  rw [r]
  unfold Blk.powerNext
  rw [if_pos]
  have : (b.modPd 1 fun x => { x with req := true, going := false }).groupDone = false := by
    unfold Blk.groupDone Blk.groupDoms
    simp [Blk.modPd, k1, k2, k3, powerGroups, tabGet_tabSet_same]
  simp [this]

theorem power_second (b : Blk) (k1 : b.ldr.groupAt = 0) (k2 : b.ldr.missed = []) (k3 : (let x : PowDom := tabGet {} b.power.doms 1; x.req && x.ack) = true)
    (k4 : (tabGet ({} : PowDom) b.power.doms 5).ack = false) :
    b.powerNext 20 = ((({ b with ldr := { b.ldr with groupAt := 1 } } : Blk).modPd 5
        fun x => { x with req := true, going := false }).modPd 6 fun x => { x with req := true, going := false }) := by
  have d : b.groupDone = true := by
    unfold Blk.groupDone Blk.groupDoms
    simp [k1, powerGroups]
    exact .inl (by simpa using k3)
  unfold Blk.powerNext
  simp only [d, k1, Bool.not_true, Bool.false_eq_true, if_false, Nat.zero_add, Nat.reduceLT, if_true]
  have r : ∀ c : Blk, c.requestGroup 1 = (c.modPd 5 fun x => { x with req := true, going := false }).modPd 6 fun x => { x with req := true, going := false } := fun _ => rfl
  rw [r]
  unfold Blk.powerNext
  rw [if_pos]
  · rfl
  · unfold Blk.groupDone Blk.groupDoms
    simp [Blk.modPd, Blk.modLdr, k2, k4, powerGroups, tabGet_tabSet_same, tabGet_tabSet_other]

theorem toPower_on (b : Blk) (hc : b.clock.mclkOk = true) (ha : (tabGet ({} : PowDom) b.power.doms 1).ack = false)
    (hq : (tabGet ({} : PowDom) b.power.doms 1).req = false) (hd : b.power.downs = []) :
    b.toPower = (b.modLdr fun l => { l with state := .power, groupAt := 0, missed := [], spi := [] }).modPd 1 fun x => { x with req := true, going := false } := by
  unfold Blk.toPower Blk.powerStart
  rw [if_pos (by simp [Blk.modLdr, hc, hq, hd])]
  exact power_first _ rfl rfl ha

theorem ldrEnd_facts (b : Blk) (e : Nat) : Msg (b.modLdr fun l => if l.busy then { l with busy := false, owner := 0, err := e } else l) (b.ldrEnd e)
    ∧ (b.ldr.busy = true → (b.ldrEnd e).pends 0 8 = true) := by
  unfold Blk.ldrEnd
  cases h : b.ldr.busy
  · simp only [Bool.false_eq_true, if_false]
    refine ⟨?_, fun k => by cases k⟩
    have : (b.modLdr fun l => if l.busy then { l with busy := false, owner := 0, err := e } else l) = b := by
      unfold Blk.modLdr; simp [h]
    rw [this]; exact Msg.refl b
  · simp only [if_true]
    refine ⟨?_, fun _ => Blk.raise_pends _ _ _⟩
    have : (b.modLdr fun l => if l.busy then { l with busy := false, owner := 0, err := e } else l) = b.modLdr fun l => { l with busy := false, owner := 0, err := e } := by
      unfold Blk.modLdr; simp [h]
    rw [this]; exact Blk.raise_msg _ _ _

structure Bp (b c : Blk) : Prop where
  ldr : c.ldr = b.ldr
  banks : c.banks = b.banks
  clock : c.clock = b.clock
  regs : c.regs = b.regs
  sched : c.sched = b.sched

theorem mapOut_fold (l : List Nat) : ∀ b : Blk, Bp b (l.foldl (fun b m => b.mapOut m 6) b) := by
  induction l with
  | nil => exact fun b => ⟨rfl, rfl, rfl, rfl, rfl⟩
  | cons m l ih => intro b; obtain ⟨h1, h2, h3, h4, h5⟩ := ih (b.mapOut m 6); exact ⟨h1, h2, h3, h4, h5⟩

theorem mapOut_fold_state : ∀ (l : List Nat) (b : Blk) (m : Nat),
    ((l.foldl (fun b m => b.mapOut m 6) b).mover m).state = if m ∈ l then .failed else (b.mover m).state
  | [], b, m => by simp
  | x :: l, b, m => by
    rw [List.foldl_cons, mapOut_fold_state l]
    by_cases hx : m = x
    · subst hx
      have : ((b.mapOut m 6).mover m).state = .failed := by unfold Blk.mapOut; rw [Blk.modPd_get_mover, Blk.modMover_same]
      rw [this]; simp
    · have : ((b.mapOut x 6).mover m).state = (b.mover m).state := by unfold Blk.mapOut; rw [Blk.modPd_get_mover, Blk.modMover_other _ _ _ _ hx]
      rw [this]; simp [hx]

/-- What the self-test's result leaves in the loader, the banks and the movers (R37). -/
theorem bistKept_facts (b : Blk) (r : BistResult) : (b.bistKept r).ldr = { b.ldr with bist := r.fail.toNat }
    ∧ (b.bistKept r).clock = b.clock ∧ (b.bistKept r).regs = b.regs
    ∧ (b.bistKept r).banks = { b.banks with aOut := b.banks.aOut || bit r.fail.toNat 18, bOut := b.banks.bOut || bit r.fail.toNat 19 }
    ∧ (∀ m, m < 18 → ((b.bistKept r).mover m).state
        = if bit r.fail.toNat m && !(bit b.stagedImg.ident.moverOff m) then .failed else (b.mover m).state) := by
  generalize hl : ((List.range 18).filter fun m => bit r.fail.toNat m && !(bit b.stagedImg.ident.moverOff m)) = l
  have hb := mapOut_fold l (b.modLdr fun l => { l with bist := r.fail.toNat })
  have hf := mapOut_fold_state l (b.modLdr fun l => { l with bist := r.fail.toNat })
  have e : ∃ p h s, b.bistKept r = { (((l.foldl (fun b m => b.mapOut m 6) (b.modLdr fun l => { l with bist := r.fail.toNat })).modBanks
      fun x => { x with aOut := x.aOut || bit r.fail.toNat 18, bOut := x.bOut || bit r.fail.toNat 19 }).modSched s) with pool := p, halfFailed := h } := by
    unfold Blk.bistKept
    dsimp only
    have : ∀ c : Blk, c = b.modLdr (fun l => { l with bist := r.fail.toNat }) → c.stagedImg = b.stagedImg := by intro c hc; rw [hc]; rfl
    rw [this _ rfl, hl]
    exact ⟨_, _, _, rfl⟩
  have hmem : ∀ m, m < 18 → (m ∈ l ↔ (bit r.fail.toNat m && !(bit b.stagedImg.ident.moverOff m)) = true) := by
    intro m hm; rw [← hl]; simp [hm]
  clear hl
  generalize l.foldl (fun b m => b.mapOut m 6) (b.modLdr fun l => { l with bist := r.fail.toNat }) = c at *
  obtain ⟨p, h, s, e⟩ := e
  rw [e]
  refine ⟨hb.ldr, hb.clock, hb.regs, ?_, ?_⟩
  · show ({ c.banks with aOut := c.banks.aOut || _, bOut := c.banks.bOut || _ } : Banks) = _
    rw [hb.banks]; rfl
  · intro m hm
    refine (hf m).trans ?_
    by_cases k : m ∈ l
    · rw [if_pos k, if_pos ((hmem m hm).1 k)]
    · rw [if_neg k, if_neg (fun h => k ((hmem m hm).2 h))]; rfl

theorem Blk.ldrCmd_begin (c : Blk) (port : Nat) (fl : Option (List Byte)) (hb : c.ldr.busy = false) (hs : c.ldr.state = .ready ∨ c.ldr.state = .safe) :
    c.ldrCmd port 1 fl = (c.modLdr fun l => { l with opcode := 1, busy := true, owner := port, err := 0 }).toReload
    ∧ (∀ bs, c.nvAddr % 256 = 0 → c.ldrCmd port 0x10 (some bs) = (((c.modLdr fun l => { l with opcode := 0x10, busy := true, owner := port, err := 0 }).setWbuf bs).modLdr
        fun l => { l with spi := [spiRead c.nvAddr 256] }).ldrEnd 0)
    ∧ (∀ op, op = 0x11 ∨ op = 0x12 →
      (c.nvAddr % (if op = 0x11 then 4096 else 256) ≠ 0 → c.ldrCmd port op fl = c.modLdr fun l => { l with opcode := op, err := 3 })
      ∧ (c.nvAddr % (if op = 0x11 then 4096 else 256) = 0 → c.inUse c.nvAddr = true → c.ldrCmd port op fl = c.modLdr fun l => { l with opcode := op, err := 2 })
      ∧ (c.nvAddr % (if op = 0x11 then 4096 else 256) = 0 → c.inUse c.nvAddr = false → c.ldrCmd port op fl =
        c.modLdr fun l => { l with opcode := op, busy := true, owner := port, err := 0, state := .nvop, wpN := true,
                                   nv := some ⟨op, c.nvAddr, c.wbuf, c.ldr.state, 0, port⟩,
                                   spi := [⟨0x06, none, 0, 1, 20⟩, if op = 0x11 then ⟨0x20, some c.nvAddr, 0, 1, 20⟩ else ⟨0x02, some c.nvAddr, 256, 1, 20⟩] })) := by
  have hn : ∀ n, (c.modLdr fun l => { l with opcode := n }).nvAddr = c.nvAddr := fun _ => rfl
  have hi : ∀ n a, (c.modLdr fun l => { l with opcode := n }).inUse a = c.inUse a := fun _ _ => rfl
  refine ⟨?_, ?_, ?_⟩
  · unfold Blk.ldrCmd
    rcases hs with h | h <;> simp [hb, h, Blk.modLdr]
  · intro bs ha
    unfold Blk.ldrCmd
    rcases hs with h | h <;> simp [hb, h, hn, ha] <;> rfl
  · rintro op (rfl | rfl)
    all_goals
      refine ⟨?_, ?_, ?_⟩
      · intro ha
        simp at ha
        unfold Blk.ldrCmd
        rcases hs with h | h <;> simp [hb, h, hn, ha] <;> rfl
      · intro ha hu
        simp at ha
        unfold Blk.ldrCmd
        rcases hs with h | h <;> simp [hb, h, hn, ha, hi, hu] <;> rfl
      · intro ha hu
        simp at ha
        unfold Blk.ldrCmd
        rcases hs with h | h <;> simp [hb, h, hn, ha, hi, hu] <;> rfl

theorem Blk.toReload_facts (b : Blk) : b.toReload.ldr.opcode = b.ldr.opcode
    ∧ (b.toReload.ldr.state = .safe ∨ (b.toReload.ldr.state = .reload ∨ b.toReload.ldr.state = .hdr)
        ∧ b.toReload.ldr.busy = b.ldr.busy ∧ b.toReload.ldr.owner = b.ldr.owner ∧ b.toReload.ldr.err = b.ldr.err) := by
  obtain ⟨c, hc, e⟩ : ∃ c : Blk, c.ldr = { b.ldr with state := .reload } ∧ b.toReload = c.reloadCheck := ⟨_, rfl, rfl⟩
  rw [e]
  unfold Blk.reloadCheck
  split
  · dsimp only
    split
    · rw [toSafe_opcode, (toSafe_facts _).1]
      show c.discard.ldr.opcode = _ ∧ _
      rw [discard_ldr, hc]
      exact ⟨rfl, .inl rfl⟩
    · show c.discard.ldr.opcode = _ ∧ (_ ∨ (_ ∨ _) ∧ c.discard.ldr.busy = _ ∧ c.discard.ldr.owner = _ ∧ c.discard.ldr.err = _)
      rw [discard_ldr, hc]
      exact ⟨rfl, .inr ⟨.inr rfl, rfl, rfl, rfl⟩⟩
  · rw [hc]
    exact ⟨rfl, .inr ⟨.inl rfl, rfl, rfl, rfl⟩⟩

theorem Blk.setWbuf_reg (b : Blk) (bs : List Byte) (k : Nat) (h : k < 64) : (b.setWbuf bs).reg (0x04100 + 4 * k) = leAt bs (4 * k) 4 := by
  have gen : ∀ n, n ≤ 64 → k < n → ((List.range n).foldl (fun b k => b.setReg (0x04100 + 4 * k) (leAt bs (4 * k) 4)) b).reg (0x04100 + 4 * k) = leAt bs (4 * k) 4 := by
    intro n
    induction n with
    | zero => intro _ h; omega
    | succ n ih =>
      intro h1 h2
      rw [List.range_succ, List.foldl_append]
      simp only [List.foldl_cons, List.foldl_nil]
      by_cases e : k = n
      · subst e; exact tabGet_tabSet_same _ _ _ _
      · refine (tabGet_tabSet_at _ _ _ _ _ _ (by omega)).trans (ih (by omega) (by omega))
  exact gen 64 (Nat.le_refl _) h

theorem Blk.setWbuf_ldr (b : Blk) (bs : List Byte) : (b.setWbuf bs).ldr = b.ldr := by
  have gen : ∀ l : List Nat, ∀ b : Blk, (l.foldl (fun b k => b.setReg (0x04100 + 4 * k) (leAt bs (4 * k) 4)) b).ldr = b.ldr := by
    intro l
    induction l with
    | nil => intro b; rfl
    | cons k l ih => intro b; exact ih _
  exact gen _ _

theorem Blk.toWarm_facts (b : Blk) : b.toWarm.ldr = { b.ldr with state := .warmrst, warmDue := false }
    ∧ b.toWarm.sched.jobs = b.sched.jobs.filter (fun j => decide (j.wait = .free))
    ∧ b.toWarm.sched.warmJobs = b.sched.jobs.filter (fun j => !decide (j.wait = .free)) := by
  unfold Blk.toWarm
  rw [List.partition_eq_filter_filter]
  exact ⟨rfl, rfl, rfl⟩

theorem toReload_state (b : Blk) : b.toReload.ldr.state = .reload ∨ b.toReload.ldr.state = .hdr ∨ b.toReload.ldr.state = .safe := by
  obtain ⟨c, hc, e⟩ : ∃ c : Blk, c.ldr = { b.ldr with state := .reload } ∧ b.toReload = c.reloadCheck := ⟨_, rfl, rfl⟩
  rw [e]
  unfold Blk.reloadCheck
  split
  · dsimp only
    split
    · exact .inr (.inr (toSafe_facts _).1)
    · exact .inr (.inl rfl)
  · rw [hc]
    exact .inl rfl

end Sys2Proof.Machine
end

