-- ==== Sys2Proof/Laws/Registers.lean ====
section
/-! SUPPORT. Register commands: plain registers, event acknowledgement, the mailbox, refusals and strobes. -/

namespace Sys2Proof.Machine
open Sys2Proof

theorem plain_evt (g : Nat) (h : g < 64) : Plain (0x03300 + 4 * g) { rw := 0xFFFF } := by
  have h1 : (0x03300 + 4 * g) / 0x1000 = 3 := by omega
  have h2 : (0x03300 + 4 * g) % 0x1000 = 0x300 + 4 * g := by omega
  refine ⟨by omega, by omega, ?_, ?_, ?_⟩
  · unfold decodeAddr; rw [h1]; simp [guarded]; omega
  · rw [h1]; decide
  · unfold regFields; rw [h1, h2]; unfold evtFields
    have a1 : ¬ (0x300 + 4 * g < 0x100) := by omega
    have a2 : ¬ (0x300 + 4 * g < 0x200) := by omega
    have a3 : ¬ (0x300 + 4 * g < 0x300) := by omega
    have a4 : 0x300 + 4 * g < 0x400 := by omega
    simp [a1, a2, a3, a4]; rfl

theorem plain_key0 : Plain 0x01000 { imm := allBits } := ⟨by decide, by decide, by decide, by decide, by decide⟩

theorem plain_sem (n : Nat) (h : n < 64) : Plain (0x01100 + 4 * n) { imm := 3 } := by
  have h1 : (0x01100 + 4 * n) / 0x1000 = 1 := by omega
  have h2 : (0x01100 + 4 * n) % 0x1000 = 0x100 + 4 * n := by omega
  refine ⟨by omega, by omega, ?_, ?_, ?_⟩
  · unfold decodeAddr; rw [h1]; simp [guarded]; omega
  · rw [h1]; decide
  · unfold regFields; rw [h1, h2]; unfold keyFields
    have a1 : ¬ (0x100 + 4 * n = 0) := by omega
    have a2 : ¬ (0x100 + 4 * n = 0xC) := by omega
    have a3 : ¬ (0x100 + 4 * n < 0x20 ∨ (0x40 ≤ 0x100 + 4 * n ∧ 0x100 + 4 * n < 0xC0)) := by omega
    have a4 : 0x100 ≤ 0x100 + 4 * n ∧ 0x100 + 4 * n < 0x200 := by omega
    simp only [a1, a2, a3, a4, if_false]; rfl

theorem plain_force : Plain 0x0100C { key := 0x3F } := ⟨by decide, by decide, by decide, by decide, by decide⟩

theorem read_sem (b sl : Blk) (p : MPort) (n : Nat) (h : n < 64) : b.readWord sl p (0x01100 + 4 * n) =
    match b.semOwner n with | some o => (mportCode o, b) | none => (0, b.setSem n (some p)) := by
  unfold Blk.readWord
  have a1 : ¬ (0x02010 ≤ 0x01100 + 4 * n ∧ 0x01100 + 4 * n < 0x02020) := by omega
  have a2 : 0x01100 ≤ 0x01100 + 4 * n ∧ 0x01100 + 4 * n < 0x01200 := by omega
  have a3 : (0x01100 + 4 * n - 0x01100) / 4 = n := by omega
  simp only [a1, a2, a3, if_false]
  rfl

theorem write_sem (b : Blk) (p : MPort) (n w : Nat) (live) (h : n < 64) : b.writeWord p (0x01100 + 4 * n) w 15 live none =
    (if (b.semReleaseOp p n).1 then none else some 6, (b.semReleaseOp p n).2) := by
  unfold Blk.writeWord
  have hp := plain_sem n h
  have a0 : ¬ (0x01100 + 4 * n = 0x01000) := by omega
  have a2 : 0x01100 ≤ 0x01100 + 4 * n ∧ 0x01100 + 4 * n < 0x01200 := by omega
  have a3 : (0x01100 + 4 * n - 0x01100) / 4 = n := by omega
  rw [hp.view]; simp only [hp.fields, a0, a2, a3, if_false, if_true]
  rfl

theorem plain_stat (g : Nat) (h : g < 64) : Plain (0x03000 + 4 * g) {} := by
  have h1 : (0x03000 + 4 * g) / 0x1000 = 3 := by omega
  have h2 : (0x03000 + 4 * g) % 0x1000 = 4 * g := by omega
  refine ⟨by omega, by omega, ?_, ?_, ?_⟩
  · unfold decodeAddr; rw [h1]; simp [guarded]; omega
  · rw [h1]; decide
  · unfold regFields; rw [h1, h2]; unfold evtFields
    have a1 : 4 * g < 0x100 := by omega
    simp only [a1, if_true]; rfl

theorem plain_ack (g : Nat) (h : g < 64) : Plain (0x03100 + 4 * g) { sqc := 0xFF00FFFF } := by
  have h1 : (0x03100 + 4 * g) / 0x1000 = 3 := by omega
  have h2 : (0x03100 + 4 * g) % 0x1000 = 0x100 + 4 * g := by omega
  refine ⟨by omega, by omega, ?_, ?_, ?_⟩
  · unfold decodeAddr; rw [h1]; simp [guarded]; omega
  · rw [h1]; decide
  · unfold regFields; rw [h1, h2]; unfold evtFields
    have a1 : ¬ (0x100 + 4 * g < 0x100) := by omega
    have a2 : 0x100 + 4 * g < 0x200 := by omega
    simp only [a1, a2, if_true, if_false]

theorem fld_lt (v lo n m : Nat) (h : lo + n ≤ m) : fld v lo n < 2 ^ m := by
  unfold fld
  have h1 : v % 2 ^ n < 2 ^ n := Nat.mod_lt _ (Nat.two_pow_pos n)
  have h2 : v % 2 ^ n * 2 ^ lo < 2 ^ n * 2 ^ lo := Nat.mul_lt_mul_of_pos_right h1 (Nat.two_pow_pos lo)
  rw [← Nat.pow_add, Nat.add_comm n lo] at h2
  exact Nat.lt_of_lt_of_le h2 (Nat.pow_le_pow_right (by omega) h)

theorem read_stat (b sl : Blk) (p : MPort) (g : Nat) (h : g < 64) : b.readWord sl p (0x03000 + 4 * g) =
    (fld (tabGet ({} : EvGroup) b.mg.groups g).seq 24 8 + fld (tabGet ({} : EvGroup) b.mg.groups g).pending 0 16,
      b.modSide p fun x => { x with evtCount := tabSet 256 x.evtCount g 0 }) := by
  unfold Blk.readWord
  have a1 : ¬ (0x02010 ≤ 0x03000 + 4 * g ∧ 0x03000 + 4 * g < 0x02020) := by omega
  have a2 : ¬ (0x01100 ≤ 0x03000 + 4 * g ∧ 0x03000 + 4 * g < 0x01200) := by omega
  have a3 : 0x03000 ≤ 0x03000 + 4 * g ∧ 0x03000 + 4 * g < 0x03100 := by omega
  have a4 : (0x03000 + 4 * g - 0x03000) / 4 = g := by omega
  have h1 : (0x03000 + 4 * g) / 0x1000 = 3 := by omega
  have h2 : (0x03000 + 4 * g) % 0x1000 = 4 * g := by omega
  have hv : b.regValue sl p (0x03000 + 4 * g) = fld (tabGet ({} : EvGroup) b.mg.groups g).seq 24 8 + fld (tabGet ({} : EvGroup) b.mg.groups g).pending 0 16 := by
    unfold Blk.regValue Blk.roStatus Blk.slowStatus
    simp only [(plain_stat g h).fields, h1, h2]
    have a5 : ¬ (0x03000 + 4 * g = 0x02000) := by omega
    have a6 : 4 * g < 0x100 := by omega
    have a7 : 4 * g % 0x100 / 4 = g := by omega
    unfold Blk.evtStatus
    simp only [a5, a6, a7, if_true, if_false]
    have : Nat.land (b.reg (0x03000 + 4 * g)) (Nat.lor 0 (Nat.lor 0 0)) = 0 := by
      show (b.reg (0x03000 + 4 * g)) &&& 0 = 0
      exact Nat.and_zero _
    rw [this]; simp
  simp only [a1, a2, a3, a4, if_false, hv]
  rfl

theorem mod16_testBit (x i : Nat) : (bits x 15 0).testBit i = (decide (i < 16) && x.testBit i) := by
  rw [testBit_bits]; simp

def ackedG (b : Blk) (g m : Nat) : EvGroup :=
  let e : EvGroup := tabGet {} b.mg.groups g
  { e with pending := Nat.land e.pending (Nat.xor 0xFFFF m) }

def acked (b b0 : Blk) (g m : Nat) : Blk := { b with mg := { b.mg with groups := tabSet {} b0.mg.groups g (ackedG b0 g m) } }

theorem markEvent_count (b : Blk) (p : MPort) (g h i : Nat) : tabGet 256 ((b.markEvent h i).side p).evtCount g
    = if h = g then min 256 (tabGet 256 (b.side p).evtCount g + 1) else tabGet 256 (b.side p).evtCount g := by
  have e : ((b.markEvent h i).side p).evtCount = tabSet 256 (b.side p).evtCount h (satInc 256 (tabGet 256 (b.side p).evtCount h)) := by
    cases p <;> rfl
  rw [e]
  by_cases hg : h = g
  · rw [if_pos hg, hg, tabGet_tabSet_same]; unfold satInc; split <;> omega
  · rw [if_neg hg, tabGet_tabSet_other _ _ _ _ _ (Ne.symm hg)]

theorem plain_sel : Plain 0x02000 { rw := 0xFF03FFFF } := ⟨by decide, by decide, by decide, by decide, by decide⟩

theorem plain_mbx (k : Nat) (h : k < 4) : Plain (0x02010 + 4 * k) {} := by
  have h1 : (0x02010 + 4 * k) / 0x1000 = 2 := by omega
  have h2 : (0x02010 + 4 * k) % 0x1000 = 0x10 + 4 * k := by omega
  refine ⟨by omega, by omega, ?_, ?_, ?_⟩
  · unfold decodeAddr; rw [h1]; simp [guarded]; omega
  · rw [h1]; decide
  · unfold regFields; rw [h1, h2]; unfold mbxFields
    have a1 : ¬ (0x10 + 4 * k = 0) := by omega
    have a2 : ¬ (0x10 + 4 * k = 4) := by omega
    have a3 : 0x10 + 4 * k = 4 ∨ (0x10 ≤ 0x10 + 4 * k ∧ 0x10 + 4 * k < 0x20) := by omega
    simp only [a1, a3, if_true, if_false]; rfl

theorem mbxSelect_frame (b : Blk) (p : MPort) (w : Nat) : Msg b (b.mbxSelect p w) ∧ ((b.mbxSelect p w).side p).mbx.state = .fetch
    ∧ ((b.mbxSelect p w).side p).mbx.sel = bits w 31 24 * 2 ^ 24 + bits w 17 0 := by
  have hm : Msg b ((b.mbxAbandon p).modMbx p fun _ => { state := .fetch, sel := bits w 31 24 * 2 ^ 24 + bits w 17 0 }) := by
    cases p <;> rfl
  unfold Blk.mbxSelect
  simp only []
  split
  · unfold Blk.mbxBackRead
    simp only []
    generalize hb : (b.mbxAbandon p).modMbx p _ = c at hm ⊢
    have hs : (c.side p).mbx = { state := .fetch, sel := bits w 31 24 * 2 ^ 24 + bits w 17 0 } := by
      rw [← hb]; simp [Blk.modMbx]
    have h1 : ∀ a l d pa u, ((c.modMbx p fun x => { x with backing := true }).sendRead a l d pa u).side p = (c.modMbx p fun x => { x with backing := true }).side p := by
      intro a l d pa u
      have := (Blk.sendRead_sent (c.modMbx p fun x => { x with backing := true }) a l d pa u).mg
      cases p
      · exact congrArg Mgmt.a this
      · exact congrArg Mgmt.b this
    refine ⟨hm.trans (Msg.trans (b := c.modMbx p fun x => { x with backing := true }) (by cases p <;> rfl) (Blk.sendRead_sent _ _ _ _ _ _).msg), ?_, ?_⟩
    · rw [h1]; simp [Blk.modMbx, hs]
    · rw [h1]; simp [Blk.modMbx, hs]
  · exact ⟨hm, by simp [Blk.modMbx], by simp [Blk.modMbx]⟩

theorem selected_accErr (b : Blk) (p : MPort) (x : Access) : (b.selected p).accErr x = b.accErr x := by
  cases p <;> rfl

theorem answer_side (b : Blk) (x : Access) (v : Nat) (e : Bool) : ((b.answer x v e).side x.port) =
    { b.side x.port with outstanding := (b.side x.port).outstanding ++ [⟨BitVec.ofNat 64 v, e, x.tunnel⟩] } := by
  unfold Blk.answer; rw [Blk.modSide_same]

theorem answer_msg (b : Blk) (x : Access) (v : Nat) (e : Bool) : Msg b (b.answer x v e) := by
  unfold Blk.answer; cases x.port <;> rfl

theorem answer_rest (b : Blk) (x : Access) (v : Nat) (e : Bool) : (b.answer x v e).mg.groups = b.mg.groups ∧ (b.answer x v e).mg.alog = b.mg.alog := by
  unfold Blk.answer; cases x.port <;> exact ⟨rfl, rfl⟩

theorem refuse_core (s : State) (p : MPort) (a be : Nat) (w : BitVec 64) (x : Access) (hs : s.Serves) (ha : a < 2 ^ 20) (hb : be < 256)
    (hx : x = ⟨p, a, be, true, w.toNat, none, none⟩) (e : Bool) (kind sub : Nat)
    (he : s.core.access s.slow x = ((s.core.selected p).logRec kind (mportCode p) x.sizeCode true sub x.first).answer x 0 e) :
    ∃ b : Blk, Does (.registerWrite ⟨p, none⟩ a be w) s b ∧ Msg (s.core.selected p) b ∧ b.pends 0 0 = true
        ∧ (b.side p).outstanding = (s.core.side p).outstanding ++ [⟨0#64, e, none⟩] ∧ (b.side p).remain = 0
        ∧ tabGet alog0 b.mg.alog (s.core.mg.alogPtr % 16)
            = ⟨x.first % 2 ^ 20, kind, mportCode p, x.sizeCode, true, sub, s.core.clock.slowEpoch % 65536⟩ := by
  obtain ⟨ht, hl⟩ := hs
  have hm : Msg (s.core.selected p) (((s.core.selected p).logRec kind (mportCode p) x.sizeCode true sub x.first).answer x 0 e) :=
    (Blk.logRec_msg _ _ _ _ _ _ _).trans (answer_msg _ _ _ _)
  refine ⟨_, ?_, hm, ?_, ?_, ?_, ?_⟩
  · unfold Does; rw [exec_registerWrite]
    rw [runContest_none]
    refine runAccess_does _ _ s _ ht (by rw [wf_registerWrite]; simp [rivalWf]; omega) ?_ (by simp [hl])
    rw [← hx]; exact he
  · have := answer_rest ((s.core.selected p).logRec kind (mportCode p) x.sizeCode true sub x.first) x 0 e
    unfold Blk.pends; rw [this.1]; exact Blk.logRec_pends _ _ _ _ _ _ _
  · have := answer_side ((s.core.selected p).logRec kind (mportCode p) x.sizeCode true sub x.first) x 0 e
    subst hx; rw [this, Blk.logRec_side]; simp
  · have := answer_side ((s.core.selected p).logRec kind (mportCode p) x.sizeCode true sub x.first) x 0 e
    subst hx; rw [this, Blk.logRec_side]; simp
  · rw [(answer_rest _ _ _ _).2]
    have := (Blk.logRec_at (s.core.selected p) kind (mportCode p) x.sizeCode true sub x.first).1
    have e1 : (s.core.selected p).mg.alogPtr = s.core.mg.alogPtr := by cases p <;> rfl
    have e2 : (s.core.selected p).clock = s.core.clock := by cases p <;> rfl
    rw [e1, e2] at this
    exact this

theorem plain_drain : Plain 0x12320 { key := 0xFF } := ⟨by decide, by decide, by decide, by decide, by decide⟩

theorem putBits_two (w : Nat) : bit (putBits w 2 2 0) 2 = false := by
  unfold bit putBits bits
  simp
  omega

theorem Blk.strobe_struck (b : Blk) (ha : b.armed = true) (ho : b.on 1 = true) : Struck b b.strobe ∧ b.strobe.upd.stbAt = b.upd.stbAt
    ∧ b.strobe.upd.late = b.upd.late ∧ b.strobe.upd.timeout = b.upd.timeout := by
  have arm : ∀ c : Blk, (c.setRegF 0x07000 2 2 0).armed = false := by
    intro c
    show bit (tabGet (regDefault 0x07000) (tabSet (regDefault 0x07000) c.regs 0x07000 _) 0x07000) 2 = false
    rw [tabGet_tabSet_same]; exact putBits_two _
  unfold Blk.strobe
  rw [if_neg (by simp [ha, ho])]
  refine ⟨⟨rfl, arm _, rfl, ?_⟩, rfl, rfl, rfl⟩
  intro h
  show (if bit (b.reg 0x07000) 8 then 16 else b.upd.stbOut) = 16
  rw [if_pos h]

theorem Struck.of {b b' c : Blk} (h : Struck b' c) (k1 : b'.upd.count = b.upd.count) (k2 : b'.reg 0x07000 = b.reg 0x07000) : Struck b c :=
  ⟨h.pending, h.arm, by rw [h.count, k1], by rw [← k2]; exact h.out⟩

end Sys2Proof.Machine
end

