-- ==== Sys2Proof/Laws/Admin.lean ====
section
/-! SUPPORT. Admin commands and the management ring: beginning, completing and reaping. -/

namespace Sys2Proof.Machine
open Sys2Proof

theorem traceEv_eq (b : Blk) (k : Nat) (x : Bool) (d o : Nat) : ∃ t, b.traceEv k x d o = { b with trace := t } := by
  unfold Blk.traceEv
  dsimp only
  split
  · exact ⟨_, rfl⟩
  · exact ⟨b.trace, rfl⟩

theorem formCheck_of {b b' : Blk} (h1 : b'.image = b.image) (h2 : b'.queues = b.queues) (h3 : b'.cells = b.cells) (h4 : b'.vec = b.vec)
    (h5 : b'.activeSet = b.activeSet) (r : AdminRing) (c : List Byte) : b'.formCheck r c = b.formCheck r c := by
  have e0 : b'.img = b.img := by unfold Blk.img; rw [h1]
  have e1 : ∀ q, b'.queue q = b.queue q := by intro q; cases q <;> simp [Blk.queue, h2, h3]
  have e2 : ∀ q, b'.exists? q = b.exists? q := by intro q; unfold Blk.exists?; rw [e1]
  have e3 : ∀ d, b'.domEntry d = b.domEntry d := by intro d; unfold Blk.domEntry; rw [e0]
  have e4 : ∀ d v, b'.vectorForeign d v = b.vectorForeign d v := by intro d v; unfold Blk.vectorForeign Blk.vector; rw [h4]
  have e6 : b'.createParamBad r c = b.createParamBad r c := by unfold Blk.createParamBad; simp only [e0, e3, h5]
  have e7 : b'.paramBad r c = b.paramBad r c := by unfold Blk.paramBad; simp only [e0, e3, e6]
  unfold Blk.formCheck
  simp only [e1, e2, e4, e7]

structure KeepsCmd (b c : Blk) : Prop where
  image : c.image = b.image
  queues : c.queues = b.queues
  cells : c.cells = b.cells
  vec : c.vec = b.vec
  act : c.activeSet = b.activeSet

theorem KeepsCmd.trans {a b c : Blk} (h : KeepsCmd a b) (k : KeepsCmd b c) : KeepsCmd a c :=
  ⟨k.1.trans h.1, k.2.trans h.2, k.3.trans h.3, k.4.trans h.4, k.5.trans h.5⟩

theorem traceEv_keeps (b : Blk) (k : Nat) (x : Bool) (d o : Nat) : KeepsCmd b (b.traceEv k x d o) := by
  obtain ⟨t, ht⟩ := traceEv_eq b k x d o
  rw [ht]; exact ⟨rfl, rfl, rfl, rfl, rfl⟩

theorem modSched_keeps (b : Blk) (f : Sched → Sched) : KeepsCmd b (b.modSched f) := ⟨rfl, rfl, rfl, rfl, rfl⟩

theorem begun_keeps (b : Blk) (r : AdminRing) (c : List Byte) : KeepsCmd b (b.begun r c) := by
  unfold Blk.begun
  refine KeepsCmd.trans ?_ (KeepsCmd.trans (modSched_keeps _ _) (traceEv_keeps _ _ _ _ _))
  cases r
  · exact ⟨rfl, rfl, rfl, rfl, rfl⟩
  · exact ⟨rfl, rfl, rfl, rfl, rfl⟩
  · exact ⟨rfl, rfl, rfl, rfl, rfl⟩

theorem begun_formCheck (b : Blk) (r : AdminRing) (c : List Byte) : (b.begun r c).formCheck r c = b.formCheck r c :=
  have h := begun_keeps b r c
  formCheck_of h.1 h.2 h.3 h.4 h.5 r c

theorem mod_traceEv (b : Blk) (k : Nat) (x : Bool) (d o : Nat) (f : Blk → Blk) (h1 : ∀ b t, f { b with trace := t } = { f b with trace := t })
    (h2 : (f b).regs = b.regs) (h3 : (f b).trace = b.trace) : (f b).traceEv k x d o = f (b.traceEv k x d o) := by
  have h4 : (f b).reg 0x17000 = b.reg 0x17000 := by unfold Blk.reg; rw [h2]
  unfold Blk.traceEv
  simp only [h4, h3]
  split
  · exact (h1 _ _).symm
  · rfl

theorem jobs_eta (x : Sched) (h : x.jobs = []) : ({ x with jobs := [] } : Sched) = x := by cases x; simp only at h; subst h; rfl

/-- the block as the command runs: begun -/
theorem begun_mg (b : Blk) (r : AdminRing) (c : List Byte) (h : r = .mga ∨ r = .mgb) (hj : b.sched.jobs = []) :
    b.begun r c = ((b.traceEv 7 false (leAt c 0 1) (ringObj r)).modMg r fun v => { v with slots := v.slots.drop 1 }).modSched
      fun s => { s with jobs := [newJob r c] } := by
  have e : ∀ b : Blk, b.sched.jobs = [] → ((b.modMg r fun v => { v with slots := v.slots.drop 1 }).modSched fun s => { s with jobs := s.jobs ++ [newJob r c] })
      = (b.modMg r fun v => { v with slots := v.slots.drop 1 }).modSched fun s => { s with jobs := [newJob r c] } := by
    intro b hb; rcases h with rfl | rfl <;> (unfold Blk.modSched Blk.modMg; simp [hb])
  rcases h with rfl | rfl
  · unfold Blk.begun
    dsimp only
    rw [e b hj]
    exact mod_traceEv b 7 false (leAt c 0 1) 255 (fun b => (b.modMg .mga fun v => { v with slots := v.slots.drop 1 }).modSched fun s => { s with jobs := [newJob .mga c] })
      (fun _ _ => rfl) rfl rfl
  · unfold Blk.begun
    dsimp only
    rw [e b hj]
    exact mod_traceEv b 7 false (leAt c 0 1) 254 (fun b => (b.modMg .mgb fun v => { v with slots := v.slots.drop 1 }).modSched fun s => { s with jobs := [newJob .mgb c] })
      (fun _ _ => rfl) rfl rfl

theorem foldl_id {α β : Type} (f : α → β → α) (l : List β) (a : α) (h : ∀ x ∈ l, f a x = a) : l.foldl f a = a := by
  induction l with
  | nil => rfl
  | cons x l ih => rw [List.foldl_cons, h x (by simp)]; exact ih fun y hy => h y (by simp [hy])

theorem reapQueues_calm (b : Blk) (h : ∀ e ∈ b.queues, e.2.dying = false ∧ e.2.run.phase ≠ .destroying) : b.reapQueues = b := by
  have e1 : b.queues.foldl (fun b e =>
      if e.2.dying && (match e.2.run.phase with | .idle | .spilled | .stopped | .halted | .lost => true | _ => false) then b.destroyBegin (QRef.dom e.1) else b) b = b :=
    foldl_id _ _ _ fun x hx => by simp [(h x hx).1]
  have e2 : b.queues.foldl (fun b e => if b.destroyable (.dom e.1) then b.freeQueue e.1 else b) b = b :=
    foldl_id _ _ _ fun x hx => by
      have : (b.queue (.dom x.1)).run.phase ≠ .destroying := by
        show (tabGet {} b.queues x.1).run.phase ≠ _
        rcases tabGet_mem {} x.1 b.queues with k | ⟨e, he, k⟩
        · rw [k]; decide
        · rw [← k]; exact (h e he).2
      unfold Blk.destroyable
      simp [this]
  unfold Blk.reapQueues
  refine Eq.trans (b := (if b.queues.length = b.queues.length then b else b.serveRefills)) ?_ (by simp)
  refine Eq.trans (congrArg (fun x : Blk => (if (x.queues.foldl (fun b e => if b.destroyable (.dom e.1) then b.freeQueue e.1 else b) x).queues.length = x.queues.length
    then (x.queues.foldl (fun b e => if b.destroyable (.dom e.1) then b.freeQueue e.1 else b) x)
    else (x.queues.foldl (fun b e => if b.destroyable (.dom e.1) then b.freeQueue e.1 else b) x).serveRefills)) e1) ?_
  rw [e2]

theorem jobsCheck_calm (b : Blk) (h : b.Calm) (hl : b.ldr.state ≠ .warmrst) : b.jobsCheck = b := by
  unfold Blk.jobsCheck
  rw [if_neg hl]
  dsimp only
  rw [reapQueues_calm b h.queues, h.jobs]
  rfl

/-- the block as the command of a management ring runs -/
def gOf (r : AdminRing) (c : List Byte) (b : Blk) : Blk :=
  ((b.traceEv 7 false (leAt c 0 1) (ringObj r)).modMg r fun v => { v with slots := v.slots.drop 1 }).modSched fun s => { s with jobs := [newJob r c] }

theorem gOf_form (r : AdminRing) (c : List Byte) (b : Blk) :
    ∃ t m n, gOf r c b = { b with trace := t, mga := m, mgb := n, sched := { b.sched with jobs := [newJob r c] } } := by
  obtain ⟨t, ht⟩ := traceEv_eq b 7 false (leAt c 0 1) (ringObj r)
  unfold gOf
  rw [ht]
  cases r <;> exact ⟨_, _, _, rfl⟩

theorem complete_mg (b : Blk) (r : AdminRing) (c : List Byte) (h : r = .mga ∨ r = .mgb) (hj : b.sched.jobs = []) (st dt qs r0 r1 : Nat) :
    (gOf r c b).complete r c st dt qs false r0 r1 = b.mgDone r c (cplEntry c 1 st dt qs false r0 r1) := by
  obtain ⟨t, ht⟩ := traceEv_eq b 7 false (leAt c 0 1) (ringObj r)
  unfold Blk.complete gOf Blk.mgDone
  rw [ht]
  have q : ∀ k : Sched, k.jobs = [] → ({ ({ k with jobs := [newJob r c] } : Sched) with jobs := [newJob r c].filter fun j => j.ring != r } : Sched) = k := by
    intro k hk
    have : [newJob r c].filter (fun j => j.ring != r) = [] := by simp [newJob]
    rw [this]; exact jobs_eta k hk
  have q' := q b.sched hj
  rcases h with rfl | rfl
  · unfold Blk.modMg Blk.modSched
    dsimp only at q' ⊢
    rw [q']
  · unfold Blk.modMg Blk.modSched
    dsimp only at q' ⊢
    rw [q']

theorem mgDone_form (r : AdminRing) (c e : List Byte) (b : Blk) :
    ∃ t m n, b.mgDone r c e = { b with trace := t, mga := m, mgb := n } := by
  obtain ⟨t, ht⟩ := traceEv_eq b 7 false (leAt c 0 1) (ringObj r)
  unfold Blk.mgDone
  rw [ht]
  cases r <;> exact ⟨_, _, _, rfl⟩

theorem mgDone_slots (r : AdminRing) (h : r = .mga ∨ r = .mgb) (c e : List Byte) (b : Blk) :
    ((b.mgDone r c e).mgRing r).slots = (b.mgRing r).slots.drop 1 := by
  obtain ⟨t, ht⟩ := traceEv_eq b 7 false (leAt c 0 1) (ringObj r)
  unfold Blk.mgDone
  rw [ht]
  rcases h with rfl | rfl <;> rfl

theorem done_lovageOn (b : Blk) (r : AdminRing) (c e : List Byte) (rest : List (List Byte)) (h : r = .mga ∨ r = .mgb)
    (hc : b.Calm) (hl : b.ldr.state ≠ .warmrst) (hs : (b.mgRing r).slots = c :: rest) (hk : ∀ x, rest.head? = some x → opcodeKnown (leAt x 0 1) = true) :
    (b.mgDone r c e).lovageOn r = b.mgDone r c e := by
  have h1 := mgDone_slots r h c e b
  have h2 : (b.mgDone r c e).refuseUnknown r = b.mgDone r c e := by
    unfold Blk.refuseUnknown
    cases hr : (b.mgDone r c e).readyCmd r with
    | none => rfl
    | some x =>
      have : rest.head? = some x := by
        have : ((b.mgDone r c e).mgRing r).slots.head? = some x := by
          rcases h with rfl | rfl
          · unfold Blk.readyCmd at hr
            split at hr
            · cases hr
            · dsimp only at hr
              split at hr
              · exact hr
              · cases hr
          · unfold Blk.readyCmd at hr
            split at hr
            · cases hr
            · dsimp only at hr
              split at hr
              · exact hr
              · cases hr
        rw [h1, hs] at this
        exact this
      simp [hk x this]
  unfold Blk.lovageOn
  rw [h2]
  obtain ⟨t, m, n, k⟩ := mgDone_form r c e b
  rw [k]
  exact jobsCheck_calm _ ⟨hc.jobs, hc.queues⟩ hl

/-- A ready command of a management ring is within the first two places of Lovage's order (R99). -/
theorem lovageOrder_mg (b : Blk) (r : AdminRing) (n : Nat) (h : r = .mga ∨ r = .mgb) (hr : (b.readyCmd r).isSome = true) :
    (b.lovageOrder.take (n + 2)).contains r = true := by
  unfold Blk.lovageOrder
  rcases h with rfl | rfl
  · simp [hr]
  · by_cases ha : (b.readyCmd .mga).isSome = true <;> simp [hr, ha]

theorem lovageFree_mg (b : Blk) (r : AdminRing) (h : r = .mga ∨ r = .mgb) (hj : b.sched.jobs = []) (hr : (b.readyCmd r).isSome = true) :
    b.lovageFree r = true := by
  have := lovageOrder_mg b r 30 h hr
  unfold Blk.lovageFree
  rw [hj]
  simpa using Or.inr (by simpa using this)

theorem starts_of (s : State) (r : AdminRing) (c : List Byte) (rest) (hs : s.Serves) (hc : s.core.Calm) (hh : s.core.Holds r c rest) :
    s.core.Starts r c (leAt c 0 1) ∧ r.wf = true := by
  have hb : s.core.ringBusy r = false := by unfold Blk.ringBusy; rw [hc.jobs]; rfl
  have hrd : s.core.readyCmd r = some c := by
    have hm := hh.slots
    have hw := hh.room
    unfold Blk.readyCmd
    rw [hb, hh.on, hs.2]
    rcases hh.mgmt with rfl | rfl <;> simp [MgRing.waiting, hw, hm]
  refine ⟨⟨hrd, rfl, lovageFree_mg _ r hh.mgmt hc.jobs (by rw [hrd]; rfl)⟩, ?_⟩
  · rcases hh.mgmt with rfl | rfl <;> rfl

theorem posOf_fits {e : DomEntry} {d hdrDom size value : Nat} : (!decide (size = 4 ∨ size = 8) || decide (hdrDom ≠ d) || decide (e.adminLen ≤ bits value 15 0)) = !decide (doorbellFits e d hdrDom size value) := by
  unfold doorbellFits
  by_cases h1 : (size = 4 ∨ size = 8) <;> by_cases h2 : hdrDom = d <;> by_cases h3 : bits value 15 0 < e.adminLen <;> simp [h1, h2, h3] <;> omega

theorem refuseUnknown_mg (b : Blk) (r : AdminRing) (h : r = .mga ∨ r = .mgb) (hk : ∀ x, (b.mgRing r).slots.head? = some x → opcodeKnown (leAt x 0 1) = true) :
    b.refuseUnknown r = b := by
  unfold Blk.refuseUnknown
  cases hr : b.readyCmd r with
  | none => rfl
  | some x =>
    have : (b.mgRing r).slots.head? = some x := by
      rcases h with rfl | rfl
      · unfold Blk.readyCmd at hr
        split at hr
        · cases hr
        · dsimp only at hr
          split at hr
          · exact hr
          · cases hr
      · unfold Blk.readyCmd at hr
        split at hr
        · cases hr
        · dsimp only at hr
          split at hr
          · exact hr
          · cases hr
    simp [hk x this]

end Sys2Proof.Machine
end

