-- ==== Sys2Proof/Laws/Queues.lean ====
section
/-! SUPPORT. Queues, bindings, contexts and completions: what the shared steps of Chervil and the ports leave. -/

namespace Sys2Proof.Machine
open Sys2Proof

theorem Blk.readSlots_sent (q : QRef) : ∀ (fuel : Nat) (b : Blk) (p n : Nat), Sent b (b.readSlots q fuel p n)
  | 0, b, _, _ => Sent.refl b
  | fuel + 1, b, p, n => by
    unfold Blk.readSlots
    split
    · exact Sent.refl b
    · exact (Blk.sendRead_sent _ _ _ _ _ _).trans (Blk.readSlots_sent q fuel _ _ _)

theorem Sent.foldl {α : Type} (f : Blk → α → Blk) (hf : ∀ b x, Sent b (f b x)) (l : List α) : ∀ b, Sent b (l.foldl f b) := by
  induction l with
  | nil => exact Sent.refl
  | cons x l ih => exact fun b => (hf b x).trans (ih _)

theorem Blk.Polls.refl (b : Blk) (q : QRef) : b.Polls q b := ⟨rfl, rfl, fun _ _ => rfl, rfl⟩

theorem Blk.Polls.trans {a b c : Blk} {q : QRef} (h : a.Polls q b) (k : b.Polls q c) : a.Polls q c := by
  obtain ⟨r1, s1, o1, d1⟩ := h
  obtain ⟨r2, s2, o2, d2⟩ := k
  refine ⟨?_, ?_, fun r hr => (o2 r hr).trans (o1 r hr), ?_⟩
  · rw [r1] at r2; exact r2
  · rw [s1] at s2; exact s2
  · rw [d1] at d2; exact d2

theorem Sent.polls {b c : Blk} (h : Sent b c) (q : QRef) : b.Polls q c := by
  have e : c.sched = b.sched := by rw [h]
  have f : ∀ r, c.queue r = b.queue r := by intro r; rw [h]; cases r <;> rfl
  refine ⟨?_, by rw [f q], fun r _ => f r, by rw [e]⟩
  rw [h]

theorem Blk.modQueue_polls (b : Blk) (q : QRef) (f : Queue → Queue) (h : ∀ x, ∃ e t, f x = { x with ep := e, pollAt := t }) :
    b.Polls q (b.modQueue q f) := by
  obtain ⟨e, t, k⟩ := h (b.queue q)
  refine ⟨by cases q <;> rfl, ?_, fun r hr => Blk.modQueue_other b q r f hr, by cases q <;> rfl⟩
  rw [Blk.modQueue_same, k]

theorem Blk.modEp_polls (b : Blk) (q : QRef) (f : QEpoch → QEpoch) : b.Polls q (b.modEp q f) :=
  Blk.modQueue_polls b q _ fun x => ⟨f x.ep, x.pollAt, rfl⟩

theorem Blk.pollCheck_polls (b : Blk) (q : QRef) : b.Polls q (b.pollCheck q) := by
  unfold Blk.pollCheck
  split
  · exact Blk.modEp_polls b q _
  · exact Blk.Polls.refl b q

theorem Blk.pollCheck_sched (b : Blk) (q : QRef) : (b.pollCheck q).sched = b.sched := by
  unfold Blk.pollCheck Blk.modEp
  split
  · exact Blk.modQueue_sched _ _ _
  · rfl

/-- Reading a ring whose copies are good sends reads and nothing else (R86, R89). -/
theorem Blk.ringRead_sent (b : Blk) (q : QRef) (n : Option Nat) (h : ∀ c ∈ (b.queue q).cache, c.ok = true) : Sent b (b.ringRead q n) := by
  have e : b.dropBad q = b := by
    unfold Blk.dropBad
    have : (b.queue q).cache.filter (fun c => !c.ok) = [] := List.filter_eq_nil_iff.2 fun c hc => by simp [h c hc]
    rw [this]; rfl
  unfold Blk.ringRead
  rw [e]
  exact Sent.foldl _ (fun b x => Blk.readSlots_sent _ _ _ _ _) _ _

/-- A read of the ring of `q`, in a block where its copies are good, after steps that only count it. -/
theorem Blk.ringRead_polls {b c : Blk} {q : QRef} (n : Option Nat) (hc : b.Polls q c) (hk : ∀ x ∈ (c.queue q).cache, x.ok = true) :
    b.Polls q ((c.ringRead q n).pollCheck q) ∧ ((c.ringRead q n).pollCheck q).sched.nudged = c.sched.nudged := by
  have s := Blk.ringRead_sent c q n hk
  refine ⟨(hc.trans (s.polls q)).trans (Blk.pollCheck_polls _ q), ?_⟩
  rw [Blk.pollCheck_sched, show (c.ringRead q n).sched = c.sched by rw [s]]

/-- Counting a read (R17, R86). -/
theorem Blk.pollCount_polls (b : Blk) (q : QRef) (k : Bool) : b.Polls q (b.pollCount q k) := by
  cases q <;> exact ⟨rfl, rfl, fun r _ => by cases r <;> rfl, rfl⟩

/-- What a poll or nudge of a queue that may be read at once does (R17, R86, R89). -/
theorem Blk.chervilRead_now (b : Blk) (q : QRef) (n : Option Nat) (isNudge : Bool) (h : b.ReadsNow q) :
    b.Polls q (b.chervilRead q n isNudge) ∧ (b.chervilRead q n isNudge).sched.nudged = (b.unnudged q).sched.nudged := by
  have e : b.chervilRead q n isNudge = b.pollNow q n isNudge := by
    unfold Blk.chervilRead; simp [h.may, h.budget, h.first]
  rw [e]
  unfold Blk.pollNow
  generalize hc : b.pollCount q isNudge = c
  have p1 : b.Polls q c := by rw [← hc]; exact Blk.pollCount_polls b q _
  have n1 : c.sched.nudged = (b.unnudged q).sched.nudged := by rw [← hc]; cases q <;> rfl
  have k1 : ∀ x ∈ (c.queue q).cache, x.ok = true := by
    have : c.queue q = b.queue q := by rw [← hc]; cases q <;> rfl
    rw [this]; exact h.good
  cases isNudge with
  | true =>
    simp only [if_true]
    have := Blk.ringRead_polls n p1 k1
    exact ⟨this.1, this.2.trans n1⟩
  | false =>
    simp only [Bool.false_eq_true, if_false]
    have p2 := (p1.trans (Blk.modQueue_polls c q (fun x => { x with pollAt := some b.now }) fun x => ⟨x.ep, _, rfl⟩)).trans
      (Blk.modEp_polls _ q fun e => let e := if e.poll then e.pollEnd else e; { e with polls := e.polls + 1, poll := true, found := 0 })
    have pn : c.now = b.now := by rw [← hc]; rfl
    rw [pn]
    have := Blk.ringRead_polls n p2 (by unfold Blk.modEp; simp only [Blk.modQueue_same]; exact k1)
    refine ⟨this.1, this.2.trans ?_⟩
    unfold Blk.modEp
    simp only [Blk.modQueue_sched]
    exact n1

/-- With the budget spent, or reads waiting before it, a read waits (R86). -/
theorem Blk.chervilRead_later (b : Blk) (q : QRef) (n : Option Nat) (isNudge : Bool) (h : b.mayFetch q = true)
    (k : (b.pollMay && b.sched.pollWait.isEmpty) = false) : b.chervilRead q n isNudge = b.pollLater q n isNudge := by
  unfold Blk.chervilRead; simp [h, k]

theorem Blk.chervilRead_not (b : Blk) (q : QRef) (n : Option Nat) (k : Bool) (h : b.mayFetch q = false) : b.chervilRead q n k = b := by
  unfold Blk.chervilRead; simp [h]

theorem heldAbove_of {b b' : Blk} {q : QRef} (h0 : (b'.queue q).cfg.dom = (b.queue q).cfg.dom) (h1 : b'.domains = b.domains) (h2 : b'.movers = b.movers)
    (h3 : b'.ports = b.ports) (h4 : b'.sched.instStop = b.sched.instStop) (h5 : b'.clock = b.clock) (h6 : b'.sched.critPause = b.sched.critPause) :
    b'.heldAbove q = b.heldAbove q := by
  unfold Blk.heldAbove Blk.domain
  simp only [h0, h1, h2, h3, h4, h5, h6]

theorem shadowAt_none (b : Blk) (q : QRef) : b.shadowAt q = none ↔ ∀ e ∈ b.movers, ∀ p ∈ e.2.bind, ∀ y, p.2 = some y → y.q = q → y.shadow = false := by
  unfold Blk.shadowAt Mover.places
  rw [List.findSome?_eq_none_iff]
  constructor
  · intro h e he p hp y hy hq
    have := h e he
    rw [Option.map_eq_none_iff, List.find?_eq_none] at this
    have := this (p.1, y) (List.mem_filterMap.2 ⟨p, hp, by show p.2.map _ = _; rw [hy]; rfl⟩)
    simpa [hq] using this
  · intro h e he
    rw [Option.map_eq_none_iff, List.find?_eq_none]
    intro z hz
    obtain ⟨p, hp, hz⟩ := List.mem_filterMap.1 hz
    have hz : p.2.map (fun y => (p.1, y)) = some z := hz
    cases hp2 : p.2 with
    | none => rw [hp2] at hz; cases hz
    | some y =>
      rw [hp2] at hz; cases hz
      simp only [Bool.and_eq_true, decide_eq_true_eq, not_and, Bool.not_eq_true]
      exact fun hq => h e he p hp y hp2 hq

theorem binding_listed (b : Blk) (m k : Nat) (y : Binding) (h : b.binding m k = some y) : ∃ e ∈ b.movers, ∃ p ∈ e.2.bind, p.2 = some y := by
  unfold Blk.binding Blk.mover at h
  rcases tabGet_mem ({} : Mover) m b.movers with k1 | ⟨e, he, k1⟩
  · rw [k1] at h; cases h
  · rcases tabGet_mem none k (tabGet ({} : Mover) b.movers m).bind with k2 | ⟨p, hp, k2⟩
    · rw [k2] at h; cases h
    · exact ⟨e, he, p, by rw [k1]; exact hp, k2.trans h⟩

theorem shadowAt_modBinding (b : Blk) (q : QRef) (m k : Nat) (f : Binding → Binding) (hq : ∀ y, (f y).q = y.q) (hs : ∀ y, (f y).shadow = y.shadow)
    (h : b.shadowAt q = none) : (b.modBinding m k f).shadowAt q = none := by
  unfold Blk.modBinding
  cases hb : b.binding m k with
  | none => exact h
  | some y =>
    rw [shadowAt_none] at h ⊢
    obtain ⟨e0, he0, p0, hp0, hy0⟩ := binding_listed b m k y hb
    intro e he p hp z hz hzq
    have old : ∀ e' ∈ b.movers, ∀ p ∈ e'.2.bind, p.2 = some z → z.shadow = false := fun e' he' p hp hz => h e' he' p hp z hz hzq
    rcases tabSet_mem _ _ _ _ e he with k1 | k1
    · exact old e k1 p hp hz
    · rw [k1] at hp
      have hp : p ∈ tabSet none (tabGet ({} : Mover) b.movers m).bind k (some (f y)) := hp
      rcases tabSet_mem _ _ _ _ p hp with k2 | k2
      · rcases tabGet_mem ({} : Mover) m b.movers with k3 | ⟨e', he', k3⟩
        · have k2' : p ∈ (tabGet ({} : Mover) b.movers m).bind := k2
          rw [k3] at k2'; cases k2'
        · exact old e' he' p (by rw [k3]; exact k2) hz
      · rw [hz] at k2
        cases k2
        rw [hs]
        exact h e0 he0 p0 hp0 y hy0 (by rw [← hq]; exact hzq)

theorem Calm.modQueue {b : Blk} (h : b.Calm) (q : QRef) (f : Queue → Queue) (h1 : (f (b.queue q)).dying = false) (h2 : (f (b.queue q)).run.phase ≠ .destroying) :
    (b.modQueue q f).Calm := by
  refine ⟨by cases q <;> exact h.jobs, ?_⟩
  cases q with
  | cell n => exact h.queues
  | dom n =>
    intro e he
    rcases tabSet_mem _ _ _ _ e he with k | k
    · exact h.queues e k
    · rw [k]; exact ⟨h1, h2⟩

theorem serveRefills_none (b : Blk) (h : b.NoneWait) : b.serveRefills = b := by
  unfold Blk.serveRefills
  obtain ⟨h1, h2⟩ := h
  simp [h1, h2]

theorem foldl_none {α : Type} (l : List α) (f : Option Stop → α → Option Stop) (h : ∀ x ∈ l, f none x = none) : l.foldl f none = none := foldl_id f l none h

theorem levels_none (b : Blk) (h : b.Unstopped) (q : QRef) (hq : (b.queue q).stop = none) : b.levels q = none := by
  unfold Blk.levels
  have e1 : b.movers.foldl (fun a (_, v) => if v.stopped.contains q then stronger a v.stop else a) none = none :=
    foldl_none _ _ fun x hx => by simp [h.movers x hx, stronger]
  have e2 : b.ports.foldl (fun a (_, v) => if v.reached.contains q then stronger a v.stop else a) none = none :=
    foldl_none _ _ fun x hx => by simp [h.ports x hx, stronger]
  simp only [e1, e2, hq, h.domains, h.inst, h.range, h.crit]
  rfl

theorem find_tok {l : List TokRec} {tok : Nat} {r : TokRec} {p : TokRec → Bool} (h : l.find? (fun t => t.tok == tok && p t) = some r) : r.tok = tok := by
  have := List.find?_some h
  simp at this
  exact this.1

end Sys2Proof.Machine
end

