-- ==== Sys2Proof/Laws/Phases.lean ====
section
/-! SUPPORT. Phase units, windows, request lines and aligned targets. -/

namespace Sys2Proof.Machine
open Sys2Proof

theorem puDeps_none (b : Blk) (h : ∀ v, v < 16 → b.puSource v ≠ 5) (u : Nat) : b.puDeps u = [] := by
  unfold Blk.puDeps
  rw [List.filter_eq_nil_iff]
  intro v hv
  have := h v (List.mem_range.1 hv)
  simp [this]

theorem puFollow_none (b : Blk) (h : ∀ v, v < 16 → b.puSource v ≠ 5) : ∀ n u now, Blk.puFollow n b u now = b
  | 0, _, _ => rfl
  | n + 1, u, now => by
    unfold Blk.puFollow
    rw [puDeps_none b h]; rfl

theorem phaseTick_none (b : Blk) (u : Nat) (h : ∀ q ∈ b.allQueues, ¬ ((b.queue q).cfg.pollPhase = true ∧ (b.queue q).cfg.pollPu = u) ∧ ¬ ((b.queue q).cfg.modMode = 2 ∧ (b.queue q).cfg.modPu = u)) :
    b.phaseTick u = b := by
  unfold Blk.phaseTick forEach
  refine foldl_id _ _ _ ?_
  intro q hq
  obtain ⟨h1, h2⟩ := h q hq
  have e1 : ((b.queue q).cfg.pollPhase && (b.queue q).cfg.pollPu == u) = false := by
    cases hp : (b.queue q).cfg.pollPhase
    · rfl
    · simp; exact fun k => h1 ⟨hp, k⟩
  simp only [e1, Bool.false_eq_true, if_false]
  split
  · rename_i h
    simp at h
    exact absurd h.1.1 h2
  · rfl

theorem Alone.of {b c : Blk} {u : Nat} (h : b.Alone u) (h1 : c.regs = b.regs) (h2 : c.queues = b.queues) (h3 : c.cells = b.cells) : c.Alone u := by
  have q : ∀ q, c.queue q = b.queue q := by intro q; cases q <;> simp [Blk.queue, h2, h3]
  have a : c.allQueues = b.allQueues := by unfold Blk.allQueues; rw [h2, h3]
  refine ⟨?_, ?_⟩
  · intro v hv
    have := h.ratio v hv
    unfold Blk.puSource Blk.regF Blk.reg at *
    rw [h1]; exact this
  · rw [a]; intro r hr; rw [q]; exact h.ticks r hr

theorem puMove_alone (b : Blk) (u : Nat) (h : b.Alone u) (p : Phase) (fw now : Bool) : ∃ f : PhaseUnit → PhaseUnit, b.puMove u p fw now = b.modPu u f
    ∧ ∀ x, (f x).ph = p ∧ (f x).state = x.state ∧ (f x).stamps = x.stamps ∧ (f x).reverse = x.reverse ∧ (f x).fwdRun = x.fwdRun ∧ (f x).indexed = x.indexed
      ∧ (f x).firstIndex = x.firstIndex ∧ (f x).firstPulse = x.firstPulse ∧ (f x).slipErr = x.slipErr := by
  unfold Blk.puMove
  dsimp only
  split
  · rw [phaseTick_none]
    · exact ⟨_, rfl, fun _ => ⟨rfl, rfl, rfl, rfl, rfl, rfl, rfl, rfl, rfl⟩⟩
    · exact (Alone.of h rfl rfl rfl : Blk.Alone (b.modPu u _) u).ticks
  · exact ⟨_, rfl, fun _ => ⟨rfl, rfl, rfl, rfl, rfl, rfl, rfl, rfl, rfl⟩⟩

theorem puMeasure_eq (b : Blk) (u per : Nat) : ∃ f : PhaseUnit → PhaseUnit, (b.puMeasure u per = b.modPu u f ∨ b.puMeasure u per = b)
    ∧ ∀ x, ∃ i, f x = { x with inc := i } := by
  unfold Blk.puMeasure
  split
  · exact ⟨_, .inl rfl, fun x => ⟨_, rfl⟩⟩
  · exact ⟨id, .inr rfl, fun x => ⟨x.inc, rfl⟩⟩

theorem Msg.modPu {b c : Blk} (h : Msg b c) (u : Nat) (f : PhaseUnit → PhaseUnit) : Msg (b.modPu u f) (c.modPu u f) := by
  unfold Msg at h ⊢; rw [h]; rfl

theorem puLose_locked (b : Blk) (u : Nat) (h : b.Alone u) (hs : (b.pu u).state = .locked) (hu : u < 16) :
    Msg (b.modPu u fun x => x.lose (b.lossState u) (b.puInc u) b.clock.ftPsTotal) (b.puLose u) ∧ (b.puLose u).pends 8 u = true
    ∧ ∀ g i, b.pends g i = true → (b.puLose u).pends g i = true := by
  have en : ∀ st : PuState, st = .coast ∨ st = .fallback ∨ st = .lost → ((b.modPu u fun x => { x with inc := b.puInc u }).puEnter u st)
      = (b.modPu u fun x => x.lose st (b.puInc u) b.clock.ftPsTotal).raiseAt 8 u := by
    intro st hst
    unfold Blk.puEnter
    rw [Blk.modPu_same]
    dsimp only
    rw [hs]
    rw [if_neg (by rcases hst with rfl | rfl | rfl <;> decide), Blk.modPu_twice]
    refine congrArg (fun z : Blk => z.raiseAt 8 u) (Blk.modPu_congr _ _ _ _ ?_)
    rcases hst with rfl | rfl | rfl <;> rfl
  have lo : ((b.modPu u fun x => { x with inc := b.puInc u }).puLose1 u) = (b.modPu u fun x => x.lose (b.lossState u) (b.puInc u) b.clock.ftPsTotal).raiseAt 8 u := by
    have e1 : (b.modPu u fun x => { x with inc := b.puInc u }).puLoss u = b.puLoss u := rfl
    have e2 : (b.modPu u fun x => { x with inc := b.puInc u }).puSource u = b.puSource u := rfl
    unfold Blk.puLose1 Blk.lossState
    rw [Blk.modPu_same]
    dsimp only
    rw [if_neg (by rw [hs]; simp), e1, e2]
    by_cases k1 : b.puLoss u = 1
    · simp only [k1]
      exact en _ (.inl rfl)
    · by_cases k2 : b.puLoss u = 2
      · simp only [k2]
        by_cases k3 : b.puSource u = 4
        · simp only [k3, if_true]
          exact en _ (.inl rfl)
        · simp only [k3, if_false]
          exact en _ (.inr (.inl rfl))
      · rw [if_neg k1, if_neg k2]
        have : ∀ (l : Nat) (y z w : Blk), l ≠ 1 → l ≠ 2 → (match l with | 1 => y | 2 => z | _ => w) = w := by
          intro l y z w h1 h2
          split
          · exact absurd rfl h1
          · exact absurd rfl h2
          · rfl
        refine Eq.trans (this _ _ _ _ k1 k2) ?_
        exact en _ (.inr (.inr rfl))
  have al : ((b.modPu u fun x => x.lose (b.lossState u) (b.puInc u) b.clock.ftPsTotal).raiseAt 8 u).Alone u := by
    have m := Blk.raiseAt_msg (b.modPu u fun x => x.lose (b.lossState u) (b.puInc u) b.clock.ftPsTotal) 8 u
    exact Alone.of h m.regs m.queues m.cells
  have e : b.puLose u = (b.modPu u fun x => x.lose (b.lossState u) (b.puInc u) b.clock.ftPsTotal).raiseAt 8 u := by
    have hd : b.puDrop u = (b.modPu u fun x => { x with inc := b.puInc u }).puLose1 u := by
      unfold Blk.puDrop; rw [if_neg (by rw [hs]; simp)]
    unfold Blk.puLose
    rw [if_neg (by rw [hs]; simp), hd, lo, puFollow_none _ al.ratio]
  have hr : ∀ c : Blk, c.raiseAt 8 u = c.raise 8 u := by
    intro c; unfold Blk.raiseAt; rw [Nat.div_eq_of_lt hu, Nat.mod_eq_of_lt hu]
  rw [e, hr]
  exact ⟨Blk.raise_msg _ _ _, Blk.raise_pends _ _ _, fun g i hp => Blk.raise_keeps _ _ _ _ _ hp⟩

theorem puTryLock_locked (b : Blk) (u : Nat) (h : (b.pu u).state = .locked) : b.puTryLock u = b := by
  unfold Blk.puTryLock
  simp [h]

theorem raiseAt7 (c : Blk) (u : Nat) (hu : u < 16) (g : Nat) : c.raiseAt g u = c.raise g u := by
  unfold Blk.raiseAt; rw [Nat.div_eq_of_lt hu, Nat.mod_eq_of_lt hu]; rfl

/-- A list of changes of one unit. -/
theorem quad_done (b : Blk) (u : Nat) (rev : Bool) (h : b.Alone u) (hs : (b.pu u).state = .locked) (hi : (b.pu u).inRef < 2 ∨ b.clock.refLost = true) :
    ∃ f : PhaseUnit → PhaseUnit, b.quadCount u rev = b.modPu u f ∧ (f (b.pu u)).ph = (if rev then (b.pu u).ph.down (b.puModulus u) else (b.pu u).ph.up (b.puModulus u))
      ∧ (f (b.pu u)).reverse = rev ∧ (f (b.pu u)).fwdRun = (if rev then 0 else (b.pu u).fwdRun + 1) ∧ (f (b.pu u)).state = .locked := by
  have lg : b.puLegal u = b := by unfold Blk.puLegal; rw [hs]
  have past : (decide (2 ≤ (b.pu u).inRef) && !b.clock.refLost) = false := by
    rcases hi with h | h
    · simp; omega
    · simp [h]
  unfold Blk.quadCount
  rw [past]
  simp only [Bool.false_eq_true, if_false, Bool.false_and, lg]
  generalize hg : (b.modPu u fun x => { x.stamp b.clock.cycle with reverse := rev, fwdRun := if rev = true then 0 else x.fwdRun + 1, inRef := x.inRef + 1 }) = c
  have ca : c.Alone u := by rw [← hg]; exact Alone.of h rfl rfl rfl
  obtain ⟨f, hf, hp⟩ := puMove_alone c u ca (if rev = true then (b.pu u).ph.down (b.puModulus u) else (b.pu u).ph.up (b.puModulus u)) (!rev) true
  rw [hf, ← hg, Blk.modPu_twice]
  obtain ⟨g, hg2, hi⟩ := puMeasure_eq (b.modPu u fun x => f { x.stamp b.clock.cycle with reverse := rev, fwdRun := if rev = true then 0 else x.fwdRun + 1, inRef := x.inRef + 1 }) u 1
  have fin : ∀ k : PhaseUnit → PhaseUnit, (k (b.pu u)).state = .locked → (Blk.puFollow 16 (b.modPu u k) u true).puTryLock u = b.modPu u k := by
    intro k hk
    rw [puFollow_none _ (Alone.of h rfl rfl rfl : Blk.Alone (b.modPu u k) u).ratio]
    exact puTryLock_locked _ _ (by rw [Blk.modPu_same]; exact hk)
  rcases hg2 with k | k
  · rw [k, Blk.modPu_twice]
    obtain ⟨i, hi⟩ := hi (f { (b.pu u).stamp b.clock.cycle with reverse := rev, fwdRun := if rev = true then 0 else (b.pu u).fwdRun + 1, inRef := (b.pu u).inRef + 1 })
    refine ⟨_, fin _ ?_, ?_, ?_, ?_, ?_⟩ <;> dsimp only <;> rw [hi] <;> dsimp only
    · exact (hp _).2.1.trans hs
    · exact (hp _).1
    · exact (hp _).2.2.2.1
    · exact (hp _).2.2.2.2.1
    · exact (hp _).2.1.trans hs
  · rw [k]
    refine ⟨_, fin _ ?_, ?_, ?_, ?_, ?_⟩
    · exact (hp _).2.1.trans hs
    · exact (hp _).1
    · exact (hp _).2.2.2.1
    · exact (hp _).2.2.2.2.1
    · exact (hp _).2.1.trans hs

theorem coast_lost (b : Blk) (u : Nat) (ha : b.Alone u) (h1 : (b.pu u).state = .coast) (hu : u < 16) :
    b.puGo u .lost = (b.modPu u fun x => { x with state := .lost, fbAcc := 0, fbAt := b.clock.ftPsTotal }).raise 8 u := by
  have en : b.puEnter u .lost = (b.modPu u fun x => { x with state := .lost, fbAcc := 0, fbAt := b.clock.ftPsTotal }).raiseAt 8 u := by
    unfold Blk.puEnter
    rw [h1]
    dsimp only
    rw [if_neg (by decide)]
    refine congrArg (fun z : Blk => z.raiseAt 8 u) (Blk.modPu_congr _ _ _ _ ?_)
    simp
  have m := Blk.raiseAt_msg (b.modPu u fun x => { x with state := .lost, fbAcc := 0, fbAt := b.clock.ftPsTotal }) 8 u
  have al : ((b.modPu u fun x => { x with state := .lost, fbAcc := 0, fbAt := b.clock.ftPsTotal }).raiseAt 8 u).Alone u := Alone.of ha m.regs m.queues m.cells
  unfold Blk.puGo
  rw [en, puFollow_none _ al.ratio, raiseAt7 _ _ hu]

theorem serves_ok {s : State} (h : s.Serves) : s.testMode = 0 ∧ s.core.ldr.state ≠ .reload := ⟨h.1, by rw [h.2]; decide⟩

theorem binding_modBinding (b : Blk) (m k : Nat) (f : Binding → Binding) : (b.modBinding m k f).binding m k = (b.binding m k).map f := by
  unfold Blk.modBinding
  cases h : b.binding m k with
  | none => exact h
  | some x =>
    show tabGet none ((b.setBinding m k _).mover m).bind k = _
    unfold Blk.setBinding
    rw [Blk.modMover_same]
    exact tabGet_tabSet_same (none : Option Binding) (b.mover m).bind k (some (f x))

theorem modBinding_twice (b : Blk) (m k : Nat) (f g : Binding → Binding) : (b.modBinding m k f).modBinding m k g = b.modBinding m k fun x => g (f x) := by
  have h1 := binding_modBinding b m k f
  cases h : b.binding m k with
  | none =>
    rw [h] at h1
    unfold Blk.modBinding
    rw [h]; dsimp only; rw [h]
  | some x =>
    rw [h] at h1
    have e : b.modBinding m k f = b.setBinding m k (some (f x)) := by unfold Blk.modBinding; rw [h]
    have e2 : ∀ c : Blk, c.binding m k = some (f x) → c.modBinding m k g = c.setBinding m k (some (g (f x))) := by
      intro c hc; unfold Blk.modBinding; rw [hc]
    have e3 : (b.modBinding m k fun x => g (f x)) = b.setBinding m k (some (g (f x))) := by unfold Blk.modBinding; rw [h]
    rw [e2 _ h1, e3, e]
    unfold Blk.setBinding
    rw [Blk.modMover_twice]
    congr 1
    funext v
    simp [tabSet_tabSet]

theorem modBinding_congr (b : Blk) (m k : Nat) (f g : Binding → Binding) (h : ∀ x, b.binding m k = some x → f x = g x) : b.modBinding m k f = b.modBinding m k g := by
  unfold Blk.modBinding
  cases e : b.binding m k with
  | none => rfl
  | some x => dsimp only; rw [h x e]

theorem raiseAt_raises (b : Blk) (g i : Nat) : Msg b (b.raiseAt g i) ∧ (b.raiseAt g i).pends (g + i / 16) (i % 16) = true :=
  ⟨Blk.raiseAt_msg _ _ _, Blk.raise_pends _ _ _⟩

/-- What an accepted assertion does once the gap is met. -/
theorem rlActive_gap (b : Blk) (n : Nat) (sw : Bool) (h : b.gapMet n) :
    ((b.line n).state = .idle → b.rlActive n sw =
      b.modLine n fun x => { x with lastAt := some b.clock.cycle, state := .pending, pend := 1, bySw := sw, given := b.givenTo n })
    ∧ ((b.line n).state = .pending → b.rlMode n = 2 ∨ b.rlMode n = 3 ∧ 255 ≤ (b.line n).pend → b.rlActive n sw =
      b.modLine n fun x => { x with lastAt := some b.clock.cycle, overrun := incr 4 x.overrun })
    ∧ ((b.line n).state = .pending → b.rlMode n = 3 → (b.line n).pend < 255 → b.rlActive n sw =
      b.modLine n fun x => { x with lastAt := some b.clock.cycle, pend := x.pend + 1 }) := by
  have g1 : (b.modLine n fun x => { x with lastAt := some b.clock.cycle }).givenTo n = b.givenTo n := by
    unfold Blk.givenTo
    rw [Blk.modLine_same]
    rfl
  have m : (b.modLine n fun x => { x with lastAt := some b.clock.cycle }).rlMode n = b.rlMode n := rfl
  unfold Blk.gapMet at h
  refine ⟨fun h1 => ?_, fun h1 h2 => ?_, fun h1 h2 h3 => ?_⟩
  all_goals
    unfold Blk.rlActive
    dsimp only
    rw [h, g1, m, h1]
    simp only [Bool.false_eq_true, if_false]
  · rw [Blk.modLine_twice]
  · rcases h2 with h2 | ⟨h2, h3⟩
    · rw [h2]; exact Blk.modLine_twice _ _ _ _
    · rw [h2]; exact (if_neg (by omega)).trans (Blk.modLine_twice _ _ _ _)
  · rw [h2]; exact (if_pos h3).trans (Blk.modLine_twice _ _ _ _)

end Sys2Proof.Machine
end

