-- ==== Sys2Proof/Laws/Service.lean ====
section
/-! SUPPORT. FIFOs, stops, messages, slots and service operations. -/

namespace Sys2Proof.Machine
open Sys2Proof

theorem sfEntries_of {b c : Blk} {f : Nat} (h : b.sfEntriesOnly f) (r : c.regs = b.regs) : c.sfEntriesOnly f := by
  unfold Blk.sfEntriesOnly Blk.sfCfg Blk.reg at *
  rw [r]; exact h

theorem vrlAdd_regs (b : Blk) (v n : Nat) : (b.vrlAdd v n).regs = b.regs := rfl

theorem sfLevel_regs (b : Blk) (f : Nat) : (b.sfLevel f).regs = b.regs := by
  unfold Blk.sfLevel
  dsimp only
  split
  · split
    · rfl
    · split
      · split
        · rw [vrlAdd_regs, Blk.raiseAt_regs]; rfl
        · rw [Blk.raiseAt_regs]; rfl
      · split
        · rw [Blk.raiseAt_regs]; rfl
        · rfl
  · split
    · rfl
    · split
      · split
        · rw [vrlAdd_regs, Blk.raiseAt_regs]; rfl
        · rw [Blk.raiseAt_regs]; rfl
      · split
        · rw [Blk.raiseAt_regs]; rfl
        · rfl
  · rfl

theorem sfFreed_regs (b : Blk) (f : Nat) : (b.sfFreed f).regs = b.regs := by
  unfold Blk.sfFreed
  dsimp only
  split
  · rfl
  · rfl

theorem sfNotify_regs (b : Blk) (f : Nat) : (b.sfNotify f).regs = b.regs := by
  unfold Blk.sfNotify
  dsimp only
  split <;> rfl

/-- What a write of SF_CFG keeps of the word, the reserved fields cut away. -/
theorem sfCut_bit (w i : Nat) (h : i = 31 ∨ i = 3 ∨ i = 7) : bit (w - bits w 30 24 * 2 ^ 24 - bits w 15 13 * 2 ^ 13) i = bit w i := by
  unfold bit bits
  have e : (w - w / 2 ^ 24 % 2 ^ (30 - 24 + 1) * 2 ^ 24 - w / 2 ^ 13 % 2 ^ (15 - 13 + 1) * 2 ^ 13) / 2 ^ i % 2 = w / 2 ^ i % 2 := by
    rcases h with h | h | h <;> subst h <;> omega
  rw [e]

/-- Bits of the word without EN. -/
theorem sfOff_bit (w i : Nat) (h : bit w 31 = true) (hi : i = 3 ∨ i = 7) : bit (w - 2 ^ 31) i = bit w i ∧ bit (w - 2 ^ 31) 31 = false := by
  unfold bit at *
  have e : (w - 2 ^ 31) / 2 ^ i % 2 = w / 2 ^ i % 2 ∧ (w - 2 ^ 31) / 2 ^ 31 % 2 = 0 := by
    simp only [beq_iff_eq] at h
    rcases hi with hi | hi <;> subst hi <;> omega
  rw [e.1, e.2]
  exact ⟨rfl, rfl⟩

theorem word_all (old v : Nat) (h : v < 2 ^ 32) : Fields.word { rw := allBits } old v = v := by
  apply Nat.eq_of_testBit_eq
  intro i
  rw [Fields.testBit_word _ _ _ _ (by decide) (by decide)]
  by_cases hi : i < 32
  · have : ({ rw := allBits } : Fields).rw.testBit i = true := by
      show allBits.testBit i = true
      have : ∀ i, i < 32 → allBits.testBit i = true := by decide
      exact this i hi
    simp [this]
  · have h1 : v.testBit i = false := Nat.testBit_lt_two_pow (Nat.lt_of_lt_of_le h (Nat.pow_le_pow_right (by omega) (by omega)))
    simp [hi, h1]

theorem invalidateLat_eq (b : Blk) (f : Nat → Target → Bool) : ∃ l, b.invalidateLat f = { b with lats := l } := by
  unfold Blk.invalidateLat
  generalize b.img.targets.zipIdx = l
  induction l generalizing b with
  | nil => exact ⟨b.lats, rfl⟩
  | cons z l ih =>
    obtain ⟨t, i⟩ := z
    rw [List.foldl_cons]
    dsimp only
    split
    · obtain ⟨m, hm⟩ := ih (b.modLat i LatRec.invalidate)
      exact ⟨m, hm⟩
    · exact ih b

/-- What entering a state leaves, but for the waiting entries of FAILED_AT_INSERTION and FAULTED. -/
structure SltDone (b c : Blk) (n : Nat) (x : Slot) : Prop where
  slot : c.slot n = x
  pends : c.pends (9 + n / 16) (n % 16) = true
  others : ∀ k, k ≠ n → c.slot k = b.slot k
  regs : c.regs = b.regs
  queues : c.queues = b.queues
  cells : c.cells = b.cells
  clock : c.clock = b.clock

theorem sltWaiting_of {b c : Blk} {n : Nat} (h : b.sltWaiting n = []) (h1 : (c.slot n).held = (b.slot n).held) (h2 : c.queues = b.queues) (h3 : c.cells = b.cells) :
    c.sltWaiting n = [] := by
  have q : ∀ q, c.queue q = b.queue q := by intro q; cases q <;> simp [Blk.queue, h2, h3]
  have a : c.allQueues = b.allQueues := by unfold Blk.allQueues; rw [h2, h3]
  unfold Blk.sltWaiting at *
  dsimp only at *
  rw [h1, a]
  simp only [q]
  exact h

theorem sltGo_done (b : Blk) (n : Nat) (st : SlotState) (hw : b.sltWaiting n = []) : SltDone b (b.sltGo n st) n ((b.slot n).entered st) := by
  have e : ∃ t l, b.sltGo n st = { ((b.modSlot n fun x => x.entered st).raiseAt 9 n) with trace := t, lats := l } := by
    unfold Blk.sltGo
    dsimp only
    have m : (b.modSlot n fun x => { x with state := st, pwrEn := x.power st, settled := false, tokenRead := false
                                            flt := if x.power st then x.flt else false, hold := x.hold || decide ((b.slot n).state = .ready) })
        = b.modSlot n fun x => x.entered st := Blk.modSlot_congr _ _ _ _ rfl
    rw [m]
    obtain ⟨t, htr⟩ := traceEv_eq ((b.modSlot n fun x => x.entered st).raiseAt 9 n) 6 false st.code n
    rw [htr]
    have l : ∃ l, (if (b.slot n).state ≠ st then Blk.invalidateLat { ((b.modSlot n fun x => x.entered st).raiseAt 9 n) with trace := t } (fun _ t => t.slotValid && t.slot == n)
        else { ((b.modSlot n fun x => x.entered st).raiseAt 9 n) with trace := t }) = { ((b.modSlot n fun x => x.entered st).raiseAt 9 n) with trace := t, lats := l } := by
      split
      · obtain ⟨l, hl⟩ := invalidateLat_eq ({ ((b.modSlot n fun x => x.entered st).raiseAt 9 n) with trace := t }) (fun _ t => t.slotValid && t.slot == n)
        exact ⟨l, hl⟩
      · exact ⟨_, rfl⟩
    obtain ⟨l, hl⟩ := l
    rw [hl]
    have w : Blk.sltWaiting { ((b.modSlot n fun x => x.entered st).raiseAt 9 n) with trace := t, lats := l } n = [] := by
      refine sltWaiting_of hw ?_ ?_ ?_
      · show (((b.modSlot n fun x => x.entered st).raiseAt 9 n).slot n).held = _
        rw [Blk.raiseAt_get_slot, Blk.modSlot_same]; rfl
      · show ((b.modSlot n fun x => x.entered st).raiseAt 9 n).queues = _
        rw [Blk.raiseAt_queues]; rfl
      · show ((b.modSlot n fun x => x.entered st).raiseAt 9 n).cells = _
        rw [Blk.raiseAt_cells]; rfl
    have sw : ∀ c i, Blk.stopAllWaiting { ((b.modSlot n fun x => x.entered st).raiseAt 9 n) with trace := t, lats := l } n c i = { ((b.modSlot n fun x => x.entered st).raiseAt 9 n) with trace := t, lats := l } := by
      intro c i; unfold Blk.stopAllWaiting; rw [w]; rfl
    refine ⟨t, l, ?_⟩
    cases st <;> first | rfl | exact sw _ _
  obtain ⟨t, l, e⟩ := e
  rw [e]
  refine ⟨?_, ?_, ?_, ?_, ?_, ?_, ?_⟩
  · show ((b.modSlot n fun x => x.entered st).raiseAt 9 n).slot n = _
    rw [Blk.raiseAt_get_slot, Blk.modSlot_same]
  · exact (raiseAt_raises (b.modSlot n fun x => x.entered st) 9 n).2
  · intro k hk
    show ((b.modSlot n fun x => x.entered st).raiseAt 9 n).slot k = _
    rw [Blk.raiseAt_get_slot, Blk.modSlot_other _ _ _ _ hk]
  · show ((b.modSlot n fun x => x.entered st).raiseAt 9 n).regs = _
    rw [Blk.raiseAt_regs]; rfl
  · show ((b.modSlot n fun x => x.entered st).raiseAt 9 n).queues = _
    rw [Blk.raiseAt_queues]; rfl
  · show ((b.modSlot n fun x => x.entered st).raiseAt 9 n).cells = _
    rw [Blk.raiseAt_cells]; rfl
  · show ((b.modSlot n fun x => x.entered st).raiseAt 9 n).clock = _
    rw [Blk.raiseAt_clock]; rfl

theorem putOn_bits (w : Nat) (on : Bool) :
    bit (putBits w 30 30 (b1 on)) 30 = on ∧ bit (putBits w 30 30 (b1 on)) 29 = bit w 29 ∧ bits (putBits w 30 30 (b1 on)) 23 16 = bits w 23 16 := by
  unfold putBits bit bits
  have e : ∀ v : Nat, v ≤ 1 → (w - w / 2 ^ 30 % 2 ^ (30 - 30 + 1) * 2 ^ 30 + v % 2 ^ (30 - 30 + 1) * 2 ^ 30) / 2 ^ 30 % 2 = v
      ∧ (w - w / 2 ^ 30 % 2 ^ (30 - 30 + 1) * 2 ^ 30 + v % 2 ^ (30 - 30 + 1) * 2 ^ 30) / 2 ^ 29 % 2 = w / 2 ^ 29 % 2
      ∧ (w - w / 2 ^ 30 % 2 ^ (30 - 30 + 1) * 2 ^ 30 + v % 2 ^ (30 - 30 + 1) * 2 ^ 30) / 2 ^ 16 % 2 ^ (23 - 16 + 1) = w / 2 ^ 16 % 2 ^ (23 - 16 + 1) := by
    intro v hv
    refine ⟨?_, ?_, ?_⟩ <;> omega
  obtain ⟨h1, h2, h3⟩ := e (b1 on) (by cases on <;> decide)
  rw [h1, h2, h3]
  refine ⟨?_, rfl, rfl⟩
  cases on <;> rfl

/-- What a write of SLT_CFG stores of its word. -/
theorem sltStore_bits (W : Nat) : bit (sltStored W) 30 = bit W 30 ∧ bit (sltStored W) 29 = bit W 29 ∧ bits (sltStored W) 23 16 = bits W 23 16 := by
  unfold sltStored bit bits
  have e : (W / 2 ^ 29 % 2 ^ (30 - 29 + 1) * 2 ^ 29 + W / 2 ^ 16 % 2 ^ (23 - 16 + 1) * 2 ^ 16) / 2 ^ 30 % 2 = W / 2 ^ 30 % 2
    ∧ (W / 2 ^ 29 % 2 ^ (30 - 29 + 1) * 2 ^ 29 + W / 2 ^ 16 % 2 ^ (23 - 16 + 1) * 2 ^ 16) / 2 ^ 29 % 2 = W / 2 ^ 29 % 2
    ∧ (W / 2 ^ 29 % 2 ^ (30 - 29 + 1) * 2 ^ 29 + W / 2 ^ 16 % 2 ^ (23 - 16 + 1) * 2 ^ 16) / 2 ^ 16 % 2 ^ (23 - 16 + 1) = W / 2 ^ 16 % 2 ^ (23 - 16 + 1) := by
    refine ⟨?_, ?_, ?_⟩ <;> omega
  rw [e.1, e.2.1, e.2.2]
  exact ⟨rfl, rfl, rfl⟩

/-- What MOV_SVC does once its fields are read. -/
theorem movSvcWrite_of (b : Blk) (W m op : Nat) (role : Bool) (hm : m < 18) (h1 : bits W 4 0 = m) (h2 : bits W 9 8 = op) (h3 : bit W 12 = role) (hb : b.movp.svc.busy = false) :
    ((b.mover m).state = .retired ∨ (b.mover m).state = .failed → op = 1 →
      b.movSvcWrite W = ((b.setReg 0x11214 (fld (b1 role) 12 1 + m)).modSvc fun _ => { busy := true, mover := m, op := 1 }).modMover m fun v => { v with roleSpare := role, t4held := false, state := .test })
    ∧ ((b.mover m).state = .retired ∨ (b.mover m).state = .failed → op = 2 → (tabGet ({} : PowDom) b.power.doms (moverPd m)).ack = false →
      b.movSvcWrite W = ((((b.setReg 0x11214 (fld (b1 role) 12 1 + m)).modSvc fun _ => { busy := false, mover := m, op := 2, done := true }).modMover m fun v =>
        { v with roleSpare := role, t4held := false, state := .off, cause := 0 }).modPd (moverPd m) fun x => { x with req := false, going := false }))
    ∧ ((b.mover m).state = .retired ∨ (b.mover m).state = .failed → op = 2 → (tabGet ({} : PowDom) b.power.doms (moverPd m)).ack = true →
      b.movSvcWrite W = (((b.setReg 0x11214 (fld (b1 role) 12 1 + m)).modSvc fun _ => { busy := true, mover := m, op := 2 }).modMover m fun v => { v with roleSpare := role, t4held := false }).modPd (moverPd m)
        fun x => { x with req := false, going := true })
    ∧ ((b.mover m).state = .off → bit b.img.ident.moverOff m = false → op = 3 →
      b.movSvcWrite W = (((b.setReg 0x11214 (fld (b1 role) 12 1 + m)).modSvc fun _ => { busy := true, mover := m, op := 3 }).modMover m fun v => { v with roleSpare := role, t4held := false }).modPd (moverPd m)
        fun x => { x with req := true, ack := false, going := false })
    ∧ ((b.mover m).state = .active ∨ (b.mover m).state = .spare → op = 1 →
      b.movSvcWrite W = (b.setReg 0x11214 (fld (b1 role) 12 1 + m)).modSvc fun x => { x with err := 1 }) := by
  have mp : (b.setReg 0x11214 (fld (b1 role) 12 1 + m)).movp.svc.busy = false := hb
  have n17 : ¬ 17 < m := by omega
  unfold Blk.movSvcWrite
  dsimp only
  rw [h1, h2, h3, mp]
  refine ⟨fun h ho => ?_, fun h ho ha => ?_, fun h ho ha => ?_, fun h h' ho => ?_, fun h ho => ?_⟩
  · subst ho
    rcases h with h | h <;> simp [n17, h, Blk.modMover_twice]
  · subst ho
    rcases h with h | h <;> simp [n17, h, ha]
    all_goals
      have c1 : ∀ (c : Blk) (d : Nat) (f : PowDom → PowDom) (g : Mover → Mover), ((c.modPd d f).modMover m g).svcEnd false 0 = ((c.modMover m g).svcEnd false 0).modPd d f :=
        fun _ _ _ _ => rfl
      have c2 : ∀ (c : Blk) (f : MovSvc → MovSvc) (g : Mover → Mover), ((c.modSvc f).modMover m g).svcEnd false 0
        = (c.modSvc fun x => { f x with busy := false, done := true, pass := false, fail := 0 }).modMover m g := fun _ _ _ => rfl
      rw [c1, Blk.modMover_twice, c2]
  · subst ho
    rcases h with h | h <;> simp [n17, h, ha]
  · subst ho
    have im : (b.setReg 0x11214 (fld (b1 role) 12 1 + m)).img = b.img := rfl
    simp [n17, h, im, h']
  · subst ho
    rcases h with h | h <;> simp [n17, h]

theorem rebuildWrite_of (b : Blk) (W op : Nat) (bankB : Bool) (h1 : bits W 9 8 = op) (h2 : bit W 0 = bankB) (ho : op = 1 ∨ op = 2) (hb : b.banks.busy = false) :
    ((if bankB then b.banks.bOut else b.banks.aOut) = true → (if bankB then b.banks.aOut else b.banks.bOut) = false →
      b.rebuildWrite W = (b.setReg 0x13008 (b1 bankB)).modBanks fun x =>
          { x with busy := true, done := false, pass := false, bank := bankB, op := op, err := 0, progress := 0, mirror := op == 2 })
    ∧ ((if bankB then b.banks.bOut else b.banks.aOut) = false → b.rebuildWrite W = (b.setReg 0x13008 (b1 bankB)).modBanks fun x => { x with err := 1 }) := by
  unfold Blk.rebuildWrite
  dsimp only
  rw [h1, h2, hb]
  have o : ¬ (op = 0 ∨ op = 3) := by omega
  refine ⟨fun h h' => ?_, fun h => ?_⟩
  · rw [if_neg o, h, h']; rfl
  · rw [if_neg o, h]; rfl

/-- `c` differs from `b` only in the decision ring and where an event and its message write. -/
def Decd (b c : Blk) : Prop := ∃ d : DecRing, Msg (b.modDec fun _ => d) c

theorem Decd.of {b c : Blk} (h : Msg b c) : Decd b c := ⟨b.sup.dec, h⟩

theorem Decd.mod (b : Blk) (f : DecRing → DecRing) : Decd b (b.modDec f) := ⟨f b.sup.dec, Msg.refl _⟩

theorem Decd.trans {b c d : Blk} (h : Decd b c) (k : Decd c d) : Decd b d := by
  obtain ⟨x, hx⟩ := h
  obtain ⟨y, hy⟩ := k
  refine ⟨y, ?_⟩
  unfold Msg at *
  rw [hy, hx]
  rfl

theorem Blk.decLose_decd (b : Blk) : Decd b b.decLose := by
  unfold Blk.decLose
  dsimp only
  split
  · exact (Decd.mod _ _).trans (Decd.of (Blk.raise_msg _ _ _))
  · exact Decd.mod _ _

theorem Blk.decPut_decd (b : Blk) (kind cause obj old new metric bound : Nat) : Decd b (b.decPut kind cause obj old new metric bound) := by
  unfold Blk.decPut
  exact (Decd.mod _ _).trans (Decd.of (Blk.sendWrite_sent _ _ _ _ _ _ _).msg)

theorem Decd.put (b c : Blk) (h : Decd b c) (k ca o a n m d : Nat) : Decd b (if c.decRoom then c.decPut k ca o a n m d else c.decLose) := by
  split
  · exact h.trans (Blk.decPut_decd _ _ _ _ _ _ _ _)
  · exact h.trans (Blk.decLose_decd _)

/-- A decision writes its ring and counters, at most packets and an event (R318-R320). -/
theorem Blk.decision_decd (b : Blk) (k c o a n m d : Nat) : Decd b (b.decision k c o a n m d) := by
  unfold Blk.decision
  dsimp only
  split
  · exact Decd.mod _ _
  · refine (Decd.mod _ fun x => { x with decisions := incr 16 x.decisions }).trans ((Decd.mod _ fun x => { x with dseq := incr 32 x.dseq }).trans ?_)
    split
    · exact Blk.decLose_decd _
    · refine Decd.put _ _ ?_ _ _ _ _ _ _ _
      split
      · exact (Blk.decPut_decd _ _ _ _ _ _ _ _).trans (Decd.mod _ _)
      · exact Decd.of (Msg.refl _)

theorem Decd.want {b c : Blk} (h : Decd b c) : c.sup.want = b.sup.want ∧ c.sup.applied = b.sup.applied ∧ c.image = b.image := by
  obtain ⟨d, hd⟩ := h
  rw [hd]
  exact ⟨rfl, rfl, rfl⟩

/-- The throttle levels of a block are `w` wanted and `a` applied. -/
def Levels (w a : Nat) (b : Blk) : Prop := b.sup.want = w ∧ b.sup.applied = a

theorem Levels.ite {w a : Nat} {b c : Blk} (p : Prop) [Decidable p] (h : Levels w a b) (k : Levels w a c) : Levels w a (if p then b else c) := by
  split
  · exact h
  · exact k

theorem Levels.decision {w a : Nat} {b : Blk} (h : Levels w a b) (k c o x n m d : Nat) : Levels w a (b.decision k c o x n m d) :=
  ⟨(Blk.decision_decd b k c o x n m d).want.1.trans h.1, (Blk.decision_decd b k c o x n m d).want.2.1.trans h.2⟩

theorem Levels.setPerf {w a : Nat} {b : Blk} (h : Levels w a b) (r c m : Nat) : Levels w a (b.setPerf r c m) := by
  unfold Blk.setPerf
  exact Levels.ite _ h (Levels.decision (b := b.modSup fun s => { s with perfReq := r }) h _ _ _ _ _ _ _)

theorem Levels.raise {w a : Nat} {b : Blk} (h : Levels w a b) (g i : Nat) : Levels w a (b.raise g i) := by
  unfold Levels
  rw [Blk.raise_sup]
  exact h

/-- The level applied is the highest wanted one, as far as the policy allows (R323, R324). -/
theorem throttle_level (b : Blk) (cause metric : Nat) : Levels b.wantedLevel (min b.wantedLevel b.img.policy.thrMax) (b.throttle cause metric) := by
  unfold Blk.throttle
  dsimp only
  split
  · have base : Levels b.wantedLevel (min b.wantedLevel b.img.policy.thrMax)
        ((b.modSup fun s => { s with want := b.wantedLevel, applied := min b.wantedLevel b.img.policy.thrMax }).raise 1 8) :=
      Levels.raise (b := b.modSup fun s => { s with want := b.wantedLevel, applied := min b.wantedLevel b.img.policy.thrMax }) ⟨rfl, rfl⟩ 1 8
    have mid := base.decision 5 (if min b.wantedLevel b.img.policy.thrMax < b.sup.applied then 0x30 else cause) 0 b.sup.applied
      (min b.wantedLevel b.img.policy.thrMax) metric b.img.policy.thrMax
    refine Levels.ite _ (Levels.ite _ (Levels.ite _ (mid.setPerf _ _ _) mid) mid) (Levels.ite _ (Levels.ite _ (Levels.ite _ (mid.setPerf _ _ _) mid) mid)
      (Levels.ite _ (Levels.ite _ (mid.setPerf _ _ _) mid) mid))
  · rename_i h
    have h := Classical.not_not.mp h
    split
    · exact Levels.raise (b := b.modSup fun s => { s with want := b.wantedLevel }) ⟨rfl, h.symm⟩ 1 8
    · rename_i h2
      exact ⟨(Classical.not_not.mp h2).symm, h.symm⟩

/-- The power page and the loader stand. -/
def Stands (b c : Blk) : Prop := c.power = b.power ∧ c.ldr = b.ldr

theorem Stands.ite {a b c : Blk} (p : Prop) [Decidable p] (h : Stands a b) (k : Stands a c) : Stands a (if p then b else c) := by
  split
  · exact h
  · exact k

theorem Stands.decision {a b : Blk} (h : Stands a b) (k c o x n m d : Nat) : Stands a (b.decision k c o x n m d) := by
  obtain ⟨e, he⟩ := Blk.decision_decd b k c o x n m d
  rw [he]; exact h

theorem Stands.setPerf {a b : Blk} (h : Stands a b) (r c m : Nat) : Stands a (b.setPerf r c m) := by
  unfold Blk.setPerf
  exact Stands.ite _ h (Stands.decision (b := b.modSup fun s => { s with perfReq := r }) h _ _ _ _ _ _ _)

theorem Stands.raise {a b : Blk} (h : Stands a b) (g i : Nat) : Stands a (b.raise g i) :=
  ⟨(Blk.raise_msg b g i).power.trans h.1, (Blk.raise_msg b g i).ldr.trans h.2⟩

/-- Throttling changes neither the power page nor the loader. -/
theorem throttle_stands (b : Blk) (cause metric : Nat) : Stands b (b.throttle cause metric) := by
  unfold Blk.throttle
  dsimp only
  split
  · have mid := (Stands.raise (a := b) (b := b.modSup fun s => { s with want := b.wantedLevel, applied := min b.wantedLevel b.img.policy.thrMax }) ⟨rfl, rfl⟩
      1 8).decision 5 (if min b.wantedLevel b.img.policy.thrMax < b.sup.applied then 0x30 else cause) 0 b.sup.applied
      (min b.wantedLevel b.img.policy.thrMax) metric b.img.policy.thrMax
    refine Stands.ite _ (Stands.ite _ (Stands.ite _ (mid.setPerf _ _ _) mid) mid) (Stands.ite _ (Stands.ite _ (Stands.ite _ (mid.setPerf _ _ _) mid) mid)
      (Stands.ite _ (Stands.ite _ (mid.setPerf _ _ _) mid) mid))
  · split
    · exact Stands.raise (b := b.modSup fun s => { s with want := b.wantedLevel }) ⟨rfl, rfl⟩ 1 8
    · exact ⟨rfl, rfl⟩

/-- The new start of a monitor changes neither the power page nor the loader (R326). -/
theorem monRestart_stands (b : Blk) (d : Nat) : Stands b (b.monRestart d) := by
  unfold Blk.monRestart
  exact Stands.ite _ ⟨rfl, rfl⟩ (throttle_stands (b.modMon d fun _ => {}) 0x20 0)

theorem ringWord_bits (old : Nat) (w : Word) : bits (Fields.word { rw := 0x80FF001F } old (Nat.lor w.toNat (2 ^ 31))) 31 31 = 1
    ∧ bits (Fields.word { rw := 0x80FF001F } old (Nat.lor w.toNat (2 ^ 31))) 23 16 = bits w.toNat 23 16
    ∧ bits (Fields.word { rw := 0x80FF001F } old (Nat.lor w.toNat (2 ^ 31))) 4 0 = bits w.toNat 4 0 := by
  have low : ∀ n, n < 31 → (Nat.lor w.toNat (2 ^ 31)).testBit n = w.toNat.testBit n := by
    intro n hn
    show (w.toNat ||| 2 ^ 31).testBit n = _
    rw [Nat.testBit_or, Nat.testBit_two_pow]
    have : ¬ (31 = n) := by omega
    simp [this]
  have b31 : bits (Fields.word { rw := 0x80FF001F } old (Nat.lor w.toNat (2 ^ 31))) 31 31 = 1 := by
    rw [Fields.bits_word _ _ _ _ _ (by decide) (by decide) (by decide)]
    have : (Nat.lor w.toNat (2 ^ 31)).testBit 31 = true := by
      show (w.toNat ||| 2 ^ 31).testBit 31 = true
      rw [Nat.testBit_or, Nat.testBit_two_pow_self]; simp
    rw [← bit_eq_testBit] at this
    unfold bit at this; unfold bits
    simpa using this
  have b23 : bits (Fields.word { rw := 0x80FF001F } old (Nat.lor w.toNat (2 ^ 31))) 23 16 = bits w.toNat 23 16 := by
    rw [Fields.bits_word _ _ _ _ _ (by decide) (by decide) (by decide)]
    apply Nat.eq_of_testBit_eq; intro i
    rw [testBit_bits, testBit_bits]
    by_cases h : i < 8
    · rw [low _ (by omega)]
    · simp [h]
  have b4 : bits (Fields.word { rw := 0x80FF001F } old (Nat.lor w.toNat (2 ^ 31))) 4 0 = bits w.toNat 4 0 := by
    rw [Fields.bits_word _ _ _ _ _ (by decide) (by decide) (by decide)]
    apply Nat.eq_of_testBit_eq; intro i
    rw [testBit_bits, testBit_bits]
    by_cases h : i < 5
    · rw [low _ (by omega)]
    · simp [h]
  exact ⟨b31, b23, b4⟩

theorem bit31 (x : Nat) (h : bits x 31 31 = 1) : bit x 31 = true := by
  have e : x / 2 ^ 31 % 2 = 1 := h
  unfold bit; rw [e]; rfl

theorem ringCfg_size (x : Nat) : bits (ringCfgOf x false) 4 0 = bits x 4 0 := by
  unfold ringCfgOf fld b1
  have : bits x 4 0 < 2 ^ 5 := by unfold bits; omega
  generalize bits x 4 0 = y at *
  unfold bits
  simp only [Bool.false_eq_true, if_false]
  omega

theorem modMon_congr (b : Blk) (d : Nat) (f g : RoMon → RoMon) (h : f (b.mon d) = g (b.mon d)) : b.modMon d f = b.modMon d g := by
  unfold Blk.modMon Blk.modSup
  unfold Blk.mon at h
  simp only [h]

theorem le_lt (bs : List Byte) (n : Nat) (h : bs.length ≤ n) : le bs < 256 ^ n := by
  induction bs generalizing n with
  | nil => exact Nat.pow_pos (by decide)
  | cons x l ih =>
    cases n with
    | zero => simp at h
    | succ n =>
      have := ih n (by simpa using h)
      have hx := x.isLt
      show x.toNat + 256 * le l < 256 ^ (n + 1)
      rw [Nat.pow_succ]
      omega

theorem leAt4_lt (bs : List Byte) (o : Nat) : leAt bs o 4 < 2 ^ 32 :=
  le_lt _ 4 (by unfold slice; rw [List.length_take]; omega)

/-- Two rows with one effect answer alike. -/
theorem runRow_same (i j : Instr) (f g : Blk → Blk) (s : State) (ht : s.testMode = 0) (hi : i.wf = true) (hj : j.wf = true)
    (h : f s.core = g s.core) : runRow i f s = runRow j g s := by
  rw [runRow_after i f s ht hi, runRow_after j g s ht hj, h]

theorem inbound_takes {b : Blk} {p : Nat} {k : InPkt} (sl : Blk) (h : b.Takes p k) : inboundPacketB p k sl b =
    (if inTunnel k.addr && !k.relay then b.tunnelIn sl p k
     else if !k.isWrite then b.inbRefuse p k
     else if k.relay then (if relayPlaced k then b.relayIn p k else b.inbDrop p)
     else b.doorbellIn p k) := by
  unfold inboundPacketB Blk.inbTake
  rw [if_neg (by simp [h.live]), if_neg (by simp [h.credit]), if_neg (by simp [h.first, h.room]), if_neg (by simp [h.header]),
    if_neg (by simp [h.whole])]

theorem inbound_bell {b : Blk} {p : Nat} {k : InPkt} (sl : Blk) (h : b.Takes p k) (hw : k.isWrite = true) (hr : k.relay = false)
    (ha : inTunnel k.addr = false) : inboundPacketB p k sl b = b.doorbellIn p k := by
  rw [inbound_takes sl h, if_neg (by simp [ha]), if_neg (by simp [hw]), if_neg (by simp [hr])]

theorem low_tunnel {a : Nat} (h : a < 0x400000 ∨ 0x800000 ≤ a) : inTunnel a = false := by
  unfold inTunnel
  rcases h with h | h
  · rw [decide_eq_false (by omega)]; rfl
  · rw [decide_eq_false (p := a < 0x800000) (by omega)]; simp

theorem inboundPacket_does {p : Nat} {k : InPkt} {s : State} {b : Blk} (ht : s.testMode = 0) (hw : Instr.wf (.inboundPacket p k) = true)
    (h : inboundPacketB p k s.slow s.core = b) (hr : s.core.ldr.state ≠ .reload) : Does (.inboundPacket p k) s b := by
  unfold Does
  rw [exec_inboundPacket, runRow_next _ _ _ ht hw hr, h]

theorem tunnelAccess_does {p : Nat} {k : InPkt} {s : State} {b : Blk} (ht : s.testMode = 0) (hw : Instr.wf (.tunnelAccess p k) = true)
    (h : tunnelAccessB p k s.slow s.core = b) (hr : s.core.ldr.state ≠ .reload) : Does (.tunnelAccess p k) s b := by
  unfold Does
  rw [exec_tunnelAccess, runRow_next _ _ _ ht hw hr, h]

theorem relayWrite_does {p : Nat} {k : InPkt} {s : State} {b : Blk} (ht : s.testMode = 0) (hw : Instr.wf (.relayWrite p k) = true)
    (h : relayWriteB p k s.slow s.core = b) (hr : s.core.ldr.state ≠ .reload) : Does (.relayWrite p k) s b := by
  unfold Does
  rw [exec_relayWrite, runRow_next _ _ _ ht hw hr, h]

theorem markRelay_waited (n : Nat) (l : List Relay) : markRelay n true false l = l.map fun y => if y.seq = n then { y with waited := true } else y := by
  unfold markRelay
  refine List.map_congr_left fun y _ => ?_
  simp

theorem markRelay_written (n : Nat) (l : List Relay) : markRelay n false true l = l.map fun y => if y.seq = n then { y with written := true } else y := by
  unfold markRelay
  refine List.map_congr_left fun y _ => ?_
  simp

theorem half_ports (b : Blk) (h : Nat) (f : Nat → Port → Port) :
    (∀ i, i < 4 → ((List.range 4).foldl (fun b i => b.modPort (4 * h + i) (f i)) b).port (4 * h + i) = f i (b.port (4 * h + i)))
    ∧ (∀ j, (∀ i, i < 4 → j ≠ 4 * h + i) → ((List.range 4).foldl (fun b i => b.modPort (4 * h + i) (f i)) b).port j = b.port j) := by
  have e : (List.range 4).foldl (fun b i => b.modPort (4 * h + i) (f i)) b
      = (((b.modPort (4 * h + 0) (f 0)).modPort (4 * h + 1) (f 1)).modPort (4 * h + 2) (f 2)).modPort (4 * h + 3) (f 3) := rfl
  rw [e]
  refine ⟨fun i hi => ?_, fun j hj => ?_⟩
  · match i, hi with
    | 0, _ => rw [Blk.modPort_other _ _ _ _ (by omega), Blk.modPort_other _ _ _ _ (by omega), Blk.modPort_other _ _ _ _ (by omega), Blk.modPort_same]
    | 1, _ => rw [Blk.modPort_other _ _ _ _ (by omega), Blk.modPort_other _ _ _ _ (by omega), Blk.modPort_same, Blk.modPort_other _ _ _ _ (by omega)]
    | 2, _ => rw [Blk.modPort_other _ _ _ _ (by omega), Blk.modPort_same, Blk.modPort_other _ _ _ _ (by omega), Blk.modPort_other _ _ _ _ (by omega)]
    | 3, _ => rw [Blk.modPort_same, Blk.modPort_other _ _ _ _ (by omega), Blk.modPort_other _ _ _ _ (by omega), Blk.modPort_other _ _ _ _ (by omega)]
    | i + 4, hi => omega
  · rw [Blk.modPort_other _ _ _ _ (hj 3 (by omega)), Blk.modPort_other _ _ _ _ (hj 2 (by omega)), Blk.modPort_other _ _ _ _ (hj 1 (by omega)),
      Blk.modPort_other _ _ _ _ (hj 0 (by omega))]

theorem guarded_view (a : Nat) (h : a < 0x6000) (h4 : a % 4 = 0) : decodeAddr a = (a, 0) := by
  unfold decodeAddr guarded
  dsimp only
  rw [if_pos (decide_eq_true (by omega))]
  rw [show a / 4 * 4 = a by omega]

theorem guarded_facts (n : Nat) (h : n < 6) : pageCode n = 0xF ∧ guarded n = true ∧ pageCode n ≠ 0xE := by
  have : ∀ n, n < 6 → (pageCode n = 0xF ∧ guarded n = true ∧ pageCode n ≠ 0xE) := by decide
  exact this n h

theorem guarded_pd (a : Nat) (h : a < 0x6000) : regPd a = 0 := by
  have : ∀ n, n < 6 → ∀ a, a / 0x1000 = n → regPd a = 0 := by
    intro n hn a ha
    unfold regPd
    rw [ha]
    revert hn ha
    match n with
    | 0 | 1 | 2 | 3 | 4 | 5 => intros; rfl
    | n + 6 => intros; omega
  exact this (a / 0x1000) (by omega) a rfl

theorem guarded_decode (a : Nat) (h : a < 0x6000) : decodeAddr a = (a / 4 * 4, 0) := by
  unfold decodeAddr guarded
  dsimp only
  rw [if_pos (decide_eq_true (by omega))]

/-- A word of a guarded page that no register stands at. -/
def Bare (h : Nat × Nat) : Prop := h.1 < 0x6000 ∧ h.1 % 4 = 0 ∧ regFields h.1 = none

theorem halves_bare (x : Access) (ha : x.addr < 0x6000) (hn : ∀ h ∈ x.halves, regFields h.1 = none) : ∀ h ∈ x.halves, Bare h := by
  intro h hh
  refine ⟨?_, ?_, hn h hh⟩ <;>
  · unfold Access.halves at hh
    have hh := (List.mem_filter.mp hh).1
    simp only [List.mem_cons, List.not_mem_nil, or_false] at hh
    rcases hh with rfl | rfl <;> dsimp only <;> omega

theorem bare_any (l : List (Nat × Nat)) (f : Nat → Bool) (hl : ∀ h ∈ l, Bare h) (hf : ∀ h, Bare h → f h.1 = false) : (l.map (·.1)).any f = false := by
  rw [List.any_eq_false]
  intro y hy
  obtain ⟨h, hh, rfl⟩ := List.mem_map.mp hy
  rw [hf h (hl h hh)]; decide

theorem bare_access (b : Blk) (x : Access) (ha : x.addr < 0x6000) (hal : x.aligned = true) (hl : ∀ h ∈ x.halves, Bare h) : b.accErr x = none := by
  obtain ⟨g1, g2, g3⟩ := guarded_facts (x.addr / 0x1000) (by omega)
  have hpg : x.addr % 2 ^ 20 / 0x1000 = x.addr / 0x1000 := by rw [Nat.mod_eq_of_lt (by omega)]
  have fa : ∀ h, Bare h → fieldsAt h.1 = none := fun h hh => by unfold fieldsAt; rw [guarded_view _ hh.1 hh.2.1]; exact hh.2.2
  unfold Blk.accErr
  simp only [hpg, hal]
  rw [bare_any _ _ hl fun h hh => by rw [guarded_view _ hh.1 hh.2.1, guarded_pd _ hh.1]; rfl,
    bare_any _ wideSide hl fun h hh => by unfold wideSide; rw [fa h hh],
    bare_any _ narrowBad hl fun h hh => by unfold narrowBad; rw [fa h hh],
    bare_any _ aliasBad hl fun h hh => by unfold aliasBad; rw [guarded_view _ hh.1 hh.2.1]; rfl]
  simp [g2, g3]

theorem bare_read (b sl : Blk) (p : MPort) (a : Nat) (h : a < 0x6000) (hn : regFields a = none) : b.readWord sl p a = (0, b) := by
  unfold Blk.readWord
  have hv0 : b.regValue sl p a = 0 := by unfold Blk.regValue; rw [hn]
  have n1 : ¬ (0x02010 ≤ a ∧ a < 0x02020) := by
    intro hh
    have e1 : a / 0x1000 = 2 := by omega
    have e2 : 0x010 ≤ a % 0x1000 ∧ a % 0x1000 < 0x020 := by omega
    unfold regFields at hn; rw [e1] at hn
    have hn : mbxFields (a % 0x1000) = none := hn
    unfold mbxFields at hn
    rw [if_neg (by omega), if_pos (.inr e2)] at hn; cases hn
  have n2 : ¬ (0x01100 ≤ a ∧ a < 0x01200) := by
    intro hh
    have e1 : a / 0x1000 = 1 := by omega
    have e2 : 0x100 ≤ a % 0x1000 ∧ a % 0x1000 < 0x200 := by omega
    unfold regFields at hn; rw [e1] at hn
    have hn : keyFields (a % 0x1000) = none := hn
    unfold keyFields at hn
    rw [if_neg (by omega), if_neg (by omega), if_neg (by omega), if_pos e2] at hn; cases hn
  have n3 : ¬ (0x03000 ≤ a ∧ a < 0x03100) := by
    intro hh
    have e1 : a / 0x1000 = 3 := by omega
    have e2 : a % 0x1000 < 0x100 := by omega
    unfold regFields at hn; rw [e1] at hn
    have hn : evtFields (a % 0x1000) = none := hn
    unfold evtFields at hn
    rw [if_pos e2] at hn; cases hn
  rw [if_neg n1, if_neg n2, if_neg n3, hv0]

theorem bare_reads (b sl : Blk) (p : MPort) : ∀ l, (∀ h ∈ l, Bare h) → b.readHalves sl p id l = (0, b)
  | [], _ => rfl
  | (a, m) :: t, hl => by
    have h := hl (a, m) (List.mem_cons_self ..)
    unfold Blk.readHalves
    rw [guarded_view a h.1 h.2.1]; dsimp only
    rw [bare_read b sl p a h.1 h.2.2]; dsimp only
    rw [show (if t.isEmpty then b else id b) = b from ite_self _, bare_reads b sl p t fun y hy => hl y (List.mem_cons_of_mem _ hy)]
    rw [show Nat.land 0 (laneMask m) = 0 from Nat.zero_and _, Nat.zero_mul]
    rfl

theorem bare_word (b : Blk) (p : MPort) (a w m : Nat) (live : Bool) (f : Option (List Byte)) (h : Bare (a, m)) :
    b.writeWord p a w m live f = (some 8, b) := by
  have g := (guarded_facts (a / 0x1000) (by have := h.1; dsimp only at this; omega)).2.1
  unfold Blk.writeWord
  rw [guarded_view a h.1 h.2.1]; dsimp only
  rw [h.2.2]; dsimp only
  rw [g, if_pos rfl]

theorem bare_writes (b : Blk) (x : Access) : ∀ l live, (∀ h ∈ l, Bare h) → b.writeHalves x id live l = (if l = [] then none else some 8, b)
  | [], _, _ => rfl
  | (a, m) :: t, live, hl => by
    unfold Blk.writeHalves
    dsimp only
    rw [bare_word b x.port a _ m live x.flash (hl _ (List.mem_cons_self ..))]; dsimp only
    rw [show (if t.isEmpty then b else id b) = b from ite_self _, bare_writes b x t false fun y hy => hl y (List.mem_cons_of_mem _ hy)]
    exact (congrArg (fun o => (o, b)) (if_neg (List.cons_ne_nil _ _))).symm

theorem halves_some (x : Access) (h : x.aligned = true) (hb : x.be < 256) : x.halves ≠ [] := by
  intro e
  unfold Access.halves at e
  have h1 : x.be % 16 = 0 := by
    by_cases z : x.be % 16 = 0
    · exact z
    · simp [List.filter_cons, z] at e
  have h2 : x.be / 16 % 16 = 0 := by
    by_cases z : x.be / 16 % 16 = 0
    · exact z
    · simp [h1, z] at e
  have z : x.be = 0 := by omega
  unfold Access.aligned at h
  rw [z] at h
  revert h; decide

theorem page_word (b sl : Blk) (p : MPort) (j : Nat) (h : j < 32) :
    b.regValue sl p (0x100 + 4 * j) = (List.range 8).foldl (fun w k => w + pageCode (j * 8 + k) * 16 ^ k) 0 := by
  have e1 : (0x100 + 4 * j) / 0x1000 = 0 := by omega
  have e2 : (0x100 + 4 * j) % 0x1000 = 0x100 + 4 * j := by omega
  have f : regFields (0x100 + 4 * j) = roReg := by
    unfold regFields; rw [e1, e2]; exact if_pos (.inr ⟨by omega, by omega⟩)
  have g : b.roStatus p (0x100 + 4 * j) = b.idStatus (0x100 + 4 * j) := by
    unfold Blk.roStatus; rw [e1, e2]; rfl
  have g2 : sl.slowStatus (0x100 + 4 * j) = 0 := by
    unfold Blk.slowStatus; rw [e1]; rfl
  unfold Blk.regValue
  rw [f, g, g2]
  have hid : b.idStatus (0x100 + 4 * j) = (List.range 8).foldl (fun w k => w + pageCode (j * 8 + k) * 16 ^ k) 0 := by
    unfold Blk.idStatus
    split <;> first | omega | skip
    rw [show (0x100 + 4 * j - 0x100) / 4 = j by omega]
  have z : ∀ x : Nat, Nat.land x (Nat.lor 0 (Nat.lor 0 0)) = 0 := fun x => by
    rw [show Nat.lor 0 (Nat.lor 0 0) = 0 by decide]; exact Nat.and_zero x
  show (if (0x100 + 4 * j) = 0x02000 then 0 else Nat.land _ (Nat.lor 0 (Nat.lor 0 0))) + _ + 0 = _
  rw [z, ite_self, hid]; omega

theorem page_codes (n : Nat) (h : n < 256) :
    bits ((List.range 8).foldl (fun w k => w + pageCode (n / 8 * 8 + k) * 16 ^ k) 0) (4 * (n % 8) + 3) (4 * (n % 8)) = pageCode n
      ∧ (pageCode n = 0xF ↔ n < 6) ∧ (pageCode n ≤ 8 ∨ pageCode n = 0xE ∨ pageCode n = 0xF) := by
  have : ∀ n, n < 256 → (bits ((List.range 8).foldl (fun w k => w + pageCode (n / 8 * 8 + k) * 16 ^ k) 0) (4 * (n % 8) + 3) (4 * (n % 8)) = pageCode n
      ∧ (pageCode n = 0xF ↔ n < 6) ∧ (pageCode n ≤ 8 ∨ pageCode n = 0xE ∨ pageCode n = 0xF)) := by
    set_option maxRecDepth 20000 in decide
  exact this n h

end Sys2Proof.Machine
end

