-- ==== Sys2Proof/Tests/Slice0.lean ====
section
/-! SUPPORT. Tests. First the form checks: an ill-formed command for each check of WellFormed.lean, refused. Then the
spec's own check values. Then, for each statement of Obligations.lean that has hypotheses, one theorem named after it:
for every clause, a concrete state and concrete operands that meet all its hypotheses together (an equation that only
names a value no other hypothesis uses is left out). The states are small variations of `wB`, a block in READY. -/

open Sys2Proof Sys2Proof.Machine

set_option Elab.async false

/-! ## The form checks -/

/-- Every command of the list is ill formed. -/
def wIll (l : List Instr) : Bool := l.all fun c => !c.wf

/-- Clock, power, registers and the management port: each check refuses the value past its range. -/
theorem test_wf_management : wIll [.powerOnReset 4, .powerAck 26, .pwrTimeout 26, .powerAckLost 26, .powerDownAck 26,
    .powerAsk 26 false, .registerWrite ⟨.mpa, none⟩ 0x100000 0 0, .registerWrite ⟨.mpa, none⟩ 0 256 0,
    .registerWrite ⟨.mpa, some ⟨0x100000, 0, true, 0⟩⟩ 0 0 0, .semAcquire ⟨.mpa, none⟩ 64, .semAcquire ⟨.mpa, some ⟨0,
          256, true, 0⟩⟩ 0,
    .semRelease .mpa 64, .semForce .mpa 64, .mbxSelWrite .mpa 256 0, .mbxSelWrite .mpa 0 0x40000, .evtStatRead .mpa 64,
    .evtAck .mpa 64 0 0, .evtAck .mpa 0 256 0, .evtAck .mpa 0 0 0x10000, .updArm .mpa 4 0 false,
          .updArm .mpa 0 16 false]
    = true := by decide

/-- Rings, doorbells and queues. -/
theorem test_wf_queues : wIll [.adminNudge 256 0 4 0, .adminNudge 0 0 4 0x100000000, .adminCplReturn 256 0 4 0,
    .eventRingReturn 256 0 4 0, .adminPoll 256, .adminRingReadDone 256 .error, .createQueue (.dom 256),
          .adminNop (.dom 256),
    .contextWaitTimeout (.dom 256), .nudge (.dom 0x40000) 0 4 0, .nudge (.cell 64) 0 4 0,
          .nudge (.dom 0) 0 4 0x100000000,
    .pollDue (.cell 64), .bindQueue (.dom 0x40000), .thermalShed (.cell 64), .contextScrub (.cell 64) 0 .clean,
    .contextScrub (.dom 0) 2 .clean, .ringTileArrival 8 0 0 .error, .ringTileArrival 0 1024 0 .error,
    .ringTileArrival 0 0 4 .error, .messageCoalesceEnd 4096, .domSleepWrite .mpa 8 0] = true := by decide

/-- A completion with its fields: tag, generation, status, offset. -/
def wCpl (tag gen cstat ofs : Nat) : Instr := .readCompletion 0 ⟨false, tag, gen, cstat, ofs, true, false, []⟩ .none

/-- Movers, ports and completions. -/
theorem test_wf_ports : wIll [.entryStart 18 0, .entryStart 0 64, .alignedTargetLaunch 18 0 0, .alignedTargetLaunch 0 64 0,
    .alignedTargetLaunch 0 0 64, .readCompletion 8 ⟨false, 0, 0, 0, 0, true, false, []⟩ .none, wCpl 1024 0 0 0,
          wCpl 0 4 0 0,
    wCpl 0 0 8 0, wCpl 0 0 0 4096, .readTimeoutSweep 8 [], .readTimeoutSweep 0 [0, 1024], .tagRejoin 8 0,
          .tagRejoin 0 1024,
    .packetAccepted 8 .txReq 0, .tokenReturn 8 0 false, .tokenReturn 0 4096 false, .movRetire .mpa 18, .movFail 18 0,
    .movFail 0 16, .dptDrain .mpa 256, .linkDown 40 false] = true := by decide

/-- Phase, lines, latency, FIFOs and stream ports. -/
theorem test_wf_fabric : wIll [.phaseCount 16 ⟨.forward, 0⟩, .fabricTimeValid 0x10000000000000000, .latencyProbe 1024,
    .rlCapture ⟨64, true, 0⟩, .rlnModeWrite .mpa 64 0, .captureConsumed (.wired 64), .captureConsumed (.virt 4096),
    .rlnVrlRaise .mpa 4096 0, .rlnVrlRaise .mpa 0 256, .vrlMessage 4096 0 4 0, .vrlMessage 0 0 4 0x100000000,
    .sfEnable .mpa 32 0, .spWordIn 8 ⟨List.replicate 16 0, false, false, 0, false⟩,
    .spWordIn 0 ⟨List.replicate 15 0, false, false, 0, false⟩, .spWordIn 0 ⟨List.replicate 16 0, false, false, 16,
          false⟩,
    .spStall 8, .indexPulse ⟨16, true, 0⟩, .phasePulse ⟨16, true, 0⟩, .rlRelease ⟨64, true, 0⟩,
          .spWordOut 8 false] = true := by decide

/-- An inbound packet with its fields. -/
def wPak (addr dom tag gen inst qid : Nat) : InPkt :=
  ⟨true, false, false, addr, 4, dom, tag, gen, false, true, inst, false, qid, []⟩

/-- Units, slots, monitors, inbound packets and Square halves. -/
theorem test_wf_units : wIll [.internal 256, .slotPresenceAccepted 32, .tempSample 4 0, .tempSample 0 1024, .tempStale 4,
    .roWindow 26 0, .roWindow 0 0x10000, .inboundPacket 8 (wPak 0 0 0 0 0 0),
          .inboundPacket 0 (wPak 0x10000000000000000 0 0 0 0 0),
    .relayWrite 0 (wPak 0 256 0 0 0 0), .relayWrite 0 (wPak 0 0 1024 0 0 0), .relayWrite 0 (wPak 0 0 0 4 0 0),
    .relayWrite 0 (wPak 0 0 0 0 64 0), .relayWrite 0 (wPak 0 0 0 0 0 0x40000), .squareHalfFailure 2,
    .squareHalfSelftestDone 2 [] true, .squareHalfSelftestDone 0 [16384] true] = true := by decide

/-! ## The spec's own check values and worked examples -/

/-- The ASCII bytes "123456789" (R28, R76, R132). -/
def wDigits : List Byte := (List.range 9).map fun k => BitVec.ofNat 8 (0x31 + k)

/-- The check values R28, R132 and R76 give. -/
theorem test_crc_check_values : crc32 wDigits = 0xCBF43926 ∧ crc32c wDigits = 0xE3069283 ∧ crc16 wDigits = 0x29B1 := by
  decide +kernel

/-- The 10-bit camera group of "The Movers", unpacked by code 1 and packed again by code 3. -/
theorem test_camera_group : reshapeGroup 1 [0x34, 0x12, 0xC5, 0x7A, 0x9E] = [0x34, 0x02, 0x44, 0x01, 0xAC, 0x03, 0x79, 0x02]
    ∧ reshapeGroup 3 [0x34, 0x02, 0x44, 0x01, 0xAC, 0x03, 0x79, 0x02] = [0x34, 0x12, 0xC5, 0x7A, 0x9E] := by decide +kernel

/-! ## Small states -/

/-- Every power domain is on. -/
def wOn : Tab PowDom := (List.range 25).map fun i => (i + 1, { req := true, ack := true })

/-- An image with two domains, one window and one target range. -/
def wImg : Image := {
  ident := { portEn := 0xFF }
  domains := [⟨0x1000, true, 4, 0, 1, 1, 0, 0x2000, 0⟩, ⟨0x1000, true, 4, 0, 1, 1, 0, 0x2000, 0⟩]
  windows := [⟨0, 256, true, true⟩]
  targets := [⟨0, 256, 0, false, 0, false, 0⟩] }

/-- A block in READY with all its domains on and its ports up. -/
def wB : Blk := {
  ldr := { state := .ready }, power := { doms := wOn }, image := some wImg
  ports := (List.range 8).map fun i => (i, { up := true }) }

/-- The same with the unlock of port MPA live. -/
def wK : Blk := { wB with mg := { a := { remain := 1024 } } }

/-- The state of a block. -/
def wSt (b : Blk) : State := { State.reset with core := b }

/-- A domain queue in a phase. -/
def wQ (p : QPhase) : Queue := { run := { phase := p } }

/-- The block with domain queue 0 as `x`. -/
def wQB (x : Queue) : Blk := { wB with queues := [(0, x)] }

/-- A descriptor of a kind. -/
def wDesc (kind : Nat) : Desc := { decodeDesc (List.replicate 64 0) with kind := kind }

/-- An entry of the local buffer. -/
def wLE (kind : Nat) (win : Option Window) : LEntry := ⟨0, wDesc kind, win, tileCrc (wDesc kind).raw fullMask⟩

/-- A pin that has stood at a level for longer than any filter asks. -/
def wPin (l : Bool) : PinSample := ⟨l, 1000⟩

/-- An entry in execution. -/
def wExec (kind : Nat) (st : ExStage) : Exec := newExec ⟨0, wDesc kind, none, 0⟩ st false 0 0

/-- A binding of domain queue 0. -/
def wBind (lbuf : List LEntry) (exec : List Exec) : Binding := ⟨.dom 0, false, 0, lbuf, exec, [], 0, 0, 0, 0, 0, 0, [],
      none, false⟩

/-- The block with mover 0 ACTIVE and queue 0, as `x`, bound to its place 0 by `y`. -/
def wM (x : Queue) (y : Binding) : Blk := { wQB x with movers := [(0, { state := .active, bind := [(0, some y)] })] }

/-- A launch window of unit 0, open from the first cycle on. -/
def wWin : Window := ⟨0, ⟨0, 0, 0⟩, ⟨100, 0, 0⟩, 0, 0⟩

/-- A packet. -/
def wPkt (write : Bool) : Pkt := ⟨write, 0, 4, [], 0, 0, 0, 0, 0, 0, false, 0, none, .bulk, 0, 0, none, .reject, false,
      false, 0, []⟩

/-- A read tag that is out. -/
def wTag (u : Purpose) (len : Nat) : TagRec := { inUse := true, len := len, purpose := u }

/-- The block with tag 0 of port 0 out for purpose `u`. -/
def wT (b : Blk) (u : Purpose) (len : Nat) : Blk := b.modPort 0 fun v => { v with tags := [(0, wTag u len)] }

/-- Some bytes with value `n`. -/
def wBytes (len n : Nat) : List Byte := leBytes len n

/-- A tile that passes its check. -/
def wTile : List Byte := sealTile (List.replicate 60 0)

/-- An IDENT section with movers 0 and 1 spare. -/
def wIdent : List Byte := List.replicate 4 0 ++ [3] ++ List.replicate 7 0 ++ [0, 1] ++ List.replicate 50 0

/-- A POLICY section with a poll budget of 1. -/
def wPol : List Byte := List.replicate 8 0 ++ [1] ++ List.replicate 55 0

/-- The directory entries of the two sections. -/
def wDir : List DirEntry := [⟨1, false, 128, 64, crc32 wIdent⟩, ⟨7, false, 192, 64, crc32 wPol⟩]

/-- A header and directory of a copy with the four sections a copy must have. -/
def wCopy (seq : Nat) : List Byte :=
  let dir := [(1, 128, 64), (2, 192, 32), (4, 256, 16), (7, 320, 64)].flatMap fun (t, o, n) =>
    leBytes 4 t ++ leBytes 4 o ++ leBytes 4 n ++ leBytes 4 0
  let h := leBytes 4 0x57444C46 ++ leBytes 2 0x0300 ++ leBytes 2 4 ++ leBytes 4 seq ++ leBytes 4 0 ++ leBytes 4 384
    ++ leBytes 4 0x0500 ++ leBytes 32 0 ++ leBytes 4 (crc32 dir)
  h ++ leBytes 4 (crc32 h) ++ dir

/-- The header of a copy with these sections. -/
def wHdr : CopyHdr := ⟨0, 0, 0, 5, 0, wDir⟩

/-- The loader in a state, the rest of the block at reset. -/
def wL (l : Loader) : State := wSt { ldr := l }

/-- An inbound packet. -/
def wIn (write : Bool) (addr : Nat) : InPkt :=
  ⟨write, false, false, addr, 4, 0, 0, 0, false, false, 0, false, 0, if write then leBytes 4 0 else []⟩

/-- A register is open when its conditions compute to true. -/
theorem wOpen {b : Blk} {p : MPort} {a : Nat} (h : (decide ((b.side p).outstanding.length < 4) && !b.semDenied p (a / 0x1000)
    && b.on (regPd a) && (!b.inSafe || guarded (a / 0x1000))) = true) : b.Open p a := by
  simp only [Bool.and_eq_true, Bool.or_eq_true, Bool.not_eq_true', decide_eq_true_eq] at h
  exact ⟨h.1.1.1, h.1.1.2, h.1.2, h.2⟩

/-- The invariant holds where a command waits. -/
theorem wInv : State.Inv { State.reset with pending := [.nvmSettleDone] } where
  pins := Blk.pins_follow _ (by decide +kernel)
  mode := by decide +kernel

/-- An image that passes its checks is judged sound. -/
theorem wJudge {t : Sections} (h : (countsOk t && sparesOk (imageOf t).ident && rangesOk (imageOf t)) = true) :
    judge t = .ok (imageOf t) := by
  simp only [Bool.and_eq_true] at h
  simp [judge, h.1.1, h.1.2, h.2]

theorem test_StepRunsTheFrontCommand :
    (∃ (c : Instr) (rest : List Instr) (s : State), s.pending = c :: rest) := by
  exact ⟨.mgclkGap, [], { wSt wB with pending := [.mgclkGap] }, rfl⟩

theorem test_EmptyQueueCycles :
    (∃ (s : State), s.pending = [] ∧ s.testMode = 0) := by
  exact ⟨wSt wB, by decide +kernel, by decide +kernel⟩

theorem test_CommandsAnswer :
    (∃ (c : Instr) (s : State), s.testMode = 0 ∧ (∀ (m : Nat), c ≠ Instr.powerOnReset m)) := by
  exact ⟨.mgclkGap, wSt wB, by decide +kernel, nofun⟩

theorem test_IllFormedChangesNothing :
    (∃ (c : Instr) (s : State), s.testMode = 0 ∧ c.wf = false ∧ (∀ (m : Nat), c ≠ Instr.powerOnReset m)) := by
  exact ⟨.semAcquire ⟨.mpa, none⟩ 64, wSt wB, by decide +kernel, by decide +kernel, nofun⟩

theorem test_PinsFollowEveryStep :
    (∃ (s : State) (t : State), s.Inv ∧ step s = Host.Outcome.next t) := by
  exact ⟨{ State.reset with pending := [.nvmSettleDone] }, _, wInv, rfl⟩

theorem test_ResetState :
    (∃ (d : Nat), 1 ≤ d) := by
  exact ⟨25, by decide +kernel⟩

theorem test_PowerOnResetClears :
    (∃ (m : Nat), m < 4) := by
  exact ⟨3, by decide +kernel⟩

theorem test_ClockEventsComplete :
    (∃ (s : State) (m : Nat) (g : Nat), s.testMode = 0 ∧ s.core.ldr.state ≠ LdrState.reload ∧
          s.core.clock.refLost = false ∧ 588000 ≤ m ∧ m ≤ 1224000 ∧
          (s.core.clock.rangePause = false ∨ m < 600000 ∨ 1200000 < m) ∧ 245000 ≤ g ∧ g ≤ 255000)
    ∧ (∃ (s : State) (m : Nat) (g : Nat), s.testMode = 0 ∧ s.core.ldr.state ≠ LdrState.reload ∧
          s.core.clock.refLost = false ∧ 588000 ≤ m ∧ m ≤ 1224000 ∧
          (s.core.clock.rangePause = false ∨ m < 600000 ∨ 1200000 < m) ∧ (g < 245000 ∨ 255000 < g))
    ∧ (∃ (s : State) (m : Nat) (g : Nat), s.testMode = 0 ∧ s.core.ldr.state ≠ LdrState.reload ∧
          s.core.clock.refLost = false ∧ 600000 ≤ m ∧ m ≤ 1200000 ∧ s.core.clock.rangePause = true ∧ 245000 ≤ g ∧
          g ≤ 255000)
    ∧ (∃ (s : State) (m : Nat) (g : Nat), s.testMode = 0 ∧ s.core.ldr.state ≠ LdrState.reload ∧
          s.core.clock.refLost = false ∧ (m < 588000 ∨ 1224000 < m) ∧ 245000 ≤ g ∧ g ≤ 255000 ∧
          s.core.clock.rangePause = true)
    ∧ (∃ (s : State) (m : Nat) (g : Nat), s.testMode = 0 ∧ s.core.ldr.state ≠ LdrState.reload ∧
          s.core.clock.refLost = false ∧ (m < 588000 ∨ 1224000 < m) ∧ 245000 ≤ g ∧ g ≤ 255000 ∧
          s.core.clock.rangePause = false)
    ∧ (∃ (s : State), s.testMode = 0 ∧ s.core.ldr.state ≠ LdrState.reload ∧ s.core.ldr.state ≠ LdrState.power)
    ∧ (∃ (s : State), s.testMode = 0 ∧ s.core.ldr.state ≠ LdrState.reload ∧ s.core.clock.refLost = true) := by
  refine ⟨?_, ?_, ?_, ?_, ?_, ?_, ?_⟩
  · exact ⟨wSt wB, 588000, 245000, by decide +kernel, by decide +kernel, by decide +kernel, by decide +kernel,
        by decide +kernel, .inl rfl, by decide +kernel, by decide +kernel⟩
  · exact ⟨wSt wB, 1224000, 255001, by decide +kernel, by decide +kernel, by decide +kernel, by decide +kernel,
        by decide +kernel, by decide +kernel, by decide +kernel⟩
  · exact ⟨wSt { wB with clock := { rangePause := true } }, 1200000, 255000, by decide +kernel, by decide +kernel,
        by decide +kernel, by decide +kernel, by decide +kernel, by decide +kernel, by decide +kernel,
        by decide +kernel⟩
  · exact ⟨wSt { wB with clock := { rangePause := true } }, 587999, 245000, by decide +kernel, by decide +kernel,
        by decide +kernel, by decide +kernel, by decide +kernel, by decide +kernel, by decide +kernel⟩
  · exact ⟨wSt wB, 1224001, 255000, by decide +kernel, by decide +kernel, by decide +kernel, by decide +kernel,
        by decide +kernel, by decide +kernel, by decide +kernel⟩
  · exact ⟨wSt wB, by decide +kernel, by decide +kernel, by decide +kernel⟩
  · exact ⟨wSt { wB with clock := { refLost := true } }, by decide +kernel, by decide +kernel, by decide +kernel⟩

theorem test_TestModeStops :
    (∃ (s : State) (c : Instr), s.testMode ≠ 0 ∧ (∀ (m : Nat), c ≠ Instr.powerOnReset m))
    ∧ (∃ (s : State), s.testMode ≠ 0 ∧ s.pending = []) := by
  refine ⟨?_, ?_⟩
  · exact ⟨{ wSt wB with testMode := 3 }, .mgclkGap, by decide +kernel, nofun⟩
  · exact ⟨{ wSt wB with testMode := 1 }, by decide +kernel, by decide +kernel⟩

theorem test_PortResetReleasesThePort :
    (∃ (s : State) (p : MPort), s.testMode = 0 ∧ s.core.ldr.state ≠ LdrState.reload ∧ (s.core.side p).outstanding = [] ∧
          s.core.inShadow = [] ∧ (∀ (n : Nat), n < 64 → s.core.semOwner n ≠ some p))
    ∧ (∃ (s : State) (n : Nat), s.testMode = 0 ∧ s.core.ldr.state ≠ LdrState.reload ∧ n < 64)
    ∧ (∃ (s : State) (p : MPort) (q : MPort), s.testMode = 0 ∧ s.core.ldr.state ≠ LdrState.reload ∧ q ≠ p) := by
  refine ⟨?_, ?_, ?_⟩
  · exact ⟨wSt wB, .mpa, by decide +kernel, by decide +kernel, by decide +kernel, by decide +kernel, fun _ _ => nofun⟩
  · exact ⟨wSt wB, 63, by decide +kernel, by decide +kernel, by decide +kernel⟩
  · exact ⟨wSt wB, .mpa, .mpb, by decide +kernel, by decide +kernel, by decide +kernel⟩

theorem test_LoaderChoosesACopy :
    (∃ (s : State) (l : Loader), s.testMode = 0 ∧ l = s.core.ldr ∧ (l.state = LdrState.reset ∨ l.state = LdrState.wait))
    ∧ (∃ (s : State) (l : Loader) (x : List Byte) (y : List Byte), s.testMode = 0 ∧ l = s.core.ldr ∧
          l.state = LdrState.hdr ∧ l.blankWait = false ∧ l.blankRepeats < 3 ∧ blankCopy x = true ∧ blankCopy y = true)
    ∧ (∃ (s : State) (l : Loader), s.testMode = 0 ∧ l = s.core.ldr ∧ l.state = LdrState.hdr ∧ l.blankWait = true)
    ∧ (∃ (s : State) (l : Loader) (x : List Byte) (y : List Byte), s.testMode = 0 ∧ l = s.core.ldr ∧
          l.state = LdrState.hdr ∧ l.blankWait = false ∧ (blankCopy x && blankCopy y) = false ∧ headerReason x = 0 ∧
          dirReason x (copyHdr x) = 0 ∧ headerReason y = 0 ∧ dirReason y (copyHdr y) = 0)
    ∧ (∃ (s : State) (l : Loader) (x : List Byte) (y : List Byte), s.testMode = 0 ∧ l = s.core.ldr ∧
          l.state = LdrState.hdr ∧ l.blankWait = false ∧ (blankCopy x && blankCopy y) = false ∧ headerReason x ≠ 0 ∧
          headerReason y = 0 ∧ dirReason y (copyHdr y) = 0)
    ∧ (∃ (s : State) (l : Loader) (x : List Byte) (y : List Byte), s.testMode = 0 ∧ l = s.core.ldr ∧
          l.state = LdrState.hdr ∧ l.blankWait = false ∧ (blankCopy x && blankCopy y) = false ∧ headerReason x = 0 ∧
          dirReason x (copyHdr x) = 0 ∧ headerReason y ≠ 0)
    ∧ (∃ (s : State) (l : Loader) (x : List Byte) (y : List Byte) (d : Nat), s.testMode = 0 ∧ l = s.core.ldr ∧
          l.state = LdrState.hdr ∧ l.blankWait = false ∧ (blankCopy x && blankCopy y) = false ∧ headerReason x ≠ 0 ∧
          headerReason y ≠ 0 ∧ l.busy = false ∧ 1 ≤ d) := by
  refine ⟨?_, ?_, ?_, ?_, ?_, ?_, ?_⟩
  · exact ⟨State.reset, _, by decide +kernel, rfl, by decide +kernel⟩
  · exact ⟨wL { state := .hdr, blankRepeats := 2 }, _, List.replicate 320 0xFF, List.replicate 320 0x00,
        by decide +kernel, rfl, by decide +kernel, by decide +kernel, by decide +kernel, by decide +kernel,
        by decide +kernel⟩
  · exact ⟨wL { state := .hdr, blankWait := true }, _, by decide +kernel, rfl, by decide +kernel, by decide +kernel⟩
  · exact ⟨wL { state := .hdr }, _, wCopy 1, wCopy 2, by decide +kernel, rfl, by decide +kernel, by decide +kernel,
        by decide +kernel, by decide +kernel, by decide +kernel, by decide +kernel, by decide +kernel⟩
  · exact ⟨wL { state := .hdr }, _, [], wCopy 2, by decide +kernel, rfl, by decide +kernel, by decide +kernel,
        by decide +kernel, by decide +kernel, by decide +kernel, by decide +kernel⟩
  · exact ⟨wL { state := .hdr }, _, wCopy 1, [], by decide +kernel, rfl, by decide +kernel, by decide +kernel,
        by decide +kernel, by decide +kernel, by decide +kernel, by decide +kernel⟩
  · exact ⟨wL { state := .hdr, blankRepeats := 3 }, _, [1], [1], 25, by decide +kernel, rfl, by decide +kernel,
        by decide +kernel, by decide +kernel, by decide +kernel, by decide +kernel, by decide +kernel,
        by decide +kernel⟩

theorem test_LoaderVerifiesAndPowersUp :
    (∃ (s : State) (l : Loader) (h : CopyHdr) (secs : List (List Byte)) (alt : List (List Byte)) (r : Nat),
          s.testMode = 0 ∧ l = s.core.ldr ∧ l.state = LdrState.verify ∧ l.hdr = some h ∧
          (gather l.otherDir h.dir secs alt = none ∧ r = 5 ∨ ∃ t m, gather l.otherDir h.dir secs alt = some (t, m) ∧
          judge t = Except.error r) ∧ l.useB = false ∧ l.refusedB = false)
    ∧ (∃ (s : State) (l : Loader) (h : CopyHdr) (secs : List (List Byte)) (alt : List (List Byte)) (r : Nat),
          s.testMode = 0 ∧ l = s.core.ldr ∧ l.state = LdrState.verify ∧ l.hdr = some h ∧
          (gather l.otherDir h.dir secs alt = none ∧ r = 5 ∨ ∃ t m, gather l.otherDir h.dir secs alt = some (t, m) ∧
          judge t = Except.error r) ∧ l.useB = true ∧ l.refusedA = false)
    ∧ (∃ (s : State) (l : Loader) (h : CopyHdr) (secs : List (List Byte)) (alt : List (List Byte)) (t : Sections) (m : Bool) (im : Image),
          s.testMode = 0 ∧ l = s.core.ldr ∧ l.state = LdrState.verify ∧ l.hdr = some h ∧
          gather l.otherDir h.dir secs alt = some (t, m) ∧ judge t = Except.ok im ∧ s.core.clock.mclkOk = false)
    ∧ (∃ (s : State) (l : Loader) (h : CopyHdr) (secs : List (List Byte)) (alt : List (List Byte)) (t : Sections) (m : Bool) (im : Image),
          s.testMode = 0 ∧ l = s.core.ldr ∧ l.state = LdrState.verify ∧ l.hdr = some h ∧
          gather l.otherDir h.dir secs alt = some (t, m) ∧ judge t = Except.ok im ∧ s.core.clock.mclkOk = true ∧
          (tabGet { } s.core.power.doms 1).ack = false ∧ (tabGet { } s.core.power.doms 1).req = false ∧
          s.core.power.downs = [])
    ∧ (∃ (s : State) (l : Loader), s.testMode = 0 ∧ l = s.core.ldr ∧ l.state = LdrState.power ∧ l.groupAt = 0 ∧
          l.missed = [] ∧ (tabGet { } s.core.power.doms 1).req = true ∧ (tabGet { } s.core.power.doms 1).ack = false ∧
          (tabGet { } s.core.power.doms 5).ack = false)
    ∧ (∃ (s : State) (l : Loader) (d : Nat) (e : Nat), s.testMode = 0 ∧ l = s.core.ldr ∧ l.state = LdrState.power ∧
          (d = 1 ∧ l.groupAt = 0 ∨ d = 2 ∧ l.groupAt = 2) ∧ l.missed = [] ∧
          (tabGet { } s.core.power.doms d).ack = false ∧ 1 ≤ e) := by
  refine ⟨?_, ?_, ?_, ?_, ?_, ?_⟩
  · exact ⟨wL { state := .verify, hdrA := some wHdr, hdrB := some wHdr }, _, wHdr, [[]], [], 5, by decide +kernel, rfl,
        by decide +kernel, by decide +kernel, .inl ⟨by decide +kernel, rfl⟩, by decide +kernel, by decide +kernel⟩
  · exact ⟨wL { state := .verify, hdrA := some wHdr, hdrB := some wHdr, useB := true }, _, wHdr, [[]], [], 5,
        by decide +kernel, rfl, by decide +kernel, by decide +kernel, .inl ⟨by decide +kernel, rfl⟩, by decide +kernel,
        by decide +kernel⟩
  · exact ⟨wL { state := .verify, hdrA := some wHdr, hdrB := some wHdr }, _, wHdr, [wIdent, wPol], [],
        [(1, wIdent), (7, wPol)], false, imageOf [(1, wIdent), (7, wPol)], by decide +kernel, rfl, by decide +kernel,
        by decide +kernel, by decide +kernel, wJudge (by decide +kernel), by decide +kernel⟩
  · exact ⟨wSt { ldr := { state := .verify, hdrA := some wHdr, hdrB := some wHdr }, clock := { mclkOk := true } }, _,
        wHdr, [wIdent, wPol], [], [(1, wIdent), (7, wPol)], false, imageOf [(1, wIdent), (7, wPol)], by decide +kernel,
        rfl, by decide +kernel, by decide +kernel, by decide +kernel, wJudge (by decide +kernel), by decide +kernel,
        by decide +kernel, by decide +kernel, by decide +kernel⟩
  · exact ⟨wSt { ldr := { state := .power }, power := { doms := [(1, { req := true })] } }, _, by decide +kernel, rfl,
        by decide +kernel, by decide +kernel, by decide +kernel, by decide +kernel, by decide +kernel,
        by decide +kernel⟩
  · exact ⟨wL { state := .power, groupAt := 2 }, _, 2, 25, by decide +kernel, rfl, by decide +kernel, by decide +kernel,
        by decide +kernel, by decide +kernel, by decide +kernel⟩

theorem test_SelftestAndApply :
    (∃ (s : State) (l : Loader) (m : Nat), s.testMode = 0 ∧ l = s.core.ldr ∧ l.state = LdrState.selftest ∧ m < 18)
    ∧ (∃ (s : State) (l : Loader) (r : BistResult) (c : Blk) (d : Nat), s.testMode = 0 ∧ l = s.core.ldr ∧
          l.state = LdrState.selftest ∧ c = s.core.bistKept r ∧
          (c.banks.aOut && c.banks.bOut || decide (256 < r.chervilTiles.length) || c.homeless c.stagedImg) = true ∧
          1 ≤ d)
    ∧ (∃ (s : State) (l : Loader) (r : BistResult) (c : Blk), s.testMode = 0 ∧ l = s.core.ldr ∧
          l.state = LdrState.selftest ∧ c = s.core.bistKept r ∧
          (c.banks.aOut && c.banks.bOut || decide (256 < r.chervilTiles.length) || c.homeless c.stagedImg) = false)
    ∧ (∃ (s : State) (l : Loader) (h : CopyHdr) (secs : List (List Byte)) (alt : List (List Byte)) (d : Nat),
          s.testMode = 0 ∧ l = s.core.ldr ∧ l.state = LdrState.apply ∧ l.hdr = some h ∧
          regather h.dir l.altSecs secs alt = none ∧ ((if l.useB = true then l.refusedA else l.refusedB) = false) ∧
          1 ≤ d)
    ∧ (∃ (s : State) (l : Loader) (h : CopyHdr) (secs : List (List Byte)) (alt : List (List Byte)) (t : Sections),
          s.testMode = 0 ∧ l = s.core.ldr ∧ l.state = LdrState.apply ∧ l.hdr = some h ∧
          regather h.dir l.altSecs secs alt = some t ∧ l.busy = true) := by
  refine ⟨?_, ?_, ?_, ?_, ?_⟩
  · exact ⟨wL { state := .selftest }, _, 17, by decide +kernel, rfl, by decide +kernel, by decide +kernel⟩
  · exact ⟨wL { state := .selftest }, _, ⟨0x0C0000#24, [], []⟩, _, 25, by decide +kernel, rfl, by decide +kernel, rfl,
        by decide +kernel, by decide +kernel⟩
  · exact ⟨wL { state := .selftest, staged := some { ident := { spareMask := 3 } } }, _, ⟨0x000001#24, List.range 256,
        []⟩, _, by decide +kernel, rfl, by decide +kernel, rfl, by decide +kernel⟩
  · exact ⟨wL { state := .apply, hdrA := some wHdr }, _, wHdr, [[]], [], 25, by decide +kernel, rfl, by decide +kernel,
        by decide +kernel, by decide +kernel, by decide +kernel, by decide +kernel⟩
  · exact ⟨wL { state := .apply, hdrA := some wHdr, busy := true }, _, wHdr, [wIdent, wPol], [],
        [(1, wIdent), (7, wPol)], by decide +kernel, rfl, by decide +kernel, by decide +kernel, by decide +kernel,
        by decide +kernel⟩

theorem test_LoaderCommandsRun :
    (∃ (s : State) (p : MPort) (l : Loader), s.testMode = 0 ∧ l = s.core.ldr ∧ l.busy = false ∧ s.core.Open p 0x4004 ∧
          s.core.Keyed p ∧ (l.state = LdrState.ready ∨ l.state = LdrState.safe) ∧ l.state = LdrState.ready)
    ∧ (∃ (s : State) (p : MPort) (l : Loader), s.testMode = 0 ∧ l = s.core.ldr ∧ l.busy = false ∧ s.core.Open p 0x4004 ∧
          s.core.Keyed p ∧ (l.state = LdrState.ready ∨ l.state = LdrState.safe) ∧ l.state = LdrState.safe)
    ∧ (∃ (s : State) (p : MPort) (l : Loader) (a : Nat) (k : Nat), s.testMode = 0 ∧ l = s.core.ldr ∧ a = s.core.nvAddr ∧
          l.busy = false ∧ s.core.Open p 0x4004 ∧ s.core.Keyed p ∧
          (l.state = LdrState.ready ∨ l.state = LdrState.safe) ∧ a % 256 = 0 ∧ k < 64)
    ∧ (∃ (s : State) (p : MPort) (l : Loader) (a : Nat) (op : Nat), s.testMode = 0 ∧ l = s.core.ldr ∧
          a = s.core.nvAddr ∧ l.busy = false ∧ s.core.Open p 0x4004 ∧ s.core.Keyed p ∧
          (l.state = LdrState.ready ∨ l.state = LdrState.safe) ∧ (op = 17 ∨ op = 18) ∧
          ((a % if op = 17 then 4096 else 256) = 0) ∧ s.core.inUse a = false)
    ∧ (∃ (s : State) (p : MPort) (l : Loader) (a : Nat) (op : Nat), s.testMode = 0 ∧ l = s.core.ldr ∧
          a = s.core.nvAddr ∧ l.busy = false ∧ s.core.Open p 0x4004 ∧ s.core.Keyed p ∧
          (l.state = LdrState.ready ∨ l.state = LdrState.safe) ∧ (op = 17 ∨ op = 18) ∧
          ((a % if op = 17 then 4096 else 256) ≠ 0))
    ∧ (∃ (s : State) (p : MPort) (l : Loader) (a : Nat) (op : Nat), s.testMode = 0 ∧ l = s.core.ldr ∧
          a = s.core.nvAddr ∧ l.busy = false ∧ s.core.Open p 0x4004 ∧ s.core.Keyed p ∧
          (l.state = LdrState.ready ∨ l.state = LdrState.safe) ∧ (op = 17 ∨ op = 18) ∧
          ((a % if op = 17 then 4096 else 256) = 0) ∧ s.core.inUse a = true) := by
  refine ⟨?_, ?_, ?_, ?_, ?_, ?_⟩
  · exact ⟨wSt wK, .mpa, _, by decide +kernel, rfl, by decide +kernel, wOpen (by decide +kernel),
        by unfold Blk.Keyed; decide +kernel, by decide +kernel, by decide +kernel⟩
  · exact ⟨wSt { wK with ldr := { state := .safe }, regs := [(0x4008, 0)] }, .mpa, _, by decide +kernel, rfl,
        by decide +kernel, wOpen (by decide +kernel), by unfold Blk.Keyed; decide +kernel, by decide +kernel,
        by decide +kernel⟩
  · exact ⟨wSt wK, .mpa, _, _, 63, by decide +kernel, rfl, rfl, by decide +kernel, wOpen (by decide +kernel),
        by unfold Blk.Keyed; decide +kernel, by decide +kernel, by decide +kernel, by decide +kernel⟩
  · exact ⟨wSt { wK with ldr := { state := .safe }, regs := [(0x4008, 0x20000)] }, .mpa, _, _, 0x11, by decide +kernel,
        rfl, rfl, by decide +kernel, wOpen (by decide +kernel), by unfold Blk.Keyed; decide +kernel, by decide +kernel,
        by decide +kernel, by decide +kernel, by decide +kernel⟩
  · exact ⟨wSt { wK with ldr := { state := .ready }, regs := [(0x4008, 0x100)] }, .mpa, _, _, 0x11, by decide +kernel,
        rfl, rfl, by decide +kernel, wOpen (by decide +kernel), by unfold Blk.Keyed; decide +kernel, by decide +kernel,
        by decide +kernel, by decide +kernel⟩
  · exact ⟨wSt { wK with ldr := { state := .ready, copyUsed := 1 } }, .mpa, _, _, 0x12, by decide +kernel, rfl, rfl,
        by decide +kernel, wOpen (by decide +kernel), by unfold Blk.Keyed; decide +kernel, by decide +kernel,
        by decide +kernel, by decide +kernel, by decide +kernel⟩

theorem test_FlashAndRestartEnd :
    (∃ (s : State) (l : Loader) (o : NvOp) (n : Nat), s.testMode = 0 ∧ l = s.core.ldr ∧ l.state = LdrState.nvop ∧
          l.nv = some o ∧ o.from_ ≠ LdrState.reload ∧ l.busy = true ∧ l.warmDue = false ∧ n = o.polls + 1 ∧
          (n ≤ if o.opcode = 17 then 40000 else 500))
    ∧ (∃ (s : State) (l : Loader) (o : NvOp) (bs : List Byte) (bz : Bool) (e : Nat) (sp : List SpiCmd), s.testMode = 0 ∧
          l = s.core.ldr ∧ l.state = LdrState.nvop ∧ l.nv = some o ∧ o.from_ ≠ LdrState.reload ∧ l.busy = true ∧
          l.warmDue = false ∧ (bz = true ∧ (if o.opcode = 17 then 40000 else 500) ≤ o.polls ∧ e = 4 ∨ bz = false ∧
          o.opcode = 18 ∧ bs ≠ s.core.wbuf ∧ e = 5 ∨ bz = false ∧ (o.opcode = 18 → bs = s.core.wbuf) ∧ e = 0) ∧
          (sp = { opcode := 5, addr := none, len := 1, lines := 1, div := 20 } :: if bz = false ∧
          o.opcode = 18 then [{ opcode := 3, addr := some o.addr, len := 256, lines := 1, div := 20 }] else []))
    ∧ (∃ (s : State) (l : Loader), s.testMode = 0 ∧ l = s.core.ldr ∧ l.state = LdrState.warmrst ∧ l.busy = true) := by
  refine ⟨?_, ?_, ?_⟩
  · exact ⟨wL { state := .nvop, busy := true, nv := some ⟨0x12, 0, [], .ready, 499, 1⟩ }, _, _, 500, by decide +kernel,
        rfl, by decide +kernel, rfl, by decide +kernel, by decide +kernel, by decide +kernel, rfl, by decide +kernel⟩
  · exact ⟨wL { state := .nvop, busy := true, nv := some ⟨0x12, 0, [], .ready, 500, 1⟩ }, _, _, [], true, 4, _,
        by decide +kernel, rfl, by decide +kernel, rfl, by decide +kernel, by decide +kernel, by decide +kernel,
        .inl ⟨rfl, by decide +kernel, rfl⟩, rfl⟩
  · exact ⟨wL { state := .warmrst, busy := true }, _, by decide +kernel, rfl, by decide +kernel, by decide +kernel⟩

theorem test_ARegisterWriteStoresItsField :
    (∃ (s : State) (p : MPort) (g : Nat) (v : Nat), s.Serves ∧ g < 64 ∧ v < 2 ^ 16 ∧
          s.core.Open p (0x3300 + 4 * g)) := by
  exact ⟨wSt wB, .mpa, 63, 0xFFFF, ⟨rfl, rfl⟩, by decide +kernel, by decide +kernel, wOpen (by decide +kernel)⟩

theorem test_KeyUnlockArmsAndLapses :
    (∃ (s : State) (p : MPort) (v : Word), s.Serves ∧ s.core.Open p 4096 ∧ v ≠ 1515897795#32) := by
  exact ⟨wSt wB, .mpa, 0#32, ⟨rfl, rfl⟩, wOpen (by decide +kernel), by decide +kernel⟩

theorem test_SemaphoresFollowTheTable :
    (∃ (s : State) (p : MPort) (n : Nat), s.Serves ∧ n < 64 ∧ s.core.Open p (0x1100 + 4 * n) ∧ s.core.semOwner n = none)
    ∧ (∃ (s : State) (p : MPort) (n : Nat), s.Serves ∧ n < 64 ∧ s.core.Open p (0x1100 + 4 * n) ∧
          s.core.semOwner n = some p)
    ∧ (∃ (s : State) (p : MPort) (n : Nat), s.Serves ∧ n < 64 ∧ s.core.Open p (0x1100 + 4 * n) ∧
          s.core.semOwner n ≠ some p)
    ∧ (∃ (s : State) (p : MPort) (n : Nat) (q : MPort), s.Serves ∧ n < 64 ∧ s.core.Open p (0x1100 + 4 * n) ∧
          s.core.semOwner n = some q ∧ s.core.Open p 0x100C ∧ s.core.Keyed p) := by
  refine ⟨?_, ?_, ?_, ?_⟩
  · exact ⟨wSt wB, .mpa, 63, ⟨rfl, rfl⟩, by decide +kernel, wOpen (by decide +kernel), by decide +kernel⟩
  · exact ⟨wSt { wB with mg := { sems := [(63, some .mpa)] } }, .mpa, 63, ⟨rfl, rfl⟩, by decide +kernel,
        wOpen (by decide +kernel), by decide +kernel⟩
  · exact ⟨wSt wB, .mpa, 0, ⟨rfl, rfl⟩, by decide +kernel, wOpen (by decide +kernel), by decide +kernel⟩
  · exact ⟨wSt { wK with mg := { wK.mg with sems := [(63, some .mpb)] } }, .mpa, 63, .mpb, ⟨rfl, rfl⟩,
        by decide +kernel, wOpen (by decide +kernel), by decide +kernel, wOpen (by decide +kernel),
        by unfold Blk.Keyed; decide +kernel⟩

theorem test_AcknowledgeNeedsAFreshRead :
    (∃ (s : State) (p : MPort) (g : Nat), s.Serves ∧ g < 64 ∧ s.core.Open p (0x3000 + 4 * g))
    ∧ (∃ (s : State) (p : MPort) (g : Nat) (q : Nat) (m : Nat) (h : Nat), s.Serves ∧ g < 64 ∧ q < 256 ∧ m < 2 ^ 16 ∧
          s.core.Open p (0x3100 + 4 * g) ∧ (q = (tabGet { } s.core.mg.groups g).seq ∧
          tabGet 256 (s.core.side p).evtCount g = 0) ∧ h ≠ g)
    ∧ (∃ (s : State) (p : MPort) (g : Nat) (q : Nat) (m : Nat), s.Serves ∧ g < 64 ∧ q < 256 ∧ m < 2 ^ 16 ∧
          s.core.Open p (0x3100 + 4 * g) ∧ (¬(q = (tabGet { } s.core.mg.groups g).seq ∧
          tabGet 256 (s.core.side p).evtCount g = 0)))
    ∧ (∃ (s : State) (g : Nat) (m : Nat), s.Serves ∧ g < 64 ∧ m < 4) := by
  refine ⟨?_, ?_, ?_, ?_⟩
  · exact ⟨wSt wB, .mpa, 63, ⟨rfl, rfl⟩, by decide +kernel, wOpen (by decide +kernel)⟩
  · exact ⟨wSt { wB with mg := { a := { evtCount := [(63, 0)] }, groups := [(63, { seq := 255 })] } }, .mpa, 63, 255,
        0xFFFF, 0, ⟨rfl, rfl⟩, by decide +kernel, by decide +kernel, by decide +kernel, wOpen (by decide +kernel),
        by decide +kernel, by decide +kernel⟩
  · exact ⟨wSt wB, .mpa, 63, 0, 0, ⟨rfl, rfl⟩, by decide +kernel, by decide +kernel, by decide +kernel,
        wOpen (by decide +kernel), by decide +kernel⟩
  · exact ⟨wSt wB, 63, 3, ⟨rfl, rfl⟩, by decide +kernel, by decide +kernel⟩

theorem test_MailboxFollowsTheTable :
    (∃ (s : State) (p : MPort) (c : Nat) (i : Nat), s.Serves ∧ c < 256 ∧ i < 2 ^ 18 ∧ s.core.Open p 0x2000)
    ∧ (∃ (s : State) (p : MPort) (x : Mailbox), s.Serves ∧ x = (s.core.side p).mbx ∧ x.state = MbxState.fetch ∧
          x.backing = false ∧ s.core.mbxBacked x.selClass x.selIndex = false ∧
          s.core.mbxGood x.selClass x.selIndex = true ∧ s.core.mbxOn x.selClass x.selIndex = true)
    ∧ (∃ (s : State) (p : MPort) (x : Mailbox), s.Serves ∧ x = (s.core.side p).mbx ∧ x.state = MbxState.fetch ∧
          x.backing = false ∧ s.core.mbxBacked x.selClass x.selIndex = false ∧
          s.core.mbxGood x.selClass x.selIndex = false)
    ∧ (∃ (s : State) (p : MPort) (x : Mailbox), s.Serves ∧ x = (s.core.side p).mbx ∧ x.state = MbxState.fetch ∧
          x.backing = false ∧ s.core.mbxBacked x.selClass x.selIndex = false ∧
          s.core.mbxGood x.selClass x.selIndex = true ∧ s.core.mbxOn x.selClass x.selIndex = false)
    ∧ (∃ (s : State) (p : MPort) (x : Mailbox) (n : Nat) (t : Nat) (r : TagRec) (bs : List Byte), s.Serves ∧
          x = (s.core.side p).mbx ∧ x.state = MbxState.fetch ∧ x.backing = true ∧
          s.core.findRead (isMbxRead p) = some (n, t, r) ∧ tileOk bs = true)
    ∧ (∃ (s : State) (p : MPort) (x : Mailbox) (n : Nat) (t : Nat) (r : TagRec) (bs : List Byte), s.Serves ∧
          x = (s.core.side p).mbx ∧ x.state = MbxState.fetch ∧ x.backing = true ∧
          s.core.findRead (isMbxRead p) = some (n, t, r) ∧ tileOk bs = false)
    ∧ (∃ (s : State) (p : MPort) (x : Mailbox), s.Serves ∧ x = (s.core.side p).mbx ∧ x.state = MbxState.valid ∧
          1 ≤ x.words ∧ x.words ≤ 4 ∧ s.core.Open p (0x2010 + 4 * (x.words - 1))) := by
  refine ⟨?_, ?_, ?_, ?_, ?_, ?_, ?_⟩
  · exact ⟨wSt wB, .mpa, 255, 0x3FFFF, ⟨rfl, rfl⟩, by decide +kernel, by decide +kernel, wOpen (by decide +kernel)⟩
  · exact ⟨wSt { wB with mg := { a := { mbx := { state := .fetch, sel := 67108879 } } } }, .mpa, _, ⟨rfl, rfl⟩, rfl,
        by decide +kernel, by decide +kernel, by decide +kernel, by decide +kernel, by decide +kernel⟩
  · exact ⟨wSt { wB with mg := { a := { mbx := { state := .fetch, sel := 67108880 } } } }, .mpa, _, ⟨rfl, rfl⟩, rfl,
        by decide +kernel, by decide +kernel, by decide +kernel, by decide +kernel⟩
  · exact ⟨wSt { wB with power := {}, mg := { a := { mbx := { state := .fetch, sel := 67108879 } } } }, .mpa, _, ⟨rfl,
        rfl⟩, rfl, by decide +kernel, by decide +kernel, by decide +kernel, by decide +kernel, by decide +kernel⟩
  · exact ⟨wSt { wT wB (.mailbox .mpa) 64 with mg := { a := { mbx := { state := .fetch, sel := 16777216, backing := true } } } },
        .mpa, _, 0, 0, _, wTile, ⟨rfl, rfl⟩, rfl, by decide +kernel, by decide +kernel, rfl, by decide +kernel⟩
  · exact ⟨wSt { wT wB (.mailbox .mpa) 64 with mg := { a := { mbx := { state := .fetch, sel := 16777216, backing := true } } } },
        .mpa, _, 0, 0, _, [], ⟨rfl, rfl⟩, rfl, by decide +kernel, by decide +kernel, rfl, by decide +kernel⟩
  · exact ⟨wSt { wB with mg := { a := { mbx := { state := .valid, words := 4 } } } }, .mpa, _, ⟨rfl, rfl⟩, rfl,
        by decide +kernel, by decide +kernel, by decide +kernel, wOpen (by decide +kernel)⟩

theorem test_RefusedWriteIsLoggedAndDropped :
    (∃ (s : State) (p : MPort) (a : Nat) (be : Nat) (w : BitVec 64) (x : Access) (k : Nat), s.Serves ∧ a < 2 ^ 20 ∧
          be < 256 ∧ x = { port := p, addr := a, be := be, write := true, wdata := w.toNat } ∧
          (s.core.side p).outstanding.length < 4 ∧ s.core.accErr x = some k)
    ∧ (∃ (s : State) (p : MPort) (a : Nat) (be : Nat) (w : BitVec 64) (x : Access), s.Serves ∧ a < 2 ^ 20 ∧ be < 256 ∧
          x = { port := p, addr := a, be := be, write := true, wdata := w.toNat } ∧
          (s.core.side p).outstanding.length < 4 ∧ s.core.accErr x = none ∧ s.core.semDenied p (a / 4096) = true) := by
  refine ⟨?_, ?_⟩
  · exact ⟨wSt wB, .mpa, 0xFFFFF, 255, 0#64, _, _, ⟨rfl, rfl⟩, by decide +kernel, by decide +kernel, rfl,
        by decide +kernel, rfl⟩
  · exact ⟨wSt { wB with image := some { wImg with sempage := List.replicate 36 0x80 } }, .mpa, 0x12320, 0x0F, 0#64, _,
        ⟨rfl, rfl⟩, by decide +kernel, by decide +kernel, rfl, by decide +kernel, by decide +kernel, by decide +kernel⟩

theorem test_KeyFieldsNeedTheUnlock :
    (∃ (s : State) (p : MPort) (m : Nat), s.Serves ∧ m < 256 ∧ s.core.Open p 0x12320 ∧ ¬s.core.Keyed p) := by
  exact ⟨wSt wB, .mpa, 255, ⟨rfl, rfl⟩, by decide +kernel, wOpen (by decide +kernel),
        by unfold Blk.Keyed; decide +kernel⟩

theorem test_StrobesFollowTheSource :
    (∃ (s : State) (p : MPort) (src : Nat) (u : Nat), s.Serves ∧ s.core.on 1 = true ∧ src < 4 ∧ u < 16 ∧
          s.core.Open p 0x7000 ∧ (src = 2 → atOrPast { (s.core.pu u).ph with frac := 0 } ⟨s.core.regF 0x7008 23 0,
          s.core.regF 0x700C 23 0, 0⟩ = false))
    ∧ (∃ (s : State) (p : MPort) (src : Nat) (u : Nat), s.Serves ∧ s.core.on 1 = true ∧ src < 4 ∧ u < 16 ∧
          s.core.Open p 0x7000 ∧ src = 2 ∧ atOrPast { (s.core.pu u).ph with frac := 0 } ⟨s.core.regF 0x7008 23 0,
          s.core.regF 0x700C 23 0, 0⟩ = true)
    ∧ (∃ (s : State) (p : MPort), s.Serves ∧ s.core.on 1 = true ∧ s.core.armed = true ∧ s.core.stbSource = 0 ∧
          s.core.Open p 0x7004)
    ∧ (∃ (s : State), s.Serves ∧ s.core.on 1 = true ∧ s.core.armed = true ∧ s.core.stbSource = 1 ∧ (∀ (t : Nat),
          s.core.upd.stbAt = some t → t + 64 ≤ s.core.clock.cycle))
    ∧ (∃ (s : State) (t : Nat), s.Serves ∧ s.core.on 1 = true ∧ s.core.armed = true ∧ s.core.upd.stbAt = some t ∧
          s.core.clock.cycle < t + 64)
    ∧ (∃ (s : State) (tag : Nat), s.Serves ∧ s.core.on 1 = true ∧ s.core.armed = true ∧ s.core.stbSource = 3 ∧
          tag ≠ s.core.regF 0x7010 15 0)
    ∧ (∃ (s : State), s.Serves ∧ s.core.on 1 = true ∧ s.core.armed = true ∧ s.core.stbSource = 2 ∧
          s.core.atPoint = true)
    ∧ (∃ (s : State), s.Serves ∧ s.core.on 1 = true ∧ s.core.armed = true ∧ s.core.regF 0x7014 15 0 ≠ 0)
    ∧ (∃ (s : State) (p : MPort), s.Serves ∧ s.core.on 1 = true ∧ s.core.armed = false ∧ s.core.Open p 0x7004) := by
  refine ⟨?_, ?_, ?_, ?_, ?_, ?_, ?_, ?_, ?_⟩
  · exact ⟨wSt wB, .mpa, 3, 15, ⟨rfl, rfl⟩, by decide +kernel, by decide +kernel, by decide +kernel,
        wOpen (by decide +kernel), nofun⟩
  · exact ⟨wSt wB, .mpa, 2, 15, ⟨rfl, rfl⟩, by decide +kernel, by decide +kernel, by decide +kernel,
        wOpen (by decide +kernel), rfl, by decide +kernel⟩
  · exact ⟨wSt { wB with regs := [(0x7000, 4)] }, .mpa, ⟨rfl, rfl⟩, by decide +kernel, by decide +kernel,
        by decide +kernel, wOpen (by decide +kernel)⟩
  · exact ⟨wSt { wB with regs := [(0x7000, 5)] }, ⟨rfl, rfl⟩, by decide +kernel, by decide +kernel, by decide +kernel,
        nofun⟩
  · exact ⟨wSt { wB with regs := [(0x7000, 5)], upd := { stbAt := some 0 }, clock := { cycle := 63 } }, 0, ⟨rfl, rfl⟩,
        by decide +kernel, by decide +kernel, by decide +kernel, by decide +kernel⟩
  · exact ⟨wSt { wB with regs := [(0x7000, 7), (0x7010, 7)] }, 8, ⟨rfl, rfl⟩, by decide +kernel, by decide +kernel,
        by decide +kernel, by decide +kernel⟩
  · exact ⟨wSt { wB with regs := [(0x7000, 6)], pus := [(0, { state := .locked })] }, ⟨rfl, rfl⟩, by decide +kernel,
        by decide +kernel, by decide +kernel, by decide +kernel⟩
  · exact ⟨wSt { wB with regs := [(0x7000, 4), (0x7014, 1)] }, ⟨rfl, rfl⟩, by decide +kernel, by decide +kernel,
        by decide +kernel⟩
  · exact ⟨wSt wB, .mpa, ⟨rfl, rfl⟩, by decide +kernel, by decide +kernel, wOpen (by decide +kernel)⟩

theorem test_AdminCommandsRun :
    (∃ (s : State) (r : AdminRing) (c : List Byte) (a : AdminOp) (st : Nat) (dt : Nat), s.Serves ∧ r.wf = true ∧
          a ∈ adminOps ∧ s.core.Starts r c a.op ∧ s.core.formCheck r c = some (st, dt))
    ∧ (∃ (s : State) (r : AdminRing) (c : List Byte) (a : AdminOp), s.Serves ∧ r.wf = true ∧ a ∈ adminOps ∧
          s.core.Starts r c a.op ∧ s.core.formCheck r c = none ∧ (s.core.begun r c).mustWait r c = false)
    ∧ (∃ (s : State) (r : AdminRing) (c : List Byte) (a : AdminOp), s.Serves ∧ r.wf = true ∧ a ∈ adminOps ∧
          s.core.Starts r c a.op ∧ s.core.formCheck r c = none ∧ (s.core.begun r c).mustWait r c = true) := by
  refine ⟨?_, ?_, ?_⟩
  · exact ⟨wSt { wB with mga := { slots := [leBytes 63 0x0B ++ [1]] } }, .mga, leBytes 63 0x0B ++ [1], adminOps[10],
        0x12, 2, ⟨rfl, rfl⟩, by decide +kernel, List.getElem_mem _, ⟨by decide +kernel, by decide +kernel,
        by decide +kernel⟩, by decide +kernel⟩
  · exact ⟨wSt { wB with mga := { slots := [leBytes 64 0x0B] } }, .mga, leBytes 64 0x0B, adminOps[10], ⟨rfl, rfl⟩,
        by decide +kernel, List.getElem_mem _, ⟨by decide +kernel, by decide +kernel, by decide +kernel⟩,
        by decide +kernel, by decide +kernel⟩
  · exact ⟨wSt { wB with mga := { slots := [leBytes 64 0x29] }, sched := { jobs := [⟨.mgb, leBytes 64 0x29, .word, 0, false, 0, 0, 0, false, none, false, none⟩] } },
        .mga, leBytes 64 0x29, adminOps[20], ⟨rfl, rfl⟩, by decide +kernel, List.getElem_mem _, ⟨by decide +kernel,
        by decide +kernel, by decide +kernel⟩, by decide +kernel, by decide +kernel⟩

theorem test_ManagementRingCommandsComplete :
    (∃ (s : State) (r : AdminRing) (c : List Byte) (rest : List (List Byte)) (a : AdminOp) (st : Nat) (dt : Nat),
          s.Serves ∧ s.core.Calm ∧ s.core.Holds r c rest ∧ a ∈ adminOps ∧ leAt c 0 1 = a.op ∧
          s.core.formCheck r c = some (st, dt))
    ∧ (∃ (s : State) (r : AdminRing) (c : List Byte) (rest : List (List Byte)), s.Serves ∧ s.core.Calm ∧
          s.core.Holds r c rest ∧ s.core.formCheck r c = none ∧ leAt c 0 1 = 11)
    ∧ (∃ (s : State) (r : AdminRing) (c : List Byte) (rest : List (List Byte)) (d : Nat), s.Serves ∧ s.core.Calm ∧
          s.core.Holds r c rest ∧ s.core.formCheck r c = none ∧ leAt c 0 1 = 40 ∧ leAt c 8 4 = d)
    ∧ (∃ (s : State) (r : AdminRing) (c : List Byte) (rest : List (List Byte)) (d : Nat), s.Serves ∧ s.core.Calm ∧
          s.core.Holds r c rest ∧ s.core.formCheck r c = none ∧ leAt c 0 1 = 10 ∧ leAt c 8 1 = d ∧
          s.core.heldQueues d = 0 ∧ (s.core.domain d).ring.isSome = true)
    ∧ (∃ (s : State) (r : AdminRing) (c : List Byte) (rest : List (List Byte)) (d : Nat), s.Serves ∧ s.core.Calm ∧
          s.core.Holds r c rest ∧ s.core.formCheck r c = none ∧ leAt c 0 1 = 10 ∧ leAt c 8 1 = d ∧
          0 < s.core.heldQueues d)
    ∧ (∃ (s : State) (r : AdminRing) (c : List Byte) (rest : List (List Byte)) (d : Nat), s.Serves ∧ s.core.Calm ∧
          s.core.Holds r c rest ∧ s.core.formCheck r c = none ∧ leAt c 0 1 = 10 ∧ leAt c 8 1 = d ∧
          s.core.heldQueues d = 0 ∧ (s.core.domain d).ring = none)
    ∧ (∃ (s : State) (r : AdminRing) (c : List Byte) (rest : List (List Byte)) (q : QRef) (x : Queue) (a : AdminOp),
          s.Serves ∧ s.core.Calm ∧ s.core.Holds r c rest ∧ s.core.formCheck r c = none ∧ queueOf c = q ∧
          s.core.queue q = x ∧ x.run.phase = QPhase.free ∧ a ∈ adminOps ∧ a.op = leAt c 0 1 ∧ opcodeQueue a.op = true)
    ∧ (∃ (s : State) (r : AdminRing) (c : List Byte) (rest : List (List Byte)) (q : QRef) (x : Queue), s.Serves ∧
          s.core.Calm ∧ s.core.Holds r c rest ∧ s.core.formCheck r c = none ∧ queueOf c = q ∧ s.core.queue q = x ∧
          leAt c 0 1 = 5 ∧ (x.run.phase = QPhase.idle ∨ x.run.phase = QPhase.bound))
    ∧ (∃ (s : State) (r : AdminRing) (c : List Byte) (rest : List (List Byte)) (q : QRef) (x : Queue), s.Serves ∧
          s.core.Calm ∧ s.core.Holds r c rest ∧ s.core.formCheck r c = none ∧ queueOf c = q ∧ s.core.queue q = x ∧
          leAt c 0 1 = 6 ∧ (x.run.phase = QPhase.idle ∨ x.run.phase = QPhase.bound ∨ x.run.phase = QPhase.stopped) ∧
          (x.cfg.pin = true ∨ s.core.pinnedCount < 15360))
    ∧ (∃ (s : State) (r : AdminRing) (c : List Byte) (rest : List (List Byte)) (q : QRef) (x : Queue), s.Serves ∧
          s.core.Calm ∧ s.core.Holds r c rest ∧ s.core.formCheck r c = none ∧ queueOf c = q ∧ s.core.queue q = x ∧
          leAt c 0 1 = 8 ∧ x.run.phase ≠ QPhase.free ∧ x.run.phase ≠ QPhase.spilling ∧ x.run.phase ≠ QPhase.refilling ∧
          x.run.phase ≠ QPhase.spilled) := by
  refine ⟨?_, ?_, ?_, ?_, ?_, ?_, ?_, ?_, ?_, ?_⟩
  · exact ⟨wSt { wB with mga := { slots := [leBytes 63 0x0B ++ [1]] } }, .mga, leBytes 63 0x0B ++ [1], [], adminOps[10],
        0x12, 2, ⟨rfl, rfl⟩, ⟨rfl, by decide +kernel⟩, ⟨.inl rfl, rfl, nofun, by decide +kernel, rfl⟩,
        List.getElem_mem _, by decide +kernel, by decide +kernel⟩
  · exact ⟨wSt { wB with mga := { slots := [leBytes 64 (0x0B)] } }, .mga, leBytes 64 (0x0B), [], ⟨rfl, rfl⟩, ⟨rfl,
        by decide +kernel⟩, ⟨.inl rfl, rfl, nofun, by decide +kernel, rfl⟩, by decide +kernel, by decide +kernel⟩
  · exact ⟨wSt { wB with mga := { slots := [leBytes 64 (0x28 + 1 * 2 ^ 64)] } }, .mga, leBytes 64 (0x28 + 1 * 2 ^ 64),
        [], 1, ⟨rfl, rfl⟩, ⟨rfl, by decide +kernel⟩, ⟨.inl rfl, rfl, nofun, by decide +kernel, rfl⟩, by decide +kernel,
        by decide +kernel, by decide +kernel⟩
  · exact ⟨wSt { wB with mga := { slots := [leBytes 64 (0x0A + 1 * 2 ^ 64)] }, domains := [(1, { ring := some ⟨0, 6, 0, 0, 0⟩ })] },
        .mga, leBytes 64 (0x0A + 1 * 2 ^ 64), [], 1, ⟨rfl, rfl⟩, ⟨rfl, by decide +kernel⟩, ⟨.inl rfl, rfl, nofun,
        by decide +kernel, rfl⟩, by decide +kernel, by decide +kernel, by decide +kernel, by decide +kernel,
        by decide +kernel⟩
  · exact ⟨wSt { wB with mga := { slots := [leBytes 64 (0x0A)] }, queues := [(0, wQ .idle)] }, .mga, leBytes 64 (0x0A),
        [], 0, ⟨rfl, rfl⟩, ⟨rfl, by decide +kernel⟩, ⟨.inl rfl, rfl, nofun, by decide +kernel, rfl⟩, by decide +kernel,
        by decide +kernel, by decide +kernel, by decide +kernel⟩
  · exact ⟨wSt { wB with mga := { slots := [leBytes 64 (0x0A + 1 * 2 ^ 64)] } }, .mga, leBytes 64 (0x0A + 1 * 2 ^ 64),
        [], 1, ⟨rfl, rfl⟩, ⟨rfl, by decide +kernel⟩, ⟨.inl rfl, rfl, nofun, by decide +kernel, rfl⟩, by decide +kernel,
        by decide +kernel, by decide +kernel, by decide +kernel, by decide +kernel⟩
  · exact ⟨wSt { wB with mga := { slots := [leBytes 64 (0x05)] } }, .mga, leBytes 64 (0x05), [], .dom 0, _, adminOps[4],
        ⟨rfl, rfl⟩, ⟨rfl, by decide +kernel⟩, ⟨.inl rfl, rfl, nofun, by decide +kernel, rfl⟩, by decide +kernel,
        by decide +kernel, rfl, by decide +kernel, List.getElem_mem _, by decide +kernel, by decide +kernel⟩
  · exact ⟨wSt { wB with mga := { slots := [leBytes 64 (0x05)] }, queues := [(0, wQ .idle)] }, .mga, leBytes 64 (0x05),
        [], .dom 0, _, ⟨rfl, rfl⟩, ⟨rfl, by decide +kernel⟩, ⟨.inl rfl, rfl, nofun, by decide +kernel, rfl⟩,
        by decide +kernel, by decide +kernel, rfl, by decide +kernel, by decide +kernel⟩
  · exact ⟨wSt { wB with mga := { slots := [leBytes 64 (0x06)] }, queues := [(0, wQ .stopped)] }, .mga,
        leBytes 64 (0x06), [], .dom 0, _, ⟨rfl, rfl⟩, ⟨rfl, by decide +kernel⟩, ⟨.inl rfl, rfl, nofun,
        by decide +kernel, rfl⟩, by decide +kernel, by decide +kernel, rfl, by decide +kernel, by decide +kernel,
        by decide +kernel⟩
  · exact ⟨wSt { wB with mga := { slots := [leBytes 64 (0x08)] }, queues := [(0, wQ .halted)] }, .mga,
        leBytes 64 (0x08), [], .dom 0, _, ⟨rfl, rfl⟩, ⟨rfl, by decide +kernel⟩, ⟨.inl rfl, rfl, nofun,
        by decide +kernel, rfl⟩, by decide +kernel, by decide +kernel, rfl, by decide +kernel, by decide +kernel,
        by decide +kernel, by decide +kernel, by decide +kernel⟩

theorem test_AdminEffectsAreApplied :
    (∃ (s : State) (r : AdminRing) (c : List Byte) (b : Blk) (cfg : QCfg) (n : Nat) (t : Blk), s.Serves ∧ r.wf = true ∧
          s.core.Starts r c (leAt c 0 1) ∧ s.core.formCheck r c = none ∧ b = s.core.begun r c ∧ b.mustWait r c = false ∧
          leAt c 0 1 = 1 ∧ cfg = cfgOfCreate c ∧ b.createWindows cfg = true ∧ (b.domain cfg.dom).ring.isNone = false ∧
          b.heldQueues cfg.dom < (b.domain cfg.dom).quota ∧ b.freeQid = some n ∧
          (cfg.pin && decide (15360 ≤ b.pinnedCount)) = false ∧
          ((b.waitJob r fun j => { j with made := some cfg, enable := bit (leAt c 0x28 4) 0, qid := n, dom := cfg.dom }).takeContext = some t))
    ∧ (∃ (s : State) (r : AdminRing) (c : List Byte) (b : Blk) (cfg : QCfg), s.Serves ∧ r.wf = true ∧
          s.core.Starts r c (leAt c 0 1) ∧ s.core.formCheck r c = none ∧ b = s.core.begun r c ∧ b.mustWait r c = false ∧
          leAt c 0 1 = 1 ∧ cfg = cfgOfCreate c ∧ b.createWindows cfg = true ∧ (b.domain cfg.dom).ring.isNone = false ∧
          (b.domain cfg.dom).quota ≤ b.heldQueues cfg.dom)
    ∧ (∃ (s : State) (r : AdminRing) (c : List Byte) (b : Blk) (q : QRef) (x : Queue), s.Serves ∧ r.wf = true ∧
          s.core.Starts r c (leAt c 0 1) ∧ s.core.formCheck r c = none ∧ b = s.core.begun r c ∧ b.mustWait r c = false ∧
          q = queueOf c ∧ x = s.core.queue q ∧ leAt c 0 1 = 2 ∧
          (x.run.phase = QPhase.idle ∨ x.run.phase = QPhase.spilled ∨ x.run.phase = QPhase.stopped ∨ x.run.phase = QPhase.halted ∨ x.run.phase = QPhase.lost ∨ (x.run.phase = QPhase.bound ∨ x.run.phase = QPhase.stopping) ∧
          bit (flagsOf c) 0 = true))
    ∧ (∃ (s : State) (r : AdminRing) (c : List Byte) (b : Blk) (q : QRef) (x : Queue), s.Serves ∧ r.wf = true ∧
          s.core.Starts r c (leAt c 0 1) ∧ s.core.formCheck r c = none ∧ b = s.core.begun r c ∧ b.mustWait r c = false ∧
          q = queueOf c ∧ x = s.core.queue q ∧ leAt c 0 1 = 2 ∧
          ((x.run.phase = QPhase.bound ∨ x.run.phase = QPhase.stopping) ∧
          bit (flagsOf c) 0 = false ∨ x.run.phase = QPhase.destroying))
    ∧ (∃ (s : State) (r : AdminRing) (c : List Byte) (b : Blk) (q : QRef) (x : Queue), s.Serves ∧ r.wf = true ∧
          s.core.Starts r c (leAt c 0 1) ∧ s.core.formCheck r c = none ∧ b = s.core.begun r c ∧ b.mustWait r c = false ∧
          q = queueOf c ∧ x = s.core.queue q ∧
          (x.run.phase = QPhase.idle ∨ x.run.phase = QPhase.bound ∨ x.run.phase = QPhase.stopping ∨ x.run.phase = QPhase.stopped ∨ x.run.phase = QPhase.halted) ∧
          leAt c 0 1 = 3 ∧ bit (flagsOf c) 5 = false ∧ s.core.execsOf q = [])
    ∧ (∃ (s : State) (r : AdminRing) (c : List Byte) (b : Blk) (q : QRef) (x : Queue), s.Serves ∧ r.wf = true ∧
          s.core.Starts r c (leAt c 0 1) ∧ s.core.formCheck r c = none ∧ b = s.core.begun r c ∧ b.mustWait r c = false ∧
          q = queueOf c ∧ x = s.core.queue q ∧
          (x.run.phase = QPhase.idle ∨ x.run.phase = QPhase.bound ∨ x.run.phase = QPhase.stopping ∨ x.run.phase = QPhase.stopped ∨ x.run.phase = QPhase.halted) ∧
          leAt c 0 1 = 3 ∧ bit (flagsOf c) 5 = false ∧ s.core.execsOf q ≠ [] ∧ (flagsOf c).land 95 ≠ 0)
    ∧ (∃ (s : State) (r : AdminRing) (c : List Byte) (b : Blk) (q : QRef) (x : Queue), s.Serves ∧ r.wf = true ∧
          s.core.Starts r c (leAt c 0 1) ∧ s.core.formCheck r c = none ∧ b = s.core.begun r c ∧ b.mustWait r c = false ∧
          q = queueOf c ∧ x = s.core.queue q ∧
          (x.run.phase = QPhase.idle ∨ x.run.phase = QPhase.bound ∨ x.run.phase = QPhase.stopping ∨ x.run.phase = QPhase.stopped ∨ x.run.phase = QPhase.halted) ∧
          leAt c 0 1 = 4)
    ∧ (∃ (s : State) (r : AdminRing) (c : List Byte) (b : Blk) (q : QRef) (x : Queue) (n : Nat), s.Serves ∧
          r.wf = true ∧ s.core.Starts r c (leAt c 0 1) ∧ s.core.formCheck r c = none ∧ b = s.core.begun r c ∧
          b.mustWait r c = false ∧ q = queueOf c ∧ x = s.core.queue q ∧
          (x.run.phase = QPhase.idle ∨ x.run.phase = QPhase.bound ∨ x.run.phase = QPhase.stopping ∨ x.run.phase = QPhase.stopped ∨ x.run.phase = QPhase.halted) ∧
          leAt c 0 1 = 7 ∧ x.run.backSlot = some n ∧ b.sched.backUsed.contains n = true)
    ∧ (∃ (s : State) (r : AdminRing) (c : List Byte) (b : Blk) (d : Nat) (n : Nat) (t : Blk), s.Serves ∧ r.wf = true ∧
          s.core.Starts r c (leAt c 0 1) ∧ s.core.formCheck r c = none ∧ b = s.core.begun r c ∧ b.mustWait r c = false ∧
          leAt c 0 1 = 9 ∧ d = leAt c 8 1 ∧
          (b.winOk d (leAt c 16 8) (64 * 2 ^ leAt c 24 1) false true && b.rangesCover (leAt c 16 8) (64 * 2 ^ leAt c 24 1)) = true ∧
          (b.domain d).ring.isSome = false ∧
          ((b.sched.jobs.any fun j => decide (j.wait = JobWait.zeroes) && j.dom == d) = false) ∧
          b.zeroArea d (Purpose.ringZero d) (64 * 2 ^ leAt c 24 1) (leAt c 16 8) (64 * 2 ^ leAt c 24 1) 0 = (n, t))
    ∧ (∃ (s : State) (r : AdminRing) (c : List Byte) (b : Blk), s.Serves ∧ r.wf = true ∧
          s.core.Starts r c (leAt c 0 1) ∧ s.core.formCheck r c = none ∧ b = s.core.begun r c ∧ b.mustWait r c = false ∧
          leAt c 0 1 = 32)
    ∧ (∃ (s : State) (r : AdminRing) (c : List Byte) (b : Blk), s.Serves ∧ r.wf = true ∧
          s.core.Starts r c (leAt c 0 1) ∧ s.core.formCheck r c = none ∧ b = s.core.begun r c ∧ b.mustWait r c = false ∧
          leAt c 0 1 = 33)
    ∧ (∃ (s : State) (r : AdminRing) (c : List Byte) (b : Blk), s.Serves ∧ r.wf = true ∧
          s.core.Starts r c (leAt c 0 1) ∧ s.core.formCheck r c = none ∧ b = s.core.begun r c ∧ b.mustWait r c = false ∧
          leAt c 0 1 = 34)
    ∧ (∃ (s : State) (r : AdminRing) (c : List Byte) (b : Blk), s.Serves ∧ r.wf = true ∧
          s.core.Starts r c (leAt c 0 1) ∧ s.core.formCheck r c = none ∧ b = s.core.begun r c ∧ b.mustWait r c = false ∧
          leAt c 0 1 = 35)
    ∧ (∃ (s : State) (r : AdminRing) (c : List Byte) (b : Blk), s.Serves ∧ r.wf = true ∧
          s.core.Starts r c (leAt c 0 1) ∧ s.core.formCheck r c = none ∧ b = s.core.begun r c ∧ b.mustWait r c = false ∧
          leAt c 0 1 = 36)
    ∧ (∃ (s : State) (r : AdminRing) (c : List Byte) (b : Blk), s.Serves ∧ r.wf = true ∧
          s.core.Starts r c (leAt c 0 1) ∧ s.core.formCheck r c = none ∧ b = s.core.begun r c ∧ b.mustWait r c = false ∧
          leAt c 0 1 = 37)
    ∧ (∃ (s : State) (r : AdminRing) (c : List Byte) (b : Blk), s.Serves ∧ r.wf = true ∧
          s.core.Starts r c (leAt c 0 1) ∧ s.core.formCheck r c = none ∧ b = s.core.begun r c ∧ b.mustWait r c = false ∧
          leAt c 0 1 = 38)
    ∧ (∃ (s : State) (r : AdminRing) (c : List Byte) (b : Blk), s.Serves ∧ r.wf = true ∧
          s.core.Starts r c (leAt c 0 1) ∧ s.core.formCheck r c = none ∧ b = s.core.begun r c ∧ b.mustWait r c = false ∧
          leAt c 0 1 = 39)
    ∧ (∃ (s : State) (r : AdminRing) (c : List Byte) (b : Blk), s.Serves ∧ r.wf = true ∧
          s.core.Starts r c (leAt c 0 1) ∧ s.core.formCheck r c = none ∧ b = s.core.begun r c ∧ b.mustWait r c = false ∧
          leAt c 0 1 = 41) := by
  refine ⟨?_, ?_, ?_, ?_, ?_, ?_, ?_, ?_, ?_, ?_, ?_, ?_, ?_, ?_, ?_, ?_, ?_, ?_⟩
  · exact ⟨wSt { wB with mga := { slots := [leBytes 64 (0x01 + 1 * 2 ^ 64 + 4096 * 2 ^ 192 + 4 * 2 ^ 256 + 1 * 2 ^ 352 + 2 * 2 ^ 336)] }, domains := [(1, { ring := some ⟨0, 6, 0, 0, 0⟩, quota := 1 })] },
        .mga, leBytes 64 (0x01 + 1 * 2 ^ 64 + 4096 * 2 ^ 192 + 4 * 2 ^ 256 + 1 * 2 ^ 352 + 2 * 2 ^ 336), _, _, 0, _,
        ⟨rfl, rfl⟩, by decide +kernel, ⟨by decide +kernel, rfl, by decide +kernel⟩, by decide +kernel, rfl,
        by decide +kernel, by decide +kernel, rfl, by decide +kernel, by decide +kernel, by decide +kernel,
        by decide +kernel, by decide +kernel, rfl⟩
  · exact ⟨wSt { wB with mga := { slots := [leBytes 64 (0x01 + 1 * 2 ^ 64 + 4096 * 2 ^ 192 + 4 * 2 ^ 256 + 1 * 2 ^ 352 + 2 * 2 ^ 336)] }, domains := [(1, { ring := some ⟨0, 6, 0, 0, 0⟩ })] },
        .mga, leBytes 64 (0x01 + 1 * 2 ^ 64 + 4096 * 2 ^ 192 + 4 * 2 ^ 256 + 1 * 2 ^ 352 + 2 * 2 ^ 336), _, _, ⟨rfl,
        rfl⟩, by decide +kernel, ⟨by decide +kernel, rfl, by decide +kernel⟩, by decide +kernel, rfl, by decide +kernel,
        by decide +kernel, rfl, by decide +kernel, by decide +kernel, by decide +kernel⟩
  · exact ⟨wSt { wB with mga := { slots := [leBytes 64 (0x02 + 1 * 2 ^ 64 + 1 * 2 ^ 96)] }, queues := [(1, wQ .stopping)] },
        .mga, leBytes 64 (0x02 + 1 * 2 ^ 64 + 1 * 2 ^ 96), _, _, _, ⟨rfl, rfl⟩, by decide +kernel, ⟨by decide +kernel,
        rfl, by decide +kernel⟩, by decide +kernel, rfl, by decide +kernel, rfl, rfl, by decide +kernel,
        by decide +kernel⟩
  · exact ⟨wSt { wB with mga := { slots := [leBytes 64 (0x02 + 1 * 2 ^ 64)] }, queues := [(1, wQ .bound)] }, .mga,
        leBytes 64 (0x02 + 1 * 2 ^ 64), _, _, _, ⟨rfl, rfl⟩, by decide +kernel, ⟨by decide +kernel, rfl,
        by decide +kernel⟩, by decide +kernel, rfl, by decide +kernel, rfl, rfl, by decide +kernel, by decide +kernel⟩
  · exact ⟨wSt { wB with mga := { slots := [leBytes 64 (0x03 + 1 * 2 ^ 64)] }, queues := [(1, wQ .halted)] }, .mga,
        leBytes 64 (0x03 + 1 * 2 ^ 64), _, _, _, ⟨rfl, rfl⟩, by decide +kernel, ⟨by decide +kernel, rfl,
        by decide +kernel⟩, by decide +kernel, rfl, by decide +kernel, rfl, rfl, by decide +kernel, by decide +kernel,
        by decide +kernel, by decide +kernel⟩
  · exact ⟨wSt { wM { run := { phase := .bound } } (wBind [] [wExec kCopy .running]) with mga := { slots := [leBytes 64 (0x03 + 0 * 2 ^ 64 + 1 * 2 ^ 96)] } },
        .mga, leBytes 64 (0x03 + 0 * 2 ^ 64 + 1 * 2 ^ 96), _, _, _, ⟨rfl, rfl⟩, by decide +kernel, ⟨by decide +kernel,
        rfl, by decide +kernel⟩, by decide +kernel, rfl, by decide +kernel, rfl, rfl, by decide +kernel,
        by decide +kernel, by decide +kernel, by decide +kernel, by decide +kernel⟩
  · exact ⟨wSt { wB with mga := { slots := [leBytes 64 (0x04 + 1 * 2 ^ 64 + 4 * 2 ^ 96)] }, queues := [(1, wQ .idle)] },
        .mga, leBytes 64 (0x04 + 1 * 2 ^ 64 + 4 * 2 ^ 96), _, _, _, ⟨rfl, rfl⟩, by decide +kernel, ⟨by decide +kernel,
        rfl, by decide +kernel⟩, by decide +kernel, rfl, by decide +kernel, rfl, rfl, by decide +kernel,
        by decide +kernel⟩
  · exact ⟨wSt { wB with mga := { slots := [leBytes 64 (0x07 + 1 * 2 ^ 64)] }, queues := [(1, { run := { phase := .stopped, backSlot := some 5 } })], sched := { backUsed := [5] } },
        .mga, leBytes 64 (0x07 + 1 * 2 ^ 64), _, _, _, 5, ⟨rfl, rfl⟩, by decide +kernel, ⟨by decide +kernel, rfl,
        by decide +kernel⟩, by decide +kernel, rfl, by decide +kernel, rfl, rfl, by decide +kernel, by decide +kernel,
        rfl, by decide +kernel⟩
  · exact ⟨wSt { wB with mga := { slots := [leBytes 64 (0x09 + 0 * 2 ^ 64 + 4096 * 2 ^ 128 + 4 * 2 ^ 192)] } }, .mga,
        leBytes 64 (0x09 + 0 * 2 ^ 64 + 4096 * 2 ^ 128 + 4 * 2 ^ 192), _, 0, _, _, ⟨rfl, rfl⟩, by decide +kernel,
        ⟨by decide +kernel, rfl, by decide +kernel⟩, by decide +kernel, rfl, by decide +kernel, by decide +kernel, rfl,
        by decide +kernel, by decide +kernel, by decide +kernel, rfl⟩
  · exact ⟨wSt { wB with mga := { slots := [leBytes 64 (0x20 + 1 * 2 ^ 64 + 4 * 2 ^ 96)] } }, .mga,
        leBytes 64 (0x20 + 1 * 2 ^ 64 + 4 * 2 ^ 96), _, ⟨rfl, rfl⟩, by decide +kernel, ⟨by decide +kernel, rfl,
        by decide +kernel⟩, by decide +kernel, rfl, by decide +kernel, by decide +kernel⟩
  · exact ⟨wSt { wB with mga := { slots := [leBytes 64 (0x21 + 1 * 2 ^ 64)] } }, .mga, leBytes 64 (0x21 + 1 * 2 ^ 64),
        _, ⟨rfl, rfl⟩, by decide +kernel, ⟨by decide +kernel, rfl, by decide +kernel⟩, by decide +kernel, rfl,
        by decide +kernel, by decide +kernel⟩
  · exact ⟨wSt { wB with mga := { slots := [leBytes 64 (0x22 + 17 * 2 ^ 64)] } }, .mga, leBytes 64 (0x22 + 17 * 2 ^ 64),
        _, ⟨rfl, rfl⟩, by decide +kernel, ⟨by decide +kernel, rfl, by decide +kernel⟩, by decide +kernel, rfl,
        by decide +kernel, by decide +kernel⟩
  · exact ⟨wSt { wB with mga := { slots := [leBytes 64 (0x23 + 17 * 2 ^ 64)] } }, .mga, leBytes 64 (0x23 + 17 * 2 ^ 64),
        _, ⟨rfl, rfl⟩, by decide +kernel, ⟨by decide +kernel, rfl, by decide +kernel⟩, by decide +kernel, rfl,
        by decide +kernel, by decide +kernel⟩
  · exact ⟨wSt { wB with mga := { slots := [leBytes 64 (0x24 + 7 * 2 ^ 64)] } }, .mga, leBytes 64 (0x24 + 7 * 2 ^ 64),
        _, ⟨rfl, rfl⟩, by decide +kernel, ⟨by decide +kernel, rfl, by decide +kernel⟩, by decide +kernel, rfl,
        by decide +kernel, by decide +kernel⟩
  · exact ⟨wSt { wB with mga := { slots := [leBytes 64 (0x25 + 7 * 2 ^ 64)] } }, .mga, leBytes 64 (0x25 + 7 * 2 ^ 64),
        _, ⟨rfl, rfl⟩, by decide +kernel, ⟨by decide +kernel, rfl, by decide +kernel⟩, by decide +kernel, rfl,
        by decide +kernel, by decide +kernel⟩
  · exact ⟨wSt { wB with mga := { slots := [leBytes 64 (0x26)] } }, .mga, leBytes 64 (0x26), _, ⟨rfl, rfl⟩,
        by decide +kernel, ⟨by decide +kernel, rfl, by decide +kernel⟩, by decide +kernel, rfl, by decide +kernel,
        by decide +kernel⟩
  · exact ⟨wSt { wB with mga := { slots := [leBytes 64 (0x27)] } }, .mga, leBytes 64 (0x27), _, ⟨rfl, rfl⟩,
        by decide +kernel, ⟨by decide +kernel, rfl, by decide +kernel⟩, by decide +kernel, rfl, by decide +kernel,
        by decide +kernel⟩
  · exact ⟨wSt { wB with mga := { slots := [leBytes 64 (0x29 + 1 * 2 ^ 64)] } }, .mga, leBytes 64 (0x29 + 1 * 2 ^ 64),
        _, ⟨rfl, rfl⟩, by decide +kernel, ⟨by decide +kernel, rfl, by decide +kernel⟩, by decide +kernel, rfl,
        by decide +kernel, by decide +kernel⟩

theorem test_AdminRingFollowsTheDoorbells :
    (∃ (s : State) (d : Nat) (hdrDom : Nat) (size : Nat) (value : Nat), s.Serves ∧ s.core.on 1 = true ∧
          s.core.on 2 = true ∧ d < 256 ∧ value < 2 ^ 32 ∧ (∀ (e : DomEntry), s.core.domEntry d = some e →
          ¬doorbellFits e d hdrDom size value))
    ∧ (∃ (s : State) (d : Nat) (e : DomEntry) (x : Domain) (hdrDom : Nat) (size : Nat) (value : Nat), s.Serves ∧
          s.core.on 1 = true ∧ s.core.on 2 = true ∧ d < 256 ∧ s.core.domEntry d = some e ∧ s.core.domain d = x ∧
          value < 2 ^ 32 ∧ doorbellFits e d hdrDom size value ∧ s.core.adminRingOk d e = false)
    ∧ (∃ (s : State) (d : Nat) (e : DomEntry) (x : Domain) (hdrDom : Nat) (size : Nat) (value : Nat), s.Serves ∧
          s.core.on 1 = true ∧ s.core.on 2 = true ∧ d < 256 ∧ s.core.domEntry d = some e ∧ s.core.domain d = x ∧
          value < 2 ^ 32 ∧ doorbellFits e d hdrDom size value ∧ s.core.adminRingOk d e = true ∧ x.lostCpl = false ∧
          s.core.resetting d = false ∧ x.reading = false ∧ x.fetched = none ∧ s.core.pollMay = true)
    ∧ (∃ (s : State) (d : Nat) (e : DomEntry) (x : Domain) (hdrDom : Nat) (size : Nat) (value : Nat), s.Serves ∧
          s.core.on 1 = true ∧ s.core.on 2 = true ∧ d < 256 ∧ s.core.domEntry d = some e ∧ s.core.domain d = x ∧
          value < 2 ^ 32 ∧ doorbellFits e d hdrDom size value ∧ s.core.adminRingOk d e = true ∧ x.lostCpl = false ∧
          s.core.resetting d = false ∧ x.reading = false ∧ x.fetched = none ∧ s.core.pollMay = false)
    ∧ (∃ (s : State) (d : Nat) (e : DomEntry) (x : Domain) (hdrDom : Nat) (size : Nat) (value : Nat), s.Serves ∧
          s.core.on 1 = true ∧ s.core.on 2 = true ∧ d < 256 ∧ s.core.domEntry d = some e ∧ s.core.domain d = x ∧
          value < 2 ^ 32 ∧ doorbellFits e d hdrDom size value ∧ s.core.adminRingOk d e = true ∧ x.lostCpl = false ∧
          s.core.resetting d = false ∧ x.reading = true)
    ∧ (∃ (s : State) (d : Nat) (e : DomEntry) (x : Domain) (hdrDom : Nat) (size : Nat) (value : Nat), s.Serves ∧
          s.core.on 1 = true ∧ s.core.on 2 = true ∧ d < 256 ∧ s.core.domEntry d = some e ∧ s.core.domain d = x ∧
          value < 2 ^ 32 ∧ doorbellFits e d hdrDom size value ∧ s.core.adminRingOk d e = true ∧ x.lostCpl = false ∧
          s.core.resetting d = false ∧ x.reading = false ∧ x.fetched ≠ none)
    ∧ (∃ (s : State) (d : Nat) (e : DomEntry) (x : Domain) (hdrDom : Nat) (size : Nat) (value : Nat), s.Serves ∧
          s.core.on 1 = true ∧ s.core.on 2 = true ∧ d < 256 ∧ s.core.domEntry d = some e ∧ s.core.domain d = x ∧
          value < 2 ^ 32 ∧ doorbellFits e d hdrDom size value ∧
          (x.cplPos + 2 * e.adminLen - x.retPos) % (2 * e.adminLen) < (posOf value e.adminLen + 2 * e.adminLen - x.retPos) % (2 * e.adminLen))
    ∧ (∃ (s : State) (d : Nat) (e : DomEntry) (x : Domain) (hdrDom : Nat) (size : Nat) (value : Nat), s.Serves ∧
          s.core.on 1 = true ∧ s.core.on 2 = true ∧ d < 256 ∧ s.core.domEntry d = some e ∧ s.core.domain d = x ∧
          value < 2 ^ 32 ∧ doorbellFits e d hdrDom size value ∧
          (posOf value e.adminLen + 2 * e.adminLen - x.retPos) % (2 * e.adminLen) ≤ (x.cplPos + 2 * e.adminLen - x.retPos) % (2 * e.adminLen) ∧
          x.fetched = none)
    ∧ (∃ (s : State) (d : Nat) (e : DomEntry) (x : Domain), s.Serves ∧ s.core.on 1 = true ∧ s.core.on 2 = true ∧
          d < 256 ∧ s.core.domEntry d = some e ∧ s.core.domain d = x ∧ x.started = true ∧ x.served = true ∧
          x.reading = false ∧ x.fetched = none ∧ x.lostCpl = false ∧ s.core.resetting d = false ∧ s.core.pollMay = true)
    ∧ (∃ (s : State) (d : Nat) (e : DomEntry) (x : Domain), s.Serves ∧ s.core.on 1 = true ∧ s.core.on 2 = true ∧
          d < 256 ∧ s.core.domEntry d = some e ∧ s.core.domain d = x ∧ x.started = true ∧ x.served = true ∧
          x.reading = false ∧ x.fetched = none ∧ x.lostCpl = false ∧ s.core.resetting d = false ∧
          s.core.pollMay = false)
    ∧ (∃ (s : State) (d : Nat) (e : DomEntry) (x : Domain) (n : Nat) (t : Nat) (bs : List Byte), s.Serves ∧
          s.core.on 1 = true ∧ s.core.on 2 = true ∧ d < 256 ∧ s.core.domEntry d = some e ∧ s.core.domain d = x ∧
          x.reading = true ∧ s.core.Awaits (isAdminRead d) (Purpose.admin d) n t ∧ bs.length = 64 ∧
          ownOf bs = decide (lapOf x.cmdPos e.adminLen = 1) ∧ s.core.cplRoom d = true ∧
          opcodeKnown (leAt bs 0 1) = true)
    ∧ (∃ (s : State) (d : Nat) (e : DomEntry) (x : Domain) (n : Nat) (t : Nat) (bs : List Byte), s.Serves ∧
          s.core.on 1 = true ∧ s.core.on 2 = true ∧ d < 256 ∧ s.core.domEntry d = some e ∧ s.core.domain d = x ∧
          x.reading = true ∧ s.core.Awaits (isAdminRead d) (Purpose.admin d) n t ∧ bs.length = 64 ∧
          ownOf bs ≠ decide (lapOf x.cmdPos e.adminLen = 1) ∧ x.ask = false)
    ∧ (∃ (s : State) (d : Nat) (e : DomEntry) (x : Domain) (n : Nat) (t : Nat) (bs : List Byte), s.Serves ∧
          s.core.on 1 = true ∧ s.core.on 2 = true ∧ d < 256 ∧ s.core.domEntry d = some e ∧ s.core.domain d = x ∧
          x.reading = true ∧ s.core.Awaits (isAdminRead d) (Purpose.admin d) n t ∧ bs.length = 64 ∧
          ownOf bs ≠ decide (lapOf x.cmdPos e.adminLen = 1) ∧ x.ask = true ∧ x.started = true ∧ x.served = true ∧
          x.fetched = none ∧ x.lostCpl = false ∧ s.core.resetting d = false ∧ s.core.pollMay = true)
    ∧ (∃ (s : State) (d : Nat) (e : DomEntry) (x : Domain) (n : Nat) (t : Nat) (r : ReadResult), s.Serves ∧
          s.core.on 1 = true ∧ s.core.on 2 = true ∧ d < 256 ∧ s.core.domEntry d = some e ∧ s.core.domain d = x ∧
          x.reading = true ∧ s.core.Awaits (isAdminRead d) (Purpose.admin d) n t ∧
          (r = ReadResult.error ∨ r = ReadResult.timeout) ∧ x.ask = false) := by
  refine ⟨?_, ?_, ?_, ?_, ?_, ?_, ?_, ?_, ?_, ?_, ?_, ?_, ?_, ?_⟩
  · exact ⟨wSt wB, 255, 0, 3, 0xFFFFFFFF, ⟨rfl, rfl⟩, by decide +kernel, by decide +kernel, by decide +kernel,
        by decide +kernel, by intro e he hf; have := hf.1; revert this; decide⟩
  · exact ⟨wSt { wB with image := some { wImg with windows := [] } }, 1, _, _, 1, 4, 15, ⟨rfl, rfl⟩, by decide +kernel,
        by decide +kernel, by decide +kernel, rfl, rfl, by decide +kernel, by decide +kernel, by decide +kernel⟩
  · exact ⟨wSt wB, 1, _, _, 1, 8, 15, ⟨rfl, rfl⟩, by decide +kernel, by decide +kernel, by decide +kernel, rfl, rfl,
        by decide +kernel, by decide +kernel, by decide +kernel, by decide +kernel, by decide +kernel,
        by decide +kernel, by decide +kernel, by decide +kernel⟩
  · exact ⟨wSt { wB with domains := [(1, {  })], sched := { pollUsed := 1 } }, 1, _, _, 1, 8, 15, ⟨rfl, rfl⟩,
        by decide +kernel, by decide +kernel, by decide +kernel, rfl, rfl, by decide +kernel, by decide +kernel,
        by decide +kernel, by decide +kernel, by decide +kernel, by decide +kernel, by decide +kernel,
        by decide +kernel⟩
  · exact ⟨wSt { wB with domains := [(1, { reading := true })] }, 1, _, _, 1, 4, 0, ⟨rfl, rfl⟩, by decide +kernel,
        by decide +kernel, by decide +kernel, rfl, rfl, by decide +kernel, by decide +kernel, by decide +kernel,
        by decide +kernel, by decide +kernel, by decide +kernel⟩
  · exact ⟨wSt { wB with domains := [(1, { fetched := some [] })] }, 1, _, _, 1, 4, 0, ⟨rfl, rfl⟩, by decide +kernel,
        by decide +kernel, by decide +kernel, rfl, rfl, by decide +kernel, by decide +kernel, by decide +kernel,
        by decide +kernel, by decide +kernel, by decide +kernel, by decide +kernel⟩
  · exact ⟨wSt wB, 1, _, _, 1, 4, 1, ⟨rfl, rfl⟩, by decide +kernel, by decide +kernel, by decide +kernel, rfl, rfl,
        by decide +kernel, by decide +kernel, by decide +kernel⟩
  · exact ⟨wSt { wB with domains := [(1, { cplPos := 1 })] }, 1, _, _, 1, 4, 0x10001, ⟨rfl, rfl⟩, by decide +kernel,
        by decide +kernel, by decide +kernel, rfl, rfl, by decide +kernel, by decide +kernel, by decide +kernel,
        by decide +kernel⟩
  · exact ⟨wSt { wB with domains := [(1, { started := true, served := true })] }, 1, _, _, ⟨rfl, rfl⟩,
        by decide +kernel, by decide +kernel, by decide +kernel, rfl, rfl, by decide +kernel, by decide +kernel,
        by decide +kernel, by decide +kernel, by decide +kernel, by decide +kernel, by decide +kernel⟩
  · exact ⟨wSt { wB with domains := [(1, { started := true, served := true })], sched := { pollUsed := 1 } }, 1, _, _,
        ⟨rfl, rfl⟩, by decide +kernel, by decide +kernel, by decide +kernel, rfl, rfl, by decide +kernel,
        by decide +kernel, by decide +kernel, by decide +kernel, by decide +kernel, by decide +kernel,
        by decide +kernel⟩
  · exact ⟨wSt { wT wB (.admin 1) 64 with domains := [(1, { reading := true })] }, 1, _, _, 0, 0, leBytes 64 0x10B,
        ⟨rfl, rfl⟩, by decide +kernel, by decide +kernel, by decide +kernel, rfl, rfl, by decide +kernel, ⟨⟨_, rfl⟩,
        by decide +kernel⟩, by decide +kernel, by decide +kernel, by decide +kernel, by decide +kernel⟩
  · exact ⟨wSt { wT wB (.admin 1) 64 with domains := [(1, { reading := true })] }, 1, _, _, 0, 0, leBytes 64 0x0B, ⟨rfl,
        rfl⟩, by decide +kernel, by decide +kernel, by decide +kernel, rfl, rfl, by decide +kernel, ⟨⟨_, rfl⟩,
        by decide +kernel⟩, by decide +kernel, by decide +kernel, by decide +kernel⟩
  · exact ⟨wSt { wT wB (.admin 1) 64 with domains := [(1, { reading := true, ask := true, started := true, served := true })] },
        1, _, _, 0, 0, leBytes 64 0x0B, ⟨rfl, rfl⟩, by decide +kernel, by decide +kernel, by decide +kernel, rfl, rfl,
        by decide +kernel, ⟨⟨_, rfl⟩, by decide +kernel⟩, by decide +kernel, by decide +kernel, by decide +kernel,
        by decide +kernel, by decide +kernel, by decide +kernel, by decide +kernel, by decide +kernel,
        by decide +kernel⟩
  · exact ⟨wSt { wT wB (.admin 1) 64 with domains := [(1, { reading := true })] }, 1, _, _, 0, 0, .timeout, ⟨rfl, rfl⟩,
        by decide +kernel, by decide +kernel, by decide +kernel, rfl, rfl, by decide +kernel, ⟨⟨_, rfl⟩,
        by decide +kernel⟩, by decide +kernel, by decide +kernel⟩

theorem test_ManagementSlotsFillAndDrain :
    (∃ (s : State) (p : MPort) (second : Bool) (r : AdminRing) (x : MgRing), s.Serves ∧
          (r = if second = true then AdminRing.mgb else AdminRing.mga) ∧ x = s.core.mgRing r ∧
          (s.core.Open p (if second = true then 0x60C0 else 0x6040)) ∧ 16 ≤ x.slots.length)
    ∧ (∃ (s : State) (p : MPort) (second : Bool) (r : AdminRing) (x : MgRing) (c : List Byte), s.Serves ∧
          (r = if second = true then AdminRing.mgb else AdminRing.mga) ∧ x = s.core.mgRing r ∧
          (c = List.flatMap (fun k => leBytes 4 (s.core.reg ((if second = true then 0x6080 else 0x6000) + 4 * k))) (List.range 16)) ∧
          (s.core.Open p (if second = true then 0x60C0 else 0x6040)) ∧ x.slots.length < 16 ∧ (∀ (h : List Byte),
          (x.slots ++ [c]).head? = some h → opcodeKnown (leAt h 0 1) = true))
    ∧ (∃ (s : State) (p : MPort) (second : Bool) (r : AdminRing) (x : MgRing), s.Serves ∧
          (r = if second = true then AdminRing.mgb else AdminRing.mga) ∧ x = s.core.mgRing r ∧
          (s.core.Open p (if second = true then 0x60D8 else 0x6058)) ∧ (∀ (h : List Byte), x.slots.head? = some h →
          opcodeKnown (leAt h 0 1) = true))
    ∧ (∃ (s : State) (second : Bool) (r : AdminRing) (x : MgRing) (rest : List (List Byte)) (j : AdminJob), s.Serves ∧
          (r = if second = true then AdminRing.mgb else AdminRing.mga) ∧ x = s.core.mgRing r ∧ x.slots = rest ∧
          (∀ (h : List Byte), rest.head? = some h → opcodeKnown (leAt h 0 1) = true) ∧ s.core.sched.jobs = [j] ∧
          j.ring = r ∧ j.wait = JobWait.context) := by
  refine ⟨?_, ?_, ?_, ?_⟩
  · exact ⟨wSt { wB with mga := { slots := List.replicate 16 (leBytes 64 0x0B) } }, .mpa, false, _, _, ⟨rfl, rfl⟩, rfl,
        rfl, wOpen (by decide +kernel), by decide +kernel⟩
  · exact ⟨wSt { wB with regs := [(0x6080, 0x0B)] }, .mpa, true, _, _, _, ⟨rfl, rfl⟩, rfl, rfl, rfl,
        wOpen (by decide +kernel), by decide +kernel, by intro h hh; cases hh; decide +kernel⟩
  · exact ⟨wSt { wB with mga := { slots := [leBytes 64 0x0B] } }, .mpa, false, _, _, ⟨rfl, rfl⟩, rfl, rfl,
        wOpen (by decide +kernel), by intro h hh; cases hh; decide +kernel⟩
  · exact ⟨wSt { wB with sched := { jobs := [⟨.mga, leBytes 64 5, .context, 0, false, 0, 0, 0, false, none, false, none⟩] } },
        false, _, _, [], _, ⟨rfl, rfl⟩, rfl, rfl, by decide +kernel, nofun, rfl, rfl, by decide +kernel⟩

theorem test_NudgesFollowTheirQueue :
    (∃ (s : State) (q : QRef) (x : Queue) (hdrDom : Nat) (size : Nat) (value : Nat), s.Serves ∧ s.core.on 1 = true ∧
          s.core.on 2 = true ∧ q.wf = true ∧ value < 2 ^ 32 ∧ x = s.core.queue q ∧ (size ≠ 4 ∧
          size ≠ 8 ∨ x.run.phase = QPhase.free ∨ hdrDom ≠ x.cfg.dom))
    ∧ (∃ (s : State) (q : QRef) (x : Queue) (size : Nat) (value : Nat) (n : Nat), s.Serves ∧ s.core.on 1 = true ∧
          s.core.on 2 = true ∧ q.wf = true ∧ value < 2 ^ 32 ∧ x = s.core.queue q ∧ (size = 4 ∨ size = 8) ∧
          q = QRef.dom n ∧
          (x.run.phase = QPhase.spilling ∨ x.run.phase = QPhase.refilling ∨ x.run.phase = QPhase.spilled ∧
          s.core.heldAbove q = true))
    ∧ (∃ (s : State) (q : QRef) (x : Queue) (size : Nat) (value : Nat) (n : Nat), s.Serves ∧ s.core.on 1 = true ∧
          s.core.on 2 = true ∧ q.wf = true ∧ value < 2 ^ 32 ∧ x = s.core.queue q ∧ (size = 4 ∨ size = 8) ∧
          q = QRef.dom n ∧ x.run.phase = QPhase.spilled ∧ s.core.heldAbove q = false)
    ∧ (∃ (s : State) (q : QRef) (x : Queue) (size : Nat) (value : Nat), s.Serves ∧ s.core.on 1 = true ∧
          s.core.on 2 = true ∧ q.wf = true ∧ value < 2 ^ 32 ∧ x = s.core.queue q ∧ (size = 4 ∨ size = 8) ∧
          x.run.phase ∈ [QPhase.idle, QPhase.bound, QPhase.stopping, QPhase.stopped, QPhase.halted, QPhase.lost, QPhase.destroying] ∧
          x.size ≤ bits value 15 0)
    ∧ (∃ (s : State) (q : QRef) (x : Queue) (size : Nat) (value : Nat), s.Serves ∧ s.core.on 1 = true ∧
          s.core.on 2 = true ∧ q.wf = true ∧ value < 2 ^ 32 ∧ x = s.core.queue q ∧ (size = 4 ∨ size = 8) ∧
          x.run.phase ∈ [QPhase.idle, QPhase.bound, QPhase.stopping, QPhase.stopped, QPhase.halted, QPhase.lost, QPhase.destroying] ∧
          bits value 15 0 < x.size ∧ x.run.phase ∈ [QPhase.stopped, QPhase.halted, QPhase.lost, QPhase.destroying])
    ∧ (∃ (s : State) (q : QRef) (x : Queue) (size : Nat) (value : Nat), s.Serves ∧ s.core.on 1 = true ∧
          s.core.on 2 = true ∧ q.wf = true ∧ value < 2 ^ 32 ∧ x = s.core.queue q ∧ (size = 4 ∨ size = 8) ∧
          x.run.phase ∈ [QPhase.idle, QPhase.bound, QPhase.stopping, QPhase.stopped, QPhase.halted, QPhase.lost, QPhase.destroying] ∧
          bits value 15 0 < x.size ∧ x.run.phase ∈ [QPhase.idle, QPhase.bound, QPhase.stopping] ∧ q.isCell = true ∧
          x.run.firstNudge = false)
    ∧ (∃ (s : State) (q : QRef) (x : Queue) (size : Nat) (value : Nat), s.Serves ∧ s.core.on 1 = true ∧
          s.core.on 2 = true ∧ q.wf = true ∧ value < 2 ^ 32 ∧ x = s.core.queue q ∧ (size = 4 ∨ size = 8) ∧
          x.run.phase ∈ [QPhase.idle, QPhase.bound, QPhase.stopping, QPhase.stopped, QPhase.halted, QPhase.lost, QPhase.destroying] ∧
          bits value 15 0 < x.size ∧ x.run.phase ∈ [QPhase.idle, QPhase.bound, QPhase.stopping] ∧
          (q.isCell = false ∨ x.run.firstNudge = true) ∧ s.core.ReadsNow q)
    ∧ (∃ (s : State) (q : QRef) (x : Queue) (size : Nat) (value : Nat), s.Serves ∧ s.core.on 1 = true ∧
          s.core.on 2 = true ∧ q.wf = true ∧ value < 2 ^ 32 ∧ x = s.core.queue q ∧ (size = 4 ∨ size = 8) ∧
          x.run.phase ∈ [QPhase.idle, QPhase.bound, QPhase.stopping, QPhase.stopped, QPhase.halted, QPhase.lost, QPhase.destroying] ∧
          bits value 15 0 < x.size ∧ x.run.phase ∈ [QPhase.idle, QPhase.bound, QPhase.stopping] ∧
          (q.isCell = false ∨ x.run.firstNudge = true) ∧ s.core.mayFetch q = true ∧
          (s.core.pollMay && s.core.sched.pollWait.isEmpty) = false)
    ∧ (∃ (s : State) (q : QRef) (x : Queue) (size : Nat) (value : Nat), s.Serves ∧ s.core.on 1 = true ∧
          s.core.on 2 = true ∧ q.wf = true ∧ value < 2 ^ 32 ∧ x = s.core.queue q ∧ (size = 4 ∨ size = 8) ∧
          x.run.phase ∈ [QPhase.idle, QPhase.bound, QPhase.stopping, QPhase.stopped, QPhase.halted, QPhase.lost, QPhase.destroying] ∧
          bits value 15 0 < x.size ∧ x.run.phase ∈ [QPhase.idle, QPhase.bound, QPhase.stopping] ∧
          (q.isCell = false ∨ x.run.firstNudge = true) ∧ s.core.mayFetch q = false)
    ∧ (∃ (s : State) (q : QRef) (x : Queue) (value : Nat), s.Serves ∧ s.core.on 1 = true ∧ s.core.on 2 = true ∧
          q.wf = true ∧ value < 2 ^ 32 ∧ x = s.core.queue q ∧ x.cfg.pollPhase = false ∧ s.core.pollEarly q = false ∧
          s.core.ReadsNow q)
    ∧ (∃ (s : State) (q : QRef) (x : Queue) (value : Nat), s.Serves ∧ s.core.on 1 = true ∧ s.core.on 2 = true ∧
          q.wf = true ∧ value < 2 ^ 32 ∧ x = s.core.queue q ∧ x.cfg.pollPhase = false ∧ s.core.pollEarly q = false ∧
          s.core.mayFetch q = true ∧ (s.core.pollMay && s.core.sched.pollWait.isEmpty) = false)
    ∧ (∃ (s : State) (q : QRef) (x : Queue) (value : Nat), s.Serves ∧ s.core.on 1 = true ∧ s.core.on 2 = true ∧
          q.wf = true ∧ value < 2 ^ 32 ∧ x = s.core.queue q ∧ (s.core.mayFetch q = false ∨ x.cfg.pollPhase = false ∧
          s.core.pollEarly q = true)) := by
  refine ⟨?_, ?_, ?_, ?_, ?_, ?_, ?_, ?_, ?_, ?_, ?_, ?_⟩
  · exact ⟨wSt wB, .dom 0x3FFFF, _, 0, 4, 0xFFFFFFFF, ⟨rfl, rfl⟩, by decide +kernel, by decide +kernel,
        by decide +kernel, by decide +kernel, rfl, by decide +kernel⟩
  · exact ⟨wSt (wQB (wQ .spilling)), .dom 0, _, 4, 0, 0, ⟨rfl, rfl⟩, by decide +kernel, by decide +kernel,
        by decide +kernel, by decide +kernel, rfl, by decide +kernel, rfl, by decide +kernel⟩
  · exact ⟨wSt (wQB (wQ .spilled)), .dom 0, _, 4, 0, 0, ⟨rfl, rfl⟩, by decide +kernel, by decide +kernel,
        by decide +kernel, by decide +kernel, rfl, by decide +kernel, rfl, by decide +kernel, by decide +kernel⟩
  · exact ⟨wSt (wQB (wQ .idle)), .dom 0, _, 4, 16, ⟨rfl, rfl⟩, by decide +kernel, by decide +kernel, by decide +kernel,
        by decide +kernel, rfl, by decide +kernel, by decide +kernel, by decide +kernel⟩
  · exact ⟨wSt (wQB (wQ .stopped)), .dom 0, _, 4, 15, ⟨rfl, rfl⟩, by decide +kernel, by decide +kernel,
        by decide +kernel, by decide +kernel, rfl, by decide +kernel, by decide +kernel, by decide +kernel,
        by decide +kernel⟩
  · exact ⟨wSt { wB with cells := [(63, wQ .idle)] }, .cell 63, _, 4, 15, ⟨rfl, rfl⟩, by decide +kernel,
        by decide +kernel, by decide +kernel, by decide +kernel, rfl, by decide +kernel, by decide +kernel,
        by decide +kernel, by decide +kernel, by decide +kernel, by decide +kernel⟩
  · exact ⟨wSt (wQB { run := { phase := .bound, polling := true } }), .dom 0, _, 4, 15, ⟨rfl, rfl⟩, by decide +kernel,
        by decide +kernel, by decide +kernel, by decide +kernel, rfl, by decide +kernel, by decide +kernel,
        by decide +kernel, by decide +kernel, by decide +kernel, ⟨by decide +kernel, by decide +kernel, rfl,
        by decide +kernel⟩⟩
  · exact ⟨wSt { wQB { run := { phase := .bound, polling := true } } with sched := { pollUsed := 1 } }, .dom 0, _, 4,
        15, ⟨rfl, rfl⟩, by decide +kernel, by decide +kernel, by decide +kernel, by decide +kernel, rfl,
        by decide +kernel, by decide +kernel, by decide +kernel, by decide +kernel, by decide +kernel,
        by decide +kernel, by decide +kernel⟩
  · exact ⟨wSt (wQB (wQ .stopping)), .dom 0, _, 4, 15, ⟨rfl, rfl⟩, by decide +kernel, by decide +kernel,
        by decide +kernel, by decide +kernel, rfl, by decide +kernel, by decide +kernel, by decide +kernel,
        by decide +kernel, by decide +kernel, by decide +kernel⟩
  · exact ⟨wSt (wQB { run := { phase := .bound, polling := true } }), .dom 0, _, 0, ⟨rfl, rfl⟩, by decide +kernel,
        by decide +kernel, by decide +kernel, by decide +kernel, rfl, by decide +kernel, by decide +kernel,
        ⟨by decide +kernel, by decide +kernel, rfl, by decide +kernel⟩⟩
  · exact ⟨wSt { wQB { run := { phase := .bound, polling := true } } with sched := { pollUsed := 1 } }, .dom 0, _, 0,
        ⟨rfl, rfl⟩, by decide +kernel, by decide +kernel, by decide +kernel, by decide +kernel, rfl, by decide +kernel,
        by decide +kernel, by decide +kernel, by decide +kernel⟩
  · exact ⟨wSt wB, .dom 0, _, 0, ⟨rfl, rfl⟩, by decide +kernel, by decide +kernel, by decide +kernel, by decide +kernel,
        rfl, by decide +kernel⟩

theorem test_RingTilesAdvanceTheTail :
    (∃ (s : State) (port : Nat) (tag : Nat) (gen : Nat) (q : QRef) (p : Nat) (t : TagRec) (r : ReadResult), s.Serves ∧
          port < 8 ∧ tag < 1024 ∧ gen < 4 ∧ t = tabGet { } (s.core.port port).tags tag ∧ t.purpose = Purpose.ring q p ∧
          t.gen = gen ∧ s.core.tagOut port tag = true ∧ (r = ReadResult.error ∨ r = ReadResult.timeout))
    ∧ (∃ (s : State) (port : Nat) (tag : Nat) (gen : Nat) (q : QRef) (p : Nat) (t : TagRec) (bs : List Byte), s.Serves ∧
          port < 8 ∧ tag < 1024 ∧ gen < 4 ∧ t = tabGet { } (s.core.port port).tags tag ∧ t.purpose = Purpose.ring q p ∧
          t.gen = gen ∧ s.core.tagOut port tag = true ∧ bs.length = 64 ∧
          (s.core.mayFetch q = false ∨ (s.core.queue q).wants p bs = false))
    ∧ (∃ (s : State) (port : Nat) (tag : Nat) (gen : Nat) (q : QRef) (p : Nat) (t : TagRec) (bs : List Byte), s.Serves ∧
          port < 8 ∧ tag < 1024 ∧ gen < 4 ∧ t = tabGet { } (s.core.port port).tags tag ∧ t.purpose = Purpose.ring q p ∧
          t.gen = gen ∧ s.core.tagOut port tag = true ∧ bs.length = 64 ∧ s.core.mayFetch q = true ∧
          (s.core.queue q).wants p bs = true ∧ ((s.core.readOk port tag).makePlace q p).takeTile = none)
    ∧ (∃ (s : State) (port : Nat) (tag : Nat) (gen : Nat) (q : QRef) (p : Nat) (t : TagRec) (bs : List Byte) (loc : Nat) (b : Blk) (x : Queue),
          s.Serves ∧ port < 8 ∧ tag < 1024 ∧ gen < 4 ∧ t = tabGet { } (s.core.port port).tags tag ∧
          t.purpose = Purpose.ring q p ∧ t.gen = gen ∧ s.core.tagOut port tag = true ∧ bs.length = 64 ∧
          s.core.mayFetch q = true ∧ (s.core.queue q).wants p bs = true ∧
          ((s.core.readOk port tag).makePlace q p).takeTile = some (loc, b) ∧ x = b.queue q ∧
          ownOf bs ≠ x.expectedOwn p ∧ p = x.run.tail)
    ∧ (∃ (s : State) (port : Nat) (tag : Nat) (gen : Nat) (q : QRef) (p : Nat) (t : TagRec) (bs : List Byte) (loc : Nat) (b : Blk) (x : Queue),
          s.Serves ∧ port < 8 ∧ tag < 1024 ∧ gen < 4 ∧ t = tabGet { } (s.core.port port).tags tag ∧
          t.purpose = Purpose.ring q p ∧ t.gen = gen ∧ s.core.tagOut port tag = true ∧ bs.length = 64 ∧
          s.core.mayFetch q = true ∧ (s.core.queue q).wants p bs = true ∧
          ((s.core.readOk port tag).makePlace q p).takeTile = some (loc, b) ∧ x = b.queue q ∧
          ownOf bs = x.expectedOwn p ∧ p = x.run.tail ∧ x.dist p x.run.head < x.size ∧ x.goodAt (x.next p) = none ∧
          x.next p ≠ p)
    ∧ (∃ (s : State) (port : Nat) (tag : Nat) (gen : Nat) (q : QRef) (p : Nat) (t : TagRec) (bs : List Byte) (loc : Nat) (b : Blk) (x : Queue),
          s.Serves ∧ port < 8 ∧ tag < 1024 ∧ gen < 4 ∧ t = tabGet { } (s.core.port port).tags tag ∧
          t.purpose = Purpose.ring q p ∧ t.gen = gen ∧ s.core.tagOut port tag = true ∧ bs.length = 64 ∧
          s.core.mayFetch q = true ∧ (s.core.queue q).wants p bs = true ∧
          ((s.core.readOk port tag).makePlace q p).takeTile = some (loc, b) ∧ x = b.queue q ∧ p ≠ x.run.tail ∧
          x.goodAt x.run.tail = none)
    ∧ (∃ (s : State) (port : Nat) (tag : Nat) (gen : Nat) (q : QRef) (p : Nat) (t : TagRec) (b : Blk) (y : Queue) (r : QRef),
          s.Serves ∧ port < 8 ∧ tag < 1024 ∧ gen < 4 ∧ t = tabGet { } (s.core.port port).tags tag ∧
          t.purpose = Purpose.ring q p ∧ t.gen = gen ∧ s.core.tagOut port tag = true ∧
          y.run.tail ≠ (b.queue q).run.tail ∧ r ≠ q) := by
  refine ⟨?_, ?_, ?_, ?_, ?_, ?_, ?_⟩
  · exact ⟨wSt (wT (wQB (wQ .idle)) (.ring (.dom 0) 0) 64), 0, 0, 0, .dom 0, 0, _, .timeout, ⟨rfl, rfl⟩,
        by decide +kernel, by decide +kernel, by decide +kernel, rfl, by decide +kernel, by decide +kernel,
        by decide +kernel, by decide +kernel⟩
  · exact ⟨wSt (wT (wQB (wQ .idle)) (.ring (.dom 0) 0) 64), 0, 0, 0, .dom 0, 0, _, leBytes 64 0, ⟨rfl, rfl⟩,
        by decide +kernel, by decide +kernel, by decide +kernel, rfl, by decide +kernel, by decide +kernel,
        by decide +kernel, by decide +kernel, by decide +kernel⟩
  · exact ⟨wSt { wT (wQB { run := { phase := .idle, polling := true } }) (.ring (.dom 0) 0) 64 with image := some { ident := { mewsTiles := 16384 } } },
        0, 0, 0, .dom 0, 0, _, leBytes 64 0, ⟨rfl, rfl⟩, by decide +kernel, by decide +kernel, by decide +kernel, rfl,
        by decide +kernel, by decide +kernel, by decide +kernel, by decide +kernel, by decide +kernel,
        by decide +kernel, by decide +kernel⟩
  · exact ⟨wSt (wT (wQB { run := { phase := .idle, polling := true } }) (.ring (.dom 0) 0) 64), 0, 0, 0, .dom 0, 0, _,
        leBytes 64 0x000, _, _, _, ⟨rfl, rfl⟩, by decide +kernel, by decide +kernel, by decide +kernel, rfl,
        by decide +kernel, by decide +kernel, by decide +kernel, by decide +kernel, by decide +kernel,
        by decide +kernel, rfl, rfl, by decide +kernel, rfl⟩
  · exact ⟨wSt (wT (wQB { run := { phase := .idle, polling := true } }) (.ring (.dom 0) 0) 64), 0, 0, 0, .dom 0, 0, _,
        leBytes 64 0x100, _, _, _, ⟨rfl, rfl⟩, by decide +kernel, by decide +kernel, by decide +kernel, rfl,
        by decide +kernel, by decide +kernel, by decide +kernel, by decide +kernel, by decide +kernel,
        by decide +kernel, rfl, rfl, by decide +kernel, rfl, by decide +kernel, by decide +kernel, by decide +kernel⟩
  · exact ⟨wSt (wT (wQB { run := { phase := .idle, polling := true } }) (.ring (.dom 0) 1) 64), 0, 0, 0, .dom 0, 1, _,
        leBytes 64 0x100, _, _, _, ⟨rfl, rfl⟩, by decide +kernel, by decide +kernel, by decide +kernel, rfl,
        by decide +kernel, by decide +kernel, by decide +kernel, by decide +kernel, by decide +kernel,
        by decide +kernel, rfl, rfl, by decide +kernel, by decide +kernel⟩
  · exact ⟨wSt (wT (wQB (wQ .idle)) (.ring (.dom 0) 0) 64), 0, 0, 0, .dom 0, 0, _, wB, { run := { tail := 1 } },
        .cell 0, ⟨rfl, rfl⟩, by decide +kernel, by decide +kernel, by decide +kernel, rfl, by decide +kernel,
        by decide +kernel, by decide +kernel, by decide +kernel, by decide +kernel⟩

theorem test_BindingsAndFills :
    (∃ (s : State) (q : QRef) (x : Queue) (m : Nat) (k : Nat) (y : Binding) (c : Copy) (d : Desc), s.Serves ∧
          q.wf = true ∧ x = s.core.queue q ∧ s.core.CanFill q m k y c ∧ d = decodeDesc c.bytes ∧ dcrcOk d = true ∧
          formReason d x.cfg.adminMark x.run.prevLast = none ∧ d.win = false ∧ d.kind ≠ kSnap ∧ d.kind ≠ kAscat ∧
          s.core.shadowAt q = none)
    ∧ (∃ (s : State) (q : QRef) (x : Queue) (m : Nat) (k : Nat) (y : Binding) (c : Copy) (d : Desc) (r : Nat),
          s.Serves ∧ q.wf = true ∧ x = s.core.queue q ∧ s.core.CanFill q m k y c ∧ d = decodeDesc c.bytes ∧
          dcrcOk d = true ∧ formReason d x.cfg.adminMark x.run.prevLast = some r)
    ∧ (∃ (s : State) (q : QRef) (x : Queue) (m : Nat) (k : Nat) (y : Binding) (c : Copy) (d : Desc) (c1 : Nat),
          s.Serves ∧ q.wf = true ∧ x = s.core.queue q ∧ s.core.CanFill q m k y c ∧ d = decodeDesc c.bytes ∧
          dcrcOk d = false ∧ x.recheck = some (x.run.fetched, c1))
    ∧ (∃ (s : State) (q : QRef) (x : Queue) (m : Nat) (k : Nat) (y : Binding) (c : Copy) (d : Desc), s.Serves ∧
          q.wf = true ∧ x = s.core.queue q ∧ s.core.CanFill q m k y c ∧ d = decodeDesc c.bytes ∧ dcrcOk d = false ∧
          x.recheck = none)
    ∧ (∃ (s : State) (q : QRef) (m : Nat) (k : Nat), s.Serves ∧ q.wf = true ∧ s.core.on 1 = true ∧
          s.core.levels q = none ∧ s.core.bindable q = true ∧ s.core.chooseMover q = some (m, false) ∧
          (s.core.mover m).freePlace = some k)
    ∧ (∃ (s : State) (q : QRef), s.Serves ∧ q.wf = true ∧ s.core.on 1 = true ∧ s.core.levels q = none ∧
          s.core.bindable q = true ∧ s.core.chooseMover q = none ∧ s.core.sched.bindList.contains q = false)
    ∧ (∃ (s : State) (q : QRef) (x : Queue) (m : Nat) (k : Nat), s.Serves ∧ q.wf = true ∧ x = s.core.queue q ∧
          q.isCell = false ∧ x.run.phase = QPhase.bound ∧ x.run.tail = x.run.head ∧ s.core.quiet q = true ∧
          s.core.boundAt q = some (m, k) ∧ s.core.shadowAt q = none ∧ s.core.sched.bindList = [])
    ∧ (∃ (s : State) (q : QRef) (m : Nat) (k : Nat) (n : Nat), s.Serves ∧ q.wf = true ∧ s.core.sched.bindList ≠ [] ∧
          s.core.regF 0x11200 31 16 ≠ 0 ∧ s.core.longestBound = some (m, k, n)) := by
  refine ⟨?_, ?_, ?_, ?_, ?_, ?_, ?_, ?_⟩
  · exact ⟨wSt (wM { run := { phase := .bound, tail := 1 }, cache := [⟨0, leBytes 64 0x30D, tileCrc (leBytes 64 0x30D) fullMask, 0⟩] } (wBind [] [])),
        .dom 0, _, 0, 0, _, _, _, ⟨rfl, rfl⟩, by decide +kernel, rfl, ⟨rfl, rfl, by decide +kernel, by decide +kernel,
        by decide +kernel, by decide +kernel, by decide +kernel, by decide +kernel, rfl, by decide +kernel,
        by decide +kernel⟩, rfl, by decide +kernel, by decide +kernel, by decide +kernel, by decide +kernel,
        by decide +kernel, by decide +kernel⟩
  · exact ⟨wSt (wM { run := { phase := .bound, tail := 1 }, cache := [⟨0, leBytes 64 0x1FF, tileCrc (leBytes 64 0x1FF) fullMask, 0⟩] } (wBind [] [])),
        .dom 0, _, 0, 0, _, _, _, _, ⟨rfl, rfl⟩, by decide +kernel, rfl, ⟨rfl, rfl, by decide +kernel,
        by decide +kernel, by decide +kernel, by decide +kernel, by decide +kernel, by decide +kernel, rfl,
        by decide +kernel, by decide +kernel⟩, rfl, by decide +kernel, rfl⟩
  · exact ⟨wSt (wM { run := { phase := .bound, tail := 1 }, cache := [⟨0, leBytes 64 0x200030D, tileCrc (leBytes 64 0x200030D) fullMask, 0⟩], recheck := some (0, 0) } (wBind [] [])),
        .dom 0, _, 0, 0, _, _, _, 0, ⟨rfl, rfl⟩, by decide +kernel, rfl, ⟨rfl, rfl, by decide +kernel,
        by decide +kernel, by decide +kernel, by decide +kernel, by decide +kernel, by decide +kernel, rfl,
        by decide +kernel, by decide +kernel⟩, rfl, by decide +kernel, by decide +kernel⟩
  · exact ⟨wSt (wM { run := { phase := .bound, tail := 1 }, cache := [⟨0, leBytes 64 0x200030D, tileCrc (leBytes 64 0x200030D) fullMask, 0⟩] } (wBind [] [])),
        .dom 0, _, 0, 0, _, _, _, ⟨rfl, rfl⟩, by decide +kernel, rfl, ⟨rfl, rfl, by decide +kernel, by decide +kernel,
        by decide +kernel, by decide +kernel, by decide +kernel, by decide +kernel, rfl, by decide +kernel,
        by decide +kernel⟩, rfl, by decide +kernel, by decide +kernel⟩
  · exact ⟨wSt { wQB { run := { phase := .idle, tail := 1 } } with movers := [(0, { state := .active })] }, .dom 0, 0,
        0, ⟨rfl, rfl⟩, by decide +kernel, by decide +kernel, by decide +kernel, by decide +kernel, by decide +kernel,
        by decide +kernel⟩
  · exact ⟨wSt (wQB { run := { phase := .idle, tail := 1 } }), .dom 0, ⟨rfl, rfl⟩, by decide +kernel, by decide +kernel,
        by decide +kernel, by decide +kernel, by decide +kernel, by decide +kernel⟩
  · exact ⟨wSt (wM (wQ .bound) (wBind [] [])), .dom 0, _, 0, 0, ⟨rfl, rfl⟩, by decide +kernel, rfl, by decide +kernel,
        by decide +kernel, by decide +kernel, by decide +kernel, by decide +kernel, by decide +kernel,
        by decide +kernel⟩
  · exact ⟨wSt { wM (wQ .bound) (wBind [] []) with sched := { bindList := [.dom 1] }, regs := [(0x11200, 0x10000)] },
        .dom 0, _, _, _, ⟨rfl, rfl⟩, by decide +kernel, by decide +kernel, by decide +kernel, rfl⟩

theorem test_ContextsSpillAndRefill :
    (∃ (s : State) (q : QRef) (x : Queue), s.Serves ∧ q.wf = true ∧ x = s.core.queue q ∧ x.run.phase = QPhase.spilling ∧
          s.core.spillOut q = false ∧ s.core.Calm ∧ s.core.NoneWait ∧ x.dying = false)
    ∧ (∃ (s : State) (q : QRef) (x : Queue) (n : Nat) (t : Nat) (bs : List Byte), s.Serves ∧ q.wf = true ∧
          x = s.core.queue q ∧ s.core.Awaits (isRefillRead q) (Purpose.refill q) n t ∧ tileOk (slice bs 0 64) = true ∧
          tileOk (slice bs 64 64) = true ∧ s.core.Calm ∧ s.core.NoneWait ∧ s.core.Unstopped ∧ x.stop = none ∧
          x.dying = false)
    ∧ (∃ (s : State) (q : QRef) (n : Nat) (t : Nat) (r : ReadResult) (cause : Nat) (tile : Nat), s.Serves ∧
          q.wf = true ∧ s.core.Awaits (isRefillRead q) (Purpose.refill q) n t ∧
          (match r with | ReadResult.data bs => cause = 0 ∧ (tile = 0 ∧ tileOk (slice bs 0 64) = false ∨ tile = 1 ∧ tileOk (slice bs 0 64) = true ∧ tileOk (slice bs 64 64) = false) | ReadResult.poison bs => cause = 1 ∧ tile = 0 | ReadResult.error => cause = 2 ∧ tile = 0 | ReadResult.timeout => cause = 3 ∧ tile = 0))
    ∧ (∃ (s : State) (q : QRef) (x : Queue), s.Serves ∧ q.wf = true ∧ x = s.core.queue q ∧
          (x.run.phase = QPhase.idle ∨ x.run.phase = QPhase.bound ∨ x.run.phase = QPhase.stopping) ∧
          x.run.chainTimer = true ∧ x.report = none ∧ s.core.boundAt q = none)
    ∧ (∃ (s : State) (q : QRef) (x : Queue), s.Serves ∧ q.wf = true ∧ x = s.core.queue q ∧
          x.run.chainTimer = false) := by
  refine ⟨?_, ?_, ?_, ?_, ?_⟩
  · exact ⟨wSt (wQB (wQ .spilling)), .dom 0, _, ⟨rfl, rfl⟩, by decide +kernel, rfl, by decide +kernel,
        by decide +kernel, ⟨rfl, by decide +kernel⟩, ⟨rfl, rfl⟩, by decide +kernel⟩
  · exact ⟨wSt (wT (wQB (wQ .refilling)) (.refill (.dom 0)) 128), .dom 0, _, 0, 0, wTile ++ wTile, ⟨rfl, rfl⟩,
        by decide +kernel, rfl, ⟨⟨_, rfl⟩, by decide +kernel⟩, by decide +kernel, by decide +kernel, ⟨rfl,
        by decide +kernel⟩, ⟨rfl, rfl⟩, ⟨fun _ => rfl, by decide +kernel, by decide +kernel, rfl, rfl, rfl⟩,
        by decide +kernel, by decide +kernel⟩
  · exact ⟨wSt (wT (wQB (wQ .refilling)) (.refill (.dom 0)) 128), .dom 0, 0, 0, .timeout, 3, 0, ⟨rfl, rfl⟩,
        by decide +kernel, ⟨⟨_, rfl⟩, by decide +kernel⟩, ⟨rfl, rfl⟩⟩
  · exact ⟨wSt (wQB { run := { phase := .idle, chainTimer := true } }), .dom 0, _, ⟨rfl, rfl⟩, by decide +kernel, rfl,
        by decide +kernel, by decide +kernel, by decide +kernel, by decide +kernel⟩
  · exact ⟨wSt wB, .dom 0, _, ⟨rfl, rfl⟩, by decide +kernel, rfl, by decide +kernel⟩

theorem test_CompletionsFollowTheirTag :
    (∃ (s : State) (port : Nat) (c : Cpl), s.Serves ∧ port < 8 ∧ c.wf = true ∧ s.core.portPowered port = true ∧
          c.badHeader = true)
    ∧ (∃ (s : State) (port : Nat) (c : Cpl) (t : TagRec), s.Serves ∧ port < 8 ∧ c.wf = true ∧
          s.core.portPowered port = true ∧ t = tabGet { } (s.core.port port).tags c.tag ∧ c.badHeader = false ∧
          (s.core.tagOut port c.tag = false ∨ t.gen ≠ c.gen))
    ∧ (∃ (s : State) (port : Nat) (c : Cpl) (t : TagRec), s.Serves ∧ port < 8 ∧ c.wf = true ∧
          s.core.portPowered port = true ∧ t = tabGet { } (s.core.port port).tags c.tag ∧ c.badHeader = false ∧
          s.core.tagOut port c.tag = true ∧ t.gen = c.gen ∧ c.cstat ≠ 0)
    ∧ (∃ (s : State) (port : Nat) (c : Cpl) (t : TagRec), s.Serves ∧ port < 8 ∧ c.wf = true ∧
          s.core.portPowered port = true ∧ t = tabGet { } (s.core.port port).tags c.tag ∧ c.badHeader = false ∧
          s.core.tagOut port c.tag = true ∧ t.gen = c.gen ∧ c.cstat = 0 ∧ ¬t.fits c)
    ∧ (∃ (s : State) (port : Nat) (c : Cpl) (t : TagRec), s.Serves ∧ port < 8 ∧ c.wf = true ∧
          s.core.portPowered port = true ∧ t = tabGet { } (s.core.port port).tags c.tag ∧ c.badHeader = false ∧
          s.core.tagOut port c.tag = true ∧ t.gen = c.gen ∧ c.cstat = 0 ∧ t.fits c ∧ (t.place c).sound = true ∧
          t.got.length + c.data.length ≠ t.len ∧ (∀ (m p q : Nat) (r : QRef), t.purpose ≠ Purpose.data m p q r))
    ∧ (∃ (s : State) (port : Nat) (c : Cpl) (t : TagRec), s.Serves ∧ port < 8 ∧ c.wf = true ∧
          s.core.portPowered port = true ∧ t = tabGet { } (s.core.port port).tags c.tag ∧ c.badHeader = false ∧
          s.core.tagOut port c.tag = true ∧ t.gen = c.gen ∧ c.cstat = 0 ∧ t.fits c ∧ (t.place c).sound = true ∧
          t.got.length + c.data.length = t.len ∧ 0 < t.len)
    ∧ (∃ (s : State) (port : Nat) (c : Cpl) (t : TagRec), s.Serves ∧ port < 8 ∧ c.wf = true ∧
          s.core.portPowered port = true ∧ t = tabGet { } (s.core.port port).tags c.tag ∧ c.badHeader = false ∧
          s.core.tagOut port c.tag = true ∧ t.gen = c.gen ∧ c.cstat = 0 ∧ t.fits c ∧ (t.place c).sound = false)
    ∧ (∃ (s : State) (port : Nat) (c : Cpl) (n : Nat) (g : Nat), s.Serves ∧ port < 8 ∧ c.wf = true ∧
          s.core.portPowered port = true ∧ n < 1024 ∧ g < 4 ∧ s.core.tagOut port n = true ∧
          (tabGet { } (s.core.port port).tags n).gen = g ∧ (tabGet { } (s.core.port port).tags n).len = 0) := by
  refine ⟨?_, ?_, ?_, ?_, ?_, ?_, ?_, ?_⟩
  · exact ⟨wSt wB, 7, ⟨true, 1023, 3, 7, 4095, true, false, []⟩, ⟨rfl, rfl⟩, by decide +kernel, by decide +kernel,
        by decide +kernel, by decide +kernel⟩
  · exact ⟨wSt wB, 7, ⟨false, 0, 0, 0, 0, true, false, []⟩, _, ⟨rfl, rfl⟩, by decide +kernel, by decide +kernel,
        by decide +kernel, rfl, by decide +kernel, by decide +kernel⟩
  · exact ⟨wSt (wT wB (.refill (.dom 0)) 128), 0, ⟨false, 0, 0, 3, 0, true, false, []⟩, _, ⟨rfl, rfl⟩,
        by decide +kernel, by decide +kernel, by decide +kernel, rfl, by decide +kernel, by decide +kernel,
        by decide +kernel, by decide +kernel⟩
  · exact ⟨wSt (wT wB (.refill (.dom 0)) 128), 0, ⟨false, 0, 0, 0, 128, true, false, [0]⟩, _, ⟨rfl, rfl⟩,
        by decide +kernel, by decide +kernel, by decide +kernel, rfl, by decide +kernel, by decide +kernel,
        by decide +kernel, by decide +kernel, by unfold TagRec.fits; decide +kernel⟩
  · exact ⟨wSt (wT wB (.refill (.dom 0)) 128), 0, ⟨false, 0, 0, 0, 0, true, false, [0]⟩, _, ⟨rfl, rfl⟩,
        by decide +kernel, by decide +kernel, by decide +kernel, rfl, by decide +kernel, by decide +kernel,
        by decide +kernel, by decide +kernel, by unfold TagRec.fits; decide +kernel, by decide +kernel,
        by decide +kernel, by intro m p q r; show Purpose.refill (.dom 0) ≠ _; simp⟩
  · exact ⟨wSt (wT wB (.refill (.dom 0)) 1), 0, ⟨false, 0, 0, 0, 0, true, false, [0]⟩, _, ⟨rfl, rfl⟩, by decide +kernel,
        by decide +kernel, by decide +kernel, rfl, by decide +kernel, by decide +kernel, by decide +kernel,
        by decide +kernel, by unfold TagRec.fits; decide +kernel, by decide +kernel, by decide +kernel,
        by decide +kernel⟩
  · exact ⟨wSt (wB.modPort 0 fun v => { v with tags := [(0, { wTag (.refill (.dom 0)) 128 with crcs := [(0, 0)] })] }),
        0, ⟨false, 0, 0, 0, 0, true, false, [0]⟩, _, ⟨rfl, rfl⟩, by decide +kernel, by decide +kernel,
        by decide +kernel, rfl, by decide +kernel, by decide +kernel, by decide +kernel, by decide +kernel,
        by unfold TagRec.fits; decide +kernel, by decide +kernel⟩
  · exact ⟨wSt (wT wB (.refill (.dom 0)) 0), 0, ⟨false, 0, 0, 0, 0, true, false, []⟩, 0, 0, ⟨rfl, rfl⟩,
        by decide +kernel, by decide +kernel, by decide +kernel, by decide +kernel, by decide +kernel,
        by decide +kernel, by decide +kernel, by decide +kernel⟩

theorem test_CreditsAndTokensReturn :
    (∃ (s : State) (port : Nat) (v : Port), s.Serves ∧ port < 8 ∧ v = s.core.port port ∧
          s.core.creditsLive port = true ∧ s.core.Calm ∧ v.hdrCr < 255 ∧ v.pres = [] ∧ v.txStarted = false)
    ∧ (∃ (s : State) (port : Nat) (v : Port), s.Serves ∧ port < 8 ∧ v = s.core.port port ∧
          s.core.creditsLive port = true ∧ s.core.Calm ∧ (255 ≤ v.hdrCr ∨ v.pres = [] ∧ v.txStarted = true))
    ∧ (∃ (s : State) (port : Nat) (v : Port), s.Serves ∧ port < 8 ∧ v = s.core.port port ∧
          s.core.creditsLive port = true ∧ s.core.Calm ∧ v.cplHdrCr < 255 ∧ (v.cplPres ≠ [] ∨ v.cplStarted = false))
    ∧ (∃ (s : State) (port : Nat) (v : Port), s.Serves ∧ port < 8 ∧ v = s.core.port port ∧
          s.core.creditsLive port = true ∧ s.core.Calm ∧ (255 ≤ v.cplHdrCr ∨ v.cplPres = [] ∧ v.cplStarted = true))
    ∧ (∃ (s : State) (port : Nat) (v : Port), s.Serves ∧ port < 8 ∧ v = s.core.port port ∧
          s.core.creditsLive port = true ∧ v.hdrCr < 255 ∧ v.pres ≠ [])
    ∧ (∃ (s : State) (port : Nat) (v : Port) (crd : Nat), s.Serves ∧ port < 8 ∧ v = s.core.port port ∧
          s.core.creditsLive port = true ∧ v.dataCr + crd ≤ 4095)
    ∧ (∃ (s : State) (port : Nat) (v : Port) (crd : Nat), s.Serves ∧ port < 8 ∧ v = s.core.port port ∧
          s.core.creditsLive port = true ∧ 4095 < v.dataCr + crd)
    ∧ (∃ (s : State) (port : Nat) (v : Port) (crd : Nat), s.Serves ∧ port < 8 ∧ v = s.core.port port ∧
          s.core.creditsLive port = true ∧ v.cplDataCr + crd ≤ 4095)
    ∧ (∃ (s : State) (port : Nat) (v : Port) (crd : Nat), s.Serves ∧ port < 8 ∧ v = s.core.port port ∧
          s.core.creditsLive port = true ∧ 4095 < v.cplDataCr + crd)
    ∧ (∃ (s : State) (port : Nat) (v : Port) (tok : Nat), s.Serves ∧ port < 8 ∧ v = s.core.port port ∧
          s.core.portPowered port = true ∧ tok < 4096 ∧ (List.find? (fun t => t.tok == tok) v.toks = none))
    ∧ (∃ (s : State) (port : Nat) (v : Port) (tok : Nat) (r : TokRec), s.Serves ∧ port < 8 ∧ v = s.core.port port ∧
          s.core.portPowered port = true ∧ tok < 4096 ∧ (List.find? (fun t => t.tok == tok) v.toks = some r) ∧
          r.accepted = false)
    ∧ (∃ (s : State) (port : Nat) (v : Port) (tok : Nat) (r : TokRec), s.Serves ∧ port < 8 ∧ v = s.core.port port ∧
          s.core.portPowered port = true ∧ tok < 4096 ∧ (List.find? (fun t => t.tok == tok) v.toks = some r) ∧
          r.accepted = true ∧ s.core.Calm ∧ (∀ (q : QRef) (t : Nat), r.pkt.purpose ≠ Purpose.word q t))
    ∧ (∃ (s : State) (port : Nat) (v : Port) (tok : Nat) (r : TokRec), s.Serves ∧ port < 8 ∧ v = s.core.port port ∧
          tok < 4096 ∧ (List.find? (fun t => t.tok == tok && t.accepted) v.toks = some r)) := by
  refine ⟨?_, ?_, ?_, ?_, ?_, ?_, ?_, ?_, ?_, ?_, ?_, ?_, ?_⟩
  · exact ⟨wSt { wB with ports := [(7, { up := true, hdrCr := 254 })] }, 7, _, ⟨rfl, rfl⟩, by decide +kernel, rfl,
        by decide +kernel, ⟨rfl, by decide +kernel⟩, by decide +kernel, by decide +kernel, by decide +kernel⟩
  · exact ⟨wSt { wB with ports := [(7, { up := true, hdrCr := 255 })] }, 7, _, ⟨rfl, rfl⟩, by decide +kernel, rfl,
        by decide +kernel, ⟨rfl, by decide +kernel⟩, by decide +kernel⟩
  · exact ⟨wSt { wB with ports := [(7, { up := true, cplHdrCr := 254 })] }, 7, _, ⟨rfl, rfl⟩, by decide +kernel, rfl,
        by decide +kernel, ⟨rfl, by decide +kernel⟩, by decide +kernel, by decide +kernel⟩
  · exact ⟨wSt { wB with ports := [(7, { up := true, cplHdrCr := 255 })] }, 7, _, ⟨rfl, rfl⟩, by decide +kernel, rfl,
        by decide +kernel, ⟨rfl, by decide +kernel⟩, by decide +kernel⟩
  · exact ⟨wSt { wB with ports := [(7, { up := true, hdrCr := 254, pres := [wPkt true] })] }, 7, _, ⟨rfl, rfl⟩,
        by decide +kernel, rfl, by decide +kernel, by decide +kernel, by decide +kernel⟩
  · exact ⟨wSt { wB with ports := [(7, { up := true, dataCr := 4094 })] }, 7, _, 1, ⟨rfl, rfl⟩, by decide +kernel, rfl,
        by decide +kernel, by decide +kernel⟩
  · exact ⟨wSt { wB with ports := [(7, { up := true, dataCr := 4095 })] }, 7, _, 1, ⟨rfl, rfl⟩, by decide +kernel, rfl,
        by decide +kernel, by decide +kernel⟩
  · exact ⟨wSt { wB with ports := [(7, { up := true, cplDataCr := 4094 })] }, 7, _, 1, ⟨rfl, rfl⟩, by decide +kernel,
        rfl, by decide +kernel, by decide +kernel⟩
  · exact ⟨wSt { wB with ports := [(7, { up := true, cplDataCr := 4095 })] }, 7, _, 1, ⟨rfl, rfl⟩, by decide +kernel,
        rfl, by decide +kernel, by decide +kernel⟩
  · exact ⟨wSt wB, 7, _, 4095, ⟨rfl, rfl⟩, by decide +kernel, rfl, by decide +kernel, by decide +kernel,
        by decide +kernel⟩
  · exact ⟨wSt { wB with ports := [(7, { up := true, toks := [⟨4095, wPkt true, false, none⟩] })] }, 7, _, 4095, _,
        ⟨rfl, rfl⟩, by decide +kernel, rfl, by decide +kernel, by decide +kernel, rfl, by decide +kernel⟩
  · exact ⟨wSt { wB with ports := [(7, { up := true, toks := [⟨4095, wPkt true, true, none⟩] })] }, 7, _, 4095, _, ⟨rfl,
        rfl⟩, by decide +kernel, rfl, by decide +kernel, by decide +kernel, rfl, by decide +kernel, ⟨rfl,
        by decide +kernel⟩, nofun⟩
  · exact ⟨wSt { wB with ports := [(7, { up := true, toks := [⟨4095, wPkt true, true, none⟩] })] }, 7, _, 4095, _, ⟨rfl,
        rfl⟩, by decide +kernel, rfl, by decide +kernel, rfl⟩

theorem test_PhaseUnitsFollowTheTables :
    (∃ (s : State) (u : Nat) (x : PhaseUnit) (held : Nat) (pin : PinSample) (v : Nat), s.Serves ∧ u < 16 ∧
          s.core.on 1 = true ∧ s.core.Alone u ∧ x = s.core.pu u ∧ s.core.puSource u = 1 ∧ x.state = PuState.locked ∧
          s.core.puStable u < held ∧ pinStable pin (s.core.puStable u) = true ∧ s.core.puActive u pin = true ∧
          (x.inRef < 2 ∨ s.core.clock.refLost = true) ∧ v ≠ u)
    ∧ (∃ (s : State) (u : Nat) (x : PhaseUnit) (held : Nat) (pin : PinSample), s.Serves ∧ u < 16 ∧ s.core.on 1 = true ∧
          s.core.Alone u ∧ x = s.core.pu u ∧ s.core.puSource u = 1 ∧ x.state = PuState.locked ∧
          s.core.puStable u < held ∧ pinStable pin (s.core.puStable u) = true ∧ s.core.puActive u pin = true ∧
          x.quadInCycle + 1 ≤ s.core.regF (puA u 1) 15 12)
    ∧ (∃ (s : State) (u : Nat) (x : PhaseUnit) (held : Nat) (pin : PinSample), s.Serves ∧ u < 16 ∧ s.core.on 1 = true ∧
          s.core.Alone u ∧ x = s.core.pu u ∧ s.core.puSource u = 1 ∧ x.state = PuState.locked ∧
          s.core.puStable u < held ∧ pinStable pin (s.core.puStable u) = true ∧ s.core.puActive u pin = true ∧
          s.core.puZ u = true ∧ x.firstIndex = false ∧
          s.core.regF (puA u 6) 15 0 < (x.ph.nearest (s.core.puModulus u)).snd.natAbs)
    ∧ (∃ (s : State) (u : Nat) (x : PhaseUnit) (held : Nat) (pin : PinSample) (v : Nat), s.Serves ∧ u < 16 ∧
          s.core.on 1 = true ∧ s.core.Alone u ∧ x = s.core.pu u ∧ s.core.puSource u = 1 ∧ x.state = PuState.locked ∧
          s.core.puStable u < held ∧ pinStable pin (s.core.puStable u) = true ∧ s.core.puActive u pin = true ∧
          s.core.puZ u = true ∧
          (x.firstIndex = true ∨ (x.ph.nearest (s.core.puModulus u)).snd.natAbs ≤ s.core.regF (puA u 6) 15 0) ∧ v ≠ u)
    ∧ (∃ (s : State) (u : Nat) (x : PhaseUnit) (pin : PinSample), s.Serves ∧ u < 16 ∧ s.core.on 1 = true ∧
          s.core.Alone u ∧ x = s.core.pu u ∧ (s.core.puSource u = 2 ∨ s.core.puSource u = 3) ∧
          x.state = PuState.locked ∧ pinStable pin (s.core.puStable u) = true ∧ s.core.puActive u pin = true ∧
          s.core.puEarly u = true)
    ∧ (∃ (s : State) (u : Nat) (x : PhaseUnit) (pin : PinSample) (v : Nat), s.Serves ∧ u < 16 ∧ s.core.on 1 = true ∧
          s.core.Alone u ∧ x = s.core.pu u ∧ (s.core.puSource u = 2 ∨ s.core.puSource u = 3) ∧
          x.state = PuState.locked ∧ pinStable pin (s.core.puStable u) = true ∧ s.core.puActive u pin = true ∧
          s.core.puEarly u = false ∧ x.firstPulse = false ∧ v ≠ u)
    ∧ (∃ (s : State) (u : Nat) (held : Nat), s.Serves ∧ u < 16 ∧ s.core.on 1 = true ∧ s.core.Alone u ∧
          held ≤ s.core.puStable u)
    ∧ (∃ (s : State) (u : Nat) (pin : PinSample), s.Serves ∧ u < 16 ∧ s.core.on 1 = true ∧ s.core.Alone u ∧
          (pinStable pin (s.core.puStable u) = false ∨ s.core.puActive u pin = false))
    ∧ (∃ (s : State) (u : Nat) (x : PhaseUnit), s.Serves ∧ u < 16 ∧ s.core.on 1 = true ∧ s.core.Alone u ∧
          x = s.core.pu u ∧ x.state = PuState.locked ∧ s.core.reg (puA u 4) ≠ 0 ∧ s.core.clock.refLost = false)
    ∧ (∃ (s : State) (u : Nat) (x : PhaseUnit), s.Serves ∧ u < 16 ∧ s.core.on 1 = true ∧ s.core.Alone u ∧
          x = s.core.pu u ∧ x.state = PuState.coast ∧ s.core.clock.refLost = false)
    ∧ (∃ (s : State) (u : Nat) (x : PhaseUnit), s.Serves ∧ u < 16 ∧ s.core.on 1 = true ∧ s.core.Alone u ∧
          x = s.core.pu u ∧ x.ticked = true)
    ∧ (∃ (s : State) (u : Nat) (t : Nat), s.Serves ∧ u < 16 ∧ s.core.on 1 = true ∧ s.core.Alone u ∧ t < 2 ^ 64 ∧
          (∀ (v : Nat), v < 16 → s.core.puSource v ≠ 4 ∨ (s.core.pu v).state = PuState.off)) := by
  refine ⟨?_, ?_, ?_, ?_, ?_, ?_, ?_, ?_, ?_, ?_, ?_, ?_⟩
  · exact ⟨wSt { wB with pus := [(15, { state := .locked, inRef := 1 })], regs := [(puA 15 0, 1)] }, 15, _, 16,
        wPin true, 0, ⟨rfl, rfl⟩, by decide +kernel, by decide +kernel, ⟨by decide +kernel, by decide +kernel⟩, rfl,
        by decide +kernel, by decide +kernel, by decide +kernel, by decide +kernel, by decide +kernel,
        by decide +kernel, by decide +kernel⟩
  · exact ⟨wSt { wB with pus := [(15, { state := .locked })], regs := [(puA 15 0, 1), (puA 15 1, 0x1000)] }, 15, _, 16,
        wPin true, ⟨rfl, rfl⟩, by decide +kernel, by decide +kernel, ⟨by decide +kernel, by decide +kernel⟩, rfl,
        by decide +kernel, by decide +kernel, by decide +kernel, by decide +kernel, by decide +kernel,
        by decide +kernel⟩
  · exact ⟨wSt { wB with pus := [(15, { state := .locked, ph := ⟨0, 500, 0⟩, firstIndex := false })], regs := [(puA 15 0, 1), (puA 15 1, 0x10), (puA 15 2, 1000)] },
        15, _, 16, wPin true, ⟨rfl, rfl⟩, by decide +kernel, by decide +kernel, ⟨by decide +kernel, by decide +kernel⟩,
        rfl, by decide +kernel, by decide +kernel, by decide +kernel, by decide +kernel, by decide +kernel,
        by decide +kernel, by decide +kernel, by decide +kernel⟩
  · exact ⟨wSt { wB with pus := [(15, { state := .locked })], regs := [(puA 15 0, 1), (puA 15 1, 0x10)] }, 15, _, 16,
        wPin true, 0, ⟨rfl, rfl⟩, by decide +kernel, by decide +kernel, ⟨by decide +kernel, by decide +kernel⟩, rfl,
        by decide +kernel, by decide +kernel, by decide +kernel, by decide +kernel, by decide +kernel,
        by decide +kernel, by decide +kernel, by decide +kernel⟩
  · exact ⟨wSt { wB with pus := [(15, { state := .locked, stamps := [1000, 0], inc := 1 })], regs := [(puA 15 0, 2), (puA 15 1, 0)], clock := { cycle := 1001 } },
        15, _, wPin true, ⟨rfl, rfl⟩, by decide +kernel, by decide +kernel, ⟨by decide +kernel, by decide +kernel⟩, rfl,
        by decide +kernel, by decide +kernel, by decide +kernel, by decide +kernel, by decide +kernel⟩
  · exact ⟨wSt { wB with pus := [(15, { state := .locked })], regs := [(puA 15 0, 3)], clock := { cycle := 100000000 } },
        15, _, wPin true, 0, ⟨rfl, rfl⟩, by decide +kernel, by decide +kernel, ⟨by decide +kernel, by decide +kernel⟩,
        rfl, by decide +kernel, by decide +kernel, by decide +kernel, by decide +kernel, by decide +kernel,
        by decide +kernel, by decide +kernel⟩
  · exact ⟨wSt { wB with pus := [(15, { state := .locked })], regs := [(puA 15 0, 0), (puA 15 1, 0xF)] }, 15, 15, ⟨rfl,
        rfl⟩, by decide +kernel, by decide +kernel, ⟨by decide +kernel, by decide +kernel⟩, by decide +kernel⟩
  · exact ⟨wSt { wB with pus := [(15, { state := .locked })], regs := [(puA 15 0, 0)] }, 15, wPin false, ⟨rfl, rfl⟩,
        by decide +kernel, by decide +kernel, ⟨by decide +kernel, by decide +kernel⟩, by decide +kernel⟩
  · exact ⟨wSt { wB with pus := [(15, { state := .locked })], regs := [(puA 15 0, 0), (puA 15 4, 1)] }, 15, _, ⟨rfl,
        rfl⟩, by decide +kernel, by decide +kernel, ⟨by decide +kernel, by decide +kernel⟩, rfl, by decide +kernel,
        by decide +kernel, by decide +kernel⟩
  · exact ⟨wSt { wB with pus := [(15, { state := .coast })], regs := [(puA 15 0, 0)] }, 15, _, ⟨rfl, rfl⟩,
        by decide +kernel, by decide +kernel, ⟨by decide +kernel, by decide +kernel⟩, rfl, by decide +kernel,
        by decide +kernel⟩
  · exact ⟨wSt { wB with pus := [(15, { ticked := true })], regs := [(puA 15 0, 0)] }, 15, _, ⟨rfl, rfl⟩,
        by decide +kernel, by decide +kernel, ⟨by decide +kernel, by decide +kernel⟩, rfl, by decide +kernel⟩
  · exact ⟨wSt wB, 15, 0xFFFFFFFFFFFFFFFF, ⟨rfl, rfl⟩, by decide +kernel, by decide +kernel, ⟨by decide +kernel,
        by decide +kernel⟩, by decide +kernel, by decide +kernel⟩

theorem test_WindowedEntriesLaunch :
    (∃ (s : State) (m : Nat) (k : Nat) (e : Exec) (w : Window) (q : QRef) (p : Nat) (pk : Pkt), s.Serves ∧ m < 18 ∧
          k < 64 ∧ s.core.armedEntry m k = some (e, w, q) ∧ s.core.execAt m k e.pos = some e ∧ s.core.WindowIsOpen w ∧
          s.core.overlapOk q e.pos w = true ∧ e.aligned = false ∧ ¬e.desc.kind ∈ [kWait, kFence, kFill] ∧
          e.gate = some (p, some pk) ∧ e.due = none)
    ∧ (∃ (s : State) (m : Nat) (k : Nat) (e : Exec) (w : Window) (q : QRef), s.Serves ∧ m < 18 ∧ k < 64 ∧
          s.core.armedEntry m k = some (e, w, q) ∧ s.core.execAt m k e.pos = some e ∧ s.core.WindowIsOpen w ∧
          s.core.overlapOk q e.pos w = true ∧ e.aligned = false ∧ e.desc.kind = kNop ∧ e.gate = none ∧ e.due = none ∧
          s.core.firstReq m q e = none)
    ∧ (∃ (s : State) (m : Nat) (k : Nat) (e : Exec) (w : Window) (q : QRef), s.Serves ∧ m < 18 ∧ k < 64 ∧
          s.core.armedEntry m k = some (e, w, q) ∧ s.core.windowNow w = false)
    ∧ (∃ (s : State) (m : Nat) (k : Nat) (l : LEntry) (w : Window) (q : QRef) (n : Nat) (e : Exec), s.Serves ∧ m < 18 ∧
          k < 64 ∧ s.core.armedEntry m k = none ∧ s.core.windowHead m k = some (l, w, q) ∧
          s.core.cyclesToOpen w = some n ∧ n ≤ 64 ∧ s.core.puOpen w.unit = true ∧ l.desc.kind ≠ kSnap ∧
          l.desc.kind ≠ kAscat ∧ atOrPast (s.core.pu w.unit).ph w.closeAt = false ∧ s.core.overlapOk q l.pos w = true ∧
          (s.core.startEntry m k l true).execAt m k l.pos = some e ∧ e.dead = false ∧ e.fenceWait = false)
    ∧ (∃ (s : State) (m : Nat) (k : Nat) (x : Binding) (e : Exec), s.Serves ∧ m < 18 ∧ k < 64 ∧
          s.core.binding m k = some x ∧ x.shadow = false ∧ x.toArm = some e)
    ∧ (∃ (s : State) (m : Nat) (k : Nat) (x : Binding) (l : LEntry) (w : Window) (q : QRef), s.Serves ∧ m < 18 ∧
          k < 64 ∧ s.core.binding m k = some x ∧ x.exec = [] ∧ s.core.windowHead m k = some (l, w, q) ∧
          s.core.puOpen w.unit = true ∧ atOrPast (s.core.pu w.unit).ph w.closeAt = true ∧ w.late = 0 ∧
          (s.core.regF (puA w.unit 7) 15 8 = 0 ∨ w.holds < s.core.regF (puA w.unit 7) 15 8))
    ∧ (∃ (s : State) (m : Nat) (k : Nat) (e : Exec) (w : Window) (q : QRef), s.Serves ∧ m < 18 ∧ k < 64 ∧
          s.core.waitingEntry m k = some (e, w, q) ∧ (s.core.pu w.unit).state = PuState.lost ∧
          s.core.regF (puA w.unit 9) 15 0 ≠ 0) := by
  refine ⟨?_, ?_, ?_, ?_, ?_, ?_, ?_⟩
  · exact ⟨wSt { wM (wQ .bound) (wBind [] [{ wExec kCopy .armed with win := some wWin, gate := some (7, some (wPkt false)) }]) with pus := [(0, { state := .locked })] },
        0, 0, _, _, _, _, _, ⟨rfl, rfl⟩, by decide +kernel, by decide +kernel, rfl, rfl, ⟨by decide +kernel,
        by decide +kernel, by decide +kernel⟩, by decide +kernel, by decide +kernel, by decide +kernel, rfl,
        by decide +kernel⟩
  · exact ⟨wSt { wM (wQ .bound) (wBind [] [{ wExec kNop .armed with win := some wWin, gate := none }]) with pus := [(0, { state := .locked })] },
        0, 0, _, _, _, ⟨rfl, rfl⟩, by decide +kernel, by decide +kernel, rfl, rfl, ⟨by decide +kernel,
        by decide +kernel, by decide +kernel⟩, by decide +kernel, by decide +kernel, by decide +kernel,
        by decide +kernel, by decide +kernel, by decide +kernel⟩
  · exact ⟨wSt { wM (wQ .bound) (wBind [] [{ wExec kNop .armed with win := some wWin, gate := none }]) with pus := [] },
        0, 0, _, _, _, ⟨rfl, rfl⟩, by decide +kernel, by decide +kernel, rfl, by decide +kernel⟩
  · exact ⟨wSt { wM (wQ .bound) (wBind [wLE kNop (some wWin)] []) with pus := [(0, { state := .locked })] }, 0, 0,
        wLE kNop (some wWin), wWin, .dom 0, 0,
        (((wSt { wM (wQ .bound) (wBind [wLE kNop (some wWin)] []) with pus := [(0, { state := .locked })] }).core.startEntry 0 0 (wLE kNop (some wWin)) true).execAt 0 0 0).get (by decide +kernel),
        ⟨rfl, rfl⟩, by decide +kernel, by decide +kernel, by decide +kernel, by decide +kernel, by decide +kernel,
        by decide +kernel, by decide +kernel, by decide +kernel, by decide +kernel, by decide +kernel,
        by decide +kernel, (Option.some_get _).symm, by decide +kernel, by decide +kernel⟩
  · exact ⟨wSt (wM (wQ .bound) (wBind [] [{ wExec kSnap .waiting with plan := some ⟨0, 0, [⟨0, 4, true, 0, 7, 0, 0, 0, 0, false, 0, some (7, wPkt false), none, none, [], false⟩], false, 0, none, 0, 0⟩ }])),
        0, 0, _, _, ⟨rfl, rfl⟩, by decide +kernel, by decide +kernel, rfl, by decide +kernel, rfl⟩
  · exact ⟨wSt { wM (wQ .bound) (wBind [wLE kNop (some wWin)] []) with pus := [(0, { state := .locked, ph := ⟨100, 0, 0⟩ })] },
        0, 0, _, _, _, _, ⟨rfl, rfl⟩, by decide +kernel, by decide +kernel, rfl, by decide +kernel, rfl,
        by decide +kernel, by decide +kernel, by decide +kernel, by decide +kernel⟩
  · exact ⟨wSt { wM (wQ .bound) (wBind [] [{ wExec kNop .armed with win := some wWin, gate := none }]) with pus := [(0, { state := .lost })], regs := [(puA 0 9, 1)] },
        0, 0, _, _, _, ⟨rfl, rfl⟩, by decide +kernel, by decide +kernel, rfl, by decide +kernel, by decide +kernel⟩

theorem test_LatencyRecordsAndAging :
    (∃ (s : State) (i : Nat) (t : Target), s.Serves ∧ i < 1024 ∧ s.core.img.targets[i]? = some t ∧
          (s.core.lat i).tracked = true ∧ s.core.on 1 = true ∧ s.core.pollMay = true)
    ∧ (∃ (s : State) (i : Nat) (t : Target), s.Serves ∧ i < 1024 ∧ s.core.img.targets[i]? = some t ∧
          (s.core.lat i).tracked = true ∧ s.core.on 1 = true ∧ s.core.pollMay = false)
    ∧ (∃ (s : State) (i : Nat), s.Serves ∧ i < 1024 ∧ s.core.inPlan i = false)
    ∧ (∃ (s : State) (i : Nat) (p : MPort), s.Serves ∧ i < 1024 ∧ s.core.Open p 0x15018)
    ∧ (∃ (s : State) (i : Nat) (q : QRef) (t : Nat) (m : Nat) (k : Nat) (x : Binding), s.Serves ∧ i < 1024 ∧
          q.wf = true ∧ s.core.svcOf q = Svc.background ∧ s.core.tenUs ≤ s.core.clock.cycle ∧
          t = s.core.clock.cycle - s.core.tenUs ∧ s.core.boundAt q = some (m, k) ∧ s.core.binding m k = some x ∧
          x.served ≤ t)
    ∧ (∃ (s : State) (i : Nat) (q : QRef) (t : Nat) (m : Nat) (k : Nat) (x : Binding), s.Serves ∧ i < 1024 ∧
          q.wf = true ∧ s.core.svcOf q = Svc.background ∧ s.core.tenUs ≤ s.core.clock.cycle ∧
          t = s.core.clock.cycle - s.core.tenUs ∧ s.core.boundAt q = some (m, k) ∧ s.core.binding m k = some x ∧
          t < x.served)
    ∧ (∃ (s : State) (i : Nat) (q : QRef), s.Serves ∧ i < 1024 ∧ q.wf = true ∧ s.core.svcOf q = Svc.background ∧
          s.core.tenUs ≤ s.core.clock.cycle ∧ s.core.boundAt q = none) := by
  refine ⟨?_, ?_, ?_, ?_, ?_, ?_, ?_⟩
  · exact ⟨wSt { wB with image := some { wImg with targets := List.replicate 1024 ⟨0, 1, 0, false, 0, false, 0⟩ }, lats := [(1023, { tracked := true })] },
        1023, ⟨0, 1, 0, false, 0, false, 0⟩, ⟨rfl, rfl⟩, by decide +kernel, by decide +kernel, by decide +kernel,
        by decide +kernel, by decide +kernel⟩
  · exact ⟨wSt { wB with image := some { wImg with targets := List.replicate 1024 ⟨0, 1, 0, false, 0, false, 0⟩ }, lats := [(1023, { tracked := true })], sched := { pollUsed := 1000000 } },
        1023, ⟨0, 1, 0, false, 0, false, 0⟩, ⟨rfl, rfl⟩, by decide +kernel, by decide +kernel, by decide +kernel,
        by decide +kernel, by decide +kernel⟩
  · exact ⟨wSt wB, 1023, ⟨rfl, rfl⟩, by decide +kernel, by decide +kernel⟩
  · exact ⟨wSt wB, 1023, .mpa, ⟨rfl, rfl⟩, by decide +kernel, wOpen (by decide +kernel)⟩
  · exact ⟨wSt { wM { cfg := { sclass := 3 }, run := { phase := .bound } } (wBind [] []) with clock := { cycle := 10000 } },
        0, .dom 0, _, _, _, _, ⟨rfl, rfl⟩, by decide +kernel, by decide +kernel, by decide +kernel, by decide +kernel,
        rfl, rfl, rfl, by decide +kernel⟩
  · exact ⟨wSt { wM { cfg := { sclass := 3 }, run := { phase := .bound } } { wBind [] [] with served := 1 } with clock := { cycle := 10000 } },
        0, .dom 0, _, _, _, _, ⟨rfl, rfl⟩, by decide +kernel, by decide +kernel, by decide +kernel, by decide +kernel,
        rfl, rfl, rfl, by decide +kernel⟩
  · exact ⟨wSt { wQB { cfg := { sclass := 3 }, run := { phase := .idle } } with clock := { cycle := 10000 } }, 0,
        .dom 0, ⟨rfl, rfl⟩, by decide +kernel, by decide +kernel, by decide +kernel, by decide +kernel,
        by decide +kernel⟩

theorem test_RequestLinesFollowTheTable :
    (∃ (s : State) (n : Nat) (x : Line) (pin : PinSample), s.Serves ∧ n < 64 ∧ s.core.on 1 = true ∧ x = s.core.line n ∧
          pinStable pin (s.core.rlStable n) = true ∧ s.core.rlLevel n pin = true ∧ x.input = false ∧
          s.core.rlMode n = 1 ∧ x.state = LineState.idle ∧ s.core.gapMet n)
    ∧ (∃ (s : State) (n : Nat) (x : Line) (pin : PinSample), s.Serves ∧ n < 64 ∧ s.core.on 1 = true ∧
          x = s.core.line n ∧ pinStable pin (s.core.rlStable n) = true ∧ s.core.rlLevel n pin = true ∧ x.input = false ∧
          (s.core.rlMode n = 2 ∨ s.core.rlMode n = 3) ∧ s.core.gapMet n ∧ x.state = LineState.idle)
    ∧ (∃ (s : State) (n : Nat) (x : Line) (pin : PinSample), s.Serves ∧ n < 64 ∧ s.core.on 1 = true ∧
          x = s.core.line n ∧ pinStable pin (s.core.rlStable n) = true ∧ s.core.rlLevel n pin = true ∧ x.input = false ∧
          (s.core.rlMode n = 2 ∨ s.core.rlMode n = 3) ∧ s.core.gapMet n ∧ x.state = LineState.pending ∧
          (s.core.rlMode n = 2 ∨ 255 ≤ x.pend))
    ∧ (∃ (s : State) (n : Nat) (x : Line) (pin : PinSample), s.Serves ∧ n < 64 ∧ s.core.on 1 = true ∧
          x = s.core.line n ∧ pinStable pin (s.core.rlStable n) = true ∧ s.core.rlLevel n pin = true ∧ x.input = false ∧
          (s.core.rlMode n = 2 ∨ s.core.rlMode n = 3) ∧ s.core.gapMet n ∧ x.state = LineState.pending ∧
          s.core.rlMode n = 3 ∧ x.pend < 255)
    ∧ (∃ (s : State) (n : Nat) (x : Line) (pin : PinSample), s.Serves ∧ n < 64 ∧ s.core.on 1 = true ∧
          x = s.core.line n ∧ pinStable pin (s.core.rlStable n) = true ∧ s.core.rlLevel n pin = true ∧ x.input = false ∧
          (s.core.rlMode n = 2 ∨ s.core.rlMode n = 3) ∧ (x.state = LineState.idle ∨ x.state = LineState.pending) ∧
          ¬s.core.gapMet n ∧ bits (s.core.rlCfg n) 23 20 = 0)
    ∧ (∃ (s : State) (n : Nat) (pin : PinSample), s.Serves ∧ n < 64 ∧ s.core.on 1 = true ∧
          pinStable pin (s.core.rlStable n) = false)
    ∧ (∃ (s : State) (n : Nat) (x : Line) (pin : PinSample), s.Serves ∧ n < 64 ∧ s.core.on 1 = true ∧
          x = s.core.line n ∧ pinStable pin (s.core.rlStable n) = true ∧ s.core.rlLevel n pin = false ∧
          s.core.rlMode n = 1 ∧ x.state = LineState.pending ∧ x.bySw = false)
    ∧ (∃ (s : State) (n : Nat) (x : Line) (pin : PinSample), s.Serves ∧ n < 64 ∧ s.core.on 1 = true ∧
          x = s.core.line n ∧ pinStable pin (s.core.rlStable n) = true ∧ s.core.rlLevel n pin = false ∧
          s.core.rlMode n = 1 ∧ x.state = LineState.acked)
    ∧ (∃ (s : State) (n : Nat) (pin : PinSample), s.Serves ∧ n < 64 ∧ s.core.on 1 = true ∧
          pinStable pin (s.core.rlStable n) = true ∧ s.core.rlLevel n pin = false ∧ s.core.rlMode n ≠ 1)
    ∧ (∃ (s : State) (n : Nat) (x : Line), s.Serves ∧ n < 64 ∧ s.core.on 1 = true ∧ x = s.core.line n ∧ x.input = true ∧
          s.core.clock.refLost = false ∧ s.core.regF 0xE300 15 0 ≠ 0 ∧ s.core.rlMode n = 1 ∧ x.state = LineState.acked)
    ∧ (∃ (s : State) (n : Nat) (x : Line), s.Serves ∧ n < 64 ∧ s.core.on 1 = true ∧ x = s.core.line n ∧ x.input = true ∧
          s.core.clock.refLost = false ∧ s.core.regF 0xE300 15 0 ≠ 0 ∧ s.core.rlMode n ≠ 1 ∧
          (x.state = LineState.idle ∨ x.state = LineState.pending))
    ∧ (∃ (s : State) (n : Nat) (x : Line) (p : MPort), s.Serves ∧ n < 64 ∧ s.core.on 1 = true ∧ x = s.core.line n ∧
          s.core.Open p 0xE304 ∧ x.state = LineState.fault ∧ x.input = false)
    ∧ (∃ (s : State) (n : Nat) (x : Line) (p : MPort), s.Serves ∧ n < 64 ∧ s.core.on 1 = true ∧ x = s.core.line n ∧
          s.core.Open p 0xE308 ∧ x.state = LineState.idle ∧ s.core.gapMet n)
    ∧ (∃ (s : State) (n : Nat) (p : MPort) (w : Word), s.Serves ∧ n < 64 ∧ s.core.on 1 = true ∧
          s.core.Open p (0xE000 + 4 * n) ∧ BitVec.toNat w % 4 ≠ s.core.rlMode n)
    ∧ (∃ (s : State) (n : Nat) (p : MPort) (w : Word), s.Serves ∧ n < 64 ∧ s.core.on 1 = true ∧
          s.core.Open p (0xE000 + 4 * n) ∧ BitVec.toNat w % 4 = s.core.rlMode n) := by
  refine ⟨?_, ?_, ?_, ?_, ?_, ?_, ?_, ?_, ?_, ?_, ?_, ?_, ?_, ?_, ?_⟩
  · exact ⟨wSt { wB with lines := [(63, { state := .idle })], regs := [(0x0E000 + 252, 1)] }, 63, _, wPin true, ⟨rfl,
        rfl⟩, by decide +kernel, by decide +kernel, rfl, by decide +kernel, by decide +kernel, by decide +kernel,
        by decide +kernel, by decide +kernel, by unfold Blk.gapMet; decide +kernel⟩
  · exact ⟨wSt { wB with lines := [(63, { state := .idle })], regs := [(0x0E000 + 252, 2)] }, 63, _, wPin true, ⟨rfl,
        rfl⟩, by decide +kernel, by decide +kernel, rfl, by decide +kernel, by decide +kernel, by decide +kernel,
        by decide +kernel, by unfold Blk.gapMet; decide +kernel, by decide +kernel⟩
  · exact ⟨wSt { wB with lines := [(63, { state := .pending, pend := 255 })], regs := [(0x0E000 + 252, 3)] }, 63, _,
        wPin true, ⟨rfl, rfl⟩, by decide +kernel, by decide +kernel, rfl, by decide +kernel, by decide +kernel,
        by decide +kernel, by decide +kernel, by unfold Blk.gapMet; decide +kernel, by decide +kernel,
        by decide +kernel⟩
  · exact ⟨wSt { wB with lines := [(63, { state := .pending, pend := 254 })], regs := [(0x0E000 + 252, 3)] }, 63, _,
        wPin true, ⟨rfl, rfl⟩, by decide +kernel, by decide +kernel, rfl, by decide +kernel, by decide +kernel,
        by decide +kernel, by decide +kernel, by unfold Blk.gapMet; decide +kernel, by decide +kernel,
        by decide +kernel, by decide +kernel⟩
  · exact ⟨wSt { wB with lines := [(63, { state := .pending, lastAt := some 0 })], regs := [(0x0E000 + 252, 0x01000003)] },
        63, _, wPin true, ⟨rfl, rfl⟩, by decide +kernel, by decide +kernel, rfl, by decide +kernel, by decide +kernel,
        by decide +kernel, by decide +kernel, by decide +kernel, by unfold Blk.gapMet; decide +kernel,
        by decide +kernel⟩
  · exact ⟨wSt { wB with lines := [(63, { state := .idle })], regs := [(0x0E000 + 252, 0xF001)] }, 63, ⟨true, 15⟩, ⟨rfl,
        rfl⟩, by decide +kernel, by decide +kernel, by decide +kernel⟩
  · exact ⟨wSt { wB with lines := [(63, { state := .pending })], regs := [(0x0E000 + 252, 1)] }, 63, _, wPin false,
        ⟨rfl, rfl⟩, by decide +kernel, by decide +kernel, rfl, by decide +kernel, by decide +kernel, by decide +kernel,
        by decide +kernel, by decide +kernel⟩
  · exact ⟨wSt { wB with lines := [(63, { state := .acked })], regs := [(0x0E000 + 252, 0xF005)] }, 63, _, ⟨true, 16⟩,
        ⟨rfl, rfl⟩, by decide +kernel, by decide +kernel, rfl, by decide +kernel, by decide +kernel, by decide +kernel,
        by decide +kernel⟩
  · exact ⟨wSt { wB with lines := [(63, { state := .idle })], regs := [(0x0E000 + 252, 3)] }, 63, wPin false, ⟨rfl,
        rfl⟩, by decide +kernel, by decide +kernel, by decide +kernel, by decide +kernel, by decide +kernel⟩
  · exact ⟨wSt { wB with lines := [(63, { state := .acked, input := true })], regs := [(0x0E000 + 252, 1), (0x0E300, 1)] },
        63, _, ⟨rfl, rfl⟩, by decide +kernel, by decide +kernel, rfl, by decide +kernel, by decide +kernel,
        by decide +kernel, by decide +kernel, by decide +kernel⟩
  · exact ⟨wSt { wB with lines := [(63, { state := .idle, input := true })], regs := [(0x0E000 + 252, 2), (0x0E300, 1)] },
        63, _, ⟨rfl, rfl⟩, by decide +kernel, by decide +kernel, rfl, by decide +kernel, by decide +kernel,
        by decide +kernel, by decide +kernel, by decide +kernel⟩
  · exact ⟨wSt { wB with lines := [(63, { state := .fault })], regs := [(0x0E000 + 252, 1)] }, 63, _, .mpa, ⟨rfl, rfl⟩,
        by decide +kernel, by decide +kernel, rfl, wOpen (by decide +kernel), by decide +kernel, by decide +kernel⟩
  · exact ⟨wSt { wB with lines := [(63, { state := .idle })], regs := [(0x0E000 + 252, 1)] }, 63, _, .mpa, ⟨rfl, rfl⟩,
        by decide +kernel, by decide +kernel, rfl, wOpen (by decide +kernel), by decide +kernel,
        by unfold Blk.gapMet; decide +kernel⟩
  · exact ⟨wSt { wB with lines := [(63, { state := .idle })], regs := [(0x0E000 + 252, 1)] }, 63, .mpa, 4#32, ⟨rfl,
        rfl⟩, by decide +kernel, by decide +kernel, wOpen (by decide +kernel), by decide +kernel⟩
  · exact ⟨wSt { wB with lines := [(63, { state := .idle })], regs := [(0x0E000 + 252, 3)] }, 63, .mpa, 0xFFFFFFFF#32,
        ⟨rfl, rfl⟩, by decide +kernel, by decide +kernel, wOpen (by decide +kernel), by decide +kernel⟩

theorem test_CapturesAreConsumed :
    (∃ (s : State) (v : Nat) (d : Nat) (value : Nat), s.Serves ∧ s.core.on 1 = true ∧ v < 4096 ∧ value < 2 ^ 32 ∧
          bits value 7 0 ≠ 0 ∧ bit (s.core.reg (0xE200 + 4 * (v / 64))) 9 = true ∧
          (bit (s.core.reg (0xE200 + 4 * (v / 64))) 8 = true ∨ s.core.regF (0xE200 + 4 * (v / 64)) 7 0 = d))
    ∧ (∃ (s : State) (v : Nat) (d : Nat) (size : Nat) (value : Nat), s.Serves ∧ s.core.on 1 = true ∧ v < 4096 ∧
          value < 2 ^ 32 ∧
          (size ≠ 4 ∨ bits value 7 0 = 0 ∨ bit (s.core.reg (0xE200 + 4 * (v / 64))) 9 = false ∨ bit (s.core.reg (0xE200 + 4 * (v / 64))) 8 = false ∧
          s.core.regF (0xE200 + 4 * (v / 64)) 7 0 ≠ d))
    ∧ (∃ (s : State) (p : MPort) (v : Nat) (n : Nat), s.Serves ∧ s.core.on 1 = true ∧ v < 4096 ∧ n < 256 ∧
          s.core.Open p 0xE30C)
    ∧ (∃ (s : State) (n : Nat) (w : Waiter) (x : Binding) (e : Exec), s.Serves ∧ s.core.on 1 = true ∧ n < 64 ∧
          (s.core.line n).state = LineState.pending ∧ (s.core.line n).usedAt ≠ some s.core.clock.cycle ∧
          s.core.taker (LineRef.wired n) = some w ∧ s.core.binding w.m w.b = some x ∧
          (List.find? (fun e => decide (e.desc.kind = kWait) && !e.dead && decide (e.stage = ExStage.waiting)) x.exec = some e))
    ∧ (∃ (s : State) (v : Nat) (w : Waiter) (x : Binding) (e : Exec), s.Serves ∧ s.core.on 1 = true ∧ v < 4096 ∧
          0 < (s.core.vline v).pend ∧ (s.core.vline v).usedAt ≠ some s.core.clock.cycle ∧
          s.core.taker (LineRef.virt v) = some w ∧ s.core.binding w.m w.b = some x ∧
          (List.find? (fun e => decide (e.desc.kind = kWait) && !e.dead && decide (e.stage = ExStage.waiting)) x.exec = some e))
    ∧ (∃ (s : State) (b : Blk) (n : Nat), s.Serves ∧ s.core.on 1 = true ∧ b.rlMode n = 1)
    ∧ (∃ (s : State) (b : Blk) (n : Nat), s.Serves ∧ s.core.on 1 = true ∧ b.rlMode n ≠ 1)
    ∧ (∃ (s : State) (n : Nat) (k : Nat), s.Serves ∧ s.core.on 1 = true ∧ k ≠ n)
    ∧ (∃ (s : State) (l : LineRef), s.Serves ∧ s.core.on 1 = true ∧ l.wf = true ∧ s.core.taker l = none) := by
  refine ⟨?_, ?_, ?_, ?_, ?_, ?_, ?_, ?_, ?_⟩
  · exact ⟨wSt { wB with regs := [(0x0E200 + 252, 0x201)] }, 4095, 1, 0xFF, ⟨rfl, rfl⟩, by decide +kernel,
        by decide +kernel, by decide +kernel, by decide +kernel, by decide +kernel, by decide +kernel⟩
  · exact ⟨wSt { wB with regs := [(0x0E200 + 252, 0x201)] }, 4095, 2, 4, 0xFF, ⟨rfl, rfl⟩, by decide +kernel,
        by decide +kernel, by decide +kernel, by decide +kernel⟩
  · exact ⟨wSt wB, .mpa, 4095, 255, ⟨rfl, rfl⟩, by decide +kernel, by decide +kernel, by decide +kernel,
        wOpen (by decide +kernel)⟩
  · exact ⟨wSt { wM (wQ .bound) (wBind [] [wExec kWait .waiting]) with lines := [(63, { state := .pending, given := some 0, usedAt := some 0 })], sched := { waiters := [⟨.wired 63, 0, 0, .dom 0, 0, 0⟩] }, clock := { cycle := 1 } },
        63, _, _, _, ⟨rfl, rfl⟩, by decide +kernel, by decide +kernel, by decide +kernel, by decide +kernel, rfl, rfl,
        rfl⟩
  · exact ⟨wSt { wM (wQ .bound) (wBind [] [wExec kWait .waiting]) with vlines := [(4095, { pend := 1, given := some 0, usedAt := some 0 })], sched := { waiters := [⟨.virt 4095, 0, 0, .dom 0, 0, 0⟩] }, clock := { cycle := 1 } },
        4095, _, _, _, ⟨rfl, rfl⟩, by decide +kernel, by decide +kernel, by decide +kernel, by decide +kernel, rfl, rfl,
        rfl⟩
  · exact ⟨wSt wB, { wB with regs := [(0x0E000 + 252, 1)] }, 63, ⟨rfl, rfl⟩, by decide +kernel, by decide +kernel⟩
  · exact ⟨wSt wB, { wB with regs := [(0x0E000 + 252, 3)] }, 63, ⟨rfl, rfl⟩, by decide +kernel, by decide +kernel⟩
  · exact ⟨wSt wB, 63, 0, ⟨rfl, rfl⟩, by decide +kernel, by decide +kernel⟩
  · exact ⟨wSt wB, .virt 4095, ⟨rfl, rfl⟩, by decide +kernel, by decide +kernel, by decide +kernel⟩

theorem test_AlignedTargetsLaunchAndEnd :
    (∃ (s : State) (m : Nat) (k : Nat) (i : Nat) (x : Binding) (e : Exec) (pl : Plan) (c : Nat) (t : PlanTarget) (p : Nat) (pk : Pkt),
          s.Serves ∧ m < 18 ∧ k < 64 ∧ i < 64 ∧ s.core.TargetWaits m k i x e pl c t p pk ∧ s.core.TargetGoes pl t p pk ∧
          pk.isWrite = false)
    ∧ (∃ (s : State) (m : Nat) (k : Nat) (i : Nat) (x : Binding) (e : Exec) (pl : Plan) (c : Nat) (t : PlanTarget) (p : Nat) (pk : Pkt),
          s.Serves ∧ m < 18 ∧ k < 64 ∧ i < 64 ∧ s.core.TargetWaits m k i x e pl c t p pk ∧ s.core.TargetGoes pl t p pk ∧
          pk.isWrite = true ∧ pk.poison = false ∧ s.core.writesAhead m k e.pos = false ∧ x.flushOut = 0 ∧
          s.core.pairsFull m k [(p, pk.path)] = false)
    ∧ (∃ (s : State) (m : Nat) (k : Nat) (i : Nat) (x : Binding) (e : Exec) (pl : Plan) (c : Nat) (t : PlanTarget) (p : Nat) (pk : Pkt) (n : Nat) (v : Option Nat),
          s.Serves ∧ m < 18 ∧ k < 64 ∧ i < 64 ∧ s.core.TargetWaits m k i x e pl c t p pk ∧
          s.core.slotVerdict t.addr = some (n, v) ∧ pk.isWrite = false)
    ∧ (∃ (s : State) (m : Nat) (k : Nat) (x : Binding) (e : Exec) (pl : Plan), s.Serves ∧ m < 18 ∧ k < 64 ∧
          s.core.binding m k = some x ∧ x.shadow = false ∧
          (List.find? (fun e => e.desc.kind == kSnap && e.launched && !e.dead && decide (e.stage = ExStage.running)) x.exec = some e) ∧
          e.plan = some pl ∧ (∀ (t : PlanTarget), t ∈ pl.targets → t.held = none)) := by
  refine ⟨?_, ?_, ?_, ?_⟩
  · exact ⟨wSt { wM (wQ .bound) (wBind [] [{ wExec kSnap .running with launched := true, plan := some ⟨0, 0, [⟨0, 4, true, 0, 7, 0, 0, 0, 0, false, 0, some (7, wPkt false), none, none, [], false⟩], true, 0, some 0, 0, 0⟩ }]) with ports := [(7, { up := true, hdrCr := 9, dataCr := 9 })] },
        0, 0, 0, _, _, _, _, _, _, _, ⟨rfl, rfl⟩, by decide +kernel, by decide +kernel, by decide +kernel, ⟨rfl, rfl,
        rfl, rfl, rfl, rfl, rfl, by decide +kernel, by decide +kernel, by decide +kernel⟩, ⟨by decide +kernel,
        by decide +kernel, by decide +kernel, by decide +kernel⟩, by decide +kernel⟩
  · exact ⟨wSt { wM (wQ .bound) (wBind [] [{ wExec kSnap .running with launched := true, plan := some ⟨0, 0, [⟨0, 4, true, 0, 7, 0, 0, 0, 0, false, 0, some (7, wPkt true), none, none, [], false⟩], true, 0, some 0, 0, 0⟩ }]) with ports := [(7, { up := true, hdrCr := 9, dataCr := 9 })] },
        0, 0, 0, _, _, _, _, _, _, _, ⟨rfl, rfl⟩, by decide +kernel, by decide +kernel, by decide +kernel, ⟨rfl, rfl,
        rfl, rfl, rfl, rfl, rfl, by decide +kernel, by decide +kernel, by decide +kernel⟩, ⟨by decide +kernel,
        by decide +kernel, by decide +kernel, by decide +kernel⟩, by decide +kernel, by decide +kernel,
        by decide +kernel, by decide +kernel, by decide +kernel⟩
  · exact ⟨wSt { wM (wQ .bound) (wBind [] [{ wExec kSnap .running with launched := true, plan := some ⟨0, 0, [⟨0, 4, true, 0, 7, 0, 0, 0, 0, false, 0, some (7, wPkt false), none, none, [], false⟩], true, 0, some 0, 0, 0⟩ }]) with ports := [(7, { up := true, hdrCr := 9, dataCr := 9 })], image := some { wImg with targets := [⟨0, 256, 5, true, 7, false, 0⟩] }, slots := [(5, { state := .held })] },
        0, 0, 0, _, _, _, _, _, _, _, _, _, ⟨rfl, rfl⟩, by decide +kernel, by decide +kernel, by decide +kernel, ⟨rfl,
        rfl, rfl, rfl, rfl, rfl, rfl, by decide +kernel, by decide +kernel, by decide +kernel⟩, rfl, by decide +kernel⟩
  · exact ⟨wSt { wM (wQ .bound) (wBind [] [{ wExec kSnap .running with launched := true, plan := some ⟨0, 0, [], true, 0, some 0, 0, 0⟩ }]) with ports := [(7, { up := true, hdrCr := 9, dataCr := 9 })] },
        0, 0, _, _, _, ⟨rfl, rfl⟩, by decide +kernel, by decide +kernel, rfl, by decide +kernel, rfl, rfl,
        by decide +kernel⟩

theorem test_FifosOpenAndClose :
    (∃ (s : State) (f : Nat) (x : Fifo) (p : MPort) (w : Word) (free : List Nat), s.Serves ∧ f < 32 ∧
          x = s.core.fifo f ∧ s.core.Open p (0xF000 + 32 * f) ∧ bit (s.core.sfCfg f) 31 = false ∧
          bit (BitVec.toNat w) 3 = false ∧ bit (BitVec.toNat w) 7 = false ∧
          (free = List.filter (fun e => !(List.flatMap (fun x => match x with | (fst, x) => x.extents) s.core.fifos).contains e && !s.core.pool.mapped.contains e) (List.range 2048)) ∧ s.core.pool.off = false ∧ 8 ≤ s.core.regF (sfA f 1) 11 0 ∧ s.core.regF (sfA f 1) 11 0 ≤ 2048 ∧ x.state = FifoState.off ∧ s.core.regF (sfA f 1) 11 0 ≤ free.length)
    ∧ (∃ (s : State) (f : Nat) (x : Fifo) (p : MPort) (w : Word), s.Serves ∧ f < 32 ∧ x = s.core.fifo f ∧
          s.core.Open p (0xF000 + 32 * f) ∧ bit (s.core.sfCfg f) 31 = false ∧ bit (BitVec.toNat w) 3 = false ∧
          bit (BitVec.toNat w) 7 = false ∧ s.core.pool.off = false ∧ 8 ≤ s.core.regF (sfA f 1) 11 0 ∧
          s.core.regF (sfA f 1) 11 0 ≤ 2048 ∧ x.state ≠ FifoState.off)
    ∧ (∃ (s : State) (f : Nat) (x : Fifo) (p : MPort) (w : Word) (free : List Nat), s.Serves ∧ f < 32 ∧
          x = s.core.fifo f ∧ s.core.Open p (0xF000 + 32 * f) ∧ bit (s.core.sfCfg f) 31 = false ∧
          bit (BitVec.toNat w) 3 = false ∧ bit (BitVec.toNat w) 7 = false ∧
          (free = List.filter (fun e => !(List.flatMap (fun x => match x with | (fst, x) => x.extents) s.core.fifos).contains e && !s.core.pool.mapped.contains e) (List.range 2048)) ∧ s.core.pool.off = false ∧ 8 ≤ s.core.regF (sfA f 1) 11 0 ∧ s.core.regF (sfA f 1) 11 0 ≤ 2048 ∧ x.state = FifoState.off ∧ free.length < s.core.regF (sfA f 1) 11 0)
    ∧ (∃ (s : State) (f : Nat) (x : Fifo) (p : MPort), s.Serves ∧ f < 32 ∧ x = s.core.fifo f ∧
          (s.core.side p).outstanding.length < 4 ∧ s.core.semDenied p 15 = false ∧ s.core.on 7 = true ∧
          bit (s.core.sfCfg f) 31 = true ∧ x.state ≠ FifoState.off ∧ s.core.sfOut f = none)
    ∧ (∃ (s : State) (f : Nat) (x : Fifo) (p : MPort) (n : Nat), s.Serves ∧ f < 32 ∧ x = s.core.fifo f ∧
          (s.core.side p).outstanding.length < 4 ∧ s.core.semDenied p 15 = false ∧ s.core.on 7 = true ∧
          bit (s.core.sfCfg f) 31 = true ∧ x.state ≠ FifoState.off ∧ s.core.sfOut f = some n)
    ∧ (∃ (s : State) (f : Nat) (x : Fifo), s.Serves ∧ f < 32 ∧ x = s.core.fifo f ∧ x.state = FifoState.closing ∧
          x.producer = none ∧ x.consumer = none ∧ x.prodWait = [] ∧ x.consWait = [] ∧ (∀ (n : Nat),
          s.core.sfIn f = some n ∨ s.core.sfOut f = some n → (s.core.sport n).xbuf = []))
    ∧ (∃ (s : State) (f : Nat) (x : Fifo) (p : MPort), s.Serves ∧ f < 32 ∧ x = s.core.fifo f ∧
          s.core.Open p (0xF010 + 32 * f) ∧ (x.state = FifoState.run ∨ x.state = FifoState.held) ∧
          s.core.sfIn f = none ∧ s.core.sfMarked f = false)
    ∧ (∃ (s : State) (f : Nat) (x : Fifo) (p : MPort), s.Serves ∧ f < 32 ∧ x = s.core.fifo f ∧
          s.core.Open p (0xF010 + 32 * f) ∧ (x.state = FifoState.run ∨ x.state = FifoState.held) ∧
          s.core.sfIn f = none ∧ s.core.sfMarked f = true)
    ∧ (∃ (s : State) (f : Nat) (x : Fifo) (p : MPort) (n : Nat), s.Serves ∧ f < 32 ∧ x = s.core.fifo f ∧
          s.core.Open p (0xF010 + 32 * f) ∧ (x.state = FifoState.run ∨ x.state = FifoState.held) ∧
          s.core.sfIn f = some n ∧ s.core.sfMarked f = false)
    ∧ (∃ (s : State) (f : Nat) (x : Fifo) (p : MPort), s.Serves ∧ f < 32 ∧ x = s.core.fifo f ∧
          s.core.Open p (0xF010 + 32 * f) ∧ (x.state = FifoState.run ∨ x.state = FifoState.held) ∧
          s.core.sfPacket f = false ∧ x.unread ≠ [])
    ∧ (∃ (s : State) (f : Nat) (x : Fifo) (p : MPort), s.Serves ∧ f < 32 ∧ x = s.core.fifo f ∧
          s.core.Open p (0xF010 + 32 * f) ∧ (x.state = FifoState.run ∨ x.state = FifoState.held) ∧
          s.core.sfPacket f = false ∧ x.part ≠ [])
    ∧ (∃ (s : State) (f : Nat) (x : Fifo), s.Serves ∧ f < 32 ∧ x = s.core.fifo f ∧ s.core.regF (sfA f 3) 15 0 ≠ 0 ∧
          s.core.clock.refLost = false ∧ (x.state = FifoState.run ∨ x.state = FifoState.held) ∧
          s.core.sfPacket f = false ∧ x.part ≠ [])
    ∧ (∃ (s : State) (f : Nat), s.Serves ∧ f < 32 ∧ s.core.regF (sfA f 3) 15 0 = 0) := by
  refine ⟨?_, ?_, ?_, ?_, ?_, ?_, ?_, ?_, ?_, ?_, ?_, ?_, ?_⟩
  · exact ⟨wSt { wB with fifos := [(31, {  })], regs := [(sfA 31 1, 2048)] }, 31, _, .mpa, 0x80000000#32, _, ⟨rfl, rfl⟩,
        by decide +kernel, rfl, wOpen (by decide +kernel), by decide +kernel, by decide +kernel, by decide +kernel, rfl,
        by decide +kernel, by decide +kernel, by decide +kernel, by decide +kernel, by decide +kernel⟩
  · exact ⟨wSt { wB with fifos := [(31, { state := .closing })], regs := [(sfA 31 1, 8)] }, 31, _, .mpa, 0x80000000#32,
        ⟨rfl, rfl⟩, by decide +kernel, rfl, wOpen (by decide +kernel), by decide +kernel, by decide +kernel,
        by decide +kernel, by decide +kernel, by decide +kernel, by decide +kernel, by decide +kernel⟩
  · exact ⟨wSt { wB with fifos := [(31, {  })], regs := [(sfA 31 1, 2048)], pool := { mapped := [2047] } }, 31, _, .mpa,
        0x80000000#32, _, ⟨rfl, rfl⟩, by decide +kernel, rfl, wOpen (by decide +kernel), by decide +kernel,
        by decide +kernel, by decide +kernel, rfl, by decide +kernel, by decide +kernel, by decide +kernel,
        by decide +kernel, by decide +kernel⟩
  · exact ⟨wSt { wB with fifos := [(31, { state := .run })], regs := [(sfA 31 0, 0x80000000)] }, 31, _, .mpa, ⟨rfl,
        rfl⟩, by decide +kernel, rfl, by decide +kernel, by decide +kernel, by decide +kernel, by decide +kernel,
        by decide +kernel, by decide +kernel⟩
  · exact ⟨wSt { wB with fifos := [(31, { state := .run })], regs := [(sfA 31 0, 0x800000F0)] }, 31, _, .mpa, 7, ⟨rfl,
        rfl⟩, by decide +kernel, rfl, by decide +kernel, by decide +kernel, by decide +kernel, by decide +kernel,
        by decide +kernel, by decide +kernel⟩
  · exact ⟨wSt { wB with fifos := [(31, { state := .closing })], regs := [] }, 31, _, ⟨rfl, rfl⟩, by decide +kernel,
        rfl, by decide +kernel, by decide +kernel, by decide +kernel, by decide +kernel, by decide +kernel,
        by intro n h; rcases h with h | h <;> (revert h; simp only [show ({ wB with fifos := [(31, { state := .closing })], regs := [] } : Blk) = { wB with fifos := [(31, { state := .closing })] } from rfl]; exact nofun)⟩
  · exact ⟨wSt { wB with fifos := [(31, { state := .run })], regs := [(sfA 31 0, 0x80000000)] }, 31, _, .mpa, ⟨rfl,
        rfl⟩, by decide +kernel, rfl, wOpen (by decide +kernel), by decide +kernel, by decide +kernel,
        by decide +kernel⟩
  · exact ⟨wSt { wB with fifos := [(31, { state := .held, marked := [⟨[0], false, false, true, 0, false, false, 0, 0, false, false⟩] })], regs := [(sfA 31 0, 0x80000000)] },
        31, _, .mpa, ⟨rfl, rfl⟩, by decide +kernel, rfl, wOpen (by decide +kernel), by decide +kernel,
        by decide +kernel, by decide +kernel⟩
  · exact ⟨wSt { wB with fifos := [(31, { state := .run })], regs := [(sfA 31 0, 0x8000000F)] }, 31, _, .mpa, 7, ⟨rfl,
        rfl⟩, by decide +kernel, rfl, wOpen (by decide +kernel), by decide +kernel, by decide +kernel,
        by decide +kernel⟩
  · exact ⟨wSt { wB with fifos := [(31, { state := .run, unread := [⟨[0], false, false, true, 0, false, false, 0, 0, false, false⟩] })], regs := [(sfA 31 0, 0x80000000)] },
        31, _, .mpa, ⟨rfl, rfl⟩, by decide +kernel, rfl, wOpen (by decide +kernel), by decide +kernel,
        by decide +kernel, by decide +kernel⟩
  · exact ⟨wSt { wB with fifos := [(31, { state := .held, part := [(0, false)] })], regs := [(sfA 31 0, 0x80000000)] },
        31, _, .mpa, ⟨rfl, rfl⟩, by decide +kernel, rfl, wOpen (by decide +kernel), by decide +kernel,
        by decide +kernel, by decide +kernel⟩
  · exact ⟨wSt { wB with fifos := [(31, { state := .held, part := [(0, false)] })], regs := [(sfA 31 0, 0x80000000), (sfA 31 3, 1)] },
        31, _, ⟨rfl, rfl⟩, by decide +kernel, rfl, by decide +kernel, by decide +kernel, by decide +kernel,
        by decide +kernel, by decide +kernel⟩
  · exact ⟨wSt wB, 31, ⟨rfl, rfl⟩, by decide +kernel, by decide +kernel⟩

theorem test_StreamPortsFollowTheTable :
    (∃ (s : State) (n : Nat) (w : StreamWord), s.Serves ∧ n < 8 ∧ s.core.on 7 = true ∧ w.wf = true ∧
          w.withdrawn = true ∧ bit (s.core.spCfg n) 31 = true ∧ bit (s.core.spCfg n) 30 = false)
    ∧ (∃ (s : State) (n : Nat) (w : StreamWord), s.Serves ∧ n < 8 ∧ s.core.on 7 = true ∧ w.wf = true ∧
          w.withdrawn = false ∧ s.core.spPin n false = false)
    ∧ (∃ (s : State) (n : Nat) (w : StreamWord), s.Serves ∧ n < 8 ∧ s.core.on 7 = true ∧ w.wf = true ∧
          w.withdrawn = false ∧ s.core.spPin n false = true ∧ (w.parityBad = false ∨ bit (s.core.spCfg n) 29 = false) ∧
          (w.last = true ∨ w.inb = 15))
    ∧ (∃ (s : State) (n : Nat) (w : StreamWord), s.Serves ∧ n < 8 ∧ s.core.on 7 = true ∧ w.wf = true ∧
          w.withdrawn = false ∧ s.core.spPin n false = true ∧ w.parityBad = true ∧ bit (s.core.spCfg n) 29 = true ∧
          (w.last = true ∨ w.inb = 15))
    ∧ (∃ (s : State) (n : Nat) (w : StreamWord), s.Serves ∧ n < 8 ∧ s.core.on 7 = true ∧ w.wf = true ∧
          w.withdrawn = false ∧ s.core.spPin n false = true ∧ (w.parityBad = false ∨ bit (s.core.spCfg n) 29 = false) ∧
          w.last = false ∧ w.inb ≠ 15)
    ∧ (∃ (s : State) (n : Nat), s.Serves ∧ n < 8 ∧ s.core.on 7 = true ∧ s.core.spPin n true = false)
    ∧ (∃ (s : State) (n : Nat) (x : SPort) (w : StreamWord) (rest : List StreamWord) (f : Nat), s.Serves ∧ n < 8 ∧
          s.core.on 7 = true ∧ x = s.core.sport n ∧ s.core.spPin n true = true ∧ x.xbuf = w :: rest ∧
          s.core.sfOfPort n false = some f)
    ∧ (∃ (s : State) (n : Nat) (x : SPort) (kHz : Nat), s.Serves ∧ n < 8 ∧ s.core.on 7 = true ∧ x = s.core.sport n ∧
          s.core.clock.refLost = false ∧ 816000 < kHz ∧ x.range = false)
    ∧ (∃ (s : State) (n : Nat) (kHz : Nat), s.Serves ∧ n < 8 ∧ s.core.on 7 = true ∧ s.core.clock.refLost = false ∧
          kHz ≤ 800000)
    ∧ (∃ (s : State) (n : Nat), s.Serves ∧ n < 8 ∧ s.core.on 7 = true ∧ s.core.clock.refLost = false ∧
          bit (s.core.spCfg n) 31 = true ∧ bits (s.core.spCfg n) 15 0 ≠ 0) := by
  refine ⟨?_, ?_, ?_, ?_, ?_, ?_, ?_, ?_, ?_, ?_⟩
  · exact ⟨wSt { wB with sports := [(7, {  })], regs := [(0x1001C, 0x80000000)] }, 7, ⟨List.replicate 16 0, false,
        false, 15, true⟩, ⟨rfl, rfl⟩, by decide +kernel, by decide +kernel, by decide +kernel, by decide +kernel,
        by decide +kernel, by decide +kernel⟩
  · exact ⟨wSt { wB with sports := [(7, {  })], regs := [(0x1001C, 0x80000000)] }, 7, ⟨List.replicate 16 0, false,
        false, 15, false⟩, ⟨rfl, rfl⟩, by decide +kernel, by decide +kernel, by decide +kernel, by decide +kernel,
        by decide +kernel⟩
  · exact ⟨wSt { wB with sports := [(7, { ready := true })], regs := [(0x1001C, 0xA0000000), (sfA 31 0, 0xF)], fifos := [(31, { state := .run })] },
        7, ⟨List.replicate 16 0, false, false, 15, false⟩, ⟨rfl, rfl⟩, by decide +kernel, by decide +kernel,
        by decide +kernel, by decide +kernel, by decide +kernel, by decide +kernel, by decide +kernel⟩
  · exact ⟨wSt { wB with sports := [(7, { ready := true })], regs := [(0x1001C, 0xA0000000), (sfA 31 0, 0xF)], fifos := [(31, { state := .run })] },
        7, ⟨List.replicate 16 0, true, true, 0, false⟩, ⟨rfl, rfl⟩, by decide +kernel, by decide +kernel,
        by decide +kernel, by decide +kernel, by decide +kernel, by decide +kernel, by decide +kernel,
        by decide +kernel⟩
  · exact ⟨wSt { wB with sports := [(7, { ready := true })], regs := [(0x1001C, 0x80000000), (sfA 31 0, 0xF)], fifos := [(31, { state := .run })] },
        7, ⟨List.replicate 16 0, true, false, 14, false⟩, ⟨rfl, rfl⟩, by decide +kernel, by decide +kernel,
        by decide +kernel, by decide +kernel, by decide +kernel, by decide +kernel, by decide +kernel,
        by decide +kernel⟩
  · exact ⟨wSt wB, 7, ⟨rfl, rfl⟩, by decide +kernel, by decide +kernel, by decide +kernel⟩
  · exact ⟨wSt { wB with sports := [(7, { ready := true, xbuf := [⟨List.replicate 16 0, false, false, 15, false⟩] })], regs := [(0x1001C, 0xC0000000), (sfA 31 0, 0xF0)], fifos := [(31, { state := .run })] },
        7, _, _, _, 31, ⟨rfl, rfl⟩, by decide +kernel, by decide +kernel, rfl, by decide +kernel, rfl,
        by decide +kernel⟩
  · exact ⟨wSt wB, 7, _, 816001, ⟨rfl, rfl⟩, by decide +kernel, by decide +kernel, rfl, by decide +kernel,
        by decide +kernel, by decide +kernel⟩
  · exact ⟨wSt wB, 7, 800000, ⟨rfl, rfl⟩, by decide +kernel, by decide +kernel, by decide +kernel, by decide +kernel⟩
  · exact ⟨wSt { wB with sports := [(7, {  })], regs := [(0x1001C, 0x80000001)] }, 7, ⟨rfl, rfl⟩, by decide +kernel,
        by decide +kernel, by decide +kernel, by decide +kernel, by decide +kernel⟩

theorem test_StopsReachTheirPoints :
    (∃ (s : State) (q : QRef) (x : Queue) (a : Stop), s.Serves ∧ q.wf = true ∧ x = s.core.queue q ∧ x.acting = some a ∧
          a.mode = StopMode.atPhase ∧ x.run.phase = QPhase.stopping ∧ s.core.stopPhase a = true)
    ∧ (∃ (s : State) (q : QRef) (x : Queue) (a : Stop) (b : Blk), s.Serves ∧ q.wf = true ∧ x = s.core.queue q ∧
          x.acting = some a ∧ a.mode = StopMode.pause ∧ x.run.phase = QPhase.stopping ∧ x.ending = EndStage.draining ∧
          s.core.execStopped q = true ∧ b = s.core.traceQ 2 q 128 ∧ b.boundAt q = none)
    ∧ (∃ (s : State) (q : QRef) (x : Queue) (a : Stop) (b : Blk) (m : Nat) (k : Nat), s.Serves ∧ q.wf = true ∧
          x = s.core.queue q ∧ x.acting = some a ∧ a.mode = StopMode.pause ∧ x.run.phase = QPhase.stopping ∧
          x.ending = EndStage.draining ∧ s.core.execStopped q = true ∧ b = s.core.traceQ 2 q 128 ∧
          b.boundAt q = some (m, k))
    ∧ (∃ (s : State) (q : QRef) (x : Queue) (a : Stop), s.Serves ∧ q.wf = true ∧ x = s.core.queue q ∧
          x.acting = some a ∧ (a.mode = StopMode.abort ∨ a.mode = StopMode.disable) ∧ x.run.phase = QPhase.stopping ∧
          x.ending = EndStage.draining ∧ s.core.execStopped q = true)
    ∧ (∃ (s : State) (q : QRef) (x : Queue) (a : Stop), s.Serves ∧ q.wf = true ∧ x = s.core.queue q ∧
          x.acting = some a ∧ (a.mode = StopMode.drain ∨ a.mode = StopMode.pause) ∧ x.run.phase = QPhase.stopping ∧
          s.core.stopDone q = true) := by
  refine ⟨?_, ?_, ?_, ?_, ?_⟩
  · exact ⟨wSt { wQB { run := { phase := .stopping }, acting := some ⟨.atPhase, 0, 0, 0⟩ } with pus := [(0, { state := .locked })] },
        .dom 0, _, _, ⟨rfl, rfl⟩, by decide +kernel, rfl, rfl, by decide +kernel, by decide +kernel, by decide +kernel⟩
  · exact ⟨wSt (wQB { run := { phase := .stopping }, acting := some ⟨.pause, 0, 0, 0⟩, ending := .draining }), .dom 0,
        _, _, _, ⟨rfl, rfl⟩, by decide +kernel, rfl, rfl, by decide +kernel, by decide +kernel, by decide +kernel,
        by decide +kernel, rfl, by decide +kernel⟩
  · exact ⟨wSt (wM { run := { phase := .stopping }, acting := some ⟨.pause, 0, 0, 0⟩, ending := .draining } (wBind [] [])),
        .dom 0, _, _, _, 0, 0, ⟨rfl, rfl⟩, by decide +kernel, rfl, rfl, by decide +kernel, by decide +kernel,
        by decide +kernel, by decide +kernel, rfl, by decide +kernel⟩
  · exact ⟨wSt (wQB { run := { phase := .stopping }, acting := some ⟨.disable, 0, 0, 0⟩, ending := .draining }), .dom 0,
        _, _, ⟨rfl, rfl⟩, by decide +kernel, rfl, rfl, by decide +kernel, by decide +kernel, by decide +kernel,
        by decide +kernel⟩
  · exact ⟨wSt (wQB { run := { phase := .stopping }, acting := some ⟨.pause, 0, 0, 0⟩, ending := .publishing }), .dom 0,
        _, _, ⟨rfl, rfl⟩, by decide +kernel, rfl, rfl, by decide +kernel, by decide +kernel, by decide +kernel⟩

theorem test_MoversRetireAndPortsDrain :
    (∃ (s : State) (p : MPort) (m : Nat), s.Serves ∧ m < 18 ∧ s.core.Open p 0x11208 ∧ s.core.Keyed p ∧
          (s.core.mover m).state = MovState.spare)
    ∧ (∃ (s : State) (p : MPort) (m : Nat), s.Serves ∧ m < 18 ∧ s.core.Open p 0x11208 ∧ s.core.Keyed p ∧
          (s.core.mover m).state = MovState.active ∧ (s.core.mover m).bind = [])
    ∧ (∃ (s : State) (m : Nat), s.Serves ∧ m < 18 ∧ (s.core.mover m).state = MovState.quiescing ∧
          (s.core.mover m).stop ≠ none ∧ (s.core.mover m).places = [] ∧ s.core.moverBusy m = false)
    ∧ (∃ (s : State) (m : Nat), s.Serves ∧ m < 18 ∧ (s.core.mover m).state = MovState.quiescing ∧
          (s.core.mover m).stop = none ∧ (s.core.mover m).places = [] ∧ s.core.moverBusy m = false)
    ∧ (∃ (s : State) (p : MPort) (mask : Nat), s.Serves ∧ mask < 256 ∧ s.core.Open p 0x12320 ∧ s.core.Keyed p ∧
          s.core.leavesAPort mask = true ∧ (∀ (n : Nat), n < 8 →
          bit (s.core.drainMask mask) n = bit (s.core.reg 0x12320) n))
    ∧ (∃ (s : State) (n : Nat) (b : Blk), s.Serves ∧ n < 8 ∧ (s.core.port n).nothing = true ∧
          (s.core.port n).stop = none ∧ bit (s.core.reg 0x12320) n = true ∧
          (b = s.core.modPort n fun v => { v with idle := true }) ∧
          (((List.range 4).all fun i => (b.port (4 * (n / 4) + i)).idle || !b.portPowered (4 * (n / 4) + i)) = true))
    ∧ (∃ (s : State) (n : Nat) (b : Blk), s.Serves ∧ n < 8 ∧ (s.core.port n).nothing = true ∧
          (s.core.port n).stop = none ∧ bit (s.core.reg 0x12320) n = true ∧
          (b = s.core.modPort n fun v => { v with idle := true }) ∧
          (((List.range 4).all fun i => (b.port (4 * (n / 4) + i)).idle || !b.portPowered (4 * (n / 4) + i)) = false)) := by
  refine ⟨?_, ?_, ?_, ?_, ?_, ?_, ?_⟩
  · exact ⟨wSt { wK with movers := [(17, { state := .spare })] }, .mpa, 17, ⟨rfl, rfl⟩, by decide +kernel,
        wOpen (by decide +kernel), by unfold Blk.Keyed; decide +kernel, by decide +kernel⟩
  · exact ⟨wSt { wK with movers := [(17, { state := .active })] }, .mpa, 17, ⟨rfl, rfl⟩, by decide +kernel,
        wOpen (by decide +kernel), by unfold Blk.Keyed; decide +kernel, by decide +kernel, by decide +kernel⟩
  · exact ⟨wSt { wK with movers := [(17, { state := .quiescing, stop := some ⟨.pause, 0, 0, 0⟩ })] }, 17, ⟨rfl, rfl⟩,
        by decide +kernel, by decide +kernel, by decide +kernel, by decide +kernel, by decide +kernel⟩
  · exact ⟨wSt { wK with movers := [(17, { state := .quiescing })] }, 17, ⟨rfl, rfl⟩, by decide +kernel,
        by decide +kernel, by decide +kernel, by decide +kernel, by decide +kernel⟩
  · exact ⟨wSt { wK with regs := [(0x12320, 0x80)] }, .mpa, 0x80, ⟨rfl, rfl⟩, by decide +kernel,
        wOpen (by decide +kernel), by unfold Blk.Keyed; decide +kernel, by decide +kernel, by decide +kernel⟩
  · exact ⟨wSt { wB with ports := [(4, { idle := true }), (5, { idle := true }), (6, { idle := true })], regs := [(0x12320, 0x80)] },
        7, _, ⟨rfl, rfl⟩, by decide +kernel, by decide +kernel, by decide +kernel, by decide +kernel, rfl,
        by decide +kernel⟩
  · exact ⟨wSt { wB with ports := [], regs := [(0x12320, 0x80)] }, 7, _, ⟨rfl, rfl⟩, by decide +kernel,
        by decide +kernel, by decide +kernel, by decide +kernel, rfl, by decide +kernel⟩

theorem test_MessagesFollowTheVectorTable :
    (∃ (s : State) (q : QRef) (x : Queue) (e : Vector4), s.Serves ∧ q.wf = true ∧ x = s.core.queue q ∧
          s.core.exists? q = true ∧ x.mod.timer = true ∧ x.cfg.modMode = 1 ∧ x.cfg.modTime ≠ 0 ∧
          s.core.asleep x.cfg.dom = false ∧ e = s.core.vector x.cfg.vec ∧ e.valid = true ∧ e.dom = x.cfg.dom ∧
          e.mask = true)
    ∧ (∃ (s : State) (v : Nat) (c : Coalesce), s.Serves ∧ v < 4096 ∧
          (List.filter (fun c => c.v == v) s.core.sched.coalesce = [c]) ∧ c.more = false)
    ∧ (∃ (s : State) (p : MPort) (j : Nat), s.Serves ∧ j < 8 ∧ s.core.Open p (0xB020 + 4 * j) ∧ (∀ (q : QRef),
          q ∈ s.core.allQueues → (s.core.queue q).mod.held = false))
    ∧ (∃ (s : State) (p : MPort) (a : Nat) (c : Nat), s.Serves ∧ s.core.Open p 0xB014 ∧
          a = s.core.reg 0xB004 + 2 ^ 32 * s.core.reg 0xB008 ∧ c = s.core.reg 0xB010 ∧ bit c 15 = true ∧
          s.core.rangeOf a = none)
    ∧ (∃ (s : State) (p : MPort) (v : Nat) (a : Nat) (i : Nat) (t : Target), s.Serves ∧ s.core.Open p 0xB014 ∧
          v = s.core.regF 0xB000 11 0 ∧ a = s.core.reg 0xB004 + 2 ^ 32 * s.core.reg 0xB008 ∧ s.core.rangeOf a = some (i,
          t) ∧ a + 4 ≤ t.base + t.pages * 4096 ∧ (s.core.vector v).pend = false)
    ∧ (∃ (s : State) (d : Nat) (size : Nat) (value : Nat) (r : EvRing), s.Serves ∧ d < 256 ∧ value < 2 ^ 32 ∧
          s.core.on 1 = true ∧ s.core.on 2 = true ∧ (size = 4 ∨ size = 8) ∧ (s.core.domEntry d).isSome = true ∧
          (s.core.domain d).ring = some r ∧ bits value 15 0 < 2 ^ r.exp ∧
          (posOf value (2 ^ r.exp) + 2 * 2 ^ r.exp - r.rpos) % (2 * 2 ^ r.exp) ≤ (r.wpos + 2 * 2 ^ r.exp - r.rpos) % (2 * 2 ^ r.exp))
    ∧ (∃ (s : State) (d : Nat) (size : Nat) (value : Nat) (r : EvRing), s.Serves ∧ d < 256 ∧ value < 2 ^ 32 ∧
          s.core.on 1 = true ∧ s.core.on 2 = true ∧ (size = 4 ∨ size = 8) ∧ (s.core.domEntry d).isSome = true ∧
          (s.core.domain d).ring = some r ∧ bits value 15 0 < 2 ^ r.exp ∧
          (r.wpos + 2 * 2 ^ r.exp - r.rpos) % (2 * 2 ^ r.exp) < (posOf value (2 ^ r.exp) + 2 * 2 ^ r.exp - r.rpos) % (2 * 2 ^ r.exp)) := by
  refine ⟨?_, ?_, ?_, ?_, ?_, ?_, ?_⟩
  · exact ⟨wSt { wB with queues := [(0, { cfg := { modMode := 1, modTime := 1 }, run := { phase := .idle }, mod := { timer := true } })], vec := { table := [(0, { valid := true, mask := true })] } },
        .dom 0, _, _, ⟨rfl, rfl⟩, by decide +kernel, rfl, by decide +kernel, by decide +kernel, by decide +kernel,
        by decide +kernel, by decide +kernel, rfl, by decide +kernel, by decide +kernel, by decide +kernel⟩
  · exact ⟨wSt { wB with sched := { coalesce := [⟨4095, 0, false, none⟩] } }, 4095, _, ⟨rfl, rfl⟩, by decide +kernel,
        rfl, by decide +kernel⟩
  · exact ⟨wSt wB, .mpa, 7, ⟨rfl, rfl⟩, by decide +kernel, wOpen (by decide +kernel), by decide +kernel⟩
  · exact ⟨wSt { wB with regs := [(0xB004, 0xFFFFFFFC), (0xB010, 0x8000)] }, .mpa, _, _, ⟨rfl, rfl⟩,
        wOpen (by decide +kernel), rfl, rfl, by decide +kernel, by decide +kernel⟩
  · exact ⟨wSt { wB with regs := [(0xB004, 0x1000), (0xB010, 0x8000)] }, .mpa, _, _, _, _, ⟨rfl, rfl⟩,
        wOpen (by decide +kernel), rfl, rfl, rfl, by decide +kernel, by decide +kernel⟩
  · exact ⟨wSt { wB with domains := [(1, { ring := some ⟨0, 6, 0, 1, 0⟩ })] }, 1, 8, 0x10001, _, ⟨rfl, rfl⟩,
        by decide +kernel, by decide +kernel, by decide +kernel, by decide +kernel, by decide +kernel,
        by decide +kernel, rfl, by decide +kernel, by decide +kernel⟩
  · exact ⟨wSt { wB with domains := [(1, { ring := some ⟨0, 6, 0, 1, 0⟩ })] }, 1, 4, 2, _, ⟨rfl, rfl⟩,
        by decide +kernel, by decide +kernel, by decide +kernel, by decide +kernel, by decide +kernel,
        by decide +kernel, rfl, by decide +kernel, by decide +kernel⟩

theorem test_FailuresAreContained :
    (∃ (s : State) (m : Nat) (c : Nat), s.Serves ∧ m < 18 ∧ (s.core.mover m).state.canFail = true ∧
          ((s.core.mover m).state = MovState.active ∨ (s.core.mover m).state = MovState.quiescing) ∧ 1 ≤ c ∧ c ≤ 5)
    ∧ (∃ (s : State) (m : Nat), s.Serves ∧ m < 18 ∧ (s.core.mover m).state.canFail = true ∧
          ((s.core.mover m).state = MovState.active ∨ (s.core.mover m).state = MovState.quiescing) ∧
          s.core.on (moverPd m) = true)
    ∧ (∃ (s : State) (m : Nat) (c : Nat), s.Serves ∧ m < 18 ∧ (s.core.mover m).state.canFail = true ∧
          (s.core.mover m).state ≠ MovState.active ∧ (s.core.mover m).state ≠ MovState.quiescing ∧ 1 ≤ c ∧ c ≤ 6 ∧
          (c = 6 → (s.core.mover m).state = MovState.spare))
    ∧ (∃ (s : State) (m : Nat), s.Serves ∧ m < 18 ∧ (s.core.mover m).state.canFail = true ∧
          (s.core.mover m).state ≠ MovState.active ∧ (s.core.mover m).state ≠ MovState.quiescing ∧
          s.core.on (moverPd m) = true)
    ∧ (∃ (s : State) (q : QRef) (f : Fover) (m : Nat) (k : Nat), s.Serves ∧ q.wf = true ∧
          (List.find? (fun f => f.q == q) s.core.sched.fovers = some f) ∧ s.core.boundAt q = some (m, k) ∧
          (((s.core.mover f.mover).flushWait.any fun w => bit (s.core.queue q).run.mark.ports w.fst) = false) ∧
          f.ex = none)
    ∧ (∃ (s : State) (q : QRef) (f : Fover) (m : Nat) (k : Nat) (e : Exec), s.Serves ∧ q.wf = true ∧
          (List.find? (fun f => f.q == q) s.core.sched.fovers = some f) ∧ s.core.boundAt q = some (m, k) ∧
          (((s.core.mover f.mover).flushWait.any fun w => bit (s.core.queue q).run.mark.ports w.fst) = false) ∧
          f.ex = some e ∧ e.desc.kind ≠ kAscat ∧ (s.core.queue q).run.mark.active = false ∧ e.record = [])
    ∧ (∃ (s : State) (q : QRef) (f : Fover) (m : Nat) (k : Nat) (e : Exec) (b : Blk) (c : Nat), s.Serves ∧ q.wf = true ∧
          (List.find? (fun f => f.q == q) s.core.sched.fovers = some f) ∧ s.core.boundAt q = some (m, k) ∧
          (((s.core.mover f.mover).flushWait.any fun w => bit (s.core.queue q).run.mark.ports w.fst) = false) ∧
          f.ex = some e ∧ e.desc.kind ≠ kAscat ∧
          (b = ({ (s.core.modSched fun z => { z with fovers := z.fovers.filter fun f => f.q != q }) with movp := { s.core.movp with resumes := incr 12 s.core.movp.resumes } } : Blk).traceQ 3 q f.mover) ∧
          (s.core.queue q).run.mark.active = true ∧ (s.core.queue q).run.mark.srcOfs < f.hiSrc ∧
          b.unsafeCause (s.core.queue q).run.mark f e = some c)
    ∧ (∃ (s : State) (q : QRef) (t : Nat), s.Serves ∧ q.wf = true ∧ t < 2 ∧ (s.core.queue q).resident true = true ∧
          s.core.banks.aOut = false ∧ s.core.banks.bOut = false)
    ∧ (∃ (s : State) (u : Nat) (c : Blk), s.Serves ∧ 1 ≤ u ∧ u ≤ 5 ∧ s.core.on 1 = true ∧ c = s.core.raise 5 9 ∧
          c.sched.parityAt = none)
    ∧ (∃ (s : State) (u : Nat) (c : Blk) (t : Nat), s.Serves ∧ 1 ≤ u ∧ u ≤ 5 ∧ s.core.on 1 = true ∧
          c = s.core.raise 5 9 ∧ c.sched.parityAt = some t ∧ t + 1000000000 < c.now)
    ∧ (∃ (s : State) (u : Nat) (c : Blk) (t : Nat), s.Serves ∧ 1 ≤ u ∧ u ≤ 5 ∧ s.core.on 1 = true ∧
          c = s.core.raise 5 9 ∧ c.sched.parityAt = some t ∧ c.now ≤ t + 1000000000) := by
  refine ⟨?_, ?_, ?_, ?_, ?_, ?_, ?_, ?_, ?_, ?_, ?_⟩
  · exact ⟨wSt { wK with movers := [(17, { state := .quiescing })] }, 17, 5, ⟨rfl, rfl⟩, by decide +kernel,
        by decide +kernel, by decide +kernel, by decide +kernel, by decide +kernel⟩
  · exact ⟨wSt { wK with movers := [(17, { state := .active })] }, 17, ⟨rfl, rfl⟩, by decide +kernel, by decide +kernel,
        by decide +kernel, by decide +kernel⟩
  · exact ⟨wSt { wK with movers := [(17, { state := .spare })] }, 17, 6, ⟨rfl, rfl⟩, by decide +kernel,
        by decide +kernel, by decide +kernel, by decide +kernel, by decide +kernel, by decide +kernel, fun _ => rfl⟩
  · exact ⟨wSt { wK with movers := [(17, { state := .spare })] }, 17, ⟨rfl, rfl⟩, by decide +kernel, by decide +kernel,
        by decide +kernel, by decide +kernel, by decide +kernel⟩
  · exact ⟨wSt { wM (wQ .bound) (wBind [] []) with sched := { fovers := [⟨.dom 0, 1, none, 0, 0⟩] } }, .dom 0, _, 0, 0,
        ⟨rfl, rfl⟩, by decide +kernel, rfl, by decide +kernel, by decide +kernel, by decide +kernel⟩
  · exact ⟨wSt { wM (wQ .bound) (wBind [] []) with sched := { fovers := [⟨.dom 0, 1, some (wExec kCopy .running), 0, 0⟩] } },
        .dom 0, _, 0, 0, _, ⟨rfl, rfl⟩, by decide +kernel, rfl, by decide +kernel, by decide +kernel, rfl,
        by decide +kernel, by decide +kernel, by decide +kernel⟩
  · exact ⟨wSt { wM ({ run := { phase := .bound, mark := { active := true } } }) (wBind [] []) with sched := { fovers := [⟨.dom 0, 1, some { wExec kCopy .running with desc := { wDesc kCopy with norepSrc := true } }, 1, 0⟩] } },
        .dom 0, _, 0, 0, _, _, 1, ⟨rfl, rfl⟩, by decide +kernel, rfl, by decide +kernel, by decide +kernel, rfl,
        by decide +kernel, rfl, by decide +kernel, by decide +kernel, by decide +kernel⟩
  · exact ⟨wSt (wQB (wQ .idle)), .dom 0, 1, ⟨rfl, rfl⟩, by decide +kernel, by decide +kernel, by decide +kernel,
        by decide +kernel, by decide +kernel⟩
  · exact ⟨wSt wB, 5, _, ⟨rfl, rfl⟩, by decide +kernel, by decide +kernel, by decide +kernel, rfl, by decide +kernel⟩
  · exact ⟨wSt { wB with sched := { parityAt := some 0 }, clock := { ft := 1000000001 } }, 5, _, 0, ⟨rfl, rfl⟩,
        by decide +kernel, by decide +kernel, by decide +kernel, rfl, by decide +kernel, by decide +kernel⟩
  · exact ⟨wSt { wB with sched := { parityAt := some 0 }, clock := { ft := 1000000000 } }, 1, _, 0, ⟨rfl, rfl⟩,
        by decide +kernel, by decide +kernel, by decide +kernel, rfl, by decide +kernel, by decide +kernel⟩

theorem test_PortsAndLinksFail :
    (∃ (s : State) (p : Nat), s.Serves ∧ p < 8 ∧ s.core.portPowered p = true ∧ (s.core.port p).lost = false ∧
          (s.core.port p).stuck = false ∧ s.core.regF 0x12334 15 0 ≠ 0 ∧ s.core.holdsPkt p = true)
    ∧ (∃ (s : State) (p : Nat), s.Serves ∧ p < 8 ∧ s.core.portPowered p = true ∧ (s.core.port p).up = true)
    ∧ (∃ (s : State) (p : Nat), s.Serves ∧ p < 8 ∧ (s.core.portPowered p = false ∨ (s.core.port p).up = false))
    ∧ (∃ (s : State) (p : Nat), s.Serves ∧ p < 8 ∧ (s.core.port p).up = false)
    ∧ (∃ (s : State) (n : Nat), s.Serves ∧ n < 40 ∧ s.core.links.contains n = true ∧ n < 32)
    ∧ (∃ (s : State) (n : Nat), s.Serves ∧ n < 40 ∧ s.core.links.contains n = true ∧ 32 ≤ n)
    ∧ (∃ (s : State) (n : Nat), s.Serves ∧ n < 40 ∧ s.core.links.contains n = false ∧ n < 32 ∧
          s.core.ctoLinks.contains n = true)
    ∧ (∃ (s : State) (n : Nat), s.Serves ∧ n < 40 ∧ s.core.links.contains n = false ∧ 32 ≤ n ∧
          s.core.ctoLinks.contains n = true) := by
  refine ⟨?_, ?_, ?_, ?_, ?_, ?_, ?_, ?_⟩
  · exact ⟨wSt { wB with ports := [(7, { up := true, pres := [wPkt true] })], regs := [(0x12334, 1)] }, 7, ⟨rfl, rfl⟩,
        by decide +kernel, by decide +kernel, by decide +kernel, by decide +kernel, by decide +kernel,
        by decide +kernel⟩
  · exact ⟨wSt wB, 7, ⟨rfl, rfl⟩, by decide +kernel, by decide +kernel, by decide +kernel⟩
  · exact ⟨wSt { wB with ports := [] }, 7, ⟨rfl, rfl⟩, by decide +kernel, by decide +kernel⟩
  · exact ⟨wSt { wB with ports := [] }, 7, ⟨rfl, rfl⟩, by decide +kernel, by decide +kernel⟩
  · exact ⟨wSt { wB with links := [31] }, 31, ⟨rfl, rfl⟩, by decide +kernel, by decide +kernel, by decide +kernel⟩
  · exact ⟨wSt { wB with links := [32] }, 32, ⟨rfl, rfl⟩, by decide +kernel, by decide +kernel, by decide +kernel⟩
  · exact ⟨wSt { wB with ctoLinks := [31] }, 31, ⟨rfl, rfl⟩, by decide +kernel, by decide +kernel, by decide +kernel,
        by decide +kernel⟩
  · exact ⟨wSt { wB with ctoLinks := [32] }, 32, ⟨rfl, rfl⟩, by decide +kernel, by decide +kernel, by decide +kernel,
        by decide +kernel⟩

theorem test_SlotsFollowTheTable :
    (∃ (s : State) (n : Nat) (x : Slot), s.Serves ∧ n < 32 ∧ s.core.clock.refLost = false ∧ x = s.core.slot n ∧
          s.core.sltWaiting n = [] ∧ s.core.sltHold n ≠ 0 ∧ x.state = SlotState.empty ∧ s.core.sltOn n = true)
    ∧ (∃ (s : State) (n : Nat) (x : Slot), s.Serves ∧ n < 32 ∧ s.core.clock.refLost = false ∧ x = s.core.slot n ∧
          s.core.sltWaiting n = [] ∧ s.core.sltHold n ≠ 0 ∧ x.state = SlotState.held ∧ x.lostPresence = true)
    ∧ (∃ (s : State) (n : Nat) (x : Slot), s.Serves ∧ n < 32 ∧ s.core.clock.refLost = false ∧ x = s.core.slot n ∧
          s.core.sltWaiting n = [] ∧ s.core.sltHold n ≠ 0 ∧ x.state = SlotState.debounce)
    ∧ (∃ (s : State) (n : Nat) (x : Slot), s.Serves ∧ n < 32 ∧ s.core.clock.refLost = false ∧ x = s.core.slot n ∧
          s.core.sltWaiting n = [] ∧ s.core.sltHold n ≠ 0 ∧ x.state ≠ SlotState.debounce)
    ∧ (∃ (s : State) (n : Nat) (x : Slot), s.Serves ∧ n < 32 ∧ s.core.clock.refLost = false ∧ x = s.core.slot n ∧
          s.core.sltWaiting n = [] ∧ s.core.sltHold n ≠ 0 ∧ x.state = SlotState.ready)
    ∧ (∃ (s : State) (n : Nat) (x : Slot), s.Serves ∧ n < 32 ∧ s.core.clock.refLost = false ∧ x = s.core.slot n ∧
          s.core.sltWaiting n = [] ∧ s.core.sltHold n ≠ 0 ∧
          (x.state = SlotState.failedAtInsertion ∨ x.state = SlotState.faulted))
    ∧ (∃ (s : State) (n : Nat) (x : Slot), s.Serves ∧ n < 32 ∧ s.core.clock.refLost = false ∧ x = s.core.slot n ∧
          s.core.sltWaiting n = [] ∧ s.core.sltHold n ≠ 0 ∧ x.state = SlotState.ramp)
    ∧ (∃ (s : State) (n : Nat) (x : Slot), s.Serves ∧ n < 32 ∧ s.core.clock.refLost = false ∧ x = s.core.slot n ∧
          s.core.sltWaiting n = [] ∧ s.core.sltHold n ≠ 0 ∧ (x.state = SlotState.ramp ∨ x.state = SlotState.settle))
    ∧ (∃ (s : State) (n : Nat) (x : Slot), s.Serves ∧ n < 32 ∧ s.core.clock.refLost = false ∧ x = s.core.slot n ∧
          s.core.sltWaiting n = [] ∧ s.core.sltHold n ≠ 0 ∧ x.state = SlotState.settle ∧ s.core.sltLink n = false)
    ∧ (∃ (s : State) (n : Nat) (x : Slot), s.Serves ∧ n < 32 ∧ s.core.clock.refLost = false ∧ x = s.core.slot n ∧
          s.core.sltWaiting n = [] ∧ s.core.sltHold n ≠ 0 ∧ x.state = SlotState.discharge ∧ x.pwrEn = false)
    ∧ (∃ (s : State) (n : Nat) (x : Slot), s.Serves ∧ n < 32 ∧ s.core.clock.refLost = false ∧ x = s.core.slot n ∧
          s.core.sltWaiting n = [] ∧ s.core.sltHold n ≠ 0 ∧ x.state ≠ SlotState.passDamaged ∧ x.pwrEn = false)
    ∧ (∃ (s : State) (n : Nat) (x : Slot), s.Serves ∧ n < 32 ∧ s.core.clock.refLost = false ∧ x = s.core.slot n ∧
          s.core.sltWaiting n = [] ∧ s.core.sltHold n ≠ 0 ∧ x.state = SlotState.held ∧ x.hold = true) := by
  refine ⟨?_, ?_, ?_, ?_, ?_, ?_, ?_, ?_, ?_, ?_, ?_, ?_⟩
  · exact ⟨wSt { wB with slots := [(31, { state := .empty })], regs := [(0x5000 + 124, 0x60640000)] }, 31, _, ⟨rfl,
        rfl⟩, by decide +kernel, by decide +kernel, rfl, by decide +kernel, by decide +kernel, by decide +kernel,
        by decide +kernel⟩
  · exact ⟨wSt { wB with slots := [(31, { state := .held, lostPresence := true })], regs := [(0x5000 + 124, 0x60640000)] },
        31, _, ⟨rfl, rfl⟩, by decide +kernel, by decide +kernel, rfl, by decide +kernel, by decide +kernel,
        by decide +kernel, by decide +kernel⟩
  · exact ⟨wSt { wB with slots := [(31, { state := .debounce })], regs := [(0x5000 + 124, 0x60640000)] }, 31, _, ⟨rfl,
        rfl⟩, by decide +kernel, by decide +kernel, rfl, by decide +kernel, by decide +kernel, by decide +kernel⟩
  · exact ⟨wSt { wB with slots := [(31, { state := .ready })], regs := [(0x5000 + 124, 0x60640000)] }, 31, _, ⟨rfl,
        rfl⟩, by decide +kernel, by decide +kernel, rfl, by decide +kernel, by decide +kernel, by decide +kernel⟩
  · exact ⟨wSt { wB with slots := [(31, { state := .ready })], regs := [(0x5000 + 124, 0x60640000)] }, 31, _, ⟨rfl,
        rfl⟩, by decide +kernel, by decide +kernel, rfl, by decide +kernel, by decide +kernel, by decide +kernel⟩
  · exact ⟨wSt { wB with slots := [(31, { state := .faulted })], regs := [(0x5000 + 124, 0x60640000)] }, 31, _, ⟨rfl,
        rfl⟩, by decide +kernel, by decide +kernel, rfl, by decide +kernel, by decide +kernel, by decide +kernel⟩
  · exact ⟨wSt { wB with slots := [(31, { state := .ramp })], regs := [(0x5000 + 124, 0x60640000)] }, 31, _, ⟨rfl, rfl⟩,
        by decide +kernel, by decide +kernel, rfl, by decide +kernel, by decide +kernel, by decide +kernel⟩
  · exact ⟨wSt { wB with slots := [(31, { state := .settle })], regs := [(0x5000 + 124, 0x60640000)] }, 31, _, ⟨rfl,
        rfl⟩, by decide +kernel, by decide +kernel, rfl, by decide +kernel, by decide +kernel, by decide +kernel⟩
  · exact ⟨wSt { wB with slots := [(31, { state := .settle })], regs := [(0x5000 + 124, 0x60640000)] }, 31, _, ⟨rfl,
        rfl⟩, by decide +kernel, by decide +kernel, rfl, by decide +kernel, by decide +kernel, by decide +kernel,
        by decide +kernel⟩
  · exact ⟨wSt { wB with slots := [(31, { state := .discharge })], regs := [(0x5000 + 124, 0x60640000)] }, 31, _, ⟨rfl,
        rfl⟩, by decide +kernel, by decide +kernel, rfl, by decide +kernel, by decide +kernel, by decide +kernel,
        by decide +kernel⟩
  · exact ⟨wSt { wB with slots := [(31, { state := .ready })], regs := [(0x5000 + 124, 0x60640000)] }, 31, _, ⟨rfl,
        rfl⟩, by decide +kernel, by decide +kernel, rfl, by decide +kernel, by decide +kernel, by decide +kernel,
        by decide +kernel⟩
  · exact ⟨wSt { wB with slots := [(31, { state := .held, hold := true })], regs := [(0x5000 + 124, 0x60640000)] }, 31,
        _, ⟨rfl, rfl⟩, by decide +kernel, by decide +kernel, rfl, by decide +kernel, by decide +kernel,
        by decide +kernel, by decide +kernel⟩

theorem test_SlotCommandsFollowTheTable :
    (∃ (s : State) (n : Nat) (x : Slot) (p : MPort), s.Serves ∧ n < 32 ∧ x = s.core.slot n ∧
          s.core.Open p (0x5000 + 4 * n) ∧ s.core.Keyed p ∧ s.core.reg (0x5000 + 4 * n) < 2 ^ 32 ∧
          s.core.clock.refLost = false ∧ x.state = SlotState.off)
    ∧ (∃ (s : State) (n : Nat) (x : Slot) (p : MPort), s.Serves ∧ n < 32 ∧ x = s.core.slot n ∧
          s.core.Open p (0x5000 + 4 * n) ∧ s.core.Keyed p ∧ s.core.reg (0x5000 + 4 * n) < 2 ^ 32 ∧
          s.core.clock.refLost = false ∧ x.state = SlotState.empty)
    ∧ (∃ (s : State) (n : Nat) (x : Slot) (p : MPort), s.Serves ∧ n < 32 ∧ x = s.core.slot n ∧
          s.core.Open p (0x5000 + 4 * n) ∧ s.core.Keyed p ∧ s.core.reg (0x5000 + 4 * n) < 2 ^ 32 ∧
          s.core.clock.refLost = false ∧ x.state = SlotState.ready)
    ∧ (∃ (s : State) (n : Nat) (x : Slot) (p : MPort), s.Serves ∧ n < 32 ∧ x = s.core.slot n ∧
          s.core.Open p (0x5000 + 4 * n) ∧ s.core.Keyed p ∧ s.core.reg (0x5000 + 4 * n) < 2 ^ 32 ∧
          s.core.clock.refLost = false ∧ x.state ≠ SlotState.off)
    ∧ (∃ (s : State) (n : Nat) (x : Slot) (p : MPort), s.Serves ∧ n < 32 ∧ x = s.core.slot n ∧
          s.core.Open p (0x5000 + 4 * n) ∧ s.core.Keyed p ∧ s.core.reg (0x5000 + 4 * n) < 2 ^ 32 ∧
          s.core.clock.refLost = false ∧ x.state ≠ SlotState.empty ∧ x.state ≠ SlotState.ready)
    ∧ (∃ (s : State) (n : Nat) (p : MPort), s.Serves ∧ n < 32 ∧ s.core.Open p (0x5000 + 4 * n) ∧ s.core.Keyed p ∧
          s.core.reg (0x5000 + 4 * n) < 2 ^ 32 ∧ s.core.clock.refLost = true)
    ∧ (∃ (s : State) (n : Nat) (x : Slot) (p : MPort), s.Serves ∧ n < 32 ∧ x = s.core.slot n ∧ s.core.Open p 0x5304 ∧
          s.core.Keyed p ∧ s.core.clock.refLost = false ∧
          (x.state = SlotState.failedAtInsertion ∨ x.state = SlotState.faulted))
    ∧ (∃ (s : State) (n : Nat) (x : Slot) (p : MPort), s.Serves ∧ n < 32 ∧ x = s.core.slot n ∧ s.core.Open p 0x5304 ∧
          s.core.Keyed p ∧ s.core.clock.refLost = false ∧ x.state = SlotState.passDamaged ∧ x.vsns = false)
    ∧ (∃ (s : State) (n : Nat) (x : Slot) (p : MPort), s.Serves ∧ n < 32 ∧ x = s.core.slot n ∧ s.core.Open p 0x5304 ∧
          s.core.Keyed p ∧ s.core.clock.refLost = false ∧ x.state = SlotState.passDamaged ∧ x.vsns = true)
    ∧ (∃ (s : State) (n : Nat) (x : Slot) (p : MPort), s.Serves ∧ n < 32 ∧ x = s.core.slot n ∧ s.core.Open p 0x5304 ∧
          s.core.Keyed p ∧ s.core.clock.refLost = false ∧ x.state ≠ SlotState.failedAtInsertion ∧
          x.state ≠ SlotState.faulted ∧ x.state ≠ SlotState.passDamaged)
    ∧ (∃ (s : State) (n : Nat) (x : Slot) (p : MPort), s.Serves ∧ n < 32 ∧ x = s.core.slot n ∧ s.core.Open p 0x5304 ∧
          s.core.Keyed p ∧ s.core.clock.refLost = false ∧ x.state = SlotState.held)
    ∧ (∃ (s : State) (n : Nat) (x : Slot) (p : MPort), s.Serves ∧ n < 32 ∧ x = s.core.slot n ∧ s.core.Open p 0x5304 ∧
          s.core.Keyed p ∧ s.core.clock.refLost = false ∧ x.state ≠ SlotState.held)
    ∧ (∃ (s : State) (n : Nat) (p : MPort), s.Serves ∧ n < 32 ∧ s.core.Open p 0x5304 ∧ s.core.Keyed p ∧
          s.core.clock.refLost = true)
    ∧ (∃ (s : State) (n : Nat) (p : Nat) (t : Nat) (u : TagRec), s.Serves ∧ n < 32 ∧
          s.core.findRead (isTokenRead n) = some (p, t, u)) := by
  refine ⟨?_, ?_, ?_, ?_, ?_, ?_, ?_, ?_, ?_, ?_, ?_, ?_, ?_, ?_⟩
  · exact ⟨wSt { wK with slots := [(31, { state := .off })], regs := [(0x5000 + 124, 0x20640000)] }, 31, _, .mpa, ⟨rfl,
        rfl⟩, by decide +kernel, rfl, wOpen (by decide +kernel), by unfold Blk.Keyed; decide +kernel, by decide +kernel,
        by decide +kernel, by decide +kernel⟩
  · exact ⟨wSt { wK with slots := [(31, { state := .empty })], regs := [(0x5000 + 124, 0x60640000)] }, 31, _, .mpa,
        ⟨rfl, rfl⟩, by decide +kernel, rfl, wOpen (by decide +kernel), by unfold Blk.Keyed; decide +kernel,
        by decide +kernel, by decide +kernel, by decide +kernel⟩
  · exact ⟨wSt { wK with slots := [(31, { state := .ready })], regs := [(0x5000 + 124, 0x60640000)] }, 31, _, .mpa,
        ⟨rfl, rfl⟩, by decide +kernel, rfl, wOpen (by decide +kernel), by unfold Blk.Keyed; decide +kernel,
        by decide +kernel, by decide +kernel, by decide +kernel⟩
  · exact ⟨wSt wK, 31, _, .mpa, ⟨rfl, rfl⟩, by decide +kernel, rfl, wOpen (by decide +kernel),
        by unfold Blk.Keyed; decide +kernel, by decide +kernel, by decide +kernel, by decide +kernel⟩
  · exact ⟨wSt { wK with slots := [(31, { state := .ramp })], regs := [(0x5000 + 124, 0x20640000)] }, 31, _, .mpa, ⟨rfl,
        rfl⟩, by decide +kernel, rfl, wOpen (by decide +kernel), by unfold Blk.Keyed; decide +kernel, by decide +kernel,
        by decide +kernel, by decide +kernel, by decide +kernel⟩
  · exact ⟨wSt { wK with slots := [(31, { state := .off })], regs := [(0x5000 + 124, 0x20640000)], clock := { refLost := true } },
        31, .mpa, ⟨rfl, rfl⟩, by decide +kernel, wOpen (by decide +kernel), by unfold Blk.Keyed; decide +kernel,
        by decide +kernel, by decide +kernel⟩
  · exact ⟨wSt { wK with slots := [(31, { state := .faulted })], regs := [(0x5000 + 124, 0x20640000)] }, 31, _, .mpa,
        ⟨rfl, rfl⟩, by decide +kernel, rfl, wOpen (by decide +kernel), by unfold Blk.Keyed; decide +kernel,
        by decide +kernel, by decide +kernel⟩
  · exact ⟨wSt { wK with slots := [(31, { state := .passDamaged })], regs := [(0x5000 + 124, 0x20640000)] }, 31, _,
        .mpa, ⟨rfl, rfl⟩, by decide +kernel, rfl, wOpen (by decide +kernel), by unfold Blk.Keyed; decide +kernel,
        by decide +kernel, by decide +kernel, by decide +kernel⟩
  · exact ⟨wSt { wK with slots := [(31, { state := .passDamaged, vsns := true })], regs := [(0x5000 + 124, 0x20640000)] },
        31, _, .mpa, ⟨rfl, rfl⟩, by decide +kernel, rfl, wOpen (by decide +kernel), by unfold Blk.Keyed; decide +kernel,
        by decide +kernel, by decide +kernel, by decide +kernel⟩
  · exact ⟨wSt { wK with slots := [(31, { state := .held })], regs := [(0x5000 + 124, 0x20640000)] }, 31, _, .mpa, ⟨rfl,
        rfl⟩, by decide +kernel, rfl, wOpen (by decide +kernel), by unfold Blk.Keyed; decide +kernel, by decide +kernel,
        by decide +kernel, by decide +kernel, by decide +kernel⟩
  · exact ⟨wSt { wK with slots := [(31, { state := .held })], regs := [(0x5000 + 124, 0x20640000)] }, 31, _, .mpa, ⟨rfl,
        rfl⟩, by decide +kernel, rfl, wOpen (by decide +kernel), by unfold Blk.Keyed; decide +kernel, by decide +kernel,
        by decide +kernel⟩
  · exact ⟨wSt { wK with slots := [(31, { state := .ready })], regs := [(0x5000 + 124, 0x20640000)] }, 31, _, .mpa,
        ⟨rfl, rfl⟩, by decide +kernel, rfl, wOpen (by decide +kernel), by unfold Blk.Keyed; decide +kernel,
        by decide +kernel, by decide +kernel⟩
  · exact ⟨wSt { wK with slots := [(31, { state := .held })], regs := [(0x5000 + 124, 0x20640000)], clock := { refLost := true } },
        31, .mpa, ⟨rfl, rfl⟩, by decide +kernel, wOpen (by decide +kernel), by unfold Blk.Keyed; decide +kernel,
        by decide +kernel⟩
  · exact ⟨wSt (wT wB (.token 31) 64), 31, 0, 0, _, ⟨rfl, rfl⟩, by decide +kernel, rfl⟩

theorem test_ServiceOperationsRun :
    (∃ (s : State) (p : MPort) (m : Nat), s.Serves ∧ m < 18 ∧ s.core.Open p 0x11214 ∧ s.core.Keyed p ∧
          s.core.movp.svc.busy = false ∧
          ((s.core.mover m).state = MovState.retired ∨ (s.core.mover m).state = MovState.failed) ∧
          (tabGet { } s.core.power.doms (moverPd m)).ack = true)
    ∧ (∃ (s : State) (p : MPort) (m : Nat), s.Serves ∧ m < 18 ∧ s.core.Open p 0x11214 ∧ s.core.Keyed p ∧
          s.core.movp.svc.busy = false ∧
          ((s.core.mover m).state = MovState.retired ∨ (s.core.mover m).state = MovState.failed) ∧
          (tabGet { } s.core.power.doms (moverPd m)).ack = false)
    ∧ (∃ (s : State) (p : MPort) (m : Nat), s.Serves ∧ m < 18 ∧ s.core.Open p 0x11214 ∧ s.core.Keyed p ∧
          s.core.movp.svc.busy = false ∧ (s.core.mover m).state = MovState.off ∧
          bit s.core.img.ident.moverOff m = false)
    ∧ (∃ (s : State) (p : MPort) (m : Nat), s.Serves ∧ m < 18 ∧ s.core.Open p 0x11214 ∧ s.core.Keyed p ∧
          s.core.movp.svc.busy = false ∧
          ((s.core.mover m).state = MovState.active ∨ (s.core.mover m).state = MovState.spare))
    ∧ (∃ (s : State) (m : Nat) (f : Nat), s.Serves ∧ m < 18 ∧ (s.core.mover m).state = MovState.test ∧
          s.core.movp.svc.busy = true ∧ s.core.movp.svc.mover = m ∧ f ≠ 0)
    ∧ (∃ (s : State) (m : Nat), s.Serves ∧ m < 18 ∧ (s.core.mover m).state = MovState.test ∧
          s.core.movp.svc.busy = true ∧ s.core.movp.svc.mover = m ∧ (s.core.mover m).roleSpare = true ∧
          s.core.sup.applied ≠ 4)
    ∧ (∃ (s : State) (m : Nat), s.Serves ∧ m < 18 ∧ (s.core.mover m).state = MovState.test ∧
          s.core.movp.svc.busy = true ∧ s.core.movp.svc.mover = m ∧ (s.core.mover m).roleSpare = true ∧
          s.core.sup.applied = 4)
    ∧ (∃ (s : State) (m : Nat), s.Serves ∧ m < 18 ∧ (s.core.mover m).state = MovState.test ∧
          s.core.movp.svc.busy = true ∧ s.core.movp.svc.mover = m ∧ (s.core.mover m).roleSpare = false)
    ∧ (∃ (s : State) (p : MPort) (bankB : Bool), s.Serves ∧ s.core.Open p 0x13008 ∧ s.core.Keyed p ∧
          s.core.banks.busy = false ∧ ((if bankB = true then s.core.banks.bOut else s.core.banks.aOut) = true) ∧
          ((if bankB = true then s.core.banks.aOut else s.core.banks.bOut) = false))
    ∧ (∃ (s : State) (p : MPort) (bankB : Bool), s.Serves ∧ s.core.Open p 0x13008 ∧ s.core.Keyed p ∧
          s.core.banks.busy = false ∧ ((if bankB = true then s.core.banks.bOut else s.core.banks.aOut) = false))
    ∧ (∃ (s : State), s.Serves ∧ s.core.banks.busy = true ∧ s.core.banks.op ≠ 2)
    ∧ (∃ (s : State), s.Serves ∧ s.core.banks.busy = true ∧ s.core.banks.op = 2) := by
  refine ⟨?_, ?_, ?_, ?_, ?_, ?_, ?_, ?_, ?_, ?_, ?_, ?_⟩
  · exact ⟨wSt { wK with movers := [(17, { state := .failed })] }, .mpa, 17, ⟨rfl, rfl⟩, by decide +kernel,
        wOpen (by decide +kernel), by unfold Blk.Keyed; decide +kernel, by decide +kernel, by decide +kernel,
        by decide +kernel⟩
  · exact ⟨wSt { wK with movers := [(17, { state := .retired })], power := { doms := wOn.take 24 } }, .mpa, 17, ⟨rfl,
        rfl⟩, by decide +kernel, wOpen (by decide +kernel), by unfold Blk.Keyed; decide +kernel, by decide +kernel,
        by decide +kernel, by decide +kernel⟩
  · exact ⟨wSt { wK with movers := [(17, {  })] }, .mpa, 17, ⟨rfl, rfl⟩, by decide +kernel, wOpen (by decide +kernel),
        by unfold Blk.Keyed; decide +kernel, by decide +kernel, by decide +kernel, by decide +kernel⟩
  · exact ⟨wSt { wK with movers := [(17, { state := .active })] }, .mpa, 17, ⟨rfl, rfl⟩, by decide +kernel,
        wOpen (by decide +kernel), by unfold Blk.Keyed; decide +kernel, by decide +kernel, by decide +kernel⟩
  · exact ⟨wSt { wB with movers := [(17, { state := .test })], movp := { svc := { busy := true, mover := 17 } } }, 17,
        1, ⟨rfl, rfl⟩, by decide +kernel, by decide +kernel, by decide +kernel, by decide +kernel, by decide +kernel⟩
  · exact ⟨wSt { wB with movers := [(17, { state := .test, roleSpare := true })], movp := { svc := { busy := true, mover := 17 } } },
        17, ⟨rfl, rfl⟩, by decide +kernel, by decide +kernel, by decide +kernel, by decide +kernel, by decide +kernel,
        by decide +kernel⟩
  · exact ⟨wSt { wB with movers := [(17, { state := .test, roleSpare := true })], movp := { svc := { busy := true, mover := 17 } }, sup := { applied := 4 } },
        17, ⟨rfl, rfl⟩, by decide +kernel, by decide +kernel, by decide +kernel, by decide +kernel, by decide +kernel,
        by decide +kernel⟩
  · exact ⟨wSt { wB with movers := [(17, { state := .test })], movp := { svc := { busy := true, mover := 17 } } }, 17,
        ⟨rfl, rfl⟩, by decide +kernel, by decide +kernel, by decide +kernel, by decide +kernel, by decide +kernel⟩
  · exact ⟨wSt { wK with banks := { bOut := true } }, .mpa, true, ⟨rfl, rfl⟩, wOpen (by decide +kernel),
        by unfold Blk.Keyed; decide +kernel, by decide +kernel, by decide +kernel, by decide +kernel⟩
  · exact ⟨wSt wK, .mpa, false, ⟨rfl, rfl⟩, wOpen (by decide +kernel), by unfold Blk.Keyed; decide +kernel,
        by decide +kernel, by decide +kernel⟩
  · exact ⟨wSt { wB with banks := { busy := true, op := 1 } }, ⟨rfl, rfl⟩, by decide +kernel, by decide +kernel⟩
  · exact ⟨wSt { wB with banks := { busy := true, op := 2 } }, ⟨rfl, rfl⟩, by decide +kernel, by decide +kernel⟩

theorem test_PowerAsksAreAnswered :
    (∃ (s : State) (d : Nat), s.Serves ∧ 0 < d ∧ d < 26 ∧ s.core.on d = true ∧ s.core.mustStay d = true)
    ∧ (∃ (s : State) (d : Nat), s.Serves ∧ 0 < d ∧ d < 26 ∧ s.core.on d = true ∧ s.core.mustStay d = false ∧ d ≠ 5 ∧
          d ≠ 6 ∧ d ≠ 7)
    ∧ (∃ (s : State) (d : Nat), s.Serves ∧ 0 < d ∧ d < 26 ∧ s.core.on d = true ∧ s.core.mustStay d = false ∧
          (d = 5 ∨ d = 6))
    ∧ (∃ (s : State) (d : Nat), s.Serves ∧ 0 < d ∧ d < 26 ∧ s.core.on d = true ∧ s.core.mustStay d = false ∧ d = 7)
    ∧ (∃ (s : State) (d : Nat) (x : PowDom), s.Serves ∧ 0 < d ∧ d < 26 ∧ x = tabGet { } s.core.power.doms d ∧
          x.req = true ∧ x.ack = true)
    ∧ (∃ (s : State) (d : Nat) (x : PowDom), s.Serves ∧ 0 < d ∧ d < 26 ∧ x = tabGet { } s.core.power.doms d ∧
          x.req = false ∧ x.ack = true ∧ s.core.power.downs.head? = some d)
    ∧ (∃ (s : State) (d : Nat) (x : PowDom), s.Serves ∧ 0 < d ∧ d < 26 ∧ x = tabGet { } s.core.power.doms d ∧
          x.req = false ∧ x.ack = true ∧ s.core.power.downs.head? ≠ some d ∧ (d < 8 ∨ x.retAsk = true))
    ∧ (∃ (s : State) (d : Nat) (x : PowDom), s.Serves ∧ 0 < d ∧ d < 26 ∧ x = tabGet { } s.core.power.doms d ∧
          x.req = false ∧ x.ack = true ∧ s.core.power.downs.head? ≠ some d ∧ 8 ≤ d ∧ x.retAsk = false ∧
          (s.core.mover (d - 8)).state ≠ MovState.failed ∧ s.core.movp.svc.busy = false)
    ∧ (∃ (s : State) (d : Nat) (x : PowDom), s.Serves ∧ 0 < d ∧ d < 26 ∧ x = tabGet { } s.core.power.doms d ∧
          x.req = false ∧ x.ack = true ∧ s.core.power.downs.head? ≠ some d ∧ 8 ≤ d ∧ x.retAsk = false ∧ x.going = true ∧
          s.core.movp.svc.busy = true ∧ s.core.movp.svc.op = 2 ∧ s.core.movp.svc.mover = d - 8) := by
  refine ⟨?_, ?_, ?_, ?_, ?_, ?_, ?_, ?_, ?_⟩
  · exact ⟨wSt (wM (wQ .bound) (wBind [] [])), 1, ⟨rfl, rfl⟩, by decide +kernel, by decide +kernel, by decide +kernel,
        by decide +kernel⟩
  · exact ⟨wSt wB, 25, ⟨rfl, rfl⟩, by decide +kernel, by decide +kernel, by decide +kernel, by decide +kernel,
        by decide +kernel, by decide +kernel, by decide +kernel⟩
  · exact ⟨wSt { wB with banks := { aOut := true } }, 5, ⟨rfl, rfl⟩, by decide +kernel, by decide +kernel,
        by decide +kernel, by decide +kernel, by decide +kernel⟩
  · exact ⟨wSt wB, 7, ⟨rfl, rfl⟩, by decide +kernel, by decide +kernel, by decide +kernel, by decide +kernel, rfl⟩
  · exact ⟨wSt wB, 25, _, ⟨rfl, rfl⟩, by decide +kernel, by decide +kernel, rfl, by decide +kernel, by decide +kernel⟩
  · exact ⟨wSt { wB with power := { doms := [(25, { ack := true })], downs := [25] } }, 25, _, ⟨rfl, rfl⟩,
        by decide +kernel, by decide +kernel, rfl, by decide +kernel, by decide +kernel, by decide +kernel⟩
  · exact ⟨wSt { wB with power := { doms := [(25, { ack := true, retAsk := true })] } }, 25, _, ⟨rfl, rfl⟩,
        by decide +kernel, by decide +kernel, rfl, by decide +kernel, by decide +kernel, by decide +kernel,
        by decide +kernel⟩
  · exact ⟨wSt { wB with power := { doms := [(8, { ack := true })] } }, 8, _, ⟨rfl, rfl⟩, by decide +kernel,
        by decide +kernel, rfl, by decide +kernel, by decide +kernel, by decide +kernel, by decide +kernel,
        by decide +kernel, by decide +kernel, by decide +kernel⟩
  · exact ⟨wSt { wB with power := { doms := [(25, { ack := true, going := true })] }, movp := { svc := { busy := true, op := 2, mover := 17 } } },
        25, _, ⟨rfl, rfl⟩, by decide +kernel, by decide +kernel, rfl, by decide +kernel, by decide +kernel,
        by decide +kernel, by decide +kernel, by decide +kernel, by decide +kernel, by decide +kernel,
        by decide +kernel, by decide +kernel⟩

theorem test_BorageFollowsItsRules :
    (∃ (s : State) (c : Blk), s.Serves ∧ s.core.on 1 = true ∧ c = s.core.epochFigures s.core.epochStats ∧
          s.core.clock.refLost = false ∧ c.adapts = true)
    ∧ (∃ (s : State) (c : Blk) (f : Bool), s.Serves ∧ s.core.on 1 = true ∧ c = s.core.epochFigures s.core.epochStats ∧
          s.core.clock.refLost = false ∧ (c.adapts = false ∨ f = true))
    ∧ (∃ (s : State), s.Serves ∧ s.core.on 1 = true ∧ s.core.clock.refLost = true)
    ∧ (∃ (s : State) (p : MPort) (f : Bool), s.Serves ∧ s.core.on 1 = true ∧ s.core.Open p 0x14004 ∧ s.core.Keyed p ∧
          bit (s.core.reg 0x14004) 0 = f)
    ∧ (∃ (s : State) (p : MPort) (f : Bool), s.Serves ∧ s.core.on 1 = true ∧ s.core.Open p 0x14004 ∧ s.core.Keyed p ∧
          bit (s.core.reg 0x14004) 0 = !f)
    ∧ (∃ (s : State) (p : MPort), s.Serves ∧ s.core.on 1 = true ∧ s.core.Open p 0x14014 ∧
          bit (s.core.reg 0x14014) 31 = true)
    ∧ (∃ (s : State) (p : MPort) (w : Word) (c : Blk), s.Serves ∧ s.core.on 1 = true ∧ s.core.Open p 0x14014 ∧
          c = (s.core.selected p).setReg 0x14014 (ringCfgOf (BitVec.toNat w) false) ∧
          bit (s.core.reg 0x14014) 31 = false ∧ c.ringBad = true)
    ∧ (∃ (s : State) (p : MPort) (w : Word) (c : Blk), s.Serves ∧ s.core.on 1 = true ∧ s.core.Open p 0x14014 ∧
          c = (s.core.selected p).setReg 0x14014 (ringCfgOf (BitVec.toNat w) false) ∧
          bit (s.core.reg 0x14014) 31 = false ∧ c.ringBad = false)
    ∧ (∃ (s : State) (p : MPort) (w : Word), s.Serves ∧ s.core.on 1 = true ∧ s.core.Open p 0x14014 ∧
          bit (s.core.reg 0x14014) 31 = false ∧ (bits (BitVec.toNat w) 4 0 < 4 ∨ 16 < bits (BitVec.toNat w) 4 0))
    ∧ (∃ (s : State) (p : MPort) (w : Word), s.Serves ∧ s.core.on 1 = true ∧ s.core.Open p 0x14018 ∧
          bits (BitVec.toNat w) 15 0 < s.core.decSize ∧
          (s.core.returned (bits (BitVec.toNat w) 16 0)).fst ≤ (s.core.returned (bits (BitVec.toNat w) 16 0)).snd)
    ∧ (∃ (s : State) (p : MPort) (w : Word), s.Serves ∧ s.core.on 1 = true ∧ s.core.Open p 0x14018 ∧
          (s.core.decSize ≤ bits (BitVec.toNat w) 15 0 ∨ (s.core.returned (bits (BitVec.toNat w) 16 0)).snd < (s.core.returned (bits (BitVec.toNat w) 16 0)).fst)) := by
  refine ⟨?_, ?_, ?_, ?_, ?_, ?_, ?_, ?_, ?_, ?_, ?_⟩
  · exact ⟨wSt { wB with regs := [(0x14000, 0x80000000)] }, _, ⟨rfl, rfl⟩, by decide +kernel, rfl, by decide +kernel,
        by decide +kernel⟩
  · exact ⟨wSt { wB with regs := [(0x14004, 1)] }, _, false, ⟨rfl, rfl⟩, by decide +kernel, rfl, by decide +kernel,
        by decide +kernel⟩
  · exact ⟨wSt { wB with clock := { refLost := true } }, ⟨rfl, rfl⟩, by decide +kernel, by decide +kernel⟩
  · exact ⟨wSt wK, .mpa, false, ⟨rfl, rfl⟩, by decide +kernel, wOpen (by decide +kernel),
        by unfold Blk.Keyed; decide +kernel, by decide +kernel⟩
  · exact ⟨wSt wK, .mpa, true, ⟨rfl, rfl⟩, by decide +kernel, wOpen (by decide +kernel),
        by unfold Blk.Keyed; decide +kernel, by decide +kernel⟩
  · exact ⟨wSt { wB with regs := [(0x14014, 0x80000000)] }, .mpa, ⟨rfl, rfl⟩, by decide +kernel,
        wOpen (by decide +kernel), by decide +kernel⟩
  · exact ⟨wSt wB, .mpa, 3#32, _, ⟨rfl, rfl⟩, by decide +kernel, wOpen (by decide +kernel), rfl, by decide +kernel,
        by decide +kernel⟩
  · exact ⟨wSt wB, .mpa, 14#32, _, ⟨rfl, rfl⟩, by decide +kernel, wOpen (by decide +kernel), rfl, by decide +kernel,
        by decide +kernel⟩
  · exact ⟨wSt wB, .mpa, 17#32, ⟨rfl, rfl⟩, by decide +kernel, wOpen (by decide +kernel), by decide +kernel,
        by decide +kernel⟩
  · exact ⟨wSt { wB with regs := [(0x14014, 4)] }, .mpa, 0x10000#32, ⟨rfl, rfl⟩, by decide +kernel,
        wOpen (by decide +kernel), by decide +kernel, by decide +kernel⟩
  · exact ⟨wSt { wB with regs := [(0x14014, 4)] }, .mpa, 0xFFFF#32, ⟨rfl, rfl⟩, by decide +kernel,
        wOpen (by decide +kernel), by decide +kernel⟩

theorem test_MonitorsThrottleTheMovers :
    (∃ (s : State) (i : Nat) (c : Nat), s.Serves ∧ s.core.on 1 = true ∧ i < 4 ∧ s.core.tempOn i = true ∧
          (c = 0 ∨ c = 1023))
    ∧ (∃ (s : State) (i : Nat) (x : TempIn) (y : TempIn) (c : Nat), s.Serves ∧ s.core.on 1 = true ∧ i < 4 ∧
          s.core.tempOn i = true ∧ x = s.core.temp i ∧ c < 1024 ∧ c ≠ 0 ∧ c ≠ 1023 ∧
          y = x.sampled (s.core.reg (0x14020 + 4 * i)) c ∧ y.wants = x.wants)
    ∧ (∃ (s : State) (i : Nat) (x : TempIn) (y : TempIn) (c : Nat), s.Serves ∧ s.core.on 1 = true ∧ i < 4 ∧
          s.core.tempOn i = true ∧ x = s.core.temp i ∧ c < 1024 ∧ c ≠ 0 ∧ c ≠ 1023 ∧
          y = x.sampled (s.core.reg (0x14020 + 4 * i)) c ∧ y.wants ≠ x.wants)
    ∧ (∃ (s : State) (q : QRef) (m : Nat) (k : Nat) (x : Binding) (e : Exec), s.Serves ∧ s.core.on 1 = true ∧
          q.wf = true ∧ q.isCell = false ∧ 3 ≤ s.core.sup.applied ∧ s.core.regF 0x14044 15 0 ≠ 0 ∧
          heldAt s.core.sup.applied (s.core.svcOf q) = true ∧ s.core.boundAt q = some (m, k) ∧
          s.core.binding m k = some x ∧ (List.find? (fun e => !e.dead && !e.issuedAll) x.exec = some e))
    ∧ (∃ (s : State) (d : Nat) (n : Nat) (x : RoMon), s.Serves ∧ s.core.on 1 = true ∧ d < 26 ∧ n < 2 ^ 16 ∧
          s.core.on d = true ∧ x = s.core.mon d ∧ x.refSet = false ∧ n ≠ 0)
    ∧ (∃ (s : State) (d : Nat) (n : Nat) (x : RoMon) (thr : Nat), s.Serves ∧ s.core.on 1 = true ∧ d < 26 ∧ n < 2 ^ 16 ∧
          s.core.on d = true ∧ x = s.core.mon d ∧ thr = s.core.reg 0x14040 ∧ x.refSet = true ∧ x.high? thr n = false ∧
          x.low? thr n = false)
    ∧ (∃ (s : State) (d : Nat) (n : Nat) (x : RoMon) (thr : Nat), s.Serves ∧ s.core.on 1 = true ∧ d < 26 ∧ n < 2 ^ 16 ∧
          s.core.on d = true ∧ x = s.core.mon d ∧ thr = s.core.reg 0x14040 ∧ x.refSet = true ∧ x.high? thr n = false ∧
          x.low? thr n = true ∧ x.low = 1)
    ∧ (∃ (s : State) (d : Nat) (n : Nat) (x : RoMon), s.Serves ∧ s.core.on 1 = true ∧ d < 26 ∧ n < 2 ^ 16 ∧
          s.core.on d = true ∧ x = s.core.mon d ∧ x.refSet = true ∧ x.crit? n = false)
    ∧ (∃ (s : State) (d : Nat) (n : Nat) (x : RoMon), s.Serves ∧ s.core.on 1 = true ∧ d < 26 ∧ n < 2 ^ 16 ∧
          s.core.on d = true ∧ x = s.core.mon d ∧ x.refSet = true ∧ x.crit? n = true ∧ x.crit = 0)
    ∧ (∃ (s : State) (d : Nat) (n : Nat) (x : RoMon), s.Serves ∧ s.core.on 1 = true ∧ d < 26 ∧ n < 2 ^ 16 ∧
          s.core.on d = true ∧ x = s.core.mon d ∧ x.refSet = true ∧ x.crit? n = true ∧ x.crit = 1) := by
  refine ⟨?_, ?_, ?_, ?_, ?_, ?_, ?_, ?_, ?_, ?_⟩
  · exact ⟨wSt { wB with sup := { temps := [(0, {  })] }, regs := [(0x14020, 0x80000000)] }, 0, 1023, ⟨rfl, rfl⟩,
        by decide +kernel, by decide +kernel, by decide +kernel, by decide +kernel⟩
  · exact ⟨wSt { wB with sup := { temps := [(0, {  })] }, regs := [(0x14020, 0x800003FF)] }, 0, _, _, 1, ⟨rfl, rfl⟩,
        by decide +kernel, by decide +kernel, by decide +kernel, rfl, by decide +kernel, by decide +kernel,
        by decide +kernel, rfl, by decide +kernel⟩
  · exact ⟨wSt { wB with sup := { temps := [(0, { stale := true })] }, regs := [(0x14020, 0x80000000)] }, 0, _, _, 1022,
        ⟨rfl, rfl⟩, by decide +kernel, by decide +kernel, by decide +kernel, rfl, by decide +kernel, by decide +kernel,
        by decide +kernel, rfl, by decide +kernel⟩
  · exact ⟨wSt { wM (wQ .bound) (wBind [] [{ wExec kCopy .running with desc := { wDesc kCopy with len := 64 } }]) with sup := { applied := 3 }, regs := [(0x14044, 1)] },
        .dom 0, 0, 0, _, _, ⟨rfl, rfl⟩, by decide +kernel, by decide +kernel, by decide +kernel, by decide +kernel,
        by decide +kernel, by decide +kernel, by decide +kernel, rfl, rfl⟩
  · exact ⟨wSt wB, 25, 0xFFFF, _, ⟨rfl, rfl⟩, by decide +kernel, by decide +kernel, by decide +kernel,
        by decide +kernel, rfl, by decide +kernel, by decide +kernel⟩
  · exact ⟨wSt { wB with sup := { mons := [(25, { refSet := true, ref := 1000 })] }, regs := [] }, 25, 1000, _, _, ⟨rfl,
        rfl⟩, by decide +kernel, by decide +kernel, by decide +kernel, by decide +kernel, rfl, rfl, by decide +kernel,
        by decide +kernel, by decide +kernel⟩
  · exact ⟨wSt { wB with sup := { mons := [(25, { refSet := true, ref := 1000, low := 1 })] }, regs := [(0x14040, 0x10)] },
        25, 10, _, _, ⟨rfl, rfl⟩, by decide +kernel, by decide +kernel, by decide +kernel, by decide +kernel, rfl, rfl,
        by decide +kernel, by decide +kernel, by decide +kernel, by decide +kernel⟩
  · exact ⟨wSt { wB with sup := { mons := [(25, { refSet := true, ref := 1000, critKHz := 1000000 })] }, regs := [] },
        25, 0xFFFF, _, ⟨rfl, rfl⟩, by decide +kernel, by decide +kernel, by decide +kernel, by decide +kernel, rfl,
        by decide +kernel, by decide +kernel⟩
  · exact ⟨wSt { wB with sup := { mons := [(25, { refSet := true, ref := 1000, critKHz := 1 })] }, regs := [] }, 25, 1,
        _, ⟨rfl, rfl⟩, by decide +kernel, by decide +kernel, by decide +kernel, by decide +kernel, rfl,
        by decide +kernel, by decide +kernel, by decide +kernel⟩
  · exact ⟨wSt { wB with sup := { mons := [(25, { refSet := true, ref := 1000, critKHz := 1, crit := 1 })] }, regs := [] },
        25, 1, _, ⟨rfl, rfl⟩, by decide +kernel, by decide +kernel, by decide +kernel, by decide +kernel, rfl,
        by decide +kernel, by decide +kernel, by decide +kernel⟩

theorem test_InboundPacketsFollowTheApertures :
    (∃ (s : State) (p : Nat) (k : InPkt), s.Serves ∧ p < 8 ∧ k.wf = true ∧ s.core.inbLive p = false)
    ∧ (∃ (s : State) (p : Nat) (k : InPkt), s.Serves ∧ p < 8 ∧ k.wf = true ∧ s.core.inbLive p = true ∧
          s.core.noCredit p k = true)
    ∧ (∃ (s : State) (p : Nat) (k : InPkt), s.Serves ∧ p < 8 ∧ k.wf = true ∧ s.core.inbLive p = true ∧
          s.core.noCredit p k = false ∧ ((s.core.port p).inbWait ≠ [] ∨ s.core.inbHeld p k = true))
    ∧ (∃ (s : State) (p : Nat) (k : InPkt), s.Serves ∧ p < 8 ∧ k.wf = true ∧ s.core.inbLive p = true ∧
          s.core.noCredit p k = false ∧ (s.core.port p).inbWait = [] ∧ s.core.inbHeld p k = false ∧
          (k.badHeader = true ∨ (k.isWrite && k.poison) = true))
    ∧ (∃ (s : State) (p : Nat) (k : InPkt), s.Serves ∧ p < 8 ∧ k.wf = true ∧ s.core.Takes p k ∧ k.isWrite = true ∧
          k.relay = false ∧ k.addr < 0x200000 ∧ k.addr % 8 = 0)
    ∧ (∃ (s : State) (p : Nat) (k : InPkt), s.Serves ∧ p < 8 ∧ k.wf = true ∧ s.core.Takes p k ∧ k.isWrite = true ∧
          k.relay = false ∧ 0x200000 ≤ k.addr ∧ k.addr < 0x200200 ∧ k.addr % 8 = 0)
    ∧ (∃ (s : State) (p : Nat) (k : InPkt), s.Serves ∧ p < 8 ∧ k.wf = true ∧ s.core.Takes p k ∧ k.isWrite = true ∧
          k.relay = false ∧ 0x200800 ≤ k.addr ∧ k.addr < 0x201000 ∧ k.addr % 8 = 0)
    ∧ (∃ (s : State) (p : Nat) (k : InPkt), s.Serves ∧ p < 8 ∧ k.wf = true ∧ s.core.Takes p k ∧ k.isWrite = true ∧
          k.relay = false ∧ 0x201000 ≤ k.addr ∧ k.addr < 0x201800 ∧ k.addr % 8 = 0)
    ∧ (∃ (s : State) (p : Nat) (k : InPkt), s.Serves ∧ p < 8 ∧ k.wf = true ∧ s.core.Takes p k ∧ k.isWrite = true ∧
          k.relay = false ∧ 0x201800 ≤ k.addr ∧ k.addr < 0x202000 ∧ k.addr % 8 = 0)
    ∧ (∃ (s : State) (p : Nat) (k : InPkt), s.Serves ∧ p < 8 ∧ k.wf = true ∧ s.core.Takes p k ∧ k.isWrite = true ∧
          k.relay = false ∧ 0x202000 ≤ k.addr ∧ k.addr < 0x206000 ∧ k.addr % 4 = 0)
    ∧ (∃ (s : State) (p : Nat) (k : InPkt), s.Serves ∧ p < 8 ∧ k.wf = true ∧ s.core.Takes p k ∧ k.isWrite = true ∧
          k.relay = false ∧ k.addr = 0x206000 ∧ k.len = 4)
    ∧ (∃ (s : State) (p : Nat) (k : InPkt), s.Serves ∧ p < 8 ∧ k.wf = true ∧ s.core.Takes p k ∧ k.isWrite = true ∧
          k.relay = false ∧ (0x200200 ≤ k.addr ∧ k.addr < 0x200800 ∨ 0x206004 ≤ k.addr ∧
          k.addr < 0x400000 ∨ 0x800000 ≤ k.addr))
    ∧ (∃ (s : State) (p : Nat) (k : InPkt), s.Serves ∧ p < 8 ∧ k.wf = true ∧ s.core.Takes p k ∧ k.isWrite = false ∧
          inTunnel k.addr = false)
    ∧ (∃ (s : State) (p : Nat) (k : InPkt), s.Serves ∧ p < 8 ∧ k.wf = true ∧ s.core.Takes p k ∧ inTunnel k.addr = true ∧
          k.relay = false ∧ s.core.tunnelTakes p k = true)
    ∧ (∃ (s : State) (p : Nat) (k : InPkt), s.Serves ∧ p < 8 ∧ k.wf = true ∧ s.core.Takes p k ∧ inTunnel k.addr = true ∧
          k.relay = false ∧ s.core.tunnelTakes p k = false ∧ k.isWrite = true)
    ∧ (∃ (s : State) (p : Nat) (k : InPkt), s.Serves ∧ p < 8 ∧ k.wf = true ∧ s.core.Takes p k ∧ inTunnel k.addr = true ∧
          k.relay = false ∧ s.core.tunnelTakes p k = false ∧ k.isWrite = false) := by
  refine ⟨?_, ?_, ?_, ?_, ?_, ?_, ?_, ?_, ?_, ?_, ?_, ?_, ?_, ?_, ?_, ?_⟩
  · exact ⟨wSt { wB with ports := [] }, 7, wIn true 0, ⟨rfl, rfl⟩, by decide +kernel, by decide +kernel,
        by decide +kernel⟩
  · exact ⟨wSt wB, 7, { wIn true 0 with noCredit := true }, ⟨rfl, rfl⟩, by decide +kernel, by decide +kernel,
        by decide +kernel, by decide +kernel⟩
  · exact ⟨wSt { wB with ports := [(7, { up := true, inbWait := [wIn true 0] })] }, 7, wIn true 0, ⟨rfl, rfl⟩,
        by decide +kernel, by decide +kernel, by decide +kernel, by decide +kernel, by decide +kernel⟩
  · exact ⟨wSt wB, 7, { wIn true 0 with poison := true }, ⟨rfl, rfl⟩, by decide +kernel, by decide +kernel,
        by decide +kernel, by decide +kernel, by decide +kernel, by decide +kernel, by decide +kernel⟩
  · exact ⟨wSt wB, 7, wIn true 0x1FFFF8, ⟨rfl, rfl⟩, by decide +kernel, by decide +kernel, ⟨by decide +kernel,
        by decide +kernel, by decide +kernel, by decide +kernel, by decide +kernel, by decide +kernel⟩,
        by decide +kernel, by decide +kernel, by decide +kernel, by decide +kernel⟩
  · exact ⟨wSt wB, 7, wIn true 0x2001F8, ⟨rfl, rfl⟩, by decide +kernel, by decide +kernel, ⟨by decide +kernel,
        by decide +kernel, by decide +kernel, by decide +kernel, by decide +kernel, by decide +kernel⟩,
        by decide +kernel, by decide +kernel, by decide +kernel, by decide +kernel, by decide +kernel⟩
  · exact ⟨wSt wB, 7, wIn true 0x200FF8, ⟨rfl, rfl⟩, by decide +kernel, by decide +kernel, ⟨by decide +kernel,
        by decide +kernel, by decide +kernel, by decide +kernel, by decide +kernel, by decide +kernel⟩,
        by decide +kernel, by decide +kernel, by decide +kernel, by decide +kernel, by decide +kernel⟩
  · exact ⟨wSt wB, 7, wIn true 0x2017F8, ⟨rfl, rfl⟩, by decide +kernel, by decide +kernel, ⟨by decide +kernel,
        by decide +kernel, by decide +kernel, by decide +kernel, by decide +kernel, by decide +kernel⟩,
        by decide +kernel, by decide +kernel, by decide +kernel, by decide +kernel, by decide +kernel⟩
  · exact ⟨wSt wB, 7, wIn true 0x201FF8, ⟨rfl, rfl⟩, by decide +kernel, by decide +kernel, ⟨by decide +kernel,
        by decide +kernel, by decide +kernel, by decide +kernel, by decide +kernel, by decide +kernel⟩,
        by decide +kernel, by decide +kernel, by decide +kernel, by decide +kernel, by decide +kernel⟩
  · exact ⟨wSt wB, 7, wIn true 0x205FFC, ⟨rfl, rfl⟩, by decide +kernel, by decide +kernel, ⟨by decide +kernel,
        by decide +kernel, by decide +kernel, by decide +kernel, by decide +kernel, by decide +kernel⟩,
        by decide +kernel, by decide +kernel, by decide +kernel, by decide +kernel, by decide +kernel⟩
  · exact ⟨wSt wB, 7, wIn true 0x206000, ⟨rfl, rfl⟩, by decide +kernel, by decide +kernel, ⟨by decide +kernel,
        by decide +kernel, by decide +kernel, by decide +kernel, by decide +kernel, by decide +kernel⟩,
        by decide +kernel, by decide +kernel, by decide +kernel, by decide +kernel⟩
  · exact ⟨wSt wB, 7, wIn true 0x206004, ⟨rfl, rfl⟩, by decide +kernel, by decide +kernel, ⟨by decide +kernel,
        by decide +kernel, by decide +kernel, by decide +kernel, by decide +kernel, by decide +kernel⟩,
        by decide +kernel, by decide +kernel, by decide +kernel⟩
  · exact ⟨wSt wB, 7, wIn false 0x3FFFFF, ⟨rfl, rfl⟩, by decide +kernel, by decide +kernel, ⟨by decide +kernel,
        by decide +kernel, by decide +kernel, by decide +kernel, by decide +kernel, by decide +kernel⟩,
        by decide +kernel, by decide +kernel⟩
  · exact ⟨wSt wB, 7, { wIn true 0x400000 with data := leBytes 4 0 }, ⟨rfl, rfl⟩, by decide +kernel, by decide +kernel,
        ⟨by decide +kernel, by decide +kernel, by decide +kernel, by decide +kernel, by decide +kernel,
        by decide +kernel⟩, by decide +kernel, by decide +kernel, by decide +kernel⟩
  · exact ⟨wSt wB, 7, wIn true 0x7FFFFF, ⟨rfl, rfl⟩, by decide +kernel, by decide +kernel, ⟨by decide +kernel,
        by decide +kernel, by decide +kernel, by decide +kernel, by decide +kernel, by decide +kernel⟩,
        by decide +kernel, by decide +kernel, by decide +kernel, by decide +kernel⟩
  · exact ⟨wSt wB, 7, wIn false 0x600000, ⟨rfl, rfl⟩, by decide +kernel, by decide +kernel, ⟨by decide +kernel,
        by decide +kernel, by decide +kernel, by decide +kernel, by decide +kernel, by decide +kernel⟩,
        by decide +kernel, by decide +kernel, by decide +kernel, by decide +kernel⟩

theorem test_RelaysReachTheirRings :
    (∃ (s : State) (p : Nat) (k : InPkt), s.Serves ∧ p < 8 ∧ k.wf = true ∧ s.core.Takes p k ∧ k.isWrite = true ∧
          k.relay = true ∧ relayPlaced k = false)
    ∧ (∃ (s : State) (p : Nat) (k : InPkt) (q : QRef), s.Serves ∧ p < 8 ∧ k.wf = true ∧ s.core.Takes p k ∧
          k.isWrite = true ∧ k.relay = true ∧
          (q = if k.relayCell = true then QRef.cell k.relayQid else QRef.dom k.relayQid) ∧ relayPlaced k = true ∧
          (k.relayInst ≠ s.core.img.ident.inst ∨ s.core.exists? q = false ∨ k.dom ≠ (s.core.queue q).cfg.dom ∨ (s.core.queue q).run.phase ∈ [QPhase.stopped, QPhase.halted, QPhase.lost, QPhase.destroying]))
    ∧ (∃ (s : State) (p : Nat) (k : InPkt) (q : QRef), s.Serves ∧ p < 8 ∧ k.wf = true ∧ s.core.Takes p k ∧
          k.isWrite = true ∧ k.relay = true ∧
          (q = if k.relayCell = true then QRef.cell k.relayQid else QRef.dom k.relayQid) ∧ relayPlaced k = true ∧
          k.relayInst = s.core.img.ident.inst ∧ s.core.exists? q = true ∧ k.dom = (s.core.queue q).cfg.dom ∧
          ¬(s.core.queue q).run.phase ∈ [QPhase.stopped, QPhase.halted, QPhase.lost, QPhase.destroying])
    ∧ (∃ (s : State) (p : Nat), s.Serves ∧ p < 8 ∧ s.core.relayTurn p = none)
    ∧ (∃ (s : State) (p : Nat) (r : Relay) (x : Queue), s.Serves ∧ p < 8 ∧ s.core.relayTurn p = some r ∧
          x = s.core.queue r.q ∧ (x.run.phase = QPhase.free ∨ x.run.phase = QPhase.destroying))
    ∧ (∃ (s : State) (p : Nat) (r : Relay) (x : Queue), s.Serves ∧ p < 8 ∧ s.core.relayTurn p = some r ∧
          x = s.core.queue r.q ∧ x.run.phase = QPhase.spilled)
    ∧ (∃ (s : State) (p : Nat) (r : Relay) (x : Queue), s.Serves ∧ p < 8 ∧ s.core.relayTurn p = some r ∧
          x = s.core.queue r.q ∧
          x.run.phase ∈ [QPhase.idle, QPhase.bound, QPhase.stopping, QPhase.stopped, QPhase.halted, QPhase.lost] ∧
          x.relayRoom = false ∧ r.waited = false)
    ∧ (∃ (s : State) (p : Nat) (r : Relay) (x : Queue), s.Serves ∧ p < 8 ∧ s.core.relayTurn p = some r ∧
          x = s.core.queue r.q ∧
          x.run.phase ∈ [QPhase.idle, QPhase.bound, QPhase.stopping, QPhase.stopped, QPhase.halted, QPhase.lost] ∧
          x.relayRoom = false ∧ r.waited = true)
    ∧ (∃ (s : State) (p : Nat) (r : Relay) (x : Queue), s.Serves ∧ p < 8 ∧ s.core.relayTurn p = some r ∧
          x = s.core.queue r.q ∧
          x.run.phase ∈ [QPhase.idle, QPhase.bound, QPhase.stopping, QPhase.stopped, QPhase.halted, QPhase.lost] ∧
          x.relayRoom = true) := by
  refine ⟨?_, ?_, ?_, ?_, ?_, ?_, ?_, ?_, ?_⟩
  · exact ⟨wSt wB, 7, { wIn true 0 with relay := true, relayInst := 0, len := 64, data := leBytes 64 0 }, ⟨rfl, rfl⟩,
        by decide +kernel, by decide +kernel, ⟨by decide +kernel, by decide +kernel, by decide +kernel,
        by decide +kernel, by decide +kernel, by decide +kernel⟩, by decide +kernel, by decide +kernel,
        by decide +kernel⟩
  · exact ⟨wSt wB, 7, { wIn true 0x800000 with relay := true, relayInst := 63, len := 64, data := leBytes 64 0 }, _,
        ⟨rfl, rfl⟩, by decide +kernel, by decide +kernel, ⟨by decide +kernel, by decide +kernel, by decide +kernel,
        by decide +kernel, by decide +kernel, by decide +kernel⟩, by decide +kernel, by decide +kernel, rfl,
        by decide +kernel, by decide +kernel⟩
  · exact ⟨wSt (wQB (wQ .idle)), 7,
        { wIn true 0x800000 with relay := true, relayInst := 0, len := 64, data := leBytes 64 0 }, _, ⟨rfl, rfl⟩,
        by decide +kernel, by decide +kernel, ⟨by decide +kernel, by decide +kernel, by decide +kernel,
        by decide +kernel, by decide +kernel, by decide +kernel⟩, by decide +kernel, by decide +kernel, rfl,
        by decide +kernel, by decide +kernel, by decide +kernel, by decide +kernel, by decide +kernel⟩
  · exact ⟨wSt wB, 7, ⟨rfl, rfl⟩, by decide +kernel, by decide +kernel⟩
  · exact ⟨wSt { wQB { run := { phase := .destroying } } with ports := [(7, { up := true, relays := [⟨.dom 0, leBytes 64 0, 0, false, false⟩] })] },
        7, _, _, ⟨rfl, rfl⟩, by decide +kernel, rfl, rfl, by decide +kernel⟩
  · exact ⟨wSt { wQB { run := { phase := .spilled } } with ports := [(7, { up := true, relays := [⟨.dom 0, leBytes 64 0, 0, false, false⟩] })] },
        7, _, _, ⟨rfl, rfl⟩, by decide +kernel, rfl, rfl, by decide +kernel⟩
  · exact ⟨wSt { wQB { run := { phase := .idle, rtail := 16 } } with ports := [(7, { up := true, relays := [⟨.dom 0, leBytes 64 0, 0, false, false⟩] })] },
        7, _, _, ⟨rfl, rfl⟩, by decide +kernel, rfl, rfl, by decide +kernel, by decide +kernel, by decide +kernel⟩
  · exact ⟨wSt { wQB { run := { phase := .lost, rtail := 16 } } with ports := [(7, { up := true, relays := [⟨.dom 0, leBytes 64 0, 0, true, false⟩] })] },
        7, _, _, ⟨rfl, rfl⟩, by decide +kernel, rfl, rfl, by decide +kernel, by decide +kernel, by decide +kernel⟩
  · exact ⟨wSt { wQB { run := { phase := .idle } } with ports := [(7, { up := true, relays := [⟨.dom 0, leBytes 64 0, 0, false, false⟩] })] },
        7, _, _, ⟨rfl, rfl⟩, by decide +kernel, rfl, rfl, by decide +kernel, by decide +kernel⟩

theorem test_EntriesStart :
    (∃ (s : State) (m : Nat) (k : Nat), s.Serves ∧ m < 18 ∧ k < 64 ∧ s.core.binding m k = none)
    ∧ (∃ (s : State) (m : Nat) (k : Nat) (x : Binding), s.Serves ∧ m < 18 ∧ k < 64 ∧ s.core.binding m k = some x ∧
          (x.lbuf = [] ∨ 2 ≤ x.exec.length ∨ x.shadow = true))
    ∧ (∃ (s : State) (m : Nat) (k : Nat) (x : Binding) (l : LEntry), s.Serves ∧ m < 18 ∧ k < 64 ∧
          s.core.Stages m k x l ∧ l.win = none)
    ∧ (∃ (s : State) (m : Nat) (k : Nat) (x : Binding) (l : LEntry) (w : Window), s.Serves ∧ m < 18 ∧ k < 64 ∧
          s.core.Stages m k x l ∧ l.win = some w ∧ s.core.goesOn x l = true)
    ∧ (∃ (s : State) (m : Nat) (k : Nat) (x : Binding) (l : LEntry) (w : Window), s.Serves ∧ m < 18 ∧ k < 64 ∧
          s.core.Stages m k x l ∧ l.win = some w ∧ s.core.goesOn x l = false ∧ (s.core.pu w.unit).state ≠ PuState.off)
    ∧ (∃ (s : State) (m : Nat) (k : Nat) (x : Binding) (l : LEntry) (w : Window), s.Serves ∧ m < 18 ∧ k < 64 ∧
          s.core.Stages m k x l ∧ l.win = some w ∧ s.core.goesOn x l = false ∧
          (s.core.pu w.unit).state = PuState.off) := by
  refine ⟨?_, ?_, ?_, ?_, ?_, ?_⟩
  · exact ⟨wSt wB, 17, 63, ⟨rfl, rfl⟩, by decide +kernel, by decide +kernel, by decide +kernel⟩
  · exact ⟨wSt (wM (wQ .bound) (wBind [] [])), 0, 0, _, ⟨rfl, rfl⟩, by decide +kernel, by decide +kernel, rfl,
        by decide +kernel⟩
  · exact ⟨wSt { wM { run := { phase := .bound } } (wBind [wLE kNop (none)] []) with pus := [(1, {})] }, 0, 0, _, _,
        ⟨rfl, rfl⟩, by decide +kernel, by decide +kernel, ⟨rfl, by decide +kernel, by decide +kernel, by decide +kernel,
        .inl rfl, by decide +kernel, by decide +kernel, rfl⟩, by decide +kernel⟩
  · exact ⟨wSt { wM { run := { phase := .bound, pauseMark := true } } (wBind [wLE kNop (some wWin)] []) with pus := [(1, {})] },
        0, 0, _, _, _, ⟨rfl, rfl⟩, by decide +kernel, by decide +kernel, ⟨rfl, by decide +kernel, by decide +kernel,
        by decide +kernel, .inl rfl, by decide +kernel, by decide +kernel, rfl⟩, rfl, by decide +kernel⟩
  · exact ⟨wSt { wM (wQ .bound) (wBind [wLE kNop (some wWin)] []) with pus := [(0, { state := .locked })] }, 0, 0, _, _,
        _, ⟨rfl, rfl⟩, by decide +kernel, by decide +kernel, ⟨rfl, by decide +kernel, by decide +kernel,
        by decide +kernel, .inl rfl, by decide +kernel, by decide +kernel, rfl⟩, rfl, by decide +kernel,
        by decide +kernel⟩
  · exact ⟨wSt { wM { run := { phase := .bound } } (wBind [wLE kNop (some wWin)] []) with pus := [(1, {})] }, 0, 0, _,
        _, _, ⟨rfl, rfl⟩, by decide +kernel, by decide +kernel, ⟨rfl, by decide +kernel, by decide +kernel,
        by decide +kernel, .inl rfl, by decide +kernel, by decide +kernel, rfl⟩, rfl, by decide +kernel,
        by decide +kernel⟩

theorem test_SquareHalvesAndRestarts :
    (∃ (s : State) (h : Nat), s.Serves ∧ h < 2 ∧ s.core.halfFailed.contains h = true)
    ∧ (∃ (s : State) (h : Nat), s.Serves ∧ h < 2 ∧ s.core.halfFailed.contains h = false)
    ∧ (∃ (s : State) (h : Nat) (mapped : List Nat), s.Serves ∧ h < 2 ∧ (∀ (y : Nat), y ∈ mapped → y < 16384) ∧
          (s.core.on (3 + h) = false ∨ s.core.halfTest.contains h = false))
    ∧ (∃ (s : State) (h : Nat) (mapped : List Nat) (i : Nat), s.Serves ∧ h < 2 ∧ (∀ (y : Nat), y ∈ mapped → y < 16384) ∧
          s.core.on (3 + h) = true ∧ s.core.halfTest.contains h = true ∧ i < 4)
    ∧ (∃ (s : State) (h : Nat) (mapped : List Nat) (j : Nat), s.Serves ∧ h < 2 ∧ (∀ (y : Nat), y ∈ mapped → y < 16384) ∧
          s.core.on (3 + h) = true ∧ s.core.halfTest.contains h = true ∧ (∀ (i : Nat), i < 4 → j ≠ 4 * h + i))
    ∧ (∃ (s : State) (h : Nat) (p : MPort) (u : Nat) (b : Blk), s.Serves ∧ h < 2 ∧ u < 16 ∧
          (s.core.side p).outstanding.length < 4 ∧ s.core.semDenied p 13 = false ∧ s.core.on 1 = true ∧
          b = (s.core.selected p).toShadow p (0xD000 + 64 * u) (((s.core.selected p).shadowOld (0xD000 + 64 * u)).lor 4096) 3895 ∧
          (b.pu u).state = PuState.off)
    ∧ (∃ (s : State) (h : Nat) (p : MPort) (u : Nat) (b : Blk), s.Serves ∧ h < 2 ∧ u < 16 ∧
          (s.core.side p).outstanding.length < 4 ∧ s.core.semDenied p 13 = false ∧ s.core.on 1 = true ∧
          b = (s.core.selected p).toShadow p (0xD000 + 64 * u) (((s.core.selected p).shadowOld (0xD000 + 64 * u)).lor 4096) 3895 ∧
          (b.pu u).state ≠ PuState.off) := by
  refine ⟨?_, ?_, ?_, ?_, ?_, ?_, ?_⟩
  · exact ⟨wSt { wB with halfFailed := [1] }, 1, ⟨rfl, rfl⟩, by decide +kernel, by decide +kernel⟩
  · exact ⟨wSt wB, 1, ⟨rfl, rfl⟩, by decide +kernel, by decide +kernel⟩
  · exact ⟨wSt wB, 1, [16383], ⟨rfl, rfl⟩, by decide +kernel, by decide +kernel, by decide +kernel⟩
  · exact ⟨wSt { wB with halfTest := [1] }, 1, [16383], 3, ⟨rfl, rfl⟩, by decide +kernel, by decide +kernel,
        by decide +kernel, by decide +kernel, by decide +kernel⟩
  · exact ⟨wSt { wB with halfTest := [1] }, 1, [], 3, ⟨rfl, rfl⟩, by decide +kernel, by decide +kernel,
        by decide +kernel, by decide +kernel, by decide +kernel⟩
  · exact ⟨wSt wB, 0, .mpa, 15, _, ⟨rfl, rfl⟩, by decide +kernel, by decide +kernel, by decide +kernel,
        by decide +kernel, by decide +kernel, rfl, by decide +kernel⟩
  · exact ⟨wSt { wB with pus := [(15, { state := .lost })] }, 0, .mpa, 15, _, ⟨rfl, rfl⟩, by decide +kernel,
        by decide +kernel, by decide +kernel, by decide +kernel, by decide +kernel, rfl, by decide +kernel⟩

theorem test_GuardedPagesWithoutARegister :
    (∃ (s : State) (p : MPort) (a : Nat) (be : Nat) (x : Access), s.Serves ∧ a < 0x6000 ∧ be < 256 ∧
          (s.core.side p).outstanding.length < 4 ∧ x = { port := p, addr := a, be := be, write := false, wdata := 0 } ∧
          x.aligned = true ∧ (∀ (h : Nat × Nat), h ∈ x.halves → regFields h.fst = none))
    ∧ (∃ (s : State) (p : MPort) (a : Nat) (be : Nat) (w : BitVec 64) (x : Access), s.Serves ∧ a < 0x6000 ∧ be < 256 ∧
          (s.core.side p).outstanding.length < 4 ∧
          x = { port := p, addr := a, be := be, write := true, wdata := w.toNat } ∧ x.aligned = true ∧
          (∀ (h : Nat × Nat), h ∈ x.halves → regFields h.fst = none) ∧ s.core.semDenied p (a / 4096) = false) := by
  refine ⟨?_, ?_⟩
  · exact ⟨wSt wB, .mpa, 0x5FF8, 0xFF, _, ⟨rfl, rfl⟩, by decide +kernel, by decide +kernel, by decide +kernel, rfl,
        by decide +kernel, by decide +kernel⟩
  · exact ⟨wSt wB, .mpa, 0x5FF8, 0xFF, 0#64, _, ⟨rfl, rfl⟩, by decide +kernel, by decide +kernel, by decide +kernel,
        rfl, by decide +kernel, by decide +kernel, by decide +kernel⟩

theorem test_UnallocatedPagesAreRefused :
    (∃ (n : Nat), n < 256)
    ∧ (∃ (s : State) (p : MPort) (a : Nat) (be : Nat) (w : BitVec 64) (x : Access), s.Serves ∧ a < 2 ^ 20 ∧ be < 256 ∧
          pageCode (a / 4096) = 14 ∧ (s.core.side p).outstanding.length < 4 ∧
          x = { port := p, addr := a, be := be, write := true, wdata := w.toNat } ∧ x.aligned = true)
    ∧ (∃ (s : State) (p : MPort) (a : Nat) (be : Nat) (x : Access), s.Serves ∧ a < 2 ^ 20 ∧ be < 256 ∧
          pageCode (a / 4096) = 14 ∧ (s.core.side p).outstanding.length < 4 ∧
          x = { port := p, addr := a, be := be, write := false, wdata := 0 } ∧ x.aligned = true) := by
  refine ⟨?_, ?_, ?_⟩
  · exact ⟨255, by decide +kernel⟩
  · exact ⟨wSt wB, .mpa, 0xFFFFF, 0x80, 0#64, _, ⟨rfl, rfl⟩, by decide +kernel, by decide +kernel, by decide +kernel,
        by decide +kernel, rfl, by decide +kernel⟩
  · exact ⟨wSt wB, .mpa, 0xFFFFF, 0xFF, _, ⟨rfl, rfl⟩, by decide +kernel, by decide +kernel, by decide +kernel,
        by decide +kernel, rfl, by decide +kernel⟩

theorem test_ContestsAlternate :
    (∃ (s : State) (p : MPort) (q : MPort) (n : Nat), s.Serves ∧ q ≠ p ∧ n < 64 ∧ s.core.Open p (0x1100 + 4 * n) ∧
          s.core.Open q (0x1100 + 4 * n) ∧ s.core.semOwner n = none ∧ s.core.mg.lastLoser = p)
    ∧ (∃ (s : State) (p : MPort) (q : MPort) (n : Nat), s.Serves ∧ q ≠ p ∧ n < 64 ∧ s.core.Open p (0x1100 + 4 * n) ∧
          s.core.Open q (0x1100 + 4 * n) ∧ s.core.semOwner n = none ∧ s.core.mg.lastLoser = q)
    ∧ (∃ (s : State) (p : MPort) (q : MPort) (won : MPort →
          Blk) (a : Nat) (be : Nat) (w : BitVec 64) (r : Rival) (x : Access), s.Serves ∧ q ≠ p ∧
          (won = fun l => { s.core with mg := { s.core.mg with lastLoser := l } }) ∧ a < 2 ^ 20 ∧ be < 256 ∧
          r.addr < 2 ^ 20 ∧ r.be < 256 ∧ x = { port := p, addr := a, be := be, write := true, wdata := w.toNat } ∧
          s.core.mg.lastLoser = p ∧ (won q).split x = false)
    ∧ (∃ (s : State) (p : MPort) (q : MPort) (won : MPort →
          Blk) (a : Nat) (be : Nat) (w : BitVec 64) (r : Rival) (x : Access), s.Serves ∧ q ≠ p ∧
          (won = fun l => { s.core with mg := { s.core.mg with lastLoser := l } }) ∧ a < 2 ^ 20 ∧ be < 256 ∧
          r.addr < 2 ^ 20 ∧ r.be < 256 ∧ x = { port := p, addr := a, be := be, write := true, wdata := w.toNat } ∧
          s.core.mg.lastLoser = p ∧ (won q).split x = true)
    ∧ (∃ (s : State) (p : MPort) (q : MPort) (won : MPort → Blk) (a : Nat) (be : Nat) (r : Rival) (y : Access),
          s.Serves ∧ q ≠ p ∧ (won = fun l => { s.core with mg := { s.core.mg with lastLoser := l } }) ∧ a < 2 ^ 20 ∧
          be < 256 ∧ r.addr < 2 ^ 20 ∧ r.be < 256 ∧
          y = { port := q, addr := r.addr, be := r.be, write := r.write, wdata := r.wdata.toNat } ∧
          s.core.mg.lastLoser = q ∧ (won p).split y = false)
    ∧ (∃ (s : State) (p : MPort) (q : MPort) (won : MPort → Blk) (a : Nat) (be : Nat) (r : Rival) (y : Access),
          s.Serves ∧ q ≠ p ∧ (won = fun l => { s.core with mg := { s.core.mg with lastLoser := l } }) ∧ a < 2 ^ 20 ∧
          be < 256 ∧ r.addr < 2 ^ 20 ∧ r.be < 256 ∧
          y = { port := q, addr := r.addr, be := r.be, write := r.write, wdata := r.wdata.toNat } ∧
          s.core.mg.lastLoser = q ∧ (won p).split y = true)
    ∧ (∃ (s : State) (p : MPort) (q : MPort) (m : Nat), s.Serves ∧ q ≠ p ∧ m < 4) := by
  refine ⟨?_, ?_, ?_, ?_, ?_, ?_, ?_⟩
  · exact ⟨wSt { wB with mg := { lastLoser := .mpa } }, .mpa, .mpb, 63, ⟨rfl, rfl⟩, by decide +kernel,
        by decide +kernel, wOpen (by decide +kernel), wOpen (by decide +kernel), by decide +kernel, by decide +kernel⟩
  · exact ⟨wSt { wB with mg := { lastLoser := .mpb } }, .mpa, .mpb, 63, ⟨rfl, rfl⟩, by decide +kernel,
        by decide +kernel, wOpen (by decide +kernel), wOpen (by decide +kernel), by decide +kernel, by decide +kernel⟩
  · exact ⟨wSt { wB with mg := { lastLoser := .mpa } }, .mpa, .mpb, _, 0xFFFFF, 255, 0#64, ⟨0x3308, 0xFF, true, 0⟩, _,
        ⟨rfl, rfl⟩, by decide +kernel, rfl, by decide +kernel, by decide +kernel, by decide +kernel, by decide +kernel,
        rfl, by decide +kernel, by decide +kernel⟩
  · exact ⟨wSt { wB with mg := { lastLoser := .mpa } }, .mpa, .mpb, _, 0x3300, 255, 0#64, ⟨0x3308, 0xFF, true, 0⟩, _,
        ⟨rfl, rfl⟩, by decide +kernel, rfl, by decide +kernel, by decide +kernel, by decide +kernel, by decide +kernel,
        rfl, by decide +kernel, by decide +kernel⟩
  · exact ⟨wSt { wB with mg := { lastLoser := .mpb } }, .mpa, .mpb, _, 0xFFFFF, 255, ⟨0xFFFFF, 0xFF, false, 0⟩, _, ⟨rfl,
        rfl⟩, by decide +kernel, rfl, by decide +kernel, by decide +kernel, by decide +kernel, by decide +kernel, rfl,
        by decide +kernel, by decide +kernel⟩
  · exact ⟨wSt { wB with mg := { lastLoser := .mpb } }, .mpa, .mpb, _, 0xFFFFF, 255, ⟨0x3308, 0xFF, true, 0⟩, _, ⟨rfl,
        rfl⟩, by decide +kernel, rfl, by decide +kernel, by decide +kernel, by decide +kernel, by decide +kernel, rfl,
        by decide +kernel, by decide +kernel⟩
  · exact ⟨wSt wB, .mpa, .mpb, 3, ⟨rfl, rfl⟩, by decide +kernel, by decide +kernel⟩
end

/-! SUPPORT. Proofs of the statements of the architecture family: ill-formed commands, the idle step,
the reset state, and the clock events. -/

namespace Sys2Proof.Machine
open Sys2Proof

/-! ## Ill-formed commands and the idle step -/

/-- An ill-formed command outside the test modes leaves the whole state as it is (assumption log 2). -/
theorem run_illFormed (i : Instr) (f : Blk → Blk) (s : State) (ht : s.testMode = 0) (hw : i.wf = false) :
    run i f s = .next s := by
  unfold run
  simp [ht, hw]

/-- With nothing waiting, the step is the idle step (assumption log 1). -/
theorem step_of_pending_nil (s : State) (h : s.pending = []) : Sys2Proof.Machine.step s = idleStep s := by
  unfold Sys2Proof.Machine.step
  rw [h]

/-- In the functional mode the idle step is one MCLK cycle. -/
theorem idleStep_next (s : State) (ht : s.testMode = 0) :
    idleStep s = .next { s.withCore (s.core.cycle s.slow) with slow := s.slowAfter (s.core.cycle s.slow) } := by
  unfold idleStep
  simp [ht]

/-! ## The reset state -/

/-- The pins of the reset state are those that the reset block drives (Tables 15-10 and 15-11). -/
theorem reset_pins : State.reset.pins = State.reset.core.pins := by decide +kernel

theorem reset_inv : State.reset.Inv where
  pins := Blk.pins_follow State.reset reset_pins
  mode := by decide

/-- No power domain but PD0 is powered at reset (R20). -/
theorem reset_on (d : Nat) (h : 1 ≤ d) : State.reset.core.on d = false := by
  have hd : (d == 0) = false := beq_false_of_ne (Nat.ne_of_gt h)
  unfold Blk.on
  rw [hd]
  rfl

/-! ## Clock measurements (R19)

A measurement is stored, then MCLK is judged, then MGCLK; each judgement has one lemma per case. -/

/-- The block once a measurement is stored: the two frequencies, and whether MCLK is in range. -/
def Blk.measured (b : Blk) (mclkKHz mgclkKHz : Nat) : Blk :=
  { b with clock := { b.clock with
      mclkKHz := mclkKHz, mgclkKHz := mgclkKHz, mclkOk := decide (600000 ≤ mclkKHz) && decide (mclkKHz ≤ 1200000) } }

/-- MCLK_RANGE and the range pause, from the frequency just stored. -/
def Blk.judgeMclk (b : Blk) (mclkKHz : Nat) : Blk :=
  if mclkKHz < 588000 ∨ 1224000 < mclkKHz then
    if b.clock.rangePause then b.raise 0 2
    else Blk.reStopAll { b.raise 0 2 with clock := { b.clock with rangePause := true } }
  else if b.clock.mclkOk && b.clock.rangePause then
    Blk.unStopAll { b with clock := { b.clock with rangePause := false } }
  else b

/-- MGCLK_RANGE, from the frequency just stored. -/
def Blk.judgeMgclk (b : Blk) (mgclkKHz : Nat) : Blk :=
  if mgclkKHz < 245000 ∨ 255000 < mgclkKHz then b.raise 0 3 else b

/-- While REFCLK is there, a measurement is stored, judged for MCLK, judged for MGCLK, and lets the power-up go on. -/
theorem clockMeasurementB_eq (m g : Nat) (b : Blk) (hl : b.clock.refLost = false) :
    clockMeasurementB m g b = (((b.measured m g).judgeMclk m).judgeMgclk g).powerStart := by
  unfold clockMeasurementB Blk.judgeMgclk Blk.judgeMclk Blk.measured
  simp [hl]

section
variable (b : Blk) (m g : Nat)

theorem judgeMgclk_inRange (hlo : 245000 ≤ g) (hhi : g ≤ 255000) : b.judgeMgclk g = b :=
  if_neg (by omega)

theorem judgeMgclk_outOfRange (h : g < 245000 ∨ 255000 < g) : b.judgeMgclk g = b.raise 0 3 :=
  if_pos h

/-- Within the limits, MCLK changes nothing if the block was not paused or MCLK is not back in range. -/
theorem judgeMclk_withinLimits (hlo : 588000 ≤ m) (hhi : m ≤ 1224000)
    (h : b.clock.rangePause = false ∨ b.clock.mclkOk = false) : b.judgeMclk m = b := by
  have hin : ¬(m < 588000 ∨ 1224000 < m) := by omega
  unfold Blk.judgeMclk
  rw [if_neg hin, if_neg]
  rcases h with h | h <;> simp [h]

/-- MCLK back in range ends a range pause. -/
theorem judgeMclk_endsPause (hlo : 588000 ≤ m) (hhi : m ≤ 1224000) (hok : b.clock.mclkOk = true)
    (hp : b.clock.rangePause = true) :
    b.judgeMclk m = Blk.unStopAll { b with clock := { b.clock with rangePause := false } } := by
  have hin : ¬(m < 588000 ∨ 1224000 < m) := by omega
  unfold Blk.judgeMclk
  rw [if_neg hin, if_pos (by simp [hok, hp])]

theorem judgeMclk_staysPaused (h : m < 588000 ∨ 1224000 < m) (hp : b.clock.rangePause = true) :
    b.judgeMclk m = b.raise 0 2 := by
  unfold Blk.judgeMclk
  rw [if_pos h, if_pos hp]

/-- MCLK out of the limits pauses every queue if they were not paused. -/
theorem judgeMclk_startsPause (h : m < 588000 ∨ 1224000 < m) (hp : b.clock.rangePause = false) :
    b.judgeMclk m = Blk.reStopAll { b.raise 0 2 with clock := { b.clock with rangePause := true } } := by
  unfold Blk.judgeMclk
  rw [if_pos h, if_neg (by simp [hp])]

end

@[simp] theorem measured_rangePause (b : Blk) (m g : Nat) :
    (b.measured m g).clock.rangePause = b.clock.rangePause := rfl

@[simp] theorem measured_mclkOk (b : Blk) (m g : Nat) :
    (b.measured m g).clock.mclkOk = (decide (600000 ≤ m) && decide (m ≤ 1200000)) := rfl

section
variable {s : State} (m g : Nat) (ht : s.testMode = 0) (hr : s.core.ldr.state ≠ .reload)
  (hl : s.core.clock.refLost = false)
include ht hr hl

theorem clockMeasurement_does :
    Does (.clockMeasurement m g) s (((s.core.measured m g).judgeMclk m).judgeMgclk g).powerStart :=
  runRow_does _ _ s _ ht rfl (clockMeasurementB_eq m g s.core hl) hr

/-- A measurement that neither pauses the queues nor ends a pause: only MGCLK is judged. -/
theorem clockMeasurement_withinLimits (hlo : 588000 ≤ m) (hhi : m ≤ 1224000)
    (hp : s.core.clock.rangePause = false ∨ m < 600000 ∨ 1200000 < m) :
    (245000 ≤ g → g ≤ 255000 → Does (.clockMeasurement m g) s (s.core.measured m g).powerStart)
    ∧ (g < 245000 ∨ 255000 < g → Does (.clockMeasurement m g) s ((s.core.measured m g).raise 0 3).powerStart) := by
  have does := clockMeasurement_does m g ht hr hl
  have hok : (s.core.measured m g).clock.rangePause = false ∨ (s.core.measured m g).clock.mclkOk = false := by
    simpa using hp.imp_right fun h => by omega
  rw [judgeMclk_withinLimits _ m hlo hhi hok] at does
  refine ⟨fun hg hg' => ?_, fun hg => ?_⟩
  · rwa [judgeMgclk_inRange _ g hg hg'] at does
  · rwa [judgeMgclk_outOfRange _ g hg] at does

theorem clockMeasurement_endsPause (hlo : 600000 ≤ m) (hhi : m ≤ 1200000) (hp : s.core.clock.rangePause = true)
    (hg : 245000 ≤ g) (hg' : g ≤ 255000) :
    Does (.clockMeasurement m g) s (Blk.unStopAll { s.core.measured m g with
      clock := { (s.core.measured m g).clock with rangePause := false } }).powerStart := by
  have does := clockMeasurement_does m g ht hr hl
  have hok : (s.core.measured m g).clock.mclkOk = true := by simp [hlo, hhi]
  rwa [judgeMgclk_inRange _ g hg hg', judgeMclk_endsPause _ m (by omega) (by omega) hok hp] at does

theorem clockMeasurement_outOfLimits (hm : m < 588000 ∨ 1224000 < m) (hg : 245000 ≤ g) (hg' : g ≤ 255000) :
    (s.core.clock.rangePause = true → Does (.clockMeasurement m g) s ((s.core.measured m g).raise 0 2).powerStart)
    ∧ (s.core.clock.rangePause = false → Does (.clockMeasurement m g) s
        (Blk.reStopAll { (s.core.measured m g).raise 0 2 with
          clock := { (s.core.measured m g).clock with rangePause := true } }).powerStart) := by
  have does := clockMeasurement_does m g ht hr hl
  rw [judgeMgclk_inRange _ g hg hg'] at does
  refine ⟨fun hp => ?_, fun hp => ?_⟩
  · rwa [judgeMclk_staysPaused (s.core.measured m g) m hm hp] at does
  · rwa [judgeMclk_startsPause (s.core.measured m g) m hm hp] at does

end

/-- Outside POWER the loader has nothing to go on with (R333). -/
theorem powerStart_of_ne_power (b : Blk) (h : b.ldr.state ≠ .power) : b.powerStart = b := by
  unfold Blk.powerStart
  simp [h]

/-! ## Loss and return of REFCLK (R19) -/

theorem refclkLostB_eq (b : Blk) (hl : b.clock.refLost = false) :
    refclkLostB b = ({ b with clock := { b.clock with refLost := true } } : Blk).raise 0 4 := by
  unfold refclkLostB
  rw [if_neg (by simp [hl])]

theorem refclkReturnB_eq (b : Blk) (hl : b.clock.refLost = true) :
    refclkReturnB b = b.slots.foldl (fun b x => b.sltResume x.1) { b with clock := { b.clock with refLost := false } } := by
  unfold refclkReturnB
  rw [if_pos hl]

/-! ## The statements -/

/-- Settles O4: every command but the power-on reset is a `run`, and `run` leaves the state on an ill-formed command. -/
theorem illFormedChangesNothing : Obligations.IllFormedChangesNothing := by
  intro c s ht hw hc
  obtain ⟨f, hf⟩ := exec_form c s hc
  rw [hf, run_illFormed c f s ht hw]

/-- Settles O2: the step is the idle step, which is one MCLK cycle in the functional mode. -/
theorem emptyQueueCycles : Obligations.EmptyQueueCycles := by
  intro s hp ht
  rw [step_of_pending_nil s hp, idleStep_next s ht]

/-- Settles O6: the reset pins are those that the reset block drives. -/
theorem resetState : Obligations.ResetState :=
  ⟨reset_inv, rfl, rfl, reset_on, rfl⟩

/-- Settles O8: one judgement of MCLK and one of MGCLK for each case of a measurement, then the other clock events. -/
theorem clockEventsComplete : Obligations.ClockEventsComplete := by
  intro s ht hr
  refine ⟨?measurement, powerStart_of_ne_power s.core, ?gap, ?lost, ?back⟩
  case measurement =>
    rintro m g _ hl rfl
    exact ⟨clockMeasurement_withinLimits m g ht hr hl, clockMeasurement_endsPause m g ht hr hl,
      clockMeasurement_outOfLimits m g ht hr hl⟩
  case gap => exact runRow_raise _ _ s _ 0 5 ht rfl rfl hr
  case lost => exact fun hl => runRow_raise _ _ s _ 0 4 ht rfl (refclkLostB_eq s.core hl) hr
  case back => exact fun hl => runRow_does _ _ s _ ht rfl (refclkReturnB_eq s.core hl) hr

end Sys2Proof.Machine

/-! SUPPORT. Proofs of the statements of the start-up and image family: the choice of a copy, VERIFY and the
power-up, the self-test and the placing of an image, the commands of LDR_CMD, and how they end. -/

namespace Sys2Proof.Machine
open Sys2Proof

/-! ## The end of a loader command, and SAFE -/

/-- Whether or not a command was in progress, none is after its end. -/
theorem Blk.ldrEnd_ldr (b : Blk) (e : Nat) :
    (b.ldrEnd e).ldr = { b.ldr with
      busy := false, owner := if b.ldr.busy then 0 else b.ldr.owner, err := if b.ldr.busy then e else b.ldr.err } := by
  have idle : ∀ l : Loader, l.busy = false → l = { l with busy := false } := by
    rintro ⟨⟩ h
    cases h
    rfl
  rw [(ldrEnd_facts b e).1.ldr, Blk.modLdr_ldr]
  split
  next => rfl
  next h => exact idle b.ldr (by simpa using h)

theorem Blk.ldrEnd_busy (b : Blk) (e : Nat) (h : b.ldr.busy = true) :
    b.ldrEnd e = (b.modLdr fun l => { l with busy := false, owner := 0, err := e }).raise 0 8 :=
  if_pos h

theorem Blk.ldrEnd_idle (b : Blk) (e : Nat) (h : b.ldr.busy = false) : b.ldrEnd e = b :=
  if_neg (by simp [h])

/-- The loader in SAFE: what the checks found of the copies and of the self-test stays readable (R38). -/
theorem Blk.toSafe_ldr (b : Blk) :
    b.toSafe.ldr = { b.ldr with
      state := .safe, safe := true, copyUsed := 0, staged := none, missed := [], spi := [], busy := false
      owner := if b.ldr.busy then 0 else b.ldr.owner, err := if b.ldr.busy then 0 else b.ldr.err } := by
  unfold Blk.toSafe
  rw [Blk.ldrEnd_ldr, Blk.modLdr_ldr, discard_ldr]

/-- With no command in progress SAFE raises no event: the management side is as before. -/
theorem Blk.toSafe_mg (b : Blk) (h : b.ldr.busy = false) : b.toSafe.mg = b.mg := by
  unfold Blk.toSafe
  rw [Blk.ldrEnd_idle _ _ (by rw [Blk.modLdr_ldr, discard_ldr]; exact h), Blk.modLdr_mg, discard_mg]

/-! ## HDR and CHOOSE (R29, R30, R34) -/

theorem satInc_eq_min (m n : Nat) : satInc m n = min m (n + 1) := by
  unfold satInc
  split <;> omega

/-- The loader once HDR has judged 320 B of each copy. -/
def Loader.judged (l : Loader) (x y : List Byte) : Loader :=
  { l with
    hdrA := (judgeCopy x).1, hdrB := (judgeCopy y).1
    seqA := ((judgeCopy x).1.map (·.seq)).getD 0, seqB := ((judgeCopy y).1.map (·.seq)).getD 0
    refusedA := decide ((judgeCopy x).2 ≠ 0), refusedB := decide ((judgeCopy y).2 ≠ 0)
    reasonA := (judgeCopy x).2, reasonB := (judgeCopy y).2 }

/-- The loader once CHOOSE has taken a copy: it goes to VERIFY and reads that copy's sections. -/
def Loader.chosen (l : Loader) (useB : Bool) : Loader :=
  let h := if useB then l.hdrB else l.hdrA
  { l with
    state := .verify, useB := useB, skipped := (h.map (·.skipped)).getD 0
    spi := (h.map fun x => spiSections x (if useB then 0x20000 else 0)).getD [] }

/-- From RESET, NVM_SETTLE_DONE passes through WAIT, of which nothing is left (log 29). -/
theorem nvmSettleDoneB_eq (b : Blk) (h : b.ldr.state = .reset ∨ b.ldr.state = .wait) :
    nvmSettleDoneB b = b.toHdr 0 := by
  unfold nvmSettleDoneB Blk.toWait
  obtain h | h := h
  · rw [if_pos h]; rfl
  · simp [h]

theorem hdrRetryB_eq (b : Blk) (h : b.ldr.state = .hdr) (hw : b.ldr.blankWait = true) :
    hdrRetryB b = b.toHdr (b.ldr.blankRepeats + 1) :=
  if_pos ⟨h, hw⟩

section
variable {b : Blk} {x y : List Byte} (hs : b.ldr.state = .hdr) (hw : b.ldr.blankWait = false)
include hs hw

theorem hdrReadDoneB_blank (hn : b.ldr.blankRepeats < 3) (hx : blankCopy x = true) (hy : blankCopy y = true) :
    hdrReadDoneB x y b = b.modLdr fun l => { l with blankWait := true } := by
  unfold hdrReadDoneB
  simp [hs, hw, hn, hx, hy]

theorem hdrReadDoneB_judges (hb : (blankCopy x && blankCopy y) = false) :
    hdrReadDoneB x y b = (b.modLdr fun l => l.judged x y).choose := by
  unfold hdrReadDoneB
  rw [if_neg (by simp [hs, hw]), if_neg (by simp [hb])]
  rfl

end

section
variable (b : Blk)

/-- Of two good copies the newer IMAGE_SEQ modulo 2^32 is chosen, and A of two equal ones (R34, log 16). -/
theorem Blk.choose_both (ha : b.ldr.refusedA = false) (hb : b.ldr.refusedB = false) :
    b.choose = b.modLdr fun l => l.chosen (decide (2 ^ 31 < (b.ldr.seqA + 2 ^ 32 - b.ldr.seqB) % 2 ^ 32)) := by
  unfold Blk.choose Loader.chosen
  simp [ha, hb]

theorem Blk.choose_onlyA (ha : b.ldr.refusedA = false) (hb : b.ldr.refusedB = true) :
    b.choose = b.modLdr fun l => l.chosen false := by
  unfold Blk.choose
  simp only [ha, hb]
  rfl

theorem Blk.choose_onlyB (ha : b.ldr.refusedA = true) (hb : b.ldr.refusedB = false) :
    b.choose = b.modLdr fun l => l.chosen true := by
  unfold Blk.choose
  simp only [ha, hb]
  rfl

theorem Blk.choose_neither (ha : b.ldr.refusedA = true) (hb : b.ldr.refusedB = true) : b.choose = b.toSafe := by
  unfold Blk.choose
  simp [ha, hb]

/-- A refused copy leaves the other one to be verified, unless that is refused too. -/
theorem Blk.refuseCopy_other (r : Nat) (h : (if b.ldr.useB then b.ldr.refusedA else b.ldr.refusedB) = false) :
    b.refuseCopy r = b.modLdr fun l => (l.refuse l.useB r).chosen (!l.useB) := by
  unfold Blk.refuseCopy
  cases hu : b.ldr.useB
  · rw [hu] at h
    rw [Blk.choose_onlyB _ (by simp [Loader.refuse, hu]) (by simpa [Loader.refuse, hu] using h)]
    simp [Blk.modLdr, hu]
  · rw [hu] at h
    rw [Blk.choose_onlyA _ (by simpa [Loader.refuse, hu] using h) (by simp [Loader.refuse, hu])]
    simp [Blk.modLdr, hu]

end

section
variable {s : State} {x y : List Byte} (ht : s.testMode = 0) (hs : s.core.ldr.state = .hdr)
include ht hs

theorem hdrReadDone_does (hw : s.core.ldr.blankWait = false) (hb : (blankCopy x && blankCopy y) = false) :
    Does (.hdrReadDone x y) s (s.core.modLdr fun l => l.judged x y).choose :=
  runRow_does _ _ s _ ht rfl (hdrReadDoneB_judges hs hw hb) (by simp [hs])

variable (hw : s.core.ldr.blankWait = false) (hb : (blankCopy x && blankCopy y) = false)
include hw hb

theorem hdrReadDone_bothGood (hx : headerReason x = 0) (dx : dirReason x (copyHdr x) = 0) (hy : headerReason y = 0)
    (dy : dirReason y (copyHdr y) = 0) :
    ∃ n : Loader, Does (.hdrReadDone x y) s { s.core with ldr := n } ∧ n.state = .verify ∧ n.reasonA = 0 ∧ n.reasonB = 0
      ∧ (n.useB = true ↔ 2 ^ 31 < (leAt x 8 4 + 2 ^ 32 - leAt y 8 4) % 2 ^ 32)
      ∧ n.skipped = (copyHdr (if n.useB then y else x)).skipped := by
  have jx := judge_ok x hx dx
  have jy := judge_ok y hy dy
  have does := hdrReadDone_does ht hs hw hb
  rw [Blk.choose_both _ (by simp [Loader.judged, jx]) (by simp [Loader.judged, jy])] at does
  refine ⟨_, does, rfl, congrArg Prod.snd jx, congrArg Prod.snd jy, ?_, ?_⟩
  · simp [Loader.chosen, Loader.judged, jx, jy, copyHdr]
  · simp only [Loader.chosen, Loader.judged, jx, jy]
    split <;> rfl

theorem hdrReadDone_onlyB (hx : headerReason x ≠ 0) (hy : headerReason y = 0) (dy : dirReason y (copyHdr y) = 0) :
    ∃ n : Loader, Does (.hdrReadDone x y) s { s.core with ldr := n } ∧ n.state = .verify ∧ n.useB = true
      ∧ n.reasonA = headerReason x ∧ n.reasonB = 0 := by
  have jx := judge_bad x hx
  have jy := judge_ok y hy dy
  have does := hdrReadDone_does ht hs hw hb
  rw [Blk.choose_onlyB _ (by simp [Loader.judged, jx, hx]) (by simp [Loader.judged, jy])] at does
  exact ⟨_, does, rfl, rfl, congrArg Prod.snd jx, congrArg Prod.snd jy⟩

theorem hdrReadDone_onlyA (hx : headerReason x = 0) (dx : dirReason x (copyHdr x) = 0) (hy : headerReason y ≠ 0) :
    ∃ n : Loader, Does (.hdrReadDone x y) s { s.core with ldr := n } ∧ n.state = .verify ∧ n.useB = false
      ∧ n.reasonA = 0 ∧ n.reasonB = headerReason y := by
  have jx := judge_ok x hx dx
  have jy := judge_bad y hy
  have does := hdrReadDone_does ht hs hw hb
  rw [Blk.choose_onlyA _ (by simp [Loader.judged, jx]) (by simp [Loader.judged, jy, hy])] at does
  exact ⟨_, does, rfl, rfl, congrArg Prod.snd jx, congrArg Prod.snd jy⟩

theorem hdrReadDone_bothBad (hx : headerReason x ≠ 0) (hy : headerReason y ≠ 0) (hn : s.core.ldr.busy = false) :
    ∃ b : Blk, Does (.hdrReadDone x y) s b ∧ b.ldr.state = .safe ∧ b.ldr.copyUsed = 0
      ∧ b.ldr.reasonA = headerReason x ∧ b.ldr.reasonB = headerReason y ∧ (∀ d, 1 ≤ d → b.on d = false)
      ∧ b.mg = s.core.mg ∧ b.image = none := by
  have jx := judge_bad x hx
  have jy := judge_bad y hy
  have does := hdrReadDone_does ht hs hw hb
  rw [Blk.choose_neither _ (by simp [Loader.judged, jx, hx]) (by simp [Loader.judged, jy, hy])] at does
  obtain ⟨-, -, -, -, -, off, -, image⟩ := toSafe_facts (s.core.modLdr fun l => l.judged x y)
  refine ⟨_, does, ?_, ?_, ?_, ?_, off, Blk.toSafe_mg _ hn, image⟩
  all_goals rw [Blk.toSafe_ldr]
  · simp [Loader.judged, jx]
  · simp [Loader.judged, jy]

end

/-- Settles O11: each command of HDR by its equation, and the choice by which of the two copies are refused. -/
theorem loaderChoosesACopy : Obligations.LoaderChoosesACopy := by
  rintro s _ ht rfl
  refine ⟨fun hs => ?settled, fun x y hs hw hn hx hy => ?blank, fun hs hw => ?retry, fun x y hs hw hb => ⟨?_, ?_, ?_, ?_⟩⟩
  case settled =>
    have hr : s.core.ldr.state ≠ .reload := by rcases hs with h | h <;> simp [h]
    exact ⟨_, runRow_does _ _ s _ ht rfl (nvmSettleDoneB_eq s.core hs) hr, rfl, satInc_eq_min _ _, rfl, rfl, rfl, rfl⟩
  case blank => exact runRow_does _ _ s _ ht rfl (hdrReadDoneB_blank hs hw hn hx hy) (by simp [hs])
  case retry =>
    exact ⟨_, runRow_does _ _ s _ ht rfl (hdrRetryB_eq s.core hs hw) (by simp [hs]), rfl, satInc_eq_min _ _, rfl, rfl⟩
  · exact hdrReadDone_bothGood ht hs hw hb
  · exact hdrReadDone_onlyB ht hs hw hb
  · exact hdrReadDone_onlyA ht hs hw hb
  · exact hdrReadDone_bothBad ht hs hw hb

/-! ## VERIFY (R31, R32, R33) -/

/-- The loader once VERIFY has staged image `im` of the copy with header `h`; `mixed` where R33 took a section from the
other copy. -/
def Loader.staging (l : Loader) (h : CopyHdr) (secs : List (List Byte)) (im : Image) (mixed : Bool) : Loader :=
  { l with
    staged := some im, mixed := mixed
    altSecs := (h.dir.zip (secs ++ List.replicate h.dir.length [])).map fun (e, bs) => fromAlt e bs }

section
variable {b : Blk} {h : CopyHdr} {secs alt : List (List Byte)} (hs : b.ldr.state = .verify) (hh : b.ldr.hdr = some h)
include hs hh

theorem verifyDoneB_refuses {r : Nat}
    (hr : gather b.ldr.otherDir h.dir secs alt = none ∧ r = 5
      ∨ ∃ t m, gather b.ldr.otherDir h.dir secs alt = some (t, m) ∧ judge t = .error r) :
    verifyDoneB secs alt b = b.refuseCopy r := by
  unfold verifyDoneB
  obtain ⟨hg, rfl⟩ | ⟨t, m, hg, hj⟩ := hr
  · simp only [hs, hh, hg]
  · simp only [hs, hh, hg, hj]

theorem verifyDoneB_stages {t : Sections} {m : Bool} {im : Image}
    (hg : gather b.ldr.otherDir h.dir secs alt = some (t, m)) (hj : judge t = .ok im) :
    verifyDoneB secs alt b = (b.modLdr fun l => l.staging h secs im m).toPower := by
  unfold verifyDoneB
  simp only [hs, hh, hg, hj]
  rfl

end

/-- While the last MCLK measurement is out of range POWER requests nothing (R333, log 17). -/
theorem Blk.toPower_waits (b : Blk) (hc : b.clock.mclkOk = false) :
    b.toPower = b.modLdr fun l => { l with state := .power, groupAt := 0, missed := [], spi := [] } := by
  unfold Blk.toPower Blk.powerStart
  rw [if_neg (by simp [hc])]

section
variable {s : State} {h : CopyHdr} {secs alt : List (List Byte)} (ht : s.testMode = 0) (hs : s.core.ldr.state = .verify)
  (hh : s.core.ldr.hdr = some h)
include ht hs hh

theorem verifyDone_refuses_does {r : Nat}
    (hr : gather s.core.ldr.otherDir h.dir secs alt = none ∧ r = 5
      ∨ ∃ t m, gather s.core.ldr.otherDir h.dir secs alt = some (t, m) ∧ judge t = .error r) :
    Does (.verifyDone secs alt) s (s.core.refuseCopy r) :=
  runRow_does _ _ s _ ht rfl (verifyDoneB_refuses hs hh hr) (by simp [hs])

theorem verifyDone_stages_does {t : Sections} {m : Bool} {im : Image}
    (hg : gather s.core.ldr.otherDir h.dir secs alt = some (t, m)) (hj : judge t = .ok im) :
    Does (.verifyDone secs alt) s (s.core.modLdr fun l => l.staging h secs im m).toPower :=
  runRow_does _ _ s _ ht rfl (verifyDoneB_stages hs hh hg hj) (by simp [hs])

end

/-! ## POWER (R35, R36, R333) -/

theorem Blk.modPd_doms_same (b : Blk) (d : Nat) (f : PowDom → PowDom) :
    tabGet ({} : PowDom) (b.modPd d f).power.doms d = f (tabGet {} b.power.doms d) := tabGet_tabSet_same _ _ _ _

theorem Blk.modPd_doms_other (b : Blk) (d e : Nat) (f : PowDom → PowDom) (h : e ≠ d) :
    tabGet ({} : PowDom) (b.modPd d f).power.doms e = tabGet {} b.power.doms e := tabGet_tabSet_at _ _ _ _ _ _ h

/-- An acknowledge that POWER has asked for: the domain is on, and the loader goes on with the next group. Movers, which
also go to TEST, are left out. -/
theorem powerAckB_power (d : Nat) (b : Blk) (hs : b.ldr.state = .power) (h1 : 1 ≤ d) (h8 : d < 8)
    (hq : (tabGet ({} : PowDom) b.power.doms d).req = true) (ha : (tabGet ({} : PowDom) b.power.doms d).ack = false) :
    powerAckB d b = ((b.modPd d fun _ => { req := true, ack := true }).monRestart d).powerNext 20 := by
  have h0 : ¬ (d = 0 ∨ (tabGet ({} : PowDom) b.power.doms d).ack = true) := by simp [ha]; omega
  have hm : ¬ 8 ≤ d := by omega
  unfold powerAckB
  simp only [if_neg h0, hs, hq, if_neg hm, Bool.not_true, Bool.false_eq_true, if_false]

/-- PD1 acknowledged, PD5 and PD6 are requested (R20, R35). -/
theorem powerAckB_one (b : Blk) (hs : b.ldr.state = .power) (hg : b.ldr.groupAt = 0) (hm : b.ldr.missed = [])
    (hq : (tabGet ({} : PowDom) b.power.doms 1).req = true) (ha : (tabGet ({} : PowDom) b.power.doms 1).ack = false)
    (h5 : (tabGet ({} : PowDom) b.power.doms 5).ack = false) :
    powerAckB 1 b = (({ (b.modPd 1 fun _ => { req := true, ack := true }).monRestart 1 with
        ldr := { b.ldr with groupAt := 1 } } : Blk).modPd 5 fun x => { x with req := true, going := false }).modPd 6
          fun x => { x with req := true, going := false } := by
  obtain ⟨power, ldr⟩ := monRestart_stands (b.modPd 1 fun _ => { req := true, ack := true }) 1
  rw [Blk.modPd_ldr] at ldr
  rw [powerAckB_power 1 b hs (by decide) (by decide) hq ha, power_second _ (by rw [ldr, hg]) (by rw [ldr, hm])
    (by rw [power, Blk.modPd_doms_same]; rfl) (by rw [power, Blk.modPd_doms_other _ _ _ _ (by decide), h5]), ldr]

/-- The block once POWER has given up on domain `d`: its request is withdrawn, the timeout is logged, and the loader
remembers the domain as missed (R36). -/
def Blk.gaveUp (b : Blk) (d : Nat) : Blk :=
  ((b.modPd d fun x => { x with req := false }).logTimeout d).modLdr fun l => { l with missed := l.missed ++ [d] }

/-- The timeout is logged, counted and raised whatever else follows (Table 17-10). -/
theorem Blk.gaveUp_facts (b : Blk) (d : Nat) : (b.gaveUp d).power.last = d
    ∧ (b.gaveUp d).power.timeouts = (b.power.timeouts + 1) % 256 ∧ (b.gaveUp d).pends 0 7 = true := by
  unfold Blk.gaveUp Blk.logTimeout
  rw [Blk.modLdr_power, (Blk.raise_msg _ 0 7).power]
  exact ⟨rfl, rfl, Blk.raise_pends _ 0 7⟩

/-- Without PD1 or PD2 the loader cannot go on (Table 2-13). -/
theorem pwrTimeoutB_toSafe (d : Nat) (b : Blk) (hs : b.ldr.state = .power) (hd : d ≤ 2)
    (hg : (b.groupDoms b.ldr.groupAt).contains d = true) (hm : b.ldr.missed = [])
    (ha : (tabGet ({} : PowDom) b.power.doms d).ack = false) : pwrTimeoutB d b = (b.gaveUp d).toSafe := by
  have waits : ((b.groupDoms b.ldr.groupAt).contains d
      && !((tabGet ({} : PowDom) b.power.doms d).req && (tabGet ({} : PowDom) b.power.doms d).ack)
      && !(b.ldr.missed.contains d)) = true := by rw [hg, hm, ha, Bool.and_false]; rfl
  have missed : (b.gaveUp d).powerMissed d = (b.gaveUp d).toSafe := by
    unfold Blk.powerMissed
    exact if_pos hd
  have safe : (b.gaveUp d).toSafe.ldr.state ≠ .power := by simp [Blk.toSafe_ldr]
  unfold pwrTimeoutB
  rw [if_pos hs, if_pos waits]
  show (if ((b.gaveUp d).powerMissed d).ldr.state = .power then _ else (b.gaveUp d).powerMissed d) = _
  rw [missed, if_neg safe]

theorem pwrTimeout_toSafe {s : State} {d : Nat} (ht : s.testMode = 0) (hs : s.core.ldr.state = .power)
    (hd : d = 1 ∧ s.core.ldr.groupAt = 0 ∨ d = 2 ∧ s.core.ldr.groupAt = 2) (hm : s.core.ldr.missed = [])
    (ha : (tabGet ({} : PowDom) s.core.power.doms d).ack = false) :
    Does (.pwrTimeout d) s (s.core.gaveUp d).toSafe := by
  have group : (s.core.groupDoms s.core.ldr.groupAt).contains d = true := by
    obtain ⟨rfl, hg⟩ | ⟨rfl, hg⟩ := hd <;> rw [hg] <;> rfl
  have low : d ≤ 2 := by omega
  exact runRow_does _ _ s _ ht (by rw [wf_pwrTimeout]; exact decide_eq_true (by omega))
    (pwrTimeoutB_toSafe d s.core hs low group hm ha) (by simp [hs])

/-- Settles O12: VERIFY by what it makes of the sections, POWER by the answer of PD1 or PD2. -/
theorem loaderVerifiesAndPowersUp : Obligations.LoaderVerifiesAndPowersUp := by
  rintro s _ ht rfl
  refine ⟨fun h secs alt hs hh => ⟨fun r hr => ⟨fun hu hb => ?refusedA, fun hu ha => ?refusedB⟩,
    fun t m im hg hj => ⟨fun hc => ?waits, fun hc ha hq hd => ?requests⟩⟩, fun hs hg hm hq ha h5 => ?acked,
    fun d hs hd hm ha => ?timedOut⟩
  case refusedA =>
    have does := verifyDone_refuses_does ht hs hh hr
    rw [refuseCopy_a _ r hu hb hs] at does
    exact does
  case refusedB =>
    have does := verifyDone_refuses_does ht hs hh hr
    rw [refuseCopy_b _ r hu ha hs] at does
    exact does
  case waits =>
    have does := verifyDone_stages_does ht hs hh hg hj
    rw [Blk.toPower_waits (s.core.modLdr fun l => l.staging h secs im m) hc] at does
    exact ⟨_, does, rfl, rfl, rfl, rfl, rfl⟩
  case requests =>
    have does := verifyDone_stages_does ht hs hh hg hj
    rw [toPower_on (s.core.modLdr fun l => l.staging h secs im m) hc ha hq hd] at does
    exact ⟨_, does, rfl, rfl, rfl, rfl, rfl⟩
  case acked => exact runRow_does _ _ s _ ht rfl (powerAckB_one s.core hs hg hm hq ha h5) (by simp [hs])
  case timedOut =>
    obtain ⟨state, safe, used, last, count, off, keeps, -⟩ := toSafe_facts (s.core.gaveUp d)
    obtain ⟨last', count', pends⟩ := Blk.gaveUp_facts s.core d
    exact ⟨_, pwrTimeout_toSafe ht hs hd hm ha, state, safe, used, keeps 0 7 pends, last.trans last', count.trans count', off⟩

/-! ## SELFTEST (R37, Table 2-14) -/

section
variable {b : Blk} {r : BistResult} (hs : b.ldr.state = .selftest)
include hs

/-- The self-test leaves too little to work with: both banks, the Chervil tiles, or a cell queue without a mover. -/
theorem selftestDoneB_toSafe
    (h : ((b.bistKept r).banks.aOut && (b.bistKept r).banks.bOut || decide (256 < r.chervilTiles.length)
      || (b.bistKept r).homeless (b.bistKept r).stagedImg) = true) :
    selftestDoneB r b = (b.bistKept r).toSafe := by
  unfold selftestDoneB Blk.toApply
  rw [if_neg (by simp [hs])]
  obtain few | homeless := (Bool.or_eq_true _ _).mp h
  · exact if_pos few
  · simp only [homeless, if_true, ite_self]

theorem selftestDoneB_toApply
    (h : ((b.bistKept r).banks.aOut && (b.bistKept r).banks.bOut || decide (256 < r.chervilTiles.length)
      || (b.bistKept r).homeless (b.bistKept r).stagedImg) = false) :
    selftestDoneB r b = (b.bistKept r).modLdr fun l => { l with
      state := .apply, spi := (l.hdr.map fun x => spiSections x (if l.useB then 0x20000 else 0)).getD [] } := by
  obtain ⟨few, homeless⟩ := (Bool.or_eq_false_iff).mp h
  unfold selftestDoneB Blk.toApply
  rw [if_neg (by simp [hs])]
  simp only [few, homeless, Bool.false_eq_true, if_false]

end

/-! ## APPLY -/

/-- The loader once the image `im` of the copy with header `h` is placed (R38, Table 2-12). -/
def Loader.placed (l : Loader) (h : CopyHdr) (im : Image) : Loader :=
  { l with
    state := .ready, store := some im, staged := none, build := h.build, imageSeq := h.seq
    copyUsed := if l.mixed then 3 else if l.useB then 2 else 1
    reasonA := if l.useB && !l.mixed && !l.refusedA then 11 else l.reasonA
    reasonB := if !l.useB && !l.mixed && !l.refusedB then 11 else l.reasonB }

section
variable {b : Blk} {h : CopyHdr} {secs alt : List (List Byte)} (hs : b.ldr.state = .apply) (hh : b.ldr.hdr = some h)
include hs hh

/-- A section that cannot be read again refuses the copy with REREAD, the power off. -/
theorem applyDoneB_refuses (hg : regather h.dir b.ldr.altSecs secs alt = none) :
    applyDoneB secs alt b = (b.discard.modLdr fun l => { l with staged := none }).refuseCopy 9 := by
  unfold applyDoneB
  simp only [hs, hh, hg]

theorem applyDoneB_places {t : Sections} (hg : regather h.dir b.ldr.altSecs secs alt = some t) :
    applyDoneB secs alt b = ((b.place (imageOf t)).modLdr fun _ => b.ldr.placed h (imageOf t)).ldrEnd 0 := by
  unfold applyDoneB
  simp only [hs, hh, hg]
  rfl

end

/-- After REREAD the other copy is verified, with nothing staged and the power off. -/
theorem reread_facts (b : Blk) (ho : (if b.ldr.useB then b.ldr.refusedA else b.ldr.refusedB) = false) (c : Blk)
    (hc : c = (b.discard.modLdr fun l => { l with staged := none }).refuseCopy 9) :
    c.ldr.state = .verify ∧ c.ldr.useB = !b.ldr.useB ∧ (if b.ldr.useB then c.ldr.reasonB else c.ldr.reasonA) = 9
      ∧ c.ldr.staged = none ∧ (∀ d, 1 ≤ d → c.on d = false) ∧ c.mg = b.mg := by
  rw [Blk.refuseCopy_other _ _ (by rw [Blk.modLdr_ldr, discard_ldr]; exact ho)] at hc
  have ldr : c.ldr = (({ b.ldr with staged := none } : Loader).refuse b.ldr.useB 9).chosen (!b.ldr.useB) := by
    rw [hc, Blk.modLdr_ldr, Blk.modLdr_ldr, discard_ldr]
  have off : ∀ d, 1 ≤ d → c.on d = false := fun d hd => by rw [hc]; exact discard_off b d hd
  have mg : c.mg = b.mg := by rw [hc]; exact discard_mg b
  rw [ldr]
  cases b.ldr.useB <;> exact ⟨rfl, rfl, rfl, rfl, off, mg⟩

/-- Settles O13: what the self-test keeps is `bistKept_facts`; APPLY by whether its sections can be gathered again. -/
theorem selftestAndApply : Obligations.SelftestAndApply := by
  rintro s _ ht rfl
  refine ⟨?selftest, fun h secs alt b hs hh => ⟨?reread, ?place⟩⟩
  case selftest =>
    rintro r _ hs rfl
    have hr : s.core.ldr.state ≠ .reload := by simp [hs]
    obtain ⟨ldr, -⟩ := bistKept_facts s.core r
    obtain ⟨state, -, -, -, -, off, -⟩ := toSafe_facts (s.core.bistKept r)
    refine ⟨bistKept_facts s.core r, fun h => ⟨?_, state, ?_, off⟩, fun h => ?_⟩
    · exact runRow_does _ _ s _ ht rfl (selftestDoneB_toSafe hs h) hr
    · rw [Blk.toSafe_ldr, ldr]
    · exact runRow_does _ _ s _ ht rfl (selftestDoneB_toApply hs h) hr
  case reread =>
    rintro hg ho rfl
    exact ⟨runRow_does _ _ s _ ht rfl (applyDoneB_refuses hs hh hg) (by simp [hs]), reread_facts s.core ho _ rfl⟩
  case place =>
    rintro t hg rfl
    refine ⟨runRow_does _ _ s _ ht rfl (applyDoneB_places hs hh hg) (by simp [hs]), ?_⟩
    rw [Blk.ldrEnd_ldr]
    exact ⟨rfl, rfl, rfl, rfl, fun hb => ⟨if_pos hb, (ldrEnd_facts _ 0).2 hb⟩⟩

/-! ## LDR_CMD (R42-R44) -/

/-- The loader once it has begun command `op` of port `port`: BUSY, with no error (Table 2-14). -/
def Loader.begun (l : Loader) (op port : Nat) : Loader := { l with opcode := op, busy := true, owner := port, err := 0 }

theorem ne_reload_of_ready_or_safe {b : Blk} (hs : b.ldr.state = .ready ∨ b.ldr.state = .safe) :
    b.ldr.state ≠ .reload := by
  rcases hs with h | h <;> simp [h]

@[simp] theorem Blk.selected_nvAddr (b : Blk) (p : MPort) : (b.selected p).nvAddr = b.nvAddr := by cases p <;> rfl
@[simp] theorem Blk.selected_inUse (b : Blk) (p : MPort) (a : Nat) : (b.selected p).inUse a = b.inUse a := by
  cases p <;> rfl
@[simp] theorem Blk.selected_wbuf (b : Blk) (p : MPort) : (b.selected p).wbuf = b.wbuf := by cases p <;> rfl
@[simp] theorem Blk.selected_sched (b : Blk) (p : MPort) : (b.selected p).sched = b.sched := by cases p <;> rfl

/-- A change of the loader once a write is selected works on the loader before it. -/
theorem Blk.selected_modLdr (b : Blk) (p : MPort) (f : Loader → Loader) :
    (b.selected p).modLdr f = { b.selected p with ldr := f b.ldr } := by
  unfold Blk.modLdr
  rw [Blk.selected_ldr]

section
variable (b : Blk) (port : Nat) (hb : b.ldr.busy = false)
include hb

theorem Blk.ldrCmd_warm (hs : b.ldr.state = .ready) : b.ldrCmd port 2 none =
    (b.modLdr fun l => l.begun 2 port).toWarm := by
  unfold Blk.ldrCmd
  simp [hb, hs, Blk.modLdr, Loader.begun]

/-- A warm restart needs a configuration in force: in SAFE it is refused with error 6 (R39). -/
theorem Blk.ldrCmd_warm_safe (hs : b.ldr.state = .safe) : b.ldrCmd port 2 none = b.modLdr fun l => { l with err := 6 } := by
  unfold Blk.ldrCmd Blk.ldrErr
  simp [hb, hs]

end

/-- The block once NV_READ of port `port` has its bytes: they stand in LDR_WBUF, and the flash has had one read (R43). -/
def Blk.nvFilled (b : Blk) (port : Nat) (data : List Byte) : Blk :=
  ((b.modLdr fun l => l.begun 0x10 port).setWbuf data).modLdr fun l => { l with spi := [spiRead b.nvAddr 256] }

theorem Blk.nvFilled_ldr (b : Blk) (port : Nat) (data : List Byte) :
    (b.nvFilled port data).ldr = { b.ldr.begun 0x10 port with spi := [spiRead b.nvAddr 256] } := by
  unfold Blk.nvFilled
  rw [Blk.modLdr_ldr, Blk.setWbuf_ldr, Blk.modLdr_ldr]

theorem Blk.nvFilled_reg (b : Blk) (port : Nat) (data : List Byte) (k : Nat) (hk : k < 64) :
    (b.nvFilled port data).reg (0x04100 + 4 * k) = leAt data (4 * k) 4 := by
  unfold Blk.nvFilled
  rw [Blk.modLdr_get_reg, Blk.setWbuf_reg _ _ _ hk]

theorem Blk.ldrCmd_nvRead (b : Blk) (port : Nat) (data : List Byte) (hb : b.ldr.busy = false)
    (hs : b.ldr.state = .ready ∨ b.ldr.state = .safe) (ha : b.nvAddr % 256 = 0) :
    b.ldrCmd port 0x10 (some data) = (b.nvFilled port data).ldrEnd 0 :=
  (Blk.ldrCmd_begin b port none hb hs).2.1 data ha

/-- NV_READ ends at once: nothing of the loader but the opcode, ERR and the flash's commands has changed. -/
theorem Blk.nvFilled_ended (b : Blk) (port : Nat) (data : List Byte) (hb : b.ldr.busy = false) :
    ((b.nvFilled port data).ldrEnd 0).ldr
        = { b.ldr with opcode := 0x10, owner := 0, err := 0, spi := [⟨0x03, some b.nvAddr, 256, 1, 20⟩] }
      ∧ ((b.nvFilled port data).ldrEnd 0).pends 0 8 = true
      ∧ ∀ k, k < 64 → ((b.nvFilled port data).ldrEnd 0).reg (0x04100 + 4 * k) = leAt data (4 * k) 4 := by
  obtain ⟨msg, pends⟩ := ldrEnd_facts (b.nvFilled port data) 0
  refine ⟨?_, pends (by rw [Blk.nvFilled_ldr]; rfl), fun k hk => ?_⟩
  · rw [Blk.ldrEnd_ldr, Blk.nvFilled_ldr, ← hb]
    rfl
  · rw [msg.get_reg, Blk.modLdr_get_reg, Blk.nvFilled_reg _ _ _ _ hk]

section
variable {s : State} {p : MPort} (ht : s.testMode = 0) (hb : s.core.ldr.busy = false) (ho : s.core.Open p 0x04004)
  (hk : s.core.Keyed p) (hs : s.core.ldr.state = .ready ∨ s.core.ldr.state = .safe)
include ht hb ho hk

theorem warm_fromReady (hs : s.core.ldr.state = .ready) :
    ∃ b : Blk, Does (.warm p) s (b.answered p 0#64)
      ∧ b.ldr = { s.core.ldr with state := .warmrst, opcode := 2, busy := true, owner := mportCode p, err := 0, warmDue := false }
      ∧ b.sched.jobs = s.core.sched.jobs.filter (fun j => decide (j.wait = .free))
      ∧ b.sched.warmJobs = s.core.sched.jobs.filter (fun j => !decide (j.wait = .free)) := by
  have does := row_warm s p ht (by simp [hs]) ho hk
  rw [Blk.ldrCmd_warm _ _ (by simpa using hb) (by simpa using hs)] at does
  obtain ⟨ldr, jobs, warmJobs⟩ := Blk.toWarm_facts
    ((s.core.selected p).modLdr fun l => l.begun 2 (mportCode p))
  refine ⟨_, does, ?_, ?_, ?_⟩
  · rw [ldr, Blk.modLdr_ldr, Blk.selected_ldr]
    rfl
  · rw [jobs, Blk.modLdr_sched, Blk.selected_sched]
  · rw [warmJobs, Blk.modLdr_sched, Blk.selected_sched]

theorem warm_fromSafe (hs : s.core.ldr.state = .safe) :
    Does (.warm p) s (({ s.core.selected p with ldr := { s.core.ldr with err := 6 } } : Blk).answered p 0#64) := by
  have does := row_warm s p ht (by simp [hs]) ho hk
  rwa [Blk.ldrCmd_warm_safe _ _ (by simpa using hb) (by simpa using hs), Blk.selected_modLdr] at does

include hs

theorem reload_does : Does (.reload p) s
    ((((s.core.selected p).modLdr fun l => l.begun 1 (mportCode p)).toReload).answered
      p 0#64) := by
  have does := row_reload s p ht (ne_reload_of_ready_or_safe hs) ho hk
  rwa [(Blk.ldrCmd_begin _ _ none (by simpa using hb) (by simpa using hs)).1] at does

theorem nvRead_does (data : List Byte) (ha : s.core.nvAddr % 256 = 0) :
    ∃ b : Blk, Does (.nvRead p data) s (b.answered p 0#64)
      ∧ b.ldr = { s.core.ldr with opcode := 0x10, owner := 0, err := 0, spi := [⟨0x03, some s.core.nvAddr, 256, 1, 20⟩] }
      ∧ b.pends 0 8 = true ∧ ∀ k, k < 64 → b.reg (0x04100 + 4 * k) = leAt data (4 * k) 4 := by
  have does := row_nvRead s p data ht (ne_reload_of_ready_or_safe hs) ho hk
  have hb' : (s.core.selected p).ldr.busy = false := by simpa using hb
  rw [Blk.ldrCmd_nvRead _ _ data hb' (by simpa using hs) (by simpa using ha)] at does
  obtain ⟨ldr, rest⟩ := Blk.nvFilled_ended (s.core.selected p) (mportCode p) data hb'
  refine ⟨_, does, ?_, rest⟩
  rw [ldr, Blk.selected_ldr, Blk.selected_nvAddr]

omit hb in
/-- NV_ERASE and NV_PROGRAM are one write of LDR_CMD each. -/
theorem flashCmd_does (op : Nat) (hop : op = 0x11 ∨ op = 0x12) :
    Does (if op = 0x11 then .nvErase p else .nvProgram p) s
      (((s.core.selected p).ldrCmd (mportCode p) op none).answered p 0#64) := by
  have hl := ne_reload_of_ready_or_safe hs
  obtain rfl | rfl := hop
  · exact row_nvErase s p ht hl ho hk
  · exact row_nvProgram s p ht hl ho hk

end

/-- Settles O14: each command is one write of LDR_CMD, whose effect `Blk.ldrCmd` has one equation per case. -/
theorem loaderCommandsRun : Obligations.LoaderCommandsRun := by
  rintro s p _ _ ht rfl rfl hb ho hk hs
  refine ⟨?reload, fun h => warm_fromReady ht hb ho hk h, fun h => warm_fromSafe ht hb ho hk h,
    fun data ha => nvRead_does ht hb ho hk hs data ha, fun op hop => ?flash⟩
  case reload =>
    obtain ⟨opcode, goes⟩ := Blk.toReload_facts
      ((s.core.selected p).modLdr fun l => l.begun 1 (mportCode p))
    exact ⟨_, reload_does ht hb ho hk hs, opcode, goes⟩
  case flash =>
    have does := flashCmd_does ht ho hk hs op hop
    obtain ⟨-, -, flash⟩ := Blk.ldrCmd_begin (s.core.selected p) (mportCode p) none (by simpa using hb) (by simpa using hs)
    obtain ⟨unaligned, inUse, starts⟩ := flash op hop
    simp only [Blk.selected_nvAddr, Blk.selected_inUse, Blk.selected_wbuf, Blk.selected_ldr] at unaligned inUse starts
    refine ⟨fun ha hu => ?_, fun ha => ?_, fun ha hu => ?_⟩
    · rw [starts ha hu, Blk.selected_modLdr] at does
      exact does
    · rw [unaligned ha, Blk.selected_modLdr] at does
      exact does
    · rw [inUse ha hu, Blk.selected_modLdr] at does
      exact does

/-! ## The end of a flash command (R43) -/

/-- Status polls that a flash command may take: 400 ms for an erase, 5 ms for a program, one each 10 µs (R43). -/
def NvOp.maxPolls (o : NvOp) : Nat := if o.opcode = 0x11 then 40000 else 500

/-- How a status poll ends the operation `o`: with NV_TIMEOUT past the last poll, with error 5 where a program reads back
`back` other than what was written (`buf`), else with success. -/
def NvOp.EndsWith (o : NvOp) (busy : Bool) (back buf : List Byte) (e : Nat) : Prop :=
  busy = true ∧ o.maxPolls ≤ o.polls ∧ e = 4
    ∨ busy = false ∧ o.opcode = 0x12 ∧ back ≠ buf ∧ e = 5
    ∨ busy = false ∧ (o.opcode = 0x12 → back = buf) ∧ e = 0

/-- The commands a status poll sends: 0x05, and after a program that is over the read-back with 0x03. -/
def NvOp.pollSpi (o : NvOp) (busy : Bool) : List SpiCmd :=
  ⟨0x05, none, 1, 1, 20⟩ :: if busy = false ∧ o.opcode = 0x12 then [⟨0x03, some o.addr, 256, 1, 20⟩] else []

section
variable {b : Blk} {o : NvOp} (hn : b.ldr.nv = some o)
include hn

theorem nvStatusPollB_counts (bs : List Byte) (h : o.polls + 1 ≤ o.maxPolls) :
    nvStatusPollB true bs b =
      b.modLdr fun l => { l with nv := some { o with polls := o.polls + 1 }, spi := [⟨0x05, none, 1, 1, 20⟩] } := by
  have more : ¬ (if o.opcode = 0x11 then 40000 else 500) < o.polls + 1 := Nat.not_lt.mpr h
  unfold nvStatusPollB
  simp only [hn, if_true, if_neg more]
  rfl

theorem nvStatusPollB_ends {bz : Bool} {bs : List Byte} {e : Nat} (h : o.EndsWith bz bs b.wbuf e) :
    nvStatusPollB bz bs b = (b.modLdr fun l => { l with spi := o.pollSpi bz }).nvEnd o e := by
  have buf : ∀ f, (b.modLdr f).wbuf = b.wbuf := fun _ => rfl
  unfold nvStatusPollB
  obtain ⟨rfl, past, rfl⟩ | ⟨rfl, program, differs, rfl⟩ | ⟨rfl, same, rfl⟩ := h
  · have last : (if o.opcode = 0x11 then 40000 else 500) < o.polls + 1 := Nat.lt_succ_of_le past
    simp only [hn, if_true, if_pos last]
    rfl
  · simp [hn, buf, program, differs, NvOp.pollSpi, spiRead]
  · by_cases program : o.opcode = 0x12
    · simp [hn, buf, program, same program, NvOp.pollSpi, spiRead]
    · simp [hn, program, NvOp.pollSpi]

end

/-- The operation ends: the state before it, write protection on, BUSY clear and LDR_DONE raised (R43, R44). -/
theorem Blk.nvEnd_eq (b : Blk) (o : NvOp) (e : Nat) (hb : b.ldr.busy = true) (hw : b.ldr.warmDue = false) :
    b.nvEnd o e = (b.modLdr fun l => { l with
      state := o.from_, nv := none, wpN := false, busy := false, owner := 0, err := e }).raise 0 8 := by
  have noWarm : ((b.modLdr fun l => { l with state := o.from_, nv := none, wpN := false }).ldrEnd e).ldr.warmDue = false := by
    rw [Blk.ldrEnd_ldr]
    exact hw
  calc b.nvEnd o e = (b.modLdr fun l => { l with state := o.from_, nv := none, wpN := false }).ldrEnd e :=
        if_neg (by simp [noWarm])
    _ = _ := Blk.ldrEnd_busy _ e hb

/-! ## The end of a warm restart (R39-R41) -/

/-- A warm restart that succeeds brings the loader back to READY with the command ended, whatever was re-applied. -/
theorem warmRestartDoneB_ok (b : Blk) (hs : b.ldr.state = .warmrst) :
    ∃ c : Blk, warmRestartDoneB true b = (c.modLdr fun _ => { b.ldr with state := .ready }).ldrEnd 0 := by
  unfold warmRestartDoneB
  rw [if_neg (by simp [hs])]
  exact ⟨_, rfl⟩

theorem warmRestartDoneB_failed (b : Blk) (hs : b.ldr.state = .warmrst) : warmRestartDoneB false b = b.toReload := by
  unfold warmRestartDoneB
  simp [hs]

/-- Settles O15: a status poll counts or ends the operation; a warm restart ends in READY or goes on to RELOAD. -/
theorem flashAndRestartEnd : Obligations.FlashAndRestartEnd := by
  rintro s _ ht rfl
  refine ⟨fun o bs hs hn _ hb hw => ⟨?counts, ?ends⟩, fun hs => ⟨?restarted, ?failed⟩⟩
  case counts =>
    rintro _ rfl h
    exact runRow_does _ _ s _ ht rfl (nvStatusPollB_counts hn bs h) (by simp [hs])
  case ends =>
    rintro bz e h _ rfl
    exact runRow_raise _ _ s _ 0 8 ht rfl ((nvStatusPollB_ends hn h).trans (Blk.nvEnd_eq _ o e hb hw)) (by simp [hs])
  case restarted =>
    obtain ⟨c, hc⟩ := warmRestartDoneB_ok s.core hs
    refine ⟨_, runRow_does _ _ s _ ht rfl hc (by simp [hs]), ?_, fun hb => (ldrEnd_facts _ 0).2 hb⟩
    rw [Blk.ldrEnd_ldr, Blk.modLdr_ldr]
  case failed =>
    exact ⟨_, runRow_does _ _ s _ ht rfl (warmRestartDoneB_failed s.core hs) (by simp [hs]), toReload_state s.core⟩

end Sys2Proof.Machine

/-! SUPPORT. Proofs of the statements of the register access family: a plain register, the key unlock, semaphores, event
acknowledgement, the mailbox, refused accesses, places without a register, and contests of the two ports. -/

namespace Sys2Proof.Machine
open Sys2Proof

theorem State.Serves.functional {s : State} (h : s.Serves) : s.testMode = 0 := h.1

theorem State.Serves.not_reload {s : State} (h : s.Serves) : s.core.ldr.state ≠ .reload := by
  rw [h.2]
  decide

/-! ## What an access does, by how it is judged (R373) -/

section
variable {b : Blk} {x : Access} (sl : Blk) (room : (b.side x.port).outstanding.length < 4)
include room

/-- A write refused under R373 step 1. -/
theorem Blk.access_refusedWrite {k : Nat} (hw : x.write = true) (he : b.accErr x = some k) :
    b.access sl x =
      ((b.selected x.port).logRec 1 (mportCode x.port) x.sizeCode true k x.first).answer x 0 true := by
  have judged : (b.modSide x.port fun s => { s with remain := 0 }).accErr x = some k := (selected_accErr b x.port x).trans he
  unfold Blk.access Blk.accessAround
  simp only [Blk.makeRoom_room b x.port room, hw, if_true, judged]
  rfl

/-- A read refused under R373 step 1. -/
theorem Blk.access_refusedRead {k : Nat} (hw : x.write = false) (he : b.accErr x = some k) :
    b.access sl x = (b.logRec 1 (mportCode x.port) x.sizeCode false k x.first).answer x 0 true := by
  unfold Blk.access Blk.accessAround
  simp [Blk.makeRoom_room b x.port room, hw, he]

/-- A write dropped by semaphore enforcement (R68, R373 step 2). -/
theorem Blk.access_deniedWrite (hw : x.write = true) (he : b.accErr x = none)
    (hd : b.semDenied x.port (x.addr % 2 ^ 20 / 0x1000) = true) :
    b.access sl x =
      ((b.selected x.port).logRec 5 (mportCode x.port) x.sizeCode true 0 x.first).answer x 0 false := by
  have judged : (b.modSide x.port fun s => { s with remain := 0 }).accErr x = none := (selected_accErr b x.port x).trans he
  have denied : (b.modSide x.port fun s => { s with remain := 0 }).semDenied x.port (x.addr % 2 ^ 20 / 0x1000) = true :=
    (Blk.selected_semDenied b x.port x.port _).trans hd
  unfold Blk.access Blk.accessAround
  simp only [Blk.makeRoom_room b x.port room, hw, if_true, judged, denied]
  rfl

/-- A write that is carried out (R373 steps 3 and 4). -/
theorem Blk.access_write {k : Option Nat} {c : Blk} (hw : x.write = true) (he : b.accErr x = none)
    (hd : b.semDenied x.port (x.addr % 2 ^ 20 / 0x1000) = false)
    (hh : (b.selected x.port).writeHalves x id (decide (0 < (b.side x.port).remain)) x.halves = (k, c)) :
    b.access sl x = (c.logWrite x k).answer x 0 false := by
  have judged : (b.selected x.port).accErr x = none := (selected_accErr b x.port x).trans he
  have passed : (b.selected x.port).semDenied x.port (x.addr % 2 ^ 20 / 0x1000) = false :=
    (Blk.selected_semDenied b x.port x.port _).trans hd
  unfold Blk.access Blk.accessAround
  simp only [Blk.makeRoom_room b x.port room, hw, if_true]
  rw [show (b.modSide x.port fun s => { s with remain := 0 }) = b.selected x.port from rfl, judged]
  simp only [passed, hh, Bool.false_eq_true, if_false]

/-- A read that is carried out. -/
theorem Blk.access_read {v : Nat} {c : Blk} (hw : x.write = false) (he : b.accErr x = none)
    (hh : b.readHalves sl x.port id x.halves = (v, c)) : b.access sl x = c.answer x v false := by
  unfold Blk.access Blk.accessAround
  simp [Blk.makeRoom_room b x.port room, hw, he, hh]

end

/-! ## Access-log records of a selected write (R53) -/

theorem Blk.selected_alogPtr (b : Blk) (p : MPort) : (b.selected p).mg.alogPtr = b.mg.alogPtr := by cases p <;> rfl

/-- A record that follows a selected write changes what an event writes, is pending as ACCESS_LOG, and stands at the next
place with the time. -/
theorem Blk.logged {b c : Blk} {p : MPort} (hm : Msg (b.selected p) c) (hp : c.mg.alogPtr = b.mg.alogPtr)
    (kind port size : Nat) (write : Bool) (sub addr : Nat) :
    Msg (b.selected p) (c.logRec kind port size write sub addr)
      ∧ (c.logRec kind port size write sub addr).pends 0 0 = true
      ∧ tabGet alog0 (c.logRec kind port size write sub addr).mg.alog (b.mg.alogPtr % 16)
          = ⟨addr % 2 ^ 20, kind, port, size, write, sub, b.clock.slowEpoch % 65536⟩ := by
  have record := (Blk.logRec_at c kind port size write sub addr).1
  rw [hp, hm.clock, (Blk.selected_msg b p).clock] at record
  exact ⟨hm.trans (Blk.logRec_msg _ _ _ _ _ _ _), Blk.logRec_pends _ _ _ _ _ _ _, record⟩

theorem Blk.logWrite_some (b : Blk) (x : Access) {k : Nat} (h : k ≠ 7) :
    b.logWrite x (some k) = b.logRec k (mportCode x.port) x.sizeCode true 0 x.first := by
  unfold Blk.logWrite
  split
  next e => exact absurd (Option.some.inj e) h
  next e => rw [Option.some.inj e]
  next e => cases e

/-- The record of a 4 B write names its register. -/
theorem Blk.logWrite_write4 (b : Blk) (p : MPort) (v : Nat) {a k : Nat} {f : Fields} (hp : Plain a f) (h : k ≠ 7) :
    b.logWrite (write4 p a v) (some k) = b.logRec k (mportCode p) 2 true 0 a := by
  rw [Blk.logWrite_some _ _ h, write4_code, write4_first p a v hp.four hp.top]
  rfl

/-- A 4 B write that is dropped with a record of kind `k`: the unlock is used up, the record written and the answer given. -/
theorem dropped_does {i : Instr} {s : State} {p : MPort} {a v k : Nat} {f : Fields} (hs : s.Serves) (hi : i.wf = true)
    (hx : Sys2Proof.Machine.exec i s = runAccess i (fun _ => write4 p a v) s) (hp : Plain a f) (ho : s.core.Open p a)
    (hv : v < 2 ^ 32) (hk : k ≠ 7)
    (hw : (s.core.selected p).writeWord p a v 15 (decide (0 < (s.core.side p).remain)) none = (some k, s.core.selected p)) :
    Does i s (((s.core.selected p).logRec k (mportCode p) 2 true 0 a).answered p 0#64) := by
  unfold Does
  rw [hx]
  refine runAccess_word _ s p a v f _ hs.functional hi hp ho hv ?_ hs.not_reload
  rw [hw, Blk.logWrite_write4 _ _ _ hp hk]

/-! ## A plain register -/

theorem Blk.storedFor_reg (b : Blk) (p : MPort) {a : Nat} (h : a ≠ 0x02000) : b.storedFor p a = b.reg a := if_neg h

/-- A full write on the bus is the 4 B write of its word. -/
theorem write4_bus (p : MPort) (a v : Nat) (hv : v < 2 ^ 32) :
    (⟨p, a, if a % 8 = 0 then 0x0F else 0xF0, true, (BitVec.ofNat 64 (v * (if a % 8 = 0 then 1 else 2 ^ 32))).toNat,
        none, none⟩ : Access) = write4 p a v := by
  have data : (BitVec.ofNat 64 (v * (if a % 8 = 0 then 1 else 2 ^ 32))).toNat = v % 2 ^ 32 * (if a % 8 = 0 then 1 else 2 ^ 32) := by
    rw [BitVec.toNat_ofNat]
    split <;> omega
  unfold write4
  rw [data]

theorem lanes_lt (c : Prop) [Decidable c] : (if c then 0x0F else 0xF0) < 256 := by split <;> decide

/-- The two 4 B words of 8 B alternate. -/
theorem lane_even (a n : Nat) (ha : a % 8 = 0) : ((a + 4 * n) % 8 = 0) = (n % 2 = 0) := propext (by omega)

/-- Bits outside the writable fields read what was stored. -/
theorem Fields.bits_word_old (f : Fields) (old v hi lo : Nat) (hr : f.rw < 2 ^ 32)
    (hk : Nat.lor f.imm (Nat.lor f.key f.sqc) < 2 ^ 32)
    (hc : ∀ i, i < hi - lo + 1 → (f.rw.testBit (lo + i) || (Nat.lor f.imm (Nat.lor f.key f.sqc)).testBit (lo + i)) = false
      ∧ lo + i < 32) :
    bits (f.word old v) hi lo = bits old hi lo := by
  apply Nat.eq_of_testBit_eq
  intro i
  rw [testBit_bits, testBit_bits]
  by_cases h : i < hi - lo + 1
  · obtain ⟨outside, low⟩ := hc i h
    rw [Fields.testBit_word f old v _ hr hk, outside]
    simp [low]
  · simp [h]

theorem Blk.effect_evtMask (b : Blk) (p : MPort) (g w : Nat) (keyed arms : Bool) (fl : Option (List Byte)) (hg : g < 64) :
    b.effect p (0x03300 + 4 * g) w keyed arms fl = b.setReg (0x03300 + 4 * g) w := by
  have page : (0x03300 + 4 * g) / 0x1000 = 3 := by omega
  have offset : ¬ (0x03300 + 4 * g) % 0x1000 < 0x200 := by omega
  unfold Blk.effect
  simp only [page, if_neg offset]

/-- Settles O16: the write is the 4 B write of a plain register, and its word takes EN from `v` and the rest from the register. -/
theorem aRegisterWriteStoresItsField : Obligations.ARegisterWriteStoresItsField := by
  intro s p g v hs hg hv ho
  have even := lane_even 0x03300 g (by decide)
  refine ⟨Fields.word { rw := 0xFFFF } (s.core.reg (0x03300 + 4 * g)) v, ?_, ?en, ?rest⟩
  · unfold Does
    rw [exec_registerWrite, runContest_none]
    simp only [← even]
    rw [write4_bus p (0x03300 + 4 * g) v (by omega)]
    refine runAccess_effect _ s p _ v _ _ hs.functional ?wf (plain_evt g hg) ho (by omega) (by decide) (.inl rfl)
      (by omega) ?_ hs.not_reload
    case wf =>
      have small : 0x03300 + 4 * g < 2 ^ 20 := by omega
      simp only [wf_registerWrite, small, lanes_lt, rivalWf, decide_true, Bool.and_self]
    rw [Blk.effect_evtMask _ _ _ _ _ _ _ hg, Blk.storedFor_reg _ _ (by omega)]
    rfl
  case en =>
    rw [Fields.bits_word _ _ _ _ _ (by decide) (by decide) (by decide)]
    exact bits_of_lt v 15 hv
  case rest => exact Fields.bits_word_old _ _ _ _ _ (by decide) (by decide) (by decide)

/-! ## The key unlock (R65) -/

/-- A write of KEY_UNLOCK: the key arms, any other value calls for KEY_BAD. -/
theorem Blk.writeWord_keyUnlock (b : Blk) (p : MPort) (w : Nat) (live : Bool) (fl : Option (List Byte)) :
    b.writeWord p 0x01000 w 15 live fl =
      if w = 0x5A5AC3C3 then (none, b.modSide p fun s => { s with remain := 1024 }) else (some 4, b) := by
  unfold Blk.writeWord
  simp only [plain_key0.view, plain_key0.fields, if_true]

/-- Settles O17: the three commands by what the write of KEY_UNLOCK, or the lapse, leaves of the unlock. -/
theorem keyUnlockArmsAndLapses : Obligations.KeyUnlockArmsAndLapses := by
  intro s p hs
  refine ⟨fun ho => ?armed, fun v ho hv => ?bad, ?lapse⟩
  case armed =>
    unfold Does
    rw [exec_keyUnlock]
    refine runAccess_word _ s p _ _ _ _ hs.functional rfl plain_key0 ho (by decide) ?_ hs.not_reload
    rw [Blk.writeWord_keyUnlock, if_pos (by decide)]
    show ((s.core.selected p).modSide p fun x => { x with remain := 1024 }) = _
    exact Blk.modSide_twice s.core p _ _
  case bad =>
    have notKey : v.toNat ≠ 0x5A5AC3C3 := fun e => hv (BitVec.eq_of_toNat_eq e)
    have does := dropped_does hs rfl (exec_keyUnlock p v s) plain_key0 ho v.isLt (by decide)
      ((Blk.writeWord_keyUnlock _ p _ _ _).trans (if_neg notKey))
    obtain ⟨msg, pends, record⟩ := Blk.logged (Msg.refl (s.core.selected p)) (Blk.selected_alogPtr _ _) 4 (mportCode p) 2 true 0 0x01000
    refine ⟨_, does, msg, pends, ?_, record⟩
    rw [Blk.logRec_side, Blk.selected_side]
  case lapse =>
    unfold Does
    rw [exec_keyUnlockLapse]
    exact runRow_does _ _ s _ hs.functional rfl rfl hs.not_reload

/-! ## Semaphores (R67) -/

theorem Blk.selected_semOwner (b : Blk) (p : MPort) (n : Nat) : (b.selected p).semOwner n = b.semOwner n := by cases p <;> rfl

@[simp] theorem Blk.setSem_semOwner (b : Blk) (n : Nat) (o : Option MPort) : (b.setSem n o).semOwner n = o := tabGet_tabSet_same _ _ _ _

theorem Blk.setSem_msg (b : Blk) (n : Nat) (o : Option MPort) : Msg b (b.setSem n o) := rfl

theorem Blk.logRec_semOwner (b : Blk) (kind port size : Nat) (write : Bool) (sub addr n : Nat) :
    (b.logRec kind port size write sub addr).semOwner n = b.semOwner n := by
  unfold Blk.semOwner
  rw [Blk.logRec_sems]

theorem Blk.semReleaseOp_holder {b : Blk} {p : MPort} {n : Nat} (h : b.semOwner n = some p) :
    b.semReleaseOp p n = (true, b.setSem n none) := if_pos h

theorem Blk.semReleaseOp_other {b : Blk} {p : MPort} {n : Nat} (h : b.semOwner n ≠ some p) :
    b.semReleaseOp p n = (false, b) := if_neg h

/-- SEM_FORCE under the key frees a held semaphore and calls for SEM_FORCED. -/
theorem Blk.writeWord_semForce (b : Blk) (p : MPort) {n : Nat} {q : MPort} (hn : n < 64) (hq : b.semOwner n = some q) :
    b.writeWord p 0x0100C n 15 true none = (some 7, b.setSem n none) := by
  have named : bits n 5 0 = n := bits_of_lt n 5 hn
  unfold Blk.writeWord
  simp [plain_force.view, plain_force.fields, named, hq]

/-- SEM_FORCED names the semaphore that was freed. -/
theorem Blk.logWrite_semForced (b : Blk) (p : MPort) {n : Nat} (hn : n < 64) :
    b.logWrite (write4 p 0x0100C n) (some 7) = b.logRec 7 (mportCode p) 2 true 0 (0x01100 + 4 * n) := by
  have high : bit (write4 p 0x0100C n).be 0 = false := by simp [write4, bit]
  have data : (write4 p 0x0100C n).wdata / 2 ^ 32 = n := by
    show n % 2 ^ 32 * (if 0x0100C % 8 = 0 then 1 else 2 ^ 32) / 2 ^ 32 = n
    rw [if_neg (by decide), Nat.mul_div_cancel _ (by decide), Nat.mod_eq_of_lt (by omega)]
  unfold Blk.logWrite
  simp only [high, data, write4_code, bits_of_lt n 5 hn, Bool.false_eq_true, if_false]
  rfl

theorem mportCode_lt (q : MPort) : mportCode q < 2 ^ 32 := by cases q <;> decide

/-- SEM_ACQUIRE answers the code it reads in the lanes of its word. -/
theorem semAcquire_does {s : State} {p : MPort} {n v : Nat} {c : Blk} (hs : s.Serves) (hn : n < 64)
    (ho : s.core.Open p (0x01100 + 4 * n)) (hv : v < 2 ^ 32) (hr : s.core.readWord s.slow p (0x01100 + 4 * n) = (v, c)) :
    Does (.semAcquire ⟨p, none⟩ n) s (c.answered p (BitVec.ofNat 64 (v * (if n % 2 = 0 then 1 else 2 ^ 32)))) := by
  have wf : Instr.wf (.semAcquire ⟨p, none⟩ n) = true := by simp [hn, rivalWf]
  have read := runAccess_read _ s p _ _ _ _ hs.functional wf (plain_sem n hn) ho hr hs.not_reload
  simp only [land_lanes v hv, lane_even 0x01100 n (by decide)] at read
  exact (exec_semAcquire p n none s).trans read

/-- Settles O18: reads by `read_sem`, releases by `write_sem`, force by `Blk.writeWord_semForce`. -/
theorem semaphoresFollowTheTable : Obligations.SemaphoresFollowTheTable := by
  intro s p n hs hn ho
  have owner := Blk.selected_semOwner s.core p n
  have readOf := read_sem s.core s.slow p n hn
  refine ⟨fun free => ?acquire, fun q held => ?held, fun mine => ?release, fun other => ?violation, fun q held hf hk => ?force⟩
  case acquire =>
    rw [free] at readOf
    have does := semAcquire_does hs hn ho (by decide) readOf
    rwa [Nat.zero_mul] at does
  case held =>
    rw [held] at readOf
    exact semAcquire_does hs hn ho (mportCode_lt q) readOf
  case release =>
    unfold Does
    rw [exec_semRelease]
    refine runAccess_word _ s p _ _ _ _ hs.functional (by simp [hn]) (plain_sem n hn) ho (by decide) ?_ hs.not_reload
    rw [write_sem _ _ _ _ _ hn, Blk.semReleaseOp_holder (owner.trans mine)]
    rfl
  case violation =>
    have does := dropped_does (k := 6) hs (by simp [hn]) (exec_semRelease p n s) (plain_sem n hn) ho (by decide) (by decide)
      (by rw [write_sem _ _ _ _ _ hn, Blk.semReleaseOp_other (owner.symm ▸ other)]; rfl)
    obtain ⟨msg, pends, record⟩ := Blk.logged (Msg.refl (s.core.selected p)) (Blk.selected_alogPtr _ _)
      6 (mportCode p) 2 true 0 (0x01100 + 4 * n)
    rw [Nat.mod_eq_of_lt (plain_sem n hn).top] at record
    exact ⟨_, does, msg, pends, (Blk.logRec_semOwner _ _ _ _ _ _ _ _).trans owner, record⟩
  case force =>
    obtain ⟨msg, pends, record⟩ := Blk.logged (Blk.setSem_msg (s.core.selected p) n none) (Blk.selected_alogPtr s.core p)
      7 (mportCode p) 2 true 0 (0x01100 + 4 * n)
    rw [Nat.mod_eq_of_lt (plain_sem n hn).top] at record
    refine ⟨_, ?_, msg, pends, (Blk.logRec_semOwner _ _ _ _ _ _ _ _).trans (Blk.setSem_semOwner _ _ _), record⟩
    unfold Does
    rw [exec_semForce]
    refine runAccess_word _ s p _ _ _ _ hs.functional (by simp [hn]) plain_force hf (by omega) ?_ hs.not_reload
    have live : decide (0 < (s.core.side p).remain) = true := decide_eq_true hk
    rw [live, Blk.writeWord_semForce _ _ hn (owner.trans held), Blk.logWrite_semForced _ _ hn]

/-! ## KEY fields without the unlock (R65) -/

/-- A write of DPT_DRAIN without the unlock changes nothing and calls for KEY_VIOL. -/
theorem Blk.writeWord_drainUnkeyed (b : Blk) (p : MPort) (w : Nat) (fl : Option (List Byte)) :
    b.writeWord p 0x12320 w 15 false fl = (some 3, b) := by
  unfold Blk.writeWord
  simp only [plain_dptDrain.view, plain_dptDrain.fields]
  rfl

/-- Settles O22: the write is dropped with a record of kind KEY_VIOL. -/
theorem keyFieldsNeedTheUnlock : Obligations.KeyFieldsNeedTheUnlock := by
  intro s p m hs hm ho hk
  have dead : decide (0 < (s.core.side p).remain) = false := decide_eq_false hk
  have does := dropped_does (k := 3) hs (by simp [hm]) (exec_dptDrain p m s) plain_dptDrain ho (by omega) (by decide)
    (by rw [dead]; exact Blk.writeWord_drainUnkeyed _ p m none)
  obtain ⟨msg, pends, record⟩ := Blk.logged (Msg.refl (s.core.selected p)) (Blk.selected_alogPtr _ _) 3 (mportCode p) 2 true 0 0x12320
  exact ⟨_, does, msg, pends, record⟩

/-! ## Events and their acknowledgement (R64) -/

/-- After power-on reset the block holds nothing but the counter of unstated values (R332). -/
theorem exec_powerOnReset (m : Nat) (s : State) (h : m < 4) : ∃ t : State,
    Sys2Proof.Machine.exec (.powerOnReset m) s = .next t ∧ t.core = { freeNo := s.core.freeNo } :=
  ⟨_, if_pos h, rfl⟩

theorem Blk.effect_evtAck (b : Blk) (p : MPort) (g w : Nat) (keyed arms : Bool) (fl : Option (List Byte)) (hg : g < 64) :
    b.effect p (0x03100 + 4 * g) w keyed arms fl = b.evtAckWrite p g w := by
  have page : (0x03100 + 4 * g) / 0x1000 = 3 := by omega
  have offset : (0x03100 + 4 * g) % 0x1000 = 0x100 + 4 * g := by omega
  have low : 0x100 + 4 * g < 0x200 := by omega
  have group : (0x100 + 4 * g - 0x100) / 4 = g := by omega
  unfold Blk.effect
  simp only [page, offset, if_pos low, group]

theorem Blk.evtAckWrite_fresh {b : Blk} {p : MPort} {g w : Nat}
    (h : bits w 31 24 = (tabGet ({} : EvGroup) b.mg.groups g).seq ∧ tabGet 256 (b.side p).evtCount g = 0) :
    b.evtAckWrite p g w = acked b b g (bits w 15 0) := if_pos h

theorem Blk.evtAckWrite_stale {b : Blk} {p : MPort} {g w : Nat}
    (h : ¬ (bits w 31 24 = (tabGet ({} : EvGroup) b.mg.groups g).seq ∧ tabGet 256 (b.side p).evtCount g = 0)) :
    b.evtAckWrite p g w = b.modSide p fun x => { x with ackStale := incr 16 x.ackStale } := if_neg h

theorem bit_land_xor_mask (e m i : Nat) (hm : m < 2 ^ 16) :
    bit (Nat.land e (Nat.xor 0xFFFF m)) i = (bit e i && !(bit m i) && decide (i < 16)) := by
  have mask : (0xFFFF : Nat).testBit i = decide (i < 16) := Nat.testBit_two_pow_sub_one 16 i
  have high : i < 16 ∨ m.testBit i = false := by
    rcases Nat.lt_or_ge i 16 with h | h
    · exact .inl h
    · exact .inr (Nat.testBit_lt_two_pow (Nat.lt_of_lt_of_le hm (Nat.pow_le_pow_right (by decide) h)))
  simp only [bit_eq_testBit]
  show (e &&& (0xFFFF ^^^ m)).testBit i = _
  rw [Nat.testBit_and, Nat.testBit_xor, mask]
  rcases high with h | h <;> simp [h]

/-- An acknowledge clears exactly the masked pending bits of its group. -/
theorem acked_pends (b : Blk) (g m i : Nat) (hm : m < 2 ^ 16) :
    (acked b b g m).pends g i = (b.pends g i && !(bit m i) && decide (i < 16)) := by
  unfold Blk.pends acked
  rw [tabGet_tabSet_same]
  exact bit_land_xor_mask _ _ _ hm

theorem acked_other (b : Blk) {g h : Nat} (m : Nat) (hh : h ≠ g) :
    tabGet ({} : EvGroup) (acked b b g m).mg.groups h = tabGet {} b.mg.groups h := tabGet_tabSet_other _ _ _ _ _ hh

theorem Blk.selected_groups (b : Blk) (p : MPort) : (b.selected p).mg.groups = b.mg.groups := by cases p <;> rfl

theorem Blk.selected_pends (b : Blk) (p : MPort) (g i : Nat) : (b.selected p).pends g i = b.pends g i := by cases p <;> rfl

/-- The word of EVT_ACK carries SEQ and MASK as they were written. -/
theorem ackWord_bits {q m : Nat} (old : Nat) (hq : q < 256) (hm : m < 2 ^ 16) :
    bits (Fields.word { sqc := 0xFF00FFFF } old (q * 2 ^ 24 + m)) 31 24 = q
      ∧ bits (Fields.word { sqc := 0xFF00FFFF } old (q * 2 ^ 24 + m)) 15 0 = m := by
  rw [Fields.bits_word _ _ _ _ _ (by decide) (by decide) (by decide),
    Fields.bits_word _ _ _ _ _ (by decide) (by decide) (by decide)]
  unfold bits
  omega

/-- EVT_ACK is one write of its register with the unlock used up. -/
theorem evtAck_does {s : State} {p : MPort} {g q m : Nat} (hs : s.Serves) (hg : g < 64) (hq : q < 256) (hm : m < 2 ^ 16)
    (ho : s.core.Open p (0x03100 + 4 * g)) :
    Does (.evtAck p g q m) s (((s.core.selected p).evtAckWrite p g
      (Fields.word { sqc := 0xFF00FFFF } (s.core.storedFor p (0x03100 + 4 * g)) (q * 2 ^ 24 + m))).answered p 0#64) := by
  unfold Does
  rw [exec_evtAck]
  have wf : Instr.wf (.evtAck p g q m) = true := by simp only [wf_evtAck, hg, hq, hm, decide_true, Bool.and_self]
  exact runAccess_effect _ s p _ _ _ _ hs.functional wf (plain_ack g hg) ho (by omega) (by decide) (.inl rfl) (by omega)
    (Blk.effect_evtAck _ _ _ _ _ _ _ hg) hs.not_reload

/-- Settles O19: the read by `read_stat`, the write by what EVT_ACK compares, the count by what an event marks. -/
theorem acknowledgeNeedsAFreshRead : Obligations.AcknowledgeNeedsAFreshRead := by
  intro s p g hs hg
  refine ⟨fun ho => ?read, fun q m hq hm ho => ?ack, fun m hm => ?reset, fun b h i => ⟨markEvent_count b p g h i, ?marked⟩⟩
  case read =>
    have word : fld (tabGet ({} : EvGroup) s.core.mg.groups g).seq 24 8
        + fld (tabGet ({} : EvGroup) s.core.mg.groups g).pending 0 16 < 2 ^ 32 := by
      unfold fld
      omega
    have h := runAccess_read (.evtStatRead p g) s p _ _ _ _ hs.functional (by simp [hg]) (plain_stat g hg) ho
      (read_stat s.core s.slow p g hg) hs.not_reload
    rw [land_lanes _ word] at h
    simp only [lane_even 0x03000 g (by decide)] at h
    exact (exec_evtStatRead p g s).trans h
  case ack =>
    have does := evtAck_does hs hg hq hm ho
    obtain ⟨seq, mask⟩ := ackWord_bits (s.core.storedFor p (0x03100 + 4 * g)) hq hm
    have judged : (bits (Fields.word { sqc := 0xFF00FFFF } (s.core.storedFor p (0x03100 + 4 * g)) (q * 2 ^ 24 + m)) 31 24
          = (tabGet ({} : EvGroup) (s.core.selected p).mg.groups g).seq ∧ tabGet 256 ((s.core.selected p).side p).evtCount g = 0)
        ↔ (q = (tabGet ({} : EvGroup) s.core.mg.groups g).seq ∧ tabGet 256 (s.core.side p).evtCount g = 0) := by
      rw [seq, Blk.selected_groups, Blk.selected_side]
    refine ⟨fun fresh => ?_, fun stale => ?_⟩
    · rw [Blk.evtAckWrite_fresh (judged.mpr fresh), mask] at does
      refine ⟨_, does, rfl, fun i => ?_, fun h hh => ?_⟩
      · rw [acked_pends _ _ _ _ hm, Blk.selected_pends]
      · rw [acked_other _ _ hh, Blk.selected_groups]
    · rw [Blk.evtAckWrite_stale (mt judged.mp stale)] at does
      exact does
  case reset =>
    obtain ⟨t, next, core⟩ := exec_powerOnReset m s hm
    refine ⟨t, next, ?_⟩
    rw [core]
    cases p <;> rfl
  case marked => exact Blk.markEvent_pends b h i h i (.inr ⟨rfl, rfl⟩)

/-! ## The mailbox (R63) -/

theorem Blk.modPort_side (b : Blk) (n : Nat) (f : Port → Port) (p : MPort) : (b.modPort n f).side p = b.side p := by
  cases p <;> rfl

/-- The word of MBX_SEL carries CLASS and INDEX as they were written. -/
theorem selWord_bits {c i : Nat} (old : Nat) (hc : c < 256) (hi : i < 2 ^ 18) :
    bits (Fields.word { rw := 0xFF03FFFF } old (c * 2 ^ 24 + i)) 31 24 = c
      ∧ bits (Fields.word { rw := 0xFF03FFFF } old (c * 2 ^ 24 + i)) 17 0 = i := by
  rw [Fields.bits_word _ _ _ _ _ (by decide) (by decide) (by decide),
    Fields.bits_word _ _ _ _ _ (by decide) (by decide) (by decide)]
  unfold bits
  omega

/-- A mailbox that holds the selection of class `c` and index `i` names both. -/
theorem Mailbox.sel_parts {x : Mailbox} {c i : Nat} (hc : c < 256) (hi : i < 2 ^ 18) (h : x.sel = c * 2 ^ 24 + i) :
    x.selClass = c ∧ x.selIndex = i := by
  unfold Mailbox.selClass Mailbox.selIndex bits
  omega

theorem Blk.effect_mbxSel (b : Blk) (p : MPort) (w : Nat) (keyed arms : Bool) (fl : Option (List Byte)) :
    b.effect p 0x02000 w keyed arms fl = b.mbxSelect p w := by
  have page : (0x02000 : Nat) / 0x1000 = 2 := by decide
  unfold Blk.effect
  simp only [page]

/-- MBX_SEL_WRITE is one write of MBX_SEL. -/
theorem mbxSelWrite_does {s : State} {p : MPort} {c i : Nat} (hs : s.Serves) (hc : c < 256) (hi : i < 2 ^ 18)
    (ho : s.core.Open p 0x02000) :
    Does (.mbxSelWrite p c i) s (((s.core.selected p).mbxSelect p
      (Fields.word { rw := 0xFF03FFFF } (s.core.storedFor p 0x02000) (c * 2 ^ 24 + i))).answered p 0#64) := by
  unfold Does
  rw [exec_mbxSelWrite]
  have wf : Instr.wf (.mbxSelWrite p c i) = true := by simp only [wf_mbxSelWrite, hc, hi, decide_true, Bool.and_self]
  exact runAccess_effect _ s p _ _ _ _ hs.functional wf plain_sel ho (by decide) (by decide) (.inl rfl) (by omega)
    (Blk.effect_mbxSel _ _ _ _ _ _) hs.not_reload

section
variable {b : Blk} {p : MPort} (hf : (b.side p).mbx.state = .fetch)
include hf

section
variable (hn : (b.side p).mbx.backing = false)
include hn

theorem mbxTimeoutB_error : mbxTimeoutB p b = b.mbxError p 3 := by
  simp [mbxTimeoutB, hf, hn]

theorem mbxCaptureB_bad (hg : b.mbxGood (b.side p).mbx.selClass (b.side p).mbx.selIndex = false) :
    mbxCaptureB p b = b.mbxError p 1 := by
  simp [mbxCaptureB, hf, hn, hg]

variable (hg : b.mbxGood (b.side p).mbx.selClass (b.side p).mbx.selIndex = true)
include hg

theorem mbxCaptureB_off (ho : b.mbxOn (b.side p).mbx.selClass (b.side p).mbx.selIndex = false) :
    mbxCaptureB p b = b.mbxError p 2 := by
  simp [mbxCaptureB, hf, hn, hg, ho]

theorem mbxCaptureB_valid (ho : b.mbxOn (b.side p).mbx.selClass (b.side p).mbx.selIndex = true)
    (hb : b.mbxBacked (b.side p).mbx.selClass (b.side p).mbx.selIndex = false) :
    mbxCaptureB p b = b.mbxValid p (b.side p).mbx.selClass (b.mbxValue (b.side p).mbx.selClass (b.side p).mbx.selIndex) := by
  simp [mbxCaptureB, hf, hn, hg, ho, hb]

end

/-- The backing read ends by whether its tile reads well; its tag is free again. -/
theorem mbxBackingReadDoneB_data {n t : Nat} {r : TagRec} (bs : List Byte)
    (hn : (b.side p).mbx.backing = true) (hr : b.findRead (isMbxRead p) = some (n, t, r)) :
    mbxBackingReadDoneB p (.data bs) b =
      if tileOk bs then (b.modPort n fun v => v.freeTagAt t false).mbxValid p (b.side p).mbx.selClass (runOfTile {} bs).run.bytesMoved
      else (b.modPort n fun v => v.freeTagAt t false).mbxError p 4 := by
  unfold mbxBackingReadDoneB
  simp only [hr]
  show ((b.modPort n fun v => v.freeTagAt t false).mbxBackEnd p (.data bs)) = _
  unfold Blk.mbxBackEnd
  simp [Blk.modPort_side, hf, hn]

end

/-- In ERROR the mailbox keeps the selection alone, and CLASS and WORDS read 0 (log 23). -/
theorem Blk.mbxError_eq (b : Blk) (p : MPort) (e : Nat) :
    b.mbxError p e = b.modSide p fun y => { y with mbx := { state := .error, sel := (b.side p).mbx.sel, err := e } } := by
  unfold Blk.mbxError Blk.modMbx
  exact Blk.modSide_congr b p _ _ rfl

/-- In VALID the mailbox holds the class, its words and the value captured. -/
theorem Blk.mbxValid_eq (b : Blk) (p : MPort) (c v : Nat) :
    b.mbxValid p c v = b.modSide p fun y => { y with mbx :=
      { state := .valid, sel := (b.side p).mbx.sel, err := 0, cls := c, words := mbxWords c, value := v, backing := false } } := by
  unfold Blk.mbxValid Blk.modMbx
  exact Blk.modSide_congr b p _ _ rfl

/-- The read of a mailbox word in VALID; that of the highest word ends the capture. -/
theorem Blk.readWord_lastMbx (b sl : Blk) (p : MPort) {k : Nat} (hk : k < 4) (hv : (b.side p).mbx.state = .valid)
    (hw : (b.side p).mbx.words = k + 1) :
    b.readWord sl p (0x02010 + 4 * k) =
      ((b.side p).mbx.value / 2 ^ (32 * k) % 2 ^ 32, b.modMbx p fun x => { x with state := .idle }) := by
  have inside : 0x02010 ≤ 0x02010 + 4 * k ∧ 0x02010 + 4 * k < 0x02020 := by omega
  have word : (0x02010 + 4 * k - 0x02010) / 4 = k := by omega
  unfold Blk.readWord
  rw [if_pos inside, word]
  simp [Blk.mbxRead, hv, hw]

/-- Settles O20: the selection by `mbxSelect_frame`, each end of a fetch and the read of the last word by its equation. -/
theorem mailboxFollowsTheTable : Obligations.MailboxFollowsTheTable := by
  intro s p hs
  refine ⟨fun c i hc hi ho => ?select, ?capture, ?backing, ?last⟩
  case select =>
    obtain ⟨cls, idx⟩ := selWord_bits (s.core.storedFor p 0x02000) hc hi
    obtain ⟨msg, fetch, sel⟩ := mbxSelect_frame (s.core.selected p) p
      (Fields.word { rw := 0xFF03FFFF } (s.core.storedFor p 0x02000) (c * 2 ^ 24 + i))
    rw [cls, idx] at sel
    exact ⟨_, mbxSelWrite_does hs hc hi ho, (Blk.selected_msg s.core p).trans msg, fetch, Mailbox.sel_parts hc hi sel⟩
  case capture =>
    rintro _ rfl hf hn hb
    refine ⟨fun hg ho => ?_, fun hg => ?_, fun hg ho => ?_, ?_⟩
    · exact runRow_does _ _ s _ hs.functional rfl ((mbxCaptureB_valid hf hn hg ho hb).trans (Blk.mbxValid_eq _ _ _ _)) hs.not_reload
    · exact runRow_does _ _ s _ hs.functional rfl ((mbxCaptureB_bad hf hn hg).trans (Blk.mbxError_eq _ _ _)) hs.not_reload
    · exact runRow_does _ _ s _ hs.functional rfl ((mbxCaptureB_off hf hn hg ho).trans (Blk.mbxError_eq _ _ _)) hs.not_reload
    · exact runRow_does _ _ s _ hs.functional rfl ((mbxTimeoutB_error hf hn).trans (Blk.mbxError_eq _ _ _)) hs.not_reload
  case backing =>
    rintro _ n t r bs rfl hf hn hr
    have ends := mbxBackingReadDoneB_data hf bs hn hr
    refine ⟨fun good => ?_, fun bad => ?_⟩
    · rw [if_pos good, Blk.mbxValid_eq, Blk.modPort_side] at ends
      exact runRow_does _ _ s _ hs.functional rfl ends hs.not_reload
    · rw [if_neg (by simp [bad]), Blk.mbxError_eq, Blk.modPort_side] at ends
      exact runRow_does _ _ s _ hs.functional rfl ends hs.not_reload
  case last =>
    rintro _ rfl hv h1 h4 ho
    have low : (s.core.side p).mbx.words - 1 < 4 := by omega
    have even : ((0x02010 + 4 * ((s.core.side p).mbx.words - 1)) % 8 = 0) = ((s.core.side p).mbx.words % 2 = 1) := propext (by omega)
    have read := Blk.access_read4 s.core s.slow p _ _ (plain_mbx _ low) ho
    rw [Blk.readWord_lastMbx _ _ _ low hv (by omega), land_lanes _ (Nat.mod_lt _ (by decide))] at read
    simp only [even] at read
    have idle : (s.core.modMbx p fun x => { x with state := .idle })
        = s.core.modSide p fun y => { y with mbx := { (s.core.side p).mbx with state := .idle } } := Blk.modSide_congr _ _ _ _ rfl
    rw [idle] at read
    unfold Does
    rw [exec_mbxLastWordRead]
    exact runAccess_does _ _ s _ hs.functional rfl read hs.not_reload

/-! ## Refused writes (R50, R68) -/

/-- Settles O21: a refusal and a denial by what the access then does, the record by `refuse_core`. -/
theorem refusedWriteIsLoggedAndDropped : Obligations.RefusedWriteIsLoggedAndDropped := by
  rintro s p a be w _ hs ha hb rfl room
  refine ⟨fun k he => ?_, fun he hd => ?_⟩
  · exact refuse_core s p a be w _ hs ha hb rfl true 1 k (Blk.access_refusedWrite s.slow room rfl he)
  · rw [← Nat.mod_eq_of_lt ha] at hd
    exact refuse_core s p a be w _ hs ha hb rfl false 5 0 (Blk.access_deniedWrite s.slow room rfl he hd)

/-! ## Guarded pages (R57) -/

theorem decodeAddr_guarded {a : Nat} (h : a < 0x6000) : decodeAddr a = (a / 4 * 4, 0) := by
  have page : guarded (a / 0x1000) = true := decide_eq_true (by omega)
  unfold decodeAddr
  simp only [page, if_true]

/-- The words an access reaches: one or both of the 8 B it lies in. -/
theorem Access.mem_halves {x : Access} {h : Nat × Nat} (hm : h ∈ x.halves) :
    h.1 = x.addr / 8 * 8 % 2 ^ 20 ∨ h.1 = x.addr / 8 * 8 % 2 ^ 20 + 4 := by
  unfold Access.halves at hm
  obtain ⟨mem, -⟩ := List.mem_filter.mp hm
  simp only [List.mem_cons, List.not_mem_nil, or_false] at mem
  rcases mem with rfl | rfl
  · exact .inl rfl
  · exact .inr rfl

/-- An access whose bytes form a group reaches a word. -/
theorem Access.halves_ne_nil {x : Access} (hb : x.be < 256) (ha : x.aligned = true) : x.halves ≠ [] := by
  intro nil
  have both := List.filter_eq_nil_iff.mp nil
  have low : x.be % 16 = 0 := by simpa using both (_, _) (List.mem_cons_self ..)
  have high : x.be / 16 % 16 = 0 := by simpa using both (_, _) (List.mem_cons_of_mem _ (List.mem_cons_self ..))
  have empty : x.be = 0 := by omega
  rw [Access.aligned, empty] at ha
  exact absurd ha (by decide)

/-- Address `a` is a word of a guarded page, and no register stands there. -/
structure Unregistered (a : Nat) : Prop where
  low : a < 0x6000
  word : a / 4 * 4 = a
  absent : regFields a = none

namespace Unregistered
variable {a : Nat} (h : Unregistered a)
include h

theorem view : decodeAddr a = (a, 0) := by rw [decodeAddr_guarded h.low, h.word]

theorem fields : fieldsAt a = none := by unfold fieldsAt; rw [h.view]; exact h.absent

theorem page : guarded (a / 0x1000) = true := decide_eq_true (by have := h.low; omega)

theorem powered (b : Blk) : b.on (regPd a) = true := by
  have domain : regPd a = 0 := if_pos (.inl (by have := h.low; omega))
  rw [domain]
  rfl

/-- A read finds zero and does nothing: the words whose reads act are registers. -/
theorem readWord (b sl : Blk) (p : MPort) : b.readWord sl p a = (0, b) := by
  have noRegister : ∀ f, ¬ Plain a f := fun f hp => nomatch h.absent.symm.trans hp.fields
  have place : ∀ lo, lo % 4 = 0 → lo ≤ a → lo + 4 * ((a - lo) / 4) = a := by
    have := h.word
    omega
  have notMbx : ¬ (0x02010 ≤ a ∧ a < 0x02020) := fun hr =>
    noRegister _ (place 0x02010 (by decide) hr.1 ▸ plain_mbx ((a - 0x02010) / 4) (by omega))
  have notSem : ¬ (0x01100 ≤ a ∧ a < 0x01200) := fun hr =>
    noRegister _ (place 0x01100 (by decide) hr.1 ▸ plain_sem ((a - 0x01100) / 4) (by omega))
  have notStat : ¬ (0x03000 ≤ a ∧ a < 0x03100) := fun hr =>
    noRegister _ (place 0x03000 (by decide) hr.1 ▸ plain_stat ((a - 0x03000) / 4) (by omega))
  have zero : b.regValue sl p a = 0 := by unfold Blk.regValue; rw [h.absent]
  unfold Blk.readWord
  rw [if_neg notMbx, if_neg notSem, if_neg notStat, zero]

/-- A write does nothing and calls for UNIMPL. -/
theorem writeWord (b : Blk) (p : MPort) (w lanes : Nat) (live : Bool) (fl : Option (List Byte)) :
    b.writeWord p a w lanes live fl = (some 8, b) := by
  unfold Blk.writeWord
  simp only [h.view, h.absent, h.page, if_true]

end Unregistered

theorem Blk.readHalves_unregistered (b sl : Blk) (p : MPort) : ∀ l : List (Nat × Nat), (∀ h ∈ l, Unregistered h.1) →
    b.readHalves sl p id l = (0, b)
  | [], _ => rfl
  | (a, lanes) :: t, hl => by
    have ha : Unregistered a := hl _ (List.mem_cons_self ..)
    have rest := Blk.readHalves_unregistered b sl p t fun h hm => hl h (List.mem_cons_of_mem _ hm)
    unfold Blk.readHalves
    simp only [ha.view, ha.readWord b sl p, id_eq, ite_self, rest]
    show (Nat.land 0 (laneMask lanes) * _ + 0, b) = (0, b)
    rw [show Nat.land 0 (laneMask lanes) = 0 from Nat.zero_and _, Nat.zero_mul]

theorem Blk.writeHalves_unregistered (b : Blk) (x : Access) : ∀ (l : List (Nat × Nat)) (live : Bool), (∀ h ∈ l, Unregistered h.1) →
    b.writeHalves x id live l = (if l = [] then none else some 8, b)
  | [], _, _ => rfl
  | (a, lanes) :: t, live, hl => by
    have ha : Unregistered a := hl _ (List.mem_cons_self ..)
    have rest := Blk.writeHalves_unregistered b x t false fun h hm => hl h (List.mem_cons_of_mem _ hm)
    unfold Blk.writeHalves
    simp only [ha.writeWord, id_eq, ite_self, rest]
    rfl

/-- The words that an access of a guarded page reaches lie in the page. -/
theorem Access.unregistered {x : Access} (ha : x.addr < 0x6000) (hr : ∀ h ∈ x.halves, regFields h.1 = none) :
    ∀ h ∈ x.halves, Unregistered h.1 := by
  intro h hm
  have place := Access.mem_halves hm
  exact ⟨by omega, by omega, hr h hm⟩

/-- An aligned access of a guarded page that reaches no register is not refused under R373 step 1. -/
theorem accErr_unregistered (b : Blk) {x : Access} (ha : x.addr < 0x6000) (hal : x.aligned = true)
    (hu : ∀ h ∈ x.halves, Unregistered h.1) : b.accErr x = none := by
  have page : x.addr % 2 ^ 20 / 0x1000 < 6 := by omega
  have mapped : pageCode (x.addr % 2 ^ 20 / 0x1000) ≠ 0xE :=
    (by decide : ∀ n, n < 6 → pageCode n ≠ 0xE) _ page
  have safe : guarded (x.addr % 2 ^ 20 / 0x1000) = true := decide_eq_true page
  have refusedNowhere : ∀ f : Nat → Bool, (∀ a, Unregistered a → f a = false) → (x.halves.map (·.1)).any f = false := by
    intro f hf
    rw [List.any_map, List.any_eq_false]
    exact fun h hm => by simp [hf h.1 (hu h hm)]
  have on := refusedNowhere (fun a => !b.on (regPd (decodeAddr a).1)) fun a h => by simp [h.view, h.powered b]
  have wide := refusedNowhere wideSide fun a h => by simp [wideSide, h.fields]
  have narrow := refusedNowhere narrowBad fun a h => by simp [narrowBad, h.fields]
  have view := refusedNowhere aliasBad fun a h => by simp [aliasBad, h.view]
  unfold Blk.accErr
  simp only [hal, mapped, safe, on, wide, narrow, view, Bool.not_true, Bool.and_false, Bool.false_eq_true, if_false]

section
variable {b : Blk} {x : Access} (sl : Blk) (room : (b.side x.port).outstanding.length < 4) (ha : x.addr < 0x6000)
  (hal : x.aligned = true) (hr : ∀ h ∈ x.halves, regFields h.1 = none)
include room ha hal hr

theorem Blk.access_unregisteredRead (hw : x.write = false) : b.access sl x = b.answer x 0 false :=
  have hu := Access.unregistered ha hr
  Blk.access_read sl room hw (accErr_unregistered b ha hal hu) (Blk.readHalves_unregistered b sl x.port x.halves hu)

theorem Blk.access_unregisteredWrite (hw : x.write = true) (hb : x.be < 256)
    (hd : b.semDenied x.port (x.addr % 2 ^ 20 / 0x1000) = false) :
    b.access sl x = ((b.selected x.port).logRec 8 (mportCode x.port) x.sizeCode true 0 x.first).answer x 0 false := by
  have hu := Access.unregistered ha hr
  have halves := Blk.writeHalves_unregistered (b.selected x.port) x x.halves (decide (0 < (b.side x.port).remain)) hu
  rw [if_neg (Access.halves_ne_nil hb hal)] at halves
  rw [Blk.access_write sl room hw (accErr_unregistered b ha hal hu) hd halves, Blk.logWrite_some _ _ (by decide)]

end

/-- Settles O58: of the words of such an access a read finds zero, and a write calls for UNIMPL. -/
theorem guardedPagesWithoutARegister : Obligations.GuardedPagesWithoutARegister := by
  refine ⟨fun a ha => decodeAddr_guarded ha, fun s p a be w x hs ha hb room => ⟨?read, ?write⟩⟩
  case read =>
    rintro rfl hal hr sl
    exact (Blk.access_unregisteredRead sl room ha hal hr rfl).trans (Blk.answer_eq _ _ _ rfl)
  case write =>
    intro hx hal hr hd
    have small : a < 2 ^ 20 := by omega
    have passed : s.core.semDenied p (a % 2 ^ 20 / 0x1000) = false := by rwa [Nat.mod_eq_of_lt small]
    have wf : Instr.wf (.registerWrite ⟨p, none⟩ a be w) = true := by
      simp only [wf_registerWrite, small, hb, rivalWf, decide_true, Bool.and_self]
    obtain ⟨msg, pends, record⟩ := Blk.logged (Msg.refl (s.core.selected p)) (Blk.selected_alogPtr _ _) 8 (mportCode p)
      x.sizeCode true 0 x.first
    refine ⟨_, ?_, msg, pends, record⟩
    unfold Does
    rw [exec_registerWrite, runContest_none]
    refine runAccess_does _ _ s _ hs.functional wf ?_ hs.not_reload
    subst hx
    exact (Blk.access_unregisteredWrite s.slow room ha hal hr rfl hb passed).trans (Blk.answer_eq _ _ _ rfl)

/-! ## Unallocated pages (R58) -/

/-- Word `k` of ID_PAGE_DECODE holds the codes of eight pages. -/
def pageDecode (k : Nat) : Nat := (List.range 8).foldl (fun w i => w + pageCode (k * 8 + i) * 16 ^ i) 0

theorem regFields_pageDecode {k : Nat} (hk : k < 32) : regFields (0x100 + 4 * k) = some {} := by
  have page : (0x100 + 4 * k) / 0x1000 = 0 := by omega
  have offset : (0x100 + 4 * k) % 0x1000 = 0x100 + 4 * k := by omega
  unfold regFields
  simp only [page, offset]
  exact if_pos (.inr ⟨by omega, by omega⟩)

theorem Blk.roStatus_pageDecode (b : Blk) (p : MPort) {k : Nat} (hk : k < 32) : b.roStatus p (0x100 + 4 * k) = pageDecode k := by
  have page : (0x100 + 4 * k) / 0x1000 = 0 := by omega
  have offset : (0x100 + 4 * k) % 0x1000 = 0x100 + 4 * k := by omega
  have word : (0x100 + 4 * k - 0x100) / 4 = k := by omega
  unfold Blk.roStatus
  simp only [page, offset]
  unfold Blk.idStatus
  split
  case h_6 =>
    rw [word]
    rfl
  all_goals omega

theorem Blk.slowStatus_pageDecode (b : Blk) {k : Nat} (hk : k < 32) : b.slowStatus (0x100 + 4 * k) = 0 := by
  have page : (0x100 + 4 * k) / 0x1000 = 0 := by omega
  unfold Blk.slowStatus
  simp only [page]

theorem Blk.regValue_readOnly (b sl : Blk) (p : MPort) {a : Nat} (h : regFields a = some {}) :
    b.regValue sl p a = b.roStatus p a + sl.slowStatus a := by
  have stored : ∀ v, Nat.land v (Nat.lor 0 (Nat.lor 0 0)) = 0 := Nat.and_zero
  unfold Blk.regValue
  simp only [h, stored, ite_self, Nat.zero_add]

theorem Blk.regValue_pageDecode (b sl : Blk) (p : MPort) {k : Nat} (hk : k < 32) :
    b.regValue sl p (0x100 + 4 * k) = pageDecode k := by
  rw [Blk.regValue_readOnly b sl p (regFields_pageDecode hk), Blk.roStatus_pageDecode b p hk, Blk.slowStatus_pageDecode sl hk,
    Nat.add_zero]

theorem bits_pageDecode : ∀ n, n < 256 → bits (pageDecode (n / 8)) (4 * (n % 8) + 3) (4 * (n % 8)) = pageCode n := by
  decide +kernel

/-- The codes of the pages: 0xF on the guarded ones alone (Table 3-5). -/
theorem pageCode_values : ∀ n, n < 256 →
    (pageCode n = 0xF ↔ n < 6) ∧ (pageCode n ≤ 8 ∨ pageCode n = 0xE ∨ pageCode n = 0xF) := by
  decide +kernel

/-- An aligned access of an unallocated page is refused as UNMAPPED. -/
theorem accErr_unmapped (b : Blk) {x : Access} (ha : x.addr < 2 ^ 20) (hal : x.aligned = true)
    (hp : pageCode (x.addr / 0x1000) = 0xE) : b.accErr x = some 7 := by
  unfold Blk.accErr
  simp only [Nat.mod_eq_of_lt ha, hal, hp, Bool.not_true, Bool.false_eq_true, if_false, if_true]

/-- Settles O59: the codes by evaluation, the accesses by their refusal as UNMAPPED. -/
theorem unallocatedPagesAreRefused : Obligations.UnallocatedPagesAreRefused := by
  refine ⟨fun b sl p n hn => ⟨?decode, pageCode_values n hn⟩, fun s p a be w x hs ha hb hp room => ⟨?write, ?read⟩⟩
  case decode =>
    rw [Blk.regValue_pageDecode b sl p (by omega)]
    exact bits_pageDecode n hn
  case write =>
    rintro rfl hal
    obtain ⟨b, does, msg, pends, answers, -, record⟩ := refuse_core s p a be w _ hs ha hb rfl true 1 7
      (Blk.access_refusedWrite s.slow room rfl (accErr_unmapped _ ha hal hp))
    exact ⟨b, does, msg, pends, answers, record⟩
  case read =>
    rintro rfl hal sl
    rw [Blk.access_refusedRead sl room rfl (accErr_unmapped _ ha hal hp)]
    obtain ⟨groups, alog⟩ := answer_rest (s.core.logRec 1 (mportCode p) (Access.sizeCode ⟨p, a, be, false, 0, none, none⟩) false 7
      (Access.first ⟨p, a, be, false, 0, none, none⟩)) ⟨p, a, be, false, 0, none, none⟩ 0 true
    refine ⟨(Blk.logRec_msg _ _ _ _ _ _ _).trans (answer_msg _ _ _ _), ?_, ?_, ?_⟩
    · unfold Blk.pends
      rw [groups]
      exact Blk.logRec_pends _ _ _ _ _ _ _
    · rw [answer_side, Blk.logRec_side]
    · rw [alog]
      exact (Blk.logRec_at _ _ _ _ _ _ _).1

/-! ## Contests of the two ports (R47) -/

/-- The block once port `p` has lost a contest. -/
def Blk.lostBy (b : Blk) (p : MPort) : Blk := { b with mg := { b.mg with lastLoser := p } }

theorem otherPort_eq : ∀ {p q : MPort}, q ≠ p → otherPort p = q
  | .mpa, .mpb, _ | .mpb, .mpa, _ => rfl
  | .mpa, .mpa, h | .mpb, .mpb, h => absurd rfl h

/-- The port that lost the last contest goes first, and the other has lost this one. -/
theorem Blk.arbitrate_won {b : Blk} (sl : Blk) {x : Access} (r : Rival) (h : b.mg.lastLoser = x.port) :
    b.arbitrate sl x (some r) = (b.lostBy (otherPort x.port)).inOrder sl x (rivalAccess r x.port) := if_pos h

theorem Blk.arbitrate_lost {b : Blk} (sl : Blk) {x : Access} (r : Rival) (h : b.mg.lastLoser ≠ x.port) :
    b.arbitrate sl x (some r) = (b.lostBy x.port).inOrder sl (rivalAccess r x.port) x := if_neg h

theorem Blk.inOrder_whole {b : Blk} (sl : Blk) {x : Access} (y : Access) (h : b.split x = false) :
    b.inOrder sl x y = (b.access sl x).access sl y := if_neg (by simp [h])

theorem Blk.inOrder_split {b : Blk} (sl : Blk) {x : Access} (y : Access) (h : b.split x = true) :
    b.inOrder sl x y = b.accessAround sl x fun c => c.access sl y := if_pos h

theorem runContest_does (i : Instr) (x : Access) (r : Option Rival) (s : State) (b : Blk) (ht : s.testMode = 0) (hw : i.wf = true)
    (hx : s.core.arbitrate s.slow x r = b) (hr : s.core.ldr.state ≠ .reload) : runContest i x r s = .next (s.withCore b) := by
  unfold runContest
  rw [run_next i _ s ht hw, Blk.after_eq _ _ hr, hx]

/-- A 4 B read is one half. -/
theorem Blk.split_read4 (b : Blk) (p : MPort) {a : Nat} (h4 : a % 4 = 0) (ht : a < 2 ^ 20) : b.split (read4 p a) = false := by
  unfold Blk.split
  rw [read4_halves p a h4 ht]
  rfl

theorem Blk.Open.lostBy {b : Blk} {p : MPort} {a : Nat} (h : b.Open p a) (l : MPort) : (b.lostBy l).Open p a :=
  ⟨by cases p <;> exact h.room, h.sem, h.on, h.safe⟩

/-- A page that both ports may write is not under a semaphore: no semaphore has two holders (R68). -/
theorem Blk.semDenied_of_both {b c : Blk} {p q r : MPort} {page : Nat} (hpq : q ≠ p) (hp : b.semDenied p page = false)
    (hq : b.semDenied q page = false) (himg : c.img = b.img) : c.semDenied r page = false := by
  unfold Blk.semDenied at *
  rw [himg]
  cases enforced : bit (b.img.sempage.getD page 0) 7 with
  | false => simp only [enforced, Bool.false_and]
  | true =>
    simp only [enforced, Bool.true_and, decide_eq_false_iff_not, Decidable.not_not] at hp hq
    exact absurd (Option.some.inj (hq.symm.trans hp)) hpq

theorem Blk.answered_semOwner (b : Blk) (p : MPort) (v : BitVec 64) (n : Nat) : (b.answered p v).semOwner n = b.semOwner n := by
  cases p <;> rfl

/-- The two reads of one free semaphore in their order: the first acquires it, the second answers the code of the first. -/
theorem Blk.semReads_inOrder {b : Blk} (sl : Blk) {p q : MPort} {n : Nat} (hpq : q ≠ p) (hn : n < 64)
    (hp : b.Open p (0x01100 + 4 * n)) (hq : b.Open q (0x01100 + 4 * n)) (free : b.semOwner n = none) :
    b.inOrder sl (read4 p (0x01100 + 4 * n)) (read4 q (0x01100 + 4 * n)) =
      ((b.setSem n (some p)).answered p 0#64).answered q (BitVec.ofNat 64 (mportCode p * (if n % 2 = 0 then 1 else 2 ^ 32))) := by
  have plain := plain_sem n hn
  have first : b.access sl (read4 p (0x01100 + 4 * n)) = (b.setSem n (some p)).answered p 0#64 := by
    rw [Blk.access_read4 b sl p _ _ plain hp, read_sem b sl p n hn, free]
    simp only [land_lanes 0 (by decide), Nat.zero_mul]
  have msg : Msg b ((b.setSem n (some p)).answered p 0#64) := (Blk.setSem_msg b n (some p)).trans (Blk.answered_msg _ _ _)
  have side : ((b.setSem n (some p)).answered p 0#64).side q = b.side q := by
    unfold Blk.answered
    rw [Blk.modSide_other _ _ _ _ hpq]
    cases q <;> rfl
  have opened : ((b.setSem n (some p)).answered p 0#64).Open q (0x01100 + 4 * n) :=
    ⟨by rw [side]; exact hq.room, Blk.semDenied_of_both hpq hp.sem hq.sem msg.get_img, by rw [msg.get_on]; exact hq.on,
      by rw [msg.get_inSafe]; exact hq.safe⟩
  have held : ((b.setSem n (some p)).answered p 0#64).semOwner n = some p :=
    (Blk.answered_semOwner _ _ _ _).trans (Blk.setSem_semOwner b n _)
  rw [Blk.inOrder_whole sl _ (Blk.split_read4 b p plain.four plain.top), first,
    Blk.access_read4 _ sl q _ _ plain opened, read_sem _ sl q n hn, held]
  simp only [land_lanes _ (mportCode_lt p), lane_even 0x01100 n (by decide)]

/-- Settles O60: the arbiter's two cases by the loser of the last contest, each with the order it puts the accesses in. -/
theorem contestsAlternate : Obligations.ContestsAlternate := by
  rintro s p q _ hs hpq rfl
  have other := otherPort_eq hpq
  have notP : s.core.mg.lastLoser = q → s.core.mg.lastLoser ≠ p := fun e h => hpq (e.symm.trans h)
  refine ⟨?semaphore, ?accesses, fun m hm => ?reset⟩
  case semaphore =>
    rintro n _ _ hn rfl rfl hp hq free
    have small : 0x01100 + 4 * n < 2 ^ 20 := by omega
    have even := lane_even 0x01100 n (by decide)
    have rival : rivalAccess ⟨0x01100 + 4 * n, if n % 2 = 0 then 0x0F else 0xF0, false, 0#64⟩ p = read4 q (0x01100 + 4 * n) := by
      unfold rivalAccess read4
      simp only [other, even]
      rfl
    have wf : Instr.wf (.semAcquire ⟨p, some ⟨0x01100 + 4 * n, if n % 2 = 0 then 0x0F else 0xF0, false, 0#64⟩⟩ n) = true := by
      simp only [wf_semAcquire, hn, small, lanes_lt, rivalWf, decide_true, Bool.and_self]
    refine ⟨fun h => ?_, fun h => ?_⟩
    · refine runContest_does _ _ _ s _ hs.functional wf ?_ hs.not_reload
      rw [Blk.arbitrate_won _ _ h]
      show (s.core.lostBy (otherPort p)).inOrder s.slow (read4 p (0x01100 + 4 * n)) (rivalAccess _ p) = _
      rw [other, rival]
      exact Blk.semReads_inOrder s.slow hpq hn (hp.lostBy q) (hq.lostBy q) free
    · refine runContest_does _ _ _ s _ hs.functional wf ?_ hs.not_reload
      rw [Blk.arbitrate_lost _ _ (notP h)]
      show (s.core.lostBy p).inOrder s.slow (rivalAccess _ p) (read4 p (0x01100 + 4 * n)) = _
      rw [rival]
      exact Blk.semReads_inOrder s.slow hpq.symm hn (hq.lostBy p) (hp.lostBy p) free
  case accesses =>
    rintro a be w r _ _ ha hb hra hrb rfl rfl
    have wf : Instr.wf (.registerWrite ⟨p, some r⟩ a be w) = true := by
      simp only [wf_registerWrite, ha, hb, rivalWf, hra, hrb, decide_true, Bool.and_self]
    have rival : rivalAccess r p = ⟨q, r.addr, r.be, r.write, r.wdata.toNat, none, none⟩ := by unfold rivalAccess; rw [other]
    refine ⟨fun h => ?_, fun h => ?_⟩
    · have order := Blk.arbitrate_won s.slow (x := ⟨p, a, be, true, w.toNat, none, none⟩) r h
      simp only [other, rival] at order
      exact ⟨fun whole => runContest_does _ _ _ s _ hs.functional wf (order.trans (Blk.inOrder_whole _ _ whole)) hs.not_reload,
        fun split => runContest_does _ _ _ s _ hs.functional wf (order.trans (Blk.inOrder_split _ _ split)) hs.not_reload⟩
    · have order := Blk.arbitrate_lost s.slow (x := ⟨p, a, be, true, w.toNat, none, none⟩) r (notP h)
      simp only [rival] at order
      exact ⟨fun whole => runContest_does _ _ _ s _ hs.functional wf (order.trans (Blk.inOrder_whole _ _ whole)) hs.not_reload,
        fun split => runContest_does _ _ _ s _ hs.functional wf (order.trans (Blk.inOrder_split _ _ split)) hs.not_reload⟩
  case reset =>
    obtain ⟨t, next, core⟩ := exec_powerOnReset m s hm
    exact ⟨t, next, by rw [core]⟩

end Sys2Proof.Machine

/-! SUPPORT. Proofs of the statements of the rings and descriptors family: doorbells and polls, the tiles of a ring, local
buffers and bindings, contexts and chains. -/

namespace Sys2Proof.Machine
open Sys2Proof

/-- In READY a well-formed command answers exactly its meaning. -/
theorem State.Serves.does {s : State} (hs : s.Serves) {i : Instr} {f : Blk → Blk} {b : Blk} (wf : i.wf = true) (h : f s.core = b) :
    runRow i f s = .next (s.withCore b) :=
  runRow_does i f s b hs.functional wf h hs.not_reload

/-! ## Doorbells (R15, R17, R81, R87) -/

/-- A resident queue that Chervil reads: neither stopped, halted, lost nor going. -/
def QPhase.fetches (p : QPhase) : Prop := p = .idle ∨ p = .bound ∨ p = .stopping

/-- A resident queue that takes no more nudges (R87). -/
def QPhase.ended (p : QPhase) : Prop := p = .stopped ∨ p = .halted ∨ p = .lost ∨ p = .destroying

/-- The block with a doorbell's value kept for the refill of queue `q` (R17, R87). -/
def Blk.keepNudge (b : Blk) (q : QRef) (value : Nat) : Blk :=
  (b.modRun q fun r => { r with nudgeTail := some (bits value 16 0) }).modSched fun y =>
    { y with nudged := addOnce q.num y.nudged }

/-- A doorbell write of a doorbell's size, by the domain of queue `q`, while PD1 and PD2 are powered (R87). -/
structure Blk.NudgeFits (b : Blk) (q : QRef) (hdrDom size : Nat) : Prop where
  on1 : b.on 1 = true
  on2 : b.on 2 = true
  size : size = 4 ∨ size = 8
  dom : hdrDom = (b.queue q).cfg.dom

section
variable {b : Blk} {q : QRef} {hdrDom size : Nat} (value : Nat)

theorem nudgeB_misdirected (on1 : b.on 1 = true) (on2 : b.on 2 = true)
    (h : (size ≠ 4 ∧ size ≠ 8) ∨ (b.queue q).run.phase = .free ∨ hdrDom ≠ (b.queue q).cfg.dom) :
    nudgeB q hdrDom size value b = b.nudgeDrop := by
  have drops : (!decide (size = 4 ∨ size = 8) || !b.exists? q || decide (hdrDom ≠ (b.queue q).cfg.dom)) = true := by
    unfold Blk.exists?
    rcases h with ⟨h4, h8⟩ | h | h <;> simp [*]
  unfold nudgeB
  simp only [on1, on2, drops, Bool.and_self, Bool.not_true, Bool.false_eq_true, if_false, if_true]

variable (fits : b.NudgeFits q hdrDom size)
include fits

/-- A doorbell that fits passes the checks of its form, whatever state the queue is in. -/
theorem Blk.NudgeFits.passes {p : QPhase} (hp : (b.queue q).run.phase = p) (free : p ≠ .free) :
    (!(b.on 1 && b.on 2)) = false
      ∧ (!decide (size = 4 ∨ size = 8) || !b.exists? q || decide (hdrDom ≠ (b.queue q).cfg.dom)) = false := by
  unfold Blk.exists?
  simp [fits.on1, fits.on2, fits.size, fits.dom, hp, free]

theorem nudgeB_away (hp : (b.queue q).run.phase = .spilling ∨ (b.queue q).run.phase = .spilled
      ∨ (b.queue q).run.phase = .refilling) :
    nudgeB q hdrDom size value b =
      if (b.keepNudge q value).heldAbove q then b.keepNudge q value else (b.keepNudge q value).wantRefill q.num := by
  unfold nudgeB
  rcases hp with hp | hp | hp
  all_goals
    simp only [fits.passes hp (by decide), hp, Bool.false_eq_true, if_false]
    rfl

theorem nudgeB_outside (hp : (b.queue q).run.phase.fetches ∨ (b.queue q).run.phase.ended)
    (outside : (b.queue q).size ≤ bits value 15 0) : nudgeB q hdrDom size value b = b.nudgeDrop := by
  unfold nudgeB
  rcases hp with (hp | hp | hp) | hp | hp | hp | hp
  all_goals simp only [fits.passes hp (by decide), hp, outside, Bool.false_eq_true, if_false, if_true]

variable (inside : bits value 15 0 < (b.queue q).size)
include inside

theorem nudgeB_ended (hp : (b.queue q).run.phase.ended) : nudgeB q hdrDom size value b = b.countDrop := by
  unfold nudgeB
  rcases hp with hp | hp | hp | hp
  all_goals simp only [fits.passes hp (by decide), hp, Nat.not_le.mpr inside, Bool.false_eq_true, if_false]

variable (hp : (b.queue q).run.phase.fetches)
include hp

/-- The first nudge of a cell since its reload is marked; what else it does is send the cell's completion word (R81). -/
theorem nudgeB_firstNudge (cell : q.isCell = true) (first : (b.queue q).run.firstNudge = false) :
    Sent (b.modRun q fun r => { r with firstNudge := true }) (nudgeB q hdrDom size value b) := by
  unfold nudgeB
  rcases hp with hp | hp | hp
  all_goals
    simp only [fits.passes hp (by decide), hp, Nat.not_le.mpr inside, cell, first, Bool.and_self, Bool.not_false,
      Bool.false_eq_true, if_false, if_true]
    split
    · exact Blk.present_sent _ _ _
    · exact Sent.refl _

theorem nudgeB_reads (h : q.isCell = false ∨ (b.queue q).run.firstNudge = true) :
    nudgeB q hdrDom size value b = (b.noteNudge q).chervilRead q (some (posOf value (b.queue q).size)) true := by
  have later : (q.isCell && !(b.queue q).run.firstNudge) = false := by rcases h with h | h <;> simp [h]
  unfold nudgeB
  rcases hp with hp | hp | hp
  all_goals simp only [fits.passes hp (by decide), hp, Nat.not_le.mpr inside, later, Bool.false_eq_true, if_false]

end

/-! ## What noting a nudge leaves (R17) -/

theorem Blk.noteNudge_queue (b : Blk) (q : QRef) :
    (b.noteNudge q).queue q = { b.queue q with ep := { (b.queue q).ep with nudged := true } } := by
  have noted : (b.modEp q fun e => { e with nudged := true }).queue q
      = { b.queue q with ep := { (b.queue q).ep with nudged := true } } := Blk.modQueue_same _ _ _
  cases q <;> exact noted

theorem Blk.noteNudge_polls (b : Blk) (q : QRef) : b.Polls q (b.noteNudge q) := by
  refine (Blk.modEp_polls b q fun e => { e with nudged := true }).trans ?_
  cases q
  · exact ⟨rfl, rfl, fun r _ => by cases r <;> rfl, rfl⟩
  · exact Blk.Polls.refl _ _

theorem Blk.noteNudge_mayFetch (b : Blk) (q : QRef) : (b.noteNudge q).mayFetch q = b.mayFetch q := by
  unfold Blk.mayFetch
  rw [Blk.noteNudge_queue, (b.noteNudge_polls q).rest]
  rfl

theorem Blk.noteNudge_pollMay (b : Blk) (q : QRef) : (b.noteNudge q).pollMay = b.pollMay := by
  cases q <;> rfl

theorem Blk.noteNudge_pollWait (b : Blk) (q : QRef) : (b.noteNudge q).sched.pollWait = b.sched.pollWait := by
  cases q <;> rfl

theorem Blk.ReadsNow.noteNudge {b : Blk} {q : QRef} (h : b.ReadsNow q) : (b.noteNudge q).ReadsNow q where
  may := (b.noteNudge_mayFetch q).trans h.may
  budget := (b.noteNudge_pollMay q).trans h.budget
  first := (b.noteNudge_pollWait q).trans h.first
  good := by rw [Blk.noteNudge_queue]; exact h.good

/-- A nudge that is noted and acted on leaves no trace in the list of nudged queues. -/
theorem Blk.noteNudge_unnudged (b : Blk) (q : QRef) :
    ((b.noteNudge q).unnudged q).sched.nudged = (b.unnudged q).sched.nudged := by
  cases q with
  | cell n => rfl
  | dom n =>
    show (addOnce n b.sched.nudged).filter (· != n) = b.sched.nudged.filter (· != n)
    unfold addOnce
    split
    · rfl
    · simp

/-- A read that the budget allows at once. -/
theorem Blk.chervilRead_eq_pollNow {b : Blk} {q : QRef} (n : Option Nat) (isNudge : Bool) (h : b.ReadsNow q) :
    b.chervilRead q n isNudge = b.pollNow q n isNudge := by
  unfold Blk.chervilRead
  simp [h.may, h.budget, h.first]

/-- A read at once, as `Blk.chervilRead_now` says it of the block's scheduler and queues. -/
theorem Blk.pollNow_polls {b : Blk} {q : QRef} (n : Option Nat) (isNudge : Bool) (h : b.ReadsNow q) :
    b.Polls q (b.pollNow q n isNudge) ∧ (b.pollNow q n isNudge).sched.nudged = (b.unnudged q).sched.nudged := by
  have now := Blk.chervilRead_now b q n isNudge h
  rwa [Blk.chervilRead_eq_pollNow n isNudge h] at now

theorem Blk.keepNudge_heldAbove (b : Blk) (q : QRef) (value : Nat) : (b.keepNudge q value).heldAbove q = b.heldAbove q := by
  have dom : ((b.keepNudge q value).queue q).cfg.dom = (b.queue q).cfg.dom := by simp [Blk.keepNudge]
  cases q <;> exact heldAbove_of dom rfl rfl rfl rfl rfl rfl

theorem Blk.keepNudge_phase (b : Blk) (q : QRef) (value : Nat) :
    ((b.keepNudge q value).queue q).run.phase = (b.queue q).run.phase := by simp [Blk.keepNudge]

/-- Only a spilled queue is refilled for its nudge (R98). -/
theorem Blk.keepNudge_wantRefill {b : Blk} {n : Nat} (value : Nat) (h : (b.queue (.dom n)).run.phase ≠ .spilled) :
    (b.keepNudge (.dom n) value).wantRefill n = b.keepNudge (.dom n) value :=
  if_pos (.inl (by rwa [Blk.keepNudge_phase]))

/-! ## Polls that fall due (R86, R175) -/

theorem pollDueB_reads {b : Blk} {q : QRef} (own : (b.queue q).cfg.pollPhase = false) (due : b.pollEarly q = false) :
    pollDueB q b = b.chervilRead q none false := by
  unfold pollDueB
  simp [own, due]

theorem pollDueB_not {b : Blk} {q : QRef}
    (h : b.mayFetch q = false ∨ (b.queue q).cfg.pollPhase = false ∧ b.pollEarly q = true) : pollDueB q b = b := by
  unfold pollDueB
  rcases h with h | ⟨own, early⟩
  · simp only [Blk.chervilRead_not b q none false h, ite_self]
  · simp [own, early]

/-! ## Doorbells and polls: the statement -/

theorem nudge_wf {q : QRef} {value : Nat} (hdrDom size : Nat) (hq : q.wf = true) (hv : value < 2 ^ 32) :
    Instr.wf (.nudge q hdrDom size value) = true := by
  rw [wf_nudge, hq, Bool.true_and]
  exact decide_eq_true hv

theorem QPhase.resident_iff {p : QPhase} :
    p ∈ [.idle, .bound, .stopping, .stopped, .halted, .lost, .destroying] ↔ p.fetches ∨ p.ended := by
  cases p <;> simp [QPhase.fetches, QPhase.ended]

theorem QPhase.fetches_iff {p : QPhase} : p ∈ [.idle, .bound, .stopping] ↔ p.fetches := by
  simp [QPhase.fetches]

theorem QPhase.ended_iff {p : QPhase} : p ∈ [.stopped, .halted, .lost, .destroying] ↔ p.ended := by
  simp [QPhase.ended]

/-- Settles O29: the doorbell by the state of its queue, the poll by whether it is due; each read by `Blk.pollNow_polls`. -/
theorem nudgesFollowTheirQueue : Obligations.NudgesFollowTheirQueue := by
  rintro s q _ hdrDom size value hs on1 on2 hq hv rfl
  have wf := nudge_wf hdrDom size hq hv
  have nudges : ∀ {c : Blk}, nudgeB q hdrDom size value s.core = c → Does (.nudge q hdrDom size value) s c :=
    fun h => hs.does wf h
  have drops : nudgeB q hdrDom size value s.core = s.core.nudgeDrop →
      Raises (.nudge q hdrDom size value) s s.core.countDrop 0 11 :=
    fun h => runRow_raise _ _ s _ 0 11 hs.functional wf h hs.not_reload
  have polls : ∀ {c : Blk}, pollDueB q s.core = c → Does (.pollDue q) s c :=
    fun h => hs.does (by rw [wf_pollDue, hq]) h
  refine ⟨fun h => drops (nudgeB_misdirected value on1 on2 h), fun hsize hdom => ?doorbell,
    fun own due => ⟨fun now => ?now, fun may wait => ?later⟩, fun h => polls (pollDueB_not h)⟩
  case doorbell =>
    have fits : s.core.NudgeFits q hdrDom size := ⟨on1, on2, hsize, hdom⟩
    refine ⟨?away, fun resident => ⟨fun outside => drops ?outside, fun inside => ⟨fun hp => nudges ?ended,
      fun hp cell first => ⟨_, nudges rfl, ?first⟩, ?reads⟩⟩⟩
    case away =>
      rintro n _ rfl rfl
      have held := Blk.keepNudge_heldAbove s.core (.dom n) value
      refine ⟨fun hp => nudges ?_, fun hp free => nudges ?_⟩
      · rw [nudgeB_away value fits (hp.imp_right fun h => h.symm.imp_left And.left), held]
        obtain hp | hp | ⟨-, above⟩ := hp
        · exact ite_both (P := (· = _)) rfl (Blk.keepNudge_wantRefill value (by simp [hp]))
        · exact ite_both (P := (· = _)) rfl (Blk.keepNudge_wantRefill value (by simp [hp]))
        · exact if_pos above
      · rw [nudgeB_away value fits (.inr (.inl hp)), held, free]
        rfl
    case outside => exact nudgeB_outside value fits (QPhase.resident_iff.mp resident) outside
    case ended => exact nudgeB_ended value fits inside (QPhase.ended_iff.mp hp)
    case first => exact nudgeB_firstNudge value fits inside (QPhase.fetches_iff.mp hp) cell first
    case reads =>
      rintro _ hp h rfl
      have reads := nudgeB_reads value fits inside (QPhase.fetches_iff.mp hp) h
      have mayFetch := s.core.noteNudge_mayFetch q
      refine ⟨fun now => ?_, fun may wait => nudges ?_, fun may => nudges ?_⟩
      · obtain ⟨after, nudged⟩ := Blk.pollNow_polls (some (posOf value (s.core.queue q).size)) true now.noteNudge
        exact ⟨nudges (reads.trans (Blk.chervilRead_eq_pollNow _ _ now.noteNudge)), (s.core.noteNudge_polls q).trans after,
          nudged.trans (s.core.noteNudge_unnudged q)⟩
      · rw [reads, Blk.chervilRead_later _ _ _ _ (mayFetch.trans may) (by rwa [Blk.noteNudge_pollMay, Blk.noteNudge_pollWait])]
      · rw [reads, Blk.chervilRead_not _ _ _ _ (mayFetch.trans may)]
  case now =>
    exact ⟨polls ((pollDueB_reads own due).trans (Blk.chervilRead_eq_pollNow _ _ now)), Blk.pollNow_polls _ _ now⟩
  case later =>
    exact polls ((pollDueB_reads own due).trans (Blk.chervilRead_later _ _ _ _ may wait))

/-! ## The end of a ring read (R77, R89, R130) -/

theorem Blk.readOk_get_queue (b : Blk) (n t : Nat) (q : QRef) : (b.readOk n t).queue q = b.queue q := by cases q <;> rfl

theorem Blk.readOk_mayFetch (b : Blk) (n t : Nat) (q : QRef) : (b.readOk n t).mayFetch q = b.mayFetch q := by
  cases q <;> rfl

section
variable {b : Blk} {port tag : Nat} {q : QRef} {p : Nat}
  (purpose : (tabGet ({} : TagRec) (b.port port).tags tag).purpose = .ring q p)
include purpose

theorem Blk.finishRead_ringData (bs : List Byte) (why : Abandon) :
    b.finishRead port tag (.data bs) why = (b.readOk port tag).ringReadDone q p (.data bs) := by
  unfold Blk.finishRead Blk.readEnd
  simp only [purpose]
  rfl

theorem Blk.finishRead_ringFailed {r : ReadResult} (why : Abandon) (hr : r = .error ∨ r = .timeout) :
    b.finishRead port tag r why = (b.endRead port tag true).ringReadDone q p r := by
  unfold Blk.finishRead Blk.readEnd
  rcases hr with rfl | rfl
  all_goals
    simp only [purpose]
    rfl

theorem ringTileArrivalB_ends {gen : Nat} (r : ReadResult) (out : b.tagOut port tag = true)
    (current : (tabGet ({} : TagRec) (b.port port).tags tag).gen = gen) :
    ringTileArrivalB port tag gen r b = b.finishRead port tag r .timeout := by
  unfold ringTileArrivalB
  simp [purpose, out, current]

end

/-! ## One tile (R77, R88, R89) -/

theorem Blk.ringReadDone_failed (b : Blk) (q : QRef) (p : Nat) {r : ReadResult} (hr : r = .error ∨ r = .timeout) :
    b.ringReadDone q p r = (b.modQueue q fun x =>
      if (x.recheck.map (·.1)) = some p then { x with recheck := none } else x).pollCheck q := by
  rcases hr with rfl | rfl <;> rfl

theorem Blk.tilesArrived_one (b : Blk) (q : QRef) (fuel p : Nat) {bs : List Byte} (len : bs.length = 64) :
    b.tilesArrived q (fuel + 2) p bs = b.tileArrived q p bs := by
  have whole : bs.take 64 = bs := by rw [← len, List.take_length]
  have rest : bs.drop 64 = [] := by rw [← len, List.drop_length]
  unfold Blk.tilesArrived
  rw [if_neg (by omega), whole, rest]
  rfl

theorem Blk.ringReadDone_tile (b : Blk) (q : QRef) (p : Nat) {bs : List Byte} (len : bs.length = 64) :
    b.ringReadDone q p (.data bs) = (b.tileArrived q p bs).pollCheck q :=
  congrArg (fun c : Blk => c.pollCheck q) (Blk.tilesArrived_one b q 62 p len)

section
variable {b : Blk} {q : QRef} {p : Nat} {bs : List Byte}

theorem Blk.tileArrived_unwanted (h : b.mayFetch q = false ∨ (b.queue q).wants p bs = false) : b.tileArrived q p bs = b :=
  if_neg (by rcases h with h | h <;> simp [h])

variable (may : b.mayFetch q = true) (wanted : (b.queue q).wants p bs = true)
include may wanted

theorem Blk.tileArrived_noPlace (full : (b.makePlace q p).takeTile = none) : b.tileArrived q p bs = b.makePlace q p := by
  unfold Blk.tileArrived
  simp [may, wanted, full]

theorem Blk.tileArrived_kept {loc : Nat} {c : Blk} (place : (b.makePlace q p).takeTile = some (loc, c)) :
    b.tileArrived q p bs = c.ringGrows q (((c.queue q).putCopy p loc bs).advanceTail ((c.queue q).size + 1)) := by
  unfold Blk.tileArrived
  simp [may, wanted, place]

end

/-! ## The known tail (R79, R82, R84, R89) -/

section
variable (x : Queue) (p loc : Nat) (bs : List Byte)

theorem Queue.goodAt_putCopy_same : (x.putCopy p loc bs).goodAt p = some bs := by
  unfold Queue.goodAt Queue.putCopy
  simp [Option.filter, Copy.ok]

theorem Queue.goodAt_putCopy_other {n : Nat} (h : n ≠ p) : (x.putCopy p loc bs).goodAt n = x.goodAt n := by
  have others : (x.dropCopy p).cache.find? (fun c => c.pos == n) = x.cache.find? fun c => c.pos == n := by
    unfold Queue.dropCopy
    have pred : (fun c : Copy => decide ((c.pos != p) = true ∧ (c.pos == n) = true)) = fun c => c.pos == n := by
      funext c
      by_cases hc : c.pos = n <;> simp [hc, h]
    rw [List.find?_filter, pred]
  unfold Queue.goodAt Queue.putCopy
  rw [List.find?_cons_of_neg (by simpa using h.symm), others]

theorem Queue.advanceTail_none (fuel : Nat) (h : x.goodAt x.run.tail = none) : x.advanceTail fuel = x := by
  cases fuel with
  | zero => rfl
  | succ n => unfold Queue.advanceTail; simp only [h]

theorem Queue.advanceTail_stop (fuel : Nat) {c : List Byte} (h : x.goodAt x.run.tail = some c)
    (other : ownOf c ≠ x.expectedOwn x.run.tail) : x.advanceTail fuel = x := by
  cases fuel with
  | zero => rfl
  | succ n => unfold Queue.advanceTail; simp only [h]; exact if_neg fun own => other own.1

theorem Queue.advanceTail_owned (fuel : Nat) {c : List Byte} (h : x.goodAt x.run.tail = some c)
    (own : ownOf c = x.expectedOwn x.run.tail) (room : x.dist x.run.tail x.run.head < x.size) :
    x.advanceTail (fuel + 1) = (x.tailOn c).advanceTail fuel := by
  conv => lhs; unfold Queue.advanceTail
  simp only [h]
  rw [if_pos ⟨own, room⟩]
  rfl

/-- A copy away from the known tail, where no usable one is held, leaves the tail. -/
theorem Queue.advanceTail_elsewhere (fuel : Nat) (at_ : p ≠ x.run.tail) (h : x.goodAt x.run.tail = none) :
    (x.putCopy p loc bs).advanceTail fuel = x.putCopy p loc bs :=
  Queue.advanceTail_none _ _ ((Queue.goodAt_putCopy_other x p loc bs at_.symm).trans h)

variable (at_ : p = x.run.tail)
include at_

/-- A copy at the known tail that the block does not own leaves the tail. -/
theorem Queue.advanceTail_foreign (fuel : Nat) (other : ownOf bs ≠ x.expectedOwn p) :
    (x.putCopy p loc bs).advanceTail fuel = x.putCopy p loc bs := by
  subst at_
  exact Queue.advanceTail_stop _ _ (Queue.goodAt_putCopy_same x _ loc bs) other

/-- An owned copy at the known tail moves it one position on, when no copy is held there. -/
theorem Queue.advanceTail_one (fuel : Nat) (own : ownOf bs = x.expectedOwn p) (room : x.dist p x.run.head < x.size)
    (next : x.goodAt (x.next p) = none) (moves : x.next p ≠ p) :
    (x.putCopy p loc bs).advanceTail (fuel + 1) = (x.putCopy p loc bs).tailOn bs := by
  subst at_
  refine (Queue.advanceTail_owned (x.putCopy _ loc bs) fuel (Queue.goodAt_putCopy_same x _ loc bs) own room).trans ?_
  exact Queue.advanceTail_none _ _ ((Queue.goodAt_putCopy_other x _ loc bs moves).trans next)

end

/-! ## The queue whose ring grows (R89, R360) -/

theorem Blk.setQueue_same (b : Blk) (q : QRef) (y : Queue) : (b.setQueue q y).queue q = y := Blk.modQueue_same b q fun _ => y

theorem Blk.setQueue_other (b : Blk) {q r : QRef} (y : Queue) (h : r ≠ q) : (b.setQueue q y).queue r = b.queue r :=
  Blk.modQueue_other b q r (fun _ => y) h

/-- A queue whose known tail has moved on is the most lately owned. -/
theorem Blk.ringGrows_queue (b : Blk) (q : QRef) {y : Queue} (grows : y.run.tail ≠ (b.queue q).run.tail) :
    (b.ringGrows q y).queue q
      = { y with lastOwned := b.sched.ownedSeq + 1, ep := ((b.ringGrows q y).queue q).ep } := by
  unfold Blk.ringGrows Blk.noteCache Blk.modEp
  simp only [if_pos grows, Blk.modSched_get_queue, Blk.modQueue_same, Blk.setQueue_same]

theorem Blk.ringGrows_other (b : Blk) {q r : QRef} {y : Queue} (grows : y.run.tail ≠ (b.queue q).run.tail) (h : r ≠ q) :
    (b.ringGrows q y).queue r = b.queue r := by
  unfold Blk.ringGrows Blk.noteCache Blk.modEp
  simp only [if_pos grows, Blk.modSched_get_queue, Blk.modQueue_other _ _ _ _ h, Blk.setQueue_other _ _ h]

/-! ## Ring tiles: the statement -/

/-- Settles O30: the end of the read by its result, a wanted tile by the place it finds and by `Queue.advanceTail`. -/
theorem ringTilesAdvanceTheTail : Obligations.RingTilesAdvanceTheTail := by
  rintro s port tag gen q p _ hs hport htag hgen rfl purpose current out
  have wf : ∀ r, Instr.wf (.ringTileArrival port tag gen r) = true := fun r => by simp [hport, htag, hgen]
  have ends : ∀ {r : ReadResult} {c : Blk}, s.core.finishRead port tag r .timeout = c →
      Does (.ringTileArrival port tag gen r) s c :=
    fun {r} _ h => hs.does (wf r) ((ringTileArrivalB_ends purpose r out current).trans h)
  have arrives : ∀ {bs : List Byte} {c : Blk}, bs.length = 64 → (s.core.readOk port tag).tileArrived q p bs = c →
      Does (.ringTileArrival port tag gen (.data bs)) s (c.pollCheck q) := by
    rintro bs _ len rfl
    exact ends ((Blk.finishRead_ringData purpose bs .timeout).trans (Blk.ringReadDone_tile _ q p len))
  refine ⟨fun r failed => ends ((Blk.finishRead_ringFailed purpose .timeout failed).trans (Blk.ringReadDone_failed _ q p failed)),
    fun bs len unwanted => arrives len (Blk.tileArrived_unwanted ?unwanted), fun bs len may wanted => ?wanted,
    fun b y grows => ?grows⟩
  case unwanted => rwa [Blk.readOk_mayFetch, Blk.readOk_get_queue]
  case wanted =>
    rw [← Blk.readOk_mayFetch s.core port tag] at may
    rw [← Blk.readOk_get_queue s.core port tag] at wanted
    refine ⟨fun full => arrives len (Blk.tileArrived_noPlace may wanted full), ?_⟩
    rintro loc b _ place rfl
    have kept := Blk.tileArrived_kept may wanted place
    refine ⟨fun other at_ => ?_, fun own at_ room next moves => ?_, fun at_ unheld => ?_⟩
    · exact arrives len (kept.trans (by rw [Queue.advanceTail_foreign _ p loc bs at_ _ other]))
    · exact arrives len (kept.trans (by rw [Queue.advanceTail_one _ p loc bs at_ _ own room next moves]))
    · exact arrives len (kept.trans (by rw [Queue.advanceTail_elsewhere _ p loc bs _ at_ unheld]))
  case grows =>
    rw [Blk.ringGrows_queue b q grows]
    exact ⟨rfl, rfl, rfl, fun r hr => Blk.ringGrows_other b grows hr⟩

/-! ## The end of a spill (R97) -/

theorem Blk.NoneWait.modQueue {b : Blk} (h : b.NoneWait) (q : QRef) (f : Queue → Queue) : (b.modQueue q f).NoneWait := by
  unfold Blk.NoneWait
  rwa [Blk.modQueue_sched]

theorem Blk.spillEnd_settled {b : Blk} {q : QRef} (spilling : (b.queue q).run.phase = .spilling) (settled : b.spillOut q = false)
    (noWait : b.NoneWait) : b.spillEnd q = b.modRun q fun r => { r with phase := .spilled } := by
  unfold Blk.spillEnd Blk.modRun
  rw [if_pos ⟨spilling, by rw [settled]; rfl⟩, serveRefills_none _ (noWait.modQueue q _)]

/-! ## Stops and commands after a change of a queue or of a port -/

theorem Blk.Unstopped.modPort {b : Blk} (h : b.Unstopped) (n : Nat) {f : Port → Port} (keeps : ∀ v, (f v).stop = v.stop) :
    (b.modPort n f).Unstopped where
  domains := h.domains
  movers := h.movers
  ports := by
    have own : (b.port n).stop = none := by
      obtain default | ⟨e, he, eq⟩ := tabGet_mem ({} : Port) n b.ports
      · exact congrArg Port.stop default
      · exact (congrArg Port.stop eq).symm.trans (h.ports e he)
    intro e he
    obtain old | new := tabSet_mem _ _ _ _ e he
    · exact h.ports e old
    · rw [new, keeps, own]
  inst := h.inst
  range := h.range
  crit := h.crit

theorem Blk.Unstopped.readOk {b : Blk} (h : b.Unstopped) (n t : Nat) : (b.readOk n t).Unstopped := by
  unfold Blk.readOk Blk.endRead Blk.noteRtt Blk.modPath
  refine Blk.Unstopped.modPort (Blk.Unstopped.modPort h n ?_) n ?_
  all_goals exact fun _ => rfl

theorem Blk.Unstopped.modQueue {b : Blk} (h : b.Unstopped) (q : QRef) (f : Queue → Queue) : (b.modQueue q f).Unstopped where
  domains d := by rw [Blk.modQueue_get_domain]; exact h.domains d
  movers := by rw [Blk.modQueue_movers]; exact h.movers
  ports := by rw [Blk.modQueue_ports]; exact h.ports
  inst := by rw [Blk.modQueue_sched]; exact h.inst
  range := by rw [Blk.modQueue_clock]; exact h.range
  crit := by rw [Blk.modQueue_sched]; exact h.crit

/-! ## The end of a refill (R97, R98) -/

/-- The block with queue `q` no longer among the refills that run. -/
def Blk.refillOver (b : Blk) (q : QRef) : Blk := b.modSched fun y => { y with refilling := y.refilling.filter (· != q.num) }

/-- The queue that both tiles of `bs` restore. -/
def Queue.restored (x : Queue) (bs : List Byte) : Queue :=
  { runOfTile x (slice bs 64 64) with
    cfg := cfgOfTile bs, run := { (runOfTile x (slice bs 64 64)).run with phase := .idle, polling := true } }

@[simp] theorem Queue.restored_phase (x : Queue) (bs : List Byte) : (x.restored bs).run.phase = .idle := rfl

/-- A refilled queue that nothing stops and no nudge waits for is IDLE. -/
theorem Blk.refilled_idle {b : Blk} {q : QRef} (free : b.Unstopped) (own : (b.queue q).stop = none) (noWait : b.NoneWait) :
    b.refilled q = b.modQueue q fun x => { x with run := { x.run with phase := .idle, polling := true } } := by
  have level : (b.modQueue q fun x => { x with run := { x.run with phase := .idle, polling := true } }).levels q = none :=
    levels_none _ (free.modQueue q _) q (by rw [Blk.modQueue_same]; exact own)
  unfold Blk.refilled
  simp only [level]
  cases q with
  | cell n => rfl
  | dom n => simp [noWait.2]

theorem Blk.refillEnd_restores {b : Blk} {q : QRef} {bs : List Byte} (ok0 : tileOk (slice bs 0 64) = true)
    (ok1 : tileOk (slice bs 64 64) = true) (free : b.Unstopped) (own : (b.queue q).stop = none) (noWait : b.NoneWait) :
    b.refillEnd q (.data bs) = (b.refillOver q).modQueue q fun x => x.restored bs := by
  have ended : (b.refillOver q).Unstopped := ⟨free.domains, free.movers, free.ports, free.inst, free.range, free.crit⟩
  have waits : (b.refillOver q).NoneWait := noWait
  have idle := Blk.refilled_idle (q := q)
    (ended.modQueue q fun x => { runOfTile x (slice bs 64 64) with cfg := cfgOfTile bs })
    (by rw [Blk.modQueue_same]; exact own) (waits.modQueue q _)
  rw [Blk.modQueue_twice] at idle
  unfold Blk.refillEnd
  simp only [ok0, ok1, Bool.not_true, Bool.false_eq_true, if_false]
  exact (congrArg Blk.serveRefills idle).trans (serveRefills_none _ (waits.modQueue q _))

/-- A refill that loses its context: the cause, and the tile it names (R97). -/
def SpoilsRefill : ReadResult → Nat → Nat → Prop
  | .data bs, cause, tile => cause = 0 ∧ (tile = 0 ∧ tileOk (slice bs 0 64) = false
      ∨ tile = 1 ∧ tileOk (slice bs 0 64) = true ∧ tileOk (slice bs 64 64) = false)
  | .poison _, cause, tile => cause = 1 ∧ tile = 0
  | .error, cause, tile => cause = 2 ∧ tile = 0
  | .timeout, cause, tile => cause = 3 ∧ tile = 0

theorem Blk.refillEnd_loses (b : Blk) (q : QRef) {r : ReadResult} {cause tile : Nat} (h : SpoilsRefill r cause tile) :
    b.refillEnd q r = ((b.refillOver q).loseQueue q 0x61 (infoOf [(0, 1, cause + 4 * tile)])).serveRefills := by
  unfold Blk.refillEnd
  cases r with
  | data bs =>
    obtain ⟨rfl, ⟨rfl, bad⟩ | ⟨rfl, ok, bad⟩⟩ := h
    · simp only [bad]
      rfl
    · simp only [ok, bad]
      rfl
  | poison _ | error | timeout =>
    obtain ⟨rfl, rfl⟩ := h
    rfl

/-- Bad data and poison (causes 0 and 1) arrive, so the tag is free; an error or a timeout abandons it (R130). -/
theorem SpoilsRefill.tag {r : ReadResult} {cause tile : Nat} (h : SpoilsRefill r cause tile) (b c : Blk) :
    (if ReadResult.abandons r then b else c) = if cause < 2 then c else b := by
  cases r <;> (obtain ⟨rfl, -⟩ := h; rfl)

theorem refillDoneB_ends {b : Blk} {q : QRef} {n t : Nat} (awaits : b.Awaits (isRefillRead q) (.refill q) n t) (r : ReadResult) :
    refillDoneB q r b = ((if ReadResult.abandons r then b.endRead n t true else b.readOk n t).refillEnd q r).jobsCheck := by
  obtain ⟨⟨_, found⟩, purpose⟩ := awaits
  unfold refillDoneB
  simp only [found]
  unfold Blk.finishRead Blk.readEnd
  simp only [purpose]
  cases r <;> rfl

/-! ## Chains that time out (R84, R95) -/

theorem chainTimeoutB_closed {b : Blk} {q : QRef} (closed : (b.queue q).run.chainTimer = false) : chainTimeoutB q b = b := by
  unfold chainTimeoutB
  simp [closed]

theorem Blk.modQueue_boundAt (b : Blk) (q r : QRef) (f : Queue → Queue) : (b.modQueue q f).boundAt r = b.boundAt r := by
  unfold Blk.boundAt
  rw [Blk.modQueue_movers]

theorem Blk.haltWith_boundAt (b : Blk) (q : QRef) (r : Report) : (b.haltWith q r).boundAt q = b.boundAt q :=
  ite_both (P := fun c : Blk => c.boundAt q = b.boundAt q) rfl (Blk.modQueue_boundAt _ _ _ _)

/-- The entry at `p` belongs to the open chain of the queue, or lies behind it (R84). -/
def Queue.inChain (x : Queue) (p : Nat) : Bool := decide (x.dist x.run.chainFirst x.run.head ≤ x.dist p x.run.head)

/-- The report of the chain that has timed out: its first entry and the known tail (R84, R95). -/
def Queue.chainReport (x : Queue) : Report :=
  haltReport 0x13 x.run.chainFirst (((x.copyAt x.run.chainFirst).map fun c => (decodeDesc c).cookie).getD 0) 0 0
    (infoOf [(0, 4, x.run.tail % 2 ^ 17)])

theorem chainTimeoutB_unbound {b : Blk} {q : QRef} (live : (b.queue q).run.phase.fetches) (open_ : (b.queue q).run.chainTimer = true)
    (noReport : (b.queue q).report = none) (unbound : b.boundAt q = none) :
    chainTimeoutB q b = ((b.haltWith q (b.queue q).chainReport).modQueue q fun x =>
      { x with unpub := x.unpub.filter fun r => !(b.queue q).inChain r.pos }).settleCheck q := by
  have away : (b.haltWith q (b.queue q).chainReport).boundAt q = none := (Blk.haltWith_boundAt b q _).trans unbound
  unfold Queue.chainReport at away
  unfold chainTimeoutB
  rcases live with live | live | live
  all_goals
    simp only [live, open_, noReport, away, Bool.and_self, Option.isNone_none, Bool.not_true, Bool.false_eq_true, if_false]
    rfl

/-! ## Contexts and chains: the statement -/

/-- Settles O32: a spill by `Blk.spillEnd_settled`, a refill by whether its read restores or spoils, a chain by whether it is open. -/
theorem contextsSpillAndRefill : Obligations.ContextsSpillAndRefill := by
  rintro s q _ hs hq rfl
  have awake : s.core.ldr.state ≠ .warmrst := by rw [hs.2]; decide
  refine ⟨fun spilling settled calm noWait alive => ?spill, fun n t awaits => ⟨fun bs ok0 ok1 calm noWait free own alive => ?restored,
    fun r cause tile spoils => ?lost⟩, fun live open_ noReport unbound => ?chain, fun closed => ?closed⟩
  case spill =>
    refine hs.does (by rw [wf_spillDone, hq]) ?_
    unfold spillDoneB
    rw [Blk.spillEnd_settled spilling settled noWait]
    refine jobsCheck_calm _ (Calm.modQueue calm q _ alive (by simp)) ?_
    unfold Blk.modRun
    rwa [Blk.modQueue_ldr]
  case restored =>
    have calm' : ((s.core.readOk n t).refillOver q).Calm := ⟨calm.jobs, calm.queues⟩
    have same := Blk.readOk_get_queue s.core n t q
    refine hs.does (by rw [wf_refillDone, hq]) ((refillDoneB_ends awaits _).trans ?_)
    show ((s.core.readOk n t).refillEnd q (.data bs)).jobsCheck = ((s.core.readOk n t).refillOver q).modQueue q fun x => x.restored bs
    rw [Blk.refillEnd_restores ok0 ok1 (free.readOk n t) (by rw [same]; exact own) noWait]
    exact jobsCheck_calm _ (Calm.modQueue calm' q _ ((congrArg Queue.dying same).trans alive) (by simp)) (by rwa [Blk.modQueue_ldr])
  case lost =>
    have spoils : SpoilsRefill r cause tile := by cases r <;> exact spoils
    refine hs.does (by rw [wf_refillDone, hq]) ((refillDoneB_ends awaits r).trans ?_)
    rw [Blk.refillEnd_loses _ q spoils, spoils.tag]
    rfl
  case chain =>
    exact hs.does (by rw [wf_chainTimeout, hq]) (chainTimeoutB_unbound live open_ noReport unbound)
  case closed =>
    exact hs.does (by rw [wf_chainTimeout, hq]) (chainTimeoutB_closed closed)

/-! ## Filling a local buffer (R70, R77, R88) -/

theorem Blk.modQueue_shadowAt (b : Blk) (q r : QRef) (f : Queue → Queue) : (b.modQueue q f).shadowAt r = b.shadowAt r := by
  unfold Blk.shadowAt
  rw [Blk.modQueue_movers]

/-- Without a shadow an entry enters the binding's own local buffer alone (R150). -/
theorem Blk.fillShadow_none {b : Blk} {q : QRef} (l : LEntry) (h : b.shadowAt q = none) : b.fillShadow q l = b := by
  unfold Blk.fillShadow
  simp only [h]

section
variable {b : Blk} {q : QRef} {m k : Nat} {y : Binding} {c : Copy} (can : b.CanFill q m k y c)
include can

/-- The fetch position may pass: no condition of the binding, the power or the stops is in its way. -/
theorem Blk.CanFill.open_ : (!(b.on 1 && b.on 2 && b.on (moverPd m)) || b.ldr.state == .warmrst
    || (decide (8 ≤ y.lbuf.length + y.exec.length) || y.moving.isSome || y.preempt || y.exec.any (·.dead))
    || !b.mayFill q || !(b.queue q).known (b.queue q).run.fetched) = false := by
  obtain ⟨on1, on2, onMover⟩ := can.on
  obtain ⟨moving, preempt, dead⟩ := can.stays
  have room : decide (8 ≤ y.lbuf.length + y.exec.length) = false := decide_eq_false (Nat.not_le.mpr can.room)
  have warm : (b.ldr.state == .warmrst) = false := beq_false_of_ne can.warm
  simp only [on1, on2, onMover, moving, preempt, dead, room, warm, can.may, can.known]
  rfl

variable {d : Desc} (desc : d = decodeDesc c.bytes)
include desc

theorem localBufferFillB_fills (crc : dcrcOk d = true)
    (form : formReason d (b.queue q).cfg.adminMark (b.queue q).run.prevLast = none) (noWin : d.win = false)
    (plain : d.kind ≠ kSnap ∧ d.kind ≠ kAscat) (alone : b.shadowAt q = none) :
    localBufferFillB q b = ((((b.modQueue q fun x => { x with recheck := none }).modBinding m k fun y =>
        { y with lbuf := y.lbuf ++ [⟨(b.queue q).run.fetched, d, none, c.crc⟩] }).modSched fun z =>
          { z with mews := z.mews.filter fun t => t != ⟨q, (b.queue q).run.fetched⟩ }).modRun q fun r =>
            { r with fetched := (b.queue q).next (b.queue q).run.fetched, prevLast := d.last }) := by
  subst desc
  have shadow := shadowAt_modBinding (b.modQueue q fun x => { x with recheck := none }) q m k
    (fun y => { y with lbuf := y.lbuf ++ [⟨(b.queue q).run.fetched, decodeDesc c.bytes, none, c.crc⟩] }) (fun _ => rfl) (fun _ => rfl)
    ((Blk.modQueue_shadowAt _ _ _ _).trans alone)
  unfold localBufferFillB
  simp only [can.bound, can.at_, can.open_, can.copy, can.good, can.own, crc, form, noWin, bne_self_eq_false, Bool.false_and,
    Bool.not_true, Bool.false_eq_true, if_false]
  rw [Blk.fillShadow_none _ shadow, if_neg (not_or.mpr plain)]

theorem localBufferFillB_misformed {r : Nat} (crc : dcrcOk d = true)
    (form : formReason d (b.queue q).cfg.adminMark (b.queue q).run.prevLast = some r) :
    localBufferFillB q b = (b.modQueue q fun x => { x with recheck := none }).refuseEntry q 0x12 (b.queue q).run.fetched
      d.cookie (formatInfo r) := by
  subst desc
  unfold localBufferFillB
  simp only [can.bound, can.at_, can.open_, can.copy, can.good, can.own, crc, form, bne_self_eq_false,
    Bool.not_true, Bool.false_eq_true, if_false]

/-- The descriptor fails its CRC again after it was read again (R77). -/
theorem localBufferFillB_crcAgain {c1 : Nat} (crc : dcrcOk d = false) (again : (b.queue q).recheck = some ((b.queue q).run.fetched, c1)) :
    localBufferFillB q b = b.refuseEntry q 0x11 (b.queue q).run.fetched d.cookie (infoOf [(0, 2, c1), (2, 2, descCrc c.bytes)]) := by
  subst desc
  unfold localBufferFillB
  simp only [can.bound, can.at_, can.open_, can.copy, can.good, can.own, crc, again, bne_self_eq_false,
    Bool.not_true, Bool.not_false, Bool.false_eq_true, if_false, if_true]

/-- A descriptor that fails its CRC for the first time is read again (R77). -/
theorem localBufferFillB_crcFirst (crc : dcrcOk d = false) (first : (b.queue q).recheck = none) :
    localBufferFillB q b = (b.modQueue q fun x => { x.dropCopy (b.queue q).run.fetched with
      recheck := some ((b.queue q).run.fetched, descCrc c.bytes) }).readSlots q 1 (b.queue q).run.fetched 1 := by
  subst desc
  unfold localBufferFillB
  simp only [can.bound, can.at_, can.open_, can.copy, can.good, can.own, crc, first, bne_self_eq_false,
    Bool.not_true, Bool.not_false, Bool.false_eq_true, if_false, if_true]

end

/-! ## Binding (R202, R203, R205) -/

/-- Trace words are all that a trace point adds. -/
theorem Blk.traceQ_eq (b : Blk) (kind : Nat) (q : QRef) (detail : Nat) : ∃ t, b.traceQ kind q detail = { b with trace := t } :=
  traceEv_eq b kind q.isCell detail q.num

section
variable {b : Blk} {q : QRef}

/-- Outside a warm restart a queue that no stop holds is bound, or waits to be. -/
theorem bindQueueB_binds (on1 : b.on 1 = true) (free : b.levels q = none) (awake : b.ldr.state ≠ .warmrst) :
    bindQueueB q b = b.bindOrWait q := by
  unfold bindQueueB
  simp [on1, free, awake]

theorem Blk.bindOrWait_binds (bindable : b.bindable q = true) {m : Nat} {shadow : Bool} (chosen : b.chooseMover q = some (m, shadow)) :
    b.bindOrWait q = b.bindTo q m shadow := by
  unfold Blk.bindOrWait
  simp only [bindable, chosen, Bool.not_true, Bool.false_eq_true, if_false]

theorem Blk.bindOrWait_waits (bindable : b.bindable q = true) (chosen : b.chooseMover q = none)
    (new : b.sched.bindList.contains q = false) :
    b.bindOrWait q = { (b.modSched fun z => { z with bindList := z.bindList ++ [q] }) with
      movp := { b.movp with bindWait := incr 32 b.movp.bindWait } } := by
  unfold Blk.bindOrWait
  simp only [bindable, chosen, new, Bool.not_true, Bool.false_eq_true, if_false]
  rfl

/-- A binding without a shadow takes the mover's free place and starts afresh at the head of what is not retired (R88, R203). -/
theorem Blk.bindTo_alone {m k : Nat} (place : (b.mover m).freePlace = some k) :
    b.bindTo q m false = (((b.modSched fun z => { z with
        bindSeq := z.bindSeq + 1, bindList := z.bindList.filter (· != q) }).setBinding m k
          (some { newBinding q false b.sched.bindSeq with served := b.clock.cycle })).modQueue q fun x => { x with
            run := { x.run with phase := .bound, fetched := x.run.retiredTo, prevLast := (x.unpub.getLast?.map (·.last)).getD true }
            unshadowed := x.cfg.duplex }).traceQ 0 q m := by
  have same : (b.modSched fun z => { z with
      bindSeq := b.sched.bindSeq + 1, bindList := z.bindList.filter (· != q) }).mover m = b.mover m := rfl
  unfold Blk.bindTo
  simp only [same, place, Bool.false_eq_true, if_false, Bool.not_false, Bool.and_true]
  rfl

/-! ## Unbinding and pre-emption (R16, R204, R205) -/

/-- With no queue waiting, a free place binds none. -/
theorem Blk.serveBindList_nil (m : Nat) (h : b.sched.bindList = []) : b.serveBindList m = b := by
  unfold Blk.serveBindList
  simp only [h, List.find?_nil]

/-- The block with queue `q` gone from place `k` of mover `m`: what was deferred is applied, and fetching goes back to what is
not retired (R14, R88, R204). -/
def Blk.unbound (b : Blk) (q : QRef) (m k target : Nat) : Blk :=
  ((b.setBinding m k none).modQueue q fun x => { x.applyDeferred with run := { x.run with fetched := x.run.retiredTo } }).traceQ 1 q target

theorem Blk.unbound_bindList (q : QRef) (m k target : Nat) : (b.unbound q m k target).sched.bindList = b.sched.bindList := by
  unfold Blk.unbound
  obtain ⟨t, traced⟩ := Blk.traceQ_eq ((b.setBinding m k none).modQueue q fun x =>
    { x.applyDeferred with run := { x.run with fetched := x.run.retiredTo } }) 1 q target
  rw [traced]
  exact congrArg Sched.bindList (Blk.modQueue_sched _ q _)

theorem Blk.freeBinding_alone {m k : Nat} (target : Nat) (bound : b.boundAt q = some (m, k)) (alone : b.shadowAt q = none)
    (noneWaits : b.sched.bindList = []) : b.freeBinding q target = b.unbound q m k target := by
  unfold Blk.freeBinding
  simp only [alone, bound, Option.map_none]
  exact Blk.serveBindList_nil m ((Blk.unbound_bindList q m k target).trans noneWaits)

theorem bindIdleB_unbinds (domain : q.isCell = false) (bound : (b.queue q).run.phase = .bound)
    (drained : (b.queue q).run.tail = (b.queue q).run.head) (quiet : b.quiet q = true) :
    bindIdleB q b = (b.modRun q fun r => { r with phase := .idle }).freeBinding q 31 := by
  unfold bindIdleB
  simp [domain, bound, drained, quiet]

theorem bindPreemptB_preempts {m k n : Nat} (waits : b.sched.bindList ≠ []) (quantum : b.regF 0x11200 31 16 ≠ 0)
    (longest : b.longestBound = some (m, k, n)) :
    bindPreemptB b = (b.modBinding m k fun x => { x with preempt := true }).boundary m k := by
  unfold bindPreemptB
  rw [if_neg (by simp [waits, quantum])]
  simp only [longest]

end

/-! ## Bindings and fills: the statement -/

/-- Settles O31: the fill by what the descriptor shows, the binding by the mover chosen, then the two ways a binding ends. -/
theorem bindingsAndFills : Obligations.BindingsAndFills := by
  rintro s q _ hs hq rfl
  have awake : s.core.ldr.state ≠ .warmrst := by rw [hs.2]; decide
  have fills : ∀ {c : Blk}, localBufferFillB q s.core = c → Does (.localBufferFill q) s c :=
    fun h => hs.does (by rw [wf_localBufferFill, hq]) h
  have binds : ∀ {c : Blk}, s.core.on 1 = true → s.core.levels q = none → s.core.bindOrWait q = c → Does (.bindQueue q) s c :=
    fun on1 free h => hs.does (by rw [wf_bindQueue, hq]) ((bindQueueB_binds on1 free awake).trans h)
  refine ⟨fun m k y c d can desc crc form noWin notSnap notAscat alone => fills ?fill,
    fun m k y c d can desc => ⟨fun r crc form => fills ?form, fun c1 crc again => fills ?again, fun crc first => fills ?first⟩,
    fun on1 free bindable => ⟨fun m k chosen place => binds on1 free ?bind, fun chosen new => binds on1 free ?wait⟩,
    fun m k domain bound drained quiet place alone noneWaits => ?idle, fun m k n waits quantum longest => ?preempt⟩
  case fill => exact localBufferFillB_fills can desc crc form noWin ⟨notSnap, notAscat⟩ alone
  case form => exact localBufferFillB_misformed can desc crc form
  case again => exact localBufferFillB_crcAgain can desc crc again
  case first => exact localBufferFillB_crcFirst can desc crc first
  case bind => exact (Blk.bindOrWait_binds bindable chosen).trans (Blk.bindTo_alone place)
  case wait => exact Blk.bindOrWait_waits bindable chosen new
  case idle =>
    refine hs.does (by rw [wf_bindIdle, hq]) ((bindIdleB_unbinds domain bound drained quiet).trans ?_)
    exact Blk.freeBinding_alone 31 ((Blk.modQueue_boundAt _ _ _ _).trans place) ((Blk.modQueue_shadowAt _ _ _ _).trans alone)
      ((congrArg Sched.bindList (Blk.modQueue_sched _ _ _)).trans noneWaits)
  case preempt =>
    exact hs.does wf_bindPreempt (bindPreemptB_preempts waits quantum longest)

end Sys2Proof.Machine

/-! SUPPORT. Proofs of the statements of the admin queues family: the rows of Table 5-4, their effects, completion on a
management ring, the doorbells and reads of a domain's ring, and the management slots. -/

namespace Sys2Proof.Machine
open Sys2Proof

/-! ## The rows of Table 5-4 (R99, R101) -/

section
variable {b : Blk} {r : AdminRing} {c : List Byte}

theorem Blk.runCmd_refused {st dt : Nat} (form : b.formCheck r c = some (st, dt)) : b.runCmd r c = b.refuse r c st dt := by
  unfold Blk.runCmd
  rw [form]

theorem Blk.runCmd_waits (form : b.formCheck r c = none) (wait : b.mustWait r c = true) :
    b.runCmd r c = b.waitJob r fun j => { j with wait := .turn } := by
  unfold Blk.runCmd
  rw [form]
  exact if_pos wait

theorem Blk.adminRow_starts {op : Nat} (starts : b.Starts r c op) :
    b.adminRow r op = ((b.begun r c).runCmd r c).refuseUnknown r := by
  unfold Blk.adminRow
  rw [starts.ready]
  exact if_pos ⟨starts.opcode, starts.free⟩

end

/-- The row of an admin command starts the ring's next command of its opcode, and the command's effect is what it does once
nothing refuses it or makes it wait (R99, R101). -/
structure AdminOp.Sound (a : AdminOp) : Prop where
  wf : ∀ r, (a.row r).wf = r.wf
  exec : ∀ r s, Sys2Proof.Machine.exec (a.row r) s = runRow (a.row r) (fun b => (b.adminRow r a.op).jobsCheck) s
  acts : ∀ (b : Blk) (r : AdminRing) (c : List Byte), b.formCheck r c = none → b.mustWait r c = false → leAt c 0 1 = a.op →
    b.runCmd r c = a.effect r c b

theorem adminOps_sound : ∀ a ∈ adminOps, a.Sound := by
  simp only [adminOps, List.forall_mem_cons]
  refine ⟨?_, ?_, ?_, ?_, ?_, ?_, ?_, ?_, ?_, ?_, ?_, ?_, ?_, ?_, ?_, ?_, ?_, ?_, ?_, ?_, ?_, nofun⟩
  all_goals
    refine ⟨fun r => rfl, fun r s => rfl, fun b r c form turn op => ?_⟩
    unfold Blk.runCmd
    simp only [form, turn, op, Bool.false_eq_true, if_false]

/-- A ring's next command, once Lovage may start it: it begins and runs, and Lovage goes on. -/
theorem State.Serves.runsCmd {s : State} (hs : s.Serves) {r : AdminRing} {c : List Byte} (wf : r.wf = true) {a : AdminOp}
    (listed : a ∈ adminOps) (starts : s.core.Starts r c a.op) :
    Does (a.row r) s (((s.core.begun r c).runCmd r c).lovageOn r) := by
  have sound := adminOps_sound a listed
  unfold Does
  rw [sound.exec]
  exact hs.does (by rw [sound.wf, wf]) (congrArg Blk.jobsCheck (Blk.adminRow_starts starts))

/-- Settles O24: what has begun is refused, waits its turn or takes effect; the form is judged as before the beginning. -/
theorem adminCommandsRun : Obligations.AdminCommandsRun := by
  intro s r c hs wf a listed starts
  have runs := hs.runsCmd wf listed starts
  have form := begun_formCheck s.core r c
  refine ⟨fun st dt refused => ?_, fun good turn => ?_, fun good wait => ?_⟩
  · rwa [Blk.runCmd_refused (form.trans refused)] at runs
  · rwa [(adminOps_sound a listed).acts _ r c (form.trans good) turn starts.opcode] at runs
  · rwa [Blk.runCmd_waits (form.trans good) wait] at runs

/-! ## What the beginning of a command leaves (R99) -/

section
variable (b : Blk) (r : AdminRing) (c : List Byte)

theorem Blk.begun_queue (q : QRef) : (b.begun r c).queue q = b.queue q := by
  have kept := begun_keeps b r c
  cases q
  · exact congrArg (tabGet {} · _) kept.queues
  · exact congrArg (tabGet {} · _) kept.cells

theorem traceEv_movers (k : Nat) (x : Bool) (d o : Nat) : (b.traceEv k x d o).movers = b.movers := by
  obtain ⟨t, traced⟩ := traceEv_eq b k x d o
  rw [traced]

theorem Blk.begun_movers : (b.begun r c).movers = b.movers := by
  unfold Blk.begun
  cases r <;> exact traceEv_movers _ _ _ _ _

theorem Blk.begun_execsOf (q : QRef) : (b.begun r c).execsOf q = b.execsOf q := by
  unfold Blk.execsOf Blk.boundAt Blk.binding Blk.mover
  rw [Blk.begun_movers]

theorem Blk.begun_domQueues (d : Nat) : (b.begun r c).domQueues d = b.domQueues d := by
  unfold Blk.domQueues
  rw [(begun_keeps b r c).queues]

theorem Blk.modQueue_execsOf (q p : QRef) (f : Queue → Queue) : (b.modQueue q f).execsOf p = b.execsOf p := by
  cases q <;> rfl

end

/-! ## Queue commands by the state of their queue (Table 5-8) -/

/-- A resident queue on which every queue command acts: neither lost nor going. -/
def QPhase.commanded (p : QPhase) : Prop := p = .idle ∨ p = .bound ∨ p = .stopping ∨ p = .stopped ∨ p = .halted

theorem QPhase.commanded.ne_spilled {p : QPhase} (h : p.commanded) : p ≠ .spilled := by
  rcases h with rfl | rfl | rfl | rfl | rfl <;> decide

section
variable {b : Blk} {r : AdminRing} {c : List Byte}

theorem Blk.byState_acts (act : Blk → Blk) (h : (b.queue (queueOf c)).run.phase.commanded) : b.byState r c act = act b := by
  unfold Blk.byState
  rcases h with h | h | h | h | h <;> simp only [h]

theorem Blk.byState_free (act : Blk → Blk) (h : (b.queue (queueOf c)).run.phase = .free) :
    b.byState r c act = b.refuse r c 0x12 6 := by
  unfold Blk.byState
  simp only [h]

/-! ## CREATE_QUEUE and DESTROY_QUEUE (R109, R110, R112) -/

section
variable {cfg : QCfg} (cfgOf : cfg = cfgOfCreate c) (windows : b.createWindows cfg = true) (ring : (b.domain cfg.dom).ring.isNone = false)
include cfgOf windows ring

theorem Blk.doCreate_takes {n : Nat} {t : Blk} (room : b.heldQueues cfg.dom < (b.domain cfg.dom).quota) (qid : b.freeQid = some n)
    (pins : (cfg.pin && decide (15360 ≤ b.pinnedCount)) = false)
    (context : (b.waitJob r fun j =>
      { j with made := some cfg, enable := bit (leAt c 0x28 4) 0, qid := n, dom := cfg.dom }).takeContext = some t) :
    b.doCreate r c = t.createTake r n cfg := by
  subst cfgOf
  unfold Blk.doCreate
  simp only [windows, ring, Nat.not_le.mpr room, qid, pins, context, Bool.not_true, Bool.false_eq_true, if_false]

theorem Blk.doCreate_atQuota (full : (b.domain cfg.dom).quota ≤ b.heldQueues cfg.dom) :
    b.doCreate r c = b.refuse r c 0x60 0x0C := by
  subst cfgOf
  unfold Blk.doCreate
  simp only [windows, ring, full, Bool.not_true, Bool.false_eq_true, if_false, if_true]

end

theorem Blk.doDestroy_begins {p : QPhase} (hp : (b.queue (queueOf c)).run.phase = p)
    (may : p = .idle ∨ p = .spilled ∨ p = .stopped ∨ p = .halted ∨ p = .lost
      ∨ (p = .bound ∨ p = .stopping) ∧ bit (flagsOf c) 0 = true) :
    b.doDestroy r c = (b.destroyBegin (queueOf c)).waitJob r fun j => { j with wait := .free, qid := (queueOf c).num, cell := false } := by
  unfold Blk.doDestroy
  rcases may with h | h | h | h | h | ⟨h | h, force⟩
  all_goals
    subst h
    simp only [hp]
  all_goals exact if_pos force

theorem Blk.doDestroy_refused {p : QPhase} (hp : (b.queue (queueOf c)).run.phase = p)
    (bad : (p = .bound ∨ p = .stopping) ∧ bit (flagsOf c) 0 = false ∨ p = .destroying) :
    b.doDestroy r c = b.refuse r c 0x12 7 := by
  unfold Blk.doDestroy
  rcases bad with ⟨h | h, gentle⟩ | h
  all_goals
    subst h
    simp only [hp]
  all_goals simp only [gentle, Bool.false_eq_true, if_false]

/-! ## Commands on a resident queue (R113, R243, R374) -/

section
variable (resident : (b.queue (queueOf c)).run.phase.commanded)
include resident

theorem Blk.doModify_now (noMod : bit (flagsOf c) 5 = false) (noExec : b.execsOf (queueOf c) = []) :
    b.doModify r c = ((b.modQueue (queueOf c) fun y => y.modify (flagsOf c) c true).modQueue (queueOf c) fun y =>
      y.modify (flagsOf c) c false).okQueue r c false 0 0 := by
  unfold Blk.doModify
  rw [Blk.byState_acts _ resident]
  simp only [Blk.modQueue_execsOf, noExec, noMod, List.isEmpty_nil, Bool.not_true, Bool.false_and, Bool.false_eq_true, if_false]

theorem Blk.doModify_later (noMod : bit (flagsOf c) 5 = false) (exec : b.execsOf (queueOf c) ≠ [])
    (waits : Nat.land (flagsOf c) 0x5F ≠ 0) :
    b.doModify r c = ((b.modQueue (queueOf c) fun y => y.modify (flagsOf c) c true).modQueue (queueOf c) fun y =>
      { y with deferred := y.deferred ++ [(flagsOf c, c)] }).okQueue r c true 0 0 := by
  have busy : (b.execsOf (queueOf c)).isEmpty = false := by simpa using exec
  unfold Blk.doModify
  rw [Blk.byState_acts _ resident]
  simp only [Blk.modQueue_execsOf, busy, noMod, waits, ne_eq, not_false_eq_true, decide_true, Bool.not_false, Bool.and_self,
    Bool.false_and, Bool.false_eq_true, if_false, if_true]

theorem Blk.doStop_stops : b.doStop r c = (b.stopQueueOp (queueOf c) (stopOfCmd c)).okQueue r c false 0 0 :=
  Blk.byState_acts _ resident

/-- A queue that has its backing slot keeps it (R110). -/
theorem Blk.doUnpin_keepsSlot {n : Nat} (slot : (b.queue (queueOf c)).run.backSlot = some n) (taken : b.sched.backUsed.contains n = true) :
    b.doUnpin r c = (b.modQueue (queueOf c) fun y =>
      { y with cfg := { y.cfg with pin := false }, run := { y.run with backSlot := some n, nospill := false } }).okQueue r c false n 0 := by
  have noted : (b.modSched fun x => { x with backUsed := addOnce n x.backUsed }) = b := by
    unfold Blk.modSched addOnce
    dsimp only
    rw [if_pos taken]
  unfold Blk.doUnpin
  dsimp only
  split
  next spilled => exact absurd spilled resident.ne_spilled
  · rw [Blk.byState_acts _ resident]
    simp only [slot, noted, Blk.modQueue_same]
    rfl

end

/-! ## Event rings and resets (R108, R267) -/

theorem Blk.doCreateRing_zeroes {d n : Nat} {t : Blk} (dom : d = leAt c 8 1)
    (range : (b.winOk d (leAt c 0x10 8) (64 * 2 ^ leAt c 0x18 1) false true
      && b.rangesCover (leAt c 0x10 8) (64 * 2 ^ leAt c 0x18 1)) = true)
    (unmade : (b.domain d).ring.isSome = false) (alone : (b.sched.jobs.any fun j => decide (j.wait = .zeroes) && j.dom == d) = false)
    (zeroes : b.zeroArea d (.ringZero d) (64 * 2 ^ leAt c 0x18 1) (leAt c 0x10 8) (64 * 2 ^ leAt c 0x18 1) 0 = (n, t)) :
    b.doCreateRing r c = t.waitJob r fun j => { j with wait := .zeroes, dom := d, left := n } := by
  subst dom
  unfold Blk.doCreateRing
  simp only [range, unmade, alone, zeroes, Bool.not_true, Bool.or_self, Bool.false_eq_true, if_false]

end

/-! ## The effects: the statement -/

theorem Does.lovageOn_congr {i : Instr} {s : State} {r : AdminRing} {t u : Blk} (h : Does i s (t.lovageOn r)) (same : t = u) :
    Does i s (u.lovageOn r) := same ▸ h

/-- Settles O26: each command by the row of Table 5-4 and the lemma of its effect. -/
theorem adminEffectsAreApplied : Obligations.AdminEffectsAreApplied := by
  rintro s r c b q x obj hs wf starts good rfl turn rfl rfl rfl
  have runs : ∀ a ∈ adminOps, leAt c 0 1 = a.op → Does (a.row r) s ((a.effect r c (s.core.begun r c)).lovageOn r) :=
    fun a listed op => (adminCommandsRun s r c hs wf a listed (op ▸ starts)).2.1 good turn
  simp only [adminOps, List.forall_mem_cons] at runs
  obtain ⟨create, destroy, modify, stopQueue, -, -, unpin, -, createRing, -, -, stopDomain, resumeDomain, stopMover, resumeMover,
    stopPort, resumePort, stopInstance, resumeInstance, -, resetDomain, -⟩ := runs
  have queue := s.core.begun_queue r c (queueOf c)
  have execs := s.core.begun_execsOf r c (queueOf c)
  rw [← queue, ← execs]
  refine ⟨fun op cfg cfgOf windows ring => ⟨fun room n qid pins t context => ?_, fun full => ?_⟩,
    fun op => ⟨fun may => ?_, fun bad => ?_⟩,
    fun resident => ⟨fun op noMod => ⟨fun noExec => ?_, fun exec waits => ?_⟩, fun op => ?_, fun op n slot taken => ?_⟩,
    fun op d n t dom range unmade alone zeroes => ?_, stopDomain, resumeDomain, stopMover, resumeMover, stopPort, resumePort,
    stopInstance, resumeInstance, ?_⟩
  · exact (create op).lovageOn_congr (Blk.doCreate_takes cfgOf windows ring room qid pins context)
  · exact (create op).lovageOn_congr (Blk.doCreate_atQuota cfgOf windows ring full)
  · exact (destroy op).lovageOn_congr (Blk.doDestroy_begins rfl may)
  · exact (destroy op).lovageOn_congr (Blk.doDestroy_refused rfl bad)
  · exact (modify op).lovageOn_congr (Blk.doModify_now resident noMod noExec)
  · exact (modify op).lovageOn_congr (Blk.doModify_later resident noMod exec waits)
  · exact (stopQueue op).lovageOn_congr (Blk.doStop_stops resident)
  · exact (unpin op).lovageOn_congr (Blk.doUnpin_keepsSlot resident slot taken)
  · exact (createRing op).lovageOn_congr (Blk.doCreateRing_zeroes dom range unmade alone zeroes)
  · rintro op _ rfl
    rw [← s.core.begun_domQueues r c]
    exact resetDomain op

/-! ## Completion on a management ring (R104, R106) -/

section
variable {b : Blk}

/-- A change of a queue that leaves whether it is dying and its phase keeps the block calm. -/
theorem Blk.Calm.modQueue_life (h : b.Calm) (q : QRef) {f : Queue → Queue} (dying : ∀ x, (f x).dying = x.dying)
    (phase : ∀ x, (f x).run.phase = x.run.phase) : (b.modQueue q f).Calm := by
  cases q with
  | cell n => exact ⟨h.jobs, h.queues⟩
  | dom n =>
    refine Calm.modQueue h (.dom n) f ?_ ?_
    all_goals
      simp only [dying, phase, Blk.queue]
      rcases tabGet_mem {} n b.queues with unlisted | ⟨e, listed, same⟩
    · rw [unlisted]
    · rw [← same]; exact (h.queues e listed).1
    · rw [unlisted]; decide
    · rw [← same]; exact (h.queues e listed).2

variable {r : AdminRing} {c : List Byte} {rest : List (List Byte)}

theorem Blk.Holds.modQueue (h : b.Holds r c rest) (q : QRef) (f : Queue → Queue) : (b.modQueue q f).Holds r c rest := by
  cases q <;> exact ⟨h.mgmt, h.slots, h.known, h.room, h.on⟩

theorem Blk.Holds.modDomain (h : b.Holds r c rest) (d : Nat) (f : Domain → Domain) : (b.modDomain d f).Holds r c rest :=
  ⟨h.mgmt, h.slots, h.known, h.room, h.on⟩

variable (b r c)

theorem gOf_queue (q : QRef) : (gOf r c b).queue q = b.queue q := by
  obtain ⟨t, m, n, form⟩ := gOf_form r c b
  rw [form]
  cases q <;> rfl

theorem gOf_domain (d : Nat) : (gOf r c b).domain d = b.domain d := by
  obtain ⟨t, m, n, form⟩ := gOf_form r c b
  rw [form]
  rfl

theorem gOf_boundMover (q : QRef) : (gOf r c b).boundMover q = b.boundMover q := by
  obtain ⟨t, m, n, form⟩ := gOf_form r c b
  rw [form]
  rfl

/-- The command that runs makes no queue. -/
theorem gOf_heldQueues (calm : b.sched.jobs = []) (d : Nat) : (gOf r c b).heldQueues d = b.heldQueues d := by
  obtain ⟨t, m, n, form⟩ := gOf_form r c b
  rw [form]
  unfold Blk.heldQueues
  simp [calm, newJob]

theorem gOf_pinnedCount (calm : b.sched.jobs = []) : (gOf r c b).pinnedCount = b.pinnedCount := by
  obtain ⟨t, m, n, form⟩ := gOf_form r c b
  rw [form]
  unfold Blk.pinnedCount
  simp [calm, newJob]

theorem gOf_mustWait : (gOf r c b).mustWait r c = false := by
  obtain ⟨t, m, n, form⟩ := gOf_form r c b
  rw [form]
  unfold Blk.mustWait
  simp [newJob]

theorem gOf_modDomain (d : Nat) (f : Domain → Domain) : (gOf r c b).modDomain d f = gOf r c (b.modDomain d f) := by
  unfold gOf
  rw [mod_traceEv b 7 false (leAt c 0 1) (ringObj r) (fun b => b.modDomain d f) (fun _ _ => rfl) rfl rfl]
  cases r <;> rfl

theorem gOf_modQueue (q : QRef) (f : Queue → Queue) : (gOf r c b).modQueue q f = gOf r c (b.modQueue q f) := by
  unfold gOf
  rw [mod_traceEv b 7 false (leAt c 0 1) (ringObj r) (fun b => b.modQueue q f) (fun _ _ => by cases q <;> rfl) (by simp) (by simp)]
  cases r <;> cases q <;> rfl

variable {b r c}

theorem mgDone_of_complete (calm : b.Calm) (ldr : b.ldr.state ≠ .warmrst) (holds : b.Holds r c rest) (st dt qs r0 r1 : Nat) :
    ((gOf r c b).complete r c st dt qs false r0 r1).lovageOn r = b.mgDone r c (cplEntry c 1 st dt qs false r0 r1) := by
  rw [complete_mg b r c holds.mgmt calm.jobs, done_lovageOn b r c _ rest holds.mgmt calm ldr holds.slots holds.known]

end

/-- Command `c` stands at the head of management ring `r` of a block that works and has nothing else in progress. -/
structure State.MgHead (s : State) (r : AdminRing) (c : List Byte) (rest : List (List Byte)) : Prop where
  serves : s.Serves
  calm : s.core.Calm
  holds : s.core.Holds r c rest

namespace State.MgHead
variable {s : State} {r : AdminRing} {c : List Byte} {rest : List (List Byte)} (h : s.MgHead r c rest) {i : Instr} {st dt qs r0 r1 : Nat}
include h

theorem not_warm : s.core.ldr.state ≠ .warmrst := by
  rw [h.serves.2]
  decide

theorem begun : s.core.begun r c = gOf r c s.core := begun_mg s.core r c h.holds.mgmt h.calm.jobs

theorem runs {a : AdminOp} (listed : a ∈ adminOps) (op : leAt c 0 1 = a.op) :
    (∀ st dt, s.core.formCheck r c = some (st, dt) → Does (a.row r) s (((gOf r c s.core).refuse r c st dt).lovageOn r))
    ∧ (s.core.formCheck r c = none → Does (a.row r) s ((a.effect r c (gOf r c s.core)).lovageOn r)) := by
  obtain ⟨starts, wf⟩ := starts_of s r c rest h.serves h.calm h.holds
  obtain ⟨refused, acts, -⟩ := adminCommandsRun s r c h.serves wf a listed (op ▸ starts)
  rw [h.begun] at refused acts
  exact ⟨refused, fun good => acts good (gOf_mustWait s.core r c)⟩

/-- A command completes with one entry and nothing else of the block changes. -/
theorem completes (done : Does i s (((gOf r c s.core).complete r c st dt qs false r0 r1).lovageOn r)) :
    Does i s (s.core.mgDone r c (cplEntry c 1 st dt qs false r0 r1)) := by
  rwa [mgDone_of_complete h.calm h.not_warm h.holds] at done

theorem refuses (done : Does i s (((gOf r c s.core).refuse r c st dt).lovageOn r))
    (state : (if opcodeQueue (leAt c 0 1) then s.core.qstate (queueOf c) else 0) = qs) :
    Does i s (s.core.mgDone r c (cplEntry c 1 st dt qs false 0 0)) := by
  subst state
  unfold Blk.refuse Blk.qstate at done
  rw [gOf_queue] at done
  exact h.completes done

theorem answers (done : Does i s (((gOf r c s.core).okQueue r c false r0 r1).lovageOn r)) :
    Does i s (s.core.mgDone r c (cplEntry c 1 0 0 (s.core.queue (queueOf c)).run.phase.code false r0 r1)) := by
  unfold Blk.okQueue Blk.qstate at done
  rw [gOf_queue] at done
  exact h.completes done

theorem completes_domain (d : Nat) (f : Domain → Domain)
    (done : Does i s ((((gOf r c s.core).modDomain d f).complete r c st dt qs false r0 r1).lovageOn r)) :
    Does i s ((s.core.modDomain d f).mgDone r c (cplEntry c 1 st dt qs false r0 r1)) := by
  have calm : (s.core.modDomain d f).Calm := ⟨h.calm.jobs, h.calm.queues⟩
  rwa [gOf_modDomain, mgDone_of_complete calm h.not_warm (h.holds.modDomain d f)] at done

/-- A command changes its queue, but neither its phase nor whether it is dying, and completes with the queue's state. -/
theorem answers_queue {f : Queue → Queue} (dying : ∀ x, (f x).dying = x.dying) (phase : ∀ x, (f x).run.phase = x.run.phase)
    (done : Does i s ((((gOf r c s.core).modQueue (queueOf c) f).okQueue r c false r0 r1).lovageOn r)) :
    Does i s ((s.core.modQueue (queueOf c) f).mgDone r c
      (cplEntry c 1 0 0 (s.core.queue (queueOf c)).run.phase.code false r0 r1)) := by
  have warm : (s.core.modQueue (queueOf c) f).ldr.state ≠ .warmrst := by
    rw [Blk.modQueue_ldr]
    exact h.not_warm
  unfold Blk.okQueue Blk.qstate at done
  rwa [Blk.modQueue_same, phase, gOf_queue, gOf_modQueue,
    mgDone_of_complete (h.calm.modQueue_life _ dying phase) warm (h.holds.modQueue _ f)] at done

end State.MgHead

/-! ## Effects that complete at once (Table 5-4, Table 5-8) -/

section
variable {b : Blk} {r : AdminRing} {c : List Byte}

/-- Every queue command is refused on a FREE queue. -/
theorem queueCmd_free (free : (b.queue (queueOf c)).run.phase = .free) :
    ∀ a ∈ adminOps, opcodeQueue a.op = true → a.effect r c b = b.refuse r c 0x12 6 := by
  have byState := fun act => Blk.byState_free (r := r) act free
  have destroy : b.doDestroy r c = b.refuse r c 0x12 6 := by unfold Blk.doDestroy; simp only [free]
  have resume : b.doResume r c = b.refuse r c 0x12 6 := by unfold Blk.doResume; simp only [free, byState]
  have unpin : b.doUnpin r c = b.refuse r c 0x12 6 := by unfold Blk.doUnpin; simp only [free, byState]
  have query : b.doQuery r c = b.refuse r c 0x12 6 := by unfold Blk.doQuery; simp only [free, byState]
  simp only [adminOps, List.forall_mem_cons]
  exact ⟨nofun, fun _ => destroy, fun _ => byState _, fun _ => byState _, fun _ => resume, fun _ => byState _, fun _ => unpin,
    fun _ => query, nofun, nofun, nofun, nofun, nofun, nofun, nofun, nofun, nofun, nofun, nofun, nofun, nofun, nofun⟩

theorem Blk.doResume_runs (running : (b.queue (queueOf c)).run.phase = .idle ∨ (b.queue (queueOf c)).run.phase = .bound) :
    b.doResume r c = b.okQueue r c false 0 0 := by
  unfold Blk.doResume
  rcases running with h | h <;> simp only [h]

theorem Blk.doPin_pins (resident : (b.queue (queueOf c)).run.phase.commanded)
    (room : (b.queue (queueOf c)).cfg.pin = true ∨ b.pinnedCount < 15360) :
    b.doPin r c = (b.modQueue (queueOf c) fun x => { x with cfg := { x.cfg with pin := true } }).okQueue r c false 0 0 := by
  have fits : (!(b.queue (queueOf c)).cfg.pin && decide (15360 ≤ b.pinnedCount)) = false := by
    rcases room with h | h
    · simp [h]
    · simp [Nat.not_le.mpr h]
  unfold Blk.doPin
  rw [Blk.byState_acts _ resident]
  simp only [fits, Bool.false_eq_true, if_false]

theorem QPhase.known_of_not {p : QPhase} (free : p ≠ .free) (spilling : p ≠ .spilling) (refilling : p ≠ .refilling)
    (spilled : p ≠ .spilled) : p.commanded ∨ p = .lost ∨ p = .destroying := by
  cases p <;> simp_all [QPhase.commanded]

/-- What QUERY_QUEUE answers of a ring position: the index, and the lap at bit 16. -/
theorem Blk.doQuery_answers {x : Queue} (same : b.queue (queueOf c) = x)
    (known : x.run.phase.commanded ∨ x.run.phase = .lost ∨ x.run.phase = .destroying) :
    b.doQuery r c = b.okQueue r c false (x.run.head % x.size + 65536 * lapOf x.run.head x.size)
      (x.run.tail % x.size + 65536 * lapOf x.run.tail x.size + 2 ^ 17 * b.boundMover (queueOf c) + 2 ^ 24 * x.run.lastStatus) := by
  subst same
  unfold Blk.doQuery
  rcases known with h | h | h
  · dsimp only
    split
    · rfl
    · rfl
    · exact Blk.byState_acts _ h
  · simp only [h]
  · simp only [h]

section
variable {d : Nat} (dom : leAt c 8 1 = d)
include dom

theorem Blk.doDestroyRing_held (held : 0 < b.heldQueues d) : b.doDestroyRing r c = b.refuse r c 0x12 7 := by
  subst dom
  exact if_pos held

theorem Blk.doDestroyRing_noRing (empty : b.heldQueues d = 0) (ring : (b.domain d).ring = none) :
    b.doDestroyRing r c = b.refuse r c 0x12 9 := by
  subst dom
  unfold Blk.doDestroyRing
  simp [empty, ring]

theorem Blk.doDestroyRing_removes (empty : b.heldQueues d = 0) (ring : (b.domain d).ring.isSome = true) :
    b.doDestroyRing r c = (b.modDomain d fun x => { x with ring := none }).complete r c 0 0 0 false 0 0 := by
  subst dom
  have made : (b.domain (leAt c 8 1)).ring.isNone = false := by simpa using ring
  unfold Blk.doDestroyRing
  simp only [empty, made, Nat.lt_irrefl, Bool.false_eq_true, if_false]

end

end

/-! ## Management rings: the statement -/

/-- Settles O25: the command runs on the block as it has begun, and its one entry is all that completion adds. -/
theorem managementRingCommandsComplete : Obligations.ManagementRingCommandsComplete := by
  intro s r c rest hs calm holds
  have head : s.MgHead r c rest := ⟨hs, calm, holds⟩
  refine ⟨fun a listed op st dt bad => head.refuses ((head.runs listed op).1 st dt bad) (by rw [op]), fun good => ?_⟩
  have acts : ∀ a ∈ adminOps, leAt c 0 1 = a.op → Does (a.row r) s ((a.effect r c (gOf r c s.core)).lovageOn r) :=
    fun a listed op => (head.runs listed op).2 good
  have queue := gOf_queue s.core r c
  have held := gOf_heldQueues s.core r c calm.jobs
  have domain := gOf_domain s.core r c
  have rows := acts
  simp only [adminOps, List.forall_mem_cons] at rows
  obtain ⟨-, -, -, -, resume, pin, -, query, -, destroyRing, nop, -, -, -, -, -, -, -, -, setQuota, -⟩ := rows
  refine ⟨fun op => head.completes (nop op), ?setQuota, fun d op dom empty ring => ?removes, fun d op dom nonempty => ?held,
    fun d op dom empty ring => ?noRing, ?free, ?resume, ?pin, ?query⟩
  case setQuota =>
    rintro d op rfl
    have done := setQuota op
    rw [held] at done
    exact head.completes_domain _ _ done
  case removes =>
    exact head.completes_domain _ _ ((destroyRing op).lovageOn_congr (Blk.doDestroyRing_removes dom (by rwa [held]) (by rwa [domain])))
  case held => exact head.refuses ((destroyRing op).lovageOn_congr (Blk.doDestroyRing_held dom (by rwa [held]))) (by rw [op]; rfl)
  case noRing =>
    exact head.refuses ((destroyRing op).lovageOn_congr (Blk.doDestroyRing_noRing dom (by rwa [held]) (by rwa [domain]))) (by rw [op]; rfl)
  case free =>
    rintro q x rfl rfl free a listed op names
    refine head.refuses ((acts a listed op.symm).lovageOn_congr (queueCmd_free (by rwa [queue]) a listed names)) ?_
    simp [Blk.qstate, free, QPhase.code]
  case resume =>
    rintro q x rfl rfl op running
    exact head.answers ((resume op).lovageOn_congr (Blk.doResume_runs (by rwa [queue])))
  case pin =>
    rintro q x rfl rfl op phase room
    have resident : (s.core.queue (queueOf c)).run.phase.commanded := by
      rcases phase with h | h | h <;> simp [QPhase.commanded, h]
    exact head.answers_queue (fun _ => rfl) (fun _ => rfl)
      ((pin op).lovageOn_congr (Blk.doPin_pins (by rwa [queue]) (by rwa [queue, gOf_pinnedCount _ _ _ calm.jobs])))
  case query =>
    rintro q x rfl rfl op free spilling refilling spilled
    have done := (query op).lovageOn_congr (Blk.doQuery_answers (queue _) (QPhase.known_of_not free spilling refilling spilled))
    rw [gOf_boundMover] at done
    exact head.answers done

/-! ## Management slots (R106, R360) -/

section
variable (b : Blk) (p : MPort)

theorem Blk.selected_mgRing (r : AdminRing) : (b.selected p).mgRing r = b.mgRing r := by cases p <;> cases r <;> rfl

variable {b} {r : AdminRing} (mgmt : r = .mga ∨ r = .mgb)
include mgmt

theorem Blk.modMg_same (f : MgRing → MgRing) : (b.modMg r f).mgRing r = f (b.mgRing r) := by
  rcases mgmt with rfl | rfl <;> rfl

end

section
variable {b : Blk} {second : Bool} {r : AdminRing} (ring : r = if second then .mgb else .mga)
include ring

theorem mgmt_of_second : r = .mga ∨ r = .mgb := by
  cases second
  · exact .inl ring
  · exact .inr ring

theorem Blk.mgSubmitOp_full (full : 16 ≤ (b.mgRing r).slots.length) :
    b.mgSubmitOp second = b.modMg r fun v => { v with refused := true } := by
  subst ring
  exact if_pos full

theorem Blk.mgSubmitOp_stores {c : List Byte}
    (cmd : c = ((List.range 16).flatMap fun k => leBytes 4 (b.reg ((if second then 0x6080 else 0x6000) + 4 * k))))
    (room : (b.mgRing r).slots.length < 16)
    (known : ∀ h, ((b.mgRing r).slots ++ [c]).head? = some h → opcodeKnown (leAt h 0 1) = true) :
    b.mgSubmitOp second = b.modMg r fun v => { v with slots := v.slots ++ [c], refused := false } := by
  have mgmt := mgmt_of_second ring
  subst ring cmd
  unfold Blk.mgSubmitOp
  rw [if_neg (Nat.not_le.mpr room)]
  exact refuseUnknown_mg _ _ mgmt (by rwa [Blk.modMg_same mgmt])

theorem Blk.mgPopOp_pops (known : ∀ h, (b.mgRing r).slots.head? = some h → opcodeKnown (leAt h 0 1) = true) :
    b.mgPopOp second = b.modMg r fun v => { v with cpls := v.cpls.drop 1 } := by
  have mgmt := mgmt_of_second ring
  subst ring
  exact refuseUnknown_mg _ _ mgmt (by rwa [Blk.modMg_same mgmt])

end

/-- The one command in progress, on a management ring, waits for a context and gives up (R360). -/
theorem contextWaitTimeoutB_refuses {b : Blk} {r : AdminRing} {j : AdminJob} (mgmt : r = .mga ∨ r = .mgb)
    (known : ∀ h, (b.mgRing r).slots.head? = some h → opcodeKnown (leAt h 0 1) = true)
    (alone : b.sched.jobs = [j]) (ring : j.ring = r) (wait : j.wait = .context) :
    contextWaitTimeoutB r b = (b.modSched fun y => { y with jobs := [] }).modMg r fun v => { v with cpls := v.cpls ++
      [cplEntry j.cmd 1 0x60 0x0E (if opcodeQueue (leAt j.cmd 0 1) then b.qstate (queueOf j.cmd) else 0) false 0 0] } := by
  subst ring
  have job : b.jobOf j.ring = some j := by unfold Blk.jobOf; simp [alone]
  have gone : b.refuse j.ring j.cmd 0x60 0x0E = (b.modSched fun y => { y with jobs := [] }).modMg j.ring fun v => { v with cpls := v.cpls ++
      [cplEntry j.cmd 1 0x60 0x0E (if opcodeQueue (leAt j.cmd 0 1) then b.qstate (queueOf j.cmd) else 0) false 0 0] } := by
    have cleared : (b.modSched fun s => { s with jobs := s.jobs.filter fun k => k.ring != j.ring })
        = b.modSched fun y => { y with jobs := [] } :=
      Blk.modSched_congr b _ _ (by simp [alone])
    unfold Blk.refuse Blk.complete
    rw [cleared]
    rcases mgmt with h | h <;> simp only [h]
  unfold contextWaitTimeoutB
  rw [job]
  simp only [wait, reduceCtorEq, decide_false, Bool.false_and, Bool.false_eq_true, or_false, if_true, if_false]
  rw [gone]
  refine refuseUnknown_mg _ _ mgmt ?_
  rw [Blk.modMg_same mgmt]
  rcases mgmt with h | h <;> rw [h] at known ⊢ <;> exact known

/-! ## Management slots: the statement -/

/-- Settles O28: the two registers by their rows, the time-out by the refusal it ends in. -/
theorem managementSlotsFillAndDrain : Obligations.ManagementSlotsFillAndDrain := by
  rintro s p second r _ c hs ring rfl cmd
  have slots := s.core.selected_mgRing p r
  refine ⟨fun opens => ⟨fun full => ?_, fun room known => ?_⟩, fun opens known => ?_, ?_⟩
  · rw [← Blk.mgSubmitOp_full ring (by rwa [slots])]
    exact row_mgSubmit s p second hs opens
  · rw [← Blk.mgSubmitOp_stores ring (by simpa only [Blk.selected, Blk.modSide_get_reg] using cmd) (by rwa [slots]) (by rwa [slots])]
    exact row_mgSubmit s p second hs opens
  · rw [← Blk.mgPopOp_pops ring (by rwa [slots])]
    exact row_mgPop s p second hs opens
  · rintro _ j rfl known alone job wait
    have mgmt := mgmt_of_second ring
    refine hs.does ?_ (contextWaitTimeoutB_refuses mgmt known alone job wait)
    rcases mgmt with h | h <;> rw [h] <;> rfl

/-! ## Reads of a domain's admin ring (R102) -/

/-- Lovage serves the admin ring of domain `d`, and no reset or lost completion keeps it from reading there (R102, R104, R108). -/
structure Blk.AdminServed (b : Blk) (d : Nat) (e : DomEntry) : Prop where
  entry : b.domEntry d = some e
  on : b.on 1 = true
  awake : b.ldr.state ≠ .warmrst
  started : (b.domain d).started = true
  served : (b.domain d).served = true
  kept : (b.domain d).lostCpl = false
  notReset : b.resetting d = false

section
variable {b : Blk} {d : Nat} {e : DomEntry} (ring : b.AdminServed d e)
include ring

theorem Blk.adminRead_waiting (waiting : (b.domain d).fetched ≠ none) : b.adminRead d = b := by
  obtain ⟨c, held⟩ := Option.ne_none_iff_exists'.mp waiting
  unfold Blk.adminRead
  simp [ring.entry, held]

section
variable (quiet : (b.domain d).reading = false) (empty : (b.domain d).fetched = none)
include quiet empty

theorem Blk.adminRead_reads (may : b.pollMay = true) : b.adminRead d = b.adminReads d e := by
  unfold Blk.adminRead
  simp [ring.entry, ring.on, ring.awake, ring.started, ring.served, ring.kept, ring.notReset, quiet, empty, may, Blk.adminReads]

theorem Blk.adminRead_later (may : b.pollMay = false) : b.adminRead d = b.modDomain d fun x => { x with ask := true } := by
  unfold Blk.adminRead
  simp [ring.entry, ring.on, ring.awake, ring.started, ring.served, ring.kept, ring.notReset, quiet, empty, may]

end

/-- Sending packets changes nothing that Lovage looks at. -/
theorem Blk.AdminServed.sent {c : Blk} (h : Sent b c) : c.AdminServed d e := by
  unfold Sent at h
  rw [h]
  exact ⟨ring.entry, ring.on, ring.awake, ring.started, ring.served, ring.kept, ring.notReset⟩

end

section
variable {b c : Blk} (h : Sent b c) (d : Nat)
include h

theorem Sent.domain : c.domain d = b.domain d := by rw [h]; rfl

theorem Sent.domEntry : c.domEntry d = b.domEntry d := by rw [h]; rfl

theorem Sent.cplRoom : c.cplRoom d = b.cplRoom d := by rw [h]; rfl

theorem Sent.pollMay : c.pollMay = b.pollMay := by rw [h]; rfl

theorem Sent.resetting : c.resetting d = b.resetting d := by rw [h]; rfl

theorem Sent.on : c.on d = b.on d := by rw [h]; rfl

end

/-- The end of a read writes its port alone (R130). -/
theorem Blk.endRead_sent (b : Blk) (n t : Nat) (withheld : Bool) : Sent b (b.endRead n t withheld) := Blk.modPort_sent _ _ _

theorem Blk.readOk_sent (b : Blk) (n t : Nat) : Sent b (b.readOk n t) := by
  unfold Blk.readOk Blk.noteRtt Blk.modPath
  exact (b.endRead_sent n t false).trans (Blk.modPort_sent _ _ _)

theorem readyCmd_dom {b : Blk} {d : Nat} {c : List Byte} (ready : b.readyCmd (.dom d) = some c) : (b.domain d).fetched = some c := by
  unfold Blk.readyCmd at ready
  dsimp only at ready
  split at ready
  · cases ready
  · split at ready
    · exact ready
    · cases ready

/-- Lovage refuses nothing on a ring whose waiting command, where it has one, is of Table 5-4 (R101). -/
theorem refuseUnknown_dom {b : Blk} {d : Nat} (known : ∀ c, (b.domain d).fetched = some c → opcodeKnown (leAt c 0 1) = true) :
    b.refuseUnknown (.dom d) = b := by
  unfold Blk.refuseUnknown
  split
  next c ready => rw [known c (readyCmd_dom ready)]; rfl
  · rfl

theorem stallCheck_room {b : Blk} {d : Nat} (room : (b.domain d).fetched = none ∨ b.cplRoom d = true) : b.stallCheck d = b := by
  unfold Blk.stallCheck
  rcases room with h | h <;> simp [h]

theorem Blk.adminAsk_quiet {b : Blk} {d : Nat} (quiet : (b.domain d).reading = false) : b.adminAsk d = b.adminRead d := by
  unfold Blk.adminAsk
  rw [quiet]
  rfl

theorem Blk.adminAsk_reading {b : Blk} {d : Nat} (reading : (b.domain d).reading = true) :
    b.adminAsk d = b.modDomain d fun x => { x with ask := true } := if_pos reading

/-! ## Doorbells of an admin ring (R103, R105) -/

theorem doorbell_passes {e : DomEntry} {d hdrDom size value : Nat} (fits : doorbellFits e d hdrDom size value) :
    (!decide (size = 4 ∨ size = 8) || decide (hdrDom ≠ d) || decide (e.adminLen ≤ bits value 15 0)) = false := by
  rw [posOf_fits, decide_eq_true fits]
  rfl

/-- A ring whose doorbell is taken is served; what else Lovage looks at before it reads is as it was. -/
theorem Blk.adminServed_nudged {b t u : Blk} {d value : Nat} {e : DomEntry} (entry : b.domEntry d = some e)
    (on1 : b.on 1 = true) (kept : (b.domain d).lostCpl = false) (awake : b.ldr.state ≠ .warmrst)
    (notReset : b.resetting d = false)
    (tail : t = b.modDomain d fun x => { x with tailPos := posOf value e.adminLen, win := false, served := true, started := true })
    (cpl : u = if (b.domain d).started then t else t.sendWrite e.adminCpl (cplWordBytes e.adminLen 0 0) d 0 (.adminWord d) false) :
    u.AdminServed d e ∧ (u.domain d).reading = (b.domain d).reading ∧ (u.domain d).fetched = (b.domain d).fetched
      ∧ u.pollMay = b.pollMay := by
  have sent : Sent t u := by
    rw [cpl]
    exact ite_both (P := Sent t) (Sent.refl t) (Blk.sendWrite_sent _ _ _ _ _ _ _)
  have domain : u.domain d = { b.domain d with
      tailPos := posOf value e.adminLen, win := false, served := true, started := true } := by
    rw [sent.domain, tail, Blk.modDomain_same]
  refine ⟨Blk.AdminServed.sent ?_ sent, by rw [domain], by rw [domain], by rw [sent.pollMay, tail]; rfl⟩
  subst tail
  exact ⟨entry, on1, awake, by simp, by simp, by simp [kept], notReset⟩

section
variable {b : Blk} {d hdrDom size value : Nat} (on1 : b.on 1 = true) (on2 : b.on 2 = true)
include on1 on2

theorem adminNudgeB_misfit (misfit : ∀ e, b.domEntry d = some e → ¬ doorbellFits e d hdrDom size value) :
    adminNudgeB d hdrDom size value b = b.nudgeDrop := by
  unfold adminNudgeB
  rw [if_neg (by simp [on1, on2])]
  split
  · rfl
  next e entry => rw [posOf_fits, if_pos (by simp [misfit e entry])]

theorem adminCplReturnB_misfit (misfit : ∀ e, b.domEntry d = some e → ¬ doorbellFits e d hdrDom size value) :
    adminCplReturnB d hdrDom size value b = b.nudgeDrop := by
  unfold adminCplReturnB
  rw [if_neg (by simp [on1, on2])]
  split
  · rfl
  next e entry =>
    dsimp only
    rw [posOf_fits, if_pos (by simp [misfit e entry])]

variable {e : DomEntry} (entry : b.domEntry d = some e)
include entry

theorem adminCplReturnB_beyond
    (beyond : ((b.domain d).cplPos + 2 * e.adminLen - (b.domain d).retPos) % (2 * e.adminLen)
      < (posOf value e.adminLen + 2 * e.adminLen - (b.domain d).retPos) % (2 * e.adminLen)) :
    adminCplReturnB d hdrDom size value b = b.nudgeDrop := by
  unfold adminCplReturnB
  rw [if_neg (by simp [on1, on2]), entry]
  exact if_pos (by simp [beyond])

variable (fits : doorbellFits e d hdrDom size value)
include fits

/-- A ring without a command that waits neither stalls nor has one to refuse. -/
theorem adminCplReturnB_returns
    (within : (posOf value e.adminLen + 2 * e.adminLen - (b.domain d).retPos) % (2 * e.adminLen)
      ≤ ((b.domain d).cplPos + 2 * e.adminLen - (b.domain d).retPos) % (2 * e.adminLen)) (empty : (b.domain d).fetched = none) :
    adminCplReturnB d hdrDom size value b = b.modDomain d fun x => { x with retPos := posOf value e.adminLen, stalled := false } := by
  have still : ((b.modDomain d fun x => { x with retPos := posOf value e.adminLen, stalled := false }).domain d).fetched = none := by
    rw [Blk.modDomain_same]
    exact empty
  unfold adminCplReturnB
  rw [if_neg (by simp [on1, on2]), entry]
  simp only [doorbell_passes fits, Nat.not_lt.mpr within, decide_false, Bool.or_self, Bool.false_eq_true, if_false]
  rw [stallCheck_room (.inl still)]
  exact refuseUnknown_dom (by simp [empty])

theorem adminNudgeB_outside (bad : b.adminRingOk d e = false) :
    adminNudgeB d hdrDom size value b = (b.modDomain d fun x => { x with win := true, served := false }).raise 0 10 := by
  unfold adminNudgeB
  rw [if_neg (by simp [on1, on2]), entry]
  simp only [doorbell_passes fits, bad, Bool.not_false, Bool.false_eq_true, if_false, if_true]

theorem adminNudgeB_asks (good : b.adminRingOk d e = true) (kept : (b.domain d).lostCpl = false) {t : Blk}
    (tail : t = b.modDomain d fun x => { x with tailPos := posOf value e.adminLen, win := false, served := true, started := true }) :
    adminNudgeB d hdrDom size value b =
      (if (b.domain d).started then t else t.sendWrite e.adminCpl (cplWordBytes e.adminLen 0 0) d 0 (.adminWord d) false).adminAsk d := by
  subst tail
  unfold adminNudgeB
  rw [if_neg (by simp [on1, on2]), entry]
  simp only [doorbell_passes fits, good, kept, Bool.not_true, Bool.false_eq_true, if_false]

end

/-! ## The end of a read of an admin ring (R102, R104) -/

section
variable {b : Blk} {d n t : Nat}

theorem adminRingReadDoneB_ends (r : ReadResult) (out : b.Awaits (isAdminRead d) (.admin d) n t) :
    adminRingReadDoneB d r b = b.finishRead n t r .timeout := by
  obtain ⟨tag, found⟩ := out.found
  unfold adminRingReadDoneB
  rw [found]

theorem adminRingReadDoneB_arrived {r : ReadResult} {bs : List Byte} (out : b.Awaits (isAdminRead d) (.admin d) n t)
    (arrived : r = .data bs ∨ r = .poison bs) : adminRingReadDoneB d r b = (b.readOk n t).adminReadEnd d r := by
  rw [adminRingReadDoneB_ends r out]
  unfold Blk.finishRead Blk.readEnd
  rcases arrived with rfl | rfl
  all_goals
    simp only [out.purpose]
    rfl

theorem adminRingReadDoneB_abandoned {r : ReadResult} (out : b.Awaits (isAdminRead d) (.admin d) n t)
    (abandoned : r = .error ∨ r = .timeout) : adminRingReadDoneB d r b = (b.endRead n t true).adminReadEnd d r := by
  rw [adminRingReadDoneB_ends r out]
  unfold Blk.finishRead Blk.readEnd
  rcases abandoned with rfl | rfl
  all_goals
    simp only [out.purpose]
    rfl

variable {e : DomEntry} (entry : b.domEntry d = some e) (reading : (b.domain d).reading = true) {bs : List Byte}
include entry reading

/-- The tile holds a command: 64 bytes, and OWN is of the lap (R102). -/
theorem Blk.adminReadEnd_gives (len : bs.length = 64) (own : ownOf bs = decide (lapOf (b.domain d).cmdPos e.adminLen = 1))
    (room : b.cplRoom d = true) (known : opcodeKnown (leAt bs 0 1) = true) :
    b.adminReadEnd d (.data bs) = b.modDomain d fun x => { x with reading := false, fetched := some bs, ask := false } := by
  have room' : (b.modDomain d fun x => { x with reading := false, fetched := some bs, ask := false }).cplRoom d = true := by
    unfold Blk.cplRoom at room ⊢
    rw [Blk.modDomain_same]
    exact room
  unfold Blk.adminReadEnd
  rw [entry]
  simp only [reading, len, own, decide_true, BEq.rfl, Bool.and_self, Bool.not_true, Bool.false_eq_true, if_false, if_true]
  rw [Blk.modDomain_twice, stallCheck_room (.inr room')]
  exact refuseUnknown_dom (by simp [known])

section
variable {r : ReadResult} (unowned : ∀ bs, r = .data bs → ownOf bs ≠ decide (lapOf (b.domain d).cmdPos e.adminLen = 1))
include unowned

/-- The tile holds no command, or the read failed: the read asked for meanwhile follows (R102). -/
theorem Blk.adminReadEnd_unowned :
    b.adminReadEnd d r = if (b.domain d).ask then (b.modDomain d fun x => { x with reading := false }).adminRead d
      else b.modDomain d fun x => { x with reading := false } := by
  unfold Blk.adminReadEnd
  rw [entry]
  simp only [reading, Bool.not_true, Bool.false_eq_true, if_false]
  cases r with
  | data bs => exact if_neg (by simp [(unowned bs rfl).symm])
  | poison bs => rfl
  | error => rfl
  | timeout => rfl

theorem Blk.adminReadEnd_quiet (ask : (b.domain d).ask = false) :
    b.adminReadEnd d r = b.modDomain d fun x => { x with reading := false } := by
  rw [Blk.adminReadEnd_unowned entry reading unowned, ask]
  rfl

theorem Blk.adminReadEnd_again (ask : (b.domain d).ask = true) (ring : b.AdminServed d e) (empty : (b.domain d).fetched = none)
    (may : b.pollMay = true) :
    b.adminReadEnd d r = (b.modDomain d fun x => { x with reading := false }).adminReads d e := by
  have ring' : (b.modDomain d fun x => { x with reading := false }).AdminServed d e :=
    ⟨entry, ring.on, ring.awake, by simp [ring.started], by simp [ring.served], by simp [ring.kept], ring.notReset⟩
  rw [Blk.adminReadEnd_unowned entry reading unowned, if_pos ask]
  exact Blk.adminRead_reads ring' (by simp) (by simp [empty]) may

end

theorem adminRingReadDoneB_gives_nothing {r : ReadResult} (out : b.Awaits (isAdminRead d) (.admin d) n t)
    (abandoned : r = .error ∨ r = .timeout) (ask : (b.domain d).ask = false) :
    adminRingReadDoneB d r b = (b.endRead n t true).modDomain d fun x => { x with reading := false } := by
  have sent := b.endRead_sent n t true
  rw [← sent.domain d] at reading ask
  rw [adminRingReadDoneB_abandoned out abandoned]
  refine Blk.adminReadEnd_quiet ((sent.domEntry d).trans entry) reading ?_ ask
  rintro bs rfl
  simp at abandoned

end

/-! ## Admin rings: the statement -/

/-- Settles O27: doorbells by what they carry, polls and the ends of reads by what Lovage then does with the ring. -/
theorem adminRingFollowsTheDoorbells : Obligations.AdminRingFollowsTheDoorbells := by
  intro s d hs on1 on2 hd
  have awake : s.core.ldr.state ≠ .warmrst := by rw [hs.2]; decide
  have wf : ∀ {value : Nat}, value < 2 ^ 32 → (decide (d < 256) && decide (value < 2 ^ 32)) = true := fun hv => by
    rw [decide_eq_true hd, decide_eq_true hv]; rfl
  have nudges : ∀ {hdrDom size value : Nat} {b : Blk}, value < 2 ^ 32 → adminNudgeB d hdrDom size value s.core = b →
      Does (.adminNudge d hdrDom size value) s b := fun hv h => hs.does (wf hv) h
  have returns : ∀ {hdrDom size value : Nat} {b : Blk}, value < 2 ^ 32 → adminCplReturnB d hdrDom size value s.core = b →
      Does (.adminCplReturn d hdrDom size value) s b := fun hv h => hs.does (wf hv) h
  have polls : ∀ {b : Blk}, s.core.adminRead d = b → Does (.adminPoll d) s b := fun h => hs.does (decide_eq_true hd) h
  have ends : ∀ {r : ReadResult} {b : Blk}, adminRingReadDoneB d r s.core = b → Does (.adminRingReadDone d r) s b :=
    fun h => hs.does (decide_eq_true hd) h
  have returnDrops : ∀ {hdrDom size value : Nat}, value < 2 ^ 32 → adminCplReturnB d hdrDom size value s.core = s.core.nudgeDrop →
      Raises (.adminCplReturn d hdrDom size value) s s.core.countDrop 0 11 :=
    fun hv h => runRow_raise _ _ s _ 0 11 hs.functional (wf hv) h hs.not_reload
  refine ⟨fun hdrDom size value hv misfit =>
    ⟨runRow_raise _ _ s _ 0 11 hs.functional (wf hv) (adminNudgeB_misfit on1 on2 misfit) hs.not_reload,
      returnDrops hv (adminCplReturnB_misfit on1 on2 misfit)⟩, ?_⟩
  rintro e _ entry rfl
  refine ⟨fun hdrDom size value hv fits => ⟨fun bad => ?_, ?nudge, fun beyond => ?_, fun within empty => ?_⟩, ?poll, ?reads⟩
  · exact runRow_raise _ _ s _ 0 10 hs.functional (wf hv) (adminNudgeB_outside on1 on2 entry fits bad) hs.not_reload
  case nudge =>
    intro b c good kept notReset tail cpl
    have asks : ∀ {u : Blk}, c.adminAsk d = u → Does (.adminNudge d hdrDom size value) s u := fun h =>
      nudges hv ((adminNudgeB_asks on1 on2 entry fits good kept tail).trans (cpl ▸ h))
    obtain ⟨ring, reading, fetched, budget⟩ := Blk.adminServed_nudged entry on1 kept awake notReset tail cpl
    rw [← reading, ← fetched, ← budget]
    exact ⟨fun quiet empty may => asks ((Blk.adminAsk_quiet quiet).trans (Blk.adminRead_reads ring quiet empty may)),
      fun quiet empty may => asks ((Blk.adminAsk_quiet quiet).trans (Blk.adminRead_later ring quiet empty may)),
      fun reading => asks (Blk.adminAsk_reading reading),
      fun quiet waiting => asks ((Blk.adminAsk_quiet quiet).trans (Blk.adminRead_waiting ring waiting))⟩
  · exact returnDrops hv (adminCplReturnB_beyond on1 on2 entry beyond)
  · exact returns hv (adminCplReturnB_returns on1 on2 entry fits within empty)
  case poll =>
    intro started served quiet empty kept notReset
    have ring : s.core.AdminServed d e := ⟨entry, on1, awake, started, served, kept, notReset⟩
    exact ⟨fun may => polls (Blk.adminRead_reads ring quiet empty may), fun may => polls (Blk.adminRead_later ring quiet empty may)⟩
  case reads =>
    intro n t reading out
    have arrived : ∀ {r : ReadResult} {bs : List Byte} {b : Blk}, r = .data bs ∨ r = .poison bs →
        (s.core.readOk n t).adminReadEnd d r = b → Does (.adminRingReadDone d r) s b := fun hr h =>
      ends ((adminRingReadDoneB_arrived out hr).trans h)
    have sent := s.core.readOk_sent n t
    have entry' := (sent.domEntry d).trans entry
    have reading' := (congrArg Domain.reading (sent.domain d)).trans reading
    rw [← sent.domain d, ← sent.cplRoom d, ← sent.resetting d, ← sent.pollMay]
    refine ⟨fun bs len own room known => arrived (.inl rfl) (Blk.adminReadEnd_gives entry' reading' len own room known),
      fun bs len own ask => arrived (.inl rfl) (Blk.adminReadEnd_quiet entry' reading' ?_ ask),
      fun bs len own ask started served empty kept notReset may => arrived (.inl rfl) ?_,
      fun r failed ask => ends (adminRingReadDoneB_gives_nothing entry reading out failed (by rwa [← sent.domain d])),
      fun bs ask => arrived (.inr rfl) (Blk.adminReadEnd_quiet entry' reading' nofun ask)⟩
    · rintro _ ⟨⟩
      exact own
    · have ring : (s.core.readOk n t).AdminServed d e :=
        ⟨entry', (sent.on 1).trans on1, by rwa [sent.ldr], started, served, kept, notReset⟩
      exact Blk.adminReadEnd_again entry' reading' (by rintro _ ⟨⟩; exact own) ask ring empty may

end Sys2Proof.Machine

/-! SUPPORT. Proofs of the statements of the movers family: the descriptor stage, read completions and the tags of reads, failed
movers and what they leave, context banks and control planes. -/

namespace Sys2Proof.Machine
open Sys2Proof

/-! ## The descriptor stage (R114, R165, R246, R252) -/

section
variable {b : Blk} {m k : Nat} {x : Binding}

theorem entryStartB_unbound (unbound : b.binding m k = none) : entryStartB m k b = b := by
  unfold entryStartB
  simp only [unbound]

/-- Without an entry to take, a stage free of older ones or a binding of its own, the stage does nothing. -/
theorem entryStartB_closed (bound : b.binding m k = some x) (closed : x.lbuf = [] ∨ 2 ≤ x.exec.length ∨ x.shadow = true) :
    entryStartB m k b = b := by
  unfold entryStartB
  simp only [bound]
  cases buffer : x.lbuf with
  | nil => rfl
  | cons l rest =>
    obtain empty | full | shadow := closed
    · rw [buffer] at empty
      contradiction
    · match exec : x.exec, full with
      | _ :: _ :: _, _ => simp
    · simp [shadow]

/-- What the stage does with the head entry `l` that it may take: a windowed entry that does not go on from a mark waits for its
launch, and fails at once on a unit in OFF (R165, R252). -/
def Blk.takesHead (b : Blk) (m k : Nat) (x : Binding) (l : LEntry) : Blk :=
  match l.win with
  | none => (b.startEntry m k l false).pump m k
  | some w =>
    if b.goesOn x l then (b.startEntry m k l false).pump m k
    else if (b.pu w.unit).state = .off then
      (((b.modBinding m k fun x => { x with lbuf := x.lbuf.drop 1 }).pushExec m k (newExec l .waiting false 0 0)).failEntry m k l.pos 0x41
        (infoOf [(0, 2, w.unit)])).pump m k
    else b

theorem entryStartB_takesHead {l : LEntry} (stages : b.Stages m k x l) : entryStartB m k b = b.takesHead m k x l := by
  obtain ⟨rest, buffer⟩ := List.head?_eq_some_iff.mp stages.head
  obtain ⟨moving, preempt⟩ := stages.stays
  have working : ((b.mover m).state != .active && (b.mover m).state != .quiescing) = false := by
    obtain state | state := stages.state <;> rw [state] <;> rfl
  unfold entryStartB Blk.takesHead
  simp only [stages.bound, buffer, stages.active, stages.power, working, moving, preempt, stages.free]
  obtain exec | ⟨e, exec, issued, alive⟩ := stages.older
  · simp only [exec]
    cases l.win <;> rfl
  · simp only [exec, issued, alive]
    cases l.win <;> rfl

end

/-- Settles O56: a stage that may not take an entry leaves the block, one that may does what `Blk.takesHead` says of the window. -/
theorem entriesStart : Obligations.EntriesStart := by
  intro s m k hs hm hk
  have starts : ∀ {c : Blk}, entryStartB m k s.core = c → Does (.entryStart m k) s c :=
    fun h => hs.does (by simp [hm, hk]) h
  refine ⟨fun unbound => starts (entryStartB_unbound unbound), fun x bound closed => starts (entryStartB_closed bound closed),
    fun x l w stages => ?_⟩
  have takes := entryStartB_takesHead stages
  unfold Blk.takesHead at takes
  refine ⟨fun win => ?_, fun win goesOn => ?_, fun win waits unit => ?_, fun win waits unit => ?_⟩
  · rw [win] at takes
    exact starts takes
  · rw [win] at takes
    exact starts (takes.trans (if_pos goesOn))
  · rw [win, waits] at takes
    exact starts (takes.trans (if_neg unit))
  · rw [win, waits] at takes
    exact starts (takes.trans (if_pos unit))

/-! ## Read completions (R131, R133, R338) -/

/-- The record of the tag that a completion names. -/
def Blk.tagOf (b : Blk) (port : Nat) (c : Cpl) : TagRec := tabGet {} (b.port port).tags c.tag

/-- The block with the completion's bytes in the reorder buffer (R133, R138). -/
def Blk.placed (b : Blk) (port : Nat) (c : Cpl) : Blk :=
  b.modPort port fun v => { v with tags := tabSet {} v.tags c.tag ((b.tagOf port c).place c) }

/-- What a part that fits its request does once it is placed: a tile that fails its CRC fails its lane, the part that completes the
request ends the read, and any other part of a data read is work for the queue (R10, R133). -/
def Blk.takesPart (b : Blk) (port : Nat) (c : Cpl) : Blk :=
  let t := b.tagOf port c
  if (t.place c).sound = false then (b.placed port c).laneFail port c.tag c.offset
  else if t.got.length + c.data.length = t.len then
    (b.placed port c).finishRead port c.tag (if t.len = 0 && c.poison then .poison [] else (t.place c).result) .timeout
  else match t.purpose with
    | .data _ _ _ q => (b.placed port c).pumpQ q
    | _ => b.placed port c

/-- Placing bytes settles no request: the tag is out as before. -/
theorem Blk.placed_tagOut (b : Blk) (port : Nat) (c : Cpl) : (b.placed port c).tagOut port c.tag = b.tagOut port c.tag := by
  have placed : (b.placed port c).port port
      = { b.port port with tags := tabSet {} (b.port port).tags c.tag ((b.tagOf port c).place c) } := Blk.modPort_same _ _ _
  have record : tabGet ({} : TagRec) ((b.placed port c).port port).tags c.tag = (b.tagOf port c).place c := by
    rw [placed, tabGet_tabSet_same]
  have wait : ((b.placed port c).port port).wait = (b.port port).wait := by rw [placed]
  unfold Blk.tagOut
  simp only [record, wait]
  rfl

/-- Each byte of a completion adds one to the bytes held. -/
theorem TagRec.place_got_length (t : TagRec) (c : Cpl) : (t.place c).got.length = t.got.length + c.data.length := by
  simp [TagRec.place, TagRec.placeBytes]

/-- A completion fits unless it reaches beyond its request or overlaps what has arrived (R131, R133). -/
theorem TagRec.fits_iff (t : TagRec) (c : Cpl) : t.fits c ↔
    ¬ (decide (t.len < c.offset + c.data.length)
      || t.got.any fun x => decide (c.offset ≤ x.1) && decide (x.1 < c.offset + c.data.length)) = true := by
  unfold TagRec.fits
  simp only [Bool.or_eq_true, Bool.and_eq_true, decide_eq_true_eq, List.any_eq_true, not_or, not_exists, not_and, Nat.not_lt]

/-- A completion that names an outstanding request: its header is good, its tag is out and of its generation (R131). -/
structure Blk.Expects (b : Blk) (port : Nat) (c : Cpl) : Prop where
  powered : b.portPowered port = true
  header : c.badHeader = false
  out : b.tagOut port c.tag = true
  gen : (b.tagOf port c).gen = c.gen

section
variable {b : Blk} {port : Nat} {c : Cpl} (f : TileFault)

theorem readCompletionB_badHeader (powered : b.portPowered port = true) (header : c.badHeader = true) :
    readCompletionB port c f b = b.modCnt port fun x => { x with inbBad := incr 8 x.inbBad } := by
  unfold readCompletionB
  simp [powered, header]

theorem readCompletionB_late (powered : b.portPowered port = true) (header : c.badHeader = false)
    (late : b.tagOut port c.tag = false ∨ (b.tagOf port c).gen ≠ c.gen) :
    readCompletionB port c f b = b.modCnt port fun x => { x with lateCpl := incr 32 x.lateCpl } := by
  unfold readCompletionB
  simp only [powered, header, Bool.not_true, Bool.false_eq_true, if_false]
  refine if_pos ?_
  obtain notOut | gen := late
  · simp [notOut]
  · exact Bool.or_eq_true_iff.mpr (.inr (decide_eq_true gen))

variable (expects : b.Expects port c)
include expects

/-- A completion that is expected passes the checks of its header and of its tag. -/
theorem Blk.Expects.passes :
    (!b.portPowered port) = false ∧ (!b.tagOut port c.tag || decide ((b.tagOf port c).gen ≠ c.gen)) = false := by
  simp [expects.powered, expects.out, expects.gen]

theorem readCompletionB_error (status : c.cstat ≠ 0) :
    readCompletionB port c f b
      = (if c.cstat = 3 then b.modCnt port fun x => { x with inbBad := incr 8 x.inbBad } else b).finishRead port c.tag .error .timeout := by
  obtain ⟨powered, current⟩ := expects.passes
  unfold Blk.tagOf at current
  unfold readCompletionB
  simp only [powered, expects.header, current, Bool.false_eq_true, if_false]
  exact if_pos status

variable (status : c.cstat = 0)
include status

theorem readCompletionB_misfit (misfit : ¬ (b.tagOf port c).fits c) :
    readCompletionB port c f b = b.modCnt port fun x => { x with badCpl := incr 32 x.badCpl } := by
  obtain ⟨powered, current⟩ := expects.passes
  unfold Blk.tagOf at current misfit
  unfold readCompletionB
  simp only [powered, expects.header, current, Bool.false_eq_true, if_false]
  rw [if_neg (not_not_intro status)]
  exact if_pos (Classical.byContradiction fun clear => misfit ((TagRec.fits_iff _ c).mpr clear))

variable (fits : (b.tagOf port c).fits c)
include fits

theorem readCompletionB_takesPart : readCompletionB port c .none b = b.takesPart port c := by
  obtain ⟨powered, current⟩ := expects.passes
  have out := (b.placed_tagOut port c).trans expects.out
  have length := (b.tagOf port c).place_got_length c
  unfold Blk.placed at out
  unfold Blk.tagOf at current fits length out
  unfold readCompletionB Blk.takesPart Blk.placed Blk.tagOf
  simp only [powered, expects.header, current, Bool.false_eq_true, if_false]
  rw [if_neg (not_not_intro status)]
  refine (if_neg ((TagRec.fits_iff _ c).mp fits)).trans ?_
  unfold Blk.tileFault
  simp only [out, length, Bool.not_true, Bool.or_self, Bool.false_eq_true, if_false]
  cases ((tabGet ({} : TagRec) (b.port port).tags c.tag).place c).sound <;> rfl

end

section
variable {b : Blk} {port : Nat} {c : Cpl} (sound : ((b.tagOf port c).place c).sound = true)
include sound

/-- A part of a read that is no data read is placed and no more. -/
theorem Blk.takesPart_placed (part : (b.tagOf port c).got.length + c.data.length ≠ (b.tagOf port c).len)
    (other : ∀ m p q r, (b.tagOf port c).purpose ≠ .data m p q r) : b.takesPart port c = b.placed port c := by
  refine (if_neg (by simp [sound])).trans ((if_neg part).trans ?_)
  cases purpose : (b.tagOf port c).purpose with
  | data m p q r => exact absurd purpose (other m p q r)
  | _ => rfl

theorem Blk.takesPart_ends (last : (b.tagOf port c).got.length + c.data.length = (b.tagOf port c).len)
    (bytes : 0 < (b.tagOf port c).len) :
    b.takesPart port c = (b.placed port c).finishRead port c.tag ((b.tagOf port c).place c).result .timeout := by
  unfold Blk.takesPart
  simp [sound, last, Nat.ne_of_gt bytes]

end

theorem Blk.takesPart_unsound {b : Blk} {port : Nat} {c : Cpl} (unsound : ((b.tagOf port c).place c).sound = false) :
    b.takesPart port c = (b.placed port c).laneFail port c.tag c.offset := if_pos unsound

/-! ## Sweeps, tags that rejoin and flush reads (R93, R130, R134) -/

theorem readTimeoutSweepB_one {b : Blk} {port n : Nat} (out : b.tagOut port n = true) :
    readTimeoutSweepB port [n] b = b.finishRead port n .timeout .timeout := if_pos out

theorem flushReadCompletionB_ends {b : Blk} {port n g : Nat} (r : ReadResult) (out : b.tagOut port n = true)
    (gen : (tabGet ({} : TagRec) (b.port port).tags n).gen = g) (flush : (tabGet ({} : TagRec) (b.port port).tags n).len = 0) :
    flushReadCompletionB port n g r b = b.finishRead port n r .timeout := by
  unfold flushReadCompletionB
  simp [out, gen, flush]

/-- Settles O33: a completion by its header, its tag, its status and its place, a part that fits by `Blk.takesPart`. -/
theorem completionsFollowTheirTag : Obligations.CompletionsFollowTheirTag := by
  rintro s port c _ hs hport hc powered rfl
  have completes : ∀ {f : TileFault} {b : Blk}, readCompletionB port c f s.core = b → Does (.readCompletion port c f) s b :=
    fun h => hs.does (by simp [hport, hc]) h
  refine ⟨fun f header => completes (readCompletionB_badHeader f powered header), fun f header =>
    ⟨fun late => completes (readCompletionB_late f powered header late), fun out gen => ?current⟩,
    fun n hn out => ?sweep, ?idle, fun n hn => ?rejoin, fun n g r hn hg out gen flush => ?flush⟩
  case current =>
    have expects : s.core.Expects port c := ⟨powered, header, out, gen⟩
    refine ⟨fun status => completes (readCompletionB_error f expects status),
      fun status misfit => completes (readCompletionB_misfit f expects status misfit), fun status fits => ?_⟩
    have takes := readCompletionB_takesPart expects status fits
    exact ⟨fun sound part other => completes (takes.trans (Blk.takesPart_placed sound part other)),
      fun sound last bytes => completes (takes.trans (Blk.takesPart_ends sound last bytes)),
      fun unsound => completes (takes.trans (Blk.takesPart_unsound unsound))⟩
  case sweep => exact hs.does (by simp [hport, hn]) (readTimeoutSweepB_one out)
  case idle => exact hs.does (by simp [hport]) rfl
  case rejoin => exact hs.does (by simp [hport, hn]) rfl
  case flush => exact hs.does (by simp [hport, hn, hg]) (flushReadCompletionB_ends r out gen flush)

/-! ## Failed movers (R291, R292, R293, Table 13-5) -/

/-- A mover in service holds bindings and is the home of cells (R293). -/
def MovState.inService (st : MovState) : Prop := st = .active ∨ st = .quiescing

section
variable {b : Blk} {m : Nat} (canFail : (b.mover m).state.canFail = true)
include canFail

theorem Blk.declareFail_inService (cause : Nat) (h : (b.mover m).state.inService) :
    b.declareFail m cause = ((b.failed m cause).rehomeAll m).unStopAll := by
  unfold Blk.declareFail
  simp only [canFail, Bool.not_true, Bool.false_eq_true, if_false]
  exact if_pos h

theorem Blk.declareFail_spare (cause : Nat) (h : ¬ (b.mover m).state.inService) : b.declareFail m cause = b.failed m cause := by
  unfold Blk.declareFail
  simp only [canFail, Bool.not_true, Bool.false_eq_true, if_false]
  exact if_neg h

end

/-- The background self-test (cause 6) is that of a spare; every other cause fails any mover (Table 13-5). -/
theorem movFailB_declares {b : Blk} {m cause : Nat} (low : 1 ≤ cause) (high : cause ≤ 6)
    (spare : cause = 6 → (b.mover m).state = .spare) : movFailB m cause b = b.declareFail m cause := if_pos ⟨low, high, spare⟩

/-! ## The resumption of a taken-over queue (R294, R295, R297) -/

/-- The block once queue `q`, left by a failed mover as `f` says, is resumed: it is resumed no more, and it is counted and traced. -/
def Blk.resumed (b : Blk) (q : QRef) (f : Fover) : Blk :=
  ({ (b.modSched fun z => { z with fovers := z.fovers.filter fun f => f.q != q }) with
    movp := { b.movp with resumes := incr 12 b.movp.resumes } } : Blk).traceQ 3 q f.mover

theorem Blk.traceQ_boundAt (b : Blk) (kind : Nat) (q : QRef) (detail : Nat) (r : QRef) :
    (b.traceQ kind q detail).boundAt r = b.boundAt r := by
  obtain ⟨t, traced⟩ := Blk.traceQ_eq b kind q detail
  rw [traced]
  rfl

theorem Blk.resumed_boundAt (b : Blk) (q : QRef) (f : Fover) (r : QRef) : (b.resumed q f).boundAt r = b.boundAt r :=
  Blk.traceQ_boundAt _ 3 q f.mover r

/-- Queue `q` may resume on place `k` of mover `m`: it was left as `f` says, it is bound again, and no failover flush runs on a port
of its mark (R294). -/
structure Blk.Resumes (b : Blk) (q : QRef) (f : Fover) (m k : Nat) : Prop where
  left : b.sched.fovers.find? (fun f => f.q == q) = some f
  bound : b.boundAt q = some (m, k)
  flushed : ((b.mover f.mover).flushWait.any fun w => bit (b.queue q).run.mark.ports w.1) = false

/-- A write of an aligned scatter was presented (R191, R295). -/
def Exec.scattered (e : Exec) : Bool :=
  e.desc.kind == kAscat && match e.plan with
    | some pl => pl.targets.any fun t => t.launched.isSome
    | none => false

/-- Why the entry `e` cannot be repeated from the mark `k` (R295). -/
def Blk.haltCause (b : Blk) (k : Mark) (f : Fover) (e : Exec) : Option Nat :=
  if e.scattered then some 7
  else if !k.active || (f.hiSrc ≤ k.srcOfs && f.hiDst ≤ k.dstOfs) then none
  else b.unsafeCause k f e

/-- The queue halts with REPEAT_UNSAFE and its local buffer is dropped (R295). -/
def Blk.haltUnsafe (b : Blk) (q : QRef) (k : Mark) (f : Fover) (e : Exec) (c : Nat) : Blk :=
  let b := b.sfRelease (q, e.pos)
  let at_ := b.boundAt q
  ((b.haltWith q (haltReport 0x50 e.pos e.desc.cookie k.srcOfs k.dstOfs
    (infoOf [(0, 4, f.mover + 256 * c), (4, 4, f.hiSrc), (8, 4, f.hiDst)]))).modBinding ((at_.map (·.1)).getD 0) ((at_.map (·.2)).getD 0)
      fun y => { y with lbuf := [], plans := [] }).pumpQ q

/-- The queue goes on from its mark: what is repeated counts, a record begun is written again, and the entry's FIFO is rewound or its
writes are discarded (R191, R294). -/
def Blk.goesOnFrom (b : Blk) (q : QRef) (k : Mark) (f : Fover) (e : Exec) : Blk :=
  let b := if k.active then { b with movp := { b.movp with repeated := (b.movp.repeated + (f.hiDst - k.dstOfs)) % 2 ^ 32 } } else b
  let b := if e.record.isEmpty then b else b.repeatRecord q e
  (if e.desc.kind = kFifoOut then b.sfRewind e.desc.fifo else b.sfDiscard e.desc).pumpQ q

/-- What a resumed queue does with the entry that it was left with. -/
def Blk.resumeEntry (b : Blk) (q : QRef) (k : Mark) (f : Fover) (e : Exec) : Blk :=
  match b.haltCause k f e with
  | some c => b.haltUnsafe q k f e c
  | none => b.goesOnFrom q k f e

section
variable {b : Blk} {q : QRef} {f : Fover} {m k : Nat} (resumes : b.Resumes q f m k)
include resumes

theorem failoverResumeB_noEntry (noEntry : f.ex = none) : failoverResumeB q b = (b.resumed q f).pumpQ q := by
  unfold failoverResumeB
  simp only [resumes.left, resumes.bound, resumes.flushed, noEntry, Option.isNone_some, Bool.or_self, Bool.false_eq_true, if_false]
  rfl

theorem failoverResumeB_entry {e : Exec} (entry : f.ex = some e) :
    failoverResumeB q b = (b.resumed q f).resumeEntry q (b.queue q).run.mark f e := by
  unfold failoverResumeB
  simp only [resumes.left, resumes.bound, resumes.flushed, entry, Option.isNone_some, Bool.or_self, Bool.false_eq_true, if_false]
  rfl

end

section
variable (b : Blk) {q : QRef} {k : Mark} {f : Fover} {e : Exec} (plain : e.desc.kind ≠ kAscat)
include plain

theorem Exec.scattered_plain : e.scattered = false := by
  unfold Exec.scattered
  rw [beq_false_of_ne plain, Bool.false_and]

/-- Behind an inactive mark nothing is repeated. -/
theorem Blk.resumeEntry_inactive (inactive : k.active = false) (noRecord : e.record = []) :
    b.resumeEntry q k f e = (if e.desc.kind = kFifoOut then b.sfRewind e.desc.fifo else b.sfDiscard e.desc).pumpQ q := by
  have safe : b.haltCause k f e = none := by
    unfold Blk.haltCause
    simp [Exec.scattered_plain plain, inactive]
  unfold Blk.resumeEntry Blk.goesOnFrom
  simp [safe, inactive, noRecord]

theorem Blk.resumeEntry_unsafe {c : Nat} (active : k.active = true) (behind : k.srcOfs < f.hiSrc)
    (cause : b.unsafeCause k f e = some c) : b.resumeEntry q k f e = b.haltUnsafe q k f e c := by
  have halts : b.haltCause k f e = some c := by
    unfold Blk.haltCause
    simp [Exec.scattered_plain plain, active, Nat.not_le.mpr behind, cause]
  unfold Blk.resumeEntry
  simp only [halts]

end

/-- A bound queue that halts drops the local buffer of its own binding. -/
theorem Blk.haltUnsafe_bound {b : Blk} {q : QRef} {m n : Nat} (k : Mark) (f : Fover) (e : Exec) (c : Nat)
    (bound : b.boundAt q = some (m, n)) :
    b.haltUnsafe q k f e c = (((b.sfRelease (q, e.pos)).haltWith q (haltReport 0x50 e.pos e.desc.cookie k.srcOfs k.dstOfs
      (infoOf [(0, 4, f.mover + 256 * c), (4, 4, f.hiSrc), (8, 4, f.hiDst)]))).modBinding m n fun y =>
        { y with lbuf := [], plans := [] }).pumpQ q := by
  have released : (b.sfRelease (q, e.pos)).boundAt q = some (m, n) := bound
  unfold Blk.haltUnsafe
  simp only [released, Option.map_some, Option.getD_some]

/-! ## Context banks (R13, R289, R290) -/

section
variable {b : Blk} {q : QRef} (t : Nat) (resident : (b.queue q).resident true = true) (servesA : b.banks.aOut = false)
  (servesB : b.banks.bOut = false)
include resident servesA servesB

/-- With both banks in service a bad copy is repaired from the good one. -/
theorem contextScrubB_repairs : contextScrubB q t .badA b = b.repair false ∧ contextScrubB q t .badB b = b.repair true := by
  unfold contextScrubB
  simp only [resident, servesA, servesB]
  exact ⟨rfl, rfl⟩

theorem contextScrubB_loses : contextScrubB q t .badBoth b = (b.loseContext q (2 ^ t)).jobsCheck := by
  unfold contextScrubB
  simp only [resident, servesA, servesB]
  rfl

end

/-! ## Control planes (R286) -/

/-- A mismatch within a second of the last one (R286). -/
def Blk.parityAgain (b : Blk) : Prop := ∃ t, b.sched.parityAt = some t ∧ b.now ≤ t + 1000000000

section
variable {b : Blk} {u : Nat} (low : 1 ≤ u) (high : u ≤ 5) (on1 : b.on 1 = true) (ready : b.ldr.state = .ready)
include low high on1 ready

theorem internalB_again (again : (b.raise 5 9).parityAgain) : internalB u b = (b.raise 5 9).critPauseOn := by
  obtain ⟨t, last, near⟩ := again
  have serves : b.ready = true := by unfold Blk.ready; rw [ready]
  unfold internalB
  simp [on1, serves, last, near, Nat.not_lt.mpr low, Nat.not_lt.mpr high]

theorem internalB_first (first : ¬ (b.raise 5 9).parityAgain) :
    internalB u b = ((b.raise 5 9).modSched fun z => { z with parityAt := some (b.raise 5 9).now }).toWarm := by
  have serves : b.ready = true := by unfold Blk.ready; rw [ready]
  unfold internalB
  cases last : (b.raise 5 9).sched.parityAt with
  | none => simp [on1, serves, last, ready, Nat.not_lt.mpr low, Nat.not_lt.mpr high]
  | some t =>
    have far : ¬ (b.raise 5 9).now ≤ t + 1000000000 := fun near => first ⟨t, last, near⟩
    simp [on1, serves, last, far, ready, Nat.not_lt.mpr low, Nat.not_lt.mpr high]

end

/-- Settles O46: failures by whether the mover serves, a resume by its mark, a scrub by the banks, a mismatch by the last one. -/
theorem failuresAreContained : Obligations.FailuresAreContained := by
  intro s hs
  refine ⟨fun m hm canFail => ?mover, fun q f m k hq left bound flushed noEntry => ?noEntry,
    fun q f m k e b hq left bound flushed entry plain same => ?entry, fun q t hq ht resident a b => ?scrub,
    fun u c low high on1 same => ?planes⟩
  case mover =>
    have fails : ∀ {c : Nat} {b : Blk}, 1 ≤ c → c ≤ 6 → (c = 6 → (s.core.mover m).state = .spare) →
        s.core.declareFail m c = b → Does (.movFail m c) s b := fun low high spare h =>
      hs.does (by simp [hm]; omega) ((movFailB_declares low high spare).trans h)
    have beats : ∀ {b : Blk}, s.core.on (moverPd m) = true → s.core.declareFail m 3 = b → Does (.moverHeartbeatTimeout m) s b :=
      fun live h => hs.does (by simp [hm]) ((if_pos live).trans h)
    have watches : ∀ {b : Blk}, s.core.on (moverPd m) = true → s.core.declareFail m 4 = b → Does (.moverWatchdogTimeout m) s b :=
      fun live h => hs.does (by simp [hm]) ((if_pos live).trans h)
    refine ⟨fun serves => ?_, fun notActive notQuiescing => ?_⟩
    · have all := fun c => Blk.declareFail_inService canFail c serves
      exact ⟨fun c low high => fails low (by omega) (by omega) (all c), fun live => ⟨beats live (all 3), watches live (all 4)⟩⟩
    · have all := fun c => Blk.declareFail_spare canFail c (not_or.mpr ⟨notActive, notQuiescing⟩)
      exact ⟨fun c low high spare => fails low high spare (all c), fun live => ⟨beats live (all 3), watches live (all 4)⟩⟩
  case noEntry =>
    exact hs.does (by rw [wf_failoverResume, hq]) (failoverResumeB_noEntry ⟨left, bound, flushed⟩ noEntry)
  case entry =>
    subst same
    have resumes : ∀ {b : Blk}, (s.core.resumed q f).resumeEntry q (s.core.queue q).run.mark f e = b → Does (.failoverResume q) s b :=
      fun h => hs.does (by rw [wf_failoverResume, hq]) ((failoverResumeB_entry ⟨left, bound, flushed⟩ entry).trans h)
    exact ⟨fun inactive noRecord => resumes (Blk.resumeEntry_inactive _ plain inactive noRecord),
      fun c active behind cause => resumes ((Blk.resumeEntry_unsafe _ plain active behind cause).trans
        (Blk.haltUnsafe_bound _ f e c ((s.core.resumed_boundAt q f q).trans bound)))⟩
  case scrub =>
    have wf : ∀ r, Instr.wf (.contextScrub q t r) = true := fun r => by simp [hq, ht]
    obtain ⟨badA, badB⟩ := contextScrubB_repairs t resident a b
    exact ⟨hs.does (wf _) badA, hs.does (wf _) badB, hs.does (wf _) (contextScrubB_loses t resident a b)⟩
  case planes =>
    subst same
    have ends : ∀ {b : Blk}, internalB u s.core = b → Does (.internal u) s b := fun h => hs.does (by simp; omega) h
    have warm := fun first => ends (internalB_first low high on1 hs.2 first)
    refine ⟨fun none => warm ?_, fun t last far => warm ?_,
      fun t last near => ends (internalB_again low high on1 hs.2 ⟨t, last, near⟩)⟩
    · rintro ⟨t, last, -⟩
      simp [none] at last
    · rintro ⟨t', last', near⟩
      obtain rfl : t = t' := Option.some.inj (last.symm.trans last')
      omega

end Sys2Proof.Machine

/-! SUPPORT. Proofs of the statements of the phase units and windows family: counts, pulses and losses of a unit no other
follows, and the arming, launching and late judging of windowed entries. -/

namespace Sys2Proof.Machine
open Sys2Proof

/-! ## Inputs of a phase unit (R157, R158, R159) -/

section
variable {b : Blk} {u : Nat} {pin : PinSample}

theorem Blk.puTakes_locked {src : Nat} (on1 : b.on 1 = true) (source : b.puSource u = src) (locked : (b.pu u).state = .locked) :
    b.puTakes u src = true := by
  simp [Blk.puTakes, on1, source, locked]

theorem phaseCountB_unstable (e : QuadEdge) {held : Nat} (short : held ≤ b.puStable u) : phaseCountB u e held b = b :=
  if_pos (by simp; omega)

theorem phaseCountB_stable {held : Nat} (takes : b.puTakes u 1 = true) (long : b.puStable u < held) :
    phaseCountB u .forward held b = b.quadCount u false ∧ phaseCountB u .reverse held b = b.quadCount u true
    ∧ phaseCountB u .both held b = b.quadBoth u := by
  have passes : ¬ (!b.puTakes u 1 || decide (held < b.puStable u + 1)) = true := by simp [takes]; omega
  exact ⟨if_neg passes, if_neg passes, if_neg passes⟩

/-- The stability filter drops a pin that has not stood long enough, and a pin at its other level is no edge. -/
theorem indexPulseB_dropped (dropped : pinStable pin (b.puStable u) = false ∨ b.puActive u pin = false) : indexPulseB u pin b = b := by
  unfold indexPulseB
  obtain unstable | inactive := dropped
  · simp [unstable]
  · simp [inactive]

theorem phasePulseB_dropped (dropped : pinStable pin (b.puStable u) = false ∨ b.puActive u pin = false) : phasePulseB u pin b = b := by
  unfold phasePulseB
  obtain unstable | inactive := dropped
  · simp [unstable]
  · simp [inactive]

/-! ## What a unit no other follows does (R159 to R163, Table 7-2) -/

theorem Blk.puBreach_eq (low : u < 16) (f : PhaseUnit → PhaseUnit) : b.puBreach u f = (b.modPu u f).raise 7 u := raiseAt7 _ u low 7

theorem Blk.Alone.modPu (alone : b.Alone u) (f : PhaseUnit → PhaseUnit) : (b.modPu u f).Alone u := Alone.of alone rfl rfl rfl

/-- A LOCKED unit no other follows has nothing to pass on and no lock to try for. -/
theorem Blk.modPu_settled (alone : b.Alone u) {f : PhaseUnit → PhaseUnit} (locked : (f (b.pu u)).state = .locked) :
    (Blk.puFollow 16 (b.modPu u f) u true).puTryLock u = b.modPu u f := by
  rw [puFollow_none _ (alone.modPu f).ratio]
  exact puTryLock_locked _ _ (by rw [Blk.modPu_same]; exact locked)

/-- A transition of both lines that leaves the count of the cycle within its limit is a breach and no more. -/
theorem Blk.quadBoth_within (low : u < 16) (within : (b.pu u).quadInCycle + 1 ≤ b.regF (puA u 1) 15 12) :
    b.quadBoth u = (b.modPu u fun x => { x with quadErr := incr 8 x.quadErr, quadInCycle := x.quadInCycle + 1 }).raise 7 u := by
  unfold Blk.quadBoth
  rw [Blk.puBreach_eq low]
  have told := Blk.raise_msg (b.modPu u fun x => { x with quadErr := incr 8 x.quadErr, quadInCycle := x.quadInCycle + 1 }) 7 u
  refine if_neg ?_
  unfold Blk.regF at within ⊢
  rw [told.get_reg, told.get_pu, Blk.modPu_same, Blk.modPu_get_reg]
  exact Nat.not_lt.mpr within

/-- On a source that measures its rate, the rate is the unit's own. -/
theorem Blk.puInc_measured (fabtime : b.puSource u ≠ 4) (ratio : b.puSource u ≠ 5) : b.puInc u = (b.pu u).inc := by
  unfold Blk.puInc
  split
  · rfl
  · rfl
  · rfl
  · exact (if_neg fabtime).trans (if_neg ratio)

/-- A breach of a LOCKED QUAD unit that leads to its Loss: both events are pending, the rate is kept (R159, R162). -/
theorem Blk.puBreach_puLose (alone : b.Alone u) (low : u < 16) (quad : b.puSource u = 1) {f : PhaseUnit → PhaseUnit}
    (locked : (f (b.pu u)).state = .locked) (rate : (f (b.pu u)).inc = (b.pu u).inc) :
    Msg (b.modPu u fun x => (f x).lose (b.lossState u) x.inc b.clock.ftPsTotal) ((b.puBreach u f).puLose u)
    ∧ ((b.puBreach u f).puLose u).pends 7 u = true ∧ ((b.puBreach u f).puLose u).pends 8 u = true := by
  rw [Blk.puBreach_eq low]
  have told := Blk.raise_msg (b.modPu u f) 7 u
  have pends7 := Blk.raise_pends (b.modPu u f) 7 u
  generalize (b.modPu u f).raise 7 u = c at told pends7 ⊢
  have unit : c.pu u = f (b.pu u) := (told.get_pu u).trans (Blk.modPu_same b u f)
  have regs : c.regs = b.regs := told.regs
  have source : c.puSource u = b.puSource u := by unfold Blk.puSource Blk.regF Blk.reg; rw [regs]
  have loss : c.lossState u = b.lossState u := by
    unfold Blk.lossState Blk.puLoss Blk.puSource Blk.regF Blk.reg
    rw [regs]
  have inc : c.puInc u = (b.pu u).inc := by
    rw [Blk.puInc_measured (by omega) (by omega), unit, rate]
  have clock : c.clock = b.clock := told.clock
  obtain ⟨lost, pends8, keeps⟩ := puLose_locked c u (Alone.of alone regs told.queues told.cells) (unit ▸ locked) low
  rw [loss, inc, clock] at lost
  refine ⟨?_, keeps 7 u pends7, pends8⟩
  have step := told.modPu u fun x => x.lose (b.lossState u) (b.pu u).inc b.clock.ftPsTotal
  rw [Blk.modPu_twice] at step
  rw [Blk.modPu_congr b u _ fun x => (f x).lose (b.lossState u) (b.pu u).inc b.clock.ftPsTotal]
  · exact step.trans lost
  · rfl

/-- A correction writes its own unit alone, puts the word at the nearest boundary and keeps the state (R163). -/
theorem Blk.puCorrect_alone (alone : b.Alone u) : ∃ f : PhaseUnit → PhaseUnit, b.puCorrect u = b.modPu u f
    ∧ (f (b.pu u)).ph = ((b.pu u).ph.nearest (b.puModulus u)).1 ∧ (f (b.pu u)).state = (b.pu u).state := by
  obtain ⟨f, moved, facts⟩ := puMove_alone (b.modPu u fun x => { x with wraps := 0 }) u (alone.modPu _)
    ((b.pu u).ph.nearest (b.puModulus u)).1 (decide (((b.pu u).ph.nearest (b.puModulus u)).2 < 0)) true
  obtain ⟨ph, state, -⟩ := facts { b.pu u with wraps := 0 }
  unfold Blk.puCorrect
  dsimp only
  rw [moved, Blk.modPu_twice, Blk.modPu_twice]
  exact ⟨_, rfl, ph, state⟩

/-- Measuring the rate writes the rate alone (R161). -/
theorem Blk.puMeasure_modPu (b : Blk) (u per : Nat) (f : PhaseUnit → PhaseUnit) : ∃ g : PhaseUnit → PhaseUnit,
    (b.modPu u f).puMeasure u per = b.modPu u g ∧ ∃ i, g (b.pu u) = { f (b.pu u) with inc := i } := by
  obtain ⟨g, measured | same, rate⟩ := puMeasure_eq (b.modPu u f) u per
  · exact ⟨fun x => g (f x), measured.trans (Blk.modPu_twice b u f g), rate _⟩
  · exact ⟨f, same, _, rfl⟩

/-! ## The index (R163) -/

section
variable (takes : b.puTakes u 1 = true) (z : b.puZ u = true) (stable : pinStable pin (b.puStable u) = true)
  (active : b.puActive u pin = true) (locked : (b.pu u).state = .locked)
include takes z stable active locked

theorem indexPulseB_slips (first : (b.pu u).firstIndex = false)
    (slip : b.regF (puA u 6) 15 0 < ((b.pu u).ph.nearest (b.puModulus u)).2.natAbs) :
    indexPulseB u pin b = (b.puBreach u fun x => { x with slipErr := incr 8 x.slipErr }).puLose u := by
  unfold indexPulseB
  simp [takes, z, stable, active, locked, first, slip]

/-- An index that is the first, or whose slip the unit allows, corrects the word and counts as accepted. -/
theorem indexPulseB_corrects (alone : b.Alone u)
    (taken : (b.pu u).firstIndex = true ∨ ((b.pu u).ph.nearest (b.puModulus u)).2.natAbs ≤ b.regF (puA u 6) 15 0) :
    ∃ f : PhaseUnit → PhaseUnit, indexPulseB u pin b = b.modPu u f ∧ (f (b.pu u)).ph = ((b.pu u).ph.nearest (b.puModulus u)).1
      ∧ (f (b.pu u)).indexed = true ∧ (f (b.pu u)).wraps = 0 ∧ (f (b.pu u)).state = .locked := by
  have allowed : (!(b.pu u).firstIndex && decide (b.regF (puA u 6) 15 0 < ((b.pu u).ph.nearest (b.puModulus u)).2.natAbs)) = false := by
    obtain first | within := taken
    · simp [first]
    · simp [Nat.not_lt.mpr within]
  obtain ⟨f, corrected, ph, state⟩ := Blk.puCorrect_alone alone
  refine ⟨fun x => { f x with indexed := true, firstIndex := false, wraps := 0 }, ?_, ph, rfl, rfl, state.trans locked⟩
  refine Eq.trans ?_ (Blk.modPu_settled alone (state.trans locked))
  unfold indexPulseB
  simp [takes, z, stable, active, locked, allowed, corrected, Blk.modPu_twice]

end

/-! ## LINESYNC and MAINS (R159, R160) -/

section
variable (takes : (b.puTakes u 2 || b.puTakes u 3) = true) (stable : pinStable pin (b.puStable u) = true) (active : b.puActive u pin = true)
include takes stable active

theorem phasePulseB_early (early : b.puEarly u = true) :
    phasePulseB u pin b = b.puBreach u fun x => { x with early := incr 8 x.early } := by
  unfold phasePulseB
  rw [if_neg (by simp [takes, stable, active]), if_pos early]

/-- A pulse in time, not the first after COAST or FALLBACK, puts the word at the start of the next cycle with its time kept. -/
theorem phasePulseB_advances (alone : b.Alone u) (locked : (b.pu u).state = .locked) (early : b.puEarly u = false)
    (first : (b.pu u).firstPulse = false) :
    ∃ f : PhaseUnit → PhaseUnit, phasePulseB u pin b = b.modPu u f ∧ (f (b.pu u)).ph = ⟨((b.pu u).ph.cyc + 1) % 2 ^ 24, 0, 0⟩
      ∧ (f (b.pu u)).stamps = (b.clock.cycle :: (b.pu u).stamps).take 257 ∧ (f (b.pu u)).state = .locked := by
  have legal : b.puLegal u = b := by unfold Blk.puLegal; rw [locked]
  obtain ⟨f, moved, facts⟩ := puMove_alone (b.modPu u fun x => x.stamp b.clock.cycle) u (alone.modPu _)
    ⟨((b.pu u).ph.cyc + 1) % 2 ^ 24, 0, 0⟩ true true
  obtain ⟨ph, state, stamps, -⟩ := facts ((b.pu u).stamp b.clock.cycle)
  rw [Blk.modPu_twice] at moved
  obtain ⟨g, measured, i, rate⟩ := Blk.puMeasure_modPu b u (b.puModulus u) fun x => f (x.stamp b.clock.cycle)
  refine ⟨g, Eq.trans ?_ (Blk.modPu_settled alone (rate ▸ state.trans locked)), ?_, ?_, ?_⟩
  · unfold phasePulseB
    rw [if_neg (by simp [takes, stable, active]), if_neg (by simp [early])]
    have kept : ((b.pu u).stamp b.clock.cycle).firstPulse = false := first
    simp only [legal, Blk.modPu_same, kept, Bool.false_eq_true, if_false]
    have done := (congrArg (fun c : Blk => c.puMeasure u (c.puModulus u)) moved).trans measured
    exact congrArg (fun c : Blk => (Blk.puFollow 16 c u true).puTryLock u) done
  all_goals rw [rate]
  · exact ph
  · exact stamps
  · exact state.trans locked

end

/-! ## Timers and FABTIME (R159, R162, R175) -/

theorem phaseLossTimeoutB_loses (on1 : b.on 1 = true) (limit : b.reg (puA u 4) ≠ 0) (refclk : b.clock.refLost = false)
    (ratio : b.puSource u ≠ 5) : phaseLossTimeoutB u b = b.puLose u :=
  if_pos (by simp [on1, limit, refclk, ratio])

theorem coastLimitExpiryB_loses (on1 : b.on 1 = true) (coast : (b.pu u).state = .coast) (refclk : b.clock.refLost = false) :
    coastLimitExpiryB u b = b.puGo u .lost :=
  if_pos (by simp [on1, coast, refclk])

/-- The tick of a unit that no queue polls or moderates on is read and moves nothing. -/
theorem phaseTickEstimateB_unheard (alone : b.Alone u) (on1 : b.on 1 = true) (ticked : (b.pu u).ticked = true) :
    phaseTickEstimateB u b = b.modPu u fun x => { x with ticked := false } := by
  unfold phaseTickEstimateB
  rw [if_pos (by simp [ticked, on1])]
  exact (congrArg (ite _ · _) (phaseTick_none _ _ (alone.modPu _).ticks)).trans (ite_self _)

theorem fabricTimeValidB_noUnit {t : Nat} (on1 : b.on 1 = true) (noUnit : ∀ v, v < 16 → b.puSource v ≠ 4 ∨ (b.pu v).state = .off) :
    fabricTimeValidB t b = { b with clock := { b.clock with ft := t, ftPs := 0, ftSeen := true } } := by
  have none : ((List.range 16).filter fun u => b.puSource u == 4 && decide ((b.pu u).state ≠ .off)) = [] := by
    rw [List.filter_eq_nil_iff]
    intro v low
    obtain source | off := noUnit v (List.mem_range.mp low)
    · simp [source]
    · simp [off]
  have powered : ¬ (!b.on 1) = true := by simp [on1]
  exact (if_neg powered).trans (congrArg (fun units => forEach units _ _) none)

end

/-- Settles O35: each input by what the unit makes of it, which writes the unit alone or ends in its events. -/
theorem phaseUnitsFollowTheTables : Obligations.PhaseUnitsFollowTheTables := by
  intro s u x hs low on1 alone same
  subst same
  have indexes : ∀ {pin : PinSample} {b : Blk}, indexPulseB u pin s.core = b → Does (.indexPulse ⟨u, pin⟩) s b :=
    fun h => hs.does (by simp [low]) h
  have pulses : ∀ {pin : PinSample} {b : Blk}, phasePulseB u pin s.core = b → Does (.phasePulse ⟨u, pin⟩) s b :=
    fun h => hs.does (by simp [low]) h
  have others : ∀ (f : PhaseUnit → PhaseUnit) v, v ≠ u → (s.core.modPu u f).pu v = s.core.pu v :=
    fun f v other => Blk.modPu_other s.core u v f other
  refine ⟨fun held pin quad locked long stable active => ?quad, fun pin cyclic locked stable active => ?cyclic,
    fun e held short => ?short, fun pin dropped => ?dropped, fun locked limit refclk => ?loss, fun coast refclk => ?coast,
    fun ticked => ?tick, fun t ht noUnit => ?fabtime⟩
  case quad =>
    have takes := Blk.puTakes_locked on1 quad locked
    obtain ⟨forward, reverse, both⟩ := phaseCountB_stable takes long
    have counts : ∀ {e : QuadEdge} {b : Blk}, phaseCountB u e held s.core = b → Does (.phaseCount u ⟨e, held⟩) s b :=
      fun h => hs.does (by simp [low]) h
    refine ⟨fun slow => ⟨?_, ?_⟩, fun within => ?_, fun z first slip => ?_, fun z taken => ?_⟩
    · obtain ⟨f, counted, ph, back, run, state⟩ := quad_done s.core u true alone locked slow
      rw [if_pos rfl] at ph run
      rw [← Blk.modPu_same s.core u f] at ph back run state
      exact ⟨_, counts (reverse.trans counted), rfl, ph, back, run, state, others f⟩
    · obtain ⟨f, counted, ph, back, run, state⟩ := quad_done s.core u false alone locked slow
      rw [if_neg Bool.false_ne_true] at ph run
      rw [← Blk.modPu_same s.core u f] at ph back run state
      exact ⟨_, counts (forward.trans counted), rfl, ph, back, run, state, others f⟩
    · exact runRow_raise _ _ s _ 7 u hs.functional (by simp [low]) (both.trans (Blk.quadBoth_within low within)) hs.not_reload
    · obtain ⟨lost, pends7, pends8⟩ := Blk.puBreach_puLose alone low quad
        (f := fun x => { x with slipErr := incr 8 x.slipErr }) locked rfl
      exact ⟨_, indexes (indexPulseB_slips takes z stable active locked first slip), pends7, pends8, lost⟩
    · obtain ⟨f, corrected, ph, indexed, wraps, state⟩ := indexPulseB_corrects takes z stable active locked alone taken
      rw [← Blk.modPu_same s.core u f] at ph indexed wraps state
      exact ⟨_, indexes corrected, rfl, ph, indexed, wraps, state, others f⟩
  case cyclic =>
    have takes : (s.core.puTakes u 2 || s.core.puTakes u 3) = true := by
      obtain linesync | mains := cyclic
      · simp [Blk.puTakes_locked on1 linesync locked]
      · simp [Blk.puTakes_locked on1 mains locked]
    refine ⟨fun early => ?_, fun early first => ?_⟩
    · exact runRow_raise _ _ s _ 7 u hs.functional (by simp [low])
        ((phasePulseB_early takes stable active early).trans (Blk.puBreach_eq low _)) hs.not_reload
    · obtain ⟨f, advanced, ph, stamps, state⟩ := phasePulseB_advances takes stable active alone locked early first
      rw [← Blk.modPu_same s.core u f] at ph stamps state
      exact ⟨_, pulses advanced, rfl, ph, stamps, state, others f⟩
  case short =>
    exact hs.does (by simp [low]) (phaseCountB_unstable e short)
  case dropped =>
    exact ⟨indexes (indexPulseB_dropped dropped), pulses (phasePulseB_dropped dropped)⟩
  case loss =>
    obtain ⟨lost, pends, -⟩ := puLose_locked s.core u alone locked low
    exact ⟨_, hs.does (by simp [low]) (phaseLossTimeoutB_loses on1 limit refclk (alone.ratio u low)), lost, pends⟩
  case coast =>
    exact runRow_raise _ _ s _ 8 u hs.functional (by simp [low])
      ((coastLimitExpiryB_loses on1 coast refclk).trans (coast_lost s.core u alone coast low)) hs.not_reload
  case tick =>
    exact hs.does (by simp [low]) (phaseTickEstimateB_unheard alone on1 ticked)
  case fabtime =>
    exact hs.does (by simp; omega) (fabricTimeValidB_noUnit on1 noUnit)

/-! ## Launch at OPEN (R168, R170, R171) -/

section
variable {b : Blk} {m k : Nat} {e : Exec} {w : Window} {q : QRef}

/-- An entry whose first request has its place in a launch gate asks for no other. -/
theorem Blk.armGate_placed (placed : e.gate.isSome = true) : b.armGate m k q e = b :=
  if_pos (by simp [placed])

theorem Blk.armGate_noRequest (noRequest : b.firstReq m q e = none) : b.armGate m k q e = b := by
  unfold Blk.armGate
  simp only [noRequest, ite_self]

theorem Blk.gateBar_placed (placed : e.gate.isSome = true) : b.gateBar m q e = none := if_pos placed

theorem Blk.gateBar_noRequest (noRequest : b.firstReq m q e = none) : b.gateBar m q e = none := by
  unfold Blk.gateBar
  simp only [noRequest, Option.map_none, ite_self]

/-- An armed entry that has its place, or asks for none, launches. -/
theorem Blk.openArmed_launches (plain : e.aligned = false) (exec : b.execAt m k e.pos = some e) (asks : b.armGate m k q e = b)
    (free : b.gateBar m q e = none) : b.openArmed m k q e = b.launch m k q e := by
  unfold Blk.openArmed
  simp only [plain, asks, exec, free, Bool.false_eq_true, if_false]

theorem Blk.WindowIsOpen.windowNow (isOpen : b.WindowIsOpen w) : b.windowNow w = true := by
  simp [Blk.windowNow, isOpen.on, isOpen.past, isOpen.before]

theorem windowOpenRow_opens (armed : b.armedEntry m k = some (e, w, q)) (isOpen : b.WindowIsOpen w)
    (overlap : b.overlapOk q e.pos w = true) : windowOpenRow m k b = (b.openArmed m k q e).alignedCheck m k := by
  unfold windowOpenRow windowOpenB
  simp [armed, isOpen.windowNow, overlap]

theorem windowOpenRow_closed (armed : b.armedEntry m k = some (e, w, q)) (closed : b.windowNow w = false) :
    windowOpenRow m k b = b.alignedCheck m k := by
  unfold windowOpenRow windowOpenB
  simp [armed, closed]

/-- A launch that no full gate kept back, of a kind that reads first, presents the read that stands in the gate. -/
theorem Blk.launch_read {p : Nat} {pk : Pkt} (plain : e.aligned = false) (kind : e.desc.kind ∉ [kWait, kFence, kFill])
    (gate : e.gate = some (p, some pk)) (due : e.due = none) : b.launch m k q e = (b.releaseRead m k e p pk).pump m k := by
  simp only [List.mem_cons, List.not_mem_nil, or_false, not_or] at kind
  obtain ⟨notWait, notFence, notFill⟩ := kind
  unfold Blk.launch Blk.releaseRead
  cases e.win <;> simp [plain, notWait, notFence, notFill, gate, due]

/-- A NOP has no first request: its launch is its end. -/
theorem Blk.launch_nop (plain : e.aligned = false) (nop : e.desc.kind = kNop) (gate : e.gate = none) (due : e.due = none) :
    b.launch m k q e = ((b.dropGate m k).modExec m k e.pos fun e =>
      { e with stage := e.launchStage, gate := none, gatedFirst := false }).pump m k := by
  have reads : e.desc.readsSrc = false := by unfold Desc.readsSrc; rw [nop]; rfl
  have other : kNop ≠ kWait ∧ kNop ≠ kFence ∧ kNop ≠ kFill := by decide
  unfold Blk.launch
  cases e.win <;> simp [plain, nop, other, gate, due, reads]

/-! ## Arming (R170, R174, R183) -/

theorem windowArmB_again (armed : b.armedEntry m k = some (e, w, q)) (plain : e.aligned = false) :
    windowArmB m k b = b.armGate m k q e := by
  unfold windowArmB
  simp [armed, plain]

/-- The head of the local buffer is armed once its OPEN is 64 cycles away or less. -/
theorem windowArmB_head {l : LEntry} {n : Nat} (free : b.armedEntry m k = none) (head : b.windowHead m k = some (l, w, q))
    (cycles : b.cyclesToOpen w = some n) (near : n ≤ 64) (runs : b.puOpen w.unit = true) (notSnap : l.desc.kind ≠ kSnap)
    (notAscat : l.desc.kind ≠ kAscat) (before : atOrPast (b.pu w.unit).ph w.closeAt = false) (overlap : b.overlapOk q l.pos w = true) :
    windowArmB m k b = b.armHead m k l q := by
  unfold windowArmB
  simp [free, head, cycles, near, runs, notSnap, notAscat, before, overlap]

theorem Blk.armHead_arms {l : LEntry} (exec : (b.startEntry m k l true).execAt m k l.pos = some e) (alive : e.dead = false)
    (noFence : e.fenceWait = false) : b.armHead m k l q =
      ((b.startEntry m k l true).modExec m k l.pos fun e => { e with stage := .armed }).armGate m k q { e with stage := .armed } := by
  unfold Blk.armHead
  simp [exec, alive, noFence]

theorem planArmB_loaded {x : Binding} (bound : b.binding m k = some x) (own : x.shadow = false) (loaded : x.toArm = some e) :
    planArmB m k b = (b.armPlan m k x.q e).alignedCheck m k := by
  unfold planArmB
  simp [bound, own, loaded]

/-! ## Late entries and a lost phase (R165, R172) -/

theorem Blk.waitingEntry_empty {x : Binding} (bound : b.binding m k = some x) (empty : x.exec = []) : b.waitingEntry m k = none := by
  unfold Blk.waitingEntry
  simp [bound, empty]

theorem Blk.execAt_empty {x : Binding} (bound : b.binding m k = some x) (empty : x.exec = []) (pos : Nat) : b.execAt m k pos = none := by
  simp [Blk.execAt, bound, empty]

theorem windowLateB_head {l : LEntry} (noneWaits : b.waitingEntry m k = none) (head : b.windowHead m k = some (l, w, q))
    (runs : b.puOpen w.unit = true) (past : atOrPast (b.pu w.unit).ph w.closeAt = true) :
    windowLateB m k b = b.judgeLate m k q l.pos l.desc w := by
  unfold windowLateB
  simp [noneWaits, head, runs, past]

/-- The counts of a late entry: LATE of its unit, and the note for its queue. -/
def Blk.countLate (b : Blk) (u : Nat) (q : QRef) : Blk :=
  (b.modPu u fun x => { x with late := incr 16 x.late }).modEp q fun e => { e with late := true }

theorem Blk.countLate_binding (u : Nat) (q : QRef) : (b.countLate u q).binding m k = b.binding m k := by
  unfold Blk.countLate Blk.modEp Blk.binding
  rw [Blk.modQueue_get_mover, Blk.modPu_get_mover]

/-- With nothing in execution the window moves in the local buffer alone. -/
theorem Blk.setHeadWin_empty {x : Binding} (bound : b.binding m k = some x) (empty : x.exec = []) (pos : Nat) :
    b.setHeadWin m k pos w = b.modBinding m k fun x =>
      { x with lbuf := x.lbuf.map fun l => if l.pos = pos then { l with win := some w } else l } := by
  refine modBinding_congr b m k _ _ fun y at_ => ?_
  obtain rfl : x = y := Option.some.inj (bound.symm.trans at_)
  simp [empty]

/-- HOLD with holds left, for an entry that is not in execution: its window moves one cycle on. -/
theorem Blk.judgeLate_holds {x : Binding} (d : Desc) (bound : b.binding m k = some x) (empty : x.exec = []) (pos : Nat)
    (hold : w.late = 0) (left : b.regF (puA w.unit 7) 15 8 = 0 ∨ w.holds < b.regF (puA w.unit 7) 15 8) :
    b.judgeLate m k q pos d w = ((b.countLate w.unit q).modBinding m k fun x =>
        { x with lbuf := x.lbuf.map fun l => if l.pos = pos then { l with win := some w.later } else l }).modExec m k pos fun e =>
      { e with stage := if e.fenceWait || decide (e.stage = .list) then e.stage else if e.aligned then .waiting else .armed, due := none } := by
  have bound' := (Blk.countLate_binding w.unit q).trans bound
  have reg : (b.countLate w.unit q).reg (puA w.unit 7) = b.reg (puA w.unit 7) := Blk.modQueue_get_reg _ q _ _
  have held : ¬ (bits (b.reg (puA w.unit 7)) 15 8 ≠ 0 ∧ bits (b.reg (puA w.unit 7)) 15 8 ≤ w.holds) := by
    unfold Blk.regF at left
    omega
  have moved := Blk.setHeadWin_empty (w := w.later) bound' empty pos
  unfold Blk.countLate at bound' reg moved ⊢
  unfold Blk.judgeLate
  simp only [Blk.execAt_empty bound' empty, reg, if_pos hold, if_neg held]
  exact congrArg (fun c : Blk => c.modExec m k pos _) moved

theorem phaseLostHaltB_waiting (waiting : b.waitingEntry m k = some (e, w, q)) (lost : (b.pu w.unit).state = .lost)
    (limit : b.regF (puA w.unit 9) 15 0 ≠ 0) :
    phaseLostHaltB m k b = (b.failEntry m k e.pos 0x41 (infoOf [(0, 2, w.unit + 256 * 5)])).pump m k := by
  unfold phaseLostHaltB
  simp [waiting, lost, limit]

end

/-- Settles O36: each command by which entry it finds, then what a launch, an arming or a late judgement does with it. -/
theorem windowedEntriesLaunch : Obligations.WindowedEntriesLaunch := by
  intro s m k hs hm hk
  have opens : ∀ {b : Blk}, windowOpenRow m k s.core = b → Does (.windowOpen m k) s b := fun h => hs.does (by simp [hm, hk]) h
  have arms : ∀ {b : Blk}, windowArmB m k s.core = b → Does (.windowArm m k) s b := fun h => hs.does (by simp [hm, hk]) h
  refine ⟨fun e w q p pk armed exec isOpen overlap plain kind gate due => opens ?read,
    fun e w q armed exec isOpen overlap plain nop gate due noRequest => opens ?nop,
    fun e w q armed closed => opens (windowOpenRow_closed armed closed),
    fun l w q n e free head cycles near runs notSnap notAscat before overlap exec alive noFence => arms ?head,
    fun e w q armed plain => arms (windowArmB_again armed plain),
    fun x e bound own loaded => hs.does (by simp [hm, hk]) (planArmB_loaded bound own loaded),
    fun x l w q bound empty head runs past hold left => hs.does (by simp [hm, hk]) ?late,
    fun e w q waiting lost limit => hs.does (by simp [hm, hk]) (phaseLostHaltB_waiting waiting lost limit)⟩
  case read =>
    have placed : e.gate.isSome = true := by rw [gate]; rfl
    rw [windowOpenRow_opens armed isOpen overlap,
      Blk.openArmed_launches plain exec (Blk.armGate_placed placed) (Blk.gateBar_placed placed), Blk.launch_read plain kind gate due]
  case nop =>
    rw [windowOpenRow_opens armed isOpen overlap,
      Blk.openArmed_launches plain exec (Blk.armGate_noRequest noRequest) (Blk.gateBar_noRequest noRequest),
      Blk.launch_nop plain nop gate due]
  case head =>
    exact (windowArmB_head free head cycles near runs notSnap notAscat before overlap).trans (Blk.armHead_arms exec alive noFence)
  case late =>
    exact (windowLateB_head (Blk.waitingEntry_empty bound empty) head runs past).trans
      (Blk.judgeLate_holds l.desc bound empty l.pos hold left)

end Sys2Proof.Machine

/-! SUPPORT. Proofs of the statements of the aligned gather and scatter family: the launch, the withholding and the time limit of
a released plan's targets, latency records, and the aging of BACKGROUND. -/

namespace Sys2Proof.Machine
open Sys2Proof

/-! ## Targets of a released plan (R185, R186, R190, R191, R308) -/

section
variable {b : Blk} {m k i : Nat} {x : Binding} {e : Exec} {pl : Plan} {c : Nat} {t : PlanTarget} {p : Nat} {pk : Pkt}

/-- With no flush read outstanding and PAIRS not full, writes may go and nothing is forgotten or flushed (R147). -/
theorem Blk.pairRoom_free {q : QRef} {ps : List (Nat × Nat)} (bound : b.binding m k = some x) (noFlush : x.flushOut = 0)
    (room : b.pairsFull m k ps = false) : b.pairRoom m k q ps = (true, b) := by
  unfold Blk.pairRoom
  simp [bound, noFlush, room]

/-- A slot that is not READY keeps the target from its port, whether or not the port is free (R185). -/
theorem alignedTargetLaunchB_withheld {n : Nat} {v : Option Nat} (waits : b.TargetWaits m k i x e pl c t p pk)
    (slot : b.slotVerdict t.addr = some (n, v)) (read : pk.isWrite = false) : alignedTargetLaunchB m k i b =
      ((b.modPort p fun y => y.freeTagAt pk.tag false).modTarget m k e.pos i fun z => z.heldBy (b.heldStatus n)).alignedCheck m k := by
  obtain ⟨bound, own, entry, plan, released, target, held, ⟨notDone, notLaunched⟩, runs, reached⟩ := waits
  have due := Nat.not_lt.mpr reached
  unfold alignedTargetLaunchB
  simp [bound, own, entry, plan, released, target, held, notDone, notLaunched, runs, due, slot, read]
  rfl

theorem alignedTargetLaunchB_read (waits : b.TargetWaits m k i x e pl c t p pk) (goes : b.TargetGoes pl t p pk)
    (read : pk.isWrite = false) : alignedTargetLaunchB m k i b =
      ((b.modTarget m k e.pos i fun z =>
        z.presented (b.clock.cycle - c) (decide (c + t.cycle < b.clock.cycle)) false).present p pk).alignedCheck m k := by
  obtain ⟨bound, own, entry, plan, released, target, held, ⟨notDone, notLaunched⟩, runs, reached⟩ := waits
  obtain ⟨slot, first, free, grants⟩ := goes
  have due := Nat.not_lt.mpr reached
  unfold alignedTargetLaunchB PlanTarget.presented
  simp [bound, own, entry, plan, released, target, held, notDone, notLaunched, runs, due, slot, first, free, grants, read]

theorem alignedTargetLaunchB_write (waits : b.TargetWaits m k i x e pl c t p pk) (goes : b.TargetGoes pl t p pk)
    (write : pk.isWrite = true) (clean : pk.poison = false) (alone : b.writesAhead m k e.pos = false) (noFlush : x.flushOut = 0)
    (room : b.pairsFull m k [(p, pk.path)] = false) {d : Blk}
    (noted : d = b.modTarget m k e.pos i fun z => z.presented (b.clock.cycle - c) (decide (c + t.cycle < b.clock.cycle)) true) :
    alignedTargetLaunchB m k i b = (((d.modExec m k e.pos fun e' =>
      { e' with wr := e'.wr ++ [(i, 0, pk.len)]
                pairs := addPair e'.pairs ⟨p, pk.path, pk.addr + pk.len - 1, d.pairNeeds x.q e.desc p pk.path⟩
                ports := Nat.lor e'.ports (2 ^ p) }).countTiles x.q 0 (tilesOf pk.addr pk.len)).present p pk).alignedCheck m k := by
  have pairs := Blk.pairRoom_free (q := x.q) waits.at_ noFlush room
  obtain ⟨bound, own, entry, plan, released, target, held, ⟨notDone, notLaunched⟩, runs, reached⟩ := waits
  obtain ⟨slot, first, free, grants⟩ := goes
  have due := Nat.not_lt.mpr reached
  subst noted
  unfold alignedTargetLaunchB PlanTarget.presented
  simp [bound, own, entry, plan, released, target, held, notDone, notLaunched, runs, due, slot, first, free, grants, write, clean,
    alone, pairs]

/-- Where no target of the plan still holds its request, the time limit gives no tag back: it abandons the reads and ends the
missing targets (R186). -/
theorem snapTargetTimeoutB_abandons (bound : b.binding m k = some x) (own : x.shadow = false)
    (entry : x.exec.find? (fun e => e.desc.kind == kSnap && e.launched && !e.dead && decide (e.stage = .running)) = some e)
    (plan : e.plan = some pl) (presented : ∀ t ∈ pl.targets, t.held = none) : snapTargetTimeoutB m k b =
      (Blk.modExec { b with ports := tabMap {} (fun _ v => v.abandonTargets x.q e.pos) b.ports } m k e.pos
        fun e => { e with plan := e.plan.map Plan.timedOut }).alignedCheck m k := by
  unfold snapTargetTimeoutB
  simp only [bound, own, entry, plan, Bool.false_eq_true, if_false, Option.map_some, Option.getD_some]
  rw [foldl_id]
  intro t mem
  rw [presented t mem]

end

/-- Settles O40: each launch by the slot and the kind of its request, and the time limit of a plan whose requests are all out. -/
theorem alignedTargetsLaunchAndEnd : Obligations.AlignedTargetsLaunchAndEnd := by
  intro s m k hs hm hk
  have launches : ∀ {i : Nat} {b : Blk}, i < 64 → alignedTargetLaunchB m k i s.core = b → Does (.alignedTargetLaunch m k i) s b :=
    fun hi h => hs.does (by simp [hm, hk, hi]) h
  exact ⟨fun i x e pl c t p pk hi waits goes read => launches hi (alignedTargetLaunchB_read waits goes read),
    fun i x e pl c t p pk b hi waits goes write clean alone noFlush room noted =>
      launches hi (alignedTargetLaunchB_write waits goes write clean alone noFlush room noted),
    fun i x e pl c t p pk n v hi waits slot read => launches hi (alignedTargetLaunchB_withheld waits slot read),
    fun x e pl bound own entry plan presented =>
      hs.does (by simp [hm, hk]) (snapTargetTimeoutB_abandons bound own entry plan presented)⟩

/-! ## Latency records (R179, R181) -/

section
variable {b : Blk} {i : Nat} {t : Target}

theorem latencyProbeB_sends (range : b.img.targets[i]? = some t) (tracked : (b.lat i).tracked = true) (on1 : b.on 1 = true)
    (may : b.pollMay = true) : latencyProbeB i b =
      (b.pollSpent.sendRead t.base 0 0 0 (.probe i)).modLat i fun r => { r with burst := r.burst - 1, ask := false } := by
  unfold latencyProbeB
  simp [range, tracked, on1, may]

theorem latencyProbeB_waits (range : b.img.targets[i]? = some t) (tracked : (b.lat i).tracked = true) (on1 : b.on 1 = true)
    (spent : b.pollMay = false) : latencyProbeB i b = b.modLat i fun r => { r with ask := true } := by
  unfold latencyProbeB
  simp [range, tracked, on1, spent]

theorem latencyRecordAgingB_tracked (long : Bool) (tracked : (b.lat i).tracked = true) :
    latencyRecordAgingB i long b = b.modLat i fun r => { r with stale := true, valid := r.valid && !long } :=
  Blk.modLat_congr b i _ _ (if_pos tracked)

theorem latencyTrackingStopB_unplanned (unplanned : b.inPlan i = false) : latencyTrackingStopB i b =
    b.modLat i fun r => { r with tracked := false, valid := false, stale := false, burst := 0, ask := false } :=
  if_neg (by simp [unplanned])

end

/-! ## The aging of BACKGROUND (R194) -/

section
variable {b : Blk} {q : QRef} {x : Binding} {m k : Nat}

/-- The queue's packets that have waited at a port since cycle `t` or longer are aged. -/
def Blk.agePorts (b : Blk) (q : QRef) (t : Nat) : Blk := { b with ports := tabMap {} (fun _ v => v.aged q t) b.ports }

theorem backgroundAgingB_unbound (background : b.svcOf q = .background) (late : b.tenUs ≤ b.clock.cycle) (unbound : b.boundAt q = none) :
    backgroundAgingB q b = b.agePorts q (b.clock.cycle - b.tenUs) := by
  have same : (b.agePorts q (b.clock.cycle - b.tenUs)).boundAt q = none := unbound
  unfold Blk.agePorts at same ⊢
  unfold backgroundAgingB
  simp [background, Nat.not_lt.mpr late, same]

/-- A bound queue's binding is served once as STANDARD when it was last served 10 µs ago or earlier, and not otherwise. -/
theorem backgroundAgingB_bound (background : b.svcOf q = .background) (late : b.tenUs ≤ b.clock.cycle)
    (place : b.boundAt q = some (m, k)) (bound : b.binding m k = some x) : backgroundAgingB q b =
      if x.served ≤ b.clock.cycle - b.tenUs then
        (b.modSched fun z => { z with aged := addOnce q z.aged }).agePorts q (b.clock.cycle - b.tenUs)
      else b.agePorts q (b.clock.cycle - b.tenUs) := by
  have place' : (b.agePorts q (b.clock.cycle - b.tenUs)).boundAt q = some (m, k) := place
  have bound' : (b.agePorts q (b.clock.cycle - b.tenUs)).binding m k = some x := bound
  unfold Blk.agePorts at place' bound' ⊢
  unfold backgroundAgingB
  simp [background, Nat.not_lt.mpr late, place', bound']
  rfl

end

/-- Settles O37: a probe by the poll budget, the record's own changes, and aging by whether the queue is bound and since when it
has waited. -/
theorem latencyRecordsAndAging : Obligations.LatencyRecordsAndAging := by
  intro s i hs hi
  have probes : ∀ {b : Blk}, latencyProbeB i s.core = b → Does (.latencyProbe i) s b := fun h => hs.does (by simp [hi]) h
  refine ⟨fun t range tracked on1 => ⟨fun may => ?sends, fun spent => probes (latencyProbeB_waits range tracked on1 spent)⟩,
    fun long tracked => hs.does (by simp [hi]) (latencyRecordAgingB_tracked long tracked),
    fun unplanned => hs.does (by simp [hi]) (latencyTrackingStopB_unplanned unplanned),
    fun p opens => row_tgtLatInval s p i hs hi opens,
    fun q t wf background late at_ => ?background⟩
  case sends =>
    exact ⟨_, Blk.sendRead_sent _ _ _ _ _ _, probes (latencyProbeB_sends range tracked on1 may)⟩
  case background =>
    subst at_
    have ages : ∀ {b : Blk}, backgroundAgingB q s.core = b → Does (.backgroundAging q) s b := fun h => hs.does (by simp [wf]) h
    exact ⟨fun m k x place bound served => ages ((backgroundAgingB_bound background late place bound).trans (if_pos served)),
      fun m k x place bound recent =>
        ages ((backgroundAgingB_bound background late place bound).trans (if_neg (Nat.not_le.mpr recent))),
      fun unbound => ages (backgroundAgingB_unbound background late unbound)⟩

end Sys2Proof.Machine

/-! SUPPORT. Proofs of the statements of the arbitration and request lines family: captures, releases and time-outs of a request
line, its registers, virtual lines, and the captures that a WAIT takes. -/

namespace Sys2Proof.Machine
open Sys2Proof

/-! ## The level of RL_REQ (R210, R211) -/

/-- The accepted level of RL_REQ is noted at its line. -/
def Blk.lineIn (b : Blk) (n : Nat) (level : Bool) : Blk := b.modLine n fun x => { x with input := level }

section
variable {b : Blk} {n : Nat} {pin : PinSample}

theorem Blk.lineIn_state (level : Bool) : ((b.lineIn n level).line n).state = (b.line n).state := by
  rw [Blk.lineIn, Blk.modLine_same]

theorem Blk.lineIn_pend (level : Bool) : ((b.lineIn n level).line n).pend = (b.line n).pend := by
  rw [Blk.lineIn, Blk.modLine_same]

theorem Blk.lineIn_bySw (level : Bool) : ((b.lineIn n level).line n).bySw = (b.line n).bySw := by
  rw [Blk.lineIn, Blk.modLine_same]

theorem Blk.lineIn_rlTakes (level : Bool) : (b.lineIn n level).rlTakes n = b.rlTakes n := by
  unfold Blk.rlTakes
  rw [Blk.lineIn_state]
  rfl

theorem Blk.lineIn_gapMet (level : Bool) : (b.lineIn n level).gapMet n ↔ b.gapMet n := by
  unfold Blk.gapMet Blk.lineIn
  rw [Blk.modLine_same]
  exact Iff.rfl

theorem Blk.lineIn_givenTo (level : Bool) : (b.lineIn n level).givenTo n = b.givenTo n := by
  unfold Blk.givenTo Blk.lineIn
  rw [Blk.modLine_same]
  rfl

theorem Blk.rlTakes_live (on1 : b.on 1 = true)
    (live : (b.line n).state = .idle ∨ (b.line n).state = .pending ∨ (b.line n).state = .acked) : b.rlTakes n = true := by
  unfold Blk.rlTakes
  obtain state | state | state := live <;> simp [on1, state]

/-! The stability filter lets neither level through before it has stood for STABLE + 1 cycles (R210). -/

theorem rlCaptureB_unstable (unstable : pinStable pin (b.rlStable n) = false) : rlCaptureB n pin b = b :=
  if_pos (by simp [unstable])

theorem rlReleaseB_unstable (unstable : pinStable pin (b.rlStable n) = false) : rlReleaseB n pin b = b :=
  if_pos (by simp [unstable])

/-! ## Captures (R212, Table 9-3) -/

/-- A breach of MIN_GAP on a line whose ERR_LIM is 0: counted with its event, and no FAULT follows (R212). -/
theorem Blk.rlActive_breach (sw : Bool) (soon : ¬ b.gapMet n) (noLimit : bits (b.rlCfg n) 23 20 = 0) : b.rlActive n sw =
    (b.modLine n fun x => { x with rateErr := incr 8 x.rateErr, breaches := x.breaches + 1 }).raiseAt 17 n := by
  refine (if_pos (eq_true_of_ne_false soon)).trans (if_neg fun past => past.1 ?_)
  exact (congrArg (bits · 23 20) ((Blk.raiseAt_msg _ 17 n).get_reg _)).trans noLimit

section
variable (stable : pinStable pin (b.rlStable n) = true) (active : b.rlLevel n pin = true) (edge : (b.line n).input = false)
  (on1 : b.on 1 = true)
include stable active edge on1

theorem rlCaptureB_accepts (live : (b.line n).state = .idle ∨ (b.line n).state = .pending) :
    rlCaptureB n pin b = (b.lineIn n true).rlActive n false := by
  have takes := (Blk.lineIn_rlTakes true).trans (Blk.rlTakes_live on1 (live.imp_right .inl))
  unfold rlCaptureB
  simp only [stable, active, edge, Bool.not_true, Bool.or_self, Bool.false_eq_true, if_false]
  exact if_pos takes

theorem rlCaptureB_captures (idle : (b.line n).state = .idle) (gap : b.gapMet n) : rlCaptureB n pin b = b.modLine n fun x =>
    { x with input := true, lastAt := some b.clock.cycle, state := .pending, pend := 1, bySw := false, given := b.givenTo n } := by
  obtain ⟨captures, -, -⟩ := rlActive_gap (b.lineIn n true) n false ((Blk.lineIn_gapMet true).mpr gap)
  rw [rlCaptureB_accepts stable active edge on1 (.inl idle), captures ((Blk.lineIn_state true).trans idle), Blk.lineIn_givenTo]
  exact Blk.modLine_twice b n _ _

theorem rlCaptureB_overruns (pending : (b.line n).state = .pending) (gap : b.gapMet n)
    (full : b.rlMode n = 2 ∨ b.rlMode n = 3 ∧ 255 ≤ (b.line n).pend) : rlCaptureB n pin b = b.modLine n fun x =>
      { x with input := true, lastAt := some b.clock.cycle, overrun := incr 4 x.overrun } := by
  obtain ⟨-, overruns, -⟩ := rlActive_gap (b.lineIn n true) n false ((Blk.lineIn_gapMet true).mpr gap)
  rw [rlCaptureB_accepts stable active edge on1 (.inr pending),
    overruns ((Blk.lineIn_state true).trans pending) (by rw [Blk.lineIn_pend]; exact full)]
  exact Blk.modLine_twice b n _ _

theorem rlCaptureB_counts (pending : (b.line n).state = .pending) (gap : b.gapMet n) (count : b.rlMode n = 3)
    (room : (b.line n).pend < 255) : rlCaptureB n pin b = b.modLine n fun x =>
      { x with input := true, lastAt := some b.clock.cycle, pend := x.pend + 1 } := by
  obtain ⟨-, -, counts⟩ := rlActive_gap (b.lineIn n true) n false ((Blk.lineIn_gapMet true).mpr gap)
  rw [rlCaptureB_accepts stable active edge on1 (.inr pending),
    counts ((Blk.lineIn_state true).trans pending) count (by rwa [Blk.lineIn_pend])]
  exact Blk.modLine_twice b n _ _

theorem rlCaptureB_breaches (live : (b.line n).state = .idle ∨ (b.line n).state = .pending) (soon : ¬ b.gapMet n)
    (noLimit : bits (b.rlCfg n) 23 20 = 0) : rlCaptureB n pin b =
      (b.modLine n fun x => { x with input := true, rateErr := incr 8 x.rateErr, breaches := x.breaches + 1 }).raiseAt 17 n := by
  rw [rlCaptureB_accepts stable active edge on1 live, Blk.rlActive_breach false (mt (Blk.lineIn_gapMet true).mp soon) noLimit]
  exact congrArg (Blk.raiseAt · 17 n) (Blk.modLine_twice b n _ _)

end

/-! ## Releases (R213, Table 9-3) -/

section
variable (stable : pinStable pin (b.rlStable n) = true) (inactive : b.rlLevel n pin = false)
include stable inactive

/-- On EDGE and COUNT the end of the request is noted and no more. -/
theorem rlReleaseB_notLevel (mode : b.rlMode n ≠ 1) : rlReleaseB n pin b = b.lineIn n false := by
  have mode' : (b.lineIn n false).rlMode n ≠ 1 := mode
  unfold Blk.lineIn at mode' ⊢
  unfold rlReleaseB
  simp [stable, inactive, mode']

theorem rlReleaseB_withdraws (on1 : b.on 1 = true) (level : b.rlMode n = 1) (pending : (b.line n).state = .pending)
    (byPin : (b.line n).bySw = false) : rlReleaseB n pin b =
      b.modLine n fun x => { x with input := false, state := .idle, pend := 0, given := none } := by
  have takes := (Blk.lineIn_rlTakes (b := b) false).trans (Blk.rlTakes_live on1 (.inr (.inl pending)))
  have level' : (b.lineIn n false).rlMode n = 1 := level
  unfold Blk.lineIn at takes level'
  unfold rlReleaseB
  simp [stable, inactive, takes, level', pending, byPin, Blk.modLine_twice]

theorem rlReleaseB_ends (on1 : b.on 1 = true) (level : b.rlMode n = 1) (acked : (b.line n).state = .acked) :
    rlReleaseB n pin b = b.modLine n fun x => { x with input := false, state := .idle, ack := false } := by
  have takes := (Blk.lineIn_rlTakes (b := b) false).trans (Blk.rlTakes_live on1 (.inr (.inr acked)))
  have level' : (b.lineIn n false).rlMode n = 1 := level
  unfold Blk.lineIn at takes level'
  unfold rlReleaseB
  simp [stable, inactive, takes, level', acked, Blk.modLine_twice]

end

/-! ## A request held too long (R212) -/

section
variable (held : (b.line n).input = true) (refclk : b.clock.refLost = false) (timed : b.regF 0x0E300 15 0 ≠ 0) (on1 : b.on 1 = true)
include held refclk timed on1

theorem rlHoldTimeoutB_faults (level : b.rlMode n = 1) (acked : (b.line n).state = .acked) : rlHoldTimeoutB n b =
    (b.modLine n fun x => { x with state := .fault, pend := 0, ack := false, bySw := false, given := none }).raiseAt 13 n := by
  unfold rlHoldTimeoutB
  simp [Blk.rlTakes_live on1 (.inr (.inr acked)), held, refclk, timed, level, acked]
  rfl

theorem rlHoldTimeoutB_counts (notLevel : b.rlMode n ≠ 1) (live : (b.line n).state = .idle ∨ (b.line n).state = .pending) :
    rlHoldTimeoutB n b = b.modLine n fun x => { x with stuck := incr 4 x.stuck } := by
  unfold rlHoldTimeoutB
  simp [Blk.rlTakes_live on1 (live.imp_right .inl), held, refclk, timed, notLevel]

end

/-! ## The registers of a line (R211, Table 9-3) -/

theorem Blk.selected_line (p : MPort) : (b.selected p).line n = b.line n := Blk.modSide_get_line b p _ n

theorem Blk.selected_gapMet (p : MPort) : (b.selected p).gapMet n ↔ b.gapMet n := by cases p <;> exact Iff.rfl

theorem Blk.selected_givenTo (p : MPort) : (b.selected p).givenTo n = b.givenTo n := by cases p <;> rfl

theorem Blk.rlClear_fault (fault : (b.line n).state = .fault) (low : (b.line n).input = false) :
    b.rlClear n = b.modLine n fun x => { x with state := .idle, breaches := 0 } := by
  unfold Blk.rlClear
  simp [fault, low]

theorem Blk.rlSwreq_idle (on1 : b.on 1 = true) (idle : (b.line n).state = .idle) (gap : b.gapMet n) :
    b.rlSwreq n = b.modLine n fun x =>
      { x with lastAt := some b.clock.cycle, state := .pending, pend := 1, bySw := true, given := b.givenTo n } := by
  obtain ⟨captures, -, -⟩ := rlActive_gap b n true gap
  exact (if_pos (Blk.rlTakes_live on1 (.inl idle))).trans (captures idle)

/-- Bits [11:4] of RLN_CFG are not stored: what a write leaves in the register. -/
def rlCfgStored (w : Nat) : Nat := w - bits w 11 4 * 16

theorem rlCfgStored_mode (w : Nat) : bits (rlCfgStored w) 1 0 = bits w 1 0 := by
  unfold rlCfgStored bits
  omega

theorem Blk.rlCfgWrite_same (w : Nat) (same : bits w 1 0 = b.rlMode n) : b.rlCfgWrite n w = b.setReg (0x0E000 + 4 * n) (rlCfgStored w) :=
  if_pos same

theorem Blk.rlCfgWrite_changes (w : Nat) (changes : bits w 1 0 ≠ b.rlMode n) : b.rlCfgWrite n w =
    (b.setReg (0x0E000 + 4 * n) (rlCfgStored w)).modLine n fun x =>
      { x with state := if bits w 1 0 = 0 then .off else .idle, pend := 0, ack := false, ackDue := 0, endDue := 0, ackAt := none,
               endAt := none, bySw := false, given := none } :=
  if_neg changes

/-- MODE is a writable field of RLN_CFG. -/
theorem rlCfgWord_mode (old v : Nat) : bits (Fields.word { rw := 0xFFFFF00F } old v) 1 0 = v % 4 := by
  rw [Fields.bits_word _ _ _ _ _ (by decide) (by decide) (by decide)]
  unfold bits
  omega

end

/-- Settles O38: each input by its level, its line's state and mode; each register write by its row. -/
theorem requestLinesFollowTheTable : Obligations.RequestLinesFollowTheTable := by
  rintro s n _ hs hn on1 rfl
  have captures : ∀ {pin : PinSample} {b : Blk}, rlCaptureB n pin s.core = b → Does (.rlCapture ⟨n, pin⟩) s b :=
    fun h => hs.does (by simp [hn]) h
  have releases : ∀ {pin : PinSample} {b : Blk}, rlReleaseB n pin s.core = b → Does (.rlRelease ⟨n, pin⟩) s b :=
    fun h => hs.does (by simp [hn]) h
  have holds : ∀ {b : Blk}, rlHoldTimeoutB n s.core = b → Does (.rlHoldTimeout n) s b := fun h => hs.does (by simp [hn]) h
  refine ⟨fun pin stable active edge => ⟨fun _ idle gap => captures (rlCaptureB_captures stable active edge on1 idle gap),
      fun mode gap => ⟨fun idle => captures (rlCaptureB_captures stable active edge on1 idle gap), fun pending full => ?overrun, fun pending count room =>
        captures (rlCaptureB_counts stable active edge on1 pending gap count room)⟩,
      fun _ live soon noLimit => ?breach⟩,
    fun pin unstable => ⟨captures (rlCaptureB_unstable unstable), releases (rlReleaseB_unstable unstable)⟩,
    fun pin stable inactive =>
      ⟨fun level pending byPin => releases (rlReleaseB_withdraws stable inactive on1 level pending byPin),
      fun level acked => releases (rlReleaseB_ends stable inactive on1 level acked),
      fun notLevel => releases (rlReleaseB_notLevel stable inactive notLevel)⟩,
    fun held refclk timed => ⟨fun level acked => ?fault, fun notLevel live =>
      holds (rlHoldTimeoutB_counts held refclk timed on1 notLevel live)⟩,
    fun p opens fault low => ?clear, fun p opens idle gap => ?swreq, fun p w opens => ?modeWrite⟩
  case overrun =>
    exact captures (rlCaptureB_overruns stable active edge on1 pending gap (by omega))
  case breach =>
    exact runRow_raise _ _ s _ _ _ hs.functional (by simp [hn]) (rlCaptureB_breaches stable active edge on1 live soon noLimit)
      hs.not_reload
  case fault =>
    exact runRow_raise _ _ s _ _ _ hs.functional (by simp [hn]) (rlHoldTimeoutB_faults held refclk timed on1 level acked)
      hs.not_reload
  case clear =>
    have does := row_rlnClear s p n hs hn opens
    rwa [Blk.rlClear_fault (by rwa [Blk.selected_line]) (by rwa [Blk.selected_line])] at does
  case swreq =>
    have does := row_rlnSwreq s p n hs hn opens
    have clock : (s.core.selected p).clock = s.core.clock := (Blk.selected_msg s.core p).clock
    have on1' : (s.core.selected p).on 1 = true := (Blk.modSide_get_on _ p _ 1).trans on1
    rwa [Blk.rlSwreq_idle on1' (by rwa [Blk.selected_line]) ((Blk.selected_gapMet p).mpr gap), clock, Blk.selected_givenTo] at does
  case modeWrite =>
    have does := row_rlnModeWrite s p n w hs hn opens
    have mode := rlCfgWord_mode (s.core.reg (0x0E000 + 4 * n)) w.toNat
    have old : (s.core.selected p).rlMode n = s.core.rlMode n := congrArg (bits · 1 0) (Blk.modSide_get_reg _ p _ _)
    generalize Fields.word _ _ _ = v at does mode
    refine ⟨rlCfgStored v, (rlCfgStored_mode v).trans mode, fun changes => ?_, fun same => ?_⟩
    · rwa [Blk.rlCfgWrite_changes v (by rwa [mode, old]), mode] at does
    · rwa [Blk.rlCfgWrite_same v (by rwa [mode, old])] at does

/-! ## Virtual lines (R214, R215) -/

section
variable {b : Blk} {v d size value : Nat}

/-- A 4 B message with a count, from a domain that the line's group lets in. -/
theorem vrlMessageB_admits (on1 : b.on 1 = true) (word : size = 4) (count : bits value 7 0 ≠ 0)
    (enabled : bit (b.reg (0x0E200 + 4 * (v / 64))) 9 = true)
    (owner : bit (b.reg (0x0E200 + 4 * (v / 64))) 8 = true ∨ b.regF (0x0E200 + 4 * (v / 64)) 7 0 = d) :
    vrlMessageB v d size value b = b.vrlAdd v (bits value 7 0) := by
  unfold Blk.regF at owner
  unfold vrlMessageB
  obtain any | own := owner
  · simp [on1, word, count, enabled, any]
  · simp [on1, word, count, enabled, own]

theorem vrlMessageB_drops (on1 : b.on 1 = true)
    (refused : size ≠ 4 ∨ bits value 7 0 = 0 ∨ bit (b.reg (0x0E200 + 4 * (v / 64))) 9 = false
      ∨ (bit (b.reg (0x0E200 + 4 * (v / 64))) 8 = false ∧ b.regF (0x0E200 + 4 * (v / 64)) 7 0 ≠ d)) :
    vrlMessageB v d size value b = (b.modSched fun z => { z with vrlDrops := incr 32 z.vrlDrops }).raise 0 12 := by
  unfold Blk.regF at refused
  unfold vrlMessageB
  obtain size4 | noCount | disabled | ⟨owned, other⟩ := refused
  · simp [on1, size4]
  · simp [on1, noCount]
  · simp [on1, disabled]
  · simp [on1, owned, other]

end

/-! ## Captures that a WAIT takes (R215, R216) -/

/-- The line holds a capture that may be consumed in this cycle. -/
def Blk.mayConsume (b : Blk) : LineRef → Bool
  | .wired n => b.rlTakes n && decide ((b.line n).state = .pending) && (b.line n).usedAt != some b.clock.cycle
  | .virt v => b.on 1 && decide (0 < (b.vline v).pend) && (b.vline v).usedAt != some b.clock.cycle

/-- A capture of either kind of line is consumed. -/
def Blk.lineConsume (b : Blk) : LineRef → Blk
  | .wired n => b.rlConsume n
  | .virt v => b.vrlConsume v

/-- The wired line whose acknowledge the end of a WAIT marks. -/
def endMark : LineRef → Option Nat
  | .wired n => some n
  | .virt _ => none

/-- The waiter leaves the list of those that wait. -/
def Blk.dropWaiter (b : Blk) (w : Waiter) : Blk :=
  b.modSched fun z => { z with waiters := z.waiters.filter fun z => z.seq != w.seq }

/-- The WAIT at `pos` ends with its mark, and what stands behind it is released (R216). -/
def Blk.endWait (b : Blk) (w : Waiter) (pos : Nat) (endLine : Option Nat) : Blk :=
  ((b.modExec w.m w.b pos fun e => { e with stage := .done, endLine := endLine }).pump w.m w.b).releaseBehind w.m w.b

section
variable {b : Blk} {l : LineRef} {n v : Nat} {w : Waiter}

theorem Blk.mayConsume_wired (on1 : b.on 1 = true) (pending : (b.line n).state = .pending)
    (unused : (b.line n).usedAt ≠ some b.clock.cycle) : b.mayConsume (.wired n) = true := by
  simp [Blk.mayConsume, Blk.rlTakes_live on1 (.inr (.inl pending)), pending, unused]

theorem Blk.mayConsume_virt (on1 : b.on 1 = true) (raised : 0 < (b.vline v).pend)
    (unused : (b.vline v).usedAt ≠ some b.clock.cycle) : b.mayConsume (.virt v) = true := by
  simp [Blk.mayConsume, on1, raised, unused]

theorem Blk.lineConsume_binding (l : LineRef) (m k : Nat) : (b.lineConsume l).binding m k = b.binding m k := by cases l <;> rfl

theorem captureConsumedB_untaken (untaken : b.taker l = none) : captureConsumedB l b = b := by
  unfold captureConsumedB
  dsimp only
  rw [untaken]
  split
  · contradiction
  · rfl

theorem captureConsumedB_taken {x : Binding} {e : Exec} (may : b.mayConsume l = true) (taker : b.taker l = some w)
    (bound : b.binding w.m w.b = some x)
    (first : x.exec.find? (fun e => e.desc.kind = kWait && !e.dead && decide (e.stage = .waiting)) = some e) :
    captureConsumedB l b = ((b.dropWaiter w).lineConsume l).endWait w e.pos (endMark l) := by
  have bound' : ((b.dropWaiter w).lineConsume l).binding w.m w.b = some x := (Blk.lineConsume_binding l _ _).trans bound
  unfold captureConsumedB
  cases l
  all_goals
    unfold Blk.mayConsume at may
    unfold Blk.dropWaiter Blk.lineConsume at bound'
    simp only [may, taker, bound', first, Option.bind_some]
    rfl

theorem Blk.rlConsume_level (level : b.rlMode n = 1) : (b.rlConsume n).line n =
    { b.line n with state := .acked, pend := 0, ack := true, bySw := false, given := none, usedAt := some b.clock.cycle } := by
  unfold Blk.rlConsume
  simp [level]

theorem Blk.rlConsume_notLevel (notLevel : b.rlMode n ≠ 1) : (b.rlConsume n).line n =
    { b.line n with state := if (b.line n).pend - 1 = 0 then .idle else .pending, pend := (b.line n).pend - 1, given := none,
                    usedAt := some b.clock.cycle, ackDue := satInc 255 (b.line n).ackDue } := by
  unfold Blk.rlConsume
  simp [notLevel]

end

/-- Settles O39: messages by what their group admits, captures by whether a WAIT takes them. -/
theorem capturesAreConsumed : Obligations.CapturesAreConsumed := by
  intro s hs on1
  have message : ∀ {v d size value : Nat}, v < 4096 → value < 2 ^ 32 → (Instr.vrlMessage v d size value).wf = true :=
    fun hv hvalue => by rw [wf_vrlMessage, decide_eq_true hv, decide_eq_true hvalue]; rfl
  have consumes : ∀ {l : LineRef} {b : Blk}, l.wf = true → captureConsumedB l s.core = b → Does (.captureConsumed l) s b :=
    fun wf h => hs.does (by rw [wf_captureConsumed, wf]) h
  refine ⟨fun v d size value hv hvalue =>
      ⟨fun word count enabled owner => hs.does (message hv hvalue) (vrlMessageB_admits on1 word count enabled owner),
      fun refused => runRow_raise _ _ s _ _ _ hs.functional (message hv hvalue) (vrlMessageB_drops on1 refused) hs.not_reload⟩,
    fun p v n hv hn opens => ?raise,
    fun n w x e hn pending unused taker bound first =>
      consumes (decide_eq_true hn) (captureConsumedB_taken (Blk.mayConsume_wired on1 pending unused) taker bound first),
    fun v w x e hv raised unused taker bound first =>
      consumes (decide_eq_true hv) (captureConsumedB_taken (Blk.mayConsume_virt on1 raised unused) taker bound first),
    fun b n => ⟨fun level => ?level, fun notLevel => ?notLevel, fun k other => Blk.modLine_other b n k _ other⟩,
    fun l wf untaken => consumes wf (captureConsumedB_untaken untaken)⟩
  case raise =>
    have does := row_rlnVrlRaise s p v n hs hv hn opens
    cases p <;> exact does
  case level =>
    rw [Blk.rlConsume_level level]
    exact ⟨rfl, rfl, rfl⟩
  case notLevel =>
    rw [Blk.rlConsume_notLevel notLevel]
    exact ⟨rfl, rfl, rfl⟩

end Sys2Proof.Machine

/-! SUPPORT. Proofs of the statements of the staging FIFOs family: FIFOs with entries on both sides opened, closed, flushed and
their tails closed, and the edges, the clock and the stall of a stream port. -/

namespace Sys2Proof.Machine
open Sys2Proof

/-! ## What a selected access sees of a FIFO -/

section
variable {b : Blk} {f : Nat}

theorem Blk.selected_sfCfg (p : MPort) : (b.selected p).sfCfg f = b.sfCfg f := by cases p <;> rfl

theorem Blk.selected_fifo (p : MPort) : (b.selected p).fifo f = b.fifo f := Blk.modSide_get_fifo b p _ f

theorem Blk.selected_sport (p : MPort) (n : Nat) : (b.selected p).sport n = b.sport n := Blk.modSide_get_sport b p _ n

theorem Blk.selected_sfIn (p : MPort) : (b.selected p).sfIn f = b.sfIn f := by cases p <;> rfl

theorem Blk.selected_sfOut (p : MPort) : (b.selected p).sfOut f = b.sfOut f := by cases p <;> rfl

theorem Blk.selected_sfPacket (p : MPort) : (b.selected p).sfPacket f = b.sfPacket f := by cases p <;> rfl

theorem Blk.selected_sfMarked (p : MPort) : (b.selected p).sfMarked f = b.sfMarked f := by cases p <;> rfl

/-- The answer to an access changes no pending bit. -/
theorem Blk.answered_pends (p : MPort) (v : BitVec 64) (g i : Nat) : (b.answered p v).pends g i = b.pends g i := by
  cases p <;> rfl

theorem Blk.selected_extents (p : MPort) : (b.selected p).regF (sfA f 1) 11 0 = b.regF (sfA f 1) 11 0 := by cases p <;> rfl

theorem Blk.selected_pool (p : MPort) : (b.selected p).pool = b.pool := by cases p <;> rfl

theorem Blk.sfLive_of (live : (b.fifo f).state = .run ∨ (b.fifo f).state = .held) : b.sfLive f = true := by
  unfold Blk.sfLive
  obtain state | state := live <;> rw [state]

/-! ## Enabling a FIFO with entries on both sides (R219, R222, Table 10-1) -/

/-- What a write of SF_CFG stores of the word `w`: the reserved bits [30:24] and [15:13] read 0. -/
def sfCfgStored (w : Nat) : Nat := w - bits w 30 24 * 2 ^ 24 - bits w 15 13 * 2 ^ 13

/-- The extents that no FIFO holds and none of which is mapped out (R222). -/
def Blk.sfFree (b : Blk) : List Nat :=
  (List.range 2048).filter fun e => !((b.fifos.flatMap fun (_, x) => x.extents).contains e) && !(b.pool.mapped.contains e)

theorem Blk.selected_sfFree (p : MPort) : (b.selected p).sfFree = b.sfFree := by cases p <;> rfl

/-- SF_CFG stored with EN still 0: how a refused enable leaves it. -/
def Blk.sfUnset (b : Blk) (f w : Nat) : Blk := b.setReg (sfA f 0) (sfCfgStored w - 2 ^ 31)

/-- The FIFO enabled with the first free extents. -/
def Blk.sfOpened (b : Blk) (f w : Nat) : Blk :=
  ((b.sfUnset f w).setReg (sfA f 0) (sfCfgStored w)).modFifo f fun _ =>
    { state := .run, extents := b.sfFree.take (b.regF (sfA f 1) 11 0) }

theorem sfCfgStored_en {w : Nat} (en : bit w 31 = true) : bit (sfCfgStored w) 31 = true :=
  (sfCut_bit w 31 (.inl rfl)).trans en

theorem Blk.sfUnset_sfCfg (w : Nat) : (b.sfUnset f w).sfCfg f = sfCfgStored w - 2 ^ 31 := Blk.setReg_same _ _ _

theorem Blk.sfUnset_fifo (w : Nat) : (b.sfUnset f w).fifo f = b.fifo f := Blk.setReg_get_fifo _ _ _ _

/-- EN of the word written reads 0 while the FIFO is not enabled, and its side bits are as written. -/
theorem Blk.sfUnset_bits {w : Nat} (en : bit w 31 = true) : bit ((b.sfUnset f w).sfCfg f) 31 = false
    ∧ bit ((b.sfUnset f w).sfCfg f) 3 = bit w 3 ∧ bit ((b.sfUnset f w).sfCfg f) 7 = bit w 7 := by
  obtain ⟨in_, off⟩ := sfOff_bit (sfCfgStored w) 3 (sfCfgStored_en en) (.inl rfl)
  obtain ⟨out, -⟩ := sfOff_bit (sfCfgStored w) 7 (sfCfgStored_en en) (.inr rfl)
  rw [Blk.sfUnset_sfCfg]
  exact ⟨off, in_.trans (sfCut_bit w 3 (.inr (.inl rfl))), out.trans (sfCut_bit w 7 (.inr (.inr rfl)))⟩

theorem Blk.sfUnset_extents (w : Nat) : (b.sfUnset f w).regF (sfA f 1) 11 0 = b.regF (sfA f 1) 11 0 := by
  have other : sfA f 1 ≠ sfA f 0 := by unfold sfA; omega
  unfold Blk.regF Blk.sfUnset
  rw [Blk.setReg_other _ _ _ _ other]

/-- SF_CFG written with EN, without a stream port on either side, and with a size that the pool can have. -/
theorem Blk.sfCfgWrite_entries {w : Nat} (off : bit (b.sfCfg f) 31 = false) (en : bit w 31 = true) (noIn : bit w 3 = false)
    (noOut : bit w 7 = false) (poolOn : b.pool.off = false) (low : 8 ≤ b.regF (sfA f 1) 11 0) (high : b.regF (sfA f 1) 11 0 ≤ 2048) :
    b.sfCfgWrite f w =
      if (b.fifo f).state ≠ .off then (b.sfUnset f w).raise 1 1
      else if b.sfFree.length < b.regF (sfA f 1) 11 0 then (b.sfUnset f w).raise 1 2
      else b.sfOpened f w := by
  obtain ⟨-, in_, out⟩ := Blk.sfUnset_bits (b := b) (f := f) en
  have sfIn : (b.sfUnset f w).sfIn f = none := if_neg (by simp [in_, noIn])
  have sfOut : (b.sfUnset f w).sfOut f = none := if_neg (by simp [out, noOut])
  have fields : w - bits w 30 24 * 2 ^ 24 - bits w 15 13 * 2 ^ 13 = sfCfgStored w := rfl
  have unset : b.setReg (sfA f 0) (sfCfgStored w - 2 ^ 31) = b.sfUnset f w := rfl
  have extents : bits ((b.sfUnset f w).reg (sfA f 1)) 11 0 = b.regF (sfA f 1) 11 0 := Blk.sfUnset_extents w
  have fifo : (b.sfUnset f w).fifo f = b.fifo f := Blk.sfUnset_fifo w
  have fifos : (b.sfUnset f w).fifos = b.fifos := Blk.setReg_fifos _ _ _
  have pool : (b.sfUnset f w).pool = b.pool := Blk.setReg_pool _ _ _
  unfold Blk.sfCfgWrite
  simp only [fields, off, sfCfgStored_en en, unset, sfIn, sfOut, extents, fifo, fifos, pool, poolOn,
    decide_eq_false (Nat.not_lt.mpr low), decide_eq_false (Nat.not_lt.mpr high), Bool.false_eq_true, if_false, Bool.not_true, Bool.or_false,
    Bool.false_or, decide_eq_true_eq]
  rfl

theorem Blk.sfOpened_fifo (w : Nat) :
    (b.sfOpened f w).fifo f = { state := .run, extents := b.sfFree.take (b.regF (sfA f 1) 11 0) } := Blk.modFifo_same _ _ _

theorem Blk.sfOpened_en {w : Nat} (en : bit w 31 = true) : bit ((b.sfOpened f w).sfCfg f) 31 = true := by
  unfold Blk.sfOpened Blk.sfCfg
  rw [Blk.modFifo_get_reg, Blk.setReg_same]
  exact sfCfgStored_en en

/-- A refused enable, answered: the FIFO is as it was, EN reads 0, and the event is pending. -/
theorem Blk.sfUnset_refused {w : Nat} (en : bit w 31 = true) (p : MPort) (e : Nat) :
    (((b.sfUnset f w).raise 1 e).answered p 0#64).fifo f = b.fifo f
    ∧ bit ((((b.sfUnset f w).raise 1 e).answered p 0#64).sfCfg f) 31 = false
    ∧ (((b.sfUnset f w).raise 1 e).answered p 0#64).pends 1 e = true := by
  have msg : Msg (b.sfUnset f w) (((b.sfUnset f w).raise 1 e).answered p 0#64) := (Blk.raise_msg _ 1 e).trans (Blk.answered_msg _ p _)
  obtain ⟨unset, -, -⟩ := Blk.sfUnset_bits (b := b) (f := f) en
  have sfCfg : (((b.sfUnset f w).raise 1 e).answered p 0#64).sfCfg f = (b.sfUnset f w).sfCfg f := msg.get_reg _
  exact ⟨(msg.get_fifo f).trans (Blk.sfUnset_fifo w), by rwa [sfCfg], (Blk.answered_pends p _ 1 e).trans (Blk.raise_pends _ 1 e)⟩

/-- The word of SF_ENABLE sets EN and names the sides that were written. -/
theorem sfEnableWord_bits (old : Nat) {w : Nat} (noIn : bit w 3 = false) (noOut : bit w 7 = false) :
    bit (Fields.word { rw := 0x80FF1FFF } old (Nat.lor w (2 ^ 31))) 31 = true
    ∧ bit (Fields.word { rw := 0x80FF1FFF } old (Nat.lor w (2 ^ 31))) 3 = false
    ∧ bit (Fields.word { rw := 0x80FF1FFF } old (Nat.lor w (2 ^ 31))) 7 = false := by
  have side : ∀ i, i ≠ 31 → bit (Nat.lor w (2 ^ 31)) i = bit w i := fun i other => by
    simp only [bit_eq_testBit]
    exact (Nat.testBit_or w (2 ^ 31) i).trans (by rw [Nat.testBit_two_pow_of_ne other.symm, Bool.or_false])
  refine ⟨?_, ?_, ?_⟩ <;> rw [Fields.bit_word _ _ _ _ (by decide) (by decide) (by decide)]
  · exact bit_lor_self w 31
  · exact (side 3 (by decide)).trans noIn
  · exact (side 7 (by decide)).trans noOut

/-! ## Disabling and closing (R223, Table 10-1) -/

/-- The FIFO once EN has been cleared: CLOSING, with XOFF high. -/
def Blk.sfDisabled (b : Blk) (f : Nat) : Blk :=
  (b.setReg (sfA f 0) (b.sfCfg f - 2 ^ 31)).modFifo f fun x => { x with state := .closing, xoff := true }

/-- Clearing EN leaves the output side as it was configured. -/
theorem Blk.sfDisabled_sfOut (on : bit (b.sfCfg f) 31 = true) : (b.sfDisabled f).sfOut f = b.sfOut f := by
  have stored : (b.sfDisabled f).sfCfg f = b.sfCfg f - 2 ^ 31 := (Blk.modFifo_get_reg _ _ _ _).trans (Blk.setReg_same _ _ _)
  obtain ⟨side, -⟩ := sfOff_bit (b.sfCfg f) 7 on (.inr rfl)
  have port : bits (b.sfCfg f - 2 ^ 31) 6 4 = bits (b.sfCfg f) 6 4 := by
    unfold bit at on
    unfold bits
    simp only [beq_iff_eq] at on
    omega
  unfold Blk.sfOut
  rw [stored, side, port]

section
variable {w : Nat} (on : bit (b.sfCfg f) 31 = true) (off : bit w 31 = false) (enabled : (b.fifo f).state ≠ .off)
include on off enabled

/-- EN of an enabled FIFO written to 0: what follows depends on the output side alone. -/
theorem Blk.sfCfgWrite_disables : b.sfCfgWrite f w =
    ((b.sfDisabled f).sfOut f).elim (b.sfDisabled f) fun n => (b.sfDisabled f).modSport n SPort.cleared := by
  have off' : bit (w - bits w 30 24 * 2 ^ 24 - bits w 15 13 * 2 ^ 13) 31 = false := (sfCut_bit w 31 (.inl rfl)).trans off
  have closing : (b.setReg (sfA f 0) (b.sfCfg f - 2 ^ 31)).modFifo f (fun x =>
      { x with state := if x.state = .off then .off else .closing, xoff := decide (x.state ≠ .off) }) = b.sfDisabled f :=
    Blk.modFifo_congr _ _ _ _ (by rw [Blk.setReg_get_fifo]; simp [enabled])
  unfold Blk.sfCfgWrite
  simp only [on, off', closing, if_true, Bool.false_eq_true, if_false]
  cases (b.sfDisabled f).sfOut f <;> rfl

theorem Blk.sfCfgWrite_closes (noPort : b.sfOut f = none) : b.sfCfgWrite f w = b.sfDisabled f := by
  rw [Blk.sfCfgWrite_disables on off enabled, Blk.sfDisabled_sfOut on, noPort]
  rfl

/-- The words on their way to an output port are discarded (R223). -/
theorem Blk.sfCfgWrite_clears {n : Nat} (port : b.sfOut f = some n) :
    b.sfCfgWrite f w = (b.sfDisabled f).modSport n SPort.cleared := by
  rw [Blk.sfCfgWrite_disables on off enabled, Blk.sfDisabled_sfOut on, port]
  rfl

end

theorem Blk.selected_sfDisabled (p : MPort) : (b.selected p).sfDisabled f =
    ((b.selected p).setReg (sfA f 0) (b.sfCfg f - 2 ^ 31)).modFifo f fun x => { x with state := .closing, xoff := true } := by
  cases p <;> rfl

/-- With no holder, no waiter and both crossing buffers empty, a CLOSING FIFO is OFF. -/
theorem sfCloseDoneB_ends (closing : (b.fifo f).state = .closing) (producer : (b.fifo f).producer = none)
    (consumer : (b.fifo f).consumer = none) (prodWait : (b.fifo f).prodWait = []) (consWait : (b.fifo f).consWait = [])
    (crossed : ∀ n, b.sfIn f = some n ∨ b.sfOut f = some n → (b.sport n).xbuf = []) :
    sfCloseDoneB f b = b.sfOff f := by
  have sideEmpty : ∀ side, (∀ n, side = some n → (b.sport n).xbuf = []) →
      (match side with | some n => (b.sport n).xbuf.isEmpty | none => true) = true := fun side empty => by
    cases side with
    | none => rfl
    | some n => exact List.isEmpty_iff.mpr (empty n rfl)
  have inEmpty := sideEmpty (b.sfIn f) fun n h => crossed n (.inl h)
  have outEmpty := sideEmpty (b.sfOut f) fun n h => crossed n (.inr h)
  refine if_pos ?_
  simp only [closing, producer, consumer, prodWait, consWait, decide_true, Option.isNone_none, List.isEmpty_nil, Bool.true_and,
    Bool.and_eq_true]
  exact ⟨inEmpty, outEmpty⟩

/-! ## SF_CMD (R234, R236, R237) -/

section
variable (live : (b.fifo f).state = .run ∨ (b.fifo f).state = .held)
include live

/-- FLUSH of a FIFO that no input port fills. -/
theorem Blk.sfFlush_unmarked (noPort : b.sfIn f = none) (unmarked : b.sfMarked f = false) : b.sfFlush f =
    b.modFifo f fun x => x.flushed (b.sfPacket f) (x.consumer.isSome && b.sfPacket f) false [] := by
  unfold Blk.sfMarked at unmarked
  unfold Blk.sfFlush
  simp only [Blk.sfLive_of live, noPort, unmarked, Bool.not_true, Bool.false_eq_true, if_false]
  rfl

/-- The rewind mark is lost with its event (R237, R239). -/
theorem Blk.sfFlush_marked (noPort : b.sfIn f = none) (marked : b.sfMarked f = true) : b.sfFlush f =
    (b.modFifo f fun x => x.flushed (b.sfPacket f) (x.consumer.isSome && b.sfPacket f) true []).raiseAt 27 f := by
  unfold Blk.sfMarked at marked
  unfold Blk.sfFlush
  simp only [Blk.sfLive_of live, noPort, marked, Bool.not_true, Bool.false_eq_true, if_false, if_true]
  rfl

/-- The words of the input port that the core side sees go as well (R237). -/
theorem Blk.sfFlush_crossed {n : Nat} (port : b.sfIn f = some n) (unmarked : b.sfMarked f = false) : b.sfFlush f =
    (b.modSport n fun y => y.take (min y.takeCount y.xbuf.length)).modFifo f fun x =>
      x.flushed (b.sfPacket f) (x.consumer.isSome && b.sfPacket f) false ((b.sport n).xbuf.take (b.sport n).takeCount) := by
  have unmarked' : (!(b.fifo f).marked.isEmpty || (b.modSport n fun y => y.take (min y.takeCount y.xbuf.length)).sfMarkHeld f) = false :=
    unmarked
  unfold Blk.sfFlush
  simp only [Blk.sfLive_of live, port, Blk.modSport_get_fifo, unmarked', Bool.not_true, Bool.false_eq_true, if_false]
  rfl

theorem Blk.sfDropRem_stream (stream : b.sfPacket f = false) (unread : (b.fifo f).unread ≠ []) : b.sfDropRem f =
    (b.modFifo f fun x => { x with unread := [], dropped := incr 8 x.dropped }).sfFreed f := by
  unfold Blk.sfDropRem
  simp [Blk.sfLive_of live, stream, unread]

theorem Blk.sfCloseTail_stream (stream : b.sfPacket f = false) (part : (b.fifo f).part ≠ []) : b.sfCloseTail f =
    (b.modFifo f Fifo.tailClosed).sfNotify f := by
  have part' : (b.fifo f).part.isEmpty = false := List.isEmpty_eq_false_iff.mpr part
  unfold Blk.sfCloseTail Blk.sfClose
  simp only [Blk.sfLive_of live, stream, part', Bool.false_eq_true, if_false, if_true]
  rfl

end

/-! ## The time limit of a tail (R234) -/

theorem staleTailB_timed (limit : b.regF (sfA f 3) 15 0 ≠ 0) (refclk : b.clock.refLost = false) : staleTailB f b = b.sfCloseTail f :=
  if_pos (by simp [limit, refclk])

theorem staleTailB_never (never : b.regF (sfA f 3) 15 0 = 0) : staleTailB f b = b := if_neg (by simp [never])

end

/-- Settles O41: each write of SF_CFG and SF_CMD by its row and the state of the FIFO, the rest by their conditions. -/
theorem fifosOpenAndClose : Obligations.FifosOpenAndClose := by
  rintro s f _ hs hf rfl
  refine ⟨fun p w free opens off noIn noOut free_eq poolOn low high => ?enable, fun p room sem on7 on enabled => ?disable,
    fun closing producer consumer prodWait consWait crossed =>
      hs.does (by simp [hf]) (sfCloseDoneB_ends closing producer consumer prodWait consWait crossed),
    fun p opens live => ?commands,
    fun limit refclk live stream part => hs.does (by simp [hf])
      ((staleTailB_timed limit refclk).trans (Blk.sfCloseTail_stream live stream part)),
    fun never => hs.does (by simp [hf]) (staleTailB_never never)⟩
  case enable =>
    obtain ⟨en, noIn', noOut'⟩ := sfEnableWord_bits (s.core.reg (0x0F000 + 32 * f)) noIn noOut
    have does := row_sfEnable s p f w hs hf opens
    generalize Fields.word _ _ _ = v at does en noIn' noOut'
    have off' : bit ((s.core.selected p).sfCfg f) 31 = false := by rw [Blk.selected_sfCfg]; exact off
    have extents := Blk.selected_extents (b := s.core) (f := f) p
    have free_eq' : (s.core.selected p).sfFree = free := (Blk.selected_sfFree p).trans free_eq.symm
    rw [Blk.sfCfgWrite_entries off' en noIn' noOut' (by rw [Blk.selected_pool]; exact poolOn) (by rwa [extents]) (by rwa [extents]),
      Blk.selected_fifo, extents, free_eq'] at does
    have refused := Blk.sfUnset_refused (b := s.core.selected p) (f := f) en p
    refine ⟨fun offState fits => ?_, fun busy => ?_, fun offState short => ?_⟩
    · rw [if_neg (Classical.not_not.mpr offState), if_neg (Nat.not_lt.mpr fits)] at does
      have msg := Blk.answered_msg ((s.core.selected p).sfOpened f v) p 0#64
      refine ⟨_, does, ?_, ?_⟩
      · rw [msg.get_fifo, Blk.sfOpened_fifo, extents, free_eq']
      · exact (congrArg (bit · 31) (msg.get_reg _)).trans (Blk.sfOpened_en en)
    · rw [if_pos busy] at does
      exact ⟨_, does, by rw [← Blk.selected_fifo (b := s.core) p]; exact refused 1⟩
    · rw [if_neg (Classical.not_not.mpr offState), if_pos short] at does
      exact ⟨_, does, by rw [← Blk.selected_fifo (b := s.core) p]; exact refused 2⟩
  case disable =>
    obtain ⟨w, off, does⟩ := row_sfDisable s p f hs hf room sem on7
    have on' : bit ((s.core.selected p).sfCfg f) 31 = true := by rwa [Blk.selected_sfCfg]
    have enabled' : ((s.core.selected p).fifo f).state ≠ .off := by rwa [Blk.selected_fifo]
    refine ⟨fun noPort => ?_, fun n port => ?_⟩
    · rwa [Blk.sfCfgWrite_closes on' off enabled' (by rwa [Blk.selected_sfOut]), Blk.selected_sfDisabled] at does
    · rwa [Blk.sfCfgWrite_clears on' off enabled' (by rwa [Blk.selected_sfOut]), Blk.selected_sfDisabled] at does
  case commands =>
    have live' : ((s.core.selected p).fifo f).state = .run ∨ ((s.core.selected p).fifo f).state = .held := by
      rwa [Blk.selected_fifo]
    have flush := row_flush s p f hs hf opens
    have dropRem := row_dropRem s p f hs hf opens
    have closeTail := row_closeTail s p f hs hf opens
    refine ⟨fun noPort => ⟨fun unmarked => ?_, fun marked => ?_⟩, fun n port unmarked => ?_, fun stream unread => ?_,
      fun stream part => ?_⟩
    · rwa [Blk.sfFlush_unmarked live' (by rwa [Blk.selected_sfIn]) (by rwa [Blk.selected_sfMarked]), Blk.selected_sfPacket] at flush
    · rwa [Blk.sfFlush_marked live' (by rwa [Blk.selected_sfIn]) (by rwa [Blk.selected_sfMarked]), Blk.selected_sfPacket] at flush
    · rwa [Blk.sfFlush_crossed live' (by rwa [Blk.selected_sfIn]) (by rwa [Blk.selected_sfMarked]), Blk.selected_sfPacket,
        Blk.selected_sport] at flush
    · rwa [Blk.sfDropRem_stream live' (by rwa [Blk.selected_sfPacket]) (by rwa [Blk.selected_fifo])] at dropRem
    · rwa [Blk.sfCloseTail_stream live' (by rwa [Blk.selected_sfPacket]) (by rwa [Blk.selected_fifo])] at closeTail

/-! ## An edge at an input port (R224, R227, R228) -/

section
variable {b : Blk} {n : Nat} {w : StreamWord}

theorem Blk.spInEdge_none :
    ((b.spInEdge n none).sport n).xbuf = (b.sport n).xbuf ∧ ((b.spInEdge n none).sport n).wp = (b.sport n).wp := by
  unfold Blk.spInEdge
  rw [Blk.modSport_same]
  exact ⟨rfl, rfl⟩

/-- A word that transfers joins the crossing buffer (R228). -/
theorem Blk.spInEdge_put (pin : b.spPin n false = true) (w : StreamWord) :
    ((b.spInEdge n (some w)).sport n).xbuf = (b.sport n).xbuf ++ [w]
    ∧ ((b.spInEdge n (some w)).sport n).wp = ((b.sport n).wp + 1) % 128 := by
  unfold Blk.spInEdge
  rw [Blk.modSport_same, pin]
  exact ⟨rfl, rfl⟩

/-- A word that is the last or has all 16 bytes is not short (Table 10-3). -/
theorem StreamWord.not_short (full : w.last = true ∨ w.inb = 15) : (!w.last && decide (w.inb ≠ 15)) = false :=
  Bool.and_eq_false_iff.mpr (full.imp (fun last => by rw [last]; rfl) fun all => decide_eq_false (Classical.not_not.mpr all))

theorem spWordInB_withdrawn (withdrawn : w.withdrawn = true) (enabled : bit (b.spCfg n) 31 = true) (input : bit (b.spCfg n) 30 = false) :
    spWordInB n w b = (b.modSport n fun x => { x with withdraw := incr 8 x.withdraw }).spInEdge n none := by
  unfold spWordInB
  simp [withdrawn, enabled, input]

theorem spWordInB_low (offered : w.withdrawn = false) (pin : b.spPin n false = false) : spWordInB n w b = b.spInEdge n none := by
  unfold spWordInB
  simp [offered, pin]

section
variable (offered : w.withdrawn = false) (pin : b.spPin n false = true)
include offered pin

theorem spWordInB_good (parity : w.parityBad = false ∨ bit (b.spCfg n) 29 = false) (full : w.last = true ∨ w.inb = 15) :
    spWordInB n w b = b.spInEdge n (some { w with parityBad := false }) := by
  have parity' : (w.parityBad && bit (b.spCfg n) 29) = false := Bool.and_eq_false_iff.mpr parity
  have full' := StreamWord.not_short full
  unfold spWordInB
  simp only [offered, pin, parity', full', Bool.not_true, Bool.or_self, Bool.false_eq_true, if_false]

theorem spWordInB_parity (bad : w.parityBad = true) (checked : bit (b.spCfg n) 29 = true) (full : w.last = true ∨ w.inb = 15) :
    spWordInB n w b =
      ((b.modSport n fun x => { x with parity := incr 8 x.parity }).raiseAt 11 n).spInEdge n (some { w with parityBad := true }) := by
  have full' := StreamWord.not_short full
  unfold spWordInB
  simp only [offered, pin, bad, checked, full', Bool.not_true, Bool.and_self, Bool.or_false, Bool.false_eq_true, if_false, if_true]

theorem spWordInB_short (parity : w.parityBad = false ∨ bit (b.spCfg n) 29 = false) (inner : w.last = false) (part : w.inb ≠ 15) :
    spWordInB n w b =
      ((b.modSport n fun x => { x with short := incr 8 x.short }).raiseAt 11 n).spInEdge n (some { w with parityBad := true }) := by
  have parity' : (w.parityBad && bit (b.spCfg n) 29) = false := Bool.and_eq_false_iff.mpr parity
  unfold spWordInB
  simp [offered, pin, parity', inner, part]

end

/-! ## An edge at an output port (R224, R226, R228) -/

/-- FIFO `f` once the port has sent the word `w` of it: a bad one is counted (R226). -/
def Blk.sfSent (b : Blk) (f : Nat) (w : StreamWord) : Blk :=
  b.modFifo f fun x => { x with poisoned := if w.parityBad then incr 8 x.poisoned else x.poisoned }

/-- Counting a word in its FIFO changes no FIFO's state, so the pins of the stream ports stand. -/
theorem Blk.sfSent_spPin (f : Nat) (w : StreamWord) (n : Nat) (out : Bool) : (b.sfSent f w).spPin n out = b.spPin n out := by
  have state : ∀ g, ((b.sfSent f w).fifo g).state = (b.fifo g).state := fun g => by
    by_cases same : g = f
    · rw [same, Blk.sfSent, Blk.modFifo_same]
    · rw [Blk.sfSent, Blk.modFifo_other _ _ _ _ same]
  have closing : (b.sfSent f w).spClosing n = b.spClosing n := by
    unfold Blk.spClosing
    simp only [state]
    rfl
  unfold Blk.spPin
  rw [closing]
  rfl

theorem Blk.spOutEdge_low (pin : b.spPin n true = false) (take : Bool) :
    ((b.spOutEdge n take).sport n).xbuf = (b.sport n).xbuf ∧ ((b.spOutEdge n take).sport n).rp = (b.sport n).rp := by
  unfold Blk.spOutEdge
  rw [Blk.modSport_same, pin]
  exact ⟨rfl, rfl⟩

/-- The oldest word of the crossing buffer leaves (R228). -/
theorem Blk.spOutEdge_takes {rest : List StreamWord} (pin : b.spPin n true = true) (front : (b.sport n).xbuf = w :: rest) :
    ((b.spOutEdge n true).sport n).xbuf = rest ∧ ((b.spOutEdge n true).sport n).rp = ((b.sport n).rp + 1) % 128 := by
  unfold Blk.spOutEdge
  rw [Blk.modSport_same, pin]
  exact ⟨congrArg (List.drop 1) front, rfl⟩

theorem spWordOutB_low (pin : b.spPin n true = false) (damage : Bool) : spWordOutB n damage b = (b.spOutEdge n true).poolHit n damage := by
  unfold spWordOutB
  rw [pin]

theorem spWordOutB_sends {rest : List StreamWord} {f : Nat} (pin : b.spPin n true = true) (front : (b.sport n).xbuf = w :: rest)
    (named : b.sfOfPort n false = some f) (damage : Bool) :
    spWordOutB n damage b = ((b.sfSent f w).spOutEdge n true).poolHit n damage := by
  unfold spWordOutB
  rw [pin, front, named]
  rfl

/-! ## The clock of a port and its stall (R227, Table 10-3) -/

/-- The breach raises its event when the mark was not set. -/
theorem spClkMeasureB_breach {kHz : Nat} (refclk : b.clock.refLost = false) (on7 : b.on 7 = true) (port : n < 8) (fast : 816000 < kHz)
    (fresh : (b.sport n).range = false) : spClkMeasureB n kHz b =
      (b.modSport n fun x => { x with mhz := min 1023 (kHz / 1000), range := true, idle := false }).raise 12 n := by
  have place : 12 + n / 16 = 12 ∧ n % 16 = n := by omega
  obtain ⟨group, event⟩ := place
  have turns : kHz ≠ 0 := by omega
  unfold spClkMeasureB Blk.raiseAt
  simp [refclk, on7, fast, fresh, turns, group, event]

theorem spClkMeasureB_inRange {kHz : Nat} (refclk : b.clock.refLost = false) (on7 : b.on 7 = true) (slow : kHz ≤ 800000) :
    spClkMeasureB n kHz b = b.modSport n fun x => { x with mhz := kHz / 1000, range := false, idle := decide (kHz = 0) } := by
  have bad : decide (816000 < kHz) = false := decide_eq_false (by omega)
  have marked : decide (800000 < kHz) = false := decide_eq_false (by omega)
  have mhz : min 1023 (kHz / 1000) = kHz / 1000 := by omega
  unfold spClkMeasureB
  simp [refclk, on7, bad, marked, mhz]

theorem spStallB_counts (refclk : b.clock.refLost = false) (on7 : b.on 7 = true) (enabled : bit (b.spCfg n) 31 = true)
    (timed : bits (b.spCfg n) 15 0 ≠ 0) : spStallB n b = (b.modSport n fun x => { x with tmo := incr 8 x.tmo }).raise 11 (8 + n) :=
  if_pos (by simp [refclk, on7, enabled, timed])

end

/-- Settles O42: a word in by what it is, a word out by the pin, the clock by its measurement. -/
theorem streamPortsFollowTheTable : Obligations.StreamPortsFollowTheTable := by
  rintro s n _ hs hn on7 rfl
  have wordIn : ∀ {w : StreamWord} {b : Blk}, w.wf = true → spWordInB n w s.core = b → Does (.spWordIn n w) s b :=
    fun wf h => hs.does (by simp [hn, wf]) h
  have wordOut : ∀ {d : Bool} {b : Blk}, spWordOutB n d s.core = b → Does (.spWordOut n d) s b := fun h => hs.does (by simp [hn]) h
  refine ⟨fun w wf => ⟨fun withdrawn enabled input => wordIn wf (spWordInB_withdrawn withdrawn enabled input),
      fun offered pin => wordIn wf (spWordInB_low offered pin),
      fun offered pin => ⟨fun parity full => wordIn wf (spWordInB_good offered pin parity full),
        fun bad checked full => wordIn wf (spWordInB_parity offered pin bad checked full),
        fun parity inner part => wordIn wf (spWordInB_short offered pin parity inner part),
        Blk.spInEdge_put pin⟩⟩,
    Blk.spInEdge_none,
    fun d pin => ⟨wordOut (spWordOutB_low pin d), Blk.spOutEdge_low pin true⟩,
    fun d w rest f pin front named => ⟨wordOut (spWordOutB_sends pin front named d), ?sent⟩,
    fun refclk => ⟨fun kHz fast fresh => ?breach, fun kHz slow => ?inRange, fun enabled timed => ?stall⟩⟩
  case sent =>
    exact Blk.spOutEdge_takes (b := s.core.sfSent f w) ((Blk.sfSent_spPin f w n true).trans pin) front
  case breach =>
    obtain ⟨does, msg, pends⟩ := runRow_raise (.spClkMeasure n kHz) _ s _ _ _ hs.functional (by simp [hn])
      (spClkMeasureB_breach refclk on7 hn fast fresh) hs.not_reload
    exact ⟨_, does, by rw [msg.get_sport, Blk.modSport_same], msg, pends⟩
  case inRange =>
    exact hs.does (by simp [hn]) (spClkMeasureB_inRange refclk on7 slow)
  case stall =>
    exact runRow_raise _ _ s _ _ _ hs.functional (by simp [hn]) (spStallB_counts refclk on7 enabled timed) hs.not_reload

end Sys2Proof.Machine

/-! SUPPORT. Proofs of the statements of the stopping family: the points a stopping queue reaches and its end, and movers that
retire and ports that drain. -/

namespace Sys2Proof.Machine
open Sys2Proof

/-! ## The points of a stopping queue (R244, R245, R247, R248, R249) -/

section
variable {b : Blk} {q : QRef} {a : Stop} (acting : (b.queue q).acting = some a) (stopping : (b.queue q).run.phase = .stopping)
include acting stopping

theorem stopPhaseReachedB_drains (mode : a.mode = .atPhase) (passed : b.stopPhase a = true) :
    stopPhaseReachedB q b = b.modQueue q fun x => { x with acting := some { a with mode := .drain } } := by
  unfold stopPhaseReachedB
  rw [acting]
  exact if_pos ⟨mode, stopping, passed⟩

section
variable (reached : (b.queue q).ending = .draining ∧ a.mode.hard = true ∧ b.execStopped q = true)
include reached

section
variable (mode : a.mode = .pause) {c : Blk} (traced : c = b.traceQ 2 q (a.mode.code + 128))
include mode traced

/-- A queue without a binding has no write that waits for a flush. -/
theorem stopPointReachedB_pauses_unbound (unbound : c.boundAt q = none) :
    stopPointReachedB q b = (c.modQueue q fun x => { x with ending := .settling }).pauseSettled q := by
  subst traced
  unfold stopPointReachedB
  simp only [acting, if_pos (And.intro stopping reached), if_pos mode, unbound]

/-- A flush goes out for each pair written through the binding that needs one. -/
theorem stopPointReachedB_pauses_bound {m k : Nat} (bound : c.boundAt q = some (m, k)) {c' : Blk}
    (settling : c' = c.modQueue q fun x => { x with ending := .settling }) :
    stopPointReachedB q b = (c'.fenceFlush m k q ((c'.pairsOf m k).filter (·.needFlush))).pauseSettled q := by
  subst settling traced
  unfold stopPointReachedB
  simp only [acting, if_pos (And.intro stopping reached), if_pos mode, bound]

end

/-- ABORT and DISABLE (R248, R249) settle nothing: the waiting entries go back and the entry at its stop point leaves. -/
theorem stopPointReachedB_ends (mode : a.mode ≠ .pause) :
    stopPointReachedB q b = ((((b.traceQ 2 q (a.mode.code + 128)).lbufToMews q).abortEntry q a.mode).modQueue q fun x =>
      { x with ending := .publishing }).settleCheck q := by
  unfold stopPointReachedB
  simp only [acting, if_pos (And.intro stopping reached), if_neg mode]

end

/-! ## The end of a stop (R250) -/

/-- DRAIN and PAUSE discard nothing, so only the notice, the binding, the waiters and the phase change. -/
theorem queueStoppedB_keepsEntries (mode : a.mode = .drain ∨ a.mode = .pause) (done : b.stopDone q = true) :
    queueStoppedB q b = ((((((b.lbufToMews q).writeNotice q).freeBinding q 31).dropWaiters q).modQueue q fun y =>
      { y with ending := .none, run := { y.run with phase := if y.dying then .destroying else .stopped, chainTimer := false } }
      ).traceQ 2 q (a.mode.code + 128)).unStop q := by
  obtain ⟨notAbort, notDisable⟩ : a.mode ≠ .abort ∧ a.mode ≠ .disable := by
    obtain mode | mode := mode <;> rw [mode] <;> decide
  unfold queueStoppedB
  simp only [if_pos (And.intro stopping done), acting, Option.map_some, Option.getD_some, notAbort, notDisable, or_self, if_false]

end

/-- Settles O43: each point by the mode of the stop the queue acts on, PAUSE by whether the queue is bound. -/
theorem stopsReachTheirPoints : Obligations.StopsReachTheirPoints := by
  rintro s q _ hs hq rfl
  refine ⟨fun a acting mode stopping passed => ?phase, fun a b acting mode stopping draining atStop traced => ?pause,
    fun a acting mode stopping draining atStop => ?hard, fun a acting mode stopping done => ?stopped⟩
  case phase =>
    exact hs.does (by simp [hq]) (stopPhaseReachedB_drains acting stopping mode passed)
  case pause =>
    have reached : (s.core.queue q).ending = .draining ∧ a.mode.hard = true ∧ s.core.execStopped q = true :=
      ⟨draining, by rw [mode]; rfl, atStop⟩
    have coded : b = s.core.traceQ 2 q (a.mode.code + 128) := by rw [mode]; exact traced
    exact ⟨fun unbound => hs.does (by simp [hq]) (stopPointReachedB_pauses_unbound acting stopping reached mode coded unbound),
      fun m k c bound settling =>
        hs.does (by simp [hq]) (stopPointReachedB_pauses_bound acting stopping reached mode coded bound settling)⟩
  case hard =>
    obtain ⟨hard, notPause⟩ : a.mode.hard = true ∧ a.mode ≠ .pause := by
      obtain mode | mode := mode <;> rw [mode] <;> decide
    exact hs.does (by simp [hq]) (stopPointReachedB_ends acting stopping ⟨draining, hard, atStop⟩ notPause)
  case stopped =>
    exact hs.does (by simp [hq]) (queueStoppedB_keepsEntries acting stopping mode done)

/-! ## Movers that retire (R256, R260) -/

section
variable {b : Blk} {m : Nat}

/-- A mover without a binding has nothing to move away. -/
theorem Blk.quiesce_unbound (unbound : (b.mover m).places = []) : b.quiesce m = b := by
  have boundTo : b.boundTo m = [] := by
    unfold Blk.boundTo
    rw [unbound]
    rfl
  have moveOrder : b.moveOrder [] = [] := by simp [Blk.moveOrder]
  unfold Blk.quiesce
  simp [boundTo, moveOrder]

theorem Blk.retireMover_spare (spare : (b.mover m).state = .spare) :
    b.retireMover m = b.modMover m fun v => { v with state := .retired } := by
  unfold Blk.retireMover
  rw [spare]

theorem Blk.retireMover_active (active : (b.mover m).state = .active) (unbound : (b.mover m).bind = []) :
    b.retireMover m = (b.modMover m fun v => { v with state := .quiescing }).quiesce m := by
  have noPlace : ((b.modMover m fun v => { v with state := .quiescing }).mover m).places = [] := by
    rw [Blk.modMover_same]
    unfold Mover.places
    rw [unbound]
    rfl
  unfold Blk.retireMover
  simp only [active, noPlace, List.foldl_nil]

section
variable (quiescing : (b.mover m).state = .quiescing) (unbound : (b.mover m).places = []) (idle : b.moverBusy m = false)
include quiescing unbound idle

/-- A quiesced mover with nothing left retires; a stop of the mover decides whether a spare takes its place. -/
theorem moverRetiredB_retires : moverRetiredB m b =
    if (b.mover m).stop.isSome then b.modMover m fun v => { v with state := .retired }
    else (b.modMover m fun v => { v with state := .retired }).promoteSpare := by
  unfold moverRetiredB
  simp [Blk.quiesce_unbound unbound, quiescing, unbound, idle]

theorem moverRetiredB_held (held : (b.mover m).stop ≠ none) :
    moverRetiredB m b = b.modMover m fun v => { v with state := .retired } := by
  rw [moverRetiredB_retires quiescing unbound idle, if_pos (Option.isSome_iff_ne_none.mpr held)]

theorem moverRetiredB_promotes (free : (b.mover m).stop = none) :
    moverRetiredB m b = (b.modMover m fun v => { v with state := .retired }).promoteSpare := by
  rw [moverRetiredB_retires quiescing unbound idle, free]
  rfl

end

end

/-! ## Ports that drain (R257, R258, R261) -/

section
variable {b : Blk} {mask : Nat}

theorem Blk.selected_drainMask (p : MPort) : (b.selected p).drainMask mask = b.drainMask mask := by cases p <;> rfl

theorem Blk.selected_leavesAPort (p : MPort) : (b.selected p).leavesAPort mask = b.leavesAPort mask := by cases p <;> rfl

/-- A write of DPT_DRAIN that sets and clears no port's bit. -/
theorem Blk.drainWrite_unchanged (left : b.leavesAPort mask = true)
    (same : ∀ n, n < 8 → bit (b.drainMask mask) n = bit (b.reg 0x12320) n) :
    b.drainWrite mask = (b.setReg 0x12320 (b.drainMask mask)).keepPorts b := by
  have noneNew : (List.range 8).filter (fun n => bit (b.drainMask mask) n && !(bit (b.reg 0x12320) n)) = [] := by
    simpa using fun n hn h => (same n hn).symm.trans h
  have noneBack : (List.range 8).filter (fun n => !(bit (b.drainMask mask) n) && bit (b.reg 0x12320) n) = [] := by
    simpa using fun n hn h => (same n hn).symm.trans h
  unfold Blk.leavesAPort at left
  unfold Blk.drainWrite
  simp only [left, noneNew, noneBack, List.foldl_nil, Bool.not_true, Bool.false_eq_true, if_false]

/-- A drained port that no stop holds is marked idle once it holds nothing, and its half with it. -/
theorem portIdleB_drained {n : Nat} (nothing : (b.port n).nothing = true) (unstopped : (b.port n).stop = none)
    (draining : bit (b.reg 0x12320) n = true) {c : Blk} (idle : c = b.modPort n fun v => { v with idle := true }) :
    portIdleB n b =
      if ((List.range 4).all fun i => (c.port (4 * (n / 4) + i)).idle || !(c.portPowered (4 * (n / 4) + i))) then
        { c with halfIdle := addOnce (n / 4) c.halfIdle }
      else c := by
  subst idle
  unfold portIdleB
  simp only [nothing, unstopped, draining, Option.isSome_none, Bool.false_and, Bool.or_false, Bool.false_or, Bool.and_self,
    Bool.false_eq_true, if_false, if_true]

end

/-- Settles O44: the retire command by the state of its mover, its end by whether a stop holds the mover, the drained ports by
what the mask changes and by whether the whole half is idle. -/
theorem moversRetireAndPortsDrain : Obligations.MoversRetireAndPortsDrain := by
  intro s p hs
  refine ⟨fun m hm opens keyed => ?retire, fun m hm quiescing held unbound idle => ?held,
    fun m hm quiescing free unbound idle => ?free, fun mask hmask opens keyed => ?drain,
    fun n b hn nothing unstopped draining idle => ?portIdle⟩
  case retire =>
    have does := row_movRetire s p m hs hm opens keyed
    have mover : ((s.core.selected p).setReg 0x11208 m).mover m = s.core.mover m := Blk.modSide_get_mover s.core p _ m
    refine ⟨fun spare => ?_, fun active unbound => ?_⟩
    · rwa [Blk.retireMover_spare (by rwa [mover])] at does
    · rwa [Blk.retireMover_active (by rwa [mover]) (by rwa [mover])] at does
  case held =>
    exact hs.does (by simp [hm]) (moverRetiredB_held quiescing unbound idle held)
  case free =>
    exact hs.does (by simp [hm]) (moverRetiredB_promotes quiescing unbound idle free)
  case drain =>
    have does := row_dptDrain s p mask hs hmask opens keyed
    refine ⟨fun left same => ?_, fun _ => does⟩
    have reg : (s.core.selected p).reg 0x12320 = s.core.reg 0x12320 := Blk.modSide_get_reg s.core p _ _
    rwa [Blk.drainWrite_unchanged (by rwa [Blk.selected_leavesAPort]) (by rwa [Blk.selected_drainMask, reg]),
      Blk.selected_drainMask] at does
  case portIdle =>
    have ends := portIdleB_drained nothing unstopped draining idle
    refine ⟨fun half => ?_, fun other => ?_⟩
    · exact hs.does (by simp [hn]) (ends.trans (if_pos half))
    · exact hs.does (by simp [hn]) (ends.trans (if_neg (Bool.eq_false_iff.mp other)))

end Sys2Proof.Machine

/-! SUPPORT. Proofs of the statements about every step: what each command answers, the invariant of the pins, power-on reset
and the test modes. -/

namespace Sys2Proof.Machine
open Sys2Proof

/-! ## What `run` answers -/

/-- In the functional mode `run` answers a state that differs in the block and its pins alone, whether the command is well
formed or not. -/
theorem run_answers (i : Instr) (f : Blk → Blk) (s : State) (ht : s.testMode = 0) :
    ∃ t, run i f s = .next t ∧ t.pending = s.pending ∧ t.testMode = s.testMode ∧ t.slow = s.slow := by
  cases hw : i.wf
  · exact ⟨s, run_illFormed i f s ht hw, rfl, rfl, rfl⟩
  · exact ⟨_, run_next i f s ht hw, rfl, rfl, rfl⟩

/-! ## Power-on reset (R335, Table 2-11) -/

/-- The counter of free values drives no pin. -/
theorem freeNo_pins (n : Nat) : Blk.pins { freeNo := n } = State.reset.pins :=
  (show Blk.pins { freeNo := n } = State.reset.core.pins from rfl).trans reset_pins.symm

theorem execPowerOnReset_sampled (m : Nat) (s : State) (hm : m < 4) : Sys2Proof.Machine.exec (.powerOnReset m) s =
    .next { core := { freeNo := s.core.freeNo }, slow := {}, testMode := m, pins := State.reset.pins, pending := s.pending } := by
  rw [← freeNo_pins s.core.freeNo]
  exact if_pos hm

/-- A value that TEST_MODE's pins cannot carry changes nothing. -/
theorem execPowerOnReset_unsampled (m : Nat) (s : State) (hm : ¬ m < 4) : Sys2Proof.Machine.exec (.powerOnReset m) s = .next s :=
  if_neg hm

/-! ## The invariant of the pins -/

/-- The queue of waiting commands drives no pin. -/
theorem State.Inv.withPending {s : State} (hi : s.Inv) (rest : List Instr) : State.Inv { s with pending := rest } where
  pins := { hi.pins with }
  mode := hi.mode

theorem powerOnReset_inv {m : Nat} {s t : State} (hi : s.Inv) (h : Sys2Proof.Machine.exec (.powerOnReset m) s = .next t) : t.Inv := by
  by_cases hm : m < 4
  · rw [execPowerOnReset_sampled m s hm] at h
    cases h
    exact ⟨Blk.pins_follow _ (freeNo_pins s.core.freeNo).symm, hm⟩
  · rw [execPowerOnReset_unsampled m s hm] at h
    cases h
    exact hi

theorem exec_inv {c : Instr} {s t : State} (hi : s.Inv) (h : Sys2Proof.Machine.exec c s = .next t) : t.Inv := by
  by_cases reset : ∃ m, c = .powerOnReset m
  · obtain ⟨m, rfl⟩ := reset
    exact powerOnReset_inv hi h
  · obtain ⟨f, hf⟩ := exec_form c s (not_exists.mp reset)
    exact run_inv c f s t hi (hf ▸ h)

/-- One MCLK cycle drives the pins anew from the block it leaves. -/
theorem idleStep_inv {s t : State} (hi : s.Inv) (h : idleStep s = .next t) : t.Inv := by
  by_cases ht : s.testMode = 0
  · rw [idleStep_next s ht] at h
    cases h
    exact ⟨Blk.pins_follow _ rfl, hi.mode⟩
  · rw [idleStep, if_pos ht] at h
    cases h

/-! ## The statements -/

/-- Settles O5: a step is a command on the rest of the queue or one MCLK cycle, and each ends with the pins driven from its block. -/
theorem pinsFollowEveryStep : Obligations.PinsFollowEveryStep := by
  intro s t hi h
  cases hp : s.pending with
  | nil => exact idleStep_inv hi ((step_of_pending_nil s hp).symm.trans h)
  | cons c rest =>
    unfold Sys2Proof.Machine.step at h
    rw [hp] at h
    exact exec_inv (hi.withPending rest) h

/-- Settles O1: the step takes the front command off the queue. -/
theorem stepRunsTheFrontCommand : Obligations.StepRunsTheFrontCommand := by
  intro c rest s hp
  unfold Sys2Proof.Machine.step
  rw [hp]

/-- Settles O3: every command but the power-on reset is a `run`, and the reset answers by whether TEST_MODE is a value of its pins. -/
theorem commandsAnswer : Obligations.CommandsAnswer := by
  intro c s ht
  by_cases reset : ∃ m, c = .powerOnReset m
  · obtain ⟨m, rfl⟩ := reset
    have other : ∀ {P : Prop}, (∀ n, Instr.powerOnReset m ≠ .powerOnReset n) → P := fun h => absurd rfl (h m)
    by_cases hm : m < 4
    · exact ⟨_, execPowerOnReset_sampled m s hm, rfl, other⟩
    · exact ⟨s, execPowerOnReset_unsampled m s hm, rfl, other⟩
  · obtain ⟨f, hf⟩ := exec_form c s (not_exists.mp reset)
    obtain ⟨t, answers, pending, mode, slow⟩ := run_answers c f s ht
    exact ⟨t, hf.trans answers, pending, fun _ => ⟨mode.trans ht, slow⟩⟩

/-- Settles O7: the reset block differs from the block of `State.reset` in the counter of free values alone. -/
theorem powerOnResetClears : Obligations.PowerOnResetClears := execPowerOnReset_sampled

/-- Settles O9: `run` and the idle step both look at TEST_MODE first. -/
theorem testModeStops : Obligations.TestModeStops := by
  intro s ht
  refine ⟨fun c other => ?_, fun hp => ?_⟩
  · obtain ⟨f, hf⟩ := exec_form c s other
    rw [hf, run_stop c f s ht]
  · rw [step_of_pending_nil s hp]
    exact if_pos ht

end Sys2Proof.Machine

/-! SUPPORT. Proofs of the statements of the events and interrupts family: messages, sleep, the vector page and the returns of
event records. -/

namespace Sys2Proof.Machine
open Sys2Proof

/-! ## Moderation and coalescing (R275, R277, R278) -/

section
variable {b : Blk} {q : QRef}

/-- The timer of a queue whose domain is awake sends the message of its last cause. -/
theorem moderationTimeoutB_due (made : b.exists? q = true) (runs : (b.queue q).mod.timer = true) (mode : (b.queue q).cfg.modMode = 1)
    (limit : (b.queue q).cfg.modTime ≠ 0) (awake : b.asleep (b.queue q).cfg.dom = false) : moderationTimeoutB q b =
      (b.modQueue q fun x => { x with mod := { x.mod with count := 0, timer := false } }).due (b.queue q).cfg.vec (b.queue q).cfg.dom
        (b.queue q).mod.last := by
  have stays : (b.modQueue q fun x => { x with mod := { x.mod with count := 0, timer := false } }).asleep (b.queue q).cfg.dom = false := by
    unfold Blk.asleep at awake ⊢
    rwa [Blk.modQueue_get_reg]
  unfold moderationTimeoutB Blk.queueMsg
  simp [made, runs, mode, limit, stays]

/-- The message of a masked vector is held pending (R275). -/
theorem Blk.due_masked {v dom : Nat} (valid : (b.vector v).valid = true) (owner : (b.vector v).dom = dom)
    (masked : (b.vector v).mask = true) (after : Option (Nat × Pkt)) :
    b.due v dom after = b.modVector v fun e => { e with pend := true } := by
  unfold Blk.due Blk.dueWith
  simp [valid, owner, masked]

theorem Blk.modQueue_vector (f : Queue → Queue) (v : Nat) : (b.modQueue q f).vector v = b.vector v := by cases q <;> rfl

/-- With no further cause the message is forgotten (R278). -/
theorem messageCoalesceEndB_forgets {v : Nat} {c : Coalesce} (one : b.sched.coalesce.filter (fun c => c.v == v) = [c])
    (last : c.more = false) : messageCoalesceEndB v b =
      b.modSched fun z => { z with coalesce := z.coalesce.filter fun y => y.v != c.v || y.dom != c.dom } := by
  unfold messageCoalesceEndB
  rw [one]
  exact if_neg (by simp [last])

/-! ## Sleep (R280) -/

theorem Blk.releaseHeld_unheld (unheld : (b.queue q).mod.held = false) : b.releaseHeld q = b := if_neg (by simp [unheld])

/-- With no message held, a write of DOM_SLEEP stores its bits alone. -/
theorem Blk.sleepWrite_unheld (j w : Nat) (unheld : ∀ q ∈ b.allQueues, (b.queue q).mod.held = false) :
    b.sleepWrite j w = b.setReg (0xB020 + 4 * j) w := by
  refine foldl_id _ _ _ fun q listed => ?_
  rw [Blk.releaseHeld_unheld (b := b.setReg (0xB020 + 4 * j) w) (unheld q listed), ite_self]

theorem Blk.selected_allQueues (p : MPort) : (b.selected p).allQueues = b.allQueues := by cases p <;> rfl

/-! ## The vector page (R274, R275) -/

theorem Blk.selected_vector (p : MPort) (v : Nat) : (b.selected p).vector v = b.vector v := by cases p <;> rfl

theorem Blk.selected_vec (p : MPort) : (b.selected p).vec = b.vec := by cases p <;> rfl

theorem Blk.answered_vec (p : MPort) (w : BitVec 64) : (b.answered p w).vec = b.vec := by cases p <;> rfl

/-- LOAD stages the fields of the entry that VEC_SEL names. -/
theorem Blk.vecLoadOp_stages {e : Vector4} (sel : e = b.vector (b.regF 0xB000 11 0)) :
    b.vecLoadOp.reg 0xB004 = e.addr % 2 ^ 32 ∧ b.vecLoadOp.reg 0xB008 = e.addr / 2 ^ 32 ∧ b.vecLoadOp.reg 0xB00C = e.data
    ∧ b.vecLoadOp.reg 0xB010 = fld e.dom 0 8 + fld (b1 e.mask) 14 1 + fld (b1 e.valid) 15 1
    ∧ b.vecLoadOp.vec = { b.vec with stagedPend := e.pend } := by
  subst sel
  have staged : ∀ a, b.vecLoadOp.reg a = ((((b.setReg 0xB004 _).setReg 0xB008 _).setReg 0xB00C _).setReg 0xB010 _).reg a := fun _ => rfl
  refine ⟨?_, ?_, ?_, ?_, rfl⟩
  · rw [staged, Blk.setReg_other _ _ _ _ (by decide), Blk.setReg_other _ _ _ _ (by decide), Blk.setReg_other _ _ _ _ (by decide),
      Blk.setReg_same]
  · rw [staged, Blk.setReg_other _ _ _ _ (by decide), Blk.setReg_other _ _ _ _ (by decide), Blk.setReg_same]
  · rw [staged, Blk.setReg_other _ _ _ _ (by decide), Blk.setReg_same]
  · rw [staged, Blk.setReg_same]

/-- STORE of a valid entry whose address lies in no target range is refused (R275). -/
theorem Blk.vecStoreOp_refused (valid : bit (b.reg 0xB010) 15 = true)
    (outside : b.rangeOf (b.reg 0xB004 + 2 ^ 32 * b.reg 0xB008) = none) :
    b.vecStoreOp = { b with vec := { b.vec with refused := true } } := by
  unfold Blk.vecStoreOp
  simp only [outside, valid]
  rfl

/-- STORE of an entry within a target range, with nothing pending, stores what is staged (R274). -/
theorem Blk.vecStoreOp_stores {i : Nat} {t : Target} (inside : b.rangeOf (b.reg 0xB004 + 2 ^ 32 * b.reg 0xB008) = some (i, t))
    (fits : b.reg 0xB004 + 2 ^ 32 * b.reg 0xB008 + 4 ≤ t.base + t.pages * 4096)
    (quiet : (b.vector (b.regF 0xB000 11 0)).pend = false) : b.vecStoreOp =
      Blk.modVector { b with vec := { b.vec with refused := false } } (b.regF 0xB000 11 0) fun _ =>
        { addr := b.reg 0xB004 + 2 ^ 32 * b.reg 0xB008, data := b.reg 0xB00C, dom := bits (b.reg 0xB010) 7 0, valid := bit (b.reg 0xB010) 15
          mask := bit (b.reg 0xB010) 14, pend := false } := by
  unfold Blk.vecStoreOp
  simp only [inside, decide_eq_true fits, quiet, Bool.not_true, Bool.and_false, Bool.false_and, Bool.false_eq_true, if_false]
  rfl

/-! ## Returns of event records (R270) -/

section
variable {d size value : Nat} {r : EvRing} (on1 : b.on 1 = true) (on2 : b.on 2 = true) (width : size = 4 ∨ size = 8)
  (entry : (b.domEntry d).isSome = true) (ring : (b.domain d).ring = some r) (index : bits value 15 0 < 2 ^ r.exp)
include on1 on2 width entry ring index

/-- A return that the ring's own domain sends is judged by the records written and not yet returned. -/
theorem eventRingReturnB_judges : eventRingReturnB d d size value b =
    if (r.wpos + 2 * 2 ^ r.exp - r.rpos) % (2 * 2 ^ r.exp) < (posOf value (2 ^ r.exp) + 2 * 2 ^ r.exp - r.rpos) % (2 * 2 ^ r.exp) then
      b.nudgeDrop
    else b.modDomain d fun x => { x with ring := some { r with rpos := posOf value (2 ^ r.exp) } } := by
  have listed : (b.domEntry d).isNone = false := by
    rw [← Option.not_isSome, entry]
    rfl
  unfold eventRingReturnB
  rw [if_neg (by simp [on1, on2]), if_neg (by simp [width, listed]), ring]
  simp only [Nat.not_le.mpr index, decide_false, Bool.false_or, decide_eq_true_eq]

end

end

/-- Settles O45: the timer by whether the vector is masked, sleep by whether a message is held, the vector page by its two commands,
a return by the records written. -/
theorem messagesFollowTheVectorTable : Obligations.MessagesFollowTheVectorTable := by
  intro s p hs
  refine ⟨?masked, ?timer, fun v c hv one last => hs.does (by simp [hv]) (messageCoalesceEndB_forgets one last), ?unheld, ?sleep, ?load,
    ?store, ?return_⟩
  case masked =>
    rintro q _ _ hq rfl made runs mode limit awake rfl valid owner masked
    refine hs.does (by simp [hq]) ((moderationTimeoutB_due made runs mode limit awake).trans ?_)
    exact Blk.due_masked (by rwa [Blk.modQueue_vector]) (by rwa [Blk.modQueue_vector]) (by rwa [Blk.modQueue_vector]) _
  case timer =>
    rintro q _ hq rfl made runs mode limit awake
    exact hs.does (by simp [hq]) (moderationTimeoutB_due made runs mode limit awake)
  case unheld =>
    intro j w hj opens unheld
    have does := row_domSleepWrite s p j w hs hj opens
    have queue : ∀ q, (s.core.selected p).queue q = s.core.queue q := (Blk.selected_msg s.core p).get_queue
    rwa [word_all _ _ w.isLt, Blk.sleepWrite_unheld j _ (by simpa only [Blk.selected_allQueues, queue] using unheld)] at does
  case sleep =>
    intro j w hj opens
    have does := row_domSleepWrite s p j w hs hj opens
    rwa [word_all _ _ w.isLt] at does
  case load =>
    rintro _ opens rfl
    have regF : (s.core.selected p).regF 0xB000 11 0 = s.core.regF 0xB000 11 0 := congrArg (bits · 11 0) ((Blk.selected_msg s.core p).get_reg _)
    obtain ⟨low, high, data, ctrl, vec⟩ := (s.core.selected p).vecLoadOp_stages rfl
    have reg := (Blk.answered_msg (s.core.selected p).vecLoadOp p 0#64).get_reg
    rw [regF, Blk.selected_vector] at low high data ctrl vec
    rw [Blk.selected_vec] at vec
    exact ⟨_, row_vecLoad s p hs opens, (reg _).trans low, (reg _).trans high, (reg _).trans data, (reg _).trans ctrl,
      (Blk.answered_vec p _).trans vec⟩
  case store =>
    rintro _ _ _ opens rfl rfl rfl
    have does := row_vecStore s p hs opens
    have reg := (Blk.selected_msg s.core p).get_reg
    have range : ∀ a, (s.core.selected p).rangeOf a = s.core.rangeOf a := fun a => by cases p <;> rfl
    refine ⟨fun valid outside => ?_, fun i t inside fits quiet => ?_⟩
    · rwa [Blk.vecStoreOp_refused (by rwa [reg]) (by rwa [reg, reg, range]), Blk.selected_vec] at does
    · rwa [Blk.vecStoreOp_stores (by rwa [reg, reg, range]) (by rwa [reg, reg]) (by rwa [Blk.regF, reg, Blk.selected_vector]),
        Blk.selected_vec, Blk.regF, reg, reg, reg, reg, reg] at does
  case return_ =>
    intro d size value r hd hv on1 on2 width entry ring index
    have ends := eventRingReturnB_judges on1 on2 width entry ring index
    have wf : Instr.wf (.eventRingReturn d d size value) = true := by simpa [hd] using hv
    exact ⟨fun within => hs.does wf (ends.trans (if_neg (Nat.not_lt.mpr within))),
      fun beyond => runRow_raise _ _ s _ 0 11 hs.functional wf (ends.trans (if_pos beyond)) hs.not_reload⟩

end Sys2Proof.Machine

/-! SUPPORT. Proofs of the statements of the faults and failover family: credits and write tokens, ports and links that fail, the
states of a slot and its commands, and the halves of the Square. -/

namespace Sys2Proof.Machine
open Sys2Proof

/-! ## Credits (R339, R340) -/

section
variable {b : Blk} {p : Nat}

/-- A change of the ports leaves no command and no destruction in progress. -/
theorem Blk.Calm.modPort (calm : b.Calm) (f : Port → Port) : (b.modPort p f).Calm := ⟨calm.jobs, calm.queues⟩

section
variable (live : b.creditsLive p = true)
include live

theorem packetAcceptedB_one (ch : Chan) : packetAcceptedB p ch 1 b = (b.headerCredit p ch).jobsCheck := if_pos live

theorem dataCreditReturnB_adds_req {crd : Nat} (room : (b.port p).dataCr + crd ≤ 4095) :
    dataCreditReturnB p .txReq crd b = b.modPort p fun v => { v with dataCr := v.dataCr + crd } := by
  unfold dataCreditReturnB
  simp [live, Nat.not_lt.mpr room]

theorem dataCreditReturnB_adds_cpl {crd : Nat} (room : (b.port p).cplDataCr + crd ≤ 4095) :
    dataCreditReturnB p .txCpl crd b = b.modPort p fun v => { v with cplDataCr := v.cplDataCr + crd } := by
  unfold dataCreditReturnB
  simp [live, Nat.not_lt.mpr room]

theorem dataCreditReturnB_over_req {crd : Nat} (excess : 4095 < (b.port p).dataCr + crd) :
    dataCreditReturnB p .txReq crd b = b.credOvf p := by
  unfold dataCreditReturnB
  simp [live, excess]

theorem dataCreditReturnB_over_cpl {crd : Nat} (excess : 4095 < (b.port p).cplDataCr + crd) :
    dataCreditReturnB p .txCpl crd b = b.credOvf p := by
  unfold dataCreditReturnB
  simp [live, excess]

end

/-- Before the first packet a header credit of TX_REQ is an initial one. -/
theorem Blk.headerCredit_initial (room : (b.port p).hdrCr < 255) (nothing : (b.port p).pres = []) (fresh : (b.port p).txStarted = false) :
    b.headerCredit p .txReq = b.modPort p fun v => { v with hdrCr := v.hdrCr + 1 } := by
  unfold Blk.headerCredit
  simp [Nat.not_le.mpr room, nothing, fresh]

theorem Blk.headerCredit_over_req (excess : 255 ≤ (b.port p).hdrCr ∨ ((b.port p).pres = [] ∧ (b.port p).txStarted = true)) :
    b.headerCredit p .txReq = b.credOvf p := by
  unfold Blk.headerCredit
  obtain full | ⟨nothing, started⟩ := excess
  · simp [full]
  · simp [nothing, started]

/-- A header credit accepts the packet presented before it. -/
theorem Blk.headerCredit_accepts (room : (b.port p).hdrCr < 255) (packet : (b.port p).pres ≠ []) :
    b.headerCredit p .txReq = (b.modPort p fun v => { v with hdrCr := v.hdrCr + 1 }).acceptReq p := by
  unfold Blk.headerCredit
  simp [Nat.not_le.mpr room, packet]

/-- A header credit of TX_CPL takes the completion presented before it, if there is one. -/
theorem Blk.headerCredit_takes (room : (b.port p).cplHdrCr < 255) (due : (b.port p).cplPres ≠ [] ∨ (b.port p).cplStarted = false) :
    b.headerCredit p .txCpl = b.modPort p fun v => { v with cplHdrCr := v.cplHdrCr + 1, cplPres := v.cplPres.drop 1 } := by
  unfold Blk.headerCredit
  by_cases nothing : (b.port p).cplPres = []
  · have fresh : (b.port p).cplStarted = false := due.resolve_left (not_not_intro nothing)
    simp only [nothing, fresh, List.isEmpty_nil, if_true, if_neg (Nat.not_le.mpr room), Bool.false_eq_true, if_false]
    exact Blk.modPort_congr _ _ _ _ (by rw [nothing]; rfl)
  · simp [Nat.not_le.mpr room, nothing]

theorem Blk.headerCredit_over_cpl (excess : 255 ≤ (b.port p).cplHdrCr ∨ ((b.port p).cplPres = [] ∧ (b.port p).cplStarted = true)) :
    b.headerCredit p .txCpl = b.credOvf p := by
  unfold Blk.headerCredit
  obtain full | ⟨nothing, started⟩ := excess
  · simp [full]
  · simp [nothing, started]

/-! ## Write tokens (R304, R305, R341) -/

section
variable {tok : Nat}

section
variable (powered : b.portPowered p = true)
include powered

theorem tokenReturnB_bad (out : (b.port p).toks.find? (fun t => t.tok == tok) = none) :
    tokenReturnB p tok false b = b.modCnt p fun c => { c with tokBad := incr 4 c.tokBad } := by
  unfold tokenReturnB
  simp [powered, out]

theorem tokenReturnB_lost (out : (b.port p).toks.find? (fun t => t.tok == tok) = none) :
    tokenReturnB p tok true b = (b.modCnt p fun c => { c with wlost := incr 8 c.wlost }).raise 5 8 := by
  unfold tokenReturnB
  simp [powered, out]

variable {r : TokRec} (held : (b.port p).toks.find? (fun t => t.tok == tok) = some r)
include held

/-- A return before acceptance is remembered (R341). -/
theorem tokenReturnB_early (before : r.accepted = false) (lost : Bool) : tokenReturnB p tok lost b =
    b.modPort p fun v => { v with toks := v.toks.map fun y => if y.tok = tok then { y with early := some lost } else y } := by
  unfold tokenReturnB
  simp [powered, held, before]

theorem tokenReturnB_ends (after : r.accepted = true) (lost : Bool) : tokenReturnB p tok lost b =
    ((if lost then b.modCnt p fun c => { c with wlost := incr 8 c.wlost } else b).tokenEnd p r lost).jobsCheck := by
  unfold tokenReturnB
  simp [powered, held, after]

end

theorem tokenTimeoutB_lost {r : TokRec} (held : (b.port p).toks.find? (fun t => t.tok == tok && t.accepted) = some r) :
    tokenTimeoutB p tok b = ((b.modCnt p fun c => { c with tokTmo := incr 4 c.tokTmo }).tokenEnd p r true).jobsCheck := by
  unfold tokenTimeoutB
  rw [held]

/-- A write other than a queue's word is settled without more to do. -/
theorem Blk.settledPkt_plain {k : Pkt} (plain : ∀ q t, k.purpose ≠ .word q t) : b.settledPkt k = b := by
  unfold Blk.settledPkt
  split
  · rename_i q t word
    exact absurd word (plain q t)
  · rfl

theorem Blk.tokenEnd_settles {r : TokRec} (plain : ∀ q t, r.pkt.purpose ≠ .word q t) :
    b.tokenEnd p r false = b.modPort p fun v => { v with toks := v.toks.filter fun t => t.tok != r.tok } := Blk.settledPkt_plain plain

end

end

/-- Settles O34: a header credit by its channel and what is presented, data credits by their sum, a token by whether it is out and
accepted. -/
theorem creditsAndTokensReturn : Obligations.CreditsAndTokensReturn := by
  rintro s port _ hs hp rfl
  have warm : s.core.ldr.state ≠ .warmrst := by rw [hs.2]; decide
  have header : ∀ {ch : Chan} {c : Blk}, s.core.creditsLive port = true → s.core.headerCredit port ch = c → c.jobsCheck = c →
      Does (.packetAccepted port ch 1) s c := fun {ch _} live ends calm =>
    hs.does (by simp [hp]) ((packetAcceptedB_one live ch).trans (by rw [ends, calm]))
  have same : ∀ {f : Port → Port}, s.core.Calm → (s.core.modPort port f).jobsCheck = s.core.modPort port f :=
    fun calm => jobsCheck_calm _ (calm.modPort _) warm
  refine ⟨fun live calm => ⟨fun room nothing fresh => header live (Blk.headerCredit_initial room nothing fresh) (same calm),
      fun excess => header live (Blk.headerCredit_over_req excess) (same calm),
      fun room due => header live (Blk.headerCredit_takes room due) (same calm),
      fun excess => header live (Blk.headerCredit_over_cpl excess) (same calm)⟩,
    fun live room packet => hs.does (by simp [hp]) ((packetAcceptedB_one live .txReq).trans (by rw [Blk.headerCredit_accepts room packet])),
    fun crd live => ⟨fun room => hs.does (by simp [hp]) (dataCreditReturnB_adds_req live room),
      fun excess => hs.does (by simp [hp]) (dataCreditReturnB_over_req live excess),
      fun room => hs.does (by simp [hp]) (dataCreditReturnB_adds_cpl live room),
      fun excess => hs.does (by simp [hp]) (dataCreditReturnB_over_cpl live excess)⟩,
    fun tok powered ht => ⟨fun out => ⟨hs.does (by simp [hp, ht]) (tokenReturnB_bad powered out), ?wlost⟩, fun r held => ?held⟩,
    fun tok r ht held => ?timeout⟩
  case wlost =>
    exact runRow_raise _ _ s _ 5 8 hs.functional (by simp [hp, ht]) (tokenReturnB_lost powered out) hs.not_reload
  case held =>
    have named : r.tok = tok := by simpa using List.find?_some held
    refine ⟨fun lost before => hs.does (by simp [hp, ht]) (tokenReturnB_early powered held before lost),
      fun after calm plain => hs.does (by simp [hp, ht]) ((tokenReturnB_ends powered held after false).trans ?_),
      fun after => hs.does (by simp [hp, ht]) ((tokenReturnB_ends powered held after true).trans ?_)⟩
    · rw [if_neg (by decide), Blk.tokenEnd_settles plain, same calm, named]
    · rw [← named]
      rfl
  case timeout =>
    have named : r.tok = tok := by
      have both := List.find?_some held
      simp only [Bool.and_eq_true, beq_iff_eq] at both
      exact both.1
    refine hs.does (by simp [hp, ht]) ((tokenTimeoutB_lost held).trans ?_)
    rw [← named]
    rfl

/-! ## Ports stuck, lost and back (R302, R303, R339, R342) -/

section
variable {b : Blk} {p : Nat}

theorem portStuckB_sticks (powered : b.portPowered p = true) (there : (b.port p).lost = false) (free : (b.port p).stuck = false)
    (limit : b.regF 0x12334 15 0 ≠ 0) (holds : b.holdsPkt p = true) : portStuckB p b =
      (((((((b.raiseAt 6 (8 + p)).invalidateLat fun _ t => b.onPort p t).orderRoutes p).modPort p fun v =>
        { v with stuck := true }).setDrain p).withdraw p fun _ => true).clearArmed p false) := by
  unfold portStuckB
  rw [if_neg (by simp [powered, there, free, limit, holds])]

theorem portLostB_loses (powered : b.portPowered p = true) (up : (b.port p).up = true) :
    portLostB p b = (b.modPort p fun v => { v with up := false }).losePort p false := by
  have powered' : (b.modPort p fun v => { v with up := false }).portPowered p = true := powered
  unfold portLostB
  simp [up, powered']

theorem portLostB_gone (gone : b.portPowered p = false ∨ (b.port p).up = false) :
    portLostB p b = b.modPort p fun v => { v with up := false } := by
  have powered' : (b.modPort p fun v => { v with up := false }).portPowered p = b.portPowered p := rfl
  unfold portLostB
  obtain off | down := gone
  · simp [powered', off]
  · simp [down]

theorem portUpB_up (down : (b.port p).up = false) {c : Blk} (fresh : c = (b.modPort p fun v =>
      { v with up := true, lost := v.lostByHalf, hdrCr := 0, dataCr := 0, cplHdrCr := 0, cplDataCr := 0, txStarted := false
               cplStarted := false, inbWait := [] }).keepPorts b) :
    portUpB p b = c.invalidateLat fun _ t => t.egress == p := by
  subst fresh
  unfold portUpB
  simp [down]

/-! ## Links (R299, R300, R342) -/

variable {n : Nat}

theorem linkDownB_slot {cto : Bool} (up : b.links.contains n = true) (slot : n < 32) :
    linkDownB n cto b = ((b.linkLost n cto).sltLinkDown n).dropLinkReads n := by
  unfold linkDownB
  rw [up]
  simp only [if_pos slot]
  rfl

theorem linkDownB_host {cto : Bool} (up : b.links.contains n = true) (host : 32 ≤ n) {c : Blk} (lost : c = b.linkLost n cto) :
    linkDownB n cto b = ((c.withdraw (n - 32) fun k => c.overLink n k).clearArmedAt (n - 32) false (c.addrOver n)).dropLinkReads n := by
  subst lost
  unfold linkDownB
  rw [up]
  simp only [if_neg (Nat.not_lt.mpr host)]
  rfl

theorem linkUpB_slot (down : b.links.contains n = false) (slot : n < 32) :
    linkUpB n b = ((b.linkFound n).keepPorts b).sltLinkUp n := by
  unfold linkUpB
  simp only [down, Bool.false_eq_true, if_false, if_pos slot]

theorem linkUpB_host (down : b.links.contains n = false) (host : 32 ≤ n) : linkUpB n b = (b.linkFound n).keepPorts b := by
  unfold linkUpB
  simp only [down, Bool.false_eq_true, if_false, if_neg (Nat.not_lt.mpr host)]

/-- The end of a completion timeout is the link coming up. -/
theorem linkCtoRecoveryB_up (timed : b.ctoLinks.contains n = true) : linkCtoRecoveryB n b = linkUpB n b := if_pos timed

end

/-- Settles O47: a port by its power, its link and what it holds, a link by whether it is a slot's or a host port's. -/
theorem portsAndLinksFail : Obligations.PortsAndLinksFail := by
  intro s hs
  refine ⟨fun p hp powered there free limit holds => hs.does (by simp [hp]) (portStuckB_sticks powered there free limit holds),
    fun p hp powered up => hs.does (by simp [hp]) (portLostB_loses powered up),
    fun p hp gone => hs.does (by simp [hp]) (portLostB_gone gone),
    fun p b hp down fresh => hs.does (by simp [hp]) (portUpB_up down fresh), ?down, ?up⟩
  case down =>
    intro n cto b hn up lost
    exact ⟨fun slot => hs.does (by simp [hn]) (lost ▸ linkDownB_slot up slot), fun host => hs.does (by simp [hn]) (linkDownB_host up host lost)⟩
  case up =>
    rintro n _ hn down rfl
    refine ⟨fun slot => ?_, fun host => ?_⟩
    · have ends := linkUpB_slot down slot
      exact ⟨hs.does (by simp [hn]) ends, fun timed => hs.does (by simp [hn]) ((linkCtoRecoveryB_up timed).trans ends)⟩
    · have ends := linkUpB_host down host
      exact ⟨hs.does (by simp [hn]) ends, fun timed => hs.does (by simp [hn]) ((linkCtoRecoveryB_up timed).trans ends)⟩

end Sys2Proof.Machine

/-! SUPPORT. The inputs of a slot, SLT_CFG.ON and SLT_SVC by the slot's state, and O48 and O49. -/

namespace Sys2Proof.Machine
open Sys2Proof

/-! ## What entering a state of a slot leaves (R307, Table 13-11) -/

theorem Blk.modSlot_sltWaiting {b : Blk} {n : Nat} {g : Slot → Slot} (waiting : b.sltWaiting n = [])
    (held : (g (b.slot n)).held = (b.slot n).held) : (b.modSlot n g).sltWaiting n = [] :=
  sltWaiting_of waiting (by rw [Blk.modSlot_same, held]) rfl rfl

theorem Blk.sltGo_sltWaiting {b : Blk} {n : Nat} (waiting : b.sltWaiting n = []) (st : SlotState) : (b.sltGo n st).sltWaiting n = [] := by
  have done := sltGo_done b n st waiting
  exact sltWaiting_of waiting (by rw [done.slot]; rfl) done.queues done.cells

section
variable {c : Instr} {s : State} {n : Nat}

/-- A command that ends with the slot entering a state has changed nothing else of the slots, the registers and the queues. -/
theorem SlotGoes.of_sltGo {b : Blk} {st : SlotState} (does : Does c s (b.sltGo n st)) (waiting : b.sltWaiting n = [])
    (others : ∀ k, k ≠ n → b.slot k = s.core.slot k) (regs : b.regs = s.core.regs) (queues : b.queues = s.core.queues)
    (cells : b.cells = s.core.cells) : SlotGoes c s n ((b.slot n).entered st) := by
  have done := sltGo_done b n st waiting
  exact ⟨_, does, done.slot, done.pends, fun k hk => (done.others k hk).trans (others k hk), done.regs.trans regs,
    done.queues.trans queues, done.cells.trans cells⟩

variable (waiting : s.core.sltWaiting n = [])
include waiting

theorem SlotGoes.entered {st : SlotState} (does : Does c s (s.core.sltGo n st)) : SlotGoes c s n ((s.core.slot n).entered st) :=
  .of_sltGo does waiting (fun _ _ => rfl) rfl rfl rfl

/-- The command notes its input in the slot's record, as `y`, and enters the state. -/
theorem SlotGoes.noted {g : Slot → Slot} {st : SlotState} {y : Slot} (does : Does c s ((s.core.modSlot n g).sltGo n st))
    (note : g (s.core.slot n) = y) (held : y.held = (s.core.slot n).held) : SlotGoes c s n (y.entered st) := by
  subst note
  have goes := SlotGoes.of_sltGo does (Blk.modSlot_sltWaiting waiting held) (fun _ hk => Blk.modSlot_other _ _ _ _ hk) rfl rfl rfl
  rwa [Blk.modSlot_same] at goes

end

section
variable {b : Blk} {n : Nat}

theorem Blk.sltGo_sltHold (waiting : b.sltWaiting n = []) (st : SlotState) : (b.sltGo n st).sltHold n = b.sltHold n := by
  unfold Blk.sltHold Blk.regF Blk.reg
  rw [(sltGo_done b n st waiting).regs]

/-- With a HOLD that is not 0 the hold runs on in HELD (R309). -/
theorem Blk.sltToHeld_holds (waiting : b.sltWaiting n = []) (hold : b.sltHold n ≠ 0) : b.sltToHeld n = b.sltGo n .held := by
  refine if_neg ?_
  simp [Blk.sltGo_sltHold waiting, hold]

theorem Blk.stopAllWaiting_none (waiting : b.sltWaiting n = []) (status : Nat) (info : List Byte) : b.stopAllWaiting n status info = b := by
  unfold Blk.stopAllWaiting
  rw [waiting]
  rfl

/-! ## The inputs of a slot and its timers, by its state (R306, R307, Table 13-11) -/

section
variable (refclk : b.clock.refLost = false)
include refclk

theorem slotPresenceSeenB_debounces (goes : ((b.slot n).state = .empty ∧ b.sltOn n = true) ∨ ((b.slot n).state = .held ∧ (b.slot n).lostPresence = true)) :
    slotPresenceSeenB n b = (b.modSlot n fun x => { x with seenPresent := true }).sltGo n .debounce := by
  unfold slotPresenceSeenB
  obtain ⟨state, on⟩ | ⟨state, lost⟩ := goes
  · have on' : (b.modSlot n fun x => { x with seenPresent := true }).sltOn n = true := on
    simp [refclk, state, on']
  · simp [refclk, state, lost]

theorem slotPresenceSeenB_bounces (state : (b.slot n).state = .debounce) :
    slotPresenceSeenB n b = b.modSlot n fun x => { x with seenPresent := true, bounce := incr 8 x.bounce } := by
  unfold slotPresenceSeenB
  simp [refclk, state, Blk.modSlot_twice]

theorem slotPresenceAcceptedB_ramps (state : (b.slot n).state = .debounce) :
    slotPresenceAcceptedB n b = (b.modSlot n fun x => { x with prsnt := true, seenPresent := true }).sltGo n .ramp := by
  unfold slotPresenceAcceptedB
  simp [refclk, state]

theorem slotPresenceAcceptedB_notes (state : (b.slot n).state ≠ .debounce) :
    slotPresenceAcceptedB n b = b.modSlot n fun x => { x with prsnt := true, seenPresent := true } := by
  unfold slotPresenceAcceptedB
  simp [refclk, state]

/-- The record of a slot whose card is gone. -/
def Slot.cardGone (x : Slot) : Slot := { x with prsnt := false, seenPresent := false, lostPresence := true }

theorem slotAbsenceAcceptedB_debounce (state : (b.slot n).state = .debounce) : slotAbsenceAcceptedB n b =
    (b.modSlot n Slot.cardGone).sltGo n (if (b.slot n).hold then .held else .empty) := by
  unfold slotAbsenceAcceptedB
  simp only [refclk, Bool.false_eq_true, if_false, state]
  rfl

theorem slotAbsenceAcceptedB_ready (state : (b.slot n).state = .ready) :
    slotAbsenceAcceptedB n b = (b.modSlot n Slot.cardGone).sltToHeld n := by
  unfold slotAbsenceAcceptedB
  simp only [refclk, Bool.false_eq_true, if_false, state]
  rfl

theorem slotAbsenceAcceptedB_failed (state : (b.slot n).state = .failedAtInsertion ∨ (b.slot n).state = .faulted) :
    slotAbsenceAcceptedB n b = (b.modSlot n Slot.cardGone).sltGo n .empty := by
  unfold slotAbsenceAcceptedB
  obtain state | state := state <;> simp only [refclk, Bool.false_eq_true, if_false, state] <;> rfl

theorem slotAbsenceAcceptedB_held (state : (b.slot n).state = .held) : slotAbsenceAcceptedB n b =
    b.modSlot n fun x => { x with prsnt := false, seenPresent := false, lostPresence := true, pwrEn := false } := by
  unfold slotAbsenceAcceptedB
  simp only [refclk, Bool.false_eq_true, if_false, state, Blk.modSlot_twice]

theorem slotPgAcceptedB_settles (state : (b.slot n).state = .ramp) :
    slotPgAcceptedB n b = (b.modSlot n fun x => { x with pg := true, flt := false }).sltGo n .settle := by
  unfold slotPgAcceptedB
  simp [refclk, state]

theorem slotPgLostB_settle (state : (b.slot n).state = .settle) :
    slotPgLostB n b = (b.modSlot n fun x => { x with pg := false }).sltGo n .failedAtInsertion := by
  unfold slotPgLostB
  simp [refclk, state]

theorem slotPgLostB_ready (state : (b.slot n).state = .ready) :
    slotPgLostB n b = (b.modSlot n fun x => { x with pg := false }).sltToHeld n := by
  unfold slotPgLostB
  simp [refclk, state]

theorem slotFaultInputB_inserting (state : (b.slot n).state = .ramp ∨ (b.slot n).state = .settle) :
    slotFaultInputB n b = (b.modSlot n fun x => { x with flt := true }).sltGo n .failedAtInsertion := by
  unfold slotFaultInputB
  obtain state | state := state <;> simp [refclk, state]

theorem slotFaultInputB_ready (state : (b.slot n).state = .ready) :
    slotFaultInputB n b = (b.modSlot n fun x => { x with flt := true }).sltToHeld n := by
  unfold slotFaultInputB
  simp [refclk, state]

theorem slotRampTimeoutB_fails (state : (b.slot n).state = .ramp) : slotRampTimeoutB n b = b.sltGo n .failedAtInsertion :=
  if_pos (by simp [refclk, state])

/-- Without its link a slot stays in SETTLE until the link's time is over (R308). -/
theorem slotSettleDoneB_waits (state : (b.slot n).state = .settle) (down : b.sltLink n = false) :
    slotSettleDoneB n b = b.modSlot n fun x => { x with settled := true } := by
  have down' : (b.modSlot n fun x => { x with settled := true }).sltLink n = false := down
  unfold slotSettleDoneB Blk.sltTrySettle
  simp [refclk, state, down']

theorem slotSettleLinkTimeoutB_faults (state : (b.slot n).state = .settle) (down : b.sltLink n = false) :
    slotSettleLinkTimeoutB n b = b.sltGo n .faulted := if_pos (by simp [refclk, state, down])

theorem slotDischargeDoneB_off (state : (b.slot n).state = .discharge) (low : (b.slot n).pwrEn = false) :
    slotDischargeDoneB n b = (b.modSlot n fun x => { x with vsns := false }).sltGo n .off := by
  unfold slotDischargeDoneB
  simp [refclk, state, low]

theorem passDamagedB_damaged (state : (b.slot n).state ≠ .passDamaged) (low : (b.slot n).pwrEn = false) :
    passDamagedB n b = (b.modSlot n fun x => { x with vsns := true }).sltGo n .passDamaged := by
  unfold passDamagedB
  simp [refclk, state, low]

/-- The end of a hold with nothing waiting only forgets the hold. -/
theorem slotHoldExpiryB_expires (waiting : b.sltWaiting n = []) (state : (b.slot n).state = .held) (hold : (b.slot n).hold = true) :
    slotHoldExpiryB n b = ((b.modSlot n fun x => { x with hold := false }).sltGo n (if (b.slot n).prsnt then .faulted else .empty)).modSlot n
      fun x => { x with hold := false } := by
  have quiet := Blk.sltGo_sltWaiting (Blk.modSlot_sltWaiting (g := fun x => { x with hold := false }) waiting rfl)
    (if (b.slot n).prsnt then SlotState.faulted else .empty)
  unfold slotHoldExpiryB Blk.sltExpire Blk.sltHoldEnd
  simp only [refclk, hold, state, Bool.not_true, Bool.false_eq_true, if_false, if_true]
  exact Blk.stopAllWaiting_none (Blk.modSlot_sltWaiting quiet rfl) _ _

end

/-- The hold of a slot in HELD ends with the slot in FAULTED or EMPTY, and nothing else changes. -/
theorem SlotGoes.expired {c : Instr} {s : State} {st : SlotState} (waiting : s.core.sltWaiting n = [])
    (state : (s.core.slot n).state = .held)
    (does : Does c s (((s.core.modSlot n fun x => { x with hold := false }).sltGo n st).modSlot n fun x => { x with hold := false })) :
    SlotGoes c s n ({ s.core.slot n with hold := false }.entered st) := by
  have done := sltGo_done _ n st (Blk.modSlot_sltWaiting (g := fun x => { x with hold := false }) waiting rfl)
  refine ⟨_, does, ?_, done.pends, fun k hk => ?_, done.regs, done.queues, done.cells⟩
  · rw [Blk.modSlot_same, done.slot, Blk.modSlot_same]
    simp [Slot.entered, state]
  · rw [Blk.modSlot_other _ _ _ _ hk, done.others k hk, Blk.modSlot_other _ _ _ _ hk]

end

/-- Settles O48: each input by the equation of the slot's state, what entering a state leaves by `sltGo_done`. -/
theorem slotsFollowTheTable : Obligations.SlotsFollowTheTable := by
  rintro s n _ hs hn refclk rfl waiting hold
  have wf : (n < 32 : Bool) = true := decide_eq_true hn
  have toHeld : ∀ {g : Slot → Slot}, (g (s.core.slot n)).held = (s.core.slot n).held →
      (s.core.modSlot n g).sltToHeld n = (s.core.modSlot n g).sltGo n .held := fun held =>
    Blk.sltToHeld_holds (Blk.modSlot_sltWaiting waiting held) hold
  refine ⟨fun state on => .noted waiting (hs.does wf (slotPresenceSeenB_debounces refclk (.inl ⟨state, on⟩))) rfl rfl,
    fun state lost => .noted waiting (hs.does wf (slotPresenceSeenB_debounces refclk (.inr ⟨state, lost⟩))) rfl rfl,
    fun state => hs.does wf (slotPresenceSeenB_bounces refclk state),
    fun state => .noted waiting (hs.does wf (slotPresenceAcceptedB_ramps refclk state)) rfl rfl,
    fun state => hs.does wf (slotPresenceAcceptedB_notes refclk state), ?absence,
    fun state => hs.does wf (slotAbsenceAcceptedB_held refclk state),
    fun state => .noted waiting (hs.does wf (slotPgAcceptedB_settles refclk state)) rfl rfl,
    fun state => .noted waiting (hs.does wf (slotPgLostB_settle refclk state)) rfl rfl,
    fun state => .noted waiting (hs.does wf ((slotPgLostB_ready refclk state).trans (toHeld rfl))) rfl rfl,
    fun state => .noted waiting (hs.does wf (slotFaultInputB_inserting refclk state)) rfl rfl,
    fun state => .noted waiting (hs.does wf ((slotFaultInputB_ready refclk state).trans (toHeld rfl))) rfl rfl,
    fun state => .entered waiting (hs.does wf (slotRampTimeoutB_fails refclk state)),
    fun state down => ⟨.entered waiting (hs.does wf (slotSettleLinkTimeoutB_faults refclk state down)),
      hs.does wf (slotSettleDoneB_waits refclk state down)⟩,
    fun state low => .noted waiting (hs.does wf (slotDischargeDoneB_off refclk state low)) rfl rfl,
    fun state low => .noted waiting (hs.does wf (passDamagedB_damaged refclk state low)) rfl rfl,
    fun state held => .expired waiting state (hs.does wf (slotHoldExpiryB_expires refclk waiting state held))⟩
  case absence =>
    rintro _ rfl
    exact ⟨fun state => .noted waiting (hs.does wf (slotAbsenceAcceptedB_debounce refclk state)) rfl rfl,
      fun state => .noted waiting (hs.does wf ((slotAbsenceAcceptedB_ready refclk state).trans (toHeld rfl))) rfl rfl,
      fun state => .noted waiting (hs.does wf (slotAbsenceAcceptedB_failed refclk state)) rfl rfl⟩

/-! ## SLT_CFG.ON (R307, Table 13-11) -/

section
variable {b : Blk} {n : Nat}

/-- What SLT_CFG stores when ON is written as `on`. -/
def sltOnStored (old : Nat) (on : Bool) : Nat :=
  sltStored (Fields.word { rw := 0x20FF0000, key := 0x40000000 } old (putBits old 30 30 (b1 on)))

theorem sltOnStored_bits (old : Nat) (on : Bool) :
    bit (sltOnStored old on) 30 = on ∧ bit (sltOnStored old on) 29 = bit old 29 ∧ bits (sltOnStored old on) 23 16 = bits old 23 16 := by
  obtain ⟨on30, en29, hold⟩ := sltStore_bits (Fields.word { rw := 0x20FF0000, key := 0x40000000 } old (putBits old 30 30 (b1 on)))
  obtain ⟨put30, put29, putHold⟩ := putOn_bits old on
  refine ⟨?_, ?_, ?_⟩
  · rw [sltOnStored, on30, Fields.bit_word _ _ _ _ (by decide) (by decide) (by decide), put30]
  · rw [sltOnStored, en29, Fields.bit_word _ _ _ _ (by decide) (by decide) (by decide), put29]
  · rw [sltOnStored, hold, Fields.bits_word _ _ _ _ _ (by decide) (by decide) (by decide), putHold]

theorem Blk.sltOnWrite_off (state : (b.slot n).state = .off) (on : b.sltOn n = true) : b.sltOnWrite n = b.sltGo n .empty := by
  unfold Blk.sltOnWrite
  simp [state, on]

theorem Blk.sltOnWrite_empty (state : (b.slot n).state = .empty) (on : b.sltOn n = false) : b.sltOnWrite n = b.sltGo n .off := by
  unfold Blk.sltOnWrite
  simp [state, on]

theorem Blk.sltOnWrite_ready (state : (b.slot n).state = .ready) (on : b.sltOn n = false) :
    b.sltOnWrite n = (b.sltGo n .discharge).sltHoldZero n := by
  unfold Blk.sltOnWrite
  simp [state, on]

/-- A slot that is ON already, or OFF already, stays as it is. -/
theorem Blk.sltOnWrite_stays (stays : (b.sltOn n = true ∧ (b.slot n).state ≠ .off)
    ∨ (b.sltOn n = false ∧ (b.slot n).state ≠ .empty ∧ (b.slot n).state ≠ .ready)) : b.sltOnWrite n = b := by
  unfold Blk.sltOnWrite
  split <;> simp_all

/-! ## SLT_SVC (Table 13-12) -/

/-- The word of a command `op` of SLT_SVC for slot `n`. -/
theorem sltSvcWord_bits (old : Nat) {op v : Nat} (hn : n < 32) (hop : op < 256) (word : v = op * 0x100 + n) :
    bits (Fields.word { key := 0xFF1F } old v) 4 0 = n ∧ bits (Fields.word { key := 0xFF1F } old v) 15 8 = op := by
  constructor <;> rw [Fields.bits_word _ _ _ _ _ (by decide) (by decide) (by decide)] <;> unfold bits <;> omega

theorem Blk.sltSvcWrite_refLost (w : Nat) (refclk : b.clock.refLost = true) : b.sltSvcWrite w = b := if_pos refclk

section
variable {w : Nat} (names : bits w 4 0 = n)
include names

variable (refclk : b.clock.refLost = false)
include refclk

section
variable (clear : bits w 15 8 = 1)
include clear

theorem Blk.sltSvcWrite_clears (bad : ((b.slot n).state = .failedAtInsertion ∨ (b.slot n).state = .faulted)
    ∨ ((b.slot n).state = .passDamaged ∧ (b.slot n).vsns = false)) : b.sltSvcWrite w = b.sltGo n .empty := by
  unfold Blk.sltSvcWrite
  obtain (state | state) | ⟨state, low⟩ := bad <;> simp_all

theorem Blk.sltSvcWrite_keeps (good : ((b.slot n).state = .passDamaged ∧ (b.slot n).vsns = true)
    ∨ ((b.slot n).state ≠ .failedAtInsertion ∧ (b.slot n).state ≠ .faulted ∧ (b.slot n).state ≠ .passDamaged)) : b.sltSvcWrite w = b := by
  unfold Blk.sltSvcWrite
  simp only [refclk, clear, names, Bool.false_eq_true, if_false, if_true]
  split <;> simp_all

end

section
variable (expire : bits w 15 8 = 2)
include expire

theorem Blk.sltSvcWrite_expires (state : (b.slot n).state = .held) : b.sltSvcWrite w = b.sltExpire n := by
  unfold Blk.sltSvcWrite
  simp [refclk, expire, names, state]

theorem Blk.sltSvcWrite_notHeld (state : (b.slot n).state ≠ .held) : b.sltSvcWrite w = b := by
  unfold Blk.sltSvcWrite
  simp [refclk, expire, names, state]

end

end

theorem slotTokenReadDoneB_ends {p t : Nat} {u : TagRec} (found : b.findRead (isTokenRead n) = some (p, t, u)) (r : ReadResult) :
    slotTokenReadDoneB n r b = (b.endRead p t (ReadResult.abandons r)).sltTokenEnd n r := by
  unfold slotTokenReadDoneB
  rw [found]

end

section
variable {s : State} {p : MPort} {n : Nat} (hs : s.Serves) (hn : n < 32)
include hs hn

/-- A keyed write of ON stores the word and acts by the slot's state, or waits for REFCLK. -/
theorem sltOnWrite_does (on : Bool) (opens : s.core.Open p (0x05000 + 4 * n)) (keyed : s.core.Keyed p)
    (fits : s.core.reg (0x05000 + 4 * n) < 2 ^ 32) {b : Blk}
    (stored : (s.core.selected p).setReg (0x05000 + 4 * n) (sltOnStored (s.core.reg (0x05000 + 4 * n)) on) = b) :
    Does (.sltOnWrite p n on) s
      ((if b.clock.refLost then b.modSlot n fun x => { x with onWritten := true } else b.sltOnWrite n).answered p 0#64) := by
  subst stored
  exact row_sltOnWrite s p n on hs.functional hs.not_reload hn opens keyed fits

variable (opens : s.core.Open p 0x05304) (keyed : s.core.Keyed p)
include opens keyed

theorem sltSvcClear_does : ∃ w, bits w 4 0 = n ∧ bits w 15 8 = 1
    ∧ Does (.sltSvcClear p n) s (((s.core.selected p).sltSvcWrite w).answered p 0#64) := by
  obtain ⟨names, clear⟩ := sltSvcWord_bits (s.core.reg 0x05304) (op := 1) (v := 0x100 + n) hn (by decide) (by omega)
  exact ⟨_, names, clear, row_sltSvcClear s p n hs hn opens keyed⟩

theorem sltSvcExpire_does : ∃ w, bits w 4 0 = n ∧ bits w 15 8 = 2
    ∧ Does (.sltSvcExpire p n) s (((s.core.selected p).sltSvcWrite w).answered p 0#64) := by
  obtain ⟨names, expire⟩ := sltSvcWord_bits (s.core.reg 0x05304) (op := 2) (v := 0x200 + n) hn (by decide) (by omega)
  exact ⟨_, names, expire, row_sltSvcExpire s p n hs hn opens keyed⟩

end

/-- Settles O49: ON and SLT_SVC by the state of the slot, the end of a token read by its row. -/
theorem slotCommandsFollowTheTable : Obligations.SlotCommandsFollowTheTable := by
  rintro s n _ hs hn rfl
  refine ⟨fun p on opens keyed fits => ?on, fun p opens keyed => ?svc,
    fun p t u r found => hs.does (decide_eq_true hn) (slotTokenReadDoneB_ends found r)⟩
  case on =>
    obtain ⟨on30, en29, hold⟩ := sltOnStored_bits (s.core.reg (0x05000 + 4 * n)) on
    refine ⟨_, on30, en29, hold, ?_⟩
    have isOn : ((s.core.selected p).setReg (0x05000 + 4 * n) (sltOnStored (s.core.reg (0x05000 + 4 * n)) on)).sltOn n = on := by
      unfold Blk.sltOn
      rw [Blk.setReg_same, on30]
    have slot : ((s.core.selected p).setReg (0x05000 + 4 * n) (sltOnStored (s.core.reg (0x05000 + 4 * n)) on)).slot n = s.core.slot n :=
      (Blk.setReg_get_slot _ _ _ _).trans ((Blk.selected_msg s.core p).get_slot n)
    have clock : ((s.core.selected p).setReg (0x05000 + 4 * n) (sltOnStored (s.core.reg (0x05000 + 4 * n)) on)).clock = s.core.clock :=
      (Blk.setReg_clock _ _ _).trans (Blk.selected_msg s.core p).clock
    generalize stored : (s.core.selected p).setReg (0x05000 + 4 * n) (sltOnStored (s.core.reg (0x05000 + 4 * n)) on) = b at *
    have does := sltOnWrite_does hs hn on opens keyed fits stored
    rw [clock] at does
    refine ⟨fun refclk => ?_, fun refclk => by rwa [if_pos refclk] at does⟩
    rw [refclk, if_neg (by decide)] at does
    refine ⟨fun state up => ?_, fun state down => ?_, fun state down => ?_, fun up state => ?_, fun down empty ready => ?_⟩
    · rwa [Blk.sltOnWrite_off (by rwa [slot]) (isOn.trans up)] at does
    · rwa [Blk.sltOnWrite_empty (by rwa [slot]) (isOn.trans down)] at does
    · rwa [Blk.sltOnWrite_ready (by rwa [slot]) (isOn.trans down)] at does
    · rwa [Blk.sltOnWrite_stays (.inl ⟨isOn.trans up, by rwa [slot]⟩)] at does
    · rwa [Blk.sltOnWrite_stays (.inr ⟨isOn.trans down, by rwa [slot], by rwa [slot]⟩)] at does
  case svc =>
    obtain ⟨w, names, clear, clears⟩ := sltSvcClear_does hs hn opens keyed
    obtain ⟨w', names', expire, expires⟩ := sltSvcExpire_does hs hn opens keyed
    have slot : (s.core.selected p).slot n = s.core.slot n := (Blk.selected_msg s.core p).get_slot n
    have clock : (s.core.selected p).clock = s.core.clock := (Blk.selected_msg s.core p).clock
    have clearTo : ∀ {b : Blk}, (s.core.selected p).sltSvcWrite w = b → Does (.sltSvcClear p n) s (b.answered p 0#64) := fun h => h ▸ clears
    have expireTo : ∀ {b : Blk}, (s.core.selected p).sltSvcWrite w' = b → Does (.sltSvcExpire p n) s (b.answered p 0#64) := fun h => h ▸ expires
    refine ⟨fun refclk => ?_, fun refclk => ⟨clearTo (Blk.sltSvcWrite_refLost w (by rwa [clock])),
      expireTo (Blk.sltSvcWrite_refLost w' (by rwa [clock]))⟩⟩
    have refclk' : (s.core.selected p).clock.refLost = false := by rwa [clock]
    exact ⟨fun bad => clearTo (Blk.sltSvcWrite_clears names refclk' clear (.inl (by rwa [slot]))),
      fun state low => clearTo (Blk.sltSvcWrite_clears names refclk' clear (.inr (by rw [slot]; exact ⟨state, low⟩))),
      fun state high => clearTo (Blk.sltSvcWrite_keeps names refclk' clear (.inl (by rw [slot]; exact ⟨state, high⟩))),
      fun s1 s2 s3 => clearTo (Blk.sltSvcWrite_keeps names refclk' clear (.inr (by rw [slot]; exact ⟨s1, s2, s3⟩))),
      fun state => expireTo (Blk.sltSvcWrite_expires names' refclk' expire (by rwa [slot])),
      fun state => expireTo (Blk.sltSvcWrite_notHeld names' refclk' expire (by rwa [slot]))⟩

end Sys2Proof.Machine

/-! SUPPORT. The Square's halves that fail and are tested again, PU_RESTART, and O57. -/

namespace Sys2Proof.Machine
open Sys2Proof

/-! ## Halves of the Square (R288, R330) -/

section
variable {b : Blk} {h : Nat}

theorem squareHalfFailureB_again (failed : b.halfFailed.contains h = true) : squareHalfFailureB h b = b := if_pos failed

theorem squareHalfFailureB_first (sound : b.halfFailed.contains h = false) : squareHalfFailureB h b =
    Blk.raise { b.halfDown h with halfFailed := addOnce h (b.halfDown h).halfFailed } 5 (6 + h) :=
  if_neg (Bool.eq_false_iff.mp sound)

/-- Without power, or without a test due, the end of a self-test means nothing. -/
theorem squareHalfSelftestDoneB_undue (mapped : List Nat) (pass : Bool) (undue : b.on (3 + h) = false ∨ b.halfTest.contains h = false) :
    squareHalfSelftestDoneB h mapped pass b = b := by
  refine if_pos ?_
  obtain off | untested := undue
  · simp only [off, Bool.not_false, Bool.true_or]
  · simp only [untested, Bool.not_false, Bool.or_true]

/-- A port after the test of its half, of which it is port `i`: the locations that failed are mapped out (R330). -/
def Port.afterTest (v : Port) (mapped : List Nat) (i : Nat) : Port :=
  { v with robMapped := (mapped.filter fun y => y / 4096 == i).map (· % 4096), robSuspect := [] }

/-- A port that its half's failure took out returns, unless the switch holds it down (R330). -/
def Port.halfBack (v : Port) : Port := { v with lost := if v.lostByHalf then !v.up else v.lost, lostByHalf := false }

theorem Blk.halfMapped_ports (mapped : List Nat) :
    (∀ i, i < 4 → (b.halfMapped h mapped).port (4 * h + i) = (b.port (4 * h + i)).afterTest mapped i)
    ∧ (∀ j, (∀ i, i < 4 → j ≠ 4 * h + i) → (b.halfMapped h mapped).port j = b.port j) :=
  half_ports b h fun i v => v.afterTest mapped i

theorem Blk.halfUp_ports :
    (∀ i, i < 4 → (b.halfUp h).port (4 * h + i) = (b.port (4 * h + i)).halfBack)
    ∧ (∀ j, (∀ i, i < 4 → j ≠ 4 * h + i) → (b.halfUp h).port j = b.port j) :=
  half_ports b h fun _ v => v.halfBack

section
variable (on : b.on (3 + h) = true) (due : b.halfTest.contains h = true) {mapped : List Nat} {c : Blk}
  (tested : c = ({ b with halfTest := b.halfTest.filter (· != h) }).halfMapped h mapped)
include on due tested

theorem squareHalfSelftestDoneB_fails :
    squareHalfSelftestDoneB h mapped false b = Blk.raise { c with halfFailed := addOnce h c.halfFailed } 5 (6 + h) := by
  subst tested
  refine if_neg ?_
  simp only [on, due, Bool.not_true, Bool.or_self, Bool.false_eq_true, not_false_eq_true]

theorem squareHalfSelftestDoneB_passes : squareHalfSelftestDoneB h mapped true b =
    Blk.halfUp { c with halfFailed := c.halfFailed.filter (· != h), halfFails := c.halfFails.filter fun x => x.1 != h } h := by
  subst tested
  refine if_neg ?_
  simp only [on, due, Bool.not_true, Bool.or_self, Bool.false_eq_true, not_false_eq_true]

end

end

/-- Settles O57: a failure by whether the half has failed, a self-test by whether one is due and its result, RESTART by its row. -/
theorem squareHalvesAndRestarts : Obligations.SquareHalvesAndRestarts := by
  intro s h hs hh
  have wf : Instr.wf (.squareHalfFailure h) = true := decide_eq_true hh
  refine ⟨fun failed => hs.does wf (squareHalfFailureB_again failed),
    fun sound => runRow_raise _ _ s _ 5 (6 + h) hs.functional wf (squareHalfFailureB_first sound) hs.not_reload,
    fun mapped pass fits => ?test, fun p u b hu room sem on shadow => ?restart⟩
  case test =>
    have wf : Instr.wf (.squareHalfSelftestDone h mapped pass) = true := by simpa [hh] using fits
    refine ⟨fun undue => hs.does wf (squareHalfSelftestDoneB_undue mapped pass undue), ?_⟩
    intro b on due tested
    obtain ⟨mine, others⟩ : (∀ i, i < 4 → b.port (4 * h + i) = (s.core.port (4 * h + i)).afterTest mapped i)
        ∧ (∀ j, (∀ i, i < 4 → j ≠ 4 * h + i) → b.port j = s.core.port j) := tested ▸ Blk.halfMapped_ports mapped
    refine ⟨fun i hi => ?ports, others, ?fails, ?passes⟩
    case ports =>
      rw [mine i hi]
      exact ⟨rfl, rfl, rfl⟩
    case fails =>
      rintro rfl
      exact runRow_raise _ _ s _ 5 (6 + h) hs.functional wf (squareHalfSelftestDoneB_fails on due tested) hs.not_reload
    case passes =>
      rintro rfl
      obtain ⟨back, rest⟩ := Blk.halfUp_ports (h := h)
        (b := { b with halfFailed := b.halfFailed.filter (· != h), halfFails := b.halfFails.filter fun x => x.1 != h })
      exact ⟨_, hs.does wf (squareHalfSelftestDoneB_passes on due tested), rfl, rfl, back, rest⟩
  case restart =>
    subst shadow
    have does := row_puRestart s p u hs hu room sem on
    unfold Blk.puRestart at does
    exact ⟨fun off => by rwa [if_pos off] at does, fun runs => by rwa [if_neg runs] at does⟩

end Sys2Proof.Machine

/-! SUPPORT. The words of the service registers and the ends of self-tests and rebuilds, case by case, and O50. -/

namespace Sys2Proof.Machine
open Sys2Proof

/-! ## MOV_SVC (R328) -/

section
variable {s : State} {p : MPort} {m : Nat}

/-- The fields of a word of MOV_SVC. -/
theorem movSvcWord_bits (old : Nat) {op v : Nat} (spare : Bool) (hm : m < 18) (hop : op < 4)
    (word : v = b1 spare * 2 ^ 12 + op * 0x100 + m) :
    bits (Fields.word { key := 0x131F } old v) 4 0 = m ∧ bits (Fields.word { key := 0x131F } old v) 9 8 = op
    ∧ bit (Fields.word { key := 0x131F } old v) 12 = spare := by
  have flag : b1 spare < 2 := by cases spare <;> decide
  refine ⟨?_, ?_, ?_⟩
  · rw [Fields.bits_word _ _ _ _ _ (by decide) (by decide) (by decide)]
    unfold bits
    omega
  · rw [Fields.bits_word _ _ _ _ _ (by decide) (by decide) (by decide)]
    unfold bits
    omega
  · rw [Fields.bit_word _ _ _ _ (by decide) (by decide) (by decide)]
    have set : v / 2 ^ 12 % 2 = b1 spare := by omega
    unfold bit
    rw [set]
    cases spare <;> rfl

variable (hs : s.Serves) (hm : m < 18) (opens : s.core.Open p 0x11214) (keyed : s.core.Keyed p)
include hs hm opens keyed

theorem movSvcTest_does (spare : Bool) : ∃ w, bits w 4 0 = m ∧ bits w 9 8 = 1 ∧ bit w 12 = spare
    ∧ Does (.movSvcTest p m spare) s (((s.core.selected p).movSvcWrite w).answered p 0#64) := by
  obtain ⟨names, op, role⟩ := movSvcWord_bits (s.core.reg 0x11214) (op := 1) (v := b1 spare * 2 ^ 12 + 0x100 + m) spare hm (by decide) rfl
  exact ⟨_, names, op, role, row_movSvcTest s p m spare hs hm opens keyed⟩

theorem movSvcPowerUp_does (spare : Bool) : ∃ w, bits w 4 0 = m ∧ bits w 9 8 = 3 ∧ bit w 12 = spare
    ∧ Does (.movSvcPowerUp p m spare) s (((s.core.selected p).movSvcWrite w).answered p 0#64) := by
  obtain ⟨names, op, role⟩ := movSvcWord_bits (s.core.reg 0x11214) (op := 3) (v := b1 spare * 2 ^ 12 + 0x300 + m) spare hm (by decide) rfl
  exact ⟨_, names, op, role, row_movSvcPowerUp s p m spare hs hm opens keyed⟩

theorem movSvcPowerDown_does : ∃ w, bits w 4 0 = m ∧ bits w 9 8 = 2 ∧ bit w 12 = false
    ∧ Does (.movSvcPowerDown p m) s (((s.core.selected p).movSvcWrite w).answered p 0#64) := by
  obtain ⟨names, op, role⟩ := movSvcWord_bits (s.core.reg 0x11214) (op := 2) (v := 0x200 + m) false hm (by decide)
    (by simp [b1])
  exact ⟨_, names, op, role, row_movSvcPowerDown s p m hs hm opens keyed⟩

end

/-! ## The end of a mover's self-test (R324, R328) -/

section
variable {b : Blk} {m : Nat}

/-- The test of mover `m` is counted, and the service command that asked for it has its result. -/
def Blk.testEnded (b : Blk) (m : Nat) (pass : Bool) (fail : Nat) : Blk :=
  (b.modMover m fun v => { v with tests := incr 8 v.tests }).svcEnd pass fail

theorem Blk.testEnded_roleSpare (pass : Bool) (fail : Nat) :
    ((b.testEnded m pass fail).mover m).roleSpare = (b.mover m).roleSpare := by
  have counted := congrArg Mover.roleSpare (Blk.modMover_same b m fun v => { v with tests := incr 8 v.tests })
  exact counted

/-- A mover that has passed its test: SPARE or ACTIVE by its role, a spare RETIRED while `parked` at T4 (R324, R328). -/
def Mover.passed (v : Mover) (parked : Bool) : Mover :=
  { v with state := if v.roleSpare then (if parked then .retired else .spare) else .active
           cause := 0, dataFailAt := none, t4held := v.t4held || (v.roleSpare && parked) }

/-- The mover takes back the place a spare held for it, then shadows are set up and waiting queues bound (R152, R202, R205, R293). -/
def Blk.takesPlace (b : Blk) (m : Nat) : Blk :=
  (List.range 64).foldl (fun b _ => b.serveBindList m) (Blk.reShadow { b with standIn := tabSet none b.standIn m none } m)

section
variable (test : (b.mover m).state = .test) (busy : b.movp.svc.busy = true) (mine : b.movp.svc.mover = m)
include test busy mine

theorem moverSelftestDoneB_fails {f : Nat} (fails : f ≠ 0) :
    moverSelftestDoneB m f b = (b.testEnded m false f).modMover m fun v => { v with state := .failed, cause := 6 } := by
  unfold moverSelftestDoneB
  simp [test, busy, mine, fails, Blk.testEnded]

theorem moverSelftestDoneB_passes : moverSelftestDoneB m 0 b =
    if (((b.testEnded m true 0).modMover m (·.passed (decide (b.sup.applied = 4)))).mover m).state = .active then
      ((b.testEnded m true 0).modMover m (·.passed (decide (b.sup.applied = 4)))).takesPlace m
    else (b.testEnded m true 0).modMover m (·.passed (decide (b.sup.applied = 4))) := by
  unfold moverSelftestDoneB
  simp only [test, busy, mine, ne_eq, not_true_eq_false, if_false, Blk.modMover_movp, beq_self_eq_true, Bool.and_self, if_true, decide_true]
  rfl

theorem moverSelftestDoneB_spare (role : (b.mover m).roleSpare = true) (cool : b.sup.applied ≠ 4) : moverSelftestDoneB m 0 b =
    (b.testEnded m true 0).modMover m fun v => { v with state := .spare, cause := 0, dataFailAt := none } := by
  have role' := (Blk.testEnded_roleSpare (b := b) (m := m) true 0).trans role
  have passed : (b.testEnded m true 0).modMover m (·.passed (decide (b.sup.applied = 4)))
      = (b.testEnded m true 0).modMover m fun v => { v with state := .spare, cause := 0, dataFailAt := none } :=
    Blk.modMover_congr _ _ _ _ (by simp [Mover.passed, role', cool])
  rw [moverSelftestDoneB_passes test busy mine, passed, if_neg (by rw [Blk.modMover_same]; simp)]

theorem moverSelftestDoneB_parked (role : (b.mover m).roleSpare = true) (hot : b.sup.applied = 4) : moverSelftestDoneB m 0 b =
    (b.testEnded m true 0).modMover m fun v => { v with state := .retired, cause := 0, dataFailAt := none, t4held := true } := by
  have role' := (Blk.testEnded_roleSpare (b := b) (m := m) true 0).trans role
  have passed : (b.testEnded m true 0).modMover m (·.passed (decide (b.sup.applied = 4)))
      = (b.testEnded m true 0).modMover m fun v => { v with state := .retired, cause := 0, dataFailAt := none, t4held := true } :=
    Blk.modMover_congr _ _ _ _ (by simp [Mover.passed, role', hot])
  rw [moverSelftestDoneB_passes test busy mine, passed, if_neg (by rw [Blk.modMover_same]; simp)]

theorem moverSelftestDoneB_active (role : (b.mover m).roleSpare = false) {c : Blk}
    (passed : c = (b.testEnded m true 0).modMover m fun v => { v with state := .active, cause := 0, dataFailAt := none }) :
    moverSelftestDoneB m 0 b = c.takesPlace m := by
  subst passed
  have role' := (Blk.testEnded_roleSpare (b := b) (m := m) true 0).trans role
  have passed : (b.testEnded m true 0).modMover m (·.passed (decide (b.sup.applied = 4)))
      = (b.testEnded m true 0).modMover m fun v => { v with state := .active, cause := 0, dataFailAt := none } :=
    Blk.modMover_congr _ _ _ _ (by simp [Mover.passed, role'])
  rw [moverSelftestDoneB_passes test busy mine, passed, if_pos (by rw [Blk.modMover_same])]

end

end

/-! ## CTXW_REBUILD (R329) -/

/-- The fields of a word of CTXW_REBUILD. -/
theorem rebuildWord_bits (old : Nat) {op v : Nat} (bankB : Bool) (hop : op < 4) (word : v = op * 0x100 + b1 bankB) :
    bits (Fields.word { key := 0x301 } old v) 9 8 = op ∧ bit (Fields.word { key := 0x301 } old v) 0 = bankB := by
  have flag : b1 bankB < 2 := by cases bankB <;> decide
  constructor
  · rw [Fields.bits_word _ _ _ _ _ (by decide) (by decide) (by decide)]
    unfold bits
    omega
  · rw [Fields.bit_word _ _ _ _ (by decide) (by decide) (by decide)]
    have set : v / 2 ^ 0 % 2 = b1 bankB := by omega
    unfold bit
    rw [set]
    cases bankB <;> rfl

section
variable {s : State} {p : MPort} (hs : s.Serves) (opens : s.core.Open p 0x13008) (keyed : s.core.Keyed p) (bankB : Bool)
include hs opens keyed

theorem ctxwRebuildTest_does : ∃ w, bits w 9 8 = 1 ∧ bit w 0 = bankB
    ∧ Does (.ctxwRebuildTest p bankB) s (((s.core.selected p).rebuildWrite w).answered p 0#64) := by
  obtain ⟨op, bank⟩ := rebuildWord_bits (s.core.reg 0x13008) (op := 1) (v := 0x100 + b1 bankB) bankB (by decide) rfl
  exact ⟨_, op, bank, row_ctxwRebuildTest s p bankB hs opens keyed⟩

theorem ctxwRebuildCopy_does : ∃ w, bits w 9 8 = 2 ∧ bit w 0 = bankB
    ∧ Does (.ctxwRebuildCopy p bankB) s (((s.core.selected p).rebuildWrite w).answered p 0#64) := by
  obtain ⟨op, bank⟩ := rebuildWord_bits (s.core.reg 0x13008) (op := 2) (v := 0x200 + b1 bankB) bankB (by decide) rfl
  exact ⟨_, op, bank, row_ctxwRebuildCopy s p bankB hs opens keyed⟩

end

section
variable {b : Blk} (busy : b.banks.busy = true) (pass : Bool)
include busy

/-- The end of a TEST keeps both banks' places (R329). -/
theorem ctxwRebuildDoneB_test (op : b.banks.op ≠ 2) : ctxwRebuildDoneB pass [] b =
    (b.modBanks fun y => { y with busy := false, done := true, pass := pass, progress := 32768, mirror := false }).jobsCheck := by
  have notCopy : (b.banks.op == 2) = false := beq_false_of_ne op
  unfold ctxwRebuildDoneB
  simp [busy, notCopy]

/-- The end of a COPY brings the copied bank into service. -/
theorem ctxwRebuildDoneB_copy (op : b.banks.op = 2) : ctxwRebuildDoneB pass [] b =
    (b.modBanks fun y => { y with
      busy := false, done := true, pass := true, progress := 32768, mirror := false
      aOut := if b.banks.bank then y.aOut else false, bOut := if b.banks.bank then false else y.bOut }).jobsCheck := by
  unfold ctxwRebuildDoneB
  simp [busy, op]

end

/-- Settles O50: a service command by the mover's state, a self-test by its result and the mover's role, a rebuild by whether its
bank is out and what it does. -/
theorem serviceOperationsRun : Obligations.ServiceOperationsRun := by
  intro s p hs
  refine ⟨fun m hm opens keyed free => ?movers, fun m hm test busy mine => ?selftest, fun bankB opens keyed free => ?rebuild,
    fun busy => ⟨fun pass op => hs.does rfl (ctxwRebuildDoneB_test busy pass op), fun pass op => hs.does rfl (ctxwRebuildDoneB_copy busy pass op)⟩⟩
  case movers =>
    have mover : (s.core.selected p).mover m = s.core.mover m := (Blk.selected_msg s.core p).get_mover m
    have power : (s.core.selected p).power = s.core.power := (Blk.selected_msg s.core p).power
    have img : (s.core.selected p).img = s.core.img := (Blk.selected_msg s.core p).get_img
    have free' : (s.core.selected p).movp.svc.busy = false := by rwa [(Blk.selected_msg s.core p).movp]
    have write := fun {w op role} => movSvcWrite_of (s.core.selected p) w m op role hm
    rw [mover, power, img] at write
    refine ⟨fun spare state => ?test, fun state => ?down, fun spare off may => ?up, fun spare state => ?refused⟩
    case test =>
      obtain ⟨w, names, op, role, does⟩ := movSvcTest_does hs hm opens keyed spare
      obtain ⟨test, -⟩ := write names op role free'
      rwa [test state rfl] at does
    case down =>
      obtain ⟨w, names, op, role, does⟩ := movSvcPowerDown_does hs hm opens keyed
      have word : fld (b1 false) 12 1 + m = m := Nat.zero_add m
      have downTo : ∀ {b : Blk}, (s.core.selected p).movSvcWrite w = b → Does (.movSvcPowerDown p m) s (b.answered p 0#64) :=
        fun h => h ▸ does
      obtain ⟨-, unpowered, powered, -⟩ := write names op role free'
      rw [word] at unpowered powered
      exact ⟨fun ack => downTo (powered state rfl ack), fun ack => downTo (unpowered state rfl ack)⟩
    case up =>
      obtain ⟨w, names, op, role, does⟩ := movSvcPowerUp_does hs hm opens keyed spare
      obtain ⟨-, -, -, up, -⟩ := write names op role free'
      rwa [up off may rfl] at does
    case refused =>
      obtain ⟨w, names, op, role, does⟩ := movSvcTest_does hs hm opens keyed spare
      obtain ⟨-, -, -, -, refused⟩ := write names op role free'
      rwa [refused state rfl] at does
  case selftest =>
    exact ⟨fun f fails => hs.does (by simp [hm]) (moverSelftestDoneB_fails test busy mine fails),
      fun role cool => hs.does (by simp [hm]) (moverSelftestDoneB_spare test busy mine role cool),
      fun role hot => hs.does (by simp [hm]) (moverSelftestDoneB_parked test busy mine role hot),
      fun b role passed => hs.does (by simp [hm]) (moverSelftestDoneB_active test busy mine role passed)⟩
  case rebuild =>
    have banks : (s.core.selected p).banks = s.core.banks := (Blk.selected_msg s.core p).banks
    have write := fun {w op} (named : bits w 9 8 = op) (bank : bit w 0 = bankB) known =>
      rebuildWrite_of (s.core.selected p) w op bankB named bank known (by rwa [banks])
    rw [banks] at write
    obtain ⟨w, test, bank, tests⟩ := ctxwRebuildTest_does hs opens keyed bankB
    obtain ⟨v, copy, bank', copies⟩ := ctxwRebuildCopy_does hs opens keyed bankB
    obtain ⟨testsOut, testRefused⟩ := write test bank (.inl rfl)
    obtain ⟨copiesOut, copyRefused⟩ := write copy bank' (.inr rfl)
    have testTo : ∀ {b : Blk}, (s.core.selected p).rebuildWrite w = b → Does (.ctxwRebuildTest p bankB) s (b.answered p 0#64) :=
      fun h => h ▸ tests
    have copyTo : ∀ {b : Blk}, (s.core.selected p).rebuildWrite v = b → Does (.ctxwRebuildCopy p bankB) s (b.answered p 0#64) :=
      fun h => h ▸ copies
    exact ⟨fun out other => ⟨testTo (testsOut out other), copyTo (copiesOut out other)⟩,
      fun serves => ⟨testTo (testRefused serves), copyTo (copyRefused serves)⟩⟩

end Sys2Proof.Machine

/-! SUPPORT. Borage's epochs, freeze and decision ring, the throttle levels and the process monitors, and O52 and O53. -/

namespace Sys2Proof.Machine
open Sys2Proof

/-! ## Epochs (R311, R312) -/

section
variable {b : Blk}

theorem borageEpochB_unclocked (lost : b.clock.refLost = true) (freeze : Bool) : borageEpochB freeze b = b := by
  unfold borageEpochB
  simp [lost]

variable (on : b.on 1 = true) (refclk : b.clock.refLost = false)
include on refclk


theorem borageEpochB_adapts (adapts : (b.epochFigures b.epochStats).adapts = true) :
    borageEpochB false b = ((b.epochFigures b.epochStats).epochRules b b.epochStats).epochStart := by
  unfold borageEpochB
  simp [on, refclk, adapts]

theorem borageEpochB_rests (freeze : Bool) (rests : (b.epochFigures b.epochStats).adapts = false ∨ freeze = true) :
    borageEpochB freeze b = (b.epochFigures b.epochStats).epochStart := by
  unfold borageEpochB
  rcases rests with rests | rests <;> simp [on, refclk, rests]

end

/-! ## SUP_FREEZE (R321) -/

section
variable {b : Blk} {port w : Nat}

/-- A word that asks for the FREEZE there is, and not for RESTORE. -/
theorem freezeWrite_same (same : bit (b.reg 0x14004) 0 = bit w 0) (restore : bit w 1 = false) : b.freezeWrite port w = b := by
  unfold Blk.freezeWrite Blk.setFrozen
  simp [same, restore]

theorem freezeWrite_changes (on : b.on 1 = true) {f : Bool} (asks : bit w 0 = f) (now : bit (b.reg 0x14004) 0 = !f)
    (restore : bit w 1 = false) :
    b.freezeWrite port w = ((b.setRegF 0x14004 0 0 (b1 f)).raise 1 10).decision (if f then 7 else 8) 0 port (b1 !f) (b1 f) 0 0 := by
  have differs : ((!f) == f) = false := by cases f <;> rfl
  have on' : ((b.setRegF 0x14004 0 0 (b1 f)).raise 1 10).on 1 = true := by
    rw [Blk.raise_get_on]
    exact on
  unfold Blk.freezeWrite Blk.setFrozen
  simp only [asks, now, differs, restore, on', if_true, Bool.false_and, Bool.false_eq_true, if_false]

theorem freezeWrite_restores (on : b.on 1 = true) (same : bit (b.reg 0x14004) 0 = bit w 0) (restore : bit w 1 = true) :
    b.freezeWrite port w = b.restoreBase 2 := by
  unfold Blk.freezeWrite Blk.setFrozen
  simp [same, restore, on]

end

/-- The bits of a word of SUP_FREEZE. -/
theorem freezeWord_bits (old v : Nat) : bit (Fields.word { key := 3 } old v) 0 = bit v 0 ∧ bit (Fields.word { key := 3 } old v) 1 = bit v 1 :=
  ⟨Fields.bit_word _ _ _ _ (by decide) (by decide) (by decide), Fields.bit_word _ _ _ _ (by decide) (by decide) (by decide)⟩

/-- RESTORE is written beside the FREEZE there is. -/
theorem restoreValue_bits (r : Nat) : bit (2 + bits r 0 0) 0 = bit r 0 ∧ bit (2 + bits r 0 0) 1 = true := by
  have one : bits r 0 0 < 2 := by unfold bits; omega
  constructor
  · have low : (2 + bits r 0 0) / 2 ^ 0 % 2 = r / 2 ^ 0 % 2 := by unfold bits; omega
    unfold bit
    rw [low]
  · have high : (2 + bits r 0 0) / 2 ^ 1 % 2 = 1 := by omega
    unfold bit
    rw [high]
    rfl

/-! ## The decision ring (R319, R320) -/

section
variable {b : Blk} {w v : Nat} (enables : bits w 31 31 = 1)
include enables

theorem ringCfgWrite_stays (en : bit (b.reg 0x14014) 31 = true) :
    b.ringCfgWrite w = b.setReg 0x14014 (putBits (b.reg 0x14014) 31 31 1) := by
  unfold Blk.ringCfgWrite
  simp [en, enables]

theorem ringCfgWrite_enables (off : bit (b.reg 0x14014) 31 = false) (dom : bits w 23 16 = bits v 23 16) (size : bits w 4 0 = bits v 4 0) :
    b.ringCfgWrite w = if (b.setReg 0x14014 (ringCfgOf v false)).ringBad
      then (b.setReg 0x14014 (ringCfgOf v false)).modDec fun x => { x with badcfg := true }
      else (b.setReg 0x14014 (ringCfgOf v false)).ringOpen := by
  have same : ringCfgOf w false = ringCfgOf v false := by
    unfold ringCfgOf
    rw [dom, size]
  unfold Blk.ringCfgWrite
  simp [off, bit31 w enables, same]

end

/-- A size code outside 4 to 16 is refused. -/
theorem ringBad_of_size {b : Blk} {w : Nat} (size : bits w 4 0 < 4 ∨ 16 < bits w 4 0) :
    (b.setReg 0x14014 (ringCfgOf w false)).ringBad = true := by
  unfold Blk.ringBad Blk.regF
  rw [Blk.setReg_same, ringCfg_size]
  rcases size with low | high
  · simp [low]
  · simp [high]

theorem posOf_congr {v w : Nat} (place : bits v 15 0 = bits w 15 0) (lap : bit v 16 = bit w 16) (size : Nat) : posOf v size = posOf w size := by
  unfold posOf
  rw [place, lap]

/-- The place and the lap of a ring index, cut out of a word. -/
theorem indexBits (v : Nat) : bits (bits v 16 0) 15 0 = bits v 15 0 ∧ bit (bits v 16 0) 16 = bit v 16 := by
  constructor
  · unfold bits
    omega
  · unfold bit bits
    congr 1
    omega

section
variable {b : Blk} {w v : Nat} (index : bits w 16 0 = bits v 16 0)
include index

theorem posOf_ofIndex : posOf w b.decSize = posOf (bits v 16 0) b.decSize ∧ bits w 15 0 = bits v 15 0 := by
  obtain ⟨place, lap⟩ := indexBits v
  obtain ⟨place', lap'⟩ := indexBits w
  rw [← index] at place lap
  exact ⟨posOf_congr ((place'.symm.trans (congrArg (bits · 15 0) index))) ((lap'.symm.trans (congrArg (bit · 16) index))) _,
    place'.symm.trans place⟩

theorem ringRetWrite_moves (inside : bits v 15 0 < b.decSize) (written : (b.returned (bits v 16 0)).1 ≤ (b.returned (bits v 16 0)).2) :
    b.ringRetWrite w = b.setReg 0x14018 (bits v 16 0) := by
  obtain ⟨pos, place⟩ := posOf_ofIndex (b := b) index
  unfold Blk.returned at written
  unfold Blk.ringRetWrite
  simp only [pos, place, index, Nat.not_le.mpr inside, Nat.not_lt.mpr written, decide_false, Bool.or_self, Bool.false_eq_true, if_false]

theorem ringRetWrite_keeps (outside : b.decSize ≤ bits v 15 0 ∨ (b.returned (bits v 16 0)).2 < (b.returned (bits v 16 0)).1) :
    b.ringRetWrite w = b := by
  obtain ⟨pos, place⟩ := posOf_ofIndex (b := b) index
  unfold Blk.returned at outside
  unfold Blk.ringRetWrite
  rcases outside with outside | outside <;>
    simp only [pos, place, outside, decide_true, Bool.or_true, Bool.true_or, if_true]

end

theorem Msg.get_decSize {b c : Blk} (h : Msg b c) : c.decSize = b.decSize := by
  unfold Blk.decSize Blk.regF
  rw [h.get_reg]

theorem Msg.get_returned {b c : Blk} (h : Msg b c) (w : Nat) : c.returned w = b.returned w := by
  unfold Blk.returned
  rw [h.get_decSize, h.get_reg, h.sup]

/-- Settles O52: an epoch by REFCLK and whether Borage adapts, SUP_FREEZE by what it asks for, the decision ring's enable by its
configuration and a return by the records written. -/
theorem borageFollowsItsRules : Obligations.BorageFollowsItsRules := by
  intro s p hs on
  have msg := Blk.selected_msg s.core p
  have on' : (s.core.selected p).on 1 = true := by rwa [msg.get_on]
  refine ⟨?epoch, fun lost f => hs.does rfl (borageEpochB_unclocked lost f), fun opens keyed => ?freeze, fun w opens => ?ring,
    fun w opens => ?returns⟩
  case epoch =>
    rintro c rfl refclk
    exact ⟨fun adapts => hs.does rfl (borageEpochB_adapts on refclk adapts),
      fun f rests => hs.does rfl (borageEpochB_rests on refclk f rests)⟩
  case freeze =>
    refine ⟨fun f now => ?same, fun f now => ?changes, ?restores⟩
    case same =>
      obtain ⟨frozen, restore⟩ := freezeWord_bits (s.core.reg 0x14004) (b1 f)
      have does := row_supFreezeWrite s p f hs opens keyed
      rwa [freezeWrite_same (by rw [msg.get_reg, now, frozen]; cases f <;> rfl) (by rw [restore]; cases f <;> rfl)] at does
    case changes =>
      obtain ⟨frozen, restore⟩ := freezeWord_bits (s.core.reg 0x14004) (b1 f)
      have does := row_supFreezeWrite s p f hs opens keyed
      rwa [freezeWrite_changes on' (f := f) (by rw [frozen]; cases f <;> rfl) (by rw [msg.get_reg, now])
        (by rw [restore]; cases f <;> rfl)] at does
    case restores =>
      obtain ⟨frozen, restore⟩ := freezeWord_bits (s.core.reg 0x14004) (2 + s.core.regF 0x14004 0 0)
      obtain ⟨keeps, asks⟩ := restoreValue_bits (s.core.reg 0x14004)
      have does := row_supRestore s p hs opens keyed
      rwa [freezeWrite_restores on' (by rw [msg.get_reg, frozen]; exact keeps.symm) (restore.trans asks)] at does
  case ring =>
    obtain ⟨enables, dom, size⟩ := ringWord_bits (s.core.reg 0x14014) w
    have write : ∀ {b : Blk}, (s.core.selected p).ringCfgWrite (Fields.word { rw := 0x80FF001F } (s.core.reg 0x14014) (Nat.lor w.toNat (2 ^ 31))) = b →
        Does (.supRingEnable p w) s (b.answered p 0#64) := fun h => h ▸ row_supRingEnable s p w hs opens
    refine ⟨fun en => write ((ringCfgWrite_stays enables (by rwa [msg.get_reg])).trans (by rw [msg.get_reg])), ?_⟩
    rintro c rfl off
    have cfg := ringCfgWrite_enables (b := s.core.selected p) enables (by rwa [msg.get_reg]) dom size
    exact ⟨fun bad => write (cfg.trans (if_pos bad)), fun good => write (cfg.trans (if_neg (by rw [good]; simp))), ringBad_of_size⟩
  case returns =>
    have index : bits (Fields.word { rw := 0x1FFFF } (s.core.reg 0x14018) w.toNat) 16 0 = bits w.toNat 16 0 :=
      Fields.bits_word _ _ _ _ _ (by decide) (by decide) (by decide)
    have write : ∀ {b : Blk}, (s.core.selected p).ringRetWrite (Fields.word { rw := 0x1FFFF } (s.core.reg 0x14018) w.toNat) = b →
        Does (.supRingRetWrite p w) s (b.answered p 0#64) := fun h => h ▸ row_supRingRetWrite s p w hs opens
    rw [← msg.get_decSize, ← msg.get_returned]
    exact ⟨fun inside written => write (ringRetWrite_moves index inside written), fun outside => write (ringRetWrite_keeps index outside)⟩

/-! ## Temperature inputs (R322, R323) -/

theorem Blk.modTemp_same (b : Blk) (i : Nat) (f : TempIn → TempIn) : (b.modTemp i f).temp i = f (b.temp i) := tabGet_tabSet_same _ _ _ _

section
variable {b : Blk} {i : Nat} {x y : TempIn} (was : x = b.temp i)
include was

/-- An input is updated: its event when it is `loud` or what it wants changes, then the throttle level with its filtered code. -/
theorem tempUpdate_eq {f : TempIn → TempIn} (now : y = f x) (loud : Bool) : b.tempUpdate i loud f =
    (if loud || decide (y.wants ≠ x.wants) then (b.modTemp i fun _ => y).raise 1 (4 + i) else b.modTemp i fun _ => y).throttle (0x10 + i) y.code := by
  subst was now
  have held : ∀ raised : Bool, (if raised then (b.modTemp i f).raise 1 (4 + i) else b.modTemp i f).temp i = f (b.temp i) := by
    intro raised
    cases raised
    · exact Blk.modTemp_same b i f
    · unfold Blk.temp
      rw [if_pos rfl, Blk.raise_sup]
      exact Blk.modTemp_same b i f
  unfold Blk.tempUpdate
  simp only [Blk.modTemp_same, held]
  rfl

variable (on : b.on 1 = true) (used : b.tempOn i = true)
include on used

theorem tempSampleB_faults {c : Nat} (now : y = { x with fault := true, stale := false }) (bad : c = 0 ∨ c = 0x3FF) :
    tempSampleB i c b = ((b.modTemp i fun _ => y).raise 1 (4 + i)).throttle (0x10 + i) y.code := by
  unfold tempSampleB
  simp only [on, used, Bool.not_true, Bool.or_self, Bool.false_eq_true, if_false, if_pos bad]
  exact tempUpdate_eq was now true

theorem tempStaleB_stale (now : y = { x with stale := true }) :
    tempStaleB i b = ((b.modTemp i fun _ => y).raise 1 (4 + i)).throttle (0x10 + i) y.code := by
  unfold tempStaleB
  simp only [on, used, Bool.not_true, Bool.or_self, Bool.false_eq_true, if_false]
  exact tempUpdate_eq was now true

theorem tempSampleB_takes {c : Nat} (now : y = x.sampled (b.reg (0x14020 + 4 * i)) c) (low : c ≠ 0) (high : c ≠ 0x3FF) :
    tempSampleB i c b =
      (if y.wants ≠ x.wants then (b.modTemp i fun _ => y).raise 1 (4 + i) else b.modTemp i fun _ => y).throttle (0x10 + i) y.code := by
  have good : ¬ (c = 0 ∨ c = 0x3FF) := by omega
  unfold tempSampleB
  simp only [on, used, Bool.not_true, Bool.or_self, Bool.false_eq_true, if_false, if_neg good]
  refine (tempUpdate_eq was (f := fun x => x.sampled (b.reg (0x14020 + 4 * i)) c) now false).trans ?_
  simp only [Bool.false_or, decide_eq_true_eq]

end

/-! ## Shedding (R325) -/

/-- The oldest entry of the queue that is not all issued fails with THERMAL_SHED and the level. -/
theorem thermalShedB_fails {b : Blk} {q : QRef} {m k : Nat} {x : Binding} {e : Exec} (data : q.isCell = false) (level : 3 ≤ b.sup.applied)
    (enabled : b.regF 0x14044 15 0 ≠ 0) (held : heldAt b.sup.applied (b.svcOf q) = true) (bound : b.boundAt q = some (m, k))
    (binding : b.binding m k = some x) (first : (x.exec.find? fun e => !e.dead && !e.issuedAll) = some e) :
    thermalShedB q b = (b.failEntry m k e.pos 0x70 (infoOf [(0, 1, b.sup.applied)])).pump m k := by
  have level' : ¬ b.sup.applied < 3 := by omega
  unfold thermalShedB
  simp only [data, level', enabled, held, decide_false, Bool.not_true, Bool.or_self, Bool.false_eq_true, if_false, bound, binding, first]

/-! ## Process monitors (R326, Table 14-6) -/

section
variable {b : Blk} {d n : Nat} (on : b.on d = true) (serves : b.on 1 = true)
include on serves

theorem roWindowB_sets (unset : (b.mon d).refSet = false) (counts : n ≠ 0) : roWindowB d n b = b.modMon d fun x => { x with
    ref := n, refSet := true, count := n, critAt := bits (b.reg 0x14040) 15 8, critKHz := b.clock.mclkKHz, high := 0, low := 0, ok := 0, crit := 0 } := by
  unfold roWindowB
  simp [on, serves, unset, counts]

section
variable (set : (b.mon d).refSet = true) (notHigh : (b.mon d).high? (b.reg 0x14040) n = false)
include set notHigh

theorem roWindowB_inside (notLow : (b.mon d).low? (b.reg 0x14040) n = false) : roWindowB d n b = (b.modMon d fun x => { x with
    count := n, high := 0, low := 0, ok := min 2 (x.ok + 1), warn := if 1 ≤ x.ok then false else x.warn }).throttle 0x20 n := by
  unfold RoMon.high? at notHigh
  unfold RoMon.low? at notLow
  unfold roWindowB
  simp only [on, serves, set, notHigh, notLow, Bool.not_true, Bool.or_self, Bool.false_eq_true, if_false, OfNat.zero_ne_ofNat]
  have second : 2 ≤ min 2 ((b.mon d).ok + 1) ↔ 1 ≤ (b.mon d).ok := by omega
  have third : ¬ 2 ≤ 0 := by omega
  exact congrArg (fun c : Blk => c.throttle 0x20 n) (modMon_congr _ _ _ _ (by simp only [second, third, if_false]))

theorem roWindowB_warns (low : (b.mon d).low? (b.reg 0x14040) n = true) (second : (b.mon d).low = 1) :
    roWindowB d n b = ((b.modMon d fun x => { x with count := n, high := 0, low := 2, ok := 0, warn := true }).monVolt d).throttle 0x20 n := by
  unfold RoMon.high? at notHigh
  unfold RoMon.low? at low
  have two : min 3 (1 + 1) = 2 := rfl
  unfold roWindowB
  simp only [on, serves, set, notHigh, low, second, two, Bool.not_true, Bool.or_self, Bool.false_eq_true, if_false, if_true, OfNat.zero_ne_ofNat,
    le_refl]

end

section
variable (set : (b.mon d).refSet = true)
include set

theorem roFastWindowB_good (good : (b.mon d).crit? n = false) : roFastWindowB d n b = b.modMon d fun x => { x with crit := 0 } := by
  unfold RoMon.crit? at good
  unfold roFastWindowB
  simp only [on, serves, set, good]
  rfl

variable (bad : (b.mon d).crit? n = true)
include bad

theorem roFastWindowB_counts (first : (b.mon d).crit = 0) : roFastWindowB d n b = b.modMon d fun x => { x with crit := 1 } := by
  unfold RoMon.crit? at bad
  unfold roFastWindowB
  simp only [on, serves, set, bad, first]
  rfl

theorem roFastWindowB_breaches (second : (b.mon d).crit = 1) :
    roFastWindowB d n b = (b.modMon d fun x => { x with crit := 2 }).critBreach d := by
  unfold RoMon.crit? at bad
  unfold roFastWindowB
  simp only [on, serves, set, bad, second]
  rfl

end

end

/-- Settles O53: a sample by its code, the level from the highest wish, the entry that throttling sheds, and a monitor's windows by its
reference and its bounds. -/
theorem monitorsThrottleTheMovers : Obligations.MonitorsThrottleTheMovers := by
  intro s hs on
  refine ⟨fun i x hi used was => ?temperature, fun b cause metric => ?level, fun q m k x e wf data level enabled held bound binding first =>
    hs.does wf (thermalShedB_fails data level enabled held bound binding first), ?monitors⟩
  case temperature =>
    refine ⟨fun y c now bad => ?fault, fun y now => hs.does (by simp [hi]) (tempStaleB_stale was on used now), fun y c hc low high now => ?good⟩
    case fault =>
      have wf : c < 1024 := by omega
      exact hs.does (by simp [hi, wf]) (tempSampleB_faults was on used now bad)
    case good =>
      have takes := tempSampleB_takes was on used now low high
      exact ⟨fun same => hs.does (by simp [hi, hc]) (takes.trans (by rw [if_neg (not_not.mpr same)])),
        fun differs => hs.does (by simp [hi, hc]) (takes.trans (by rw [if_pos differs]))⟩
  case level =>
    obtain ⟨want, applied⟩ := throttle_level b cause metric
    exact ⟨want, applied⟩
  case monitors =>
    rintro d n x thr hd hn powered rfl rfl
    have wf : (Instr.roWindow d n).wf = true := Bool.and_eq_true_iff.mpr ⟨decide_eq_true hd, decide_eq_true hn⟩
    have fast : (Instr.roFastWindow d n).wf = true := wf
    exact ⟨fun unset counts => hs.does wf (roWindowB_sets powered on unset counts),
      fun set high low => hs.does wf (roWindowB_inside powered on set high low),
      fun set high low second => hs.does wf (roWindowB_warns powered on set high low second),
      fun set good => hs.does fast (roFastWindowB_good powered on set good),
      fun set bad first => hs.does fast (roFastWindowB_counts powered on set bad first),
      fun set bad second => hs.does fast (roFastWindowB_breaches powered on set bad second)⟩

end Sys2Proof.Machine

/-! SUPPORT. The power controller's asks and acknowledges by what the domain is, and O51. -/

namespace Sys2Proof.Machine
open Sys2Proof

/-! ## Asks to power down (R21, R258, R352) -/

section
variable {b : Blk} {d : Nat} (positive : 0 < d) (on : b.on d = true)
include positive on

theorem powerAskB_refuses (stays : b.mustStay d = true) (r : Bool) : powerAskB d r b =
    ({ b with power := { b.power with refused := incr 8 b.power.refused, last := d, refusePulse := addOnce d b.power.refusePulse } }).raise 0 6 := by
  unfold powerAskB
  simp [positive.ne', on, stays]

variable (goes : b.mustStay d = false) (r : Bool)
include goes

theorem powerAskB_grants (other5 : d ≠ 5) (other6 : d ≠ 6) (other7 : d ≠ 7) :
    powerAskB d r b = b.modPd d fun x => { x with req := false, going := true, retAsk := r } := by
  unfold powerAskB
  simp [positive.ne', on, goes]

theorem powerAskB_bank (bank : d = 5 ∨ d = 6) : powerAskB d r b =
    ((b.modPd d fun x => { x with req := false, going := true, retAsk := r }).modBanks fun x =>
      if d = 6 then { x with bOut := true } else { x with aOut := true }).jobsCheck := by
  unfold powerAskB
  rcases bank with rfl | rfl <;> simp [on, goes]

theorem powerAskB_fifos (fifos : d = 7) : powerAskB d r b =
    if r then b.modPd d fun x => { x with req := false, going := true, retAsk := r }
    else (b.modPd d fun x => { x with req := false, going := true, retAsk := r }).sfAllOff := by
  subst fifos
  unfold powerAskB
  simp [on, goes]

end

/-! ## Acknowledges lost, and of a power-down (R20, R352) -/

/-- The acknowledge of domain `d`'s power-down: it is off, or in retention where that was asked. -/
def Blk.pdDown (b : Blk) (d : Nat) : Blk := b.modPd d fun x => { x with ack := false, going := false, ret := x.retAsk, retAsk := false }

section
variable {b : Blk} {d : Nat} {x : PowDom} (positive : 0 < d) (dom : x = tabGet {} b.power.doms d) (ack : x.ack = true)
include positive dom ack

theorem powerAckLostB_breaches (req : x.req = true) : powerAckLostB d b = (b.modPd d fun x => { x with ack := false }).critBreach d := by
  subst dom
  unfold powerAckLostB
  simp [positive.ne', ack, req]

section
variable (req : x.req = false)
include req

/-- In a power-down of all domains the next in the order follows. -/
theorem powerDownAckB_next (turn : b.power.downs.head? = some d) : powerDownAckB d b = (Blk.downNext 26 (b.pdDown d)).powerStart := by
  subst dom
  have turn' : (b.pdDown d).power.downs.head? = some d := turn
  unfold Blk.pdDown at *
  unfold powerDownAckB
  simp [positive.ne', ack, req, turn']

variable (alone : b.power.downs.head? ≠ some d)
include alone

theorem powerDownAckB_keeps (kept : d < 8 ∨ x.retAsk = true) : powerDownAckB d b = b.pdDown d := by
  subst dom
  have alone' : (b.pdDown d).power.downs.head? ≠ some d := alone
  unfold Blk.pdDown at *
  unfold powerDownAckB
  rw [if_neg (by simp [positive.ne', ack, req]), if_neg alone', if_pos kept]

variable (mover : 8 ≤ d) (lost : x.retAsk = false)
include mover lost

theorem powerDownAckB_mover (off : (b.mover (d - 8)).state ≠ .failed) (free : b.movp.svc.busy = false) :
    powerDownAckB d b = (b.pdDown d).modMover (d - 8) fun v => { v with state := .off, cause := 0 } := by
  subst dom
  have alone' : (b.pdDown d).power.downs.head? ≠ some d := alone
  have stays : ¬ (((b.pdDown d).mover (d - 8)).state = .failed ∧ (!(tabGet ({} : PowDom) b.power.doms d).going) = true) := fun h => off h.1
  have free' : ((b.pdDown d).modMover (d - 8) fun v => { v with state := .off, cause := 0 }).movp.svc.busy = false := free
  unfold Blk.pdDown at *
  unfold powerDownAckB
  rw [if_neg (by simp [positive.ne', ack, req]), if_neg alone', if_neg (by simp [lost, mover])]
  dsimp only
  rw [if_neg stays, free']
  rfl

/-- The service command that asked for the power-down ends with it (R328). -/
theorem powerDownAckB_service (going : x.going = true) (busy : b.movp.svc.busy = true) (down : b.movp.svc.op = 2) (mine : b.movp.svc.mover = d - 8) :
    powerDownAckB d b = ((b.pdDown d).modMover (d - 8) fun v => { v with state := .off, cause := 0 }).svcEnd false 0 := by
  subst dom
  have alone' : (b.pdDown d).power.downs.head? ≠ some d := alone
  have stays : ¬ (((b.pdDown d).mover (d - 8)).state = .failed ∧ (!(tabGet ({} : PowDom) b.power.doms d).going) = true) := by simp [going]
  have svc : ((b.pdDown d).modMover (d - 8) fun v => { v with state := .off, cause := 0 }).movp.svc = b.movp.svc := rfl
  unfold Blk.pdDown at *
  unfold powerDownAckB
  rw [if_neg (by simp [positive.ne', ack, req]), if_neg alone', if_neg (by simp [lost, mover])]
  dsimp only
  rw [if_neg stays, svc, if_pos (by simp [busy, down, mine])]

end

end

/-- Settles O51: an ask by whether its domain must stay and which domain it is, a lost acknowledge, and the acknowledge of a
power-down by what follows it. -/
theorem powerAsksAreAnswered : Obligations.PowerAsksAreAnswered := by
  intro s d x hs positive hd dom
  have ask : ∀ r, (Instr.powerAsk d r).wf = true := fun r => by simp [hd]
  have down : (Instr.powerDownAck d).wf = true := by simp [hd]
  have lost : (Instr.powerAckLost d).wf = true := by simp [hd]
  refine ⟨fun r on stays => runRow_raise _ _ s _ 0 6 hs.functional (ask r) (powerAskB_refuses positive on stays r) hs.not_reload,
    fun r on goes o5 o6 o7 => hs.does (ask r) (powerAskB_grants positive on goes r o5 o6 o7),
    fun r on goes bank => hs.does (ask r) (powerAskB_bank positive on goes r bank),
    fun r on goes fifos => hs.does (ask r) (powerAskB_fifos positive on goes r fifos),
    fun req ack => hs.does lost (powerAckLostB_breaches positive dom ack req), fun req ack => ⟨?_, ?_, ?_, ?_⟩⟩
  · exact fun turn => hs.does down (powerDownAckB_next positive dom ack req turn)
  · exact fun alone kept => hs.does down (powerDownAckB_keeps positive dom ack req alone kept)
  · exact fun alone mover retains off free => hs.does down (powerDownAckB_mover positive dom ack req alone mover retains off free)
  · exact fun alone mover retains going busy op mine =>
      hs.does down (powerDownAckB_service positive dom ack req alone mover retains going busy op mine)

end Sys2Proof.Machine

/-! SUPPORT. Inbound packets: the doorbell apertures, the tunnel and the relays by what the packet is, and O54 and O55. -/

namespace Sys2Proof.Machine
open Sys2Proof

/-! ## What becomes of a packet before its aperture is asked (R338, R339) -/

section
variable {b : Blk} {p : Nat} {k : InPkt} (sl : Blk)

theorem inboundPacketB_deaf (deaf : b.inbLive p = false) : inboundPacketB p k sl b = b := by
  unfold inboundPacketB
  rw [deaf]
  rfl

variable (live : b.inbLive p = true)
include live

theorem inboundPacketB_noCredit (credit : b.noCredit p k = true) :
    inboundPacketB p k sl b = b.modCnt p fun c => { c with nocred := incr 8 c.nocred } := by
  unfold inboundPacketB
  rw [live, credit]
  rfl

variable (credit : b.noCredit p k = false)
include credit

theorem inboundPacketB_waits (waits : (b.port p).inbWait ≠ [] ∨ b.inbHeld p k = true) :
    inboundPacketB p k sl b = b.modPort p fun v => { v with inbWait := v.inbWait ++ [k] } := by
  have waits' : (!(b.port p).inbWait.isEmpty || b.inbHeld p k) = true := by
    rcases waits with first | held
    · simp [first]
    · simp [held]
  unfold inboundPacketB
  rw [live, credit, if_pos waits']
  rfl

theorem inboundPacketB_bad (first : (b.port p).inbWait = []) (room : b.inbHeld p k = false)
    (bad : k.badHeader = true ∨ (k.isWrite && k.poison) = true) : inboundPacketB p k sl b = b.inbDrop p := by
  unfold inboundPacketB Blk.inbTake
  rw [live, credit, room, first]
  rcases bad with header | poison
  · rw [header]
    rfl
  · rw [if_pos poison]
    simp

end

/-! ## The doorbell apertures (Table 15-4) -/

section
variable {b : Blk} {p : Nat} {k : InPkt}

theorem doorbellIn_line (from_ : 0x202000 ≤ k.addr) (upto : k.addr < 0x206000) (placed : k.addr % 4 = 0) :
    b.doorbellIn p k = vrlMessageB ((k.addr - 0x202000) / 4) k.dom k.len (leAt k.data 0 4) b := by
  unfold Blk.doorbellIn
  exact (if_pos ⟨from_, upto⟩).trans (if_pos placed)

theorem doorbellIn_strobe (at_ : k.addr = 0x206000) (len : k.len = 4) :
    b.doorbellIn p k = updStrobeMsgB (leAt k.data 0 4 % 2 ^ 16) 4 b := by
  unfold Blk.doorbellIn
  exact (if_neg (by omega)).trans ((if_pos (by omega)).trans (if_pos ⟨at_, len⟩))

/-- Below the virtual lines an aligned write falls to its doorbell slot. -/
theorem doorbellIn_slot (low : k.addr < 0x202000) (placed : k.addr % 8 = 0) : b.doorbellIn p k =
    if k.addr < 0x200000 then nudgeB (.dom (k.addr / 8)) k.dom k.len (leAt k.data 0 4) b
    else if k.addr < 0x200200 then nudgeB (.cell ((k.addr - 0x200000) / 8)) k.dom k.len (leAt k.data 0 4) b
    else if 0x200800 ≤ k.addr ∧ k.addr < 0x201000 then adminNudgeB ((k.addr - 0x200800) / 8) k.dom k.len (leAt k.data 0 4) b
    else if 0x201000 ≤ k.addr ∧ k.addr < 0x201800 then adminCplReturnB ((k.addr - 0x201000) / 8) k.dom k.len (leAt k.data 0 4) b
    else if 0x201800 ≤ k.addr ∧ k.addr < 0x202000 then eventRingReturnB ((k.addr - 0x201800) / 8) k.dom k.len (leAt k.data 0 4) b
    else b.inbDrop p := by
  unfold Blk.doorbellIn
  exact (if_neg (by omega)).trans ((if_neg (by omega)).trans (if_neg (by omega)))

theorem doorbellIn_nowhere (hole : 0x200200 ≤ k.addr ∧ k.addr < 0x200800 ∨ 0x206004 ≤ k.addr) : b.doorbellIn p k = b.inbDrop p := by
  by_cases placed : k.addr % 8 = 0
  · unfold Blk.doorbellIn
    dsimp only
    rw [if_neg (by omega), if_neg (by omega), if_neg (by omega), if_neg (by omega), if_neg (by omega), if_neg (by omega),
      if_neg (by omega), if_neg (by omega)]
  · unfold Blk.doorbellIn
    exact (if_neg (by omega)).trans ((if_neg (by omega)).trans (if_pos placed))

end

/-! ## Reads and the tunnel (R344, R362) -/

section
variable {b : Blk} {p : Nat} {k : InPkt} (sl : Blk)

theorem inbRefuse_write (write : k.isWrite = true) : b.inbRefuse p k = b.inbDrop p := by
  unfold Blk.inbRefuse
  rw [write]
  rfl

theorem inbRefuse_read (read : k.isWrite = false) : b.inbRefuse p k = (b.inbDrop p).sendCpl p k.tag k.gen k.addr 1 [] .reject := by
  unfold Blk.inbRefuse
  rw [read]
  rfl

variable (takes : b.Takes p k)
include takes

theorem inbound_read (read : k.isWrite = false) (outside : inTunnel k.addr = false) :
    inboundPacketB p k sl b = (b.inbDrop p).sendCpl p k.tag k.gen k.addr 1 [] .reject := by
  rw [inbound_takes sl takes, outside, read]
  exact inbRefuse_read read

theorem inbound_tunnel (tunnel : (inTunnel k.addr && !k.relay) = true) : inboundPacketB p k sl b = b.tunnelIn sl p k := by
  rw [inbound_takes sl takes, if_pos tunnel]

end

theorem tunnelAccessB_tunnel {p : Nat} {k : InPkt} (tunnel : (inTunnel k.addr && !k.relay) = true) (sl b : Blk) :
    tunnelAccessB p k sl b = inboundPacketB p k sl b := if_pos tunnel

section
variable {s : State} {p : Nat} {k : InPkt}

/-- A plain write that a doorbell aperture answers as another command answers is that command. -/
theorem exec_inboundPacket_bell (hs : s.Serves) (wf : (Instr.inboundPacket p k).wf = true) (takes : s.core.Takes p k) (write : k.isWrite = true)
    (plain : k.relay = false) (low : k.addr < 0x400000) {j : Instr} {g : Blk → Blk}
    (row : Sys2Proof.Machine.exec j s = runRow j g s) (wf' : j.wf = true) (bell : s.core.doorbellIn p k = g s.core) :
    Sys2Proof.Machine.exec (.inboundPacket p k) s = Sys2Proof.Machine.exec j s := by
  rw [exec_inboundPacket, row]
  exact runRow_same _ _ _ _ s hs.functional wf wf' ((inbound_bell s.slow takes write plain (low_tunnel (.inl low))).trans bell)

end

/-- Settles O54: a packet by liveness, credit, room and header, a plain write by the aperture its offset names, and a tunnel packet by
whether the image admits it. -/
theorem inboundPacketsFollowTheApertures : Obligations.InboundPacketsFollowTheApertures := by
  intro s p k v hs hp hk value
  have wf : (Instr.inboundPacket p k).wf = true := by simp [hp, hk]
  have tunnelWf : (Instr.tunnelAccess p k).wf = true := by simp [hp, hk]
  have does : ∀ {b : Blk}, inboundPacketB p k s.slow s.core = b → Does (.inboundPacket p k) s b :=
    fun h => inboundPacket_does hs.functional wf h hs.not_reload
  refine ⟨fun deaf => does (inboundPacketB_deaf s.slow deaf), fun live credit => does (inboundPacketB_noCredit s.slow live credit),
    fun live credit => ⟨fun waits => does (inboundPacketB_waits s.slow live credit waits),
      fun first room bad => does (inboundPacketB_bad s.slow live credit first room bad)⟩,
    fun takes => ⟨fun write plain => ?bells, fun read outside => does (inbound_read s.slow takes read outside), fun tunnel plain => ?tunnel⟩⟩
  case bells =>
    have word : v < 4294967296 := by
      have lt := leAt4_lt k.data 0
      omega
    have bell := @exec_inboundPacket_bell s p k hs wf takes write plain
    refine ⟨fun h placed => ?_, fun l h placed => ?_, fun l h placed => ?_, fun l h placed => ?_, fun l h placed => ?_, fun l h placed => ?_,
      fun h len => ?_, fun hole => ?_⟩
    · have number : k.addr / 8 < 262144 := by omega
      refine bell (by omega) (exec_nudge _ _ _ _ s) (by simp [QRef.wf, number, word]) ?_
      rw [doorbellIn_slot (by omega) placed, if_pos h, value]
    · have number : (k.addr - 0x200000) / 8 < 64 := by omega
      refine bell (by omega) (exec_nudge _ _ _ _ s) (by simp [QRef.wf, number, word]) ?_
      rw [doorbellIn_slot (by omega) placed, if_neg (by omega), if_pos h, value]
    · have number : (k.addr - 0x200800) / 8 < 256 := by omega
      refine bell (by omega) (exec_adminNudge _ _ _ _ s) (by simp [number, word]) ?_
      rw [doorbellIn_slot (by omega) placed, if_neg (by omega), if_neg (by omega), if_pos ⟨l, h⟩, value]
    · have number : (k.addr - 0x201000) / 8 < 256 := by omega
      refine bell (by omega) (exec_adminCplReturn _ _ _ _ s) (by simp [number, word]) ?_
      rw [doorbellIn_slot (by omega) placed, if_neg (by omega), if_neg (by omega), if_neg (by omega), if_pos ⟨l, h⟩, value]
    · have number : (k.addr - 0x201800) / 8 < 256 := by omega
      refine bell (by omega) (exec_eventRingReturn _ _ _ _ s) (by simp [number, word]) ?_
      rw [doorbellIn_slot (by omega) placed, if_neg (by omega), if_neg (by omega), if_neg (by omega), if_neg (by omega), if_pos ⟨l, h⟩, value]
    · have number : (k.addr - 0x202000) / 4 < 4096 := by omega
      refine bell (by omega) (exec_vrlMessage _ _ _ _ s) (by simp [number, word]) ?_
      rw [doorbellIn_line l h placed, value]
    · refine bell (by omega) (exec_updStrobeMsg _ _ s) rfl ?_
      rw [doorbellIn_strobe h len, value]
    · exact does ((inbound_bell s.slow takes write plain (low_tunnel (by omega))).trans (doorbellIn_nowhere (by omega)))
  case tunnel =>
    have inside : (inTunnel k.addr && !k.relay) = true := by simp [tunnel, plain]
    have row : tunnelAccessB p k s.slow s.core = s.core.tunnelIn s.slow p k :=
      (tunnelAccessB_tunnel inside s.slow s.core).trans (inbound_tunnel s.slow takes inside)
    have tunnelDoes : ∀ {b : Blk}, s.core.tunnelIn s.slow p k = b → Does (.tunnelAccess p k) s b :=
      fun h => tunnelAccess_does hs.functional tunnelWf (row.trans h) hs.not_reload
    refine ⟨fun admits => tunnelDoes (if_pos admits), fun refuses write => ?_, fun refuses read => ?_, ?_⟩
    · exact tunnelDoes ((if_neg (by simp [refuses])).trans (inbRefuse_write write))
    · exact tunnelDoes ((if_neg (by simp [refuses])).trans (inbRefuse_read read))
    · rw [exec_tunnelAccess, exec_inboundPacket]
      exact runRow_same _ _ _ _ s hs.functional tunnelWf wf (tunnelAccessB_tunnel inside s.slow s.core)

/-! ## Relays (R363) -/

/-- The states in which a relayed descriptor is dropped, as a list. -/
theorem dropsRelay_iff (ph : QPhase) : ph.dropsRelay = true ↔ ph ∈ [QPhase.stopped, .halted, .lost, .destroying] := by
  cases ph <;> decide

section
variable {b : Blk} {p : Nat} {k : InPkt} {q : QRef} (names : q = if k.relayCell then .cell k.relayQid else .dom k.relayQid)
include names

theorem relayIn_drops (bad : k.relayInst ≠ b.img.ident.inst ∨ b.exists? q = false ∨ k.dom ≠ (b.queue q).cfg.dom
    ∨ (b.queue q).run.phase ∈ [QPhase.stopped, .halted, .lost, .destroying]) :
    b.relayIn p k = { b with relayDrops := incr 8 b.relayDrops } := by
  subst names
  rw [← dropsRelay_iff] at bad
  refine if_pos ?_
  rcases bad with inst | absent | dom | phase
  · simp [inst]
  · unfold relayQueue
    simp [absent]
  · unfold relayQueue
    simp [dom]
  · unfold relayQueue
    simp [phase]

theorem relayIn_takes (inst : k.relayInst = b.img.ident.inst) (here : b.exists? q = true) (dom : k.dom = (b.queue q).cfg.dom)
    (phase : (b.queue q).run.phase ∉ [QPhase.stopped, .halted, .lost, .destroying]) :
    b.relayIn p k = Blk.modPort { b with relaySeq := b.relaySeq + 1 } p fun v =>
      { v with relays := v.relays ++ [⟨q, k.data, b.relaySeq, false, false⟩] } := by
  subst names
  rw [← dropsRelay_iff, Bool.not_eq_true] at phase
  refine if_neg ?_
  unfold relayQueue
  simp [inst, here, ← dom, phase]

end

section
variable {b : Blk} {p : Nat} {k : InPkt} (sl : Blk) (takes : b.Takes p k) (write : k.isWrite = true) (relay : k.relay = true)
include takes write relay

theorem relayWriteB_relay : relayWriteB p k sl b = if relayPlaced k then b.relayIn p k else b.inbDrop p := by
  have isRelay : (k.isWrite && k.relay) = true := by simp [write, relay]
  unfold relayWriteB
  rw [if_pos isRelay, inbound_takes sl takes]
  simp [write, relay]

end

/-! ## The oldest relay's turn (R363) -/

/-- What a relay to a resident queue does: it waits for room, or is written at the tail. -/
def Blk.relayTo (b : Blk) (p : Nat) (r : Relay) (x : Queue) : Blk :=
  if x.relayRoom then
    nudgeB r.q x.cfg.dom 8 (x.next x.run.rtail % x.size + 65536 * lapOf (x.next x.run.rtail) x.size)
      (((b.modPort p fun v => { v with relays := markRelay r.seq false true v.relays }).sendWrite (x.entryAddr x.run.rtail)
        (x.relayBytes r.desc) x.cfg.dom 0 (.relayRing r.q) false).modRun r.q fun y => { y with rtail := x.next x.run.rtail })
  else if r.waited then b
  else Blk.modPort { b with relayWaits := incr 8 b.relayWaits } p fun v => { v with relays := markRelay r.seq true false v.relays }

section
variable {b : Blk} {p : Nat}

theorem relayRingWriteB_none (turn : b.relayTurn p = none) : relayRingWriteB p b = b := by
  unfold Blk.relayTurn at turn
  unfold relayRingWriteB
  simp only [turn]

variable {r : Relay} (turn : b.relayTurn p = some r)
include turn

theorem relayRingWriteB_drops (gone : (b.queue r.q).run.phase = .free ∨ (b.queue r.q).run.phase = .destroying) :
    relayRingWriteB p b = { b.dropRelay r.seq with relayDrops := incr 8 b.relayDrops } := by
  unfold Blk.relayTurn at turn
  unfold relayRingWriteB
  rcases gone with free | destroying
  · simp only [turn, free]
  · simp only [turn, destroying]

theorem relayRingWriteB_refills (spilled : (b.queue r.q).run.phase = .spilled) : relayRingWriteB p b = b.wantRefill r.q.num := by
  unfold Blk.relayTurn at turn
  unfold relayRingWriteB
  simp only [turn, spilled]

theorem relayRingWriteB_resident (resident : (b.queue r.q).run.phase ∈ [QPhase.idle, .bound, .stopping, .stopped, .halted, .lost]) :
    relayRingWriteB p b = b.relayTo p r (b.queue r.q) := by
  unfold Blk.relayTurn at turn
  unfold relayRingWriteB Blk.relayTo
  simp only [markRelay_waited, markRelay_written]
  simp only [List.mem_cons, List.not_mem_nil, or_false] at resident
  rcases resident with phase | phase | phase | phase | phase | phase <;>
    (simp only [turn, phase]
     cases (b.queue r.q).relayRoom <;> rfl)

end

/-- Settles O55: a relay write by its placement and the queue it names, and the relay whose turn it is by its queue's state and room. -/
theorem relaysReachTheirRings : Obligations.RelaysReachTheirRings := by
  intro s p hs hp
  refine ⟨fun k q hk takes write relay names => ?writes, fun turn => hs.does (by simp [hp]) (relayRingWriteB_none turn), ?turns⟩
  case writes =>
    have wf : (Instr.relayWrite p k).wf = true := by simp [hp, hk]
    have row := relayWriteB_relay s.slow takes write relay
    have does : ∀ {b : Blk}, (if relayPlaced k then s.core.relayIn p k else s.core.inbDrop p) = b → Does (.relayWrite p k) s b :=
      fun h => relayWrite_does hs.functional wf (row.trans h) hs.not_reload
    refine ⟨fun misplaced => does (if_neg (by simp [misplaced])), fun placed => ⟨fun bad => ?_, fun inst here dom phase => ?_⟩⟩
    · exact does ((if_pos placed).trans (relayIn_drops names bad))
    · exact does ((if_pos placed).trans (relayIn_takes names inst here dom phase))
  case turns =>
    rintro r x turn rfl
    have wf : (Instr.relayRingWrite p).wf = true := by simp [hp]
    refine ⟨fun gone => hs.does wf (relayRingWriteB_drops turn gone), fun spilled => hs.does wf (relayRingWriteB_refills turn spilled),
      fun resident => ?_⟩
    have row := relayRingWriteB_resident turn resident
    refine ⟨fun full first => ?_, fun full again => ?_, ?_⟩
    · exact hs.does wf (row.trans ((if_neg (by simp [full])).trans (if_neg (by simp [first]))))
    · exact hs.does wf (row.trans ((if_neg (by simp [full])).trans (if_pos again)))
    · rintro b room rfl
      exact hs.does wf (row.trans (if_pos room))

end Sys2Proof.Machine

/-! SUPPORT. The reset of a management port, part by part, and O10. -/

namespace Sys2Proof.Machine
open Sys2Proof

/-! ## The parts of a port reset (R334) -/

/-- The accepted accesses of the port are discarded; a tunnel read has its refusal. -/
def Blk.answersLost (b : Blk) (p : MPort) : Blk :=
  (b.side p).outstanding.foldl (fun b a => match a.tunnel with
    | some t => b.tunnelBack p t 0#64 true
    | none => b) b

/-- The SHD writes of the port whose answers are discarded are pending. -/
def Blk.shadowsTaken (b : Blk) (p : MPort) : Blk := (b.inShadow.filter fun w => decide (w.port = p)).foldl Blk.shdAnswered b

/-- The port's side returns to its reset values. -/
def Blk.sideReset (b : Blk) (p : MPort) : Blk :=
  (b.mbxAbandon p).modSide p fun s => { s with outstanding := [], returned := none, remain := 0, mbx := {}, evtCount := [] }

/-- Semaphore `n` is freed and logged where the port holds it (R67). -/
def Blk.semFreed (p : MPort) (b : Blk) (n : Nat) : Blk :=
  if b.semOwner n = some p then (b.setSem n none).logRec 7 0 2 false 0 (0x01100 + 4 * n) else b

theorem portResetB_eq (p : MPort) (b : Blk) :
    portResetB p b = (List.range 64).foldl (Blk.semFreed p) (((b.answersLost p).shadowsTaken p).sideReset p) := rfl

/-! ## What each part leaves -/

/-- `c` differs from `b` only in the shadows and where an event and its message write. -/
def MsgOrShadow (b c : Blk) : Prop := Msg { b with shadow := c.shadow, inShadow := c.inShadow } c

theorem MsgOrShadow.trans {a b c : Blk} (h : MsgOrShadow a b) (k : MsgOrShadow b c) : MsgOrShadow a c := by
  unfold MsgOrShadow Msg at *
  rw [h] at k
  exact k

theorem Msg.orShadow {b c : Blk} (h : Msg b c) : MsgOrShadow b c := by
  unfold MsgOrShadow Msg at *
  rw [h]

theorem Blk.answersLost_sent (b : Blk) (p : MPort) : Sent b (b.answersLost p) :=
  foldl_sent _ (fun c a => by
    cases a.tunnel with
    | none => rfl
    | some t => exact tunnelBack_sent c p t 0#64 true) _ b

theorem Blk.answersLost_none {b : Blk} {p : MPort} (none : (b.side p).outstanding = []) : b.answersLost p = b := by
  unfold Blk.answersLost
  rw [none]
  rfl

/-- An SHD write that becomes pending changes the shadows alone (R59). -/
theorem foldl_shdAnswered (l : List ShdWrite) (b : Blk) :
    l.foldl Blk.shdAnswered b = { b with shadow := (l.foldl Blk.shdAnswered b).shadow, inShadow := (l.foldl Blk.shdAnswered b).inShadow } := by
  induction l generalizing b with
  | nil => rfl
  | cons w l ih => exact (ih (b.shdAnswered w))

theorem Blk.shadowsTaken_mg (b : Blk) (p : MPort) : (b.shadowsTaken p).mg = b.mg := by
  unfold Blk.shadowsTaken
  rw [foldl_shdAnswered]

theorem Blk.shadowsTaken_orShadow (b : Blk) (p : MPort) : MsgOrShadow b (b.shadowsTaken p) := by
  unfold MsgOrShadow Msg Blk.shadowsTaken
  rw [foldl_shdAnswered]

theorem Blk.shadowsTaken_none {b : Blk} {p : MPort} (none : b.inShadow = []) : b.shadowsTaken p = b := by
  unfold Blk.shadowsTaken
  rw [none]
  rfl

theorem Blk.sideReset_msg (b : Blk) (p : MPort) : Msg b (b.sideReset p) := by cases p <;> rfl

theorem Blk.sideReset_semOwner (b : Blk) (p : MPort) (n : Nat) : (b.sideReset p).semOwner n = b.semOwner n := by cases p <;> rfl

theorem Blk.sideReset_same (b : Blk) (p : MPort) :
    (b.sideReset p).side p = { b.side p with outstanding := [], returned := none, remain := 0, mbx := {}, evtCount := [] } := by
  unfold Blk.sideReset
  rw [Blk.modSide_same]
  cases p <;> rfl

theorem Blk.sideReset_other (b : Blk) {p q : MPort} (other : q ≠ p) : (b.sideReset p).side q = b.side q := by
  unfold Blk.sideReset
  rw [Blk.modSide_other _ _ _ _ other]
  cases q <;> rfl

/-! ## The release of the semaphores (R67) -/

theorem Blk.setSem_side (b : Blk) (n : Nat) (o : Option MPort) (q : MPort) : (b.setSem n o).side q = b.side q := by cases q <;> rfl

theorem Blk.setSem_other (b : Blk) {n m : Nat} (o : Option MPort) (other : m ≠ n) : (b.setSem n o).semOwner m = b.semOwner m :=
  tabGet_tabSet_at _ _ _ _ _ _ other

/-- An access-log record leaves a port's event counts at 256 (R64). -/
theorem Blk.logRec_counts (b : Blk) (kind port size : Nat) (write : Bool) (sub addr : Nat) (p : MPort)
    (full : ∀ g, tabGet 256 (b.side p).evtCount g = 256) :
    ∀ g, tabGet 256 ((b.logRec kind port size write sub addr).side p).evtCount g = 256 := by
  unfold Blk.logRec
  exact Blk.raise_counts _ _ _ p (by cases p <;> exact full)

/-- The release of semaphore `N` after those below it. -/
theorem semFreed_keeps {p : MPort} {c b : Blk} {N : Nat} (h : K p c N b) : K p c (N + 1) (b.semFreed p N) := by
  obtain ⟨msg, outstanding, remain, mbx, counts, below, above, others⟩ := h
  have owner := above N (Nat.le_refl N)
  by_cases held : b.semOwner N = some p
  · have freed : b.semFreed p N = (b.setSem N none).logRec 7 0 2 false 0 (0x01100 + 4 * N) := if_pos held
    have sideOf := fun q => logRec_side (b.setSem N none) 7 0 2 false 0 (0x01100 + 4 * N) q
    simp only [Blk.setSem_side] at sideOf
    obtain ⟨out, live, box⟩ := sideOf p
    rw [freed]
    refine ⟨(msg.trans (Blk.setSem_msg b N none)).trans (Blk.logRec_msg _ _ _ _ _ _ _), out.trans outstanding, live.trans remain, box.trans mbx,
      Blk.logRec_counts _ _ _ _ _ _ _ p (by rw [Blk.setSem_side]; exact counts), fun n hn => ?_, fun n hn => ?_, fun q hq => ?_⟩
    · rw [Blk.logRec_semOwner]
      by_cases last : n = N
      · rw [last, Blk.setSem_semOwner, ← owner, if_pos held]
      · rw [Blk.setSem_other b none last]
        exact below n (by omega)
    · rw [Blk.logRec_semOwner, Blk.setSem_other b none (by omega)]
      exact above n (by omega)
    · obtain ⟨out', live', box'⟩ := sideOf q
      obtain ⟨out0, live0, box0⟩ := others q hq
      exact ⟨out'.trans out0, live'.trans live0, box'.trans box0⟩
  · have kept : b.semFreed p N = b := if_neg held
    rw [kept]
    refine ⟨msg, outstanding, remain, mbx, counts, fun n hn => ?_, fun n hn => above n (by omega), others⟩
    by_cases last : n = N
    · rw [last, ← owner, if_neg held]
    · exact below n (by omega)

theorem semsFreed_keep {p : MPort} {c : Blk} (start : K p c 0 c) (N : Nat) : K p c N ((List.range N).foldl (Blk.semFreed p) c) := by
  induction N with
  | zero => exact start
  | succ N ih =>
    rw [fold_range_succ]
    exact semFreed_keeps ih

/-- A port that holds no semaphore releases none. -/
theorem semsFreed_none {p : MPort} {c : Blk} (N : Nat) (none : ∀ n, n < N → c.semOwner n ≠ some p) :
    (List.range N).foldl (Blk.semFreed p) c = c := by
  induction N with
  | zero => rfl
  | succ N ih =>
    rw [fold_range_succ, ih fun n hn => none n (by omega)]
    exact if_neg (none N (by omega))

theorem sideReset_start (b : Blk) (p : MPort) : K p (b.sideReset p) 0 (b.sideReset p) := by
  have side := Blk.sideReset_same b p
  exact ⟨Msg.refl _, by rw [side], by rw [side], by rw [side], fun g => by rw [side]; rfl, fun n hn => absurd hn (Nat.not_lt_zero n),
    fun _ _ => rfl, fun _ _ => ⟨rfl, rfl, rfl⟩⟩

/-- Settles O10: the parts of the reset in turn, then the semaphores one by one. -/
theorem portResetReleasesThePort : Obligations.PortResetReleasesThePort := by
  intro s p functional serves
  have does : ∀ {b : Blk}, portResetB p s.core = b → Does (.portReset p) s b := fun h => runRow_does _ _ s _ functional rfl h serves
  refine ⟨fun outstanding shadows sems => does ?_, _, does rfl, ?_⟩
  · rw [portResetB_eq, Blk.answersLost_none outstanding, Blk.shadowsTaken_none shadows]
    exact semsFreed_none 64 fun n hn => by rw [Blk.sideReset_semOwner]; exact sems n hn
  · rw [portResetB_eq]
    have sent := Blk.answersLost_sent s.core p
    have reset := Blk.sideReset_msg ((s.core.answersLost p).shadowsTaken p) p
    have mg : ((s.core.answersLost p).shadowsTaken p).mg = s.core.mg := (Blk.shadowsTaken_mg _ _).trans sent.mg
    have sems : ∀ n, (((s.core.answersLost p).shadowsTaken p).sideReset p).semOwner n = s.core.semOwner n := fun n =>
      (Blk.sideReset_semOwner _ _ _).trans (congrArg (fun m : Mgmt => tabGet none m.sems n) mg)
    have sides : ∀ q, q ≠ p → (((s.core.answersLost p).shadowsTaken p).sideReset p).side q = s.core.side q := fun q hq => by
      rw [Blk.sideReset_other _ hq]
      unfold Blk.side
      rw [mg]
    obtain ⟨msg, outstanding, remain, mbx, counts, freed, -, others⟩ := semsFreed_keep (sideReset_start _ p) 64
    refine ⟨(sent.msg.orShadow.trans (Blk.shadowsTaken_orShadow _ p)).trans (reset.trans msg).orShadow, fun none => ?_, outstanding, remain, mbx,
      counts, fun n hn => ?_, fun q hq => ?_⟩
    · have none' : (s.core.answersLost p).inShadow = [] := by rw [sent]; exact none
      have taken := Blk.shadowsTaken_none (p := p) none'
      have end_ := reset.trans msg
      rw [taken] at end_ ⊢
      refine ⟨end_.shadow.trans (by rw [sent]), ?_⟩
      rw [end_]
      exact none'
    · rw [freed n hn, sems]
    · rw [← sides q hq]
      exact others q hq

end Sys2Proof.Machine
